-- ==== Sys2Proof/Word.lean ====
section
/-! DEFINITION. The words of the machine: bytes, 32-bit words, 6-byte voice masks, and `Tab`, a table of a fixed
number of like things (48 voices, 8 zones, 4 engines). -/

namespace Sys2Proof

abbrev Byte := BitVec 8
abbrev Word16 := BitVec 16
abbrev Word := BitVec 32
/-- A voice mask (05 R136): bit k stands for voice Vk. -/
abbrev Mask := BitVec 48

/-- A table of `n` entries: plain data that carries its own length, so that an index of type `Fin n` always reads. -/
structure Tab (α : Type) (n : Nat) where
  list : List α
  size : list.length = n
deriving DecidableEq, Repr

/-- The table with one value everywhere. -/
def Tab.fill {α : Type} (n : Nat) (a : α) : Tab α n := ⟨List.replicate n a, List.length_replicate⟩

/-- The table of a function on its indices. -/
def Tab.ofFn {α : Type} {n : Nat} (f : Fin n → α) : Tab α n := ⟨List.ofFn f, List.length_ofFn⟩

/-- Entry `i`. -/
def Tab.get {α : Type} {n : Nat} (t : Tab α n) (i : Fin n) : α :=
  t.list[i.val]'(by rw [t.size]; exact i.isLt)

/-- The table with entry `i` replaced. -/
def Tab.set {α : Type} {n : Nat} (t : Tab α n) (i : Fin n) (a : α) : Tab α n :=
  ⟨t.list.set i.val a, by rw [List.length_set]; exact t.size⟩

/-- The table with a function applied to entry `i`. -/
def Tab.modify {α : Type} {n : Nat} (t : Tab α n) (i : Fin n) (f : α → α) : Tab α n :=
  t.set i (f (t.get i))

/-- The table with a function applied to every entry. -/
def Tab.map {α β : Type} {n : Nat} (t : Tab α n) (f : α → β) : Tab β n :=
  ⟨t.list.map f, by rw [List.length_map]; exact t.size⟩

/-- The table with a function of the index and the entry applied to every entry. -/
def Tab.mapIdx {α β : Type} {n : Nat} (t : Tab α n) (f : Fin n → α → β) : Tab β n :=
  Tab.ofFn fun i => f i (t.get i)

/-- Every entry satisfies `p`. -/
def Tab.all {α : Type} {n : Nat} (t : Tab α n) (p : α → Bool) : Bool := t.list.all p

/-- Some entry satisfies `p`. -/
def Tab.any {α : Type} {n : Nat} (t : Tab α n) (p : α → Bool) : Bool := t.list.any p

/-- How many entries satisfy `p`. -/
def Tab.count {α : Type} {n : Nat} (t : Tab α n) (p : α → Bool) : Nat := t.list.countP p

/-- The indices 0 to n − 1 in ascending order. -/
def idx (n : Nat) : List (Fin n) := List.ofFn fun i => i

/-- A counter of `w` bits that sticks at its maximum (21 R556). -/
def stick (w : Nat) (n : Nat) : Nat := min n (2 ^ w - 1)

end Sys2Proof
end

