-- ==== Sys2Proof/Syntax.lean ====
section
/-! DEFINITION. The commands of the block: one constructor of `Instr` per row of spec/opcode_table.json, in the
table's order. A happening carries `dt`, the control clock slots of 8 ticks (00 R8) that pass before it, and what the
pins, the links or the analog side show at it. An opcode row carries its packet's DEST, TAG and PARAMS (03 R84); a row
that is one action of an opcode carries the PARAMS that follow the action. -/

namespace Sys2Proof

/-- DEST and TAG of a packet (03 R84): bit 7 of DEST is DB. -/
structure Hdr where
  dest : Byte
  tag : Byte
deriving DecidableEq, Repr

/-- A packet of one opcode: DEST, TAG and PARAMS (03 R84). -/
structure Pkt where
  dest : Byte
  tag : Byte
  params : List Byte
deriving DecidableEq, Repr

/-- A voice number, V0 to V47 (00 Nicknames). -/
abbrev VoiceId := Fin 48
/-- A bank, A to D as 0 to 3 (06 R170). -/
abbrev BankId := Fin 4
/-- A zone, 0 to 7 (13 R354). -/
abbrev ZoneId := Fin 8
/-- A converter engine, E0 to E3 (11 R301). -/
abbrev EngineId := Fin 4

/-- What the descant measures at a fault (11 R313): the current in units of 10 mA and the bank voltage in units of
10 mV (07 R227). -/
structure Meas where
  current : Int
  bank : Nat
deriving DecidableEq, Repr

/-- Why control boot did not complete (02 R40, 21 R549). -/
inductive BootFailure where
  | romCrc | otpTrims | powerDieSilent
deriving DecidableEq, Repr

/-- How a time base loss is detected (09 R255). -/
inductive LossCause where
  | clock | word | mismatch
deriving DecidableEq, Repr

/-- How a mailbox message arrives at the Score (01 R20, R36), or that VMET collapses while the Score serves it, when so many
of the records it writes are in the trail and, with the last of them, the set log (15 R441). -/
inductive MailboxFate where
  | whole | badLength | badCrc | badOpcode | partMessage
  | powerCut (written : Nat) (logged : Bool)
deriving DecidableEq, Repr

/-- A voice or a zone: the units of the thermal thresholds (13 R363). -/
inductive ThermUnit where
  | voice (v : VoiceId)
  | zone (z : ZoneId)
deriving DecidableEq, Repr

/-- What a bank overvoltage happening is (17 R491, R493). -/
inductive OvChange where
  | holdBegin | offBegin | offEnd | holdEnd
deriving DecidableEq, Repr

/-- The three results of a check of a unit outside the voices (07 R223). -/
inductive CheckResult where
  | passed | failed | incomplete
deriving DecidableEq, Repr

/-- The source of an urgent conversion (11 R313). -/
inductive UrgentSource where
  | soundCheck | faultCapture | rangeCheck
deriving DecidableEq, Repr

/-- An operand whose value the device works out by itself, from its State: the command tells nothing there. -/
abbrev Told := Unit

/-- What the Score reset finds at its reference pins (09 R248, R249): XOUT high, and the frequency at XIN in Hz, none while no
reference is there. -/
structure XinPins where
  xoutHigh : Bool
  reference : Option Nat
deriving DecidableEq, Repr

/-- The tap pins (15 R423): the outputs that read high, and the banks whose VBAT is below 4.0 V. -/
structure TapPins where
  outputs : Mask
  below4 : BitVec 4
deriving DecidableEq, Repr

/-- VMET is lost `dt` slots later, with a ring commit under way that it tears (15 R435, 17 R504). -/
structure VmetLoss where
  dt : Nat
  torn : Bool
deriving DecidableEq, Repr

/-- The reference returns `dt` slots later with a frequency in Hz (09 R249, R251). -/
structure RefReturn where
  dt : Nat
  hz : Nat
deriving DecidableEq, Repr

/-- RSTN goes low `dt` slots later, and stays low for `low` slots (02 R66, 19 R539). -/
structure RstnPulse where
  dt : Nat
  low : Nat
deriving DecidableEq, Repr

/-- What control boot finds: the zones' first readings in 0.1 °C (13 R355) and the level of HEAD (19 R541). -/
structure BootFinds where
  zones : Tab Int 8
  head : Bool
deriving DecidableEq, Repr

/-- A garbage collection goes on `dt` slots later: what it had in hand has been verified, or not (14 R401). -/
structure GcStep where
  dt : Nat
  verified : Bool
deriving DecidableEq, Repr

/-- The raw level of an LH input and for how many slots it has stood (02 R54). -/
structure LhRaw where
  level : Bool
  held : Nat
deriving DecidableEq, Repr

/-- What a clamp pulse has given since it was last told of, and whether it has ended (06 R195). -/
structure ClampPulse where
  microjoules : Nat
  ended : Bool
deriving DecidableEq, Repr

/-- The trims that a calibration found (11 R317, R330). -/
structure SliceTrims where
  offset : Int
  gain : Int
deriving DecidableEq, Repr

/-- How a wave port frame is timed in slave mode (12 R338). -/
inductive FrameTiming where
  | stable | missing | misplaced
deriving DecidableEq, Repr

/-- The cause of a wave clock loss (12 R338). -/
inductive WaveCause where
  | gap | boundaries | fast
deriving DecidableEq, Repr

/-- An Akden port (16 R457). -/
inductive AkPort where
  | a | b
deriving DecidableEq, Repr

/-- A grant entry of a downstream frame (16 R460): `count` is the number of tokens granted, 1 to 4. -/
structure Grant where
  domain : Nat
  count : Nat
  addr : Nat
deriving DecidableEq, Repr

/-- A breath entry of an upstream frame (16 R460). -/
structure BreathEntry where
  domain : Nat
  ret : Nat
  prio : Nat
  voice : Nat
  addr : Nat
deriving DecidableEq, Repr

/-- A downstream frame's content (16 R460). `ok` is false when its CRC fails. -/
structure DownFrame where
  ok : Bool
  downbeat : Bool
  bar : Bool
  clrEnum : Bool
  enumerate : Bool
  hold : Bool
  ring : Bool
  mseq : Word16
  hop : Nat
  barNo : Word16
  cumlat : Nat
  ctbc : Int
  grants : List Grant
  sseq : Byte
  seg : List Byte
deriving DecidableEq, Repr

/-- An upstream frame's content (16 R460). -/
structure UpFrame where
  ok : Bool
  reach : Nat
  sseq : Byte
  breath : List BreathEntry
  seg : List Byte
deriving DecidableEq, Repr

/-- A frame as a port receives it (16 R460): whether all its characters are valid codes, and the bytes of those after the
start character. -/
structure RxFrame where
  codes : Bool
  chars : List Byte
deriving DecidableEq, Repr

/-- The enumeration ends `dt` slots later, with a device beyond the address 62 or not (16 R463, R490). -/
structure EnumEnd where
  dt : Nat
  beyond : Bool
deriving DecidableEq, Repr

/-- The commands, one per row of spec/opcode_table.json. -/
inductive Instr where
  -- the host port (03)
  | bar (dt low : Nat) (sdi : List Byte) (bits : Fin 8) (cut : Bool)
  | commitEdge (dt : Nat)
  | downbeat (dt : Nat)
  | watchdog (dt : Nat)
  | rstn (rst : RstnPulse)
  | hostPortOpen (dt : Nat)
  | vioLost (dt : Nat)
  | vioReturn (dt : Nat)
  -- the opcodes (05)
  | nop (p : Pkt)
  | identify (p : Pkt)
  | statusDetail (p : Pkt)
  | eventRead (p : Pkt)
  | eventAck (p : Pkt)
  | softReset (p : Pkt)
  | paramWrite (p : Pkt)
  | paramRead (p : Pkt)
  | imageCheck (p : Pkt)
  | conduct (p : Pkt)
  | paramWriteLive (p : Pkt)
  | acappella (p : Pkt)
  | voiceSetOn (p : Pkt)
  | voiceSetOff (p : Pkt)
  | voiceDuty (p : Pkt)
  | voiceClearFault (p : Pkt)
  | voiceRetire (p : Pkt)
  | bankCut (h : Hdr) (banks : BitVec 4)
  | bankRestore (h : Hdr) (banks : BitVec 4)
  | park (p : Pkt)
  | resume (p : Pkt)
  | cueAdd (p : Pkt)
  | cueCancel (p : Pkt)
  | cueQuery (p : Pkt)
  | cueQueryStats (h : Hdr) (ctrl reserved : Byte)
  | odometerRead (h : Hdr)
  | odometerRebase (h : Hdr) (value : BitVec 64)
  | tallyRead (h : Hdr) (input maxEntries ctrl reserved : Byte)
  | leadRead (p : Pkt)
  | adcReadBuffer (p : Pkt)
  | convertNow (p : Pkt)
  | adcEnginePause (h : Hdr) (engines : BitVec 4)
  | adcEngineRun (h : Hdr) (engines : BitVec 4)
  | adcEngineFlush (h : Hdr) (engines : BitVec 4)
  | adcCalStatus (p : Pkt)
  | waveReport (p : Pkt)
  | waveFreeze (p : Pkt)
  | waveRelease (p : Pkt)
  | waveArmFault (p : Pkt)
  | waveClear (p : Pkt)
  | waveStatus (p : Pkt)
  | thermalRead (p : Pkt)
  | throttleAck (p : Pkt)
  | anchorBlip (p : Pkt)
  | nvRead (p : Pkt)
  | nvProgram (p : Pkt)
  | nvErase (p : Pkt)
  | nvProtect (p : Pkt)
  | recWrite (p : Pkt)
  | recRead (p : Pkt)
  | recDelete (p : Pkt)
  | nvStatus (p : Pkt)
  | marginRead (p : Pkt)
  | lifetimeRead (p : Pkt)
  | scoreTotals (p : Pkt)
  | scoreLegalSet (p : Pkt)
  | scoreSectionMap (p : Pkt)
  | scoreJobStart (p : Pkt)
  | scoreJobEnd (p : Pkt)
  | scoreJobDiag (p : Pkt)
  | scoreAuditRead (p : Pkt)
  | scoreIdent (p : Pkt)
  | chainEnumerate (p : Pkt)
  | chainStatus (p : Pkt)
  | chainRingOpen (h : Hdr)
  | chainRingClose (h : Hdr)
  | chainRingRestore (h : Hdr)
  | breathCtrl (p : Pkt)
  | soundcheckRun (p : Pkt)
  | soundcheckResult (p : Pkt)
  | patchBegin (p : Pkt)
  | patchData (p : Pkt)
  | patchEnd (p : Pkt)
  | patchAbort (p : Pkt)
  | patchStatus (p : Pkt)
  -- start-up and the time base (02, 09)
  | powerOnReset (dt : Nat) (banks : Tab Bool 4)
  | controlBootDone (dt : Nat) (boot : BootFinds)
  | bootTimeout (dt : Nat) (cause : BootFailure)
  | recScanDone (dt : Nat) (duration : Told)
  | scoreReset (dt : Nat) (xin : XinPins) (mseal : Bool) (levels : Tab Bool 8)
  | vmetLost (loss : VmetLoss)
  | vmetCommit (dt : Nat)
  | pllLock (dt : Nat)
  | lockTimeout (dt : Nat)
  | referenceLost (dt : Nat)
  | referenceReturn (ret : RefReturn)
  | tbAdopted (dt : Nat)
  | scoreReady (dt : Nat) (duration : Told)
  | tbcWord (dt : Nat) (valid : Bool) (word : Int)
  | tbLost (dt : Nat) (cause : LossCause)
  | tbFallback (dt : Nat)
  | tbQualified (dt : Nat)
  | tbReturned (dt : Nat)
  | fallbackBad (dt : Nat)
  | fallbackTrim (dt : Nat)
  | timebaseMarkEnd (dt : Nat)
  -- the Score (15)
  | scorePublication (dt : Nat)
  | scoreSilent (dt : Nat)
  | mailboxMessage (dt : Nat) (fate : MailboxFate)
  | scoreRingCommit (dt : Nat)
  | tapSample (dt : Nat) (taps : TapPins)
  | tallyEdge (dt : Nat) (input : Fin 8) (rising : Bool) (merged : Bool)
  | scoreGroundEvaluation (dt : Nat)
  | laxitiaRequest (dt : Nat) (line : List Byte)
  | sealFuses (dt : Nat) (ident : List Byte) (verified : Bool)
  -- tally inputs, odometer, cues, breath and LH on the control die (09, 10, 02)
  | timestampEdge (dt : Nat) (input : Fin 8) (rising : Bool) (stamp : Int) (pair : Told)
  | stuckLevel (dt : Nat) (input : Fin 8)
  | groundEvaluation (dt : Nat)
  | odoFrozen (dt : Nat)
  | cueExecute (dt : Nat)
  | breathGrant (dt : Nat)
  | breathSpanEnd (dt : Nat) (v : VoiceId)
  | breathWaitExpiry (dt : Nat) (v : VoiceId)
  | signatureWindowExpiry (dt : Nat) (v : VoiceId) (m : Meas)
  | lhLevelChange (dt : Nat) (lh : Fin 8) (raw : LhRaw)
  | lhRateRelease (dt : Nat) (v : VoiceId)
  | chatter (dt : Nat) (lh : Fin 8)
  | lhRearm (dt : Nat) (lh : Fin 8)
  -- voices, protection and banks (06, 07, 17)
  | gateRampEnd (dt : Nat) (v : VoiceId)
  | profilePhaseEnd (dt : Nat) (v : VoiceId)
  | pwmPeriodStart (dt : Nat) (v : VoiceId)
  | pwmOffEdge (dt : Nat) (v : VoiceId)
  | holdChopPeriod (dt : Nat) (v : VoiceId) (clamped : Bool) (m : Meas)
  | clampPulseEnd (dt : Nat) (v : VoiceId) (pulse : ClampPulse) (m : Meas)
  | fastTrip (dt : Nat) (v : VoiceId) (stripes : BitVec 2) (m : Meas)
  | desatTrip (dt : Nat) (v : VoiceId) (stripes : BitVec 2) (m : Meas)
  | ocTimeout (dt : Nat) (v : VoiceId) (m : Meas)
  | gateFault (dt : Nat) (v : VoiceId) (stripes : BitVec 2) (m : Meas)
  | olOnDetect (dt : Nat) (v : VoiceId) (ceased : Bool) (m : Meas)
  | olOffDetect (dt : Nat) (v : VoiceId) (ceased : Bool) (m : Meas)
  | stuckOnDetect (dt : Nat) (v : VoiceId) (ceased : Bool) (m : Meas)
  | revDetect (dt : Nat) (v : VoiceId) (ceased : Bool) (m : Meas)
  | soundcheckStart (dt : Nat)
  | soundcheckDone (dt : Nat) (failed0 failed1 : Tab (BitVec 6) 2) (incomplete : BitVec 6) (voHigh : Bool)
  | retryDue (dt : Nat) (v : VoiceId)
  | retryClear (dt : Nat) (v : VoiceId)
  | staggeredTurnOff (dt : Nat)
  | cutPinNonConducting (dt : Nat) (bank : BankId)
  | bankSupplyAbsent (dt : Nat) (bank : BankId)
  | bankSupplyPresent (dt : Nat) (bank : BankId)
  | crank (dt : Nat) (bank : BankId) (begins : Bool) (volts : Nat)
  | bankOv (dt : Nat) (bank : BankId) (change : OvChange) (volts : Nat)
  | chargePumpLow (dt : Nat)
  | chargePumpRecovered (dt : Nat)
  | bankCurrentSum (dt : Nat) (sums : Told)
  -- keep-alive and sanity checks (01)
  | keepAliveFrame (dt : Nat) (echoSame : Bool)
  | keepAliveLoss (dt : Nat)
  | keepAliveReassert (dt : Nat)
  | romCrcCheck (dt : Nat) (crc : Word)
  | patchCrcCheck (dt : Nat) (crc : Word)
  | sramScrub (dt : Nat) (corrected : Nat) (uncorrectable : Bool)
  -- thermal (13)
  | zoneHardStop (dt : Nat) (zone : ZoneId)
  | zoneReading (dt : Nat) (readings : Tab Int 8)
  | modelUpdate (dt : Nat)
  | throttleGraceEnd (dt : Nat) (u : ThermUnit)
  | ceilingStep (dt : Nat) (zone : ZoneId)
  | blipEnd (dt : Nat) (current voltage : Told)
  | zoneCheckDone (dt : Nat) (zone : ZoneId) (result : CheckResult)
  -- converter (11)
  | scanStart (dt : Nat) (e : EngineId)
  | atrgEdge (dt : Nat) (pin : Fin 2) (rising : Bool)
  | conversion (dt : Nat) (e : EngineId) (raw : Option (BitVec 14))
  | urgentConversion (dt : Nat) (source : UrgentSource) (input : Nat) (raw : Option (BitVec 14))
  | sliceCheckDone (dt : Nat) (slice : Fin 9) (result : Told)
  | calStep (dt : Nat) (ends passed : Bool) (trims : SliceTrims) (skew : Int)
  -- wave port (12)
  | waveFrame (dt : Nat) (timing : FrameTiming) (rate : Told)
  | inSlotWord (dt : Nat) (slot : Fin 16) (word : Word)
  | waveLoss (dt : Nat) (cause : WaveCause)
  | waveUnmute (dt : Nat)
  | waveFrozen (dt : Nat) (slot : Fin 16)
  -- Akden chain (16)
  | measureBoundary (dt : Nat)
  | downstreamFrame (dt : Nat) (port : AkPort) (f : RxFrame)
  | upstreamFrame (dt : Nat) (port : AkPort) (f : RxFrame) (start : Fin 8)
  | enumerationDone (e : EnumEnd)
  | ringCloseResult (dt : Nat) (returned hop : Told)
  | linkDown (dt : Nat) (port : AkPort)
  | deviceUnreachable (dt : Nat) (addr : Nat)
  | linkTimeout (dt : Nat)
  | chainAcap (dt : Nat)
  | breathReclaim (dt : Nat) (addr : Nat)
  | hopLoopbackDone (dt : Nat) (port : AkPort) (result : CheckResult)
  -- flash (14)
  | nvProgramDone (dt : Nat) (failAt : Option Nat)
  | nvEraseSectorDone (dt : Nat) (verified : Bool)
  | garbageCollection (gc : GcStep)
  | flashCheckDone (dt : Nat) (result : CheckResult)
  -- power (17)
  | powerDown (dt : Nat)
  | scoreCommitWait (dt : Nat) (reported : Bool) (vhold : Nat)
  | lifetimeSaveDone (dt : Nat)
  | markerWrite (dt : Nat)
  | parkedRestart (dt : Nat)
  | vholdFault (dt : Nat) (volts : Nat)
  | porAssert (dt : Nat)
  | flashFloor (dt : Nat)
  | vholdReady (dt : Nat)
  -- rows added at the table's end
  | scoreDieTemperature (dt : Nat) (tenths : Int)
  | chatterClear (dt : Nat) (lh : Fin 8)
  | recordAppendDone (dt : Nat) (verified : Bool)
deriving DecidableEq, Repr

end Sys2Proof
end

