-- ==== Sys2Proof/Config.lean ====
section
/-! DEFINITION. What the spec leaves open: constants with no body, so that no proof can see what they are. Each is
named in the assumption log (notes/assumptions/10.md). -/

namespace Sys2Proof.Config
open Sys2Proof

/-- The 64-bit unique device number held in OTP (05 R138). -/
opaque uid : BitVec 64
/-- The CRC-32 of the cantor ROM held in OTP (05 R138, 01 R35). -/
opaque romCrc : Word
/-- The error in ppm of the fallback oscillator against the Score's clock at time `now`; the machine holds it to the
limits of "Time base accuracy" (00 R8, 09 R252). -/
opaque fallbackError : (now : Nat) → Int
/-- The control die's junction has changed by 10 K or more since the switch to the fallback time base, which widens the
limit of the error (09 R252). -/
opaque junctionMoved : (now : Nat) → Bool
/-- The Jorroren public key in cantor ROM, a point of curve P-256: the spec does not give it (05 R165). -/
opaque patchKey : Nat × Nat
/-- The OTP thermal coefficients (13 R356), `kind` 0 class L, 1 class H, 2 a half-voice: R_JL in K/W. -/
opaque rJl : (kind : Nat) → Rat
/-- C_J in J/K (13 R356). -/
opaque cJ : (kind : Nat) → Rat
/-- R_LZ in K/W (13 R356). -/
opaque rLz : (kind : Nat) → Rat
/-- C_L in J/K (13 R356). -/
opaque cL : (kind : Nat) → Rat
/-- R_ZZ in K/W (13 R374). -/
opaque rZz : Rat
/-- The OTP edge coefficient of class L (`kind` 0) and class H in J per ampere and volt (13 R356). -/
opaque edgeCoef : (kind : Nat) → Rat
/-- The temperature in °C that the OTP R_on(T) curve of a voice with all its stripes gives for a resistance in ohms (13 R360). -/
opaque rOnTemp : (voice : Nat) → (ohms : Rat) → Rat
/-- The first sample of a triggered scan follows its edge by six control clock cycles and not by five, the two that lie
between 12 ns and 16 ns (11 R306). -/
opaque atrgLate : (engine when_ : Nat) → Bool
/-- The expected code of input 111 held in OTP (11 R319). -/
opaque refCode : Nat
/-- The quantities of a fault-log record of a unit that is no voice, which the spec does not state (07 R227). -/
opaque unitLogField : (unit field when_ : Nat) → Nat
/-- The current in 10 mA and the bank voltage in 10 mV that the descant captures at an OT_STOP, which the model update
that scores it does not carry (11 R313). -/
opaque stopCurrent : (voice when_ : Nat) → Int
opaque stopBank : (voice when_ : Nat) → Nat
/-- Whether a value reported in a coarser unit is rounded up: the spec states no rule (09 R269, 13 R380). -/
opaque roundUp : Rat → Bool
/-- A byte of raw flash that the spec calls undefined: in a word whose program was stopped, or in a sector whose erase
was abandoned (14 R395, R396). -/
opaque flashByte : (addr when_ : Nat) → Byte
/-- Which word of a flash program or erase failed its verification, where the command does not name it (14 R391,
R411): the address range starts at `base` and has `words` words. -/
opaque failedWord : (base words when_ : Nat) → Nat
/-- A margin reading the spec calls undefined or leaves to the part (14 R412). -/
opaque marginWeak : (addr when_ : Nat) → Bool
/-- The area in 10^-9 m² that a pulse of the ground adds when no tap sample lies between it and the pulse before it, which
leaves e(s) / n without a value (15 R426). -/
opaque areaNoSample : (line when_ : Nat) → Nat
/-- The text of a Laxitia field whose form the spec does not state: the request's letter, the place of the field in its
answer, and the value it shows (15 R450). -/
opaque laxitiaText : (request place : Nat) → (value : Int) → List Byte
/-- Bytes of SCORE_IDENT while no publication has ever arrived (15 R449, 01 R37). -/
opaque identByte : (at_ when_ : Nat) → Byte
/-- OPC or TAG in the reply to a packet of which too few bytes came to hold it (03 R100). -/
opaque missingByte : (offset when_ : Nat) → Byte
/-- A byte of the chain status or of a chain event that the spec gives no value in the state it is read in (16 R489,
R490): `what` numbers the byte. -/
opaque chainByte : (what when_ : Nat) → Byte

end Sys2Proof.Config
end

