-- ==== Sys2Proof/Machine/Bytes.lean ====
section
/-! DEFINITION. Byte layouts: little-endian integers (00 R5), bit fields (00 R6), voice masks (05 R136) and the two
checksums (03 R78, 04 R126). -/

namespace Sys2Proof.Machine
open Sys2Proof

/-- `v` in `n` bytes, least significant byte first (00 R5). -/
def leBytes (n v : Nat) : List Byte := (List.range n).map fun i => BitVec.ofNat 8 (v >>> (8 * i))

/-- A signed value in `n` bytes, two's complement (00 R6). -/
def leInt (n : Nat) (v : Int) : List Byte := leBytes n (v % (2 ^ (8 * n) : Nat)).toNat

/-- The integer that bytes spell, least significant byte first (00 R5). -/
def leNat : List Byte → Nat
  | [] => 0
  | b :: bs => b.toNat + 256 * leNat bs

/-- The unsigned integer in `n` bytes from offset `o`; bytes that are not there read 0. -/
def field (p : List Byte) (o n : Nat) : Nat := leNat ((p.drop o).take n)

/-- The signed 64-bit reading of an unsigned value (00 R6). -/
def toSigned (w n : Nat) : Int := if n < 2 ^ (w - 1) then (n : Int) else (n : Int) - (2 ^ w : Nat)

/-- Byte `o`, 0 where there is none. -/
def byteAt (p : List Byte) (o : Nat) : Nat := (p.getD o 0).toNat

/-- The `w`-bit field of a word whose lowest bit is `lo` (00 R6). -/
def bits (v : Word) (lo w : Nat) : Nat := (v.toNat >>> lo) % 2 ^ w

/-- Bit `lo` of a word. -/
def bit (v : Word) (lo : Nat) : Bool := v.toNat.testBit lo

/-- One byte from flags, bit 0 first. -/
def packBits (fs : List Bool) : Nat := fs.foldr (fun b n => 2 * n + (if b then 1 else 0)) 0

def boolNat (b : Bool) : Nat := if b then 1 else 0

/-- A voice mask in 6 bytes (05 R136). -/
def maskBytes (m : Mask) : List Byte := leBytes 6 m.toNat

/-- The voice mask in 6 bytes from offset `o` (05 R136). -/
def maskAt (p : List Byte) (o : Nat) : Mask := BitVec.ofNat 48 (field p o 6)

/-- Voice `v` is in the mask. -/
def inMask (m : Mask) (v : VoiceId) : Bool := m.getLsbD v.val

/-- The mask of the voices that satisfy `p`. -/
def maskOf (p : VoiceId → Bool) : Mask := BitVec.ofNat 48 (packBits ((idx 48).map p))

/-- The voices of a mask in ascending order. -/
def maskVoices (m : Mask) : List VoiceId := (idx 48).filter (inMask m)

/-- One step of the CRC-16 of 03 R78: a bit enters at the top. -/
def crc16Bit (c : Nat) (b : Bool) : Nat :=
  let c' := (2 * c) % 65536
  if c.testBit 15 != b then c' ^^^ 0x1021 else c'

/-- One byte of the CRC-16, most significant bit first (03 R78). -/
def crc16Byte (c : Nat) (b : Byte) : Nat :=
  [7, 6, 5, 4, 3, 2, 1, 0].foldl (fun c i => crc16Bit c (b.toNat.testBit i)) c

/-- CRC-16/CCITT with initial value 0xFFFF (03 R78). -/
def crc16 (bs : List Byte) : Nat := bs.foldl crc16Byte 0xFFFF

/-- One step of the reflected CRC-32 (04 R126). -/
def crc32Bit (c : Nat) : Nat := if c % 2 = 1 then (c / 2) ^^^ 0xEDB88320 else c / 2

/-- One byte of the reflected CRC-32 (04 R126). -/
def crc32Byte (c : Nat) (b : Byte) : Nat :=
  [0, 1, 2, 3, 4, 5, 6, 7].foldl (fun c _ => crc32Bit c) (c ^^^ b.toNat)

/-- The CRC-32 of IEEE 802.3 (04 R126). -/
def crc32 (bs : List Byte) : Word := BitVec.ofNat 32 ((bs.foldl crc32Byte 0xFFFFFFFF) ^^^ 0xFFFFFFFF)

/-- Bytes with their CRC-16 appended, little-endian (03 R78). -/
def withCrc (bs : List Byte) : List Byte := bs ++ leBytes 2 (crc16 bs)

/-- The list cut into pieces of `n`, at most as many as the first number says. -/
def chunks (n : Nat) : Nat → List Byte → List (List Byte)
  | 0, _ => []
  | k + 1, bs => if bs.isEmpty then [] else bs.take n :: chunks n k (bs.drop n)

/-- `n` nearest to `a / b`, halves rounded up. -/
def roundDiv (a b : Int) : Int := (2 * a + b) / (2 * b)

end Sys2Proof.Machine
end

