-- ==== Sys2Proof/Machine/State.lean ====
section
/-! DEFINITION. The state of the block as plain data, and the state after reset. Every field's docstring ends with
its width, the rule of spec/ that names it and its value at reset: `[width | file rule | reset]`. Times marked `now`
are ticks of 1/3 ns since power-on (00 R8); times marked `tbc` stand in the control die's TBC. -/

namespace Sys2Proof.Machine
open Sys2Proof

/-- Why a step could stop. No command of this block stops: every row of the table has an effect in the spec, so this
type has no constructor. -/
inductive Fault where
deriving DecidableEq, Repr

/-- Why a command has no meaning. -/
inductive Refusal where
  /-- Raised by an arm of `exec` whose meaning is not written yet; safe, since it stops. No arm raises it now. -/
  | notModelled (mnemonic : String)
deriving DecidableEq, Repr

/-- The two variants (00 R9). -/
inductive Variant where
  | m | s
deriving DecidableEq, Repr

/-- The device modes, in the order of their codes (21 R548). -/
inductive Mode where
  | starting | acappella | conducted | fallback | parked | halted
deriving DecidableEq, Repr

/-- The voice states of 05 R135 without HALF, which `Voice.half` carries. -/
inductive VState where
  | off | ramping | on | pwm | holding | tripped | retryWait | checking | latched | retired
deriving DecidableEq, Repr

/-- One event of the log (05 R142). -/
structure Event where
  /-- Sequence number. [32 | 05 R142 | -] -/
  seq : Word
  /-- TBC at the event. [64 | 05 R142 | -] -/
  tbc : Int
  /-- Event code. [16 | 05 R143 | -] -/
  code : Nat
  /-- Unit concerned. [8 | 05 R142 | -] -/
  unit : Nat
  /-- ACKED. [1 | 05 R145 | -] -/
  acked : Bool
  /-- FALLBACK_TB. [1 | 05 R142 | -] -/
  fallbackTb : Bool
  /-- DATA, 8 bytes. [64 | 05 R142 | -] -/
  data : List Byte
deriving DecidableEq, Repr

/-- The event log (05 R141). -/
structure EventLog where
  /-- The held events, oldest first, at most 256. [256 × 24 bytes | 05 R141 | empty] -/
  events : List Event
  /-- Sequence number of the next event. [32 | 05 R141 | 0] -/
  nextSeq : Word
  /-- EV_LOST. [16, sticks | 05 R141 | 0] -/
  lost : Nat
deriving DecidableEq, Repr

/-- A reply in the queue (03 R91). -/
structure Reply where
  /-- SRC. [7 | 03 R91 | -] -/
  src : Nat
  /-- OPC. [8 | 03 R91 | -] -/
  opc : Byte
  /-- TAG. [8 | 03 R91 | -] -/
  tag : Byte
  /-- STATUS. [8 | 03 R91 | -] -/
  status : Byte
  /-- DATA. [at most 8,160 bytes | 03 R94 | -] -/
  data : List Byte
  /-- For VOICE_SET: the voices taken and refused, until step 8 of the slot settles DEFERRED. [2 × 48 | 05 R152 | -] -/
  settle : Option (Mask × Mask)
deriving DecidableEq, Repr

/-- The packet area of a valid bar that awaits its commit edge (03 R87). -/
structure PendingBar where
  /-- The packet area. [at most 8,186 bytes | 03 R76 | -] -/
  area : List Byte
  /-- BARNO of the bar. [16 | 03 R74 | -] -/
  barNo : Nat
deriving DecidableEq, Repr

/-- A well-framed packet (03 R84). -/
structure Packet where
  dest : Byte
  opc : Byte
  tag : Byte
  params : List Byte
deriving DecidableEq, Repr

/-- A DB packet that passed its commit-edge checks (03 R89). -/
structure DbPacket where
  /-- The packet. [- | 03 R89 | -] -/
  packet : Packet
  /-- The serial number of its bar, for 16 R469. [- | 16 R469 | -] -/
  serial : Nat
  /-- It came over the chain, and its reply goes upstream. [1 | 16 R474 | -] -/
  viaChain : Bool
deriving DecidableEq, Repr

/-- The host port (03). -/
structure HostPort where
  /-- The port is open. [1 | 02 R39 | closed] -/
  isOpen : Bool
  /-- Number of the next accepted bar. [16, wraps | 03 R74 | 0] -/
  barNo : Nat
  /-- PREV_VALID. [1 | 03 R82 | 0] -/
  prevValid : Bool
  /-- OPENER_BAD. [1 | 03 R82 | 0] -/
  openerBad : Bool
  /-- LENGTH_BAD. [1 | 03 R82 | 0] -/
  lengthBad : Bool
  /-- FRAME_LOST. [1 | 03 R82 | 0] -/
  frameLost : Bool
  /-- EARLY. [4, saturates | 03 R88 | 0] -/
  early : Nat
  /-- PREV_ACCEPTED. [8, saturates | 03 R82 | 0] -/
  prevAccepted : Nat
  /-- The reply queue, oldest first, at most 64. [64 replies | 03 R93 | empty] -/
  replies : List Reply
  /-- REPLY_LOST: a reply was discarded since the previous snapshot. [1 | 03 R93 | 0] -/
  replyLost : Bool
  /-- The valid bar that awaits its commit edge. [- | 03 R87 | none] -/
  commit : Option PendingBar
  /-- CSN may not fall before this time. [now | 03 R88 | 0] -/
  quietUntil : Nat
  /-- A reply was discarded in the slot under way. [1 | 01 R30, 03 R93 | 0] -/
  lostNow : Bool
  /-- IRQN is driven low. [1 | 03 R95 | released] -/
  irqn : Bool
  /-- News has come in the slot under way. [1 | 01 R30, 03 R95 | no] -/
  newsNow : Bool
  /-- The SDO bytes of the last bar; none while SDO was high-impedance. [bytes | 03 R75 | none] -/
  sdo : Option (List Byte)
  /-- The watchdog runs, and expires at this time. [now | 03 R97 | stopped] -/
  watchdog : Option Nat
  /-- DB packets that await their downbeat, at most 64. [64 | 03 R90 | empty] -/
  pendingDb : List DbPacket
  /-- Serial number of the newest committed bar. [- | 16 R469 | 0] -/
  serial : Nat
  /-- VIO is valid. [1 | 17 R491 | 0, DESIGN CHOICE, log entry 4] -/
  vioValid : Bool
  /-- The time VIO was lost at. [now | 17 R505 | none] -/
  vioLostAt : Option Nat
  /-- VIO returned and the port reopens not before this time. [now | 17 R505 | none] -/
  reopenAt : Option Nat
deriving DecidableEq, Repr

/-- The parameter words (04): the words that differ from their power-up value, in ascending order of ID. -/
structure ParamSpace where
  /-- Shadow copies of IMAGE words. [971 × 32 | 04 R102 | the power-up values] -/
  shadow : List (Nat × Word)
  /-- Live copies of IMAGE words, and the LIVE words. [971 + 346 words × 32 | 04 R102 | the power-up values] -/
  live : List (Nat × Word)
deriving DecidableEq, Repr

/-- Where the control clock comes from (09). -/
inductive TbPhase where
  /-- On the fallback oscillator since the control die's start, not yet adopted (02 R43). -/
  | first
  /-- On the Score time base. -/
  | score
  /-- The 40 µs switch is running (09 R255). -/
  | switching
  /-- On the fallback time base, not qualifying. -/
  | fallback
  /-- Qualification runs (09 R257). -/
  | qualifying
  /-- Qualified: the switch back acts at the next measure boundary (09 R258). -/
  | qualified
deriving DecidableEq, Repr

/-- The control die's time base (09). -/
structure TimeBase where
  /-- Ticks since power-on. [- | 00 R8 | 0] -/
  now : Nat
  /-- The control die's TBC. [64 | 02 R43 | 0] -/
  tbc : Int
  /-- The source and the phase of a switch. [- | 09 R255 | first] -/
  phase : TbPhase
  /-- When the 40 µs switch or the 100 ms qualification ends. [now | 09 R255, R257 | 0] -/
  until_ : Nat
  /-- The Score offset K. [64 | 09 R258 | 0] -/
  k : Int
  /-- The count at the last TBC word that matched. [64 | 09 R256 | 0] -/
  lastWord : Int
  /-- When the last loss of the Score time base was detected. [now | 09 R256 | 0] -/
  lostAt : Nat
  /-- The last good TBC word of the qualification, and the Score's count at the edge it was due at. [2 × 64 | 09 R257 | 0] -/
  word : Int
  wordAt : Int
  /-- What the fallback oscillator has drifted against the Score's clock beyond whole cycles, in ppm of a tick.
  [the model's own | 00 R8, 09 R252 | 0] -/
  drift : Int
  /-- When the fallback oscillator was last measured, or the Score time base was taken. [now | 09 R252 | 0] -/
  trimAt : Nat
  /-- Measure boundaries fall every 30,720 ticks from this time. [now | 09 R258 | 0] -/
  measureAt : Nat
  /-- The fallback oscillator works. [1 | 09 R254 | works] -/
  fallbackOk : Bool
  /-- The fallback oscillator has been trimmed. [1 | 09 R252 | no] -/
  trimmed : Bool
  /-- REF_ABSENT has been logged. [1 | 09 R253 | no] -/
  refAbsent : Bool
deriving DecidableEq, Repr

/-- The mode and what goes with it (01, 02, 08). -/
structure Control where
  /-- Device mode. [3 | 21 R548 | STARTING] -/
  mode : Mode
  /-- POR holds the power die and the control die in reset. [1 | 17 R491 | 0] -/
  por : Bool
  /-- HALT_CAUSE. [8 | 21 R549 | 0] -/
  haltCause : Nat
  /-- HALT_DETAIL. [8 | 01 R35 | 0] -/
  haltDetail : Nat
  /-- The cause START will give: 0 power-on, 1 RSTN, 2 SOFT_RESET, 3 keep-alive recovery. [8 | 05 R143 | 0] -/
  startCause : Nat
  /-- The control die started from a power-on reset, not by a restart. [1 | 14 R406 | yes] -/
  fromPor : Bool
  /-- START has been logged since the last control boot. [1 | 02 R47 | no] -/
  started : Bool
  /-- When control boot began. [now | 02 R40 | 0] -/
  bootAt : Nat
  /-- When a cappella went live. [now | 02 R39 | none] -/
  liveAt : Option Nat
  /-- A CONDUCT has succeeded since the control die started. [1 | 05 R166 | no] -/
  conducted : Bool
  /-- PARK was received in A CAPPELLA. [1 | 05 R158 | no] -/
  parkFromAcappella : Bool
  /-- PARKED was entered by a power-down. [1 | 08 R244 | no] -/
  parkedByPower : Bool
  /-- UNSAVED_SESSION. [1 | 14 R406 | 0] -/
  unsaved : Bool
  /-- LOST_SESSIONS. [16, sticks | 14 R397 | 0, DESIGN CHOICE, log entry 3] -/
  lostSessions : Nat
  /-- ECC_CORRECTED. [16, sticks | 01 R35 | 0] -/
  eccCorrected : Nat
  /-- SCORE_SILENT. [1 | 01 R37 | 1: no publication has arrived; DEDUCED, log entry 5] -/
  scoreSilent : Bool
deriving DecidableEq, Repr

/-- The keep-alive machinery of the power die (01 R25, R26). -/
structure KeepAlive where
  /-- Consecutive wrong echoes. [2 | 01 R35 | 0] -/
  badEchoes : Nat
  /-- Times of the recoveries of the last 10 s. [now | 01 R26 | none] -/
  recoveries : List Nat
  /-- After a keep-alive loss: the power die holds every voice off until a frame with BOOT_DONE. [1 | 01 R26 | no] -/
  held : Bool
  /-- When the restart line is or was released, while no frame has arrived since. [now | 01 R26 | none] -/
  releasedAt : Option Nat
  /-- When the last frame arrived in this control boot. [now | 01 R25 | none] -/
  lastFrame : Option Nat
  /-- The first frame of this control boot has arrived. [1 | 01 R26 | no] -/
  firstFrame : Bool
deriving DecidableEq, Repr

/-- One bank (06, 17). -/
structure Bank where
  /-- VBAT is present. [1 | 06 R172 | present, DESIGN CHOICE, log entry 4] -/
  present : Bool
  /-- Crank hold: a bank starts in it, and leaves it once its VBAT has held 6.3 V for 1 ms. [1 | 17 R492, R507 | 1] -/
  crank : Bool
  /-- Overvoltage hold. [1 | 17 R493 | 0] -/
  ovHold : Bool
  /-- Overvoltage off. [1 | 17 R493 | 0] -/
  ovOff : Bool
  /-- The bank is cut. [1 | 05 R156 | not cut] -/
  cut : Bool
  /-- The cut pin conducts. [1 | 02 R41 | non-conducting] -/
  conducting : Bool
  /-- The pin turns non-conducting at this time. [now | 05 R156 | none] -/
  pinDue : Option Nat
  /-- BANK_OVER has been logged and the average has not fallen below 27 A. [1 | 06 R171 | 0] -/
  overLogged : Bool
  /-- The last 100,000 current sums in A, newest first. [1 s of 10 µs sums | 06 R171 | none] -/
  sums : List Rat
  /-- When the last sum was formed. [now | 06 R171 | 0] -/
  sumAt : Nat
deriving DecidableEq, Repr

/-- What a staggered turn-off belongs to (05 R156, 13 R371, 17 R498, 01 R25). -/
inductive StaggerKind where
  | cut (b : BankId)
  | stop
  | powerDown
  | keepAlive
deriving DecidableEq, Repr

/-- A staggered turn-off under way: the voices still to turn off, the first at `next`. -/
structure Stagger where
  kind : StaggerKind
  voices : List VoiceId
  /-- [now | 05 R156 | -] -/
  next : Nat
deriving DecidableEq, Repr

/-- Where a turn-on comes from (10 R296, R297, 08 R235). -/
inductive TurnOnSource where
  | cue (id : Word)
  | voiceSet
  | level
  | retry
deriving DecidableEq, Repr

/-- What a turn-on waits for (08 R236 level 8). -/
inductive WaitStage where
  /-- Held by crank or overvoltage hold (17 R492, R493). -/
  | bank
  /-- Asked in this slot and not ranked yet (10 R296). -/
  | fresh
  /-- Deferred for breath (10 R296). -/
  | deferred
  /-- Its tokens are taken; held by a sound check (07 R214). -/
  | check
  /-- Its tokens are taken; held for a gate ramp (06 R173). -/
  | ramp
deriving DecidableEq, Repr

/-- A turn-on that has been admitted and has not started. -/
structure Wait where
  source : TurnOnSource
  stage : WaitStage
  /-- Arbitration priority. [4 | 10 R296 | -] -/
  prio : Nat
  /-- Inrush profile of the turn-on. [4 | 10 R277 | -] -/
  profile : Nat
  /-- The deadline of the deferral; none waits without limit. [now | 10 R297 | -] -/
  deadline : Option Nat
  /-- MUST_FIRE has fired: no token is needed. [1 | 10 R297 | -] -/
  free : Bool
  /-- The slot in which it was asked. [now | 10 R292 | -] -/
  since : Nat
deriving DecidableEq, Repr

/-- A gate ramp (06 R173). -/
inductive Ramp where
  | none
  /-- Running until the given time. -/
  | running (ends : Nat)
  /-- Held at the given priority. -/
  | held (prio : Nat)
deriving DecidableEq, Repr

/-- What a held or running ramp raises the gate for (06 R173). -/
inductive RampUse where
  | turnOn | edge | raise | blip
deriving DecidableEq, Repr

/-- A throttle request (13 R366, R367). -/
structure ThrottleReq where
  acked : Bool
  enforcing : Bool
  /-- End of the grace time. [now | 13 R366 | -] -/
  graceEnd : Nat
deriving DecidableEq, Repr

/-- The last junction anchor of a voice (13 R380). -/
inductive Anchor where
  | rest | quiet | blip | none
deriving DecidableEq, Repr

/-- A plunger search (10 R289). -/
structure Search where
  opening : Bool
  /-- The turn-on or turn-off slot. [now | 10 R289 | -] -/
  t0 : Nat
  /-- `top`: the instant and the value s × y. [now, mA or mV | 10 R289 | -] -/
  top : Option (Nat × Rat)
  /-- `low`. [now, mA or mV | 10 R289 | -] -/
  low : Option (Nat × Rat)
deriving DecidableEq, Repr

/-- The checks a voice has waiting (07 R212, R213); a tripping fault stays until its check has ended. -/
structure CheckQueue where
  /-- A tripping fault whose check waits. [8 | 07 R212 | none] -/
  trip : Option Nat
  /-- The reporting faults whose check waits, earliest first. [list of 8 | 07 R212 | empty] -/
  report : List Nat
  /-- The tests of the host checks that wait, earliest first. [list of 6 | 07 R229 | empty] -/
  host : List (BitVec 6)
  /-- The stripes that raised the tripping fault. [2 | 07 R203 | 0] -/
  stripes : BitVec 2
  /-- I_MEAS and V_BANK of the fault whose check waits, or of a tripping check that runs. [16 + 16 | 11 R313 | 0] -/
  meas : Meas
  /-- The voice state before that fault. [8 | 07 R227 | 0] -/
  before : Nat
  /-- An INCONCLUSIVE reporting check is being repeated. [1 | 07 R219 | 0] -/
  repeated : Bool
  /-- An OFF command arrived for the voice in its fault state. [1 | 07 R208 | 0] -/
  offAsked : Bool
deriving DecidableEq, Repr

/-- The last sound check of a voice and the counts of the power cycle (07 R230). -/
structure CheckRecord where
  trigger : Nat
  outcome : Nat
  failed : Nat
  /-- TRANSIENT, LOAD, INTERNAL, INCONCLUSIVE. [4 × 8, stick | 07 R230 | 0] -/
  counts : List Nat
  duration : Nat
  /-- [64 | 07 R230 | 0] -/
  tbc : Int
deriving DecidableEq, Repr

/-- The conversions of IS(v) since the quiet window began (13 R360): currents in A and the sum of V_DS / I in ohms. -/
structure QuietWindow where
  since : Nat
  count : Nat
  sumI : Rat
  minI : Rat
  maxI : Rat
  sumR : Rat
deriving DecidableEq, Repr

/-- The thermal side of a voice (13). Temperatures are exact rationals in °C. -/
structure VoiceThermal where
  /-- T_j. [°C | 13 R356 | 0 until control boot ends, DESIGN CHOICE, log entry 6] -/
  tj : Rat
  /-- T_l. [°C | 13 R356 | 0 until control boot ends, DESIGN CHOICE, log entry 6] -/
  tl : Rat
  /-- The anchor uncertainty m_a in K. [K | 13 R360 | 10] -/
  ma : Rat
  /-- The part of t_d in drives that have ended. [ticks | 13 R361 | 0] -/
  driven : Nat
  /-- When the last junction anchor was taken. [now | 13 R361 | 0] -/
  anchoredAt : Nat
  /-- The last junction anchor. [2 | 13 R380 | none] -/
  anchor : Anchor
  /-- Since when the voice has been neither driven nor clamping. [now | 13 R360 | 0] -/
  restSince : Option Nat
  /-- The quiet window. [- | 13 R360 | none] -/
  quiet : Option QuietWindow
  /-- The conversions of IS(v) in the last 30 µs of its blip: their number, currents in A and the sum of V_DS / I in ohms.
  [- | 13 R360, R379 | 0] -/
  blipWin : Nat × Rat × Rat
  /-- Sum of the powers of the conversions of this interval in W, and their number. [- | 13 R356 | 0, 0] -/
  power : Rat × Nat
  /-- Edge and clamp energy of this interval in J. [J | 13 R356 | 0] -/
  energy : Rat
  /-- The last mean power in W. [W | 13 R358 | 0] -/
  lastPower : Rat
  /-- When IS(v) was last converted. [now | 13 R358 | 0] -/
  convertedAt : Nat
  /-- The dissipation of the last 1,000 intervals in W, newest first. [10 ms | 13 R380 | none] -/
  history : List Rat
  /-- The compared values of the last 100 updates, newest first. [1 ms | 13 R371 | none] -/
  compared : List Rat
  /-- WARN. [1 | 13 R363 | 0] -/
  warn : Bool
  /-- The throttle request. [- | 13 R366 | none] -/
  req : Option ThrottleReq
  /-- The stop threshold stands. [1 | 13 R363 | 0] -/
  stopped : Bool
  /-- STOP_HOLD. [1 | 13 R372 | 0] -/
  stopHold : Bool
deriving DecidableEq, Repr

/-- The lead measurements of a voice (10). -/
structure Lead where
  /-- The held opening measurements, newest first, at most 8. [8 × ticks | 10 R291 | none] -/
  opens : List Int
  /-- The held closing measurements, newest first, at most 8. [8 × ticks | 10 R291 | none] -/
  closes : List Int
  /-- LAST_OPEN. [ticks | 05 R163 | 0] -/
  lastOpen : Int
  /-- LAST_CLOSE. [ticks | 05 R163 | 0] -/
  lastClose : Int
  /-- NOMOTION. [1 | 10 R290 | 0] -/
  noMotion : Bool
  /-- The search that runs. [- | 10 R289 | none] -/
  search : Option Search
deriving DecidableEq, Repr

/-- The lifetime counters of a voice (14 R404). -/
structure Lifetime where
  /-- CYCLES loaded. [32 | 14 R405 | 0, DESIGN CHOICE, log entry 3] -/
  cycles : Nat
  /-- ON_SECONDS loaded. [32 | 14 R405 | 0, DESIGN CHOICE, log entry 3] -/
  seconds : Nat
  /-- Turn-ons of the session. [- | 14 R404 | 0] -/
  sessionCycles : Nat
  /-- Driven time of the session in drives that have ended. [ticks | 14 R404 | 0] -/
  sessionTicks : Nat
  /-- LIFETIME_MAX has been logged for CYCLES. [1 | 14 R404 | 0] -/
  cyclesMax : Bool
  /-- LIFETIME_MAX has been logged for ON_SECONDS. [1 | 14 R404 | 0] -/
  secondsMax : Bool
deriving DecidableEq, Repr

/-- One voice (06, 07, 10, 13, 14). -/
structure Voice where
  /-- State. [4 | 05 R135 | OFF] -/
  st : VState
  /-- A stripe is retired: the voice is a half-voice. [1 | 06 R193 | 0] -/
  half : Bool
  /-- GATE_ON. [1 | 05 R139 | 0] -/
  gate : Bool
  /-- The commanded state. [1 | 08 R232 | OFF] -/
  cmd : Bool
  /-- FAULT byte. [8 | 05 R139 | 0] -/
  fault : Nat
  /-- Retry counter. [8, saturates | 07 R206 | 0] -/
  retry : Nat
  /-- The retry falls due at this time; none under LATCH. [now | 07 R205 | none] -/
  retryAt : Option Nat
  /-- The retry has fallen due and waits for a bar to lift. [1 | 07 R207 | 0] -/
  retryReady : Bool
  /-- Since when the voice has been driven without a tripping fault. [now | 07 R206 | none] -/
  drivenSince : Option Nat
  /-- Since when the voice has stood, without gate drive, in a state that arms the off-state detections; in TRIPPED, when
  its gate fell. [now | 07 R200, R212 | 0] -/
  idleSince : Nat
  /-- When its drive last ended. [now | 07 R212, 13 R358 | 0] -/
  offAt : Nat
  /-- COLD_VARIANT. [1 | 06 R189 | 0] -/
  cold : Bool
  /-- Inrush profile of the running turn-on. [4 | 06 R187 | 0] -/
  profile : Nat
  /-- The inrush phases still to run, the running one first: when each ends and its limit in half class steps; the peak
  phase of PEAK_HOLD is one. [now, 9 | 06 R182, R187 | none] -/
  plan : List (Nat × Nat)
  /-- When the hold phase began. [now | 06 R182 | 0] -/
  holdFrom : Nat
  /-- Since when the voice has been driven. [now | 14 R404 | none] -/
  drivenFrom : Option Nat
  /-- The turn-on slot. [now | 06 R174 | 0] -/
  onAt : Nat
  /-- When the gate last rose. [now | 07 R200 | 0] -/
  edgeAt : Nat
  /-- When the desaturation monitor arms; none while a SLEW ramp runs. [now | 06 R185 | none] -/
  desatAt : Option Nat
  /-- RAMPING without a gate ramp lasts until this time. [now | 06 R180 | 0] -/
  rampUntil : Nat
  /-- Drive mode the running drive follows. [4 | 08 R242 | STATIC] -/
  driveMode : Nat
  /-- The limit in force, in half class steps, so that a half-voice's limit is exact. [9 | 06 R185, R193 | 0] -/
  limit : Nat
  /-- The gate ramp. [- | 06 R173 | none] -/
  ramp : Ramp
  /-- What the ramp is for. [- | 06 R173 | turn-on] -/
  rampUse : RampUse
  /-- A device breath token is held. [1 | 10 R295 | 0] -/
  token : Bool
  /-- The domain of the chain token in use. [4 | 10 R295 | none] -/
  domainToken : Option Nat
  /-- When the breath span ends. [now | 06 R188 | none] -/
  spanEnd : Option Nat
  /-- The turn-on that waits. [- | 10 R296 | none] -/
  wait : Option Wait
  /-- The running duty set. [16 | 05 R153 | 0] -/
  duty : Nat
  /-- The duty ramp: start duty, start time, length in ticks. [- | 06 R187 | none] -/
  dutyRamp : Option (Nat × Nat × Nat)
  /-- When the PWM pulse or the hold chop's on-phase ends. [now | 06 R177 | none] -/
  offEdge : Option Nat
  /-- The first pulse after a turn-on is under way: the voice has not joined its grid. [1 | 06 R180 | 0] -/
  firstPulse : Bool
  /-- The current target of the chop in half class steps: I_PEAK, then the hold target. [9 | 06 R182, R193 | 0] -/
  target : Nat
  /-- Consecutive clamped hold chop periods. [2 | 06 R183 | 0] -/
  clampedChops : Nat
  /-- The clamp has been found active in the chop period under way. [1 | 06 R183 | 0] -/
  clampedNow : Bool
  /-- The energy so far of the clamp pulse under way, in µJ. [µJ | 06 R195, 07 R212 | none] -/
  clamp : Option Nat
  /-- A valid stream sample has arrived since the turn-on or the unmute. [1 | 06 R184, 12 R341 | 0] -/
  sampled : Bool
  /-- The mute has lasted over the turn-on: MUTE_DUTY holds until a sample arrives. [1 | 12 R341 | 0] -/
  muteKept : Bool
  /-- BARRED. [1 | 07 R220 | 0] -/
  barred : Bool
  /-- Stripes retired. [2 | 07 R221 | 0] -/
  stripes : BitVec 2
  /-- PULLUP_RETIRED. [1 | 07 R219 | 0] -/
  pullupRetired : Bool
  /-- Open repetition windows, by fault code (group A under 1). [12 | 07 R217 | 0] -/
  windows : BitVec 12
  /-- Reporting conditions scored that have not ceased, by fault code. [12 | 07 R200 | 0] -/
  scored : BitVec 12
  /-- The checks that wait. [- | 07 R212 | none] -/
  checks : CheckQueue
  /-- The last check and the counts. [- | 07 R230 | zeros] -/
  record : CheckRecord
  /-- Late cancellations not yet logged. [16 | 10 R300 | 0] -/
  lateCount : Nat
  /-- When CUE_LATE was last logged for the voice. [now | 10 R297 | none] -/
  lateAt : Option Nat
  /-- The times of its LH transitions inside the last 1 s, newest first. [now | 02 R55 | none] -/
  transitions : List Nat
  /-- A debounced change of its input has been withheld since this time. [now | 02 R56 | none] -/
  withheld : Option Nat
  /-- A driven voice followed LH_SEL by FB_ACTION LH. [1 | 08 R243 | 0] -/
  fallbackLh : Bool
  /-- The thermal model. [- | 13 R356 | -] -/
  therm : VoiceThermal
  /-- The leads. [- | 10 R287 | -] -/
  lead : Lead
  /-- The lifetime counters. [- | 14 R404 | -] -/
  life : Lifetime
deriving DecidableEq, Repr

/-- One LH input (02). -/
structure LhInput where
  /-- The debounced level. [1 | 02 R54 | inactive] -/
  level : Bool
  /-- Since when the debounced level has stood. [now | 02 R54 | 0] -/
  since : Nat
  /-- CHATTER. [1 | 02 R56 | 0] -/
  chatter : Bool
  /-- The level at the pin. [1 | 02 R54 | inactive] -/
  raw : Bool
  /-- The debounce timer: since when the pin has shown that level. [now | 02 R54, R64 | 0] -/
  rawAt : Nat
  /-- Since when every raw level has ended within the debounce time. [now | 02 R56 | none] -/
  restless : Option Nat
deriving DecidableEq, Repr

/-- A pending cue entry (10 R276). -/
structure Cue where
  /-- Cue ID. [32 | 05 R159 | -] -/
  id : Word
  /-- 0 TIME, 1 DISTANCE, 2 IMMEDIATE, 3 DOWNBEAT. [2 | 10 R276 | -] -/
  basis : Nat
  /-- NOLEAD. [1 | 10 R276 | -] -/
  noLead : Bool
  /-- 0 OFF, 1 ON, 2 DUTY, 3 PROFILE. [2 | 10 R276 | -] -/
  action : Nat
  /-- WHO names a chorus. [1 | 10 R276 | -] -/
  chorus : Bool
  /-- The voice or chorus. [6 | 10 R276 | -] -/
  who : Nat
  /-- ARG. [16 | 10 R276 | -] -/
  arg : Nat
  /-- The cue ID of the ON partner of a paired OFF. [32 | 10 R293 | -] -/
  partner : Option Word
  /-- TARGET, moved by retargeting. [64 | 10 R276 | -] -/
  target : Int
  /-- The entry as submitted. [16 bytes | 05 R161 | -] -/
  bytes : List Byte
  /-- The voices acted on or skipped. [48 | 10 R280 | -] -/
  acted : Mask
  /-- The voices whose action the pair rule of R293 took away. [48 | 10 R293 | -] -/
  nulled : Mask
  /-- The entry has been judged once after it was queued. [1 | 10 R282 | -] -/
  seen : Bool
  /-- The voices it named when it was last judged. [48 | 10 R282 | -] -/
  named : Mask
  /-- Its last voice has acted or been skipped: the entry completes once none of its turn-ons waits for breath.
  [1 | 10 R279 | -] -/
  spent : Bool
deriving DecidableEq, Repr

/-- The cue queue and its counters (10 R279, R299). -/
structure CueQueue where
  /-- Pending entries in submission order, at most 4,096. [4,096 | 10 R279 | empty] -/
  queue : List Cue
  /-- The ID of the next accepted entry. [32, wraps | 05 R161 | 0] -/
  nextId : Word
  /-- NULL_PULSE. [16, sticks | 10 R299 | 0] -/
  nullPulse : Nat
  /-- CUE_LATE. [16, sticks | 10 R299 | 0] -/
  cueLate : Nat
  /-- RAMP_ABORT. [16, sticks | 10 R299 | 0] -/
  rampAbort : Nat
  /-- BEHIND. [16, sticks | 10 R299 | 0] -/
  behind : Nat
  /-- MUST_FIRED. [16, sticks | 10 R299 | 0] -/
  mustFired : Nat
  /-- DROPPED. [16, sticks | 10 R299 | 0] -/
  dropped : Nat
deriving DecidableEq, Repr

/-- One entry of a timestamp FIFO (09 R269). -/
structure FifoEntry where
  tbc : Int
  rising : Bool
  fallbackTb : Bool
  holdover : Bool
deriving DecidableEq, Repr

/-- One tally input on the control die (09). -/
structure TallyInput where
  /-- Level reported by the link. [1 | 09 R267 | 0, DESIGN CHOICE, log entry 8] -/
  level : Bool
  /-- STUCK_LEVEL. [1 | 09 R267 | 0] -/
  stuck : Bool
  /-- The level timer started at this time; none while the link carries no flags. [now | 09 R267 | none] -/
  levelSince : Option Nat
  /-- The stamp of the last counting edge since the link returned. [tbc | 09 R268 | none] -/
  last : Option Int
  /-- The stamp of the last counting edge, whatever the link did since. [tbc | 09 R271 | none] -/
  edgeAt : Option Int
  /-- The last period, once two counting edges have come. [ticks | 09 R268 | none] -/
  period : Option Int
  /-- A counting edge that came after GROUND_NONE. [tbc | 09 R274 | none] -/
  returned : Option Int
  /-- The FIFO, oldest first, at most 256. [256 | 09 R265 | empty] -/
  fifo : List FifoEntry
  /-- Entries released so far, which bounds a bulk read at its snapshot. [- | 03 R81 | 0] -/
  taken : Nat
  /-- OVERFLOW. [16, sticks | 09 R265 | 0] -/
  overflow : Nat
  /-- TALLY_OVERFLOW has been logged since power-up or CLEAR. [1 | 09 R265 | 0] -/
  overflowLogged : Bool
  /-- GLITCH. [16, sticks | 09 R264 | 0] -/
  glitch : Nat
  /-- ORPHAN. [16, sticks | 09 R266 | 0] -/
  orphan : Nat
  /-- A width start that waits for its stop. [tbc | 09 R266 | none] -/
  start : Option Int
  /-- LAST_WIDTH. [ticks | 09 R266 | 0] -/
  width : Int
deriving DecidableEq, Repr

/-- The ground source in use (05 R162). -/
inductive GroundSource where
  | primary | secondary | none
deriving DecidableEq, Repr

/-- The odometer's states (10 R285). -/
inductive OdoState where
  | running | frozen | unavailable | noPulse
deriving DecidableEq, Repr

/-- The odometer (10) and the choice of its source (09). -/
structure Odometer where
  /-- The base B in 1/65,536 unit. [64.16 | 10 R284 | 0] -/
  base : Int
  /-- The value the odometer holds at and never falls below, in 1/65,536 unit. [64.16 | 09 R272, 10 R285 | 0] -/
  floor : Int
  /-- State. [8 | 10 R285 | 2, unavailable: VMET is absent] -/
  st : OdoState
  /-- Source. [8 | 05 R162 | primary] -/
  source : GroundSource
  /-- t_last. [tbc | 10 R284 | none] -/
  last : Option Int
  /-- P_last; none while interpolation waits for a period. [ticks | 10 R284, R285 | none] -/
  period : Option Int
  /-- The odometer has had a counting edge. [1 | 10 R285 | no] -/
  pulsed : Bool
  /-- The state without a pulse follows a time of unavailability. [1 | 10 R285 | no] -/
  regained : Bool
  /-- No source stands since GROUND_NONE. [1 | 09 R271, R274 | no] -/
  groundNone : Bool
  /-- A switch to or from the secondary is not complete. [1 | 09 R272 | no] -/
  switching : Bool
  /-- GROUND_DEGRADED. [1 | 09 R272 | 0] -/
  degraded : Bool
  /-- Evaluations have been implausible since this time. [now | 09 R271 | none] -/
  implausible : Option Nat
  /-- On the secondary: evaluations have been plausible, and the switch complete, since this time. [now | 09 R273 | none] -/
  plausible : Option Nat
  /-- When plausibility was last evaluated. [now | 09 R270 | 0] -/
  evalAt : Nat
  /-- U and P_cur at the last 10 µs evaluation of leads; none while no period was known. [1/65,536 unit, ticks | 10 R288 | none] -/
  lead : Option (Int × Int)
  /-- When leads were last evaluated. [now | 10 R281 | 0] -/
  leadAt : Nat
  /-- The odometer in 1/1024 pulse as it stood one slot before the slot under way. [64 | 10 R282 | 0] -/
  before : Int
deriving DecidableEq, Repr

/-- The kinds of voice check (07 R213). -/
inductive CheckKind where
  | trip | report | host
deriving DecidableEq, Repr

/-- The voice check that runs (07 R213). -/
structure RunningCheck where
  kind : CheckKind
  voice : VoiceId
  /-- The gang partner held off with it. [- | 07 R214 | -] -/
  partner : Option VoiceId
  /-- Both members are tested, the even one first. [1 | 07 R222 | -] -/
  both : Bool
  trigger : Nat
  tests : BitVec 6
  /-- It repeats an INCONCLUSIVE check. [1 | 07 R219 | -] -/
  repeats : Bool
  /-- The reporting faults of the check, earliest first. [list of 8 | 07 R212 | -] -/
  codes : List Nat
  /-- I_MEAS and V_BANK of a reporting check's fault, and the voice state before it. [16 + 16 + 8 | 07 R227 | -] -/
  meas : Meas
  before : Nat
  /-- Length in µs. [16 | 07 R211 | -] -/
  length : Nat
  /-- [now | 07 R211 | -] -/
  ends : Nat
deriving DecidableEq, Repr

/-- The sound-check engine and its counters (07). -/
structure SoundCheck where
  /-- The check that runs. [- | 07 R213 | none] -/
  running : Option RunningCheck
  /-- SC_DELAYED. [16, sticks | 07 R214 | 0] -/
  delayed : Nat
  /-- LOG_DISCARDED. [16, sticks | 07 R227 | 0] -/
  discarded : Nat
  /-- LOG_WRITTEN. [8 | 07 R230 | 0] -/
  written : Nat
  /-- UNITS_RETIRED. [8, saturates | 07 R230 | 0] -/
  unitsRetired : Nat
  /-- The key offset of the next fault-log record. [8 | 07 R227 | 0] -/
  nextKey : Nat
  /-- (unit, group, outcome) already written this power cycle. [- | 07 R227 | none] -/
  firsts : List (Nat × Nat × Nat)
  /-- Records held in SRAM, oldest first, at most 16: key and value. [16 | 07 R228 | none] -/
  held : List (Nat × List Byte)
  /-- Voices CHECKING in their zone's self-heating test after OT_STOP. [48 | 13 R373 | 0] -/
  zoneChecked : Mask
deriving DecidableEq, Repr

/-- A completed conversion (11 R309). -/
structure Conv where
  /-- The corrected value y. [14 | 11 R309 | -] -/
  y : Nat
  valid : Bool
  scan : Nat
  /-- When it completed. [now | 12 R345 | -] -/
  at_ : Nat
deriving DecidableEq, Repr

/-- One entry of the scan log (11 R312). -/
structure ScanEntry where
  scan : Nat
  tbc : Int
  urgent : Nat
  fallbackTb : Bool
deriving DecidableEq, Repr

/-- An averaging block under way (11 R310). -/
structure Block where
  input : Nat
  sum : Nat
  count : Nat
  valid : Bool
  ow : Bool
deriving DecidableEq, Repr

/-- A visit of a scan that has not completed (11 R303): its scan, its input and the slice that makes it. -/
structure Visit where
  scan : Nat
  input : Nat
  slice : Nat
  /-- The sampling instant. [now | 11 R303, R314 | -] -/
  at_ : Nat
  /-- The CORR word that was in force when it began, where a write has replaced it since. [32 | 04 R125, 11 R309 | none] -/
  corr : Option Word
  /-- The slice, or the descant, that makes it, where the work has changed hands since it began. [4 | 11 R317 | none] -/
  unit : Option Nat
deriving DecidableEq, Repr

/-- One engine (11). -/
structure Engine where
  /-- The number of the next scan, held unwrapped. [32, wraps | 11 R303 | 0] -/
  scanNo : Nat
  /-- The visits still to complete, in order; a scan is running while there are any. [- | 11 R303, R315 | none] -/
  todo : List Visit
  /-- The next continuous scan starts at this time. [now | 11 R304 | 0] -/
  nextScan : Nat
  /-- PAUSED. [1 | 11 R329 | 0] -/
  paused : Bool
  /-- The records held, newest first, at most the capacity, each with its scan. [BUF_KIB × 256 × 32 | 11 R311 | empty] -/
  buffer : List (Word × Nat)
  /-- WRITE, held unwrapped. [32, wraps | 11 R311 | 0] -/
  write : Nat
  /-- READ, held unwrapped. [32, wraps | 11 R311 | 0] -/
  read : Nat
  /-- OVERRUN. [16, sticks | 11 R311 | 0] -/
  overrun : Nat
  /-- DROPS. [16, sticks | 11 R315 | 0] -/
  drops : Nat
  /-- TRIG_OVERRUN. [16, sticks | 11 R307 | 0] -/
  trigOverrun : Nat
  /-- The scan log, newest first, at most 1,024. [1,024 | 11 R312 | empty] -/
  log : List ScanEntry
  /-- Averaging blocks under way. [- | 11 R310 | none] -/
  blocks : List Block
  /-- The trim of the odd slice's sampling instant. [ticks | 11 R305 | 0, DESIGN CHOICE, log entry 9] -/
  skewTrim : Int
deriving DecidableEq, Repr

/-- The states of a slice (11 R330). -/
inductive SliceState where
  | inService | calibrating | retired | standingIn
deriving DecidableEq, Repr

/-- An out-of-range check of a slice that runs (11 R319): the input, the raw code that began it, none where the conversion
did not complete, the descant's own reading once it is made, and when the check began. -/
structure RangeCheck where
  input : Nat
  raw : Option Nat
  again : Option (Option Nat)
  since : Nat
deriving DecidableEq, Repr

/-- One slice, or the descant (11). -/
structure Slice where
  /-- State. [8 | 11 R330 | in service] -/
  st : SliceState
  /-- FAILS. [8, saturates | 11 R330 | 0] -/
  fails : Nat
  /-- OFFSET_TRIM in 1/16 LSB. [16 | 11 R330 | 0, DESIGN CHOICE, log entry 9] -/
  offsetTrim : Int
  /-- GAIN_TRIM in ppm. [16 | 11 R330 | 0, DESIGN CHOICE, log entry 9] -/
  gainTrim : Int
  /-- When it last passed. [now | 11 R330 | 0] -/
  passedAt : Nat
  /-- Its out-of-range check that runs. [- | 11 R319 | none] -/
  check : Option RangeCheck
  /-- When it last received a decision. [now | 11 R319 | none] -/
  decidedAt : Option Nat
deriving DecidableEq, Repr

/-- One AUX input (11 R320 to R324). -/
structure Aux where
  /-- The next visit is a test visit. [1 | 11 R320 | plain] -/
  test : Bool
  /-- The preceding plain value. [14 | 11 R321 | 0] -/
  plain : Nat
  /-- OPEN. [1 | 11 R321 | 0] -/
  isOpen : Bool
  /-- NTC_FAULT. [1 | 11 R324 | 0] -/
  ntcFault : Bool
  /-- PASS_RUN. [8, saturates | 11 R330 | 0] -/
  passRun : Nat
  /-- Consecutive plain visits with no NTC condition. [8 | 11 R324 | 0] -/
  ntcGood : Nat
  /-- LAST_GOOD_SCAN and LAST_GOOD_TBC. [32 + 64 | 11 R323 | none] -/
  lastGood : Option (Nat × Int)
deriving DecidableEq, Repr

/-- The conversion subsystem (11). -/
structure Converter where
  /-- E0 to E3. [- | 11 R301 | -] -/
  engines : Tab Engine 4
  /-- S0 to S7 and, last, the descant. [- | 11 R301 | -] -/
  slices : Tab Slice 9
  /-- AUX0 to AUX7. [- | 11 R320 | -] -/
  aux : Tab Aux 8
  /-- The newest completed conversion of each input. [120 | 12 R345 | none] -/
  newest : Tab (Option Conv) 120
  /-- Background calibration runs. [1 | 11 R318 | runs] -/
  calRuns : Bool
  /-- The next calibration step, 0 to 8. [4 | 11 R316 | 0] -/
  calStep : Nat
  /-- The step under way is a repeat. [1 | 11 R318 | no] -/
  calRepeat : Bool
  /-- STAND_IN. [8 | 11 R330 | none] -/
  standIn : Option Nat
  /-- REPLACED. [8 | 11 R330 | none] -/
  replaced : Option Nat
  /-- CAL_AGED. [1 | 11 R318 | 0] -/
  aged : Bool
  /-- Calibration steps completed. [32, wraps | 11 R330 | 0] -/
  cycles : Nat
  /-- When the calibration step under way ends. [now | 11 R316 | none] -/
  calEnds : Option Nat
  /-- The urgent requests that wait, in the order they came: the source and the input. [- | 11 R313 | none] -/
  urgent : List (UrgentSource × Nat)
  /-- The descant is free for the next urgent conversion from this time. [now | 11 R313 | 0] -/
  urgentFree : Nat
deriving DecidableEq, Repr

/-- The states of the wave port (12 R339). -/
inductive WaveState where
  | disabled | running | acquiring | lost
deriving DecidableEq, Repr

/-- One slot of the wave port (12). -/
structure WaveSlot where
  /-- The buffer, newest first, at most 2^BUF_LOG2. [words | 12 R349 | empty] -/
  buffer : List Word
  /-- FROZEN. [1 | 12 R351 | 0] -/
  frozen : Bool
  /-- ARMED on this voice with this POST. [6 + 16 | 12 R350 | none] -/
  armed : Option (VoiceId × Nat)
  /-- The commit slot of the arming. [now | 12 R350 | 0] -/
  armedAt : Nat
  /-- A fault has come: the frame starts until the slot freezes, the voice, its fault code and POST. [- | 12 R350 | none] -/
  counting : Option (Nat × VoiceId × Nat × Nat)
  /-- LAST_WORD. [32 | 12 R352 | 0] -/
  lastWord : Word
  /-- WRITTEN. [32, wraps | 12 R352 | 0] -/
  written : Nat
  /-- The C bits of the block so far, oldest first. [192 | 12 R344 | none] -/
  csBits : List Bool
  /-- Every word of the block so far had correct parity and no realignment cut it. [1 | 12 R344 | no] -/
  csGood : Bool
  /-- Out-slot: the channel-status word of the current block; in-slot: the last stored one. [24 bytes | 12 R352 | zeros] -/
  cs : List Byte
  /-- The newest valid duty word held. [16 | 12 R341 | none] -/
  duty : Option Nat
  /-- A word of the current frame was taken in: the duty held before it, and the STREAMED voices that had no sample yet, and
  that kept their mute, before it. [16 + 48 + 48 | 12 R338 | none] -/
  inFrame : Option (Option Nat × Mask × Mask)
  /-- Out-slot: the conversion taken at the start of the frame under way. [- | 12 R345 | none] -/
  took : Option Conv
deriving DecidableEq, Repr

/-- The wave port (12). -/
structure Wave where
  /-- State. [8 | 12 R339 | DISABLED] -/
  st : WaveState
  /-- Consecutive stable frames. [16, saturates | 12 R352 | 0] -/
  stable : Nat
  /-- Frame of the block, 0 to 191. [8 | 12 R342 | 0] -/
  frame : Nat
  /-- Blocks started. [32, wraps | 12 R344 | 0] -/
  blocks : Nat
  /-- Consecutive missing boundaries. [2 | 12 R338 | 0] -/
  missing : Nat
  /-- The boundary of the frame under way was assumed: no mark came. [1 | 12 R338 | no] -/
  assumed : Bool
  /-- When the block under way started. [now | 12 R340 | none] -/
  blockAt : Option Nat
  /-- A frame mark has been seen since acquisition or the port was configured. [1 | 12 R340 | no] -/
  marked : Bool
  /-- The frame under way began stably. [1 | 12 R338 | no] -/
  began : Bool
  /-- When the frame under way and the 192 before it started, newest first. [now | 12 R345, R352 | none] -/
  starts : List Nat
  /-- In master mode: where the grid of frames begins, and the frames begun since. [now | 12 R336, R347 | 0, 0] -/
  origin : Nat
  count : Nat
  /-- When the port was enabled or reconfigured. [now | 12 R345 | 0] -/
  since : Nat
  /-- Frames spent muted. [- | 12 R353 | 0] -/
  muted : Nat
  /-- The control die ran on the fallback time base at the block start. [1 | 12 R344 | 0] -/
  fallbackTb : Bool
  /-- LOSSES. [16, sticks | 12 R352 | 0] -/
  losses : Nat
  /-- FRAME_ERR. [16, sticks | 12 R352 | 0] -/
  frameErr : Nat
  /-- PARITY_ERR. [16, sticks | 12 R352 | 0] -/
  parityErr : Nat
  /-- V_SKIPPED. [16, sticks | 12 R352 | 0] -/
  vSkipped : Nat
  /-- CS_ERR. [16, sticks | 12 R352 | 0] -/
  csErr : Nat
  /-- REALIGN. [16, sticks | 12 R352 | 0] -/
  realign : Nat
  /-- The slots. [16 | 12 R332 | -] -/
  slots : Tab WaveSlot 16
deriving DecidableEq, Repr

/-- The states of a zone sensor (13 R375). -/
inductive ZoneState where
  | measured | suspect | checking | interpolated
deriving DecidableEq, Repr

/-- One zone (13). -/
structure Zone where
  /-- The last reading in 0.1 °C. [16 | 13 R355 | 0, DESIGN CHOICE, log entry 6] -/
  reading : Int
  /-- T_Z in °C. [°C | 13 R355 | 0, DESIGN CHOICE, log entry 6] -/
  temp : Rat
  /-- State. [- | 13 R375 | measured] -/
  st : ZoneState
  /-- Consecutive readings more than 15 K from the estimate. [8 | 13 R374 | 0] -/
  disagree : Nat
  /-- Consecutive readings within 15 K after a passing check. [8 | 13 R375 | 0] -/
  agree : Nat
  /-- The last check passed. [1 | 13 R375 | no] -/
  checkPassed : Bool
  /-- No further check before this time. [now | 13 R375 | 0] -/
  checkAfter : Nat
  /-- A self-heating check runs, until this time. [now | 13 R373 | none] -/
  checkEnds : Option Nat
  /-- Interpolated without a healthy neighbour. [1 | 13 R375 | no] -/
  alone : Bool
  /-- The compared values of the last 20 readings, newest first. [1 ms | 13 R371 | none] -/
  compared : List Rat
  /-- WARN. [1 | 13 R363 | 0] -/
  warn : Bool
  /-- The zone's own throttle request. [- | 13 R366 | none] -/
  req : Option ThrottleReq
  /-- The stop threshold stands. [1 | 13 R363 | 0] -/
  stopped : Bool
  /-- The zone is in stop hold. [1 | 13 R372 | 0] -/
  stopHold : Bool
  /-- The zone enforces. [1 | 13 R368 | 0] -/
  enforcing : Bool
  /-- The ceiling c. [4 | 13 R368 | 8] -/
  ceiling : Nat
  /-- When the ceiling moves next. [now | 13 R368 | none] -/
  stepAt : Option Nat
deriving DecidableEq, Repr

/-- The thermal management of the device (13). -/
structure Thermal where
  /-- The zones. [8 | 13 R354 | -] -/
  zones : Tab Zone 8
  /-- COLD_BLOCK. [1 | 13 R364 | 0] -/
  coldBlock : Bool
  /-- The blip that runs: voice, and its end once the gate is at full enhancement. [now | 13 R378 | none] -/
  blip : Option (VoiceId × Option Nat)
  /-- The blips queued, in order. [48 | 13 R379 | none] -/
  blips : List VoiceId
  /-- When the zones were last read. [now | 13 R355 | 0] -/
  readAt : Nat
  /-- When the model was last updated. [now | 13 R356 | 0] -/
  updatedAt : Nat
deriving DecidableEq, Repr

/-- A record of the record store (14 R398). -/
structure Rec where
  key : Nat
  /-- TYPE is tombstone. [8 | 14 R398 | -] -/
  tomb : Bool
  rseq : Nat
  value : List Byte
  /-- MARK is 0x0000: the clean-shutdown marker is consumed. [16 | 14 R405 | -] -/
  consumed : Bool
  /-- The record was torn or failed verification: its CRC does not match. [- | 14 R394 | -] -/
  torn : Bool
  /-- Its header is incomplete: it ends the data of its sector. [- | 14 R402 | -] -/
  cut : Bool
  /-- Words of it that have been programmed: all of them, or those before a tear. [8 | 14 R394, R398 | -] -/
  words : Nat
  /-- The word of it that is not settled, and whether MARGIN_READ is sure to find it weak. [8 + 1 | 14 R391, R395 | none] -/
  bad : Option (Nat × Bool)
deriving DecidableEq, Repr

/-- The states of a record-store sector (14 R399). -/
inductive SectorState where
  | erased | open_ | full | dirty
deriving DecidableEq, Repr

/-- One record-store sector (14 R399). -/
structure Sector where
  st : SectorState
  /-- SEQ. [32 | 14 R399 | 0] -/
  seq : Nat
  /-- ERASES. [32, sticks | 14 R410 | 0] -/
  erases : Nat
  /-- The records, in address order. [- | 14 R398 | none] -/
  recs : List Rec
deriving DecidableEq, Repr

/-- The raw operation that runs or ran last (14 R419). -/
structure RawOp where
  /-- 0 none, 1 program, 2 erase. [8 | 14 R419 | 0] -/
  kind : Nat
  /-- LAST_RESULT. [8 | 14 R419 | 0] -/
  result : Nat
  /-- OP_ADDR. [32 | 14 R419 | 0] -/
  addr : Nat
  /-- OP_TOTAL. [16 | 14 R419 | 0] -/
  total : Nat
  /-- OP_DONE. [16 | 14 R419 | 0] -/
  done : Nat
  /-- FAIL_ADDR. [32 | 14 R419 | 0xFFFFFFFF] -/
  failAddr : Nat
  /-- The bytes to program, after the AND of R390. [bytes | 14 R390 | none] -/
  data : List Byte
  /-- The sectors still to erase. [16 | 14 R392 | none] -/
  sectors : List Nat
  /-- From when the words above `base` are counted; of an erase, when it began or may end after a suspension.
  [now | 14 R385, R388 | 0] -/
  startedAt : Nat
  /-- Words programmed before `startedAt`. [16 | 14 R385 | 0] -/
  base : Nat
  /-- The operation is in progress. [1 | 03 R82 NV_BUSY | 0] -/
  busy : Bool
deriving DecidableEq, Repr

/-- A record append under way or waiting (14 R400). -/
structure Append where
  key : Nat
  tomb : Bool
  value : List Byte
  /-- RSEQ the record carries. [32 | 14 R400 | -] -/
  rseq : Nat
  host : Bool
  /-- Words of it programmed when the flash last turned to other work. [8 | 14 R385 | 0] -/
  words : Nat
deriving DecidableEq, Repr

/-- A garbage collection under way (14 R401): once no record is left to copy, the victim is being erased. -/
structure GcRun where
  victim : Fin 16
  /-- The records still to copy, the one in hand first. [- | 14 R401 | -] -/
  todo : List Rec
  /-- Words of the copy in hand programmed when the flash last turned to other work. [8 | 14 R385 | -] -/
  words : Nat
  /-- From when the copy in hand is programmed, or the erase may end. [now | 14 R385 | -] -/
  at_ : Nat
deriving DecidableEq, Repr

/-- The data flash (14). -/
structure Flash where
  /-- The raw region: bytes other than 0xFF, in ascending order of address. [64 KiB | 14 R384 | erased, DESIGN CHOICE,
  log entry 3] -/
  raw : List Host.Cell
  /-- Words programmed since power-up or the erasure of their sector, with how often. [8,192 | 14 R390 | none] -/
  programs : List (Nat × Nat)
  /-- Words whose content is not settled (torn, badly programmed, or programmed a third time): the word, the bits it
  may hold and the bits it must hold, 8 bytes each, and whether MARGIN_READ is sure to find it weak.
  [8,192 | 14 R390, R395 | none] -/
  torn : List (Nat × List Byte × List Byte × Bool)
  /-- Programs of each word since its sector was erased, whatever the power cycle. [8,192 | 14 R390 | none] -/
  burns : List (Nat × Nat)
  /-- Sectors whose content an abandoned erase left undefined. [16 | 14 R395 | 0] -/
  undefinedSectors : BitVec 16
  /-- Protection level. [2 | 14 R387 | 3, ALL] -/
  protect : Nat
  /-- The raw operation. [- | 14 R419 | none] -/
  op : RawOp
  /-- Erase counts of raw sectors. [16 × 32, stick | 14 R410 | 0, DESIGN CHOICE, log entry 3] -/
  rawErases : Tab Nat 16
  /-- Raw sectors retired. [16 | 14 R419 | 0] -/
  rawRetired : BitVec 16
  /-- Record-store sectors retired. [16 | 14 R419 | 0] -/
  recRetired : BitVec 16
  /-- The record store. [16 sectors | 14 R399 | erased, sector 0 open, DESIGN CHOICE, log entry 3] -/
  sectors : Tab Sector 16
  /-- NEXT_RSEQ. [32 | 14 R400 | 0, DESIGN CHOICE, log entry 3] -/
  nextRseq : Nat
  /-- Appends under way, oldest first. [- | 14 R385 | none] -/
  appends : List Append
  /-- From when the append in hand is programmed. [now | 14 R385 | 0] -/
  servedAt : Nat
  /-- The garbage collection under way. [- | 14 R401 | none] -/
  gc : Option GcRun
  /-- The record scan has completed. [1 | 02 R44 | no] -/
  scanned : Bool
  /-- The flash checks that run, earliest first: unit code, the record append one follows, and its start.
  [8, -, now | 14 R411 | none] -/
  checks : List (Nat × Option Append × Nat)
  /-- The clean-shutdown marker is still to be consumed below −45 °C. [1 | 14 R406 | no] -/
  markDue : Bool
deriving DecidableEq, Repr

/-- A Score total with its rollover count (15 R433). -/
structure Total where
  value : Nat
  roll : Nat
deriving DecidableEq, Repr

/-- A set of legal totals: volumes, areas, distances (15 R425). -/
structure Totals where
  vol : Tab Total 4
  area : Tab Total 4
  dist : Tab Total 2
deriving DecidableEq, Repr

/-- An audit record (15 R440). -/
structure AuditRec where
  aseq : Word
  type : Nat
  /-- FLAGS. [8 | 15 R440 | -] -/
  flags : Nat
  session : Nat
  tbc : Int
  eventCtr : Nat
  data : List Byte
  /-- Its CRC fails: VMET collapsed while it was written. [1 | 15 R440 | -] -/
  torn : Bool
deriving DecidableEq, Repr

/-- An open rated-condition mark (15 R437). -/
structure Mark where
  start : Int
  input : Nat
  vol : Tab Total 4
  area : Tab Total 4
deriving DecidableEq, Repr

/-- The states of the Score time base (09 R250). -/
inductive ScoreTb where
  | noRef | acquiring | locked | holdover
deriving DecidableEq, Repr

/-- The seal (15 R449). -/
inductive Seal where
  | unsealed | sealed | sealMode
deriving DecidableEq, Repr

/-- The Score's judgement of the ground of one flow line (15 R438). -/
structure LineGround where
  /-- The secondary is in use. [1 | 15 R438 | no] -/
  secondary : Bool
  /-- Implausible since. [now | 15 R438 | none] -/
  implausible : Option Nat
  /-- Plausible since. [now | 15 R438 | none] -/
  plausible : Option Nat
  /-- The next pulse has no previous pulse to measure from. [1 | 15 R426 | yes] -/
  fresh : Bool
deriving DecidableEq, Repr

/-- A slot of the totals ring (15 R434). -/
structure RingSlot where
  /-- Its sequence. [- | 15 R435 | -] -/
  seq : Nat
  /-- Its CRC-32 fails: the commit was torn. [1 | 15 R434, R435 | -] -/
  torn : Bool
  life : Totals
  job : Totals
  raw : Tab Total 8
  volRes : Tab Nat 4
  distRes : Tab Nat 2
  areaRes : Tab Nat 4
  pending : Tab Nat 6
  unmapped : Tab Nat 2
  eventCtr : Nat
  jobOpen : Bool
  jobId : Word
  session : Nat
  tbc : Int
deriving DecidableEq, Repr

/-- A message of the mailbox, stamped at its commit slot (15 R442). -/
structure MailMsg where
  packet : Packet
  stamp : Int
  /-- NEWEST of SCORE_AUDIT_READ, from the snapshot. [32 | 15 R448 | -] -/
  newest : Word
  /-- The lifetime totals at the commit slot, where a job splits, with what its pending pulses have become since.
  [10 | 15 R432 | -] -/
  life : Totals
  /-- The pending pulses at the commit slot. [6 × 48 | 15 R432 | -] -/
  pending : Tab Nat 6
  /-- The packet came over the chain, and its reply goes upstream. [1 | 16 R474 | -] -/
  viaChain : Bool
  /-- The number that follows its bar's, where its reply is the packet's first and may count in PREV_ACCEPTED.
  [16 | 03 R82 | -] -/
  bar : Option Nat
deriving DecidableEq, Repr

/-- An answer of the Score that awaits the publication (15 R442). -/
structure MailAnswer where
  opc : Byte
  tag : Byte
  status : Byte
  data : List Byte
deriving DecidableEq, Repr

/-- The Score die (09, 15). -/
structure Score where
  /-- Variant: on a VX48-S the legal functions are fused off. [1 | 00 R9 | VX48-M, DESIGN CHOICE, log entry 2] -/
  variant : Variant
  /-- VMET is valid and the Score reset has ended. [1 | 02 R39 | no, DESIGN CHOICE, log entry 4] -/
  powered : Bool
  /-- Reference mode was sampled at XOUT. [1 | 09 R248 | crystal mode] -/
  refMode : Bool
  /-- The frequency at XIN in Hz; none while no reference is there. [- | 09 R249 | none, DESIGN CHOICE, log entry 4] -/
  reference : Option Nat
  /-- MSEAL was sampled high; inactive on a VX48-S. [1 | 15 R452, 00 R9 | 0] -/
  mseal : Bool
  /-- The level MSEAL is driven to; none while it is an input or the Score is held. [1 | 15 R454 | none] -/
  msealOut : Option Bool
  /-- The seal. [2 | 15 R453 | unsealed, DESIGN CHOICE, log entry 2] -/
  sealSt : Seal
  /-- INSTRUMENT. [16 bytes | 15 R449 | zeros] -/
  instrument : List Byte
  /-- The Score time base. [2 | 09 R250 | NO_REF] -/
  tb : ScoreTb
  /-- The Score's TBC. [64 | 09 R250 | 0] -/
  tbc : Int
  /-- The Score's own time in ticks, on which it times whatever it does by itself. [- | 15 R422, R423 | 0] -/
  own : Nat
  /-- It has locked in this Score power cycle. [1 | 09 R250 | no] -/
  locked : Bool
  /-- A lock attempt failed before the first lock. [1 | 09 R253 | no] -/
  failed : Bool
  /-- When the Score reset ended. [own | 02 R39 | 0] -/
  resetAt : Nat
  /-- When the Score reset ended, or the lock attempt began. [own | 09 R250 | 0] -/
  attemptAt : Nat
  /-- When it relocked, while its TIMEBASE mark stands. [own | 09 R259 | none] -/
  relockedAt : Option Nat
  /-- The Score scan has completed. [1 | 02 R45 | no] -/
  scanned : Bool
  /-- Levels of TI0 to TI7. [8 | 09 R261 | low, DESIGN CHOICE, log entry 8] -/
  levels : Tab Bool 8
  /-- Rising edges. [8 × 48, wrap | 09 R261 | 0] -/
  rising : Tab Nat 8
  /-- Falling edges. [8 × 48, wrap | 09 R261 | 0] -/
  falling : Tab Nat 8
  /-- Wrap flags of the rising counts. [8 | 09 R261 | 0] -/
  riseWrap : Tab Bool 8
  /-- Wrap flags of the falling counts. [8 | 09 R261 | 0] -/
  fallWrap : Tab Bool 8
  /-- Raw totals. [8 | 15 R424 | 0, DESIGN CHOICE, log entry 3] -/
  raw : Tab Total 8
  /-- Lifetime totals. [10 | 15 R433 | 0, DESIGN CHOICE, log entry 3] -/
  life : Totals
  /-- Job totals. [10 | 15 R432 | 0, DESIGN CHOICE, log entry 3] -/
  job : Totals
  /-- Volume residues. [4 | 15 R425 | 0] -/
  volRes : Tab Nat 4
  /-- Distance residues. [2 | 15 R425 | 0] -/
  distRes : Tab Nat 2
  /-- Area residues. [4 | 15 R426 | 0] -/
  areaRes : Tab Nat 4
  /-- Pending pulses of TI0 to TI5. [6 × 48 | 15 R429 | 0] -/
  pending : Tab Nat 6
  /-- Unmapped pulses of TI4, TI5. [2 × 48 | 15 R429 | 0] -/
  unmapped : Tab Nat 2
  /-- The lines whose area could not be computed at an unmapped pulse of the open UNSET mark. [4 | 15 R437 | 0] -/
  unsetLines : BitVec 4
  /-- The calibration block in effect. [48 bytes | 15 R428 | unset] -/
  cal : Option (List Byte)
  /-- The section block in effect, in its 386-byte form. [386 bytes | 15 R428 | unset] -/
  sec : Option (List Byte)
  /-- The items of the calibration block that have been set in this Score power cycle. [6 | 15 R429 | 0] -/
  everSet : BitVec 6
  /-- The last logged calibration block. [48 bytes | 15 R430 | none: compares as zeros] -/
  logCal : Option (List Byte)
  /-- The last logged section block. [386 bytes | 15 R430 | none: compares as zeros] -/
  logSec : Option (List Byte)
  /-- The set log in flash, which alternates between its sectors: the last logged calibration and section blocks.
  [2 sectors | 15 R436 | none] -/
  setLog : Tab (Option (List Byte) × Option (List Byte)) 2
  /-- The sector of the set log written last. [1 | 15 R436 | 0] -/
  setNewest : Fin 2
  /-- EVENT_CTR. [20 | 15 R431 | 0, DESIGN CHOICE, log entry 3] -/
  eventCtr : Nat
  /-- JOB_OPEN. [1 | 15 R432 | no] -/
  jobOpen : Bool
  /-- JOB_ID, open or last. [32 | 15 R444 | 0] -/
  jobId : Word
  /-- SESSION. [16, wraps | 15 R440 | 0, DESIGN CHOICE, log entry 3] -/
  session : Nat
  /-- DIAG suppression mask. [5 | 15 R439 | 0] -/
  diag : BitVec 5
  /-- The open marks: 0 TIMEBASE, 1 TEMP_LOW, 2 TEMP_HIGH, 3 UNSET, 4 to 7 GROUND of lines 0 to 3.
  [8 | 15 R437 | none] -/
  marks : Tab (Option Mark) 8
  /-- The ground of each flow line. [4 | 15 R438 | primary] -/
  lines : Tab LineGround 4
  /-- Times of the last legal pulse of TI4, TI5, and the last period. [own | 15 R438 | none] -/
  ground : Tab (Option Nat × Option Nat) 2
  /-- Tap samples since the last legal pulse of TI4, TI5. [2 | 15 R426 | 0] -/
  samples : Tab Nat 2
  /-- Of those, the samples in which each section was energised. [2 × 32 | 15 R426 | 0] -/
  energised : Tab (Tab Nat 32) 2
  /-- The last tap sample. [48 | 15 R423 | 0] -/
  taps : Mask
  /-- When it was taken. [own | 15 R423 | 0] -/
  sampledAt : Nat
  /-- When the ground was last judged. [own | 15 R438 | 0] -/
  judgedAt : Nat
  /-- The audit trail, oldest first, at most 640. [640 × 64 bytes | 15 R436 | empty, DESIGN CHOICE, log entry 3] -/
  audit : List AuditRec
  /-- ASEQ of the next record. [32, wraps | 15 R440 | 0, DESIGN CHOICE, log entry 3] -/
  nextAseq : Word
  /-- AUDIT_DROPPED. [32, sticks | 15 R441 | 0] -/
  auditDropped : Nat
  /-- Audit records held in RAM below −45 °C, oldest first, at most 32. [32 | 15 R436 | none] -/
  heldAudit : List AuditRec
  /-- The ring. [64 × 256 bytes | 15 R434, R436 | erased, DESIGN CHOICE, log entry 3] -/
  ring : Tab (Option RingSlot) 64
  /-- The slot of the next commit. [6 | 15 R434 | 0] -/
  ringNext : Fin 64
  /-- When the last commit began. [own | 15 R434 | none] -/
  commitAt : Option Nat
  /-- The first change since the last commit. [own | 15 R434 | none] -/
  changedAt : Option Nat
  /-- A ring commit is postponed below −45 °C. [1 | 15 R436 | no] -/
  commitDue : Bool
  /-- Programming is blocked below −45 °C. [1 | 15 R436 | no] -/
  cold : Bool
  /-- Die temperature in 0.1 °C. [16 | 15 R437 | 0, DESIGN CHOICE, log entry 6] -/
  temp : Int
  /-- Mailbox ACCEPTED. [32, sticks | 15 R449 | 0] -/
  accepted : Nat
  /-- Mailbox REJECTED. [32, sticks | 15 R449 | 0] -/
  rejected : Nat
  /-- The reasons of the rejections not yet published. [- | 15 R455 | none] -/
  rejects : List Nat
  /-- The answers that await the publication. [- | 15 R442 | none] -/
  answers : List MailAnswer
  /-- The rollovers not yet published: SET, INDEX, count. [- | 15 R455 | none] -/
  rollovers : List (Nat × Nat × Nat)
  /-- The legal events not yet published: block and counter. [- | 15 R455 | none] -/
  legalEvents : List (Nat × Nat)
  /-- The job starts and ends not yet published: 0 start or 1 end, and JOB_ID. [- | 15 R455 | none] -/
  jobEvents : List (Nat × Word)
  /-- The marks begun or ended and not yet published: cause, 1 begun or 0 ended. [- | 15 R455 | none] -/
  markEvents : List (Nat × Nat)
  /-- The previous session of an unpowered interval not yet published. [16 | 15 R455 | none] -/
  unpowered : Option Nat
  /-- The power-fail line is high. [1 | 01 R19 | low] -/
  powerFail : Bool
  /-- The answer last sent on the Laxitia port. [bytes | 15 R450 | none] -/
  laxitia : List Byte
  /-- When its last character ends. [own | 15 R450 | 0] -/
  laxUntil : Nat
deriving DecidableEq, Repr

/-- The control die's side of the Score paths (15 R442, R455). -/
structure ScoreLink where
  /-- The last publication received: a copy of the Score. [- | 01 R29 | none] -/
  publication : Option Score
  /-- When it arrived. [now | 01 R37 | 0] -/
  publishedAt : Nat
  /-- The messages queued for the mailbox, oldest first, at most 16. [16 | 15 R442 | empty] -/
  mailbox : List MailMsg
  /-- The message passed to the Score whose answer has not come. [- | 15 R443 | none] -/
  inFlight : Option MailMsg
deriving DecidableEq, Repr

/-- One Akden port (16 R489). -/
structure ChainPort where
  /-- Consecutive measures that ended without a valid frame. [- | 16 R483 | 0] -/
  missRun : Nat
  /-- A valid frame has come in the measure under way. [1 | 16 R483 | no] -/
  heard : Bool
  /-- Consecutive valid frames while DOWN. [- | 16 R483 | 0] -/
  goodRun : Nat
  /-- UP. [1 | 16 R483 | down] -/
  up : Bool
  /-- Retired. [1 | 16 R487 | no] -/
  retired : Bool
  /-- In hop loopback. [1 | 16 R487 | no] -/
  checking : Bool
  /-- When the hop loopback began. [now | 16 R487 | 0] -/
  checkAt : Nat
  /-- CRC_ERR. [16, sticks | 16 R489 | 0] -/
  crcErr : Nat
  /-- MISSING. [16, sticks | 16 R489 | 0] -/
  missing : Nat
  /-- DELAY c in ticks. [16 | 16 R467 | 0] -/
  delay : Nat
  /-- FRAMES. [32, wraps | 16 R489 | 0] -/
  frames : Nat
  /-- The times of CRC failures inside the last second. [now | 16 R487 | none] -/
  failures : List Nat
deriving DecidableEq, Repr

/-- The ring states (16 R482). -/
inductive RingState where
  | open_ | closed | split | closing
deriving DecidableEq, Repr

/-- A packet to a chain device whose reply has not come (16 R475). -/
structure Outstanding where
  addr : Nat
  opc : Byte
  tag : Byte
  serial : Nat
  barNo : Nat
  /-- Its reply has counted in PREV_ACCEPTED. [1 | 03 R82 | -] -/
  counted : Bool
deriving DecidableEq, Repr

/-- A declared downbeat (16 R468): its time and the newest bar it serves (16 R469). -/
structure Declared where
  /-- [now | 16 R468 | -] -/
  at_ : Nat
  serial : Nat
deriving DecidableEq, Repr

/-- A domain pool of the precentor (16 R477). -/
structure Pool where
  pool : Nat
  outstanding : Nat
deriving DecidableEq, Repr

/-- A bar in the forwarding buffer (16 R471). -/
structure FwdBar where
  /-- The packets still to send. [bytes | 16 R471 | -] -/
  bytes : List Byte
  /-- Its bar number. [16 | 16 R460 | -] -/
  barNo : Nat
  /-- Its serial number. [- | 16 R469 | -] -/
  serial : Nat
  /-- It holds a DB packet. [1 | 16 R468 | -] -/
  db : Bool
deriving DecidableEq, Repr

/-- The Akden chain (16). -/
structure Chain where
  /-- HEAD as sampled at control boot. [1 | 16 R462 | 0, DESIGN CHOICE, log entry 2] -/
  head : Bool
  /-- The chain address of a chain device. [6 | 16 R463 | none] -/
  addr : Option Nat
  /-- A CHAIN_ENUMERATE has completed on this precentor. [1 | 16 R462 | no] -/
  enumerated : Bool
  /-- Enumerated devices besides the precentor. [8 | 16 R489 | 0] -/
  count : Nat
  /-- The measures the running enumeration has still to begin. [6 | 16 R464 | none] -/
  enumLeft : Option Nat
  /-- When its last measure ends. [now | 16 R464 | 0] -/
  enumEndAt : Nat
  /-- EXPECT of the running enumeration. [8 | 16 R466 | 0xFF] -/
  expect_ : Nat
  /-- Ring state. [2 | 16 R482 | open] -/
  ring : RingState
  /-- When the closing began. [now | 16 R482 | 0] -/
  closingAt : Nat
  /-- Frames that came back on port A with HOP equal to the enumerated count since then. [4 | 16 R482 | 0] -/
  returned : Nat
  /-- HOP of the last frame that came back since then. [8 | 16 R482 | none] -/
  backHop : Option Nat
  /-- The precentor transmits on port A. [1 | 16 R483 | no] -/
  sendA : Bool
  /-- MSEQ. [16, wraps | 16 R460 | 0] -/
  mseq : Word16
  /-- The boundary of the measure begun last. [now | 16 R459 | none] -/
  measuredAt : Option Nat
  /-- The count is held for one control clock. [1 | 16 R470 | no] -/
  holdOne : Bool
  /-- OFFSET of the chain TBC. [64 | 16 R470 | 0] -/
  offset : Int
  /-- L. [16 | 16 R467 | 0] -/
  latency : Nat
  /-- Ports A and B. [2 | 16 R457 | -] -/
  ports : Tab ChainPort 2
  /-- TURNED. [1 | 16 R484 | no] -/
  turned : Bool
  /-- LINK_TIMEOUT. [1 | 16 R486 | no] -/
  linkTimeout : Bool
  /-- CHAIN_BREAK. [1 | 16 R485 | no] -/
  broken : Bool
  /-- When the last valid downstream frame arrived. [now | 16 R486 | none] -/
  lastFrame : Option Nat
  /-- Consecutive frames whose HOP is not the address less one. [3 | 16 R465 | 0] -/
  hopWrong : Nat
  /-- HEAD_CONFLICT has been logged. [1 | 16 R462 | no] -/
  conflict : Bool
  /-- REACH heard on port B and on port A. [2 × 8 | 16 R485 | 0, none] -/
  reachB : Nat
  reachA : Option Nat
  /-- When the port B side was last heard. [now | 16 R485 | 0] -/
  reachBAt : Nat
  /-- When the port A side was last heard. [now | 16 R485 | 0] -/
  reachAAt : Nat
  /-- BAR_LOST. [16, sticks | 16 R473 | 0] -/
  barLost : Nat
  /-- UP_DROPPED. [16, sticks | 16 R474 | 0] -/
  upDropped : Nat
  /-- The forwarding buffer, oldest bar first. [16 KiB | 16 R471 | empty] -/
  forward : List FwdBar
  /-- The segment number of the next downstream frame. [8, wraps | 16 R460 | 0] -/
  sseq : Byte
  /-- The segment number expected downstream; none until the first. [8 | 16 R473 | none] -/
  downSeq : Option Byte
  /-- The stream bytes of the bar being received. [bytes | 16 R472 | empty] -/
  stream : List Byte
  /-- The stream is being discarded up to the next BAR marker. [1 | 16 R473 | no] -/
  discarding : Bool
  /-- The number of the last bar received. [16 | 16 R473 | none] -/
  lastBar : Option Nat
  /-- The device's own replies of the slot under way, before they join the upstream stream.
  [- | 16 R474 | none] -/
  replies : List Reply
  /-- Own replies that wait behind a reply whose first byte came earlier. [bytes | 16 R474 | empty] -/
  ownHeld : List Byte
  /-- The upstream byte stream that waits; of a reply that is still coming in, the bytes received. [16 KiB | 16 R474 | empty] -/
  upstream : List Byte
  /-- The segment number of the next upstream frame, and the one expected from downstream. [2 × 8 | 16 R474 | 0, none] -/
  upSseq : Byte
  upSeq : Option Byte
  /-- The bytes received of a reply that is not whole yet, forwarded or not. [bytes | 16 R474, R475 | empty] -/
  partReply : List Byte
  /-- HOLD was received: no upstream segment. [1 | 16 R474 | no] -/
  holdRx : Bool
  /-- Packets to chain devices whose replies are outstanding, at most 512. [512 | 16 R475 | none] -/
  outstanding : List Outstanding
  /-- Downbeats declared and not yet fallen, soonest first. [- | 16 R468 | none] -/
  downbeats : List Declared
  /-- The slot under way is the commit slot of a downbeat. [1 | 10 R283 | no] -/
  beat : Bool
  /-- The devices declared unreachable. [6 bits each | 16 R485 | none] -/
  unreachable : List Nat
  /-- The domain pools 1 to 15 of the precentor. [15 | 16 R477 | 8 tokens, none outstanding] -/
  pools : Tab Pool 15
  /-- Domain tokens in hand. [8 | 16 R477 | 0] -/
  hand : Nat
  /-- The domain the tokens in hand belong to; 0 outside every domain. [4 | 16 R480 | 0] -/
  handDomain : Nat
  /-- Tokens to return to the domains 1 to 15. [15 × 8 | 16 R478 | 0] -/
  returns : Tab Nat 15
  /-- The breath entries merged from downstream. [4 entries | 16 R478 | none] -/
  merged : List BreathEntry
  /-- Tokens granted per device, the precentor as address 0: address, domain, tokens. [- | 16 R480 | none] -/
  holders : List (Nat × Nat × Nat)
  /-- When each device was last heard. [now | 16 R480 | none] -/
  heard : List (Nat × Nat)
  /-- The downstream frame last sent, and the upstream frame last sent. [- | 16 R461 | none] -/
  sentDown : Option DownFrame
  sentUp : Option UpFrame
deriving DecidableEq, Repr

/-- The states of a patch load (05 R166). -/
inductive PatchState where
  | none | loading | active | rejected | abandoned
deriving DecidableEq, Repr

/-- The patch load (05 R166). -/
structure Patch where
  /-- State. [8 | 05 R168 | NONE] -/
  st : PatchState
  /-- LAST_STATUS. [8 | 05 R168 | 0] -/
  last : Byte
  /-- BEGIN bytes 4 to 15. [12 bytes | 05 R165 | none] -/
  begin_ : List Byte
  /-- The image bytes received. [64 KiB | 05 R166 | none] -/
  image : List Byte
  /-- LENGTH. [32 | 05 R168 | 0] -/
  length : Nat
  /-- VERSION. [32 | 05 R168 | 0] -/
  version : Word
  /-- PATCH.VERSION: the running version. [32 | 04 R116 | 0] -/
  running : Word
  /-- The image CRC-32 taken at activation. [32 | 01 R35 | 0] -/
  crc : Word
deriving DecidableEq, Repr

/-- The steps of the power-down sequence (17 R498). -/
inductive PdStep where
  | idle | voicesAndCommit | save | idleFlash | done
deriving DecidableEq, Repr

/-- The power-down sequence (17). -/
structure PowerDown where
  /-- The step under way. [- | 17 R498 | idle] -/
  step : PdStep
  /-- What started it: 0 VBAT, 1 PARK. [8 | 17 R497 | 0] -/
  cause : Nat
  /-- t_pd. [now | 17 R497 | 0] -/
  at_ : Nat
  /-- When the step under way began, from step 4 on. [now | 17 R498 | 0] -/
  stepAt : Nat
  /-- The record scan had completed when the sequence began. [1 | 02 R67 | no] -/
  scanned : Bool
  /-- The step 3 wait is over. [1 | 17 R498 | no] -/
  committed : Bool
  /-- VHOLD at the start of step 4, in 10 mV. [16 | 17 R500 | 0] -/
  vhold : Nat
  /-- A fresh marker of a completed PARK stands and no voice has been driven since. [1 | 17 R500 | no] -/
  fresh : Bool
  /-- VHOLD is below the flash floor. [1 | 17 R491 | no] -/
  floor : Bool
  /-- VHOLD is ready. [1 | 17 R496 | no] -/
  vholdReady : Bool
  /-- VHOLD_FAULT may be logged. [1 | 17 R496 | yes] -/
  vholdArmed : Bool
  /-- VCP is valid. [1 | 07 R204 | valid] -/
  vcpOk : Bool
deriving DecidableEq, Repr

/-- An edge that has come on the timestamp link (09 R264): the input, its polarity, and its stamp in the Score's TBC. -/
structure LinkEdge where
  input : Fin 8
  rising : Bool
  stamp : Int
  /-- The slot in which it came. [now | 09 R264 | -] -/
  at_ : Nat
deriving DecidableEq, Repr

/-- A fault scored in the slot under way (07 R203): the voice, whether it tripped, its code and its event's number. -/
structure SlotFault where
  voice : VoiceId
  trip : Bool
  code : Nat
  seq : Word
deriving DecidableEq, Repr

/-- The device. -/
structure Dev where
  /-- The level at the HEAD pin. [1 | 19 R541 | 0, DESIGN CHOICE, log entry 2] -/
  headPin : Bool
  /-- Time base. [- | 09 | -] -/
  time : TimeBase
  /-- Mode. [- | 08 | -] -/
  ctl : Control
  /-- Keep-alive. [- | 01 R25 | -] -/
  ka : KeepAlive
  /-- Host port. [- | 03 | -] -/
  port : HostPort
  /-- Event log. [- | 05 R141 | -] -/
  log : EventLog
  /-- Parameter words. [- | 04 | -] -/
  par : ParamSpace
  /-- Voices. [48 | 06 | -] -/
  voices : Tab Voice 48
  /-- Banks. [4 | 06 R170 | -] -/
  banks : Tab Bank 4
  /-- Staggered turn-offs under way. [- | 05 R156 | none] -/
  staggers : List Stagger
  /-- LH inputs. [8 | 02 R53 | -] -/
  lh : Tab LhInput 8
  /-- Cues. [- | 10 R279 | -] -/
  cues : CueQueue
  /-- Tally inputs on the control die. [8 | 09 | -] -/
  tally : Tab TallyInput 8
  /-- Odometer. [- | 10 R284 | -] -/
  odo : Odometer
  /-- Sound checks. [- | 07 | -] -/
  sc : SoundCheck
  /-- Converter. [- | 11 | -] -/
  conv : Converter
  /-- Wave port. [- | 12 | -] -/
  wave : Wave
  /-- Thermal management. [- | 13 | -] -/
  therm : Thermal
  /-- Data flash. [- | 14 | -] -/
  nv : Flash
  /-- Score die. [- | 15 | -] -/
  score : Score
  /-- Publication and mailbox. [- | 15 R442 | -] -/
  link : ScoreLink
  /-- Chain. [- | 16 | -] -/
  chain : Chain
  /-- Patch load. [- | 05 R164 | -] -/
  patch : Patch
  /-- Power-down sequence. [- | 17 R497 | -] -/
  pd : PowerDown
  /-- The driven voices that an OFF of the slot under way turns off at its end. [48 | 10 R292 | 0] -/
  slotOffs : Mask
  /-- The faults scored in the slot under way. [- | 07 R203 | none] -/
  slotFaults : List SlotFault
  /-- The edges that the timestamp link has brought in the slot under way, in their order. [- | 08 R238, 09 R264 | none] -/
  edges : List LinkEdge
  /-- The clearable counters as the slot under way found them, in the order of `Dev.counts`. [16 each | 21 R557 | zeros] -/
  found : List Nat
deriving DecidableEq, Repr

/-- The state of the block. -/
structure State where
  /-- The commands that wait, first in, first out. [- | the model's own | empty] -/
  pending : List Instr
  /-- The device. [- | 01 R16 | -] -/
  dev : Dev
  /-- The device as it stood at the last CSN falling: the snapshot. [- | 01 R29, 03 R79 | the device at reset] -/
  snap : Dev
  /-- The device as it stood when the slot under way began: what a bar that opens in the slot shows.
  [- | 01 R30 | the device at reset] -/
  slot : Dev
deriving DecidableEq, Repr

/-! The reset values. -/

def HostPort.reset : HostPort :=
  { isOpen := false, barNo := 0, prevValid := false, openerBad := false, lengthBad := false, frameLost := false,
    early := 0, prevAccepted := 0, replies := [], replyLost := false, lostNow := false, commit := none, quietUntil := 0,
    irqn := false, newsNow := false, sdo := none, watchdog := none, pendingDb := [], serial := 0, vioValid := false,
    vioLostAt := none, reopenAt := none }

def TimeBase.reset : TimeBase :=
  { now := 0, tbc := 0, phase := .first, until_ := 0, k := 0, lastWord := 0, lostAt := 0, word := 0, wordAt := 0,
    drift := 0, trimAt := 0, measureAt := 0, fallbackOk := true,
    trimmed := false, refAbsent := false }

def Control.reset : Control :=
  { mode := .starting, por := false, haltCause := 0, haltDetail := 0, startCause := 0, fromPor := true, started := false, bootAt := 0,
    liveAt := none, conducted := false, parkFromAcappella := false, parkedByPower := false, unsaved := false,
    lostSessions := 0, eccCorrected := 0, scoreSilent := true }

def KeepAlive.reset : KeepAlive :=
  { badEchoes := 0, recoveries := [], held := false, releasedAt := none, lastFrame := none, firstFrame := false }

def Bank.reset : Bank :=
  { present := true, crank := true, ovHold := false, ovOff := false, cut := false, conducting := false,
    pinDue := none, overLogged := false, sums := [], sumAt := 0 }

def CheckQueue.empty : CheckQueue :=
  { trip := none, report := [], host := [], stripes := 0, meas := ⟨0, 0⟩, before := 0, repeated := false,
    offAsked := false }

def CheckRecord.empty : CheckRecord :=
  { trigger := 0, outcome := 0, failed := 0, counts := [0, 0, 0, 0], duration := 0, tbc := 0 }

def VoiceThermal.reset : VoiceThermal :=
  { tj := 0, tl := 0, ma := 10, driven := 0, anchoredAt := 0, anchor := .none, restSince := some 0, quiet := none, blipWin := (0, 0, 0), power := (0, 0),
    energy := 0, lastPower := 0, convertedAt := 0, history := [], compared := [], warn := false, req := none,
    stopped := false, stopHold := false }

def Lead.reset : Lead :=
  { opens := [], closes := [], lastOpen := 0, lastClose := 0, noMotion := false, search := none }

def Lifetime.reset : Lifetime :=
  { cycles := 0, seconds := 0, sessionCycles := 0, sessionTicks := 0, cyclesMax := false, secondsMax := false }

def Voice.reset : Voice :=
  { st := .off, half := false, gate := false, cmd := false, fault := 0, retry := 0, retryAt := none,
    retryReady := false, drivenSince := none, idleSince := 0, offAt := 0, cold := false, profile := 0, plan := [], holdFrom := 0, drivenFrom := none,
    onAt := 0, edgeAt := 0, desatAt := none, rampUntil := 0, driveMode := 0, limit := 0, ramp := .none, rampUse := .turnOn, token := false, domainToken := none,
    spanEnd := none, wait := none, duty := 0, dutyRamp := none, offEdge := none, firstPulse := false,
    target := 0, clampedChops := 0, clampedNow := false, clamp := none, sampled := false, muteKept := false, barred := false, stripes := 0, pullupRetired := false,
    windows := 0, scored := 0, checks := .empty, record := .empty, lateCount := 0, lateAt := none,
    transitions := [], withheld := none, fallbackLh := false, therm := .reset, lead := .reset, life := .reset }

def LhInput.reset : LhInput := { level := false, since := 0, chatter := false, raw := false, rawAt := 0, restless := none }

def CueQueue.reset : CueQueue :=
  { queue := [], nextId := 0, nullPulse := 0, cueLate := 0, rampAbort := 0, behind := 0, mustFired := 0,
    dropped := 0 }

def TallyInput.reset : TallyInput :=
  { level := false, stuck := false, levelSince := none, last := none, edgeAt := none, period := none, returned := none, fifo := [], taken := 0,
    overflow := 0, overflowLogged := false, glitch := 0, orphan := 0, start := none, width := 0 }

def Odometer.reset : Odometer :=
  { base := 0, floor := 0, st := .unavailable, source := .primary, last := none, period := none, pulsed := false, regained := false,
    groundNone := false, switching := false, degraded := false, implausible := none,
    plausible := none, evalAt := 0, lead := none, leadAt := 0, before := 0 }

def SoundCheck.reset : SoundCheck :=
  { running := none, delayed := 0, discarded := 0, written := 0, unitsRetired := 0, nextKey := 0, firsts := [],
    held := [], zoneChecked := 0 }

def Engine.reset : Engine :=
  { scanNo := 0, todo := [], nextScan := 0, paused := false, buffer := [], write := 0, read := 0,
    overrun := 0, drops := 0, trigOverrun := 0, log := [], blocks := [], skewTrim := 0 }

def Slice.reset : Slice :=
  { st := .inService, fails := 0, offsetTrim := 0, gainTrim := 0, passedAt := 0, check := none,
    decidedAt := none }

def Aux.reset : Aux :=
  { test := false, plain := 0, isOpen := false, ntcFault := false, passRun := 0, ntcGood := 0, lastGood := none }

def Converter.reset : Converter :=
  { engines := .fill 4 .reset, slices := .fill 9 .reset, aux := .fill 8 .reset, newest := .fill 120 none,
    calRuns := true, calStep := 0, calRepeat := false, standIn := none, replaced := none, aged := false,
    cycles := 0, calEnds := none, urgent := [], urgentFree := 0 }

def WaveSlot.reset : WaveSlot :=
  { buffer := [], frozen := false, armed := none, armedAt := 0, counting := none, lastWord := 0, written := 0, csBits := [],
    csGood := false, cs := List.replicate 24 0, duty := none, inFrame := none, took := none }

def Wave.reset : Wave :=
  { st := .disabled, stable := 0, frame := 0, blocks := 0, missing := 0, assumed := false, blockAt := none, marked := false, began := false,
    starts := [], origin := 0, count := 0, since := 0, muted := 0,
    fallbackTb := false, losses := 0, frameErr := 0, parityErr := 0, vSkipped := 0, csErr := 0, realign := 0,
    slots := .fill 16 .reset }

def Zone.reset : Zone :=
  { reading := 0, temp := 0, st := .measured, disagree := 0, agree := 0, checkPassed := false, checkAfter := 0,
    checkEnds := none, alone := false, compared := [], warn := false, req := none, stopped := false,
    stopHold := false, enforcing := false, ceiling := 8, stepAt := none }

def Thermal.reset : Thermal := { zones := .fill 8 .reset, coldBlock := false, blip := none, blips := [], readAt := 0, updatedAt := 0 }

def RawOp.none : RawOp :=
  { kind := 0, result := 0, addr := 0, total := 0, done := 0, failAddr := 0xFFFFFFFF, data := [], sectors := [],
    startedAt := 0, base := 0, busy := false }

def Sector.reset : Sector := { st := .erased, seq := 0, erases := 0, recs := [] }

def Flash.reset : Flash :=
  { raw := [], programs := [], torn := [], burns := [], undefinedSectors := 0, protect := 3, op := .none, rawErases := .fill 16 0,
    rawRetired := 0, recRetired := 0, sectors := (Tab.fill 16 Sector.reset).set 0 { Sector.reset with st := .open_ },
    nextRseq := 0, appends := [], servedAt := 0, gc := none, scanned := false, checks := [], markDue := false }

def Totals.zero : Totals := { vol := .fill 4 ⟨0, 0⟩, area := .fill 4 ⟨0, 0⟩, dist := .fill 2 ⟨0, 0⟩ }

def LineGround.reset : LineGround := { secondary := false, implausible := none, plausible := none, fresh := true }

def Score.reset : Score :=
  { variant := .m, powered := false, refMode := false, reference := none, mseal := false, msealOut := none, sealSt := .unsealed, instrument := List.replicate 16 0,
    tb := .noRef, tbc := 0, own := 0, locked := false, failed := false, resetAt := 0, attemptAt := 0, relockedAt := none, scanned := false,
    levels := .fill 8 false, rising := .fill 8 0, falling := .fill 8 0, riseWrap := .fill 8 false,
    fallWrap := .fill 8 false, raw := .fill 8 ⟨0, 0⟩, life := .zero, job := .zero, volRes := .fill 4 0,
    distRes := .fill 2 0, areaRes := .fill 4 0, pending := .fill 6 0, unmapped := .fill 2 0, unsetLines := 0, cal := none,
    sec := none, everSet := 0, logCal := none, logSec := none, setLog := .fill 2 (none, none), setNewest := 0, eventCtr := 0, jobOpen := false, jobId := 0,
    session := 0, diag := 0, marks := .fill 8 none, lines := .fill 4 .reset, ground := .fill 2 (none, none),
    samples := .fill 2 0, energised := .fill 2 (.fill 32 0), taps := 0, sampledAt := 0, judgedAt := 0, audit := [], nextAseq := 0,
    auditDropped := 0, heldAudit := [], ring := .fill 64 none, ringNext := 0, commitAt := none, changedAt := none, commitDue := false, cold := false,
    temp := 0, accepted := 0, rejected := 0, rejects := [], answers := [], rollovers := [], legalEvents := [],
    jobEvents := [], markEvents := [], unpowered := none, powerFail := false, laxitia := [], laxUntil := 0 }

def ScoreLink.reset : ScoreLink := { publication := none, publishedAt := 0, mailbox := [], inFlight := none }

def ChainPort.reset : ChainPort :=
  { missRun := 0, heard := false, goodRun := 0, up := false, retired := false, checking := false, checkAt := 0, crcErr := 0, missing := 0,
    delay := 0, frames := 0, failures := [] }

def Chain.reset : Chain :=
  { head := false, addr := none, enumerated := false, count := 0, enumLeft := none, enumEndAt := 0, expect_ := 255,
    ring := .open_, closingAt := 0, returned := 0, backHop := none, sendA := false, mseq := 0, measuredAt := none, holdOne := false, offset := 0, latency := 0, ports := .fill 2 .reset, turned := false,
    linkTimeout := false, broken := false, lastFrame := none, hopWrong := 0, conflict := false, reachB := 0,
    reachA := none, reachBAt := 0, reachAAt := 0, barLost := 0, upDropped := 0, forward := [], sseq := 0, downSeq := none,
    stream := [], discarding := false, lastBar := none, replies := [], ownHeld := [], upstream := [], upSseq := 0, upSeq := none, partReply := [],
    holdRx := false, outstanding := [], downbeats := [], beat := false, unreachable := [], pools := .fill 15 ⟨8, 0⟩, hand := 0,
    handDomain := 0, returns := .fill 15 0, merged := [], holders := [], heard := [], sentDown := none, sentUp := none }

def Patch.reset : Patch :=
  { st := .none, last := 0, begin_ := [], image := [], length := 0, version := 0, running := 0, crc := 0 }

def PowerDown.reset : PowerDown :=
  { step := .idle, cause := 0, at_ := 0, stepAt := 0, scanned := false, committed := false, vhold := 0, fresh := false, floor := false,
    vholdReady := false, vholdArmed := true, vcpOk := true }

/-- The device at t0, the release of power-on reset (02 R38): STARTING, every voice off, the port closed. -/
def Dev.reset : Dev :=
  { headPin := false, time := .reset, ctl := .reset, ka := .reset, port := .reset,
    log := { events := [], nextSeq := 0, lost := 0 }, par := { shadow := [], live := [] },
    voices := .fill 48 .reset, banks := .fill 4 .reset, staggers := [], lh := .fill 8 .reset, cues := .reset,
    tally := .fill 8 .reset, odo := .reset, sc := .reset, conv := .reset, wave := .reset, therm := .reset,
    nv := .reset, score := .reset, link := .reset, chain := .reset, patch := .reset, pd := .reset, slotOffs := 0, slotFaults := [], edges := [], found := [] }

/-- The block right after reset: the device at t0 and an empty queue. -/
def State.reset : State := { pending := [], dev := .reset, snap := .reset, slot := .reset }

end Sys2Proof.Machine
end

