-- ==== Sys2Proof/Machine/Flags.lean ====
section
/-! DEFINITION. The status flags of the snapshot header: HSTAT, ATTN and PREV (03 R82), and which of their changes are
news (03 R95). -/

namespace Sys2Proof.Machine
open Sys2Proof

/-- The mode's code (21 R548). -/
def Mode.code : Mode → Nat
  | .starting => 0
  | .acappella => 1
  | .conducted => 2
  | .fallback => 3
  | .parked => 4
  | .halted => 5

/-- The control clock runs from the fallback oscillator (09 R255). -/
def TimeBase.onFallback (t : TimeBase) : Bool := t.phase != .score

/-- A throttle request is outstanding (13 R366). -/
def outstanding (r : Option ThrottleReq) : Bool :=
  match r with
  | some q => !q.acked
  | none => false

/-- Some voice or zone has a throttle request outstanding. -/
def Dev.throttleReq (d : Dev) : Bool :=
  d.voices.any (fun v => outstanding v.therm.req) || d.therm.zones.any (fun z => outstanding z.req)

/-- The watchdog runs. -/
def Dev.wdRun (d : Dev) : Bool := d.port.watchdog.isSome

/-- The five flags of HSTAT, bit 0 first (03 R82). -/
def Dev.hflags (d : Dev) : List Bool :=
  [d.wdRun, d.throttleReq, d.chain.broken, d.ctl.scoreSilent, d.time.onFallback]

/-- The HSTAT byte (03 R82). -/
def Dev.hstat (d : Dev) : Nat := packBits d.hflags + 32 * d.ctl.mode.code

/-- The voice counts for VOICE_FAULT (03 R82). -/
def Voice.showsFault (v : Voice) : Bool :=
  v.half || match v.st with
  | .tripped | .retryWait | .checking | .latched | .retired => true
  | _ => false

/-- The wave port is muted (12 R339): enabled and not running. -/
def Wave.muted? (w : Wave) : Bool := w.st == .acquiring || w.st == .lost

/-- The converter counts whose change ADC_ATTN tells. -/
def Dev.adcCounts (d : Dev) : List Nat :=
  d.conv.engines.list.flatMap fun e => [e.drops, e.overrun, e.trigOverrun]

/-- The record scan is in progress (02 R44): from a cappella live until it completes; in a boot that ends HALTED it never
starts, and REC_SCAN shows 0 there (DESIGN CHOICE, log entry 138). -/
def Dev.recScanning (d : Dev) : Bool := d.ctl.liveAt.isSome && !d.nv.scanned

/-- The Score scan is in progress, by the newest publication (02 R45). -/
def Dev.scoreScanFlag (d : Dev) : Bool :=
  !d.ctl.scoreSilent && match d.link.publication with
  | some p => !p.scanned
  | none => false

/-- The ATTN bits, bit 0 first; `prev` is the previous snapshot (03 R82). -/
def Dev.attnBits (d prev : Dev) : List Bool :=
  [false,
   !d.port.pendingDb.isEmpty,
   d.patch.st == .active,
   d.odo.degraded,
   d.lh.any (·.chatter),
   d.ctl.unsaved,
   d.scoreScanFlag,
   d.recScanning,
   d.nv.op.busy,
   d.wave.muted?,
   d.adcCounts != prev.adcCounts,
   d.cues.nullPulse != prev.cues.nullPulse || d.cues.cueLate != prev.cues.cueLate,
   d.voices.any (·.therm.warn) || d.therm.zones.any (·.warn),
   d.voices.any Voice.showsFault,
   d.port.replyLost,
   d.log.events.any fun e => !e.acked]

/-- The ATTN field (03 R82). -/
def Dev.attn (d prev : Dev) : Nat := packBits (d.attnBits prev)

/-- The PREV byte (03 R82). -/
def Dev.prev (d : Dev) : Nat :=
  packBits [d.port.frameLost, d.port.lengthBad, d.port.openerBad, d.port.prevValid] * 16 + min d.port.early 15

/-- The flags in which a rise is news: HSTAT's and ATTN's, with REC_SCAN and SCORE_SCAN inverted, since their falls are
news instead (03 R95). -/
def Dev.newsBits (d prev : Dev) : List Bool :=
  d.hflags ++ (d.attnBits prev).mapIdx fun i b => if i = 6 || i = 7 then !b else b

/-- A news flag has risen between two states. -/
def risen (a b : List Bool) : Bool := (a.zip b).any fun p => !p.1 && p.2

end Sys2Proof.Machine
end

