-- ==== Sys2Proof/Machine/Operands.lean ====
section
/-! DEFINITION. The operand forms of the opcodes (05 R130 checks 3 to 7): which values are opcodes, the kind of each,
the LEN its layout admits, its reserved bits, whether it may carry DB, and the modes that admit it. -/

namespace Sys2Proof.Machine
open Sys2Proof

/-- The kinds of opcode (05 R129). -/
inductive OpKind where
  | read | bulk | commit
deriving DecidableEq, Repr

/-- The rows of the opcode index by mode column (05 R131). -/
inductive Admit where
  | all | acCoFbPk | coFbPk | acCoFb | coFb | coPk | acPk | co
deriving DecidableEq, Repr

/-- A row of the opcode index (05 R133): its kind, whether it may carry DB, and the modes that admit it. -/
structure OpRow where
  kind : OpKind
  db : Bool
  modes : Admit
deriving DecidableEq, Repr

/-- The modes of a column (05 R131): STARTING admits what A CAPPELLA admits. -/
def Admit.has (a : Admit) (m : Mode) : Bool :=
  let ac := m = .acappella || m = .starting
  let co := m = .conducted
  let fb := m = .fallback
  let pk := m = .parked
  match a with
  | .all => true
  | .acCoFbPk => ac || co || fb || pk
  | .coFbPk => co || fb || pk
  | .acCoFb => ac || co || fb
  | .coFb => co || fb
  | .coPk => co || pk
  | .acPk => ac || pk
  | .co => co

/-- The opcode index (05 R133); the forms of ODOMETER_READ and CUE_QUERY are told apart by LEN (05 R162, 09 R269). -/
def opRow (opc : Byte) (len : Nat) : Option OpRow :=
  match opc.toNat with
  | 0x00 => some ⟨.read, true, .all⟩
  | 0x01 => some ⟨.read, false, .all⟩
  | 0x02 => some ⟨.read, false, .all⟩
  | 0x03 => some ⟨.read, false, .all⟩
  | 0x04 => some ⟨.commit, false, .all⟩
  | 0x06 => some ⟨.commit, false, .all⟩
  | 0x10 => some ⟨.commit, false, .acCoFbPk⟩
  | 0x11 => some ⟨.read, false, .all⟩
  | 0x12 => some ⟨.commit, false, .acCoFbPk⟩
  | 0x13 => some ⟨.commit, true, .acCoFb⟩
  | 0x14 => some ⟨.commit, true, .coFbPk⟩
  | 0x15 => some ⟨.commit, true, .acCoFbPk⟩
  | 0x20 => some ⟨.commit, true, .co⟩
  | 0x21 => some ⟨.commit, true, .co⟩
  | 0x22 => some ⟨.commit, false, .coFbPk⟩
  | 0x23 => some ⟨.commit, false, .acCoFbPk⟩
  | 0x24 => some ⟨.commit, true, .all⟩
  | 0x25 => some ⟨.commit, true, .acCoFbPk⟩
  | 0x26 => some ⟨.commit, true, .coFbPk⟩
  | 0x30 => some ⟨.commit, true, .co⟩
  | 0x31 => some ⟨.commit, true, .coFbPk⟩
  | 0x32 => some ⟨.read, false, .all⟩
  | 0x34 => some (if len = 8 then ⟨.commit, false, .co⟩ else if len = 4 then ⟨.bulk, false, .all⟩ else ⟨.read, false, .all⟩)
  | 0x35 => some ⟨.read, false, .all⟩
  | 0x40 => some ⟨.bulk, false, .all⟩
  | 0x41 => some ⟨.commit, false, .coFb⟩
  | 0x42 => some ⟨.commit, true, .coFb⟩
  | 0x43 => some ⟨.read, false, .all⟩
  | 0x50 => some ⟨.commit, false, .coFb⟩
  | 0x51 => some ⟨.read, false, .all⟩
  | 0x60 => some ⟨.read, false, .all⟩
  | 0x61 => some ⟨.commit, false, .coFb⟩
  | 0x62 => some ⟨.commit, false, .co⟩
  | 0x70 => some ⟨.bulk, false, .all⟩
  | 0x71 => some ⟨.commit, false, .acCoFb⟩
  | 0x72 => some ⟨.commit, false, .acCoFb⟩
  | 0x73 => some ⟨.commit, false, .acCoFbPk⟩
  | 0x74 => some ⟨.commit, false, .acCoFb⟩
  | 0x75 => some ⟨.bulk, false, .all⟩
  | 0x76 => some ⟨.commit, false, .acCoFb⟩
  | 0x77 => some ⟨.read, false, .all⟩
  | 0x78 => some ⟨.commit, false, .acCoFbPk⟩
  | 0x80 => some ⟨.read, false, .all⟩
  | 0x81 => some ⟨.commit, false, .acCoFbPk⟩
  | 0x82 => some ⟨.bulk, false, .all⟩
  | 0x83 => some ⟨.read, false, .all⟩
  | 0x84 => some ⟨.commit, true, .acCoFbPk⟩
  | 0x85 => some ⟨.commit, false, .acCoFbPk⟩
  | 0x90 => some ⟨.commit, false, .acCoFbPk⟩
  | 0x91 => some ⟨.read, false, .all⟩
  | 0x92 => some ⟨.commit, false, .acCoFbPk⟩
  | 0x93 => some ⟨.commit, true, .coFb⟩
  | 0xA0 => some ⟨.commit, false, .coPk⟩
  | 0xA1 => some ⟨.read, false, .all⟩
  | 0xA2 => some ⟨.read, false, .all⟩
  | 0xF0 => some ⟨.commit, false, .acPk⟩
  | 0xF1 => some ⟨.read, false, .all⟩
  | _ => none

/-- The opcodes that a VX48-S treats as unassigned (05 R133, 00 R9). -/
def legalOnly (opc : Byte) : Bool := opc = 0x81 || opc = 0x82 || opc = 0x84 || opc = 0x85

/-- LEN lies from `lo` to `hi` in steps of `step`. -/
def lenIn (n lo hi step : Nat) : Bool := lo ≤ n && n ≤ hi && (n - lo) % step = 0

/-- LEN fits the opcode's layout (05 R130 check 4, the layouts of 05, 07 and 09 to 16). A CUE_CANCEL or PATCH_LOAD whose
KIND or PHASE names no layout fits with its head alone. -/
def lenOk (opc : Byte) (p : List Byte) : Bool :=
  let n := p.length
  match opc.toNat with
  | 0x02 => n = 1
  | 0x03 => n = 5
  | 0x04 => n = 4
  | 0x06 => n = 2
  | 0x10 => lenIn n 6 8178 6
  | 0x11 => if (byteAt p 0).testBit 1 then n = 6 else lenIn n 4 2720 2
  | 0x13 => n = 4
  | 0x14 => lenIn n 6 8178 6
  | 0x20 => n = 8
  | 0x21 => lenIn n 4 192 4
  | 0x22 => n = 6
  | 0x23 => n = 6
  | 0x24 => n = 1
  | 0x30 => lenIn n 16 4096 16
  | 0x31 => 2 ≤ n && (match byteAt p 0 with
      | 0 => lenIn n 6 4098 4
      | 1 => n = 8
      | 2 => n = 3
      | 3 => n = 2
      | _ => true)
  | 0x32 => n = 6 || n = 2
  | 0x34 => n = 0 || n = 8 || n = 4
  | 0x35 => n = 6
  | 0x40 => n = 4
  | 0x41 => n = 1
  | 0x42 => n = 4
  | 0x43 => n = 1
  | 0x50 => n = 8
  | 0x51 => n = 6
  | 0x60 => n = 1
  | 0x61 => n = 7
  | 0x62 => n = 6
  | 0x70 => n = 6
  | 0x71 => lenIn n 16 8176 8
  | 0x72 => n = 2
  | 0x73 => n = 1
  | 0x74 => lenIn n 3 66 1
  | 0x75 => n = 5
  | 0x76 => n = 2
  | 0x78 => n = 4
  | 0x80 => n = 1
  | 0x81 => n = 48
  | 0x82 => n = 8
  | 0x84 => n = 8
  | 0x85 => 2 ≤ n && n = 2 + 12 * byteAt p 0
  | 0x90 => n = 2
  | 0x91 => n = 1
  | 0x92 => n = 1
  | 0x93 => lenIn n 2 30 2
  | 0xA0 => n = 8
  | 0xA1 => n = 6
  | 0xF0 => 4 ≤ n && (match byteAt p 0 with
      | 0 => n = 16
      | 1 => lenIn n 9 8179 1
      | 2 => n = 68
      | 3 => n = 4
      | _ => true)
  | _ => n = 0

/-- A cue entry with a reserved bit or field set (10 R276, R278 rule 1). -/
def cueReserved (b : List Byte) : Bool :=
  let ctrl := byteAt b 0
  ctrl / 4 % 8 != 0 || (byteAt b 1).testBit 6 || field b 5 3 != 0 || (ctrl % 4 ≤ 1 && field b 2 2 != 0) ||
  (ctrl % 4 = 3 && 16 ≤ field b 2 2) || (ctrl / 64 = 2 && field b 8 8 != 0)

/-- A packet of the opcode sets a reserved bit (05 R130 check 5); the entries of CUE_ADD have `cueReserved`. The words of a parameter write are checked with their values (04 R111), and the blocks of the Score
by the Score (15 R445, R446). -/
def reservedFailure (opc : Byte) (p : List Byte) : Bool :=
  let z (o n : Nat) : Bool := field p o n != 0
  let hi (o k : Nat) : Bool := byteAt p o / 2 ^ k != 0
  match opc.toNat with
    | 0x11 => hi 0 2 || z 1 1
    | 0x21 => (chunks 4 48 p).any fun e => byteAt e 1 != 0
    | 0x31 => z 1 1
    | 0x32 => p.length = 2 && (hi 0 1 || z 1 1)
    | 0x34 => p.length = 4 && (hi 2 1 || z 3 1)
    | 0x40 => hi 1 3
    | 0x41 => hi 0 4
    | 0x50 => z 6 2
    | 0x51 => z 1 1
    | 0x71 => hi 4 1 || z 5 3
    | 0x78 => z 1 1
    | 0x82 => z 5 3
    | 0x84 => hi 1 5 || z 2 2
    | 0x85 => z 1 1
    | 0x90 => z 1 1
    | 0x91 => hi 0 1
    | 0xA0 => hi 6 6 || z 7 1
    | 0xF0 => z 1 3 || (byteAt p 0 = 0 && z 15 1)
    | _ => false

/-- The opcodes that the record scan holds up (02 R44). -/
def needsRecords (opc : Byte) : Bool := opc = 0x74 || opc = 0x75 || opc = 0x76 || opc = 0xA2

/-- The opcodes that the Score scan holds up (02 R45). -/
def needsScore (opc : Byte) : Bool := opc = 0x80 || legalOnly opc

end Sys2Proof.Machine
end

