-- ==== Sys2Proof/Machine/Params.lean ====
section
/-! DEFINITION. The parameter space (04): every word with its class, its power-up value and the own range of every
field; the dependent ranges of R112; the image CRC-32 of R127. -/

namespace Sys2Proof.Machine
open Sys2Proof

/-- The classes of words (04 R102). -/
inductive WordClass where
  | image | live | ro
deriving DecidableEq, Repr

/-- The own range of a field (04 R111). -/
inductive Range where
  /-- Any value. -/
  | any
  /-- Reserved: reads 0 and is written 0 (00 R7). -/
  | res
  /-- From the first to the second value. -/
  | span (lo hi : Nat)
  /-- Signed, from the first to the second value. -/
  | signed (lo hi : Int)
deriving DecidableEq, Repr

/-- A field of a word: its lowest bit, its width and its own range. -/
structure Field where
  lo : Nat
  width : Nat
  range : Range
deriving DecidableEq, Repr

/-- A value lies in the field's own range (04 R111). -/
def Field.ok (f : Field) (w : Word) : Bool :=
  let n := bits w f.lo f.width
  match f.range with
  | .any => true
  | .res => n == 0
  | .span a b => a ≤ n && n ≤ b
  | .signed a b => let i := toSigned f.width n; a ≤ i && i ≤ b

/-- Voice `v` is class H (06 R169). -/
def classH (v : Nat) : Bool := 40 ≤ v

/-- The own range of a current field in class steps (04 R117). -/
def stepsRange (h : Bool) : Range := if h then .span 4 96 else .span 2 64

/-- The field map "Voice words" (04 R118), most significant field first; `v` is the voice and `o` the offset. -/
def voiceFields (v o : Nat) : Option (List Field) :=
  let h := classH v
  let st := stepsRange h
  match o with
  | 0x00 => some [⟨20, 12, .res⟩, ⟨19, 1, .any⟩, ⟨16, 3, .any⟩, ⟨14, 2, .span 0 2⟩, ⟨13, 1, .any⟩, ⟨12, 1, .any⟩,
      ⟨11, 1, .any⟩, ⟨10, 1, .any⟩, ⟨9, 1, .res⟩, ⟨8, 1, if v % 2 = 1 then .span 0 0 else .any⟩, ⟨4, 4, .span 0 4⟩,
      ⟨0, 4, .span 0 3⟩]
  | 0x01 => some [⟨24, 8, .res⟩, ⟨16, 8, .span 1 255⟩, ⟨8, 8, .res⟩, ⟨0, 8, st⟩]
  | 0x02 => some [⟨24, 8, .res⟩, ⟨8, 16, .span 1 10000⟩, ⟨0, 8, st⟩]
  | 0x03 => some [⟨24, 8, .res⟩, ⟨8, 16, .span 1 10000⟩, ⟨0, 8, st⟩]
  | 0x04 => some [⟨24, 8, .res⟩, ⟨8, 16, .span 1 10000⟩, ⟨0, 8, st⟩]
  | 0x05 => some [⟨24, 8, .res⟩, ⟨8, 16, .span 1 10000⟩, ⟨0, 8, st⟩]
  | 0x06 => some [⟨24, 8, .res⟩, ⟨8, 16, .span 1 10000⟩, ⟨0, 8, .span 1 200⟩]
  | 0x07 => some [⟨16, 16, .any⟩, ⟨0, 16, .span 1 60000⟩]
  | 0x08 => some [⟨8, 24, .res⟩, ⟨0, 8, .span 16 64⟩]
  | 0x09 => some [⟨25, 7, .res⟩, ⟨24, 1, .any⟩, ⟨16, 8, .any⟩, ⟨0, 16, .span 5 (if h then 1000 else 2000)⟩]
  | 0x0A => some [⟨16, 16, .any⟩, ⟨0, 16, .any⟩]
  | 0x0B => some [⟨24, 8, .res⟩, ⟨8, 16, .span 1 10000⟩, ⟨0, 8, st⟩]
  | 0x0C => some [⟨16, 16, .res⟩, ⟨8, 8, st⟩, ⟨0, 8, st⟩]
  | 0x0D => some [⟨4, 28, .res⟩, ⟨0, 4, .any⟩]
  | 0x0E => some [⟨24, 8, .span 1 255⟩, ⟨17, 7, .res⟩, ⟨16, 1, .any⟩, ⟨12, 4, .res⟩,
      ⟨0, 12, if h then .span 20 4000 else .span 5 1000⟩]
  | 0x0F => some [⟨16, 16, .span 1 6000⟩, ⟨8, 8, .span 1 255⟩, ⟨2, 6, .res⟩, ⟨0, 2, .any⟩]
  | 0x10 => some [⟨24, 8, .span 1 16⟩, ⟨16, 8, .span 20 160⟩, ⟨0, 16, .span 1 6000⟩]
  | 0x11 => some [⟨24, 8, .res⟩, ⟨16, 8, .span 60 170⟩, ⟨8, 8, .span 50 170⟩, ⟨0, 8, .span 40 170⟩]
  | 0x12 => some [⟨16, 16, .res⟩, ⟨0, 16, .span 1 (if h then 300 else 60)⟩]
  | 0x13 => some [⟨16, 16, .span 0 10000⟩, ⟨0, 16, .span 0 10000⟩]
  | 0x14 => some [⟨25, 7, .res⟩, ⟨24, 1, .any⟩, ⟨16, 8, .span 5 255⟩, ⟨12, 4, .res⟩, ⟨0, 12, .span 1 4000⟩]
  | _ => none

/-- The power-up values of the voice words (04 R118). -/
def voicePowerUp (v o : Nat) : Nat :=
  let h := classH v
  let c (l hh : Nat) : Nat := if h then hh else l
  match o with
  | 0x00 => (if h then v - 40 else v / 5) * 0x10000 + 0x10
  | 0x01 => 20 * 0x10000 + c 24 30
  | 0x02 => 500 * 0x100 + c 48 60
  | 0x03 => 100 * 0x100 + c 56 80
  | 0x04 => 200 * 0x100 + c 40 60
  | 0x05 => 500 * 0x100 + c 32 40
  | 0x06 => 2000 * 0x100 + 20
  | 0x07 => 0x1000 * 0x10000 + 1000
  | 0x08 => 32
  | 0x09 => 0x1000000 + 200
  | 0x0A => 0x8000
  | 0x0B => 3000 * 0x100 + c 16 20
  | 0x0C => c 2 4 * 0x100 + c 4 8
  | 0x0E => 10 * 0x1000000 + 0x10000 + c 20 100
  | 0x0F => 100 * 0x10000 + 3 * 0x100 + 1
  | 0x10 => 6 * 0x1000000 + 120 * 0x10000 + 100
  | 0x11 => 165 * 0x10000 + 150 * 0x100 + 140
  | 0x12 => c 60 300
  | 0x14 => 100 * 0x10000 + 20
  | _ => 0

/-- The fields of an engine's words (04 R120), `k` the offset from its base. -/
def engineFields (k : Nat) : Option (List Field) :=
  match k with
  | 0 => some [⟨0, 32, .any⟩]
  | 1 => some [⟨0, 32, .any⟩]
  | 2 => some [⟨0, 32, .any⟩]
  | 3 => some [⟨24, 8, .res⟩, ⟨0, 24, .any⟩]
  | 4 => some [⟨13, 19, .res⟩, ⟨12, 1, .any⟩, ⟨8, 4, .span 0 8⟩, ⟨4, 4, .span 0 8⟩, ⟨3, 1, .any⟩, ⟨0, 3, .any⟩]
  | 5 => some [⟨8, 24, .res⟩, ⟨0, 8, .span 1 128⟩]
  | _ => none

/-- The power-up scan masks and engine words (04 R120), `e` the engine and `k` the offset from its base. -/
def enginePowerUp (e k : Nat) : Nat :=
  match e, k with
  | 0, 0 => 0x00FFFFFF | 0, 1 => 0xFFFF0000 | 0, 2 => 0x000000FF
  | 1, 0 => 0xFF000000 | 1, 1 => 0x0000FFFF | 1, 2 => 0xFFFFFF00
  | 2, 3 => 0x0000FFFF
  | 0, 4 => 0x1000 | 1, 4 => 0x1000 | 2, 4 => 0x1000
  | 0, 5 => 32 | 1, 5 => 32 | 2, 5 => 8 | 3, 5 => 8
  | _, _ => 0

/-- The class of a word and its field map; none for an unassigned ID (04 R101, R102). -/
def wordInfo (id : Nat) : Option (WordClass × List Field) :=
  if id < 0x1000 then
    match id with
    | 0x0000 => some (.image, [⟨16, 16, .res⟩, ⟨0, 16, .span 10 5000⟩])
    | 0x0001 => some (.image, [⟨16, 16, .res⟩, ⟨8, 8, .span 1 20⟩, ⟨0, 8, .span 2 100⟩])
    | 0x0080 => some (.ro, [])
    | 0x0081 => some (.ro, [])
    | 0x0082 => some (.ro, [])
    | _ => none
  else if id < 0x1600 then
    let v := (id - 0x1000) / 32
    let o := (id - 0x1000) % 32
    (voiceFields v o).map fun fs => (if o = 0x0A || o = 0x13 then .live else .image, fs)
  else if id < 0x2000 then none
  else if id < 0x2040 then some (.live, [⟨0, 32, .any⟩])
  else if id < 0x2080 then some (.live, [⟨20, 12, .res⟩, ⟨16, 4, .any⟩, ⟨0, 16, .any⟩])
  else if id = 0x2080 then some (.image, [⟨24, 8, .res⟩, ⟨16, 8, .span 0 48⟩, ⟨8, 8, .span 0 15⟩, ⟨0, 8, .span 1 48⟩])
  else if id = 0x2081 then some (.live, [⟨16, 16, .res⟩, ⟨0, 16, .span 1 50000⟩])
  else if id < 0x3000 then none
  else if id < 0x3040 then (engineFields ((id - 0x3000) % 16)).map fun fs => (.image, fs)
  else if id < 0x30B8 then some (.live, [⟨16, 16, .span 0x2000 0x6000⟩, ⟨0, 16, .signed (-2048) 2047⟩])
  else if id = 0x30C0 then some (.image, [⟨16, 16, .res⟩, ⟨8, 8, .any⟩, ⟨0, 8, .any⟩])
  else if id < 0x3800 then none
  else if id = 0x3800 then
    some (.image, [⟨8, 24, .span 8000 96000⟩, ⟨3, 5, .span 2 16⟩, ⟨2, 1, .res⟩, ⟨1, 1, .any⟩, ⟨0, 1, .any⟩])
  else if id = 0x3801 then some (.image, [⟨16, 16, .res⟩, ⟨0, 16, .any⟩])
  else if id < 0x3810 then none
  else if id < 0x3820 then
    some (.image, [⟨16, 16, .res⟩, ⟨12, 4, .span 4 12⟩, ⟨7, 5, .res⟩, ⟨0, 7, .span 0 119⟩])
  else if id = 0x4000 then some (.image, [⟨16, 16, .res⟩, ⟨8, 8, .span 20 200⟩, ⟨0, 8, .signed (-40) 0⟩])
  else if id = 0x4001 then some (.live, [⟨16, 16, .res⟩, ⟨0, 16, .span 0 5000⟩])
  else if id = 0x4800 then
    some (.image, [⟨24, 8, .span 5 100⟩, ⟨16, 8, .span 5 50⟩, ⟨8, 8, .span 1 255⟩, ⟨7, 1, .any⟩, ⟨6, 1, .res⟩,
      ⟨3, 3, .any⟩, ⟨0, 3, .any⟩])
  else if id = 0x4801 then some (.image, [⟨0, 32, .span 0x100 0x1000000⟩])
  else if 0x4808 ≤ id && id < 0x4810 then
    some (.image, [⟨24, 8, .res⟩, ⟨16, 8, .span 1 255⟩, ⟨3, 13, .res⟩, ⟨2, 1, .any⟩, ⟨1, 1, .any⟩, ⟨0, 1, .any⟩])
  else if id = 0x5800 then some (.image, [⟨16, 16, .span 1 6000⟩, ⟨0, 16, .span 5 1000⟩])
  else if id = 0x6000 then some (.image, [⟨9, 23, .res⟩, ⟨8, 1, .any⟩, ⟨0, 8, .span 1 4⟩])
  else none

/-- The power-up value of an IMAGE or LIVE word (04 R108). -/
def powerUpNat (id : Nat) : Nat :=
  if id = 0 then 250
  else if id = 1 then 4 * 0x100 + 10
  else if 0x1000 ≤ id && id < 0x1600 then voicePowerUp ((id - 0x1000) / 32) ((id - 0x1000) % 32)
  else if 0x2040 ≤ id && id < 0x2080 then 8 * 0x10000
  else if id = 0x2080 then 8
  else if id = 0x2081 then 200
  else if 0x3000 ≤ id && id < 0x3040 then enginePowerUp ((id - 0x3000) / 16) ((id - 0x3000) % 16)
  else if 0x3040 ≤ id && id < 0x30B8 then 0x40000000
  else if id = 0x30C0 then 0xFF
  else if id = 0x3800 then 48000 * 0x100 + 2 * 8
  else if 0x3810 ≤ id && id < 0x3820 then 6 * 0x1000
  else if id = 0x4000 then 20 * 0x100 + 0xEC
  else if id = 0x4001 then 500
  else if id = 0x4800 then 20 * 0x1000000 + 15 * 0x10000 + 50 * 0x100 + 0x80 + 5 * 8 + 4
  else if id = 0x4801 then 0x10000
  else if 0x4808 ≤ id && id < 0x4810 then 50 * 0x10000 + 4
  else if id = 0x5800 then 100 * 0x10000 + 50
  else if id = 0x6000 then 2
  else 0

/-- The power-up value as a word. -/
def powerUp (id : Nat) : Word := BitVec.ofNat 32 (powerUpNat id)

/-- `n` IDs from `a` upwards. -/
def idsFrom (a n : Nat) : List Nat := (List.range n).map (a + ·)

/-- Every assigned ID in ascending order (04 R103). -/
def assignedIds : List Nat :=
  [0x0000, 0x0001, 0x0080, 0x0081, 0x0082] ++
  (List.range 48).flatMap (fun v => idsFrom (0x1000 + 32 * v) 21) ++
  idsFrom 0x2000 130 ++
  (List.range 4).flatMap (fun e => idsFrom (0x3000 + 16 * e) 6) ++
  idsFrom 0x3040 120 ++ [0x30C0, 0x3800, 0x3801] ++ idsFrom 0x3810 16 ++ [0x4000, 0x4001, 0x4800, 0x4801] ++
  idsFrom 0x4808 8 ++ [0x5800, 0x6000]

/-- The class of a word. -/
def wordClass (id : Nat) : Option WordClass := (wordInfo id).map (·.1)

/-- The 971 IMAGE words in ascending order of ID (04 R127). -/
def imageIds : List Nat := assignedIds.filter fun id => wordClass id == some .image

/-- The value under `id` in a list of differences from the power-up values. -/
def wordGet (l : List (Nat × Word)) (id : Nat) : Word :=
  match l.lookup id with
  | some w => w
  | none => powerUp id

/-- The list of differences with the word `id` set: IDs strictly rising, no entry at its power-up value. -/
def wordSet (l : List (Nat × Word)) (id : Nat) (w : Word) : List (Nat × Word) :=
  let below := l.filter fun e => e.1 < id
  let above := l.filter fun e => id < e.1
  if w = powerUp id then below ++ above else below ++ (id, w) :: above

/-- The canonical form of a list of differences. -/
def wordsWf (l : List (Nat × Word)) : Bool :=
  l.all (fun e => e.2 != powerUp e.1) && l.Pairwise (fun a b => a.1 < b.1)

/-- The live copy of a word. -/
def Dev.word (d : Dev) (id : Nat) : Word := wordGet d.par.live id

/-- A field of a live word. -/
def Dev.fld (d : Dev) (id lo w : Nat) : Nat := bits (d.word id) lo w

/-- The ID of the word at offset `o` of voice `v` (04 R118). -/
def voiceWord (v : VoiceId) (o : Nat) : Nat := 0x1000 + 32 * v.val + o

/-- A field of a live voice word. -/
def Dev.vfld (d : Dev) (v : VoiceId) (o lo w : Nat) : Nat := d.fld (voiceWord v o) lo w

/-- The position of the first failing field of a word, most significant field first; none when it passes (04 R111). -/
def firstFailing (fs : List Field) (w : Word) : Option Nat := (fs.find? fun f => !f.ok w).map (·.lo)

/-- The failure of one entry of a PARAM_WRITE or PARAM_WRITE_LIVE: none, or the BIT byte of 05 R146. -/
def entryFailure (cls : WordClass) (id : Nat) (w : Word) : Option Nat :=
  match wordInfo id with
  | none => some 0xFE
  | some (c, fs) => if c = cls then firstFailing fs w else some 0xFF

/-- The entries of a parameter write: ID and VALUE (05 R146). -/
def paramEntries : List Byte → List (Nat × Word)
  | a :: b :: c :: d :: e :: f :: rest =>
    (leNat [a, b], BitVec.ofNat 32 (leNat [c, d, e, f])) :: paramEntries rest
  | _ => []

/-- The first entry that fails, in packet order, with its BIT byte (05 R146). -/
def firstBadEntry (cls : WordClass) (es : List (Nat × Word)) : Option (Nat × Nat) :=
  es.findSome? fun e => (entryFailure cls e.1 e.2).map fun b => (e.1, b)

/-- The words of the list written in packet order, so that a later entry stands (04 R104). -/
def writeWords (l : List (Nat × Word)) (es : List (Nat × Word)) : List (Nat × Word) :=
  es.foldl (fun l e => wordSet l e.1 e.2) l

/-- The six bytes a word contributes to the image CRC-32 (04 R127). -/
def imageBytes (l : List (Nat × Word)) (id : Nat) : List Byte := leBytes 2 id ++ leBytes 4 (wordGet l id).toNat

/-- The image CRC-32 (04 R127). -/
def imageCrc (l : List (Nat × Word)) : Word := crc32 (imageIds.flatMap (imageBytes l))

/-- Input `i` lies in the mask of engine `e` (04 R120). -/
def engineMask (g : Nat → Word) (e i : Nat) : Bool := bit (g (0x3000 + 16 * e + i / 32)) (i % 32)

/-- Engine `e` has ENABLE set (04 R120). -/
def engineEnabled (g : Nat → Word) (e : Nat) : Bool := bit (g (0x3000 + 16 * e + 4)) 12

/-- Input `i` is scanned by an enabled engine. -/
def inputScanned (g : Nat → Word) (i : Nat) : Bool :=
  (List.range 4).any fun e => engineEnabled g e && engineMask g e i

/-- The number of inputs in the masks of engine `e`. -/
def maskCount (g : Nat → Word) (e : Nat) : Nat := ((List.range 120).filter (engineMask g e)).length

/-- The dependent ranges charged to the word at offset `o` of voice `v` hold (04 R112). -/
def voiceDependent (g : Nat → Word) (v o : Nat) : Bool :=
  let w (k : Nat) : Word := g (0x1000 + 32 * v + k)
  let ilim := bits (w 1) 0 8
  let i1 := bits (w 3) 0 8
  let i2 := bits (w 4) 0 8
  let i3 := bits (w 5) 0 8
  match o with
  | 0x00 => inputScanned g v && inputScanned g (48 + v)
  | 0x02 => ilim ≤ bits (w 2) 0 8
  | 0x03 => i2 ≤ i1
  | 0x04 => i3 ≤ i2
  | 0x05 => ilim ≤ i3
  | 0x0B => bits (w 0x0B) 0 8 ≤ ilim
  | 0x0C => bits (w 0x0C) 8 8 ≤ bits (w 0x0C) 0 8 && bits (w 0x0C) 0 8 < bits (w 0x0B) 0 8
  | 0x0D => bits (w 0) 0 4 != 3 ||
      (bits (w 0x0D) 0 4 < bits (g 0x3800) 3 5 && bit (g 0x3801) (bits (w 0x0D) 0 4))
  | 0x10 => bits (w 0x10) 16 8 + 15 ≤ bits (w 0x11) 16 8
  | 0x11 => bits (w 0x11) 0 8 ≤ bits (w 0x11) 8 8 && bits (w 0x11) 8 8 ≤ bits (w 0x11) 16 8
  | _ => true

/-- The dependent ranges charged to a word hold (04 R112). -/
def dependentOk (g : Nat → Word) (id : Nat) : Bool :=
  let en := bit (g 0x3800) 0
  let slots := bits (g 0x3800) 3 5
  if 0x1000 ≤ id && id < 0x1600 then voiceDependent g ((id - 0x1000) / 32) ((id - 0x1000) % 32)
  else if 0x3000 ≤ id && id < 0x3040 && id % 16 = 4 then
    !bit (g id) 3 || maskCount g ((id - 0x3000) / 16) = 1
  else if id = 0x3035 then
    bits (g 0x3005) 0 8 + bits (g 0x3015) 0 8 + bits (g 0x3025) 0 8 + bits (g 0x3035) 0 8 ≤ 256
  else if id = 0x3800 then
    !en || (bits (g 0x3800) 8 24 * slots * 32 ≤ 24576000 &&
      ((List.range slots).map fun s => 4 * 2 ^ bits (g (0x3810 + s)) 12 4).foldl (· + ·) 0 ≤ 65536)
  else if 0x3810 ≤ id && id < 0x3820 then
    let s := id - 0x3810
    !(en && s < slots && !bit (g 0x3801) s) || inputScanned g (bits (g id) 0 7)
  else if id = 0x2080 then bits (g id) 8 8 != 0 || bits (g id) 16 8 == 0
  else if id = 0x4800 then !bit (g id) 7 || bits (g id) 3 3 != bits (g id) 0 3
  else if id = 0x5800 then bits (g id) 0 16 ≤ bits (g id) 16 16 * 100
  else true

/-- The lowest ID among the words that fail a dependent range (04 R113). -/
def firstDependent (l : List (Nat × Word)) : Option Nat := imageIds.find? fun id => !dependentOk (wordGet l) id

/-- The profile and mode pairs that run (06 R186). -/
def profileRuns (profile mode : Nat) : Bool :=
  match profile, mode with
  | 0, _ => true
  | 1, m => m != 2
  | 2, m => m == 0 || m == 1
  | 3, m => m != 2
  | 4, m => m == 1
  | _, _ => false

/-- The lowest offset at which the members of a gang differ under 06 R190, `n` the even member. -/
def gangMismatch (g : Nat → Word) (n : Nat) : Option Nat :=
  let a (o : Nat) : Word := g (0x1000 + 32 * n + o)
  let b (o : Nat) : Word := g (0x1000 + 32 * (n + 1) + o)
  (List.range 21).find? fun o =>
    if o = 0 then (a 0).toNat - 0x100 != (b 0).toNat
    else o != 0x0A && o != 0x13 && a o != b o

/-- The precedence validation of one voice: the reason code and the two IDs (08 R247). -/
def voiceConflict (g : Nat → Word) (n : Nat) : Option (Nat × Nat × Nat) :=
  let b := 0x1000 + 32 * n
  let drive := g b
  let mode := bits drive 0 4
  let gang := if bit drive 8 then gangMismatch g n else none
  if !profileRuns (bits drive 4 4) mode then some (1, b, b)
  else match gang with
  | some o => some (2, b + o, b + 32 + o)
  | none =>
    if bit drive 19 && bits drive 14 2 != 2 then some (3, b, b)
    else if bit (g (b + 0x14)) 24 && mode != 2 then some (4, b + 0x14, b)
    else if mode == 3 && !bit (g 0x3800) 0 then some (5, b, 0x3800)
    else none

/-- The first conflict in ascending voice order (08 R247). -/
def firstConflict (l : List (Nat × Word)) : Option (Nat × Nat × Nat) :=
  (List.range 48).findSome? (voiceConflict (wordGet l))

/-- How many IMAGE words differ between two copies (05 R148). -/
def imageDiff (a b : List (Nat × Word)) : Nat := (imageIds.filter fun id => wordGet a id != wordGet b id).length

/-- The live list with every IMAGE word taken from the shadow and the LIVE words kept (02 R62, 04 R108). -/
def conductWords (shadow live : List (Nat × Word)) : List (Nat × Word) :=
  writeWords shadow (live.filter fun e => wordClass e.1 == some .live)

end Sys2Proof.Machine
end

