-- ==== Sys2Proof/Machine/Ops.lean ====
section
/-! DEFINITION. The operations every command shares: the clock, the event log, the reply queue, access to voices and
the news that drives IRQN. -/

namespace Sys2Proof.Machine
open Sys2Proof

/-- Ticks of 1/3 ns in a microsecond and a millisecond (00 R8). -/
def usec : Nat := 3000
def msec : Nat := 3000000

/-- Time at the control die. -/
def Dev.now (d : Dev) : Nat := d.time.now

/-- The limit in ppm of the fallback error: ±0.1 % in the first second after a switch of a trimmed oscillator, else
±1.5 % (09 R252). -/
def TimeBase.errorLimit (t : TimeBase) : Int :=
  if t.trimmed && t.phase != .first && decide (t.now ≤ t.lostAt + 1000 * msec) && !Config.junctionMoved t.now then 1000
  else 15000

/-- The fallback error in ppm: free within its limit, and 0 on the Score time base (00 R8, 09 R252). -/
def TimeBase.error (t : TimeBase) : Int :=
  if t.onFallback then max (-t.errorLimit) (min t.errorLimit (Config.fallbackError t.now)) else 0

/-- `n` ticks of the control clock pass against the Score's clock: the drift that has summed up, in ppm of a tick. -/
def TimeBase.drifted (t : TimeBase) (n : Nat) : Int := t.drift + n * t.error

/-- Ticks the Score's clock makes while the control clock makes `n`: whole cycles of 8 ticks, so that the part of a cycle
stays in `drift` (00 R8). -/
def TimeBase.scoreTicks (t : TimeBase) (n : Nat) : Int := n + 8 * (t.drifted n / 8000000)

/-- `dt` control clock slots of 8 ticks pass (00 R8): the control die's TBC, the Score's own time and, once it has locked, its
TBC. -/
def Dev.advance (d : Dev) (dt : Nat) : Dev :=
  { d with
    time := { d.time with
      now := d.time.now + 8 * dt, tbc := d.time.tbc + (8 * dt : Nat), drift := d.time.drifted (8 * dt) % 8000000 }
    score := { d.score with
      own := d.score.own + (d.time.scoreTicks (8 * dt)).toNat
      tbc := if d.score.locked then d.score.tbc + d.time.scoreTicks (8 * dt) else d.score.tbc } }

/-- The live words change: a conversion that began in an earlier slot keeps the CORR word it began with (04 R125); one that
begins in the slot of the write takes the new word (04 R106, 08 R238). `old` is the device before the change. -/
def Dev.holdCorr (d old : Dev) : Dev :=
  { d with conv := { d.conv with engines := d.conv.engines.map fun x => { x with todo := x.todo.map fun v =>
    if v.at_ < d.now && v.corr.isNone then { v with corr := some (old.word (0x3040 + v.input)) } else v } } }

/-- IRQN goes low; it is driven only while the port is open (03 R95). -/
def Dev.raiseIrq (d : Dev) : Dev :=
  { d with port := { d.port with irqn := d.port.irqn || d.port.isOpen, newsNow := d.port.newsNow || d.port.isOpen } }

/-- Eight DATA bytes of an event (05 R142). -/
def data8 (bs : List Byte) : List Byte := (bs ++ List.replicate 8 0).take 8

/-- One byte of a Nat. -/
def b8 (n : Nat) : Byte := BitVec.ofNat 8 n

/-- An event enters the log: at 256 events the oldest goes, and is counted if it was not acknowledged (05 R141). -/
def EventLog.push (l : EventLog) (e : Event) : EventLog :=
  let full := 256 ≤ l.events.length
  { events := (if full then l.events.drop 1 else l.events) ++ [e]
    nextSeq := l.nextSeq + 1
    lost := if full && (l.events.head?.elim false fun o => !o.acked) then stick 16 (l.lost + 1) else l.lost }

/-- The event numbered `s` is taken back, and those that followed it close up (07 R203). -/
def EventLog.retract (l : EventLog) (s : Word) : EventLog :=
  let n := (l.nextSeq - s).toNat
  let len := l.events.length
  if n = 0 then l
  else { l with
    events := l.events.take (len - n) ++
      (l.events.drop (if n ≤ len then len - n + 1 else 0)).map fun e => { e with seq := e.seq - 1 }
    nextSeq := l.nextSeq - 1 }

/-- Log an event (05 R141, R142); it is news (03 R95). While power-on reset holds, no control die logs. -/
def Dev.event (d : Dev) (code unit : Nat) (data : List Byte) : Dev :=
  let e : Event :=
    { seq := d.log.nextSeq, tbc := d.time.tbc, code := code, unit := unit, acked := false,
      fallbackTb := d.time.onFallback, data := data8 data }
  if d.ctl.por then d else ({ d with log := d.log.push e }).raiseIrq

/-- A reply enters the queue; at 64 the oldest is discarded (03 R93). -/
def HostPort.push (p : HostPort) (r : Reply) : HostPort :=
  if 64 ≤ p.replies.length then { p with replies := p.replies.drop 1 ++ [r], replyLost := true, lostNow := true }
  else { p with replies := p.replies ++ [r] }

/-- The bytes of a reply (03 R91). -/
def Reply.bytes (r : Reply) : List Byte :=
  withCrc ([b8 (r.src % 128), r.opc, r.tag, r.status] ++ leBytes 2 r.data.length ++ r.data)

/-- A reply enters the queue at a commit edge. -/
def Dev.reply (d : Dev) (r : Reply) : Dev := { d with port := d.port.push r }

/-- A reply enters the queue other than at a commit edge, which is news (03 R95). -/
def Dev.replyNews (d : Dev) (r : Reply) : Dev := (d.reply r).raiseIrq

/-- The answer of an opcode: STATUS and DATA (03 R91). -/
structure Answer where
  status : Byte
  data : List Byte
  /-- VOICE_SET: the voices taken and refused (05 R152). -/
  settle : Option (Mask × Mask)
deriving DecidableEq, Repr

/-- OK with data (05 R134). -/
def ok (data : List Byte) : Answer := ⟨0x00, data, none⟩
/-- A status with failure data (05 R132). -/
def fail (status : Byte) (data : List Byte) : Answer := ⟨status, data, none⟩

/-- The status codes of 05 R134. -/
def stPending : Byte := 0x01
def stBadCrc : Byte := 0x10
def stBadLength : Byte := 0x11
def stUnknown : Byte := 0x12
def stBadParam : Byte := 0x13
def stWrongMode : Byte := 0x14
def stBusy : Byte := 0x15
def stBusyScan : Byte := 0x16
def stProtected : Byte := 0x17
def stNotBlank : Byte := 0x18
def stQueueFull : Byte := 0x19
def stInverted : Byte := 0x1A
def stRetired : Byte := 0x1B
def stSealed : Byte := 0x1C
def stCold : Byte := 0x1D
def stConflict : Byte := 0x1E
def stLegalLock : Byte := 0x1F
def stUnreachable : Byte := 0x20
def stSignature : Byte := 0x21

/-- A field of the live parameter words of voice `v`; see `Dev.vfld`. -/
def Dev.voice (d : Dev) (v : VoiceId) : Voice := d.voices.get v

/-- Voice `v` changed by `f`. -/
def Dev.modVoice (d : Dev) (v : VoiceId) (f : Voice → Voice) : Dev := { d with voices := d.voices.modify v f }

/-- Bank `b` changed by `f`. -/
def Dev.modBank (d : Dev) (b : BankId) (f : Bank → Bank) : Dev := { d with banks := d.banks.modify b f }

/-- Zone `z` changed by `f`. -/
def Dev.modZone (d : Dev) (z : ZoneId) (f : Zone → Zone) : Dev :=
  { d with therm := { d.therm with zones := d.therm.zones.modify z f } }

/-- The bank of a voice (06 R170). -/
def bankOf (v : VoiceId) : BankId := ⟨(if v.val < 40 then v.val / 10 else (v.val - 40) / 2) % 4, Nat.mod_lt _ (by decide)⟩

/-- The zone of a voice, which is also its a cappella input (13 R354, 02 R49). -/
def zoneOf (v : VoiceId) : ZoneId := ⟨(if v.val < 40 then v.val / 5 else v.val - 40) % 8, Nat.mod_lt _ (by decide)⟩

/-- The next and the previous voice. -/
def nextVoice (v : VoiceId) : VoiceId := ⟨(v.val + 1) % 48, Nat.mod_lt _ (by decide)⟩
def prevVoice (v : VoiceId) : VoiceId := ⟨(v.val + 47) % 48, Nat.mod_lt _ (by decide)⟩

/-- The even member whose live GANG is set, when voice `v` is in a gang (06 R190). -/
def Dev.gang (d : Dev) (v : VoiceId) : Option VoiceId :=
  let e := if v.val % 2 = 0 then v else prevVoice v
  if d.vfld e 0 8 1 = 1 then some e else none

/-- The voices that act with `v`: both members of its gang, or itself (06 R191). -/
def Dev.unitOf (d : Dev) (v : VoiceId) : List VoiceId :=
  match d.gang v with
  | some e => [e, nextVoice e]
  | none => [v]

/-- The voice that stands for `v`: the even member of its gang, or itself. -/
def Dev.headOf (d : Dev) (v : VoiceId) : VoiceId := (d.gang v).getD v

/-- The voices named by a mask with the partners of gang members, each unit by its head, ascending. -/
def Dev.heads (d : Dev) (m : Mask) : List VoiceId :=
  (idx 48).filter fun v => d.headOf v == v && (d.unitOf v).any (inMask m)

/-- Every change of `f` on the voices of a list, in order. -/
def Dev.forVoices (d : Dev) (vs : List VoiceId) (f : Dev → VoiceId → Dev) : Dev := vs.foldl f d

/-- The end of a command: what of the flags has risen is news (03 R95); `prev` is the last snapshot and `d0` the device
before the command acted. -/
def Dev.tellNews (d d0 prev : Dev) : Dev :=
  if risen (d0.newsBits prev) (d.newsBits prev) then d.raiseIrq else d

end Sys2Proof.Machine
end

