-- ==== Sys2Proof/Machine/Drive.lean ====
section
/-! DEFINITION. Driving a voice (06): turn-off, admission, the waits of a turn-on, gate ramps and breath tokens, the
turn-on itself, and what level sources and due retries ask (08 R233, R237). -/

namespace Sys2Proof.Machine
open Sys2Proof

/-- Driven: RAMPING, ON, PWM or HOLDING (06 R197). -/
def VState.isDriven : VState → Bool
  | .ramping | .on | .pwm | .holding => true
  | _ => false

/-- A fault state (21 R550). -/
def VState.isFault : VState → Bool
  | .tripped | .retryWait | .checking | .latched => true
  | _ => false

/-- A drive runs. -/
def Voice.driven (v : Voice) : Bool := v.st.isDriven

/-- Driven as 06 R197 and 21 R550 have it: a half-voice is while its gate is on. -/
def Voice.isOn (v : Voice) : Bool := v.driven && (!v.half || v.gate)

/-- The gate falls; the driven time of a half-voice pauses with it (06 R197, 14 R404). -/
def Voice.gateFall (v : Voice) (now : Nat) : Voice :=
  let from_ := v.drivenFrom.getD now
  if v.half then { v with
    gate := false, ramp := .none, drivenFrom := none
    life := { v.life with sessionTicks := v.life.sessionTicks + (now - from_) }
    therm := { v.therm with driven := v.therm.driven + (now - max from_ v.therm.anchoredAt) } }
  else { v with gate := false, ramp := .none }

/-- The gate rises; the driven time of a half-voice goes on (06 R197, 14 R404). -/
def Voice.gateRise (v : Voice) (now : Nat) : Voice := { v with gate := true, drivenFrom := some (v.drivenFrom.getD now) }

/-- The voice state code: a half-voice reports HALF in place of OFF and the driven states (05 R135, 06 R194). -/
def Voice.code (v : Voice) : Nat :=
  match v.st with
  | .tripped => 5
  | .retryWait => 6
  | .checking => 7
  | .latched => 8
  | .retired => 9
  | .off => if v.half then 10 else 0
  | .ramping => if v.half then 10 else 1
  | .on => if v.half then 10 else 2
  | .pwm => if v.half then 10 else 3
  | .holding => if v.half then 10 else 4

/-- The gate ramp time of a class in ticks (06 R169). -/
def tGR (v : VoiceId) : Nat := if classH v.val then 20 * usec else 8 * usec

/-- The shortest pulse or gap of a class in control clock cycles (06 R169). -/
def tMin (v : VoiceId) : Nat := if classH v.val then 7500 else 3750

/-- A limit code in half class steps: a half-voice's limits act at half their coded value (06 R193). -/
def limitHalves (half : Bool) (code : Nat) : Nat := if half then code else 2 * code

/-- The regulated limit of a voice, in half class steps. -/
def Dev.ilim (d : Dev) (v : VoiceId) : Nat := limitHalves (d.voice v).half (d.vfld v 1 0 8)

/-- A current target in half class steps: its coded value, on a half-voice capped at half of ILIM (06 R193). -/
def Dev.targetHalves (d : Dev) (v : VoiceId) (code : Nat) : Nat :=
  if (d.voice v).half then min (2 * code) (d.ilim v) else 2 * code

/-- The target of the peak phase, I_PEAK (06 R182). -/
def Dev.peakTarget (d : Dev) (v : VoiceId) : Nat := d.targetHalves v (d.vfld v 0x0B 0 8)

/-! ### Lifetime counters (14 R404) -/

/-- Driven time of the session in whole seconds, counted in units of 10 µs. -/
def Dev.sessionSeconds (d : Dev) (v : VoiceId) : Nat :=
  let x := d.voice v
  (x.life.sessionTicks + (match x.drivenFrom with
    | some t => d.now - t
    | none => 0)) / (10 * usec) / 100000

/-- CYCLES and ON_SECONDS: stored plus session, sticking (14 R404). -/
def Dev.cyclesOf (d : Dev) (v : VoiceId) : Nat := stick 32 ((d.voice v).life.cycles + (d.voice v).life.sessionCycles)
def Dev.secondsOf (d : Dev) (v : VoiceId) : Nat := stick 32 ((d.voice v).life.seconds + d.sessionSeconds v)

/-- LIFETIME_MAX is logged when a value first sticks (14 R404). -/
def Dev.lifetimeMax (d : Dev) (v : VoiceId) : Dev :=
  let l := (d.voice v).life
  let c := d.nv.scanned && !l.cyclesMax && d.cyclesOf v = 0xFFFFFFFF
  let n := d.nv.scanned && !l.secondsMax && d.secondsOf v = 0xFFFFFFFF
  let d1 := if c then (d.modVoice v fun x => { x with life := { x.life with cyclesMax := true } }).event 0x0706 v.val [0] else d
  if n then (d1.modVoice v fun x => { x with life := { x.life with secondsMax := true } }).event 0x0706 v.val [1] else d1

/-! ### What the converter last saw of a voice (11 R302, 13 R356, R357) -/

/-- The current of a corrected IS code in A (11 R302). -/
def ampsOf (v : VoiceId) (y : Nat) : Rat := (y : Rat) * (if classH v.val then 128 else 16) / 16383
/-- The voltage of a corrected VO code in V: code 8,192 at 0 V (11 R302). -/
def voltsOf (y : Nat) : Rat := ((y : Rat) - 8192) / 128
/-- The bank voltage in V: 36 V while no enabled engine scans it or nothing has been converted (13 R357). -/
def Dev.vbat (d : Dev) (b : BankId) : Rat :=
  if inputScanned d.word (96 + b.val) then
    match d.conv.newest.get ⟨96 + b.val, by have := b.isLt; omega⟩ with
    | some c => if c.valid then (c.y : Rat) * 64 / 16383 else 36
    | none => 36
  else 36
/-- The newest output voltage of a voice in V; 0 while none has been converted. -/
def Dev.vout (d : Dev) (v : VoiceId) : Rat :=
  match d.conv.newest.get ⟨48 + v.val, by have := v.isLt; omega⟩ with
  | some c => if c.valid then voltsOf c.y else 0
  | none => 0
/-- The newest current of a voice in A. -/
def Dev.amps (d : Dev) (v : VoiceId) : Rat :=
  match d.conv.newest.get ⟨v.val, by have := v.isLt; omega⟩ with
  | some c => if c.valid then ampsOf v c.y else 0
  | none => 0

/-- The coefficient set of a voice: class L, class H or a half-voice (13 R356). -/
def Dev.coefKind (d : Dev) (v : VoiceId) : Nat := if !classH v.val then 0 else if (d.voice v).half then 2 else 1

/-- The edge coefficient of a voice; half of class H for a half-voice (13 R356, 18 R516). -/
def Dev.edgeCoef (d : Dev) (v : VoiceId) : Rat :=
  if d.coefKind v = 2 then Config.edgeCoef 1 / 2 else Config.edgeCoef (d.coefKind v)

/-- The temperature that a resistance in ohms gives: a half-voice has twice the R_on of its class (13 R360, 18 R516). -/
def Dev.rOnTemp (d : Dev) (v : VoiceId) (ohms : Rat) : Rat := Config.rOnTemp v.val (if (d.voice v).half then ohms / 2 else ohms)

/-- The energy of one PWM edge or hold chop edge (13 R356). -/
def Dev.edgeEnergy (d : Dev) (v : VoiceId) : Dev :=
  let e := d.edgeCoef v * d.amps v * d.vbat (bankOf v)
  d.modVoice v fun x => { x with therm := { x.therm with energy := x.therm.energy + e } }

/-! ### Turn-off -/

/-- Why a voice's drive ends. -/
inductive OffWhy where
  /-- A cue, VOICE_SET, an LH input or a FALLBACK action (10 R294). -/
  | command
  /-- A mode entry, a power-down or the reset of a gang: not counted as RAMP_ABORT. -/
  | orderly
  /-- A bank loss or cut, a fault, a retirement or the end of the control die's run: no closing search (10 R290). -/
  | forced
deriving DecidableEq, Repr

/-- The gate drive of a voice ends at time `now` (06 R175): phases, ramp and span end, the driven time is added to the
session and to t_d, an opening search is abandoned, and the turn-off of a PEAK_HOLD voice starts a closing search unless
a fault, a bank loss or a retirement is its cause (10 R289, R290). -/
def Voice.release (v : Voice) (now : Nat) (why : OffWhy) : Voice :=
  let from_ := v.drivenFrom.getD now
  { v with
    st := .off, gate := false, ramp := .none, plan := [], offEdge := none, firstPulse := false, clampedChops := 0
    clampedNow := false, target := 0, desatAt := none, spanEnd := none, drivenSince := none, idleSince := now, offAt := now, drivenFrom := none, dutyRamp := none, sampled := false
    muteKept := false
    life := { v.life with sessionTicks := v.life.sessionTicks + (now - from_) }
    therm := { v.therm with
      driven := v.therm.driven + (now - max from_ v.therm.anchoredAt), restSince := some now, quiet := none }
    lead := { v.lead with
      search := if why ≠ .forced ∧ v.driveMode = 2 then some { opening := false, t0 := now, top := none, low := none }
        else none } }

/-- `k` tokens of chain domain `n` are to return (16 R478). -/
def Dev.returnDomain (d : Dev) (n k : Nat) : Dev :=
  if h : 1 ≤ n ∧ n ≤ 15 then
    { d with chain := { d.chain with returns := d.chain.returns.modify ⟨n - 1, by omega⟩ (· + k) } }
  else d

/-- The voice's breath tokens return together (10 R295). -/
def Dev.returnTokens (d : Dev) (v : VoiceId) : Dev :=
  let vo := d.voice v
  let d1 := d.modVoice v fun x => { x with token := false, domainToken := none }
  match vo.domainToken with
  | some n => d1.returnDomain n 1
  | none => d1

/-- Turn one voice off at once: nothing where it is not driven. A blip of the voice ends (13 R378). -/
def Dev.turnOff (d : Dev) (v : VoiceId) (why : OffWhy) : Dev :=
  if (d.voice v).driven then
    let why' := if d.headOf v = v then why else .forced   -- a gang measures on its even member (10 R291)
    let d1 := (d.returnTokens v).modVoice v fun x => x.release d.now why'
    let d2 := d1.lifetimeMax v
    match d2.therm.blip with
    | some (b, _) => if d2.headOf b = d2.headOf v then { d2 with therm := { d2.therm with blip := none } } else d2
    | none => d2
  else d

/-- A wait for a turn-on is withdrawn, with the tokens it holds (10 R298); a retry's voice stays in RETRY_WAIT with its
retry due (07 R207). A voice that does not wait keeps its token to the end of its span (06 R188). -/
def Dev.withdraw (d : Dev) (v : VoiceId) : Dev :=
  match (d.voice v).wait with
  | some w => (d.returnTokens v).modVoice v fun x => { x with
      wait := none, retryReady := x.retryReady || (w.source == .retry && x.st == .retryWait) }
  | none => d

/-- Turn a unit off: both members of a gang (06 R191). A commanded turn-off in RAMPING counts one RAMP_ABORT
(10 R294). -/
def Dev.turnOffUnit (d : Dev) (v : VoiceId) (why : OffWhy) : Dev :=
  let aborts := why = .command ∧ (d.unitOf v).any (fun m => (d.voice m).st == .ramping)
  let d1 := d.forVoices (d.unitOf v) fun d m => d.turnOff m why
  if aborts then { d1 with cues := { d1.cues with rampAbort := stick 16 (d1.cues.rampAbort + 1) } } else d1

/-- A drive of a unit runs. -/
def Dev.unitDriven (d : Dev) (v : VoiceId) : Bool := (d.unitOf v).any fun m => (d.voice m).driven

/-- A unit is driven (06 R197). -/
def Dev.unitOn (d : Dev) (v : VoiceId) : Bool := (d.unitOf v).any fun m => (d.voice m).isOn

/-! ### Admission (08 R236) -/

/-- The bank gives no supply: absent, in overvoltage off, cut, or VCP low (06 R172, 07 R204, 17 R493). -/
def Dev.bankOut (d : Dev) (b : BankId) : Bool :=
  let k := d.banks.get b
  !k.present || k.ovOff || k.cut || !d.pd.vcpOk

/-- The bank holds its turn-ons: crank hold or overvoltage hold (17 R492, R493). -/
def Dev.bankHeld (d : Dev) (b : BankId) : Bool := (d.banks.get b).crank || (d.banks.get b).ovHold

/-- What keeps a turn-on of a voice off. -/
inductive Bar where
  | none
  /-- A fault state (level 5): an ON still sets the commanded state (08 R233). -/
  | fault
  /-- Another level of the ladder: the commanded state stays. -/
  | other
deriving DecidableEq, Repr

/-- A throttle ban holds the voice: its zone enforces (13 R369). -/
def Dev.banned (d : Dev) (v : VoiceId) : Bool := (d.therm.zones.get (zoneOf v)).enforcing

/-- A power-down sequence runs, or one started by VBAT has ended and the restart has not come (17 R498, R501). -/
def Dev.pdActive (d : Dev) : Bool := d.pd.step != .idle
/-- A power-down sequence runs (17 R497). -/
def Dev.pdRunning (d : Dev) : Bool := d.pd.step != .idle && d.pd.step != .done

/-- The highest level of the precedence ladder that refuses a turn-on of one voice (08 R236). -/
def Dev.bar1 (d : Dev) (v : VoiceId) : Bar :=
  let x := d.voice v
  if d.ctl.mode = .halted || d.ctl.mode = .starting || d.ka.held then .other
  else if x.st = .retired || x.barred then .other
  else if d.bankOut (bankOf v) then .other
  else if x.st.isFault then .fault
  else if x.therm.stopHold then .other
  else if d.ctl.mode = .parked || d.pdActive then .other
  else if d.banned v then .other
  else .none

/-- The bar of a unit: that of the member that the higher level holds. -/
def Dev.bar (d : Dev) (v : VoiceId) : Bar :=
  let bs := (d.unitOf v).map d.bar1
  if bs.contains .other then .other else if bs.contains .fault then .fault else .none

/-! ### Duty (06 R177 to R184, 13 R369) -/

/-- The ceiling in eighths that applies to a unit: the lower of its members' zones (13 R369). -/
def Dev.ceilingOf (d : Dev) (v : VoiceId) : Nat :=
  ((d.unitOf v).map fun m => (d.therm.zones.get (zoneOf m)).ceiling).foldl min 8

/-- The duty the ceiling admits (13 R369). -/
def Dev.dutyCap (d : Dev) (v : VoiceId) : Nat :=
  let c := d.ceilingOf v
  if c < 8 then 65535 * c / 8 else 65535

/-- The duty of a DUTY_RAMP at time `now`: linear from the start to the target (06 R187). -/
def rampDuty (d0 target t0 len now : Nat) : Nat :=
  if t0 + len ≤ now then target
  else ((d0 : Int) + ((target : Int) - d0) * ((now - t0 : Nat) : Int) / (max len 1 : Nat)).toNat

/-- A duty ramp runs (06 R187). -/
def Dev.dutyRamps (d : Dev) (v : VoiceId) : Bool := match (d.voice v).dutyRamp with
  | some (_, t0, len) => decide (d.now < t0 + len)
  | none => false

/-- The duty in force for a period that begins now (06 R153, R184, R187, 12 R341, 13 R369). -/
def Dev.dutyNow (d : Dev) (v : VoiceId) : Nat :=
  let x := d.voice v
  let set :=
    if x.driveMode = 3 then
      let word := d.word (voiceWord (d.headOf v) 0x0A)
      if d.wave.st != .running || x.muteKept then bits word 16 16
      else
        let slot := d.wave.slots.get ⟨d.vfld v 0x0D 0 4 % 16, Nat.mod_lt _ (by decide)⟩
        if x.sampled then slot.duty.getD x.duty else x.duty
    else match x.dutyRamp with
      | some (d0, t0, len) => rampDuty d0 x.duty t0 len d.now
      | none => x.duty
  min set (d.dutyCap v)

/-- The PWM period in control clock cycles (06 R177). -/
def Dev.pwmPeriod (d : Dev) (v : VoiceId) : Nat := (roundDiv 375000000 (max 1 (d.vfld v 9 0 16) : Nat)).toNat

/-- The on-time of a period in cycles (06 R177). -/
def Dev.onTime (d : Dev) (v : VoiceId) : Nat := d.pwmPeriod v * d.dutyNow v / 65535

/-- The phase of a unit's grid in cycles: Φ of 06 R179, the even member's in a gang. -/
def Dev.gridPhase (d : Dev) (v : VoiceId) : Nat :=
  let h := d.headOf v
  let phi := if d.vfld h 9 24 1 = 1 then 16 * ((5 * h.val) % 16) else d.vfld h 9 16 8
  (roundDiv ((d.pwmPeriod h * phi : Nat) : Int) 256).toNat

/-- Cycles from now to the next period start of the unit's grid; 0 at a period start (06 R179). -/
def Dev.toGrid (d : Dev) (v : VoiceId) : Nat :=
  let p : Int := (max 1 (d.pwmPeriod v) : Nat)
  ((d.gridPhase v - d.time.tbc / 8) % p).toNat

/-! ### Turn-on -/

/-- A duration in ticks under the cold variant: multiplied by COLD_TX/16 and rounded up to a whole control clock cycle
(06 R189). -/
def coldTicks (cold : Bool) (tx ticks : Nat) : Nat := if cold then (ticks * tx + 127) / 128 * 8 else ticks

/-- m_J, the voice's part of the tessitura margin in K (13 R361). -/
def Dev.tDriven (d : Dev) (v : VoiceId) : Nat :=
  let x := d.voice v
  x.therm.driven + match x.drivenFrom with
    | some t => d.now - max t x.therm.anchoredAt
    | none => if x.clamp.isSome then d.now - max x.idleSince x.therm.anchoredAt else 0

/-- The interval is stale: driven, and no conversion of IS for 100 µs (13 R358). -/
def Dev.stale (d : Dev) (v : VoiceId) : Bool := (d.voice v).driven && decide ((d.voice v).therm.convertedAt + 100 * usec ≤ d.now)

/-- The margin is at its cap: the interval is stale, or was when the drive ended, and no conversion of IS has come since
(13 R358). -/
def Dev.capped (d : Dev) (v : VoiceId) : Bool :=
  d.stale v || decide ((d.voice v).therm.convertedAt + 100 * usec ≤ (d.voice v).offAt)

/-- m_Z in K (13 R361). -/
def Zone.margin (z : Zone) : Rat :=
  match z.st with
  | .interpolated => if z.alone then 6 else 3
  | _ => 1

def ratMax (a b : Rat) : Rat := if a ≤ b then b else a
def ratMin (a b : Rat) : Rat := if a ≤ b then a else b

/-- The tessitura margin of a voice in K (13 R361). -/
def Dev.margin (d : Dev) (v : VoiceId) : Rat :=
  let x := d.voice v
  let z := d.therm.zones.get (zoneOf v)
  let mj := if d.capped v then 25
    else ratMin (x.therm.ma + (d.tDriven v : Rat) / 6000000000 + ratMax 0 (x.therm.tj - z.temp) / 10) 25
  z.margin + mj

/-- The cold decision at a turn-on: T_j − m at or below T_cold (06 R189, 13 R362). -/
def Dev.coldNow (d : Dev) (v : VoiceId) : Bool :=
  decide ((d.voice v).therm.tj - d.margin v ≤ (toSigned 8 (d.fld 0x4000 0 8) : Rat))

/-- The inrush phases of a turn-on that starts now: when each ends, and its limit (06 R182, R187). -/
def Dev.phasePlan (d : Dev) (v : VoiceId) (mode profile : Nat) (cold : Bool) : List (Nat × Nat) :=
  let half := (d.voice v).half
  let tx := d.vfld v 8 0 8
  let dur (o : Nat) : Nat := coldTicks cold tx (d.vfld v o 8 16 * 10 * usec)
  let lim (o : Nat) : Nat := limitHalves half (d.vfld v o 0 8)
  let t := d.now
  match profile with
  | 1 => [(t + dur 2, lim 2)]
  | 2 => [(t + dur 3, lim 3), (t + dur 3 + dur 4, lim 4), (t + dur 3 + dur 4 + dur 5, lim 5)]
  | 3 => [(t + dur 6, lim 1)]
  | 4 => []
  | _ => if mode = 2 then [(t + d.vfld v 0x0B 8 16 * 10 * usec, lim 1)] else []

/-- When the breath span of a turn-on ends (06 R188). -/
def spanOf (profile : Nat) (plan : List (Nat × Nat)) (now rampLen : Nat) : Option Nat :=
  match profile with
  | 0 => none
  | 4 => some (now + min (100 * msec) rampLen)
  | _ => plan.getLast?.map (·.1)

/-- The LH transitions of a voice inside the last 1 s (02 R55). -/
def Dev.lhRecent (d : Dev) (v : VoiceId) : List Nat :=
  (d.voice v).transitions.filter fun t => d.now < t + 1000 * msec

/-- One voice's turn-on in this slot (06 R174): its profile, phases, first pulse and span begin; a retry counts
(07 R206), and a turn-on that its LH input asked for is a transition (02 R55). `tokens` tells that the unit's tokens are
held for the span. Each member of a gang takes its own cold decision: DESIGN CHOICE, log entry 125. -/
def Dev.begin1 (d : Dev) (v : VoiceId) (w : Wait) (tokens : Bool) : Dev :=
  let x := d.voice v
  let h := d.headOf v
  let mode := d.vfld v 0 0 4
  let cold := d.coldNow v
  let plan := d.phasePlan v mode w.profile cold
  let rampLen := coldTicks cold (d.vfld v 8 0 8) (d.vfld v 7 0 16 * msec)
  let target := d.vfld h 0x0A 0 16
  let dr := if w.profile = 4 then some (d.vfld v 7 16 16, d.now, rampLen) else none
  let pulsed := mode = 1 || mode = 3
  let x1 : Voice := { x with
    st := .ramping, gate := true, ramp := .running (d.now + tGR v), rampUse := .turnOn, wait := none
    profile := w.profile, cold := cold, plan := plan, onAt := d.now, edgeAt := d.now, rampUntil := d.now, driveMode := mode
    desatAt := if w.profile = 3 then none else some (d.now + 40 * usec)
    target := if mode = 2 then d.peakTarget v else 0, clampedNow := false
    transitions := if w.source = .level then d.now :: d.lhRecent v else x.transitions
    limit := (plan.head?.map (·.2)).getD (d.ilim v), duty := target, dutyRamp := dr
    drivenSince := some d.now, drivenFrom := some d.now, scored := 0, retryAt := none, retryReady := false
    offEdge := none, firstPulse := false, clampedChops := 0, sampled := false, muteKept := d.wave.muted?
    spanEnd := if tokens && v = h then spanOf w.profile plan d.now rampLen else none
    retry := if w.source = .retry then stick 8 (x.retry + 1) else x.retry
    life := { x.life with sessionCycles := x.life.sessionCycles + 1 }
    therm := { x.therm with restSince := none, quiet := none }
    lead := { x.lead with
      search := if mode = 2 && v = h then some { opening := true, t0 := d.now, top := none, low := none } else none } }
  let d1 := (d.modVoice v fun _ => x1).lifetimeMax v
  if pulsed then
    let on := d1.onTime v
    if on < tMin v then d1.modVoice v fun y => { y.gateFall d.now with rampUntil := d.now + tGR v }
    else if d1.pwmPeriod v ≤ on then d1
    else d1.modVoice v fun y => { y with offEdge := some (d.now + 8 * on), firstPulse := true }
  else d1

/-- The unit turns on now; a turn-on with profile NONE holds no token (06 R188). -/
def Dev.beginUnit (d : Dev) (v : VoiceId) (w : Wait) : Dev :=
  let d0 := if w.profile = 0 then d.returnTokens v else d
  let tokens := (d0.voice v).token
  d0.forVoices (d0.unitOf v) fun d m => d.begin1 m w tokens

/-- The priority of a turn-on that no chorus cue asks for: the lowest PRIO of the choruses that hold the voice, either
member of a gang, or 8 (10 R296). -/
def Dev.prioOf (d : Dev) (v : VoiceId) : Nat :=
  let ps := (List.range 64).filterMap fun c =>
    let m := (d.unitOf v).any fun u =>
      if u.val < 32 then bit (d.word (0x2000 + c)) u.val else bit (d.word (0x2040 + c)) (u.val - 32)
    if m then some (d.fld (0x2040 + c) 16 4) else none
  match ps with
  | [] => 8
  | p :: rest => rest.foldl min p

/-- A turn-on is asked for the unit of `v`: absorbed where the unit is driven or waits already (10 R298). -/
def Dev.ask (d : Dev) (v : VoiceId) (source : TurnOnSource) (profile prio : Nat) : Dev :=
  let h := d.headOf v
  if d.unitDriven h then d
  else if (d.voice h).wait.isSome then   -- the last ON-type action of a slot supplies the profile (10 R292)
    d.modVoice h fun x => { x with wait := x.wait.map fun w => if w.since = d.now then { w with profile := profile } else w }
  else
    let held := d.bankHeld (bankOf h)
    let w : Wait := { source := source, stage := if held then .bank else .fresh, prio := prio, profile := profile,
                      deadline := none, free := false, since := d.now }
    d.modVoice h fun x => { x with wait := some w }

/-! ### Grants: step 8 of a slot (08 R238, 10 R296, 06 R173) -/

/-- Device breath tokens held. -/
def Dev.tokensHeld (d : Dev) : Nat := d.voices.count (·.token)

/-- The device breath tokens free (05 R139). -/
def Dev.breathFree (d : Dev) : Nat := d.fld 0x2080 0 8 - d.tokensHeld

/-- A turn-on also needs a token of the chain breath domain (10 R295). -/
def Dev.needsDomain (d : Dev) : Bool :=
  (d.ctl.mode = .conducted || d.ctl.mode = .fallback) && d.fld 0x2080 8 8 != 0 &&
    (d.chain.enumerated || d.chain.addr.isSome) && !d.chain.linkTimeout

/-- The chain domain the device stands in; 0 outside every domain (16 R477, R480). -/
def Dev.domain (d : Dev) : Nat :=
  if (d.chain.enumerated || d.chain.addr.isSome) && !d.chain.linkTimeout then d.fld 0x2080 8 8 else 0

/-- A device that has left its domain gives the tokens in hand back (16 R480). -/
def Dev.syncDomain (d : Dev) : Dev :=
  if d.chain.handDomain = d.domain then d
  else
    let d1 := d.returnDomain d.chain.handDomain d.chain.hand
    { d1 with chain := { d1.chain with hand := 0, handDomain := d.domain } }

/-- The voices in a set of wait stages in arbitration order: priority, then voice number (10 R296). -/
def ranked (p : VoiceId → Option Nat) : List VoiceId :=
  (List.range 16).flatMap fun prio => (idx 48).filter fun v => p v == some prio

/-- A sound check holds the voice's turn-on: one that runs on the unit, or a tripping check still queued for a voice
that VOICE_CLEAR_FAULT left OFF (07 R214, 05 R154). -/
def Dev.checkHolds (d : Dev) (v : VoiceId) : Bool :=
  (match d.sc.running with
   | some r => (d.unitOf v).contains r.voice
   | none => false) || (d.unitOf v).any fun m => (d.voice m).checks.trip.isSome

/-- The waits whose tokens are taken go on to the ramp, or to the sound-check hold, which counts (07 R214). -/
def Dev.granted (d : Dev) (v : VoiceId) (w : Wait) : Dev :=
  if d.checkHolds v then
    { d.modVoice v (fun x => { x with wait := some { w with stage := .check } }) with
      sc := { d.sc with delayed := stick 16 (d.sc.delayed + 1) } }
  else d.modVoice v fun x => { x with wait := some { w with stage := .ramp } }

/-- One ranked turn-on takes its tokens or is deferred; a cue's or VOICE_SET's deferral begins its deadline
(10 R296, R297). -/
def Dev.grant1 (d : Dev) (v : VoiceId) : Dev :=
  match (d.voice v).wait with
  | none => d
  | some w =>
    if w.profile = 0 || w.free then d.granted v w
    else
      let domain := d.needsDomain
      if 0 < d.breathFree && (!domain || 0 < d.chain.hand) then
        let d1 := d.modVoice v fun x => { x with token := true, domainToken := if domain then some d.chain.handDomain else none }
        let d2 := if domain then { d1 with chain := { d1.chain with hand := d1.chain.hand - 1 } } else d1
        d2.granted v w
      else if w.stage = .fresh then
        let dl := match w.source with
          | .cue _ => some (d.now + d.fld 0x2081 0 16 * 10 * usec)
          | .voiceSet => some (d.now + d.fld 0x2081 0 16 * 10 * usec)
          | _ => none
        d.modVoice v fun x => { x with wait := some { w with stage := .deferred, deadline := dl } }
      else d

/-- Gate ramps that run (06 R173). -/
def Dev.rampsRunning (d : Dev) : Nat :=
  d.voices.count fun v => match v.ramp with
    | .running _ => true
    | _ => false

/-- A ramp that waits: a turn-on's, at its priority, or a held edge, raising or blip. -/
def Dev.rampPrio (d : Dev) (v : VoiceId) : Option Nat :=
  match (d.voice v).wait with
  | some w => if w.stage = .ramp then some w.prio else none
  | none => match (d.voice v).ramp with
    | .held p => some p
    | _ => none

/-- A held ramp of a driven voice starts: the gate rises; a PWM edge has its energy (13 R356). The two members of a gang
start theirs one by one as places come free: DESIGN CHOICE, log entry 126. -/
def Dev.raiseGate (d : Dev) (v : VoiceId) : Dev :=
  let d1 := if (d.voice v).rampUse = .edge then d.edgeEnergy v else d
  d1.modVoice v fun x => { x.gateRise d.now with edgeAt := d.now, ramp := .running (d.now + tGR v) }

/-- One ranked ramp starts while at most 12 would run; the first that does not fit holds those behind it, but a turn-on
whose first pulse is not made takes none (06 R180). A check that has begun meanwhile holds the turn-on (07 R214). -/
def Dev.startRamp (acc : Dev × Bool) (v : VoiceId) : Dev × Bool :=
  let (d, blocked) := acc
  match (d.voice v).wait with
  | some w =>
    let d1 := d.beginUnit v w
    if d.checkHolds v then (d.granted v w, blocked)
    else if d1.rampsRunning = d.rampsRunning then (d1, blocked)
    else if !blocked && d1.rampsRunning ≤ 12 then (d1, false) else (d, true)
  | none =>
    let d1 := d.raiseGate v
    if !blocked && d1.rampsRunning ≤ 12 then (d1, false) else (d, true)

/-- Step 8 of a slot: breath grants in arbitration order, then gate-ramp starts (08 R238). Nothing starts while the power die
ignores gate commands (01 R26). -/
def Dev.grants (d : Dev) : Dev :=
  let asks := ranked fun v => match (d.voice v).wait with
    | some w => if w.stage = .fresh || w.stage = .deferred then some w.prio else none
    | none => none
  let d1 := d.syncDomain.forVoices asks Dev.grant1
  if d.ka.held then d else ((ranked d1.rampPrio).foldl Dev.startRamp (d1, false)).1

/-! ### Actions on voices (10 R292, 05 R152, 07 R208) -/

/-- A member of the unit is in state `st`: a gang formed of unlike members may hold two fault states (06 R192). -/
def Dev.unitIn (d : Dev) (v : VoiceId) (st : VState) : Bool := (d.unitOf v).any fun m => (d.voice m).st == st

/-- The pending retry of a unit is cancelled: OFF, with its retry counter (05 R152, 07 R208). -/
def Dev.endRetry (d : Dev) (v : VoiceId) : Dev :=
  d.forVoices (d.unitOf v) fun d m => d.modVoice m fun y =>
    { y with st := if y.st = .retryWait then .off else y.st, retryAt := none, retryReady := false }

/-- An OFF asked of a voice, whatever issues it: the commanded state becomes OFF; a fault state takes it as 07 R208
gives; a wait is withdrawn, counting a NULL_PULSE where the ON came in this slot; a driven voice turns off at the end
of the slot. -/
def Dev.askOff (d : Dev) (v : VoiceId) : Dev :=
  d.forVoices [d.headOf v] fun d h =>
    let x := d.voice h
    let d1 := d.forVoices (d.unitOf h) fun d m => d.modVoice m fun y => { y with cmd := false }
    match x.wait with
    | some w =>
      let d2 := d1.withdraw h
      if w.since = d.now && w.source != .retry then
        { d2 with cues := { d2.cues with nullPulse := stick 16 (d2.cues.nullPulse + 1) } }
      else if d2.unitIn h .retryWait then d2.endRetry h
      else d2
    | none =>
      let d2 := if d1.unitIn h .retryWait then d1.endRetry h else d1
      if d2.unitIn h .tripped || d2.unitIn h .checking then
        d2.modVoice h fun y => { y with checks := { y.checks with offAsked := true } }
      else if d2.unitDriven h then { d2 with slotOffs := d2.slotOffs ||| maskOf (fun m => m = h) }
      else d2

/-- An ON asked of a voice (08 R233): refused by a fault state it still sets the commanded state; refused by another
level it changes nothing; otherwise it takes back an OFF of this slot, or asks for a turn-on. On a half-voice that stands
with its gate off in a gap a new turn-on begins or waits, which ends the drive (05 R152; DESIGN CHOICE, log entry 169). -/
def Dev.askOn (d : Dev) (v : VoiceId) (source : TurnOnSource) (profile prio : Nat) : Dev :=
  let h := d.headOf v
  let setCmd (d : Dev) : Dev := d.forVoices (d.unitOf h) fun d m => d.modVoice m fun y => { y with cmd := true }
  let keep (d : Dev) : Dev := { d with slotOffs := d.slotOffs &&& ~~~ maskOf (fun m => m = h) }
  if d.unitOn h then setCmd (keep d)
  else match d.bar h with
    | .none => (keep ((setCmd d).forVoices (d.unitOf h) fun d m => d.turnOff m .forced)).ask h source profile prio
    | .fault => setCmd d
    | .other => d

/-! ### Blips (13 R378, R379) -/

/-- The next queued blip starts when none runs: a voice no longer driven is passed over; a bank hold keeps it waiting
(17 R492); a gate that is off rises by a ramp. -/
def Dev.blipNext : List VoiceId → Dev → Dev
  | [], d => d
  | v :: rest, d =>
    match d.therm.blip with
    | some _ => d
    | none =>
      let x := d.voice v
      if !x.driven then Dev.blipNext rest { d with therm := { d.therm with blips := rest } }
      else if d.bankHeld (bankOf v) || d.ka.held then d
      else
        let d0 := d.forVoices (d.unitOf v) fun d m => d.modVoice m fun y => { y with therm := { y.therm with blipWin := (0, 0, 0) } }
        let d1 := { d0 with therm := { d0.therm with blips := rest, blip := some (v, if x.gate then some (d.now + 50 * usec) else none) } }
        if x.gate then d1
        else d1.forVoices (d1.unitOf v) fun d m => d.modVoice m fun y => { y with ramp := .held 8, rampUse := .blip }

/-! ### Level sources and retries: what each slot asks anew (08 R233, R237) -/

/-- The input that commands a voice as a level source in the present mode (08 R232, R243, 02 R49). -/
def Dev.levelInput (d : Dev) (v : VoiceId) : Option (Fin 8) :=
  let sel : Fin 8 := ⟨d.vfld v 0 16 3 % 8, Nat.mod_lt _ (by decide)⟩
  let bound := d.vfld v 0 19 1 = 1
  match d.ctl.mode with
  | .acappella => some (zoneOf v)
  | .conducted => if bound then some sel else none
  | .fallback => if bound || (d.voice v).fallbackLh then some sel else none
  | _ => none

/-- The window of 02 R55 is full: LH_RATE transitions in 1 s (08 R235). -/
def Dev.lhFull (d : Dev) (v : VoiceId) : Bool := d.fld 1 8 8 ≤ (d.lhRecent v).length

/-- A unit turns off at the end of the slot; where its input's inactive level asked for that, it is an LH transition, which
the window counts (02 R55). -/
def Dev.lhMove (d : Dev) (v : VoiceId) : Dev :=
  match d.levelInput v with
  | some i => if (d.lh.get i).level || (d.voice v).withheld.isSome then d
    else d.modVoice v fun x => { x with transitions := d.now :: d.lhRecent v }
  | none => d

/-- A change is withheld since the first slot that withheld it (02 R55, R56). -/
def Dev.lhWithhold (d : Dev) (v : VoiceId) : Dev :=
  d.modVoice v fun x => { x with withheld := some (x.withheld.getD d.now) }

/-- A voice under a level source follows its input's debounced level in this slot (02 R55, R57, 08 R233, R235). A turn-on
or turn-off counts in the window when the voice makes it. -/
def Dev.followLevel (d : Dev) (v : VoiceId) : Dev :=
  match d.levelInput v with
  | none => d
  | some i =>
    let want := (d.lh.get i).level
    let x := d.voice v
    let on := d.unitDriven v
    let calm (d : Dev) : Dev := d.modVoice v fun x => { x with withheld := none }
    if want then
      if on || x.wait.isSome then
        calm (({ d with slotOffs := d.slotOffs &&& ~~~ maskOf (fun m => m = v) }).forVoices (d.unitOf v) fun d m =>
          d.modVoice m fun y => { y with cmd := true })
      else match d.bar v with
        | .none => if d.lhFull v then d.lhWithhold v else (calm d).askOn v .level (d.vfld v 0 4 4) (d.prioOf v)
        | .fault => calm (d.askOn v .level (d.vfld v 0 4 4) (d.prioOf v))
        | .other => calm d
    else if on then
      if inMask d.slotOffs v then calm d
      else if d.lhFull v then d.lhWithhold v else (calm d).askOff v
    else if x.cmd || x.wait.isSome then calm (d.askOff v)
    else calm d

/-- No level but the fault state itself keeps a voice off (07 R207). -/
def Dev.retryFree (d : Dev) (v : VoiceId) : Bool :=
  let d1 := d.forVoices (d.unitOf v) fun d m => d.modVoice m fun x => if x.st = .retryWait then { x with st := .off } else x
  d1.bar v == .none

/-- A retry that has fallen due turns on once no bar is left and the voice is commanded ON (07 R207). -/
def Dev.followRetry (d : Dev) (v : VoiceId) : Dev :=
  let x := d.voice v
  if x.retryReady && x.cmd && x.wait.isNone && d.unitIn v .retryWait && d.retryFree v then d.ask v .retry (d.vfld v 0 4 4) (d.prioOf v)
  else d

/-- Each unit, by its head. -/
def Dev.unitHeads (d : Dev) : List VoiceId := (idx 48).filter fun v => d.headOf v == v

/-- What level sources ask in this slot (08 R238 step 5). -/
def Dev.followLevels (d : Dev) : Dev := d.forVoices d.unitHeads Dev.followLevel

/-- The retries that fall due or whose bar has lifted (08 R238 step 7). -/
def Dev.followRetries (d : Dev) : Dev := d.forVoices d.unitHeads Dev.followRetry

end Sys2Proof.Machine
end

