-- ==== Sys2Proof/Machine/Cues.lean ====
section
/-! DEFINITION. The odometer's value, the leads, and the cues: how an entry finds its slot and acts (10). -/

namespace Sys2Proof.Machine
open Sys2Proof

/-- A value in a coarser unit: exact where it is whole, otherwise one of its two neighbours, which the spec leaves
open (log entry 10). -/
def report (r : Rat) : Int := if r.den = 1 then r.num else r.floor + (if Config.roundUp r then 1 else 0)

/-- An unsigned field of `w` bits that saturates. -/
def sat (w : Nat) (i : Int) : Nat := min i.toNat (2 ^ w - 1)

/-! ### The odometer's value (10 R284, R285) -/

/-- RATIO (04 R123). -/
def Dev.ratio (d : Dev) : Nat := (d.word 0x4801).toNat

/-- U of the source in 1/65,536 odometer unit (10 R284). -/
def Dev.odoU (d : Dev) (src : GroundSource) : Int :=
  match src with
  | .secondary => (d.ratio * 1024 : Nat)
  | _ => 67108864

/-- The odometer in 1/65,536 unit at this slot (10 R284, R285): interpolated while running, and never below the value it
held. -/
def Dev.odoValue (d : Dev) : Int :=
  match d.odo.st with
  | .running =>
    let u := d.odoU d.odo.source
    let v := match d.odo.last, d.odo.period with
      | some t, some p => d.odo.base + min (u * (d.time.tbc - t) / max p 1) (u - 1)
      | _, _ => d.odo.base
    max v d.odo.floor
  | _ => d.odo.floor

/-- The odometer in 1/1024 pulse, reported by truncation (10 R284). -/
def Dev.odoUnits (d : Dev) : Int := d.odoValue / 65536

/-! ### Leads (10 R287, R288, R291) -/

/-- A measurement put in its place among sorted ones. -/
def insertSorted (a : Int) : List Int → List Int
  | [] => [a]
  | b :: bs => if a ≤ b then a :: b :: bs else b :: insertSorted a bs

/-- The median of held measurements: of an even number the mean of the middle two, truncated to a tick (10 R291). -/
def median (l : List Int) : Int :=
  let s := l.foldr insertSorted []
  let n := s.length
  if n % 2 = 1 then s.getD (n / 2) 0 else (s.getD (n / 2 - 1) 0 + s.getD (n / 2) 0) / 2

/-- The opening or closing lead of a voice in ticks: the median, or the seed while none is held and on a voice that is not
PEAK_HOLD (10 R287); a gang's is the even member's (10 R280). -/
def Dev.leadOf (d : Dev) (v : VoiceId) (opening : Bool) : Int :=
  let h := d.headOf v
  let held := if d.vfld h 0 0 4 != 2 then [] else if opening then (d.voice h).lead.opens else (d.voice h).lead.closes
  if held.isEmpty then (d.vfld h 0x13 (if opening then 0 else 16) 16 * 10 * usec : Nat) else median held

/-- A lead in odometer units, with U and P_cur of the last 10 µs evaluation; 0 while no period is known (10 R288). -/
def Dev.leadUnits (d : Dev) (lead : Int) : Int :=
  match d.odo.lead, d.odo.period, d.odo.st with
  | some (u, cur), some _, .running => roundDiv (lead * u) (65536 * cur)
  | _, _, _ => 0

/-- U and P_cur at the instant `g` ticks ago (10 R288). -/
def Dev.leadBase (d : Dev) (g : Nat) : Option (Int × Int) :=
  match d.odo.last, d.odo.period, d.odo.st with
  | some t, some p, .running => some (d.odoU d.odo.source, max (max p (d.time.tbc - g - t)) 1)
  | _, _, _ => none

/-- The counters that a packet can clear: OVERRUN, DROPS and TRIG_OVERRUN of each engine, OVERFLOW, GLITCH and ORPHAN of each
tally input from place 12, the cue counters from 36, those of the wave port from 42, of the chain from 48 (21 R556). -/
def Dev.counts (d : Dev) : List Nat :=
  (d.conv.engines.list.flatMap fun x => [x.overrun, x.drops, x.trigOverrun]) ++
  (d.tally.list.flatMap fun x => [x.overflow, x.glitch, x.orphan]) ++
  [d.cues.nullPulse, d.cues.cueLate, d.cues.rampAbort, d.cues.behind, d.cues.mustFired, d.cues.dropped] ++
  [d.wave.losses, d.wave.frameErr, d.wave.parityErr, d.wave.vSkipped, d.wave.csErr, d.wave.realign] ++
  [d.chain.barLost, d.chain.upDropped] ++ d.chain.ports.list.flatMap fun x => [x.crcErr, x.missing]

/-- What a cleared counter holds: what it has counted in the slot of the clear (21 R557). -/
def Dev.sinceSlot (d : Dev) (place now : Nat) : Nat := now - d.found.getD place 0

/-- A slot begins: leads are evaluated every 10 µs (10 R281), on a grid from power-on (DESIGN CHOICE, log entry 42), and
the odometer of the slot before is kept for the judgement of R282. -/
def Dev.newSlot (d : Dev) : Dev :=
  let past := d.now % (10 * usec)
  let due := decide (d.odo.leadAt < d.now - past)
  { d with
    port := { d.port with lostNow := false, newsNow := false }
    found := d.counts
    odo := { d.odo with
      before := { d with time := { d.time with tbc := d.time.tbc - 8 } }.odoUnits
      lead := if due then d.leadBase past else d.odo.lead
      leadAt := if due then d.now - past else d.odo.leadAt } }

/-! ### Duty (05 R153, 10 R277) -/

/-- The running duty of a unit becomes `duty`; a DUTY_RAMP runs on to it from its present duty over its remaining time
(05 R153). -/
def Dev.applyDuty (d : Dev) (v : VoiceId) (duty : Nat) : Dev :=
  d.forVoices (d.unitOf v) fun d m => d.modVoice m fun x => { x with
    duty := duty
    dutyRamp := match x.dutyRamp with
      | some (d0, t0, len) => if d.now < t0 + len then some (rampDuty d0 x.duty t0 len d.now, d.now, t0 + len - d.now) else none
      | none => none }

/-! ### Cues (10 R276 to R283, R293) -/

def Dev.setCues (d : Dev) (f : CueQueue → CueQueue) : Dev := { d with cues := f d.cues }

/-- The voices of chorus `c` now (04 R119). -/
def Dev.chorusMask (d : Dev) (c : Nat) : Mask :=
  BitVec.ofNat 48 ((d.word (0x2000 + c)).toNat + d.fld (0x2040 + c) 0 16 * 2 ^ 32)

/-- The voices an entry names now (10 R280). -/
def Dev.cueMask (d : Dev) (c : Cue) : Mask := if c.chorus then d.chorusMask c.who else maskOf fun v => v.val = c.who

/-- An ON-type action (10 R277). -/
def Cue.isOn (c : Cue) : Bool := c.action = 1 || c.action = 3

/-- The lead by which an entry is advanced on a voice, in ticks (10 R281). -/
def Dev.cueLead (d : Dev) (c : Cue) (v : VoiceId) : Int :=
  if c.noLead || c.action = 2 || d.vfld (d.headOf v) 0 13 1 = 0 then 0 else d.leadOf v c.isOn

/-- A distance entry is held: the odometer is frozen or unavailable (10 R286). -/
def Dev.cueHeld (d : Dev) (c : Cue) : Bool := c.basis = 1 && (d.odo.st = .frozen || d.odo.st = .unavailable)

/-- The entry's fire point on a voice: a TBC, or an odometer value (10 R281). -/
def Dev.firePoint (d : Dev) (c : Cue) (v : VoiceId) : Int :=
  if c.basis = 0 then c.target - d.cueLead c v
  else if c.basis = 1 then c.target - d.leadUnits (d.cueLead c v)
  else c.target

/-- Where the entry's basis stands now. -/
def Dev.cuePos (d : Dev) (c : Cue) : Int := if c.basis = 1 then d.odoUnits else d.time.tbc

/-- The Score time base has failed and the loss is not yet detected, or its detection falls in this slot (09 R255, R256). -/
def Dev.lossNow (d : Dev) : Bool :=
  (d.time.phase = .switching && d.time.lostAt = d.now) || (d.time.phase = .score && !(d.score.powered && d.score.tb = .locked))

/-- The entry has reached a point (10 R281). One whose target falls between the loss of the Score time base and its detection,
after the last TBC word that matched, waits for the first slot after the detection (09 R256). -/
def Dev.reached (d : Dev) (c : Cue) (point : Int) : Bool :=
  match c.basis with
  | 2 => true
  | 3 => d.chain.beat && decide (point ≤ d.time.tbc)
  | _ => !d.cueHeld c && (if d.lossNow then c.basis = 0 && decide (point ≤ d.time.lastWord) else decide (point ≤ d.cuePos c))

/-- Where the entry's basis stood one slot ago. -/
def Dev.cueWas (d : Dev) (c : Cue) : Int := if c.basis = 1 then d.odo.before else d.time.tbc - 8

/-- The fire point of a voice was already reached when the entry was queued, or has been overtaken by a change of lead or
speed: it lies where the basis stood one slot ago, when the entry named the voice already (10 R282). -/
def Dev.isBehind (d : Dev) (c : Cue) (v : VoiceId) : Bool :=
  (c.basis = 0 || c.basis = 1) && !(d.time.phase = .switching && d.time.lostAt + 8 = d.now) && (!c.seen || (inMask c.named v && decide (d.firePoint c v ≤ d.cueWas c)))

/-- The pending entry with an ID. -/
def Dev.findCue (d : Dev) (id : Word) : Option Cue := d.cues.queue.find? fun c => c.id = id

/-- The pending entry with an ID changed by `f`. -/
def Dev.modCue (d : Dev) (id : Word) (f : Cue → Cue) : Dev :=
  d.setCues fun q => { q with queue := q.queue.map fun c => if c.id = id then f c else c }

def Cue.mark (v : VoiceId) (c : Cue) : Cue := { c with acted := c.acted ||| maskOf fun u => u = v }

/-- The other half of a pair, for the voice: an ON whose OFF is pending, or the ON of an OFF that has not acted. An entry that
is spent pairs with no voice any more. -/
def Dev.pairOf (d : Dev) (c : Cue) (v : VoiceId) : Option Cue :=
  match c.partner with
  | some p => match d.findCue p with
    | some q => if inMask q.acted v || q.spent then none else some q
    | none => none
  | none => if c.isOn then d.cues.queue.find? fun q => q.partner = some c.id && !inMask q.acted v && !q.spent else none

/-- The pair is null on a voice: its OFF's fire point is reached no later than its ON's (10 R293). -/
def Dev.pairNull (d : Dev) (c : Cue) (v : VoiceId) : Option Cue :=
  match d.pairOf c v with
  | some q => if c.isOn then (if d.reached q (d.firePoint q v) then some q else none) else some q
  | none => none

/-- What an entry does to a voice that it reaches (10 R277, R292). -/
def Dev.cueAct (d : Dev) (c : Cue) (v : VoiceId) : Dev :=
  match c.action with
  | 0 => d.askOff v
  | 2 => if d.unitDriven v && (d.voice v).driveMode = 1 then d.applyDuty v c.arg else d
  | _ =>
    let live := d.vfld v 0 4 4
    let profile := if c.action = 3 && profileRuns c.arg (d.vfld v 0 0 4) then c.arg else live
    let prio := if c.chorus then d.fld (0x2040 + c.who) 16 4 else d.prioOf v
    d.askOn v (.cue c.id) profile prio

/-- An entry meets one voice once its fire point, or the entry's own target, is reached: it is skipped where RETIRED or
bound to an input (08 R234), else it acts (10 R280). -/
def Dev.cueVoice (id : Word) (due : Bool) (d : Dev) (v : VoiceId) : Dev :=
  match d.findCue id with
  | none => d
  | some c =>
    if inMask c.acted v || !(due || d.reached c (d.firePoint c v)) then d
    else if (d.voice v).st = .retired || (d.levelInput v).isSome then d.modCue id (Cue.mark v)
    else
      let d1 := d.modCue id (Cue.mark v)
      match d.pairNull c v with
      | some q => (d1.modCue q.id (Cue.mark v)).setCues fun k => { k with nullPulse := stick 16 (k.nullPulse + 1) }
      | none =>
        let d2 := if d.isBehind c v then d1.setCues fun k => { k with behind := stick 16 (k.behind + 1) } else d1
        d2.cueAct c v

/-- One entry in this slot (10 R280, R281): its voices in ascending order. A voice entry is spent once its voice has acted or
been skipped; a chorus entry, which voices may join until then, at its target, as in the worked example of chapter 10
(DEDUCED, log entry 135). -/
def Dev.cueEntry (d : Dev) (id : Word) : Dev :=
  match d.findCue id with
  | none => d
  | some c =>
    if c.spent then d
    else
      let due := d.reached c c.target
      let vs := d.heads (d.cueMask c)
      let d1 := vs.foldl (Dev.cueVoice id due) d
      d1.modCue id fun c => { c with seen := true, named := maskOf vs.contains, spent := due || (!c.chorus && vs.all (inMask c.acted)) }

/-- The entries of a slot in submission order (08 R238 step 6). -/
def Dev.cueSlot (d : Dev) (p : Cue → Bool) : Dev := ((d.cues.queue.filter p).map (·.id)).foldl Dev.cueEntry d

/-- The TIME, DISTANCE and DOWNBEAT entries of this slot; IMMEDIATE entries have acted with their packet (10 R283). -/
def Dev.cuesNow (d : Dev) : Dev := d.cueSlot fun c => c.basis ≠ 2

/-- A turn-on of the entry waits for breath (05 R161). -/
def Dev.cueDeferred (d : Dev) (id : Word) : Bool := d.voices.any fun x => match x.wait with
  | some w => w.source == .cue id && w.stage == .deferred
  | none => false

/-- Spent entries none of whose turn-ons waits for breath complete and free their places (10 R279, R296). -/
def Dev.completeCues (d : Dev) : Dev :=
  d.setCues fun q => { q with queue := q.queue.filter fun c => !(c.spent && !d.cueDeferred c.id) }

/-- The entry can still be cancelled: it has not spent itself, or a turn-on of it waits (05 R160). -/
def Dev.cuePending (d : Dev) (c : Cue) : Bool := !c.spent || d.voices.any fun x => match x.wait with
  | some w => w.source == .cue c.id
  | none => false

/-- Every pending cue is cancelled (08 R241). -/
def Dev.cancelCues (d : Dev) : Dev := d.setCues fun q => { q with queue := [] }

end Sys2Proof.Machine
end

