-- ==== Sys2Proof/Machine/Edges.lean ====
section
/-! DEFINITION. The edges of the tally inputs on the control die: rates, FIFOs, width capture, the odometer and the moves
of its ground source (09 R264 to R274, 10 R284 to R286). -/

namespace Sys2Proof.Machine
open Sys2Proof

/-- The tally input `i` changed by `f`. -/
def Dev.modTally (d : Dev) (i : Fin 8) (f : TallyInput → TallyInput) : Dev := { d with tally := d.tally.modify i f }

/-- The TALLY word of an input (04 R123). -/
def tallyWord (i : Fin 8) : Nat := 0x4808 + i.val
def Dev.stuckTime (d : Dev) (i : Fin 8) : Nat := d.fld (tallyWord i) 16 8 * 100 * msec
def Dev.tsEn (d : Dev) (i : Fin 8) : Bool := d.fld (tallyWord i) 2 1 = 1
def Dev.widthEn (d : Dev) (i : Fin 8) : Bool := d.fld (tallyWord i) 1 1 = 1
/-- The counting polarity: EDGE 0 counts rising edges. -/
def Dev.countsRising (d : Dev) (i : Fin 8) : Bool := d.fld (tallyWord i) 0 1 = 0

/-- The GROUND word (04 R123). -/
def Dev.primary (d : Dev) : Fin 8 := ⟨d.fld 0x4800 0 3 % 8, Nat.mod_lt _ (by decide)⟩
def Dev.secondary (d : Dev) : Fin 8 := ⟨d.fld 0x4800 3 3 % 8, Nat.mod_lt _ (by decide)⟩
def Dev.secEn (d : Dev) : Bool := d.fld 0x4800 7 1 = 1
def Dev.stopTimeout (d : Dev) : Nat := d.fld 0x4800 8 8 * 10 * msec
def Dev.plausTime (d : Dev) : Nat := d.fld 0x4800 24 8 * 100 * msec

/-- Ticks since the last counting edge of an input; since control boot where it has had none. -/
def Dev.sinceEdge (d : Dev) (i : Fin 8) : Int :=
  match (d.tally.get i).edgeAt with
  | some t => d.time.tbc - t
  | none => (d.now - d.ctl.bootAt : Nat)

/-- The rate of an input in pulses per second (09 R268); 0 while VMET is absent or the Score is silent (R269). -/
def Dev.rate (d : Dev) (i : Fin 8) : Rat :=
  let x := d.tally.get i
  match x.period with
  | some p => if x.stuck || d.ctl.scoreSilent || !d.score.powered then 0 else 3000000000 / ((max p (d.sinceEdge i) : Int) : Rat)
  | none => 0

/-! ### The odometer -/

/-- The input of the source in use. -/
def Dev.odoInput (d : Dev) : Nat :=
  match d.odo.source with
  | .secondary => d.secondary.val
  | _ => d.primary.val

/-- The odometer becomes unavailable and holds its value (10 R285). -/
def Dev.odoLose (d : Dev) : Dev :=
  { d with odo := { d.odo with floor := d.odoValue, st := .unavailable } }

/-- A cause of unavailability ends: with no other, the odometer is frozen, or has no pulse yet, and counts on from the value
it holds (10 R285). -/
def Dev.odoRegain (d : Dev) : Dev :=
  if d.odo.st = .unavailable && !d.odo.groundNone && !d.ctl.scoreSilent then
    { d with odo := { d.odo with base := d.odo.floor, st := if d.odo.pulsed then .frozen else .noPulse, regained := !d.odo.pulsed } }
  else d

/-- A counting edge of the source reaches the odometer: it adds U to B, and the odometer never steps back (10 R284, R285,
09 R272). It is told where it resumes one that was frozen or unavailable. -/
def Dev.odoEdge (d : Dev) (stamp : Int) : Dev :=
  let o := d.odo
  let u := d.odoU o.source
  let done (o : Odometer) : Odometer :=
    if o.switching then { o with switching := false, degraded := o.source == GroundSource.secondary, plausible := none } else o
  match o.st with
  | .running =>
    { d with odo := done { o with
        base := o.base + u, period := o.last.map (fun t => stamp - t), last := some stamp, pulsed := true } }
  | _ =>
    let d1 := { d with odo := done { o with
        base := o.base + u, st := .running, last := some stamp, period := none, pulsed := true, regained := false } }
    if o.st = .noPulse && !o.regained then d1 else d1.event 0x0302 d1.odoInput (leInt 8 d1.odoUnits)

/-- The odometer has no source (09 R271, R274). -/
def Dev.groundNone (d : Dev) (lost : Fin 8) : Dev :=
  let d1 := d.odoLose
  let d2 := { d1 with odo := { d1.odo with
      groundNone := true, source := .none, switching := false, implausible := none, plausible := none } }
  let d3 := { d2 with tally := d2.tally.map fun x => { x with returned := none } }
  d3.event 0x0A0B lost.val []

/-- The odometer moves to another source, held continuous (09 R272). -/
def Dev.groundMove (d : Dev) (src : GroundSource) (i : Fin 8) : Dev :=
  let x := d.tally.get i
  let od := d.odoValue
  let u := d.odoU src
  let base := match x.last, x.period with
    | some t, some p => od - u * (d.time.tbc - t) / max p 1
    | _, _ => od
  let run := d.odo.st = .running
  { d with odo := { d.odo with
      base := if run then base else od, floor := od, source := src, last := x.last
      period := if run then x.period else none, switching := true, implausible := none, plausible := none } }

/-- An input returns after GROUND_NONE at its second counting edge (09 R274). -/
def Dev.groundReturn (d : Dev) (i : Fin 8) (stamp period : Int) : Dev :=
  let src : GroundSource := if i = d.primary then .primary else .secondary
  let v := d.odo.floor + d.odoU src
  let d1 := { d with odo := { d.odo with
      base := v, floor := v, st := .running, source := src, last := some stamp, period := some period, pulsed := true
      groundNone := false, switching := false, degraded := src == GroundSource.secondary, implausible := none, plausible := none } }
  (d1.event 0x0302 i.val (leInt 8 d1.odoUnits)).event 0x0A0A i.val [1]

/-! ### Edges -/

/-- An edge enters the FIFO, or overflows it (09 R265). -/
def Dev.fifoPush (d : Dev) (i : Fin 8) (e : FifoEntry) : Dev :=
  let x := d.tally.get i
  if x.fifo.length < 256 then d.modTally i fun x => { x with fifo := x.fifo ++ [e] }
  else
    let d1 := d.modTally i fun x => { x with overflow := stick 16 (x.overflow + 1), overflowLogged := true }
    if x.overflowLogged then d1 else d1.event 0x0A08 i.val []

/-- The stamp the control die uses: the link's with K and OFFSET added, or its own count less 768 ns on the fallback time base
(09 R258, R263). -/
def Dev.useStamp (d : Dev) (stamp : Int) : Int := if d.time.onFallback then d.time.tbc - 2304 else stamp + d.time.k + d.chain.offset

/-- A counting edge drives the rate, the odometer, and the return after GROUND_NONE (09 R264, R268, R274). -/
def Dev.countingEdge (d : Dev) (i : Fin 8) (stamp : Int) : Dev :=
  let x := d.tally.get i
  let d1 := d.modTally i fun x => { x with period := x.last.map (fun t => stamp - t), last := some stamp, edgeAt := some stamp, stuck := false }
  let d2 := if x.stuck then d1.event 0x0A07 i.val [] else d1
  if d2.odo.groundNone then
    if i = d2.primary || (i = d2.secondary && d2.secEn) then
      if x.stuck then d2.modTally i fun x => { x with returned := none } else   -- an edge that meets STUCK_LEVEL does not qualify
      match x.returned with
      | some t => if stamp - t ≤ d2.stopTimeout then d2.groundReturn i stamp (stamp - t)
                  else d2.modTally i fun x => { x with returned := some stamp }
      | none => d2.modTally i fun x => { x with returned := some stamp }
    else d2
  else if (d2.odo.source = .primary && i = d2.primary) || (d2.odo.source = .secondary && i = d2.secondary) then
    d2.odoEdge stamp
  else d2

/-- One resolved edge on the timestamp link (09 R264 to R267). -/
def Dev.timestampEdge (d : Dev) (i : Fin 8) (rising : Bool) (link : Int) : Dev :=
  let stamp := d.useStamp link
  let counting := rising = d.countsRising i
  let hold := d.score.tb = .holdover || (d.score.tb = .acquiring && d.score.locked)
  let entry : FifoEntry := { tbc := stamp, rising := rising, fallbackTb := d.time.onFallback, holdover := hold }
  let d1 := d.modTally i fun x => { x with level := rising, levelSince := some d.now }
  let d2 := if counting then d1.countingEdge i stamp else d1
  let d3 := if d2.tsEn i && (counting || d2.widthEn i) then d2.fifoPush i entry else d2
  if !d3.widthEn i then d3
  else if counting then d3.modTally i fun x => { x with start := some stamp }
  else d3.modTally i fun x => match x.start with
    | some t => { x with width := stamp - t, start := none }
    | none => { x with orphan := stick 16 (x.orphan + 1) }

/-- Edges that leave out every pair of one input closer than 2 ns by its stamps, and the inputs of the pairs left out
(09 R264). -/
def dropPairs (es : List LinkEdge) : List LinkEdge × List (Fin 8) :=
  es.foldl (fun acc e =>
    match acc.1.reverse.find? fun k => k.input = e.input with
    | some k => if (e.stamp - k.stamp).natAbs < 6 then (acc.1.erase k, acc.2 ++ [e.input]) else (acc.1 ++ [e], acc.2)
    | none => (acc.1 ++ [e], acc.2)) ([], [])

/-- An edge of this slot that an edge of the next could pair with by its stamp waits for it (09 R264; DEDUCED, log entry
152). -/
def LinkEdge.waits (now : Nat) (e : LinkEdge) : Bool := e.at_ = now && 3 ≤ e.stamp % 8

/-- No command comes in the next slot, so that no edge waits for one that does. -/
def Dev.ripeEdges (d : Dev) : Dev := { d with edges := d.edges.map fun e => { e with at_ := e.at_ - 8 } }

/-- Step 4 of 08 R238: the edges that have come are used, those of the primary ground first (09 R274). -/
def Dev.takeEdges (d : Dev) : Dev :=
  let (all_, glitches) := dropPairs d.edges
  let es := all_.filter fun e => !e.waits d.now
  let d1 := glitches.foldl (fun (d : Dev) i => d.modTally i fun x => { x with glitch := stick 16 (x.glitch + 1) })
    { d with edges := all_.filter (LinkEdge.waits d.now) }
  let first := es.filter fun e => e.input = d.primary
  let rest := es.filter fun e => e.input ≠ d.primary
  (first ++ rest).foldl (fun d e => d.timestampEdge e.input e.rising e.stamp) d1

end Sys2Proof.Machine
end

