-- ==== Sys2Proof/Machine/Slot.lean ====
section
/-! DEFINITION. The end of a slot (08 R238), and how every command runs: slots pass, each with its end, and it acts in
the slot that has begun. -/

namespace Sys2Proof.Machine
open Sys2Proof

/-- The bytes of a reply join the upstream stream, behind a reply whose first byte came earlier; a reply that does not fit
into the 16 KiB is lost (16 R474). That loss is a DESIGN CHOICE, log entry 188. -/
def Chain.pushReply (c : Chain) (l : List Byte) : Chain :=
  if 16384 < c.upstream.length + c.ownHeld.length + l.length then c
  else if c.partReply.isEmpty then { c with upstream := c.upstream ++ l }
  else { c with ownHeld := c.ownHeld ++ l }

/-- VOICE_SET replies of the slot learn which turn-ons wait for breath (05 R152), and the replies to packets of the chain
join the upstream stream (16 R474). -/
def Dev.settleReplies (d : Dev) : Dev :=
  let deferred := maskOf fun v => match (d.voice (d.headOf v)).wait with
    | some w => w.stage == .deferred
    | none => false
  let f (r : Reply) : Reply := match r.settle with
    | some (taken, refused) =>
      { r with settle := none, data := maskBytes (taken &&& ~~~ deferred) ++ maskBytes (taken &&& deferred) ++ maskBytes refused }
    | none => r
  { d with
    port := { d.port with replies := d.port.replies.map f }
    chain := ((d.chain.replies.map f).map Reply.bytes).foldl Chain.pushReply { d.chain with replies := [], beat := false } }

/-- Steps 4 to 6 of 08 R238: the tally edges that have come, the LH levels that take effect, then the cues of the slot in
submission order. -/
def Dev.levelsAndCues (d : Dev) : Dev := d.takeEdges.followLevels.cuesNow

/-- The end of a slot in the order of 08 R238: level sources, cues, retries, at most one gate action per voice (10 R292),
blips, grants and ramp starts; then entries complete and the replies of the slot are settled. -/
def Dev.endSlot (d : Dev) : Dev :=
  let d0 := d.levelsAndCues.followRetries
  let d1 := d0.forVoices (maskVoices d0.slotOffs) fun d v => (d.lhMove v).turnOffUnit v .command
  let d2 := Dev.blipNext d1.therm.blips { d1 with slotOffs := 0, slotFaults := [] }
  d2.grants.completeCues.settleReplies

/-- A backward move of the chain TBC holds the count for one control clock (16 R470). -/
def Dev.holdCount (d : Dev) : Dev :=
  if d.chain.holdOne then
    { d with time := { d.time with tbc := d.time.tbc - 8 }, chain := { d.chain with offset := d.chain.offset - 8, holdOne := false } }
  else d

/-- `dt` slots pass: the slot under way ends and a new one begins. With `dt` = 0 it goes on, so that the commands of one
slot act together and its end sees them all (08 R238, 10 R292). -/
def State.turn (s : State) (dt : Nat) : State :=
  if dt = 0 then s
  else
    let d0 := if dt = 1 then s.dev else s.dev.ripeEdges
    let d := ((d0.endSlot.tellNews s.dev s.snap).advance dt).holdCount.newSlot
    { s with dev := d, slot := d }

/-- The state after a command that `dt` slots precede: the slot turns, `f` acts, and what has risen is news (03 R95). In
STARTING the port is closed and no bar has taken a snapshot since the start, so the device stands for it. -/
def State.after (s : State) (dt : Nat) (f : Dev → Dev) : State :=
  let s0 := s.turn dt
  let d := (f s0.dev).tellNews s0.dev s0.snap
  { s0 with dev := d, snap := if d.ctl.mode = .starting then d else s0.snap }

/-- A command's outcome: every command of this block has a next state. -/
def State.run (s : State) (dt : Nat) (f : Dev → Dev) : Host.Outcome State Fault Refusal := .next (s.after dt f)

/-- One slot passes and no command comes. -/
def State.idle (s : State) : State := s.after 1 id

end Sys2Proof.Machine
end

