-- ==== Sys2Proof/Machine/ScoreLegal.lean ====
section
/-! DEFINITION. The Score die by itself (15): its audit trail, totals and ring, rated-condition marks, legal pulses and
area, parameter blocks, jobs and audit reads. -/

namespace Sys2Proof.Machine
open Sys2Proof

/-! ### Audit trail (15 R436, R440, R441) -/

/-- A record enters the trail with the next ASEQ; at 640 records the 64 oldest go (15 R441). -/
def Score.pushAudit (x : Score) (r : AuditRec) : Score :=
  let full := 640 ≤ x.audit.length
  { x with
    audit := (if full then x.audit.drop 64 else x.audit) ++ [{ r with aseq := x.nextAseq }]
    nextAseq := x.nextAseq + 1
    auditDropped := if full then stick 32 (x.auditDropped + 64) else x.auditDropped }

/-- A record with its FLAGS and the event counter of its group: held in RAM below −45 °C, at most 32; a VX48-S has no
trail (15 R436, R440, 00 R9). -/
def Score.record (x : Score) (type flags ctr : Nat) (data : List Byte) : Score :=
  let r : AuditRec :=
    { aseq := 0, type := type, flags := flags + (if x.tb = ScoreTb.locked then 0 else 0x40), session := x.session
      tbc := x.tbc, eventCtr := ctr, data := data, torn := false }
  if x.variant = Variant.s then x
  else if x.cold then (if x.heldAudit.length < 32 then { x with heldAudit := x.heldAudit ++ [r] } else x)
  else x.pushAudit r

/-- A group of one record. -/
def Score.recordOne (x : Score) (type : Nat) (data : List Byte) : Score := x.record type 0x80 x.eventCtr data

/-- The 64 bytes of a record (15 R440). -/
def AuditRec.bytes (r : AuditRec) : List Byte :=
  withCrc (leBytes 4 r.aseq.toNat ++ [b8 r.type, b8 r.flags] ++ leBytes 2 r.session ++ leInt 8 r.tbc ++
    leBytes 4 r.eventCtr ++ (r.data ++ List.replicate 42 0).take 42)

/-! ### Totals and the ring (15 R433, R434) -/

/-- A total returns to 0 after 999,999,999,999 units. -/
def totalMod : Nat := 1000000000000

/-- A total in units, rollovers included. -/
def Total.units (t : Total) : Nat := t.roll * totalMod + t.value

/-- `k` units more; the rollover count sticks. -/
def Total.add (t : Total) (k : Nat) : Total :=
  { value := (t.value + k) % totalMod, roll := stick 16 (t.roll + (t.value + k) / totalMod) }

/-- A total of `n` units. -/
def Total.of (n : Nat) : Total := { value := n % totalMod, roll := stick 16 (n / totalMod) }

/-- A legal quantity: its line or ground input (15 R425). -/
inductive Quantity where
  | vol (f : Fin 4)
  | area (f : Fin 4)
  | dist (g : Fin 2)
deriving DecidableEq, Repr

/-- Its place among the ten totals (15 R444). -/
def indexOf : Quantity → Nat
  | .vol f => f.val
  | .area f => 4 + f.val
  | .dist g => 8 + g.val

/-- The total of a quantity. -/
def Totals.read (t : Totals) : Quantity → Total
  | .vol f => t.vol.get f
  | .area f => t.area.get f
  | .dist g => t.dist.get g

/-- The totals with one replaced. -/
def Totals.write (t : Totals) (q : Quantity) (v : Total) : Totals :=
  match q with
  | .vol f => { t with vol := t.vol.set f v }
  | .area f => { t with area := t.area.set f v }
  | .dist g => { t with dist := t.dist.set g v }

/-- The ten totals in the order of their reports (15 R444). -/
def Totals.list (t : Totals) : List Total := t.vol.list ++ t.area.list ++ t.dist.list

/-- A function of the units of two sets of totals, one by one. -/
def Totals.zip (a b : Totals) (f : Nat → Nat → Nat) : Totals :=
  { vol := Tab.ofFn fun i => Total.of (f (a.vol.get i).units (b.vol.get i).units)
    area := Tab.ofFn fun i => Total.of (f (a.area.get i).units (b.area.get i).units)
    dist := Tab.ofFn fun i => Total.of (f (a.dist.get i).units (b.dist.get i).units) }

/-- The ROLLOVER records of a total that passes its end `n` times; SET is 0 lifetime, 1 job, 2 raw (15 R433). -/
def Score.rolled (x : Score) (set_ index : Nat) (old : Total) (n : Nat) : Score :=
  (List.range n).foldl (fun x i =>
    let c := stick 16 (old.roll + 1 + i)
    let y := x.recordOne 0x04 ([b8 set_, b8 index] ++ leBytes 2 c)
    { y with rollovers := y.rollovers ++ [(set_, index, c)] }) x

/-- A legal quantity grows by `k` units: its lifetime total, and while a job is open its job total (15 R432). -/
def Score.count (x : Score) (q : Quantity) (k : Nat) : Score :=
  let old := x.life.read q
  let x1 := { x with life := x.life.write q (old.add k) }.rolled 0 (indexOf q) old ((old.value + k) / totalMod)
  if x1.jobOpen then
    let j := x1.job.read q
    { x1 with job := x1.job.write q (j.add k) }.rolled 1 (indexOf q) j ((j.value + k) / totalMod)
  else x1

/-- The first change of a total, residue or pending count since the last commit (15 R434). -/
def Score.touch (x : Score) (now : Nat) : Score := { x with changedAt := some (x.changedAt.getD now) }

/-- The later of two slots: the one of the higher sequence. A torn slot is none (15 R435). -/
def laterSlot (a b : Option RingSlot) : Option RingSlot :=
  match a, b with
  | some r, some q => if q.torn || q.seq < r.seq then a else b
  | none, some q => if q.torn then none else b
  | _, none => a

/-- The valid slot with the highest sequence (15 R435). -/
def Score.slot (x : Score) : Option RingSlot := x.ring.list.foldl laterSlot none

/-- The slot after `i`. -/
def nextSlot (i : Fin 64) : Fin 64 := ⟨(i.val + 1) % 64, Nat.mod_lt _ (by decide)⟩

/-- A slot goes into its place in the ring; the first one of a sector finds the sector erased (15 R434, R436). -/
def Score.putSlot (x : Score) (r : RingSlot) : Score :=
  let i := x.ringNext
  let cleared := if i.val % 16 = 0 then x.ring.mapIdx fun j o => if j.val / 16 = i.val / 16 then none else o else x.ring
  { x with ring := cleared.set i (some r), ringNext := nextSlot i, commitAt := some x.own }

/-- Commit the totals to the next slot of the ring, all at one instant; below −45 °C the commit is postponed
(15 R434, R436). -/
def Score.commit (x : Score) : Score :=
  if x.cold then { x with commitDue := true }
  else
    let r : RingSlot :=
      { seq := x.slot.elim 0 (·.seq + 1), torn := false, life := x.life, job := x.job, raw := x.raw, volRes := x.volRes, distRes := x.distRes, areaRes := x.areaRes
        pending := x.pending, unmapped := x.unmapped, eventCtr := x.eventCtr, jobOpen := x.jobOpen, jobId := x.jobId
        session := x.session, tbc := x.tbc }
    { x.putSlot r with changedAt := none, commitDue := false }

/-- A commit that VMET's collapse may still tear has begun less than 5 ms ago: the longest for which the Score is said to be
busy with one (15 R442). DESIGN CHOICE, log entry 183. -/
def Score.committing (x : Score) : Bool := x.commitAt.elim false fun t => x.own < t + 5 * msec

/-- The commit under way is torn: its slot's CRC fails (15 R435). -/
def Score.tearCommit (x : Score) : Score :=
  if x.committing then
    match x.slot with
    | some r => { x with ring := x.ring.map fun o => if o = some r then some { r with torn := true } else o }
    | none => x
  else x

/-! ### Rated conditions (15 R437, R439) -/

/-- The cause a mark stands for. -/
def markCause (k : Fin 8) : Nat := if k.val = 3 then 4 else if 4 ≤ k.val then 3 else k.val

/-- The GROUND mark of a line. -/
def groundMark (f : Fin 4) : Fin 8 := ⟨4 + f.val, by omega⟩

/-- A mark begins, unless its cause is suppressed (15 R439). -/
def Score.markBegin (x : Score) (k : Fin 8) (input : Nat) : Score :=
  if x.variant = Variant.s || x.diag.getLsbD (markCause k) || (x.marks.get k).isSome then x
  else
    let m : Mark := { start := x.tbc, input := input, vol := x.life.vol, area := x.life.area }
    { x with marks := x.marks.set k (some m), markEvents := x.markEvents ++ [(markCause k, 1)] }

/-- A saturating 32-bit value. -/
def sat4 (n : Nat) : List Byte := leBytes 4 (min n (2 ^ 32 - 1))

/-- The RATED record of a mark (15 R440). -/
def Score.rated (x : Score) (k : Fin 8) (m : Mark) (flags : Nat) : Score :=
  let dv (f : Fin 4) : Nat := (x.life.vol.get f).units - (m.vol.get f).units
  let da := ((idx 4).map fun f => (x.life.area.get f).units - (m.area.get f).units).sum
  x.record 0x03 flags x.eventCtr
    ([b8 (markCause k), b8 m.input] ++ leInt 8 m.start ++ leInt 8 x.tbc ++ (idx 4).flatMap (fun f => sat4 (dv f)) ++
      sat4 da ++ [0, 0, 0, 0])

/-- A mark ends, and its RATED record is written (15 R437). -/
def Score.markEnd (x : Score) (k : Fin 8) : Score :=
  match x.marks.get k with
  | some m =>
    let y := x.rated k m 0x80
    { y with marks := y.marks.set k none, markEvents := y.markEvents ++ [(markCause k, 0)] }
  | none => x

/-- RATED, as the publication carries it: bit c for cause c (15 R444). -/
def Score.ratedBits (x : Score) : Nat :=
  packBits ((List.range 5).map fun c => (idx 8).any fun k => markCause k = c && (x.marks.get k).isSome)

/-! ### What the blocks say (15 R445, R446) -/

/-- `n` bytes of the calibration block in effect from byte `o`; 0 while it is unset. -/
def Score.calField (x : Score) (o n : Nat) : Nat := match x.cal with
  | some b => field b o n
  | none => 0

/-- PPL of a flow line; 0 while the line is unset. -/
def Score.ppl (x : Score) (f : Fin 4) : Nat := x.calField (8 * f.val) 4
/-- CFG of a flow line: EDGE, GROUND, SEC_EN. -/
def Score.lineCfg (x : Score) (f : Fin 4) : Nat := x.calField (8 * f.val + 4) 1
/-- MPP of a ground input; 0 while it is unset. -/
def Score.mpp (x : Score) (g : Fin 2) : Nat := x.calField (32 + 8 * g.val) 4
/-- The other ground input. -/
def otherGround (g : Fin 2) : Fin 2 := if g = 0 then 1 else 0
/-- The primary ground of a line: TI4 or TI5. -/
def Score.groundOf (x : Score) (f : Fin 4) : Fin 2 := if (x.lineCfg f).testBit 1 then 1 else 0
/-- The ground in use of a line (15 R438). -/
def Score.groundUsed (x : Score) (f : Fin 4) : Fin 2 :=
  if (x.lines.get f).secondary then otherGround (x.groundOf f) else x.groundOf f
/-- The ground inputs of the line are judged: SEC_EN set and both set (15 R438). -/
def Score.judged (x : Score) (f : Fin 4) : Bool := (x.lineCfg f).testBit 2 && x.mpp 0 != 0 && x.mpp 1 != 0

/-- EDGE: a legal pulse of input `i` is a falling edge (15 R424). While no calibration block is in effect, no EDGE bit stands,
and rising edges are the legal ones that become pending (DESIGN CHOICE, log entry 140). -/
def Score.fallingLegal (x : Score) (i : Nat) : Bool :=
  (x.calField (if i < 4 then 8 * i + 4 else 36 + 8 * (i - 4)) 1).testBit 0

/-- A legal section: its voices, threshold, line and width in mm (15 R446). -/
structure Section where
  voices : Mask
  thresh : Nat
  line : Nat
  width : Nat
deriving DecidableEq, Repr

/-- Section `s` of a section block in its 386-byte form. -/
def sectionAt (b : List Byte) (s : Nat) : Section :=
  let o := 2 + 12 * s
  { voices := maskAt b o, thresh := byteAt b (o + 6), line := byteAt b (o + 7), width := field b (o + 8) 4 }

/-- The sections in effect, with their numbers. -/
def Score.sections (x : Score) : List (Fin 32 × Section) := match x.sec with
  | some b => ((idx 32).filter fun s => s.val < byteAt b 0).map fun s => (s, sectionAt b s.val)
  | none => []

/-- A section is energised in a tap sample (15 R427). -/
def Section.energised (c : Section) (taps : Mask) : Bool := c.thresh ≤ (maskVoices (c.voices &&& taps)).length

/-- The area of a line can be computed (15 R429). -/
def Score.computable (x : Score) (f : Fin 4) : Bool := x.sec.isSome && x.mpp (x.groundUsed f) != 0 && x.ppl f != 0

/-- Item `i` of the calibration block is set (15 R428). -/
def Score.itemSet (x : Score) (i : Fin 6) : Bool :=
  if h : i.val < 4 then x.ppl ⟨i.val, h⟩ != 0 else x.mpp ⟨i.val - 4, by omega⟩ != 0

/-- SET_MASK (15 R444). -/
def Score.setMask (x : Score) : Nat := packBits ((idx 6).map x.itemSet ++ [x.sec.isSome])

/-! ### Legal pulses (15 R424 to R429) -/

/-- The volume of `n` pulses of a line (15 R425). -/
def Score.addVolume (x : Score) (f : Fin 4) (n : Nat) : Score :=
  let res := x.volRes.get f + n * 100000
  let ppl := max (x.ppl f) 1
  { x with volRes := x.volRes.set f (res % ppl) }.count (.vol f) (res / ppl)

/-- The distance of `n` pulses of a ground input (15 R425). -/
def Score.addDistance (x : Score) (g : Fin 2) (n : Nat) : Score :=
  let res := x.distRes.get g + n * x.mpp g
  { x with distRes := x.distRes.set g (res % 1000) }.count (.dist g) (res / 1000)

/-- A legal pulse that an unset item keeps as pending (15 R429). -/
def Score.pend (x : Score) (i : Fin 6) : Score :=
  { x with pending := x.pending.modify i (· + 1) }.markBegin 3 0xFF

/-- Sum over the sections of line `f` of the width times what `e` gives for the section (15 R426). -/
def Score.widths (x : Score) (f : Fin 4) (e : Fin 32 → Section → Nat) : Nat :=
  ((x.sections.filter fun c => c.2.line = f.val).map fun c => c.2.width * e c.1 c.2).sum

/-- What a legal pulse of `g` adds to the area residue of line `f`, in 10^-9 m² (15 R426). Where no tap sample lies
between two pulses the spec gives no value: it is free, at most the whole width's. -/
def Score.areaStep (x : Score) (now : Nat) (g : Fin 2) (f : Fin 4) : Nat :=
  let n := x.samples.get g
  if (x.lines.get f).fresh then x.mpp g * x.widths f fun _ c => boolNat (c.energised x.taps)
  else if n = 0 then min (Config.areaNoSample f.val now) (x.mpp g * x.widths f fun _ _ => 1)
  else x.mpp g * x.widths f (fun s _ => (x.energised.get g).get s) / n

/-- The area of one line at a legal pulse of its ground in use (15 R426). -/
def Score.addArea (now : Nat) (g : Fin 2) (x : Score) (f : Fin 4) : Score :=
  if x.groundUsed f = g then
    let x1 :=
      if x.computable f then
        let res := x.areaRes.get f + x.areaStep now g f
        { x with areaRes := x.areaRes.set f (res % 10000000) }.count (.area f) (res / 10000000)
      else x
    { x1 with lines := x1.lines.modify f fun l => { l with fresh := false } }
  else x

/-- A legal pulse of `g` with a tap high while some line on it has no computable area counts in UNMAPPED (15 R429). -/
def Score.unmap (x : Score) (g : Fin 2) : Score :=
  let bad : List (Fin 4) := (idx 4).filter fun f => x.groundUsed f = g && !x.computable f
  if bad.isEmpty || x.taps = 0 then x
  else { x with
    unmapped := x.unmapped.modify g (· + 1)
    unsetLines := bad.foldl (fun m (f : Fin 4) => m ||| BitVec.ofNat 4 (2 ^ f.val)) x.unsetLines }.markBegin 3 0xFF

/-- A legal pulse of ground input `g` (15 R425, R426, R438). -/
def Score.groundPulse (x : Score) (now : Nat) (g : Fin 2) : Score :=
  let x1 := if x.mpp g = 0 then x.pend ⟨4 + g.val, by omega⟩ else x.addDistance g 1
  let x2 := (idx 4).foldl (Score.addArea now g) (x1.unmap g)
  let last := (x2.ground.get g).1
  { x2 with
    ground := x2.ground.set g (some now, last.map fun t => now - t)
    samples := x2.samples.set g 0, energised := x2.energised.set g (.fill 32 0) }

/-- A legal pulse of an input (15 R424). -/
def Score.legalPulse (x : Score) (now : Nat) (i : Fin 8) : Score :=
  if h : i.val < 4 then
    if x.ppl ⟨i.val, h⟩ = 0 then x.pend ⟨i.val, by omega⟩ else x.addVolume ⟨i.val, h⟩ 1
  else if h2 : i.val < 6 then x.groundPulse now ⟨i.val - 4, by omega⟩
  else x

/-- One more of a 48-bit wrapping count, and its wrap flag (09 R261). -/
def count48 (n : Nat) : Nat := (n + 1) % 2 ^ 48

/-- A rising edge enters the raw total (15 R424). -/
def Score.rawPulse (x : Score) (i : Fin 8) : Score :=
  let old := x.raw.get i
  { x with raw := x.raw.set i (old.add 1) }.rolled 2 i.val old ((old.value + 1) / totalMod)

/-- An edge at a tally input (09 R261): a merged pair closer than 2 ns counts nowhere on the Score. -/
def Score.edge (x : Score) (now : Nat) (i : Fin 8) (rising merged : Bool) : Score :=
  let x1 := { x with levels := x.levels.set i rising }
  if merged then x1
  else
    let x2 :=
      if rising then
        { x1 with
          rising := x1.rising.modify i count48
          riseWrap := if count48 (x1.rising.get i) = 0 then x1.riseWrap.set i true else x1.riseWrap }.rawPulse i
      else { x1 with
        falling := x1.falling.modify i count48
        fallWrap := if count48 (x1.falling.get i) = 0 then x1.fallWrap.set i true else x1.fallWrap }
    let legal := i.val < 6 && (rising != x.fallingLegal i.val)
    let x3 := if legal then x2.legalPulse now i else x2
    if rising || legal then x3.touch now else x3

/-- A tap sample (15 R423, R426). -/
def Score.sample (x : Score) (taps : Mask) : Score :=
  let on := x.sections.filter fun c => c.2.energised taps
  let up (t : Tab Nat 32) : Tab Nat 32 := on.foldl (fun t c => t.modify c.1 (· + 1)) t
  { x with taps := taps, samples := x.samples.map (· + 1), energised := x.energised.map up }

/-! ### Parameter blocks (15 R428 to R431) -/

/-- `n` bytes from byte `o`, zeros where there are none. -/
def slice (b : List Byte) (o n : Nat) : List Byte := (b.drop o ++ List.replicate n 0).take n

/-- The items of a block: 6 of the calibration block, 33 of the section block (15 R428). -/
def blockItems (isSec : Bool) (b : List Byte) : List (List Byte) :=
  if isSec then slice b 0 2 :: (List.range 32).map fun s => slice b (2 + 12 * s) 12
  else (List.range 4).map (fun f => slice b (8 * f) 8) ++ (List.range 2).map fun g => slice b (32 + 8 * g) 8

/-- The length of a block. -/
def blockLen (isSec : Bool) : Nat := if isSec then 386 else 48

/-- PPL or MPP in range: 0, or within the limits. -/
def inRange (n lo hi : Nat) : Bool := n = 0 || (lo ≤ n && n ≤ hi)

/-- The first item of a calibration block that fails (15 R445). -/
def calBad (b : List Byte) : Option Nat :=
  (List.range 6).find? fun i =>
    if i < 4 then
      !(inRange (field b (8 * i) 4) 100 10000000 && byteAt b (8 * i + 4) < 8 && field b (8 * i + 5) 3 = 0)
    else
      let o := 32 + 8 * (i - 4)
      !(inRange (field b o 4) 1 10000000 && byteAt b (o + 4) < 2 && field b (o + 5) 3 = 0)

/-- The first item of a section map that fails, in its 386-byte form (15 R446). -/
def secBad (b : List Byte) : Option Nat :=
  let n := byteAt b 0
  if 32 < n then some 0
  else ((List.range n).find? fun s =>
    let c := sectionAt b s
    let before := (List.range s).foldl (fun m k => m ||| (sectionAt b k).voices) (0 : Mask)
    !(c.voices != 0 && 1 ≤ c.thresh && c.thresh ≤ (maskVoices c.voices).length && c.line < 4 &&
      1 ≤ c.width && c.width ≤ 100000 && (c.voices &&& before) = 0)).map (· + 1)

/-- Pending pulses of an item that becomes set for the first time in the power cycle are converted (15 R429). -/
def Score.convertItem (x : Score) (i : Fin 6) : Score :=
  if x.itemSet i && !x.everSet.getLsbD i.val then
    let n := x.pending.get i
    let x1 := if h : i.val < 4 then x.addVolume ⟨i.val, h⟩ n else x.addDistance ⟨i.val - 4, by omega⟩ n
    { x1 with pending := x1.pending.set i 0, everSet := x1.everSet ||| BitVec.ofNat 6 (2 ^ i.val) }
  else x

/-- The UNSET mark ends once the items concerned are set (15 R437). -/
def Score.unsetCheck (x : Score) : Score :=
  let done := (idx 6).all (fun i => x.pending.get i = 0 || x.itemSet i) &&
    (idx 4).all fun f => !x.unsetLines.getLsbD f.val || x.computable f
  if done then { x.markEnd 3 with unsetLines := 0 } else x

/-- The area intervals begin anew (15 R426). -/
def Score.freshLines (x : Score) : Score :=
  { x with
    lines := x.lines.map fun l => { l with fresh := true }
    samples := .fill 2 0, energised := .fill 2 (.fill 32 0) }

/-- A line that its calibration no longer judges, or whose primary changes, is back on its primary (15 R438). -/
def Score.groundReset (old x : Score) (f : Fin 4) : Score :=
  if x.judged f && x.groundOf f = old.groundOf f then x
  else { x with lines := x.lines.set f .reset }.markEnd (groundMark f)

/-- A calibration block takes effect (15 R425, R429, R430). -/
def Score.calEffect (x : Score) (now : Nat) (b : List Byte) : Score :=
  let y := { x with cal := some b }
  let y1 := { y with
    volRes := y.volRes.mapIdx fun f r => if y.ppl f = x.ppl f then r else 0
    distRes := y.distRes.mapIdx fun g r => if y.mpp g = x.mpp g then r else 0 }
  let y2 := (idx 4).foldl (Score.groundReset x) ((idx 6).foldl Score.convertItem y1)
  (y2.freshLines.unsetCheck).touch now

/-- A section block takes effect (15 R426, R430). -/
def Score.secEffect (x : Score) (b : List Byte) : Score := ({ x with sec := some b }.freshLines).unsetCheck

/-- A block takes effect. -/
def Score.effect (x : Score) (now : Nat) (isSec : Bool) (b : List Byte) : Score :=
  if isSec then x.secEffect b else x.calEffect now b

/-- The PARAM records of a differing block, every one with the new counter (15 R430, R440). -/
def Score.paramRecords (x : Score) (isSec : Bool) (old b : List Byte) (diff : List Nat) (ctr : Nat) : Score :=
  let pad (i : List Byte) : List Byte := (i ++ List.replicate 16 0).take 16
  diff.foldl (fun x i =>
    x.record 0x01 (if diff.getLast? = some i then 0x80 else 0) ctr
      ([b8 (boolNat isSec), b8 i] ++ leBytes 4 (crc32 old).toNat ++ leBytes 4 (crc32 b).toNat ++
        pad ((blockItems isSec old).getD i []) ++ pad ((blockItems isSec b).getD i []))) x

/-- The set log's sector that was not written last takes the last logged blocks (15 R436). -/
def Score.putSetLog (x : Score) : Score :=
  let k : Fin 2 := if x.setNewest = 0 then 1 else 0
  { x with setLog := x.setLog.set k (x.logCal, x.logSec), setNewest := k }

/-- The last logged block becomes `b`; the set log is programmed unless it is too cold (15 R430, R436). -/
def Score.logBlock (x : Score) (isSec : Bool) (b : List Byte) : Score :=
  let y := if isSec then { x with logSec := some b } else { x with logCal := some b }
  if y.cold then y else y.putSetLog

/-- The counter at which legal lock stands (15 R431). -/
def lockCtr : Nat := 999999

/-- The reply to an accepted block (15 R445). -/
def Score.blockReply (x : Score) (changed items : Nat) (b : List Byte) : Answer :=
  ok ([b8 changed, b8 items, 0, 0] ++ leBytes 4 x.eventCtr ++ leBytes 4 (crc32 b).toNat ++ leInt 8 x.tbc)

/-- A block that passed its checks (15 R430, R431). The group verifies, for the spec gives a failure no outcome: DESIGN CHOICE,
log entry 184. -/
def Score.acceptBlock (x : Score) (now : Nat) (isSec : Bool) (b : List Byte) : Score × Answer :=
  let old := ((if isSec then x.logSec else x.logCal).getD (List.replicate (blockLen isSec) 0))
  let items := blockItems isSec b
  let diff := (List.range items.length).filter fun i => (blockItems isSec old).getD i [] != items.getD i []
  if diff.isEmpty then
    let y := x.effect now isSec b
    (y, y.blockReply 0 0 b)
  else if lockCtr ≤ x.eventCtr then (x, fail stLegalLock [])
  else
    let ctr := x.eventCtr + 1
    let y0 := (x.commit.paramRecords isSec old b diff ctr).logBlock isSec b
    let y := { y0 with eventCtr := ctr }.effect now isSec b
    let y1 := { y with legalEvents := y.legalEvents ++ [(boolNat isSec, ctr)] }
    let y2 := if ctr = lockCtr then y1.recordOne 0x09 [] else y1
    (y2, y2.blockReply 1 diff.length b)

/-! ### Jobs (15 R432, R447) -/

/-- The six bytes of a total's value. -/
def value6 (t : Total) : List Byte := leBytes 6 t.value

/-- The open job ends with the totals `t`: JOB_END as two records (15 R432). -/
def Score.endJob (x : Score) (t : Totals) : Score :=
  let id := leBytes 4 x.jobId.toNat
  let y := x.record 0x07 0 x.eventCtr (id ++ t.vol.list.flatMap value6)
  let z := y.record 0x07 0x80 y.eventCtr (id ++ (t.area.list ++ t.dist.list).flatMap value6)
  { z with job := t, jobOpen := false, jobEvents := z.jobEvents ++ [(1, x.jobId)] }

/-- The reply of SCORE_JOB; `ended` is the job it ended (15 R447). -/
def Score.jobReply (x : Score) (ended : Word) (stamp : Int) : Answer :=
  ok ([b8 (boolNat x.jobOpen), b8 x.diag.toNat, 0, 0] ++ leBytes 4 (if x.jobOpen then x.jobId.toNat else 0) ++
    leBytes 4 ended.toNat ++ leInt 8 stamp)

/-- The job totals that START leaves: the units `since` its stamp, after the rollover counts of the job before, which nothing
clears (15 R432, R433, 21 R556). -/
def Totals.startAfter (since old : Totals) : Totals :=
  let put (t o : Total) : Total := { t with roll := stick 16 (o.roll + t.roll) }
  { vol := since.vol.mapIdx fun i t => put t (old.vol.get i)
    area := since.area.mapIdx fun i t => put t (old.area.get i)
    dist := since.dist.mapIdx fun i t => put t (old.dist.get i) }

/-- SCORE_JOB (15 R447): the boundary is the stamp, so what was counted since belongs to the new job. -/
def Score.jobAct (x : Score) (now : Nat) (m : MailMsg) : Score × Answer :=
  let p := m.packet.params
  let id : Word := BitVec.ofNat 32 (field p 4 4)
  let since := x.life.zip m.life (· - ·)
  let ended := x.job.zip since (· - ·)
  match byteAt p 0 with
  | 0 =>
    if id = 0 then (x, fail stBadParam [])
    else
      let was := if x.jobOpen then x.jobId else 0
      let y := if x.jobOpen then x.endJob ended else x
      let z := y.recordOne 0x06 (leBytes 4 id.toNat)
      let w := { z.touch now with jobOpen := true, jobId := id, job := since.startAfter y.job, jobEvents := z.jobEvents ++ [(0, id)] }
      (w, w.jobReply was m.stamp)
  | 1 =>
    let was := if x.jobOpen then x.jobId else 0
    let y := if x.jobOpen then (x.endJob ended).touch now else x
    (y, y.jobReply was m.stamp)
  | 2 =>
    if x.sealSt = Seal.sealed then (x, fail stSealed [])
    else
      let mask : BitVec 5 := BitVec.ofNat 5 (byteAt p 1)
      let y := if mask = x.diag then x else { x with diag := mask }.recordOne 0x0A [b8 mask.toNat]
      (y, y.jobReply 0 m.stamp)
  | _ => (x, fail stBadParam [])

/-! ### Reading the trail (15 R448) -/

/-- `a` is at or before `b`, modulo 2^32. -/
def atOrBefore (a b : Word) : Bool := (b - a).toNat < 2 ^ 31

/-- ASEQ of the oldest held record; that of the next one while the trail is empty. -/
def Score.oldest (x : Score) : Word := (x.audit.head?.map (·.aseq)).getD x.nextAseq

/-- The records from `from_` on up to `newest`, at most `max`; whether more follow. One whose CRC fails is skipped (15 R440). -/
def Score.trail (x : Score) (from_ newest : Word) (max_ : Nat) : List AuditRec × Bool :=
  let l := x.audit.filter fun r => !r.torn && atOrBefore from_ r.aseq && atOrBefore r.aseq newest
  (l.take max_, max_ < l.length)

/-- SCORE_AUDIT_READ (15 R448). -/
def Score.auditRead (x : Score) (m : MailMsg) : Answer :=
  let p := m.packet.params
  let n := byteAt p 4
  if n < 1 || 120 < n then fail stBadParam []
  else
    let from_ : Word := BitVec.ofNat 32 (field p 0 4)
    let first := if atOrBefore x.oldest from_ then from_ else x.oldest
    let l := x.trail first m.newest n
    ok (leBytes 4 x.oldest.toNat ++ leBytes 4 m.newest.toNat ++ [b8 l.1.length, b8 (boolNat l.2), 0, 0] ++
      l.1.flatMap AuditRec.bytes)

/-! ### One mailbox message (15 R442, R443) -/

/-- The section block in its 386-byte form (15 R446). -/
def sectionForm (p : List Byte) : List Byte := (p ++ List.replicate 386 0).take 386

/-- The Score acts on a whole message that passed its checks. -/
def Score.act (x : Score) (now : Nat) (m : MailMsg) : Score × Answer :=
  let p := m.packet.params
  if x.variant = Variant.s then (x, fail stUnknown [])
  else if !x.scanned then (x, fail stBusyScan [])
  else if m.packet.opc = 0x81 then
    match calBad p with
    | some i => (x, fail stBadParam [b8 i])
    | none => x.acceptBlock now false p
  else if m.packet.opc = 0x85 then
    let b := sectionForm p
    match secBad b with
    | some i => (x, fail stBadParam [b8 i])
    | none => x.acceptBlock now true b
  else if m.packet.opc = 0x84 then x.jobAct now m
  else (x, x.auditRead m)

/-! ### The ground inputs (15 R438) -/

/-- The speed of a ground input in mm/s: it decays once the time since its last pulse exceeds its period. -/
def Score.speed (x : Score) (now : Nat) (g : Fin 2) : Rat :=
  match x.ground.get g with
  | (some t, some p) => (x.mpp g : Rat) * 3000000 / ((max (max p (now - t)) 1 : Nat) : Rat)
  | _ => 0

/-- Ticks since the last pulse of a ground input; since the Score reset where it has had none. -/
def Score.sinceGround (x : Score) (now : Nat) (g : Fin 2) : Nat := now - ((x.ground.get g).1.getD x.resetAt)

/-- Area moves to the other ground (15 R438); GROUND names the primary that failed. -/
def Score.toSecondary (x : Score) (f : Fin 4) : Score :=
  let l : LineGround := { secondary := true, implausible := none, plausible := none, fresh := true }
  { x with lines := x.lines.set f l }.markBegin (groundMark f) (4 + (x.groundOf f).val)

/-- One evaluation of one line (15 R438). -/
def Score.judge (now : Nat) (x : Score) (f : Fin 4) : Score :=
  let l := x.lines.get f
  let pr := x.groundOf f
  let vp := x.speed now pr
  let vs := x.speed now (otherGround pr)
  let put (g : LineGround) : Score := { x with lines := x.lines.set f g }
  if !x.judged f then x
  else if vs < 200 then put { l with implausible := none, plausible := none }
  else
    let lost := 12000000 * (x.mpp pr : Rat) / vs < ((x.sinceGround now pr : Nat) : Rat)
    let off := if vp < vs then vs - vp else vp - vs
    let wrong := vs * 15 / 100 < off
    if l.secondary then
      if lost || wrong then put { l with plausible := none }
      else
        let t := l.plausible.getD now
        if t + 5000 * msec ≤ now then
          { x with lines := x.lines.set f { LineGround.reset with fresh := true } }.markEnd (groundMark f)
        else put { l with plausible := some t }
    else if lost then x.toSecondary f
    else if wrong then
      let t := l.implausible.getD now
      if t + 2000 * msec ≤ now then x.toSecondary f else put { l with implausible := some t }
    else put { l with implausible := none }

/-! ### Power and temperature (15 R434 to R437) -/

/-- The Score loses its supply: the UNSET mark ends by its own rule, the other marks that stand open and the counts of
unset items are written (15 R429, R437). -/
def Score.powerDownRecords (x : Score) : Score :=
  let y := (idx 8).foldl (fun x k => match x.marks.get k with
    | some m => if markCause k = 4 then x.markEnd k else x.rated k m 0xA0
    | none => x) x
  if (y.pending.list ++ y.unmapped.list).all (· = 0) then y
  else y.recordOne 0x02 ((y.pending.list ++ y.unmapped.list).flatMap sat4)

/-- One more record of the trail, in the search for its complete groups: those found, and the records of a group whose LAST
has not come. A group's records have one type and one counter (15 R430, R432, R440). -/
def groupStep (l : List AuditRec × List AuditRec) (r : AuditRec) : List AuditRec × List AuditRec :=
  let open_ := if l.2.head?.any (fun q => q.type = r.type && q.eventCtr = r.eventCtr) then l.2 ++ [r] else [r]
  if r.flags.testBit 7 && !r.torn then (l.1 ++ open_, []) else (l.1, open_)

/-- The records of a trail whose groups are complete: what the scan keeps (15 R441). -/
def completeGroups (l : List AuditRec) : List AuditRec := (l.foldl groupStep ([], [])).1

/-- The event counter that a Score scan recovers (15 R435). -/
def Score.recoveredCtr (x : Score) : Nat :=
  max ((x.slot.map (·.eventCtr)).getD 0) (((completeGroups x.audit).getLast?.map (·.eventCtr)).getD 0)

/-- The listed reference frequencies in Hz (09 R249). -/
def listedReferences : List Nat :=
  [10000000, 12000000, 12800000, 16000000, 19200000, 20000000, 24000000, 25000000, 26000000, 30000000, 38400000, 40000000,
   50000000]

/-- `hz` lies within 1.5 % of a listed value (09 R249). -/
def nearReference (listed hz : Nat) : Bool :=
  decide (985 * listed ≤ 1000 * hz) && decide (1000 * hz ≤ 1015 * listed)

/-- A reference is present and identified: a listed value in reference mode, the 25 MHz crystal in crystal mode
(09 R248 to R250). R248 gives the crystal no window; the 1.5 % of R249 serves there too: DESIGN CHOICE, log entry 180. -/
def Score.identified (x : Score) : Bool :=
  match x.reference with
  | some hz => if x.refMode then listedReferences.any (nearReference · hz) else nearReference 25000000 hz
  | none => false

/-- What MSEAL is driven to: high on a sealed VX48-M, low on a VX48-S, an input on an unsealed VX48-M (15 R454). -/
def Score.msealLevel (x : Score) (seal_ : Seal) : Option Bool :=
  if x.variant = Variant.s then some false else if seal_ = Seal.sealed then some true else none

/-- The end of the Score reset (02 R39, 09 R248 to R250, 15 R428, R435, R440, R452, R454): flash contents stay, the ring
gives the totals, both blocks are unset, suppression is cleared, and the first lock attempt begins. ACCEPTED, REJECTED and
AUDIT_DROPPED, which 21 R556 marks as never cleared and neither R12 nor the ring names, are kept alike: DESIGN CHOICE, log
entry 179. -/
def Score.afterReset (x : Score) (xoutHigh mseal : Bool) (reference : Option Nat) (levels : Tab Bool 8) : Score :=
  let high := x.variant = Variant.m && mseal
  let seal_ : Seal := if x.sealSt = Seal.sealed then .sealed else if high then .sealMode else .unsealed
  let base := { Score.reset with
    variant := x.variant, powered := true, refMode := !xoutHigh, reference := reference, mseal := high
    msealOut := x.msealLevel seal_, instrument := x.instrument, sealSt := seal_
    own := x.own, resetAt := x.own, attemptAt := x.own, sampledAt := x.own, judgedAt := x.own, levels := levels
    logCal := (x.setLog.get x.setNewest).1, logSec := (x.setLog.get x.setNewest).2, setLog := x.setLog, setNewest := x.setNewest
    eventCtr := x.recoveredCtr, session := (x.session + 1) % 65536, audit := x.audit, nextAseq := x.nextAseq
    auditDropped := x.auditDropped, accepted := x.accepted, rejected := x.rejected
    ring := x.ring, ringNext := x.ringNext, cold := x.cold, temp := x.temp, powerFail := x.powerFail }
  let begun := { base with tb := if base.identified then .acquiring else .noRef }
  match x.slot with
  | some r => { begun with
    raw := r.raw, life := r.life, job := r.job, volRes := r.volRes, distRes := r.distRes, areaRes := r.areaRes
    jobOpen := r.jobOpen, jobId := r.jobId }
  | none => begun

/-- VMET is gone: the die is held in reset (17 R491). -/
def Score.unpowered_ (x : Score) : Score :=
  { x with powered := false, msealOut := none, tb := .noRef, locked := false, scanned := false, relockedAt := none, heldAudit := [] }

/-- VMET collapses while the Score serves a message that takes it from `x` to `y`: its commit and the first `written` of its
records are in the flash, one more is torn, and the set log only where it followed the whole group. Nothing has taken
effect (15 R430, R441). -/
def Score.cutShort (x y : Score) (written : Nat) (logged : Bool) : Score :=
  let k := (y.nextAseq - x.nextAseq).toNat
  let n := min written k
  let before := y.audit.length - (k - n)
  let torn := ((y.audit.drop before).take 1).map fun r => { r with torn := true }
  let log := logged && n = k
  { x with
    ring := y.ring, ringNext := y.ringNext, commitAt := y.commitAt
    audit := y.audit.take before ++ torn, nextAseq := x.nextAseq + BitVec.ofNat 32 (n + torn.length)
    auditDropped := y.auditDropped
    setLog := if log then y.setLog else x.setLog, setNewest := if log then y.setNewest else x.setNewest }

/-- The Score scan completes (02 R45, 01 R33, 15 R441): incomplete audit groups are discarded, and the unpowered interval is
recorded where a slot tells its start. -/
def Score.ready (x : Score) : Score :=
  let y := { x with scanned := true, audit := completeGroups x.audit }
  match y.slot with
  | some r => { y.recordOne 0x05 (leBytes 2 r.session ++ leInt 8 r.tbc) with unpowered := some r.session }
  | none => y

/-- The die temperature moves, in 0.1 °C (15 R436, R437): programming is blocked below −45 °C, and held records and a
postponed commit follow once it is possible again. -/
def Score.dieTemp (x : Score) (t : Int) : Score :=
  let x1 := { x with temp := t }
  let x2 := if t < -400 then x1.markBegin 1 0xFF else if -380 ≤ t then x1.markEnd 1 else x1
  let x3 := if 1500 < t then x2.markBegin 2 0xFF else if t ≤ 1450 then x2.markEnd 2 else x2
  if t < -450 then { x3 with cold := true }
  else
    let y := x3.heldAudit.foldl Score.pushAudit { x3 with cold := false, heldAudit := [] }
    let z := if x.cold then y.putSetLog else y
    if z.commitDue then z.commit else z

end Sys2Proof.Machine
end

