-- ==== Sys2Proof/Machine/Tally.lean ====
section
/-! DEFINITION. The control die's side of the tally inputs: rates, FIFOs, width capture, stuck levels, the odometer and
its ground source (09 R264 to R274, 10 R284 to R286). -/

namespace Sys2Proof.Machine
open Sys2Proof

/-! ### Edges -/

/-- TIMESTAMP_EDGE (09 R264): an edge comes on the link, and is used at step 4 of its slot, which sees a pair of edges
closer than 2 ns by their stamps. Nothing comes while the Score is absent or has not locked (02 R42, 01 R37). -/
def execTimestampEdge (dt : Nat) (input : Fin 8) (rising : Bool) (stamp : Int) (_pair : Told) (s : State) : Host.Outcome State Fault Refusal :=
  s.run dt fun d =>
    if d.ctl.scoreSilent || !d.score.locked then d
    else { d with edges := d.edges ++ [{ input := input, rising := rising, stamp := stamp, at_ := d.now }] }

/-- STUCK_LEVEL (09 R267): once the level has stood for STUCK_TIME. -/
def execStuckLevel (dt : Nat) (input : Fin 8) (s : State) : Host.Outcome State Fault Refusal :=
  s.run dt fun d0 =>
    let d := d0.takeEdges
    match (d.tally.get input).levelSince with
    | some t =>
      if d.stuckTime input ≤ d.now - t && !d.ctl.scoreSilent then
        (d.modTally input fun x => { x with stuck := true, levelSince := none, returned := none }).event 0x0A06 input.val
          [b8 (boolNat (d.tally.get input).level)]
      else d
    | none => d

/-- ODO_FROZEN (10 R285): no counting edge of the source for STOP_TIMEOUT. -/
def execOdoFrozen (dt : Nat) (s : State) : Host.Outcome State Fault Refusal :=
  s.run dt fun d0 =>
    let d := d0.takeEdges
    match d.odo.st, d.odo.last with
    | .running, some t =>
      if (d.stopTimeout : Int) ≤ d.time.tbc - t then
        let d1 := { d with odo := { d.odo with floor := d.odoValue, st := .frozen } }
        d1.event 0x0301 d1.odoInput (leInt 8 d1.odoUnits)
      else d
    | _, _ => d

/-- The outcomes of a plausibility evaluation (09 R270). -/
inductive Plausibility where
  | suspended | implausible | plausible
deriving DecidableEq, Repr

/-- Evaluate the rate of the judged source against the expectation `e` of the other (09 R270). -/
def plausibility (judged e : Rat) (otherStuck : Bool) (pct : Nat) : Plausibility :=
  if e < 20 || otherStuck then .suspended
  else if e * (pct : Rat) / 100 < (if judged ≤ e then e - judged else judged - e) then .implausible
  else .plausible

/-- Two counting edges of an input within STOP_TIMEOUT before now (09 R271). -/
def Dev.recentPair (d : Dev) (i : Fin 8) : Bool :=
  match (d.tally.get i).last, (d.tally.get i).period with
  | some t, some p => d.time.tbc - t + p ≤ d.stopTimeout
  | _, _ => false

/-- Judge the primary while it is in use (09 R270, R271). -/
def Dev.judgePrimary (d : Dev) : Dev :=
  let p := d.primary
  let sec := d.secondary
  let e := d.rate sec * (d.ratio : Rat) / 65536
  let j := plausibility (d.rate p) e (d.tally.get sec).stuck (d.fld 0x4800 16 8)
  let lost := j ≠ .suspended && ((d.tally.get p).stuck || decide (4 * 3000000000 / e < (d.sinceEdge p : Rat)))
  let since := if j = .implausible then some (d.odo.implausible.getD d.now) else none
  let d1 := { d with odo := { d.odo with implausible := since } }
  let late := match since with
    | some t => decide (d.plausTime ≤ d.now - t)
    | none => false
  let can := d.secEn && d.recentPair sec
  if lost || late then
    if can then
      let d2 := d1.groundMove .secondary sec
      ({ d2 with odo := { d2.odo with degraded := true } }).event 0x0A09 sec.val [if lost then 1 else 0, b8 p.val]
    else if lost then d1.groundNone p
    else d1
  else d1

/-- Judge the secondary while it is in use, and the primary's return (09 R273, R274). GROUND_RETURN tells the decision to
switch back, not the end of the switch: DESIGN CHOICE, log entry 177. -/
def Dev.judgeSecondary (d : Dev) : Dev :=
  let p := d.primary
  let sec := d.secondary
  let rp := d.rate p
  let lostAble := !(decide (rp < 20) || (d.tally.get p).stuck)
  let lost := lostAble && ((d.tally.get sec).stuck ||
    decide (4 * (d.ratio : Rat) / 65536 * 3000000000 / rp < (d.sinceEdge sec : Rat)))
  if lost then d.groundNone sec
  else
    let e := d.rate sec * (d.ratio : Rat) / 65536
    let j := plausibility rp e (d.tally.get sec).stuck (d.fld 0x4800 16 8)
    let since := if j = .plausible && !d.odo.switching then some (d.odo.plausible.getD d.now) else none
    let d1 := { d with odo := { d.odo with plausible := since } }
    match since with
    | some t => if 5000 * msec ≤ d.now - t then (d1.groundMove .primary p).event 0x0A0A p.val [0] else d1
    | none => d1

/-- GROUND_EVALUATION (09 R270 to R274): every 10 ms. While the Score is silent the rates are 0, and an evaluation is
suspended. -/
def execGroundEvaluation (dt : Nat) (s : State) : Host.Outcome State Fault Refusal :=
  s.run dt fun d0 =>
    let d := d0.takeEdges
    if d.now < d.odo.evalAt + 10 * msec then d
    else
      let d1 := { d with odo := { d.odo with evalAt := d.now } }
      match d.odo.source with
      | .primary => d1.judgePrimary
      | .secondary => d1.judgeSecondary
      | .none => d1

/-! ### The time base moves -/

/-- Every pending time cue is retargeted, and every stored time of the odometer, the rates and width capture shifted, by
an offset of the TBC (02 R43, 09 R258). -/
def Dev.shiftTimes (d : Dev) (off : Int) : Dev :=
  { d with
    cues := { d.cues with queue := d.cues.queue.map fun c => if c.basis = 0 then { c with target := c.target + off } else c }
    odo := { d.odo with last := d.odo.last.map (· + off) }
    tally := d.tally.map fun x => { x with
      last := x.last.map (· + off), edgeAt := x.edgeAt.map (· + off), start := x.start.map (· + off), returned := x.returned.map (· + off) } }

/-- Width capture loses its starts at a switch of time base (09 R266). -/
def Dev.dropStarts (d : Dev) : Dev := { d with tally := d.tally.map fun x => { x with start := none } }

/-- The timestamp link goes dead: the odometer is unavailable, level timers stop, widths lose their starts
(09 R267, R268, 10 R285). -/
def Dev.linkDead (d : Dev) : Dev :=
  let d1 := if d.odo.st = .unavailable then d else d.odoLose
  { d1 with tally := d1.tally.map fun x => { x with levelSince := none, start := none } }

/-- The timestamp link returns: timers restart with the levels reported, and inputs have no period (09 R267, R268). -/
def Dev.linkBack (d : Dev) : Dev :=
  let d1 := { d with tally := d.tally.mapIdx fun i x =>
    { x with level := d.score.levels.get i, levelSince := some d.now, last := none, period := none } }
  d1.odoRegain

/-- A new live image reaches the tally inputs: clearing TS_EN empties the FIFO, and a change of WIDTH_EN begins width
capture afresh (09 R265, R266); a new RATIO never takes the odometer back (10 R284). `old` is the device before the words
changed. -/
def Dev.tallyReconf (d old : Dev) : Dev :=
  { d with odo := { d.odo with floor := max d.odo.floor old.odoValue }, tally := d.tally.mapIdx fun i x =>
    let x1 := if old.tsEn i && !d.tsEn i then { x with taken := x.taken + x.fifo.length, fifo := [] } else x
    if old.widthEn i != d.widthEn i then { x1 with start := none } else x1 }

/-! ### ODOMETER_READ (05 R162, 09 R269) -/

/-- SOURCE and STATE codes (05 R162). -/
def GroundSource.code : GroundSource → Byte
  | .primary => 0
  | .secondary => 1
  | .none => 2
def OdoState.code : OdoState → Byte
  | .running => 0
  | .frozen => 1
  | .unavailable => 2
  | .noPulse => 3

/-- The 28 bytes of ODOMETER_READ (05 R162): LAST_TBC is 0 before the first pulse, and PERIOD 0 while no period is known:
DESIGN CHOICE, log entry 136. -/
def Dev.odoReply (d : Dev) : List Byte :=
  leInt 8 d.odoUnits ++ leInt 8 (d.odo.last.getD 0) ++ leInt 8 (d.odo.period.getD 0) ++
  [GroundSource.code d.odo.source, OdoState.code d.odo.st, 0, 0]

/-- The REBASE form at its commit slot (05 R162): the odometer takes the value, and every pending distance cue keeps its
remaining distance. -/
def Dev.rebase (d : Dev) (value : Int) : Dev :=
  let old := d.odoUnits
  let shift := value * 65536 - d.odoValue
  { d with
    odo := { d.odo with base := d.odo.base + shift, floor := d.odo.floor + shift, before := d.odo.before + (value - old) }
    cues := { d.cues with queue := d.cues.queue.map fun c => if c.basis = 1 then { c with target := c.target + (value - old) } else c } }

/-- One FIFO entry (09 R269). -/
def FifoEntry.bytes (e : FifoEntry) : List Byte :=
  leInt 8 e.tbc ++ [b8 (boolNat e.rising * 128 + boolNat e.fallbackTb * 64 + boolNat e.holdover * 32), 0, 0, 0]

/-- The tally head from the snapshot, with `count` entries returned (09 R269). -/
def Dev.tallyHead (d : Dev) (i : Fin 8) (count : Nat) : List Byte :=
  let x := d.tally.get i
  let w := d.word (tallyWord i)
  let pulses := match d.link.publication with
    | some p => if d.countsRising i then p.rising.get i else p.falling.get i
    | none => 0
  [b8 i.val,
   b8 (boolNat x.level * 128 + boolNat x.stuck * 64 + bits w 2 1 * 32 + bits w 1 1 * 16 + bits w 0 1 * 8),
   b8 count, 0] ++
  leBytes 6 pulses ++ leBytes 4 (sat 32 (report (d.rate i * 16))) ++ leBytes 4 (sat 32 (x.period.getD 0)) ++
  leBytes 4 (sat 32 x.width) ++ leBytes 2 x.overflow ++ leBytes 2 x.glitch ++ leBytes 2 x.orphan ++
  leBytes 2 x.fifo.length ++ [0, 0]

end Sys2Proof.Machine
end

