-- ==== Sys2Proof/Machine/Flash.lean ====
section
/-! DEFINITION. The data flash of the control die: the raw region, the record store, the lifetime counters, the
clean-shutdown marker, and the records of checks and retirements (14, 07 R226 to R228). -/

namespace Sys2Proof.Machine
open Sys2Proof

def Dev.setNv (d : Dev) (f : Flash → Flash) : Dev := { d with nv := f d.nv }

/-! ### The raw region as memory (14 R384, R386) -/

/-- The byte under address `a` of a list of raw cells: an unlisted byte is erased, 0xFF (14 R386). -/
def cellRead (m : List Host.Cell) (a : Nat) : Byte := (m.lookup a).getD 0xFF

/-- The list with byte `a` written: addresses strictly rising, no byte listed that is 0xFF. -/
def cellWrite (m : List Host.Cell) (a : Nat) (b : Byte) : List Host.Cell :=
  let below := m.filter fun e => e.1 < a
  let above := m.filter fun e => a < e.1
  if b = 0xFF then below ++ above else below ++ (a, b) :: above

/-- Bytes written from address `a` upwards. -/
def cellsWrite (m : List Host.Cell) : Nat → List Byte → List Host.Cell
  | _, [] => m
  | a, b :: bs => cellsWrite (cellWrite m a b) (a + 1) bs

/-- The list with every byte of sector `s` erased (14 R392). -/
def cellsErase (m : List Host.Cell) (s : Nat) : List Host.Cell := m.filter fun e => e.1 / 4096 != s

/-- A byte of an unsettled word: a bit it may hold and need not hold is free (14 R395). -/
def tornByte (may must free : Byte) : Byte := must ||| (may &&& free)

/-- Raw byte `a` as it reads at time `now` (14 R386, R395). -/
def Flash.byte (f : Flash) (now a : Nat) : Byte :=
  if f.undefinedSectors.getLsbD (a / 4096) then Config.flashByte a now
  else match f.torn.find? (fun t => t.1 = a / 8) with
    | some (_, may, must, _) => tornByte (may.getD (a % 8) 0xFF) (must.getD (a % 8) 0) (Config.flashByte a now)
    | none => cellRead f.raw a

/-- `n` raw bytes from address `a`. -/
def Flash.bytes (f : Flash) (now a n : Nat) : List Byte := (List.range n).map fun i => f.byte now (a + i)

/-- How often a list of counts says word `w` was programmed. -/
def wordCount (l : List (Nat × Nat)) (w : Nat) : Nat := (l.lookup w).getD 0

/-- One more program of word `w`. -/
def wordCountUp (l : List (Nat × Nat)) (w : Nat) : List (Nat × Nat) :=
  (w, wordCount l w + 1) :: l.filter fun e => e.1 != w

/-- The word at address `a` (a multiple of 8) takes the 8 bytes `bs`; a third program since the erasure of its sector
leaves it unsettled, as does one over an unsettled word (14 R390, R395). -/
def Flash.putWord (f : Flash) (a : Nat) (bs : List Byte) : Flash :=
  let w := a / 8
  let rest := f.torn.filter fun t => t.1 != w
  let prior := f.torn.find? fun t => t.1 = w
  let old := (List.range 8).map fun i => cellRead f.raw (a + i)
  let t := match prior with
    | some (_, may, must, weak) =>
      [(w, (may.zip bs).map (fun p => p.1 &&& p.2), (must.zip bs).map (fun p => p.1 &&& p.2), weak)]
    | none => if 2 ≤ wordCount f.burns w then [(w, old, bs, true)] else []
  { f with raw := cellsWrite f.raw a bs, torn := t ++ rest
           programs := wordCountUp f.programs w, burns := wordCountUp f.burns w }

/-- The word at address `a` was being programmed from its old content to `bs` and stays unsettled; `weak` tells that
MARGIN_READ finds it so, which after a collapse it does (14 R395). -/
def Flash.tearWord (f : Flash) (a : Nat) (bs : List Byte) (weak : Bool) : Flash :=
  let old := (List.range 8).map fun i => cellRead f.raw (a + i)
  let f1 := f.putWord a bs
  { f1 with torn := (a / 8, old, bs, weak) :: f1.torn.filter fun t => t.1 != a / 8 }

/-- The first `n` words of the running program take their content (14 R388). -/
def Flash.putWords (f : Flash) : Nat → Flash
  | 0 => f
  | n + 1 => (f.putWords n).putWord (f.op.addr + 8 * n) ((f.op.data.drop (8 * n)).take 8)

/-- The programming of one word (14 R388). -/
def wordTime : Nat := 12 * usec

/-- Words of the running program completed by time `now`: one every 12 µs (14 R388). -/
def Flash.wordsDone (f : Flash) (now : Nat) : Nat :=
  if f.op.busy && f.op.kind = 1 then min f.op.total (f.op.base + (now - f.op.startedAt) / wordTime) else f.op.done

/-- A running raw program lets `n` words of other work go before: each delays it by 12 µs (14 R385). -/
def Flash.yieldRaw (f : Flash) (now n : Nat) : Flash :=
  let k := (now - f.op.startedAt) / wordTime
  if f.op.busy && f.op.kind = 1 then
    { f with op := { f.op with base := f.op.base + k, startedAt := f.op.startedAt + wordTime * (k + n) } }
  else f

/-- The raw region as it reads while a program runs. -/
def Flash.current (f : Flash) (now : Nat) : Flash :=
  if f.op.busy && f.op.kind = 1 then f.putWords (f.wordsDone now) else f

/-! ### The record store (14 R397 to R403) -/

/-- Bytes a record occupies: its header and its value padded to a multiple of 8 (14 R398). -/
def recSize (len : Nat) : Nat := 16 + (len + 7) / 8 * 8
def Rec.size (r : Rec) : Nat := recSize r.value.length
def Append.size (a : Append) : Nat := recSize a.value.length
/-- Bytes used in a sector, its header included. -/
def Sector.used (s : Sector) : Nat := 16 + (s.recs.map Rec.size).sum

/-- The later of two records by RSEQ. -/
def newerRec (a b : Option Rec) : Option Rec :=
  match a, b with
  | some x, some y => if x.rseq < y.rseq then some y else some x
  | some x, none => some x
  | none, y => y

/-- The newest valid record of a key among records (14 R400). -/
def newestOf (rs : List Rec) (key : Nat) : Option Rec :=
  (rs.filter fun r => r.key = key && !r.torn).foldl (fun a r => newerRec a (some r)) none

/-- Every record of the store. -/
def Flash.recs (f : Flash) : List Rec := f.sectors.list.flatMap (·.recs)

/-- The record an append in hand will be. -/
def Append.rec_ (a : Append) : Rec :=
  { key := a.key, tomb := a.tomb, rseq := a.rseq, value := a.value, consumed := false, torn := false, cut := false,
    words := a.size / 8, bad := none }

/-- Record `r` interrupted after `k` words (14 R394, R398): `settles` tells that the word in progress completes, as at a
restart; at a collapse it stays unsettled. Its header is the first two words. -/
def Rec.interrupted (r : Rec) (k : Nat) (settles : Bool) : Rec :=
  let n := if settles then k + 1 else k
  if settles && r.size / 8 ≤ n then r
  else { r with torn := true, cut := decide (n < 2), words := n, bad := if settles then none else some (k, true) }

/-- Record `r` whose word `w` failed its readback (14 R391). -/
def Rec.unverified (r : Rec) (w : Nat) : Rec := { r with torn := true, bad := some (w, false) }

/-- What a key holds, appends committed and not yet programmed included (14 R400, R417). -/
def Flash.holds (f : Flash) (key : Nat) : Option Rec :=
  match newestOf (f.recs ++ f.appends.map Append.rec_) key with
  | some r => if r.tomb then none else some r
  | none => none

/-- The newest clean-shutdown marker (14 R405). -/
def Flash.marker (f : Flash) : Option Rec := newestOf f.recs 1

/-- The record of a key that the scan loads: a lifetime key's must precede the newest marker (14 R405). -/
def Flash.loaded (f : Flash) (key : Nat) : Option Rec :=
  let rs := if 0x10 ≤ key && key < 0x16 then
      match f.marker with
      | some m => f.recs.filter fun r => r.rseq < m.rseq
      | none => []
    else f.recs
  match newestOf rs key with
  | some r => if r.tomb then none else some r
  | none => none

/-- The scan would load record `r`. -/
def Flash.isLive (f : Flash) (r : Rec) : Bool :=
  !r.torn && !r.tomb && (match f.loaded r.key with
    | some q => q.rseq = r.rseq
    | none => false)

/-- The records that the scan would load; two with the same RSEQ count as one (14 R402). -/
def Flash.liveRecs (f : Flash) : List Rec :=
  (f.recs.filter f.isLive).foldl (fun acc r => if acc.any fun q => q.rseq = r.rseq then acc else acc ++ [r]) []

def Flash.retiredRec (f : Flash) (s : Nat) : Bool := f.recRetired.getLsbD s

/-- The open sector that still takes appends. -/
def Flash.openSector (f : Flash) : Option (Fin 16) :=
  (idx 16).find? fun s => (f.sectors.get s).st == .open_ && !f.retiredRec s.val

/-- The erased sectors, lowest first. -/
def Flash.erased (f : Flash) : List (Fin 16) :=
  (idx 16).filter fun s => (f.sectors.get s).st == .erased && !f.retiredRec s.val

/-- The next SEQ (14 R400). -/
def Flash.nextSeq (f : Flash) : Nat := (f.sectors.list.map (·.seq)).foldl max 0 + 1

/-- The store makes room for `n` bytes: the sector in which they fit, opened where need be (14 R400). -/
def Flash.room (f : Flash) (n : Nat) : Option (Flash × Fin 16) :=
  let next (f : Flash) : Option (Flash × Fin 16) :=
    match f.erased.head? with
    | some s => some ({ f with sectors := f.sectors.modify s fun x => { x with st := .open_, seq := f.nextSeq, recs := [] } }, s)
    | none => none
  match f.openSector with
  | some s =>
    if (f.sectors.get s).used + n ≤ 8192 then some (f, s)
    else next { f with sectors := f.sectors.modify s fun x => { x with st := .full } }
  | none => next f

/-- A record is written behind the others of its sector. -/
def Flash.putRec (f : Flash) (s : Fin 16) (r : Rec) : Flash :=
  { f with sectors := f.sectors.modify s fun x => { x with recs := x.recs ++ [r] } }

/-- Records, one behind another, find space (14 R400). -/
def Flash.takes (f : Flash) : List Rec → Option Flash
  | [] => some f
  | r :: rs => match f.room r.size with
    | some (f1, s) => (f1.putRec s r).takes rs
    | none => none

/-- The append the flash serves: device appends first (14 R385). -/
def Flash.serving (f : Flash) : Option Append :=
  match f.appends.find? fun a => !a.host with
  | some a => some a
  | none => f.appends.head?

/-- The copy in hand stops between two words (14 R385). -/
def GcRun.pause (g : GcRun) (now : Nat) : GcRun :=
  let k := (now + wordTime - 1 - g.at_) / wordTime
  if g.todo.isEmpty then g else { g with words := g.words + k, at_ := g.at_ + wordTime * k }

/-- The flash stops between two words of the append or the copy in hand, to look for work of a better rank (14 R385). -/
def Flash.pause (f : Flash) (now : Nat) : Flash :=
  match f.serving with
  | some a =>
    let k := (now + wordTime - 1 - f.servedAt) / wordTime
    { f with
      servedAt := f.servedAt + wordTime * k
      appends := f.appends.map fun b => if b.rseq = a.rseq then { b with words := b.words + k } else b }
  | none => match f.gc with
    | some g => { f with gc := some (g.pause now), servedAt := if g.todo.isEmpty then now else max now (g.pause now).at_ }
    | none => { f with servedAt := now }

/-- Once no append waits, at time `t`, a copy goes on and an erase resumes, each suspension of which costs it 50 µs
(14 R385). -/
def Flash.resume (f : Flash) (t : Nat) : Flash :=
  if f.appends.isEmpty then
    { f with
      gc := f.gc.map fun g => { g with at_ := if g.todo.isEmpty then t + 50 * usec else t }
      op := if f.op.kind = 2 then { f.op with startedAt := t + 50 * usec } else f.op }
  else f

/-- When the append in hand will have been programmed, word by word (14 R385). -/
def Flash.servedBy (f : Flash) (a : Append) : Nat := f.servedAt + wordTime * (a.size / 8 - a.words)

/-- An append joins those in hand at time `now`, with the next RSEQ (14 R385, R400). -/
def Flash.enqueue (f : Flash) (now key : Nat) (tomb : Bool) (value : List Byte) (host : Bool) : Flash :=
  let f1 := (f.pause now).yieldRaw now (recSize value.length / 8)
  { f1 with appends := f1.appends ++ [{ key := key, tomb := tomb, value := value, rseq := f.nextRseq, host := host, words := 0 }]
            nextRseq := f.nextRseq + 1 }

/-- Garbage collection is due (14 R401, R409). -/
def Dev.gcDue (d : Dev) : Bool := d.nv.scanned && !d.therm.coldBlock && d.nv.erased.length < d.fld 0x6000 0 8

/-- The records of a sector that only it holds and the scan would load. -/
def Flash.toCopy (f : Flash) (s : Fin 16) : List Rec :=
  (f.sectors.get s).recs.filter fun r => f.isLive r &&
    !(idx 16).any (fun k => k != s && !f.retiredRec k.val && (f.sectors.get k).recs.any fun q => q.key = r.key && q.rseq = r.rseq && !q.torn)

/-- The victim: a retired sector whose records can still be read, else the full sector with the lowest SEQ (14 R401). -/
def Flash.victim (f : Flash) : Option (Fin 16) :=
  match (idx 16).find? fun s => f.retiredRec s.val && !(f.toCopy s).isEmpty with
  | some s => some s
  | none =>
    ((idx 16).filter fun s => (f.sectors.get s).st == .full && !f.retiredRec s.val).foldl (fun a s => match a with
      | some t => if (f.sectors.get s).seq < (f.sectors.get t).seq then some s else some t
      | none => some s) none

/-- Garbage collection runs: one is under way, or one is due that finds a victim whose records can be copied (14 R401,
R419). -/
def Dev.gcRunning (d : Dev) : Bool :=
  match d.nv.gc with
  | some g => (d.nv.takes g.todo).isSome
  | none => d.gcDue && d.nv.victim.any fun s => (d.nv.takes (d.nv.toCopy s)).isSome

/-- There is space for an append of `n` bytes behind those in hand, or garbage collection may yet give it (14 R403). -/
def Dev.hasRoom (d : Dev) (n : Nat) : Bool :=
  let last : Append := { key := 0, tomb := false, value := List.replicate (n - 16) 0, rseq := 0, host := true, words := 0 }
  (d.nv.takes ((d.nv.appends ++ [last]).map Append.rec_)).isSome || d.gcRunning

def Dev.discardRecord (d : Dev) : Dev := { d with sc := { d.sc with discarded := stick 16 (d.sc.discarded + 1) } }

/-- A record found no space (14 R403). -/
def Dev.storeFull (d : Dev) (key : Nat) (host : Bool) : Dev :=
  (if host then d else d.discardRecord).event 0x0705 0xFF (leBytes 2 key)

/-- A device record is appended; a fault-log record takes the next key of its range, and is discarded when the key is
in use and LOG_FULL keeps the old ones (07 R227, 14 R385, R403). -/
def Dev.appendRecord (d : Dev) (key : Nat) (value : List Byte) : Dev :=
  let isLog := 0x200 ≤ key && key < 0x300
  let k := if isLog then 0x200 + d.sc.nextKey else key
  if isLog && d.fld 0x6000 8 1 = 1 && (d.nv.holds k).isSome then d.discardRecord
  else if !d.hasRoom (recSize value.length) then d.storeFull k false
  else
    let d1 := d.setNv fun f => f.enqueue d.now k false value false
    if isLog then { d1 with sc := { d1.sc with nextKey := (d1.sc.nextKey + 1) % 256, written := d1.sc.written + 1 } } else d1

/-- A device record falls due: held in SRAM while the scan runs or the cold block holds, at most 16 (07 R228, 14 R409). -/
def Dev.deviceRecord (d : Dev) (key : Nat) (value : List Byte) : Dev :=
  if !d.nv.scanned || d.therm.coldBlock then
    if d.sc.held.length < 16 then { d with sc := { d.sc with held := d.sc.held ++ [(key, value)] } } else d.discardRecord
  else d.appendRecord key value

/-- The held records are written, in the order of their decisions (07 R228). -/
def Dev.flushHeld (d : Dev) : Dev :=
  d.sc.held.foldl (fun d r => d.appendRecord r.1 r.2) { d with sc := { d.sc with held := [] } }

/-! ### Checks, the fault log and retirements (07 R216, R226, R227) -/

/-- Outcome codes (07 R230). -/
inductive CheckOutcome where
  | transient | load | internal | inconclusive
deriving DecidableEq, Repr

def CheckOutcome.code : CheckOutcome → Nat
  | .transient => 1
  | .load => 2
  | .internal => 3
  | .inconclusive => 4

/-- The group of a trigger: OC, SC and DESAT are one (07 R216). -/
def groupOf (trigger : Nat) : Nat := if trigger ≤ 3 then 1 else trigger

/-- SOUNDCHECK is logged (07 R231). -/
def Dev.soundEvent (d : Dev) (unit trigger outcome failed run dur : Nat) : Dev :=
  d.event 0x0202 unit ([b8 trigger, b8 outcome, b8 failed, b8 run] ++ leBytes 2 dur)

/-- A fault-log record falls due where 07 R227 gives one: every INTERNAL, and the first LOAD and INCONCLUSIVE of each
unit and group in a power cycle; at most 64. `tail` is its bytes 16 to 23. `seq` is that of the SOUNDCHECK event. -/
def Dev.faultRecord (d : Dev) (seq : Word) (unit trigger : Nat) (o : CheckOutcome) (failed : Nat) (tail : List Byte) : Dev :=
  let key := (unit, groupOf trigger, o.code)
  let due := match o with
    | .internal => true
    | .transient => false
    | _ => !d.sc.firsts.contains key
  if !due then d
  else
    let d1 : Dev := match o with
      | .internal => d
      | _ => { d with sc := { d.sc with firsts := key :: d.sc.firsts } }
    let waiting := (d1.sc.held.filter fun r => 0x200 ≤ r.1 && r.1 < 0x300).length
    if 64 ≤ d1.sc.written + waiting then d1.discardRecord
    else d1.deviceRecord 0x200 (leBytes 4 seq.toNat ++ leInt 8 d1.time.tbc ++ [b8 unit, b8 trigger, b8 o.code, b8 failed] ++ tail)

/-- RETIRE is logged and a retirement record written; `cause` 0 SOUNDCHECK, 1 HOST, 2 GANG (07 R226, R231). -/
def Dev.retireRecord (d : Dev) (unit cause trigger outcome failed dropped : Nat) : Dev :=
  d.deviceRecord (0x100 + unit)
    ([b8 cause, b8 trigger, b8 outcome, b8 failed] ++ leInt 8 d.time.tbc ++ leBytes 2 (min dropped 0xFFFF) ++ [0, 0])

def Dev.retireEvent (d : Dev) (unit cause dropped : Nat) : Dev :=
  d.event 0x0203 unit (b8 cause :: leBytes 2 (min dropped 0xFFFF))

/-- A check of a unit outside the voices ends (07 R223): its SOUNDCHECK event, the fault-log record, and with INTERNAL
the retirement. The quantities of such a unit that the spec does not state are free (log entry 10). -/
def Dev.unitChecked (d : Dev) (unit trigger : Nat) (o : CheckOutcome) (dur : Nat) : Dev :=
  let free (k w : Nat) : Nat := Config.unitLogField unit k d.now % 2 ^ w
  let seq := d.log.nextSeq
  let tail := [0xFF, b8 d.ctl.mode.code] ++ leBytes 2 (free 0 16) ++ leBytes 2 (free 1 16) ++ leBytes 2 (free 2 16)
  let d1 := (d.soundEvent unit trigger o.code (free 3 6) (free 4 6) dur).faultRecord seq unit trigger o (free 3 6) tail
  match o with
  | .internal =>
    let d2 := (d1.retireEvent unit 0 0).retireRecord unit 0 trigger o.code (free 3 6) 0
    { d2 with sc := { d2.sc with unitsRetired := stick 8 (d2.sc.unitsRetired + 1) } }
  | _ => d1

/-! ### Raw operations (14 R388 to R396) -/

/-- NV_DONE is logged (14 R421). -/
def Dev.nvDone (d : Dev) : Dev :=
  d.event 0x0701 0xFF ([b8 d.nv.op.kind, b8 d.nv.op.result] ++ leBytes 4 d.nv.op.addr)

/-- NV_VERIFY_FAIL is logged and the flash check of the sector starts (14 R391, R411). -/
def Dev.verifyFail (d : Dev) (unit addr : Nat) (after : Option Append) : Dev :=
  (d.setNv fun f => { f with checks := f.checks ++ [(unit, after, d.now)] }).event 0x0702 unit (leBytes 4 addr)

/-- The raw operation ends with a result (14 R393). -/
def Dev.rawEnd (d : Dev) (result done : Nat) : Dev :=
  d.setNv fun f => { f with op := { f.op with busy := false, result := result, done := done, data := [], sectors := [] } }

/-- The raw operation stops: a program at the end of the word in progress, an erase at once; `told` is NV_DONE
(14 R394). -/
def Dev.rawStop (d : Dev) (told : Bool) : Dev :=
  let o := d.nv.op
  if !o.busy then d
  else
    let d1 :=
      if o.kind = 1 then
        let n := min o.total (d.nv.wordsDone d.now + 1)
        (d.setNv fun f => f.putWords n).rawEnd 3 n
      else
        (d.setNv fun f => { f with undefinedSectors := f.undefinedSectors ||| BitVec.ofNat 16 (2 ^ (o.sectors.headD 0)) }).rawEnd 4 o.done
    if told then d1.nvDone else d1

/-- The raw operation as a collapse of the supply leaves it (14 R395). -/
def Dev.rawCollapse (d : Dev) : Dev :=
  let o := d.nv.op
  if !o.busy then d
  else if o.kind = 1 then
    let n := d.nv.wordsDone d.now
    let d1 := d.setNv fun f => f.putWords n
    let d2 := if n < o.total then d1.setNv fun f => f.tearWord (o.addr + 8 * n) ((o.data.drop (8 * n)).take 8) true else d1
    d2.rawEnd 3 n
  else d.rawStop false

/-- NV_PROGRAM_DONE (14 R388, R391): every word has been written, or the word `failAt` of the program, written by now, fails
its readback and the program stops there. -/
def execNvProgramDone (dt : Nat) (failAt : Option Nat) (s : State) : Host.Outcome State Fault Refusal :=
  s.run dt fun d =>
    let o := d.nv.op
    if o.busy && o.kind = 1 then
      match failAt with
      | some k =>
        let n := min k (o.total - 1)
        let a := o.addr + 8 * n
        if d.nv.wordsDone d.now ≤ n then d else
        let d1 := ((d.setNv fun f => (f.putWords n).tearWord a ((o.data.drop (8 * n)).take 8) false).rawEnd 2 n).setNv
          fun f => { f with op := { f.op with failAddr := a } }
        (d1.verifyFail (0x80 + a / 4096) a none).nvDone
      | none =>
        if d.nv.wordsDone d.now < o.total then d
        else ((d.setNv fun f => f.putWords o.total).rawEnd 0 o.total).nvDone
    else d

/-- Sector `s` of the raw region is erased: its content, its program counts, and its erase count (14 R392, R410). -/
def Flash.eraseRaw (f : Flash) (s : Fin 16) : Flash :=
  { f with raw := cellsErase f.raw s.val, torn := f.torn.filter (fun t => t.1 / 512 != s.val)
           programs := f.programs.filter (fun e => e.1 / 512 != s.val), burns := f.burns.filter (fun e => e.1 / 512 != s.val)
           undefinedSectors := f.undefinedSectors &&& ~~~ BitVec.ofNat 16 (2 ^ s.val)
           rawErases := f.rawErases.modify s fun n => stick 32 (n + 1) }

/-- The erase count of a raw sector is recorded (14 R397). -/
def Dev.eraseRecord (d : Dev) (s : Fin 16) : Dev := d.deviceRecord (0x300 + s.val) (leBytes 4 (d.nv.rawErases.get s))

/-- No append keeps the flash from work of a lower rank: none waits, or none finds space (14 R385). -/
def Flash.gcServed (f : Flash) : Bool := match f.serving with
  | some a => (f.room a.size).isNone
  | none => true

/-- NV_ERASE_SECTOR_DONE (14 R392): the sector in hand has been erased; a failed blank check ends the operation, with a
word of it unsettled. Appends suspend the erase (14 R385). -/
def execNvEraseSectorDone (dt : Nat) (verified : Bool) (s : State) : Host.Outcome State Fault Refusal :=
  s.run dt fun d =>
    let o := d.nv.op
    match o.sectors with
    | n :: rest =>
      if o.busy && o.kind = 2 && d.nv.gcServed && o.startedAt ≤ d.now then
        let k : Fin 16 := ⟨n % 16, Nat.mod_lt _ (by decide)⟩
        let d1 := (d.setNv fun f => f.eraseRaw k).eraseRecord k
        if !verified then
          let w := Config.failedWord (4096 * k.val) 512 d.now % 512
          let a := 4096 * k.val + 8 * w
          let d2 := (d1.setNv fun f => { f with
              torn := (a / 8, List.replicate 8 0xFF, List.replicate 8 0, false) :: f.torn, op := { f.op with failAddr := a } }).rawEnd 2 o.done
          (d2.verifyFail (0x80 + k.val) a none).nvDone
        else if rest.isEmpty then (d1.rawEnd 0 (o.done + 1)).nvDone
        else d1.setNv fun f => { f with op := { f.op with done := o.done + 1, sectors := rest } }
      else d
    | [] => d

/-! ### Appends and garbage collection -/

/-- No new flash work starts: below the flash floor (17 R491), and in steps 5 and 6 of a power-down sequence but for its
marker (17 R498). -/
def Dev.flashStill (d : Dev) : Bool := d.pd.floor || d.pd.step = .idleFlash

/-- RECORD_APPEND_DONE (14 R385, R400, R411): the words of the append in hand have had their 12 µs each, and it is in its
sector; one that fails verification is a torn record, and the flash check of the sector starts. One that finds no space
waits while garbage collection may give it some (14 R403). -/
def execRecordAppendDone (dt : Nat) (verified : Bool) (s : State) : Host.Outcome State Fault Refusal :=
  s.run dt fun d =>
    match d.nv.serving with
    | some a =>
      if d.now < d.nv.servedBy a || d.flashStill then d else
      let d1 := d.setNv fun f => Flash.resume { f with appends := f.appends.erase a, servedAt := f.servedBy a } (f.servedBy a)
      match d1.nv.room a.size with
      | some (f, k) =>
        let off := (f.sectors.get k).used
        let w := Config.failedWord (8192 * k.val + off) (a.size / 8) d.now % (a.size / 8)
        if verified then d1.setNv fun _ => f.putRec k a.rec_
        else (d1.setNv fun _ => f.putRec k (a.rec_.unverified w)).verifyFail (0x70 + k.val) (8192 * k.val + off + 8 * w) (some a)
      | none => if d.gcRunning then d else d1.storeFull a.key a.host
    | none => d

/-- FLASH_CHECK_DONE (07 R223, 14 R411), 1 ms after the check began: INTERNAL retires the sector; after LOAD or TRANSIENT on a record append the
record is appended again. -/
def execFlashCheckDone (dt : Nat) (result : CheckResult) (s : State) : Host.Outcome State Fault Refusal :=
  s.run dt fun d =>
    match d.nv.checks with
    | (unit, after, start) :: rest =>
      if d.now < start + msec then d else
      let o : CheckOutcome := match result with
        | .failed => .internal
        | .incomplete => .inconclusive
        | .passed => if d.therm.coldBlock then .inconclusive else .transient
      let d1 := (d.setNv fun f => { f with checks := rest }).unitChecked unit 0x84 o 1000
      match o with
      | .internal => d1.setNv fun f =>
          if unit < 0x80 then { f with recRetired := f.recRetired ||| BitVec.ofNat 16 (2 ^ (unit % 16)) }
          else { f with rawRetired := f.rawRetired ||| BitVec.ofNat 16 (2 ^ (unit % 16)) }
      | .transient | .load => match after with
        | some a => d1.setNv fun f => f.enqueue d.now a.key a.tomb a.value a.host
        | none => d1
      | .inconclusive => d1
    | [] => d

/-- A garbage collection of sector `k` begins with its first copy, which goes before a raw program (14 R385, R401). -/
def Flash.gcBegin (f : Flash) (now : Nat) (k : Fin 16) : Flash :=
  let todo := f.toCopy k
  { f with gc := some { victim := k, todo := todo, words := 0, at_ := now } }.yieldRaw now ((todo.map Rec.size).headD 0 / 8)

/-- The copy in hand is done at time `t`: the next one begins, or the erase of the victim; a retired victim is not erased
(14 R401). What has been superseded meanwhile is not copied. -/
def Flash.gcNext (f : Flash) (t : Nat) (g : GcRun) (rest : List Rec) : Flash :=
  let todo := rest.filter f.isLive
  if todo.isEmpty && f.retiredRec g.victim.val then { f with gc := none }
  else { f with gc := some { g with todo := todo, words := 0, at_ := t } }.yieldRaw t ((todo.map Rec.size).headD 0 / 8)

/-- When the copy in hand will have been programmed (14 R385). -/
def GcRun.copiedBy (g : GcRun) (r : Rec) : Nat := g.at_ + wordTime * (r.size / 8 - g.words)

/-- The victim has been erased: its header carries its erase count, plus one (14 R401). One that fails its blank check is
neither erased nor readable (14 R391, R399). -/
def Flash.gcErased (f : Flash) (k : Fin 16) (verified : Bool) : Flash :=
  { f with
    gc := none
    sectors := f.sectors.modify k fun x =>
      { x with st := if verified then .erased else .dirty, recs := [], erases := stick 32 (x.erases + 1) } }

/-- GARBAGE_COLLECTION (14 R401): one starts where it is due; of one under way the copy in hand, or the erase of the victim,
is done and `gc.verified` tells how its verification ended. A copy that fails is made again; the victim is not erased before
every copy has passed. Appends go first (14 R385). -/
def execGarbageCollection (gc : GcStep) (s : State) : Host.Outcome State Fault Refusal :=
  s.run gc.dt fun d =>
    match d.nv.gc with
    | none => match d.nv.victim with
      | some k => if d.gcDue && !d.flashStill then d.setNv fun f => f.gcBegin d.now k else d
      | none => d
    | some g =>
      if d.flashStill || !d.nv.gcServed then d
      else match g.todo with
      | r :: rest =>
        if d.now < g.copiedBy r then d
        else match d.nv.room r.size with
        | none => d.setNv fun f => { f with gc := none }
        | some (f, k) =>
          let off := (f.sectors.get k).used
          let w := Config.failedWord (8192 * k.val + off) (r.size / 8) d.now % (r.size / 8)
          if gc.verified then d.setNv fun _ => (f.putRec k r).gcNext (g.copiedBy r) g rest
          else (d.setNv fun _ => { f.putRec k (r.unverified w) with gc := some { g with words := 0, at_ := g.copiedBy r } }).verifyFail
            (0x70 + k.val) (8192 * k.val + off + 8 * w) none
      | [] =>
        if d.now < g.at_ then d
        else if gc.verified then d.setNv fun f => f.gcErased g.victim true
        else (d.setNv fun f => f.gcErased g.victim false).verifyFail (0x70 + g.victim.val)
          (8192 * g.victim.val + 8 * (Config.failedWord (8192 * g.victim.val) 1024 d.now % 1024)) none

/-! ### The record scan (14 R402, R405) -/

/-- Dirty sectors are erased and given a count one above the highest of the others (14 R402). -/
def Dev.scanDirty (d : Dev) : Dev :=
  (idx 16).foldl (fun d s =>
    if (d.nv.sectors.get s).st = .dirty then
      let top := ((idx 16).map fun k => if k = s then 0 else (d.nv.sectors.get k).erases).foldl max 0
      (d.setNv fun f => { f with sectors := f.sectors.set s { st := .erased, seq := 0, erases := stick 32 (top + 1), recs := [] } }).event
        0x0704 (0x70 + s.val) (leBytes 4 (stick 32 (top + 1)))
    else d) d

/-- Of two open sectors the one with the lower SEQ is full (14 R402). -/
def Flash.closeOlder (f : Flash) : Flash :=
  let top := ((idx 16).filter fun s => (f.sectors.get s).st == .open_).foldl (fun n s => max n (f.sectors.get s).seq) 0
  { f with sectors := f.sectors.map fun x => if x.st = .open_ && x.seq < top then { x with st := .full } else x }

/-- A record whose header is incomplete ends the data of its sector, which is treated as full; every scan that finds it
tells of it (14 R402). -/
def Dev.scanTorn (d : Dev) : Dev :=
  (idx 16).foldl (fun d s =>
    let x := d.nv.sectors.get s
    match x.recs.getLast? with
    | some r =>
      if r.cut && (x.st = .open_ || x.st = .full) then
        (d.setNv fun f => { f with sectors := f.sectors.set s { x with st := .full } }).event 0x0703 (0x70 + s.val)
          (leBytes 2 (x.used - r.size))
      else d
    | none => d) d

/-- The scan loads the lifetime counters of a voice (14 R397, R405); a value at its maximum logs nothing (14 R404). -/
def Dev.loadLifetime (d : Dev) : Dev :=
  { d with voices := d.voices.mapIdx fun v x =>
    match d.nv.loaded (0x10 + v.val / 8) with
    | some r =>
      let c := field r.value (8 * (v.val % 8)) 4
      let n := field r.value (8 * (v.val % 8) + 4) 4
      { x with life := { x.life with cycles := c, seconds := n, cyclesMax := x.life.cyclesMax || c = 0xFFFFFFFF, secondsMax := x.life.secondsMax || n = 0xFFFFFFFF } }
    | none => x }

/-- A duration in 0.1 ms, as an event carries it. -/
def tenthsMs (ticks : Nat) : List Byte := leBytes 2 (sat 16 (report ((ticks : Rat) / (100 * usec : Nat))))

/-- REC_SCAN_DONE (02 R44, 14 R402): the scan that began with a cappella live ends. The index is built, lifetime counts and
the fault-log key are loaded, and held records are written unless the cold block holds. -/
def execRecScanDone (dt : Nat) (_duration : Told) (s : State) : Host.Outcome State Fault Refusal :=
  s.run dt fun d =>
    if d.ctl.liveAt.isSome && !d.nv.scanned then
      let d1 := (d.scanDirty.setNv Flash.closeOlder).scanTorn
      let top := ((List.range 256).filter fun i => (d1.nv.loaded (0x200 + i)).isSome).getLast?
      let erases := Tab.ofFn fun (k : Fin 16) => match d1.nv.loaded (0x300 + k.val) with
        | some r => max (field r.value 0 4) (d1.nv.rawErases.get k)
        | none => d1.nv.rawErases.get k
      let rseq := (d1.nv.recs.map fun r => r.rseq + 1).foldl max d1.nv.nextRseq
      let d2 := (d1.setNv fun f => { f with scanned := true, rawErases := erases, nextRseq := rseq }).loadLifetime
      let d3 := { d2 with sc := { d2.sc with nextKey := match top with
        | some i => (i + 1) % 256
        | none => 0 } }
      (if d3.therm.coldBlock then d3 else d3.flushHeld).event 0x0005 0xFF (tenthsMs (d.now - d.ctl.liveAt.getD 0))
    else d

/-! ### The clean-shutdown marker (14 R406, R407) -/

/-- The temperature of every healthy zone is at or above −45 °C (14 R406, 13 R375). -/
def Dev.marksOk (d : Dev) : Bool :=
  d.therm.zones.all fun z => z.st == .interpolated || decide (-45 ≤ z.temp)

/-- The newest marker is consumed (14 R405). -/
def Flash.consume (f : Flash) : Flash :=
  match f.marker with
  | some m => { f with sectors := f.sectors.map fun x =>
      { x with recs := x.recs.map fun r => if r.key = 1 && r.rseq = m.rseq then { r with consumed := true } else r } }
  | none => f

/-- The marker is consumed now, or at the first slot at or above −45 °C (14 R406). -/
def Dev.consumeMarker (d : Dev) : Dev :=
  if d.marksOk then d.setNv fun f => { f.consume with markDue := false } else d.setNv fun f => { f with markDue := true }

/-- A deferred consumption is made once the zones have reached −45 °C (14 R406). -/
def Dev.markIfDue (d : Dev) : Dev := if d.nv.markDue && d.marksOk then d.consumeMarker else d

/-- Control boot finds the newest marker (14 R406); `por` tells a power-on from a control-die restart. -/
def Dev.bootMarker (d : Dev) (por : Bool) : Dev :=
  let fresh := match d.nv.marker with
    | some m => !m.consumed
    | none => false
  let base := match d.nv.loaded 2 with
    | some r => max (field r.value 0 2) d.ctl.lostSessions
    | none => d.ctl.lostSessions
  let lost := stick 16 (base + 1)
  if fresh then { d.consumeMarker with ctl := { d.consumeMarker.ctl with unsaved := false, lostSessions := base } }
  else if por then
    ({ d with ctl := { d.ctl with unsaved := true, lostSessions := lost } }).deviceRecord 2 (leBytes 2 lost)
  else { d with ctl := { d.ctl with lostSessions := base } }

/-! ### The save (14 R405) -/

/-- The lifetime keys of the save: eight voices a key (14 R397). -/
def Dev.lifetimeValue (d : Dev) (g : Nat) : List Byte :=
  ((idx 48).filter fun v => v.val / 8 = g).flatMap fun v => leBytes 4 (d.cyclesOf v) ++ leBytes 4 (d.secondsOf v)

/-- The session is folded into the loaded values (14 R405). -/
def Dev.foldSession (d : Dev) : Dev :=
  { d with voices := d.voices.mapIdx fun v x => { x with life := { x.life with
      cycles := d.cyclesOf v, seconds := d.secondsOf v, sessionCycles := 0, sessionTicks := 0 } } }

/-- Every append in hand is done (14 R394). -/
def Dev.finishAppends (d : Dev) : Dev :=
  d.nv.appends.foldl (fun d a => match d.nv.room a.size with
    | some (f, s) => d.setNv fun _ => f.putRec s a.rec_
    | none => d.storeFull a.key a.host) (d.setNv fun f => Flash.resume { f with appends := [] } d.now)

/-- The save begins (17 R498 step 4): behind what is in hand come the held records, then the six lifetime keys (14 R405). -/
def Dev.saveBegin (d : Dev) : Dev :=
  let d1 := (d.setNv fun f => f.pause d.now).flushHeld
  (List.range 6).foldl (fun d g => d.appendRecord (0x10 + g) (d.lifetimeValue g)) d1

/-- The copy in hand, if one has begun, completes (17 R498 step 5). -/
def Flash.finishCopy (f : Flash) : Flash :=
  match f.gc with
  | some g => match g.todo with
    | r :: rest => if g.words = 0 then f else match f.room r.size with
      | some (f1, s) => (f1.putRec s r).gcNext f.servedAt g rest
      | none => f
    | [] => f
  | none => f

/-- Words that copy still takes: at most 10. -/
def Flash.copyLeft (f : Flash) : Nat :=
  match f.gc with
  | some g => match g.todo with
    | r :: _ => if g.words = 0 then 0 else r.size / 8 - g.words
    | [] => 0
  | none => 0

/-- The marker's record is in its sector (14 R405). -/
def Dev.finishMarker (d : Dev) : Dev :=
  match d.nv.appends.find? fun a => a.key = 1 with
  | some a =>
    let d1 := d.setNv fun f => { f with appends := f.appends.erase a, servedAt := d.now }
    match d1.nv.room a.size with
    | some (f, s) => d1.setNv fun _ => f.putRec s a.rec_
    | none => d1.storeFull 1 false
  | none => d

/-- The appends in hand when they are interrupted, the flash having had time for `n` words: those that fit in it stand, the
next is torn, the others are lost (14 R394, R398). -/
def Flash.landAppends (f : Flash) (n : Nat) (settles : Bool) : List Append → Flash
  | [] => f
  | a :: rest =>
    match f.room a.size with
    | none => f.landAppends n settles rest
    | some (f1, s) =>
      let left := a.size / 8 - a.words
      if left ≤ n then (f1.putRec s a.rec_).landAppends (n - left) settles rest
      else f1.putRec s (a.rec_.interrupted (a.words + n) settles)

/-- A garbage collection is interrupted: the copy in hand is torn, an erase leaves its sector dirty (14 R394, R399). -/
def Flash.tearGc (f : Flash) (now : Nat) (settles : Bool) : Flash :=
  match f.gc with
  | some g => match g.todo with
    | r :: _ =>
      let k := g.words + (if f.appends.isEmpty then (now - g.at_) / wordTime else 0)
      match f.room r.size with
      | some (f1, s) => { (if k = 0 && !f.appends.isEmpty then f else f1.putRec s (r.interrupted (min k (r.size / 8 - 1)) settles)) with gc := none }
      | none => { f with gc := none }
    | [] => { f with gc := none, sectors := f.sectors.modify g.victim fun x => { x with st := .dirty, recs := [] } }
  | none => f

/-- The record store at an interruption (14 R394): `settles` tells a restart, at which the word in progress completes, from
a collapse of the supply. -/
def Flash.tearAppend (f : Flash) (now : Nat) (settles : Bool) : Flash :=
  let order := (f.appends.filter fun a => !a.host) ++ f.appends.filter (·.host)
  let f1 := f.tearGc now settles
  { f1.landAppends ((now - f.servedAt) / wordTime) settles order with appends := [] }

/-! ### The opcodes -/

/-- The words and sectors a range touches. -/
def sectorsOf (a n : Nat) : List Nat := (List.range 16).filter fun s => s * 4096 < a + n && a < (s + 1) * 4096

/-- Sector `s` of the raw region is protected, or retired and so counts as protected (14 R387, R411). -/
def Flash.isProtected (f : Flash) (s : Nat) : Bool :=
  f.rawRetired.getLsbD s || (match f.protect with
    | 0 => false
    | 1 => 12 ≤ s
    | 2 => 8 ≤ s
    | _ => true)

/-- NV_READ at its commit edge (14 R393, R415). -/
def opNvRead (p : List Byte) (d : Dev) : Answer :=
  let a := field p 0 4
  let n := field p 4 2
  let o := d.nv.op
  if n = 0 || 8152 < n || 0x10000 < a + n then fail stBadParam []
  else
    let done := d.nv.wordsDone d.now
    let todo := (List.range (o.total - done)).map fun i => (o.addr + 8 * (done + i)) / 256
    let busy := o.busy && (if o.kind = 2 then (sectorsOf a n).contains (o.sectors.headD 16)
      else todo.any fun g => a / 256 ≤ g && g ≤ (a + n - 1) / 256)
    if busy then fail stBusy []
    else ok (leBytes 4 a ++ leBytes 2 n ++ [0, 0] ++ (d.nv.current d.now).bytes d.now a n)

/-- NV_PROGRAM at its commit edge: the checks of 14 R412 in order. -/
def opNvProgram (p : List Byte) (d : Dev) : Dev × Answer :=
  let a := field p 0 4
  let data := p.drop 8
  let and_ := (byteAt p 4).testBit 0
  let f := d.nv
  let words := data.length / 8
  let old := f.bytes d.now a data.length
  let blankAt := (List.range words).find? fun w => ((old.drop (8 * w)).take 8).any (· != 0xFF)
  let thirdAt := (List.range words).find? fun w => 2 ≤ wordCount f.programs (a / 8 + w)
  let result := if and_ then (old.zip data).map fun b => b.1 &&& b.2 else data
  let differs := if and_ then ((List.range words).filter fun w => (result.drop (8 * w)).take 8 != (data.drop (8 * w)).take 8).length else 0
  if a % 8 != 0 then (d, fail stBadParam (0 :: leBytes 4 a))
  else if 0x10000 < a + data.length then (d, fail stBadParam (1 :: leBytes 4 (max a 0x10000)))
  else if (sectorsOf a data.length).any f.isProtected then (d, fail stProtected [])
  else if d.therm.coldBlock then (d, fail stCold [])
  else if f.op.busy then (d, fail stBusy [])
  else if !and_ && blankAt.isSome then (d, fail stNotBlank (leBytes 4 (a + 8 * blankAt.getD 0)))
  else if thirdAt.isSome then (d, fail stBadParam (2 :: leBytes 4 (a + 8 * thirdAt.getD 0)))
  else
    let op : RawOp := { kind := 1, result := 1, addr := a, total := words, done := 0, failAddr := 0xFFFFFFFF, data := result
                        sectors := [], startedAt := d.now, base := 0, busy := true }
    (d.setNv fun f => { f with op := op }, ok (leBytes 2 words ++ leBytes 2 differs))

/-- NV_ERASE at its commit edge (14 R413). -/
def opNvErase (p : List Byte) (d : Dev) : Dev × Answer :=
  let m := field p 0 2
  let ss := (List.range 16).filter m.testBit
  if ss.isEmpty then (d, fail stBadParam [])
  else if ss.any d.nv.isProtected then (d, fail stProtected [])
  else if d.therm.coldBlock then (d, fail stCold [])
  else if d.nv.op.busy then (d, fail stBusy [])
  else
    let op : RawOp := { kind := 2, result := 1, addr := 4096 * ss.headD 0, total := ss.length, done := 0, failAddr := 0xFFFFFFFF
                        data := [], sectors := ss, startedAt := d.now, base := 0, busy := true }
    (d.setNv fun f => { f with op := op }, ok (leBytes 2 m ++ leBytes 2 (20 * ss.length)))

/-- NV_PROTECT at its commit edge (14 R414). -/
def opNvProtect (p : List Byte) (d : Dev) : Dev × Answer :=
  let l := byteAt p 0
  if 3 < l then (d, fail stBadParam []) else (d.setNv fun f => { f with protect := l }, ok [b8 l])

/-- A host key (14 R397). -/
def hostKey (k : Nat) : Bool := 0x8000 ≤ k && k ≤ 0x80FF

/-- REC_WRITE at its commit edge (14 R416). -/
def opRecWrite (p : List Byte) (d : Dev) : Dev × Answer :=
  let k := field p 0 2
  let v := p.drop 2
  if !hostKey k then (d, fail stBadParam [])
  else if d.therm.coldBlock then (d, fail stCold [])
  else if !d.hasRoom (recSize v.length) then (d.storeFull k true, fail stBusy [])
  else (d.setNv fun f => f.enqueue d.now k false v true, ok (leBytes 4 d.nv.nextRseq))

/-- REC_DELETE at its commit edge (14 R416). -/
def opRecDelete (p : List Byte) (d : Dev) : Dev × Answer :=
  let k := field p 0 2
  if !hostKey k then (d, fail stBadParam [])
  else if d.therm.coldBlock then (d, fail stCold [])
  else if (d.nv.holds k).isNone then (d, ok [0])
  else if !d.hasRoom (recSize 0) then (d.storeFull k true, fail stBusy [])
  else (d.setNv fun f => f.enqueue d.now k true [] true, ok [1])

/-- The assigned keys in ascending order (14 R397). -/
def assignedKeys : List Nat :=
  [1, 2] ++ idsFrom 0x10 6 ++ idsFrom 0x100 256 ++ idsFrom 0x200 256 ++ idsFrom 0x300 16 ++ idsFrom 0x8000 256

/-- REC_READ from the snapshot (14 R417). -/
def opRecRead (snap : Dev) (p : List Byte) : Answer :=
  let a := field p 0 2
  let b := field p 2 2
  let n := byteAt p 4
  if b < a || n = 0 || 100 < n then fail stBadParam []
  else
    let rs := (assignedKeys.filter fun k => a ≤ k && k ≤ b).filterMap snap.nv.holds
    let got := rs.take n
    ok ([b8 (boolNat (n < rs.length)), b8 got.length] ++ got.flatMap fun r =>
      leBytes 2 r.key ++ [b8 r.value.length, 0] ++ leBytes 4 r.rseq ++ r.value)

/-- A record as it stands in the store (14 R398): of a torn one the words after the tear are erased, and the bits of a word
that is not settled read either value (14 R395). -/
def Rec.bytes (r : Rec) (addr now : Nat) : List Byte :=
  let head := leBytes 2 r.key ++ [b8 r.value.length, if r.tomb then 0xD5 else 0x5A] ++ leBytes 4 r.rseq
  let crc := leBytes 2 (crc16 (head ++ r.value))
  let pad := List.replicate ((8 - r.value.length % 8) % 8) 0xFF
  let whole := head ++ crc ++ (if r.consumed then [0, 0] else [0xFF, 0xFF]) ++ [0xFF, 0xFF, 0xFF, 0xFF] ++ r.value ++ pad
  whole.mapIdx fun i b =>
    if r.bad.any fun w => w.1 = i / 8 then tornByte 0xFF b (Config.flashByte (0x10000 + addr + i) now)
    else if i / 8 < r.words then b else 0xFF

/-- The records of a sector back to back from an address. -/
def recBytes (now : Nat) : Nat → List Rec → List Byte
  | _, [] => []
  | a, r :: rs => r.bytes a now ++ recBytes now (a + r.size) rs

/-- The 8 KiB of a record-store sector (14 R399); a sector erased by garbage collection carries its header with its erase
count (14 R401). -/
def Flash.sectorBytes (f : Flash) (now : Nat) (s : Fin 16) : List Byte :=
  let x := f.sectors.get s
  let head := match x.st with
    | .erased => if x.erases = 0 then [] else [0x16, 0x5A, 0x3B, 0x7E, 0xFF, 0xFF, 0xFF, 0xFF] ++ leBytes 4 x.erases ++ [0xFF, 0xFF, 0xFF, 0xFF]
    | .full => [0x16, 0x5A, 0x3B, 0x7E] ++ leBytes 4 x.seq ++ leBytes 4 x.erases ++ [0, 0, 0, 0]
    | _ => [0x16, 0x5A, 0x3B, 0x7E] ++ leBytes 4 x.seq ++ leBytes 4 x.erases ++ [0xFF, 0xFF, 0xFF, 0xFF]
  let body := head ++ recBytes now (8192 * s.val + 16) x.recs
  if x.st = .dirty then (List.range 8192).map fun i => Config.flashByte (0x10000 + 8192 * s.val + i) now
  else (body ++ List.replicate (8192 - body.length) 0xFF).take 8192

/-- The word at byte `o` of a sector is not settled, and so whether it reads weak: surely, or free (14 R395). -/
def weakRec (o : Nat) (free : Bool) : Nat → List Rec → Bool
  | _, [] => false
  | a, r :: rs => (a ≤ o && r.bad.any fun w => a + 8 * w.1 = o && (w.2 || free)) || weakRec o free (a + r.size) rs

/-- MARGIN_READ at its commit edge (14 R418): a torn word and one programmed a third time read weak (14 R390, R395); whether
one that failed its verification or stands in an undefined sector does is free. -/
def opMarginRead (p : List Byte) (d : Dev) : Answer :=
  let region := byteAt p 0
  let page := field p 2 2
  if 1 < region || (if region = 0 then 256 else 512) ≤ page then fail stBadParam []
  else if d.nv.op.busy || !d.nv.appends.isEmpty || d.nv.gc.isSome || d.pd.step = .save || d.pd.step = .idleFlash then fail stBusy []
  else
    let f := d.nv
    let k : Fin 16 := ⟨page / 32 % 16, Nat.mod_lt _ (by decide)⟩
    let weak := (List.range 32).map fun w =>
      if region = 0 then
        let a := 256 * page + 8 * w
        let free := Config.marginWeak a d.now
        (f.undefinedSectors.getLsbD (a / 4096) && free) || f.torn.any (fun t => t.1 = a / 8 && (t.2.2.2 || free))
      else
        let o := 256 * (page % 32) + 8 * w
        let free := Config.marginWeak (0x10000 + 8192 * k.val + o) d.now
        ((f.sectors.get k).st == .dirty && free) || weakRec o free 16 (f.sectors.get k).recs
    let bytes := if region = 0 then f.bytes d.now (256 * page) 256
      else ((f.sectorBytes d.now k).drop (256 * (page % 32))).take 256
    ok ([b8 region, 0] ++ leBytes 2 page ++ [b8 (weak.filter id).length, 0, 0, 0] ++ leBytes 4 (packBits weak) ++ bytes)

/-- NV_STATUS from the snapshot (14 R419). -/
def opNvStatus (snap : Dev) : Answer :=
  let f := snap.nv
  let o := f.op
  let rest : List Byte :=
    leBytes 2 f.rawRetired.toNat ++ leBytes 2 f.recRetired.toNat ++
    [b8 f.erased.length, b8 ((f.openSector.map (·.val)).getD 0xFF)] ++
    leBytes 2 (sat 16 (report (((f.liveRecs.map Rec.size).sum : Nat) / (16 : Rat)))) ++
    leBytes 4 f.nextRseq ++ f.rawErases.list.flatMap (leBytes 4) ++ f.sectors.list.flatMap fun x => leBytes 4 x.erases
  ok ([b8 (packBits [false, false, false, snap.recScanning, snap.therm.coldBlock, snap.gcRunning, o.busy && o.kind = 2, o.busy && o.kind = 1]),
       b8 f.protect, b8 o.kind, b8 o.result] ++ leBytes 4 o.addr ++ leBytes 2 o.total ++ leBytes 2 (f.wordsDone snap.now) ++
      leBytes 4 o.failAddr ++ (if f.scanned then rest else List.replicate 140 0))

/-- LIFETIME_READ from the snapshot (14 R420). -/
def opLifetimeRead (snap : Dev) : Answer :=
  let cMax (v : VoiceId) : Bool := snap.cyclesOf v = 0xFFFFFFFF
  let nMax (v : VoiceId) : Bool := snap.secondsOf v = 0xFFFFFFFF
  let any := (idx 48).any fun v => cMax v || nMax v
  ok (leBytes 2 snap.ctl.lostSessions ++ [b8 (boolNat snap.ctl.unsaved * 128 + boolNat any * 64), 0, 0, 0, 0, 0] ++
    (idx 48).flatMap fun v =>
      leBytes 4 (snap.cyclesOf v) ++ leBytes 4 (snap.secondsOf v) ++ leBytes 2 (stick 16 (snap.voice v).life.sessionCycles) ++
      [b8 (boolNat (cMax v) * 128 + boolNat (nMax v) * 64), 0])

end Sys2Proof.Machine
end

