-- ==== Sys2Proof/Machine/Converter.lean ====
section
/-! DEFINITION. The conversion subsystem: scans, conversions, correction, averaging, buffers, open-wire detection, and
what a conversion gives the thermal model and the plunger search (11, 10 R289, 13 R356). -/

namespace Sys2Proof.Machine
open Sys2Proof

def Dev.modEngine (d : Dev) (e : EngineId) (f : Engine → Engine) : Dev :=
  { d with conv := { d.conv with engines := d.conv.engines.modify e f } }
def Dev.modSlice (d : Dev) (k : Fin 9) (f : Slice → Slice) : Dev :=
  { d with conv := { d.conv with slices := d.conv.slices.modify k f } }
def Dev.modAux (d : Dev) (a : Fin 8) (f : Aux → Aux) : Dev :=
  { d with conv := { d.conv with aux := d.conv.aux.modify a f } }

/-- A word of engine `e` at offset `k` (04 R120). -/
def engWord (e : EngineId) (k : Nat) : Nat := 0x3000 + 16 * e.val + k
def Dev.engTrig (d : Dev) (e : EngineId) : Nat := d.fld (engWord e 4) 0 3
def Dev.engEnabled (d : Dev) (e : EngineId) : Bool := engineEnabled d.word e.val
/-- The buffer capacity in records (11 R311). -/
def Dev.engCap (d : Dev) (e : EngineId) : Nat := d.fld (engWord e 5) 0 8 * 256
/-- The inputs in the engine's mask, ascending. -/
def Dev.engInputs (d : Dev) (e : EngineId) : List Nat := (List.range 120).filter (engineMask d.word e.val)
/-- Engines run in every mode but HALTED, and from a cappella live (11 R326). -/
def Dev.convLive (d : Dev) : Bool := d.ctl.liveAt.isSome && d.ctl.mode != .halted && d.ctl.mode != .starting

/-- The inputs that one scan converts, in order (11 R303, R305). -/
def Dev.scanInputs (d : Dev) (e : EngineId) : List Nat :=
  let m := d.engInputs e
  if d.fld (engWord e 4) 3 1 = 1 then m ++ m else m

/-- Start a scan whose first sample falls `delay` ticks from now (11 R303, R312). -/
def Dev.startScan (d : Dev) (e : EngineId) (delay : Nat) : Dev :=
  let n := (d.conv.engines.get e).scanNo
  let vs : List Visit := (d.scanInputs e).mapIdx fun k i =>
    { scan := n, input := i, slice := 2 * e.val + k % 2, at_ := d.now + delay + 300 * k, corr := none, unit := none }
  let entry : ScanEntry := { scan := n, tbc := d.time.tbc + delay, urgent := 0, fallbackTb := d.time.onFallback }
  d.modEngine e fun x => { x with scanNo := n + 1, todo := x.todo ++ vs, log := (entry :: x.log).take 1024 }

/-- The scan period of a continuous engine in ticks (11 R304). -/
def Dev.scanPeriod (d : Dev) (e : EngineId) : Nat :=
  let m := (d.scanInputs e).length
  300 * (m + m % 2)

/-- SCAN_START (11 R304): the scan period of a continuous engine has elapsed. -/
def execScanStart (dt : Nat) (e : EngineId) (s : State) : Host.Outcome State Fault Refusal :=
  s.run dt fun d =>
    let x := d.conv.engines.get e
    if d.convLive && d.engEnabled e && d.engTrig e = 0 && !x.paused && decide (x.nextScan ≤ d.now) then
      (d.startScan e 0).modEngine e fun x => { x with nextScan := x.nextScan + max 1 (d.scanPeriod e) }
    else d

/-- The ATRG edge that starts the engine's scans (11 R306, 04 R120). -/
def trigSelects (trig : Nat) (pin : Fin 2) (rising : Bool) : Bool :=
  match trig with
  | 1 => pin = 0 && rising
  | 2 => pin = 0 && !rising
  | 3 => pin = 0
  | 4 => pin = 1 && rising
  | 5 => pin = 1 && !rising
  | 6 => pin = 1
  | _ => false

/-- The first sample follows a trigger edge by 12 to 16 ns on a control clock edge: by five or six cycles, which of them is
free (11 R306, log entry 10). -/
def atrgDelay (e : EngineId) (now : Nat) : Nat := if Config.atrgLate e.val now then 48 else 40

/-- ATRG_EDGE (11 R306, R307): the pins read low while VIO is absent. -/
def execAtrgEdge (dt : Nat) (pin : Fin 2) (rising : Bool) (s : State) : Host.Outcome State Fault Refusal :=
  s.run dt fun d =>
    if d.port.vioValid && d.convLive then
      (idx 4).foldl (fun d e =>
        let x := d.conv.engines.get e
        if d.engEnabled e && trigSelects (d.engTrig e) pin rising && !x.paused then
          if x.todo.isEmpty then d.startScan e (atrgDelay e d.now)
          else d.modEngine e fun x => { x with trigOverrun := stick 16 (x.trigOverrun + 1) }
        else d) d
    else d

/-! ### One conversion -/

/-- The correction of a raw code (11 R309). -/
def corrected (w : Word) (r : Nat) : Nat :=
  let y : Int := ((r * bits w 16 16 + 8192) / 16384 : Nat) + toSigned 16 (bits w 0 16)
  min (max y 0).toNat 16383

/-- A record enters the engine's buffer (11 R311). -/
def Dev.putRecord (d : Dev) (e : EngineId) (w : Word) (scan : Nat) : Dev :=
  let cap := d.engCap e
  d.modEngine e fun x =>
    let lost := decide (cap ≤ x.write - x.read)
    { x with buffer := ((w, scan) :: x.buffer).take cap, write := x.write + 1
             read := if lost then x.read + 1 else x.read, overrun := if lost then stick 16 (x.overrun + 1) else x.overrun }

/-- The result record (11 R308). -/
def recordWord (value input : Nat) (valid ow avg : Bool) (scan : Nat) : Word :=
  BitVec.ofNat 32 (value * 0x10000 + input * 0x200 + boolNat valid * 0x100 + boolNat ow * 0x80 + boolNat avg * 0x40 + scan % 64)

/-- A plain conversion goes to a record, directly or through its averaging block (11 R310). -/
def Dev.plainRecord (d : Dev) (e : EngineId) (input scan y : Nat) (valid ow : Bool) : Dev :=
  let n := d.fld (engWord e 4) 4 4
  if n = 0 then d.putRecord e (recordWord y input valid ow false scan) scan
  else
    let bs := (d.conv.engines.get e).blocks
    let b0 : Block := (bs.find? fun b => b.input = input).getD { input := input, sum := 0, count := 0, valid := true, ow := false }
    let b : Block := { b0 with sum := b0.sum + y, count := b0.count + 1, valid := b0.valid && valid, ow := b0.ow || ow }
    let rest := bs.filter fun b => b.input != input
    if b.count < 2 ^ n then d.modEngine e fun x => { x with blocks := b :: rest }
    else
      let value := min (b.sum >>> d.fld (engWord e 4) 8 4) 0xFFFF
      (d.modEngine e fun x => { x with blocks := rest }).putRecord e (recordWord value input b.valid b.ow true scan) scan

/-- The NTC fault of an AUX input is raised and logged (11 R324). -/
def Dev.ntcRaise (d : Dev) (a : Fin 8) (why : Nat) : Dev :=
  if (d.conv.aux.get a).ntcFault then d.modAux a fun x => { x with ntcGood := 0 }
  else (d.modAux a fun x => { x with ntcFault := true, ntcGood := 0 }).event 0x0407 a.val [b8 why]

def Dev.owEn (d : Dev) (a : Fin 8) : Bool := bit (d.word 0x30C0) a.val
def Dev.ntcBit (d : Dev) (a : Fin 8) : Bool := bit (d.word 0x30C0) (8 + a.val)

/-- A test visit of an AUX input (11 R321): 0.25 V is 819.15 codes, 4.90 V is code 16,055.3. While OPEN stands, LAST_GOOD stays
the last visit that passed before it rose (11 R323). `tbc` is the visit's instant. -/
def Dev.testVisit (d : Dev) (a : Fin 8) (scan y : Nat) (tbc : Int) : Dev :=
  let x := d.conv.aux.get a
  if x.plain + 819 < y || 16056 ≤ y then
    let d1 := d.modAux a fun x => { x with test := false, isOpen := true, passRun := 0 }
    let good := match x.lastGood with
      | some (n, _) => n
      | none => 0xFFFFFFFF
    let d2 := if x.isOpen then d1 else d1.event 0x0405 a.val (leBytes 4 good)
    if d2.ntcBit a then d2.ntcRaise a 0 else d2
  else
    let run := stick 8 (x.passRun + 1)
    let clears := x.isOpen && 4 ≤ run
    let d1 := d.modAux a fun x => { x with
      test := false, passRun := run, isOpen := x.isOpen && !clears
      lastGood := if x.isOpen && !clears then x.lastGood else some (scan, tbc) }
    if clears then d1.event 0x0406 a.val [] else d1

/-- A plain visit of an AUX input: its value, the next visit, and the NTC conditions (11 R320, R324); 50 mV is code
163.8, 4.95 V is code 16,219.2. -/
def Dev.auxPlain (d : Dev) (a : Fin 8) (y : Nat) : Dev :=
  let d1 := d.modAux a fun x => { x with plain := y, test := d.owEn a }
  if d.ntcBit a then
    if y ≤ 163 then d1.ntcRaise a 1
    else if 16220 ≤ y then d1.ntcRaise a 2
    else if (d.conv.aux.get a).isOpen then d1.ntcRaise a 0
    else
      d1.modAux a fun x =>
        let n := stick 8 (x.ntcGood + 1)
        { x with ntcGood := n, ntcFault := x.ntcFault && decide (n < 4) }
  else d1

/-! ### What conversions give the model and the plunger search -/

/-- The least mean current of a quiet anchor in A (13 R360). -/
def Dev.quietMin (d : Dev) (v : VoiceId) : Rat := if !classH v.val then 1 else if (d.voice v).half then 5 / 2 else 5

/-- One conversion of IS joins the quiet window of a voice that is ON: a current off the window's mean by more than 2 %,
or at the limit, restarts it (13 R360). -/
def QuietWindow.add (w : Option QuietWindow) (now : Nat) (i r limit : Rat) : Option QuietWindow :=
  let fresh : QuietWindow := { since := now, count := 1, sumI := i, minI := i, maxI := i, sumR := r }
  if limit ≤ i then none
  else match w with
    | none => some fresh
    | some q =>
      let q1 : QuietWindow := { since := q.since, count := q.count + 1, sumI := q.sumI + i, minI := ratMin q.minI i
                                maxI := ratMax q.maxI i, sumR := q.sumR + r }
      let mean := q1.sumI / q1.count
      if q1.maxI ≤ mean * 102 / 100 && mean * 98 / 100 ≤ q1.minI then some q1 else some fresh

/-- A conversion of IS(v) sampled at `t` feeds the model (13 R356, R358, R360). -/
def Dev.feedCurrent (d : Dev) (v : VoiceId) (y t : Nat) : Dev :=
  let i := ampsOf v y
  let vds := d.vbat (bankOf v) - d.vout v
  let x := d.voice v
  let p : Rat := if x.gate || x.clamp.isSome then i * vds else 0
  let ohms : Rat := if i = 0 then 0 else vds / i
  let inBlip := match d.therm.blip with
    | some (b, some e) => d.headOf b = d.headOf v && decide (e ≤ t + 30 * usec) && decide (t ≤ e)
    | _ => false
  let step : Rat := if classH v.val then 1 / 4 else 1 / 16   -- half a class step in A
  d.modVoice v fun x => { x with therm := { x.therm with
    power := (x.therm.power.1 + p, x.therm.power.2 + 1), convertedAt := t + 600
    blipWin := if inBlip then (x.therm.blipWin.1 + 1, x.therm.blipWin.2.1 + i, x.therm.blipWin.2.2 + ohms) else x.therm.blipWin
    quiet := if x.st = .on && x.gate && x.ramp == .none then QuietWindow.add x.therm.quiet t i ohms (x.limit * step)
             else none } }

/-- The step of the plunger search on one conversion (10 R289): the new `top` and `low`, or the instant found. -/
def Search.step (q : Search) (now : Nat) (x dipMin : Rat) : Search ⊕ Nat :=
  let q1 : Search := match q.top with
    | none => { q with top := some (now, x), low := none }
    | some (_, tx) =>
      if tx < x then { q with top := some (now, x), low := none }
      else if dipMin ≤ tx - x && (match q.low with
          | none => true
          | some (_, lx) => decide (x < lx)) then { q with low := some (now, x) }
      else q
  match q1.low with
  | some (t, lx) => if dipMin ≤ x - lx then .inr t else .inl q1
  | none => .inl q1

/-- A lead measurement is taken (10 R291); it clears NOMOTION (10 R290). -/
def Lead.take (l : Lead) (opening : Bool) (ticks : Int) : Lead :=
  let l1 := if opening then { l with opens := (ticks :: l.opens).take 8, lastOpen := ticks }
    else { l with closes := (ticks :: l.closes).take 8, lastClose := ticks }
  { l1 with noMotion := false, search := none }

/-- A conversion sampled at `t` reaches the plunger search of a voice, in mA or mV (10 R289, R290). -/
def Dev.feedSearch (d : Dev) (v : VoiceId) (opening : Bool) (unit : Rat) (t : Nat) : Dev :=
  match (d.voice v).lead.search with
  | none => d
  | some q =>
    let step : Rat := if classH v.val then 250 else 125 / 2   -- half a class step in mA
    let setLead (f : Lead → Lead) : Dev := d.modVoice v fun x => { x with lead := f x.lead }
    if q.opening != opening || t < q.t0 then d
    else if d.vfld v 0x14 16 8 * msec < t - q.t0 then d
    else
      let x := if opening then unit else -unit
      match q.step t x (d.vfld v 0x14 0 12 : Nat) with
      | .inr u => setLead fun l => l.take opening ((u - q.t0 : Nat) : Int)
      | .inl q1 =>
        if opening && decide ((d.peakTarget v : Rat) * step ≤ unit) then setLead fun l => { l with search := none }
        else setLead fun l => { l with search := some q1 }

/-- A completed valid conversion of IS(v) or VO(v) sampled at `t` serves the model and the search. -/
def Dev.sense (d : Dev) (input y t : Nat) : Dev :=
  if h : input < 48 then
    let v : VoiceId := ⟨input, h⟩
    (d.feedCurrent v y t).feedSearch v true (ampsOf v y * 1000) t
  else if h : input < 96 then
    d.feedSearch ⟨input - 48, by omega⟩ false (voltsOf y * 1000) t
  else d

/-- An urgent request is made (11 R313). -/
def Dev.request (d : Dev) (source : UrgentSource) (input : Nat) : Dev :=
  { d with conv := { d.conv with urgent := d.conv.urgent ++ [(source, input)] } }

/-- The unit that makes the conversions of a slice: the descant, where it stands in for it (11 R317, R318). -/
def Dev.maker (d : Dev) (k : Nat) : Nat := if d.conv.standIn = some k || d.conv.replaced = some k then 8 else k

/-- The unit that makes a conversion: the one it began on (11 R317). -/
def Dev.visitMaker (d : Dev) (v : Visit) : Nat := v.unit.getD (d.maker v.slice)

/-- The work of a slice changes hands at conversion boundaries: what has begun ends where it began (11 R317). -/
def Dev.holdMakers (d : Dev) : Dev :=
  { d with conv := { d.conv with engines := d.conv.engines.map fun x => { x with todo := x.todo.map fun v =>
    if v.at_ < d.now then { v with unit := some (d.visitMaker v) } else v } } }

/-- A raw code of an input tells the out-of-range check to begin: none came, or input 111 reads off its expected code
(11 R319). -/
def outOfRange (input : Nat) (raw : Option (BitVec 14)) : Bool :=
  match raw with
  | some r => input = 111 && decide (24 < (if r.toNat ≤ Config.refCode then Config.refCode - r.toNat else r.toNat - Config.refCode))
  | none => true

/-- The out-of-range check of the slice, or of the descant, that made a conversion begins with an urgent request, unless one
runs or it had a decision within 1 s (11 R319). -/
def Dev.rangeCheck (d : Dev) (k input : Nat) (raw : Option (BitVec 14)) : Dev :=
  let i : Fin 9 := ⟨k % 9, Nat.mod_lt _ (by decide)⟩
  let x := d.conv.slices.get i
  let recent := match x.decidedAt with
    | some t => decide (d.now - t < 1000 * msec)
    | none => false
  if x.check.isSome || recent then d
  else
    let d1 := d.modSlice i fun x => { x with check := some { input := input, raw := raw.map (·.toNat), again := none, since := d.now } }
    d1.request .rangeCheck input

/-- The next visit of engine `e` completes, 600 ticks after its sampling instant, with the raw code, or does not complete
(11 R301, R309 to R311, R319, R320). -/
def Dev.conversion (d : Dev) (e : EngineId) (raw : Option (BitVec 14)) : Dev :=
  match (d.conv.engines.get e).todo with
  | [] => d
  | v :: rest =>
    if d.now < v.at_ + 600 then d else
    let d0 := d.modEngine e fun x => { x with todo := rest }
    let i : Fin 120 := ⟨v.input % 120, Nat.mod_lt _ (by decide)⟩
    let valid := raw.isSome
    let y := match raw with
      | some r => corrected (v.corr.getD (d.word (0x3040 + i.val))) r.toNat
      | none => 0
    let d1 := if outOfRange i.val raw then d0.rangeCheck (d.visitMaker v) i.val raw else d0
    let aux : Option (Fin 8) := if 100 ≤ i.val && i.val < 108 then some ⟨(i.val - 100) % 8, Nat.mod_lt _ (by decide)⟩ else none
    let plain (d : Dev) (ow : Bool) : Dev :=
      let c : Conv := { y := y, valid := valid, scan := v.scan, at_ := v.at_ + 600 }
      let d2 := { d with conv := { d.conv with newest := d.conv.newest.set i (some c) } }
      let d3 := d2.plainRecord e i.val v.scan y valid ow
      if valid then d3.sense i.val y v.at_ else d3
    match aux with
    | some a =>
      let x := d1.conv.aux.get a
      if x.test then d1.testVisit a v.scan y (d.time.tbc + (v.at_ : Int) - d.now) else (plain d1 x.isOpen).auxPlain a y
    | none => plain d1 false

/-- CONVERSION (11 R309). -/
def execConversion (dt : Nat) (e : EngineId) (raw : Option (BitVec 14)) (s : State) : Host.Outcome State Fault Refusal :=
  s.run dt fun d => if d.convLive then d.conversion e raw else d

/-! ### Urgent conversions -/

/-- The engine that owns a slice. -/
def engineOfSlice (k : Nat) : EngineId := ⟨k / 2 % 4, Nat.mod_lt _ (by decide)⟩

/-- The engine an urgent request disturbs once the descant is retired: the lowest-numbered enabled engine whose mask
holds the input, or E0 (11 R318). -/
def Dev.urgentEngine (d : Dev) (input : Nat) : EngineId :=
  ((idx 4).find? fun e => d.engEnabled e && engineMask d.word e.val input).getD 0

/-- The unit that serves an urgent request: the descant, or, once it is retired, the even slice of that engine (11 R313,
R318). -/
def Dev.urgentUnit (d : Dev) (input : Nat) : Nat :=
  if (d.conv.slices.get 8).st = .retired then 2 * (d.urgentEngine input).val else 8

/-- A visit put in its place among visits in the order of their instants. -/
def insertVisit (v : Visit) : List Visit → List Visit
  | [] => [v]
  | w :: ws => if v.at_ ≤ w.at_ then v :: w :: ws else w :: insertVisit v ws

/-- An urgent conversion on a unit aborts the conversion of engine `e` that it meets there: that visit and every later one of
the slice in the scan move 600 ticks later, and the scan's entry counts it (11 R314). -/
def Dev.disturb (unit : Nat) (d : Dev) (e : EngineId) : Dev :=
  match (d.conv.engines.get e).todo.find? fun v => d.visitMaker v = unit && decide (v.at_ < d.now + 600) with
  | none => d
  | some v =>
    let moved (w : Visit) : Visit := if w.slice = v.slice && w.scan = v.scan then { w with at_ := w.at_ + 600, corr := none } else w
    d.modEngine e fun x => { x with
      todo := (x.todo.map moved).foldr insertVisit []
      log := x.log.map fun l => if l.scan = v.scan then { l with urgent := stick 8 (l.urgent + 1) } else l }

/-- The order in which urgent sources are served (11 R313). -/
def urgentRank : UrgentSource → Nat
  | .soundCheck => 0
  | .faultCapture => 1
  | .rangeCheck => 2

/-- The urgent request to serve next: the first of the source that goes first (11 R313). -/
def Dev.nextUrgent (d : Dev) : Option (UrgentSource × Nat) :=
  d.conv.urgent.find? fun q => d.conv.urgent.all fun r => urgentRank q.1 ≤ urgentRank r.1

/-- The urgent conversion of an input: 200 ns of the descant, or of the slice that serves in its place, from now (11 R313,
R314). A range check learns the second reading, and a conversion out of range begins a check itself (11 R319). -/
def Dev.urgentServe (d : Dev) (source : UrgentSource) (input : Nat) (raw : Option (BitVec 14)) : Dev :=
  let unit := d.urgentUnit input
  let d1 := (idx 4).foldl (Dev.disturb unit) d
  let learn (x : Slice) : Slice := { x with check := x.check.map fun c =>
    if source = UrgentSource.rangeCheck && c.input = input && c.again.isNone then { c with again := some (raw.map (·.toNat)) } else c }
  let d2 := { d1 with conv := { d1.conv with
    urgent := d1.conv.urgent.erase (source, input), urgentFree := d1.now + 600, slices := d1.conv.slices.map learn } }
  if outOfRange input raw then d2.rangeCheck unit input raw else d2

/-- URGENT_CONVERSION (11 R313): one at a time, and the request whose turn it is. -/
def execUrgentConversion (dt : Nat) (source : UrgentSource) (input : Nat) (raw : Option (BitVec 14)) (s : State) :
    Host.Outcome State Fault Refusal :=
  s.run dt fun d =>
    if d.convLive && d.nextUrgent = some (source, input) && d.conv.urgentFree ≤ d.now then d.urgentServe source input raw else d

/-! ### Configuration -/

/-- A word of engine `e` differs between two devices. -/
def engChanged (d old : Dev) (e : EngineId) : Bool := (List.range 6).any fun k => d.word (engWord e k) != old.word (engWord e k)

/-- A new live image reaches the engines whose words it changes (11 R325). -/
def Dev.engineReconf (d old : Dev) : Dev :=
  let d1 := (idx 4).foldl (fun (d : Dev) e =>
    if engChanged d old e then
      let x := d.conv.engines.get e
      let moved := old.engCap e != d.engCap e
      let unread := x.write - x.read
      let auxes := (idx 8).filter fun a => (d.engInputs e).contains (100 + a.val) || (old.engInputs e).contains (100 + a.val)
      let d1 := auxes.foldl (fun d a => d.modAux a fun x => { x with test := false }) d
      let d2 := d1.modEngine e fun x => { x with
        todo := [], blocks := [], nextScan := d.now + 8
        buffer := if moved then [] else x.buffer, read := if moved then x.write else x.read }
      if moved then d2.event 0x0408 e.val (leBytes 4 unread) else d2
    else d) d
  (idx 8).foldl (fun (d : Dev) a => if d.owEn a != old.owEn a then d.modAux a fun x => { x with test := false } else d) d1

/-- ACAPPELLA clears the pause state (11 R326). -/
def Dev.engineUnpause (d : Dev) : Dev :=
  { d with conv := { d.conv with engines := d.conv.engines.map fun x =>
    if x.paused then { x with paused := false, nextScan := d.now, blocks := [] } else x } }

/-- The engines stop in HALTED (11 R326), and with them the urgent requests. -/
def Dev.engineStop (d : Dev) : Dev :=
  { d with conv := { d.conv with urgent := [], engines := d.conv.engines.map fun x => { x with todo := [], blocks := [] } } }

/-- The control clock goes over to the fallback oscillator: the entries of the scans under way carry FALLBACK_TB (11 R326). -/
def Dev.engineFallback (d : Dev) : Dev :=
  let mark (x : Engine) (l : ScanEntry) : ScanEntry := { l with fallbackTb := l.fallbackTb || x.todo.any fun v => v.scan = l.scan }
  { d with conv := { d.conv with engines := d.conv.engines.map fun x => { x with log := x.log.map (mark x) } } }

/-- The engines start at the first control clock edge after a cappella is live (11 R304). -/
def Dev.engineStart (d : Dev) : Dev :=
  { d with conv := { d.conv with engines := d.conv.engines.map fun x => { x with nextScan := d.now + 8 } } }

/-! ### The converter opcodes -/

/-- CONVERT_NOW at its commit edge (11 R315, R328). -/
def opConvertNow (p : List Byte) (d : Dev) : Dev × Answer :=
  let m := byteAt p 0
  if m = 0 then (d, fail stBadParam [])
  else
    let go (acc : Dev × List Bool × List Bool × List Bool × List (Option Nat)) (e : EngineId) :=
      let (d, st, dr, rf, ns) := acc
      let x := d.conv.engines.get e
      if !m.testBit e.val then (d, st ++ [false], dr ++ [false], rf ++ [false], ns ++ [none])
      else if !d.engEnabled e || x.paused then (d, st ++ [false], dr ++ [false], rf ++ [true], ns ++ [none])
      else if d.engTrig e = 0 || !x.todo.isEmpty then
        (d.modEngine e fun x => { x with drops := stick 16 (x.drops + 1) }, st ++ [false], dr ++ [true], rf ++ [false], ns ++ [none])
      else (d.startScan e 0, st ++ [true], dr ++ [false], rf ++ [false], ns ++ [some x.scanNo])
    let (d1, st, dr, rf, ns) := (idx 4).foldl go (d, [], [], [], [])
    (d1, ok ([b8 (packBits st), b8 (packBits dr), b8 (packBits rf)] ++
      ns.flatMap fun n => leBytes 4 (n.getD 0xFFFFFFFF)))

/-- One engine's action of ADC_ENGINE_CTRL (11 R329): its result byte. -/
def Dev.engineAction (d : Dev) (e : EngineId) (a : Nat) : Dev × Byte :=
  let x := d.conv.engines.get e
  match a with
  | 1 =>
    if (d.engInputs e).any (· < 96) then (d, 2)
    else if x.paused then (d, 1) else (d.modEngine e fun x => { x with paused := true }, 0)
  | 2 =>
    if !d.engEnabled e then (d, 2)
    else if x.paused then (d.modEngine e fun x => { x with paused := false, nextScan := d.now, blocks := [] }, 0) else (d, 1)
  | 3 => if !d.engEnabled e then (d, 2) else (d.modEngine e fun x => { x with read := x.write }, 0)
  | _ => (d, 1)

/-- ADC_ENGINE_CTRL at its commit point (11 R329). -/
def opEngineCtrl (p : List Byte) (d : Dev) : Dev × Answer :=
  if p.any (fun a => 3 < a.toNat) then (d, fail stBadParam [])
  else
    let (d1, rs) := (idx 4).foldl (fun (acc : Dev × List Byte) e =>
      let (d, r) := acc.1.engineAction e (byteAt p e.val)
      (d, acc.2 ++ [r])) (d, [])
    (d1, ok rs)

/-- The scan-log entries of the distinct scans that records name, ascending (11 R327). -/
def scanEntries (x : Engine) (rs : List (Word × Nat)) : List ScanEntry :=
  (x.log.filter fun l => rs.any fun r => r.2 = l.scan).reverse

/-- The largest count of records, up to `n`, for which the reply fits in 8,160 bytes (11 R327). -/
def fitRecords (x : Engine) (times : Bool) (rs : List (Word × Nat)) : Nat → Nat
  | 0 => 0
  | n + 1 =>
    let got := rs.take (n + 1)
    let size := 24 + 4 * got.length + if times then 16 * (scanEntries x got).length else 0
    if size ≤ 8160 then got.length else fitRecords x times rs n

def ScanEntry.bytes (l : ScanEntry) : List Byte :=
  leBytes 4 l.scan ++ leInt 8 l.tbc ++ [b8 l.urgent, b8 (boolNat l.fallbackTb * 128), 0, 0]

/-- ADC_READ_BUFFER at its commit edge: its bounds, flags and counters from the snapshot, but OVERRUN as it stands, so that it
counts the records skipped (11 R327, 03 R79, R81); a clearing reply shows no count of its own slot (21 R557). -/
def opReadBuffer (snap : Dev) (p : List Byte) (d : Dev) : Dev × Answer :=
  if 4 ≤ byteAt p 0 || 2034 < field p 2 2 then (d, fail stBadParam [])
  else
    let e : EngineId := ⟨byteAt p 0 % 4, Nat.mod_lt _ (by decide)⟩
    let ctrl := byteAt p 1
    let s := snap.conv.engines.get e
    let x := d.conv.engines.get e
    let first := max s.read (x.write - d.engCap e)
    let have_ := (x.buffer.reverse.drop (first - (x.write - x.buffer.length))).take (s.write - first)
    let n := fitRecords x (ctrl.testBit 1) have_ (min (field p 2 2) have_.length)
    let got := have_.take n
    let ents := if ctrl.testBit 1 then scanEntries x got else []
    let stuck (k : Nat) : Bool := k = 0xFFFF
    let inDescant := match snap.conv.standIn, snap.conv.replaced with
      | some k, _ => k < 8 && engineOfSlice k = e
      | none, some k => engineOfSlice k = e
      | none, none => false
    let clear := ctrl.testBit 2
    let overruns := if clear then x.overrun - d.sinceSlot (3 * e.val) x.overrun else x.overrun
    let head := [b8 e.val, b8 (packBits [false, false, s.paused, inDescant, snap.fld (engWord e 4) 3 1 = 1,
        stuck s.trigOverrun, stuck s.drops, stuck overruns])] ++ leBytes 2 n ++ leBytes 4 first ++ leBytes 4 s.write ++
      leBytes 2 (first - s.read) ++ leBytes 2 overruns ++ leBytes 2 s.drops ++ leBytes 2 s.trigOverrun ++
      leBytes 2 ents.length ++ [0, 0]
    let d1 := if ctrl.testBit 0 then d else d.modEngine e fun x => { x with read := max x.read (first + n) }
    let d2 := if clear then d1.modEngine e fun x => { x with
        overrun := d.sinceSlot (3 * e.val) x.overrun, drops := d.sinceSlot (3 * e.val + 1) x.drops
        trigOverrun := d.sinceSlot (3 * e.val + 2) x.trigOverrun } else d1
    (d2, ok (head ++ (got.flatMap fun r => leBytes 4 r.1.toNat) ++ ents.flatMap ScanEntry.bytes))

/-- Slice state codes (11 R330). -/
def SliceState.code : SliceState → Nat
  | .inService => 0
  | .calibrating => 1
  | .retired => 2
  | .standingIn => 3

/-- ADC_CAL_STATUS from the snapshot (11 R330). -/
def opCalStatus (snap : Dev) (p : List Byte) : Answer :=
  let c := snap.conv
  match byteAt p 0 with
  | 0 => ok (
      [b8 (boolNat !c.calRuns), b8 (c.standIn.getD 0xFF), b8 (c.replaced.getD 0xFF),
       b8 (boolNat c.aged * 128 + boolNat ((c.slices.get 8).st = .retired) * 64)] ++ leBytes 4 c.cycles ++
      c.slices.list.flatMap fun x =>
        [b8 x.st.code, b8 x.fails] ++ leInt 2 x.offsetTrim ++ leInt 2 x.gainTrim ++
        leBytes 2 (stick 16 ((snap.now - x.passedAt) / (1000 * msec))))
  | 1 => ok ((idx 8).flatMap fun a =>
      let x := c.aux.get a
      [b8 (100 + a.val), b8 (packBits [false, false, false, false, snap.ntcBit a, snap.owEn a, x.ntcFault, x.isOpen]),
       b8 x.passRun, 0] ++ match x.lastGood with
        | some (n, t) => leBytes 4 n ++ leInt 8 t
        | none => List.replicate 12 0xFF)
  | _ => fail stBadParam []

end Sys2Proof.Machine
end

