-- ==== Sys2Proof/Machine/Wave.lean ====
section
/-! DEFINITION. The wave port: frame timing, the block and its channel status, out-slots and in-slots, mute, slot
buffers and the wave opcodes (12). -/

namespace Sys2Proof.Machine
open Sys2Proof

def Dev.setWave (d : Dev) (f : Wave → Wave) : Dev := { d with wave := f d.wave }
def Dev.modSlot (d : Dev) (k : Fin 16) (f : WaveSlot → WaveSlot) : Dev := d.setWave fun w => { w with slots := w.slots.modify k f }

/-- The words of the port (04 R121). -/
def Dev.waveEnabled (d : Dev) : Bool := d.fld 0x3800 0 1 = 1
def Dev.waveMaster (d : Dev) : Bool := d.fld 0x3800 1 1 = 1
def Dev.waveSlots (d : Dev) : Nat := d.fld 0x3800 3 5
def Dev.waveRate (d : Dev) : Nat := d.fld 0x3800 8 24
def Dev.isIn (d : Dev) (k : Fin 16) : Bool := bit (d.word 0x3801) k.val
def Dev.slotLog (d : Dev) (k : Fin 16) : Nat := d.fld (0x3810 + k.val) 12 4
def Dev.slotSrc (d : Dev) (k : Fin 16) : Nat := d.fld (0x3810 + k.val) 0 7
/-- The device owns the block: slot 0 is an out-slot (12 R342). -/
def Dev.ownsBlock (d : Dev) : Bool := !d.isIn 0
/-- The slots that exist. -/
def Dev.liveSlots (d : Dev) : List (Fin 16) := (idx 16).filter fun k => k.val < d.waveSlots

/-- The VIO-domain pins are out of reset: neither unpowered nor in POR, control boot or STARTING (19 R539). -/
def Dev.vioPins (d : Dev) : Bool := d.port.vioValid && !d.ctl.por && d.ctl.mode ≠ .starting
/-- WCLK and WFS are driven: by an enabled master; otherwise they are inputs or high-impedance (12 R333, R336, R337). -/
def Dev.wclkDriven (d : Dev) : Bool := d.vioPins && d.waveEnabled && d.waveMaster
/-- WDO is driven in the bit periods of slot `k`: an out-slot of an enabled port (12 R333). -/
def Dev.wdoDriven (d : Dev) (k : Fin 16) : Bool := d.vioPins && d.waveEnabled && k.val < d.waveSlots && !d.isIn k
/-- WDI is sampled in the bit periods of slot `k`: an in-slot of an enabled port (12 R333). -/
def Dev.wdiSampled (d : Dev) (k : Fin 16) : Bool := d.vioPins && d.waveEnabled && k.val < d.waveSlots && d.isIn k

/-- The frame rate over the last 192 frames in 0.01 Hz; 0 where there are not as many (12 R337, R352). -/
def Wave.measRate (w : Wave) : Nat :=
  match w.starts with
  | t :: rest =>
    if rest.length = 192 then (report (300000000000 * 192 / ((t - rest.getLastD 0 : Nat) : Rat))).toNat else 0
  | [] => 0

/-- ZERO and SPAN of an input in µA or µV (12 R344, 11 R302). -/
def inputScale (i : Nat) : Int × Int :=
  if i < 40 then (0, 16000000)
  else if i < 48 then (0, 128000000)
  else if i < 96 then (-64000000, 128000000)
  else if i < 100 then (0, 64000000)
  else if i < 108 then (0, 5000000)
  else if i < 109 then (0, 32000000)
  else if i < 112 then (0, 4096000)
  else (0, 1024000)

/-- The channel-status word the device sends for an out-slot (12 R344). -/
def Dev.channelStatus (d : Dev) (k : Fin 16) : List Byte :=
  let i := d.slotSrc k
  let rate := if d.waveMaster then d.waveRate else (roundDiv (d.wave.measRate : Int) 100).toNat
  withCrc ([1, b8 i, if i < 96 then b8 (i % 48) else 0xFF, if i < 48 then 0 else 1] ++
    leInt 4 (inputScale i).1 ++ leInt 4 (inputScale i).2 ++ leBytes 3 rate ++
    [b8 (boolNat (!d.waveMaster) * 2 + boolNat d.wave.fallbackTb)] ++ leBytes 4 d.wave.blocks ++ [0, 0])

/-- The number of ones of a Nat below 2^32. -/
def ones (n : Nat) : Nat := ((List.range 32).filter n.testBit).length

/-- Bits [31:4] of a slot word have even parity (12 R334). -/
def parityOk (w : Word) : Bool := ones (w.toNat / 16) % 2 = 0

/-- A slot word with P set for even parity (12 R334). -/
def slotWord (hi lo : Nat) (v u c b : Bool) : Word :=
  let n := hi % 65536 * 65536 + lo % 256 * 256 + boolNat v * 128 + boolNat u * 64 + boolNat c * 32
  BitVec.ofNat 32 (n + ones n % 2 * 16 + boolNat b * 8)

/-- A slot writes its buffer: the port runs, the slot is not frozen, and its post-fault frames are not over
(12 R349, R350). -/
def WaveSlot.writes (x : WaveSlot) (running : Bool) : Bool :=
  running && !x.frozen && (match x.counting with
    | some (0, _) => false
    | _ => true)

/-- A word enters the slot's buffer where it writes (12 R349). -/
def WaveSlot.push (x : WaveSlot) (running : Bool) (cap : Nat) (w : Word) : WaveSlot :=
  let x1 := { x with lastWord := w }
  if x.writes running then { x1 with buffer := (w :: x.buffer).take cap, written := (x.written + 1) % 2 ^ 32 } else x1

/-- The word sent in the frame under way is replaced: a realignment or an unmute changed it before the slot came. -/
def WaveSlot.amend (x : WaveSlot) (running : Bool) (w : Word) : WaveSlot :=
  { x with lastWord := w, buffer := if x.writes running then w :: x.buffer.drop 1 else x.buffer }

/-- The word an out-slot transmits in this frame, by the conversion taken at its start (12 R341, R345). -/
def Dev.outWord (d : Dev) (k : Fin 16) : Word :=
  let b := k.val = 0 && d.wave.frame = 0
  if d.wave.st != .running then slotWord 0 0 true false false b
  else
    let f := d.wave.frame
    let i : Fin 120 := ⟨d.slotSrc k % 120, Nat.mod_lt _ (by decide)⟩
    let c := ((d.wave.slots.get k).cs.getD (f / 8) 0).toNat.testBit (f % 8)
    let u := match i.val - 100 with
      | a => 100 ≤ i.val && i.val < 108 && (let x := d.conv.aux.get ⟨a % 8, Nat.mod_lt _ (by decide)⟩; x.isOpen || x.ntcFault)
    match (d.wave.slots.get k).took with
    | some q =>
      if q.at_ < d.wave.since then slotWord 0 0 true u c b
      else
        let fresh := match d.wave.starts with
          | t :: t0 :: _ => t - q.at_ ≤ 2 * (t - t0)
          | _ => false
        slotWord q.y q.scan (!(q.valid && fresh)) u c b
    | none => slotWord 0 0 true u c b

/-- The 192 C bits as 24 bytes (12 R344). -/
def csBytes (bs : List Bool) : List Byte := (List.range 24).map fun i => b8 (packBits ((bs.drop (8 * i)).take 8))

/-- A block of an in-slot ends (12 R344): where it is complete its word is stored, or counted in CS_ERR. -/
def Dev.endBlock (d : Dev) (k : Fin 16) : Dev :=
  let x := d.wave.slots.get k
  let bytes := csBytes x.csBits
  if x.csBits.length ≠ 192 then d
  else if x.csGood && crc16 (bytes.take 22) = field bytes 22 2 then d.modSlot k fun x => { x with cs := bytes }
  else d.setWave fun w => { w with csErr := stick 16 (w.csErr + 1) }

/-- A block starts (12 R342, R344): in-slots assemble afresh, out-slots send the word of the block, or zeros while
muted. -/
def Dev.startBlock (d : Dev) : Dev :=
  let d1 := d.setWave fun w => { w with frame := 0, blocks := (w.blocks + 1) % 2 ^ 32, fallbackTb := d.time.onFallback, blockAt := some d.now }
  d1.liveSlots.foldl (fun d k => d.modSlot k fun x =>
    if d.isIn k then { x with csBits := [], csGood := true }
    else { x with cs := if d.wave.st = .running then d.channelStatus k else List.replicate 24 0 }) d1

/-- The block count moves to the next frame; a natural end of a block closes the in-slots' words (12 R342 to R344). -/
def Dev.nextFrame (d : Dev) : Dev :=
  if d.wave.frame = 191 then ((d.liveSlots.filter d.isIn).foldl Dev.endBlock d).startBlock
  else d.setWave fun w => { w with frame := w.frame + 1 }

/-- Frames of the armed slots count towards POST, muted or not (12 R350). -/
def Wave.countPost (w : Wave) : Wave :=
  { w with slots := w.slots.map fun x => { x with inFrame := none, counting := x.counting.map fun c => (c.1 - 1, c.2) } }

/-- What every out-slot transmits in the frame under way (12 R341, R345, R349). -/
def Dev.sendSlots (d : Dev) : Dev :=
  (d.liveSlots.filter fun k => !d.isIn k).foldl (fun d k =>
    d.modSlot k fun x => x.push (d.wave.st == .running) (2 ^ d.slotLog k) (d.outWord k)) d

/-- A frame starts (12 R345), muted or not: each out-slot takes the newest conversion of its input. -/
def Dev.transmit (d : Dev) : Dev :=
  (d.setWave fun w => { w with
    starts := (d.now :: w.starts).take 193, count := w.count + 1
    muted := if w.st = .running then w.muted else w.muted + 1
    slots := w.slots.mapIdx fun k x => { x with took := d.conv.newest.get ⟨d.slotSrc k % 120, Nat.mod_lt _ (by decide)⟩ } }).sendSlots

/-- The word of an in-slot in a cut frame is discarded, with what it did to the STREAMED voices (12 R338). -/
def Dev.cutSlot (d : Dev) (k : Fin 16) : Dev :=
  match (d.wave.slots.get k).inFrame with
  | some (was, fresh, kept) =>
    let d1 := d.modSlot k fun x => { x with
      duty := was, csGood := false, buffer := if x.writes (d.wave.st == .running) then x.buffer.drop 1 else x.buffer }
    { d1 with voices := d1.voices.mapIdx fun v x =>
      if x.sampled then { x with sampled := !inMask fresh v, muteKept := inMask kept v } else x }
  | none => d.modSlot k fun x => { x with csGood := false }

/-- The words of a cut frame are discarded (12 R338). -/
def Dev.cutFrame (d : Dev) : Dev := (d.liveSlots.filter d.isIn).foldl Dev.cutSlot d

/-- How a frame's start counts (12 R338, R340): stable frames completed, missing boundaries and misplaced marks. A misplaced
mark leaves the boundary that was due without a mark, unless the port has assumed and counted it already. -/
def Dev.judgeFrame (d : Dev) (timing : FrameTiming) : Dev :=
  match timing with
  | .stable => d.setWave fun w => { w with
      stable := if w.began then stick 16 (w.stable + 1) else w.stable, began := true, missing := 0, assumed := false }
  | .missing => d.setWave fun w => { w with
      stable := 0, began := false, missing := w.missing + 1, assumed := true, frameErr := stick 16 (w.frameErr + 1) }
  | .misplaced => d.cutFrame.setWave fun w => { w with
      stable := 0, began := false, missing := if w.assumed then w.missing else w.missing + 1, assumed := false
      frameErr := stick 16 (w.frameErr + if w.assumed then 1 else 2) }

/-- The first frame mark after an enable or a clock loss (12 R339, R340, R343). -/
def Dev.firstMark (d : Dev) : Dev :=
  let fresh := d.wave.st = .acquiring
  let d1 := d.setWave fun w => { w with st := .acquiring, marked := true, began := true, stable := 0, missing := 0, assumed := false }
  if fresh || d.ownsBlock then d1.startBlock else d1.nextFrame

/-- STREAMED voices that are driven keep MUTE_DUTY from the mute until a sample after it (12 R341). -/
def Dev.muteVoices (d : Dev) : Dev :=
  { d with voices := d.voices.map fun x => if x.driven && x.driveMode = 3 then { x with sampled := false, muteKept := true } else x }

/-- The port enters a muted state: the duty words held are discarded (12 R341). -/
def Dev.mute (d : Dev) (st : WaveState) : Dev :=
  (d.setWave fun w => { w with
    st := st, stable := 0, began := false, missing := 0, assumed := false, blockAt := none, marked := false, muted := 0, starts := []
    slots := w.slots.map fun x => { x with duty := none, inFrame := none, csGood := false } }).muteVoices

/-- Clock loss with its cause (12 R338, R339). -/
def Dev.clockLoss (d : Dev) (cause : Byte) : Dev :=
  let was := d.wave.muted
  let kept := d.wave.st = .acquiring
  let d1 := (d.mute .lost).setWave fun w => { w with losses := stick 16 (w.losses + 1), muted := if kept then was else 0 }
  d1.event 0x0501 0xFF [cause]

/-- When the next frame of a master port starts: frame `n` of the grid lies n / FRAME_RATE after its origin, on the last
control clock edge not after it (12 R336, R347; DESIGN CHOICE, log entry 137). -/
def Dev.frameDue (d : Dev) : Nat := d.wave.origin + 8 * ((d.wave.count + 1) * 375000000 / max 1 d.waveRate)

/-- WAVE_FRAME (12 R336, R338, R345): a frame starts, in master mode on the port's own grid and always stable (12 R347). The
second missing boundary in a row is clock loss. The pins are dead without VIO (12 R348). -/
def execWaveFrame (dt : Nat) (timing : FrameTiming) (_rate : Told) (s : State) : Host.Outcome State Fault Refusal :=
  s.run dt fun d =>
    if d.wave.st = .disabled || !d.port.vioValid || (d.waveMaster && decide (d.now < d.frameDue)) then d
    else
      let t := if d.waveMaster then .stable else timing
      if !d.wave.marked then
        if t = .missing then d else ((d.setWave Wave.countPost).firstMark).transmit
      else
        let d1 := d.judgeFrame t
        if 2 ≤ d1.wave.missing then d1.clockLoss 1
        else ((d1.setWave Wave.countPost).nextFrame).transmit

/-- A driven STREAMED voice names the in-slot. -/
def Dev.streams (d : Dev) (k : Fin 16) (v : VoiceId) : Bool :=
  (d.voice v).driven && (d.voice v).driveMode = 3 && d.vfld v 0x0D 0 4 = k.val

/-- A valid word of an in-slot reaches the STREAMED voices that name it (06 R184, 12 R341). -/
def Dev.sampleVoices (d : Dev) (k : Fin 16) : Dev :=
  { d with voices := d.voices.mapIdx fun v x => if d.streams k v then { x with sampled := true, muteKept := false } else x }

/-- The word of an in-slot is taken in: its duty is used where `use_` (12 R341). -/
def Dev.takeWord (d : Dev) (k : Fin 16) (word : Word) (use_ : Bool) : Dev :=
  let fresh := maskOf fun v => use_ && d.streams k v && !(d.voice v).sampled
  let kept := maskOf fun v => use_ && d.streams k v && (d.voice v).muteKept
  let d1 := d.modSlot k fun x => { x with
    inFrame := some (x.duty, fresh, kept), duty := if use_ then some (bits word 16 16) else x.duty }
  if use_ then d1.sampleVoices k else d1

/-- What an out-slot sends in the frame under way, where its block has begun anew or the port has unmuted within it (12 R341,
R344). -/
def Dev.resend (d : Dev) : Dev :=
  (d.liveSlots.filter fun k => !d.isIn k).foldl (fun d k =>
    d.modSlot k fun x => x.amend (d.wave.st == .running) (d.outWord k)) d

/-- B received in slot 0 realigns the block (12 R343); the out-slots of its frame, which come after, send the first bits of the
new block (R344). -/
def Dev.takeB (d : Dev) (w : Word) : Dev :=
  if bit w 3 && parityOk w && d.wave.frame != 0 then
    (d.setWave fun x => { x with realign := stick 16 (x.realign + 1) }).startBlock.resend
  else d

/-- IN_SLOT_WORD (12 R335, R343 to R346, R349), once a frame: checked and counted; its duty is used and its word buffered
only while the port runs. -/
def execInSlotWord (dt : Nat) (slot : Fin 16) (word : Word) (s : State) : Host.Outcome State Fault Refusal :=
  s.run dt fun d =>
    if d.wave.st = .disabled || d.wave.st = .lost || !d.wave.marked || !d.port.vioValid || d.waveSlots ≤ slot.val || !d.isIn slot ||
        (d.wave.slots.get slot).inFrame.isSome then d
    else
      let d1 := if slot = 0 then d.takeB word else d
      let good := parityOk word
      let v := bit word 7
      let run := d1.wave.st = .running
      let d2 := d1.setWave fun w => { w with
        parityErr := if good then w.parityErr else stick 16 (w.parityErr + 1)
        vSkipped := if good && v then stick 16 (w.vSkipped + 1) else w.vSkipped }
      let use_ := run && good && !v
      let d3 := d2.modSlot slot fun x =>
        { x.push run (2 ^ d2.slotLog slot) word with csBits := x.csBits ++ [bit word 5], csGood := x.csGood && good }
      d3.takeWord slot word use_

/-- WAVE_LOSS (12 R338, R339): clock loss in slave mode; by missing boundaries with the second in a row. -/
def execWaveLoss (dt : Nat) (cause : WaveCause) (s : State) : Host.Outcome State Fault Refusal :=
  s.run dt fun d =>
    if d.waveMaster || d.wave.st = .disabled || d.wave.st = .lost then d
    else match cause with
      | .gap => d.clockLoss 0
      | .fast => d.clockLoss 2
      | .boundaries => if d.wave.missing = 1 then (d.judgeFrame .missing).clockLoss 1 else d

/-- The in-slot words that the first unmuted frame has brought already, the one with the block start among them, are used and
written (12 R340). -/
def Dev.useWords (d : Dev) : Dev :=
  (d.liveSlots.filter fun k => d.isIn k && (d.wave.slots.get k).inFrame.isSome).foldl (fun d k =>
    let w := (d.wave.slots.get k).lastWord
    (d.modSlot k fun x => x.push true (2 ^ d.slotLog k) w).takeWord k w (parityOk w && !bit w 7)) d

/-- WAVE_UNMUTE (12 R340): in the slot of a block start, natural or received, that follows 192 consecutive stable frames. The
frame that holds the block start is the first unmuted one: its out-slots carry the samples taken at its start (12 R341, R345),
and its in-slot words are used. -/
def execWaveUnmute (dt : Nat) (s : State) : Host.Outcome State Fault Refusal :=
  s.run dt fun d =>
    let w := d.wave
    if w.st = .acquiring && w.marked && w.blockAt = some d.now && 192 ≤ w.stable then
      let d1 := d.setWave fun w => { w with st := .running, muted := w.muted - 1 }
      let d2 := (d1.liveSlots.filter fun k => !d1.isIn k).foldl (fun d k => d.modSlot k fun x => { x with cs := d.channelStatus k }) d1
      d2.sendSlots.useWords.event 0x0502 0xFF (leBytes 4 (min d1.wave.muted 0xFFFFFFFF))
    else d

/-- WAVE_FROZEN (12 R350): the frames after the fault have passed. -/
def execWaveFrozen (dt : Nat) (slot : Fin 16) (s : State) : Host.Outcome State Fault Refusal :=
  s.run dt fun d =>
    match (d.wave.slots.get slot).counting with
    | some (0, v, code, post) =>
      (d.modSlot slot fun x => { x with frozen := true, armed := none, counting := none }).event 0x0503 slot.val
        ([b8 v.val, b8 code] ++ leBytes 2 post)
    | _ => d

/-- The first FAULT event on an armed voice after the slot of the arming starts the count of its slots (12 R350). -/
def Dev.waveFault (d : Dev) (v : VoiceId) (code : Nat) : Dev :=
  d.setWave fun w => { w with slots := w.slots.map fun x => match x.armed, x.counting with
    | some (u, post), none => if u = v && x.armedAt < d.now then { x with counting := some (post + 1, v, code, post) } else x
    | _, _ => x }

/-- A fault that started captures in this slot is taken back (07 R203). -/
def Dev.waveUnfault (d : Dev) (v : VoiceId) (code : Nat) : Dev :=
  d.setWave fun w => { w with slots := w.slots.map fun x => match x.counting with
    | some (n, u, c, post) => if u = v && c = code && n = post + 1 then { x with counting := none } else x
    | none => x }

/-- Retirement of the armed voice disarms a slot whose fault has not come (12 R350). -/
def Dev.waveDisarm (d : Dev) (v : VoiceId) : Dev :=
  d.setWave fun w => { w with slots := w.slots.map fun x => match x.armed, x.counting with
    | some (u, _), none => if u = v then { x with armed := none } else x
    | _, _ => x }

/-! ### Configuration (12 R347, R348) -/

/-- A word of the wave port block differs between two devices. -/
def waveChanged (d old : Dev) : Bool :=
  d.word 0x3800 != old.word 0x3800 || d.word 0x3801 != old.word 0x3801 || (List.range 16).any fun k => d.word (0x3810 + k) != old.word (0x3810 + k)

/-- Buffers, freezes, arms and partial channel status are discarded. -/
def Wave.restart (w : Wave) (st : WaveState) (now : Nat) : Wave :=
  { w with st := st, stable := 0, frame := 0, blocks := 0, missing := 0, assumed := false, blockAt := none, marked := false, began := false, starts := []
           since := now, origin := now, count := 0, muted := 0, fallbackTb := false, slots := .fill 16 .reset }

/-- A new live image reaches the port (12 R347, R348); `old` is the device before the words changed. -/
def Dev.waveReconf (d old : Dev) : Dev :=
  if waveChanged d old then
    (d.setWave fun w => w.restart (if d.waveEnabled then .acquiring else .disabled) d.now).muteVoices
  else d

/-- The port is disabled (12 R348). -/
def Dev.waveOff (d : Dev) : Dev := d.setWave fun w => w.restart .disabled d.now

/-! ### The opcodes (12 R351, R352) -/

/-- The slots of a slot mask. -/
def slotsOf (m : Nat) : List (Fin 16) := (idx 16).filter fun k => m.testBit k.val

/-- A slot mask from a predicate. -/
def slotMask (p : Fin 16 → Bool) : List Byte := leBytes 2 (packBits ((idx 16).map p))

/-- WAVE_CTRL at its commit slot: the checks of 12 R351 in order, then its action. -/
def opWaveCtrl (p : List Byte) (d : Dev) : Dev × Answer :=
  let action := byteAt p 0
  let m := field p 1 2
  let v := byteAt p 3
  let post := field p 4 2
  let ss := slotsOf m
  let done (d : Dev) (refused : List (Fin 16)) : Answer :=
    ok (slotMask (fun k => (d.wave.slots.get k).frozen) ++ slotMask (fun k => (d.wave.slots.get k).armed.isSome) ++ slotMask refused.contains)
  if !d.waveEnabled then (d, fail stWrongMode [])
  else if 4 < action || ss.any (fun k => d.waveSlots ≤ k.val) then (d, fail stBadParam [])
  else if m = 0 && 1 ≤ action && action ≤ 3 then (d, fail stBadParam [])
  else match action with
  | 0 => (d, done d [])
  | 1 =>
    let d1 := ss.foldl (fun d k => d.modSlot k fun x => { x with frozen := true, armed := none, counting := none }) d
    (d1, done d1 [])
  | 2 =>
    let d1 := ss.foldl (fun d k => d.modSlot k fun x =>
      { x with frozen := false, armed := none, counting := none, buffer := [], written := 0 }) d
    (d1, done d1 [])
  | 3 =>
    if h : v < 48 then
      let u : VoiceId := ⟨v, h⟩
      if ss.any fun k => 2 ^ d.slotLog k ≤ post then (d, fail stBadParam [])
      else if (d.voice u).st = .retired then (d, fail stRetired [])
      else
        let refused := ss.filter fun k => (d.wave.slots.get k).frozen
        let d1 := (ss.filter fun k => !(d.wave.slots.get k).frozen).foldl
          (fun d k => d.modSlot k fun x => { x with armed := some (u, post), armedAt := d.now, counting := none }) d
        (d1, done d1 refused)
    else (d, fail stBadParam [])
  | _ =>
    let d1 := d.setWave fun w => { w with
      losses := d.sinceSlot 42 w.losses, frameErr := d.sinceSlot 43 w.frameErr, parityErr := d.sinceSlot 44 w.parityErr
      vSkipped := d.sinceSlot 45 w.vSkipped, csErr := d.sinceSlot 46 w.csErr, realign := d.sinceSlot 47 w.realign }
    (d1, done d1 [])

/-- STATE codes of the port (12 R352). -/
def WaveState.code : WaveState → Byte
  | .disabled => 0
  | .running => 1
  | .acquiring => 2
  | .lost => 3

/-- The head of WAVE_STATUS (12 R352); FALLBACK_TB as for an event logged at the snapshot (DEDUCED, log entry 168). -/
def Dev.waveHead (d : Dev) : List Byte :=
  let w := d.wave
  [WaveState.code w.st, b8 (boolNat d.waveMaster * 128 + boolNat d.time.onFallback * 64 + boolNat d.ownsBlock * 32), b8 d.waveSlots, 0] ++
  leBytes 4 w.measRate ++ leBytes 2 w.stable ++ leBytes 2 w.losses ++ leBytes 2 w.frameErr ++ leBytes 2 w.parityErr ++
  leBytes 2 w.vSkipped ++ leBytes 2 w.csErr ++ leBytes 2 w.realign ++ [0, 0]

/-- WAVE_STATUS from the snapshot (12 R352). -/
def opWaveStatus (snap : Dev) (p : List Byte) : Answer :=
  let s := byteAt p 0
  let off := field p 2 2
  let max_ := field p 4 2
  if 2024 < max_ then fail stBadParam []
  else if s = 0xFF then ok snap.waveHead
  else if snap.waveSlots ≤ s || 16 ≤ s then fail stBadParam []
  else
    let k : Fin 16 := ⟨s % 16, Nat.mod_lt _ (by decide)⟩
    let x := snap.wave.slots.get k
    let words := if x.frozen then ((x.buffer.reverse).drop off).take max_ else []
    ok (snap.waveHead ++
      [b8 s, b8 (boolNat (snap.isIn k) * 128 + boolNat x.frozen * 64 + boolNat x.armed.isSome * 32), b8 (snap.slotLog k),
       if snap.isIn k then 0xFF else b8 (snap.slotSrc k)] ++
      leBytes 4 x.lastWord.toNat ++ leBytes 4 x.written ++ leBytes 2 x.buffer.length ++ leBytes 2 words.length ++ x.cs ++
      words.flatMap fun w => leBytes 4 w.toNat)

end Sys2Proof.Machine
end

