-- ==== Sys2Proof/Machine/Protection.lean ====
section
/-! DEFINITION. Faults, sound checks, their decisions, retries, retirement, and the cut of a bank (07, 05 R152 to R156). -/

namespace Sys2Proof.Machine
open Sys2Proof

def Dev.setSc (d : Dev) (f : SoundCheck → SoundCheck) : Dev := { d with sc := f d.sc }

/-- Every member of a unit changed by `f`. -/
def Dev.modUnit (d : Dev) (v : VoiceId) (f : Voice → Voice) : Dev := d.forVoices (d.unitOf v) fun d m => d.modVoice m f

/-- A level of the ladder turns a driven voice off; the commanded state of a voice under an event source becomes OFF
(08 R237). -/
def Dev.dropVoice (why : OffWhy) (d : Dev) (v : VoiceId) : Dev :=
  let was := (d.voice v).driven
  let d1 := d.turnOff v why
  if was && (d.levelInput v).isNone then d1.modVoice v fun x => { x with cmd := false } else d1

/-! ### Scoring (07 R200, R203) -/

/-- I_MEAS clamped to the IS range, in 10 mA (07 R227). -/
def iMeas (v : VoiceId) (m : Meas) : Int := max 0 (min m.current (if classH v.val then 12800 else 1600))

/-- FAULT is logged, and starts the armed captures of the wave port (07 R231, 12 R350); the fault capture asks the descant for
the voice's current and its bank's voltage (11 R313), which the command carries. -/
def Dev.faultEvent (d : Dev) (v : VoiceId) (code kind before : Nat) (m : Meas) : Dev :=
  let f : SlotFault := { voice := v, trip := kind = 0, code := code, seq := d.log.nextSeq }
  let d1 := d.event 0x0201 v.val ([b8 code, b8 kind, b8 before, 0] ++ leInt 2 (iMeas v m) ++ leBytes 2 (min m.bank 0xFFFF))
  (({ d1 with slotFaults := d1.slotFaults ++ [f] }.waveFault v code).request .faultCapture v.val).request .faultCapture (96 + (bankOf v).val)

/-- The last urgent request of a source for an input is taken back. -/
def Dev.unrequest (d : Dev) (source : UrgentSource) (input : Nat) : Dev :=
  { d with conv := { d.conv with urgent := (d.conv.urgent.reverse.erase (source, input)).reverse } }

/-- A fault scored in this slot is taken back, with its event and its requests to the descant, for one that goes before it
(07 R203). -/
def Dev.unscore (d : Dev) (f : SlotFault) : Dev :=
  let later (g : SlotFault) : SlotFault := if (g.seq - f.seq).toNat < 2 ^ 31 then { g with seq := g.seq - 1 } else g
  let d0 := (d.unrequest .faultCapture f.voice.val).unrequest .faultCapture (96 + (bankOf f.voice).val)
  let d1 := { d0 with log := d.log.retract f.seq, slotFaults := (d.slotFaults.erase f).map later }
  (d1.waveUnfault f.voice f.code).modVoice f.voice fun x => { x with scored := x.scored &&& ~~~ BitVec.ofNat 12 (2 ^ f.code) }

/-- The order in which conditions met on one voice in one slot are scored (07 R203): SC, GATE, DESAT, OC, OT_STOP,
CLAMP_OVER. -/
def tripRank (code : Nat) : Nat := [2, 10, 3, 1, 8, 9].idxOf code

/-- The tripping fault scored on a unit in this slot. -/
def Dev.slotTrip (d : Dev) (v : VoiceId) : Option SlotFault := d.slotFaults.find? fun f => (d.unitOf v).contains f.voice && f.trip

/-- A tripping fault on a driven voice (07 R200): its unit turns off hard and is TRIPPED; the check of a waiting
reporting fault is dropped (R212). The members of a gang act as one voice (06 R191): the FAULT byte is set on both, and the same
condition on the partner in the same slot names it for the check, and no more (R203, R222; DEDUCED, log entry 174). Of the
conditions met on one voice in one slot only the first of R203 stands, and no reporting fault raised on it in that slot. -/
def Dev.scoreTrip (d : Dev) (v : VoiceId) (code : Nat) (stripes : BitVec 2) (m : Meas) : Dev :=
  let name (d : Dev) : Dev := d.modVoice v fun y => { y with checks := { y.checks with trip := some code, stripes := stripes, meas := m } }
  let mark (d : Dev) : Dev :=
    let d2 := name (d.modUnit v fun y => { y with fault := code, st := if y.st = .checking then .tripped else y.st })
    (d2.setSc fun c => { c with zoneChecked := c.zoneChecked &&& ~~~ maskOf (d.unitOf v).contains }).faultEvent
      v code 0 (d2.voice v).checks.before m
  match d.slotTrip v with
  | some f =>
    if tripRank code < tripRank f.code then
      mark ((d.unscore f).modUnit v fun y => { y with checks := { y.checks with trip := none, stripes := 0 } })
    else if code = f.code && (d.voice v).checks.trip.isNone then name d
    else d
  | none =>
    if (d.voice v).driven then
      let reports := d.slotFaults.filter fun f => (d.unitOf v).contains f.voice
      let d0 := reports.reverse.foldl Dev.unscore d
      mark (d0.forVoices (d0.unitOf v) fun d u =>
        let before := (d.voice u).code
        (d.turnOff u .forced).modVoice u fun y => { y with
          st := .tripped, checks := { y.checks with report := [], repeated := false, offAsked := false, before := before } })
    else d

/-- A check for a tripping fault is queued or runs on the unit (07 R212). -/
def Dev.tripPending (d : Dev) (v : VoiceId) : Bool :=
  (d.unitOf v).any (fun m => (d.voice m).checks.trip.isSome) ||
    match d.sc.running with
    | some r => r.kind = .trip && (d.unitOf v).contains r.voice
    | none => false

/-- A reporting fault (07 R200): the FAULT byte, the event and a check; not scored again while it persists. -/
def Dev.scoreReport (d : Dev) (v : VoiceId) (code : Nat) (m : Meas) : Dev :=
  let x := d.voice v
  if x.scored.getLsbD code || d.tripPending v then d
  else
    let d1 := d.modVoice v fun y => { y with
      fault := code, scored := y.scored ||| BitVec.ofNat 12 (2 ^ code)
      checks := if y.checks.report.isEmpty then { y.checks with report := [code], meas := m, before := y.code, repeated := false }
        else { y.checks with report := y.checks.report ++ [code] } }
    d1.faultEvent v code 1 x.code m

/-- The condition of a reporting fault has ceased to hold (07 R200). -/
def Dev.ceaseReport (d : Dev) (v : VoiceId) (code : Nat) : Dev :=
  d.modVoice v fun x => { x with scored := x.scored &&& ~~~ BitVec.ofNat 12 (2 ^ code) }

/-! ### The thermal stop of a unit (13 R371, R373) -/

/-- A driven unit that a thermal stop reaches: each member scores OT_STOP and is CHECKING in the self-heating test of its
zone's sensor. What the descant captures at that instant the command does not carry: free (log entry 10). -/
def Dev.otStop (d : Dev) (v : VoiceId) : Dev :=
  let us := (d.unitOf v).filter fun u => (d.voice u).driven
  if us.isEmpty then d else
  let d1 := us.foldl (fun (d : Dev) u => d.scoreTrip u 8 0 ⟨Config.stopCurrent u.val d.now, Config.stopBank u.val d.now⟩) d
  let d2 := d1.modUnit v fun x => if x.st = .tripped then { x with st := .checking } else x
  d2.setSc fun c => { c with zoneChecked := c.zoneChecked ||| maskOf fun u => us.contains u && (d2.therm.zones.get (zoneOf u)).checkEnds.isSome }

/-! ### Cut of a bank (05 R156) -/

/-- The driven voices of a bank, ascending. -/
def Dev.drivenOf (d : Dev) (b : BankId) : List VoiceId := (idx 48).filter fun v => bankOf v = b && (d.voice v).driven

/-- The waiting turn-ons of a bank are withdrawn (10 R298). -/
def Dev.withdrawBank (d : Dev) (b : BankId) : Dev :=
  d.forVoices ((idx 48).filter fun v => bankOf v = b) fun d v => d.withdraw v

/-- The searches of a bank's voices are abandoned with its loss (10 R290). -/
def Dev.endSearches (d : Dev) (b : BankId) : Dev :=
  d.forVoices ((idx 48).filter fun v => bankOf v = b) fun d v => d.modVoice v fun x => { x with lead := { x.lead with search := none } }

/-- A staggered turn-off ends: a cut's pin follows 50 µs after the last gate-off, unless the bank was restored. -/
def Dev.staggerEnd (d : Dev) (k : StaggerKind) : Dev :=
  match k with
  | .cut b => if (d.banks.get b).cut then d.modBank b fun x => { x with pinDue := some (d.now + 50 * usec) } else d
  | _ => d

/-- Voices of a staggered turn-off follow each other 20 µs apart (05 R156), by the power die 1 µs apart (01 R25). -/
def StaggerKind.gap (k : StaggerKind) : Nat :=
  match k with
  | .keepAlive => usec
  | _ => 20 * usec

/-- The next voice of a staggered turn-off turns off; the power die turns off each by itself (01 R25). -/
def Dev.staggerStep (d : Dev) (s : Stagger) : Dev :=
  match s.voices with
  | [] => d.staggerEnd s.kind
  | v :: rest =>
    let d1 := match s.kind with
      | .stop => d.otStop v
      | .keepAlive => d.turnOff v .forced
      | .powerDown => d.forVoices (d.unitOf v) (Dev.dropVoice .orderly)
      | .cut _ => d.forVoices (d.unitOf v) (Dev.dropVoice .forced)
    let left := rest.filter fun u => (d1.voice u).driven
    if left.isEmpty then d1.staggerEnd s.kind
    else { d1 with staggers := d1.staggers ++ [{ s with voices := left, next := d.now + s.kind.gap }] }

/-- A staggered turn-off starts now with its first voice. -/
def Dev.stagger (d : Dev) (k : StaggerKind) (vs : List VoiceId) : Dev := d.staggerStep { kind := k, voices := vs, next := d.now }

/-- A bank is cut from this slot: turn-ons refused, driven voices turned off in ascending order (05 R156, 06 R172). -/
def Dev.cutBank (d : Dev) (b : BankId) : Dev :=
  if (d.banks.get b).cut then d
  else
    let d1 := ((d.modBank b fun x => { x with cut := true }).withdrawBank b).endSearches b
    d1.stagger (.cut b) (d1.drivenOf b)

/-- A bank is restored at this slot: its pin conducts and a pending non-conducting drive is cancelled (05 R156). -/
def Dev.restoreBank (d : Dev) (b : BankId) : Dev :=
  d.modBank b fun x => { x with cut := false, pinDue := none, conducting := true }

/-- CUT_PIN_NON_CONDUCTING (05 R156). -/
def execCutPinNonConducting (dt : Nat) (bank : BankId) (s : State) : Host.Outcome State Fault Refusal :=
  s.run dt fun d =>
    match (d.banks.get bank).pinDue with
    | some t => if t ≤ d.now then d.modBank bank fun x => { x with pinDue := none, conducting := false } else d
    | none => d

/-! ### The detections (07 R200) -/

/-- The voice has been without gate drive for 1 ms in states that arm the off-state detections (07 R200). -/
def Dev.armedOff (d : Dev) (v : VoiceId) : Bool :=
  let x := d.voice v
  (x.st = .off || x.st = .retryWait || x.st = .latched) && msec ≤ d.now - x.idleSince

/-- An inrush profile other than NONE, DUTY_RAMP still runs: its limit is in force, not ILIM (06 R185). -/
def Voice.inInrush (x : Voice) : Bool := x.driven && !x.plan.isEmpty && 1 ≤ x.profile && x.profile ≤ 3

/-- FAST_TRIP (07 R201): armed in every driven state. -/
def execFastTrip (dt : Nat) (v : VoiceId) (stripes : BitVec 2) (m : Meas) (s : State) : Host.Outcome State Fault Refusal :=
  s.run dt fun d => d.scoreTrip v 2 stripes m

/-- DESAT_TRIP (07 R200, 06 R185): the monitor arms 40 µs after the turn-on slot, in SLEW 40 µs after the ramp; it looks
while the gate is commanded on, from t_GR after each on-edge. -/
def execDesatTrip (dt : Nat) (v : VoiceId) (stripes : BitVec 2) (m : Meas) (s : State) : Host.Outcome State Fault Refusal :=
  s.run dt fun d =>
    let x := d.voice v
    let armed := x.desatAt.any fun t => t ≤ d.now
    if x.gate && armed && x.edgeAt + tGR v ≤ d.now then d.scoreTrip v 3 stripes m else d

/-- OC_TIMEOUT (07 R202): T_LIM runs only while ILIM is the limit in force. -/
def execOcTimeout (dt : Nat) (v : VoiceId) (m : Meas) (s : State) : Host.Outcome State Fault Refusal :=
  s.run dt fun d => if (d.voice v).inInrush then d else d.scoreTrip v 1 3 m

/-- GATE_FAULT (07 R200): while the gate is commanded on. -/
def execGateFault (dt : Nat) (v : VoiceId) (stripes : BitVec 2) (m : Meas) (s : State) : Host.Outcome State Fault Refusal :=
  s.run dt fun d => if (d.voice v).gate then d.scoreTrip v 10 stripes m else d

/-- OL_ON_DETECT (07 R200): after the inrush profile, in ON, HOLDING or PWM. -/
def execOlOnDetect (dt : Nat) (v : VoiceId) (ceased : Bool) (m : Meas) (s : State) : Host.Outcome State Fault Refusal :=
  s.run dt fun d =>
    let x := d.voice v
    if ceased then d.ceaseReport v 4
    else if (x.st = .on || x.st = .holding || x.st = .pwm) && x.plan.isEmpty && !d.dutyRamps v then d.scoreReport v 4 m else d

/-- OL_OFF_DETECT (07 R200): with OL_OFF_EN set and the pull-up in service. -/
def execOlOffDetect (dt : Nat) (v : VoiceId) (ceased : Bool) (m : Meas) (s : State) : Host.Outcome State Fault Refusal :=
  s.run dt fun d =>
    if ceased then d.ceaseReport v 5
    else if d.armedOff v && d.vfld v 0x0E 16 1 = 1 && !(d.voice v).pullupRetired && d.ctl.liveAt.isSome then d.scoreReport v 5 m else d

/-- STUCK_ON_DETECT (07 R200): with any clamp pulse ended. -/
def execStuckOnDetect (dt : Nat) (v : VoiceId) (ceased : Bool) (m : Meas) (s : State) : Host.Outcome State Fault Refusal :=
  s.run dt fun d =>
    if ceased then d.ceaseReport v 6 else if d.armedOff v && (d.voice v).clamp.isNone && d.ctl.liveAt.isSome then d.scoreReport v 6 m else d

/-- REV_DETECT (07 R200): always armed. -/
def execRevDetect (dt : Nat) (v : VoiceId) (ceased : Bool) (m : Meas) (s : State) : Host.Outcome State Fault Refusal :=
  s.run dt fun d => if ceased then d.ceaseReport v 7 else d.scoreReport v 7 m

/-! ### Retirement (07 R220 to R226) -/

/-- The unit code of a voice's pull-up source and of a stripe (07 R226). -/
def pullupUnit (v : VoiceId) : Nat := if classH v.val then 0x58 + (v.val - 40) else 0xC0 + v.val
def stripeUnit (v : VoiceId) (k : Nat) : Nat := 0x30 + 2 * (v.val - 40) + k

/-- The pending cues that name a voice are dropped and counted (07 R225). -/
def Dev.dropCues (d : Dev) (v : VoiceId) : Dev × Nat :=
  let mine (c : Cue) : Bool := !c.chorus && c.who = v.val
  let n := (d.cues.queue.filter mine).length
  ({ d with cues := { d.cues with queue := d.cues.queue.filter fun c => !mine c, dropped := stick 16 (d.cues.dropped + n) } }, n)

/-- A voice becomes RETIRED (07 R225): off hard, its waits withdrawn, its cues dropped, its checks gone, with the event
and the record. Answers the cues dropped. -/
def Dev.retireVoice (d : Dev) (v : VoiceId) (cause trigger outcome failed : Nat) : Dev × Nat :=
  let d1 := (d.turnOff v .forced).withdraw v
  let d2 := d1.modVoice v fun x => { x with
    st := .retired, cmd := false, barred := false, retryAt := none, retryReady := false, checks := .empty
    lead := { x.lead with search := none } }
  let (d3, n) := d2.dropCues v
  let d4 := (d3.waveDisarm v).retireEvent v.val cause n
  ({ d4.retireRecord v.val cause trigger outcome failed n with therm := { d4.therm with blips := d4.therm.blips.filter (· != v) } }, n)

/-- A voice is barred (07 R220): its unit leaves its waits and stays off. -/
def Dev.barVoice (d : Dev) (v : VoiceId) (trigger failed : Nat) : Dev :=
  if (d.voice v).barred || (d.voice v).st = .retired then d
  else
    let d1 := ((d.withdraw (d.headOf v)).modUnit v fun x => { x with
      st := if x.driven || x.st = .retired then x.st else .off, retryAt := none, retryReady := false }).modVoice v fun x =>
      { x with barred := true }
    (d1.event 0x0206 v.val [b8 trigger]).retireRecord v.val 0 trigger 3 failed 0

/-- A stripe is retired: the voice goes on as a half-voice (07 R221). -/
def Dev.retireStripe (d : Dev) (v : VoiceId) (k trigger failed : Nat) : Dev :=
  let d1 := d.modVoice v fun x => { x with half := true, stripes := x.stripes ||| BitVec.ofNat 2 (2 ^ k) }
  ((d1.event 0x0204 v.val [b8 k]).retireEvent (stripeUnit v k) 0 0).retireRecord (stripeUnit v k) 0 trigger 3 failed 0

/-- The pull-up source is retired: off-state open-load detection ends (07 R219). -/
def Dev.retirePullup (d : Dev) (v : VoiceId) (trigger failed : Nat) : Dev :=
  let d1 := (d.modVoice v fun x => { x with pullupRetired := true }).retireEvent (pullupUnit v) 0 0
  d1.retireRecord (pullupUnit v) 0 trigger 3 failed 0

/-! ### The queue and the check (07 R211 to R215) -/

/-- The tests of a trigger: bits MIRROR, TRIP, TOFF, GATECHG, PULLUP, CLAMP (07 R211). -/
def testsOf (code : Nat) : BitVec 6 :=
  match code with
  | 1 | 2 | 3 => 7
  | 10 => 12
  | 4 => 17
  | 5 => 16
  | 6 => 5
  | 7 => 1
  | 9 => 36
  | 11 => 1
  | _ => 0

/-- The stripes of a voice that a check tests: 1 for class L. -/
def Dev.stripesLeft (d : Dev) (v : VoiceId) : Nat :=
  if classH v.val then 2 - ((d.voice v).stripes.toNat % 2 + (d.voice v).stripes.toNat / 2) else 1

/-- The length of a check of one voice in µs (07 R211). -/
def Dev.checkLength (d : Dev) (v : VoiceId) (tests : BitVec 6) : Nat :=
  let h := classH v.val
  let per := ([(0, 40, 40), (1, 80, 80), (2, 20, 40), (3, 20, 40), (5, 60, 60)].map fun (t : Nat × Nat × Nat) =>
    if tests.getLsbD t.1 then (if h then t.2.2 else t.2.1) else 0).sum
  per * d.stripesLeft v + (if tests.getLsbD 4 then 100 else 0)

/-- t_OFF, within which the gate of a class is off (06 R169). -/
def tOFF (v : VoiceId) : Nat := if classH v.val then 5 * usec else 2 * usec

/-- The gates of a tripped unit are off and its clamp pulses have ended, so that its check is queued (07 R212). The device
takes the gate as off t_OFF after the turn-off: DEDUCED, log entry 127. -/
def Dev.tripQueued (d : Dev) (v : VoiceId) : Bool :=
  (d.unitOf v).all fun m => decide ((d.voice m).offAt + tOFF m ≤ d.now) && (d.voice m).clamp.isNone

/-- The head of the queue (07 R213): tripping faults, then reporting faults of voices without drive, then host checks,
each in ascending voice number. The check of an OT_STOP is its zone's. -/
def Dev.nextCheck (d : Dev) : Option (CheckKind × VoiceId) :=
  let trip := (idx 48).find? fun v => match (d.voice v).checks.trip with
    | some c => c != 8 && d.tripQueued v
    | none => false
  let report := (idx 48).find? fun v => !(d.voice v).checks.report.isEmpty && !d.unitDriven v && !d.tripPending v
  let host := (idx 48).find? fun v => !(d.voice v).checks.host.isEmpty && !d.unitDriven v
  match trip, report, host with
  | some v, _, _ => some (.trip, v)
  | none, some v, _ => some (.report, v)
  | none, none, some v => some (.host, v)
  | none, none, none => none

/-- The partner of a gang member. -/
def Dev.partner (d : Dev) (v : VoiceId) : Option VoiceId := (d.unitOf v).find? (· != v)

/-- A check begins on the head of the queue (07 R213, R214, R222), and leaves it; a fault raised later queues its own. Its
MIRROR asks the descant for the current of each stripe (R215; DEDUCED, log entry 156). What is measured at a host check, which has no fault, is free (log entry 10). -/
def Dev.startCheck (d : Dev) : Dev :=
  match d.sc.running, d.nextCheck with
  | none, some (k, v) =>
    let x := d.voice v
    let both := k = .trip && (d.unitOf v).all fun m => (d.voice m).checks.trip.isSome && (d.gang v).isSome
    let tests : BitVec 6 := match k with
      | .trip => testsOf (x.checks.trip.getD 0)
      | .report => x.checks.report.foldl (fun t c => t ||| testsOf c) 0
      | .host => x.checks.host.headD 0
    let trigger := match k with
      | .trip => x.checks.trip.getD 0
      | .report => x.checks.report.headD 0
      | .host => 0x80
    let len := if both then ((d.unitOf v).map fun m => d.checkLength m tests).sum else d.checkLength v tests
    let r : RunningCheck := { kind := k, voice := v, partner := d.partner v, both := both, trigger := trigger, tests := tests
                              codes := if k = .report then x.checks.report else []
                              meas := if k = .host then ⟨Config.stopCurrent v.val d.now, Config.stopBank v.val d.now⟩ else x.checks.meas
                              before := if k = .host then x.code else x.checks.before
                              repeats := k = .report && x.checks.repeated, length := len, ends := d.now + len * usec }
    let asks := (if both then d.unitOf v else [v]).flatMap fun m => List.replicate (if tests.getLsbD 0 then d.stripesLeft m else 0) m.val
    let d0 := asks.foldl (fun d i => d.request .soundCheck i) d
    let d1 := (d0.setSc fun c => { c with running := some r }).modUnit v fun y =>
      if k = .trip && (y.st = .tripped || y.st = .checking) then { y with st := .checking } else y
    d1.modVoice v fun y => { y with checks := match k with
      | .trip => y.checks
      | .report => { y.checks with report := [], repeated := false }
      | .host => { y.checks with host := y.checks.host.drop 1 } }
  | _, _ => d

/-- SOUNDCHECK_START (07 R213). -/
def execSoundcheckStart (dt : Nat) (s : State) : Host.Outcome State Fault Refusal := s.run dt fun d => d.startCheck

/-! ### Outcomes and decisions (07 R216 to R222) -/

/-- A test could not complete, by what the control die knows (07 R216). -/
def Dev.cannotComplete (d : Dev) (v : VoiceId) : Bool :=
  let b := d.banks.get (bankOf v)
  !b.present || b.ovOff || b.cut || !d.pd.vcpOk || decide ((d.voice v).therm.tj < -40) || decide (150 < (d.voice v).therm.tj)

/-- Rules 2 to 4 of 07 R216. -/
def Dev.classify (d : Dev) (v : VoiceId) (trigger : Nat) (incomplete : Bool) : CheckOutcome :=
  if incomplete || d.cannotComplete v then .inconclusive
  else if (d.voice v).windows.getLsbD (groupOf trigger) then .load
  else .transient

/-- The outcome is recorded for SOUNDCHECK_RESULT (07 R230), and a TRANSIENT or LOAD of a fault opens its window
(R217). -/
def Dev.noteCheck (d : Dev) (v : VoiceId) (trigger : Nat) (o : CheckOutcome) (failed dur : Nat) : Dev :=
  d.modVoice v fun x => { x with
    record := { trigger := trigger, outcome := o.code, failed := failed, duration := dur, tbc := d.time.tbc
                counts := x.record.counts.mapIdx fun i n => if i + 1 = o.code then stick 8 (n + 1) else n }
    windows := if trigger < 0x80 && (o = .transient || o = .load) then x.windows ||| BitVec.ofNat 12 (2 ^ groupOf trigger) else x.windows }

/-- Bytes 16 to 23 of the fault-log record of a voice's check (07 R227); STATE is 0xFF where the record is that of a stripe
or a pull-up source (`own` false). -/
def Dev.voiceLogTail (d : Dev) (v : VoiceId) (own : Bool) (before : Nat) (m : Meas) : List Byte :=
  [if own then b8 before else 0xFF, b8 d.ctl.mode.code] ++ leInt 2 (iMeas v m) ++ leInt 2 (report ((d.voice v).therm.tj * 10)) ++
    leBytes 2 (min m.bank 0xFFFF)

/-- What the fault log keeps of the fault that a check of a voice is for: the state before it, and what was measured. A
fault that comes while the check runs has its own. -/
def Dev.faultFacts (d : Dev) (v : VoiceId) (trigger : Nat) : Nat × Meas :=
  match d.sc.running with
  | some r => if r.kind != .trip && r.voice = v && trigger = r.trigger then (r.before, r.meas) else ((d.voice v).checks.before, (d.voice v).checks.meas)
  | none => ((d.voice v).checks.before, (d.voice v).checks.meas)

/-- An outcome is logged (07 R231) under the voice tested, or under its stripe, and recorded in the fault log where due
under the unit that it concerns (R227). -/
def Dev.tellUnit (d : Dev) (v : VoiceId) (shown unit trigger : Nat) (o : CheckOutcome) (failed run dur : Nat) : Dev :=
  let seq := d.log.nextSeq
  let d1 := d.soundEvent shown trigger o.code failed run dur
  if trigger = 0x80 && o != .internal then d1
  else
    let f := d.faultFacts v trigger
    d1.faultRecord seq unit trigger o failed (d.voiceLogTail v (decide (unit = v.val)) f.1 f.2)

/-- The outcome of a voice's check is logged, recorded where due, and noted for SOUNDCHECK_RESULT (07 R227, R230, R231). -/
def Dev.tellOutcome (d : Dev) (v : VoiceId) (unit trigger : Nat) (o : CheckOutcome) (failed run dur : Nat) : Dev :=
  (d.tellUnit v v.val unit trigger o failed run dur).noteCheck v trigger o failed dur

/-- The voices of a thermal stop share the self-heating test of their zone's sensor (13 R373): each is told its own
outcome by rules 2 to 4 of 07 R216, in the group of OT_STOP (21 R551). No test of a voice ran. -/
def Dev.tellThermal (d : Dev) (v : VoiceId) (incomplete : Bool) : Dev :=
  d.tellOutcome v v.val 8 (d.classify v 8 incomplete) 0 0 2000

/-- What the tests of one voice found. -/
inductive Verdict where
  /-- No switch path failed; the outcome by rules 2 to 4. -/
  | sound (o : CheckOutcome)
  /-- Stripe `k` of a whole class H voice was retired; the outcome of the rest. -/
  | half (k : Nat) (o : CheckOutcome)
  /-- The switch path failed, with the tests that did. -/
  | dead (failed : Nat)
  /-- Only the pull-up source failed. -/
  | pullup
deriving DecidableEq, Repr

/-- The tests that failed on one voice are judged and told (07 R216, R219, R221): `f0` and `f1` of its stripes, `f0` of a
class L voice. A pull-up source that fails beside the switch path or a stripe is retired too (07 R226). A STUCK_ON check
whose MIRROR fails is INTERNAL whatever VO shows, as rule 1 of R216 comes first: DEDUCED, log entry 128. Where one stripe failed, the voice's own outcome shows that stripe's failed tests:
DESIGN CHOICE, log entry 175. -/
def Dev.judge (d : Dev) (v : VoiceId) (r : RunningCheck) (f0 f1 : BitVec 6) (incomplete : Bool) (dur : Nat) : Dev × Verdict :=
  let x := d.voice v
  let run := r.tests.toNat
  let a := f0 &&& r.tests &&& 47
  let b := f1 &&& r.tests &&& 47
  let pull := (f0 ||| f1) &&& r.tests &&& 16
  let whole := classH v.val && x.stripes = 0
  if whole && (a = 0) != (b = 0) then
    let k := if a = 0 then 1 else 0
    let f := (if a = 0 then b else a).toNat
    let d0 := (d.retireStripe v k r.trigger f).tellUnit v (stripeUnit v k) (stripeUnit v k) r.trigger .internal f run dur
    let d1 := if pull = 0 then d0 else d0.retirePullup v r.trigger pull.toNat
    let o := if r.kind = .host then .transient else d1.classify v r.trigger incomplete
    (d1.tellOutcome v v.val r.trigger o f run dur, .half k o)
  else
    let sw := if !classH v.val then a else if whole then a ||| b else if x.stripes.getLsbD 0 then b else a
    if sw != 0 then
      let f := (sw ||| pull).toNat
      let d1 := d.tellOutcome v v.val r.trigger .internal f run dur
      (if pull = 0 then d1 else d1.retirePullup v r.trigger f, .dead f)
    else if pull != 0 then
      ((d.tellOutcome v (pullupUnit v) r.trigger .internal pull.toNat run dur).retirePullup v r.trigger pull.toNat, .pullup)
    else
      let o := if r.kind = .host then .transient else d.classify v r.trigger incomplete
      (d.tellOutcome v v.val r.trigger o 0 run dur, .sound o)

/-- A unit leaves CHECKING for a state. -/
def Dev.settleUnit (d : Dev) (v : VoiceId) (st : VState) : Dev :=
  d.modUnit v fun x => if x.st = .checking || x.st = .tripped then { x with st := st, idleSince := d.now } else x

/-- The retry policy decides (07 R205): RETRY_WAIT with its time, or LATCHED. -/
def Dev.retryDecision (d : Dev) (v : VoiceId) : Dev :=
  let x := d.voice v
  let interval := d.vfld v 0x0F 16 16 * 10 * msec
  let latch := (d.settleUnit v .latched).event 0x0205 (d.headOf v).val [b8 x.fault, b8 x.retry]
  let wait (t : Nat) : Dev := (d.settleUnit v .retryWait).modUnit v fun y => { y with retryAt := some t, retryReady := false }
  match d.vfld v 0x0F 0 2 with
  | 0 => latch
  | 1 => if d.vfld v 0x0F 8 8 ≤ x.retry then latch else wait (d.now + interval)
  | 2 => wait (d.now + interval)
  | _ => wait (d.now + interval * 2 ^ min x.retry (d.vfld v 0x10 24 8))

/-- The decision after a tripping fault where nothing is retired (07 R218): OFF where an OFF came, or in a mode that
ends retries (08 R241), else the retry policy. A unit that VOICE_CLEAR_FAULT left OFF stays so (05 R154). -/
def Dev.tripDecision (d : Dev) (v : VoiceId) : Dev :=
  if (d.voice v).st != .checking && (d.voice v).st != .tripped then d
  else if (d.unitOf v).any (fun m => (d.voice m).checks.offAsked) || d.ctl.mode = .parked || d.ctl.mode = .halted then d.settleUnit v .off
  else d.retryDecision v

/-- The held turn-ons of a unit go on once its check has ended (07 R214). -/
def Dev.releaseHeld (d : Dev) (v : VoiceId) : Dev :=
  d.modUnit v fun x => match x.wait with
    | some w => if w.stage = .check then { x with wait := some { w with stage := .ramp } } else x
    | none => x

/-- The tripping check is off the queue of its unit. -/
def Dev.clearTrip (d : Dev) (v : VoiceId) : Dev :=
  d.modUnit v fun x => { x with checks := { x.checks with trip := none, stripes := 0, offAsked := false } }

/-- A unit is RETIRED: the members whose switch path failed, and the healthy member with cause GANG (07 R222). -/
def Dev.retireUnit (d : Dev) (v : VoiceId) (dead : List (VoiceId × Nat)) (trigger : Nat) : Dev :=
  d.forVoices (d.unitOf v) fun d m =>
    if (d.voice m).st = .retired then d
    else match dead.find? fun p => p.1 = m with
    | some p => (d.retireVoice m 0 trigger 3 p.2).1
    | none => (d.retireVoice m 2 0 0 0).1

/-- A tripping check ends (07 R218, R221, R222): `f` holds the failed tests of the stripes of the tested voice, or of the
even member and then of the odd one. -/
def Dev.finishTrip (d : Dev) (r : RunningCheck) (f : Tab (BitVec 6) 4) (incomplete : Bool) (dur : Nat) : Dev :=
  let v := r.voice
  let tested := if r.both then d.unitOf v else [v]
  let (d1, vs) := tested.foldl (fun (acc : Dev × List (VoiceId × Verdict)) m =>
    let odd := r.both && m.val % 2 = 1
    let (d, w) := acc.1.judge m r (f.get (if odd then 2 else 0)) (f.get (if odd then 3 else 1)) incomplete dur
    (d, acc.2 ++ [(m, w)])) (d, [])
  let dead := vs.filterMap fun p => match p.2 with
    | .dead n => some (p.1, n)
    | _ => none
  let alone := match vs with
    | [(m, .half k _)] => (d.voice m).checks.stripes.toNat = 2 ^ k
    | _ => false
  let off := (d1.unitOf v).any fun m => (d1.voice m).checks.offAsked
  let d2 :=
    if !dead.isEmpty then d1.retireUnit v dead r.trigger
    else if alone && (d1.voice v).st = .checking then
      let d3 := (d1.settleUnit v .off).clearTrip v
      if !off && (d3.voice (d3.headOf v)).cmd then d3.askOn v .level (d3.vfld v 0 4 4) (d3.prioOf v) else d3
    else d1.tripDecision v
  (d2.clearTrip v).releaseHeld v

/-- A reporting or host check ends (07 R210, R219): the voice's state and drive are unchanged. -/
def Dev.finishReport (d : Dev) (r : RunningCheck) (f0 f1 partial_ : BitVec 6) (voHigh : Bool) (dur : Nat) : Dev :=
  let v := r.voice
  let incomplete := partial_ &&& r.tests != 0
  let stuck := r.codes.contains 6
  let toff := ((f0 ||| f1) &&& r.tests &&& 4) != 0
  let confirmed := stuck && (toff || (!partial_.getLsbD 2 && !d.cannotComplete v && voHigh))
  -- an unconfirmed STUCK_ON is TRANSIENT: its window cannot make it LOAD (07 R210)
  let d0 := if stuck && !confirmed && !incomplete then
      d.modVoice v fun x => { x with windows := x.windows &&& ~~~ BitVec.ofNat 12 (2 ^ groupOf r.trigger) } else d
  let (d1, w) := d0.judge v r f0 f1 incomplete dur
  let d1 := if stuck && !confirmed && !incomplete then d1.modVoice v fun x => { x with windows := x.windows ||| (d.voice v).windows } else d1
  let d2 := match w with
    | .dead n => d1.barVoice v r.trigger n
    | _ => d1
  let again := r.kind = .report && !r.repeats && (match w with
    | .sound .inconclusive => true
    | .half _ .inconclusive => true
    | _ => false)
  let d3 := if again then
      d2.modVoice v fun x => { x with checks :=
        { x.checks with report := r.codes ++ x.checks.report, repeated := true, meas := r.meas, before := r.before } }
    else d2
  let d4 := if confirmed then
      let cut := d3.vfld v 0 12 1 = 1 && !(d3.banks.get (bankOf v)).cut
      let d5 := d3.event 0x0207 v.val [b8 (match w with
        | .sound o => o.code
        | .half _ o => o.code
        | _ => 3), b8 (boolNat cut)]
      if cut then (d5.event 0x0208 (bankOf v).val [b8 v.val]).cutBank (bankOf v) else d5
    else d3
  d4.releaseHeld v

/-- A request of the voice check waits for the descant (11 R313). -/
def Dev.checkAsks (d : Dev) : Bool := d.conv.urgent.any fun q => q.1 == .soundCheck

/-- The requests of a voice check that has ended are dropped. -/
def Dev.dropAsks (d : Dev) : Dev := { d with conv := { d.conv with urgent := d.conv.urgent.filter fun q => q.1 != .soundCheck } }

/-- The running check `r` ends with its results (07 R216): `partial_` are the tests that could not complete, MIRROR among them
where a request of it has not been served; `dur` is its length so far in µs. -/
def Dev.finishCheck (d : Dev) (r : RunningCheck) (f : Tab (BitVec 6) 4) (partial_ : BitVec 6) (voHigh : Bool) (dur : Nat) : Dev :=
  let p := if d.checkAsks then partial_ ||| 1 else partial_
  let d0 := d.dropAsks
  let d1 := match r.kind with
    | .trip => d0.finishTrip r f (p &&& r.tests != 0) dur
    | _ => d0.finishReport r (f.get 0) (f.get 1) p voHigh dur
  d1.setSc fun c => { c with running := none }

/-- The failed tests of a check, of the even member and then of the odd one. -/
def bothMembers (even odd : Tab (BitVec 6) 2) : Tab (BitVec 6) 4 :=
  Tab.ofFn fun i => if i.val < 2 then even.get ⟨i.val % 2, Nat.mod_lt _ (by decide)⟩ else odd.get ⟨i.val % 2, Nat.mod_lt _ (by decide)⟩

/-- SOUNDCHECK_DONE (07 R216): at the end of the check's length. `failed0` holds the failed tests by stripe of the tested voice,
or of the even member of a gang, and `failed1` those of the odd one (07 R222); `incomplete` are the tests that could not
complete. -/
def execSoundcheckDone (dt : Nat) (failed0 failed1 : Tab (BitVec 6) 2) (incomplete : BitVec 6) (voHigh : Bool) (s : State) :
    Host.Outcome State Fault Refusal :=
  s.run dt fun d =>
    match d.sc.running with
    | some r => if r.ends ≤ d.now then d.finishCheck r (bothMembers failed0 failed1) incomplete voHigh r.length else d
    | none => d

/-- The running check ends early INCONCLUSIVE (07 R224). -/
def Dev.cutShort (d : Dev) : Dev :=
  match d.sc.running with
  | some r => d.finishCheck r (.fill 4 0) 63 false ((r.length * usec - (r.ends - d.now)) / usec)
  | none => d

/-- The loss of a bank ends a check of its voices (07 R224). -/
def Dev.cutShortBank (d : Dev) (b : BankId) : Dev :=
  match d.sc.running with
  | some r => if bankOf r.voice = b then d.cutShort else d
  | none => d

/-- The running check is abandoned without an outcome (07 R224). -/
def Dev.abandonCheck (d : Dev) : Dev := d.dropAsks.setSc fun c => { c with running := none }

/-! ### Retries (07 R205 to R207) -/

/-- RETRY_DUE (07 R205, R207): the time has come, and under COOL a model update of this slot finds it cool enough; the turn-on follows when the
voice is commanded ON and no bar stands. -/
def execRetryDue (dt : Nat) (v : VoiceId) (s : State) : Host.Outcome State Fault Refusal :=
  s.run dt fun d =>
    let x := d.voice v
    let cool := d.vfld v 0x0F 0 2 != 2 || (decide (d.therm.updatedAt = d.now) && decide (x.therm.tj + d.margin v < (d.vfld v 0x10 16 8 : Nat)))
    match x.retryAt with
    | some t => if x.st = .retryWait && t ≤ d.now && cool then d.modUnit v fun y => { y with retryAt := none, retryReady := true } else d
    | none => d

/-- RETRY_CLEAR (07 R206, R217): once the drive has lasted longer than RETRY_CLEAR the counter clears and every window
closes. -/
def execRetryClear (dt : Nat) (v : VoiceId) (s : State) : Host.Outcome State Fault Refusal :=
  s.run dt fun d =>
    match (d.voice v).drivenSince with
    | some t => if (d.voice v).driven && d.vfld v 0x10 0 16 * 100 * msec < d.now - t then
        d.modUnit v fun x => { x with retry := 0, windows := 0 } else d
    | none => d

/-! ### The opcodes -/

/-- Every named voice is RETIRED. -/
def Dev.allRetired (d : Dev) (m : Mask) : Bool := m != 0 && (maskVoices m).all fun v => (d.voice v).st == .retired

/-- VOICE_CLEAR_FAULT at its commit slot (05 R154). With every named voice RETIRED the answer carries its masks too: DESIGN
CHOICE, log entry 132. -/
def opVoiceClearFault (p : List Byte) (d : Dev) : Dev × Answer :=
  let m := maskAt p 0
  let refused := maskOf fun v => inMask m v && ((d.voice v).st == .checking || (d.voice v).st == .retired)
  let act (d : Dev) (v : VoiceId) : Dev :=
    let held (x : Voice) : Bool := x.st = .latched || x.st = .tripped || x.st = .retryWait
    if (d.unitOf v).any fun u => held (d.voice u) then
      d.forVoices (d.unitOf v) fun d u => (d.withdraw u).modVoice u fun y => { y with
        st := if held y then .off else y.st, retry := 0, fault := 0, cmd := false, retryAt := none, retryReady := false
        idleSince := if y.st = .tripped then d.now else y.idleSince }
    else d.modVoice v fun y => { y with fault := 0 }
  let d1 := d.forVoices (maskVoices (m &&& ~~~ refused)) act
  let data := maskBytes (m &&& ~~~ refused) ++ maskBytes refused
  (d1, ⟨if d.allRetired m then stRetired else 0, data, none⟩)

/-- VOICE_RETIRE at its commit slot (05 R155). -/
def opVoiceRetire (p : List Byte) (d : Dev) : Dev × Answer :=
  let m := maskAt p 0
  let vs := (idx 48).filter fun v => (d.unitOf v).any (inMask m)
  let fresh := vs.filter fun v => (d.voice v).st != .retired
  let d0 := match d.sc.running with
    | some r => if vs.contains r.voice then d.abandonCheck else d
    | none => d
  let (d1, n) := fresh.foldl (fun (acc : Dev × Nat) v =>
    let (d, k) := acc.1.retireVoice v 1 0 0 0
    (d, acc.2 + k)) (d0, 0)
  (d1, ok (maskBytes (maskOf fresh.contains) ++ leBytes 2 (min n 0xFFFF)))

/-- The selected banks and the cuts of BANK_CUT (05 R156). -/
def opBankCut (p : List Byte) (d : Dev) : Dev × Answer :=
  let sel := byteAt p 0 / 16
  let cut := byteAt p 0 % 16
  if sel = 0 then (d, fail stBadParam [])
  else
    let cutting := (idx 4).filter fun b => sel.testBit b.val && cut.testBit b.val && !(d.banks.get b).cut
    let off := maskOf fun v => cutting.contains (bankOf v) && (d.voice v).driven
    let d1 := (idx 4).foldl (fun (d : Dev) b =>
      if !sel.testBit b.val then d
      else if cut.testBit b.val then (if (d.banks.get b).cut then d else (d.cutBank b).cutShortBank b)
      else d.restoreBank b) d
    (d1, ok (b8 (packBits (d1.banks.list.map (·.cut))) :: maskBytes off))

/-- SOUNDCHECK_RUN at its commit slot (07 R229). -/
def opSoundcheckRun (p : List Byte) (d : Dev) : Dev × Answer :=
  let m := maskAt p 0
  let t := BitVec.ofNat 6 (byteAt p 6)
  if t = 0 then (d, fail stBadParam [])
  else
    let queued := maskOf fun v => inMask m v && (d.voice v).st == .off && !(d.voice v).barred
    let d1 := d.forVoices (maskVoices queued) fun d v =>
      d.modVoice v fun x => { x with checks := { x.checks with host := x.checks.host ++ [t] } }
    (d1, ⟨if d.allRetired m then stRetired else 0, maskBytes queued ++ maskBytes (m &&& ~~~ queued), none⟩)

/-- The voice checks that wait (07 R230); that of a tripping fault is its unit's (R222). -/
def Dev.checksWaiting (d : Dev) : Nat :=
  let runs (h : VoiceId) : Bool := d.sc.running.any fun r => r.kind = .trip && d.headOf r.voice = h
  let trips := d.unitHeads.countP fun h => !runs h && (d.unitOf h).any fun m => (d.voice m).checks.trip.any fun t => t != 8
  trips + ((idx 48).map fun v => boolNat (!(d.voice v).checks.report.isEmpty) + (d.voice v).checks.host.length).sum

/-- SOUNDCHECK_RESULT from the snapshot (07 R230). -/
def opSoundcheckResult (snap : Dev) (p : List Byte) : Answer :=
  let head := [b8 snap.checksWaiting, b8 (match snap.sc.running with
      | some r => r.voice.val
      | none => 0xFF)] ++ leBytes 2 snap.sc.delayed ++ leBytes 2 snap.sc.discarded ++ [b8 snap.sc.written, b8 snap.sc.unitsRetired, 0, 0, 0, 0]
  ok (head ++ (maskVoices (maskAt p 0)).flatMap fun v =>
    let x := snap.voice v
    [b8 v.val, b8 x.record.trigger, b8 x.record.outcome, b8 x.record.failed,
     b8 (packBits [x.stripes.getLsbD 0, x.stripes.getLsbD 1, false, false, false, x.windows != 0, x.pullupRetired, x.barred])] ++
    x.record.counts.map b8 ++ [0] ++ leBytes 2 x.record.duration ++ leInt 8 x.record.tbc)

end Sys2Proof.Machine
end

