-- ==== Sys2Proof/Machine/Voices.lean ====
section
/-! DEFINITION. What a driven voice does on the time base: gate ramps, inrush phases, PWM, hold chop, clamp, breath, the
LH inputs, and the voice and cue opcodes (06, 10, 02, 05 R151 to R163). -/

namespace Sys2Proof.Machine
open Sys2Proof

/-! ### Gate ramps and inrush phases (06 R173, R182, R187, R242) -/

/-- Where the gate is off, raising it takes a gate ramp at priority 8 (06 R173). -/
def Voice.raise (x : Voice) (use_ : RampUse) : Voice := if x.gate then x else { x with ramp := .held 8, rampUse := use_ }

/-- A voice whose gate has been raised: the blip of its unit that waited for it begins its 50 µs (13 R378). -/
def Dev.blipRaised (d : Dev) (v : VoiceId) : Dev :=
  match d.therm.blip with
  | some (b, none) => if d.headOf b = d.headOf v then { d with therm := { d.therm with blip := some (b, some (d.now + 50 * usec)) } } else d
  | _ => d

/-- A blip of the unit of `v` runs: its gate stays at full enhancement (13 R378). -/
def Dev.blips? (d : Dev) (v : VoiceId) : Bool := match d.therm.blip with
  | some (b, _) => d.headOf b = d.headOf v
  | none => false

/-- A pulse begins now, on or off the grid (06 R178, R180): none where its on-time is too short; on the grid no gap where
the rest of the period is too short, off it where the next period start comes too soon, which its end tells. -/
def Dev.pulse (d : Dev) (v : VoiceId) (use_ : RampUse) (first : Bool) : Dev :=
  let on := d.onTime v
  let p := d.pwmPeriod v
  if on < tMin v then
    let keep := d.blips? v
    let d1 := if (d.voice v).gate && !keep then d.edgeEnergy v else d
    d1.modVoice v fun x =>
      if keep then { x with offEdge := some d.now, firstPulse := false }
      else { x.gateFall d.now with offEdge := none, firstPulse := false }
  else if p ≤ on || (!first && p < on + tMin v) then d.modVoice v fun x => { x.raise use_ with offEdge := none, firstPulse := false }
  else d.modVoice v fun x => { x.raise use_ with offEdge := some (d.now + 8 * on), firstPulse := first }

/-- The target of the hold chop: I_HOLD, under a ceiling c lowered to c/8 of it but not below I_HOLD_MIN (06 R182,
13 R369). -/
def Dev.holdTarget (d : Dev) (v : VoiceId) : Nat :=
  let c := d.ceilingOf v
  let hold := d.vfld v 0x0C 0 8
  d.targetHalves v (if c < 8 then max (hold * c / 8) (d.vfld v 0x0C 8 8) else hold)

/-- The hold phase begins now, with its first chop period (06 R182). -/
def Dev.beginHold (d : Dev) (v : VoiceId) : Dev :=
  let d1 := if (d.voice v).gate then d else d.edgeEnergy v
  d1.modVoice v fun x => { x.gateRise d.now with
    st := .holding, ramp := .none, holdFrom := d.now, offEdge := some (d.now + 45 * usec), firstPulse := false
    target := d.holdTarget v, clampedChops := 0, clampedNow := false }

/-- The gate is at full enhancement. -/
def Voice.enhanced (x : Voice) : Bool := x.gate && x.ramp == .none

/-- A driven voice enters the steady state of a drive mode now (08 R242): no turn-on, no profile, no token. A gate that is
off rises by a ramp, or the ramp that runs ends first, and the hold chop or the first pulse begins at full enhancement. -/
def Dev.enterMode (d : Dev) (v : VoiceId) (mode : Nat) : Dev :=
  let was := (d.voice v).driveMode
  let ready := (d.voice v).enhanced
  let lift (d : Dev) : Dev := d.modVoice v fun x => { x.raise .raise with rampUse := .raise, offEdge := none, firstPulse := false }
  let d1 := d.modVoice v fun x => { x with driveMode := mode, limit := d.ilim v, plan := [] }
  match mode with
  | 0 => (lift d1).modVoice v fun x => { x with st := .on }
  | 2 =>
    if was = 2 || ready then d1.beginHold v
    else (lift d1).modVoice v fun x => { x with st := .holding, holdFrom := d.now, target := d.holdTarget v, clampedChops := 0, clampedNow := false }
  | _ =>
    let d2 := d1.modVoice v fun x => { x with st := .pwm, duty := if was = mode then x.duty else d.vfld (d.headOf v) 0x0A 0 16 }
    if was = mode then d2
    else
      let d3 := d2.modVoice v fun x => { x with sampled := false, muteKept := d.wave.muted? }
      if ready || d3.onTime v < tMin v then d3.pulse v .raise true else lift d3

/-- A driven unit whose phases are over takes its live drive mode and limit (08 R242, 02 R63). -/
def Dev.takeDrive (d : Dev) (v : VoiceId) : Dev :=
  let x := d.voice v
  if !x.driven || !x.plan.isEmpty || x.st = .ramping || d.dutyRamps v then d
  else
    let mode := d.vfld v 0 0 4
    if x.driveMode = mode then d.modVoice v fun x => { x with limit := d.ilim v } else d.enterMode v mode

/-- A duty ramp whose time is over is done, and what was committed meanwhile applies (06 R187, 08 R242). -/
def Dev.dutyRampEnd (d : Dev) (v : VoiceId) : Dev :=
  if (d.voice v).dutyRamp.isSome && !d.dutyRamps v then (d.modVoice v fun x => { x with dutyRamp := none }).takeDrive v else d

/-- A voice whose phases are over, and whose turn-on ramp is over unless it was the SLEW, leaves RAMPING (06 R180, R187,
R197); the ramp of a pulse on the grid does not delay it. A DUTY_RAMP goes on under the values it started with. -/
def Dev.settle (d : Dev) (v : VoiceId) : Dev :=
  let x := d.voice v
  let ramping := match x.ramp with
    | .none => false
    | _ => x.rampUse == .turnOn && x.profile != 3
  if x.st = .ramping && x.plan.isEmpty && !ramping && x.rampUntil ≤ d.now then
    if d.dutyRamps v then d.modVoice v fun x => { x with st := .pwm } else d.enterMode v (d.vfld v 0 0 4)
  else d

/-- The SLEW ramp of a voice ends now (06 R186, R187): the gate goes to full enhancement, its token returns, and the
desaturation monitor arms in 40 µs (R185). -/
def Dev.slewEnd (d : Dev) (v : VoiceId) : Dev :=
  d.modVoice v fun x => { x with
    plan := [], limit := d.ilim v, ramp := if x.gate then .running (d.now + tGR v) else .none
    spanEnd := x.spanEnd.map fun _ => d.now, desatAt := some (d.now + 40 * usec) }

/-- A gate that was raised for a new drive mode is at full enhancement: its steady state runs from here (08 R242). -/
def Dev.raised (d : Dev) (v : VoiceId) : Dev :=
  let x := d.voice v
  if x.st = .holding then d.beginHold v
  else if x.st = .pwm then d.pulse v .raise true
  else d

/-- GATE_RAMP_END (06 R173): the gate is at full enhancement; a blip's 50 µs begin (13 R378). -/
def execGateRampEnd (dt : Nat) (v : VoiceId) (s : State) : Host.Outcome State Fault Refusal :=
  s.run dt fun d =>
    let x := d.voice v
    match x.ramp with
    | .running _ =>
      if x.profile = 3 && x.st = .ramping && !x.plan.isEmpty then d
      else
        let d1 := (d.modVoice v fun x => { x with ramp := .none }).blipRaised v
        let d2 := if x.rampUse = .raise then d1.raised v else d1
        d2.settle v
    | _ => d

/-- PROFILE_PHASE_END (06 R187): the running phase is over; a SLEW ends when V_DS falls, before its time runs out. RAMPING
without phases or gate ramp ends after t_GR (R180), and a duty ramp at its own end. -/
def execProfilePhaseEnd (dt : Nat) (v : VoiceId) (s : State) : Host.Outcome State Fault Refusal :=
  s.run dt fun d =>
    let x := d.voice v
    match x.plan with
    | (e, _) :: rest =>
      if x.driven && x.profile = 3 then (d.slewEnd v).settle v
      else if x.driven && e ≤ d.now then
        (d.modVoice v fun x => { x with plan := rest, limit := (rest.head?.map (·.2)).getD (d.ilim v) }).settle v
      else d
    | [] => (d.settle v).dutyRampEnd v

/-! ### PWM and hold chop (06 R177 to R183) -/

/-- A period of a voice's grid starts (06 R179, R180): nothing while its pulse runs, while its gate is raised for the
drive mode it enters, or while the power die ignores gate commands (01 R26). -/
def Dev.periodStart (d : Dev) (v : VoiceId) : Dev :=
  let d := d.dutyRampEnd v
  let x := d.voice v
  let raising := x.rampUse == .raise && x.ramp != .none
  let running := match x.offEdge with
    | some t => d.now < t
    | none => false
  if (x.st = .ramping || x.st = .pwm) && (x.driveMode = 1 || x.driveMode = 3) && d.toGrid v = 0 && !running && !raising && !d.ka.held then
    d.pulse v .edge false
  else d

/-- PWM_PERIOD_START (06 R179): both members of a gang. -/
def execPwmPeriodStart (dt : Nat) (v : VoiceId) (s : State) : Host.Outcome State Fault Refusal :=
  s.run dt fun d => d.forVoices (d.unitOf v) Dev.periodStart

/-- The gate falls at the end of an on-time, unless a blip suppresses the edge (13 R378); the gap rule keeps it on where
the first pulse ends too close to the next period start (06 R180), and a SLEW lasts no longer than the first pulse (R186:
DEDUCED, log entry 129). In the peak phase the current has reached I_PEAK: the gate falls until the next chop period, and an
opening search is abandoned (06 R182, 10 R290). -/
def Dev.offEdge1 (d : Dev) (v : VoiceId) : Dev :=
  let x := d.voice v
  if d.blips? v then d
  else if x.st = .holding then
    (if x.gate then d.edgeEnergy v else d).modVoice v fun x => { x.gateFall d.now with offEdge := none }
  else if x.st = .ramping && x.driveMode = 2 then
    if x.gate then (d.edgeEnergy v).modVoice v fun x => { x.gateFall d.now with
      lead := { x.lead with search := if x.lead.search.any (·.opening) then none else x.lead.search } }
    else d
  else match x.offEdge with
  | some t =>
    if t ≤ d.now && x.driven then
      if x.firstPulse && d.toGrid v < tMin v && x.gate then d.modVoice v fun x => { x with offEdge := none, firstPulse := false }
      else
        let d1 := if x.gate then d.edgeEnergy v else d
        let d2 := d1.modVoice v fun x => { x.gateFall d.now with offEdge := none, firstPulse := false }
        if x.profile = 3 && !x.plan.isEmpty then (d2.slewEnd v).settle v else d2
    else d
  | none => d

/-- PWM_OFF_EDGE (06 R177); in a PEAK_HOLD voice, the off edge of a chop (06 R182). -/
def execPwmOffEdge (dt : Nat) (v : VoiceId) (s : State) : Host.Outcome State Fault Refusal :=
  s.run dt fun d => d.offEdge1 v

/-- HOLD_CHOP_PERIOD (06 R182, R183): every 50 µs of the hold phase a chop period begins with its gate on; in the peak phase
the periods count from the turn-on slot (DEDUCED, log entry 130). `clamped` tells at a period start that the clamp was found
active in the period that ends, at any other time that it is found active now; the slot of the first finding in the third
period in a row trips CLAMP_OVER, the gate stays off, and the clamp pulse runs on. -/
def execHoldChopPeriod (dt : Nat) (v : VoiceId) (clamped : Bool) (m : Meas) (s : State) : Host.Outcome State Fault Refusal :=
  s.run dt fun d =>
    let x := d.voice v
    let trip (d : Dev) : Dev := (d.scoreTrip v 9 3 m).modVoice v fun x => { x with clamp := some (x.clamp.getD 0) }
    if d.ka.held then d
    else if x.st = .holding && x.ramp = .none then
      if (d.now - x.holdFrom) % (50 * usec) = 0 then
        let n := if clamped || x.clampedNow then x.clampedChops + 1 else 0
        if 3 ≤ n then trip d
        else (if x.gate then d else d.edgeEnergy v).modVoice v fun y => { y.gateRise d.now with
          clampedChops := n, clampedNow := false, target := d.holdTarget v, edgeAt := if x.gate then x.edgeAt else d.now
          offEdge := some (d.now + 45 * usec) }
      else if clamped then
        if 2 ≤ x.clampedChops then trip d else d.modVoice v fun x => { x with clampedNow := true }
      else d
    else if x.st = .ramping && x.driveMode = 2 && !x.gate && (d.now - x.onAt) % (50 * usec) = 0 then
      (d.edgeEnergy v).modVoice v fun x => { x.gateRise d.now with edgeAt := d.now }
    else d

/-- CLAMP_PULSE_END (06 R195): the energy that has been integrated since the last one enters the model; when the pulse ends,
its time after the gate drive counts in t_d (13 R361), and its whole energy above E_CLAMP, half of it for a half-voice, is
CLAMP_OVER. With `pulse.ended` false the clamp is found active and the pulse goes on, which holds the off-state detection and the check of a tripping fault (07 R200, R212). -/
def execClampPulseEnd (dt : Nat) (v : VoiceId) (pulse : ClampPulse) (m : Meas) (s : State) :
    Host.Outcome State Fault Refusal :=
  s.run dt fun d =>
    let x := d.voice v
    let budget := d.vfld v 0x12 0 16 * 1000
    let total := x.clamp.getD 0 + pulse.microjoules
    let d1 := d.modVoice v fun x => { x with
      clamp := if pulse.ended then none else some total
      therm := { x.therm with
        energy := x.therm.energy + (pulse.microjoules : Rat) / 1000000
        driven := if pulse.ended && !x.driven then x.therm.driven + (d.now - max x.idleSince x.therm.anchoredAt) else x.therm.driven
        restSince := if x.driven || !pulse.ended then none else some d.now } }
    if pulse.ended && budget < (if x.half then 2 * total else total) then d1.scoreReport v 9 m else d1

/-! ### Breath (10 R295 to R297, 06 R188) -/

/-- BREATH_GRANT (10 R296): the grants are step 8 of the slot, which steps 5 to 7 precede (08 R238). -/
def execBreathGrant (dt : Nat) (s : State) : Host.Outcome State Fault Refusal := s.run dt Dev.endSlot

/-- BREATH_SPAN_END (06 R188): the tokens of a turn-on return together. -/
def execBreathSpanEnd (dt : Nat) (v : VoiceId) (s : State) : Host.Outcome State Fault Refusal :=
  s.run dt fun d =>
    match (d.voice v).spanEnd with
    | some t => if t ≤ d.now then (d.returnTokens v).modVoice v fun x => { x with spanEnd := none } else d
    | none => d

/-- The cue ID a late or forced turn-on is told with (10 R300). -/
def TurnOnSource.cueId : TurnOnSource → List Byte
  | .cue id => leBytes 4 id.toNat
  | _ => [0xFF, 0xFF, 0xFF, 0xFF]

/-- A deferred turn-on is cancelled late: counted, and told at most once a second for the voice (10 R297). -/
def Dev.cueLate (d : Dev) (v : VoiceId) (w : Wait) : Dev :=
  let d1 := ((d.withdraw v).modUnit v fun x => { x with cmd := false }).setCues fun q => { q with cueLate := stick 16 (q.cueLate + 1) }
  let n := stick 16 ((d1.voice v).lateCount + 1)
  let told := match (d1.voice v).lateAt with
    | some t => decide (1000 * msec ≤ d.now - t)
    | none => true
  if told then (d1.modVoice v fun x => { x with lateCount := 0, lateAt := some d.now }).event 0x0303 v.val (w.source.cueId ++ leBytes 2 n)
  else d1.modVoice v fun x => { x with lateCount := n }

/-- BREATH_WAIT_EXPIRY (10 R297): MUST_FIRE turns the voice on without a token; otherwise the turn-on is cancelled. -/
def execBreathWaitExpiry (dt : Nat) (v : VoiceId) (s : State) : Host.Outcome State Fault Refusal :=
  s.run dt fun d =>
    match (d.voice v).wait with
    | some w =>
      match w.stage, w.deadline with
      | .deferred, some t =>
        if d.now < t then d
        else if d.vfld v 0 10 1 = 1 then
          let w1 : Wait := { w with free := true, deadline := none }
          let d1 := (d.granted v w1).setCues fun q => { q with mustFired := stick 16 (q.mustFired + 1) }
          d1.event 0x0304 v.val w.source.cueId
        else d.cueLate v w
      | _, _ => d
    | none => d

/-- SIGNATURE_WINDOW_EXPIRY (10 R290): no signature within SIG_WIN. -/
def execSignatureWindowExpiry (dt : Nat) (v : VoiceId) (m : Meas) (s : State) : Host.Outcome State Fault Refusal :=
  s.run dt fun d =>
    match (d.voice v).lead.search with
    | some q =>
      if d.vfld v 0x14 16 8 * msec ≤ d.now - q.t0 then
        let d1 := d.modVoice v fun x => { x with lead := { x.lead with search := none, noMotion := true } }
        if d.vfld v 0x14 24 1 = 1 then d1.scoreReport v 11 m else d1
      else d
    | none => d

/-! ### The LH inputs (02 R54 to R58) -/

/-- The device samples the LH inputs: from a cappella live, in every mode but HALTED. -/
def Dev.lhLive (d : Dev) : Bool := d.ctl.liveAt.isSome && d.ctl.mode != .halted && d.ctl.mode != .starting

/-- The debounce time: LH_CTRL.LH_DEBOUNCE where the live words command by an input, else 10 ms (02 R54, 08 R235). -/
def Dev.lhDebounce (d : Dev) : Nat :=
  if d.ctl.mode = .conducted || d.ctl.mode = .fallback then d.fld 1 0 8 * msec else 10 * msec

/-- The pin shows `level`, and has shown it since time `t` (02 R54, R56): the timer starts at a change, and the raw level
that ended has kept the debounce from settling where it was shorter than the debounce time. -/
def LhInput.see (x : LhInput) (level : Bool) (t debounce : Nat) : LhInput :=
  if level = x.raw then { x with rawAt := max x.rawAt t }
  else
    let at_ := max x.rawAt t
    { x with raw := level, rawAt := at_
             restless := if at_ < x.rawAt + debounce then some (x.restless.getD x.rawAt) else none }

/-- When a level that the pin shows since time `start` is first sampled: every 100 µs from a cappella live (18 R522; DEDUCED,
log entry 170). -/
def Dev.lhSample (d : Dev) (start : Nat) : Nat :=
  let live := d.ctl.liveAt.getD 0
  live + (start - live + 100 * usec - 1) / (100 * usec) * (100 * usec)

/-- LH_LEVEL_CHANGE (02 R54): the pin has shown `level` for the last `held` slots; the filter passes one that has stood for
20 µs (18 R522). Once a level has stood for the debounce time it is the debounced level, which its voices follow at the end of
the slot; a level that ends a second of bouncing has stood from now (02 R56). -/
def execLhLevelChange (dt : Nat) (lh : Fin 8) (raw : LhRaw) (s : State) : Host.Outcome State Fault Refusal :=
  s.run dt fun d =>
    if d.lhLive then
      let seen := d.lhSample (d.now - 8 * raw.held)
      if 8 * raw.held < 20 * usec || d.now < seen then d
      else
        let x := (d.lh.get lh).see raw.level seen d.lhDebounce
        let bounced := x.restless.any fun t => t + 1000 * msec ≤ d.now
        let y := if x.rawAt + d.lhDebounce ≤ d.now then
            { x with restless := none, level := raw.level, since := if x.level = raw.level && !bounced then x.since else d.now } else x
        { d with lh := d.lh.set lh y }
    else d

/-- LH_RATE_RELEASE (02 R55): the window permits a withheld change. -/
def execLhRateRelease (dt : Nat) (v : VoiceId) (s : State) : Host.Outcome State Fault Refusal :=
  s.run dt fun d => d.followLevel (d.headOf v)

/-- CHATTER is due (02 R56, 08 R235): no raw level has settled for 1 s, or a change of a voice of the input has been
withheld for 1 s. -/
def Dev.chatterDue (d : Dev) (lh : Fin 8) : Bool :=
  let second (t : Option Nat) : Bool := t.any fun t => t + 1000 * msec ≤ d.now
  let x := d.lh.get lh
  (second x.restless && decide (d.now ≤ x.rawAt + d.lhDebounce)) ||
    (idx 48).any fun v => d.levelInput v = some lh && second (d.voice v).withheld

/-- CHATTER (02 R56). -/
def execChatter (dt : Nat) (lh : Fin 8) (s : State) : Host.Outcome State Fault Refusal :=
  s.run dt fun d =>
    if d.lhLive && !(d.lh.get lh).chatter && d.chatterDue lh then
      ({ d with lh := d.lh.modify lh fun x => { x with chatter := true } }).event 0x000A lh.val []
    else d

/-- CHATTER_CLEAR (02 R56): the input has held one debounced level for 1 s, and no cause of CHATTER stands. -/
def execChatterClear (dt : Nat) (lh : Fin 8) (s : State) : Host.Outcome State Fault Refusal :=
  s.run dt fun d =>
    if (d.lh.get lh).since + 1000 * msec ≤ d.now && !d.chatterDue lh then { d with lh := d.lh.modify lh fun x => { x with chatter := false } } else d

/-- LH_REARM (02 R58, 08 R235): the input has held its inactive level for 1 s; its LATCHED voices are OFF with their retry
counters clear, and turn on at the next active level. -/
def execLhRearm (dt : Nat) (lh : Fin 8) (s : State) : Host.Outcome State Fault Refusal :=
  s.run dt fun d =>
    let x := d.lh.get lh
    if d.lhLive && !x.level && 1000 * msec ≤ d.now - x.since then
      d.forVoices ((idx 48).filter fun v => d.levelInput v = some lh && (d.voice v).st = .latched) fun d v =>
        (d.modUnit v fun y => { y with retry := 0 }).modVoice v fun y => { y with st := .off }
    else d

/-! ### The banks (06 R171, R172, 07 R204) -/

/-- The loss of a bank (06 R172): its driven voices turn off in this slot, its waiting turn-ons are withdrawn, and a check
of its voices ends. -/
def Dev.loseBank (d : Dev) (b : BankId) : Dev :=
  (((d.forVoices (d.drivenOf b) (Dev.dropVoice .forced)).endSearches b).withdrawBank b).cutShortBank b

/-- BANK_SUPPLY_ABSENT (06 R172). -/
def execBankSupplyAbsent (dt : Nat) (bank : BankId) (s : State) : Host.Outcome State Fault Refusal :=
  s.run dt fun d =>
    if (d.banks.get bank).present then ((d.modBank bank fun x => { x with present := false }).loseBank bank).event 0x0101 bank.val [0]
    else d

/-- BANK_SUPPLY_PRESENT (06 R172): the voices stay off. -/
def execBankSupplyPresent (dt : Nat) (bank : BankId) (s : State) : Host.Outcome State Fault Refusal :=
  s.run dt fun d =>
    if (d.banks.get bank).present then d else (d.modBank bank fun x => { x with present := true }).event 0x0101 bank.val [1]

/-- CHARGE_PUMP_LOW (07 R204): as the absence of all four banks, told once. -/
def execChargePumpLow (dt : Nat) (s : State) : Host.Outcome State Fault Refusal :=
  s.run dt fun d =>
    if d.pd.vcpOk then
      let d1 : Dev := { d with pd := { d.pd with vcpOk := false } }
      ((idx 4).foldl Dev.loseBank d1).event 0x0209 0xFF [0]
    else d

/-- CHARGE_PUMP_RECOVERED (07 R204). -/
def execChargePumpRecovered (dt : Nat) (s : State) : Host.Outcome State Fault Refusal :=
  s.run dt fun d =>
    if d.pd.vcpOk then d else ({ d with pd := { d.pd with vcpOk := true } }).event 0x0209 0xFF [1]

/-- The measured currents of a bank's voices, each its newest conversion, in A (06 R171). -/
def Dev.bankAmps (d : Dev) (b : BankId) : Rat := (((idx 48).filter fun v => bankOf v = b).map d.amps).sum

/-- The sum of a bank's currents joins its 1 s average, and BANK_OVER is told above 30 A until it falls below 27 A
(06 R171). Sums that the first second does not hold yet count as 0: DESIGN CHOICE, log entry 131. -/
def Dev.bankSum (d : Dev) (b : BankId) : Dev :=
  let amps := d.bankAmps b
  let d1 := d.modBank b fun x => { x with sums := (amps :: x.sums).take 100000, sumAt := d.now }
  let average := (d1.banks.get b).sums.sum / 100000
  if 30 < average && !(d1.banks.get b).overLogged then
    (d1.modBank b fun x => { x with overLogged := true }).event 0x0102 b.val (leBytes 2 (sat 16 (report (average * 10))))
  else if average < 27 then d1.modBank b fun x => { x with overLogged := false }
  else d1

/-- BANK_CURRENT_SUM (06 R171): every 10 µs. -/
def execBankCurrentSum (dt : Nat) (_sums : Told) (s : State) : Host.Outcome State Fault Refusal :=
  s.run dt fun d => (idx 4).foldl (fun d b => if (d.banks.get b).sumAt + 10 * usec ≤ d.now then d.bankSum b else d) d

/-! ### VOICE_SET and VOICE_DUTY (05 R151 to R153) -/

/-- A turn-on or turn-off of VOICE_SET on one unit: whether it was taken (05 R152, 08 R234). A voice in a fault state
refuses an ON, its waiting retry notwithstanding; an ON on a voice still driven while the cut of its bank goes on is DONE
(DESIGN CHOICE, log entry 172). -/
def Dev.setVoice (d : Dev) (v : VoiceId) (on : Bool) : Dev × Bool :=
  if (d.voice v).st = .retired || (d.levelInput v).isSome then (d, false)
  else if on then
    (d.askOn v .voiceSet (d.vfld v 0 4 4) (d.prioOf v), d.unitOn v || d.bar v == .none)
  else (d.askOff v, true)

/-- VOICE_SET at its commit slot (05 R151, R152). A reply with status RETIRED carries its masks like any other: DESIGN
CHOICE, log entry 132. -/
def opVoiceSet (p : List Byte) (d : Dev) : Dev × Answer :=
  let action := byteAt p 0
  let chorus := byteAt p 1
  let m0 := maskAt p 2
  if 1 < action || (0x40 ≤ chorus && chorus ≤ 0xFE) || (chorus = 0xFF && m0 = 0) || (chorus < 0x40 && m0 != 0) then (d, fail stBadParam [])
  else
    let m := if chorus = 0xFF then m0 else d.chorusMask chorus
    let (d1, taken) := (d.heads m).foldl (fun (acc : Dev × List VoiceId) h =>
      let (d, ok) := acc.1.setVoice h (action = 1)
      (d, if ok then acc.2 ++ d.unitOf h else acc.2)) (d, [])
    let t := m &&& maskOf taken.contains
    let status : Byte := if d.allRetired m then stRetired else 0
    if action = 1 then (d1, ⟨status, [], some (t, m &&& ~~~ t)⟩)
    else (d1, ⟨status, maskBytes t ++ maskBytes 0 ++ maskBytes (m &&& ~~~ t), none⟩)   -- an OFF defers nothing

/-- The result byte of one VOICE_DUTY entry and the duty it sets (05 R153): of a voice that is neither driven nor in PWM
mode, NOT_RUNNING goes before NOT_PWM: DESIGN CHOICE, log entry 133. -/
def Dev.dutyEntry (d : Dev) (v : VoiceId) (duty : Nat) : Dev × Byte :=
  let x := d.voice v
  if x.st.isFault || x.st = .retired || x.barred then (d, 3)
  else if !x.isOn then (d, 1)
  else if x.driveMode != 1 then (d, 2)
  else (d.applyDuty v duty, if d.dutyCap v < duty then 4 else 0)

/-- The entries of VOICE_DUTY in packet order. -/
def dutyEntries : List Byte → List (Nat × Nat)
  | a :: _ :: c :: e :: rest => (a.toNat, leNat [c, e]) :: dutyEntries rest
  | _ => []

/-- VOICE_DUTY at its commit slot (05 R153). -/
def opVoiceDuty (p : List Byte) (d : Dev) : Dev × Answer :=
  let es := dutyEntries p
  if es.any fun e => 48 ≤ e.1 then (d, fail stBadParam [])
  else
    let (d1, rs) := es.foldl (fun (acc : Dev × List Byte) e =>
      let (d, r) := acc.1.dutyEntry ⟨e.1 % 48, Nat.mod_lt _ (by decide)⟩ e.2
      (d, acc.2 ++ [r])) (d, [])
    (d1, ok rs)

/-! ### The cue opcodes (05 R159 to R163, 10 R278, R299) -/

/-- A cue entry as submitted, with the ID it would receive (10 R276): a TBC tick is unsigned, an odometer value signed
(DEDUCED, log entry 134). -/
def cueOf (id : Word) (b : List Byte) : Cue :=
  let ctrl := byteAt b 0
  { id := id, basis := ctrl / 64, noLead := ctrl.testBit 5, action := ctrl % 4, chorus := (byteAt b 1).testBit 7
    who := byteAt b 1 % 64, arg := field b 2 2
    partner := if byteAt b 4 = 0 then none else some (id - BitVec.ofNat 32 (byteAt b 4))
    target := if ctrl / 64 = 1 then toSigned 64 (field b 8 8) else field b 8 8
    bytes := b, acted := 0, nulled := 0, seen := false, named := 0, spent := false }

/-- The checks of one entry, in the order of 10 R278: its status, and the index of the ON partner of an inverted OFF. -/
def Dev.cueCheck (d : Dev) (es : List (List Byte)) (i : Nat) : Option (Byte × Nat) :=
  let b := es.getD i []
  let c := cueOf 0 b
  let p := byteAt b 4
  let q := es.getD (i - p) []
  let qc := cueOf 0 q
  let voice : VoiceId := ⟨c.who % 48, Nat.mod_lt _ (by decide)⟩
  if cueReserved b then some (stBadParam, 0xFFFF)
  else if (!c.chorus && 48 ≤ c.who) || (c.action = 3 && 4 < c.arg) then some (stBadParam, 0xFFFF)
  else if c.action = 3 && !c.chorus && !profileRuns c.arg (d.vfld voice 0 0 4) then some (stBadParam, 0xFFFF)
  else if p != 0 && (c.action != 0 || i < p || !qc.isOn || qc.chorus != c.chorus || qc.who != c.who || qc.basis != c.basis || 2 ≤ c.basis) then
    some (stBadParam, 0xFFFF)
  else if p != 0 && decide (c.target < qc.target) then some (stInverted, i - p)
  else if (c.basis = 1 && d.odo.st = .unavailable) || (c.basis = 3 && !(d.chain.enumerated || d.chain.addr.isSome)) then some (stWrongMode, 0xFFFF)
  else if !c.chorus && (d.voice voice).st = .retired then some (stRetired, 0xFFFF)
  else none

/-- Free places of the queue (10 R279). -/
def Dev.cueFree (d : Dev) : Nat := 4096 - d.cues.queue.length

/-- The first entry of a CUE_ADD that fails, with its first failing rule (10 R278). -/
def Dev.cueFailure (d : Dev) (p : List Byte) : Option Answer :=
  let es := chunks 16 256 p
  (List.range es.length).findSome? fun i => (d.cueCheck es i).map fun r => fail r.1 (leBytes 2 i ++ leBytes 2 r.2)

/-- CUE_ADD at its commit slot (05 R159, 10 R278): the entries are queued, and IMMEDIATE ones act at once (10 R283). -/
def opCueAdd (p : List Byte) (d : Dev) : Dev × Answer :=
  let es := chunks 16 256 p
  match d.cueFailure p with
  | some a => (d, a)
  | none =>
    if d.cueFree < es.length then (d, fail stQueueFull (leBytes 2 0xFFFF ++ leBytes 2 d.cueFree))
    else
      let first := d.cues.nextId
      let cs := es.mapIdx fun i b => cueOf (first + BitVec.ofNat 32 i) b
      let d1 := d.setCues fun q => { q with queue := q.queue ++ cs, nextId := q.nextId + BitVec.ofNat 32 es.length }
      (d1.cueSlot fun c => c.basis = 2, ok (leBytes 4 first.toNat ++ leBytes 2 es.length))

/-- Pending entries are cancelled with the turn-ons of theirs that wait; nothing counts as late (10 R279). The commanded state
of a voice whose waiting turn-on goes is OFF: DESIGN CHOICE, log entry 171. -/
def Dev.cancelWhere (d : Dev) (p : Cue → Bool) : Dev × Nat :=
  let out (c : Cue) : Bool := p c && d.cuePending c
  let gone := d.cues.queue.filter out
  let d1 := d.setCues fun q => { q with queue := q.queue.filter fun c => !out c }
  let mine (x : Voice) : Bool := match x.wait with
    | some w => (match w.source with
      | .cue id => gone.any fun c => c.id = id
      | _ => false)
    | none => false
  (d1.forVoices ((idx 48).filter fun v => mine (d1.voice v)) fun d v => (d.withdraw v).modUnit v fun x => { x with cmd := false }, gone.length)

/-- The cue IDs of CUE_CANCEL KIND 0. -/
def cueIds : List Byte → List Word
  | a :: b :: c :: e :: rest => BitVec.ofNat 32 (leNat [a, b, c, e]) :: cueIds rest
  | _ => []

/-- CUE_CANCEL at its commit slot (05 R160). An ID named twice counts once in CANCELLED and not in NOT_FOUND (DESIGN CHOICE,
log entry 139). -/
def opCueCancel (p : List Byte) (d : Dev) : Dev × Answer :=
  match byteAt p 0 with
  | 0 =>
    let ids := cueIds (p.drop 2)
    let missing := (ids.filter fun i => !(d.findCue i).any d.cuePending).length
    let (d1, n) := d.cancelWhere fun c => ids.contains c.id
    (d1, ok (leBytes 2 n ++ leBytes 2 missing))
  | 1 =>
    let m := maskAt p 2
    let (d1, n) := d.cancelWhere fun c => !c.chorus && m.getLsbD c.who
    (d1, ok (leBytes 2 n))
  | 2 =>
    if 64 ≤ byteAt p 2 then (d, fail stBadParam [])
    else
      let (d1, n) := d.cancelWhere fun c => c.chorus && c.who = byteAt p 2
      (d1, ok (leBytes 2 n))
  | 3 =>
    let (d1, n) := d.cancelWhere fun _ => true
    (d1, ok (leBytes 2 n))
  | _ => (d, fail stBadParam [])

/-- Voices that wait for breath (05 R161). -/
def Dev.deferredCount (d : Dev) : Nat := d.voices.count fun x => match x.wait with
  | some w => w.stage == .deferred
  | none => false

/-- One record of CUE_QUERY (05 R161): a held entry shows HELD whatever its turn-ons wait for (10 R286). -/
def Dev.cueRecord (d : Dev) (c : Cue) : List Byte :=
  leBytes 4 c.id.toNat ++ [if d.cueHeld c then 1 else if d.cueDeferred c.id then 2 else 0, 0, 0, 0] ++ c.bytes

/-- CUE_QUERY from the snapshot (05 R161): entries whose ID follows FROM_ID modulo 2^32, oldest first. -/
def opCueQuery (snap : Dev) (p : List Byte) : Answer :=
  let from_ : Word := BitVec.ofNat 32 (field p 0 4)
  let max_ := field p 4 2
  if 256 < max_ then fail stBadParam []
  else
    let q := snap.cues
    let got := (q.queue.filter fun c => (c.id - from_).toNat < 2 ^ 31).take max_
    ok (leBytes 2 q.queue.length ++ leBytes 2 snap.cueFree ++ leBytes 2 snap.deferredCount ++ leBytes 2 q.nullPulse ++
      leBytes 2 q.cueLate ++ leBytes 4 q.nextId.toNat ++ [b8 got.length, 0] ++ got.flatMap snap.cueRecord)

/-- CUE_QUERY in its STATS form (10 R299): the reply from the snapshot; CLEAR acts at the commit edge and leaves the counts of
its own slot (21 R557). -/
def opCueStats (snap : Dev) (p : List Byte) (d : Dev) : Dev × Answer :=
  let q := snap.cues
  let held := (q.queue.filter snap.cueHeld).length
  let data := leBytes 2 q.queue.length ++ leBytes 2 snap.cueFree ++ leBytes 2 held ++ leBytes 2 snap.deferredCount ++
    leBytes 2 q.nullPulse ++ leBytes 2 q.cueLate ++ leBytes 2 q.rampAbort ++ leBytes 2 q.behind ++ leBytes 2 q.mustFired ++
    leBytes 2 q.dropped ++ [0, 0, 0, 0]
  let d1 := if (byteAt p 0).testBit 0 then
      d.setCues fun q => { q with
        nullPulse := d.sinceSlot 36 q.nullPulse, cueLate := d.sinceSlot 37 q.cueLate, rampAbort := d.sinceSlot 38 q.rampAbort
        behind := d.sinceSlot 39 q.behind, mustFired := d.sinceSlot 40 q.mustFired, dropped := d.sinceSlot 41 q.dropped }
    else d
  (d1, ok data)

/-- LEAD_READ from the snapshot (05 R163); times in units of 10 µs. A voice that is PEAK_HOLD no more shows its seeds with the
flags and numbers of the measurements it still holds, and a gang's odd member its own leads: DESIGN CHOICE, log entry 173. -/
def opLeadRead (snap : Dev) (p : List Byte) : Answer :=
  let tens (i : Int) : List Byte := leBytes 2 (sat 16 (report ((i : Rat) / 30000)))
  ok ((maskVoices (maskAt p 0)).flatMap fun v =>
    let l := (snap.voice v).lead
    let own (opening : Bool) : Int :=
      let held := if snap.vfld v 0 0 4 != 2 then [] else if opening then l.opens else l.closes
      if held.isEmpty then (snap.vfld v 0x13 (if opening then 0 else 16) 16 * 10 * usec : Nat) else median held
    [b8 v.val, b8 (packBits [false, false, false, false, false, l.noMotion, !l.closes.isEmpty, !l.opens.isEmpty])] ++
    tens (own true) ++ tens (own false) ++ [b8 l.opens.length, b8 l.closes.length] ++ tens l.lastOpen ++ tens l.lastClose)

/-- CUE_EXECUTE (10 R281): the entries of this slot act. -/
def execCueExecute (dt : Nat) (s : State) : Host.Outcome State Fault Refusal := s.run dt Dev.levelsAndCues

/-- ODOMETER_READ from the snapshot (05 R162). -/
def opOdometerRead (snap : Dev) : Answer := ok snap.odoReply

/-- ODOMETER_READ in its REBASE form at its commit slot (05 R162). -/
def opOdometerRebase (p : List Byte) (d : Dev) : Dev × Answer :=
  if d.odo.st = .unavailable then (d, fail stWrongMode [])
  else
    let d1 := d.rebase (toSigned 64 (field p 0 8))
    (d1, ok (d1.odoReply ++ leInt 8 d.odoUnits))

/-- TALLY_READ (09 R269): the head from the snapshot, the entries released at the commit edge, bounded by the
snapshot. -/
def opTallyRead (snap : Dev) (p : List Byte) (d : Dev) : Dev × Answer :=
  let i : Fin 8 := ⟨byteAt p 0 % 8, Nat.mod_lt _ (by decide)⟩
  let n := byteAt p 1
  let ctrl := byteAt p 2
  if 8 ≤ byteAt p 0 then (d, fail stBadParam [])
  else
    let s := snap.tally.get i
    let x := d.tally.get i
    let have_ := x.fifo.take (s.taken + s.fifo.length - x.taken)
    let got := have_.take n
    let d1 := d.modTally i fun x => { x with fifo := x.fifo.drop got.length, taken := x.taken + got.length }
    let left (k now : Nat) : Nat := d.sinceSlot (12 + 3 * i.val + k) now
    let d2 := if ctrl.testBit 0 then d1.modTally i fun x => { x with
        overflow := left 0 x.overflow, overflowLogged := left 0 x.overflow != 0, glitch := left 1 x.glitch, orphan := left 2 x.orphan } else d1
    (d2, ok (snap.tallyHead i got.length ++ got.flatMap FifoEntry.bytes))

end Sys2Proof.Machine
end

