-- ==== Sys2Proof/Machine/Modes.lean ====
section
/-! DEFINITION. The device modes: what each entry does to cues, voices, checks and words (08 R239 to R245, 02 R60 to
R66), and the restart of the control die. -/

namespace Sys2Proof.Machine
open Sys2Proof

/-- The mode changes and MODE is logged; `cause` 0 host opcode, 1 watchdog, 2 chain rule, 3 halt, 4 power-down
(05 R143). -/
def Dev.toMode (d : Dev) (m : Mode) (cause : Nat) : Dev :=
  ({ d with ctl := { d.ctl with mode := m } }).event 0x0002 0xFF [b8 d.ctl.mode.code, b8 m.code, b8 cause]

def Dev.setCtl (d : Dev) (f : Control → Control) : Dev := { d with ctl := f d.ctl }
def Dev.setPort (d : Dev) (f : HostPort → HostPort) : Dev := { d with port := f d.port }

/-- The watchdog stops (08 R241). -/
def Dev.stopWatchdog (d : Dev) : Dev := d.setPort fun p => { p with watchdog := none }

/-- T_wd in ms (04 R116). -/
def Dev.tWd (d : Dev) : Nat := d.fld 0 0 16

/-- The watchdog starts afresh (03 R97, R99). -/
def Dev.startWatchdog (d : Dev) : Dev := d.setPort fun p => { p with watchdog := some (d.now + d.tWd * msec) }

/-- Every waiting turn-on is withdrawn (10 R298). -/
def Dev.withdrawAll (d : Dev) : Dev := d.forVoices (idx 48) Dev.withdraw

/-- Every commanded state becomes OFF: the mode has no command source (08 R232). -/
def Dev.commandOff (d : Dev) : Dev := { d with voices := d.voices.map fun x => { x with cmd := false } }

/-- RETRY_WAIT ends in OFF with the retry counter kept (08 R241). -/
def Dev.endRetries (d : Dev) : Dev :=
  { d with voices := d.voices.map fun x =>
    if x.st = .retryWait then { x with st := .off, retryAt := none, retryReady := false } else x }

/-! ### HALTED (01 R34, 08 R241, 07 R224) -/

/-- The checks outside the voice queue end: INCONCLUSIVE at a zone hard stop, else without an outcome (07 R224). -/
def Dev.endUnitChecks (d : Dev) (hard : Bool) : Dev :=
  let zones := (idx 8).filter fun z => (d.therm.zones.get z).checkEnds.isSome
  let slices := (idx 9).filter fun k => (d.conv.slices.get k).check.isSome
  let ports := (idx 2).filter fun k => (d.chain.ports.get k).checking
  let told (d : Dev) : Dev :=
    if hard then
      let held := (idx 48).filter fun v => d.headOf v == v && (d.unitOf v).any (inMask d.sc.zoneChecked)
      let d0 := zones.foldl (fun d z => d.unitChecked (0x50 + z.val) 0x81 .inconclusive 2000) d
      let d1 := d0.forVoices held fun d v => d.tellThermal v true
      let d2 := slices.foldl (fun d k => d.unitChecked (0x40 + k.val) 0x82 .inconclusive 2) d1
      let d3 := ports.foldl (fun d k => d.unitChecked (0x60 + k.val) 0x83 .inconclusive 41) d2
      d3.nv.checks.foldl (fun d c => d.unitChecked c.1 0x84 .inconclusive 1000) d3
    else d
  let d1 := told d
  { d1 with
    therm := { d1.therm with zones := d1.therm.zones.map fun z =>
      if z.checkEnds.isSome then { z with checkEnds := none, st := if z.st = .checking then .suspect else z.st } else z }
    conv := { d1.conv with slices := d1.conv.slices.map fun x => { x with check := none } }
    chain := { d1.chain with ports := d1.chain.ports.map fun x => { x with checking := false } }
    nv := { d1.nv with checks := [] }
    sc := { d1.sc with zoneChecked := 0 } }

/-- HALTED is entered (08 R239, R241): every voice off, checks ended, cues cancelled, engines and the wave port stopped,
a raw operation stopped. `hard` tells the zone hard stop, which ends the checks INCONCLUSIVE, their voices then OFF; otherwise
they are abandoned, and a TRIPPED or CHECKING voice keeps its state, which no table changes (06 R197, 07 R224). -/
def Dev.enterHalted (d : Dev) (cause detail : Nat) (hard : Bool) : Dev :=
  if d.ctl.mode = .halted then d
  else
    let d1 := (d.setCtl fun c => { c with haltCause := cause, haltDetail := detail }).toMode .halted 3
    let d2 := (d1.event 0x0003 0xFF [b8 cause, b8 detail]).stopWatchdog
    let d3 := (d2.withdrawAll.forVoices (idx 48) fun d v => d.turnOff v .forced).commandOff.cancelCues
    let d4 := ((if hard then d3.cutShort else d3.abandonCheck).endUnitChecks hard).endRetries
    let d5 : Dev := { d4 with
      voices := d4.voices.map fun x => { x with checks := .empty, st := if hard && x.st = .checking then .off else x.st }
      therm := { d4.therm with blip := none, blips := [] } }
    ((d5.engineStop).waveOff).rawStop true

/-! ### FALLBACK (08 R243) -/

/-- The voice's FB_ACTION at the entry to FALLBACK. -/
def Dev.fallbackVoice (d : Dev) (v : VoiceId) : Dev :=
  if d.vfld v 0 19 1 = 1 then d
  else match d.vfld v 0 14 2 with
  | 0 => d.askOff v
  | 1 =>
    let on := d.unitDriven v
    d.modUnit v fun x => if x.driven then { x with cmd := on } else if x.st.isFault then x else { x with cmd := on }
  | _ => d.modUnit v fun x => { x with fallbackLh := true }

/-- FALLBACK is entered: cause 1 watchdog, 2 link timeout (08 R239, R241). -/
def Dev.enterFallback (d : Dev) (cause : Nat) : Dev :=
  let d1 := ((d.toMode .fallback cause).stopWatchdog.cancelCues).withdrawAll
  d1.forVoices d1.unitHeads Dev.fallbackVoice

/-! ### PARKED (05 R157, 08 R241) -/

/-- PARKED is entered: cause 0 PARK, 4 power-down. The driven voices turn off by the power-down sequence; a tripped voice goes
OFF once its check completes, whatever mode stands then. -/
def Dev.enterParked (d : Dev) (cause : Nat) : Dev :=
  let d1 := ((((d.toMode .parked cause).stopWatchdog.cancelCues).withdrawAll).endRetries).commandOff
  { d1 with voices := d1.voices.map fun x =>
    if x.st = .tripped || x.st = .checking then { x with checks := { x.checks with offAsked := true } } else x }

/-! ### A new live image (02 R62 to R65, 08 R242, 06 R192) -/

/-- Every unit takes its live drive. -/
def Dev.takeDrives (d : Dev) : Dev := d.forVoices (idx 48) Dev.takeDrive

/-- The wait and the tokens of an odd member pass to the even member of the gang it joins. -/
def Dev.mergeWait (d : Dev) (e : VoiceId) : Dev :=
  let o := nextVoice e
  match (d.voice o).wait, (d.voice e).wait with
  | some w, none =>
    let t := (d.voice o).token
    let u := (d.voice o).domainToken
    (d.modVoice o fun x => { x with wait := none, token := false, domainToken := none }).modVoice e fun x =>
      { x with wait := some w, token := t, domainToken := u }
  | _, _ => d.withdraw o

/-- A gang is formed at the commit edge (06 R192): members in different states are both turned off hard; a RETIRED member
retires the other. It has one retry counter, the higher of the two, and a member in a fault state goes on in it: DEDUCED, log
entry 124. -/
def Dev.formGang (d : Dev) (e : VoiceId) : Dev :=
  let o := nextVoice e
  let a := d.voice e
  let b := d.voice o
  let same := a.st = b.st && (a.st = .off || a.driven)
  if a.st = .retired || b.st = .retired then
    let keep (d : Dev) (v : VoiceId) : Dev := if (d.voice v).st = .retired then d else (d.retireVoice v 2 0 0 0).1
    let d1 := keep (keep d e) o
    if a.st = b.st then d1 else d1.event 0x0103 e.val [b8 a.code, b8 b.code]
  else if same then (d.mergeWait e).forVoices [e, o] fun d v => d.modVoice v fun x => { x with retry := max a.retry b.retry }
  else
    let src := if a.st.isFault then a else b
    let d1 := d.forVoices [e, o] fun d v => ((d.withdraw v).turnOff v .orderly).modVoice v fun x => { x with
      retry := max a.retry b.retry, retryReady := a.retryReady || b.retryReady, cmd := src.st.isFault && src.cmd }
    d1.event 0x0103 e.val [b8 a.code, b8 b.code]

/-- Gangs that the new live words form (06 R192); `old` is the device before the words changed. -/
def Dev.formGangs (d old : Dev) : Dev :=
  d.forVoices ((idx 48).filter fun v => v.val % 2 = 0 && (d.gang v).isSome && (old.gang v).isNone) Dev.formGang

/-- What a change of live words does outside the voices: tally inputs, engines, the wave port. The ground source in use, its
last edge and its period stay under new GROUND words (09 R270): DESIGN CHOICE, log entry 176. -/
def Dev.reconfigure (d old : Dev) : Dev := (((d.holdCorr old).tallyReconf old).engineReconf old).waveReconf old

/-- A waiting turn-on goes on under the profile and priority that stand now (02 R63): it needs a token where it holds none
and its profile asks for one. -/
def Wait.renew (w : Wait) (profile prio : Nat) (token : Bool) : Wait :=
  { w with profile := profile, prio := prio, stage := if (w.stage = .ramp || w.stage = .check) && profile != 0 && !token then .fresh else w.stage }

/-- One voice at CONDUCT from A CAPPELLA (02 R63): a driven voice is commanded ON; a waiting turn-on goes on only where
the image binds the voice to its own active input, and then by the committed words. -/
def Dev.conductVoice (d : Dev) (v : VoiceId) : Dev :=
  let x := d.voice v
  let kept := d.vfld v 0 19 1 = 1 && d.vfld v 0 16 3 = (zoneOf v).val && (d.lh.get (zoneOf v)).level
  let d1 := if x.wait.isSome && !kept then d.withdraw v else d
  d1.modVoice v fun y => { y with
    wait := y.wait.map fun w => w.renew (d.vfld v 0 4 4) (d.prioOf v) y.token
    withheld := none, cmd := if y.driven then true else if y.wait.isSome || y.st.isFault then y.cmd else false }

/-- One voice at CONDUCT from CONDUCTED or FALLBACK (08 R242): a voice that its input leaves keeps its present state as
its commanded state; on a voice newly bound to an input a waiting turn-on is the input's, with no deadline and no
MUST_FIRE (08 R235). -/
def Dev.reconductVoice (old d : Dev) (v : VoiceId) : Dev :=
  if (old.levelInput v).isSome && d.vfld v 0 19 1 = 0 then
    let d1 := match (d.voice v).wait with
      | some w => if w.source = TurnOnSource.level then d.withdraw v else d
      | none => d
    d1.modVoice v fun y => { y with withheld := none, fallbackLh := false, cmd := if y.st.isFault then y.cmd else y.driven }
  else
    let bound := (old.levelInput v).isNone && d.vfld v 0 19 1 = 1
    let taken (w : Wait) (token : Bool) : Wait :=
      if w.source = TurnOnSource.retry then w
      else { w with source := .level, deadline := none, free := false }.renew w.profile w.prio token
    d.modVoice v fun y => { y with
      withheld := none, fallbackLh := false, wait := if bound then y.wait.map fun w => taken w y.token else y.wait }

/-- CONDUCT that passes (02 R62): the live words are the shadow's, the watchdog runs, every voice carries over. -/
def Dev.conduct (d : Dev) : Dev :=
  let from_ := d.ctl.mode
  let d1 := { d with par := { d.par with live := conductWords d.par.shadow d.par.live } }
  let d2 := (if from_ = .conducted then d1 else d1.toMode .conducted 0).setCtl fun c => { c with conducted := true }
  let d3 := d2.startWatchdog
  let d4 := d3.forVoices (idx 48) (if from_ = .acappella then Dev.conductVoice else Dev.reconductVoice d)
  ((d4.formGangs d).takeDrives).reconfigure d

/-- Entry to A CAPPELLA (02 R65): cause 0 ACAPPELLA, 2 the chain rule. Every live word is at its power-up value, cues are
cancelled, gangs dissolved; voices follow their inputs. -/
def Dev.enterAcappella (d : Dev) (cause : Nat) : Dev :=
  let d1 := (d.cancelCues).withdrawAll
  let d2 := ({ d1 with par := { d1.par with live := [] } }).toMode .acappella cause
  let d3 := d2.stopWatchdog.setCtl fun c => { c with parkFromAcappella := false }
  let d4 := { d3 with voices := d3.voices.map fun x => { x with fallbackLh := false } }
  (d4.takeDrives.engineUnpause).reconfigure d

/-! ### The restart of the control die (02 R66) -/

/-- The odometer at a start: no pulse yet, or unavailable without VMET (10 R285). -/
def Odometer.atStart (powered : Bool) : Odometer := { Odometer.reset with st := if powered then .noPulse else .unavailable }

/-- The voices after a restart: the session's counts stay (02 R66). -/
def Voice.restarted (x : Voice) (now : Nat) : Voice :=
  { Voice.reset with
    idleSince := now
    life := { Lifetime.reset with
      sessionCycles := x.life.sessionCycles, sessionTicks := x.life.sessionTicks, cyclesMax := x.life.cyclesMax, secondsMax := x.life.secondsMax }
    therm := { VoiceThermal.reset with restSince := some now, anchoredAt := now } }

/-- The flash at a restart: a raw operation is stopped as R394 gives, the append in progress is torn, and the control die
knows nothing of the store until its scan; `settles` tells a restart from a collapse of the supply. -/
def Flash.restarted (f : Flash) (now : Nat) (settles : Bool) : Flash :=
  { f.tearAppend now settles with
    programs := [], protect := 3, op := .none, rawRetired := 0, recRetired := 0, scanned := false, checks := []
    markDue := false }

/-- The control die restarts from control boot (02 R66) with the cause that START will give, `hold` ticks from now: every
state of the control die takes its power-up value but the lifetime counts; the power die, the flash and the Score go on.
The power-fail line falls at the next unpark or power-up only: DESIGN CHOICE, log entry 122. -/
def Dev.restart (d : Dev) (cause : Nat) (hold : Nat) : Dev :=
  let boot := d.now + hold
  let d1 := (d.forVoices (idx 48) fun d v => d.turnOff v .forced).rawStop false
  let now := d1.now
  { Dev.reset with
    headPin := d1.headPin
    found := d1.found
    time := { TimeBase.reset with now := now, tbc := -(hold : Int), measureAt := boot, fallbackOk := d1.time.fallbackOk, trimmed := d1.time.trimmed }
    ctl := { Control.reset with
      startCause := cause, fromPor := false, bootAt := boot, lostSessions := d1.ctl.lostSessions, unsaved := d1.ctl.unsaved
      scoreSilent := !d1.score.powered }
    ka := { d1.ka with
      badEchoes := 0, held := d1.ka.held || cause = 3, firstFrame := false, lastFrame := none
      releasedAt := if cause = 3 then some boot else none }
    odo := .atStart d1.score.powered
    link := { ScoreLink.reset with publishedAt := boot }
    port := { HostPort.reset with vioValid := d1.port.vioValid, vioLostAt := d1.port.vioLostAt, reopenAt := d1.port.reopenAt }
    voices := d1.voices.map fun x => x.restarted now
    banks := d1.banks.map fun b => { Bank.reset with present := b.present, crank := b.crank, ovHold := b.ovHold, ovOff := b.ovOff }
    lh := .fill 8 { LhInput.reset with since := now, rawAt := now }
    tally := Tab.ofFn fun i => { TallyInput.reset with
      level := d1.score.levels.get i, levelSince := if d1.score.powered then some now else none }
    nv := d1.nv.restarted now true
    score := d1.score
    chain := { Chain.reset with returns := (d1.returnDomain d1.chain.handDomain d1.chain.hand).chain.returns }
    pd := { PowerDown.reset with vholdReady := d1.pd.vholdReady, vcpOk := d1.pd.vcpOk } }

end Sys2Proof.Machine
end

