-- ==== Sys2Proof/Machine/Slices.lean ====
section
/-! DEFINITION. The slices of the converter: background calibration, the out-of-range check, and the descant's standing
in (11 R316 to R319). -/

namespace Sys2Proof.Machine
open Sys2Proof

def Dev.setConv (d : Dev) (f : Converter → Converter) : Dev := { d with conv := f d.conv }

/-- The unit that a calibration step concerns: S0 to S7, and the descant last. -/
def Dev.calUnit (d : Dev) : Fin 9 := ⟨d.conv.calStep % 9, Nat.mod_lt _ (by decide)⟩

/-- A whole second counted from a cappella live (11 R316). -/
def Dev.secondNow (d : Dev) : Bool := match d.ctl.liveAt with
  | some t => d.now != t && (d.now - t) % (1000 * msec) = 0
  | none => false

/-- A calibration step begins at a whole second from a cappella live (11 R316): the descant stands in for the slice, or
calibrates itself, for 100 ms, from the next conversion on (R317); a repeat finds it standing in. -/
def Dev.calBegin (d : Dev) : Dev :=
  if !d.conv.calRuns || d.conv.calEnds.isSome || !d.secondNow then d
  else
    let k := d.calUnit
    let d1 := (d.holdMakers.modSlice 8 fun x => { x with st := .standingIn }).modSlice k fun x => { x with st := .calibrating }
    d1.setConv fun c => { c with standIn := some k.val, calEnds := some (d.now + 100 * msec) }

/-- The slice under calibration and the descant are back in service. -/
def Dev.handBack (d : Dev) : Dev :=
  match d.conv.standIn with
  | some k =>
    let i : Fin 9 := ⟨k % 9, Nat.mod_lt _ (by decide)⟩
    let back (x : Slice) : Slice := if x.st = .retired then x else { x with st := .inService }
    ((d.holdMakers.modSlice i back).modSlice 8 back).setConv fun c => { c with standIn := none, calEnds := none }
  | none => d

/-- Background calibration stops for the power cycle (11 R318). -/
def Dev.calStop (d : Dev) (unit : Nat) : Dev :=
  ((d.handBack).setConv fun c => { c with calRuns := false, calRepeat := false, aged := true }).event 0x0403 0xFF [b8 unit]

/-- The descant replaces a retired slice for good (11 R318). -/
def Dev.replaceSlice (d : Dev) (k : Fin 9) : Dev :=
  let d1 := (d.holdMakers.calStop (0x40 + k.val)).modSlice k fun x => { x with st := .retired }
  let d2 := (d1.modSlice 8 fun x => { x with st := .standingIn }).setConv fun c => { c with replaced := some k.val }
  d2.event 0x0402 (0x40 + k.val) []

/-- The descant is retired (11 R318). -/
def Dev.retireDescant (d : Dev) : Dev :=
  ((d.calStop 0x48).modSlice 8 fun x => { x with st := .retired }).event 0x0404 0x48 []

/-- A slice or the descant that failed its calibration twice is retired as a unit (11 R318). -/
def Dev.retireSlice (d : Dev) (k : Fin 9) : Dev :=
  let d1 := (d.retireEvent (0x40 + k.val) 0 0).retireRecord (0x40 + k.val) 0 0x82 3 0 0
  let d2 : Dev := { d1 with sc := { d1.sc with unitsRetired := stick 8 (d1.sc.unitsRetired + 1) } }
  if k = 8 then d2.retireDescant else d2.replaceSlice k

/-- The odd slice of the engine that owns a calibrated slice is trimmed by the skew that the descant measured (11 R305). -/
def Dev.trimSkew (d : Dev) (k : Fin 9) (skew : Int) : Dev :=
  if k = 8 then d else d.modEngine (engineOfSlice k.val) fun x => { x with skewTrim := x.skewTrim - skew }

/-- A calibration step ends after its 100 ms (11 R317, R318); `skew` is the skew in ticks that it measured (11 R305). -/
def Dev.calEnd (d : Dev) (passed : Bool) (offsetTrim gainTrim skew : Int) : Dev :=
  match d.conv.calEnds with
  | none => d
  | some t =>
    if d.now < t || !d.conv.calRuns then d
    else
      let k := d.calUnit
      let d1 := (d.setConv fun c => { c with cycles := (c.cycles + 1) % 2 ^ 32, calEnds := none }).trimSkew k skew
      if passed then
        ((d1.modSlice k fun x => { x with offsetTrim := offsetTrim, gainTrim := gainTrim, passedAt := d.now }).handBack).setConv
          fun c => { c with calStep := (c.calStep + 1) % 9, calRepeat := false }
      else
        let d2 := d1.modSlice k fun x => { x with fails := stick 8 (x.fails + 1) }
        let d3 := d2.event 0x0401 (0x40 + k.val) [b8 (d2.conv.slices.get k).fails]
        if d.conv.calRepeat then d3.retireSlice k else d3.setConv fun c => { c with calRepeat := true }

/-- CAL_STEP (11 R316): a second's step begins, or ends with its result, the trims it found and the skew it measured. -/
def execCalStep (dt : Nat) (ends passed : Bool) (trims : SliceTrims) (skew : Int) (s : State) : Host.Outcome State Fault Refusal :=
  s.run dt fun d => if d.convLive then (if ends then d.calEnd passed trims.offset trims.gain skew else d.calBegin) else d

/-- The outcome of a check outside the voices (07 R216, R223). -/
def outcomeOf : CheckResult → CheckOutcome
  | .passed => .transient
  | .failed => .internal
  | .incomplete => .inconclusive

/-- The outcome of an out-of-range check (11 R319, 07 R216, R223): the two readings must agree within 16 LSB. It is
INCONCLUSIVE once the descant has replaced a slice or is retired, and where the descant has no reading. -/
def Dev.rangeOutcome (d : Dev) (c : RangeCheck) : CheckOutcome :=
  if d.conv.replaced.isSome || (d.conv.slices.get 8).st = .retired then .inconclusive
  else match c.again, c.raw with
    | some (some r), some q => if (if q ≤ r then r - q else q - r) ≤ 16 then .transient else .internal
    | some (some _), none => .internal
    | _, _ => .inconclusive

/-- SLICE_CHECK_DONE (11 R319): once the descant has read the input again, or 2 µs have passed without; INTERNAL retires the
slice, or the descant. -/
def execSliceCheckDone (dt : Nat) (slice : Fin 9) (_result : Told) (s : State) : Host.Outcome State Fault Refusal :=
  s.run dt fun d =>
    match (d.conv.slices.get slice).check with
    | none => d
    | some c =>
      if c.again.isNone && decide (d.now < c.since + 2 * usec) then d
      else
        let o := d.rangeOutcome c
        let d1 := d.modSlice slice fun x => { x with check := none, decidedAt := some d.now }
        let d2 := d1.unitChecked (0x40 + slice.val) 0x82 o 2
        match o with
        | .internal => if slice = 8 then d2.retireDescant else d2.replaceSlice slice
        | _ => d2

end Sys2Proof.Machine
end

