-- ==== Sys2Proof/Machine/Thermal.lean ====
section
/-! DEFINITION. Thermal model and management (13): zones and their estimates, the model, its anchors and thresholds, the
throttle, the thermal stop, zone checks, blips, and the thermal opcodes. -/

namespace Sys2Proof.Machine
open Sys2Proof

/-- The thermal side of voice `v` changed by `f`. -/
def Dev.modTherm (d : Dev) (v : VoiceId) (f : VoiceThermal → VoiceThermal) : Dev :=
  d.modVoice v fun x => { x with therm := f x.therm }

def Dev.zone (d : Dev) (z : ZoneId) : Zone := d.therm.zones.get z

/-- The model runs from the end of control boot in every mode (13 R359). -/
def Dev.thermLive (d : Dev) : Bool := d.ctl.liveAt.isSome || d.ctl.mode == .halted

/-- The voices of a zone (13 R354). -/
def zoneVoices (z : ZoneId) : List VoiceId := (idx 48).filter fun v => zoneOf v == z

/-- A temperature in 0.1 °C or a margin in 0.1 K. -/
def tenths (r : Rat) : Int := report (r * 10)

/-! ### Zone estimates (13 R374) -/

/-- A zone sensor that is not retired. -/
def Zone.healthy (z : Zone) : Bool := z.st != .interpolated

/-- The healthy neighbours of a zone in the ring (13 R354). -/
def Dev.neighbours (d : Dev) (z : ZoneId) : List ZoneId :=
  let ns : List ZoneId := [⟨(z.val + 7) % 8, Nat.mod_lt _ (by decide)⟩, ⟨(z.val + 1) % 8, Nat.mod_lt _ (by decide)⟩]
  ns.filter fun k => (d.zone k).healthy

/-- The zones whose readings an estimate takes: the healthy neighbours, or all healthy zones. -/
def Dev.estimators (d : Dev) (z : ZoneId) : List ZoneId :=
  let ns := d.neighbours z
  if ns.isEmpty then (idx 8).filter fun k => (d.zone k).healthy else ns

/-- The mean dissipation of a voice over the last 10 ms in W (13 R380). -/
def Dev.power10 (d : Dev) (v : VoiceId) : Rat := (d.voice v).therm.history.foldl (· + ·) 0 / 1000

/-- The total dissipation of a zone's voices (13 R374). -/
def Dev.zonePower (d : Dev) (z : ZoneId) : Rat := (zoneVoices z).foldl (fun s v => s + d.power10 v) 0

/-- The mean of a quantity over zones; 0 over none. -/
def zoneMean (zs : List ZoneId) (f : ZoneId → Rat) : Rat := zs.foldl (fun s z => s + f z) 0 / (max zs.length 1 : Nat)

/-- The estimate E_k in °C (13 R374). -/
def Dev.estimate (d : Dev) (z : ZoneId) : Rat :=
  let ks := d.estimators z
  zoneMean ks (fun k => ((d.zone k).reading : Rat) / 10) + Config.rZz * (d.zonePower z - zoneMean ks d.zonePower)

/-- The lowest temperature among healthy zones in °C; the lowest of all where none is healthy (13 R364). -/
def Dev.lowestZone (d : Dev) : Rat :=
  let hs := (idx 8).filter fun z => (d.zone z).healthy
  let ts := (if hs.isEmpty then idx 8 else hs).map fun z => (d.zone z).temp
  ts.foldl ratMin (ts.headD 0)

/-! ### Compared values and thresholds (13 R362, R363) -/

/-- The temperature of a unit with its upper margin in °C. -/
def Dev.compared (d : Dev) : ThermUnit → Rat
  | .voice v => (d.voice v).therm.tj + d.margin v
  | .zone z => (d.zone z).temp + (d.zone z).margin

/-- The throttle threshold in °C. -/
def Dev.throt (d : Dev) : ThermUnit → Rat
  | .voice v => (d.vfld v 0x11 8 8 : Nat)
  | .zone _ => 160

/-- The warn threshold in °C. -/
def Dev.warnAt (d : Dev) : ThermUnit → Rat
  | .voice v => (d.vfld v 0x11 0 8 : Nat)
  | .zone _ => 150

/-- The stop threshold in °C. -/
def Dev.stopAt (d : Dev) : ThermUnit → Rat
  | .voice v => (d.vfld v 0x11 16 8 : Nat)
  | .zone _ => 170

/-- The unit code of a voice or a zone (13 R383). -/
def unitOfTherm : ThermUnit → Nat
  | .voice v => v.val
  | .zone z => 0x50 + z.val

/-- The zone a unit belongs to. -/
def zoneOfTherm : ThermUnit → ZoneId
  | .voice v => zoneOf v
  | .zone z => z

def Dev.isWarned (d : Dev) : ThermUnit → Bool
  | .voice v => (d.voice v).therm.warn
  | .zone z => (d.zone z).warn

def Dev.setWarn (d : Dev) (u : ThermUnit) (b : Bool) : Dev :=
  match u with
  | .voice v => d.modTherm v fun x => { x with warn := b }
  | .zone z => d.modZone z fun x => { x with warn := b }

def Dev.reqOf (d : Dev) : ThermUnit → Option ThrottleReq
  | .voice v => (d.voice v).therm.req
  | .zone z => (d.zone z).req

def Dev.setReq (d : Dev) (u : ThermUnit) (q : Option ThrottleReq) : Dev :=
  match u with
  | .voice v => d.modTherm v fun x => { x with req := q }
  | .zone z => d.modZone z fun x => { x with req := q }

/-- The warn threshold of a unit (13 R363). -/
def Dev.warnCheck (d : Dev) (u : ThermUnit) : Dev :=
  let t := d.compared u
  if !d.isWarned u && decide (d.warnAt u ≤ t) then (d.setWarn u true).event 0x0601 (unitOfTherm u) (1 :: leInt 2 (tenths t))
  else if d.isWarned u && decide (t < d.warnAt u - 5) then (d.setWarn u false).event 0x0601 (unitOfTherm u) (0 :: leInt 2 (tenths t))
  else d

/-! ### Throttle (13 R366 to R368) -/

/-- The requests of a zone: its own and its voices'. -/
def zoneUnits (z : ZoneId) : List ThermUnit := ThermUnit.zone z :: (zoneVoices z).map ThermUnit.voice

/-- A unit's request enforces. -/
def Dev.enforces (d : Dev) (u : ThermUnit) : Bool := match d.reqOf u with
  | some q => q.enforcing
  | none => false

/-- The deferred turn-ons of a zone's voices are withdrawn (13 R369). -/
def Dev.withdrawZone (d : Dev) (z : ZoneId) : Dev :=
  d.forVoices ((idx 48).filter fun v => (d.unitOf v).any fun m => zoneOf m == z) Dev.withdraw

/-- A request begins to enforce: its zone enforces, from ceiling 7, or from the present one while it rises (13 R368). -/
def Dev.enforce (d : Dev) (u : ThermUnit) (q : ThrottleReq) : Dev :=
  let z := zoneOfTherm u
  let d1 := d.setReq u (some { q with enforcing := true })
  if (d.zone z).enforcing then d1
  else
    let d2 := d1.modZone z fun x => { x with
      enforcing := true, ceiling := if x.ceiling = 8 then 7 else x.ceiling, stepAt := some (d.now + 50 * msec) }
    (d2.event 0x0603 (0x50 + z.val) [b8 (unitOfTherm u)]).withdrawZone z

/-- A zone whose last enforcing request has ended stops enforcing, and its ceiling rises (13 R368). -/
def Dev.zoneRelease (d : Dev) (z : ZoneId) : Dev :=
  if (d.zone z).enforcing && !(zoneUnits z).any d.enforces then
    (d.modZone z fun x => { x with enforcing := false, stepAt := some (d.now + 50 * msec) }).event 0x0604 (0x50 + z.val) [2]
  else d

/-- A request arises (13 R366); with T_GRACE 0 it enforces in this slot (13 R367). -/
def Dev.throttleArise (d : Dev) (u : ThermUnit) : Dev :=
  let grace := d.fld 0x4001 0 16
  let q : ThrottleReq := { acked := false, enforcing := false, graceEnd := d.now + grace * msec }
  let d1 := (d.setReq u (some q)).event 0x0602 (unitOfTherm u) (leInt 2 (tenths (d.compared u)) ++ leBytes 2 grace)
  if grace = 0 then d1.enforce u q else d1

/-- A request ends (13 R367, R368). -/
def Dev.throttleEnd (d : Dev) (u : ThermUnit) (q : ThrottleReq) : Dev :=
  ((d.setReq u none).event 0x0604 (unitOfTherm u) [b8 (boolNat q.enforcing)]).zoneRelease (zoneOfTherm u)

/-- The throttle threshold of a unit (13 R363, R367, R368). -/
def Dev.throttleCheck (d : Dev) (u : ThermUnit) : Dev :=
  let t := d.compared u
  match d.reqOf u with
  | none => if d.throt u ≤ t then d.throttleArise u else d
  | some q => if t < d.throt u - 5 then d.throttleEnd u q else d

/-- THROTTLE_GRACE_END (13 R367). -/
def execThrottleGraceEnd (dt : Nat) (u : ThermUnit) (s : State) : Host.Outcome State Fault Refusal :=
  s.run dt fun d =>
    match d.reqOf u with
    | some q =>
      if q.enforcing || d.now < q.graceEnd then d
      else if d.compared u < d.throt u then d.throttleEnd u q
      else d.enforce u q
    | none => d

/-- CEILING_STEP (13 R368): every 50 ms the ceiling falls or holds while the zone enforces, and rises to 8 after. -/
def execCeilingStep (dt : Nat) (zone : ZoneId) (s : State) : Host.Outcome State Fault Refusal :=
  s.run dt fun d =>
    match (d.zone zone).stepAt with
    | some t =>
      if d.now < t then d
      else
        let hot := (zoneUnits zone).any fun u => d.enforces u && decide (d.throt u ≤ d.compared u)
        d.modZone zone fun x =>
          if x.enforcing then
            { x with ceiling := if hot then max 1 (x.ceiling - 1) else x.ceiling, stepAt := some (t + 50 * msec) }
          else { x with ceiling := min 8 (x.ceiling + 1), stepAt := if 7 ≤ x.ceiling then none else some (t + 50 * msec) }
    | none => d

/-! ### The thermal stop (13 R371 to R373) -/

/-- The self-heating check of a zone starts unless it runs; the zone holds the higher of its last reading and E_k
(13 R375). A retired sensor stays interpolated. -/
def Dev.zoneCheckStart (d : Dev) (z : ZoneId) : Dev :=
  if (d.zone z).checkEnds.isSome then d
  else
    let e := d.estimate z
    d.modZone z fun x => { x with
      checkEnds := some (d.now + 2 * msec)
      st := if x.st = .interpolated then x.st else .checking
      temp := if x.st = .interpolated then x.temp else ratMax ((x.reading : Rat) / 10) e }

/-- The pending cues of stopped voices are cancelled: voice entries go, chorus entries skip the voices (13 R371). -/
def Dev.stopCues (d : Dev) (vs : List VoiceId) : Dev :=
  let m := maskOf vs.contains
  let d1 := (d.cancelWhere fun c => !c.chorus && m.getLsbD c.who).1
  d1.setCues fun q => { q with queue := q.queue.map fun c => if c.chorus then { c with acted := c.acted ||| m } else c }

/-- A thermal stop of voices `vs` with their gang partners (13 R371): stop hold, cues cancelled, and the driven voices off
20 µs apart where the hottest junction needs at least 2 ms to 175 °C, else at once. `value` is the compared value now and
`before` 1 ms earlier. -/
def Dev.thermalStop (d : Dev) (u : ThermUnit) (vs : List VoiceId) (value before : Rat) : Dev :=
  let all := (idx 48).filter fun v => (d.unitOf v).any vs.contains
  let driven := all.filter fun v => (d.voice v).driven
  let tp : Option Rat := if value ≤ before then none else some ((175 - value) / (value - before))
  let orderly := match tp with
    | some t => decide (2 ≤ t)
    | none => true
  let told := match tp with
    | some t => sat 16 (report (t * 10))
    | none => 0xFFFF
  let d1 := (d.stopCues all).forVoices all Dev.withdraw
  let d2 := d1.forVoices all fun d v => d.modTherm v fun x => { x with stopHold := true }
  let d3 := if driven.isEmpty then d2 else d2.zoneCheckStart (zoneOfTherm u)
  let d4 := d3.event 0x0605 (unitOfTherm u) ([b8 (boolNat !orderly), b8 driven.length] ++ leBytes 2 told)
  if orderly then d4.stagger .stop driven else d4.forVoices driven Dev.otStop

/-- The compared value of a voice 1 ms ago. -/
def Dev.comparedBefore (d : Dev) (v : VoiceId) : Rat :=
  let x := (d.voice v).therm
  x.compared.getD 99 (x.compared.getLast?.getD (d.compared (.voice v)))

/-- The hottest of the junctions that the stop of a voice affects: its own or its gang partner's (13 R371). -/
def Dev.hottest (d : Dev) (v : VoiceId) : VoiceId :=
  (d.unitOf v).foldl (fun m u => if d.compared (.voice m) < d.compared (.voice u) then u else m) v

/-- The stop threshold of a voice, and the end of its stop hold (13 R363, R372). -/
def Dev.stopVoice (d : Dev) (v : VoiceId) : Dev :=
  let x := (d.voice v).therm
  let t := d.compared (.voice v)
  let lim := d.stopAt (.voice v)
  let u := d.hottest v
  let d1 :=
    if !x.stopped && decide (lim ≤ t) then (d.modTherm v fun x => { x with stopped := true }).thermalStop (.voice v) [v] (d.compared (.voice u)) (d.comparedBefore u)
    else if x.stopped && decide (t < lim - 15) then d.modTherm v fun x => { x with stopped := false }
    else d
  if (d1.voice v).therm.stopHold && decide (t < lim - 15) && decide (d1.compared (.zone (zoneOf v)) < 155) then
    (d1.modTherm v fun x => { x with stopHold := false }).event 0x0606 v.val []
  else d1

/-- The stop threshold of a zone, and the end of its stop hold. -/
def Dev.stopZone (d : Dev) (z : ZoneId) : Dev :=
  let x := d.zone z
  let t := d.compared (.zone z)
  let before := x.compared.getD 19 (x.compared.getLast?.getD t)
  if !x.stopped && decide (170 ≤ t) then
    (d.modZone z fun x => { x with stopped := true, stopHold := true }).thermalStop (.zone z) (zoneVoices z) t before
  else if x.stopped && decide (t < 155) then
    (d.modZone z fun x => { x with stopped := false, stopHold := false }).event 0x0606 (0x50 + z.val) []
  else d

/-! ### Zone readings (13 R355, R364, R374, R375) -/

/-- A reading and its estimate meet the zone's state (13 R374, R375). -/
def Zone.read (x : Zone) (e : Rat) (alone : Bool) : Zone :=
  let r : Rat := (x.reading : Rat) / 10
  let off := decide (15 < r - e) || decide (15 < e - r)
  let far := if off then stick 8 (x.disagree + 1) else 0
  let near := if off then 0 else stick 8 (x.agree + 1)
  match x.st with
  | .measured => { x with temp := r, disagree := far }
  | .suspect =>
    if x.checkPassed && 10 ≤ near then { x with st := .measured, temp := r, disagree := 0, agree := 0, checkPassed := false }
    else { x with temp := ratMax r e, disagree := far, agree := near }
  | .checking => x
  | .interpolated => { x with temp := e, alone := alone }

/-- A zone whose disagreement has lasted 10 readings becomes suspect, and its check starts where one may (13 R374,
R375). -/
def Dev.suspectZone (d : Dev) (e : ZoneId → Rat) (z : ZoneId) : Dev :=
  let x := d.zone z
  if x.disagree < 10 then d
  else match x.st with
  | .measured =>
    ((d.modZone z fun x => { x with st := .suspect, disagree := 0, agree := 0, checkPassed := false }).event 0x0607 (0x50 + z.val)
      (leInt 2 x.reading ++ leInt 2 (tenths (e z)))).zoneCheckStart z
  | .suspect => if x.checkAfter ≤ d.now then (d.modZone z fun x => { x with disagree := 0 }).zoneCheckStart z else d
  | _ => d

/-- The cold block begins below −40 °C and ends at −38 °C, when held records are written (13 R364, 14 R409). -/
def Dev.coldCheck (d : Dev) : Dev :=
  let t := d.lowestZone
  let tell (d : Dev) (b : Byte) : Dev := d.event 0x0609 0xFF (b :: leInt 2 (tenths t))
  if !d.therm.coldBlock && decide (t < -40) then tell { d with therm := { d.therm with coldBlock := true } } 1
  else if d.therm.coldBlock && decide (-38 ≤ t) then
    let d1 := tell { d with therm := { d.therm with coldBlock := false } } 0
    if d1.nv.scanned then d1.flushHeld else d1
  else d

/-- The thresholds of one zone at a reading; the compared value joins the last millisecond's. -/
def Dev.zoneThresholds (d : Dev) (z : ZoneId) : Dev :=
  let t := d.compared (.zone z)
  let d1 := ((d.warnCheck (.zone z)).throttleCheck (.zone z)).stopZone z
  d1.modZone z fun x => { x with compared := (t :: x.compared).take 20 }

/-- A reading of all zones takes effect. -/
def Dev.zoneReadings (d : Dev) (readings : Tab Int 8) : Dev :=
  let d1 : Dev := { d with therm := { d.therm with zones := d.therm.zones.mapIdx fun z x =>
    if x.st = .checking then x else { x with reading := readings.get z } } }
  let e := d1.estimate
  let zs := d1.therm.zones.mapIdx fun z x => x.read (e z) (d1.neighbours z).isEmpty
  let d2 : Dev := { d1 with therm := { d1.therm with zones := zs } }
  let d3 := (idx 8).foldl (fun d z => d.suspectZone e z) d2
  (idx 8).foldl Dev.zoneThresholds d3.coldCheck.markIfDue

/-- ZONE_READING (13 R355): every 50 µs. -/
def execZoneReading (dt : Nat) (readings : Tab Int 8) (s : State) : Host.Outcome State Fault Refusal :=
  s.run dt fun d =>
    if d.thermLive && d.therm.readAt + 50 * usec ≤ d.now then
      ({ d with therm := { d.therm with readAt := d.now } }).zoneReadings readings
    else d

/-- ZONE_HARD_STOP (01 R17, R34, 13 R363): the power die's own comparator; the device enters HALTED. -/
def execZoneHardStop (dt : Nat) (_zone : ZoneId) (s : State) : Host.Outcome State Fault Refusal :=
  s.run dt fun d => if d.thermLive then d.enterHalted 4 0 true else d.forVoices (idx 48) fun d v => d.turnOff v .forced

/-! ### Zone checks (13 R373, R375, R376) -/

/-- The zone sensors not retired. -/
def Dev.healthyZones (d : Dev) : Nat := d.therm.zones.count Zone.healthy

/-- A zone sensor is retired: the zone is interpolated; below two healthy sensors the device enters HALTED (13 R376). -/
def Dev.retireZone (d : Dev) (z : ZoneId) : Dev :=
  let d1 := d.modZone z fun x => { x with st := .interpolated }
  let alone := (d1.neighbours z).isEmpty
  let e := d1.estimate z
  let d2 := (d1.modZone z fun x => { x with alone := alone, temp := e }).event 0x0608 (0x50 + z.val) [b8 (boolNat alone)]
  if d2.healthyZones < 2 then d2.enterHalted 6 6 false else d2

/-- The units that a zone's check held are told their outcomes and decide (13 R373, 07 R218); a gang that spans two zones goes
with the check that ends first. -/
def Dev.settleZoneVoices (d : Dev) (z : ZoneId) (incomplete : Bool) : Dev :=
  let held (v : VoiceId) : Bool := inMask d.sc.zoneChecked v && zoneOf v == z
  let vs := (idx 48).filter fun v => (d.unitOf v).any held
  let d1 := d.setSc fun c => { c with zoneChecked := c.zoneChecked &&& ~~~ maskOf vs.contains }
  let d2 := d1.forVoices (vs.filter fun v => d.headOf v == v) fun d v => d.tellThermal v incomplete
  d2.forVoices vs fun d v => ((d.tripDecision v).clearTrip v).releaseHeld v

/-- ZONE_CHECK_DONE (13 R375): INTERNAL retires the sensor, any other outcome leaves the zone suspect. The test of a
sensor already retired cannot complete. -/
def execZoneCheckDone (dt : Nat) (zone : ZoneId) (result : CheckResult) (s : State) : Host.Outcome State Fault Refusal :=
  s.run dt fun d =>
    let x := d.zone zone
    match x.checkEnds with
    | some t =>
      if d.now < t then d
      else
        let o : CheckOutcome := if x.healthy then outcomeOf result else .inconclusive
        let d1 := d.modZone zone fun x => { x with
          checkEnds := none, disagree := 0, agree := 0
          checkPassed := decide (result = CheckResult.passed), checkAfter := if result = CheckResult.passed then d.now + 10000 * msec else d.now
          st := if x.healthy then .suspect else x.st }
        let d2 := d1.unitChecked (0x50 + zone.val) 0x81 o 2000
        let d3 := match o with
          | .internal => d2.retireZone zone
          | _ => d2
        d3.settleZoneVoices zone (decide (o = .inconclusive))
    | none => d

/-! ### The model and its anchors (13 R356 to R360) -/

/-- A junction anchor (13 R360). -/
def Dev.anchor (d : Dev) (v : VoiceId) (tj ma : Rat) (kind : Anchor) : Dev :=
  let k := d.coefKind v
  let tz := (d.zone (zoneOf v)).temp
  d.modTherm v fun x => { x with
    tj := tj, tl := tz + (tj - tz) * Config.rLz k / (Config.rJl k + Config.rLz k), ma := ma
    driven := 0, anchoredAt := d.now, anchor := kind }

/-- One 10 µs interval of a voice's model (13 R356, R358): the mean power of its conversions, the last power while none
has come, and the clamp and edge energy. -/
def Dev.modelStep (d : Dev) (v : VoiceId) : Dev :=
  let x := (d.voice v).therm
  let k := d.coefKind v
  let tz := (d.zone (zoneOf v)).temp
  let h : Rat := 1 / 100000
  let p : Rat := if x.power.2 ≠ 0 then x.power.1 / (x.power.2 : Nat)
    else if d.stale v || (d.voice v).gate then x.lastPower else 0
  let e := p * h + x.energy
  let tj := x.tj + (e - (x.tj - x.tl) * h / Config.rJl k) / Config.cJ k
  let tl := x.tl + ((tj - x.tl) / Config.rJl k - (x.tl - tz) / Config.rLz k) * h / Config.cL k
  d.modTherm v fun x => { x with
    tj := tj, tl := tl, power := (0, 0), energy := 0, lastPower := if x.power.2 ≠ 0 then p else x.lastPower
    history := (e / h :: x.history).take 1000 }

/-- The rest anchor (13 R360). -/
def Dev.restAnchor (d : Dev) (v : VoiceId) : Dev :=
  let x := (d.voice v).therm
  let tz := (d.zone (zoneOf v)).temp
  match x.restSince with
  | some t => if 500 * msec ≤ d.now - t && decide (x.tj - tz < 1) then d.anchor v tz 0 .rest else d
  | none => d

/-- The quiet anchor (13 R360); the window begins anew after it. -/
def Dev.quietAnchor (d : Dev) (v : VoiceId) : Dev :=
  match (d.voice v).therm.quiet with
  | some q =>
    if d.fld 0x4000 8 8 * msec ≤ d.now - q.since && decide (d.quietMin v ≤ q.sumI / (q.count : Nat)) then
      (d.anchor v (d.rOnTemp v (q.sumR / (q.count : Nat))) 2 .quiet).modTherm v fun x => { x with quiet := none }
    else d
  | none => d

/-- The model update of one voice: model, anchors, thresholds; its lifetime counters are looked at as often (14 R404). -/
def Dev.updateVoice (d : Dev) (v : VoiceId) : Dev :=
  let d0 := if (d.voice v).driven then d.lifetimeMax v else d
  let d1 := ((d0.modelStep v).restAnchor v).quietAnchor v
  let t := d1.compared (.voice v)
  let d2 := ((d1.warnCheck (.voice v)).throttleCheck (.voice v)).stopVoice v
  d2.modTherm v fun x => { x with compared := (t :: x.compared).take 100 }

/-- MODEL_UPDATE (13 R356): every 10 µs. -/
def execModelUpdate (dt : Nat) (s : State) : Host.Outcome State Fault Refusal :=
  s.run dt fun d =>
    if d.thermLive && d.therm.updatedAt + 10 * usec ≤ d.now then
      ({ d with therm := { d.therm with updatedAt := d.now } }).forVoices (idx 48) Dev.updateVoice
    else d

/-! ### Anchor blips (13 R378, R379) -/

/-- At the end of a blip the gate takes the level its grid gives: PWM off between pulses, the chop's phase, else on
(13 R378, 06 R178). -/
def Dev.blipGate (d : Dev) (v : VoiceId) : Dev :=
  let x := d.voice v
  let pulse := match x.offEdge with
    | some t => decide (d.now < t)
    | none => false
  let off := (if x.gate then d.edgeEnergy v else d).modVoice v fun x => { x.gateFall d.now with offEdge := none, firstPulse := false }
  if !x.driven then d
  else if x.st = .holding then (if pulse then d else off)
  else if x.driveMode = 1 || x.driveMode = 3 then
    if pulse || d.pwmPeriod v < d.onTime v + tMin v then d
    else if d.toGrid v < tMin v then d.modVoice v fun x => { x with offEdge := none, firstPulse := false }
    else off
  else d

/-- The blip's measurement over the conversions of its last 30 µs: a mean current below the quiet minimum is BLIP_LOW, else
the voice is anchored (13 R360, R379). No conversion there counts as no current: DESIGN CHOICE, log entry 141. -/
def Dev.blipAnchor (d : Dev) (v : VoiceId) : Dev :=
  let (n, sumI, sumR) := (d.voice v).therm.blipWin
  let mean : Rat := sumI / (max n 1 : Nat)
  if mean < d.quietMin v then d.event 0x060A v.val (leBytes 2 (sat 16 (report (mean * 100))))
  else d.anchor v (d.rOnTemp v (sumR / (max n 1 : Nat))) (3 / 2) .blip

/-- BLIP_END (13 R378, R379): each member of a gang is anchored; the next queued blip starts in this slot. -/
def execBlipEnd (dt : Nat) (_current _voltage : Told) (s : State) : Host.Outcome State Fault Refusal :=
  s.run dt fun d =>
    match d.therm.blip with
    | some (v, some t) =>
      if d.now < t then d
      else
        let d1 := d.forVoices (d.unitOf v) Dev.blipAnchor
        let d2 : Dev := { d1 with therm := { d1.therm with blip := none } }
        d2.forVoices (d2.unitOf v) Dev.blipGate
    | _ => d

/-! ### The thermal opcodes (13 R380 to R382) -/

def ZoneState.code (z : Zone) : Byte :=
  match z.st with
  | .measured => 0
  | .suspect => 1
  | .checking => 2
  | .interpolated => if z.alone then 4 else 3

def Anchor.code : Anchor → Nat
  | .rest => 0
  | .quiet => 1
  | .blip => 2
  | .none => 3

/-- REQ and ACKED of a request. -/
def reqFlags (q : Option ThrottleReq) : Nat := match q with
  | some r => 64 + boolNat r.acked * 32
  | none => 0

/-- THERMAL_READ from the snapshot (13 R380). -/
def opThermalRead (snap : Dev) (p : List Byte) : Answer :=
  let zmask (f : ZoneId → Bool) : Byte := b8 (packBits ((idx 8).map f))
  match byteAt p 0 with
  | 0 =>
    let head := [b8 (boolNat snap.therm.coldBlock * 192), b8 snap.healthyZones,
      zmask (fun z => (zoneUnits z).any fun u => outstanding (snap.reqOf u)), zmask (fun z => (snap.zone z).enforcing),
      zmask (fun z => (snap.zone z).stopHold), 0] ++ leInt 2 (tenths snap.lowestZone)
    ok (head ++ (idx 8).flatMap fun z =>
      let x := snap.zone z
      leInt 2 (tenths x.temp) ++ leInt 2 (if x.healthy then x.reading else -0x8000) ++
        [b8 (tenths x.margin).toNat, ZoneState.code x,
         b8 (boolNat x.warn * 128 + reqFlags x.req + boolNat x.enforcing * 16 + boolNat x.stopHold * 8),
         b8 x.ceiling])
  | 1 => ok ((idx 48).flatMap fun v =>
      let x := (snap.voice v).therm
      leInt 2 (tenths x.tj) ++ leBytes 2 (tenths (snap.margin v)).toNat ++ leBytes 2 (sat 16 (report (snap.power10 v * 100))) ++
        [b8 (boolNat x.warn * 128 + reqFlags x.req + boolNat ((snap.unitOf v).any snap.banned) * 16 + boolNat x.stopHold * 8 +
          boolNat (snap.stale v) * 4 + Anchor.code x.anchor),
         b8 (min (snap.tDriven v / (1000 * msec)) 255)])
  | 2 => ok ((idx 8).flatMap fun a =>
      let x := snap.conv.aux.get a
      [b8 (100 + a.val), b8 (boolNat (snap.ntcBit a) * 128 + boolNat x.ntcFault * 64)] ++
        leBytes 2 (if x.ntcFault then 0xFFFF else x.plain))
  | _ => fail stBadParam []

/-- A request acknowledged. -/
def acknowledge (q : Option ThrottleReq) : Option ThrottleReq := q.map fun r => { r with acked := true }

/-- THROTTLE_ACK at its commit edge (13 R381). -/
def opThrottleAck (p : List Byte) (d : Dev) : Dev × Answer :=
  let m := maskAt p 0
  let zs := byteAt p 6
  if m = 0 && zs = 0 then (d, fail stBadParam [])
  else
    let vs := maskOf fun v => inMask m v && outstanding (d.voice v).therm.req
    let zn := (idx 8).filter fun z => zs.testBit z.val && outstanding (d.zone z).req
    let d1 := d.forVoices (maskVoices vs) fun d v => d.modTherm v fun x => { x with req := acknowledge x.req }
    let d2 := zn.foldl (fun (d : Dev) z => d.modZone z fun x => { x with req := acknowledge x.req }) d1
    (d2, ok (maskBytes vs ++ [b8 (packBits ((idx 8).map zn.contains))]))

/-- ANCHOR_BLIP at its commit slot (13 R382). -/
def opAnchorBlip (p : List Byte) (d : Dev) : Dev × Answer :=
  let m := maskAt p 0
  let refused (v : VoiceId) : Bool :=
    let x := d.voice v
    d.vfld v 0 11 1 = 0 || x.st = .retired || x.barred || x.st.isFault || x.therm.stopHold || !x.driven || x.st = .ramping ||
      d.therm.blips.contains (d.headOf v)
  let queued := maskOf fun v => inMask m v && !refused v
  let heads := d.heads queued
  let d1 : Dev := { d with therm := { d.therm with blips := d.therm.blips ++ heads } }
  (d1, ⟨if d.allRetired m then stRetired else 0, maskBytes queued ++ maskBytes (m &&& ~~~ queued), none⟩)

end Sys2Proof.Machine
end

