-- ==== Sys2Proof/Machine/TimeBase.lean ====
section
/-! DEFINITION. The time base (09 R248 to R259, 02 R43, 15 R437): the states of the Score time base, its adoption by the
control die, the switch to the fallback oscillator, qualification and the switch back. -/

namespace Sys2Proof.Machine
open Sys2Proof

def Dev.setScore (d : Dev) (f : Score → Score) : Dev := { d with score := f d.score }
def Dev.setTime (d : Dev) (f : TimeBase → TimeBase) : Dev := { d with time := f d.time }

/-- The state codes of the Score time base (15 R449). -/
def ScoreTb.code : ScoreTb → Nat
  | .noRef => 0
  | .acquiring => 1
  | .locked => 2
  | .holdover => 3

/-! ### The Score's side -/

/-- The Score time base is outside LOCKED, which begins a TIMEBASE mark but in the first 5 ms after the Score reset
(15 R437, 09 R259). -/
def Score.leftLock (x : Score) : Score :=
  let y := { x with relockedAt := none }
  if x.own < x.resetAt + 5 * msec then y else y.markBegin 0 0xFF

/-- PLL_LOCK (09 R249 to R251): an attempt under way locks to an identified reference within its 5 ms, and a relock not
before 0.1 ms from the reference's return. The first lock starts the Score's TBC; a relock starts the end of the TIMEBASE
mark. -/
def execPllLock (dt : Nat) (s : State) : Host.Outcome State Fault Refusal :=
  s.run dt fun d => d.setScore fun x =>
    if x.powered && x.tb = .acquiring && x.identified && x.own ≤ x.attemptAt + 5 * msec &&
        (!x.locked || decide (x.attemptAt + 100 * usec ≤ x.own)) then
      { x with tb := .locked, locked := true, tbc := if x.locked then x.tbc else 0
               relockedAt := if (x.marks.get 0).isSome then some x.own else none }
    else x

/-- REF_ABSENT is logged once in a run of the control die, whatever the Score does meanwhile (09 R253): DESIGN CHOICE, log
entry 178. -/
def Dev.tellRefAbsent (d : Dev) : Dev :=
  if d.score.powered && d.score.failed && !d.score.locked && !d.time.refAbsent && !d.ctl.por then
    (d.setTime fun t => { t with refAbsent := true }).event 0x0A04 0xFF [b8 d.score.tb.code]
  else d

/-- LOCK_TIMEOUT (09 R250, R251, R253): 5 ms after a lock attempt began, NO_REF before the first lock, HOLDOVER after. -/
def execLockTimeout (dt : Nat) (s : State) : Host.Outcome State Fault Refusal :=
  s.run dt fun d =>
    let x := d.score
    if x.powered && (x.tb = .noRef || x.tb = .acquiring) && x.attemptAt + 5 * msec ≤ x.own then
      if x.locked then d.setScore fun x => { x with tb := .holdover }.leftLock
      else (d.setScore fun x => { x with tb := .noRef, failed := true }.leftLock).tellRefAbsent
    else d

/-- REFERENCE_LOST (09 R250, R251): LOCKED becomes HOLDOVER, and so does a relock under way. Before the first lock the
attempt goes on to its end (09 R250). -/
def execReferenceLost (dt : Nat) (s : State) : Host.Outcome State Fault Refusal :=
  s.run dt fun d => d.setScore fun x =>
    let y := { x with reference := none }
    if !x.powered then x
    else if x.locked && (x.tb = .locked || x.tb = .acquiring) then { y with tb := .holdover }.leftLock
    else y

/-- REFERENCE_RETURN (09 R249, R251): out of HOLDOVER and NO_REF a lock attempt begins, which an unlisted reference does
not get beyond. -/
def execReferenceReturn (ret : RefReturn) (s : State) : Host.Outcome State Fault Refusal :=
  s.run ret.dt fun d => d.setScore fun x =>
    let y := { x with reference := some ret.hz }
    if !x.powered then x
    else if (x.tb = .holdover || x.tb = .noRef) && y.identified then { y with tb := .acquiring, attemptAt := x.own }
    else y

/-- TIMEBASE_MARK_END (09 R259): 100 ms and 20.48 µs after the relock. -/
def execTimebaseMarkEnd (dt : Nat) (s : State) : Host.Outcome State Fault Refusal :=
  s.run dt fun d => d.setScore fun x =>
    match x.relockedAt with
    | some t => if x.powered && t + 100 * msec + 61440 ≤ x.own then { x with relockedAt := none }.markEnd 0 else x
    | none => x

/-! ### The control die's side -/

/-- Running PWM pulses end as they began, and the voice joins its grid anew (06 R181). -/
def Dev.rejoin (d : Dev) : Dev :=
  { d with voices := d.voices.map fun x => if x.driven && x.offEdge.isSome && x.st ≠ .holding then { x with firstPulse := true } else x }

/-- The control die's count takes a value on the Score time base: pending cues and every stored time move with it. -/
def Dev.takeCount (d : Dev) (tbc k : Int) : Dev :=
  ((d.shiftTimes (tbc - d.time.tbc)).setTime fun t => { t with
    tbc := tbc, k := k, phase := .score, lastWord := tbc, drift := 0, trimAt := t.now }).rejoin

/-- TB_ADOPTED (02 R39, R43): the first valid TBC word after the control die's start, with the fallback time base
running. -/
def execTbAdopted (dt : Nat) (s : State) : Host.Outcome State Fault Refusal :=
  s.run dt fun d =>
    if d.time.phase = .first && d.time.fallbackOk && d.score.powered && d.score.tb = .locked && !d.ctl.por then
      (d.takeCount (d.score.tbc + d.chain.offset) 0).event 0x0007 0xFF (leInt 8 d.time.tbc)
    else d

/-- The Score time base is lost (09 R255, R256): the count goes on from the fallback oscillator; without it both time
bases are lost, and the device enters HALTED (09 R254, 01 R34) in every mode but STARTING (08 R239), where control boot
then does not complete. Cause 0 clock, 1 word, 2 mismatch. -/
def Dev.loseTb (d : Dev) (cause : Nat) : Dev :=
  let d1 := (d.setTime fun t => { t with phase := .switching, until_ := t.now + 40 * usec, lostAt := t.now }).dropStarts.engineFallback
  let d2 := d1.event 0x0A01 0xFF [b8 cause]
  if d2.time.fallbackOk || d2.ctl.mode = .starting then d2 else d2.enterHalted 5 0 false

/-- The Score's count at which the next word of a qualification is due, and the count one control clock edge later, at
which the control die, on its own clock, takes it at the latest (09 R257). -/
def TimeBase.wordDue (t : TimeBase) : Int := t.wordAt + 3072
def TimeBase.wordMissed (t : TimeBase) (count : Int) : Bool := t.wordDue + 8 < count

/-- Qualification waits for the next valid word (09 R257). -/
def TimeBase.requalify (t : TimeBase) : TimeBase := { t with phase := .fallback }

/-- TB_LOST (09 R255): a word is missing only once it is due. On the fallback time base it restarts qualification
(09 R257). -/
def execTbLost (dt : Nat) (cause : LossCause) (s : State) : Host.Outcome State Fault Refusal :=
  s.run dt fun d =>
    if d.ctl.por then d
    else match d.time.phase, cause with
      | .score, .clock => d.loseTb 0
      | .score, .word => if d.time.lastWord + 3072 ≤ d.time.tbc then d.loseTb 1 else d
      | .score, .mismatch => d.loseTb 2
      | .qualifying, _ | .qualified, _ => d.setTime TimeBase.requalify
      | _, _ => d

/-- A TBC word during qualification (09 R257), `count` being the Score's at its arrival: the first valid word begins it,
a good one comes valid, at its due edge and 3,072 ticks after its predecessor, and any other restarts it from the next
valid word, which is this one where the word that was due did not come. -/
def TimeBase.qualifyWord (t : TimeBase) (valid : Bool) (word count : Int) : TimeBase :=
  let begin_ := { t with phase := .qualifying, until_ := t.now + 100 * msec, word := word, wordAt := count }
  if t.phase = .fallback || t.wordMissed count then (if valid then begin_ else t.requalify)
  else if valid && decide (t.wordDue ≤ count) && decide (word = t.word + 3072) then
    { t with word := word, wordAt := t.wordDue }
  else t.requalify

/-- A TBC word meets the control die's state (01 R23, 09 R255, R257): compared on the Score time base, ignored during the
switch, and counted towards qualification after it. -/
def Dev.tbcWord (d : Dev) (valid : Bool) (word : Int) : Dev :=
  match d.time.phase with
  | .score =>
    if !valid then d.loseTb 1
    else if word + d.time.k + d.chain.offset = d.time.tbc then d.setTime fun t => { t with lastWord := t.tbc }
    else d.loseTb 2
  | .fallback | .qualifying | .qualified => d.setTime fun t => t.qualifyWord valid word d.score.tbc
  | .first | .switching => d

/-- TBC_WORD (01 R23, 09 R250): words come from the first lock onward, and only in LOCKED are they valid. While the Score is
treated as absent none counts towards its return (01 R37). -/
def execTbcWord (dt : Nat) (valid : Bool) (word : Int) (s : State) : Host.Outcome State Fault Refusal :=
  s.run dt fun d =>
    if d.ctl.por || !d.score.powered || !d.score.locked then d
    else d.tbcWord (valid && d.score.tb = .locked && (d.time.phase = .score || !d.ctl.scoreSilent)) word

/-- TB_FALLBACK (09 R255): the 40 µs switch is over. -/
def execTbFallback (dt : Nat) (s : State) : Host.Outcome State Fault Refusal :=
  s.run dt fun d =>
    if d.time.phase = .switching && d.time.until_ ≤ d.now then
      (d.setTime fun t => { t with phase := .fallback }).event 0x0A02 0xFF [b8 (boolNat d.time.trimmed)]
    else d

/-- TB_QUALIFIED (09 R257): 100 ms of good words, the last of them not overdue. -/
def execTbQualified (dt : Nat) (s : State) : Host.Outcome State Fault Refusal :=
  s.run dt fun d =>
    if d.time.phase = .qualifying && d.time.until_ ≤ d.now then
      d.setTime fun t => if t.wordMissed d.score.tbc then t.requalify else { t with phase := .qualified }
    else d

/-- A measure boundary falls now (09 R258, 16 R459). -/
def Dev.atBoundary (d : Dev) : Bool := (d.now - d.time.measureAt) % 30720 = 0

/-- TB_RETURNED (09 R258): the switch back at a measure boundary. A Score count behind the copy raises K instead of the
copy stepping back. -/
def execTbReturned (dt : Nat) (s : State) : Host.Outcome State Fault Refusal :=
  s.run dt fun d =>
    if d.time.phase = .qualified && d.atBoundary then
      let old := d.time.tbc
      let sc := d.score.tbc + d.time.k + d.chain.offset
      let d0 := d.dropStarts
      let d1 := if old ≤ sc then d0.takeCount sc d.time.k else d0.takeCount old (d.time.k + (old - sc))
      d1.event 0x0A03 0xFF (leInt 8 old)
    else d

/-- FALLBACK_BAD (09 R254): HALTED at once where the oscillator is the source, but in STARTING (08 R239). -/
def execFallbackBad (dt : Nat) (s : State) : Host.Outcome State Fault Refusal :=
  s.run dt fun d =>
    if d.time.fallbackOk && !d.ctl.por then
      let d1 := (d.setTime fun t => { t with fallbackOk := false }).event 0x0A05 0xFF []
      if d1.time.onFallback && d1.ctl.mode ≠ .starting then d1.enterHalted 5 0 false else d1
    else d

/-- FALLBACK_TRIM (09 R252): every 1 ms on the Score time base. -/
def execFallbackTrim (dt : Nat) (s : State) : Host.Outcome State Fault Refusal :=
  s.run dt fun d =>
    if d.time.phase = .score && d.time.fallbackOk && d.time.trimAt + msec ≤ d.now then
      d.setTime fun t => { t with trimmed := true, trimAt := t.now }
    else d

end Sys2Proof.Machine
end

