-- ==== Sys2Proof/Machine/Score.lean ====
section
/-! DEFINITION. The Score die on its links (15 R442 to R455, 01 R29, R36, R37): power, edges, publication, mailbox, the
Laxitia port and the seal, and the Score opcodes. -/

namespace Sys2Proof.Machine
open Sys2Proof

/-! ### The publication (01 R29, R37, 15 R455) -/

/-- One event for each entry of a list. -/
def Dev.tellAll {α : Type} (d : Dev) (l : List α) (f : Dev → α → Dev) : Dev := l.foldl f d

/-- The events whose cause the publication shows first (15 R455); a lock or a seal that stood at the first publication of
a power cycle is none. -/
def Dev.scoreEvents (d : Dev) (x : Score) : Dev :=
  let old := d.link.publication
  let d1 := d.tellAll x.legalEvents fun d e => d.event 0x0801 e.1 (leBytes 4 e.2)
  let locked (p : Score) : Bool := lockCtr ≤ p.eventCtr
  let d2 := if locked x && old.elim false (fun p => !locked p) then d1.event 0x0802 0xFF [] else d1
  let d3 := d2.tellAll x.rollovers fun d e => d.event 0x0803 e.2.1 (b8 e.1 :: leBytes 2 e.2.2)
  let d4 := d3.tellAll x.markEvents fun d e => d.event 0x0804 e.1 [b8 e.2]
  let d5 := d4.tellAll x.rejects fun d r => d.event 0x0805 0xFF [b8 r]
  let d6 := match x.unpowered with
    | some p => d5.event 0x0806 0xFF (leBytes 2 p)
    | none => d5
  let d7 := d6.tellAll x.jobEvents fun d e => d.event 0x0807 0xFF (b8 e.1 :: leBytes 4 e.2.toNat)
  match old with
  | some p => if x.sealSt = Seal.sealed && p.sealSt ≠ Seal.sealed then d7.event 0x0808 0xFF [] else d7
  | none => d7

/-- The answer to a mailbox packet leaves other than at a commit edge: into the queue, or upstream for a packet of the
chain (15 R442, 16 R474). An OK to a packet of the previous accepted bar counts in PREV_ACCEPTED (03 R82). -/
def Dev.lateReply (d : Dev) (m : MailMsg) (a : Answer) : Dev :=
  let r : Reply := { src := if m.viaChain then d.chain.addr.getD 0 else 0, opc := m.packet.opc, tag := m.packet.tag,
                     status := a.status, data := a.data, settle := a.settle }
  if m.viaChain then { d with chain := { d.chain with replies := d.chain.replies ++ [r] } }
  else
    let d1 := d.replyNews r
    if m.bar = some d.port.barNo && a.status.toNat ≤ 1 then
      { d1 with port := { d1.port with prevAccepted := stick 8 (d1.port.prevAccepted + 1) } }
    else d1

/-- The answers to the message in flight become replies (15 R442). -/
def Dev.deliver (d : Dev) (l : List MailAnswer) : Dev :=
  match d.link.inFlight, l with
  | some m, a :: _ => { d.lateReply m (fail a.status a.data) with link := { d.link with inFlight := none } }
  | _, _ => d

/-- A publication arrives: full service resumes where the Score was silent (01 R37). -/
def Dev.publish (d : Dev) : Dev :=
  let x := d.score
  let d1 := if d.ctl.scoreSilent then (d.setCtl fun c => { c with scoreSilent := false }).linkBack else d
  let d2 := (d1.scoreEvents x).deliver x.answers
  let clear (x : Score) : Score :=
    { x with answers := [], rejects := [], rollovers := [], legalEvents := [], jobEvents := [], markEvents := [], unpowered := none }
  { d2 with
    score := clear d2.score
    link := { d2.link with publication := some (clear x), publishedAt := d2.now } }

/-- SCORE_PUBLICATION (01 R19): every 10 µs while the Score has power. -/
def execScorePublication (dt : Nat) (s : State) : Host.Outcome State Fault Refusal :=
  s.run dt fun d => if d.score.powered && !d.ctl.por && d.link.publishedAt + 10 * usec ≤ d.now then d.publish else d

/-- The DATA of a BUSY reply to a Score opcode (15 R443). -/
def scoreBusy (unknown : Bool) : Answer := fail stBusy [b8 (boolNat unknown)]

/-- The control die treats the Score as absent: off its time base too, as without VMET (01 R31, R37). TB_LOST tells cause 1:
DESIGN CHOICE, log entry 123. -/
def Dev.scoreAbsent (d : Dev) : Dev :=
  let d1 := (d.setCtl fun c => { c with scoreSilent := true }).linkDead
  if d1.time.phase = .score then d1.loseTb 1 else d1

/-- SCORE_SILENT (01 R37, 15 R443): 100 µs without a publication. The message in flight is answered BUSY with UNKNOWN 1,
those never forwarded with UNKNOWN 0. -/
def execScoreSilent (dt : Nat) (s : State) : Host.Outcome State Fault Refusal :=
  s.run dt fun d =>
    if d.ctl.por || d.now < d.link.publishedAt + 100 * usec || (d.ctl.scoreSilent && d.time.phase ≠ .score) then d
    else
      let d1 := d.scoreAbsent
      let d2 := match d1.link.inFlight with
        | some m => d1.lateReply m (scoreBusy true)
        | none => d1
      let d3 := d2.tellAll d2.link.mailbox fun d m => d.lateReply m (scoreBusy false)
      { d3 with link := { d3.link with mailbox := [], inFlight := none } }

/-! ### Power (02 R39, 17 R491, R504) -/

/-- SCORE_RESET (02 R39, R42, 09 R248): VMET is valid and the Score's reset ends. -/
def execScoreReset (dt : Nat) (xin : XinPins) (mseal : Bool) (levels : Tab Bool 8) (s : State) :
    Host.Outcome State Fault Refusal :=
  s.run dt fun d =>
    if d.score.powered then d
    else
      let d1 := d.setScore fun x => x.afterReset xin.xoutHigh mseal xin.reference levels
      if d1.ctl.scoreSilent then d1 else d1.linkBack

/-- VMET_LOST (17 R491): the Score is held in reset, and its links fall silent; a commit under way may be torn (15 R435). -/
def execVmetLost (loss : VmetLoss) (s : State) : Host.Outcome State Fault Refusal :=
  s.run loss.dt fun d =>
    if d.score.powered then
      (d.setScore fun x => (if loss.torn then x.tearCommit else x).unpowered_).linkDead
    else d

/-- VMET_COMMIT (17 R504, 15 R429, R434, R437): open marks and the counts of unset items are written, and, once the scan has
given them, the totals committed (log entry 76). -/
def execVmetCommit (dt : Nat) (s : State) : Host.Outcome State Fault Refusal :=
  s.run dt fun d => d.setScore fun x =>
    if x.powered then (if x.scanned then x.powerDownRecords.commit else x.powerDownRecords) else x

/-- SCORE_READY (02 R45): the Score scan that began with the end of the Score reset completes, and the publication shows
it. -/
def execScoreReady (dt : Nat) (_duration : Told) (s : State) : Host.Outcome State Fault Refusal :=
  s.run dt fun d =>
    if d.score.powered && !d.score.scanned then
      let d1 := d.setScore Score.ready
      if d1.ctl.por then d1 else d1.publish.event 0x0006 0xFF (tenthsMs (d.score.own - d.score.resetAt))
    else d

/-- SCORE_RING_COMMIT (15 R434): 10 s after the first change since the last commit. -/
def execScoreRingCommit (dt : Nat) (s : State) : Host.Outcome State Fault Refusal :=
  s.run dt fun d => d.setScore fun x => match x.changedAt with
    | some t => if x.powered && x.scanned && t + 10000 * msec ≤ x.own then x.commit else x
    | none => x

/-- The taps as they read: those of a bank whose VBAT is below 4.0 V are low (15 R423). -/
def tapsRead (p : TapPins) : Mask :=
  (idx 48).foldl (fun m v => if p.below4.getLsbD (bankOf v).val then m &&& ~~~ BitVec.ofNat 48 (2 ^ v.val) else m) p.outputs

/-- TAP_SAMPLE (15 R423): every 1 µs of the Score's own clock, in every time base state. -/
def execTapSample (dt : Nat) (taps : TapPins) (s : State) : Host.Outcome State Fault Refusal :=
  s.run dt fun d => d.setScore fun x =>
    if x.powered && x.sampledAt + usec ≤ x.own then { x.sample (tapsRead taps) with sampledAt := x.own } else x

/-- TALLY_EDGE (09 R261, 15 R424): counted from the end of the Score reset on, before the PLL locks (02 R42). Until the lock
no stamp follows, and the level on the link restarts the level timer (09 R267); STUCK_LEVEL, which a timestamp clears, stays:
DESIGN CHOICE, log entry 181. -/
def execTallyEdge (dt : Nat) (input : Fin 8) (rising merged : Bool) (s : State) : Host.Outcome State Fault Refusal :=
  s.run dt fun d =>
    if !d.score.powered then d
    else
      let d1 := d.setScore fun x => x.edge x.own input rising merged
      if d.score.locked || merged || d.ctl.scoreSilent then d1
      else d1.modTally input fun x => { x with level := rising, levelSince := some d.now }

/-- SCORE_GROUND_EVALUATION (15 R438): every 10 ms, each line in turn. -/
def execScoreGroundEvaluation (dt : Nat) (s : State) : Host.Outcome State Fault Refusal :=
  s.run dt fun d => d.setScore fun x =>
    if x.powered && x.judgedAt + 10 * msec ≤ x.own then { (idx 4).foldl (Score.judge x.own) x with judgedAt := x.own } else x

/-- SCORE_DIE_TEMPERATURE (15 R436, R437). -/
def execScoreDieTemperature (dt : Nat) (tenths : Int) (s : State) : Host.Outcome State Fault Refusal :=
  s.run dt fun d => d.setScore fun x => if x.powered then x.dieTemp tenths else { x with temp := tenths, cold := tenths < -450 }

/-! ### The mailbox (01 R20, R36, 15 R442) -/

/-- The reason code of a rejected message (15 R455). -/
def rejectReason : MailboxFate → Option Nat
  | .whole | .powerCut .. => none
  | .badLength => some 0
  | .badCrc => some 1
  | .badOpcode => some 2
  | .partMessage => some 4

/-- The units that `n` pulses of item `i` make on a residue of 0 (15 R425). -/
def Score.unitsOf (x : Score) (i : Fin 6) (n : Nat) : Nat :=
  if h : i.val < 4 then n * 100000 / max (x.ppl ⟨i.val, h⟩) 1 else n * x.mpp ⟨i.val - 4, by omega⟩ / 1000

/-- The quantity that the pulses of item `i` make (15 R429). -/
def itemQuantity (i : Fin 6) : Quantity :=
  if h : i.val < 4 then .vol ⟨i.val, h⟩ else .dist ⟨i.val - 4, by omega⟩

/-- A block that takes the Score from `x` to `y` converts an item's pending pulses: those that came before a waiting message's
stamp belong before its boundary (15 R429, R432). -/
def MailMsg.afterBlock (x y : Score) (m : MailMsg) : MailMsg :=
  (idx 6).foldl (fun m i =>
    if y.everSet.getLsbD i.val && !x.everSet.getLsbD i.val then
      let q := itemQuantity i
      { m with life := m.life.write q ((m.life.read q).add (y.unitsOf i (min (m.pending.get i) (x.pending.get i)))) }
    else m) m

/-- The message at the front is passed to the Score, whose answer `a` it makes while it becomes `y` (15 R442). -/
def Dev.served (d : Dev) (m : MailMsg) (rest : List MailMsg) (y : Score) (a : Answer) : Dev :=
  let ans : MailAnswer := { opc := m.packet.opc, tag := m.packet.tag, status := a.status, data := a.data }
  let z := if y.variant = Variant.s then { y with rejected := stick 32 (y.rejected + 1), rejects := y.rejects ++ [3] }
           else { y with accepted := stick 32 (y.accepted + 1) }
  { d with
    score := { z with answers := z.answers ++ [ans] }
    link := { d.link with mailbox := rest.map (MailMsg.afterBlock d.score y), inFlight := some m } }

/-- VMET collapses while the Score serves a message (15 R441, 17 R491): no answer comes. -/
def Dev.servedCut (d : Dev) (m : MailMsg) (rest : List MailMsg) (y : Score) (written : Nat) (logged : Bool) : Dev :=
  { d with
    score := (d.score.cutShort y written logged).unpowered_
    link := { d.link with mailbox := rest, inFlight := some m } }.linkDead

/-- MAILBOX_MESSAGE (01 R20, R36): a message reaches the Score. A rejected one is counted and changes nothing, and the
message at the front is passed again; a good one is that message, and the Score acts on it. A message that the Score's
variant does not serve is rejected with reason 3 and answered. -/
def execMailboxMessage (dt : Nat) (fate : MailboxFate) (s : State) : Host.Outcome State Fault Refusal :=
  s.run dt fun d =>
    if !d.score.powered then d
    else match rejectReason fate with
      | some r => d.setScore fun x => { x with rejected := stick 32 (x.rejected + 1), rejects := x.rejects ++ [r] }
      | none =>
        match d.link.mailbox, d.link.inFlight with
        | m :: rest, none =>
          let r := d.score.act d.score.own m
          match fate with
          | .powerCut written logged => d.servedCut m rest r.1 written logged
          | _ => d.served m rest r.1 r.2
        | _, _ => d

/-- A Score Commit or Bulk packet is stamped with this slot's TBC and queued for the mailbox (15 R442, R443); the answer
comes with the publication. -/
def Dev.mail (d snap : Dev) (p : Packet) (viaChain : Bool) : Dev × Option Answer :=
  if d.ctl.scoreSilent || 16 ≤ d.link.mailbox.length then (d, some (scoreBusy false))
  else
    let newest := (snap.link.publication.map fun x => x.nextAseq - 1).getD 0
    let m : MailMsg := { packet := p, stamp := d.time.tbc, newest := newest, life := d.score.life, pending := d.score.pending, viaChain := viaChain,
                         bar := if p.dest.toNat / 128 = 1 then none else some d.port.barNo }
    ({ d with link := { d.link with mailbox := d.link.mailbox ++ [m] } }, none)

/-! ### Reads from the publication (15 R444, R449) -/

/-- The publication is older than 100 µs. -/
def Dev.pubStale (d : Dev) : Bool := d.link.publishedAt + 100 * usec < d.now

/-- VALUE and ROLL of a total (15 R444). -/
def entry8 (t : Total) : List Byte := leBytes 6 t.value ++ leBytes 2 t.roll

/-- The totals head of a publication (15 R444). -/
def Score.totalsHead (x : Score) (set_ : Nat) (stale : Bool) : List Byte :=
  let m := x.variant = Variant.m
  [b8 set_,
   b8 (boolNat (x.sealSt = Seal.sealed) * 128 + boolNat (m && lockCtr ≤ x.eventCtr) * 64 + boolNat x.jobOpen * 32 + boolNat stale * 16),
   b8 (if m then x.setMask else 0), b8 x.ratedBits] ++
  leBytes 4 (if m then x.eventCtr else 0) ++ leBytes 4 x.jobId.toNat ++ leInt 8 x.tbc

/-- The entry of one input in SET 2 (15 R444). -/
def Score.rawEntry (x : Score) (i : Fin 8) : List Byte :=
  leBytes 6 (x.raw.get i).value ++ leBytes 2 (x.raw.get i).roll ++
  (if h : i.val < 6 then sat4 (x.pending.get ⟨i.val, h⟩) else [0, 0, 0, 0]) ++
  (if h : 4 ≤ i.val ∧ i.val < 6 then sat4 (x.unmapped.get ⟨i.val - 4, by omega⟩) else [0, 0, 0, 0])

/-- SCORE_TOTALS from the snapshot's publication (15 R444). -/
def opScoreTotals (snap : Dev) (p : List Byte) : Answer :=
  let set_ := byteAt p 0
  if 2 < set_ then fail stBadParam []
  else match snap.link.publication with
  | some x =>
    let legal := if set_ = 0 then x.life else x.job
    let body :=
      if set_ = 2 then (idx 8).flatMap x.rawEntry
      else if x.variant = Variant.s then List.replicate 80 0
      else legal.list.flatMap entry8
    ok (x.totalsHead set_ snap.pubStale ++ body)
  | none => fail stBusyScan []

/-- The CRC-32 of ROM Score 1.4 (15 R449). -/
def scoreRomCrc : Nat := 0x7E21C0B5

/-- The 48 bytes of SCORE_IDENT from a publication (15 R449). -/
def Score.ident (x : Score) : List Byte :=
  let m := x.variant = Variant.m
  let sl := match x.sealSt with
    | .unsealed => 0
    | .sealed => 1
    | .sealMode => 2
  let legal := (if x.sealSt = Seal.sealed then x.instrument else List.replicate 16 0) ++ leBytes 4 x.accepted ++
    leBytes 4 x.rejected ++ leBytes 4 x.oldest.toNat ++ leBytes 4 x.auditDropped
  [if m then 0x4D else 0x53, b8 sl, b8 (boolNat x.scanned), b8 x.tb.code, 0x04, 0x01, 0, 0] ++ leBytes 4 scoreRomCrc ++
  (if m then legal else List.replicate 32 0) ++ leBytes 2 x.session ++ [b8 (if m then x.diag.toNat else 0), 0]

/-- SCORE_IDENT from the snapshot's publication (15 R449). -/
def opScoreIdent (snap : Dev) : Answer :=
  match snap.link.publication with
  | some x => ok x.ident
  | none => ok ((List.range 48).map fun i => Config.identByte i snap.now)

/-! ### The Laxitia port (15 R450, R451) -/

/-- ASCII of characters. -/
def asc (l : List Char) : List Byte := l.map fun c => b8 c.toNat

/-- A number in decimal. -/
def dec (n : Nat) : List Byte := asc (Nat.toDigits 10 n)
/-- A signed number in decimal. -/
def decInt (i : Int) : List Byte := if i < 0 then asc ['-'] ++ dec i.natAbs else dec i.natAbs
/-- A number in decimal with leading zeros to `w` digits. -/
def decPad (w n : Nat) : List Byte := let l := dec n; List.replicate (w - l.length) (b8 '0'.toNat) ++ l
/-- One hex digit, upper-case. -/
def hexDigit (n : Nat) : Byte := b8 (if n < 10 then 48 + n else 55 + n)
/-- `w` hex digits of a number, the highest first. -/
def hex (w n : Nat) : List Byte := (List.range w).map fun i => hexDigit (n >>> (4 * (w - 1 - i)) % 16)
/-- Bytes in hex. -/
def hexBytes (l : List Byte) : List Byte := l.flatMap fun b => hex 2 b.toNat

def crlf : List Byte := [0x0D, 0x0A]
/-- A line NAME=value. -/
def laxLine (name : List Char) (value : List Byte) : List Byte := asc name ++ asc ['='] ++ value ++ crlf
/-- An answer with its END line: the CRC-16 of every byte before it (15 R450). -/
def laxAnswer (body : List Byte) : List Byte := body ++ asc ['E', 'N', 'D'] ++ hex 4 (crc16 body) ++ crlf
/-- A one-word answer. -/
def laxWord (w : List Char) : List Byte := laxAnswer (asc w ++ crlf)

/-- A total as value,rollovers. -/
def laxTotal (t : Total) : List Byte := dec t.value ++ asc [','] ++ dec t.roll

/-- The ten totals of ?T and ?J. -/
def laxTotals (t : Totals) : List Byte :=
  (idx 4).flatMap (fun f => laxLine ['V', Nat.digitChar f.val] (laxTotal (t.vol.get f))) ++
  (idx 4).flatMap (fun f => laxLine ['A', Nat.digitChar f.val] (laxTotal (t.area.get f))) ++
  (idx 2).flatMap (fun g => laxLine ['D', Nat.digitChar (4 + g.val)] (laxTotal (t.dist.get g)))

/-- ?I (15 R450); a VX48-S answers MFR, PART, REV, SCORE and ROMCRC alone. -/
def Score.laxIdent (x : Score) : List Byte :=
  let free (k : Nat) (v : Int) : List Byte := Config.laxitiaText 0 k v
  let m := x.variant = Variant.m
  laxLine ['M', 'F', 'R'] (asc ['J', 'O', 'R', 'R', 'O', 'R', 'E', 'N']) ++
  laxLine ['P', 'A', 'R', 'T'] (free 0 (boolNat m)) ++ laxLine ['R', 'E', 'V'] (free 1 0) ++
  laxLine ['S', 'C', 'O', 'R', 'E'] (asc ['1', '.', '4']) ++ laxLine ['R', 'O', 'M', 'C', 'R', 'C'] (hex 8 scoreRomCrc) ++
  if m then
    laxLine ['U', 'I', 'D'] (free 2 Config.uid.toNat) ++ laxLine ['I', 'N', 'S', 'T'] (free 3 (leNat x.instrument)) ++
    laxLine ['S', 'E', 'A', 'L'] (free 4 (boolNat (x.sealSt = Seal.sealed)))
  else []

/-- ?S (15 R450). -/
def Score.laxStatus (x : Score) : List Byte :=
  laxLine ['E', 'V', 'T'] (decPad 6 x.eventCtr) ++
  laxLine ['L', 'O', 'C', 'K'] (Config.laxitiaText 1 1 (boolNat (lockCtr ≤ x.eventCtr))) ++
  laxLine ['S', 'E', 'T'] (hex 2 x.setMask) ++ laxLine ['R', 'A', 'T', 'E', 'D'] (if x.ratedBits < 16 then hex 1 x.ratedBits else hex 2 x.ratedBits) ++
  laxLine ['T', 'B'] (dec x.tb.code) ++ laxLine ['T', 'E', 'M', 'P'] (decInt x.temp) ++
  laxLine ['D', 'R', 'O', 'P', 'P', 'E', 'D'] (dec x.auditDropped)

/-- ?R (15 R450). -/
def Score.laxRaw (x : Score) : List Byte :=
  (idx 8).flatMap (fun i => laxLine ['R', Nat.digitChar i.val] (laxTotal (x.raw.get i))) ++
  (idx 6).flatMap (fun i => laxLine ['P', Nat.digitChar i.val] (dec (x.pending.get i))) ++
  (idx 2).flatMap (fun g => laxLine ['U', Nat.digitChar (4 + g.val)] (dec (x.unmapped.get g)))

/-- ?A n (15 R450): up to 16 records from ASEQ n. -/
def Score.laxAudit (x : Score) (n : Nat) : List Byte :=
  let l := x.audit.filter fun r => !r.torn && atOrBefore (BitVec.ofNat 32 n) r.aseq
  (l.take 16).flatMap fun r => laxLine ['A'] (hexBytes r.bytes)

/-- A decimal number of ASCII digits; none where a character is no digit or there is none. -/
def parseDec (l : List Byte) : Option Nat :=
  if l.isEmpty || l.any (fun b => b.toNat < 48 || 57 < b.toNat) then none
  else some (l.foldl (fun n b => 10 * n + (b.toNat - 48)) 0)

/-- The answer to a request line without its CR (15 R450, R451). -/
def Score.laxitiaAnswer (x : Score) (line : List Byte) : List Byte :=
  let req := line.filter (· ≠ 0x0A)
  if req = asc ['?', 'I'] then laxAnswer x.laxIdent
  else if x.variant = Variant.s then laxWord ['E', 'R', 'R', ' ', 'N', 'A']
  else if !x.scanned then laxWord ['B', 'U', 'S', 'Y']
  else if 32 ≤ req.length then laxWord ['E', 'R', 'R']
  else if req = asc ['?', 'S'] then laxAnswer x.laxStatus
  else if req = asc ['?', 'T'] then laxAnswer (laxTotals x.life)
  else if req = asc ['?', 'J'] then
    laxAnswer (laxLine ['J', 'O', 'B'] (dec x.jobId.toNat) ++ laxLine ['O', 'P', 'E', 'N'] (dec (boolNat x.jobOpen)) ++ laxTotals x.job)
  else if req = asc ['?', 'R'] then laxAnswer x.laxRaw
  else if req.take 3 = asc ['?', 'A', ' '] then
    match parseDec (req.drop 3) with
    | some n => if n < 2 ^ 32 then laxAnswer (x.laxAudit n) else laxWord ['E', 'R', 'R']
    | none => laxWord ['E', 'R', 'R']
  else laxWord ['E', 'R', 'R']

/-- A well-formed seal request: !SEAL, a space and 16 printable characters (15 R453). -/
def isSealLine (line : List Byte) : Bool :=
  let req := line.filter (· ≠ 0x0A)
  req.length = 22 && req.take 6 = asc ['!', 'S', 'E', 'A', 'L', ' '] && (req.drop 6).all fun b => 0x20 ≤ b.toNat && b.toNat ≤ 0x7E

/-- MVTX is driven, idle high, from the end of the Score reset on, and high-impedance before it; the level of MSEAL is a field
(19 R539). -/
def Score.mvtxDriven (x : Score) : Bool := x.powered

/-- Ticks that `n` characters of 10 bits take at 115,200 baud (15 R450). -/
def charTicks (n : Nat) : Nat := n * 781250 / 3

/-- An answer goes out: it begins at once, and its characters follow without a gap (15 R450). DESIGN CHOICE within the 20 ms,
log entry 185. -/
def Score.sayLax (x : Score) (a : List Byte) : Score := { x with laxitia := a, laxUntil := x.own + charTicks a.length }

/-- What the Score hears of a line whose CR ends now: the characters that came during an answer are discarded, and with the CR
among them the whole line (15 R450). The characters of a line come without a gap: DESIGN CHOICE, log entry 185. -/
def Score.heard (x : Score) (line : List Byte) : Option (List Byte) :=
  if x.own < x.laxUntil then none
  else some (((List.range line.length).filter fun j => x.laxUntil + charTicks (line.length - j) ≤ x.own).map fun j => line.getD j 0)

/-- LAXITIA_REQUEST (15 R450, R451): no request changes anything but the answer. A seal request in seal mode acts as the
command SEAL. -/
def execLaxitiaRequest (dt : Nat) (line : List Byte) (s : State) : Host.Outcome State Fault Refusal :=
  s.run dt fun d => d.setScore fun x =>
    match x.heard line with
    | some l => if !x.powered || (isSealLine l && x.sealSt = Seal.sealMode) then x else x.sayLax (x.laxitiaAnswer l)
    | none => x

/-- The line of a seal request (15 R453). -/
def sealLine (ident : List Byte) : List Byte := asc ['!', 'S', 'E', 'A', 'L', ' '] ++ ident

/-- SEAL (15 R453, R454): in seal mode the fuses and the identifier are blown and verified, and a SEAL record is
written; a failed attempt leaves the Score in seal mode. -/
def execSealFuses (dt : Nat) (ident : List Byte) (verified : Bool) (s : State) : Host.Outcome State Fault Refusal :=
  s.run dt fun d => d.setScore fun x =>
    if !x.powered then x
    else match x.heard (sealLine ident) with
    | none => x
    | some l =>
      if x.variant = Variant.s then x.sayLax (laxWord ['E', 'R', 'R', ' ', 'N', 'A'])
      else if !x.scanned then x.sayLax (laxWord ['B', 'U', 'S', 'Y'])
      else if x.sealSt ≠ Seal.sealMode || !isSealLine l then x.sayLax (laxWord ['E', 'R', 'R'])
      else if !verified then x.sayLax (laxWord ['E', 'R', 'R', ' ', 'S', 'E', 'A', 'L'])
      else
        let y := { x with sealSt := .sealed, msealOut := some true, instrument := ident }
        (y.recordOne 0x08 ident).sayLax (laxWord ['S', 'E', 'A', 'L', 'E', 'D'])

end Sys2Proof.Machine
end

