-- ==== Sys2Proof/Machine/Power.lean ====
section
/-! DEFINITION. Supplies and the power-down sequence (17): crank and overvoltage holds, VHOLD, the steps of a sequence,
its save, and the restart after it. -/

namespace Sys2Proof.Machine
open Sys2Proof

def Dev.setPd (d : Dev) (f : PowerDown → PowerDown) : Dev := { d with pd := f d.pd }

/-! ### Holds of a bank (17 R492, R493) -/

/-- A blip of the bank whose gate ramp has not begun goes back to the front of its queue (17 R492, 13 R378). -/
def Dev.putBackBlip (d : Dev) (b : BankId) : Dev :=
  match d.therm.blip with
  | some (v, none) =>
    if bankOf v = b && (d.voice v).rampUse = .blip && !(d.unitOf v).any (fun m => (d.voice m).gate) then
      ({ d with therm := { d.therm with blip := none, blips := v :: d.therm.blips } }).modUnit v fun x => { x with ramp := .none }
    else d
  | _ => d

/-- The turn-ons of a bank that wait are held: tokens go back and deadlines stop; a MUST_FIRE firing stays one
(17 R492). -/
def Dev.holdBank (d : Dev) (b : BankId) : Dev :=
  (d.putBackBlip b).forVoices ((idx 48).filter fun v => bankOf v = b && (d.voice v).wait.isSome) fun d v =>
    (d.returnTokens v).modVoice v fun x => { x with
      wait := x.wait.map fun w => { w with stage := .bank, deadline := none } }

/-- At the release the held turn-ons of the bank meet arbitration anew (17 R492). -/
def Dev.releaseBank (d : Dev) (b : BankId) : Dev :=
  if d.bankHeld b then d
  else d.forVoices ((idx 48).filter fun v => bankOf v = b) fun d v => d.modVoice v fun x => { x with
    wait := x.wait.map fun w => if w.stage = .bank then { w with stage := .fresh } else w }

/-- A bank voltage in units of 10 mV. -/
def volts2 (n : Nat) : List Byte := leBytes 2 (min n 65535)

/-- CRANK (17 R492). -/
def execCrank (dt : Nat) (bank : BankId) (begins : Bool) (volts : Nat) (s : State) : Host.Outcome State Fault Refusal :=
  s.run dt fun d =>
    if (d.banks.get bank).crank = begins then d
    else
      let d1 := (d.modBank bank fun x => { x with crank := begins }).event 0x0B02 bank.val (b8 (boolNat begins) :: volts2 volts)
      if begins then d1.holdBank bank else d1.releaseBank bank

/-- BANK_OV (17 R493): the hold, and above it the off, which acts as absence of the bank, whose return is told too (06 R172). -/
def execBankOv (dt : Nat) (bank : BankId) (change : OvChange) (volts : Nat) (s : State) : Host.Outcome State Fault Refusal :=
  s.run dt fun d =>
    let x := d.banks.get bank
    let tell (d : Dev) (k : Nat) : Dev := d.event 0x0B03 bank.val (b8 k :: volts2 volts)
    match change with
    | .holdBegin => if x.ovHold then d else (tell (d.modBank bank fun x => { x with ovHold := true }) 0).holdBank bank
    | .offBegin => if x.ovOff then d else tell ((d.modBank bank fun x => { x with ovOff := true }).loseBank bank) 1
    | .offEnd => if x.ovOff then tell (d.modBank bank fun x => { x with ovOff := false }) 2 else d
    | .holdEnd => if x.ovHold then (tell (d.modBank bank fun x => { x with ovHold := false }) 2).releaseBank bank else d

/-! ### VHOLD (17 R494 to R496) -/

/-- VHOLD_READY (17 R491): VHOLD has reached 13.0 V. -/
def execVholdReady (dt : Nat) (s : State) : Host.Outcome State Fault Refusal :=
  s.run dt fun d => d.setPd fun p => { p with vholdReady := true, vholdArmed := true }

/-- VHOLD_FAULT (17 R496): not ready 1 s after a cappella live, or, once ready, below 12.0 V for 10 ms while no sequence
runs. -/
def execVholdFault (dt : Nat) (volts : Nat) (s : State) : Host.Outcome State Fault Refusal :=
  s.run dt fun d =>
    let due := if d.pd.vholdReady then !d.pdRunning else d.ctl.liveAt.elim false fun t => t + 1000 * msec ≤ d.now
    if d.pd.vholdArmed && due then
      (d.setPd fun p => { p with vholdReady := false, vholdArmed := false }).event 0x0B04 0xFF (volts2 volts)
    else d

/-- FLASH_FLOOR (17 R491): during a sequence started by VBAT no flash word starts any more. -/
def execFlashFloor (dt : Nat) (s : State) : Host.Outcome State Fault Refusal :=
  s.run dt fun d => if d.pdActive && d.pd.cause = 0 then d.setPd fun p => { p with floor := true } else d

/-! ### The sequence (17 R497 to R501) -/

/-- The mode in which a sequence enters PARKED (08 R239): MODE cause 4 by VBAT, 0 by PARK. -/
def Dev.pdMode (d : Dev) (cause : Nat) : Dev :=
  match d.ctl.mode with
  | .starting => d
  | .halted => d
  | .parked => d
  | _ => d.enterParked (if cause = 0 then 4 else 0)

/-- Step 1 of a sequence, with step 2 under way from this slot and the power-fail line high (17 R497, R498, 15 R434):
`cause` 0 VBAT, 1 PARK. -/
def Dev.pdStart (d : Dev) (cause : Nat) : Dev :=
  let d1 := d.event 0x0B01 0xFF [b8 cause, b8 d.ctl.mode.code]
  let d2 := d1.setScore fun x =>
    let y := { x with powerFail := true }
    if y.powered && y.scanned then y.commit else y
  let d3 := ((d2.pdMode cause).withdrawAll).cancelCues
  let d4 := (d3.rawStop true).setPd fun p => { p with
    step := .voicesAndCommit, cause := cause, at_ := d.now, scanned := d.nv.scanned, committed := false, floor := false, vhold := 0 }
  let vs := (idx 48).filter fun v => (d4.voice v).driven
  (d4.stagger .powerDown vs).setCtl fun c => { c with parkedByPower := c.parkedByPower || cause = 0 }

/-- POWER_DOWN (17 R497): the power-down threshold asserts. A sequence that runs is not restarted. -/
def execPowerDown (dt : Nat) (s : State) : Host.Outcome State Fault Refusal :=
  s.run dt fun d => if d.pdRunning || d.ctl.por then d else d.pdStart 0

/-- Why the save is skipped (17 R500); a sequence that began before the record scan completed saves nothing (02 R67). -/
def Dev.skipReason (d : Dev) : Option Nat :=
  if !d.pd.scanned then some 0
  else if !d.marksOk then some 1
  else if d.pd.cause = 0 && d.pd.vhold < 700 then some 2
  else if d.ctl.mode = .halted && d.ctl.haltCause ≠ 4 && d.ctl.haltCause ≠ 5 then some 3
  else if d.pd.fresh then some 4
  else none

/-- The sequence is over (17 R502): after PARK the device waits for RESUME; after VBAT for POR or the restart. -/
def Dev.pdEnd (d : Dev) (marker : Bool) : Dev :=
  let d1 := d.setPd fun p => { p with step := if p.cause = 0 then .done else .idle }
  d1.event 0x0009 0xFF [b8 (boolNat marker)]

/-- Step 4 starts once steps 2 and 3 have ended, or steps 4 to 6 are skipped (17 R498, R500). -/
def Dev.pdSave (d : Dev) : Dev :=
  let off := d.staggers.any fun s => s.kind = .powerDown
  if d.pd.step = .voicesAndCommit && d.pd.committed && !off then
    match d.skipReason with
    | some r => (d.event 0x0B08 0xFF [b8 r]).pdEnd false
    | none => d.saveBegin.setPd fun p => { p with step := .save, stepAt := d.now }
  else d

/-- A staggered turn-off by a keep-alive loss is under way (01 R25). -/
def Dev.dropping (d : Dev) : Bool := d.staggers.any fun s => s.kind = .keepAlive

/-- The power die asserts the restart line for 10 µs, a keep-alive recovery, and the control die starts from control boot
at its release with START cause 3 (01 R26). -/
def Dev.recover (d : Dev) : Dev :=
  { d with ka := { d.ka with recoveries := d.now :: d.ka.recoveries } }.restart 3 (10 * usec)

/-- STAGGERED_TURN_OFF (05 R156, 13 R371, 17 R498, 01 R25): the sequence that is due next turns its next voice off; with
the last voice of a keep-alive loss the restart line is asserted (01 R26). -/
def execStaggeredTurnOff (dt : Nat) (s : State) : Host.Outcome State Fault Refusal :=
  s.run dt fun d =>
    match d.staggers.find? fun s => s.next ≤ d.now with
    | some s =>
      let d1 := (Dev.staggerStep { d with staggers := d.staggers.erase s } s).pdSave
      if d.dropping && !d1.dropping then d1.recover else d1
    | none => d

/-- SCORE_COMMIT_WAIT (17 R498, R499): the publication reports the commit, 3 ms pass, or the Score is absent; VHOLD, in
10 mV, is what step 4 finds. -/
def execScoreCommitWait (dt : Nat) (reported : Bool) (vhold : Nat) (s : State) : Host.Outcome State Fault Refusal :=
  s.run dt fun d =>
    let absent := d.ctl.scoreSilent
    if d.pd.step = .voicesAndCommit && !d.pd.committed && (absent || reported || d.pd.at_ + 3 * msec ≤ d.now) then
      let code : Nat := if absent then 2 else if reported then 0 else 1
      let wait := (d.now - d.pd.at_) / (10 * usec)
      let d1 := d.event 0x0B07 0xFF (b8 code :: leBytes 2 (min wait 65535))
      (d1.setPd fun p => { p with committed := true, vhold := vhold }).pdSave
    else d

/-- Words that step 4 has still to program (17 R498). -/
def Dev.saveWords (d : Dev) : Nat := (d.nv.appends.map fun a => a.size / 8 - a.words).sum

/-- LIFETIME_SAVE_DONE (17 R498 steps 4 and 5, 14 R405), 12 µs a word after the step began: appends in hand complete, held
records and the six lifetime keys are in the store. A copy in progress completes, and the marker follows it. -/
def execLifetimeSaveDone (dt : Nat) (s : State) : Host.Outcome State Fault Refusal :=
  s.run dt fun d =>
    if d.pd.step = .save && !d.pd.floor && d.nv.servedAt + wordTime * d.saveWords ≤ d.now then
      let at_ := d.now + wordTime * d.nv.copyLeft
      let d1 := (d.finishAppends).setNv Flash.finishCopy
      let value := leInt 8 d.time.tbc ++ [b8 d.pd.cause] ++ List.replicate 7 0
      (d1.setNv fun f => { f.enqueue d.now 1 false value false with servedAt := at_ }).setPd fun p =>
        { p with step := .idleFlash, stepAt := at_ }
    else d

/-- MARKER_WRITE (17 R498 step 6, 14 R405), 4 words after the save: the clean-shutdown marker; the session is folded in. -/
def execMarkerWrite (dt : Nat) (s : State) : Host.Outcome State Fault Refusal :=
  s.run dt fun d =>
    if d.pd.step = .idleFlash && !d.pd.floor && d.pd.stepAt + wordTime * 4 ≤ d.now then
      (d.finishMarker.foldSession.setPd fun p => { p with fresh := p.cause = 1 }).pdEnd true
    else d

/-- PARKED_RESTART (08 R244): VBAT has stood for 100 ms after a sequence it started. -/
def execParkedRestart (dt : Nat) (s : State) : Host.Outcome State Fault Refusal :=
  s.run dt fun d =>
    if d.ctl.parkedByPower && d.pd.step = .done && d.ctl.mode ≠ .halted && d.pd.at_ + 100 * msec ≤ d.now then
      (d.restart 0 0).setScore fun x => { x with powerFail := false }
    else d

/-! ### PARK and RESUME (05 R157, R158, 17 R501, 14 R407) -/

/-- PARK at its commit slot (05 R157): in PARKED, and while a sequence runs, it changes nothing (17 R501). -/
def opPark (d : Dev) : Dev × Answer :=
  if d.ctl.mode = .parked || d.pdRunning then (d, ok [0, 0])
  else
    let n := d.cues.queue.length
    let d1 := d.setCtl fun c => { c with parkFromAcappella := d.ctl.mode = .acappella }
    (d1.pdStart 1, ok (leBytes 2 (min n 65535)))

/-- PARKED is left at a commit slot: the park request falls, and a fresh marker is consumed (14 R407). -/
def Dev.unpark (d : Dev) : Dev :=
  if d.ctl.mode = .parked then
    let d1 := if d.pd.fresh then d.consumeMarker else d
    (d1.setPd fun p => { p with fresh := false }).setScore fun x => { x with powerFail := false }
  else d

/-- The refusal of RESUME and ACAPPELLA: BUSY while a sequence runs, in PARKED WRONG_MODE after one that VBAT started
(17 R501, 08 R244). -/
def Dev.parkRefusal (d : Dev) : Option Answer :=
  if d.pdRunning then some (fail stBusy [])
  else if d.ctl.mode ≠ .parked then none
  else if d.ctl.parkedByPower then some (fail stWrongMode [])
  else none

/-- RESUME at its commit slot (05 R158). In A CAPPELLA every live word is at its power-up value (04 R110), so that words written
while PARKED do not act there. Out of FALLBACK a voice keeps its present state as its commanded state, and a turn-on
that its input asked for by FB_ACTION LH is withdrawn (08 R241). -/
def opResume (d : Dev) : Dev × Answer :=
  match d.parkRefusal with
  | some a => (d, a)
  | none =>
    match d.ctl.mode with
    | .conducted => (d, ok [b8 2])
    | .parked =>
      if d.ctl.parkFromAcappella then
        let d1 := d.unpark.toMode .acappella 0
        ({ d1 with par := { d1.par with live := [] } }.reconfigure d, ok [b8 1])
      else ((d.unpark.toMode .conducted 0).startWatchdog, ok [b8 2])
    | _ =>
      let keep (x : Voice) : Voice := { x with fallbackLh := false, cmd := if x.st.isFault then x.cmd else x.driven }
      let left := (idx 48).filter fun v => d.vfld v 0 19 1 = 0 && (d.voice v).fallbackLh &&
        (d.voice v).wait.any fun w => w.source == .level
      let d1 := ((d.forVoices left Dev.withdraw).toMode .conducted 0).startWatchdog
      ({ d1 with voices := d1.voices.mapIdx fun v x => if d1.vfld v 0 19 1 = 1 then x else keep x }, ok [b8 2])

/-- ACAPPELLA at its commit slot (05 R150, 02 R65). -/
def opAcappella (d : Dev) : Dev × Answer :=
  match d.parkRefusal with
  | some a => (d, a)
  | none =>
    if d.ctl.mode = .acappella || d.ctl.mode = .starting then (d, ok [0, 0])
    else
      let n := d.cues.queue.length
      (d.unpark.enterAcappella 0, ok (leBytes 2 (min n 65535)))

end Sys2Proof.Machine
end

