-- ==== Sys2Proof/Machine/Boot.lean ====
section
/-! DEFINITION. Start-up and its ends (02 R38 to R47, R66, 08 R245), the keep-alive machinery of the power die
(01 R25, R26) and the sanity checks (01 R35). -/

namespace Sys2Proof.Machine
open Sys2Proof

/-! ### Power-on reset (17 R491, R503) -/

/-- The device while POR holds the power die and the control die: the flash as the collapse leaves it, the Score as it
is; every other state takes its power-up value. -/
def Dev.held (d : Dev) : Dev :=
  let d1 := d.rawCollapse
  let now := d1.now
  { Dev.reset with
    headPin := d1.headPin
    found := d1.found
    time := { TimeBase.reset with now := now, measureAt := now }
    ctl := { Control.reset with por := true, bootAt := now }
    port := { HostPort.reset with vioValid := d1.port.vioValid, reopenAt := d1.port.reopenAt }
    voices := .fill 48 { Voice.reset with idleSince := now, therm := { VoiceThermal.reset with restSince := some now, anchoredAt := now } }
    lh := .fill 8 { LhInput.reset with since := now, rawAt := now }
    nv := d1.nv.restarted now false
    score := d1.score }

/-- POR_ASSERT (17 R491, R503): the supply of VCORE has collapsed. -/
def execPorAssert (dt : Nat) (s : State) : Host.Outcome State Fault Refusal :=
  s.run dt fun d => if d.ctl.por then d else d.held

/-- POWER_ON_RESET (02 R38): t0, with the banks that have VBAT, each in crank hold until it has held 6.3 V for 1 ms
(17 R507). -/
def execPowerOnReset (dt : Nat) (banks : Tab Bool 4) (s : State) : Host.Outcome State Fault Refusal :=
  s.run dt fun d =>
    if d.ctl.por || d.ctl.mode = .starting then
      let d1 := if d.ctl.por then d else d.held
      let now := d1.now
      { d1 with
        time := { d1.time with tbc := 0, k := 0, phase := .first, measureAt := now }
        ctl := { d1.ctl with por := false, bootAt := now, scoreSilent := !d1.score.powered }
        odo := .atStart d1.score.powered
        link := { ScoreLink.reset with publishedAt := now }
        banks := banks.map fun b => { Bank.reset with present := b }
        tally := Tab.ofFn fun i => { TallyInput.reset with
          level := d1.score.levels.get i, levelSince := if d1.score.powered then some now else none }
        score := { d1.score with powerFail := false } }
    else d

/-! ### The end of control boot -/

/-- START takes sequence 0 of the log (05 R141, 02 R47): what was logged earlier in the boot follows it. -/
def Dev.startEvent (d : Dev) : Dev :=
  let n := d.log.events.length
  let e : Event :=
    { seq := d.log.nextSeq - BitVec.ofNat 32 n, tbc := d.time.tbc, code := 0x0001, unit := 0xFF, acked := false
      fallbackTb := d.time.onFallback
      data := data8 [b8 d.ctl.startCause, b8 (boolNat d.ctl.unsaved), if d.score.variant = Variant.m then 0x4D else 0x53] }
  let later := d.log.events.map fun x => { x with seq := x.seq + 1 }
  let l : EventLog :=
    { events := (e :: later).drop (n - 255), nextSeq := d.log.nextSeq + 1
      lost := if 256 ≤ n then stick 16 (d.log.lost + 1) else d.log.lost }
  ({ d with log := l }.setCtl fun c => { c with started := true }).raiseIrq

/-- The zones take their first readings, and the model starts from them (13 R355, R359). -/
def Dev.firstReadings (d : Dev) (zones : Tab Int 8) : Dev :=
  let temp (z : ZoneId) : Rat := (zones.get z : Rat) / 10
  { d with
    therm := { d.therm with zones := d.therm.zones.mapIdx fun z x => { x with reading := zones.get z, temp := temp z } }
    voices := d.voices.mapIdx fun v x => { x with therm := { x.therm with tj := temp (zoneOf v), tl := temp (zoneOf v) } } }

/-- Control boot ends: the marker decision of 14 R406, START, and what only the boot can tell. -/
def Dev.bootEnd (d : Dev) : Dev :=
  let d1 := { d with chain := { d.chain with head := d.headPin } }
  ((d1.bootMarker d1.ctl.fromPor).startEvent).tellRefAbsent

/-- Keep-alive recoveries of the last 10 s (01 R26). -/
def Dev.recoveries (d : Dev) : List Nat := d.ka.recoveries.filter fun t => d.now ≤ t + 10000 * msec

/-- A cappella is live (02 R39, R41): CUTA to CUTD conduct, debouncing starts, the engines run. -/
def Dev.goLive (d : Dev) : Dev :=
  let d1 := d.setCtl fun c => { c with mode := .acappella, liveAt := some d.now }
  let d2 := { d1 with
    banks := d1.banks.map fun b => { b with conducting := true }
    lh := .fill 8 { LhInput.reset with since := d1.now, rawAt := d1.now } }
  d2.engineStart.coldCheck

/-- CONTROL_BOOT_DONE (02 R39, 08 R245, 01 R26): A CAPPELLA, or HALTED with a zone at or above 160 °C or after three
keep-alive recoveries within 10 s. Control boot needs the restart line released and the fallback time base; it samples
HEAD (19 R541). -/
def execControlBootDone (dt : Nat) (boot : BootFinds) (s : State) : Host.Outcome State Fault Refusal :=
  s.run dt fun d =>
    if d.ctl.mode = .starting && !d.ctl.por && d.time.fallbackOk && d.ctl.bootAt ≤ d.now then
      let d1 := ({ d with headPin := boot.head }.firstReadings boot.zones).bootEnd
      if 3 ≤ d1.recoveries.length then d1.enterHalted 6 5 false
      else if boot.zones.any (fun z => decide (1600 ≤ z)) then d1.enterHalted 4 0 false
      else d1.goLive
    else d

/-- BOOT_TIMEOUT (02 R40): control boot has not completed 10 ms after t0. -/
def execBootTimeout (dt : Nat) (cause : BootFailure) (s : State) : Host.Outcome State Fault Refusal :=
  s.run dt fun d =>
    if d.ctl.mode = .starting && !d.ctl.por && d.ctl.bootAt + 10 * msec ≤ d.now then
      d.bootEnd.enterHalted (match cause with
        | .romCrc => 1
        | .otpTrims => 2
        | .powerDieSilent => 3) 0 false
    else d

/-- RSTN (02 R66, 19 R539): low for `low` slots, which hold the control die in restart; control boot begins when it
rises. -/
def execRstn (rst : RstnPulse) (s : State) : Host.Outcome State Fault Refusal :=
  s.run rst.dt fun d => if d.ctl.por then d else d.restart 1 (8 * rst.low)

/-! ### Keep-alive (01 R25, R26) -/

/-- BOOT_DONE of a keep-alive frame: set from a cappella live onward, and not in HALTED (01 R26). -/
def Dev.bootDone (d : Dev) : Bool := d.ctl.liveAt.isSome && d.ctl.mode ≠ .halted && d.ctl.mode ≠ .starting

/-- KEEP_ALIVE_FRAME (01 R19, R25, R26, R35): every 10 µs; the third wrong echo in a row halts, and ends a control boot in
HALTED. The first frame of a control boot that RSTN or SOFT_RESET caused clears the recovery count, and a frame with
BOOT_DONE ends the hold of a keep-alive loss, once the restart has followed its last turn-off. -/
def execKeepAliveFrame (dt : Nat) (echoSame : Bool) (s : State) : Host.Outcome State Fault Refusal :=
  s.run dt fun d =>
    if d.ctl.por || d.now < d.ctl.bootAt || d.ka.lastFrame.any (fun t => d.now < t + 10 * usec) then d
    else
      let cleared := !d.ka.firstFrame && (d.ctl.startCause = 1 || d.ctl.startCause = 2)
      let bad := if echoSame then 0 else d.ka.badEchoes + 1
      let d1 := { d with ka := { d.ka with
        badEchoes := bad, firstFrame := true, releasedAt := none, lastFrame := some d.now, held := d.ka.held && !(d.bootDone && !d.dropping)
        recoveries := if cleared then [] else d.ka.recoveries } }
      if 3 ≤ bad then (if d1.ctl.started then d1 else d1.bootEnd).enterHalted 6 4 false else d1

/-- KEEP_ALIVE_LOSS (01 R25, R26): no frame for 100 µs, ten frames. The power die turns the driven voices off 1 µs apart
and holds every voice off; the restart follows the last of them. A HALTED control die keeps sending frames (01 R26). -/
def execKeepAliveLoss (dt : Nat) (s : State) : Host.Outcome State Fault Refusal :=
  s.run dt fun d =>
    let due := match d.ka.lastFrame, d.ctl.liveAt with
      | some t, _ => t + 100 * usec ≤ d.now
      | none, some t => t + 100 * usec ≤ d.now
      | none, none => false
    if d.ctl.por || !due || d.ctl.mode = .halted || d.dropping then d
    else
      let vs := (idx 48).filter fun v => (d.voice v).driven
      let d1 := { d with ka := { d.ka with held := true } }.stagger .keepAlive vs
      if d1.dropping then d1 else d1.recover

/-- KEEP_ALIVE_REASSERT (01 R26): no frame within 10 ms of the release of the restart line. -/
def execKeepAliveReassert (dt : Nat) (s : State) : Host.Outcome State Fault Refusal :=
  s.run dt fun d => match d.ka.releasedAt with
    | some t => if !d.ctl.por && !d.ka.firstFrame && d.ctl.mode ≠ .halted && t + 10 * msec ≤ d.now then d.recover else d
    | none => d

/-! ### Sanity checks (01 R35) -/

/-- ROM_CRC_CHECK (01 R35 detail 1); at control boot the same failure is BOOT_TIMEOUT's (02 R40). -/
def execRomCrcCheck (dt : Nat) (crc : Word) (s : State) : Host.Outcome State Fault Refusal :=
  s.run dt fun d => if d.ctl.started && crc ≠ Config.romCrc then d.enterHalted 6 1 false else d

/-- PATCH_CRC_CHECK (01 R35 detail 2). -/
def execPatchCrcCheck (dt : Nat) (crc : Word) (s : State) : Host.Outcome State Fault Refusal :=
  s.run dt fun d => if d.patch.st = .active && crc ≠ d.patch.crc then d.enterHalted 6 2 false else d

/-- SRAM_SCRUB (01 R35 detail 3): corrected words are counted; an uncorrectable one halts, or ends a control boot in
HALTED. -/
def execSramScrub (dt corrected : Nat) (uncorrectable : Bool) (s : State) : Host.Outcome State Fault Refusal :=
  s.run dt fun d =>
    if d.ctl.por then d
    else
      let d1 := d.setCtl fun c => { c with eccCorrected := stick 16 (c.eccCorrected + corrected) }
      if uncorrectable then (if d1.ctl.started then d1 else d1.bootEnd).enterHalted 6 3 false else d1

end Sys2Proof.Machine
end

