-- ==== Sys2Proof/Machine/Signature.lean ====
section
/-! DEFINITION. The signature of a patch (05 R165): SHA-256, and the verification of ECDSA on curve P-256. The spec names
the two standards; their constants and steps are those of FIPS 180-4 and FIPS 186 (PRESUMED, log entry 143). -/

namespace Sys2Proof.Machine
open Sys2Proof

/-! ### SHA-256

The hash runs on two histories of words, newest first: of the words FIPS 180-4 calls a to d, and of those it calls e to h.
One step makes the next word of each. Its constants are the first 32 bits of the fractional parts of roots of primes. -/

/-- The primes below 312: the first 64. -/
def shaPrimes : List Nat := (List.range 312).filter fun n => 2 ≤ n && (List.range 18).all fun k => k < 2 || n ≤ k || n % k != 0

/-- The greatest number below 2^40 whose `e`-th power is at most `n`, bit by bit from above. -/
def rootOf (e n : Nat) : Nat := (List.range 40).foldr (fun i r => if (r + 2 ^ i) ^ e ≤ n then r + 2 ^ i else r) 0

/-- The first 32 bits of the fractional part of the `e`-th root of `p`. -/
def rootFraction (e p : Nat) : Word := BitVec.ofNat 32 (rootOf e (p * 2 ^ (32 * e)))

/-- The exclusive or of a word rotated right by each of `rs`. -/
def turned (rs : List Nat) (x : Word) : Word := rs.foldl (fun y n => y ^^^ x.rotateRight n) 0

/-- The integer that bytes spell, most significant byte first. -/
def beNat (l : List Byte) : Nat := l.foldl (fun n b => 256 * n + b.toNat) 0

/-- The words of bytes, most significant byte first. -/
def beWords (l : List Byte) : List Word := (chunks 4 l.length l).map fun w => BitVec.ofNat 32 (beNat w)

/-- The message with its padding: a one, zeros, and its length in bits. -/
def shaPad (m : List Byte) : List Byte :=
  let n := m.length
  m ++ [0x80] ++ List.replicate ((119 - n % 64) % 64) 0 ++ (leBytes 8 (8 * n)).reverse

/-- The hash under way in a block: the 16 words of the message schedule that come next, and the two histories. -/
structure ShaRun where
  next : List Word
  upper : List Word
  lower : List Word
deriving DecidableEq, Repr

/-- Word `i` of a list. -/
def wordAt (l : List Word) (i : Nat) : Word := l.getD i 0

/-- One step with its constant `k`. -/
def ShaRun.step (x : ShaRun) (k : Word) : ShaRun :=
  let u := wordAt x.upper
  let v := wordAt x.lower
  let w := wordAt x.next
  let mix := k + w 0 + v 3 + turned [6, 11, 25] (v 0) + (v 2 ^^^ (v 0 &&& (v 1 ^^^ v 2)))
  let later := w 0 + w 9 + (turned [7, 18] (w 1) ^^^ (w 1 >>> 3)) + (turned [17, 19] (w 14) ^^^ (w 14 >>> 10))
  { next := x.next.drop 1 ++ [later]
    upper := (mix + turned [2, 13, 22] (u 0) + ((u 0 &&& u 1) ||| (u 2 &&& (u 0 ||| u 1)))) :: x.upper.take 3
    lower := (u 3 + mix) :: x.lower.take 3 }

/-- A block of 64 bytes goes into the eight words of the hash. -/
def shaBlock (s : List Word) (block : List Byte) : List Word :=
  let r := (shaPrimes.map (rootFraction 3)).foldl ShaRun.step { next := beWords block, upper := s.take 4, lower := s.drop 4 }
  s.zipWith (· + ·) (r.upper ++ r.lower)

/-- The SHA-256 digest of a message, as an integer. -/
def sha256 (m : List Byte) : Nat :=
  let p := shaPad m
  ((chunks 64 p.length p).foldl shaBlock ((shaPrimes.take 8).map (rootFraction 2))).foldl (fun n w => 2 ^ 32 * n + w.toNat) 0

/-! ### Curve P-256 -/

/-- The field prime, the coefficient b, the order of the base point, and the base point. -/
def p256P : Nat := 0xFFFFFFFF00000001000000000000000000000000FFFFFFFFFFFFFFFFFFFFFFFF
def p256B : Nat := 0x5AC635D8AA3A93E7B3EBBD55769886BC651D06B0CC53B0F63BCE3C3E27D2604B
def p256N : Nat := 0xFFFFFFFF00000000FFFFFFFFFFFFFFFFBCE6FAADA7179E84F3B9CAC2FC632551
def p256G : Nat × Nat :=
  (0x6B17D1F2E12C4247F8BCE6E563A440F277037D812DEB33A0F4A13945D898C296,
   0x4FE342E2FE1A7F9B8EE7EB4A7C0F9E162BCE33576B315ECECBB6406837BF51F5)

/-- `x` to the power `e` modulo `m`, for an exponent below 2^256. -/
def powMod (x e m : Nat) : Nat :=
  (List.range 256).foldr (fun i r => if e.testBit i then r * r % m * x % m else r * r % m) 1

/-- The inverse modulo a prime. -/
def invMod (x m : Nat) : Nat := powMod x (m - 2) m

/-- The sum of two points; none is the point at infinity. -/
def p256Add (u v : Option (Nat × Nat)) : Option (Nat × Nat) :=
  let join (l : Nat) (x1 y1 x2 : Nat) : Option (Nat × Nat) :=
    let x3 := (l * l + 2 * p256P - x1 - x2) % p256P
    some (x3, (l * (x1 + p256P - x3) + p256P - y1) % p256P)
  match u, v with
  | none, _ => v
  | _, none => u
  | some (x1, y1), some (x2, y2) =>
    if x1 = x2 then
      if (y1 + y2) % p256P = 0 then none
      else join ((3 * x1 * x1 + p256P - 3) % p256P * invMod (2 * y1) p256P % p256P) x1 y1 x2
    else join ((y2 + p256P - y1) % p256P * invMod (x2 + p256P - x1) p256P % p256P) x1 y1 x2

/-- A multiple of a point, below 2^256. -/
def p256Mul (k : Nat) (u : Option (Nat × Nat)) : Option (Nat × Nat) :=
  (List.range 256).foldr (fun i r => let d := p256Add r r; if k.testBit i then p256Add d u else d) none

/-- A key is a point of the curve. -/
def onCurve (q : Nat × Nat) : Bool :=
  q.1 < p256P && q.2 < p256P && q.2 * q.2 % p256P = (q.1 * q.1 * q.1 + (p256P - 3) * q.1 + p256B) % p256P

/-- ECDSA verification of a digest under a public key (05 R165). -/
def ecdsaVerify (key : Nat × Nat) (digest r s : Nat) : Bool :=
  if r = 0 || p256N ≤ r || s = 0 || p256N ≤ s || !onCurve key then false
  else
    let w := invMod s p256N
    match p256Add (p256Mul (digest * w % p256N) (some p256G)) (p256Mul (r * w % p256N) (some key)) with
    | some q => q.1 % p256N = r
    | none => false

/-- The verdict over BEGIN bytes 4 to 15, the image, and SIG_R and SIG_S, each big-endian (05 R164, R165). The Jorroren public
key stands in cantor ROM and not in the spec. -/
def patchGood (begin_ image sig : List Byte) : Bool :=
  ecdsaVerify Config.patchKey (sha256 (begin_ ++ image)) (beNat (sig.take 32)) (beNat ((sig.drop 32).take 32))

end Sys2Proof.Machine
end

