-- ==== Sys2Proof/Machine/House.lean ====
section
/-! DEFINITION. The housekeeping, parameter, mode and patch opcodes (05 R137 to R150, R164 to R168). -/

namespace Sys2Proof.Machine
open Sys2Proof

/-! ### Housekeeping (05 R137 to R140) -/

/-- NOP: nothing without DB; with DB the TBC of the downbeat's slot (05 R137). -/
def opNop (db : Bool) (d : Dev) : Answer := ok (if db then leInt 8 d.time.tbc else [])

/-- The device is enumerated on a chain (16 R462). -/
def Dev.enumerated (d : Dev) : Bool := if d.chain.head then d.chain.enumerated else d.chain.addr.isSome

/-- Its chain address; 0 for the precentor and while it is not enumerated (05 R138). -/
def Dev.ownAddr (d : Dev) : Nat := if d.chain.head then 0 else d.chain.addr.getD 0

/-- The variant code (04 R116). -/
def Variant.code : Variant → Nat
  | .m => 0x4D
  | .s => 0x53

/-- HALT_CAUSE and HALT_DETAIL as replies carry them: 0 outside HALTED (05 R138, 21 R549). -/
def Dev.haltCode (d : Dev) : Nat := if d.ctl.mode = .halted then d.ctl.haltCause else 0
def Dev.haltDetailCode (d : Dev) : Nat := if d.haltCode = 6 then d.ctl.haltDetail else 0

/-- IDENTIFY from the snapshot (05 R138). -/
def opIdentify (snap : Dev) : Answer :=
  ok ([b8 snap.score.variant.code, 0x43] ++ leBytes 2 0x0302 ++
    leBytes 2 (if snap.link.publication.isSome then 0x0104 else 0) ++ leBytes 4 snap.patch.running.toNat ++
    leBytes 8 Config.uid.toNat ++
    [b8 snap.ownAddr, b8 (packBits [snap.chain.head, snap.enumerated]), b8 snap.ctl.mode.code, b8 snap.haltCode,
     b8 (match snap.link.publication with
      | some p => boolNat (p.sealSt = Seal.sealed)
      | none => 0), b8 snap.haltDetailCode] ++
    leBytes 4 (imageCrc snap.par.live).toNat ++ leBytes 4 Config.romCrc.toNat)

/-- WD_LEFT in ms, 0 while the watchdog does not run (05 R139). -/
def Dev.wdLeft (d : Dev) : Nat := match d.port.watchdog with
  | some t => sat 16 (report (((t - d.now : Nat) : Rat) / msec))
  | none => 0

/-- The device page (05 R139). -/
def Dev.devicePage (d : Dev) : List Byte :=
  [b8 d.ctl.mode.code, b8 d.haltCode, b8 (boolNat d.time.onFallback),
   b8 (packBits (d.banks.list.map (·.present))), b8 (packBits (d.banks.list.map (·.cut))),
   b8 (packBits (d.lh.list.map (·.level))), b8 (packBits (d.lh.list.map (·.chatter))), b8 d.breathFree] ++
  leBytes 2 d.cues.queue.length ++ leBytes 2 d.cues.nullPulse ++ leBytes 2 d.cues.cueLate ++ leBytes 2 d.log.lost ++
  leBytes 2 d.ctl.lostSessions ++ leBytes 2 d.wdLeft ++ leBytes 2 d.ctl.eccCorrected ++ [0, 0]

/-- A throttle limit acts on the voice: its ceiling is below 8, or its zone bans turn-ons (05 R139, 13 R368). -/
def Dev.throttled (d : Dev) (v : VoiceId) : Bool := d.ceilingOf v < 8 || (d.unitOf v).any d.banned

/-- One entry of the voice page (05 R139). -/
def Dev.voiceEntry (d : Dev) (v : VoiceId) : List Byte :=
  let x := d.voice v
  let waits := match (d.voice (d.headOf v)).wait with
    | some w => w.stage == .deferred
    | none => false
  [b8 x.code, b8 x.fault, b8 x.retry,
   b8 (packBits [(d.banks.get (bankOf v)).cut, x.lead.noMotion, waits, (d.gang v).isSome, x.cold, d.throttled v,
     (d.levelInput v).isSome, x.gate])]

/-- STATUS_DETAIL from the snapshot (05 R139). -/
def opStatusDetail (snap : Dev) (p : List Byte) : Answer :=
  match byteAt p 0 with
  | 0 => ok snap.devicePage
  | 1 => ok ((idx 48).flatMap snap.voiceEntry)
  | _ => fail stBadParam []

/-- SOFT_RESET at its commit edge (05 R140): the reply goes with the queue. -/
def opSoftReset (p : List Byte) (d : Dev) : Dev × Option Answer :=
  if field p 0 2 = 0xA55A then (d.restart 2 0, none) else (d, some (fail stBadParam []))

/-! ### The event log (05 R141 to R145) -/

/-- An event record (05 R142). -/
def Event.bytes (e : Event) : List Byte :=
  leBytes 4 e.seq.toNat ++ leInt 8 e.tbc ++ leBytes 2 e.code ++
  [b8 e.unit, b8 (boolNat e.acked * 128 + boolNat e.fallbackTb * 64)] ++ e.data

/-- Sequence number of the newest event. -/
def EventLog.newest (l : EventLog) : Word := l.nextSeq - 1
/-- Sequence number of the oldest held event; newest + 1 while the log is empty (05 R144). -/
def EventLog.oldest (l : EventLog) : Word := (l.events.head?.map (·.seq)).getD l.nextSeq

/-- EVENT_READ from the snapshot (05 R144). -/
def opEventRead (snap : Dev) (p : List Byte) : Answer :=
  let n := byteAt p 4
  if n < 1 || 64 < n then fail stBadParam []
  else
    let l := snap.log
    let from_ : Word := BitVec.ofNat 32 (field p 0 4)
    let got := (l.events.filter fun e => atOrBefore from_ e.seq).take n
    ok (leBytes 4 l.oldest.toNat ++ leBytes 4 l.newest.toNat ++ leBytes 2 l.lost ++ [b8 got.length, 0] ++ got.flatMap Event.bytes)

/-- EVENT_ACK at its commit edge (05 R145). -/
def opEventAck (p : List Byte) (d : Dev) : Dev × Answer :=
  let upto : Word := BitVec.ofNat 32 (field p 0 4)
  if !atOrBefore upto d.log.newest then (d, fail stBadParam [])
  else
    let hit (e : Event) : Bool := atOrBefore e.seq upto
    let now := (d.log.events.filter fun e => hit e && !e.acked).length
    let l : EventLog := { d.log with events := d.log.events.map fun e => if hit e then { e with acked := true } else e }
    let first := ((l.events.find? fun e => !e.acked).map (·.seq)).getD l.nextSeq
    ({ d with log := l }, ok (leBytes 2 now ++ leBytes 4 first.toNat))

/-! ### Parameters (05 R146 to R148) -/

/-- The failure DATA of a parameter write: ID and BIT (05 R146). -/
def entryFail (e : Nat × Nat) : Answer := fail stBadParam (leBytes 2 e.1 ++ [b8 e.2])

/-- PARAM_WRITE at its commit edge (04 R104). -/
def opParamWrite (p : List Byte) (d : Dev) : Dev × Answer :=
  let es := paramEntries p
  match firstBadEntry .image es with
  | some e => (d, entryFail e)
  | none => ({ d with par := { d.par with shadow := writeWords d.par.shadow es } }, ok [])

/-- A write of a voice's LEAD word discards its measurements (10 R291). -/
def Dev.clearLead (d : Dev) (v : VoiceId) : Dev :=
  d.modVoice v fun x => { x with lead := { Lead.reset with search := x.lead.search } }

/-- PARAM_WRITE_LIVE at its commit edge or downbeat (04 R105). -/
def opParamWriteLive (p : List Byte) (d : Dev) : Dev × Answer :=
  let es := paramEntries p
  match firstBadEntry .live es with
  | some e => (d, entryFail e)
  | none =>
    let d1 : Dev := { d with par := { d.par with live := writeWords d.par.live es } }
    let leads := (idx 48).filter fun v => es.any fun e => e.1 = voiceWord v 0x13
    ((d1.holdCorr d).forVoices leads Dev.clearLead, ok [])

/-- The value of a word that PARAM_READ returns: the live or the shadow copy of an IMAGE word, the one copy of the others
(04 R107, R116). -/
def Dev.readWord (d : Dev) (live : Bool) (id : Nat) : Option Word :=
  (wordClass id).map fun
    | .image => wordGet (if live then d.par.live else d.par.shadow) id
    | .live => wordGet d.par.live id
    | .ro =>
      if id = 0x80 then BitVec.ofNat 32 (0x4300 + d.score.variant.code)
      else if id = 0x81 then 0x01040302
      else d.patch.running

/-- The IDs of a list-form PARAM_READ. -/
def readIds : List Byte → List Nat
  | a :: b :: rest => leNat [a, b] :: readIds rest
  | _ => []

/-- A word in a PARAM_READ reply. -/
def wordBytes (e : Nat × Word) : List Byte := leBytes 2 e.1 ++ leBytes 4 e.2.toNat

/-- PARAM_READ from the snapshot (05 R147). -/
def opParamRead (snap : Dev) (p : List Byte) : Answer :=
  let sel := byteAt p 0
  let live := sel.testBit 0
  let get (id : Nat) : Option (Nat × Word) := (snap.readWord live id).map fun w => (id, w)
  if sel.testBit 1 then
    let first := field p 2 2
    let span := field p 4 2
    if span = 0 || 65536 < first + span then fail stBadParam []
    else
      let all := (assignedIds.filter fun id => first ≤ id && id < first + span).filterMap get
      ok ([b8 sel, b8 (boolNat (1359 < all.length))] ++ (all.take 1359).flatMap wordBytes)
  else
    let ids := readIds (p.drop 2)
    match ids.find? fun id => (wordClass id).isNone with
    | some id => entryFail (id, 0xFE)
    | none => ok ([b8 sel, 0] ++ (ids.filterMap get).flatMap wordBytes)

/-- IMAGE_CHECK at its commit edge (05 R148, 04 R128). -/
def opImageCheck (d : Dev) : Answer :=
  ok (leBytes 4 (imageCrc d.par.shadow).toNat ++ leBytes 2 (imageDiff d.par.shadow d.par.live) ++ leBytes 2 (imageDiff d.par.shadow []))

/-! ### CONDUCT (02 R60 to R62, 05 R149) -/

/-- The failure of the table "CONDUCT checks" that remains after the mode and the chain: checks 3 to 5. -/
def Dev.conductFailure (d : Dev) (crc : Word) : Option Answer :=
  match firstDependent d.par.shadow with
  | some id => some (fail stBadParam (3 :: leBytes 2 id))
  | none =>
    if imageCrc d.par.shadow ≠ crc then some (fail stBadParam (4 :: leBytes 4 (imageCrc d.par.shadow).toNat))
    else match firstConflict d.par.shadow with
    | some (r, a, b) => some (fail stConflict ([5, b8 r] ++ leBytes 2 a ++ leBytes 2 b))
    | none => none

/-- CONDUCT at its commit point (02 R60 to R62); a patch load in LOADING is abandoned (05 R166). -/
def opConduct (p : List Byte) (d : Dev) : Dev × Answer :=
  match d.conductFailure (BitVec.ofNat 32 (field p 0 4)) with
  | some a => (d, a)
  | none =>
    let d1 := d.conduct
    let d2 := if d1.patch.st = .loading then { d1 with patch := { d1.patch with st := .abandoned } } else d1
    (d2, ok (leInt 8 d2.time.tbc))

/-! ### The cantor patch (05 R164 to R168) -/

def Dev.setPatch (d : Dev) (f : Patch → Patch) : Dev := { d with patch := f d.patch }

/-- PATCH_LOAD is closed: after the first successful CONDUCT, or with a patch ACTIVE (05 R167). -/
def Dev.patchClosed (d : Dev) : Bool := d.ctl.conducted || d.patch.st = .active

/-- BEGIN (05 R166, R167). -/
def patchBegin (p : List Byte) (d : Dev) : Dev × Answer :=
  let length := field p 4 4
  let version := field p 8 4
  if length < 8 || 65536 < length || length % 8 != 0 || version = 0 || field p 12 2 != 0x0302 || field p 14 1 != 0x43 then
    (d, fail stBadParam [])
  else
    (d.setPatch fun x => { x with
      st := .loading, begin_ := (p.drop 4).take 12, image := [], length := length, version := BitVec.ofNat 32 version }, ok [])

/-- DATA (05 R166, R167). -/
def patchData (p : List Byte) (d : Dev) : Dev × Answer :=
  let bytes := p.drop 8
  if d.patch.st ≠ .loading then (d, fail stWrongMode [])
  else if field p 4 4 ≠ d.patch.image.length || d.patch.length < d.patch.image.length + bytes.length then (d, fail stBadParam [])
  else (d.setPatch fun x => { x with image := x.image ++ bytes }, ok [])

/-- END (05 R165 to R167): a good signature activates the patch; a bad one discards the bytes. -/
def patchEnd (p : List Byte) (d : Dev) : Dev × Answer :=
  let x := d.patch
  if x.st ≠ .loading then (d, fail stWrongMode [])
  else if x.image.length < x.length then (d, fail stBadParam [])
  else if patchGood x.begin_ x.image (p.drop 4) then
    let d1 := d.setPatch fun x => { x with st := .active, running := x.version, crc := crc32 x.image }
    (d1.event 0x0008 0xFF (leBytes 4 x.version.toNat), ok [])
  else (d.setPatch fun x => { x with st := .rejected, image := [] }, fail stSignature [])

/-- ABORT (05 R164): a load in LOADING is abandoned. Outside LOADING the spec gives no status and no effect; OK, and nothing
changes: DESIGN CHOICE, log entry 191. -/
def patchAbort (d : Dev) : Dev × Answer :=
  (d.setPatch fun x => if x.st = .loading then { x with st := .abandoned, image := [] } else x, ok [])

/-- PATCH_LOAD at its commit edge (05 R164 to R167). -/
def opPatchLoad (p : List Byte) (d : Dev) : Dev × Answer :=
  if d.patchClosed then (d, fail stWrongMode [])
  else match byteAt p 0 with
  | 0 => patchBegin p d
  | 1 => patchData p d
  | 2 => patchEnd p d
  | 3 => patchAbort d
  | _ => (d, fail stBadParam [])

/-- The codes of the patch states (05 R168). -/
def PatchState.code : PatchState → Byte
  | .none => 0
  | .loading => 1
  | .active => 2
  | .rejected => 3
  | .abandoned => 4

/-- PATCH_STATUS from the snapshot (05 R168). -/
def opPatchStatus (snap : Dev) : Answer :=
  let x := snap.patch
  ok ([PatchState.code x.st, x.last, 0, 0] ++ leBytes 4 x.image.length ++ leBytes 4 x.length ++ leBytes 4 x.version.toNat ++
    leBytes 4 (crc32 x.image).toNat)

end Sys2Proof.Machine
end

