-- ==== Sys2Proof/Machine/ChainOps.lean ====
section
/-! DEFINITION. The chain opcodes, and what the chain does to packets: the forwarding buffer, the packets outstanding,
the break (16 R466, R471, R475, R481, R482, R489, 03 R90). -/

namespace Sys2Proof.Machine
open Sys2Proof

def Dev.setChain (d : Dev) (f : Chain → Chain) : Dev := { d with chain := f d.chain }

/-- Port A and port B as numbers. -/
def portNo : AkPort → Fin 2
  | .a => 0
  | .b => 1

/-- LINK_TIMEOUT and T_ACAP in ticks (04 R124). -/
def Dev.linkTime (d : Dev) : Nat := d.fld 0x5800 0 16 * msec
def Dev.acapTime (d : Dev) : Nat := d.fld 0x5800 16 16 * 100 * msec

/-! ### Forwarding (16 R471) -/

/-- The chain bytes that wait (16 R489). -/
def Chain.backlog (c : Chain) : Nat := (c.forward.map fun b => b.bytes.length).foldl (· + ·) 0

/-- A bar's entry in the forwarding buffer begins at its commit edge, on an enumerated precentor. -/
def Dev.openBar (d : Dev) (barNo : Nat) : Dev :=
  let n := d.port.serial + 1
  let d1 : Dev := { d with port := { d.port with serial := n } }
  if d.chain.head && d.chain.enumerated then
    d1.setChain fun c => { c with forward := c.forward ++ [{ bytes := [], barNo := barNo, serial := n, db := false }] }
  else d1

/-- The newest bar's entry changed by `f`. -/
def Dev.modBar (d : Dev) (f : FwdBar → FwdBar) : Dev :=
  d.setChain fun c => match c.forward.reverse with
    | b :: rest => { c with forward := (f b :: rest).reverse }
    | [] => c

/-- The bytes of a packet (03 R84). -/
def Packet.bytes (p : Packet) : List Byte :=
  withCrc ([p.dest, p.opc, p.tag] ++ leBytes 2 p.params.length ++ p.params)

/-- ADDR and DB of a packet (03 R84). -/
def Packet.addr (p : Packet) : Nat := p.dest.toNat % 128
def Packet.db (p : Packet) : Bool := p.dest.toNat.testBit 7

/-- The forwarding buffer has room for the packet (16 R471). -/
def Dev.forwardFits (d : Dev) (p : Packet) : Bool := d.chain.backlog + p.params.length + 7 ≤ 16384

/-- A packet joins the forwarding buffer; one to a single device is kept as outstanding, up to 512 (16 R471, R475). -/
def Dev.forward (d : Dev) (p : Packet) : Dev :=
  let d1 := d.modBar fun b => { b with bytes := b.bytes ++ p.bytes, db := b.db || p.db }
  let barNo := ((d1.chain.forward.getLast?).map (·.barNo)).getD 0
  if p.addr = 0x7F then d1
  else d1.setChain fun c =>
    if 512 ≤ c.outstanding.length then c
    else { c with outstanding := c.outstanding ++ [{ addr := p.addr, opc := p.opc, tag := p.tag, serial := d1.port.serial, barNo := barNo, counted := false }] }

/-- The address names a device of the chain that can be reached (03 R85, 16 R485). -/
def Dev.canReach (d : Dev) (a : Nat) : Bool :=
  d.chain.head && d.chain.enumerated && 1 ≤ a && a ≤ d.chain.count && !d.chain.unreachable.contains a

/-! ### Breaks (03 R90, 16 R485, R486) -/

/-- The answer of a packet enters the host's queue as the reply of device `src`, or goes upstream for a packet of the
chain; `news` tells that it comes other than at a commit edge (03 R91, R95, 16 R474). -/
def Dev.answer (d : Dev) (news viaChain : Bool) (src : Nat) (p : Packet) (a : Answer) : Dev :=
  let r : Reply := { src := if viaChain then d.ownAddr else src, opc := p.opc, tag := p.tag, status := a.status,
                     data := a.data, settle := a.settle }
  if viaChain then d.setChain fun c => { c with replies := c.replies ++ [r] }
  else if news then d.replyNews r else d.reply r

/-- The device declares its chain broken: every pending DB packet is discarded, with UNREACHABLE as its final reply
(03 R90). -/
def Dev.dropPending (d : Dev) : Dev :=
  d.port.pendingDb.foldl (fun (d : Dev) q => d.answer true q.viaChain 0 q.packet (fail stUnreachable []))
    { d with port := { d.port with pendingDb := [] } }

/-- The precentor's CHAIN_BREAK condition (16 R485). -/
def Chain.breaks (c : Chain) : Bool := !c.unreachable.isEmpty || c.ring = .split

/-- Something heard at `t` counts as heard: within the last LINK_TIMEOUT (16 R485). -/
def Dev.fresh (d : Dev) (t : Nat) : Bool := decide (d.now ≤ t + d.linkTime)

/-- LAST_FWD: the last address reachable through port B (16 R489). A side that has not been heard within LINK_TIMEOUT
reaches nobody: DEDUCED, log entry 189. -/
def Dev.lastFwd (d : Dev) : Nat := if d.fresh d.chain.reachBAt && (d.chain.head || !d.chain.turned) then d.chain.reachB else 0

/-- FIRST_REV: the first address reachable through port A; none if there is none (16 R489): on the precentor while it
transmits there, on a chain device while it is turned round. -/
def Dev.firstRev (d : Dev) : Option Nat :=
  let c := d.chain
  if c.head then (if c.sendA && d.fresh c.reachAAt then c.reachA.filter (· ≠ 0) else none)
  else if c.turned && d.fresh c.reachBAt && c.reachB ≠ 0 then some c.reachB
  else none

/-- CHAIN_BREAK and CHAIN_RESTORED are logged as the condition changes (16 R485, R490). -/
def Dev.followBreak (d : Dev) : Dev :=
  let c := d.chain
  if c.breaks && !c.broken then
    let first : Byte := match c.unreachable with
      | [] => Config.chainByte 0 d.now
      | a :: rest => b8 (rest.foldl min a)
    (d.setChain fun c => { c with broken := true }).event 0x0902 (if c.unreachable.isEmpty then d.lastFwd else (c.unreachable.foldl min 63) - 1) [first]
  else if !c.breaks && c.broken then (d.setChain fun c => { c with broken := false }).event 0x0903 0xFF []
  else d

/-! ### The opcodes -/

/-- CHAIN_ENUMERATE at its commit edge (16 R466). -/
def opEnumerate (p : List Byte) (d : Dev) : Dev × Answer :=
  let expect_ := byteAt p 0
  if !d.chain.head then (d, fail stWrongMode [])
  else if 62 < expect_ && expect_ ≠ 255 then (d, fail stBadParam [])
  else if !d.port.pendingDb.isEmpty || d.chain.backlog != 0 || d.chain.enumLeft.isSome then (d, fail stBusy [])
  else (d.setChain fun c => { c with enumLeft := some 32, enumEndAt := d.now + 33 * 30720, expect_ := expect_ }, ok [b8 d.chain.count])

/-- The codes of the ring states (16 R482). -/
def RingState.code : RingState → Byte
  | .open_ => 0
  | .closed => 1
  | .split => 2
  | .closing => 3

/-- The ring is armed (16 R482). -/
def RingState.armed (r : RingState) : Bool := r != .open_

/-- CHAIN_RING at its commit edge (16 R482): after RESTORE the armed ring expects its frames on port A again. -/
def opChainRing (p : List Byte) (d : Dev) : Dev × Answer :=
  let was := ok [d.chain.ring.code]
  if !d.chain.head then (d, fail stWrongMode [])
  else match byteAt p 0 with
  | 0 => ((d.setChain fun c => { c with ring := .open_, sendA := false }).followBreak, was)
  | 1 =>
    if !d.chain.enumerated then (d, fail stWrongMode [])
    else (d.setChain fun c => if c.ring = .open_ then
      { c with ring := .closing, closingAt := d.now, returned := 0, backHop := none, ports := c.ports.modify 0 fun x => { x with missRun := 0, heard := false, goodRun := 0 } } else c, was)
  | 2 =>
    if !d.chain.enumerated then (d, fail stWrongMode [])
    else ((d.setChain fun c => if c.ring = .split then
      { c with ring := .closed, sendA := false, reachA := none, ports := c.ports.modify 0 fun x => { x with missRun := 0, heard := false, goodRun := 0 } }
      else c).followBreak, was)
  | _ => (d, fail stBadParam [])

/-- The entries of BREATH_CTRL (16 R481). -/
def poolEntries : List Byte → List (Nat × Nat)
  | a :: b :: rest => (a.toNat, b.toNat) :: poolEntries rest
  | _ => []

/-- BREATH_CTRL at its commit edge or downbeat (16 R481): a chain device refuses it. -/
def opBreathCtrl (p : List Byte) (d : Dev) : Dev × Answer :=
  let es := poolEntries p
  if !d.chain.head && d.chain.addr.isSome then (d, fail stWrongMode [])
  else if es.any fun e => e.1 = 0 || 15 < e.1 || e.2 = 0 then (d, fail stBadParam [])
  else
    let put (t : Tab Pool 15) (e : Nat × Nat) : Tab Pool 15 :=
      if h : 1 ≤ e.1 ∧ e.1 ≤ 15 then t.modify ⟨e.1 - 1, by omega⟩ fun x => { x with pool := e.2 } else t
    let d1 := d.setChain fun c => { c with pools := es.foldl put c.pools }
    (d1, ok (d1.chain.pools.list.flatMap fun x => [b8 x.pool, b8 (min x.outstanding 255)]))

/-- HOLD is sent: fewer than 2 KiB of the upstream buffer are free (16 R474). -/
def Chain.holds (c : Chain) : Bool := 16384 < c.upstream.length + c.ownHeld.length + 2048

/-- ROLE (16 R462, R489). -/
def Dev.role (d : Dev) : Nat := if d.chain.head then 1 else if d.chain.addr.isSome then 2 else 0

/-- DEAD_MS (16 R489): 0 on the precentor. -/
def Dev.deadMs (d : Dev) : List Byte :=
  if d.chain.head then [0, 0]
  else match d.chain.lastFrame with
  | some t => leBytes 2 (sat 16 (report (((d.now - t : Nat) : Rat) / msec)))
  | none => [Config.chainByte 1 d.now, Config.chainByte 2 d.now]

/-- One port entry of CHAIN_STATUS (16 R489). -/
def Dev.portEntry (d : Dev) (k : Fin 2) : List Byte :=
  let c := d.chain
  let x := c.ports.get k
  let idle := c.head && k = 0 && c.ring = .open_
  let sends := if c.head then k = 1 || c.sendA else (k = 1) != c.turned
  [if x.retired then 2 else if idle then 3 else b8 (boolNat x.up), if idle then 2 else b8 (boolNat sends)] ++
  leBytes 2 x.crcErr ++ leBytes 2 x.missing ++ leBytes 2 x.delay ++ leBytes 4 x.frames

/-- CHAIN_STATUS (16 R489): the reply from the snapshot; CLEAR acts at the commit edge and leaves the counts of its own slot
(21 R557). -/
def opChainStatus (snap : Dev) (p : List Byte) (d : Dev) : Dev × Answer :=
  let c := snap.chain
  let flags := packBits [false, false, c.holds, c.enumLeft.isSome, c.linkTimeout, c.turned, snap.enumerated, c.broken]
  let data := [b8 snap.role, b8 snap.ownAddr, b8 (if c.head then c.count else 0), c.ring.code, b8 snap.lastFwd,
      (snap.firstRev.map b8).getD 0xFF, b8 flags, 0] ++
    leBytes 2 c.latency ++ leBytes 2 c.barLost ++ leBytes 2 (min c.backlog 65535) ++ leBytes 2 c.upDropped ++
    leBytes 2 c.mseq.toNat ++ snap.deadMs ++ [0, 0, 0, 0] ++ snap.portEntry 0 ++ snap.portEntry 1
  let clear (k : Fin 2) (x : ChainPort) : ChainPort :=
    { x with crcErr := d.sinceSlot (50 + 2 * k.val) x.crcErr, missing := d.sinceSlot (51 + 2 * k.val) x.missing }
  (if (byteAt p 0).testBit 0 then
    d.setChain fun c => { c with
      barLost := d.sinceSlot 48 c.barLost, upDropped := d.sinceSlot 49 c.upDropped, ports := c.ports.mapIdx clear } else d, ok data)

end Sys2Proof.Machine
end

