-- ==== Sys2Proof/Machine/Packet.lean ====
section
/-! DEFINITION. What a packet meets (05 R130): the checks in their order, the opcode's action, its reply, and the commit
edge of a bar. The command of an opcode row is such a packet, alone in its bar. -/

namespace Sys2Proof.Machine
open Sys2Proof

/-! ### The actions (05 R133, check 9 of R130) -/

/-- A Read of the snapshot. -/
def reads (d : Dev) (a : Answer) : Dev × Option Answer := (d, some a)
/-- A Commit or Bulk that answers at once. -/
def acts (r : Dev × Answer) : Dev × Option Answer := (r.1, some r.2)

/-- The opcode's own checks and action; no answer where the Score answers later or the control die restarts. -/
def Dev.perform (snap d : Dev) (p : Packet) (viaChain : Bool) : Dev × Option Answer :=
  let a := p.params
  match p.opc.toNat with
  | 0x00 => reads d (opNop p.db d)
  | 0x01 => reads d (opIdentify snap)
  | 0x02 => reads d (opStatusDetail snap a)
  | 0x03 => reads d (opEventRead snap a)
  | 0x04 => acts (opEventAck a d)
  | 0x06 => opSoftReset a d
  | 0x10 => acts (opParamWrite a d)
  | 0x11 => reads d (opParamRead snap a)
  | 0x12 => reads d (opImageCheck d)
  | 0x13 => acts (opConduct a d)
  | 0x14 => acts (opParamWriteLive a d)
  | 0x15 => acts (opAcappella d)
  | 0x20 => acts (opVoiceSet a d)
  | 0x21 => acts (opVoiceDuty a d)
  | 0x22 => acts (opVoiceClearFault a d)
  | 0x23 => acts (opVoiceRetire a d)
  | 0x24 => acts (opBankCut a d)
  | 0x25 => acts (opPark d)
  | 0x26 => acts (opResume d)
  | 0x30 => acts (opCueAdd a d)
  | 0x31 => acts (opCueCancel a d)
  | 0x32 => if a.length = 2 then acts (opCueStats snap a d) else reads d (opCueQuery snap a)
  | 0x34 =>
    if a.length = 8 then acts (opOdometerRebase a d) else if a.length = 4 then acts (opTallyRead snap a d)
    else reads d (opOdometerRead snap)
  | 0x35 => reads d (opLeadRead snap a)
  | 0x40 => acts (opReadBuffer snap a d)
  | 0x41 => acts (opConvertNow a d)
  | 0x42 => acts (opEngineCtrl a d)
  | 0x43 => reads d (opCalStatus snap a)
  | 0x50 => acts (opWaveCtrl a d)
  | 0x51 => reads d (opWaveStatus snap a)
  | 0x60 => reads d (opThermalRead snap a)
  | 0x61 => acts (opThrottleAck a d)
  | 0x62 => acts (opAnchorBlip a d)
  | 0x70 => reads d (opNvRead a d)
  | 0x71 => acts (opNvProgram a d)
  | 0x72 => acts (opNvErase a d)
  | 0x73 => acts (opNvProtect a d)
  | 0x74 => acts (opRecWrite a d)
  | 0x75 => reads d (opRecRead snap a)
  | 0x76 => acts (opRecDelete a d)
  | 0x77 => reads d (opNvStatus snap)
  | 0x78 => reads d (opMarginRead a d)
  | 0x80 => reads d (opScoreTotals snap a)
  | 0x83 => reads d (opScoreIdent snap)
  | 0x90 => acts (opEnumerate a d)
  | 0x91 => acts (opChainStatus snap a d)
  | 0x92 => acts (opChainRing a d)
  | 0x93 => acts (opBreathCtrl a d)
  | 0xA0 => acts (opSoundcheckRun a d)
  | 0xA1 => reads d (opSoundcheckResult snap a)
  | 0xA2 => reads d (opLifetimeRead snap)
  | 0xF0 => acts (opPatchLoad a d)
  | 0xF1 => reads d (opPatchStatus snap)
  | _ => d.mail snap p viaChain

/-! ### The checks (05 R130) -/

/-- WRONG_MODE; CONDUCT names the check of 02 R60 that failed and the mode (05 R149). A CUE_ADD that the mode or DB refuses
before any entry is checked names none: its DATA is empty. DESIGN CHOICE, log entry 192. -/
def Dev.wrongMode (d : Dev) (opc : Byte) (check : Byte) : Answer :=
  fail stWrongMode (if opc = 0x13 then [check, b8 d.ctl.mode.code] else [])

/-- Check 5: a packet with a reserved bit set fails; a CUE_ADD names the first entry that has one (05 R159). -/
def reservedAnswer (opc : Byte) (p : List Byte) : Option Answer :=
  if opc = 0x30 then
    ((chunks 16 256 p).findIdx? cueReserved).map fun i => fail stBadParam (leBytes 2 i ++ leBytes 2 0xFFFF)
  else if reservedFailure opc p then some (fail stBadParam []) else none

/-- BUSY; to a Score opcode it carries SCORE_BUSY, with UNKNOWN 0 for a packet never passed on (15 R443). -/
def busyFor (opc : Byte) : Answer := if 0x80 ≤ opc.toNat && opc.toNat ≤ 0x85 then scoreBusy false else fail stBusy []

/-- Checks 3 to 6: OPC, LEN, reserved bits and DB, and the limits of DB packets (05 R130, 03 R90). -/
def Dev.precheck (d : Dev) (p : Packet) : Option Answer :=
  match opRow p.opc p.params.length with
  | none => some (fail stUnknown [])
  | some row =>
    if legalOnly p.opc && d.score.variant = Variant.s then some (fail stUnknown [])
    else if !lenOk p.opc p.params then some (fail stBadLength [])
    else match reservedAnswer p.opc p.params with
    | some a => some a
    | none =>
      if p.db && !row.db then some (fail stBadParam [])
      else if p.db && !d.enumerated then some (d.wrongMode p.opc 2)
      else if p.db && 64 ≤ d.port.pendingDb.length then some (busyFor p.opc)
      else none

/-- Check 7: the modes that admit the opcode, while a power-down sequence runs as in PARKED (17 R501); a chain device's host port admits Read opcodes alone (05 R131, 16 R462). -/
def Dev.admits (d : Dev) (row : OpRow) (opc : Byte) (viaChain : Bool) : Bool :=
  row.modes.has (if d.pdRunning then .parked else d.ctl.mode) && !(opc = 0x13 && d.ctl.mode = .starting) &&
    (viaChain || d.role ≠ 2 || row.kind = OpKind.read)

/-- The newest publication shows the Score ready (02 R45). -/
def Dev.scoreReady (d : Dev) : Bool := match d.link.publication with
  | some x => x.scanned
  | none => false

/-- Check 8: the scans, for a Read or a Bulk as the snapshot has them too (05 R130, 02 R44, R45). -/
def Dev.scanning (snap d : Dev) (p : Packet) : Bool :=
  let fresh := opRow p.opc p.params.length |>.any fun r => r.kind != OpKind.commit
  (needsRecords p.opc && (!d.nv.scanned || (fresh && !snap.nv.scanned))) ||
  (needsScore p.opc && (!d.scoreReady || (fresh && !snap.scoreReady)))

/-- Checks 7 to 9 and the action: at the commit edge, or at the downbeat (05 R130). -/
def Dev.execute (snap d : Dev) (p : Packet) (viaChain : Bool) : Dev × Option Answer :=
  match opRow p.opc p.params.length with
  | none => (d, some (fail stUnknown []))
  | some row =>
    if !d.admits row p.opc viaChain then (d, some (d.wrongMode p.opc 1))
    else if Dev.scanning snap d p then (d, some (fail stBusyScan []))
    else Dev.perform snap d p viaChain

/-- The status of a PATCH_LOAD that is rejected is kept (05 R168). -/
def Dev.keepPatchStatus (d : Dev) (p : Packet) (a : Answer) : Dev :=
  if p.opc = 0xF0 && a.status != 0 then d.setPatch fun x => { x with last := a.status } else d

/-- The answer of a packet, where there is one. -/
def Dev.finish (r : Dev × Option Answer) (news viaChain : Bool) (p : Packet) : Dev :=
  match r.2 with
  | some a => (r.1.keepPatchStatus p a).answer news viaChain 0 p a
  | none => r.1

/-- PREV_ACCEPTED counts a packet answered OK or ACCEPTED_PENDING (03 R82). -/
def Dev.countAccepted (d : Dev) (viaChain : Bool) (a : Option Answer) : Dev :=
  match a with
  | some a => if !viaChain && a.status.toNat ≤ 1 then { d with port := { d.port with prevAccepted := stick 8 (d.port.prevAccepted + 1) } } else d
  | none => d

/-- A packet for this device at its commit edge (03 R89, 05 R130): a DB packet that passes checks 3 to 6 waits for its
downbeat. A DB packet of a chain device's own host port serves the next downbeat. -/
def Dev.takeOwn (snap d : Dev) (p : Packet) (viaChain : Bool) : Dev :=
  match d.precheck p with
  | some a => Dev.finish (d, some a) false viaChain p
  | none =>
    if p.db then
      let serial := if d.chain.head || viaChain then d.port.serial else 0
      let d1 : Dev := { d with port := { d.port with
        pendingDb := d.port.pendingDb ++ [{ packet := p, serial := serial, viaChain := viaChain }] } }
      let a := fail stPending []
      (d1.countAccepted viaChain (some a)).answer false viaChain 0 p a
    else
      let r := Dev.execute snap d p viaChain
      Dev.finish (r.1.countAccepted viaChain r.2, r.2) false viaChain p

/-- A well-framed packet on the host port at its bar's commit edge: DEST first (03 R85, 16 R471). The bar of a DB packet
for the precentor itself declares a downbeat too (16 R468). -/
def Dev.takePacket (snap d : Dev) (p : Packet) : Dev :=
  let a := p.addr
  let bridge := d.chain.head && d.chain.enumerated
  if 0x40 ≤ a && a ≠ 0x7F then d.answer false false 0 p (fail stBadParam [])
  else if a = 0 || (a = 0x7F && !bridge) then
    Dev.takeOwn snap (d.modBar fun b => { b with db := b.db || p.db }) p false
  else if a ≠ 0x7F && !d.canReach a then d.answer false false 0 p (fail stUnreachable [])
  else if !d.forwardFits p then d.answer false false 0 p (busyFor p.opc)
  else if a = 0x7F then Dev.takeOwn snap (d.forward p) p false
  else d.forward p

/-! ### The commit edge (03 R87) -/

/-- The control die has restarted in this slot by SOFT_RESET (05 R140). -/
def Dev.softReset? (d : Dev) (p : Packet) : Bool :=
  p.opc = 0x06 && d.ctl.mode = .starting && d.ctl.startCause = 2 && d.ctl.bootAt = d.now

/-- The packets of a bar act in packet order; those after a SOFT_RESET have no effect (03 R87, 05 R140). -/
def Dev.takeAll (snap d : Dev) : List Packet → Dev
  | [] => d
  | p :: rest =>
    let d1 := Dev.takePacket snap d p
    if d1.softReset? p then d1 else Dev.takeAll snap d1 rest

/-- The commit edge of a bar with these packets; `lost` is the reply to a framing loss (03 R87, R100). -/
def Dev.commitBar (snap d : Dev) (barNo : Nat) (ps : List Packet) (lost : Option Reply) : Dev :=
  let d1 := Dev.takeAll snap (d.openBar barNo) ps
  match lost with
  | some r => if ps.any d1.softReset? then d1 else { d1.reply r with port := { (d1.reply r).port with frameLost := true } }
  | none => d1

/-- The command of an opcode row: its packet, alone in its bar, at the commit edge; what it reads comes from the
snapshot (03 R79). -/
def State.packet (s : State) (opc dest tag : Byte) (params : List Byte) : Host.Outcome State Fault Refusal :=
  s.run 0 fun d => Dev.commitBar s.snap d ((d.port.barNo + 65535) % 65536) [{ dest := dest, opc := opc, tag := tag, params := params }] none

end Sys2Proof.Machine
end

