-- ==== Sys2Proof/Machine/HostPort.lean ====
section
/-! DEFINITION. The host port (03): the bar, its snapshot header and reply stream, the commit edge, the downbeat, the
watchdog, and the supply of the port (17 R505). -/

namespace Sys2Proof.Machine
open Sys2Proof

/-! ### The snapshot (03 R79, R82, R92) -/

/-- The 24-byte snapshot header of device `d`, `prev` the previous snapshot and `n` the bytes of the reply stream. -/
def Dev.header (d prev : Dev) (n : Nat) : List Byte :=
  let core := [0xA5, b8 d.hstat] ++ leBytes 2 d.port.barNo ++ leInt 8 d.time.tbc ++ leBytes 2 (d.attn prev) ++
    leBytes 2 (d.log.nextSeq - 1).toNat ++ [b8 d.prev, b8 d.port.prevAccepted]
  withCrc (withCrc core ++ leBytes 2 (min n 65535))

/-- The reply stream: every reply in the queue, oldest first (03 R92). -/
def Dev.replyStream (d : Dev) : List Byte := d.port.replies.flatMap Reply.bytes

/-- The SDO bytes of a bar of `n` bytes: header, replies, then 0xFF (03 R75). -/
def Dev.sdoBytes (d prev : Dev) (n : Nat) : List Byte :=
  let s := d.replyStream
  let shown := min n (min 8192 (24 + s.length))
  (d.header prev s.length ++ s).take shown ++ List.replicate (n - shown) 0xFF

/-- At the CSN falling of an accepted bar: its number is consumed, IRQN is released, and what its header showed starts
afresh (03 R74, R82, R95); what came about in the slot of the snapshot itself, `shown`, is left for the next header
(01 R30). -/
def HostPort.fall (p shown : HostPort) (sdo : List Byte) : HostPort :=
  { p with
    barNo := (p.barNo + 1) % 65536, prevValid := false, openerBad := false, lengthBad := false
    frameLost := p.frameLost && !shown.frameLost, early := p.early - shown.early
    prevAccepted := p.prevAccepted - shown.prevAccepted, replyLost := p.lostNow && !shown.lostNow
    irqn := p.irqn && p.newsNow && !shown.newsNow, sdo := some sdo }

/-! ### The bar (03 R72 to R77) -/

/-- PLEN as the opener states it. -/
def plenOf (sdi : List Byte) : Nat := field sdi 2 2

/-- The opener passes its checks (03 R77). -/
def openerOk (sdi : List Byte) : Bool :=
  6 ≤ sdi.length && byteAt sdi 0 = 0xC3 && byteAt sdi 1 = 1 && plenOf sdi ≤ 8186 && field sdi 4 2 = crc16 (sdi.take 4)

/-- The bar's length breaks R73: `extra` bits beyond whole bytes. PLEN is judged only where the opener is good: what a bad
opener states is not held against the length (DESIGN CHOICE, log entry 93). -/
def lengthBad (sdi : List Byte) (extra : Nat) : Bool :=
  extra != 0 || sdi.length < 20 || 8192 < sdi.length || (openerOk sdi && sdi.length < 6 + plenOf sdi)

/-- t_CMT in ticks: 2 µs and 10 ns per byte of PLEN (03 R87); PLEN counts 0 where the opener states none that fits. -/
def tCmt (sdi : List Byte) : Nat := 2 * usec + 30 * (if 4 ≤ sdi.length && plenOf sdi ≤ 8186 then plenOf sdi else 0)

/-- How many replies of the queue were wholly clocked out in `n` bytes (03 R92). -/
def clockedOut : List Reply → Nat → Nat → Nat
  | [], _, _ => 0
  | r :: rest, at_, n => if at_ + r.bytes.length ≤ n then clockedOut rest (at_ + r.bytes.length) n + 1 else 0

/-- The queue without the first `k` of the replies that the snapshot showed, some of which may have been discarded since
(03 R92, R93). -/
def dropShown : (shown : List Reply) → (k : Nat) → List Reply → List Reply
  | r :: rest, k + 1, q => if (r :: rest).isPrefixOf q then q.drop (k + 1) else dropShown rest k q
  | _, _, q => q

/-- The watchdog expires (03 R98): WATCHDOG, then FALLBACK. -/
def Dev.watchdogExpire (d : Dev) : Dev :=
  match d.port.watchdog with
  | some t => if d.ctl.mode = .conducted && t ≤ d.now then (d.event 0x0004 0xFF (leBytes 2 d.tWd)).enterFallback 1 else d
  | none => d

/-- CSN rising (03 R73, R87, R92, R97): the bar's validity is settled; a valid bar releases its replies, restarts the
watchdog of any device but a chain device, whose chain commit edges restart it (16 R472), and awaits its commit edge. -/
def Dev.settleBar (d : Dev) (shown : List Reply) (sdi : List Byte) (extra : Nat) : Dev :=
  let bad := lengthBad sdi extra
  let valid := openerOk sdi && !bad
  let d1 := d.setPort fun p => { p with
    prevValid := valid, openerBad := !openerOk sdi, lengthBad := bad, quietUntil := d.now + tCmt sdi }
  if valid then
    let d2 := d1.setPort fun p => { p with
      replies := dropShown shown (clockedOut shown 24 sdi.length) p.replies
      commit := some { area := (sdi.drop 6).take (plenOf sdi), barNo := (p.barNo + 65535) % 65536 } }
    if d2.ctl.mode = .conducted && (d2.chain.head || d2.chain.addr.isNone) then d2.startWatchdog else d2
  else d1

/-- The time of a bar from CSN falling to CSN rising: a watchdog that expires while CSN is low does so in its own slot; at
the edge that restarts it the restart wins (03 R98). The slots that are left before CSN rises. -/
def State.whileLow (s : State) (low : Nat) : State × Nat :=
  match s.dev.port.watchdog with
  | some t =>
    let k := (t - s.dev.now + 7) / 8
    if s.dev.ctl.mode = .conducted && t < s.dev.now + 8 * low then (s.after k Dev.watchdogExpire, low - k) else (s, low)
  | none => (s, low)

/-! ### The commit edge (03 R84, R87, R100) -/

/-- The packets of a packet area from offset `o`, and the first framing loss: its offset and status (03 R84, R100). -/
def parseArea (area : List Byte) : Nat → Nat → List Packet × Option (Nat × Byte)
  | 0, _ => ([], none)
  | fuel + 1, o =>
    let rest := area.drop o
    let len := field rest 3 2
    if rest.isEmpty then ([], none)
    else if rest.length < 7 + len then ([], some (o, stBadLength))
    else if field rest (5 + len) 2 ≠ crc16 (rest.take (5 + len)) then ([], some (o, stBadCrc))
    else
      let p : Packet := { dest := rest.getD 0 0, opc := rest.getD 1 0, tag := rest.getD 2 0, params := (rest.drop 5).take len }
      let (ps, lost) := parseArea area fuel (o + 7 + len)
      (p :: ps, lost)

/-- The reply to a framing loss (03 R100): OPC and TAG as received, free where too few bytes came. -/
def Dev.lostReply (d : Dev) (area : List Byte) (e : Nat × Byte) : Reply :=
  let get (k : Nat) : Byte := area.getD (e.1 + k) (Config.missingByte (e.1 + k) d.now)
  { src := 0, opc := get 1, tag := get 2, status := e.2, data := leBytes 2 e.1, settle := none }

/-- The commit edge of the bar that awaits it (03 R87). -/
def Dev.commitNow (snap d : Dev) : Dev :=
  match d.port.commit with
  | none => d
  | some b =>
    let (ps, lost) := parseArea b.area (b.area.length + 1) 0
    Dev.commitBar snap (d.setPort fun p => { p with commit := none }) b.barNo ps (lost.map (d.lostReply b.area))

/-- COMMIT_EDGE (03 R87). -/
def execCommitEdge (dt : Nat) (s : State) : Host.Outcome State Fault Refusal :=
  s.run dt fun d => Dev.commitNow s.snap d

/-- A commit edge that has not come by its latest time comes with the bar (03 R87). -/
def State.beforeBar (s : State) (dt : Nat) : State :=
  let s0 := s.turn dt
  if s0.dev.port.commit.isSome && s0.dev.port.quietUntil ≤ s0.dev.now then s0.after 0 fun d => Dev.commitNow s.snap d else s0

/-- What a bar shows: the device as the slot of CSN falling found it (01 R29, R30). A commit edge that was due in an earlier slot
and was never sent is shown (log entry 94). -/
def State.shown (s : State) (dt : Nat) : Dev :=
  let s0 := s.turn dt
  if s0.dev.port.commit.isSome && s0.dev.port.quietUntil < s0.dev.now then (s.beforeBar dt).dev else s0.slot

/-- BAR (03 R72 to R77, R88): `dt` slots before CSN falls, `low` slots before it rises, the bytes and extra bits on SDI,
and whether the loss of VIO cuts it: such a bar never rises (17 R505). -/
def execBar (dt low : Nat) (sdi : List Byte) (bits : Fin 8) (cut : Bool) (s : State) : Host.Outcome State Fault Refusal :=
  let s1 := s.beforeBar dt
  let d := s1.dev
  if !d.port.isOpen then   -- ignored (02 R46)
    let (s2, left) := s1.whileLow low
    s2.run left id
  else if d.now < d.port.quietUntil then   -- an early bar (03 R88)
    let (s2, left) := s1.whileLow low
    s2.run left fun d => d.setPort fun p => { p with early := min (p.early + 1) 15, sdo := none }
  else
    let shown := s.shown dt
    let (s2, left) := State.whileLow { s1 with
      dev := d.setPort fun p => p.fall shown.port (shown.sdoBytes s1.snap sdi.length)
      snap := shown } low
    s2.run left fun d => if cut then d else d.settleBar shown.port.replies sdi bits.val

/-! ### The downbeat (03 R89, 16 R468, R469) -/

/-- The downbeat that is due, and those that follow it; one that was due earlier acts with it. -/
def Dev.dueDownbeat (d : Dev) : Option (Declared × List Declared) :=
  let due := d.chain.downbeats.takeWhile fun b => decide (b.at_ < d.now + 8)
  due.getLast?.map fun b => (b, d.chain.downbeats.drop due.length)

/-- One DB packet at its downbeat: checks 7 to 9 and its final reply (03 R89). -/
def Dev.dbAct (snap d : Dev) (q : DbPacket) : Dev := Dev.finish (Dev.execute snap d q.packet q.viaChain) true q.viaChain q.packet

/-- DOWNBEAT (03 R89, 16 R469, 10 R283): the DB packets of the bars it serves, in order; the DOWNBEAT cues act with the
other cues of the slot. -/
def execDownbeat (dt : Nat) (s : State) : Host.Outcome State Fault Refusal :=
  s.run dt fun d =>
    match d.dueDownbeat with
    | none => d
    | some (b, rest) =>
      let now := d.port.pendingDb.filter fun q => q.serial ≤ b.serial
      let d1 := (d.setChain fun c => { c with downbeats := rest }).setPort fun p => { p with
        pendingDb := p.pendingDb.filter fun q => b.serial < q.serial }
      (now.foldl (Dev.dbAct s.snap) d1).setChain fun c => { c with beat := true }

/-! ### The watchdog, and the supply of the port (03 R98, 02 R39, 17 R505) -/

/-- WATCHDOG (03 R98): T_wd has elapsed. -/
def execWatchdog (dt : Nat) (s : State) : Host.Outcome State Fault Refusal := s.run dt Dev.watchdogExpire

/-- HOST_PORT_OPEN (02 R39): VIO has been valid for 2.0 ms, and control boot has ended. -/
def execHostPortOpen (dt : Nat) (s : State) : Host.Outcome State Fault Refusal :=
  s.run dt fun d =>
    let ready := match d.port.reopenAt with
      | some t => decide (t ≤ d.now)
      | none => true
    if !d.port.isOpen && d.ctl.started && d.port.vioValid && ready then
      (d.setPort fun p => { p with isOpen := true, reopenAt := none }).raiseIrq
    else d

/-- VIO_LOST (17 R505). -/
def execVioLost (dt : Nat) (s : State) : Host.Outcome State Fault Refusal :=
  s.run dt fun d =>
    if !d.port.vioValid then d
    else
      let d1 := d.setPort fun p => { p with
        vioValid := false, vioLostAt := some d.now, reopenAt := none, isOpen := false, irqn := false, sdo := none }
      if d.ctl.por then d1 else d1.event 0x0B05 0xFF []

/-- VIO_RETURN (17 R505): the port reopens 2.0 ms later; the time absent is given in ms. A master wave
port's clocks run again, on a grid from here (DESIGN CHOICE, log entry 137). -/
def execVioReturn (dt : Nat) (s : State) : Host.Outcome State Fault Refusal :=
  s.run dt fun d =>
    if d.port.vioValid then d
    else
      let d0 : Dev := { d with wave := { d.wave with origin := d.now, count := 0 } }
      let d1 := d0.setPort fun p => { p with vioValid := true, vioLostAt := none, reopenAt := some (d.now + 2 * msec) }
      match d.port.vioLostAt with
      | some t =>
        if d.ctl.por then d1 else d1.event 0x0B06 0xFF (leBytes 2 (sat 16 (report (((d.now - t : Nat) : Rat) / msec))))
      | none => d1

end Sys2Proof.Machine
end

