-- ==== Sys2Proof/Machine/Chain.lean ====
section
/-! DEFINITION. The Akden chain on the time base (16): the measure, the frames of both directions, enumeration, chain
time, the segments, breath domains, the ring, and the ends of a link. -/

namespace Sys2Proof.Machine
open Sys2Proof

/-- The chain runs from a cappella live onward (16 R457). -/
def Dev.chainLive (d : Dev) : Bool := d.ctl.liveAt.isSome && !d.ctl.por

def Dev.modPort (d : Dev) (k : Fin 2) (f : ChainPort → ChainPort) : Dev := d.setChain fun c => { c with ports := c.ports.modify k f }

/-- The port is out of service: in its loopback, or retired (16 R487). -/
def ChainPort.outOfService (x : ChainPort) : Bool := x.checking || x.retired

/-! ### The characters of a frame (16 R460) -/

/-- `n` bytes of a list, zeros where it ends. -/
def padTo (n : Nat) (l : List Byte) : List Byte := (l ++ List.replicate n 0).take n

/-- A grant entry in its 2 bytes. -/
def Grant.bytes (g : Grant) : List Byte := leBytes 2 (g.domain * 4096 + (g.count - 1) * 1024 + g.addr * 16)

/-- The grant entries in use, read from their bytes. -/
def grantsOf : List Byte → List Grant
  | a :: b :: rest =>
    let w := leNat [a, b]
    let l := grantsOf rest
    if w / 4096 = 0 then l else { domain := w / 4096, count := w / 1024 % 4 + 1, addr := w / 16 % 64 } :: l
  | _ => []

/-- A breath entry in its 3 bytes. -/
def BreathEntry.bytes (e : BreathEntry) : List Byte :=
  leBytes 3 (e.domain * 2 ^ 20 + e.ret * 2 ^ 16 + e.prio * 2 ^ 12 + e.voice * 64 + e.addr)

/-- The breath entries in use, read from their bytes. -/
def breathOf : List Byte → List BreathEntry
  | a :: b :: c :: rest =>
    let w := leNat [a, b, c]
    let l := breathOf rest
    if w / 2 ^ 20 = 0 then l
    else { domain := w / 2 ^ 20, ret := w / 2 ^ 16 % 16, prio := w / 2 ^ 12 % 16, voice := w / 64 % 64, addr := w % 64 } :: l
  | _ => []

/-- A frame's characters with their CRC-16, which goes out inverted where the frame received failed its own (16 R461). -/
def frameCrc (ok : Bool) (l : List Byte) : List Byte := l ++ leBytes 2 (if ok then crc16 l else 65535 - crc16 l)

/-- The 51 characters of a downstream frame after its start character. -/
def DownFrame.chars (f : DownFrame) : List Byte :=
  frameCrc f.ok ([b8 (packBits [false, false, f.ring, f.hold, f.enumerate, f.clrEnum, f.bar, f.downbeat])] ++
    leBytes 2 f.mseq.toNat ++ [b8 f.hop] ++ leBytes 2 f.barNo.toNat ++ leBytes 2 f.cumlat ++ leInt 8 f.ctbc ++
    padTo 8 (f.grants.flatMap Grant.bytes) ++ [f.sseq, b8 f.seg.length] ++ padTo 23 f.seg)

/-- The 35 characters of an upstream frame after its start character. -/
def UpFrame.chars (f : UpFrame) : List Byte :=
  frameCrc f.ok ([b8 f.reach, f.sseq, b8 f.seg.length] ++ padTo 12 (f.breath.flatMap BreathEntry.bytes) ++ padTo 18 f.seg)

/-- The CRC-16 after the first `n` characters matches them. -/
def crcMatches (n : Nat) (l : List Byte) : Bool := crc16 (l.take n) == field l n 2

/-- A downstream frame read from its characters. -/
def downOf (l : List Byte) : DownFrame :=
  let flag (k : Nat) : Bool := (byteAt l 0).testBit k
  { ok := crcMatches 49 l, downbeat := flag 7, bar := flag 6, clrEnum := flag 5, enumerate := flag 4, hold := flag 3, ring := flag 2
    mseq := BitVec.ofNat 16 (field l 1 2), hop := byteAt l 3, barNo := BitVec.ofNat 16 (field l 4 2), cumlat := field l 6 2
    ctbc := toSigned 64 (field l 8 8), grants := grantsOf ((l.drop 16).take 8), sseq := l.getD 24 0
    seg := (l.drop 26).take (min (byteAt l 25) 23) }

/-- An upstream frame read from its characters. -/
def upOf (l : List Byte) : UpFrame :=
  { ok := crcMatches 33 l, reach := byteAt l 0, sseq := l.getD 1 0, breath := breathOf ((l.drop 3).take 12)
    seg := (l.drop 15).take (min (byteAt l 2) 18) }

/-! ### When frames come (16 R459, R460, R467) -/

/-- Ticks of a character position, and from a frame's boundary to the end of its CRC (16 R457, R460). -/
def charPos : Nat := 240
def downLen : Nat := 52 * charPos
def upLen : Nat := 36 * charPos

/-- The boundary of the measure under way: boundaries run on from that of the last valid frame (16 R459). -/
def Dev.boundary (d : Dev) : Nat := d.now - (d.now - d.time.measureAt) % 30720

/-- `a` and `b` lie within 2 character positions (16 R460). -/
def within2 (a b : Nat) : Bool := decide (a ≤ b + 2 * charPos) && decide (b ≤ a + 2 * charPos)

/-- The port on which a chain device receives downstream (16 R484). -/
def Chain.rx (c : Chain) : Fin 2 := if c.turned then 1 else 0

/-- A start at `t` comes where the device expects one on the port it receives on: at a boundary that its own run-on gives. A
port that is not UP has no expectation, and finds the frames where they are, and so has one that a device does not receive on:
DESIGN CHOICE, log entry 186. -/
def Dev.expects (d : Dev) (k : Fin 2) (t : Nat) : Bool :=
  let off := (t - d.time.measureAt) % 30720
  k ≠ d.chain.rx || !(d.chain.ports.get k).up || off ≤ 2 * charPos || 30720 ≤ off + 2 * charPos

/-! ### The state of a port (16 R483, R487) -/

/-- A measure ends for a port that expects frames: one without a valid frame is missing. -/
def ChainPort.measure (x : ChainPort) : ChainPort :=
  if x.outOfService then x
  else if x.heard then { x with heard := false }
  else { x with missing := stick 16 (x.missing + 1), missRun := x.missRun + 1, goodRun := 0 }

/-- A valid frame (16 R460, R483): the port is UP after two in a row. -/
def Dev.goodFrame (d : Dev) (k : Fin 2) : Dev :=
  let was := (d.chain.ports.get k).up
  let d1 := d.modPort k fun x => { x with
    frames := (x.frames + 1) % 2 ^ 32, heard := true, missRun := 0, goodRun := x.goodRun + 1, up := x.up || 1 ≤ x.goodRun }
  if !was && (d1.chain.ports.get k).up then d1.event 0x0905 (0x60 + k.val) [] else d1

/-- A frame that fails its CRC (16 R487): eight within a second start the hop loopback of the port. -/
def Dev.badFrame (d : Dev) (k : Fin 2) : Dev :=
  d.modPort k fun x =>
    let l := d.now :: x.failures.filter fun t => d.now < t + 1000 * msec
    { x with crcErr := stick 16 (x.crcErr + 1), checking := 8 ≤ l.length, checkAt := d.now, failures := if 8 ≤ l.length then [] else l }

/-- The ring splits: the precentor transmits on port A too (16 R483). -/
def Dev.splitRing (d : Dev) : Dev :=
  let d1 := d.setChain fun c => { c with ring := .split, sendA := true }
  (d1.event 0x0908 0xFF [b8 d.lastFwd, (d.firstRev.map b8).getD 0xFF]).followBreak

/-- A port counts as DOWN (16 R483): the armed ring of a precentor splits at its port A. -/
def Dev.portDown (d : Dev) (k : Fin 2) : Dev :=
  let was := (d.chain.ports.get k).up
  let d1 := d.modPort k fun x => { x with up := false, goodRun := 0 }
  let d2 := if was then d1.event 0x0904 (0x60 + k.val) [] else d1
  if d2.chain.head && k = 0 && d2.chain.ring = .closed then d2.splitRing else d2

/-! ### Breath domains (16 R477 to R480) -/

/-- Tokens of the device's domain in hand and in use (16 R477). -/
def Dev.domainHeld (d : Dev) : Nat := d.chain.hand + d.voices.count fun x => x.domainToken == some d.domain

/-- CLAIM (04 R119). -/
def Dev.claim (d : Dev) : Nat := d.fld 0x2080 16 8

/-- `k` granted tokens of domain `n` come to the device; beyond CLAIM, or outside the domain, they go back (16 R479). -/
def Dev.takeTokens (d : Dev) (n k : Nat) : Dev :=
  let d1 := d.syncDomain
  if n ≠ d1.domain then d1.returnDomain n k
  else
    let fits := min k (d1.claim - d1.domainHeld)
    (d1.setChain fun c => { c with hand := c.hand + fits }).returnDomain n (k - fits)

/-- The waiting request of the device: the best turn-on that waits for a domain token (16 R477). -/
def Dev.waitingRequest (d : Dev) : Option (Nat × Nat) :=
  let asks (v : VoiceId) : Option Nat := match (d.voice v).wait with
    | some w => if w.stage = .deferred && w.profile != 0 && !w.free && d.chain.hand = 0 then some w.prio else none
    | none => none
  (ranked asks).head?.bind fun v => (asks v).map fun prio => (prio, v.val)

/-- The device's own request: a waiting one, else a standby one below CLAIM, else none (16 R477). -/
def Dev.ownRequest (d : Dev) : List BreathEntry :=
  if d.domain = 0 then []
  else match d.waitingRequest with
  | some (prio, v) => [{ domain := d.domain, ret := 0, prio := prio, voice := v, addr := d.ownAddr }]
  | none =>
    if d.domainHeld < d.claim then [{ domain := d.domain, ret := 0, prio := 15, voice := 0x3E, addr := d.ownAddr }] else []

/-- The device's own entries of this measure: what it returns, and its request. -/
def Dev.ownEntries (d : Dev) : List BreathEntry :=
  (idx 15).filterMap (fun n =>
    if d.chain.returns.get n = 0 then none
    else some { domain := n.val + 1, ret := d.chain.returns.get n, prio := 15, voice := 0x3F, addr := 0 }) ++ d.ownRequest

/-- The rank of a request: waiting before standby before none, then priority, voice and address (16 R478). -/
def breathRank (e : BreathEntry) : Nat :=
  let kind := if e.voice = 0x3F then 2 else if e.voice = 0x3E then 1 else 0
  ((kind * 16 + e.prio) * 64 + e.voice) * 64 + e.addr

/-- Two entries of one domain: returns add up, the better request stays (16 R478). -/
def breathMerge (a b : BreathEntry) : BreathEntry :=
  { (if breathRank b < breathRank a then b else a) with ret := a.ret + b.ret }

/-- Entries merged by domain, each where its domain first appears. -/
def mergeBreath (l : List BreathEntry) : List BreathEntry :=
  l.foldl (fun acc e =>
    if e.domain = 0 then acc
    else if acc.any (fun a => a.domain = e.domain) then acc.map fun a => if a.domain = e.domain then breathMerge a e else a
    else acc ++ [e]) []

/-- What the device has to report: entries carried over, received and its own; its returns are in them from now on. -/
def Dev.gatherBreath (d : Dev) : Dev × List BreathEntry :=
  let d1 := d.syncDomain
  let all := mergeBreath (d1.chain.merged ++ d1.ownEntries)
  (d1.setChain fun c => { c with returns := .fill 15 0 }, all)

/-- An upstream frame's four entries, the oldest content first; returns above 15 and later entries are carried over
(16 R478). -/
def Dev.sendBreath (d : Dev) : Dev × List BreathEntry :=
  let (d1, all) := d.gatherBreath
  let now := all.take 4
  let excess := now.filterMap fun e =>
    if 15 < e.ret then some { e with ret := e.ret - 15, voice := 0x3F, prio := 15, addr := 0 } else none
  (d1.setChain fun c => { c with merged := all.drop 4 ++ excess }, now.map fun e => { e with ret := min e.ret 15 })

/-- Returned tokens are taken from the devices `may` allows that hold tokens of the domain, `addr` first: an entry's returns
are a sum that names no device (16 R478), which is why the next ones follow. DESIGN CHOICE, log entry 190. -/
def giveBack (addr n : Nat) (may : Nat → Bool) : Nat → List (Nat × Nat × Nat) → List (Nat × Nat × Nat)
  | 0, l => l
  | k + 1, l =>
    let mine := l.findIdx? fun h => may h.1 && h.1 = addr && h.2.1 = n && 0 < h.2.2
    let any := l.findIdx? fun h => may h.1 && h.2.1 = n && 0 < h.2.2
    match (mine <|> any) with
    | some i => giveBack addr n may k (l.modify i fun h => (h.1, h.2.1, h.2.2 - 1))
    | none => l

/-- One more token of domain `n` is held by the device at `addr`. -/
def giveToken (addr n : Nat) (l : List (Nat × Nat × Nat)) : List (Nat × Nat × Nat) :=
  if l.any fun h => h.1 = addr && h.2.1 = n then
    l.map fun h => if h.1 = addr && h.2.1 = n then (h.1, h.2.1, h.2.2 + 1) else h
  else l ++ [(addr, n, 1)]

/-- A pool changed by `f`. -/
def Chain.modPool (c : Chain) (n : Nat) (f : Pool → Pool) : Chain :=
  if h : 1 ≤ n ∧ n ≤ 15 then { c with pools := c.pools.modify ⟨n - 1, by omega⟩ f } else c

/-- A pool has a token free. -/
def Chain.poolFree (c : Chain) (n : Nat) : Bool :=
  if h : 1 ≤ n ∧ n ≤ 15 then (c.pools.get ⟨n - 1, by omega⟩).outstanding < (c.pools.get ⟨n - 1, by omega⟩).pool else false

/-- What the precentor itself returns to domain `n` in this measure. -/
def ownReturns (own : Tab Nat 15) (n : Nat) : Nat := if h : 1 ≤ n ∧ n ≤ 15 then own.get ⟨n - 1, by omega⟩ else 0

/-- One domain's returns, `own` of them the precentor's, and its best request: one token a measure while the pool has one
(16 R479). -/
def Dev.grantDomain (own : Tab Nat 15) (acc : Dev × List Grant) (e : BreathEntry) : Dev × List Grant :=
  let mine := min (ownReturns own e.domain) e.ret
  let d := acc.1.setChain fun c =>
    let c1 := c.modPool e.domain fun x => { x with outstanding := x.outstanding - e.ret }
    { c1 with holders := giveBack e.addr e.domain (· ≠ 0) (e.ret - mine) (giveBack 0 e.domain (· = 0) mine c1.holders) }
  if e.voice = 0x3F || !d.chain.poolFree e.domain || (e.addr ≠ 0 && 4 ≤ acc.2.length) then (d, acc.2)
  else
    let d1 := d.setChain fun c =>
      { c.modPool e.domain fun x => { x with outstanding := x.outstanding + 1 } with holders := giveToken e.addr e.domain c.holders }
    if e.addr = 0 then (d1.takeTokens e.domain 1, acc.2)
    else
      (d1,
       acc.2 ++ [{ domain := e.domain, count := 1, addr := e.addr }])

/-- The precentor's grants of a measure, by ascending domain (16 R479). -/
def Dev.grantMeasure (d : Dev) : Dev × List Grant :=
  let own := d.syncDomain.chain.returns
  let (d1, all) := d.gatherBreath
  let byDomain := (List.range 16).flatMap fun n => all.filter fun e => e.domain = n
  byDomain.foldl (Dev.grantDomain own) (d1.setChain fun c => { c with merged := [] }, [])

/-! ### The precentor's measure (16 R459, R464, R468, R471) -/

/-- The next segment of the forwarding buffer: its bytes, the bar it ends, and what is left. Bars without chain packets
that follow each other share one frame (16 R471). -/
def nextSegment : List FwdBar → List Byte × Option FwdBar × List FwdBar
  | [] => ([], none, [])
  | b :: rest =>
    if b.bytes.isEmpty then
      let more := rest.takeWhile fun x => x.bytes.isEmpty
      let last := more.getLast?.getD b
      ([], some { last with db := b.db || more.any (·.db) }, rest.drop more.length)
    else if b.bytes.length ≤ 23 then (b.bytes, some b, rest)
    else (b.bytes.take 23, none, { b with bytes := b.bytes.drop 23 } :: rest)

/-- The measures of an enumeration in its three steps (16 R464). -/
inductive EnumStep where
  | none | clearing | numbering | settling
deriving DecidableEq, Repr

def enumStep (left : Option Nat) : EnumStep :=
  match left with
  | some k => if k = 0 then .none else if 24 < k then .clearing else if 8 < k then .numbering else .settling
  | none => .none

/-- The ports of a precentor that expect frames count the measure (16 R483). -/
def Dev.countMeasure (d : Dev) : Dev :=
  let a := !d.chain.head || d.chain.ring.armed
  d.setChain fun c => { c with ports := c.ports.mapIdx fun k x => if k = 1 || a then x.measure else x }

/-- The first clearing measure disarms the ring, and the devices reached are forgotten (16 R464). -/
def Chain.beginEnum (c : Chain) : Chain :=
  if c.enumLeft = some 32 then { c with ring := .open_, sendA := false, reachB := 0, reachA := none, reachBAt := 0 } else c

/-- The serial number of the newest bar whose marker has been sent (16 R469). -/
def Dev.markedSerial (d : Dev) : Nat := match d.chain.forward with
  | b :: _ => b.serial - 1
  | [] => d.port.serial

/-- A measure of the precentor: the frame it sends, its grants, the segment, and the downbeat it declares
(16 R459, R468, R471, R479). -/
def Dev.precentorMeasure (d : Dev) : Dev :=
  let step := enumStep d.chain.enumLeft
  let d1 := (d.countMeasure.setChain Chain.beginEnum).setChain fun c => { c with
    mseq := c.mseq + 1, measuredAt := some d.now
    enumEndAt := if step != .none then d.now + 30720 else c.enumEndAt, enumLeft := c.enumLeft.map fun k => k - 1 }
  let (d2, grants) := d1.grantMeasure
  let quiet := step != .none
  let (seg, ends, rest) := if quiet then ([], none, d2.chain.forward) else nextSegment d2.chain.forward
  let carries := !seg.isEmpty || ends.isSome
  let d3 := d2.setChain fun c => { c with forward := rest, sseq := if carries then c.sseq + 1 else c.sseq }
  let beat := d3.chain.enumerated && !quiet && (ends.any (·.db) || d3.chain.mseq.toNat % 8 = 0)
  let f : DownFrame :=
    { ok := true, downbeat := beat, bar := ends.isSome, clrEnum := step == .clearing, enumerate := step == .numbering
      hold := false, ring := d3.chain.ring.armed, mseq := d3.chain.mseq, hop := 0
      barNo := BitVec.ofNat 16 ((ends.map (·.barNo)).getD 0), cumlat := (d3.chain.ports.get 1).delay + 360
      ctbc := d3.time.tbc, grants := grants, sseq := d3.chain.sseq, seg := seg }
  let d4 := d3.setChain fun c => { c with sentDown := some f }
  if beat then
    d4.setChain fun c => { c with downbeats := c.downbeats ++ [{ at_ := d.now + 61440, serial := d4.markedSerial }] }
  else d4

/-! ### A chain device's frames (16 R459 to R474) -/

/-- The REACH a device reports: the address heard from beyond it in the previous measure, or its own; 0 without an address
(16 R460, R461, R484, R485). -/
def Dev.ownReach (d : Dev) : Nat :=
  match d.chain.addr with
  | none => 0
  | some a =>
    let fresh := d.chain.reachB ≠ 0 && d.boundary ≤ d.chain.reachBAt + 30720
    if fresh then (if d.chain.turned then min a d.chain.reachB else max a d.chain.reachB) else a

/-- The upstream frame of a measure (16 R461, R474). -/
def Dev.sendUp (d : Dev) : Dev :=
  let (d1, breath) := d.sendBreath
  let seg := if d1.chain.holdRx then [] else d1.chain.upstream.take 18
  d1.setChain fun c =>
    let sseq := if seg.isEmpty then c.upSseq else c.upSseq + 1
    { c with
      upSseq := sseq, upstream := c.upstream.drop seg.length
      sentUp := some { ok := true, reach := d1.ownReach, sseq := sseq, breath := breath, seg := seg } }

/-- The device loses its address, which counts as a broken chain (16 R465, 03 R90). -/
def Dev.loseAddr (d : Dev) : Dev :=
  let d1 := d.setChain fun c => { c with addr := none, hopWrong := 0, stream := [], discarding := false, downSeq := none, downbeats := [] }
  if d.chain.addr.isSome then d1.dropPending else d1

/-- Enumeration and the HOP check of a valid frame (16 R463 to R465, R484). -/
def Dev.follow (d : Dev) (f : DownFrame) : Dev :=
  if f.clrEnum then d.loseAddr
  else if f.enumerate then
    if d.chain.addr.isSome || 62 ≤ f.hop || d.chain.turned then d
    else d.setChain fun c => { c with addr := some (f.hop + 1), hopWrong := 0, lastBar := none }
  else match d.chain.addr with
  | none => d
  | some a =>
    if d.chain.turned then d
    else if f.hop + 1 = a then d.setChain fun c => { c with hopWrong := 0 }
    else if d.chain.hopWrong + 1 < 4 then d.setChain fun c => { c with hopWrong := c.hopWrong + 1 }
    else d.loseAddr.event 0x090A a [b8 f.hop]

/-- The chain TBC is steered at a valid frame, by what it was at the frame's boundary (16 R470). -/
def Dev.steer (d : Dev) (f : DownFrame) : Dev :=
  let e := f.ctbc + f.cumlat - (d.time.tbc - downLen)
  let move (d : Dev) (k : Int) : Dev :=
    { d with time := { d.time with tbc := d.time.tbc + k }, chain := { d.chain with offset := d.chain.offset + k } }
  if d.chain.addr.isNone || e.natAbs < 8 then d
  else if e.natAbs ≤ 64 then (if 0 < e then move d 8 else d.setChain fun c => { c with holdOne := true })
  else
    let k := 8 * roundDiv e 8
    ((move d k).shiftTimes k).event 0x090B 0xFF (leInt 8 k)

/-- The segment of a valid frame joins the stream; a gap in SSEQ discards it up to the next BAR marker (16 R472, R473). -/
def Chain.takeSegment (c : Chain) (f : DownFrame) : Chain :=
  if f.seg.isEmpty && !f.bar then c
  else
    let gap := match c.downSeq with
      | some n => f.sseq != n + 1
      | none => false
    { c with downSeq := some f.sseq, discarding := c.discarding || gap, stream := c.stream ++ f.seg }

/-- The reply that stands for the bars lost (16 R473). -/
def Dev.barLostReply (d : Dev) (barNo : Nat) : Reply :=
  let first := match d.chain.lastBar with
    | some n => (n + 1) % 65536
    | none => barNo
  { src := d.ownAddr, opc := 0, tag := 0, status := stBadCrc, data := leBytes 2 first ++ leBytes 2 barNo, settle := none }

/-- The packets of a chain bar that this device keeps act in order; those after a SOFT_RESET have no effect (16 R472). -/
def Dev.takeChain (snap d : Dev) : List Packet → Dev
  | [] => d
  | p :: rest =>
    let d1 := Dev.takeOwn snap d p true
    if d1.softReset? p then d1 else Dev.takeChain snap d1 rest

/-- The chain commit edge of a bar: the slot in which the CRC of its last frame has come (16 R472, R473). -/
def Dev.chainCommit (d : Dev) (barNo : Nat) : Dev :=
  let bytes := d.chain.stream
  let d1 := d.setChain fun c => { c with stream := [], discarding := false, lastBar := some barNo }
  match d.chain.addr with
  | none => d1
  | some a =>
    if d.chain.discarding then
      d1.setChain fun c => { c with barLost := stick 16 (c.barLost + 1), replies := c.replies ++ [d.barLostReply barNo] }
    else
      let mine := (parseArea bytes (bytes.length + 1) 0).1.filter fun p => p.addr = a || p.addr = 0x7F
      let d2 : Dev := { d1 with port := { d1.port with serial := d1.port.serial + 1 } }
      let d3 := if d2.ctl.mode = .conducted then d2.startWatchdog else d2
      Dev.takeChain d2 d3 mine

/-- The downstream frame a device forwards: its place, its latency and HOLD rewritten (16 R461, R463, R467). -/
def Dev.sendOn (d : Dev) (f : DownFrame) (out : Fin 2) : Dev :=
  let g : DownFrame := { f with
    hop := if 62 ≤ f.hop then 62 else f.hop + 1, cumlat := f.cumlat + (d.chain.ports.get out).delay + 360, hold := d.chain.holds }
  d.setChain fun c => { c with sentDown := some g }

/-- A valid downstream frame at a chain or standalone device (16 R459 to R474). Its boundary begins a measure, but where a
boundary that ran on has begun the same one already. -/
def Dev.receiveDown (d : Dev) (k : Fin 2) (f : DownFrame) : Dev :=
  let out : Fin 2 := if k = 0 then 1 else 0
  let b := d.now - downLen
  let begun := d.chain.measuredAt.any (within2 b)
  let d1 := (if begun then d else d.countMeasure).goodFrame k
  let d2 := d1.setChain fun c => { c with
    lastFrame := some d.now, linkTimeout := false, broken := false, mseq := f.mseq, latency := f.cumlat, holdRx := f.hold
    measuredAt := some b }
  let d3 : Dev := { d2 with time := { d2.time with measureAt := b } }
  let d4 := if begun then d3.sendOn f out else (d3.sendOn f out).sendUp
  let d5 := ((d4.follow f).steer f)
  let d6 := (f.grants.filter fun g => d5.chain.addr = some g.addr).foldl (fun d g => d.takeTokens g.domain g.count) d5
  let d7 := d6.setChain fun c => c.takeSegment f
  let d8 := if f.bar then d7.chainCommit f.barNo.toNat else d7
  if f.downbeat && d8.chain.addr.isSome then
    d8.setChain fun c => { c with downbeats := c.downbeats ++ [{ at_ := b + 61440 - f.cumlat, serial := d8.port.serial }] }
  else d8

/-- An invalid downstream frame at a chain device: it goes on with its CRC inverted, and the stream is discarded up to the
next BAR marker (16 R461, R473). -/
def Dev.receiveBad (d : Dev) (k : Fin 2) (f : DownFrame) : Dev :=
  let out : Fin 2 := if k = 0 then 1 else 0
  ((d.badFrame k).sendOn f out).setChain fun c => { c with discarding := c.addr.isSome }

/-- A downstream frame at a chain or standalone device: it comes in on port A, or after the turn on port B; the device
turns round and back as R484 gives. -/
def Dev.downAtDevice (d : Dev) (k : Fin 2) (f : DownFrame) : Dev :=
  let live (k : Fin 2) : Bool := (d.chain.ports.get k).up
  let turned := d.chain.turned
  let rx := d.chain.rx
  if (d.chain.ports.get k).outOfService then d
  else if !f.ok then (if k = rx then d.receiveBad k f else d.badFrame k)
  else if k = rx then d.receiveDown k f
  else if !live rx then (d.setChain fun c => { c with turned := !turned, reachB := 0 }).receiveDown k f
  else d.goodFrame k

/-- A valid frame comes back to a precentor that closes its ring (16 R482). -/
def Chain.cameBack (c : Chain) (hop : Nat) : Chain :=
  if c.ring = .closing then { c with backHop := some hop, returned := if hop = c.count then c.returned + 1 else c.returned } else c

/-- A downstream frame at the precentor: on port A it shows the ring, or two precentors on one chain (16 R462, R482). -/
def Dev.downAtHead (d : Dev) (k : Fin 2) (f : DownFrame) : Dev :=
  if k = 1 || (d.chain.ports.get k).outOfService then d
  else if d.chain.ring = .open_ then
    if f.ok && !d.chain.conflict then (d.setChain fun c => { c with conflict := true }).event 0x090D 0x60 [] else d
  else if d.chain.ring = .split then d
  else if f.ok then (d.setChain fun c => c.cameBack f.hop).goodFrame k
  else d.badFrame k

/-- A downstream frame with a character that is no code: it is not valid, and a device sends it on as bad. It is no CRC
failure (16 R460, R487); that it goes on is a DESIGN CHOICE, log entry 186. -/
def Dev.downNoCode (d : Dev) (k : Fin 2) (f : DownFrame) : Dev :=
  if d.chain.head || k ≠ d.chain.rx || (d.chain.ports.get k).outOfService then d
  else d.sendOn { f with ok := false } (if k = 0 then 1 else 0)

/-- DOWNSTREAM_FRAME (16 R460, R461): its CRC has come, 52 characters after its boundary. -/
def execDownstreamFrame (dt : Nat) (port : AkPort) (f : RxFrame) (s : State) : Host.Outcome State Fault Refusal :=
  s.run dt fun d =>
    let g := downOf f.chars
    let k := portNo port
    if !d.chainLive || (!d.chain.head && !d.expects k (d.now - downLen)) then d
    else if !f.codes then d.downNoCode k g
    else if d.chain.head then d.downAtHead k g else d.downAtDevice k g

/-- MEASURE_BOUNDARY (16 R459): the precentor's measure, or the boundary of a device that runs on without frames. -/
def execMeasureBoundary (dt : Nat) (s : State) : Host.Outcome State Fault Refusal :=
  s.run dt fun d =>
    if !d.chainLive || !d.atBoundary || d.chain.measuredAt = some d.now then d
    else if d.chain.head then d.precentorMeasure
    else (d.setChain fun c => { c with measuredAt := some d.now }).countMeasure.sendUp

/-! ### Upstream frames (16 R467, R474, R475, R485) -/

/-- The devices that REACH covers have been heard now (16 R485). -/
def Chain.hear (c : Chain) (now : Nat) (covers : Nat → Bool) : Chain :=
  { c with
    heard := (List.range 62).filterMap fun i =>
      if covers (i + 1) then some (i + 1, now) else (c.heard.lookup (i + 1)).map fun t => (i + 1, t)
    unreachable := c.unreachable.filter fun a => !covers a }

/-- One reply from its first bytes: the reply, whether its CRC holds, and the rest; none while it is not whole
(03 R91). -/
def takeReply (l : List Byte) : Option (List Byte × Bool × List Byte) :=
  let n := 8 + field l 4 2
  if l.length < 8 || l.length < n then none
  else some (l.take n, field l (n - 2) 2 = crc16 (l.take (n - 2)), l.drop n)

/-- The whole replies of a stream, and what is left of it; a reply whose CRC fails is told apart. -/
def takeReplies : Nat → List Byte → List (List Byte × Bool) × List Byte
  | 0, l => ([], l)
  | fuel + 1, l => match takeReply l with
    | none => ([], l)
    | some (r, good, rest) =>
      let (rs, left) := takeReplies fuel rest
      ((r, good) :: rs, left)

/-- A whole reply reaches the precentor's queue, which is news (16 R475); its packet is outstanding no longer once the
final reply has come. A reply for lost bars releases the packets of those bars. An OK or ACCEPTED_PENDING to a packet of the
previous accepted bar counts it, once, in PREV_ACCEPTED (03 R82). -/
def Dev.arrive (d : Dev) (b : List Byte) : Dev :=
  let r : Reply := { src := byteAt b 0, opc := b.getD 1 0, tag := b.getD 2 0, status := b.getD 3 0
                     data := (b.drop 6).take (field b 4 2), settle := none }
  let lost := r.opc = 0 && r.tag = 0 && r.status = stBadCrc && r.data.length = 4
  let first := field r.data 0 2
  let covered (o : Outstanding) : Bool := o.addr = r.src && (o.barNo + 65536 - first) % 65536 ≤ (field r.data 2 2 + 65536 - first) % 65536
  let mine (o : Outstanding) : Bool := o.addr = r.src && o.opc = r.opc && o.tag = r.tag
  let counts (o : Outstanding) : Bool := r.status.toNat ≤ 1 && !o.counted && (o.barNo + 1) % 65536 = d.port.barNo
  let keep (l : List Outstanding) : List Outstanding :=
    if lost then l.filter (fun o => !covered o)
    else match l.findIdx? mine with
      | some i => if r.status = stPending then l.modify i fun o => { o with counted := o.counted || counts o } else l.eraseIdx i
      | none => l
  let d1 := d.setChain fun c => { c with outstanding := keep c.outstanding }
  let more := !lost && (d.chain.outstanding.find? mine).any counts
  let d2 := if more then { d1 with port := { d1.port with prevAccepted := stick 8 (d1.port.prevAccepted + 1) } } else d1
  d2.replyNews r

/-- The bytes of the reply under way that have not been sent: the last of the stream, behind which every other reply waits
(16 R474). The precentor sends none of it. -/
def Chain.unsent (c : Chain) : Nat := if c.head then c.partReply.length else min c.partReply.length c.upstream.length

/-- A gap in SSEQ, or a frame that fails its CRC, costs the reply under way (16 R474). Where its first bytes have been sent, a
segment number is left out, so that the next device finds a gap too: DESIGN CHOICE, log entry 187. -/
def Chain.dropPart (c : Chain) : Chain :=
  if c.partReply.isEmpty then c
  else
    let cut := c.unsent < c.partReply.length
    { c with
      partReply := [], upDropped := stick 16 (c.upDropped + 1), ownHeld := []
      upSseq := if cut then c.upSseq + 1 else c.upSseq
      upstream := (if c.head then c.upstream else c.upstream.take (c.upstream.length - c.unsent)) ++ c.ownHeld }

/-- What goes on of the replies that a segment completes, and the ones lost: the reply under way is `sent` bytes gone, and
goes on to its end then even if its CRC fails, which the next device finds (16 R474, log entry 187). -/
def passReplies (sent : Nat) : List (List Byte × Bool) → List Byte × List Byte × Nat
  | [] => ([], [], 0)
  | (r, good) :: rest =>
    let later := (rest.filter fun r => r.2).map (·.1)
    let lost := (rest.filter fun r => !r.2).length
    if good || 0 < sent then (r.drop sent, later.flatten, lost) else ([], later.flatten, lost + 1)

/-- A chain device forwards what has come of the replies, from the measure after it on (16 R474): the reply under way to its
end, then its own that have waited for it, then the ones that began later. -/
def Chain.passUp (c : Chain) (rs : List (List Byte × Bool)) (left seg : List Byte) : Chain :=
  if rs.isEmpty then { c with partReply := left, upstream := c.upstream ++ seg }
  else
    let (first, later, lost) := passReplies (c.partReply.length - c.unsent) rs
    { c with
      partReply := left, ownHeld := [], upDropped := stick 16 (c.upDropped + lost)
      upstream := c.upstream.take (c.upstream.length - c.unsent) ++ first ++ c.ownHeld ++ later ++ left }

/-- The segment of a valid upstream frame (16 R474, R475). One that the 16 KiB do not hold is lost as by a gap (log entry
188). -/
def Dev.takeUpSegment (d : Dev) (f : UpFrame) : Dev :=
  if f.seg.isEmpty then d
  else
    let gap := match d.chain.upSeq with
      | some n => f.sseq != n + 1
      | none => false
    let d1 := d.setChain fun c => { (if gap then c.dropPart else c) with upSeq := some f.sseq }
    let all := d1.chain.partReply ++ f.seg
    let (rs, left) := takeReplies all.length all
    if d1.chain.head then
      let d2 := d1.setChain fun c => { c with
        partReply := left, upDropped := stick 16 (c.upDropped + (rs.filter fun r => !r.2).length) }
      ((rs.filter fun r => r.2).map (·.1)).foldl Dev.arrive d2
    else d1.setChain fun c =>
      if 16384 < c.upstream.length + c.ownHeld.length + f.seg.length then c.dropPart else c.passUp rs left f.seg

/-- The measured delay of the link moves by at most 1 tick a measure (16 R467). -/
def towards (a b : Nat) : Nat := if a < b then a + 1 else if b < a then a - 1 else a

/-- When an upstream frame's start would come over a link without delay: 56 positions and one decode delay after the device's
own boundary (16 R467). -/
def Dev.upDue (d : Dev) : Nat := d.boundary + 56 * charPos + 360

/-- A valid upstream frame: its REACH, its breath entries and its segment (16 R474, R478, R485). -/
def Dev.receiveUp (d : Dev) (k : Fin 2) (f : UpFrame) (linkTicks : Nat) : Dev :=
  let d1 := (d.goodFrame k).modPort k fun x => { x with delay := towards x.delay linkTicks }
  let d2 := d1.setChain fun c =>
    let c1 := { c with merged := c.merged ++ f.breath }
    if !c.head then { c1 with reachB := f.reach, reachBAt := d.now }
    else if k = 1 then
      let c2 : Chain := { c1 with reachB := f.reach, reachBAt := d.now }
      c2.hear d.now fun a => a ≤ f.reach && a ≤ c.count
    else
      let c2 : Chain := { c1 with reachA := some f.reach, reachAAt := d.now }
      c2.hear d.now fun a => f.reach ≤ a && f.reach ≠ 0 && a ≤ c.count
  (if d2.chain.head then d2.followBreak else d2).takeUpSegment f

/-- The link's delay that an upstream frame measures, whose start came at `at_`: half of what is left (16 R467). -/
def Dev.linkDelay (d : Dev) (at_ : Nat) : Nat := (at_ - d.upDue) / 2

/-- UPSTREAM_FRAME (16 R460, R467, R474): its CRC has come on the port that sends downstream; its start came 36 characters
earlier, `start` ticks into that slot. One that starts elsewhere than expected, or with a character that is no code, is no
frame. -/
def execUpstreamFrame (dt : Nat) (port : AkPort) (f : RxFrame) (start : Fin 8) (s : State) :
    Host.Outcome State Fault Refusal :=
  s.run dt fun d =>
    let k := portNo port
    let g := upOf f.chars
    let at_ := d.now - upLen + start.val
    let listens := if d.chain.head then k = 1 || d.chain.sendA else (k = 1) != d.chain.turned
    if !d.chainLive || !listens || (d.chain.ports.get k).outOfService || !f.codes ||
        !within2 at_ (d.upDue + 2 * (d.chain.ports.get k).delay) then d
    else if g.ok then d.receiveUp k g (d.linkDelay at_)
    else (d.badFrame k).setChain Chain.dropPart

/-! ### Enumeration and the ring (16 R464, R482, R483) -/

/-- ENUMERATION_DONE (16 R464): after 32 measures; the enumerated set is every address up to the last one reached. A device
goes without an address only where all 62 are taken (16 R463). -/
def execEnumerationDone (e : EnumEnd) (s : State) : Host.Outcome State Fault Refusal :=
  s.run e.dt fun d =>
    if d.chain.head && d.chain.enumLeft = some 0 && d.chain.enumEndAt ≤ d.now && d.atBoundary then
      let n := min d.chain.reachB 62
      let matched := d.chain.expect_ = 255 || d.chain.expect_ = n
      let d1 := d.setChain fun c => { c with
        enumLeft := none, enumerated := true, count := n, unreachable := [], reachA := none
        heard := (List.range n).map fun i => (i + 1, d.now) }
      (d1.event 0x0901 0xFF [b8 n, b8 (boolNat matched), b8 (boolNat (n = 62 && e.beyond))]).followBreak
    else d

/-- RING_CLOSE_RESULT (16 R482): frames with HOP equal to the count have come back for 8 measures, or 8 measures have passed
without them. -/
def execRingCloseResult (dt : Nat) (_returned _hop : Told) (s : State) : Host.Outcome State Fault Refusal :=
  s.run dt fun d =>
    if d.chain.ring ≠ .closing || d.now < d.chain.closingAt + 8 * 30720 then d
    else if 8 ≤ d.chain.returned then (d.setChain fun c => { c with ring := .closed }).event 0x0907 0xFF []
    else (d.setChain fun c => { c with ring := .open_ }).event 0x0909 0xFF [(d.chain.backHop.map b8).getD 0xFF]

/-- LINK_DOWN (16 R483): four consecutive measures without a valid frame. -/
def execLinkDown (dt : Nat) (port : AkPort) (s : State) : Host.Outcome State Fault Refusal :=
  s.run dt fun d =>
    let k := portNo port
    let x := d.chain.ports.get k
    let armed := d.chain.head && k = 0 && d.chain.ring = .closed
    if 4 ≤ x.missRun && (x.up || armed) then d.portDown k else d

/-- HOP_LOOPBACK_DONE (16 R487), 4 measures after it began: an INTERNAL outcome retires the port, which counts as DOWN. -/
def execHopLoopbackDone (dt : Nat) (port : AkPort) (result : CheckResult) (s : State) : Host.Outcome State Fault Refusal :=
  s.run dt fun d =>
    let k := portNo port
    if !(d.chain.ports.get k).checking || d.now < (d.chain.ports.get k).checkAt + 4 * 30720 then d
    else
      let o := outcomeOf result
      let d1 := (d.modPort k fun x => { x with checking := false, missRun := 0, heard := false }).unitChecked (0x60 + k.val) 0x83 o 41
      match o with
      | .internal => (d1.modPort k fun x => { x with retired := true }).portDown k
      | _ => d1

/-! ### Breaks (16 R480, R485, R486) -/

/-- The device was last heard at this time. -/
def Dev.lastHeard (d : Dev) (addr : Nat) : Nat := (d.chain.heard.lookup addr).getD 0

/-- DEVICE_UNREACHABLE (16 R485, R475): the packets still outstanding to the device are answered UNREACHABLE. -/
def execDeviceUnreachable (dt addr : Nat) (s : State) : Host.Outcome State Fault Refusal :=
  s.run dt fun d =>
    if d.chain.head && d.chain.enumerated && 1 ≤ addr && addr ≤ d.chain.count && !d.chain.unreachable.contains addr &&
        d.lastHeard addr + d.linkTime ≤ d.now then
      let lost := d.chain.outstanding.filter fun o => o.addr = addr
      let d1 := d.setChain fun c => { c with
        unreachable := c.unreachable ++ [addr], outstanding := c.outstanding.filter fun o => o.addr ≠ addr }
      let tell (d : Dev) (o : Outstanding) : Dev :=
        d.replyNews { src := addr, opc := o.opc, tag := o.tag, status := stUnreachable, data := [], settle := none }
      (lost.foldl tell d1).followBreak
    else d

/-- The chain device has had no valid downstream frame for `n` ticks. -/
def Dev.deadFor (d : Dev) (n : Nat) : Bool := match d.chain.lastFrame with
  | some t => t + n ≤ d.now
  | none => false

/-- LINK_TIMEOUT (16 R486): the chain is declared broken, the domain is left, and CONDUCTED becomes FALLBACK. -/
def execLinkTimeout (dt : Nat) (s : State) : Host.Outcome State Fault Refusal :=
  s.run dt fun d =>
    if !d.chain.head && d.chain.addr.isSome && !d.chain.linkTimeout && d.chainLive && d.deadFor d.linkTime then
      let d1 := (d.setChain fun c => { c with linkTimeout := true, broken := true }).dropPending
      let d2 := d1.syncDomain.event 0x0906 d.ownAddr []
      if d2.ctl.mode = .conducted then d2.enterFallback 2 else d2
    else d

/-- CHAIN_ACAP (16 R486, 08 R239): the chain has been dead for T_ACAP. -/
def execChainAcap (dt : Nat) (s : State) : Host.Outcome State Fault Refusal :=
  s.run dt fun d =>
    if !d.chain.head && d.chain.addr.isSome && d.chain.linkTimeout && d.ctl.mode = .fallback && d.deadFor d.acapTime then
      d.enterAcappella 2
    else d

/-- BREATH_RECLAIM (16 R480): nothing heard from the device for twice LINK_TIMEOUT. -/
def execBreathReclaim (dt addr : Nat) (s : State) : Host.Outcome State Fault Refusal :=
  s.run dt fun d =>
    let mine := d.chain.holders.filter fun h => h.1 = addr && 0 < h.2.2
    if d.chain.head && addr ≠ 0 && d.lastHeard addr + 2 * d.linkTime ≤ d.now then
      let d1 := d.setChain fun c => { c with holders := c.holders.filter fun h => h.1 ≠ addr }
      mine.foldl (fun d h =>
        (d.setChain fun c => c.modPool h.2.1 fun x => { x with outstanding := x.outstanding - h.2.2 }).event 0x090C addr
          [b8 h.2.1, b8 h.2.2]) d1
    else d

end Sys2Proof.Machine
end

