-- ==== Sys2Proof/Machine/Opcodes.lean ====
section
/-! DEFINITION. The opcode rows (05 "Opcode index"): each is its packet at a commit edge, through the checks of R130 and the
opcode's own action (Packet.lean). A row that is one action of an opcode puts that action in front of its parameters. -/

namespace Sys2Proof.Machine
open Sys2Proof

/-- NOP (05 R137). -/
def execNop (p : Pkt) (s : State) : Host.Outcome State Fault Refusal := s.packet 0x00 p.dest p.tag p.params

/-- IDENTIFY (05 R138). -/
def execIdentify (p : Pkt) (s : State) : Host.Outcome State Fault Refusal := s.packet 0x01 p.dest p.tag p.params

/-- STATUS_DETAIL (05 R139). -/
def execStatusDetail (p : Pkt) (s : State) : Host.Outcome State Fault Refusal := s.packet 0x02 p.dest p.tag p.params

/-- EVENT_READ (05 R144). -/
def execEventRead (p : Pkt) (s : State) : Host.Outcome State Fault Refusal := s.packet 0x03 p.dest p.tag p.params

/-- EVENT_ACK (05 R145). -/
def execEventAck (p : Pkt) (s : State) : Host.Outcome State Fault Refusal := s.packet 0x04 p.dest p.tag p.params

/-- SOFT_RESET (05 R140). -/
def execSoftReset (p : Pkt) (s : State) : Host.Outcome State Fault Refusal := s.packet 0x06 p.dest p.tag p.params

/-- PARAM_WRITE (05 R146, 04 R104). -/
def execParamWrite (p : Pkt) (s : State) : Host.Outcome State Fault Refusal := s.packet 0x10 p.dest p.tag p.params

/-- PARAM_READ (05 R147). -/
def execParamRead (p : Pkt) (s : State) : Host.Outcome State Fault Refusal := s.packet 0x11 p.dest p.tag p.params

/-- IMAGE_CHECK (05 R148). -/
def execImageCheck (p : Pkt) (s : State) : Host.Outcome State Fault Refusal := s.packet 0x12 p.dest p.tag p.params

/-- CONDUCT (05 R149, 02 R60). -/
def execConduct (p : Pkt) (s : State) : Host.Outcome State Fault Refusal := s.packet 0x13 p.dest p.tag p.params

/-- PARAM_WRITE_LIVE (05 R146, 04 R105). -/
def execParamWriteLive (p : Pkt) (s : State) : Host.Outcome State Fault Refusal := s.packet 0x14 p.dest p.tag p.params

/-- ACAPPELLA (05 R150, 02 R65). -/
def execAcappella (p : Pkt) (s : State) : Host.Outcome State Fault Refusal := s.packet 0x15 p.dest p.tag p.params

/-- VOICE_SET with ACTION ON (05 R151, R152). -/
def execVoiceSetOn (p : Pkt) (s : State) : Host.Outcome State Fault Refusal := s.packet 0x20 p.dest p.tag (1 :: p.params)

/-- VOICE_SET with ACTION OFF (05 R151, R152). -/
def execVoiceSetOff (p : Pkt) (s : State) : Host.Outcome State Fault Refusal := s.packet 0x20 p.dest p.tag (0 :: p.params)

/-- VOICE_DUTY (05 R153). -/
def execVoiceDuty (p : Pkt) (s : State) : Host.Outcome State Fault Refusal := s.packet 0x21 p.dest p.tag p.params

/-- VOICE_CLEAR_FAULT (05 R154). -/
def execVoiceClearFault (p : Pkt) (s : State) : Host.Outcome State Fault Refusal := s.packet 0x22 p.dest p.tag p.params

/-- VOICE_RETIRE (05 R155). -/
def execVoiceRetire (p : Pkt) (s : State) : Host.Outcome State Fault Refusal := s.packet 0x23 p.dest p.tag p.params

/-- The four bits of a bank mask as a byte, bank A lowest (05 R156). -/
def bankByte (banks : BitVec 4) : Byte := banks.setWidth 8

/-- BANK_CUT of the selected banks (05 R156). -/
def execBankCut (h : Hdr) (banks : BitVec 4) (s : State) : Host.Outcome State Fault Refusal :=
  s.packet 0x24 h.dest h.tag [bankByte banks <<< 4 ||| bankByte banks]

/-- BANK_CUT with the cut bits of the selected banks 0 (05 R156). -/
def execBankRestore (h : Hdr) (banks : BitVec 4) (s : State) : Host.Outcome State Fault Refusal :=
  s.packet 0x24 h.dest h.tag [bankByte banks <<< 4]

/-- PARK (05 R157). -/
def execPark (p : Pkt) (s : State) : Host.Outcome State Fault Refusal := s.packet 0x25 p.dest p.tag p.params

/-- RESUME (05 R158). -/
def execResume (p : Pkt) (s : State) : Host.Outcome State Fault Refusal := s.packet 0x26 p.dest p.tag p.params

/-- CUE_ADD (05 R159, 10 R278). -/
def execCueAdd (p : Pkt) (s : State) : Host.Outcome State Fault Refusal := s.packet 0x30 p.dest p.tag p.params

/-- CUE_CANCEL (05 R160). -/
def execCueCancel (p : Pkt) (s : State) : Host.Outcome State Fault Refusal := s.packet 0x31 p.dest p.tag p.params

/-- CUE_QUERY with FROM_ID and MAX (05 R161). -/
def execCueQuery (p : Pkt) (s : State) : Host.Outcome State Fault Refusal := s.packet 0x32 p.dest p.tag p.params

/-- CUE_QUERY in its STATS form (10 R299). -/
def execCueQueryStats (h : Hdr) (ctrl reserved : Byte) (s : State) : Host.Outcome State Fault Refusal :=
  s.packet 0x32 h.dest h.tag [ctrl, reserved]

/-- ODOMETER_READ (05 R162). -/
def execOdometerRead (h : Hdr) (s : State) : Host.Outcome State Fault Refusal := s.packet 0x34 h.dest h.tag []

/-- ODOMETER_READ in its REBASE form (05 R162). -/
def execOdometerRebase (h : Hdr) (value : BitVec 64) (s : State) : Host.Outcome State Fault Refusal :=
  s.packet 0x34 h.dest h.tag (leBytes 8 value.toNat)

/-- ODOMETER_READ in its TALLY form (09 R269). -/
def execTallyRead (h : Hdr) (input maxEntries ctrl reserved : Byte) (s : State) : Host.Outcome State Fault Refusal :=
  s.packet 0x34 h.dest h.tag [input, maxEntries, ctrl, reserved]

/-- LEAD_READ (05 R163). -/
def execLeadRead (p : Pkt) (s : State) : Host.Outcome State Fault Refusal := s.packet 0x35 p.dest p.tag p.params

/-- ADC_READ_BUFFER (11 R327). -/
def execAdcReadBuffer (p : Pkt) (s : State) : Host.Outcome State Fault Refusal := s.packet 0x40 p.dest p.tag p.params

/-- CONVERT_NOW (11 R315). -/
def execConvertNow (p : Pkt) (s : State) : Host.Outcome State Fault Refusal := s.packet 0x41 p.dest p.tag p.params

/-- The four action bytes of ADC_ENGINE_CTRL, E0 first: `action` for each selected engine (11 R329). -/
def engineBytes (engines : BitVec 4) (action : Byte) : List Byte :=
  (List.range 4).map fun k => if engines.getLsbD k then action else 0

/-- ADC_ENGINE_CTRL with PAUSE for the selected engines (11 R329). -/
def execAdcEnginePause (h : Hdr) (engines : BitVec 4) (s : State) : Host.Outcome State Fault Refusal :=
  s.packet 0x42 h.dest h.tag (engineBytes engines 1)

/-- ADC_ENGINE_CTRL with RUN for the selected engines (11 R329). -/
def execAdcEngineRun (h : Hdr) (engines : BitVec 4) (s : State) : Host.Outcome State Fault Refusal :=
  s.packet 0x42 h.dest h.tag (engineBytes engines 2)

/-- ADC_ENGINE_CTRL with FLUSH for the selected engines (11 R329). -/
def execAdcEngineFlush (h : Hdr) (engines : BitVec 4) (s : State) : Host.Outcome State Fault Refusal :=
  s.packet 0x42 h.dest h.tag (engineBytes engines 3)

/-- ADC_CAL_STATUS (11 R330). -/
def execAdcCalStatus (p : Pkt) (s : State) : Host.Outcome State Fault Refusal := s.packet 0x43 p.dest p.tag p.params

/-- WAVE_CTRL with ACTION REPORT (12 R351). -/
def execWaveReport (p : Pkt) (s : State) : Host.Outcome State Fault Refusal := s.packet 0x50 p.dest p.tag (0 :: p.params)

/-- WAVE_CTRL with ACTION FREEZE (12 R351). -/
def execWaveFreeze (p : Pkt) (s : State) : Host.Outcome State Fault Refusal := s.packet 0x50 p.dest p.tag (1 :: p.params)

/-- WAVE_CTRL with ACTION RELEASE (12 R351). -/
def execWaveRelease (p : Pkt) (s : State) : Host.Outcome State Fault Refusal := s.packet 0x50 p.dest p.tag (2 :: p.params)

/-- WAVE_CTRL with ACTION ARM_FAULT (12 R351). -/
def execWaveArmFault (p : Pkt) (s : State) : Host.Outcome State Fault Refusal := s.packet 0x50 p.dest p.tag (3 :: p.params)

/-- WAVE_CTRL with ACTION CLEAR (12 R351). -/
def execWaveClear (p : Pkt) (s : State) : Host.Outcome State Fault Refusal := s.packet 0x50 p.dest p.tag (4 :: p.params)

/-- WAVE_STATUS (12 R352). -/
def execWaveStatus (p : Pkt) (s : State) : Host.Outcome State Fault Refusal := s.packet 0x51 p.dest p.tag p.params

/-- THERMAL_READ (13 R380). -/
def execThermalRead (p : Pkt) (s : State) : Host.Outcome State Fault Refusal := s.packet 0x60 p.dest p.tag p.params

/-- THROTTLE_ACK (13 R381). -/
def execThrottleAck (p : Pkt) (s : State) : Host.Outcome State Fault Refusal := s.packet 0x61 p.dest p.tag p.params

/-- ANCHOR_BLIP (13 R382). -/
def execAnchorBlip (p : Pkt) (s : State) : Host.Outcome State Fault Refusal := s.packet 0x62 p.dest p.tag p.params

/-- NV_READ (14 R415). -/
def execNvRead (p : Pkt) (s : State) : Host.Outcome State Fault Refusal := s.packet 0x70 p.dest p.tag p.params

/-- NV_PROGRAM (14 R412). -/
def execNvProgram (p : Pkt) (s : State) : Host.Outcome State Fault Refusal := s.packet 0x71 p.dest p.tag p.params

/-- NV_ERASE (14 R413). -/
def execNvErase (p : Pkt) (s : State) : Host.Outcome State Fault Refusal := s.packet 0x72 p.dest p.tag p.params

/-- NV_PROTECT (14 R414). -/
def execNvProtect (p : Pkt) (s : State) : Host.Outcome State Fault Refusal := s.packet 0x73 p.dest p.tag p.params

/-- REC_WRITE (14 R416). -/
def execRecWrite (p : Pkt) (s : State) : Host.Outcome State Fault Refusal := s.packet 0x74 p.dest p.tag p.params

/-- REC_READ (14 R417). -/
def execRecRead (p : Pkt) (s : State) : Host.Outcome State Fault Refusal := s.packet 0x75 p.dest p.tag p.params

/-- REC_DELETE (14 R416). -/
def execRecDelete (p : Pkt) (s : State) : Host.Outcome State Fault Refusal := s.packet 0x76 p.dest p.tag p.params

/-- NV_STATUS (14 R419). -/
def execNvStatus (p : Pkt) (s : State) : Host.Outcome State Fault Refusal := s.packet 0x77 p.dest p.tag p.params

/-- MARGIN_READ (14 R418). -/
def execMarginRead (p : Pkt) (s : State) : Host.Outcome State Fault Refusal := s.packet 0x78 p.dest p.tag p.params

/-- LIFETIME_READ (14 R420). -/
def execLifetimeRead (p : Pkt) (s : State) : Host.Outcome State Fault Refusal := s.packet 0xA2 p.dest p.tag p.params

/-- SCORE_TOTALS (15 R444). -/
def execScoreTotals (p : Pkt) (s : State) : Host.Outcome State Fault Refusal := s.packet 0x80 p.dest p.tag p.params

/-- SCORE_LEGAL_SET (15 R445). -/
def execScoreLegalSet (p : Pkt) (s : State) : Host.Outcome State Fault Refusal := s.packet 0x81 p.dest p.tag p.params

/-- SCORE_SECTION_MAP (15 R446). -/
def execScoreSectionMap (p : Pkt) (s : State) : Host.Outcome State Fault Refusal := s.packet 0x85 p.dest p.tag p.params

/-- SCORE_JOB with ACTION START (15 R447). -/
def execScoreJobStart (p : Pkt) (s : State) : Host.Outcome State Fault Refusal := s.packet 0x84 p.dest p.tag (0 :: p.params)

/-- SCORE_JOB with ACTION END (15 R447). -/
def execScoreJobEnd (p : Pkt) (s : State) : Host.Outcome State Fault Refusal := s.packet 0x84 p.dest p.tag (1 :: p.params)

/-- SCORE_JOB with ACTION DIAG (15 R447). -/
def execScoreJobDiag (p : Pkt) (s : State) : Host.Outcome State Fault Refusal := s.packet 0x84 p.dest p.tag (2 :: p.params)

/-- SCORE_AUDIT_READ (15 R448). -/
def execScoreAuditRead (p : Pkt) (s : State) : Host.Outcome State Fault Refusal := s.packet 0x82 p.dest p.tag p.params

/-- SCORE_IDENT (15 R449). -/
def execScoreIdent (p : Pkt) (s : State) : Host.Outcome State Fault Refusal := s.packet 0x83 p.dest p.tag p.params

/-- CHAIN_ENUMERATE (16 R464, R466). -/
def execChainEnumerate (p : Pkt) (s : State) : Host.Outcome State Fault Refusal := s.packet 0x90 p.dest p.tag p.params

/-- CHAIN_STATUS (16 R489). -/
def execChainStatus (p : Pkt) (s : State) : Host.Outcome State Fault Refusal := s.packet 0x91 p.dest p.tag p.params

/-- CHAIN_RING OPEN (16 R482). -/
def execChainRingOpen (h : Hdr) (s : State) : Host.Outcome State Fault Refusal := s.packet 0x92 h.dest h.tag [0]

/-- CHAIN_RING CLOSE (16 R482). -/
def execChainRingClose (h : Hdr) (s : State) : Host.Outcome State Fault Refusal := s.packet 0x92 h.dest h.tag [1]

/-- CHAIN_RING RESTORE (16 R482). -/
def execChainRingRestore (h : Hdr) (s : State) : Host.Outcome State Fault Refusal := s.packet 0x92 h.dest h.tag [2]

/-- BREATH_CTRL (16 R481). -/
def execBreathCtrl (p : Pkt) (s : State) : Host.Outcome State Fault Refusal := s.packet 0x93 p.dest p.tag p.params

/-- SOUNDCHECK_RUN (07 R229). -/
def execSoundcheckRun (p : Pkt) (s : State) : Host.Outcome State Fault Refusal := s.packet 0xA0 p.dest p.tag p.params

/-- SOUNDCHECK_RESULT (07 R230). -/
def execSoundcheckResult (p : Pkt) (s : State) : Host.Outcome State Fault Refusal := s.packet 0xA1 p.dest p.tag p.params

/-- PATCH_LOAD with PHASE BEGIN (05 R164 to R167). -/
def execPatchBegin (p : Pkt) (s : State) : Host.Outcome State Fault Refusal := s.packet 0xF0 p.dest p.tag (0 :: p.params)

/-- PATCH_LOAD with PHASE DATA (05 R164 to R167). -/
def execPatchData (p : Pkt) (s : State) : Host.Outcome State Fault Refusal := s.packet 0xF0 p.dest p.tag (1 :: p.params)

/-- PATCH_LOAD with PHASE END (05 R165 to R167). -/
def execPatchEnd (p : Pkt) (s : State) : Host.Outcome State Fault Refusal := s.packet 0xF0 p.dest p.tag (2 :: p.params)

/-- PATCH_LOAD with PHASE ABORT (05 R164 to R167). -/
def execPatchAbort (p : Pkt) (s : State) : Host.Outcome State Fault Refusal := s.packet 0xF0 p.dest p.tag (3 :: p.params)

/-- PATCH_STATUS (05 R168). -/
def execPatchStatus (p : Pkt) (s : State) : Host.Outcome State Fault Refusal := s.packet 0xF1 p.dest p.tag p.params

end Sys2Proof.Machine
end

