-- ==== Sys2Proof/Machine/Dispatch.lean ====
section
/-! DEFINITION. The command dispatch: one arm per constructor of `Instr`, each a direct call of that command's own
meaning. -/

namespace Sys2Proof.Machine
open Sys2Proof

def exec (i : Instr) (s : State) : Host.Outcome State Fault Refusal :=
  match i with
  | .bar dt low sdi bits cut => Sys2Proof.Machine.execBar dt low sdi bits cut s
  | .commitEdge dt => Sys2Proof.Machine.execCommitEdge dt s
  | .downbeat dt => Sys2Proof.Machine.execDownbeat dt s
  | .watchdog dt => Sys2Proof.Machine.execWatchdog dt s
  | .rstn dt => Sys2Proof.Machine.execRstn dt s
  | .hostPortOpen dt => Sys2Proof.Machine.execHostPortOpen dt s
  | .vioLost dt => Sys2Proof.Machine.execVioLost dt s
  | .vioReturn dt => Sys2Proof.Machine.execVioReturn dt s
  | .nop p => Sys2Proof.Machine.execNop p s
  | .identify p => Sys2Proof.Machine.execIdentify p s
  | .statusDetail p => Sys2Proof.Machine.execStatusDetail p s
  | .eventRead p => Sys2Proof.Machine.execEventRead p s
  | .eventAck p => Sys2Proof.Machine.execEventAck p s
  | .softReset p => Sys2Proof.Machine.execSoftReset p s
  | .paramWrite p => Sys2Proof.Machine.execParamWrite p s
  | .paramRead p => Sys2Proof.Machine.execParamRead p s
  | .imageCheck p => Sys2Proof.Machine.execImageCheck p s
  | .conduct p => Sys2Proof.Machine.execConduct p s
  | .paramWriteLive p => Sys2Proof.Machine.execParamWriteLive p s
  | .acappella p => Sys2Proof.Machine.execAcappella p s
  | .voiceSetOn p => Sys2Proof.Machine.execVoiceSetOn p s
  | .voiceSetOff p => Sys2Proof.Machine.execVoiceSetOff p s
  | .voiceDuty p => Sys2Proof.Machine.execVoiceDuty p s
  | .voiceClearFault p => Sys2Proof.Machine.execVoiceClearFault p s
  | .voiceRetire p => Sys2Proof.Machine.execVoiceRetire p s
  | .bankCut h banks => Sys2Proof.Machine.execBankCut h banks s
  | .bankRestore h banks => Sys2Proof.Machine.execBankRestore h banks s
  | .park p => Sys2Proof.Machine.execPark p s
  | .resume p => Sys2Proof.Machine.execResume p s
  | .cueAdd p => Sys2Proof.Machine.execCueAdd p s
  | .cueCancel p => Sys2Proof.Machine.execCueCancel p s
  | .cueQuery p => Sys2Proof.Machine.execCueQuery p s
  | .cueQueryStats h ctrl reserved => Sys2Proof.Machine.execCueQueryStats h ctrl reserved s
  | .odometerRead h => Sys2Proof.Machine.execOdometerRead h s
  | .odometerRebase h value => Sys2Proof.Machine.execOdometerRebase h value s
  | .tallyRead h input maxEntries ctrl reserved => Sys2Proof.Machine.execTallyRead h input maxEntries ctrl reserved s
  | .leadRead p => Sys2Proof.Machine.execLeadRead p s
  | .adcReadBuffer p => Sys2Proof.Machine.execAdcReadBuffer p s
  | .convertNow p => Sys2Proof.Machine.execConvertNow p s
  | .adcEnginePause h engines => Sys2Proof.Machine.execAdcEnginePause h engines s
  | .adcEngineRun h engines => Sys2Proof.Machine.execAdcEngineRun h engines s
  | .adcEngineFlush h engines => Sys2Proof.Machine.execAdcEngineFlush h engines s
  | .adcCalStatus p => Sys2Proof.Machine.execAdcCalStatus p s
  | .waveReport p => Sys2Proof.Machine.execWaveReport p s
  | .waveFreeze p => Sys2Proof.Machine.execWaveFreeze p s
  | .waveRelease p => Sys2Proof.Machine.execWaveRelease p s
  | .waveArmFault p => Sys2Proof.Machine.execWaveArmFault p s
  | .waveClear p => Sys2Proof.Machine.execWaveClear p s
  | .waveStatus p => Sys2Proof.Machine.execWaveStatus p s
  | .thermalRead p => Sys2Proof.Machine.execThermalRead p s
  | .throttleAck p => Sys2Proof.Machine.execThrottleAck p s
  | .anchorBlip p => Sys2Proof.Machine.execAnchorBlip p s
  | .nvRead p => Sys2Proof.Machine.execNvRead p s
  | .nvProgram p => Sys2Proof.Machine.execNvProgram p s
  | .nvErase p => Sys2Proof.Machine.execNvErase p s
  | .nvProtect p => Sys2Proof.Machine.execNvProtect p s
  | .recWrite p => Sys2Proof.Machine.execRecWrite p s
  | .recRead p => Sys2Proof.Machine.execRecRead p s
  | .recDelete p => Sys2Proof.Machine.execRecDelete p s
  | .nvStatus p => Sys2Proof.Machine.execNvStatus p s
  | .marginRead p => Sys2Proof.Machine.execMarginRead p s
  | .lifetimeRead p => Sys2Proof.Machine.execLifetimeRead p s
  | .scoreTotals p => Sys2Proof.Machine.execScoreTotals p s
  | .scoreLegalSet p => Sys2Proof.Machine.execScoreLegalSet p s
  | .scoreSectionMap p => Sys2Proof.Machine.execScoreSectionMap p s
  | .scoreJobStart p => Sys2Proof.Machine.execScoreJobStart p s
  | .scoreJobEnd p => Sys2Proof.Machine.execScoreJobEnd p s
  | .scoreJobDiag p => Sys2Proof.Machine.execScoreJobDiag p s
  | .scoreAuditRead p => Sys2Proof.Machine.execScoreAuditRead p s
  | .scoreIdent p => Sys2Proof.Machine.execScoreIdent p s
  | .chainEnumerate p => Sys2Proof.Machine.execChainEnumerate p s
  | .chainStatus p => Sys2Proof.Machine.execChainStatus p s
  | .chainRingOpen h => Sys2Proof.Machine.execChainRingOpen h s
  | .chainRingClose h => Sys2Proof.Machine.execChainRingClose h s
  | .chainRingRestore h => Sys2Proof.Machine.execChainRingRestore h s
  | .breathCtrl p => Sys2Proof.Machine.execBreathCtrl p s
  | .soundcheckRun p => Sys2Proof.Machine.execSoundcheckRun p s
  | .soundcheckResult p => Sys2Proof.Machine.execSoundcheckResult p s
  | .patchBegin p => Sys2Proof.Machine.execPatchBegin p s
  | .patchData p => Sys2Proof.Machine.execPatchData p s
  | .patchEnd p => Sys2Proof.Machine.execPatchEnd p s
  | .patchAbort p => Sys2Proof.Machine.execPatchAbort p s
  | .patchStatus p => Sys2Proof.Machine.execPatchStatus p s
  | .powerOnReset dt banks => Sys2Proof.Machine.execPowerOnReset dt banks s
  | .controlBootDone dt zones => Sys2Proof.Machine.execControlBootDone dt zones s
  | .bootTimeout dt cause => Sys2Proof.Machine.execBootTimeout dt cause s
  | .recScanDone dt duration => Sys2Proof.Machine.execRecScanDone dt duration s
  | .scoreReset dt xin mseal levels => Sys2Proof.Machine.execScoreReset dt xin mseal levels s
  | .vmetLost loss => Sys2Proof.Machine.execVmetLost loss s
  | .vmetCommit dt => Sys2Proof.Machine.execVmetCommit dt s
  | .pllLock dt => Sys2Proof.Machine.execPllLock dt s
  | .lockTimeout dt => Sys2Proof.Machine.execLockTimeout dt s
  | .referenceLost dt => Sys2Proof.Machine.execReferenceLost dt s
  | .referenceReturn ret => Sys2Proof.Machine.execReferenceReturn ret s
  | .tbAdopted dt => Sys2Proof.Machine.execTbAdopted dt s
  | .scoreReady dt duration => Sys2Proof.Machine.execScoreReady dt duration s
  | .tbcWord dt valid word => Sys2Proof.Machine.execTbcWord dt valid word s
  | .tbLost dt cause => Sys2Proof.Machine.execTbLost dt cause s
  | .tbFallback dt => Sys2Proof.Machine.execTbFallback dt s
  | .tbQualified dt => Sys2Proof.Machine.execTbQualified dt s
  | .tbReturned dt => Sys2Proof.Machine.execTbReturned dt s
  | .fallbackBad dt => Sys2Proof.Machine.execFallbackBad dt s
  | .fallbackTrim dt => Sys2Proof.Machine.execFallbackTrim dt s
  | .timebaseMarkEnd dt => Sys2Proof.Machine.execTimebaseMarkEnd dt s
  | .scorePublication dt => Sys2Proof.Machine.execScorePublication dt s
  | .scoreSilent dt => Sys2Proof.Machine.execScoreSilent dt s
  | .mailboxMessage dt fate => Sys2Proof.Machine.execMailboxMessage dt fate s
  | .scoreRingCommit dt => Sys2Proof.Machine.execScoreRingCommit dt s
  | .tapSample dt taps => Sys2Proof.Machine.execTapSample dt taps s
  | .tallyEdge dt input rising merged => Sys2Proof.Machine.execTallyEdge dt input rising merged s
  | .scoreGroundEvaluation dt => Sys2Proof.Machine.execScoreGroundEvaluation dt s
  | .laxitiaRequest dt line => Sys2Proof.Machine.execLaxitiaRequest dt line s
  | .sealFuses dt ident verified => Sys2Proof.Machine.execSealFuses dt ident verified s
  | .timestampEdge dt input rising stamp pair => Sys2Proof.Machine.execTimestampEdge dt input rising stamp pair s
  | .stuckLevel dt input => Sys2Proof.Machine.execStuckLevel dt input s
  | .groundEvaluation dt => Sys2Proof.Machine.execGroundEvaluation dt s
  | .odoFrozen dt => Sys2Proof.Machine.execOdoFrozen dt s
  | .cueExecute dt => Sys2Proof.Machine.execCueExecute dt s
  | .breathGrant dt => Sys2Proof.Machine.execBreathGrant dt s
  | .breathSpanEnd dt v => Sys2Proof.Machine.execBreathSpanEnd dt v s
  | .breathWaitExpiry dt v => Sys2Proof.Machine.execBreathWaitExpiry dt v s
  | .signatureWindowExpiry dt v m => Sys2Proof.Machine.execSignatureWindowExpiry dt v m s
  | .lhLevelChange dt lh raw => Sys2Proof.Machine.execLhLevelChange dt lh raw s
  | .lhRateRelease dt v => Sys2Proof.Machine.execLhRateRelease dt v s
  | .chatter dt lh => Sys2Proof.Machine.execChatter dt lh s
  | .lhRearm dt lh => Sys2Proof.Machine.execLhRearm dt lh s
  | .gateRampEnd dt v => Sys2Proof.Machine.execGateRampEnd dt v s
  | .profilePhaseEnd dt v => Sys2Proof.Machine.execProfilePhaseEnd dt v s
  | .pwmPeriodStart dt v => Sys2Proof.Machine.execPwmPeriodStart dt v s
  | .pwmOffEdge dt v => Sys2Proof.Machine.execPwmOffEdge dt v s
  | .holdChopPeriod dt v clamped m => Sys2Proof.Machine.execHoldChopPeriod dt v clamped m s
  | .clampPulseEnd dt v pulse m => Sys2Proof.Machine.execClampPulseEnd dt v pulse m s
  | .fastTrip dt v stripes m => Sys2Proof.Machine.execFastTrip dt v stripes m s
  | .desatTrip dt v stripes m => Sys2Proof.Machine.execDesatTrip dt v stripes m s
  | .ocTimeout dt v m => Sys2Proof.Machine.execOcTimeout dt v m s
  | .gateFault dt v stripes m => Sys2Proof.Machine.execGateFault dt v stripes m s
  | .olOnDetect dt v ceased m => Sys2Proof.Machine.execOlOnDetect dt v ceased m s
  | .olOffDetect dt v ceased m => Sys2Proof.Machine.execOlOffDetect dt v ceased m s
  | .stuckOnDetect dt v ceased m => Sys2Proof.Machine.execStuckOnDetect dt v ceased m s
  | .revDetect dt v ceased m => Sys2Proof.Machine.execRevDetect dt v ceased m s
  | .soundcheckStart dt => Sys2Proof.Machine.execSoundcheckStart dt s
  | .soundcheckDone dt failed0 failed1 incomplete voHigh => Sys2Proof.Machine.execSoundcheckDone dt failed0 failed1 incomplete voHigh s
  | .retryDue dt v => Sys2Proof.Machine.execRetryDue dt v s
  | .retryClear dt v => Sys2Proof.Machine.execRetryClear dt v s
  | .staggeredTurnOff dt => Sys2Proof.Machine.execStaggeredTurnOff dt s
  | .cutPinNonConducting dt bank => Sys2Proof.Machine.execCutPinNonConducting dt bank s
  | .bankSupplyAbsent dt bank => Sys2Proof.Machine.execBankSupplyAbsent dt bank s
  | .bankSupplyPresent dt bank => Sys2Proof.Machine.execBankSupplyPresent dt bank s
  | .crank dt bank begins volts => Sys2Proof.Machine.execCrank dt bank begins volts s
  | .bankOv dt bank change volts => Sys2Proof.Machine.execBankOv dt bank change volts s
  | .chargePumpLow dt => Sys2Proof.Machine.execChargePumpLow dt s
  | .chargePumpRecovered dt => Sys2Proof.Machine.execChargePumpRecovered dt s
  | .bankCurrentSum dt sums => Sys2Proof.Machine.execBankCurrentSum dt sums s
  | .keepAliveFrame dt echoSame => Sys2Proof.Machine.execKeepAliveFrame dt echoSame s
  | .keepAliveLoss dt => Sys2Proof.Machine.execKeepAliveLoss dt s
  | .keepAliveReassert dt => Sys2Proof.Machine.execKeepAliveReassert dt s
  | .romCrcCheck dt crc => Sys2Proof.Machine.execRomCrcCheck dt crc s
  | .patchCrcCheck dt crc => Sys2Proof.Machine.execPatchCrcCheck dt crc s
  | .sramScrub dt corrected uncorrectable => Sys2Proof.Machine.execSramScrub dt corrected uncorrectable s
  | .zoneHardStop dt zone => Sys2Proof.Machine.execZoneHardStop dt zone s
  | .zoneReading dt readings => Sys2Proof.Machine.execZoneReading dt readings s
  | .modelUpdate dt => Sys2Proof.Machine.execModelUpdate dt s
  | .throttleGraceEnd dt u => Sys2Proof.Machine.execThrottleGraceEnd dt u s
  | .ceilingStep dt zone => Sys2Proof.Machine.execCeilingStep dt zone s
  | .blipEnd dt current voltage => Sys2Proof.Machine.execBlipEnd dt current voltage s
  | .zoneCheckDone dt zone result => Sys2Proof.Machine.execZoneCheckDone dt zone result s
  | .scanStart dt e => Sys2Proof.Machine.execScanStart dt e s
  | .atrgEdge dt pin rising => Sys2Proof.Machine.execAtrgEdge dt pin rising s
  | .conversion dt e raw => Sys2Proof.Machine.execConversion dt e raw s
  | .urgentConversion dt source input raw => Sys2Proof.Machine.execUrgentConversion dt source input raw s
  | .sliceCheckDone dt slice result => Sys2Proof.Machine.execSliceCheckDone dt slice result s
  | .calStep dt ends passed trims skew => Sys2Proof.Machine.execCalStep dt ends passed trims skew s
  | .waveFrame dt timing rate => Sys2Proof.Machine.execWaveFrame dt timing rate s
  | .inSlotWord dt slot word => Sys2Proof.Machine.execInSlotWord dt slot word s
  | .waveLoss dt cause => Sys2Proof.Machine.execWaveLoss dt cause s
  | .waveUnmute dt => Sys2Proof.Machine.execWaveUnmute dt s
  | .waveFrozen dt slot => Sys2Proof.Machine.execWaveFrozen dt slot s
  | .measureBoundary dt => Sys2Proof.Machine.execMeasureBoundary dt s
  | .downstreamFrame dt port f => Sys2Proof.Machine.execDownstreamFrame dt port f s
  | .upstreamFrame dt port f start => Sys2Proof.Machine.execUpstreamFrame dt port f start s
  | .enumerationDone e => Sys2Proof.Machine.execEnumerationDone e s
  | .ringCloseResult dt returned hop => Sys2Proof.Machine.execRingCloseResult dt returned hop s
  | .linkDown dt port => Sys2Proof.Machine.execLinkDown dt port s
  | .deviceUnreachable dt addr => Sys2Proof.Machine.execDeviceUnreachable dt addr s
  | .linkTimeout dt => Sys2Proof.Machine.execLinkTimeout dt s
  | .chainAcap dt => Sys2Proof.Machine.execChainAcap dt s
  | .breathReclaim dt addr => Sys2Proof.Machine.execBreathReclaim dt addr s
  | .hopLoopbackDone dt port result => Sys2Proof.Machine.execHopLoopbackDone dt port result s
  | .nvProgramDone dt failAt => Sys2Proof.Machine.execNvProgramDone dt failAt s
  | .nvEraseSectorDone dt verified => Sys2Proof.Machine.execNvEraseSectorDone dt verified s
  | .garbageCollection dt => Sys2Proof.Machine.execGarbageCollection dt s
  | .flashCheckDone dt result => Sys2Proof.Machine.execFlashCheckDone dt result s
  | .powerDown dt => Sys2Proof.Machine.execPowerDown dt s
  | .scoreCommitWait dt reported vhold => Sys2Proof.Machine.execScoreCommitWait dt reported vhold s
  | .lifetimeSaveDone dt => Sys2Proof.Machine.execLifetimeSaveDone dt s
  | .markerWrite dt => Sys2Proof.Machine.execMarkerWrite dt s
  | .parkedRestart dt => Sys2Proof.Machine.execParkedRestart dt s
  | .vholdFault dt volts => Sys2Proof.Machine.execVholdFault dt volts s
  | .porAssert dt => Sys2Proof.Machine.execPorAssert dt s
  | .flashFloor dt => Sys2Proof.Machine.execFlashFloor dt s
  | .vholdReady dt => Sys2Proof.Machine.execVholdReady dt s
  | .scoreDieTemperature dt tenths => Sys2Proof.Machine.execScoreDieTemperature dt tenths s
  | .chatterClear dt lh => Sys2Proof.Machine.execChatterClear dt lh s
  | .recordAppendDone dt verified => Sys2Proof.Machine.execRecordAppendDone dt verified s

end Sys2Proof.Machine
end

