-- ==== Sys2Proof/Safety.lean ====
section
/-! DEFINITION. What claims mean by a good device and by the part of it that a command may change. -/

namespace Sys2Proof.Machine
open Sys2Proof

/-- A list of keyed data is canonical: keys strictly rising and no entry at its default. -/
def canonical {α : Type} [DecidableEq α] (dflt : Nat → α) (l : List (Nat × α)) : Bool :=
  l.all (fun e => e.2 != dflt e.1) && l.Pairwise (fun a b => a.1 < b.1)

/-- The raw flash region is in canonical form: an unlisted byte reads 0xFF (14 R384). -/
def Memory.wf (m : List Host.Cell) : Bool := canonical (fun _ => 0xFF) m

/-- The log holds at most 256 events, numbered in order without a gap up to the number before the next one's (05 R141,
R142). -/
def EventLog.good (l : EventLog) : Prop :=
  l.events.length ≤ 256 ∧
    ∀ i (h : i < l.events.length), (l.events[i]).seq + BitVec.ofNat 32 (l.events.length - i) = l.nextSeq

/-- The forms that every step keeps: at most 64 replies (03 R93), the log in order (05 R141), at most 4,096 cues
(10 R279), and the raw flash region in canonical form. -/
structure Dev.Good (d : Dev) : Prop where
  replies : d.port.replies.length ≤ 64
  log : d.log.good
  cues : d.cues.queue.length ≤ 4096
  raw : Memory.wf d.nv.raw = true

/-- The parts of the device. -/
inductive Part where
  | headPin | time | ctl | ka | port | log | par | voices | banks | staggers | lh | cues | tally | odo | sc | conv | wave
  | therm | nv | score | link | chain | patch | pd | slotOffs | slotFaults | edges | found
deriving DecidableEq, Repr

/-- The part is the same in two devices. -/
def Part.same (p : Part) (d e : Dev) : Prop :=
  match p with
  | .headPin => d.headPin = e.headPin
  | .time => d.time = e.time
  | .ctl => d.ctl = e.ctl
  | .ka => d.ka = e.ka
  | .port => d.port = e.port
  | .log => d.log = e.log
  | .par => d.par = e.par
  | .voices => d.voices = e.voices
  | .banks => d.banks = e.banks
  | .staggers => d.staggers = e.staggers
  | .lh => d.lh = e.lh
  | .cues => d.cues = e.cues
  | .tally => d.tally = e.tally
  | .odo => d.odo = e.odo
  | .sc => d.sc = e.sc
  | .conv => d.conv = e.conv
  | .wave => d.wave = e.wave
  | .therm => d.therm = e.therm
  | .nv => d.nv = e.nv
  | .score => d.score = e.score
  | .link => d.link = e.link
  | .chain => d.chain = e.chain
  | .patch => d.patch = e.patch
  | .pd => d.pd = e.pd
  | .slotOffs => d.slotOffs = e.slotOffs
  | .slotFaults => d.slotFaults = e.slotFaults
  | .edges => d.edges = e.edges
  | .found => d.found = e.found

/-- When a slot begins nothing of the slot before is left over: every VOICE_SET reply is settled (05 R152), the chain's replies
have joined the upstream stream (16 R474), no downbeat, turn-off or scored fault waits (08 R238, 10 R292, 07 R203), and every
tally edge left came in an earlier slot (09 R264). -/
structure Dev.Settled (d : Dev) : Prop where
  replies : ∀ r ∈ d.port.replies, r.settle = none
  chain : d.chain.replies = []
  beat : d.chain.beat = false
  offs : d.slotOffs = 0
  faults : d.slotFaults = []
  edges : ∀ e ∈ d.edges, e.at_ < d.now

/-- What every step keeps: the forms of the device, and that the slot under way began with nothing left over. -/
structure State.Inv (s : State) : Prop where
  good : s.dev.Good
  settled : s.slot.Settled

/-- The packet for this device alone passes checks 3 to 8 of 05 R130: opcode, LEN, reserved bits, mode and scans. -/
def State.accepts (s : State) (opc : Byte) (a : List Byte) : Prop :=
  let p : Packet := { dest := 0, opc := opc, tag := 0, params := a }
  s.dev.precheck p = none ∧
    ∃ row, opRow opc a.length = some row ∧ s.dev.admits row opc false = true ∧ Dev.scanning s.snap s.dev p = false

/-- The reply joins the queue last; at 64 the oldest goes (03 R93). -/
def Answered (s t : State) (opc tag status : Byte) (data : List Byte) : Prop :=
  t.dev.port.replies = (s.dev.port.push { src := 0, opc := opc, tag := tag, status := status, data := data, settle := none }).replies

/-- The log of the device `d` with these events behind it, each a code, a unit and its data (05 R141, R142). -/
def Dev.loggedAs (d : Dev) (es : List (Nat × Nat × List Byte)) : EventLog :=
  es.foldl (fun (l : EventLog) e => l.push
    { seq := l.nextSeq, tbc := d.time.tbc, code := e.1, unit := e.2.1, acked := false
      fallbackTb := d.time.onFallback, data := data8 e.2.2 }) d.log

/-- After the command that the device `d` met, the log holds these events behind those of `d`, and no others. -/
def Logged (d : Dev) (es : List (Nat × Nat × List Byte)) (t : State) : Prop := t.dev.log = d.loggedAs es

/-- The packet that the command of an opcode row brings (05 "Opcode index"); no other command brings one. -/
def opcodePacket : Instr → Option Packet
  | .nop p => some ⟨p.dest, 0x00, p.tag, p.params⟩
  | .identify p => some ⟨p.dest, 0x01, p.tag, p.params⟩
  | .statusDetail p => some ⟨p.dest, 0x02, p.tag, p.params⟩
  | .eventRead p => some ⟨p.dest, 0x03, p.tag, p.params⟩
  | .eventAck p => some ⟨p.dest, 0x04, p.tag, p.params⟩
  | .softReset p => some ⟨p.dest, 0x06, p.tag, p.params⟩
  | .paramWrite p => some ⟨p.dest, 0x10, p.tag, p.params⟩
  | .paramRead p => some ⟨p.dest, 0x11, p.tag, p.params⟩
  | .imageCheck p => some ⟨p.dest, 0x12, p.tag, p.params⟩
  | .conduct p => some ⟨p.dest, 0x13, p.tag, p.params⟩
  | .paramWriteLive p => some ⟨p.dest, 0x14, p.tag, p.params⟩
  | .acappella p => some ⟨p.dest, 0x15, p.tag, p.params⟩
  | .voiceSetOn p => some ⟨p.dest, 0x20, p.tag, (1 :: p.params)⟩
  | .voiceSetOff p => some ⟨p.dest, 0x20, p.tag, (0 :: p.params)⟩
  | .voiceDuty p => some ⟨p.dest, 0x21, p.tag, p.params⟩
  | .voiceClearFault p => some ⟨p.dest, 0x22, p.tag, p.params⟩
  | .voiceRetire p => some ⟨p.dest, 0x23, p.tag, p.params⟩
  | .bankCut h banks => some ⟨h.dest, 0x24, h.tag, [bankByte banks <<< 4 ||| bankByte banks]⟩
  | .bankRestore h banks => some ⟨h.dest, 0x24, h.tag, [bankByte banks <<< 4]⟩
  | .park p => some ⟨p.dest, 0x25, p.tag, p.params⟩
  | .resume p => some ⟨p.dest, 0x26, p.tag, p.params⟩
  | .cueAdd p => some ⟨p.dest, 0x30, p.tag, p.params⟩
  | .cueCancel p => some ⟨p.dest, 0x31, p.tag, p.params⟩
  | .cueQuery p => some ⟨p.dest, 0x32, p.tag, p.params⟩
  | .cueQueryStats h ctrl reserved => some ⟨h.dest, 0x32, h.tag, [ctrl, reserved]⟩
  | .odometerRead h => some ⟨h.dest, 0x34, h.tag, []⟩
  | .odometerRebase h value => some ⟨h.dest, 0x34, h.tag, (leBytes 8 value.toNat)⟩
  | .tallyRead h input maxEntries ctrl reserved => some ⟨h.dest, 0x34, h.tag, [input, maxEntries, ctrl, reserved]⟩
  | .leadRead p => some ⟨p.dest, 0x35, p.tag, p.params⟩
  | .adcReadBuffer p => some ⟨p.dest, 0x40, p.tag, p.params⟩
  | .convertNow p => some ⟨p.dest, 0x41, p.tag, p.params⟩
  | .adcEnginePause h engines => some ⟨h.dest, 0x42, h.tag, (engineBytes engines 1)⟩
  | .adcEngineRun h engines => some ⟨h.dest, 0x42, h.tag, (engineBytes engines 2)⟩
  | .adcEngineFlush h engines => some ⟨h.dest, 0x42, h.tag, (engineBytes engines 3)⟩
  | .adcCalStatus p => some ⟨p.dest, 0x43, p.tag, p.params⟩
  | .waveReport p => some ⟨p.dest, 0x50, p.tag, (0 :: p.params)⟩
  | .waveFreeze p => some ⟨p.dest, 0x50, p.tag, (1 :: p.params)⟩
  | .waveRelease p => some ⟨p.dest, 0x50, p.tag, (2 :: p.params)⟩
  | .waveArmFault p => some ⟨p.dest, 0x50, p.tag, (3 :: p.params)⟩
  | .waveClear p => some ⟨p.dest, 0x50, p.tag, (4 :: p.params)⟩
  | .waveStatus p => some ⟨p.dest, 0x51, p.tag, p.params⟩
  | .thermalRead p => some ⟨p.dest, 0x60, p.tag, p.params⟩
  | .throttleAck p => some ⟨p.dest, 0x61, p.tag, p.params⟩
  | .anchorBlip p => some ⟨p.dest, 0x62, p.tag, p.params⟩
  | .nvRead p => some ⟨p.dest, 0x70, p.tag, p.params⟩
  | .nvProgram p => some ⟨p.dest, 0x71, p.tag, p.params⟩
  | .nvErase p => some ⟨p.dest, 0x72, p.tag, p.params⟩
  | .nvProtect p => some ⟨p.dest, 0x73, p.tag, p.params⟩
  | .recWrite p => some ⟨p.dest, 0x74, p.tag, p.params⟩
  | .recRead p => some ⟨p.dest, 0x75, p.tag, p.params⟩
  | .recDelete p => some ⟨p.dest, 0x76, p.tag, p.params⟩
  | .nvStatus p => some ⟨p.dest, 0x77, p.tag, p.params⟩
  | .marginRead p => some ⟨p.dest, 0x78, p.tag, p.params⟩
  | .lifetimeRead p => some ⟨p.dest, 0xA2, p.tag, p.params⟩
  | .scoreTotals p => some ⟨p.dest, 0x80, p.tag, p.params⟩
  | .scoreLegalSet p => some ⟨p.dest, 0x81, p.tag, p.params⟩
  | .scoreSectionMap p => some ⟨p.dest, 0x85, p.tag, p.params⟩
  | .scoreJobStart p => some ⟨p.dest, 0x84, p.tag, (0 :: p.params)⟩
  | .scoreJobEnd p => some ⟨p.dest, 0x84, p.tag, (1 :: p.params)⟩
  | .scoreJobDiag p => some ⟨p.dest, 0x84, p.tag, (2 :: p.params)⟩
  | .scoreAuditRead p => some ⟨p.dest, 0x82, p.tag, p.params⟩
  | .scoreIdent p => some ⟨p.dest, 0x83, p.tag, p.params⟩
  | .chainEnumerate p => some ⟨p.dest, 0x90, p.tag, p.params⟩
  | .chainStatus p => some ⟨p.dest, 0x91, p.tag, p.params⟩
  | .chainRingOpen h => some ⟨h.dest, 0x92, h.tag, [0]⟩
  | .chainRingClose h => some ⟨h.dest, 0x92, h.tag, [1]⟩
  | .chainRingRestore h => some ⟨h.dest, 0x92, h.tag, [2]⟩
  | .breathCtrl p => some ⟨p.dest, 0x93, p.tag, p.params⟩
  | .soundcheckRun p => some ⟨p.dest, 0xA0, p.tag, p.params⟩
  | .soundcheckResult p => some ⟨p.dest, 0xA1, p.tag, p.params⟩
  | .patchBegin p => some ⟨p.dest, 0xF0, p.tag, (0 :: p.params)⟩
  | .patchData p => some ⟨p.dest, 0xF0, p.tag, (1 :: p.params)⟩
  | .patchEnd p => some ⟨p.dest, 0xF0, p.tag, (2 :: p.params)⟩
  | .patchAbort p => some ⟨p.dest, 0xF0, p.tag, (3 :: p.params)⟩
  | .patchStatus p => some ⟨p.dest, 0xF1, p.tag, p.params⟩
  | _ => none

/-! ### What each command may change -/

/-- The parts that the end of a slot and the passing of time may change: edges, levels, cues and breath act, events are logged,
replies are settled, and the clocks go on (08 R238, 00 R8). -/
def slotParts : List Part :=
  [.time, .port, .log, .voices, .cues, .tally, .odo, .sc, .therm, .score, .chain, .slotOffs, .slotFaults, .edges, .found]

/-- The parts a command's own action may change beside the port, which every command may change by its news (03 R95). -/
def ownParts : Instr → List Part
  | .bar .. =>
    [.time, .ctl, .ka, .log, .par, .voices, .banks, .staggers, .lh, .cues, .tally, .odo, .sc, .conv, .wave, .therm,
    .nv, .score, .link, .chain, .patch, .pd, .slotOffs, .slotFaults, .edges, .found]
  | .commitEdge .. | .downbeat .. | .powerOnReset .. | .downstreamFrame .. | .parkedRestart .. =>
    [.time, .ctl, .ka, .log, .par, .voices, .banks, .staggers, .lh, .cues, .tally, .odo, .sc, .conv, .wave, .therm,
    .nv, .score, .link, .chain, .patch, .pd, .slotOffs, .slotFaults, .edges]
  | .watchdog .. | .linkTimeout .. => [.ctl, .log, .voices, .cues, .chain, .slotOffs]
  | .rstn .. | .softReset .. | .staggeredTurnOff .. | .keepAliveLoss .. | .keepAliveReassert .. | .porAssert .. =>
    [.time, .ctl, .ka, .log, .par, .voices, .banks, .staggers, .lh, .cues, .tally, .odo, .sc, .conv, .wave, .therm,
    .nv, .link, .chain, .patch, .pd, .slotOffs, .slotFaults, .edges]
  | .hostPortOpen .. => []
  | .vioLost .. => [.log]
  | .vioReturn .. | .waveFrozen .. => [.log, .wave]
  | .nop .. | .identify .. | .statusDetail .. | .eventRead .. | .paramRead .. | .imageCheck .. | .odometerRead ..
  | .leadRead .. | .adcCalStatus .. | .waveStatus .. | .thermalRead .. | .nvRead .. | .recRead .. | .nvStatus ..
  | .marginRead .. | .lifetimeRead .. | .scoreTotals .. | .scoreIdent .. | .chainEnumerate .. | .chainStatus ..
  | .breathCtrl .. | .soundcheckResult .. | .patchStatus .. | .measureBoundary .. => [.chain]
  | .eventAck .. | .chainRingOpen .. | .chainRingClose .. | .chainRingRestore .. | .upstreamFrame ..
  | .enumerationDone .. | .ringCloseResult .. | .linkDown .. | .deviceUnreachable .. | .breathReclaim .. =>
    [.log, .chain]
  | .paramWrite .. => [.par, .chain]
  | .conduct .. => [.ctl, .log, .par, .voices, .cues, .tally, .odo, .sc, .conv, .wave, .therm, .nv, .chain, .patch]
  | .paramWriteLive .. => [.par, .voices, .conv, .chain]
  | .acappella .. => [.ctl, .log, .par, .voices, .cues, .tally, .odo, .conv, .wave, .nv, .score, .chain, .pd]
  | .voiceSetOn .. | .voiceSetOff .. | .cueAdd .. | .lhRateRelease .. =>
    [.log, .voices, .cues, .therm, .chain, .slotOffs]
  | .voiceDuty .. | .voiceClearFault .. | .soundcheckRun .. | .breathSpanEnd .. => [.voices, .chain]
  | .voiceRetire .. => [.log, .voices, .cues, .sc, .conv, .wave, .therm, .nv, .chain]
  | .bankCut .. | .bankRestore .. | .soundcheckDone .. | .bankSupplyAbsent .. | .bankOv .. =>
    [.log, .voices, .banks, .staggers, .cues, .sc, .conv, .wave, .therm, .nv, .chain, .slotOffs, .slotFaults]
  | .park .. | .powerDown .. =>
    [.ctl, .log, .voices, .banks, .staggers, .cues, .sc, .conv, .wave, .therm, .nv, .score, .chain, .pd, .slotFaults]
  | .resume .. => [.ctl, .log, .par, .voices, .tally, .odo, .conv, .wave, .nv, .score, .chain, .pd]
  | .cueCancel .. => [.voices, .cues, .chain]
  | .cueQuery .. | .cueQueryStats .. => [.cues, .chain]
  | .odometerRebase .. => [.cues, .odo, .chain]
  | .tallyRead .. => [.tally, .chain]
  | .adcReadBuffer .. | .convertNow .. | .adcEnginePause .. | .adcEngineRun .. | .adcEngineFlush .. => [.conv, .chain]
  | .waveReport .. | .waveFreeze .. | .waveRelease .. | .waveArmFault .. | .waveClear .. => [.wave, .chain]
  | .throttleAck .. => [.voices, .therm, .chain]
  | .anchorBlip .. => [.therm, .chain]
  | .nvProgram .. | .nvErase .. | .nvProtect .. => [.nv, .chain]
  | .recWrite .. | .recDelete .. | .hopLoopbackDone .. => [.log, .sc, .nv, .chain]
  | .scoreLegalSet .. | .scoreSectionMap .. | .scoreJobStart .. | .scoreJobEnd .. | .scoreJobDiag ..
  | .scoreAuditRead .. => [.link, .chain]
  | .patchBegin .. | .patchData .. | .patchEnd .. | .patchAbort .. => [.log, .chain, .patch]
  | .controlBootDone .. =>
    [.headPin, .time, .ctl, .log, .voices, .banks, .staggers, .lh, .cues, .sc, .conv, .wave, .therm, .nv, .chain,
    .slotOffs, .slotFaults]
  | .bootTimeout .. | .fallbackBad .. | .sramScrub .. =>
    [.time, .ctl, .log, .voices, .banks, .staggers, .cues, .sc, .conv, .wave, .therm, .nv, .chain, .slotOffs,
    .slotFaults]
  | .recScanDone .. => [.log, .voices, .sc, .nv]
  | .scoreReset .. | .vmetLost .. => [.tally, .odo, .score]
  | .vmetCommit .. | .pllLock .. | .referenceLost .. | .referenceReturn .. | .timebaseMarkEnd ..
  | .scoreRingCommit .. | .tapSample .. | .scoreGroundEvaluation .. | .laxitiaRequest .. | .sealFuses ..
  | .scoreDieTemperature .. => [.score]
  | .lockTimeout .. => [.time, .log, .score]
  | .tbAdopted .. | .tbReturned .. => [.time, .log, .voices, .cues, .tally, .odo]
  | .scoreReady .. | .scorePublication .. => [.ctl, .log, .tally, .odo, .score, .link, .chain]
  | .tbcWord .. | .tbLost .. =>
    [.time, .ctl, .log, .voices, .banks, .staggers, .cues, .tally, .sc, .conv, .wave, .therm, .nv, .chain, .slotOffs,
    .slotFaults]
  | .tbFallback .. => [.time, .log]
  | .tbQualified .. | .fallbackTrim .. => [.time]
  | .scoreSilent .. =>
    [.time, .ctl, .log, .voices, .banks, .staggers, .cues, .tally, .odo, .sc, .conv, .wave, .therm, .nv, .link,
    .chain, .slotOffs, .slotFaults]
  | .mailboxMessage .. => [.tally, .odo, .score, .link]
  | .tallyEdge .. => [.tally, .score]
  | .timestampEdge .. => [.edges]
  | .stuckLevel .. | .groundEvaluation .. | .odoFrozen .. => [.log, .tally, .odo, .edges]
  | .cueExecute .. => [.log, .voices, .cues, .tally, .odo, .therm, .chain, .slotOffs, .edges]
  | .breathGrant .. => [.log, .voices, .cues, .tally, .odo, .sc, .therm, .chain, .slotOffs, .slotFaults, .edges]
  | .breathWaitExpiry .. => [.log, .voices, .cues, .sc, .chain]
  | .signatureWindowExpiry .. | .clampPulseEnd .. | .olOnDetect .. | .olOffDetect .. | .stuckOnDetect ..
  | .revDetect .. => [.log, .voices, .conv, .wave, .slotFaults]
  | .lhLevelChange .. | .chatterClear .. => [.lh]
  | .chatter .. => [.log, .lh]
  | .lhRearm .. | .profilePhaseEnd .. | .pwmPeriodStart .. | .pwmOffEdge .. | .retryDue .. | .retryClear .. => [.voices]
  | .gateRampEnd .. => [.voices, .therm]
  | .holdChopPeriod .. | .fastTrip .. | .desatTrip .. | .ocTimeout .. | .gateFault .. =>
    [.log, .voices, .sc, .conv, .wave, .therm, .chain, .slotFaults]
  | .soundcheckStart .. => [.voices, .sc, .conv]
  | .cutPinNonConducting .. => [.banks]
  | .bankSupplyPresent .. | .bankCurrentSum .. => [.log, .banks]
  | .crank .. => [.log, .voices, .banks, .therm, .chain]
  | .chargePumpLow .. =>
    [.log, .voices, .banks, .staggers, .cues, .sc, .conv, .wave, .therm, .nv, .chain, .pd, .slotOffs, .slotFaults]
  | .chargePumpRecovered .. | .vholdFault .. => [.log, .pd]
  | .keepAliveFrame .. =>
    [.time, .ctl, .ka, .log, .voices, .banks, .staggers, .cues, .sc, .conv, .wave, .therm, .nv, .chain, .slotOffs,
    .slotFaults]
  | .romCrcCheck .. | .patchCrcCheck .. | .zoneHardStop .. | .zoneCheckDone .. =>
    [.ctl, .log, .voices, .banks, .staggers, .cues, .sc, .conv, .wave, .therm, .nv, .chain, .slotOffs, .slotFaults]
  | .zoneReading .. => [.log, .voices, .banks, .staggers, .cues, .sc, .conv, .wave, .therm, .nv, .chain, .slotFaults]
  | .modelUpdate .. => [.log, .voices, .banks, .staggers, .cues, .sc, .conv, .wave, .therm, .chain, .slotFaults]
  | .throttleGraceEnd .. => [.log, .voices, .therm, .chain]
  | .ceilingStep .. => [.therm]
  | .blipEnd .. => [.log, .voices, .therm]
  | .scanStart .. | .atrgEdge .. | .urgentConversion .. => [.conv]
  | .conversion .. => [.log, .voices, .conv]
  | .sliceCheckDone .. | .calStep .. => [.log, .sc, .conv, .nv]
  | .waveFrame .. | .waveLoss .. | .waveUnmute .. => [.log, .voices, .wave]
  | .inSlotWord .. => [.voices, .wave]
  | .chainAcap .. => [.ctl, .log, .par, .voices, .cues, .tally, .odo, .conv, .wave, .chain]
  | .nvProgramDone .. | .garbageCollection .. => [.log, .nv]
  | .nvEraseSectorDone .. | .flashCheckDone .. | .recordAppendDone .. => [.log, .sc, .nv]
  | .scoreCommitWait .. | .lifetimeSaveDone .. => [.log, .sc, .nv, .pd]
  | .markerWrite .. => [.log, .voices, .sc, .nv, .pd]
  | .flashFloor .. | .vholdReady .. => [.pd]

/-- Every part that a command may change. -/
def writes (c : Instr) : List Part := .port :: ownParts c

/-- The slots that pass before a command acts: none for an opcode, which acts at its commit edge. -/
def slots : Instr → Nat
  | .bar dt .. | .commitEdge dt .. | .downbeat dt .. | .watchdog dt .. | .hostPortOpen dt ..
  | .vioLost dt .. | .vioReturn dt .. | .powerOnReset dt .. | .controlBootDone dt .. | .bootTimeout dt ..
  | .recScanDone dt .. | .scoreReset dt .. | .vmetCommit dt .. | .pllLock dt ..
  | .lockTimeout dt .. | .referenceLost dt .. | .tbAdopted dt .. | .scoreReady dt ..
  | .tbcWord dt .. | .tbLost dt .. | .tbFallback dt .. | .tbQualified dt .. | .tbReturned dt .. | .fallbackBad dt ..
  | .fallbackTrim dt .. | .timebaseMarkEnd dt .. | .scorePublication dt .. | .scoreSilent dt ..
  | .mailboxMessage dt .. | .scoreRingCommit dt .. | .tapSample dt .. | .tallyEdge dt ..
  | .scoreGroundEvaluation dt .. | .laxitiaRequest dt .. | .sealFuses dt .. | .timestampEdge dt ..
  | .stuckLevel dt .. | .groundEvaluation dt .. | .odoFrozen dt .. | .cueExecute dt .. | .breathGrant dt ..
  | .breathSpanEnd dt .. | .breathWaitExpiry dt .. | .signatureWindowExpiry dt .. | .lhLevelChange dt ..
  | .lhRateRelease dt .. | .chatter dt .. | .lhRearm dt .. | .gateRampEnd dt .. | .profilePhaseEnd dt ..
  | .pwmPeriodStart dt .. | .pwmOffEdge dt .. | .holdChopPeriod dt .. | .clampPulseEnd dt .. | .fastTrip dt ..
  | .desatTrip dt .. | .ocTimeout dt .. | .gateFault dt .. | .olOnDetect dt .. | .olOffDetect dt ..
  | .stuckOnDetect dt .. | .revDetect dt .. | .soundcheckStart dt .. | .soundcheckDone dt .. | .retryDue dt ..
  | .retryClear dt .. | .staggeredTurnOff dt .. | .cutPinNonConducting dt .. | .bankSupplyAbsent dt ..
  | .bankSupplyPresent dt .. | .crank dt .. | .bankOv dt .. | .chargePumpLow dt .. | .chargePumpRecovered dt ..
  | .bankCurrentSum dt .. | .keepAliveFrame dt .. | .keepAliveLoss dt .. | .keepAliveReassert dt ..
  | .romCrcCheck dt .. | .patchCrcCheck dt .. | .sramScrub dt .. | .zoneHardStop dt .. | .zoneReading dt ..
  | .modelUpdate dt .. | .throttleGraceEnd dt .. | .ceilingStep dt .. | .blipEnd dt .. | .zoneCheckDone dt ..
  | .scanStart dt .. | .atrgEdge dt .. | .conversion dt .. | .urgentConversion dt .. | .sliceCheckDone dt ..
  | .calStep dt .. | .waveFrame dt .. | .inSlotWord dt .. | .waveLoss dt .. | .waveUnmute dt .. | .waveFrozen dt ..
  | .measureBoundary dt .. | .downstreamFrame dt .. | .upstreamFrame dt ..
  | .ringCloseResult dt .. | .linkDown dt .. | .deviceUnreachable dt .. | .linkTimeout dt .. | .chainAcap dt ..
  | .breathReclaim dt .. | .hopLoopbackDone dt .. | .nvProgramDone dt .. | .nvEraseSectorDone dt ..
  | .flashCheckDone dt .. | .powerDown dt .. | .scoreCommitWait dt ..
  | .lifetimeSaveDone dt .. | .markerWrite dt .. | .parkedRestart dt .. | .vholdFault dt .. | .porAssert dt ..
  | .flashFloor dt .. | .vholdReady dt .. | .scoreDieTemperature dt .. | .chatterClear dt ..
  | .recordAppendDone dt .. => dt
  | .referenceReturn ret => ret.dt
  | .rstn rst => rst.dt
  | .vmetLost loss => loss.dt
  | .enumerationDone e => e.dt
  | .garbageCollection step => step.dt
  | .nop .. | .identify .. | .statusDetail .. | .eventRead .. | .eventAck .. | .softReset .. | .paramWrite ..
  | .paramRead .. | .imageCheck .. | .conduct .. | .paramWriteLive .. | .acappella .. | .voiceSetOn ..
  | .voiceSetOff .. | .voiceDuty .. | .voiceClearFault .. | .voiceRetire .. | .bankCut .. | .bankRestore ..
  | .park .. | .resume .. | .cueAdd .. | .cueCancel .. | .cueQuery .. | .cueQueryStats .. | .odometerRead ..
  | .odometerRebase .. | .tallyRead .. | .leadRead .. | .adcReadBuffer .. | .convertNow .. | .adcEnginePause ..
  | .adcEngineRun .. | .adcEngineFlush .. | .adcCalStatus .. | .waveReport .. | .waveFreeze .. | .waveRelease ..
  | .waveArmFault .. | .waveClear .. | .waveStatus .. | .thermalRead .. | .throttleAck .. | .anchorBlip ..
  | .nvRead .. | .nvProgram .. | .nvErase .. | .nvProtect .. | .recWrite .. | .recRead .. | .recDelete ..
  | .nvStatus .. | .marginRead .. | .lifetimeRead .. | .scoreTotals .. | .scoreLegalSet .. | .scoreSectionMap ..
  | .scoreJobStart .. | .scoreJobEnd .. | .scoreJobDiag .. | .scoreAuditRead .. | .scoreIdent .. | .chainEnumerate ..
  | .chainStatus .. | .chainRingOpen .. | .chainRingClose .. | .chainRingRestore .. | .breathCtrl ..
  | .soundcheckRun .. | .soundcheckResult .. | .patchBegin .. | .patchData .. | .patchEnd .. | .patchAbort ..
  | .patchStatus .. => 0

end Sys2Proof.Machine
end

