-- ==== Sys2Proof/Certificates/Slice0/Obligations.lean ====
section
/-! DEFINITION. The statements about the block, one for each family of commands and each kind of state, and about the
block as a whole. Each is a closed proposition; its docstring says which rules of spec/ it formalises and which of its clauses
rest on a choice of the model. -/

set_option linter.unusedVariables false
open Sys2Proof Sys2Proof.Machine

/-! ### The block as a whole -/

/-- A step takes the command at the front of the queue and does what the command does, with the queue's rest. -/
def Obligations.StepRunsFrontCommand : Prop :=
  ∀ (c : Instr) (rest : List Instr) (s : State), s.pending = c :: rest →
    Sys2Proof.Machine.step s = Sys2Proof.Machine.exec c { s with pending := rest }

/-- At t0 the device is in STARTING with every voice off, the host port closed and the next bar number 0, the event log
empty with its first event number 0 to come, no cue held, and no command waiting (02 R38, R46, 05 R141). -/
def Obligations.ResetIsStarting : Prop :=
  let d := State.reset.dev
  State.reset.pending = [] ∧ d.ctl.mode = .starting ∧ (∀ v, (d.voice v).st = .off ∧ (d.voice v).gate = false) ∧
    d.port.isOpen = false ∧ d.port.barNo = 0 ∧ d.log.events = [] ∧ d.log.nextSeq = 0 ∧ d.log.lost = 0 ∧
    d.cues.queue = []

/-- The state after reset keeps the invariant. -/
def Obligations.ResetMeetsInvariant : Prop := State.reset.Inv

/-- Every command has an outcome in every state: no step stops. -/
def Obligations.EveryStepGoesOn : Prop := ∀ s : State, ∃ t, Sys2Proof.Machine.step s = .next t

/-- Every step keeps the forms of the device: at most 64 replies, the event log numbered in order with at most 256
events, at most 4,096 cues, the raw flash in canonical form; and a slot begins with nothing left over from the one
before: no reply that waits to be settled, no turn-off, fault or tally edge that waits (03 R93, 05 R141, R152, 07
R203, 08 R238, 10 R279). -/
def Obligations.EveryStepKeepsInvariant : Prop :=
  ∀ s t : State, s.Inv → Sys2Proof.Machine.step s = .next t → t.Inv

/-- The frame of every command: the slots before it change only what a slot end and time may change, then the command
changes no part of the device outside `writes c`; the queue is untouched (08 R238, 00 R8). What the spec leaves open
in it is the model's choice: log entry 1. -/
def Obligations.CommandsKeepTheirFrame : Prop :=
  (∀ (c : Instr) (s t : State), s.Inv → Sys2Proof.Machine.exec c s = .next t →
    t.pending = s.pending ∧ ∀ p : Part, p ∉ writes c → p.same t.dev (s.turn (slots c)).dev) ∧
  ∀ (s : State) (n : Nat), s.Inv → (s.turn 0 = s) ∧ (s.turn n).pending = s.pending ∧
    ∀ p : Part, p ∉ slotParts → p.same (s.turn n).dev s.dev

/-- Time that passes changes the counts alone: every part but the time base and the Score stands, the Score's own
parts but its two counts stand, the count of the time base advances by 8 ticks a slot, and the Score's, its own time
always and its TBC once locked, by the same number on the Score time base, by a number within 1.5 % of it, to one
cycle, on the fallback (00 R8, 09 R252). That the Score's own time before its first lock runs as after it is the
model's choice: log entry 182. On an empty queue a step lets one slot pass: the slot under way ends and the next begins, the model's choice
(log entry 1). -/
def Obligations.TimePassesAlone : Prop :=
  (∀ (d : Dev) (n : Nat), (∀ p : Part, p ≠ .time → p ≠ .score → p.same (d.advance n) d) ∧
    (d.advance n).time = { d.time with
      now := d.time.now + 8 * n, tbc := d.time.tbc + (8 * n : Nat), drift := (d.advance n).time.drift } ∧
    (∃ x y, (d.advance n).score = { d.score with tbc := x, own := y }) ∧
    (d.score.locked = false → (d.advance n).score.tbc = d.score.tbc) ∧
    (0 ≤ d.time.drift → d.time.drift < 8000000 →
      0 ≤ (d.advance n).time.drift ∧ (d.advance n).time.drift < 8000000 ∧
      (d.time.phase = .score → (d.advance n).score.own = d.score.own + 8 * n ∧
        (d.score.locked = true → (d.advance n).score.tbc = d.score.tbc + (8 * n : Nat))) ∧
      1000 * ((d.advance n).score.own : Int) ≤ 1000 * d.score.own + 1015 * (8 * n : Nat) + 8000 ∧
      1000 * (d.score.own : Int) + 985 * (8 * n : Nat) - 8000 ≤ 1000 * (d.advance n).score.own ∧
      (d.score.locked = true →
        1000 * ((d.advance n).score.tbc - d.score.tbc - (8 * n : Nat)) ≤ 15 * (8 * n : Nat) + 8000 ∧
        -(15 * (8 * n : Nat) + 8000) ≤ 1000 * ((d.advance n).score.tbc - d.score.tbc - (8 * n : Nat))))) ∧
  ∀ s : State, s.pending = [] → ∃ t, Sys2Proof.Machine.step s = .next t ∧ t.pending = [] ∧
    t.dev.time.now = s.dev.time.now + 8 ∧ t.dev.time.tbc = s.dev.time.tbc + 8

/-! ### What holds of every packet (05 R130 to R132, 03 R89, R90) -/

/-- A packet for this device that fails a check of 05 R130 has no effect: one reply with the status of the first check
that fails joins the queue, and beside the port nothing changes but the entry of its bar on a precentor and the
status that PATCH_LOAD keeps. While a power-down sequence runs the modes admit what they admit in PARKED (17 R501).
What the spec leaves open in it is the model's choice: log entries 109, 110, 111. -/
def Obligations.PacketsAreCheckedInOrder : Prop :=
  ∀ (s : State) (opc tag : Byte) (a : List Byte), s.Inv →
  let refused (st : Byte) (data : List Byte) : Prop :=
    ∃ po pa fs, s.packet opc 0 tag a = .next (s.after 0 fun _ =>
        { s.dev with port := po, patch := pa, chain := { s.dev.chain with forward := fs } }) ∧
      po.replies = (s.dev.port.push { src := 0, opc := opc, tag := tag, status := st, data := data, settle := none }).replies ∧
      po.prevAccepted = s.dev.port.prevAccepted ∧ (opc ≠ 0xF0 → pa = s.dev.patch)
  (opRow opc a.length = none → refused stUnknown []) ∧
  (∀ row, opRow opc a.length = some row →
    (legalOnly opc = true → s.dev.score.variant = .s → refused stUnknown []) ∧
    (¬(legalOnly opc = true ∧ s.dev.score.variant = .s) →
      (lenOk opc a = false → refused stBadLength []) ∧
      (lenOk opc a = true → opc ≠ 0x30 → reservedFailure opc a = true → refused stBadParam []) ∧
      (∀ i, lenOk opc a = true → opc = 0x30 → (chunks 16 256 a).findIdx? cueReserved = some i →
        refused stBadParam (leBytes 2 i ++ [0xFF, 0xFF])) ∧
      (lenOk opc a = true → reservedAnswer opc a = none →
        (row.modes.has (if s.dev.pdRunning then .parked else s.dev.ctl.mode) = false ∨ (opc = 0x13 ∧ s.dev.ctl.mode = .starting) ∨ (s.dev.role = 2 ∧ row.kind ≠ .read) →
          refused stWrongMode (if opc = 0x13 then [1, b8 s.dev.ctl.mode.code] else [])) ∧
        (s.dev.admits row opc false = true →
          Dev.scanning s.snap s.dev { dest := 0, opc := opc, tag := tag, params := a } = true → refused stBusyScan [])))) ∧
  (s.dev.ctl.mode = .halted → s.dev.pdRunning = false → ∀ row, opRow opc a.length = some row → row.kind = .commit →
    opc ≠ 0x04 → opc ≠ 0x06 → opc ≠ 0x24 → s.dev.admits row opc false = false)

/-- A DB packet for this device that passes checks 1 to 6 is answered ACCEPTED_PENDING and waits for its downbeat, and
takes no effect yet (03 R89, 05 R130). -/
def Obligations.DbPacketsWaitForTheirDownbeat : Prop :=
  ∀ (s : State) (opc tag : Byte) (a : List Byte), s.Inv →
  let p : Packet := { dest := 0x80, opc := opc, tag := tag, params := a }
  s.dev.precheck p = none →
  ∃ po fs, s.packet opc 0x80 tag a = .next (s.after 0 fun _ =>
      { s.dev with port := po, chain := { s.dev.chain with forward := fs } }) ∧
    po.pendingDb = s.dev.port.pendingDb ++
      [{ packet := p, serial := if s.dev.chain.head then s.dev.port.serial + 1 else 0, viaChain := false }] ∧
    po.prevAccepted = stick 8 (s.dev.port.prevAccepted + 1) ∧
    po.replies = (s.dev.port.push { src := 0, opc := opc, tag := tag, status := stPending, data := [], settle := none }).replies

/-- The replies that one port sends back to back read back one by one, each whole, with its CRC right and its fields
where 03 R91 puts them. -/
def Obligations.RepliesReadBack : Prop :=
  ∀ (rs : List Reply) (rest : List Byte) (n : Nat), (∀ r ∈ rs, r.src < 128 ∧ r.data.length < 65536) → rs.length < n →
    takeReply rest = none →
    takeReplies n (rs.flatMap Reply.bytes ++ rest) = (rs.map fun r => (r.bytes, true), rest) ∧
    ∀ r ∈ rs, r.bytes.length = 8 + r.data.length ∧ byteAt r.bytes 0 = r.src ∧ r.bytes.getD 1 0 = r.opc ∧ r.bytes.getD 2 0 = r.tag ∧
      r.bytes.getD 3 0 = r.status ∧ field r.bytes 4 2 = r.data.length ∧ (r.bytes.drop 6).take r.data.length = r.data ∧
      field r.bytes (6 + r.data.length) 2 = crc16 (r.bytes.take (6 + r.data.length))

/-- Logging and queueing: an event takes the next number and stands last, at 256 the oldest goes and is counted where it
was not acknowledged, and IRQN goes low on an open port; at 64 replies the oldest goes and the loss is flagged (05
R141, R142, 03 R93, R95). -/
def Obligations.FullQueuesLoseTheOldest : Prop :=
  (∀ (d : Dev) (code unit : Nat) (data : List Byte), d.ctl.por = false →
    let e : Event :=
      { seq := d.log.nextSeq, tbc := d.time.tbc, code := code, unit := unit, acked := false
        fallbackTb := d.time.onFallback, data := data8 data }
    let t := d.event code unit data
    t.log.nextSeq = d.log.nextSeq + 1 ∧ t.port.irqn = (d.port.irqn || d.port.isOpen) ∧
    (d.log.events.length < 256 → t.log.events = d.log.events ++ [e] ∧ t.log.lost = d.log.lost) ∧
    (∀ (old : Event) (rest : List Event), d.log.events = old :: rest → rest.length = 255 →
      t.log.events = rest ++ [e] ∧ t.log.lost = if old.acked then d.log.lost else min (d.log.lost + 1) 65535)) ∧
  (∀ (p : HostPort) (r : Reply),
    (p.replies.length < 64 → (p.push r).replies = p.replies ++ [r] ∧ (p.push r).replyLost = p.replyLost) ∧
    (∀ (old : Reply) (rest : List Reply), p.replies = old :: rest → rest.length = 63 →
      (p.push r).replies = rest ++ [r] ∧ (p.push r).replyLost = true))

/-- No packet of the host reaches the Score but through the mailbox: whatever the packet, its commit edge leaves the
whole Score as it stands, but for the power-fail line that PARK, RESUME and ACAPPELLA drive (01 R20, 05 R157, R158). -/
def Obligations.PacketsLeaveTheScoreAlone : Prop :=
  ∀ (s t : State) (opc dest tag : Byte) (a : List Byte), s.packet opc dest tag a = .next t →
    (∃ b, t.dev.score = { s.dev.score with powerFail := b }) ∧
    (opc ≠ 0x15 → opc ≠ 0x25 → opc ≠ 0x26 → t.dev.score = s.dev.score)

/-! ### The host port (03, 17 R505) -/

/-- An accepted bar (01 R29, R30, 03 R73, R74, R76, R77, R79, R92): it consumes its number, its validity is told in the
next header, a valid bar awaits its commit edge, releases the replies that it clocked out and, in CONDUCTED, starts
the watchdog afresh; the snapshot is the device as the slot of CSN falling found it, and what came about in that
slot itself is left for the next header. A watchdog that expires while CSN is low is another statement's. What the
spec leaves open in it is the model's choice: log entries 93, 94. A bar of a chain device restarts no watchdog (16
R472). The queue that loses the replies clocked out is the one that CSN rising finds, in which every VOICE_SET
reply of an earlier slot is settled. -/
def Obligations.AcceptedBarIsCounted : Prop :=
  ∀ (s : State) (dt low : Nat) (sdi : List Byte) (bits : Fin 8),
    let d := (s.turn dt).dev
    let shown := (s.turn dt).slot
    let plen := field sdi 2 2
    let opener : Prop := 6 ≤ sdi.length ∧ byteAt sdi 0 = 0xC3 ∧ byteAt sdi 1 = 1 ∧ plen ≤ 8186 ∧ field sdi 4 2 = crc16 (sdi.take 4)
    let long : Prop := bits.val = 0 ∧ 20 ≤ sdi.length ∧ sdi.length ≤ 8192 ∧ (opener → 6 + plen ≤ sdi.length)
    let fallen : State := { s.turn dt with
      dev := { d with port := d.port.fall shown.port (shown.sdoBytes s.snap sdi.length) }, snap := shown }
    let released (q : List Reply) : List Reply := dropShown shown.port.replies (clockedOut shown.port.replies 24 sdi.length) q
    d.port.isOpen = true → d.port.commit = none → d.port.quietUntil ≤ d.now → d.ctl.mode ≠ .starting →
    (∀ w, d.port.watchdog = some w → d.now + 8 * low ≤ w) →
    ∃ t, Sys2Proof.Machine.exec (.bar dt low sdi bits false) s = .next t ∧ t.snap = shown ∧
      t.dev.port.barNo = (d.port.barNo + 1) % 65536 ∧ t.dev.port.sdo = some (shown.sdoBytes s.snap sdi.length) ∧
      t.dev.port.early = d.port.early - shown.port.early ∧
      (t.dev.port.openerBad = false ↔ opener) ∧ (t.dev.port.lengthBad = false ↔ long) ∧
      (t.dev.port.prevValid = true ↔ opener ∧ long) ∧
      (opener ∧ long → t.dev.port.commit = some { area := (sdi.drop 6).take plen, barNo := d.port.barNo % 65536 } ∧
        t.dev.port.quietUntil = d.now + 8 * low + 2 * usec + 30 * plen ∧
        t.dev.port.replies = released (fallen.turn low).dev.port.replies ∧
        ((∀ r ∈ d.port.replies, r.settle = none) → t.dev.port.replies = released d.port.replies) ∧
        (d.ctl.mode = .conducted → d.chain.head = true ∨ d.chain.addr = none →
          t.dev.port.watchdog = some (d.now + 8 * low + d.tWd * msec)) ∧
        (d.chain.head = false → d.chain.addr ≠ none → t.dev.port.watchdog = d.port.watchdog)) ∧
      (¬(opener ∧ long) → t.dev.port.commit = none ∧ t.dev.port.watchdog = d.port.watchdog)

/-- An early bar counts in EARLY, whatever bar's commit edge is still to come, and a bar outside an open port is ignored:
neither consumes a number, commits anything, or restarts the watchdog, which may expire while CSN is low (03 R88, R98,
02 R46). A commit edge that was due before the bar has acted. -/
def Obligations.EarlyAndClosedBarsAreIgnored : Prop :=
  ∀ (s : State) (dt low : Nat) (sdi : List Byte) (bits : Fin 8) (cut : Bool),
    let d := (s.beforeBar dt).dev
    let expires : Prop := d.ctl.mode = .conducted ∧ ∃ w, d.port.watchdog = some w ∧ w < d.now + 8 * low
    ((s.turn dt).dev.port.commit = none ∨ (s.turn dt).dev.now < (s.turn dt).dev.port.quietUntil → s.beforeBar dt = s.turn dt) ∧
    (d.port.isOpen = true → d.now < d.port.quietUntil →
      ∃ t, Sys2Proof.Machine.exec (.bar dt low sdi bits cut) s = .next t ∧ t.dev.port.early = min (d.port.early + 1) 15 ∧
        t.dev.port.sdo = none ∧ t.dev.port.barNo = d.port.barNo ∧ t.dev.port.commit = d.port.commit ∧
        t.dev.port.quietUntil = d.port.quietUntil ∧ (¬expires → t.dev.port.watchdog = d.port.watchdog) ∧
        (expires → t.dev.port.watchdog = none ∧ t.dev.ctl.mode = .fallback) ∧
        (¬expires → (∀ r ∈ d.port.replies, r.settle = none) → t.dev.port.replies = d.port.replies)) ∧
    (d.port.isOpen = false →
      ∃ t, Sys2Proof.Machine.exec (.bar dt low sdi bits cut) s = .next t ∧ t.dev.port.early = d.port.early ∧
        t.dev.port.barNo = d.port.barNo ∧ t.dev.port.commit = d.port.commit ∧
        (¬expires → t.dev.port.watchdog = d.port.watchdog) ∧
        (expires → t.dev.port.watchdog = none ∧ t.dev.ctl.mode = .fallback))

/-- The packets of a valid bar are the packets whose bytes fill its packet area, however many: they take effect at the
commit edge, in their order (03 R84, R87): each takes its effect on the device that those before it left, those after a
SOFT_RESET aside, and the bar of one opcode packet does what that opcode's command does. The first packet that the area cuts short or whose CRC is wrong ends the
bar: the packets before it act, and the loss is told with its status, BAD_LENGTH or BAD_CRC, and its offset in the
area (03 R100). What the spec leaves open in it is the model's choice: log entry 94. -/
def Obligations.CommitEdgeTakesThePacketsOfTheBar : Prop :=
  (∀ (s : State) (dt : Nat) (b : PendingBar) (ps : List Packet),
    (s.turn dt).dev.port.commit = some b → b.area = ps.flatMap Packet.bytes → (∀ p ∈ ps, p.params.length < 65536) →
    Sys2Proof.Machine.exec (.commitEdge dt) s = .next (s.after dt fun d =>
      Dev.commitBar s.snap { d with port := { d.port with commit := none } } b.barNo ps none)) ∧
  (∀ (snap d : Dev) (n : Nat) (ps : List Packet), (∀ p ∈ ps, p.opc ≠ 0x06) →
    Dev.commitBar snap d n ps none = ps.foldl (Dev.takePacket snap) (d.openBar n)) ∧
  (∀ (s : State) (dt : Nat) (b : PendingBar) (c : Instr) (p : Packet), opcodePacket c = some p →
    let d := (s.turn dt).dev
    d.port.commit = some b → b.area = p.bytes → p.params.length < 65536 → b.barNo = (d.port.barNo + 65535) % 65536 →
    Sys2Proof.Machine.exec (.commitEdge dt) s =
      Sys2Proof.Machine.exec c { s.turn dt with dev := { d with port := { d.port with commit := none } } }) ∧
  (∀ (s : State) (dt : Nat) (b : PendingBar) (ps : List Packet) (rest : List Byte) (st : Byte),
    (s.turn dt).dev.port.commit = some b → b.area = ps.flatMap Packet.bytes ++ rest → (∀ p ∈ ps, p.params.length < 65536) →
    rest ≠ [] → 3 ≤ rest.length →
    (rest.length < 7 + field rest 3 2 ∧ st = stBadLength ∨
      7 + field rest 3 2 ≤ rest.length ∧ field rest (5 + field rest 3 2) 2 ≠ crc16 (rest.take (5 + field rest 3 2)) ∧
        st = stBadCrc) →
    Sys2Proof.Machine.exec (.commitEdge dt) s = .next (s.after dt fun d =>
      Dev.commitBar s.snap { d with port := { d.port with commit := none } } b.barNo ps
        (some { src := 0, opc := rest.getD 1 0, tag := rest.getD 2 0, status := st
                data := leBytes 2 (ps.flatMap Packet.bytes).length, settle := none }))) ∧
  ∀ (ps : List Packet) (rest : List Byte), (∀ p ∈ ps, p.params.length < 65536) → rest ≠ [] →
    let area := ps.flatMap Packet.bytes ++ rest
    rest.length < 7 + field rest 3 2 →
    parseArea area (area.length + 1) 0 = (ps, some ((ps.flatMap Packet.bytes).length, stBadLength))

/-- The header and the reply stream fill the bar: as many bytes as the host clocks, the first 24 of them the header with
SYNC 0xA5 and its two checksums (03 R75, R82, R92). -/
def Obligations.SnapshotHeaderLeadsTheBar : Prop :=
  ∀ (d prev : Dev) (n : Nat), (d.sdoBytes prev n).length = n ∧
    let h := d.header prev d.replyStream.length
    h.length = 24 ∧ h.getD 0 0 = 0xA5 ∧ field h 2 2 = d.port.barNo % 65536 ∧
    field h 20 2 = min d.replyStream.length 65535 ∧ field h 18 2 = crc16 (h.take 18) ∧ field h 22 2 = crc16 (h.take 22) ∧
    (24 ≤ n → n ≤ 8192 → (d.sdoBytes prev n).take 24 = h)

/-- The downbeat, the watchdog, also while CSN is low, and the supply of the port: what each does where it is due (03
R89, R98, 02 R39, 17 R505, 16 R469). The DOWNBEAT cues act with the other cues of the slot, at its end (10 R283).
What the spec leaves open in it is the model's choice: log entries 16, 108. -/
def Obligations.PortEventsActWhenDue : Prop :=
  ∀ (s : State) (dt : Nat),
  let d := (s.turn dt).dev
  (∀ (b : Declared) (rest : List Declared), d.dueDownbeat = some (b, rest) →
    ∃ t, Sys2Proof.Machine.exec (.downbeat dt) s = .next t ∧ t.dev.chain.beat = true ∧
      t = s.after dt fun d =>
        let e := (d.port.pendingDb.filter fun q => q.serial ≤ b.serial).foldl (Dev.dbAct s.snap)
          { d with chain := { d.chain with downbeats := rest }
                   port := { d.port with pendingDb := d.port.pendingDb.filter fun q => b.serial < q.serial } }
        { e with chain := { e.chain with beat := true } }) ∧
  (∀ w, d.ctl.mode = .conducted → d.port.watchdog = some w → w ≤ d.now → d.ctl.por = false →
    ∃ t, Sys2Proof.Machine.exec (.watchdog dt) s = .next t ∧ t.dev.ctl.mode = .fallback ∧
      Logged d [(0x0004, 0xFF, leBytes 2 d.tWd), (0x0002, 0xFF, [2, 3, 1])] t) ∧
  (∀ (low w : Nat) (sdi : List Byte) (bits : Fin 8), d.port.isOpen = true → d.port.commit = none → d.port.quietUntil ≤ d.now →
    d.ctl.mode = .conducted → d.ctl.por = false → d.port.watchdog = some w → w < d.now + 8 * low →
    ∃ t, Sys2Proof.Machine.exec (.bar dt low sdi bits false) s = .next t ∧ t.dev.ctl.mode = .fallback ∧
      t.dev.port.watchdog = none) ∧
  (d.port.isOpen = false → d.ctl.started = true → d.port.vioValid = true → (∀ x, d.port.reopenAt = some x → x ≤ d.now) →
    ∃ t, Sys2Proof.Machine.exec (.hostPortOpen dt) s = .next t ∧ t.dev.port.isOpen = true ∧ t.dev.port.reopenAt = none) ∧
  (d.port.vioValid = true → d.ctl.por = false →
    ∃ t, Sys2Proof.Machine.exec (.vioLost dt) s = .next t ∧ t.dev.port.isOpen = false ∧ t.dev.port.vioValid = false ∧
      t.dev.port.sdo = none ∧ t.dev.port.barNo = d.port.barNo ∧ Logged d [(0x0B05, 0xFF, [])] t) ∧
  (∀ x, d.port.vioValid = false → d.port.vioLostAt = some x → d.ctl.por = false →
    ∃ t, Sys2Proof.Machine.exec (.vioReturn dt) s = .next t ∧ t.dev.port.vioValid = true ∧
      t.dev.port.reopenAt = some (d.now + 2 * msec) ∧ t.dev.port.barNo = d.port.barNo)

/-! ### The opcodes (05): reads -/

/-- NOP, IDENTIFY, STATUS_DETAIL, EVENT_READ, PARAM_READ and IMAGE_CHECK for this device alone, where the checks of 05
R130 pass, answer OK, a Read with what the snapshot holds (05 R137 to R139, R144, R147, R148). -/
def Obligations.CoreReadsAnswerOk : Prop :=
  ∀ (s : State) (tag : Byte), s.Inv →
  (s.accepts 0x00 [] → ∃ t, Sys2Proof.Machine.exec (.nop ⟨0, tag, []⟩) s = .next t ∧ Answered s t 0x00 tag 0 []) ∧
  (s.accepts 0x01 [] → ∃ t data, Sys2Proof.Machine.exec (.identify ⟨0, tag, []⟩) s = .next t ∧ Answered s t 0x01 tag 0 data ∧
    data.length = 32 ∧ data.take 4 = [b8 s.snap.score.variant.code, 0x43, 0x02, 0x03] ∧
    field data 6 4 = s.snap.patch.running.toNat ∧ field data 10 8 = Config.uid.toNat ∧
    data.getD 20 0 = b8 s.snap.ctl.mode.code ∧ field data 24 4 = (imageCrc s.snap.par.live).toNat ∧
    field data 28 4 = Config.romCrc.toNat) ∧
  (s.accepts 0x02 [1] → ∃ t data, Sys2Proof.Machine.exec (.statusDetail ⟨0, tag, [1]⟩) s = .next t ∧ Answered s t 0x02 tag 0 data ∧
    data = (idx 48).flatMap s.snap.voiceEntry) ∧
  (∀ (a : List Byte), s.accepts 0x03 a → 1 ≤ byteAt a 4 → byteAt a 4 ≤ 64 →
    ∃ t data, Sys2Proof.Machine.exec (.eventRead ⟨0, tag, a⟩) s = .next t ∧ Answered s t 0x03 tag 0 data ∧
      let got := (s.snap.log.events.filter fun e => atOrBefore (BitVec.ofNat 32 (field a 0 4)) e.seq).take (byteAt a 4)
      data.take 8 = leBytes 4 s.snap.log.oldest.toNat ++ leBytes 4 s.snap.log.newest.toNat ∧
      data.drop 12 = got.flatMap Event.bytes) ∧
  (∀ (a : List Byte) (id : Nat) (w : Word), s.accepts 0x11 a → a = 1 :: 0 :: leBytes 2 id → id < 65536 →
    s.snap.readWord true id = some w →
    ∃ t, Sys2Proof.Machine.exec (.paramRead ⟨0, tag, a⟩) s = .next t ∧ Answered s t 0x11 tag 0 ([1, 0] ++ wordBytes (id, w))) ∧
  (s.accepts 0x12 [] → ∃ t, Sys2Proof.Machine.exec (.imageCheck ⟨0, tag, []⟩) s = .next t ∧
    Answered s t 0x12 tag 0 (leBytes 4 (imageCrc s.dev.par.shadow).toNat ++
      leBytes 2 (imageDiff s.dev.par.shadow s.dev.par.live) ++ leBytes 2 (imageDiff s.dev.par.shadow [])))

/-- CUE_QUERY in both forms, ODOMETER_READ, LEAD_READ, LIFETIME_READ and SOUNDCHECK_RESULT answer OK with what the
snapshot holds (05 R161 to R163, 10 R299, 14 R420, 07 R230). -/
def Obligations.CueAndVoiceReadsAnswerOk : Prop :=
  ∀ (s : State) (tag : Byte), s.Inv →
  (∀ a, s.accepts 0x32 a → a.length = 6 → field a 4 2 ≤ 256 →
    ∃ t data, Sys2Proof.Machine.exec (.cueQuery ⟨0, tag, a⟩) s = .next t ∧ Answered s t 0x32 tag 0 data ∧
      data.take 4 = leBytes 2 s.snap.cues.queue.length ++ leBytes 2 s.snap.cueFree ∧
      (data.drop 10).take 4 = leBytes 4 s.snap.cues.nextId.toNat ∧
      data.drop 16 = ((s.snap.cues.queue.filter fun c => (c.id - BitVec.ofNat 32 (field a 0 4)).toNat < 2 ^ 31).take
        (field a 4 2)).flatMap s.snap.cueRecord) ∧
  (∀ ctrl : Byte, s.accepts 0x32 [ctrl, 0] →
    ∃ t data, Sys2Proof.Machine.exec (.cueQueryStats ⟨0, tag⟩ ctrl 0) s = .next t ∧ Answered s t 0x32 tag 0 data ∧
      data.take 4 = leBytes 2 s.snap.cues.queue.length ++ leBytes 2 s.snap.cueFree ∧
      (data.drop 8).take 4 = leBytes 2 s.snap.cues.nullPulse ++ leBytes 2 s.snap.cues.cueLate) ∧
  (s.accepts 0x34 [] → ∃ t, Sys2Proof.Machine.exec (.odometerRead ⟨0, tag⟩) s = .next t ∧
    Answered s t 0x34 tag 0 s.snap.odoReply) ∧
  (∀ a, s.accepts 0x35 a → maskAt a 0 = 0 →
    ∃ t, Sys2Proof.Machine.exec (.leadRead ⟨0, tag, a⟩) s = .next t ∧ Answered s t 0x35 tag 0 []) ∧
  (∀ (a : List Byte) (v : VoiceId), s.accepts 0x35 a → maskVoices (maskAt a 0) = [v] →
    ∃ t data, Sys2Proof.Machine.exec (.leadRead ⟨0, tag, a⟩) s = .next t ∧ Answered s t 0x35 tag 0 data ∧
      data.getD 0 0 = b8 v.val ∧ data.getD 6 0 = b8 (s.snap.voice v).lead.opens.length ∧
      data.getD 7 0 = b8 (s.snap.voice v).lead.closes.length) ∧
  (s.accepts 0xA2 [] → ∃ t data, Sys2Proof.Machine.exec (.lifetimeRead ⟨0, tag, []⟩) s = .next t ∧
    Answered s t 0xA2 tag 0 data ∧ data.take 2 = leBytes 2 s.snap.ctl.lostSessions ∧
    (data.drop 8).take 8 = leBytes 4 (s.snap.cyclesOf 0) ++ leBytes 4 (s.snap.secondsOf 0)) ∧
  (∀ a, s.accepts 0xA1 a → ∃ t data, Sys2Proof.Machine.exec (.soundcheckResult ⟨0, tag, a⟩) s = .next t ∧
    Answered s t 0xA1 tag 0 data ∧ data.getD 0 0 = b8 s.snap.checksWaiting ∧
    (data.drop 2).take 4 = leBytes 2 s.snap.sc.delayed ++ leBytes 2 s.snap.sc.discarded)

/-- ADC_CAL_STATUS, WAVE_STATUS, THERMAL_READ, NV_READ, REC_READ, NV_STATUS and MARGIN_READ answer OK with what the
snapshot, or at the commit edge the flash, holds (11 R330, 12 R352, 13 R380, 14 R415, R417 to R419). -/
def Obligations.ConverterAndFlashReadsAnswerOk : Prop :=
  ∀ (s : State) (tag : Byte), s.Inv →
  (s.accepts 0x43 [0] → ∃ t data, Sys2Proof.Machine.exec (.adcCalStatus ⟨0, tag, [0]⟩) s = .next t ∧
    Answered s t 0x43 tag 0 data ∧ data.take 3 = [b8 (boolNat !s.snap.conv.calRuns), b8 (s.snap.conv.standIn.getD 0xFF),
      b8 (s.snap.conv.replaced.getD 0xFF)] ∧ (data.drop 4).take 4 = leBytes 4 s.snap.conv.cycles) ∧
  (∀ a, s.accepts 0x51 a → byteAt a 0 = 0xFF → field a 4 2 ≤ 2024 →
    ∃ t, Sys2Proof.Machine.exec (.waveStatus ⟨0, tag, a⟩) s = .next t ∧ Answered s t 0x51 tag 0 s.snap.waveHead) ∧
  (s.accepts 0x60 [0] → ∃ t data, Sys2Proof.Machine.exec (.thermalRead ⟨0, tag, [0]⟩) s = .next t ∧
    Answered s t 0x60 tag 0 data ∧ data.getD 0 0 = b8 (boolNat s.snap.therm.coldBlock * 192) ∧
    data.getD 1 0 = b8 s.snap.healthyZones ∧ (data.drop 8).take 2 = leInt 2 (tenths (s.snap.zone 0).temp)) ∧
  (∀ a, s.accepts 0x70 a → 1 ≤ field a 4 2 → field a 4 2 ≤ 8152 → field a 0 4 + field a 4 2 ≤ 0x10000 → s.dev.nv.op.busy = false →
    ∃ t, Sys2Proof.Machine.exec (.nvRead ⟨0, tag, a⟩) s = .next t ∧
      Answered s t 0x70 tag 0 (leBytes 4 (field a 0 4) ++ leBytes 2 (field a 4 2) ++ [0, 0] ++
        (s.dev.nv.current s.dev.now).bytes s.dev.now (field a 0 4) (field a 4 2))) ∧
  (∀ a, s.accepts 0x75 a → field a 0 2 ≤ field a 2 2 → 1 ≤ byteAt a 4 → byteAt a 4 ≤ 100 →
    ∃ t data, Sys2Proof.Machine.exec (.recRead ⟨0, tag, a⟩) s = .next t ∧ Answered s t 0x75 tag 0 data ∧
      let rs := (assignedKeys.filter fun k => field a 0 2 ≤ k && k ≤ field a 2 2).filterMap s.snap.nv.holds
      data.take 2 = [b8 (boolNat (byteAt a 4 < rs.length)), b8 (min (byteAt a 4) rs.length)]) ∧
  (s.accepts 0x77 [] → ∃ t data, Sys2Proof.Machine.exec (.nvStatus ⟨0, tag, []⟩) s = .next t ∧ Answered s t 0x77 tag 0 data ∧
    (data.drop 1).take 3 = [b8 s.snap.nv.protect, b8 s.snap.nv.op.kind, b8 s.snap.nv.op.result]) ∧
  (∀ a, s.accepts 0x78 a → byteAt a 0 = 0 → field a 2 2 < 256 → s.dev.nv.op.busy = false → s.dev.nv.appends = [] →
    s.dev.nv.gc = none → s.dev.pd.step ≠ .save → s.dev.pd.step ≠ .idleFlash →
    ∃ t data, Sys2Proof.Machine.exec (.marginRead ⟨0, tag, a⟩) s = .next t ∧ Answered s t 0x78 tag 0 data ∧
      data.take 4 = [0, 0] ++ leBytes 2 (field a 2 2) ∧
      data.drop 12 = s.dev.nv.bytes s.dev.now (256 * field a 2 2) 256)

/-- SCORE_TOTALS, SCORE_IDENT, CHAIN_STATUS and PATCH_STATUS answer OK with what the publication or the snapshot holds
(15 R444, R449, 16 R489, 05 R168). -/
def Obligations.ScoreAndChainReadsAnswerOk : Prop :=
  ∀ (s : State) (tag : Byte), s.Inv →
  (∀ (n : Byte) (x : Score), s.accepts 0x80 [n] → n.toNat ≤ 2 → s.snap.link.publication = some x →
    ∃ t data, Sys2Proof.Machine.exec (.scoreTotals ⟨0, tag, [n]⟩) s = .next t ∧ Answered s t 0x80 tag 0 data ∧
      data.getD 0 0 = n ∧ (data.drop 8).take 4 = leBytes 4 x.jobId.toNat ∧ (data.drop 12).take 8 = leInt 8 x.tbc ∧
      (n = 0 → x.variant = .m → data.drop 20 = x.life.list.flatMap entry8)) ∧
  (∀ x : Score, s.accepts 0x83 [] → s.snap.link.publication = some x →
    ∃ t, Sys2Proof.Machine.exec (.scoreIdent ⟨0, tag, []⟩) s = .next t ∧ Answered s t 0x83 tag 0 x.ident) ∧
  (∀ a : Byte, s.accepts 0x91 [a] → ∃ t data, Sys2Proof.Machine.exec (.chainStatus ⟨0, tag, [a]⟩) s = .next t ∧
    Answered s t 0x91 tag 0 data ∧ data.take 2 = [b8 s.snap.role, b8 s.snap.ownAddr] ∧
    (data.drop 8).take 4 = leBytes 2 s.snap.chain.latency ++ leBytes 2 s.snap.chain.barLost ∧
    t.dev.chain.barLost = if a.toNat.testBit 0 then 0 else s.dev.chain.barLost) ∧
  (s.accepts 0xF1 [] → ∃ t data, Sys2Proof.Machine.exec (.patchStatus ⟨0, tag, []⟩) s = .next t ∧ Answered s t 0xF1 tag 0 data ∧
    data.take 2 = [PatchState.code s.snap.patch.st, s.snap.patch.last] ∧
    (data.drop 4).take 8 = leBytes 4 s.snap.patch.image.length ++ leBytes 4 s.snap.patch.length ∧
    (data.drop 16).take 4 = leBytes 4 (crc32 s.snap.patch.image).toNat)

/-! ### The opcodes (05): what each does -/

/-- EVENT_ACK, SOFT_RESET, PARAM_WRITE, PARAM_WRITE_LIVE, CONDUCT and ACAPPELLA for this device alone, where the checks
of 05 R130 and the opcode's own checks pass; a PARAM_WRITE with an entry that fails writes none, and of two entries
for one word the later stands (04 R104, 05 R145, R140, R146, R149, R150, 02 R62, R65, R66). What the spec leaves
open in it is the model's choice: log entry 11. -/
def Obligations.CoreCommitsAct : Prop :=
  ∀ (s : State) (tag : Byte), s.Inv →
  (∀ a, s.accepts 0x04 a → atOrBefore (BitVec.ofNat 32 (field a 0 4)) s.dev.log.newest = true →
    ∃ t, Sys2Proof.Machine.exec (.eventAck ⟨0, tag, a⟩) s = .next t ∧
      let seen (e : Event) : Event := if atOrBefore e.seq (BitVec.ofNat 32 (field a 0 4)) then { e with acked := true } else e
      t.dev.log = { s.dev.log with events := s.dev.log.events.map seen }) ∧
  (s.accepts 0x06 [0x5A, 0xA5] →
    ∃ t, Sys2Proof.Machine.exec (.softReset ⟨0, tag, [0x5A, 0xA5]⟩) s = .next t ∧ t.dev.ctl.mode = .starting ∧
      t.dev.ctl.startCause = 2 ∧ t.dev.port.isOpen = false ∧ t.dev.port.barNo = 0 ∧ t.dev.par.live = [] ∧
      t.dev.par.shadow = [] ∧ t.dev.time.tbc = 0 ∧ t.dev.score = s.dev.score ∧ t.snap = t.dev) ∧
  (∀ a, s.accepts 0x10 a → firstBadEntry .image (paramEntries a) = none →
    ∃ t, Sys2Proof.Machine.exec (.paramWrite ⟨0, tag, a⟩) s = .next t ∧ Answered s t 0x10 tag 0 [] ∧
      t.dev.par.shadow = writeWords s.dev.par.shadow (paramEntries a) ∧ t.dev.par.live = s.dev.par.live) ∧
  (∀ a id k, s.accepts 0x10 a → firstBadEntry .image (paramEntries a) = some (id, k) →
    ∃ t, Sys2Proof.Machine.exec (.paramWrite ⟨0, tag, a⟩) s = .next t ∧ Answered s t 0x10 tag stBadParam (leBytes 2 id ++ [b8 k]) ∧
      t.dev.par = s.dev.par) ∧
  (∀ (id : Nat) (w : Word), wordClass id = some .live ∨ wordClass id = some .ro → entryFailure .image id w = some 0xFF) ∧
  (∀ (l es : List (Nat × Word)) (id : Nat), wordGet (writeWords l es) id = (es.reverse.lookup id).getD (wordGet l id)) ∧
  (∀ a, s.accepts 0x14 a → firstBadEntry .live (paramEntries a) = none →
    ∃ t, Sys2Proof.Machine.exec (.paramWriteLive ⟨0, tag, a⟩) s = .next t ∧ Answered s t 0x14 tag 0 [] ∧
      t.dev.par.live = writeWords s.dev.par.live (paramEntries a) ∧ t.dev.par.shadow = s.dev.par.shadow) ∧
  (∀ a, s.accepts 0x13 a → s.dev.conductFailure (BitVec.ofNat 32 (field a 0 4)) = none →
    ∃ t, Sys2Proof.Machine.exec (.conduct ⟨0, tag, a⟩) s = .next t ∧ t.dev.ctl.mode = .conducted ∧
      t.dev.par.live = conductWords s.dev.par.shadow s.dev.par.live ∧ t.dev.par.shadow = s.dev.par.shadow ∧
      t.dev.port.watchdog = some (s.dev.now + t.dev.tWd * msec)) ∧
  (s.accepts 0x15 [] → s.dev.parkRefusal = none → s.dev.ctl.mode ≠ .acappella → s.dev.ctl.mode ≠ .starting →
    ∃ t, Sys2Proof.Machine.exec (.acappella ⟨0, tag, []⟩) s = .next t ∧ t.dev.ctl.mode = .acappella ∧
      t.dev.par.live = [] ∧ t.dev.par.shadow = s.dev.par.shadow ∧ t.dev.port.watchdog = none)

/-- VOICE_SET, VOICE_DUTY, VOICE_CLEAR_FAULT and VOICE_RETIRE for one voice outside a gang: what the command itself
makes of the voice; what it asks for acts at the end of the slot (05 R151 to R155, 08 R238). What the spec leaves
open in it is the model's choice: log entry 15. -/
def Obligations.VoiceOpcodesAct : Prop :=
  ∀ (s : State) (tag : Byte) (v : VoiceId) (m : Mask), maskVoices m = [v] → s.dev.gang v = none →
  (s.accepts 0x20 (1 :: 0xFF :: maskBytes m) → s.dev.levelInput v = none → (s.dev.voice v).st = .off →
    (s.dev.voice v).wait = none → s.dev.bar v = .none →
    ∃ t, Sys2Proof.Machine.exec (.voiceSetOn ⟨0, tag, 0xFF :: maskBytes m⟩) s = .next t ∧
      (t.dev.voice v).cmd = true ∧ ((t.dev.voice v).wait.map fun w => w.source) = some .voiceSet ∧
      ∀ u, u ≠ v → t.dev.voice u = s.dev.voice u) ∧
  (s.accepts 0x20 (0 :: 0xFF :: maskBytes m) → s.dev.levelInput v = none → (s.dev.voice v).st = .on →
    (s.dev.voice v).wait = none →
    ∃ t, Sys2Proof.Machine.exec (.voiceSetOff ⟨0, tag, 0xFF :: maskBytes m⟩) s = .next t ∧
      (t.dev.voice v).cmd = false ∧ inMask t.dev.slotOffs v = true ∧ ∀ u, u ≠ v → t.dev.voice u = s.dev.voice u) ∧
  (∀ lo hi : Byte, s.accepts 0x21 [b8 v.val, 0, lo, hi] → (s.dev.voice v).st = .pwm → (s.dev.voice v).driveMode = 1 →
    (s.dev.voice v).barred = false → (s.dev.voice v).half = false ∨ (s.dev.voice v).gate = true →
    ∃ t, Sys2Proof.Machine.exec (.voiceDuty ⟨0, tag, [b8 v.val, 0, lo, hi]⟩) s = .next t ∧
      (t.dev.voice v).duty = field [lo, hi] 0 2 ∧ ∀ u, u ≠ v → t.dev.voice u = s.dev.voice u) ∧
  (s.accepts 0x22 (maskBytes m) → (s.dev.voice v).st = .latched →
    ∃ t, Sys2Proof.Machine.exec (.voiceClearFault ⟨0, tag, maskBytes m⟩) s = .next t ∧
      (t.dev.voice v).st = .off ∧ (t.dev.voice v).fault = 0 ∧ (t.dev.voice v).retry = 0 ∧ (t.dev.voice v).cmd = false ∧
      ∀ u, u ≠ v → t.dev.voice u = s.dev.voice u) ∧
  (s.accepts 0x23 (maskBytes m) → (s.dev.voice v).st ≠ .retired → s.dev.sc.running = none →
    ∃ t, Sys2Proof.Machine.exec (.voiceRetire ⟨0, tag, maskBytes m⟩) s = .next t ∧
      (t.dev.voice v).st = .retired ∧ (t.dev.voice v).cmd = false ∧ (t.dev.voice v).wait = none)

/-- BANK_CUT cuts and restores the banks that it selects and no other; PARK and RESUME change the mode (05 R156 to R158,
08 R241). -/
def Obligations.BankAndModeOpcodesAct : Prop :=
  ∀ (s : State) (tag : Byte),
  (∀ m : BitVec 4, m ≠ 0 → s.accepts 0x24 [bankByte m <<< 4 ||| bankByte m] →
    ∃ t, Sys2Proof.Machine.exec (.bankCut ⟨0, tag⟩ m) s = .next t ∧
      ∀ b : BankId, (t.dev.banks.get b).cut = ((s.dev.banks.get b).cut || m.getLsbD b.val)) ∧
  (∀ m : BitVec 4, m ≠ 0 → s.accepts 0x24 [bankByte m <<< 4] →
    ∃ t, Sys2Proof.Machine.exec (.bankRestore ⟨0, tag⟩ m) s = .next t ∧
      ∀ b : BankId, (t.dev.banks.get b).cut = ((s.dev.banks.get b).cut && !m.getLsbD b.val) ∧
        (t.dev.banks.get b).conducting = ((s.dev.banks.get b).conducting || m.getLsbD b.val)) ∧
  (s.accepts 0x25 [] → s.dev.pdRunning = false → s.dev.ctl.mode = .acappella ∨ s.dev.ctl.mode = .conducted ∨ s.dev.ctl.mode = .fallback →
    ∃ t, Sys2Proof.Machine.exec (.park ⟨0, tag, []⟩) s = .next t ∧ t.dev.ctl.mode = .parked ∧
      t.dev.pd.step = .voicesAndCommit ∧ t.dev.pd.cause = 1 ∧ t.dev.pd.at_ = s.dev.now ∧ t.dev.port.watchdog = none ∧
      t.dev.ctl.parkFromAcappella = decide (s.dev.ctl.mode = .acappella) ∧ t.dev.score.powerFail = true) ∧
  (s.accepts 0x26 [] → s.dev.parkRefusal = none → s.dev.ctl.mode = .parked →
    ∃ t, Sys2Proof.Machine.exec (.resume ⟨0, tag, []⟩) s = .next t ∧ t.dev.score.powerFail = false ∧
      (s.dev.ctl.parkFromAcappella = true → t.dev.ctl.mode = .acappella) ∧
      (s.dev.ctl.parkFromAcappella = false → t.dev.ctl.mode = .conducted ∧
        t.dev.port.watchdog = some (s.dev.now + s.dev.tWd * msec))) ∧
  (s.accepts 0x26 [] → s.dev.pdRunning = false → s.dev.ctl.mode = .fallback →
    ∃ t, Sys2Proof.Machine.exec (.resume ⟨0, tag, []⟩) s = .next t ∧ t.dev.ctl.mode = .conducted ∧
      t.dev.port.watchdog = some (s.dev.now + s.dev.tWd * msec))

/-- CUE_ADD and CUE_CANCEL, the REBASE form of ODOMETER_READ, TALLY_READ, THROTTLE_ACK, ANCHOR_BLIP, SOUNDCHECK_RUN and
BREATH_CTRL, where their own checks pass (05 R159, R160, R162, 09 R269, 13 R381, R382, 07 R229, 16 R481). CUE_CANCEL
takes every entry that is pending: one that has acted already stays to the end of its slot. What the spec leaves open
in it is the model's choice: log entries 60, 171. -/
def Obligations.CueAndBreathOpcodesAct : Prop :=
  ∀ (s : State) (tag : Byte), s.Inv →
  (∀ a, s.accepts 0x30 a →
    let es := chunks 16 256 a
    (∀ i, i < es.length → s.dev.cueCheck es i = none) → es.length ≤ s.dev.cueFree →
    (∀ b ∈ es, (cueOf 0 b).basis ≠ 2) → (∀ c ∈ s.dev.cues.queue, c.basis ≠ 2) →
    ∃ t, Sys2Proof.Machine.exec (.cueAdd ⟨0, tag, a⟩) s = .next t ∧
      t.dev.cues.queue = s.dev.cues.queue ++ es.mapIdx (fun i b => cueOf (s.dev.cues.nextId + BitVec.ofNat 32 i) b) ∧
      t.dev.cues.nextId = s.dev.cues.nextId + BitVec.ofNat 32 es.length ∧
      Answered s t 0x30 tag 0 (leBytes 4 s.dev.cues.nextId.toNat ++ leBytes 2 es.length)) ∧
  (s.accepts 0x31 [3, 0] →
    ∃ t, Sys2Proof.Machine.exec (.cueCancel ⟨0, tag, [3, 0]⟩) s = .next t ∧
      t.dev.cues.queue = (s.dev.cues.queue.filter fun c => !s.dev.cuePending c) ∧
      Answered s t 0x31 tag 0 (leBytes 2 (s.dev.cues.queue.filter s.dev.cuePending).length)) ∧
  (∀ x : BitVec 64, s.accepts 0x34 (leBytes 8 x.toNat) → s.dev.odo.st ≠ .unavailable →
    ∃ t, Sys2Proof.Machine.exec (.odometerRebase ⟨0, tag⟩ x) s = .next t ∧ t.dev.odoUnits = x.toInt) ∧
  (∀ (i : Fin 8) (n : Byte), s.accepts 0x34 [b8 i.val, n, 0, 0] → s.snap.tally.get i = s.dev.tally.get i →
    ∃ t, Sys2Proof.Machine.exec (.tallyRead ⟨0, tag⟩ (b8 i.val) n 0 0) s = .next t ∧
      (t.dev.tally.get i).fifo = (s.dev.tally.get i).fifo.drop n.toNat ∧
      ∀ j, j ≠ i → t.dev.tally.get j = s.dev.tally.get j) ∧
  (∀ (m : Mask) (z : Byte), m ≠ 0 ∨ z ≠ 0 → s.accepts 0x61 (maskBytes m ++ [z]) →
    ∃ t, Sys2Proof.Machine.exec (.throttleAck ⟨0, tag, maskBytes m ++ [z]⟩) s = .next t ∧
      ∀ v : VoiceId, (t.dev.voice v).therm.req =
        if inMask m v && outstanding (s.dev.voice v).therm.req then acknowledge (s.dev.voice v).therm.req
        else (s.dev.voice v).therm.req) ∧
  (∀ (m : Mask) (v : VoiceId), s.accepts 0x62 (maskBytes m) → maskVoices m = [v] → s.dev.gang v = none →
    s.dev.vfld v 0 11 1 = 1 → (s.dev.voice v).st = .on → (s.dev.voice v).barred = false →
    (s.dev.voice v).therm.stopHold = false → v ∉ s.dev.therm.blips →
    ∃ t, Sys2Proof.Machine.exec (.anchorBlip ⟨0, tag, maskBytes m⟩) s = .next t ∧
      t.dev.therm.blips = s.dev.therm.blips ++ [v]) ∧
  (∀ (m : Mask) (k : Byte), s.accepts 0xA0 (maskBytes m ++ [k, 0]) → k ≠ 0 →
    ∃ t, Sys2Proof.Machine.exec (.soundcheckRun ⟨0, tag, maskBytes m ++ [k, 0]⟩) s = .next t ∧
      ∀ v : VoiceId, (t.dev.voice v).checks.host =
        if inMask m v && (s.dev.voice v).st == .off && !(s.dev.voice v).barred then (s.dev.voice v).checks.host ++ [BitVec.ofNat 6 k.toNat]
        else (s.dev.voice v).checks.host) ∧
  (∀ (p : Fin 15) (n : Byte), s.accepts 0x93 [b8 (p.val + 1), n] → n ≠ 0 → s.dev.chain.head = true ∨ s.dev.chain.addr = none →
    ∃ t, Sys2Proof.Machine.exec (.breathCtrl ⟨0, tag, [b8 (p.val + 1), n]⟩) s = .next t ∧
      (t.dev.chain.pools.get p).pool = n.toNat ∧ ∀ q, q ≠ p → t.dev.chain.pools.get q = s.dev.chain.pools.get q)

/-- ADC_READ_BUFFER, CONVERT_NOW and the three actions of ADC_ENGINE_CTRL, where the checks of 05 R130 and their own
checks pass: a read releases what it returns unless it peeks, and one that clears leaves in each counter what it has
counted in this slot; a conversion starts a scan of the engine's inputs, and PAUSE, RUN and FLUSH act on the engines
that the command names and on no other (11 R327, R315, R328, R329, 21 R557). -/
def Obligations.ConverterOpcodesAct : Prop :=
  ∀ (s : State) (tag : Byte),
  (∀ (e : EngineId) (ctrl lo hi : Byte), s.accepts 0x40 [b8 e.val, ctrl, lo, hi] → field [lo, hi] 0 2 ≤ 2034 →
    ∃ t k, Sys2Proof.Machine.exec (.adcReadBuffer ⟨0, tag, [b8 e.val, ctrl, lo, hi]⟩) s = .next t ∧ k ≤ field [lo, hi] 0 2 ∧
      let x := s.dev.conv.engines.get e
      (t.dev.conv.engines.get e).read = (if ctrl.toNat.testBit 0 then x.read
        else max x.read (max (s.snap.conv.engines.get e).read (x.write - s.dev.engCap e) + k)) ∧
      (ctrl.toNat.testBit 2 = true →
        (t.dev.conv.engines.get e).overrun = x.overrun - s.dev.found.getD (3 * e.val) 0 ∧
        (t.dev.conv.engines.get e).drops = x.drops - s.dev.found.getD (3 * e.val + 1) 0 ∧
        (t.dev.conv.engines.get e).trigOverrun = x.trigOverrun - s.dev.found.getD (3 * e.val + 2) 0) ∧
      (ctrl.toNat.testBit 2 = false → (t.dev.conv.engines.get e).overrun = x.overrun ∧
        (t.dev.conv.engines.get e).drops = x.drops ∧ (t.dev.conv.engines.get e).trigOverrun = x.trigOverrun) ∧
      ∀ u, u ≠ e → t.dev.conv.engines.get u = s.dev.conv.engines.get u) ∧
  (∀ e : EngineId, s.accepts 0x41 [b8 (2 ^ e.val)] → s.dev.engEnabled e = true → (s.dev.conv.engines.get e).paused = false →
    s.dev.engTrig e ≠ 0 → (s.dev.conv.engines.get e).todo = [] →
    ∃ t, Sys2Proof.Machine.exec (.convertNow ⟨0, tag, [b8 (2 ^ e.val)]⟩) s = .next t ∧
      (t.dev.conv.engines.get e).scanNo = (s.dev.conv.engines.get e).scanNo + 1 ∧
      ((t.dev.conv.engines.get e).todo.map fun v => v.input) = s.dev.scanInputs e ∧
      ∀ u, u ≠ e → t.dev.conv.engines.get u = s.dev.conv.engines.get u) ∧
  (∀ m : BitVec 4, s.accepts 0x42 (engineBytes m 1) →
    ∃ t, Sys2Proof.Machine.exec (.adcEnginePause ⟨0, tag⟩ m) s = .next t ∧
      ∀ e : EngineId, (t.dev.conv.engines.get e).paused =
        ((s.dev.conv.engines.get e).paused || (m.getLsbD e.val && !(s.dev.engInputs e).any (· < 96)))) ∧
  (∀ m : BitVec 4, s.accepts 0x42 (engineBytes m 2) →
    ∃ t, Sys2Proof.Machine.exec (.adcEngineRun ⟨0, tag⟩ m) s = .next t ∧
      ∀ e : EngineId, (t.dev.conv.engines.get e).paused =
        ((s.dev.conv.engines.get e).paused && !(m.getLsbD e.val && s.dev.engEnabled e))) ∧
  (∀ m : BitVec 4, s.accepts 0x42 (engineBytes m 3) →
    ∃ t, Sys2Proof.Machine.exec (.adcEngineFlush ⟨0, tag⟩ m) s = .next t ∧
      ∀ e : EngineId, (t.dev.conv.engines.get e).read =
        if m.getLsbD e.val && s.dev.engEnabled e then (s.dev.conv.engines.get e).write else (s.dev.conv.engines.get e).read)

/-- The five actions of WAVE_CTRL, where the checks of 05 R130 and its own checks pass: what REPORT, FREEZE, RELEASE,
ARM_FAULT and CLEAR make of the slots that the command names, and that they change no other (12 R351); a counter that
CLEAR clears keeps what it has counted in this slot (21 R557). -/
def Obligations.WaveOpcodesAct : Prop :=
  ∀ (s : State) (tag : Byte),
  (∀ a : List Byte, s.dev.waveEnabled = true → (∀ k ∈ slotsOf (field a 0 2), k.val < s.dev.waveSlots) →
    (s.accepts 0x50 (0 :: a) → ∃ t, Sys2Proof.Machine.exec (.waveReport ⟨0, tag, a⟩) s = .next t ∧ t.dev.wave = s.dev.wave ∧
      Answered s t 0x50 tag 0 (slotMask (fun k => (s.dev.wave.slots.get k).frozen) ++
        slotMask (fun k => (s.dev.wave.slots.get k).armed.isSome) ++ [0, 0])) ∧
    (s.accepts 0x50 (1 :: a) → field a 0 2 ≠ 0 → ∃ t, Sys2Proof.Machine.exec (.waveFreeze ⟨0, tag, a⟩) s = .next t ∧
      ∀ k, (t.dev.wave.slots.get k).frozen = ((s.dev.wave.slots.get k).frozen || (slotsOf (field a 0 2)).contains k)) ∧
    (s.accepts 0x50 (2 :: a) → field a 0 2 ≠ 0 → ∃ t, Sys2Proof.Machine.exec (.waveRelease ⟨0, tag, a⟩) s = .next t ∧
      ∀ k, (t.dev.wave.slots.get k).frozen = ((s.dev.wave.slots.get k).frozen && !(slotsOf (field a 0 2)).contains k) ∧
        ((slotsOf (field a 0 2)).contains k = true → (t.dev.wave.slots.get k).buffer = [])) ∧
    (s.accepts 0x50 (3 :: a) → field a 0 2 ≠ 0 → ∀ v : VoiceId, byteAt a 2 = v.val → (s.dev.voice v).st ≠ .retired →
      (∀ k ∈ slotsOf (field a 0 2), field a 3 2 < 2 ^ s.dev.slotLog k) →
      ∃ t, Sys2Proof.Machine.exec (.waveArmFault ⟨0, tag, a⟩) s = .next t ∧
      ∀ k, (t.dev.wave.slots.get k).armed =
        if (slotsOf (field a 0 2)).contains k && !(s.dev.wave.slots.get k).frozen then some (v, field a 3 2)
        else (s.dev.wave.slots.get k).armed) ∧
    (s.accepts 0x50 (4 :: a) → ∃ t, Sys2Proof.Machine.exec (.waveClear ⟨0, tag, a⟩) s = .next t ∧
      let since (k n : Nat) : Nat := n - s.dev.found.getD k 0
      t.dev.wave = { s.dev.wave with
        losses := since 42 s.dev.wave.losses, frameErr := since 43 s.dev.wave.frameErr, parityErr := since 44 s.dev.wave.parityErr
        vSkipped := since 45 s.dev.wave.vSkipped, csErr := since 46 s.dev.wave.csErr, realign := since 47 s.dev.wave.realign }))

/-- NV_PROGRAM, NV_ERASE, NV_PROTECT, REC_WRITE, REC_DELETE and the four phases of PATCH_LOAD, where their own checks
pass (14 R412 to R416, 05 R164 to R167). What the spec leaves open in it is the model's choice: log entries 20, 89. -/
def Obligations.FlashAndPatchOpcodesAct : Prop :=
  ∀ (s : State) (tag : Byte), s.Inv →
  (∀ a, s.accepts 0x71 a →
    let at_ := field a 0 4
    let data := a.drop 8
    byteAt a 4 = 0 → at_ % 8 = 0 → at_ + data.length ≤ 0x10000 → (sectorsOf at_ data.length).any s.dev.nv.isProtected = false →
    s.dev.therm.coldBlock = false → s.dev.nv.op.busy = false →
    (∀ b ∈ s.dev.nv.bytes s.dev.now at_ data.length, b = 0xFF) → (∀ w, wordCount s.dev.nv.programs w < 2) →
    ∃ t, Sys2Proof.Machine.exec (.nvProgram ⟨0, tag, a⟩) s = .next t ∧ t.dev.nv.op.kind = 1 ∧ t.dev.nv.op.busy = true ∧
      t.dev.nv.op.addr = at_ ∧ t.dev.nv.op.data = data ∧ t.dev.nv.op.total = data.length / 8 ∧
      Answered s t 0x71 tag 0 (leBytes 2 (data.length / 8) ++ [0, 0])) ∧
  (∀ a, s.accepts 0x72 a →
    let ss := (List.range 16).filter (field a 0 2).testBit
    ss ≠ [] → ss.any s.dev.nv.isProtected = false → s.dev.therm.coldBlock = false → s.dev.nv.op.busy = false →
    ∃ t, Sys2Proof.Machine.exec (.nvErase ⟨0, tag, a⟩) s = .next t ∧ t.dev.nv.op.kind = 2 ∧ t.dev.nv.op.busy = true ∧
      t.dev.nv.op.sectors = ss ∧ Answered s t 0x72 tag 0 (leBytes 2 (field a 0 2) ++ leBytes 2 (20 * ss.length))) ∧
  (∀ l : Byte, s.accepts 0x73 [l] → l.toNat ≤ 3 →
    ∃ t, Sys2Proof.Machine.exec (.nvProtect ⟨0, tag, [l]⟩) s = .next t ∧ t.dev.nv.protect = l.toNat ∧
      Answered s t 0x73 tag 0 [l]) ∧
  (∀ a, s.accepts 0x74 a → hostKey (field a 0 2) = true → s.dev.therm.coldBlock = false →
    s.dev.hasRoom (recSize (a.drop 2).length) = true →
    ∃ t, Sys2Proof.Machine.exec (.recWrite ⟨0, tag, a⟩) s = .next t ∧
      t.dev.nv.appends = (s.dev.nv.pause s.dev.now).appends ++ [{ key := field a 0 2, tomb := false, value := a.drop 2, rseq := s.dev.nv.nextRseq, host := true, words := 0 }] ∧
      t.dev.nv.nextRseq = s.dev.nv.nextRseq + 1 ∧ Answered s t 0x74 tag 0 (leBytes 4 s.dev.nv.nextRseq)) ∧
  (∀ a, s.accepts 0x76 a → hostKey (field a 0 2) = true → s.dev.therm.coldBlock = false →
    (s.dev.nv.holds (field a 0 2)).isSome = true → s.dev.hasRoom (recSize 0) = true →
    ∃ t, Sys2Proof.Machine.exec (.recDelete ⟨0, tag, a⟩) s = .next t ∧
      t.dev.nv.appends = (s.dev.nv.pause s.dev.now).appends ++ [{ key := field a 0 2, tomb := true, value := [], rseq := s.dev.nv.nextRseq, host := true, words := 0 }] ∧
      Answered s t 0x76 tag 0 [1]) ∧
  (∀ a, s.dev.patchClosed = false →
    (s.accepts 0xF0 (0 :: a) → 8 ≤ field a 3 4 → field a 3 4 ≤ 65536 → field a 3 4 % 8 = 0 → field a 7 4 ≠ 0 →
      field a 11 2 = 0x0302 → byteAt a 13 = 0x43 →
      ∃ t, Sys2Proof.Machine.exec (.patchBegin ⟨0, tag, a⟩) s = .next t ∧ t.dev.patch.st = .loading ∧ t.dev.patch.image = [] ∧
        t.dev.patch.length = field a 3 4 ∧ t.dev.patch.version = BitVec.ofNat 32 (field a 7 4)) ∧
    (s.accepts 0xF0 (1 :: a) → s.dev.patch.st = .loading → field a 3 4 = s.dev.patch.image.length →
      s.dev.patch.image.length + (a.drop 7).length ≤ s.dev.patch.length →
      ∃ t, Sys2Proof.Machine.exec (.patchData ⟨0, tag, a⟩) s = .next t ∧ t.dev.patch.image = s.dev.patch.image ++ a.drop 7) ∧
    (s.accepts 0xF0 (2 :: a) → s.dev.patch.st = .loading → s.dev.patch.length ≤ s.dev.patch.image.length →
      ∃ t, Sys2Proof.Machine.exec (.patchEnd ⟨0, tag, a⟩) s = .next t ∧
        (patchGood s.dev.patch.begin_ s.dev.patch.image (a.drop 3) = true → t.dev.patch.st = .active ∧
          t.dev.patch.running = s.dev.patch.version ∧ t.dev.patch.crc = crc32 s.dev.patch.image) ∧
        (patchGood s.dev.patch.begin_ s.dev.patch.image (a.drop 3) = false → t.dev.patch.st = .rejected ∧
          t.dev.patch.last = stSignature ∧ t.dev.patch.running = s.dev.patch.running)) ∧
    (s.accepts 0xF0 (3 :: a) → s.dev.patch.st = .loading →
      ∃ t, Sys2Proof.Machine.exec (.patchAbort ⟨0, tag, a⟩) s = .next t ∧ t.dev.patch.st = .abandoned ∧ t.dev.patch.image = []))

/-- The Score's own opcodes join the mailbox, and no reply comes at the commit edge: the Score answers later (15 R442,
R445 to R448, 01 R20). -/
def Obligations.ScoreOpcodesEnterTheMailbox : Prop :=
  ∀ (s : State) (tag : Byte) (a : List Byte), s.Inv → s.dev.ctl.scoreSilent = false → s.dev.link.mailbox.length < 16 →
  let joins (t : State) (opc : Byte) (p : List Byte) : Prop :=
    t.dev.port.replies = s.dev.port.replies ∧
    ∃ m : MailMsg, t.dev.link.mailbox = s.dev.link.mailbox ++ [m] ∧
      m.packet = { dest := 0, opc := opc, tag := tag, params := p } ∧ m.stamp = s.dev.time.tbc
  (s.accepts 0x81 a → ∃ t, Sys2Proof.Machine.exec (.scoreLegalSet ⟨0, tag, a⟩) s = .next t ∧ joins t 0x81 a) ∧
  (s.accepts 0x85 a → ∃ t, Sys2Proof.Machine.exec (.scoreSectionMap ⟨0, tag, a⟩) s = .next t ∧ joins t 0x85 a) ∧
  (s.accepts 0x84 (0 :: a) → ∃ t, Sys2Proof.Machine.exec (.scoreJobStart ⟨0, tag, a⟩) s = .next t ∧ joins t 0x84 (0 :: a)) ∧
  (s.accepts 0x84 (1 :: a) → ∃ t, Sys2Proof.Machine.exec (.scoreJobEnd ⟨0, tag, a⟩) s = .next t ∧ joins t 0x84 (1 :: a)) ∧
  (s.accepts 0x84 (2 :: a) → ∃ t, Sys2Proof.Machine.exec (.scoreJobDiag ⟨0, tag, a⟩) s = .next t ∧ joins t 0x84 (2 :: a)) ∧
  (s.accepts 0x82 a → ∃ t, Sys2Proof.Machine.exec (.scoreAuditRead ⟨0, tag, a⟩) s = .next t ∧ joins t 0x82 a)

/-- CHAIN_ENUMERATE and the three actions of CHAIN_RING on the precentor (16 R464, R466, R482). What the spec leaves
open in it is the model's choice: log entries 102, 104. -/
def Obligations.ChainOpcodesAct : Prop :=
  ∀ (s : State) (tag : Byte), s.Inv → s.dev.chain.head = true →
  (∀ x : Byte, s.accepts 0x90 [x, 0] → x.toNat ≤ 62 ∨ x = 255 → s.dev.port.pendingDb = [] → s.dev.chain.backlog = 0 →
    s.dev.chain.enumLeft = none →
    ∃ t, Sys2Proof.Machine.exec (.chainEnumerate ⟨0, tag, [x, 0]⟩) s = .next t ∧ t.dev.chain.enumLeft = some 32 ∧
      t.dev.chain.expect_ = x.toNat ∧ Answered s t 0x90 tag 0 [b8 s.dev.chain.count]) ∧
  (s.accepts 0x92 [0] → ∃ t, Sys2Proof.Machine.exec (.chainRingOpen ⟨0, tag⟩) s = .next t ∧ t.dev.chain.ring = .open_ ∧
    t.dev.chain.sendA = false) ∧
  (s.accepts 0x92 [1] → s.dev.chain.enumerated = true → s.dev.chain.ring = .open_ →
    ∃ t, Sys2Proof.Machine.exec (.chainRingClose ⟨0, tag⟩) s = .next t ∧ t.dev.chain.ring = .closing) ∧
  (s.accepts 0x92 [2] → s.dev.chain.enumerated = true → s.dev.chain.ring = .split →
    ∃ t, Sys2Proof.Machine.exec (.chainRingRestore ⟨0, tag⟩) s = .next t ∧ t.dev.chain.ring = .closed)

/-! ### Start-up, keep-alive and the time base (01, 02, 09) -/

/-- Power-on reset and POR, the end of control boot in both ways, RSTN and the restart after a power-down (02 R38 to
R41, R66, 08 R244, R245, 17 R491, R503, R507, 19 R539, R541). RSTN low for a number of slots holds the control die
until it rises, where its time base starts at 0; a bank is in crank hold from power-on. What the spec leaves open in it is the model's choice: log entries 4, 11. -/
def Obligations.StartUpEventsAct : Prop :=
  ∀ (s : State) (dt : Nat),
  let d := (s.turn dt).dev
  (∀ present : Tab Bool 4, d.ctl.mode = .starting →
    ∃ t, Sys2Proof.Machine.exec (.powerOnReset dt present) s = .next t ∧ t.dev.ctl.mode = .starting ∧ t.dev.ctl.por = false ∧
      t.dev.ctl.bootAt = d.now ∧ t.dev.time.tbc = 0 ∧
      ∀ b : BankId, (t.dev.banks.get b).present = present.get b ∧ (t.dev.banks.get b).conducting = false ∧
        (t.dev.banks.get b).crank = true) ∧
  (∀ (zones : Tab Int 8) (head : Bool), d.ctl.mode = .starting → d.ctl.por = false → d.time.fallbackOk = true →
    d.ctl.bootAt ≤ d.now → (∀ z : ZoneId, zones.get z < 1600) → d.recoveries.length < 3 →
    ∃ t, Sys2Proof.Machine.exec (.controlBootDone dt ⟨zones, head⟩) s = .next t ∧ t.dev.ctl.mode = .acappella ∧
      t.dev.ctl.started = true ∧ t.dev.ctl.liveAt = some d.now ∧ t.dev.ka = d.ka ∧ t.dev.headPin = head ∧
      t.dev.chain.head = head ∧ ∀ b : BankId, (t.dev.banks.get b).conducting = true) ∧
  (∀ (zones : Tab Int 8) (head : Bool) (z : ZoneId), d.ctl.mode = .starting → d.ctl.por = false → d.time.fallbackOk = true →
    d.ctl.bootAt ≤ d.now → 1600 ≤ zones.get z → d.recoveries.length < 3 →
    ∃ t, Sys2Proof.Machine.exec (.controlBootDone dt ⟨zones, head⟩) s = .next t ∧ t.dev.ctl.mode = .halted ∧
      t.dev.ctl.haltCause = 4) ∧
  (∀ cause : BootFailure, d.ctl.mode = .starting → d.ctl.por = false → d.ctl.bootAt + 10 * msec ≤ d.now →
    ∃ t, Sys2Proof.Machine.exec (.bootTimeout dt cause) s = .next t ∧ t.dev.ctl.mode = .halted ∧
      t.dev.ctl.haltCause = (match cause with
        | .romCrc => 1
        | .otpTrims => 2
        | .powerDieSilent => 3)) ∧
  (d.ctl.por = false →
    ∀ low : Nat, ∃ t, Sys2Proof.Machine.exec (.rstn ⟨dt, low⟩) s = .next t ∧ t.dev.ctl.mode = .starting ∧
      t.dev.ctl.startCause = 1 ∧ t.dev.ctl.bootAt = d.now + 8 * low ∧ t.dev.time.tbc = -((8 * low : Nat) : Int) ∧
      t.dev.port.isOpen = false ∧ t.dev.port.barNo = 0 ∧ t.dev.par.live = [] ∧
      t.dev.score = d.score ∧ t.snap = t.dev) ∧
  (d.ctl.por = false →
    ∃ t, Sys2Proof.Machine.exec (.porAssert dt) s = .next t ∧ t.dev.ctl.por = true ∧ t.dev.ctl.mode = .starting ∧
      t.dev.port.isOpen = false ∧ t.dev.par.live = [] ∧ t.dev.score = d.score) ∧
  (d.ctl.parkedByPower = true → d.pd.step = .done → d.ctl.mode ≠ .halted → d.pd.at_ + 100 * msec ≤ d.now →
    ∃ t, Sys2Proof.Machine.exec (.parkedRestart dt) s = .next t ∧ t.dev.ctl.mode = .starting ∧ t.dev.ctl.startCause = 0 ∧
      t.dev.score.powerFail = false ∧ t.dev.pd.step = .idle)

/-- The keep-alive machinery and the sanity checks: the third wrong echo, a wrong CRC and an uncorrectable word halt the
device, and a lost keep-alive turns the driven voices off and then restarts the control die; its hold lasts through
that drop, and no turn-on starts in it (01 R25, R26, R35). What
the spec leaves open in it is the model's choice: log entry 86. -/
def Obligations.KeepAliveAndSanityChecksAct : Prop :=
  ∀ (s : State) (dt : Nat),
  let d := (s.turn dt).dev
  let frameDue : Prop := d.ctl.por = false ∧ d.ctl.bootAt ≤ d.now ∧ ∀ x, d.ka.lastFrame = some x → x + 10 * usec ≤ d.now
  (frameDue → d.ctl.startCause ≠ 1 → d.ctl.startCause ≠ 2 →
    ∃ t, Sys2Proof.Machine.exec (.keepAliveFrame dt true) s = .next t ∧ t.dev.ka = { d.ka with
      badEchoes := 0, firstFrame := true, releasedAt := none, lastFrame := some d.now
      held := d.ka.held && !(d.ctl.liveAt.isSome && d.ctl.mode != .halted && d.ctl.mode != .starting && !d.dropping) }) ∧
  (d.ka.held = true → ∀ v : VoiceId, (d.grants.voice v).gate = (d.voice v).gate) ∧
  (frameDue → d.ka.badEchoes < 2 →
    ∃ t, Sys2Proof.Machine.exec (.keepAliveFrame dt false) s = .next t ∧ t.dev.ka.badEchoes = d.ka.badEchoes + 1 ∧
      t.dev.ctl = d.ctl) ∧
  (frameDue → 2 ≤ d.ka.badEchoes → d.ctl.mode ≠ .halted →
    ∃ t, Sys2Proof.Machine.exec (.keepAliveFrame dt false) s = .next t ∧ t.dev.ctl.mode = .halted ∧ t.dev.ctl.haltCause = 6 ∧
      t.dev.ctl.haltDetail = 4 ∧ t.dev.ctl.started = true) ∧
  (∀ x, d.ctl.por = false → d.ctl.mode ≠ .halted → d.ka.lastFrame = some x → x + 100 * usec ≤ d.now → d.staggers = [] →
    (∀ v : VoiceId, (d.voice v).driven = false) →
    ∃ t, Sys2Proof.Machine.exec (.keepAliveLoss dt) s = .next t ∧ t.dev.ctl.mode = .starting ∧ t.dev.ctl.startCause = 3 ∧
      t.dev.ka.releasedAt = some (d.now + 10 * usec) ∧ t.dev.ka.recoveries = d.now :: d.ka.recoveries ∧ t.dev.ka.held = true) ∧
  (∀ (x : Nat) (u v : VoiceId), d.ctl.por = false → d.ctl.mode ≠ .halted → d.ka.lastFrame = some x → x + 100 * usec ≤ d.now →
    d.staggers = [] → u ≠ v → (d.voice u).driven = true → (d.voice v).driven = true →
    ∃ t, Sys2Proof.Machine.exec (.keepAliveLoss dt) s = .next t ∧ t.dev.ctl.mode = d.ctl.mode ∧ t.dev.ka.held = true ∧
      t.dev.staggers ≠ []) ∧
  (∀ x, d.ka.releasedAt = some x → d.ctl.por = false → d.ka.firstFrame = false → d.ctl.mode ≠ .halted → x + 10 * msec ≤ d.now →
    ∃ t, Sys2Proof.Machine.exec (.keepAliveReassert dt) s = .next t ∧ t.dev.ctl.mode = .starting ∧ t.dev.ctl.startCause = 3 ∧
      t.dev.ka.releasedAt = some (d.now + 10 * usec) ∧ t.dev.ka.recoveries = d.now :: d.ka.recoveries) ∧
  (∀ crc, d.ctl.started = true → crc ≠ Config.romCrc → d.ctl.mode ≠ .halted →
    ∃ t, Sys2Proof.Machine.exec (.romCrcCheck dt crc) s = .next t ∧ t.dev.ctl.mode = .halted ∧ t.dev.ctl.haltCause = 6 ∧
      t.dev.ctl.haltDetail = 1) ∧
  (∀ crc, d.patch.st = .active → crc ≠ d.patch.crc → d.ctl.mode ≠ .halted →
    ∃ t, Sys2Proof.Machine.exec (.patchCrcCheck dt crc) s = .next t ∧ t.dev.ctl.mode = .halted ∧ t.dev.ctl.haltCause = 6 ∧
      t.dev.ctl.haltDetail = 2) ∧
  (∀ n, d.ctl.por = false →
    ∃ t, Sys2Proof.Machine.exec (.sramScrub dt n false) s = .next t ∧ t.dev.ctl.eccCorrected = stick 16 (d.ctl.eccCorrected + n)) ∧
  (∀ n, d.ctl.por = false → d.ctl.mode ≠ .halted →
    ∃ t, Sys2Proof.Machine.exec (.sramScrub dt n true) s = .next t ∧ t.dev.ctl.mode = .halted ∧ t.dev.ctl.haltCause = 6 ∧
      t.dev.ctl.haltDetail = 3)

/-- The Score time base: lock to a listed reference within the 5 ms of an attempt, a relock not before 0.1 ms, the end
of the attempt, loss and return of the reference, and the end of a TIMEBASE mark, all by the Score's own time (09
R249, R250, R251, R253, R259). What the spec leaves open in it is the model's choice: log entries 79, 180, 182. -/
def Obligations.ScoreTimeBaseMoves : Prop :=
  ∀ (s : State) (dt : Nat),
  let d := (s.turn dt).dev
  d.score.powered = true →
  (d.score.tb = .acquiring → d.score.identified = true → d.score.own ≤ d.score.attemptAt + 5 * msec →
    (d.score.locked = true → d.score.attemptAt + 100 * usec ≤ d.score.own) →
    ∃ t, Sys2Proof.Machine.exec (.pllLock dt) s = .next t ∧ t.dev.score.tb = .locked ∧ t.dev.score.locked = true ∧
      t.dev.score.tbc = if d.score.locked then d.score.tbc else 0) ∧
  (d.score.tb = .noRef ∨ d.score.tb = .acquiring → d.score.attemptAt + 5 * msec ≤ d.score.own →
    ∃ t, Sys2Proof.Machine.exec (.lockTimeout dt) s = .next t ∧
      (d.score.locked = true → t.dev.score.tb = .holdover) ∧
      (d.score.locked = false → t.dev.score.tb = .noRef ∧ t.dev.score.failed = true)) ∧
  (d.score.tb = .locked ∨ d.score.tb = .acquiring →
    ∃ t, Sys2Proof.Machine.exec (.referenceLost dt) s = .next t ∧ t.dev.score.reference = none ∧
      t.dev.score.tb = if d.score.locked then .holdover else d.score.tb) ∧
  (∀ hz : Nat, d.score.tb = .holdover ∨ d.score.tb = .noRef →
    ∃ t, Sys2Proof.Machine.exec (.referenceReturn ⟨dt, hz⟩) s = .next t ∧ t.dev.score.reference = some hz ∧
      (({ d.score with reference := some hz } : Score).identified = true →
        t.dev.score.tb = .acquiring ∧ t.dev.score.attemptAt = d.score.own) ∧
      (({ d.score with reference := some hz } : Score).identified = false → t.dev.score.tb = d.score.tb)) ∧
  (∀ x, d.score.relockedAt = some x → x + 100 * msec + 61440 ≤ d.score.own →
    ∃ t, Sys2Proof.Machine.exec (.timebaseMarkEnd dt) s = .next t ∧ t.dev.score.relockedAt = none ∧
      t.dev.score.marks.get 0 = none)

/-- The control die's time base: adoption, words, loss, the fallback oscillator, qualification and the switch back (02
R43, 01 R23, 09 R252 to R258, 01 R34, 08 R239). What the spec leaves open in it is the model's choice: log entries
81, 114. -/
def Obligations.ControlTimeBaseMoves : Prop :=
  ∀ (s : State) (dt : Nat),
  let d := (s.turn dt).dev
  let wordsCome : Prop := d.score.powered = true ∧ d.score.locked = true ∧ d.score.tb = .locked
  d.ctl.por = false →
  (d.time.phase = .first → d.time.fallbackOk = true → d.score.powered = true → d.score.tb = .locked →
    ∃ t, Sys2Proof.Machine.exec (.tbAdopted dt) s = .next t ∧ t.dev.time.phase = .score ∧
      t.dev.time.tbc = d.score.tbc + d.chain.offset ∧ t.dev.time.k = 0) ∧
  (∀ word, wordsCome → d.time.phase = .score → word + d.time.k + d.chain.offset = d.time.tbc →
    ∃ t, Sys2Proof.Machine.exec (.tbcWord dt true word) s = .next t ∧ t.dev.time = { d.time with lastWord := d.time.tbc }) ∧
  (∀ word, wordsCome → d.time.phase = .score → word + d.time.k + d.chain.offset ≠ d.time.tbc → d.time.fallbackOk = true →
    ∃ t, Sys2Proof.Machine.exec (.tbcWord dt true word) s = .next t ∧ t.dev.time.phase = .switching ∧
      t.dev.time.until_ = d.now + 40 * usec ∧ t.dev.time.tbc = d.time.tbc) ∧
  (∀ word, wordsCome → d.ctl.scoreSilent = false → d.time.phase = .fallback →
    ∃ t, Sys2Proof.Machine.exec (.tbcWord dt true word) s = .next t ∧ t.dev.time.phase = .qualifying ∧
      t.dev.time.until_ = d.now + 100 * msec ∧ t.dev.time.word = word) ∧
  (∀ word, wordsCome → d.ctl.scoreSilent = false → d.time.phase = .qualifying →
    d.time.wordDue ≤ d.score.tbc → d.score.tbc ≤ d.time.wordDue + 8 →
    ∃ t, Sys2Proof.Machine.exec (.tbcWord dt true word) s = .next t ∧
      t.dev.time.phase = if word = d.time.word + 3072 then .qualifying else .fallback) ∧
  (∀ cause, d.time.phase = .score → d.time.fallbackOk = true → cause ≠ .word ∨ d.time.lastWord + 3072 ≤ d.time.tbc →
    ∃ t, Sys2Proof.Machine.exec (.tbLost dt cause) s = .next t ∧ t.dev.time.phase = .switching ∧
      t.dev.time.until_ = d.now + 40 * usec ∧ t.dev.time.tbc = d.time.tbc) ∧
  (d.time.phase = .score → d.time.fallbackOk = false → d.ctl.mode ≠ .halted → d.ctl.mode ≠ .starting →
    ∃ t, Sys2Proof.Machine.exec (.tbLost dt .clock) s = .next t ∧ t.dev.ctl.mode = .halted ∧ t.dev.ctl.haltCause = 5) ∧
  (d.time.phase = .switching → d.time.until_ ≤ d.now →
    ∃ t, Sys2Proof.Machine.exec (.tbFallback dt) s = .next t ∧ t.dev.time.phase = .fallback ∧
      Logged d [(0x0A02, 0xFF, [b8 (boolNat d.time.trimmed)])] t) ∧
  (d.time.phase = .qualifying → d.time.until_ ≤ d.now →
    ∃ t, Sys2Proof.Machine.exec (.tbQualified dt) s = .next t ∧
      t.dev.time.phase = if d.time.wordDue + 8 < d.score.tbc then .fallback else .qualified) ∧
  (d.time.phase = .qualified → d.atBoundary = true →
    ∃ t, Sys2Proof.Machine.exec (.tbReturned dt) s = .next t ∧ t.dev.time.phase = .score ∧
      t.dev.time.tbc = max d.time.tbc (d.score.tbc + d.time.k + d.chain.offset)) ∧
  (d.time.fallbackOk = true → d.time.phase = .score →
    ∃ t, Sys2Proof.Machine.exec (.fallbackBad dt) s = .next t ∧ t.dev.time.fallbackOk = false ∧ t.dev.ctl = d.ctl ∧
      Logged d [(0x0A05, 0xFF, [])] t) ∧
  (d.time.fallbackOk = true → d.time.phase ≠ .score → d.ctl.mode ≠ .halted → d.ctl.mode ≠ .starting →
    ∃ t, Sys2Proof.Machine.exec (.fallbackBad dt) s = .next t ∧ t.dev.ctl.mode = .halted ∧ t.dev.ctl.haltCause = 5) ∧
  (d.time.fallbackOk = true → d.time.phase = .score → d.time.trimAt + msec ≤ d.now →
    ∃ t, Sys2Proof.Machine.exec (.fallbackTrim dt) s = .next t ∧ t.dev.time.trimmed = true ∧ t.dev.time.trimAt = d.now)

/-! ### Cues, breath, LH inputs and the drive (02, 06, 10) -/

/-- Breath: a turn-on that waits alone takes a token where one is free, and is deferred where none is; a span ends, and
a wait expires; a TIME cue that reaches its fire point acts on its voice in that slot, so that an OFF entry turns a
driven voice off at the slot's end (10 R277, R283, R292, R296, R297, R303). What the spec leaves open in it is the
model's choice: log entry 15. -/
def Obligations.CueAndBreathEventsAct : Prop :=
  ∀ (s : State) (dt : Nat) (v : VoiceId),
  let d := (s.turn dt).dev
  let calm : Prop := d.edges = [] ∧ d.cues.queue = [] ∧ (∀ u : VoiceId, d.levelInput u = none ∧ (d.voice u).retryReady = false) ∧
    d.slotOffs = 0 ∧ d.therm.blips = []
  (∀ w : Wait, calm → (d.voice v).wait = some w → (∀ u, u ≠ v → (d.voice u).wait = none) → w.stage = .fresh → w.profile ≠ 0 →
    w.prio < 16 → w.free = false → d.needsDomain = false → 0 < d.breathFree →
    ∃ t, Sys2Proof.Machine.exec (.breathGrant dt) s = .next t ∧ (t.dev.voice v).token = true) ∧
  (∀ w : Wait, calm → (d.voice v).wait = some w → (∀ u, u ≠ v → (d.voice u).wait = none) → w.stage = .fresh → w.profile ≠ 0 →
    w.prio < 16 → w.free = false → w.source = .voiceSet → d.breathFree = 0 →
    ∃ t, Sys2Proof.Machine.exec (.breathGrant dt) s = .next t ∧
      (t.dev.voice v).wait = some { w with stage := .deferred, deadline := some (d.now + d.fld 0x2081 0 16 * 10 * usec) } ∧
      (t.dev.voice v).token = (d.voice v).token) ∧
  (∀ x, (d.voice v).spanEnd = some x → x ≤ d.now →
    ∃ t, Sys2Proof.Machine.exec (.breathSpanEnd dt v) s = .next t ∧ (t.dev.voice v).token = false ∧
      (t.dev.voice v).domainToken = none ∧ (t.dev.voice v).spanEnd = none ∧ ∀ u, u ≠ v → t.dev.voice u = d.voice u) ∧
  (∀ (w : Wait) (x : Nat), (d.voice v).wait = some w → w.stage = .deferred → w.deadline = some x → x ≤ d.now → d.vfld v 0 10 1 = 0 →
    ∃ t, Sys2Proof.Machine.exec (.breathWaitExpiry dt v) s = .next t ∧
      t.dev.cues.cueLate = stick 16 (d.cues.cueLate + 1) ∧ (t.dev.voice v).wait = none ∧ (t.dev.voice v).cmd = false) ∧
  (∀ (w : Wait) (x : Nat), (d.voice v).wait = some w → w.stage = .deferred → w.deadline = some x → x ≤ d.now → d.vfld v 0 10 1 = 1 →
    ∃ t, Sys2Proof.Machine.exec (.breathWaitExpiry dt v) s = .next t ∧ t.dev.cues.mustFired = stick 16 (d.cues.mustFired + 1)) ∧
  (Sys2Proof.Machine.exec (.cueExecute dt) s = .next (s.after dt fun d => d.takeEdges.followLevels.cuesNow)) ∧
  (∀ c : Cue, d.edges = [] → (∀ u : VoiceId, d.levelInput u = none) → d.lossNow = false → d.cues.queue = [c] → c.basis = 0 →
    c.action = 0 → c.chorus = false → c.who = v.val → c.target ≤ d.time.tbc → c.spent = false → c.acted = 0 → c.partner = none →
    d.gang v = none → (d.voice v).st = .on → (d.voice v).wait = none →
    ∃ t, Sys2Proof.Machine.exec (.cueExecute dt) s = .next t ∧ (t.dev.voice v).cmd = false ∧
      inMask t.dev.slotOffs v = true ∧ ∃ c', t.dev.cues.queue = [c'] ∧ inMask c'.acted v = true ∧ c'.spent = true)

/-- The LH inputs: a level that the filter passes and a sample has seen for the debounce time is the debounced level, and
one that has not leaves it; chatter, its end once no cause of it stands, and re-arming (02 R53, R54, R55, R56, R58, 08
R235, 18 R522). What the spec leaves open in it is the model's choice: log entries 19, 170. -/
def Obligations.LhEventsAct : Prop :=
  ∀ (s : State) (dt : Nat) (i : Fin 8),
  let d := (s.turn dt).dev
  (∀ (level : Bool) (held : Nat), d.lhLive = true →
    let seen := d.lhSample (d.now - 8 * held)
    let since := max (d.lh.get i).rawAt seen
    let bounced : Prop := ∃ r, ((d.lh.get i).see level seen d.lhDebounce).restless = some r ∧ r + 1000 * msec ≤ d.now
    (8 * held < 20 * usec ∨ d.now < seen →
      Sys2Proof.Machine.exec (.lhLevelChange dt i ⟨level, held⟩) s = .next (s.after dt fun _ => d)) ∧
    (20 * usec ≤ 8 * held → seen ≤ d.now →
      ∃ t, Sys2Proof.Machine.exec (.lhLevelChange dt i ⟨level, held⟩) s = .next t ∧ (t.dev.lh.get i).raw = level ∧
        (t.dev.lh.get i).rawAt = since ∧ (∀ j, j ≠ i → t.dev.lh.get j = d.lh.get j) ∧
        (since + d.lhDebounce ≤ d.now → (t.dev.lh.get i).level = level ∧ (t.dev.lh.get i).restless = none ∧
          ((d.lh.get i).level = level → ¬bounced → (t.dev.lh.get i).since = (d.lh.get i).since) ∧
          ((d.lh.get i).level ≠ level ∨ bounced → (t.dev.lh.get i).since = d.now)) ∧
        (d.now < since + d.lhDebounce → (t.dev.lh.get i).level = (d.lh.get i).level ∧
          (t.dev.lh.get i).since = (d.lh.get i).since))) ∧
  (d.lhLive = true → (d.lh.get i).chatter = false → d.ctl.por = false → d.chatterDue i = true →
    ∃ t, Sys2Proof.Machine.exec (.chatter dt i) s = .next t ∧ t.dev.lh.get i = { d.lh.get i with chatter := true } ∧
      Logged d [(0x000A, i.val, [])] t) ∧
  ((d.lh.get i).since + 1000 * msec ≤ d.now → d.chatterDue i = false →
    ∃ t, Sys2Proof.Machine.exec (.chatterClear dt i) s = .next t ∧ t.dev.lh.get i = { d.lh.get i with chatter := false } ∧
      ∀ j, j ≠ i → t.dev.lh.get j = d.lh.get j) ∧
  (d.lhLive = true → (d.lh.get i).level = false → 1000 * msec ≤ d.now - (d.lh.get i).since →
    ∃ t, Sys2Proof.Machine.exec (.lhRearm dt i) s = .next t ∧
      ∀ v : VoiceId, (t.dev.voice v).st = if d.levelInput v = some i && (d.voice v).st = .latched then .off else (d.voice v).st) ∧
  (∀ v : VoiceId, d.levelInput v = some i → (d.lh.get i).level = true → d.gang v = none → (d.voice v).st = .on →
    ∃ t, Sys2Proof.Machine.exec (.lhRateRelease dt v) s = .next t ∧ (t.dev.voice v).cmd = true ∧
      (t.dev.voice v).withheld = none)

/-- The drive: the end of a ramp and of a phase, the edges of PWM, of the peak chop and of the hold chop, and what a
clamp pulse adds (06 R173, R178, R181 to R184, R195, 13 R356). What the spec leaves open in it is the model's
choice: log entries 36, 52. -/
def Obligations.DriveEventsAct : Prop :=
  ∀ (s : State) (dt : Nat) (v : VoiceId),
  let d := (s.turn dt).dev
  (∀ x, (d.voice v).ramp = .running x → (d.voice v).profile ≠ 3 → (d.voice v).plan = [] → (d.voice v).st = .ramping →
    (d.voice v).rampUse = .turnOn → (d.voice v).rampUntil ≤ d.now → (d.voice v).dutyRamp = none → d.vfld v 0 0 4 = 0 →
    ∃ t, Sys2Proof.Machine.exec (.gateRampEnd dt v) s = .next t ∧ (t.dev.voice v).st = .on ∧
      (t.dev.voice v).driveMode = 0 ∧ (t.dev.voice v).limit = d.ilim v) ∧
  (∀ (x y l k : Nat) (rest : List (Nat × Nat)), (d.voice v).plan = (x, l) :: (y, k) :: rest → (d.voice v).driven = true →
    x ≤ d.now → (d.voice v).profile ≠ 3 →
    ∃ t, Sys2Proof.Machine.exec (.profilePhaseEnd dt v) s = .next t ∧ (t.dev.voice v).plan = (y, k) :: rest ∧
      (t.dev.voice v).limit = k ∧ ∀ u, u ≠ v → t.dev.voice u = d.voice u) ∧
  (d.gang v = none → (d.voice v).st = .pwm → (d.voice v).driveMode = 1 → d.toGrid v = 0 → (d.voice v).offEdge = none →
    (d.voice v).ramp = .none → (d.voice v).dutyRamp = none → tMin v ≤ d.onTime v → d.onTime v + tMin v ≤ d.pwmPeriod v →
    d.ka.held = false →
    ∃ t, Sys2Proof.Machine.exec (.pwmPeriodStart dt v) s = .next t ∧
      (t.dev.voice v).offEdge = some (d.now + 8 * d.onTime v) ∧ ∀ u, u ≠ v → t.dev.voice u = d.voice u) ∧
  (∀ x, d.blips? v = false → (d.voice v).st = .pwm → (d.voice v).offEdge = some x → x ≤ d.now → (d.voice v).firstPulse = false →
    (d.voice v).plan = [] →
    ∃ t, Sys2Proof.Machine.exec (.pwmOffEdge dt v) s = .next t ∧ (t.dev.voice v).gate = false ∧
      (t.dev.voice v).ramp = .none ∧ (t.dev.voice v).offEdge = none) ∧
  (∀ m, (d.voice v).st = .holding → (d.now - (d.voice v).holdFrom) % (50 * usec) = 0 → (d.voice v).ramp = .none →
    (d.voice v).clampedNow = false → d.ka.held = false →
    ∃ t, Sys2Proof.Machine.exec (.holdChopPeriod dt v false m) s = .next t ∧
      (t.dev.voice v).gate = true ∧ (t.dev.voice v).offEdge = some (d.now + 45 * usec) ∧ (t.dev.voice v).clampedChops = 0) ∧
  (∀ m, (d.voice v).st = .holding → (d.voice v).ramp = .none → 2 ≤ (d.voice v).clampedChops → d.slotFaults = [] →
    d.ka.held = false →
    ∃ t, Sys2Proof.Machine.exec (.holdChopPeriod dt v true m) s = .next t ∧ (t.dev.voice v).fault = 9 ∧
      (t.dev.voice v).checks.trip = some 9) ∧
  (∀ m, (d.voice v).st = .ramping → (d.voice v).driveMode = 2 → (d.voice v).gate = false →
    (d.now - (d.voice v).onAt) % (50 * usec) = 0 → d.ka.held = false →
    ∃ t, Sys2Proof.Machine.exec (.holdChopPeriod dt v false m) s = .next t ∧ (t.dev.voice v).gate = true) ∧
  (d.blips? v = false → (d.voice v).st = .ramping → (d.voice v).driveMode = 2 → (d.voice v).gate = true →
    ∃ t, Sys2Proof.Machine.exec (.pwmOffEdge dt v) s = .next t ∧ (t.dev.voice v).gate = false ∧ (t.dev.voice v).st = .ramping) ∧
  (∀ (n : Nat) (ended : Bool) (m : Meas),
    let total := (d.voice v).clamp.getD 0 + n
    ((if (d.voice v).half then 2 * total else total) ≤ d.vfld v 0x12 0 16 * 1000 ∨ ended = false) →
    ∃ t, Sys2Proof.Machine.exec (.clampPulseEnd dt v ⟨n, ended⟩ m) s = .next t ∧
      (t.dev.voice v).therm.energy = (d.voice v).therm.energy + (n : Rat) / 1000000 ∧ (t.dev.voice v).fault = (d.voice v).fault ∧
      (t.dev.voice v).clamp = if ended then none else some total)

/-! ### Protection (07) -/

/-- A tripping fault on a driven voice outside a gang: the voice turns off and is TRIPPED, its FAULT byte and the check
that it needs are set; a voice that is not driven is left as it is. The first tripping fault of its slot: R203
orders those that follow (07 R200, R203, R208, R212). What the spec leaves open in it is the model's choice: log
entry 19. -/
def Obligations.TrippingFaultsTurnTheVoiceOff : Prop :=
  ∀ (s : State) (dt : Nat) (v : VoiceId) (k : BitVec 2) (m : Meas),
  let d := (s.turn dt).dev
  let trips (c : Instr) (code : Nat) (stripes : BitVec 2) : Prop :=
    ∃ t, Sys2Proof.Machine.exec c s = .next t ∧ (t.dev.voice v).st = .tripped ∧ (t.dev.voice v).gate = false ∧
      (t.dev.voice v).fault = code ∧ (t.dev.voice v).checks.trip = some code ∧ (t.dev.voice v).checks.stripes = stripes ∧
      (t.dev.voice v).checks.meas = m ∧ ∀ u, u ≠ v → t.dev.voice u = d.voice u
  d.gang v = none → d.slotFaults = [] →
  ((d.voice v).driven = true → trips (.fastTrip dt v k m) 2 k) ∧
  (∀ x, (d.voice v).driven = true → (d.voice v).gate = true → (d.voice v).desatAt = some x → x ≤ d.now →
    (d.voice v).edgeAt + tGR v ≤ d.now → trips (.desatTrip dt v k m) 3 k) ∧
  ((d.voice v).driven = true → (d.voice v).inInrush = false → trips (.ocTimeout dt v m) 1 3) ∧
  ((d.voice v).driven = true → (d.voice v).gate = true → trips (.gateFault dt v k m) 10 k) ∧
  ((d.voice v).driven = false → ∀ c ∈ [Instr.fastTrip dt v k m, .desatTrip dt v k m, .ocTimeout dt v m, .gateFault dt v k m],
    Sys2Proof.Machine.exec c s = .next (s.after dt fun _ => d))

/-- A reporting fault sets the FAULT byte and queues a check, and leaves the voice's state and gate; a condition that
has ceased may be scored again (07 R200, R207, R212). What the spec leaves open in it is the model's choice: log
entry 19. -/
def Obligations.ReportingFaultsAreScored : Prop :=
  ∀ (s : State) (dt : Nat) (v : VoiceId) (m : Meas),
  let d := (s.turn dt).dev
  let scores (c : Instr) (code : Nat) : Prop :=
    ∃ t, Sys2Proof.Machine.exec c s = .next t ∧ (t.dev.voice v).fault = code ∧
      (t.dev.voice v).scored.getLsbD code = true ∧ (t.dev.voice v).checks.report = (d.voice v).checks.report ++ [code] ∧
      (t.dev.voice v).st = (d.voice v).st ∧ (t.dev.voice v).gate = (d.voice v).gate ∧ ∀ u, u ≠ v → t.dev.voice u = d.voice u
  let ceases (c : Instr) (code : Nat) : Prop :=
    ∃ t, Sys2Proof.Machine.exec c s = .next t ∧ (t.dev.voice v).scored.getLsbD code = false ∧
      (t.dev.voice v).fault = (d.voice v).fault ∧ ∀ u, u ≠ v → t.dev.voice u = d.voice u
  d.tripPending v = false →
  ((d.voice v).scored.getLsbD 4 = false → (d.voice v).st = .on → (d.voice v).plan = [] → d.dutyRamps v = false → scores (.olOnDetect dt v false m) 4) ∧
  ((d.voice v).scored.getLsbD 5 = false → d.armedOff v = true → d.vfld v 0x0E 16 1 = 1 → (d.voice v).pullupRetired = false →
    d.ctl.liveAt.isSome = true → scores (.olOffDetect dt v false m) 5) ∧
  ((d.voice v).scored.getLsbD 6 = false → d.armedOff v = true → (d.voice v).clamp = none → d.ctl.liveAt.isSome = true → scores (.stuckOnDetect dt v false m) 6) ∧
  ((d.voice v).scored.getLsbD 7 = false → scores (.revDetect dt v false m) 7) ∧
  (∀ q : Search, (d.voice v).lead.search = some q → d.vfld v 0x14 16 8 * msec ≤ d.now - q.t0 → d.vfld v 0x14 24 1 = 1 →
    (d.voice v).scored.getLsbD 11 = false → scores (.signatureWindowExpiry dt v m) 11) ∧
  ceases (.olOnDetect dt v true m) 4 ∧ ceases (.olOffDetect dt v true m) 5 ∧ ceases (.stuckOnDetect dt v true m) 6 ∧
  ceases (.revDetect dt v true m) 7

/-- The sound check starts on the voice that is next, is over when its time is, and the retry of a voice comes due and
is cleared; a tripped voice whose check finds nothing is LATCHED where its policy is LATCH (07 R205, R206, R212 to
R216, R218). What the spec leaves open in it is the model's choice: log entry 48. -/
def Obligations.SoundChecksAndRetriesAct : Prop :=
  ∀ (s : State) (dt : Nat) (v : VoiceId),
  let d := (s.turn dt).dev
  (d.sc.running = none → d.nextCheck = some (.trip, v) → (d.voice v).st = .tripped → d.gang v = none →
    ∃ t r, Sys2Proof.Machine.exec (.soundcheckStart dt) s = .next t ∧ t.dev.sc.running = some r ∧ r.voice = v ∧
      r.kind = .trip ∧ r.trigger = (d.voice v).checks.trip.getD 0 ∧ r.ends = d.now + r.length * usec ∧
      (t.dev.voice v).st = .checking ∧ ∀ u, u ≠ v → t.dev.voice u = d.voice u) ∧
  (∀ (r : RunningCheck) (voHigh : Bool), d.sc.running = some r → r.ends ≤ d.now → r.kind = .host → r.codes = [] →
    ∃ t, Sys2Proof.Machine.exec (.soundcheckDone dt (.fill 2 0) (.fill 2 0) 0 voHigh) s = .next t ∧ t.dev.sc.running = none ∧
      (t.dev.voice r.voice).record.trigger = r.trigger ∧ (t.dev.voice r.voice).record.outcome = 1 ∧
      (t.dev.voice r.voice).checks.host = (d.voice r.voice).checks.host) ∧
  (∀ (r : RunningCheck) (voHigh : Bool), d.sc.running = some r → r.ends ≤ d.now → r.kind = .trip → r.voice = v → r.both = false →
    (d.voice v).st = .checking → (d.voice v).checks.offAsked = false → d.gang v = none → d.ctl.mode = .conducted →
    d.checkAsks = false →
    d.vfld v 0x0F 0 2 = 0 →
    ∃ t, Sys2Proof.Machine.exec (.soundcheckDone dt (.fill 2 0) (.fill 2 0) 0 voHigh) s = .next t ∧ t.dev.sc.running = none ∧
      (t.dev.voice v).st = .latched ∧ (t.dev.voice v).checks.trip = none) ∧
  (∀ x, (d.voice v).retryAt = some x → x ≤ d.now → (d.voice v).st = .retryWait → d.vfld v 0x0F 0 2 ≠ 2 → d.gang v = none →
    ∃ t, Sys2Proof.Machine.exec (.retryDue dt v) s = .next t ∧ (t.dev.voice v).retryAt = none ∧
      (t.dev.voice v).retryReady = true ∧ ∀ u, u ≠ v → t.dev.voice u = d.voice u) ∧
  (∀ x, (d.voice v).drivenSince = some x → (d.voice v).driven = true → d.vfld v 0x10 0 16 * 100 * msec < d.now - x → d.gang v = none →
    ∃ t, Sys2Proof.Machine.exec (.retryClear dt v) s = .next t ∧ (t.dev.voice v).retry = 0 ∧
      (t.dev.voice v).windows = 0 ∧ ∀ u, u ≠ v → t.dev.voice u = d.voice u)

/-! ### Banks and supplies (05 R156, 06, 17) -/

/-- The banks: absence and presence, crank, overvoltage, the cut pin, the current sum, and the staggered turn-off (06
R171, R172, 05 R156, 17 R492, R493). What the spec leaves open in it is the model's choice: log entry 83. -/
def Obligations.BankEventsAct : Prop :=
  ∀ (s : State) (dt : Nat) (b : BankId),
  let d := (s.turn dt).dev
  ((d.banks.get b).present = true →
    ∃ t, Sys2Proof.Machine.exec (.bankSupplyAbsent dt b) s = .next t ∧ (t.dev.banks.get b).present = false ∧
      (d.sc.running = none → ∀ v : VoiceId, bankOf v = b → (t.dev.voice v).driven = false ∧ (t.dev.voice v).wait = none)) ∧
  ((d.banks.get b).present = false → d.ctl.por = false →
    ∃ t, Sys2Proof.Machine.exec (.bankSupplyPresent dt b) s = .next t ∧
      t.dev.banks.get b = { d.banks.get b with present := true } ∧ (∀ c, c ≠ b → t.dev.banks.get c = d.banks.get c) ∧
      Logged d [(0x0101, b.val, [1])] t) ∧
  (∀ (begins : Bool) (volts : Nat), (d.banks.get b).crank ≠ begins → d.ctl.por = false →
    ∃ t, Sys2Proof.Machine.exec (.crank dt b begins volts) s = .next t ∧
      t.dev.banks.get b = { d.banks.get b with crank := begins } ∧
      Logged d [(0x0B02, b.val, b8 (boolNat begins) :: leBytes 2 (min volts 65535))] t) ∧
  (∀ volts, (d.banks.get b).ovHold = false → d.ctl.por = false →
    ∃ t, Sys2Proof.Machine.exec (.bankOv dt b .holdBegin volts) s = .next t ∧
      t.dev.banks.get b = { d.banks.get b with ovHold := true } ∧
      Logged d [(0x0B03, b.val, 0 :: leBytes 2 (min volts 65535))] t) ∧
  (∀ volts, (d.banks.get b).ovOff = false →
    ∃ t, Sys2Proof.Machine.exec (.bankOv dt b .offBegin volts) s = .next t ∧ (t.dev.banks.get b).ovOff = true ∧
      (d.sc.running = none → ∀ v : VoiceId, bankOf v = b → (t.dev.voice v).driven = false)) ∧
  (∀ volts, ∃ t, Sys2Proof.Machine.exec (.bankOv dt b .offEnd volts) s = .next t ∧ (t.dev.banks.get b).ovOff = false ∧
    ((d.banks.get b).ovOff = true → d.ctl.por = false → Logged d [(0x0B03, b.val, 2 :: leBytes 2 (min volts 65535))] t)) ∧
  (∀ volts, (d.banks.get b).ovHold = true →
    ∃ t, Sys2Proof.Machine.exec (.bankOv dt b .holdEnd volts) s = .next t ∧ (t.dev.banks.get b).ovHold = false) ∧
  (∀ x, (d.banks.get b).pinDue = some x → x ≤ d.now →
    ∃ t, Sys2Proof.Machine.exec (.cutPinNonConducting dt b) s = .next t ∧
      t.dev.banks.get b = { d.banks.get b with pinDue := none, conducting := false }) ∧
  ((d.banks.get b).sumAt + 10 * usec ≤ d.now →
    ∃ t, Sys2Proof.Machine.exec (.bankCurrentSum dt ()) s = .next t ∧ (t.dev.banks.get b).sumAt = d.now ∧
    (t.dev.banks.get b).sums = (d.bankAmps b :: (d.banks.get b).sums).take 100000 ∧
    (30 < (t.dev.banks.get b).sums.sum / 100000 → (t.dev.banks.get b).overLogged = true) ∧
    ((t.dev.banks.get b).sums.sum / 100000 < 27 → (t.dev.banks.get b).overLogged = false)) ∧
  (∀ (v : VoiceId) (rest : List VoiceId) (x : Nat), d.staggers = [{ kind := .cut b, voices := v :: rest, next := x }] → x ≤ d.now →
    d.gang v = none → d.pd.step = .idle →
    ∃ t, Sys2Proof.Machine.exec (.staggeredTurnOff dt) s = .next t ∧ (t.dev.voice v).driven = false ∧
      ∀ u, u ≠ v → t.dev.voice u = d.voice u)

/-- The supplies and the power-down sequence, step by step (17 R491, R494 to R502, 07 R204). What the spec leaves open
in it is the model's choice: log entry 85. -/
def Obligations.PowerEventsAct : Prop :=
  ∀ (s : State) (dt : Nat),
  let d := (s.turn dt).dev
  (d.pd.vcpOk = true → d.sc.running = none →
    ∃ t, Sys2Proof.Machine.exec (.chargePumpLow dt) s = .next t ∧ t.dev.pd.vcpOk = false ∧
      ∀ v : VoiceId, (t.dev.voice v).driven = false ∧ (t.dev.voice v).wait = none) ∧
  (d.pd.vcpOk = false → d.ctl.por = false →
    ∃ t, Sys2Proof.Machine.exec (.chargePumpRecovered dt) s = .next t ∧ t.dev.pd = { d.pd with vcpOk := true } ∧
      Logged d [(0x0209, 0xFF, [1])] t) ∧
  (∃ t, Sys2Proof.Machine.exec (.vholdReady dt) s = .next t ∧ t.dev.pd = { d.pd with vholdReady := true, vholdArmed := true }) ∧
  (∀ volts, d.pd.vholdArmed = true → d.pdRunning = false → d.pd.vholdReady = true → d.ctl.por = false →
    ∃ t, Sys2Proof.Machine.exec (.vholdFault dt volts) s = .next t ∧
      t.dev.pd = { d.pd with vholdReady := false, vholdArmed := false } ∧
      Logged d [(0x0B04, 0xFF, leBytes 2 (min volts 65535))] t) ∧
  (d.pdActive = true → d.pd.cause = 0 →
    ∃ t, Sys2Proof.Machine.exec (.flashFloor dt) s = .next t ∧ t.dev.pd = { d.pd with floor := true }) ∧
  (d.pdRunning = false → d.ctl.por = false →
    ∃ t, Sys2Proof.Machine.exec (.powerDown dt) s = .next t ∧ t.dev.pd.step = .voicesAndCommit ∧ t.dev.pd.cause = 0 ∧
      t.dev.pd.at_ = d.now ∧ t.dev.score.powerFail = true ∧ t.dev.ctl.parkedByPower = true ∧
      (d.ctl.mode = .conducted → t.dev.ctl.mode = .parked)) ∧
  (∀ vhold, d.pd.step = .voicesAndCommit → d.pd.committed = false → d.ctl.scoreSilent = false →
    ∃ t, Sys2Proof.Machine.exec (.scoreCommitWait dt true vhold) s = .next t ∧ t.dev.pd.committed = true ∧ t.dev.pd.vhold = vhold) ∧
  (d.pd.step = .save → d.pd.floor = false → d.nv.servedAt + 12 * usec * d.saveWords ≤ d.now →
    ∃ t, Sys2Proof.Machine.exec (.lifetimeSaveDone dt) s = .next t ∧ t.dev.pd.step = .idleFlash ∧
      t.dev.pd.stepAt = d.now + 12 * usec * d.nv.copyLeft ∧ t.dev.nv.appends.map (·.key) = [1]) ∧
  (d.pd.step = .idleFlash → d.pd.floor = false → d.pd.stepAt + 48 * usec ≤ d.now →
    ∃ t, Sys2Proof.Machine.exec (.markerWrite dt) s = .next t ∧ t.dev.pd.step = (if d.pd.cause = 0 then .done else .idle) ∧
      t.dev.pd.fresh = decide (d.pd.cause = 1))

/-! ### The Score and what it tells (01 R20, R37, 15) -/

/-- The supply and the start of the Score: its reset, its scan, the loss of VMET, its temperature, and its commits to
the ring, the newest of which a collapse of VMET within 5 ms may tear, so that an older slot is what the next scan
finds; the two counts of messages and that of dropped records stand. A VX48-S takes MSEAL as inactive and drives its
output low (00 R9, 02 R38, R45, 15 R432 to R435, R440, R454, 21 R556). What the spec leaves open in it is the model's
choice: log entries 14, 179, 183. -/
def Obligations.ScoreSupplyEventsAct : Prop :=
  ∀ (s : State) (dt : Nat),
  let d := (s.turn dt).dev
  (∀ (xoutHigh mseal : Bool) (reference : Option Nat) (levels : Tab Bool 8), d.score.powered = false →
    ∃ t, Sys2Proof.Machine.exec (.scoreReset dt ⟨xoutHigh, reference⟩ mseal levels) s = .next t ∧ t.dev.score.powered = true ∧
      t.dev.score.scanned = false ∧ t.dev.score.locked = false ∧ t.dev.score.refMode = !xoutHigh ∧
      t.dev.score.reference = reference ∧ t.dev.score.resetAt = d.score.own ∧ t.dev.score.ring = d.score.ring ∧
      t.dev.score.accepted = d.score.accepted ∧ t.dev.score.rejected = d.score.rejected ∧
      t.dev.score.auditDropped = d.score.auditDropped ∧
      t.dev.score.levels = levels ∧ t.dev.score.session = (d.score.session + 1) % 65536 ∧ t.dev.score.slot = d.score.slot ∧
      t.dev.score.mseal = (decide (d.score.variant = .m) && mseal) ∧
      (d.score.variant = .s → t.dev.score.msealOut = some false) ∧
      ∀ r, d.score.slot = some r → t.dev.score.life = r.life ∧ t.dev.score.job = r.job ∧ t.dev.score.raw = r.raw) ∧
  (d.score.powered = true → d.score.scanned = false → d.ctl.por = false →
    ∃ t, Sys2Proof.Machine.exec (.scoreReady dt ()) s = .next t ∧ t.dev.score.scanned = true ∧
      (t.dev.link.publication.map fun x => x.scanned) = some true ∧ t.dev.ctl.scoreSilent = false) ∧
  (∀ torn : Bool, d.score.powered = true →
    ∃ t, Sys2Proof.Machine.exec (.vmetLost ⟨dt, torn⟩) s = .next t ∧ t.dev.score.powered = false ∧ t.dev.score.locked = false ∧
      t.dev.score.scanned = false ∧ t.dev.score.life = d.score.life ∧
      (torn = false ∨ d.score.committing = false → t.dev.score.ring = d.score.ring) ∧
      (torn = true → d.score.committing = true → ∀ r q, d.score.slot = some r → t.dev.score.slot = some q →
        q ≠ r ∧ q.seq ≤ r.seq) ∧
      t.dev.odo.st = .unavailable ∧ ∀ i, t.dev.rate i = 0) ∧
  (d.score.powered = true → d.score.scanned = true → d.score.cold = false →
    ∃ t, Sys2Proof.Machine.exec (.vmetCommit dt) s = .next t ∧ t.dev.score.changedAt = none ∧
      (t.dev.score.slot.map fun r => r.life) = some t.dev.score.life ∧ t.dev.score.life = d.score.life) ∧
  (∀ x, d.score.changedAt = some x → d.score.powered = true → d.score.scanned = true → d.score.cold = false →
    x + 10000 * msec ≤ d.score.own →
    ∃ t, Sys2Proof.Machine.exec (.scoreRingCommit dt) s = .next t ∧ t.dev.score.changedAt = none ∧
      (t.dev.score.slot.map fun r => (r.life, r.job, r.raw)) = some (d.score.life, d.score.job, d.score.raw)) ∧
  (∀ tenths : Int, d.score.powered = true →
    ∃ t, Sys2Proof.Machine.exec (.scoreDieTemperature dt tenths) s = .next t ∧ t.dev.score.temp = tenths ∧
      t.dev.score.cold = decide (tenths < -450))

/-- What the Score tells and what reaches it: publications, silence, which takes the die off the Score's time base too
(the model's choice: log entry 123), and mailbox messages whole, broken, and cut short by a collapse of VMET; a VX48-S
rejects a whole one with reason 3, and answers it (01 R20, R36, R37, 15 R429, R441 to R443, R455). What the spec
leaves open in it is the model's choice: log entry 62. -/
def Obligations.ScoreLinkEventsAct : Prop :=
  ∀ (s : State) (dt : Nat),
  let d := (s.turn dt).dev
  (d.score.powered = true → d.ctl.por = false → d.link.publishedAt + 10 * usec ≤ d.now →
    ∃ t, Sys2Proof.Machine.exec (.scorePublication dt) s = .next t ∧ t.dev.ctl.scoreSilent = false ∧
      t.dev.link.publishedAt = d.now ∧
      (t.dev.link.publication.map fun x => (x.life, x.job, x.raw, x.scanned)) = some (d.score.life, d.score.job, d.score.raw, d.score.scanned) ∧
      t.dev.score.answers = [] ∧
      (∀ a l, d.score.answers = a :: l → t.dev.link.inFlight = none)) ∧
  (d.ctl.scoreSilent = false → d.ctl.por = false → d.link.publishedAt + 100 * usec ≤ d.now →
    ∃ t, Sys2Proof.Machine.exec (.scoreSilent dt) s = .next t ∧ t.dev.ctl.scoreSilent = true ∧ t.dev.link.mailbox = [] ∧
      t.dev.link.inFlight = none ∧ t.dev.link.publication = d.link.publication ∧ t.dev.odo.st = .unavailable ∧
      t.dev.time.phase ≠ .score) ∧
  (∀ (m : MailMsg) (rest : List MailMsg), d.score.powered = true → d.link.mailbox = m :: rest → d.link.inFlight = none →
    let r := d.score.act d.score.own m
    let answer : MailAnswer := { opc := m.packet.opc, tag := m.packet.tag, status := r.2.status, data := r.2.data }
    (∀ (written : Nat) (logged : Bool), ∃ t, Sys2Proof.Machine.exec (.mailboxMessage dt (.powerCut written logged)) s = .next t ∧
      t.dev.score.powered = false ∧ t.dev.score.answers = d.score.answers ∧ t.dev.score.life = d.score.life ∧
      t.dev.link.mailbox = rest ∧ t.dev.link.inFlight = some m) ∧
    ∃ t, Sys2Proof.Machine.exec (.mailboxMessage dt .whole) s = .next t ∧
      t.dev.link.mailbox = rest.map (MailMsg.afterBlock d.score r.1) ∧ t.dev.link.inFlight = some m ∧
      (d.score.variant = .m → r.1.variant = .m →
        t.dev.score = { r.1 with accepted := stick 32 (r.1.accepted + 1), answers := r.1.answers ++ [answer] }) ∧
      (d.score.variant = .s →
        t.dev.score = { d.score with rejected := stick 32 (d.score.rejected + 1), rejects := d.score.rejects ++ [3],
                                     answers := d.score.answers ++ [{ answer with status := stUnknown, data := [] }] })) ∧
  (∀ (fate : MailboxFate) (r : Nat), d.score.powered = true → rejectReason fate = some r →
    ∃ t, Sys2Proof.Machine.exec (.mailboxMessage dt fate) s = .next t ∧
      t.dev.score = { d.score with rejected := stick 32 (d.score.rejected + 1), rejects := d.score.rejects ++ [r] })

/-- What reaches the Score from its pins and Laxitia: a tally edge moves the level at once and counts in the raw count
of its edge, which wraps at 2^48, two edges that the filter merges count nothing; tap samples, which a bank whose VBAT
is below 4.0 V reads low; the evaluation of the grounds, Laxitia requests, which nothing hears during an answer, and
the seal, which a sealed Score keeps, all by the Score's own clock (15 R421 to R424, R428, R438, R450 to R454). What
the spec leaves open in it is the model's choice: log entries 72, 181, 185. -/
def Obligations.ScoreInputsAct : Prop :=
  ∀ (s : State) (dt : Nat),
  let d := (s.turn dt).dev
  d.score.powered = true →
  (∀ (i : Fin 8) (rising : Bool),
    (∃ t, Sys2Proof.Machine.exec (.tallyEdge dt i rising true) s = .next t ∧
      t.dev.score = { d.score with levels := d.score.levels.set i rising }) ∧
    (∃ t, Sys2Proof.Machine.exec (.tallyEdge dt i rising false) s = .next t ∧ t.dev.score.levels.get i = rising ∧
      t.dev.score.rising.get i = (if rising then (d.score.rising.get i + 1) % 2 ^ 48 else d.score.rising.get i) ∧
      t.dev.score.falling.get i = (if rising then d.score.falling.get i else (d.score.falling.get i + 1) % 2 ^ 48) ∧
      (d.score.locked = false → d.ctl.scoreSilent = false →
        (t.dev.tally.get i).level = rising ∧ (t.dev.tally.get i).levelSince = some d.now) ∧
      ∀ j, j ≠ i → t.dev.score.levels.get j = d.score.levels.get j ∧ t.dev.score.rising.get j = d.score.rising.get j ∧
        t.dev.score.falling.get j = d.score.falling.get j)) ∧
  (∀ (outputs : Mask) (below4 : BitVec 4), d.score.sampledAt + usec ≤ d.score.own →
    ∃ t, Sys2Proof.Machine.exec (.tapSample dt ⟨outputs, below4⟩) s = .next t ∧
      (∀ v : VoiceId, t.dev.score.taps.getLsbD v.val = (outputs.getLsbD v.val && !below4.getLsbD (bankOf v).val)) ∧
      (∀ k, t.dev.score.samples.get k = d.score.samples.get k + 1) ∧ t.dev.score.sampledAt = d.score.own ∧
      t.dev.score.life = d.score.life) ∧
  (d.score.judgedAt + 10 * msec ≤ d.score.own →
    ∃ t, Sys2Proof.Machine.exec (.scoreGroundEvaluation dt) s = .next t ∧
      t.dev.score = { (idx 4).foldl (Score.judge d.score.own) d.score with judgedAt := d.score.own }) ∧
  (∀ line : List Byte, isSealLine line = false → d.score.laxUntil + charTicks line.length ≤ d.score.own →
    ∃ t, Sys2Proof.Machine.exec (.laxitiaRequest dt line) s = .next t ∧
      t.dev.score = { d.score with laxitia := d.score.laxitiaAnswer line,
                                   laxUntil := d.score.own + charTicks (d.score.laxitiaAnswer line).length }) ∧
  (∀ line : List Byte, d.score.own < d.score.laxUntil →
    Sys2Proof.Machine.exec (.laxitiaRequest dt line) s = .next (s.after dt fun _ => d)) ∧
  (∀ ident : List Byte, d.score.variant = .m → d.score.scanned = true → d.score.sealSt = .sealMode →
    isSealLine (sealLine ident) = true → d.score.laxUntil + charTicks (sealLine ident).length ≤ d.score.own →
    (∃ t, Sys2Proof.Machine.exec (.sealFuses dt ident true) s = .next t ∧ t.dev.score.sealSt = .sealed ∧
      t.dev.score.msealOut = some true ∧
      t.dev.score.instrument = ident ∧ t.dev.score.laxitia = laxWord ['S', 'E', 'A', 'L', 'E', 'D']) ∧
    (∃ t, Sys2Proof.Machine.exec (.sealFuses dt ident false) s = .next t ∧
      t.dev.score = d.score.sayLax (laxWord ['E', 'R', 'R', ' ', 'S', 'E', 'A', 'L']))) ∧
  (∀ (ident : List Byte) (ok_ : Bool), d.score.variant = .m → d.score.scanned = true → d.score.sealSt = .sealed →
    d.score.laxUntil + charTicks (sealLine ident).length ≤ d.score.own →
    ∃ t, Sys2Proof.Machine.exec (.sealFuses dt ident ok_) s = .next t ∧
      t.dev.score = d.score.sayLax (laxWord ['E', 'R', 'R']))

/-- The tally inputs and the odometer on the control die. An edge of the link waits for step 4 of its slot, where two
edges of one input stamped less than 2 ns apart count as a glitch and an edge alone is used, at the end of the next
slot where an edge of that slot could still pair with it; stuck levels, freezing,
and the evaluation of the grounds, where a primary that is stuck without a substitute leaves no ground (08 R238, 09
R262 to R271, 10 R285). What the spec leaves open in it is the model's choice: log entry 152. -/
def Obligations.TallyAndOdometerEventsAct : Prop :=
  (∀ (d : Dev) (i : Fin 8) (a b : Bool) (x y : Int) (m n : Nat), d.edges = [⟨i, a, x, m⟩, ⟨i, b, y, n⟩] → -6 < y - x → y - x < 6 →
    d.takeEdges.edges = [] ∧ d.takeEdges.tally.get i = { d.tally.get i with glitch := stick 16 ((d.tally.get i).glitch + 1) } ∧
      ∀ j, j ≠ i → d.takeEdges.tally.get j = d.tally.get j) ∧
  (∀ (d : Dev) (i : Fin 8) (rising : Bool) (stamp : Int), d.edges = [⟨i, rising, stamp, d.now⟩] → 3 ≤ stamp % 8 →
    d.takeEdges.edges = d.edges ∧ d.takeEdges.tally = d.tally ∧ d.takeEdges.odo = d.odo) ∧
  (∀ (d : Dev) (i : Fin 8) (rising : Bool) (stamp : Int) (n : Nat), d.edges = [⟨i, rising, stamp, n⟩] →
    n ≠ d.now ∨ stamp % 8 < 3 → rising ≠ d.countsRising i →
    d.tsEn i = true → d.widthEn i = true → (d.tally.get i).fifo.length < 256 → (d.tally.get i).start = none →
    (d.takeEdges.tally.get i).level = rising ∧ (d.takeEdges.tally.get i).levelSince = some d.now ∧
      ((d.takeEdges.tally.get i).fifo.map fun e => (e.tbc, e.rising)) =
        ((d.tally.get i).fifo.map fun e => (e.tbc, e.rising)) ++ [(d.useStamp stamp, rising)] ∧
      (d.takeEdges.tally.get i).orphan = stick 16 ((d.tally.get i).orphan + 1)) ∧
  ∀ (s : State) (dt : Nat) (i : Fin 8),
  let d := (s.turn dt).dev
  let e := d.takeEdges
  (∀ (rising : Bool) (stamp : Int), d.ctl.scoreSilent = false → d.score.locked = true →
    ∃ t, Sys2Proof.Machine.exec (.timestampEdge dt i rising stamp ()) s = .next t ∧
      t.dev.edges = d.edges ++ [⟨i, rising, stamp, d.now⟩] ∧ t.dev.tally = d.tally ∧ t.dev.odo = d.odo) ∧
  (∀ x, (e.tally.get i).levelSince = some x → e.stuckTime i ≤ e.now - x → e.ctl.scoreSilent = false → e.ctl.por = false →
    ∃ t, Sys2Proof.Machine.exec (.stuckLevel dt i) s = .next t ∧
      t.dev.tally.get i = { e.tally.get i with stuck := true, levelSince := none, returned := none } ∧
      Logged e [(0x0A06, i.val, [b8 (boolNat (e.tally.get i).level)])] t) ∧
  (∀ x, e.odo.st = .running → e.odo.last = some x → (e.stopTimeout : Int) ≤ e.time.tbc - x →
    ∃ t, Sys2Proof.Machine.exec (.odoFrozen dt) s = .next t ∧ t.dev.odo = { e.odo with floor := e.odoValue, st := .frozen }) ∧
  (e.odo.evalAt + 10 * msec ≤ e.now → e.odo.source = .none →
    ∃ t, Sys2Proof.Machine.exec (.groundEvaluation dt) s = .next t ∧ t.dev.odo = { e.odo with evalAt := e.now }) ∧
  (e.odo.evalAt + 10 * msec ≤ e.now → e.odo.source = .primary → e.secEn = false →
    20 ≤ e.rate e.secondary * (e.ratio : Rat) / 65536 → (e.tally.get e.secondary).stuck = false → (e.tally.get e.primary).stuck = true →
    ∃ t, Sys2Proof.Machine.exec (.groundEvaluation dt) s = .next t ∧ t.dev.odo.source = .none ∧ t.dev.odo.groundNone = true ∧
      t.dev.odo.st = .unavailable ∧ t.dev.odo.evalAt = e.now)

/-! ### Thermal management (13) -/

/-- The zones: readings, the hard stop of 01 R17, grace times, ceiling steps and sensor checks (13 R354, R355, R366,
R368, R369, R371, R375, R376). What the spec leaves open in it is the model's choice: log entry 58. -/
def Obligations.ZoneEventsAct : Prop :=
  ∀ (s : State) (dt : Nat) (z : ZoneId),
  let d := (s.turn dt).dev
  (d.thermLive = true → d.ctl.mode ≠ .halted →
    ∃ t, Sys2Proof.Machine.exec (.zoneHardStop dt z) s = .next t ∧ t.dev.ctl.mode = .halted ∧ t.dev.ctl.haltCause = 4) ∧
  (∀ readings : Tab Int 8, d.thermLive = true → d.therm.readAt + 50 * usec ≤ d.now → (d.zone z).st = .measured →
    ∃ t, Sys2Proof.Machine.exec (.zoneReading dt readings) s = .next t ∧ (t.dev.zone z).reading = readings.get z ∧
      t.dev.therm.readAt = d.now) ∧
  (∀ (u : ThermUnit) (q : ThrottleReq), d.reqOf u = some q → q.enforcing = false → q.graceEnd ≤ d.now → d.compared u < d.throt u →
    ∃ t, Sys2Proof.Machine.exec (.throttleGraceEnd dt u) s = .next t ∧ t.dev.reqOf u = none) ∧
  (∀ (u : ThermUnit) (q : ThrottleReq), d.reqOf u = some q → q.enforcing = false → q.graceEnd ≤ d.now → d.throt u ≤ d.compared u →
    (d.zone (zoneOfTherm u)).enforcing = false →
    ∃ t, Sys2Proof.Machine.exec (.throttleGraceEnd dt u) s = .next t ∧ t.dev.reqOf u = some { q with enforcing := true } ∧
      (t.dev.zone (zoneOfTherm u)).enforcing = true ∧ (t.dev.zone (zoneOfTherm u)).stepAt = some (d.now + 50 * msec) ∧
      (t.dev.zone (zoneOfTherm u)).ceiling = if (d.zone (zoneOfTherm u)).ceiling = 8 then 7 else (d.zone (zoneOfTherm u)).ceiling) ∧
  (∀ x, (d.zone z).stepAt = some x → x ≤ d.now → (d.zone z).enforcing = false →
    ∃ t, Sys2Proof.Machine.exec (.ceilingStep dt z) s = .next t ∧ (t.dev.zone z).ceiling = min 8 ((d.zone z).ceiling + 1) ∧
      (t.dev.zone z).stepAt = (if 7 ≤ (d.zone z).ceiling then none else some (x + 50 * msec)) ∧
      ∀ y, y ≠ z → t.dev.zone y = d.zone y) ∧
  (∀ x, (d.zone z).stepAt = some x → x ≤ d.now → (d.zone z).enforcing = true →
    (zoneUnits z).any (fun u => d.enforces u && decide (d.throt u ≤ d.compared u)) = true →
    ∃ t, Sys2Proof.Machine.exec (.ceilingStep dt z) s = .next t ∧ (t.dev.zone z).ceiling = max 1 ((d.zone z).ceiling - 1)) ∧
  (∀ x, (d.zone z).checkEnds = some x → x ≤ d.now → (d.zone z).healthy = true →
    ∃ t, Sys2Proof.Machine.exec (.zoneCheckDone dt z .passed) s = .next t ∧ (t.dev.zone z).checkEnds = none ∧
      (t.dev.zone z).st = .suspect ∧ (t.dev.zone z).checkPassed = true ∧ (t.dev.zone z).checkAfter = d.now + 10000 * msec)

/-- The voices' model: an update every 10 µs takes in the energy of the interval, and a blip that ends gives an anchor
from the conversions of its last 30 µs, or ANCHOR_REFUSED, where no conversion counts as no current (the model's
choice: log entry 141) (13 R356, R357, R360, R379). What the spec leaves open in it is the model's choice: log entry
57. -/
def Obligations.ModelEventsAct : Prop :=
  ∀ (s : State) (dt : Nat) (v : VoiceId),
  let d := (s.turn dt).dev
  let win := (d.voice v).therm.blipWin
  (d.thermLive = true → d.therm.updatedAt + 10 * usec ≤ d.now →
    ∃ t, Sys2Proof.Machine.exec (.modelUpdate dt) s = .next t ∧ (t.dev.voice v).therm.power = (0, 0) ∧
      (t.dev.voice v).therm.history.length = min 1000 ((d.voice v).therm.history.length + 1)) ∧
  (∀ x : Nat, d.therm.blip = some (v, some x) → x ≤ d.now → d.gang v = none → d.quietMin v ≤ win.2.1 / (max win.1 1 : Nat) →
    ∃ t, Sys2Proof.Machine.exec (.blipEnd dt () ()) s = .next t ∧
      (t.dev.voice v).therm.tj = d.rOnTemp v (win.2.2 / (max win.1 1 : Nat)) ∧
      (t.dev.voice v).therm.ma = 3 / 2 ∧ (t.dev.voice v).therm.anchor = .blip ∧ (t.dev.voice v).therm.anchoredAt = d.now) ∧
  (∀ x : Nat, d.therm.blip = some (v, some x) → x ≤ d.now → d.gang v = none → win.2.1 / (max win.1 1 : Nat) < d.quietMin v →
    ∃ t, Sys2Proof.Machine.exec (.blipEnd dt () ()) s = .next t ∧ (t.dev.voice v).therm.tj = (d.voice v).therm.tj ∧
      (t.dev.voice v).therm.anchor = (d.voice v).therm.anchor ∧ t.dev.therm.blip = none)

/-! ### The converter and the wave port (11, 12) -/

/-- Scans and conversions: a continuous scan starts when its time has come, a trigger starts a scan 12 to 16 ns later or
counts an overrun, a conversion 600 ticks after its instant enters the newest value of its input and its record,
corrected by the word that stood when it began, and urgent requests are served one at a time in the order of 11
R313; one that meets a scan moves the visits of its slice and is counted in the entry of that scan (11 R303, R304,
R306 to R309, R311 to R314). What the spec leaves open in it is the model's choice: log entry 29. -/
def Obligations.ConverterEventsAct : Prop :=
  ∀ (s : State) (dt : Nat) (e : EngineId),
  let d := (s.turn dt).dev
  let x := d.conv.engines.get e
  (d.convLive = true → d.engEnabled e = true → d.engTrig e = 0 → x.paused = false → x.nextScan ≤ d.now →
    ∃ t, Sys2Proof.Machine.exec (.scanStart dt e) s = .next t ∧ (t.dev.conv.engines.get e).scanNo = x.scanNo + 1 ∧
      (t.dev.conv.engines.get e).nextScan = x.nextScan + max 1 (d.scanPeriod e) ∧
      (t.dev.conv.engines.get e).todo.map (·.input) = x.todo.map (·.input) ++ d.scanInputs e ∧
      ∀ f, f ≠ e → t.dev.conv.engines.get f = d.conv.engines.get f) ∧
  (∀ (pin : Fin 2) (rising : Bool), d.port.vioValid = true → d.convLive = true →
    ∃ t, Sys2Proof.Machine.exec (.atrgEdge dt pin rising) s = .next t ∧
      t.dev.conv.engines.get e =
        if d.engEnabled e = true ∧ trigSelects (d.engTrig e) pin rising = true ∧ x.paused = false then
          (if x.todo = [] then (d.startScan e (atrgDelay e d.now)).conv.engines.get e
           else { x with trigOverrun := stick 16 (x.trigOverrun + 1) })
        else x) ∧
  (∀ (v : Visit) (rest : List Visit) (i : Fin 120) (raw : Option (BitVec 14)), d.convLive = true → x.todo = v :: rest →
    v.at_ + 600 ≤ d.now → v.input = i.val → (i.val < 100 ∨ 108 ≤ i.val) →
    let y := match raw with
      | some r => corrected (v.corr.getD (d.word (0x3040 + i.val))) r.toNat
      | none => 0
    ∃ t, Sys2Proof.Machine.exec (.conversion dt e raw) s = .next t ∧ (t.dev.conv.engines.get e).todo = rest ∧
      t.dev.conv.newest.get i = some { y := y, valid := raw.isSome, scan := v.scan, at_ := v.at_ + 600 } ∧
      (∀ j, j ≠ i → t.dev.conv.newest.get j = d.conv.newest.get j) ∧
      (d.fld (engWord e 4) 4 4 = 0 →
        (t.dev.conv.engines.get e).buffer = ((recordWord y i.val raw.isSome false false v.scan, v.scan) :: x.buffer).take (d.engCap e))) ∧
  (∀ (src : UrgentSource) (input : Nat) (raw : Option (BitVec 14)), d.convLive = true → d.conv.urgentFree ≤ d.now →
    d.nextUrgent = some (src, input) →
    ∃ t, Sys2Proof.Machine.exec (.urgentConversion dt src input raw) s = .next t ∧ t.dev.conv.urgentFree = d.now + 600 ∧
      (outOfRange input raw = false → t.dev.conv.urgent = d.conv.urgent.erase (src, input)) ∧
      let meets (v : Visit) : Bool := d.visitMaker v = d.urgentUnit input && decide (v.at_ < d.now + 600)
      (x.todo.find? meets = none → t.dev.conv.engines.get e = x) ∧
      (∀ (v : Visit) (l : ScanEntry) (rest : List ScanEntry), x.todo.find? meets = some v → x.log = l :: rest → l.scan = v.scan →
        (t.dev.conv.engines.get e).log.head? = some { l with urgent := stick 8 (l.urgent + 1) } ∧
        ∀ w ∈ x.todo, w.slice = v.slice → w.scan = v.scan →
          { w with at_ := w.at_ + 600, corr := none } ∈ (t.dev.conv.engines.get e).todo))

/-- The slices: at a whole second a calibration step takes its unit out of service for 100 ms, ends with new trims and
the skew taken out of the odd slice, or counts a failure; a second failure and an internal range check retire the
slice, whose place the descant takes, or the descant (11 R305, R316 to R319). What the spec leaves open in it is the
model's choice: log entries 24, 54. -/
def Obligations.SliceEventsAct : Prop :=
  ∀ (s : State) (dt : Nat),
  let d := (s.turn dt).dev
  let k := d.calUnit
  (∀ (p : Bool) (a b w : Int), d.convLive = true → d.conv.calRuns = true → d.conv.calEnds = none → d.secondNow = true →
    ∃ t, Sys2Proof.Machine.exec (.calStep dt false p ⟨a, b⟩ w) s = .next t ∧ t.dev.conv.standIn = some k.val ∧
      t.dev.conv.calEnds = some (d.now + 100 * msec) ∧ (t.dev.conv.slices.get k).st = .calibrating ∧
      (k ≠ 8 → (t.dev.conv.slices.get 8).st = .standingIn)) ∧
  (∀ (j end_ : Nat) (a b w : Int), d.convLive = true → d.conv.calRuns = true → d.conv.standIn = some j →
    d.conv.calEnds = some end_ → end_ ≤ d.now →
    ∃ t, Sys2Proof.Machine.exec (.calStep dt true true ⟨a, b⟩ w) s = .next t ∧ t.dev.conv.standIn = none ∧ t.dev.conv.calEnds = none ∧
      t.dev.conv.cycles = (d.conv.cycles + 1) % 2 ^ 32 ∧ t.dev.conv.calStep = (d.conv.calStep + 1) % 9 ∧
      (t.dev.conv.slices.get k).offsetTrim = a ∧ (t.dev.conv.slices.get k).gainTrim = b ∧
      (t.dev.conv.slices.get k).passedAt = d.now ∧
      (k ≠ 8 → (t.dev.conv.engines.get (engineOfSlice k.val)).skewTrim = (d.conv.engines.get (engineOfSlice k.val)).skewTrim - w)) ∧
  (∀ (j end_ : Nat) (a b w : Int), d.convLive = true → d.conv.calRuns = true → d.conv.standIn = some j →
    d.conv.calEnds = some end_ → end_ ≤ d.now → d.conv.calRepeat = false → d.ctl.por = false →
    ∃ t, Sys2Proof.Machine.exec (.calStep dt true false ⟨a, b⟩ w) s = .next t ∧ t.dev.conv.calRepeat = true ∧
      t.dev.conv.calStep = d.conv.calStep ∧ t.dev.conv.standIn = some j ∧ t.dev.conv.calEnds = none ∧
      (t.dev.conv.slices.get k).fails = stick 8 ((d.conv.slices.get k).fails + 1) ∧
      Logged d [(0x0401, 0x40 + k.val, [b8 (stick 8 ((d.conv.slices.get k).fails + 1))])] t) ∧
  (∀ (j end_ : Nat) (a b w : Int), d.convLive = true → d.conv.calRuns = true → d.conv.standIn = some j →
    d.conv.calEnds = some end_ → end_ ≤ d.now → d.conv.calRepeat = true → k ≠ 8 →
    ∃ t, Sys2Proof.Machine.exec (.calStep dt true false ⟨a, b⟩ w) s = .next t ∧ t.dev.conv.calRuns = false ∧
      t.dev.conv.replaced = some k.val ∧ (t.dev.conv.slices.get k).st = .retired ∧
      (t.dev.conv.slices.get 8).st = .standingIn ∧ t.dev.sc.unitsRetired = stick 8 (d.sc.unitsRetired + 1)) ∧
  (∀ (i : Fin 9) (c : RangeCheck), (d.conv.slices.get i).check = some c → (c.again ≠ none ∨ c.since + 2 * usec ≤ d.now) →
    ∃ t, Sys2Proof.Machine.exec (.sliceCheckDone dt i ()) s = .next t ∧ (t.dev.conv.slices.get i).check = none ∧
      (t.dev.conv.slices.get i).decidedAt = some d.now ∧
      (d.rangeOutcome c ≠ .internal →
        (t.dev.conv.slices.get i).st = (d.conv.slices.get i).st ∧ t.dev.conv.replaced = d.conv.replaced) ∧
      (d.rangeOutcome c = .internal →
        (t.dev.conv.slices.get i).st = .retired ∧ t.dev.conv.calRuns = false ∧
          (i ≠ 8 → t.dev.conv.replaced = some i.val ∧ (t.dev.conv.slices.get 8).st = .standingIn)))

/-- Frames of the wave port: a master's frames keep its grid (how the grid meets the control clock is the model's
choice: log entry 137), a slave's are judged as stable, missing or misplaced, and two boundaries missing in a row
are clock loss; a frame counts through the block of 192, a cut frame's duty words are taken back, a word of an
in-slot is judged by its parity and its V bit before its duty is used, and B in slot 0 realigns the block (12 R334
to R336, R338, R341 to R343, R345, R347 to R349). What the spec leaves open in it is the model's choice: log entries
38, 39. -/
def Obligations.WaveFramesAct : Prop :=
  ∀ (s : State) (dt : Nat),
  let d := (s.turn dt).dev
  let w := d.wave
  (∀ timing : FrameTiming, w.st ≠ .disabled → d.port.vioValid = true → w.marked = true →
    (d.waveMaster = true ∧ d.frameDue ≤ d.now ∨ d.waveMaster = false ∧ timing = .stable) →
    ∃ t, Sys2Proof.Machine.exec (.waveFrame dt timing ()) s = .next t ∧
      t.dev.wave.stable = (if w.began then stick 16 (w.stable + 1) else w.stable) ∧ t.dev.wave.missing = 0 ∧
      t.dev.wave.frame = (if w.frame = 191 then 0 else w.frame + 1) ∧
      t.dev.wave.blocks = (if w.frame = 191 then (w.blocks + 1) % 2 ^ 32 else w.blocks) ∧
      t.dev.wave.starts = (d.now :: w.starts).take 193 ∧ t.dev.wave.count = w.count + 1 ∧
      (∀ k, (t.dev.wave.slots.get k).counting = (w.slots.get k).counting.map fun c => (c.1 - 1, c.2))) ∧
  (w.st ≠ .disabled → d.port.vioValid = true → w.marked = true → d.waveMaster = false →
    (w.missing = 0 →
      ∃ t, Sys2Proof.Machine.exec (.waveFrame dt .missing ()) s = .next t ∧ t.dev.wave.stable = 0 ∧
        t.dev.wave.missing = 1 ∧ t.dev.wave.frameErr = stick 16 (w.frameErr + 1)) ∧
    (1 ≤ w.missing → d.ctl.por = false →
      ∃ t, Sys2Proof.Machine.exec (.waveFrame dt .missing ()) s = .next t ∧ t.dev.wave.st = .lost ∧
        t.dev.wave.frameErr = stick 16 (w.frameErr + 1) ∧ t.dev.wave.losses = stick 16 (w.losses + 1) ∧
        Logged d [(0x0501, 0xFF, [1])] t) ∧
    (w.assumed = false → w.missing = 0 →
      ∃ t, Sys2Proof.Machine.exec (.waveFrame dt .misplaced ()) s = .next t ∧ t.dev.wave.stable = 0 ∧
        t.dev.wave.missing = 1 ∧ t.dev.wave.frameErr = stick 16 (w.frameErr + 2) ∧
        ∀ (k : Fin 16) (was : Option Nat) (fresh kept : Mask), k.val < d.waveSlots → d.isIn k = true →
          (w.slots.get k).inFrame = some (was, fresh, kept) → (t.dev.wave.slots.get k).duty = was)) ∧
  (∀ timing : FrameTiming, w.st ≠ .disabled → d.port.vioValid = true → w.marked = false →
    (d.waveMaster = true ∧ d.frameDue ≤ d.now ∨ d.waveMaster = false ∧ timing ≠ .missing) →
    ∃ t, Sys2Proof.Machine.exec (.waveFrame dt timing ()) s = .next t ∧ t.dev.wave.st = .acquiring ∧ t.dev.wave.marked = true ∧
      t.dev.wave.stable = 0 ∧ t.dev.wave.starts = (d.now :: w.starts).take 193) ∧
  (∀ timing : FrameTiming,
    (w.st = .disabled ∨ d.port.vioValid = false ∨ d.waveMaster = true ∧ d.now < d.frameDue) →
    ∃ t, Sys2Proof.Machine.exec (.waveFrame dt timing ()) s = .next t ∧ t.dev.wave = w) ∧
  (∀ (k : Fin 16) (word : Word), w.st ≠ .disabled → w.st ≠ .lost → w.marked = true → d.port.vioValid = true → k.val < d.waveSlots →
    d.isIn k = true → (w.slots.get k).inFrame = none →
    ∃ t, Sys2Proof.Machine.exec (.inSlotWord dt k word) s = .next t ∧ (t.dev.wave.slots.get k).lastWord = word ∧
      (∃ fresh kept, (t.dev.wave.slots.get k).inFrame = some ((w.slots.get k).duty, fresh, kept)) ∧
      (t.dev.wave.slots.get k).duty = (if w.st = .running ∧ parityOk word = true ∧ bit word 7 = false then some (bits word 16 16)
        else (w.slots.get k).duty) ∧
      t.dev.wave.parityErr = (if parityOk word then w.parityErr else stick 16 (w.parityErr + 1)) ∧
      t.dev.wave.vSkipped = (if parityOk word = true ∧ bit word 7 = true then stick 16 (w.vSkipped + 1) else w.vSkipped) ∧
      (t.dev.wave.slots.get k).buffer = (if (w.slots.get k).writes (w.st == .running) then
        (word :: (w.slots.get k).buffer).take (2 ^ d.slotLog k) else (w.slots.get k).buffer) ∧
      (k ≠ 0 → ∀ j, j ≠ k → t.dev.wave.slots.get j = w.slots.get j)) ∧
  (∀ word : Word, w.st ≠ .disabled → w.st ≠ .lost → w.marked = true → d.port.vioValid = true → 0 < d.waveSlots → d.isIn 0 = true →
    (w.slots.get 0).inFrame = none → bit word 3 = true → parityOk word = true → w.frame ≠ 0 →
    ∃ t, Sys2Proof.Machine.exec (.inSlotWord dt 0 word) s = .next t ∧ t.dev.wave.frame = 0 ∧ t.dev.wave.blockAt = some d.now ∧
      t.dev.wave.realign = stick 16 (w.realign + 1) ∧ t.dev.wave.blocks = (w.blocks + 1) % 2 ^ 32)

/-- Muting: a clock loss in slave mode mutes the port and drops every duty word, the port runs again at the block start,
natural or received, that follows 192 stable frames, with the channel status of that block and the words that its
frame has brought, and tells how many frames it was muted; an armed slot freezes when its frames are over (12 R338 to
R341, R350, R353). -/
def Obligations.WaveLossAndFreezeAct : Prop :=
  ∀ (s : State) (dt : Nat),
  let d := (s.turn dt).dev
  let w := d.wave
  (∀ cause : WaveCause, (w.st = .running ∨ w.st = .acquiring) → d.waveMaster = false →
    (cause = .boundaries → w.missing = 1) → d.ctl.por = false →
    ∃ t, Sys2Proof.Machine.exec (.waveLoss dt cause) s = .next t ∧ t.dev.wave.st = .lost ∧
      t.dev.wave.losses = stick 16 (w.losses + 1) ∧ t.dev.wave.stable = 0 ∧ (∀ k, (t.dev.wave.slots.get k).duty = none) ∧
      t.dev.wave.frameErr = (if cause = .boundaries then stick 16 (w.frameErr + 1) else w.frameErr) ∧
      Logged d [(0x0501, 0xFF, [match cause with | .gap => 0 | .boundaries => 1 | .fast => 2])] t) ∧
  (∀ cause : WaveCause, (d.waveMaster = true ∨ w.st = .disabled ∨ w.st = .lost ∨ cause = .boundaries ∧ w.missing ≠ 1) →
    ∃ t, Sys2Proof.Machine.exec (.waveLoss dt cause) s = .next t ∧ t.dev.wave = w) ∧
  (w.st = .acquiring → w.marked = true → w.blockAt = some d.now → 192 ≤ w.stable → d.ctl.por = false →
    ∃ t, Sys2Proof.Machine.exec (.waveUnmute dt) s = .next t ∧ t.dev.wave.st = .running ∧ t.dev.wave.muted = w.muted - 1 ∧
      (∀ k : Fin 16, k.val < d.waveSlots → d.isIn k = false → (t.dev.wave.slots.get k).cs = d.channelStatus k) ∧
      (∀ k : Fin 16, d.isIn k = true → (w.slots.get k).inFrame = none → t.dev.wave.slots.get k = w.slots.get k) ∧
      (∀ (k : Fin 16) (x : Option Nat × Mask × Mask), k.val < d.waveSlots → d.isIn k = true →
        (w.slots.get k).inFrame = some x →
        (t.dev.wave.slots.get k).duty = (if parityOk (w.slots.get k).lastWord = true ∧ bit (w.slots.get k).lastWord 7 = false then
          some (bits (w.slots.get k).lastWord 16 16) else (w.slots.get k).duty)) ∧
      Logged d [(0x0502, 0xFF, leBytes 4 (min (w.muted - 1) 0xFFFFFFFF))] t) ∧
  (∀ (k : Fin 16) (v : VoiceId) (code post : Nat), (w.slots.get k).counting = some (0, v, code, post) → d.ctl.por = false →
    ∃ t, Sys2Proof.Machine.exec (.waveFrozen dt k) s = .next t ∧
      t.dev.wave.slots.get k = { w.slots.get k with frozen := true, armed := none, counting := none } ∧
      (∀ j, j ≠ k → t.dev.wave.slots.get j = w.slots.get j) ∧
      Logged d [(0x0503, k.val, [b8 v.val, b8 code] ++ leBytes 2 post)] t)

/-! ### The chain (16) -/

/-- A measure of the precentor, begun once at its boundary: the frame it sends carries the next MSEQ, its TBC and the
step of an enumeration, and the next segment of the forwarding buffer; the boundary of a device that runs on sends an
upstream frame (16 R459 to R461, R464, R471, R474). What the spec leaves open in it is the model's choice: log entries 97, 105. -/
def Obligations.MeasuresAct : Prop :=
  ∀ (s : State) (dt : Nat),
  let d := (s.turn dt).dev
  let c := d.chain
  (d.atBoundary = false ∨ c.measuredAt = some d.now →
    ∃ t, Sys2Proof.Machine.exec (.measureBoundary dt) s = .next t ∧ t.dev = d) ∧
  (d.chainLive = true → d.atBoundary = true → c.measuredAt ≠ some d.now →
  (c.head = true →
    ∃ t f, Sys2Proof.Machine.exec (.measureBoundary dt) s = .next t ∧ t.dev.chain.mseq = c.mseq + 1 ∧
      t.dev.chain.enumLeft = c.enumLeft.map (fun k => k - 1) ∧ t.dev.chain.sentDown = some f ∧ f.ok = true ∧ f.hop = 0 ∧
      f.mseq = c.mseq + 1 ∧ f.ctbc = d.time.tbc ∧ f.cumlat = (c.ports.get 1).delay + 360 ∧
      f.clrEnum = (enumStep c.enumLeft == .clearing) ∧ f.enumerate = (enumStep c.enumLeft == .numbering) ∧
      (c.enumLeft ≠ none → c.enumLeft ≠ some 0 → f.seg = [] ∧ f.bar = false ∧ f.downbeat = false ∧ t.dev.chain.forward = c.forward) ∧
      (∀ (b : FwdBar) (rest : List FwdBar), c.enumLeft = none → c.forward = b :: rest → b.bytes ≠ [] → b.bytes.length ≤ 23 →
        f.seg = b.bytes ∧ f.bar = true ∧ f.barNo = BitVec.ofNat 16 b.barNo ∧ f.sseq = c.sseq + 1 ∧ t.dev.chain.forward = rest) ∧
      (∀ (b : FwdBar) (rest : List FwdBar), c.enumLeft = none → c.forward = b :: rest → 23 < b.bytes.length →
        f.seg = b.bytes.take 23 ∧ f.bar = false ∧ f.sseq = c.sseq + 1 ∧
        t.dev.chain.forward = { b with bytes := b.bytes.drop 23 } :: rest)) ∧
  (c.head = false →
    ∃ t u, Sys2Proof.Machine.exec (.measureBoundary dt) s = .next t ∧ t.dev.chain.sentUp = some u ∧ u.ok = true ∧
      u.reach = d.ownReach ∧ u.seg = (if c.holdRx then [] else c.upstream.take 18) ∧
      u.sseq = (if u.seg = [] then c.upSseq else c.upSseq + 1) ∧
      ∀ k, (t.dev.chain.ports.get k) = (c.ports.get k).measure))

/-- A downstream frame at a device of the chain, whose CRC has come 52 characters after its boundary. A valid one without
a BAR marker goes on one hop further, and the device takes its MSEQ, latency and HOLD, its address in an enumeration,
and one step of its chain TBC, by what it was at the boundary: forward at once, back by holding one count; one whose
CRC fails goes on with its CRC inverted, and so does one with a character that is no code, which counts as no CRC
failure; one that starts where none is expected is no frame; a BAR marker behind a gap costs the bars lost, which one
BAD_CRC reply answers, and the stream starts afresh (16 R459 to R461, R463 to R467, R470, R473, R483, R486). What the
spec leaves open in it is the model's choice: log entries 97, 100, 105, 186. -/
def Obligations.DownstreamFramesAct : Prop :=
  ∀ (s : State) (dt : Nat) (l : List Byte),
  let d := (s.turn dt).dev
  let c := d.chain
  let f := downOf l
  let e : Int := f.ctbc + f.cumlat - (d.time.tbc - downLen)
  let step : Int := if e.natAbs < 8 then 0 else if e.natAbs ≤ 64 then (if 0 < e then 8 else 0) else 8 * roundDiv e 8
  d.chainLive = true → c.head = false → c.turned = false → (c.ports.get 0).outOfService = false →
  (d.expects 0 (d.now - downLen) = false → ∀ codes : Bool,
    ∃ t, Sys2Proof.Machine.exec (.downstreamFrame dt .a { codes := codes, chars := l }) s = .next t ∧ t.dev = d) ∧
  (d.expects 0 (d.now - downLen) = true →
    ∃ t, Sys2Proof.Machine.exec (.downstreamFrame dt .a { codes := false, chars := l }) s = .next t ∧
      t.dev.time = d.time ∧ t.dev.chain = { c with sentDown := some { f with
        ok := false, hop := if 62 ≤ f.hop then 62 else f.hop + 1, cumlat := f.cumlat + (c.ports.get 1).delay + 360, hold := c.holds } }) ∧
  (d.expects 0 (d.now - downLen) = true → f.ok = true → f.bar = false →
    ∃ t, Sys2Proof.Machine.exec (.downstreamFrame dt .a { codes := true, chars := l }) s = .next t ∧
      t.dev.chain.lastFrame = some d.now ∧ t.dev.chain.linkTimeout = false ∧ t.dev.chain.broken = false ∧
      t.dev.chain.mseq = f.mseq ∧ t.dev.chain.latency = f.cumlat ∧ t.dev.chain.holdRx = f.hold ∧
      t.dev.time.measureAt = d.now - downLen ∧
      (t.dev.chain.ports.get 0).frames = ((c.ports.get 0).frames + 1) % 2 ^ 32 ∧
      ((c.ports.get 0).goodRun ≠ 0 → (c.ports.get 0).heard = true → (t.dev.chain.ports.get 0).up = true) ∧
      ((c.ports.get 0).up = false → (c.ports.get 0).goodRun = 0 → (t.dev.chain.ports.get 0).up = false) ∧
      t.dev.chain.sentDown = some { f with
        hop := if 62 ≤ f.hop then 62 else f.hop + 1, cumlat := f.cumlat + (c.ports.get 1).delay + 360, hold := c.holds } ∧
      (f.clrEnum = true → t.dev.chain.addr = none) ∧
      (f.clrEnum = false → f.enumerate = true → c.addr = none → t.dev.chain.addr = if 62 ≤ f.hop then none else some (f.hop + 1)) ∧
      (f.clrEnum = false → f.enumerate = false → c.addr = some (f.hop + 1) →
        t.dev.chain.addr = c.addr ∧ t.dev.chain.hopWrong = 0 ∧ t.dev.time.tbc = d.time.tbc + step ∧ t.dev.chain.offset = c.offset + step ∧
        t.dev.chain.holdOne = (c.holdOne || decide (8 ≤ e.natAbs ∧ e.natAbs ≤ 64 ∧ e < 0))) ∧
      (∀ a, f.clrEnum = false → f.enumerate = false → c.addr = some a → f.hop + 1 ≠ a →
        (c.hopWrong < 3 → t.dev.chain.addr = some a ∧ t.dev.chain.hopWrong = c.hopWrong + 1) ∧
        (3 ≤ c.hopWrong → t.dev.chain.addr = none))) ∧
  (d.expects 0 (d.now - downLen) = true → f.ok = false →
    ∃ t, Sys2Proof.Machine.exec (.downstreamFrame dt .a { codes := true, chars := l }) s = .next t ∧ t.dev.chain.addr = c.addr ∧
      t.dev.chain.discarding = c.addr.isSome ∧ (t.dev.chain.ports.get 0).crcErr = stick 16 ((c.ports.get 0).crcErr + 1) ∧
      t.dev.chain.lastFrame = c.lastFrame ∧ t.dev.time = d.time ∧
      t.dev.chain.sentDown = some { f with
        hop := if 62 ≤ f.hop then 62 else f.hop + 1, cumlat := f.cumlat + (c.ports.get 1).delay + 360, hold := c.holds }) ∧
  (∀ a : Nat, d.expects 0 (d.now - downLen) = true → f.ok = true → f.bar = true → f.clrEnum = false → f.enumerate = false → c.addr = some a → f.hop + 1 = a →
    (c.discarding = true ∨ ∃ n, c.downSeq = some n ∧ f.sseq ≠ n + 1) →
    ∃ t, Sys2Proof.Machine.exec (.downstreamFrame dt .a { codes := true, chars := l }) s = .next t ∧
      t.dev.chain.barLost = stick 16 (c.barLost + 1) ∧ t.dev.chain.stream = [] ∧ t.dev.chain.discarding = false ∧
      t.dev.chain.lastBar = some f.barNo.toNat ∧ t.dev.chain.downSeq = some f.sseq ∧
      t.dev.chain.replies = c.replies ++ [{
        src := a, opc := 0, tag := 0, status := stBadCrc, settle := none
        data := leBytes 2 ((c.lastBar.map fun n => (n + 1) % 65536).getD f.barNo.toNat) ++ leBytes 2 f.barNo.toNat }])

/-- An upstream frame at the precentor, whose CRC has come 36 characters after its start: what it shows of the chain,
the link delay that its start measures, and the whole reply that it completes, which enters the host's queue, and counts
in PREV_ACCEPTED where it accepts a packet of the previous bar; one that starts elsewhere than expected, or with a
character that is no code, is no frame (03 R82, 16 R460, R467, R474, R475, R485). What the spec leaves open in it is the
model's choice: log entries 98, 187. -/
def Obligations.UpstreamFramesAct : Prop :=
  ∀ (s : State) (dt : Nat) (start : Fin 8) (l : List Byte),
  let d := (s.turn dt).dev
  let c := d.chain
  let f := upOf l
  let at_ := d.now - upLen + start.val
  let due := d.boundary + 56 * charPos + 360
  let rx : RxFrame := { codes := true, chars := l }
  d.chainLive = true → c.head = true → (c.ports.get 1).outOfService = false →
  (within2 at_ (due + 2 * (c.ports.get 1).delay) = false →
    ∃ t, Sys2Proof.Machine.exec (.upstreamFrame dt .b rx start) s = .next t ∧ t.dev = d) ∧
  (∃ t, Sys2Proof.Machine.exec (.upstreamFrame dt .b { codes := false, chars := l } start) s = .next t ∧ t.dev = d) ∧
  (within2 at_ (due + 2 * (c.ports.get 1).delay) = true →
  (f.ok = true →
    ∃ t, Sys2Proof.Machine.exec (.upstreamFrame dt .b rx start) s = .next t ∧ t.dev.chain.reachB = f.reach ∧
      t.dev.chain.reachBAt = d.now ∧ (t.dev.chain.ports.get 1).frames = ((c.ports.get 1).frames + 1) % 2 ^ 32 ∧
      (t.dev.chain.ports.get 1).delay = towards (c.ports.get 1).delay ((at_ - due) / 2) ∧ t.dev.chain.merged = c.merged ++ f.breath ∧
      (∀ a ∈ t.dev.chain.unreachable, ¬ (a ≤ f.reach ∧ a ≤ c.count))) ∧
  (∀ r : Reply, f.ok = true → f.seg = r.bytes → r.src < 128 → r.data.length < 65536 → c.partReply = [] →
    (∀ n, c.upSeq = some n → f.sseq = n + 1) →
    ∃ t, Sys2Proof.Machine.exec (.upstreamFrame dt .b rx start) s = .next t ∧ t.dev.chain.partReply = [] ∧
      t.dev.chain.upSeq = some f.sseq ∧ t.dev.port.replies = (d.port.push { r with settle := none }).replies ∧
      ∀ o : Outstanding, c.outstanding = [o] → o.addr = r.src → o.opc = r.opc → o.tag = r.tag → o.counted = false →
        (o.barNo + 1) % 65536 = d.port.barNo → r.status.toNat ≤ 1 →
        t.dev.port.prevAccepted = stick 8 (d.port.prevAccepted + 1)) ∧
  (f.ok = false →
    ∃ t, Sys2Proof.Machine.exec (.upstreamFrame dt .b rx start) s = .next t ∧ t.dev.chain.partReply = [] ∧
      t.dev.chain.upDropped = (if c.partReply = [] then c.upDropped else stick 16 (c.upDropped + 1)) ∧
      (t.dev.chain.ports.get 1).crcErr = stick 16 ((c.ports.get 1).crcErr + 1)))

/-- The ends of an enumeration, of a ring's closing, of a link and of a loopback (16 R464, R482, R483, R487, R490). -/
def Obligations.ChainLinkEventsAct : Prop :=
  ∀ (s : State) (dt : Nat) (beyond : Bool),
  let d := (s.turn dt).dev
  let c := d.chain
  let n := min c.reachB 62
  (c.head = true → c.enumLeft = some 0 → c.enumEndAt ≤ d.now → d.atBoundary = true →
    ∃ t, Sys2Proof.Machine.exec (.enumerationDone { dt := dt, beyond := beyond }) s = .next t ∧ t.dev.chain.enumLeft = none ∧
      t.dev.chain.enumerated = true ∧ t.dev.chain.count = n ∧ t.dev.chain.unreachable = [] ∧
      (c.broken = false → c.ring ≠ .split → d.ctl.por = false →
        Logged d [(0x0901, 0xFF, [b8 n, b8 (if c.expect_ = 255 ∨ c.expect_ = n then 1 else 0),
          b8 (if n = 62 ∧ beyond = true then 1 else 0)])] t)) ∧
  (c.head = false ∨ c.enumLeft ≠ some 0 ∨ d.now < c.enumEndAt ∨ d.atBoundary = false →
    ∃ t, Sys2Proof.Machine.exec (.enumerationDone { dt := dt, beyond := beyond }) s = .next t ∧ t.dev = d) ∧
  (c.ring = .closing → c.closingAt + 8 * 30720 ≤ d.now → d.ctl.por = false →
    (8 ≤ c.returned →
      ∃ t, Sys2Proof.Machine.exec (.ringCloseResult dt () ()) s = .next t ∧ t.dev.chain.ring = .closed ∧ Logged d [(0x0907, 0xFF, [])] t) ∧
    (c.returned < 8 →
      ∃ t, Sys2Proof.Machine.exec (.ringCloseResult dt () ()) s = .next t ∧ t.dev.chain.ring = .open_ ∧
        Logged d [(0x0909, 0xFF, [(c.backHop.map b8).getD 0xFF])] t)) ∧
  ((c.ring ≠ .closing ∨ d.now < c.closingAt + 8 * 30720) →
    ∃ t, Sys2Proof.Machine.exec (.ringCloseResult dt () ()) s = .next t ∧ t.dev.chain = c) ∧
  (∀ p : AkPort, (c.ports.get (portNo p)).missRun < 4 → ∃ t, Sys2Proof.Machine.exec (.linkDown dt p) s = .next t ∧ t.dev = d) ∧
  (∀ p : AkPort, 4 ≤ (c.ports.get (portNo p)).missRun →
    (c.ports.get (portNo p)).up = true ∨ c.head = true ∧ p = .a ∧ c.ring = .closed →
    ∃ t, Sys2Proof.Machine.exec (.linkDown dt p) s = .next t ∧ (t.dev.chain.ports.get (portNo p)).up = false ∧
      (t.dev.chain.ports.get (portNo p)).goodRun = 0 ∧
      (c.head = true → p = .a → c.ring = .closed → t.dev.chain.ring = .split ∧ t.dev.chain.sendA = true ∧ t.dev.chain.broken = true) ∧
      ((c.ports.get (portNo p)).up = true → c.head = false ∨ p = .b → d.ctl.por = false → t.dev.chain.ring = c.ring ∧ Logged d [(0x0904, 0x60 + (portNo p).val, [])] t)) ∧
  (∀ (p : AkPort) (r : CheckResult), (c.ports.get (portNo p)).checking = true →
    (c.ports.get (portNo p)).checkAt + 4 * 30720 ≤ d.now →
    ∃ t, Sys2Proof.Machine.exec (.hopLoopbackDone dt p r) s = .next t ∧ (t.dev.chain.ports.get (portNo p)).checking = false ∧
      (t.dev.chain.ports.get (portNo p)).retired = ((c.ports.get (portNo p)).retired || r == .failed) ∧
      (r = .failed → (t.dev.chain.ports.get (portNo p)).up = false))

/-- Breaks: a device that stays unheard is unreachable and its packets are answered, a device without frames for
LINK_TIMEOUT leaves CONDUCTED and for T_ACAP becomes a cappella, and the tokens of a device long unheard return (16
R475, R480, R485, R486). What the spec leaves open in it is the model's choice: log entries 99, 107. -/
def Obligations.ChainBreaksAct : Prop :=
  ∀ (s : State) (dt addr : Nat),
  let d := (s.turn dt).dev
  let c := d.chain
  (c.head = true → c.enumerated = true → 1 ≤ addr → addr ≤ c.count → addr ∉ c.unreachable → d.lastHeard addr + d.linkTime ≤ d.now →
    ∃ t, Sys2Proof.Machine.exec (.deviceUnreachable dt addr) s = .next t ∧ t.dev.chain.unreachable = c.unreachable ++ [addr] ∧
      t.dev.chain.broken = true ∧ t.dev.chain.outstanding = c.outstanding.filter (fun o => o.addr ≠ addr) ∧
      (∀ o : Outstanding, c.outstanding.filter (fun o => o.addr = addr) = [o] →
        t.dev.port.replies = (d.port.push
          { src := addr, opc := o.opc, tag := o.tag, status := stUnreachable, data := [], settle := none }).replies)) ∧
  (c.head = false → c.addr = some addr → c.linkTimeout = false → d.chainLive = true → d.deadFor d.linkTime = true →
    ∃ t, Sys2Proof.Machine.exec (.linkTimeout dt) s = .next t ∧ t.dev.chain.linkTimeout = true ∧ t.dev.chain.broken = true ∧
      t.dev.port.pendingDb = [] ∧ t.dev.ctl.mode = (if d.ctl.mode = .conducted then .fallback else d.ctl.mode) ∧
      (d.ctl.mode ≠ .conducted → Logged d [(0x0906, addr, [])] t)) ∧
  (c.head = false → c.addr = some addr → c.linkTimeout = true → d.ctl.mode = .fallback → d.deadFor d.acapTime = true →
    ∃ t, Sys2Proof.Machine.exec (.chainAcap dt) s = .next t ∧ t.dev.ctl.mode = .acappella ∧ t.dev.par.live = []) ∧
  (c.head = true → addr ≠ 0 → d.lastHeard addr + 2 * d.linkTime ≤ d.now →
    ∃ t, Sys2Proof.Machine.exec (.breathReclaim dt addr) s = .next t ∧
      t.dev.chain.holders = c.holders.filter (fun h => h.1 ≠ addr) ∧
      (∀ (n : Fin 15) (k : Nat), c.holders.filter (fun h => h.1 = addr && 0 < h.2.2) = [(addr, n.val + 1, k)] → d.ctl.por = false →
        (t.dev.chain.pools.get n).outstanding = (c.pools.get n).outstanding - k ∧
        Logged d [(0x090C, addr, [b8 (n.val + 1), b8 k])] t))

/-! ### The data flash (14) -/

/-- Raw operations: a program writes its words and NV_DONE is logged, or the word that fails its readback ends it; an
erase leaves the sector in hand reading erased, with its count one more, and goes on to the next sector or ends; it
waits while an append suspends it (14 R385, R386, R388, R391 to R393, R410, R411). What the spec leaves open in it is the model's choice: log entry 10. -/
def Obligations.RawOperationsEnd : Prop :=
  ∀ (s : State) (dt : Nat),
  let d := (s.turn dt).dev
  let o := d.nv.op
  o.busy = true →
  (o.kind = 1 → o.total ≤ d.nv.wordsDone d.now →
    ∃ t, Sys2Proof.Machine.exec (.nvProgramDone dt none) s = .next t ∧ t.dev.nv.op.busy = false ∧ t.dev.nv.op.result = 0 ∧
      t.dev.nv.op.done = o.total ∧ t.dev.nv.raw = (d.nv.putWords o.total).raw ∧
      (d.ctl.por = false → Logged d [(0x0701, 0xFF, [1, 0] ++ leBytes 4 o.addr)] t) ∧
      (o.total = 1 → o.data.length = 8 → ∀ a, cellRead t.dev.nv.raw a =
        if o.addr ≤ a ∧ a < o.addr + 8 then o.data.getD (a - o.addr) 0 else cellRead d.nv.raw a)) ∧
  (∀ k : Nat, o.kind = 1 → k < o.total → k < d.nv.wordsDone d.now → d.ctl.por = false →
    ∃ t, Sys2Proof.Machine.exec (.nvProgramDone dt (some k)) s = .next t ∧ t.dev.nv.op.busy = false ∧ t.dev.nv.op.result = 2 ∧
      t.dev.nv.op.done = k ∧ t.dev.nv.op.failAddr = o.addr + 8 * k ∧
      t.dev.nv.checks = d.nv.checks ++ [(0x80 + (o.addr + 8 * k) / 4096, none, d.now)] ∧
      Logged d [(0x0702, 0x80 + (o.addr + 8 * k) / 4096, leBytes 4 (o.addr + 8 * k)),
        (0x0701, 0xFF, [1, 2] ++ leBytes 4 o.addr)] t) ∧
  (∀ (k : Fin 16) (rest : List Nat), o.kind = 2 → o.sectors = k.val :: rest → d.nv.gcServed = true → o.startedAt ≤ d.now →
    ∃ t, Sys2Proof.Machine.exec (.nvEraseSectorDone dt true) s = .next t ∧ t.dev.nv.op.done = o.done + 1 ∧
      t.dev.nv.rawErases.get k = stick 32 (d.nv.rawErases.get k + 1) ∧ t.dev.nv.undefinedSectors.getLsbD k.val = false ∧
      (∀ a, cellRead t.dev.nv.raw a = if a / 4096 = k.val then 0xFF else cellRead d.nv.raw a) ∧
      (rest = [] → t.dev.nv.op.busy = false ∧ t.dev.nv.op.result = 0) ∧
      (rest ≠ [] → t.dev.nv.op.busy = true ∧ t.dev.nv.op.sectors = rest)) ∧
  (∀ (k : Fin 16) (rest : List Nat), o.kind = 2 → o.sectors = k.val :: rest → d.nv.gcServed = true → o.startedAt ≤ d.now →
    ∃ t, Sys2Proof.Machine.exec (.nvEraseSectorDone dt false) s = .next t ∧ t.dev.nv.op.busy = false ∧ t.dev.nv.op.result = 2 ∧
      t.dev.nv.op.done = o.done ∧ t.dev.nv.op.failAddr / 4096 = k.val ∧
      t.dev.nv.checks = d.nv.checks ++ [(0x80 + k.val, none, d.now)]) ∧
  (o.kind = 2 → d.nv.gcServed = false ∨ d.now < o.startedAt → ∀ verified : Bool,
    ∃ t, Sys2Proof.Machine.exec (.nvEraseSectorDone dt verified) s = .next t ∧ t.dev = d)

/-- The record store: an append in hand reaches its sector, whole or torn; a check of a sector ends; garbage collection
begins where it is due, copies the live records of its victim one by one, makes again a copy that fails, and erases the
victim when all have passed; no flash work starts below the flash floor or in step 5 of a power-down; and the scan
opens the store (14 R385, R400 to R402, R411, 17 R491, R498, 02 R44). What the spec leaves open in it is the model's
choice: log entries 20, 23. -/
def Obligations.RecordStoreEventsAct : Prop :=
  ∀ (s : State) (dt : Nat),
  let d := (s.turn dt).dev
  (d.flashStill = true → (∀ verified : Bool, ∃ t, Sys2Proof.Machine.exec (.recordAppendDone dt verified) s = .next t ∧ t.dev = d) ∧
    ∀ verified : Bool, ∃ t, Sys2Proof.Machine.exec (.garbageCollection { dt := dt, verified := verified }) s = .next t ∧ t.dev = d) ∧
  (∀ (a : Append) (k : Fin 16), d.flashStill = false → d.nv.serving = some a → d.nv.servedBy a ≤ d.now →
    d.nv.openSector = some k → (d.nv.sectors.get k).used + a.size ≤ 8192 →
    ∃ t, Sys2Proof.Machine.exec (.recordAppendDone dt true) s = .next t ∧ t.dev.nv.appends = d.nv.appends.erase a ∧
      (t.dev.nv.sectors.get k).recs = (d.nv.sectors.get k).recs ++ [a.rec_] ∧
      ∀ j, j ≠ k → t.dev.nv.sectors.get j = d.nv.sectors.get j) ∧
  (∀ (a : Append) (k : Fin 16), d.flashStill = false → d.nv.serving = some a → d.nv.servedBy a ≤ d.now →
    d.nv.openSector = some k → (d.nv.sectors.get k).used + a.size ≤ 8192 →
    ∃ t, Sys2Proof.Machine.exec (.recordAppendDone dt false) s = .next t ∧
      (∃ w, w < a.size / 8 ∧ (t.dev.nv.sectors.get k).recs = (d.nv.sectors.get k).recs ++
        [{ a.rec_ with torn := true, bad := some (w, false) }]) ∧
      t.dev.nv.checks = d.nv.checks ++ [(0x70 + k.val, some a, d.now)]) ∧
  (∀ (unit start : Nat) (after : Option Append) (rest : List (Nat × Option Append × Nat)) (r : CheckResult),
    d.nv.checks = (unit, after, start) :: rest → start + msec ≤ d.now →
    ∃ t, Sys2Proof.Machine.exec (.flashCheckDone dt r) s = .next t ∧ t.dev.nv.checks = rest ∧
      (r = .failed → unit < 0x80 → t.dev.nv.recRetired = d.nv.recRetired ||| BitVec.ofNat 16 (2 ^ (unit % 16))) ∧
      (r = .failed → 0x80 ≤ unit → t.dev.nv.rawRetired = d.nv.rawRetired ||| BitVec.ofNat 16 (2 ^ (unit % 16))) ∧
      (r ≠ .failed → t.dev.nv.recRetired = d.nv.recRetired ∧ t.dev.nv.rawRetired = d.nv.rawRetired) ∧
      (∀ a, r = .passed → d.therm.coldBlock = false → after = some a →
        t.dev.nv.appends = (d.nv.pause d.now).appends ++ [{ a with rseq := d.nv.nextRseq, words := 0 }] ∧ t.dev.nv.nextRseq = d.nv.nextRseq + 1)) ∧
  (∀ verified : Bool, d.nv.gc = none → d.flashStill = false →
    (∀ k, d.gcDue = true → d.nv.victim = some k →
      ∃ t, Sys2Proof.Machine.exec (.garbageCollection { dt := dt, verified := verified }) s = .next t ∧
        t.dev.nv.gc = some { victim := k, todo := d.nv.toCopy k, words := 0, at_ := d.now } ∧ t.dev.nv.sectors = d.nv.sectors) ∧
    (d.gcDue = false ∨ d.nv.victim = none →
      ∃ t, Sys2Proof.Machine.exec (.garbageCollection { dt := dt, verified := verified }) s = .next t ∧ t.dev = d)) ∧
  (∀ (g : GcRun) (r : Rec) (rest : List Rec) (k : Fin 16), d.nv.gc = some g → g.todo = r :: rest → d.flashStill = false →
    d.nv.gcServed = true → g.at_ + wordTime * (r.size / 8 - g.words) ≤ d.now → d.nv.openSector = some k →
    (d.nv.sectors.get k).used + r.size ≤ 8192 →
    (∃ t, Sys2Proof.Machine.exec (.garbageCollection { dt := dt, verified := true }) s = .next t ∧
      (t.dev.nv.sectors.get k).recs = (d.nv.sectors.get k).recs ++ [r] ∧
      (∀ j, j ≠ k → t.dev.nv.sectors.get j = d.nv.sectors.get j) ∧
      (rest = [] → d.nv.retiredRec g.victim.val = false → ∃ t0, t.dev.nv.gc = some { victim := g.victim, todo := [], words := 0, at_ := t0 })) ∧
    (∃ t w, Sys2Proof.Machine.exec (.garbageCollection { dt := dt, verified := false }) s = .next t ∧ w < r.size / 8 ∧
      (t.dev.nv.sectors.get k).recs = (d.nv.sectors.get k).recs ++ [{ r with torn := true, bad := some (w, false) }] ∧
      (t.dev.nv.gc.map (·.todo)) = some g.todo ∧ t.dev.nv.checks = d.nv.checks ++ [(0x70 + k.val, none, d.now)])) ∧
  (∀ g : GcRun, d.nv.gc = some g → g.todo = [] → d.flashStill = false → d.nv.gcServed = true → g.at_ ≤ d.now →
    (∃ t, Sys2Proof.Machine.exec (.garbageCollection { dt := dt, verified := true }) s = .next t ∧ t.dev.nv.gc = none ∧
      (t.dev.nv.sectors.get g.victim).st = .erased ∧ (t.dev.nv.sectors.get g.victim).recs = [] ∧
      (t.dev.nv.sectors.get g.victim).erases = stick 32 ((d.nv.sectors.get g.victim).erases + 1) ∧
      ∀ j, j ≠ g.victim → t.dev.nv.sectors.get j = d.nv.sectors.get j) ∧
    (∃ t, Sys2Proof.Machine.exec (.garbageCollection { dt := dt, verified := false }) s = .next t ∧ t.dev.nv.gc = none ∧
      (t.dev.nv.sectors.get g.victim).st = .dirty ∧
      t.dev.nv.checks = d.nv.checks ++ [(0x70 + g.victim.val, none, d.now)])) ∧
  (d.ctl.liveAt.isSome = true → d.nv.scanned = false →
    ∃ t, Sys2Proof.Machine.exec (.recScanDone dt ()) s = .next t ∧ t.dev.nv.scanned = true ∧
      (d.therm.coldBlock = false → t.dev.sc.held = []) ∧ (d.therm.coldBlock = true → t.dev.sc.held = d.sc.held))

/-! ### Completion -/

/-- Where ADC_READ_BUFFER, CONVERT_NOW and the actions of ADC_ENGINE_CTRL complete, for every engine and every state of the
engines, and what each answers; where a clock loss, an unmute and a freeze complete (11 R315, R327 to R329, 12 R338,
R340, R350). -/
def Obligations.ConverterAndWaveCommandsComplete : Prop :=
  (∀ (s : State) (tag e ctrl lo hi : Byte), s.accepts 0x40 [e, ctrl, lo, hi] → e.toNat < 4 → field [lo, hi] 0 2 ≤ 2034 →
    ∃ t data, Sys2Proof.Machine.exec (.adcReadBuffer ⟨0, tag, [e, ctrl, lo, hi]⟩) s = .next t ∧ Answered s t 0x40 tag 0 data ∧
      data.take 1 = [e]) ∧
  (∀ (s : State) (tag m : Byte), s.accepts 0x41 [m] → m ≠ 0 →
    let x (e : EngineId) := s.dev.conv.engines.get e
    let named (e : EngineId) : Bool := m.toNat.testBit e.val
    let refused (e : EngineId) : Bool := named e && (!s.dev.engEnabled e || (x e).paused)
    let dropped (e : EngineId) : Bool := named e && !refused e && (s.dev.engTrig e = 0 || (x e).todo ≠ [])
    let started (e : EngineId) : Bool := named e && !refused e && !dropped e
    ∃ t, Sys2Proof.Machine.exec (.convertNow ⟨0, tag, [m]⟩) s = .next t ∧
      Answered s t 0x41 tag 0 ([b8 (packBits ((idx 4).map started)), b8 (packBits ((idx 4).map dropped)),
        b8 (packBits ((idx 4).map refused))] ++
        (idx 4).flatMap fun e => leBytes 4 (if started e then (x e).scanNo else 0xFFFFFFFF)) ∧
      ∀ e, (t.dev.conv.engines.get e).drops = if dropped e then stick 16 ((x e).drops + 1) else (x e).drops) ∧
  (∀ (s : State) (tag : Byte) (m : BitVec 4),
    let result (f : EngineId → Bool) (g : EngineId → Bool) : List Byte := (idx 4).map fun e =>
      if !m.getLsbD e.val then 1 else if f e then 2 else if g e then 1 else 0
    (s.accepts 0x42 (engineBytes m 1) →
      ∃ t, Sys2Proof.Machine.exec (.adcEnginePause ⟨0, tag⟩ m) s = .next t ∧
        Answered s t 0x42 tag 0 (result (fun e => (s.dev.engInputs e).any (· < 96)) fun e => (s.dev.conv.engines.get e).paused)) ∧
    (s.accepts 0x42 (engineBytes m 2) →
      ∃ t, Sys2Proof.Machine.exec (.adcEngineRun ⟨0, tag⟩ m) s = .next t ∧
        Answered s t 0x42 tag 0 (result (fun e => !s.dev.engEnabled e) fun e => !(s.dev.conv.engines.get e).paused)) ∧
    (s.accepts 0x42 (engineBytes m 3) →
      ∃ t, Sys2Proof.Machine.exec (.adcEngineFlush ⟨0, tag⟩ m) s = .next t ∧
        Answered s t 0x42 tag 0 (result (fun e => !s.dev.engEnabled e) fun _ => false))) ∧
  ∀ (s : State) (dt : Nat),
  let d := (s.turn dt).dev
  let w := d.wave
  (∀ cause : WaveCause, (w.st = .running ∨ w.st = .acquiring) → d.waveMaster = false → cause ≠ .boundaries →
    ∃ t, Sys2Proof.Machine.exec (.waveLoss dt cause) s = .next t ∧ t.dev.wave.st = .lost ∧
      t.dev.wave.losses = stick 16 (w.losses + 1) ∧ t.dev.wave.frameErr = w.frameErr) ∧
  (w.st = .acquiring → w.marked = true → w.blockAt = some d.now → 192 ≤ w.stable →
    ∃ t, Sys2Proof.Machine.exec (.waveUnmute dt) s = .next t ∧ t.dev.wave.st = .running ∧ t.dev.wave.stable = w.stable ∧
      t.dev.wave.frame = w.frame) ∧
  (∀ k : Fin 16, (∃ v code post, (w.slots.get k).counting = some (0, v, code, post)) →
    ∃ t, Sys2Proof.Machine.exec (.waveFrozen dt k) s = .next t ∧ (t.dev.wave.slots.get k).frozen = true ∧
      (t.dev.wave.slots.get k).armed = none ∧ ∀ j, j ≠ k → t.dev.wave.slots.get j = w.slots.get j)
end

