-- ==== Sys2Proof/Laws/Tab.lean ====
section
/-! SUPPORT. The laws of `Tab`: what reading gives after each update, and when two tables are equal. -/

namespace Sys2Proof

variable {α β : Type} {n : Nat}

theorem Tab.ext_get {s t : Tab α n} (h : ∀ i, s.get i = t.get i) : s = t := by
  obtain ⟨l, hl⟩ := s
  obtain ⟨m, hm⟩ := t
  have : l = m := by
    apply List.ext_get (by omega)
    intro i h1 h2
    have := h ⟨i, by omega⟩
    simpa [Tab.get] using this
  subst this
  rfl

@[simp] theorem Tab.get_fill (a : α) (i : Fin n) : (Tab.fill n a).get i = a := by
  simp [Tab.get, Tab.fill]

@[simp] theorem Tab.get_ofFn (f : Fin n → α) (i : Fin n) : (Tab.ofFn f).get i = f i := by
  simp [Tab.get, Tab.ofFn]

@[simp] theorem Tab.get_set_self (t : Tab α n) (i : Fin n) (a : α) : (t.set i a).get i = a := by
  simp [Tab.get, Tab.set]

theorem Tab.get_set_ne (t : Tab α n) {i j : Fin n} (a : α) (h : j ≠ i) :
    (t.set i a).get j = t.get j := by
  have hv : i.val ≠ j.val := fun e => h (Fin.ext e.symm)
  simp [Tab.get, Tab.set, hv]

@[simp] theorem Tab.get_modify_self (t : Tab α n) (i : Fin n) (f : α → α) :
    (t.modify i f).get i = f (t.get i) := by
  simp [Tab.modify]

theorem Tab.get_modify_ne (t : Tab α n) {i j : Fin n} (f : α → α) (h : j ≠ i) :
    (t.modify i f).get j = t.get j :=
  Tab.get_set_ne t _ h

@[simp] theorem Tab.get_map (t : Tab α n) (f : α → β) (i : Fin n) : (t.map f).get i = f (t.get i) := by
  simp [Tab.get, Tab.map]

@[simp] theorem Tab.get_mapIdx (t : Tab α n) (f : Fin n → α → β) (i : Fin n) :
    (t.mapIdx f).get i = f i (t.get i) := by
  simp [Tab.mapIdx]

end Sys2Proof
end

