-- ==== Sys2Proof/Laws/State.lean ====
section
/-! SUPPORT. One lemma per field per update: what each named change of the device leaves in each field. -/

namespace Sys2Proof.Machine
open Sys2Proof

@[simp] theorem Dev.advance_headPin (d : Dev) (n : Nat) : (d.advance n).headPin = d.headPin := rfl
@[simp] theorem Dev.advance_time (d : Dev) (n : Nat) : (d.advance n).time = { d.time with now := d.time.now + 8 * n, tbc := d.time.tbc + (8 * n : Nat), drift := d.time.drifted (8 * n) % 8000000 } := rfl
@[simp] theorem Dev.advance_ctl (d : Dev) (n : Nat) : (d.advance n).ctl = d.ctl := rfl
@[simp] theorem Dev.advance_ka (d : Dev) (n : Nat) : (d.advance n).ka = d.ka := rfl
@[simp] theorem Dev.advance_port (d : Dev) (n : Nat) : (d.advance n).port = d.port := rfl
@[simp] theorem Dev.advance_log (d : Dev) (n : Nat) : (d.advance n).log = d.log := rfl
@[simp] theorem Dev.advance_par (d : Dev) (n : Nat) : (d.advance n).par = d.par := rfl
@[simp] theorem Dev.advance_voices (d : Dev) (n : Nat) : (d.advance n).voices = d.voices := rfl
@[simp] theorem Dev.advance_banks (d : Dev) (n : Nat) : (d.advance n).banks = d.banks := rfl
@[simp] theorem Dev.advance_staggers (d : Dev) (n : Nat) : (d.advance n).staggers = d.staggers := rfl
@[simp] theorem Dev.advance_lh (d : Dev) (n : Nat) : (d.advance n).lh = d.lh := rfl
@[simp] theorem Dev.advance_cues (d : Dev) (n : Nat) : (d.advance n).cues = d.cues := rfl
@[simp] theorem Dev.advance_tally (d : Dev) (n : Nat) : (d.advance n).tally = d.tally := rfl
@[simp] theorem Dev.advance_odo (d : Dev) (n : Nat) : (d.advance n).odo = d.odo := rfl
@[simp] theorem Dev.advance_sc (d : Dev) (n : Nat) : (d.advance n).sc = d.sc := rfl
@[simp] theorem Dev.advance_conv (d : Dev) (n : Nat) : (d.advance n).conv = d.conv := rfl
@[simp] theorem Dev.advance_wave (d : Dev) (n : Nat) : (d.advance n).wave = d.wave := rfl
@[simp] theorem Dev.advance_therm (d : Dev) (n : Nat) : (d.advance n).therm = d.therm := rfl
@[simp] theorem Dev.advance_nv (d : Dev) (n : Nat) : (d.advance n).nv = d.nv := rfl
@[simp] theorem Dev.advance_score (d : Dev) (n : Nat) : (d.advance n).score = { d.score with own := d.score.own + (d.time.scoreTicks (8 * n)).toNat, tbc := if d.score.locked then d.score.tbc + d.time.scoreTicks (8 * n) else d.score.tbc } := rfl
@[simp] theorem Dev.advance_link (d : Dev) (n : Nat) : (d.advance n).link = d.link := rfl
@[simp] theorem Dev.advance_chain (d : Dev) (n : Nat) : (d.advance n).chain = d.chain := rfl
@[simp] theorem Dev.advance_patch (d : Dev) (n : Nat) : (d.advance n).patch = d.patch := rfl
@[simp] theorem Dev.advance_pd (d : Dev) (n : Nat) : (d.advance n).pd = d.pd := rfl
@[simp] theorem Dev.advance_slotOffs (d : Dev) (n : Nat) : (d.advance n).slotOffs = d.slotOffs := rfl
@[simp] theorem Dev.advance_slotFaults (d : Dev) (n : Nat) : (d.advance n).slotFaults = d.slotFaults := rfl
@[simp] theorem Dev.advance_edges (d : Dev) (n : Nat) : (d.advance n).edges = d.edges := rfl
@[simp] theorem Dev.advance_found (d : Dev) (n : Nat) : (d.advance n).found = d.found := rfl

@[simp] theorem Dev.raiseIrq_headPin (d : Dev) : (d.raiseIrq).headPin = d.headPin := rfl
@[simp] theorem Dev.raiseIrq_time (d : Dev) : (d.raiseIrq).time = d.time := rfl
@[simp] theorem Dev.raiseIrq_ctl (d : Dev) : (d.raiseIrq).ctl = d.ctl := rfl
@[simp] theorem Dev.raiseIrq_ka (d : Dev) : (d.raiseIrq).ka = d.ka := rfl
@[simp] theorem Dev.raiseIrq_port (d : Dev) : (d.raiseIrq).port = { d.port with irqn := d.port.irqn || d.port.isOpen, newsNow := d.port.newsNow || d.port.isOpen } := rfl
@[simp] theorem Dev.raiseIrq_log (d : Dev) : (d.raiseIrq).log = d.log := rfl
@[simp] theorem Dev.raiseIrq_par (d : Dev) : (d.raiseIrq).par = d.par := rfl
@[simp] theorem Dev.raiseIrq_voices (d : Dev) : (d.raiseIrq).voices = d.voices := rfl
@[simp] theorem Dev.raiseIrq_banks (d : Dev) : (d.raiseIrq).banks = d.banks := rfl
@[simp] theorem Dev.raiseIrq_staggers (d : Dev) : (d.raiseIrq).staggers = d.staggers := rfl
@[simp] theorem Dev.raiseIrq_lh (d : Dev) : (d.raiseIrq).lh = d.lh := rfl
@[simp] theorem Dev.raiseIrq_cues (d : Dev) : (d.raiseIrq).cues = d.cues := rfl
@[simp] theorem Dev.raiseIrq_tally (d : Dev) : (d.raiseIrq).tally = d.tally := rfl
@[simp] theorem Dev.raiseIrq_odo (d : Dev) : (d.raiseIrq).odo = d.odo := rfl
@[simp] theorem Dev.raiseIrq_sc (d : Dev) : (d.raiseIrq).sc = d.sc := rfl
@[simp] theorem Dev.raiseIrq_conv (d : Dev) : (d.raiseIrq).conv = d.conv := rfl
@[simp] theorem Dev.raiseIrq_wave (d : Dev) : (d.raiseIrq).wave = d.wave := rfl
@[simp] theorem Dev.raiseIrq_therm (d : Dev) : (d.raiseIrq).therm = d.therm := rfl
@[simp] theorem Dev.raiseIrq_nv (d : Dev) : (d.raiseIrq).nv = d.nv := rfl
@[simp] theorem Dev.raiseIrq_score (d : Dev) : (d.raiseIrq).score = d.score := rfl
@[simp] theorem Dev.raiseIrq_link (d : Dev) : (d.raiseIrq).link = d.link := rfl
@[simp] theorem Dev.raiseIrq_chain (d : Dev) : (d.raiseIrq).chain = d.chain := rfl
@[simp] theorem Dev.raiseIrq_patch (d : Dev) : (d.raiseIrq).patch = d.patch := rfl
@[simp] theorem Dev.raiseIrq_pd (d : Dev) : (d.raiseIrq).pd = d.pd := rfl
@[simp] theorem Dev.raiseIrq_slotOffs (d : Dev) : (d.raiseIrq).slotOffs = d.slotOffs := rfl
@[simp] theorem Dev.raiseIrq_slotFaults (d : Dev) : (d.raiseIrq).slotFaults = d.slotFaults := rfl
@[simp] theorem Dev.raiseIrq_edges (d : Dev) : (d.raiseIrq).edges = d.edges := rfl
@[simp] theorem Dev.raiseIrq_found (d : Dev) : (d.raiseIrq).found = d.found := rfl

@[simp] theorem Dev.reply_headPin (d : Dev) (r : Reply) : (d.reply r).headPin = d.headPin := rfl
@[simp] theorem Dev.reply_time (d : Dev) (r : Reply) : (d.reply r).time = d.time := rfl
@[simp] theorem Dev.reply_ctl (d : Dev) (r : Reply) : (d.reply r).ctl = d.ctl := rfl
@[simp] theorem Dev.reply_ka (d : Dev) (r : Reply) : (d.reply r).ka = d.ka := rfl
@[simp] theorem Dev.reply_port (d : Dev) (r : Reply) : (d.reply r).port = d.port.push r := rfl
@[simp] theorem Dev.reply_log (d : Dev) (r : Reply) : (d.reply r).log = d.log := rfl
@[simp] theorem Dev.reply_par (d : Dev) (r : Reply) : (d.reply r).par = d.par := rfl
@[simp] theorem Dev.reply_voices (d : Dev) (r : Reply) : (d.reply r).voices = d.voices := rfl
@[simp] theorem Dev.reply_banks (d : Dev) (r : Reply) : (d.reply r).banks = d.banks := rfl
@[simp] theorem Dev.reply_staggers (d : Dev) (r : Reply) : (d.reply r).staggers = d.staggers := rfl
@[simp] theorem Dev.reply_lh (d : Dev) (r : Reply) : (d.reply r).lh = d.lh := rfl
@[simp] theorem Dev.reply_cues (d : Dev) (r : Reply) : (d.reply r).cues = d.cues := rfl
@[simp] theorem Dev.reply_tally (d : Dev) (r : Reply) : (d.reply r).tally = d.tally := rfl
@[simp] theorem Dev.reply_odo (d : Dev) (r : Reply) : (d.reply r).odo = d.odo := rfl
@[simp] theorem Dev.reply_sc (d : Dev) (r : Reply) : (d.reply r).sc = d.sc := rfl
@[simp] theorem Dev.reply_conv (d : Dev) (r : Reply) : (d.reply r).conv = d.conv := rfl
@[simp] theorem Dev.reply_wave (d : Dev) (r : Reply) : (d.reply r).wave = d.wave := rfl
@[simp] theorem Dev.reply_therm (d : Dev) (r : Reply) : (d.reply r).therm = d.therm := rfl
@[simp] theorem Dev.reply_nv (d : Dev) (r : Reply) : (d.reply r).nv = d.nv := rfl
@[simp] theorem Dev.reply_score (d : Dev) (r : Reply) : (d.reply r).score = d.score := rfl
@[simp] theorem Dev.reply_link (d : Dev) (r : Reply) : (d.reply r).link = d.link := rfl
@[simp] theorem Dev.reply_chain (d : Dev) (r : Reply) : (d.reply r).chain = d.chain := rfl
@[simp] theorem Dev.reply_patch (d : Dev) (r : Reply) : (d.reply r).patch = d.patch := rfl
@[simp] theorem Dev.reply_pd (d : Dev) (r : Reply) : (d.reply r).pd = d.pd := rfl
@[simp] theorem Dev.reply_slotOffs (d : Dev) (r : Reply) : (d.reply r).slotOffs = d.slotOffs := rfl
@[simp] theorem Dev.reply_slotFaults (d : Dev) (r : Reply) : (d.reply r).slotFaults = d.slotFaults := rfl
@[simp] theorem Dev.reply_edges (d : Dev) (r : Reply) : (d.reply r).edges = d.edges := rfl
@[simp] theorem Dev.reply_found (d : Dev) (r : Reply) : (d.reply r).found = d.found := rfl

@[simp] theorem Dev.setChain_headPin (d : Dev) (f : Chain → Chain) : (d.setChain f).headPin = d.headPin := rfl
@[simp] theorem Dev.setChain_time (d : Dev) (f : Chain → Chain) : (d.setChain f).time = d.time := rfl
@[simp] theorem Dev.setChain_ctl (d : Dev) (f : Chain → Chain) : (d.setChain f).ctl = d.ctl := rfl
@[simp] theorem Dev.setChain_ka (d : Dev) (f : Chain → Chain) : (d.setChain f).ka = d.ka := rfl
@[simp] theorem Dev.setChain_port (d : Dev) (f : Chain → Chain) : (d.setChain f).port = d.port := rfl
@[simp] theorem Dev.setChain_log (d : Dev) (f : Chain → Chain) : (d.setChain f).log = d.log := rfl
@[simp] theorem Dev.setChain_par (d : Dev) (f : Chain → Chain) : (d.setChain f).par = d.par := rfl
@[simp] theorem Dev.setChain_voices (d : Dev) (f : Chain → Chain) : (d.setChain f).voices = d.voices := rfl
@[simp] theorem Dev.setChain_banks (d : Dev) (f : Chain → Chain) : (d.setChain f).banks = d.banks := rfl
@[simp] theorem Dev.setChain_staggers (d : Dev) (f : Chain → Chain) : (d.setChain f).staggers = d.staggers := rfl
@[simp] theorem Dev.setChain_lh (d : Dev) (f : Chain → Chain) : (d.setChain f).lh = d.lh := rfl
@[simp] theorem Dev.setChain_cues (d : Dev) (f : Chain → Chain) : (d.setChain f).cues = d.cues := rfl
@[simp] theorem Dev.setChain_tally (d : Dev) (f : Chain → Chain) : (d.setChain f).tally = d.tally := rfl
@[simp] theorem Dev.setChain_odo (d : Dev) (f : Chain → Chain) : (d.setChain f).odo = d.odo := rfl
@[simp] theorem Dev.setChain_sc (d : Dev) (f : Chain → Chain) : (d.setChain f).sc = d.sc := rfl
@[simp] theorem Dev.setChain_conv (d : Dev) (f : Chain → Chain) : (d.setChain f).conv = d.conv := rfl
@[simp] theorem Dev.setChain_wave (d : Dev) (f : Chain → Chain) : (d.setChain f).wave = d.wave := rfl
@[simp] theorem Dev.setChain_therm (d : Dev) (f : Chain → Chain) : (d.setChain f).therm = d.therm := rfl
@[simp] theorem Dev.setChain_nv (d : Dev) (f : Chain → Chain) : (d.setChain f).nv = d.nv := rfl
@[simp] theorem Dev.setChain_score (d : Dev) (f : Chain → Chain) : (d.setChain f).score = d.score := rfl
@[simp] theorem Dev.setChain_link (d : Dev) (f : Chain → Chain) : (d.setChain f).link = d.link := rfl
@[simp] theorem Dev.setChain_chain (d : Dev) (f : Chain → Chain) : (d.setChain f).chain = f d.chain := rfl
@[simp] theorem Dev.setChain_patch (d : Dev) (f : Chain → Chain) : (d.setChain f).patch = d.patch := rfl
@[simp] theorem Dev.setChain_pd (d : Dev) (f : Chain → Chain) : (d.setChain f).pd = d.pd := rfl
@[simp] theorem Dev.setChain_slotOffs (d : Dev) (f : Chain → Chain) : (d.setChain f).slotOffs = d.slotOffs := rfl
@[simp] theorem Dev.setChain_slotFaults (d : Dev) (f : Chain → Chain) : (d.setChain f).slotFaults = d.slotFaults := rfl
@[simp] theorem Dev.setChain_edges (d : Dev) (f : Chain → Chain) : (d.setChain f).edges = d.edges := rfl
@[simp] theorem Dev.setChain_found (d : Dev) (f : Chain → Chain) : (d.setChain f).found = d.found := rfl

@[simp] theorem Dev.setCues_headPin (d : Dev) (f : CueQueue → CueQueue) : (d.setCues f).headPin = d.headPin := rfl
@[simp] theorem Dev.setCues_time (d : Dev) (f : CueQueue → CueQueue) : (d.setCues f).time = d.time := rfl
@[simp] theorem Dev.setCues_ctl (d : Dev) (f : CueQueue → CueQueue) : (d.setCues f).ctl = d.ctl := rfl
@[simp] theorem Dev.setCues_ka (d : Dev) (f : CueQueue → CueQueue) : (d.setCues f).ka = d.ka := rfl
@[simp] theorem Dev.setCues_port (d : Dev) (f : CueQueue → CueQueue) : (d.setCues f).port = d.port := rfl
@[simp] theorem Dev.setCues_log (d : Dev) (f : CueQueue → CueQueue) : (d.setCues f).log = d.log := rfl
@[simp] theorem Dev.setCues_par (d : Dev) (f : CueQueue → CueQueue) : (d.setCues f).par = d.par := rfl
@[simp] theorem Dev.setCues_voices (d : Dev) (f : CueQueue → CueQueue) : (d.setCues f).voices = d.voices := rfl
@[simp] theorem Dev.setCues_banks (d : Dev) (f : CueQueue → CueQueue) : (d.setCues f).banks = d.banks := rfl
@[simp] theorem Dev.setCues_staggers (d : Dev) (f : CueQueue → CueQueue) : (d.setCues f).staggers = d.staggers := rfl
@[simp] theorem Dev.setCues_lh (d : Dev) (f : CueQueue → CueQueue) : (d.setCues f).lh = d.lh := rfl
@[simp] theorem Dev.setCues_cues (d : Dev) (f : CueQueue → CueQueue) : (d.setCues f).cues = f d.cues := rfl
@[simp] theorem Dev.setCues_tally (d : Dev) (f : CueQueue → CueQueue) : (d.setCues f).tally = d.tally := rfl
@[simp] theorem Dev.setCues_odo (d : Dev) (f : CueQueue → CueQueue) : (d.setCues f).odo = d.odo := rfl
@[simp] theorem Dev.setCues_sc (d : Dev) (f : CueQueue → CueQueue) : (d.setCues f).sc = d.sc := rfl
@[simp] theorem Dev.setCues_conv (d : Dev) (f : CueQueue → CueQueue) : (d.setCues f).conv = d.conv := rfl
@[simp] theorem Dev.setCues_wave (d : Dev) (f : CueQueue → CueQueue) : (d.setCues f).wave = d.wave := rfl
@[simp] theorem Dev.setCues_therm (d : Dev) (f : CueQueue → CueQueue) : (d.setCues f).therm = d.therm := rfl
@[simp] theorem Dev.setCues_nv (d : Dev) (f : CueQueue → CueQueue) : (d.setCues f).nv = d.nv := rfl
@[simp] theorem Dev.setCues_score (d : Dev) (f : CueQueue → CueQueue) : (d.setCues f).score = d.score := rfl
@[simp] theorem Dev.setCues_link (d : Dev) (f : CueQueue → CueQueue) : (d.setCues f).link = d.link := rfl
@[simp] theorem Dev.setCues_chain (d : Dev) (f : CueQueue → CueQueue) : (d.setCues f).chain = d.chain := rfl
@[simp] theorem Dev.setCues_patch (d : Dev) (f : CueQueue → CueQueue) : (d.setCues f).patch = d.patch := rfl
@[simp] theorem Dev.setCues_pd (d : Dev) (f : CueQueue → CueQueue) : (d.setCues f).pd = d.pd := rfl
@[simp] theorem Dev.setCues_slotOffs (d : Dev) (f : CueQueue → CueQueue) : (d.setCues f).slotOffs = d.slotOffs := rfl
@[simp] theorem Dev.setCues_slotFaults (d : Dev) (f : CueQueue → CueQueue) : (d.setCues f).slotFaults = d.slotFaults := rfl
@[simp] theorem Dev.setCues_edges (d : Dev) (f : CueQueue → CueQueue) : (d.setCues f).edges = d.edges := rfl
@[simp] theorem Dev.setCues_found (d : Dev) (f : CueQueue → CueQueue) : (d.setCues f).found = d.found := rfl

@[simp] theorem Dev.setNv_headPin (d : Dev) (f : Flash → Flash) : (d.setNv f).headPin = d.headPin := rfl
@[simp] theorem Dev.setNv_time (d : Dev) (f : Flash → Flash) : (d.setNv f).time = d.time := rfl
@[simp] theorem Dev.setNv_ctl (d : Dev) (f : Flash → Flash) : (d.setNv f).ctl = d.ctl := rfl
@[simp] theorem Dev.setNv_ka (d : Dev) (f : Flash → Flash) : (d.setNv f).ka = d.ka := rfl
@[simp] theorem Dev.setNv_port (d : Dev) (f : Flash → Flash) : (d.setNv f).port = d.port := rfl
@[simp] theorem Dev.setNv_log (d : Dev) (f : Flash → Flash) : (d.setNv f).log = d.log := rfl
@[simp] theorem Dev.setNv_par (d : Dev) (f : Flash → Flash) : (d.setNv f).par = d.par := rfl
@[simp] theorem Dev.setNv_voices (d : Dev) (f : Flash → Flash) : (d.setNv f).voices = d.voices := rfl
@[simp] theorem Dev.setNv_banks (d : Dev) (f : Flash → Flash) : (d.setNv f).banks = d.banks := rfl
@[simp] theorem Dev.setNv_staggers (d : Dev) (f : Flash → Flash) : (d.setNv f).staggers = d.staggers := rfl
@[simp] theorem Dev.setNv_lh (d : Dev) (f : Flash → Flash) : (d.setNv f).lh = d.lh := rfl
@[simp] theorem Dev.setNv_cues (d : Dev) (f : Flash → Flash) : (d.setNv f).cues = d.cues := rfl
@[simp] theorem Dev.setNv_tally (d : Dev) (f : Flash → Flash) : (d.setNv f).tally = d.tally := rfl
@[simp] theorem Dev.setNv_odo (d : Dev) (f : Flash → Flash) : (d.setNv f).odo = d.odo := rfl
@[simp] theorem Dev.setNv_sc (d : Dev) (f : Flash → Flash) : (d.setNv f).sc = d.sc := rfl
@[simp] theorem Dev.setNv_conv (d : Dev) (f : Flash → Flash) : (d.setNv f).conv = d.conv := rfl
@[simp] theorem Dev.setNv_wave (d : Dev) (f : Flash → Flash) : (d.setNv f).wave = d.wave := rfl
@[simp] theorem Dev.setNv_therm (d : Dev) (f : Flash → Flash) : (d.setNv f).therm = d.therm := rfl
@[simp] theorem Dev.setNv_nv (d : Dev) (f : Flash → Flash) : (d.setNv f).nv = f d.nv := rfl
@[simp] theorem Dev.setNv_score (d : Dev) (f : Flash → Flash) : (d.setNv f).score = d.score := rfl
@[simp] theorem Dev.setNv_link (d : Dev) (f : Flash → Flash) : (d.setNv f).link = d.link := rfl
@[simp] theorem Dev.setNv_chain (d : Dev) (f : Flash → Flash) : (d.setNv f).chain = d.chain := rfl
@[simp] theorem Dev.setNv_patch (d : Dev) (f : Flash → Flash) : (d.setNv f).patch = d.patch := rfl
@[simp] theorem Dev.setNv_pd (d : Dev) (f : Flash → Flash) : (d.setNv f).pd = d.pd := rfl
@[simp] theorem Dev.setNv_slotOffs (d : Dev) (f : Flash → Flash) : (d.setNv f).slotOffs = d.slotOffs := rfl
@[simp] theorem Dev.setNv_slotFaults (d : Dev) (f : Flash → Flash) : (d.setNv f).slotFaults = d.slotFaults := rfl
@[simp] theorem Dev.setNv_edges (d : Dev) (f : Flash → Flash) : (d.setNv f).edges = d.edges := rfl
@[simp] theorem Dev.setNv_found (d : Dev) (f : Flash → Flash) : (d.setNv f).found = d.found := rfl

@[simp] theorem Dev.setPatch_headPin (d : Dev) (f : Patch → Patch) : (d.setPatch f).headPin = d.headPin := rfl
@[simp] theorem Dev.setPatch_time (d : Dev) (f : Patch → Patch) : (d.setPatch f).time = d.time := rfl
@[simp] theorem Dev.setPatch_ctl (d : Dev) (f : Patch → Patch) : (d.setPatch f).ctl = d.ctl := rfl
@[simp] theorem Dev.setPatch_ka (d : Dev) (f : Patch → Patch) : (d.setPatch f).ka = d.ka := rfl
@[simp] theorem Dev.setPatch_port (d : Dev) (f : Patch → Patch) : (d.setPatch f).port = d.port := rfl
@[simp] theorem Dev.setPatch_log (d : Dev) (f : Patch → Patch) : (d.setPatch f).log = d.log := rfl
@[simp] theorem Dev.setPatch_par (d : Dev) (f : Patch → Patch) : (d.setPatch f).par = d.par := rfl
@[simp] theorem Dev.setPatch_voices (d : Dev) (f : Patch → Patch) : (d.setPatch f).voices = d.voices := rfl
@[simp] theorem Dev.setPatch_banks (d : Dev) (f : Patch → Patch) : (d.setPatch f).banks = d.banks := rfl
@[simp] theorem Dev.setPatch_staggers (d : Dev) (f : Patch → Patch) : (d.setPatch f).staggers = d.staggers := rfl
@[simp] theorem Dev.setPatch_lh (d : Dev) (f : Patch → Patch) : (d.setPatch f).lh = d.lh := rfl
@[simp] theorem Dev.setPatch_cues (d : Dev) (f : Patch → Patch) : (d.setPatch f).cues = d.cues := rfl
@[simp] theorem Dev.setPatch_tally (d : Dev) (f : Patch → Patch) : (d.setPatch f).tally = d.tally := rfl
@[simp] theorem Dev.setPatch_odo (d : Dev) (f : Patch → Patch) : (d.setPatch f).odo = d.odo := rfl
@[simp] theorem Dev.setPatch_sc (d : Dev) (f : Patch → Patch) : (d.setPatch f).sc = d.sc := rfl
@[simp] theorem Dev.setPatch_conv (d : Dev) (f : Patch → Patch) : (d.setPatch f).conv = d.conv := rfl
@[simp] theorem Dev.setPatch_wave (d : Dev) (f : Patch → Patch) : (d.setPatch f).wave = d.wave := rfl
@[simp] theorem Dev.setPatch_therm (d : Dev) (f : Patch → Patch) : (d.setPatch f).therm = d.therm := rfl
@[simp] theorem Dev.setPatch_nv (d : Dev) (f : Patch → Patch) : (d.setPatch f).nv = d.nv := rfl
@[simp] theorem Dev.setPatch_score (d : Dev) (f : Patch → Patch) : (d.setPatch f).score = d.score := rfl
@[simp] theorem Dev.setPatch_link (d : Dev) (f : Patch → Patch) : (d.setPatch f).link = d.link := rfl
@[simp] theorem Dev.setPatch_chain (d : Dev) (f : Patch → Patch) : (d.setPatch f).chain = d.chain := rfl
@[simp] theorem Dev.setPatch_patch (d : Dev) (f : Patch → Patch) : (d.setPatch f).patch = f d.patch := rfl
@[simp] theorem Dev.setPatch_pd (d : Dev) (f : Patch → Patch) : (d.setPatch f).pd = d.pd := rfl
@[simp] theorem Dev.setPatch_slotOffs (d : Dev) (f : Patch → Patch) : (d.setPatch f).slotOffs = d.slotOffs := rfl
@[simp] theorem Dev.setPatch_slotFaults (d : Dev) (f : Patch → Patch) : (d.setPatch f).slotFaults = d.slotFaults := rfl
@[simp] theorem Dev.setPatch_edges (d : Dev) (f : Patch → Patch) : (d.setPatch f).edges = d.edges := rfl
@[simp] theorem Dev.setPatch_found (d : Dev) (f : Patch → Patch) : (d.setPatch f).found = d.found := rfl

@[simp] theorem Dev.setCtl_headPin (d : Dev) (f : Control → Control) : (d.setCtl f).headPin = d.headPin := rfl
@[simp] theorem Dev.setCtl_time (d : Dev) (f : Control → Control) : (d.setCtl f).time = d.time := rfl
@[simp] theorem Dev.setCtl_ctl (d : Dev) (f : Control → Control) : (d.setCtl f).ctl = f d.ctl := rfl
@[simp] theorem Dev.setCtl_ka (d : Dev) (f : Control → Control) : (d.setCtl f).ka = d.ka := rfl
@[simp] theorem Dev.setCtl_port (d : Dev) (f : Control → Control) : (d.setCtl f).port = d.port := rfl
@[simp] theorem Dev.setCtl_log (d : Dev) (f : Control → Control) : (d.setCtl f).log = d.log := rfl
@[simp] theorem Dev.setCtl_par (d : Dev) (f : Control → Control) : (d.setCtl f).par = d.par := rfl
@[simp] theorem Dev.setCtl_voices (d : Dev) (f : Control → Control) : (d.setCtl f).voices = d.voices := rfl
@[simp] theorem Dev.setCtl_banks (d : Dev) (f : Control → Control) : (d.setCtl f).banks = d.banks := rfl
@[simp] theorem Dev.setCtl_staggers (d : Dev) (f : Control → Control) : (d.setCtl f).staggers = d.staggers := rfl
@[simp] theorem Dev.setCtl_lh (d : Dev) (f : Control → Control) : (d.setCtl f).lh = d.lh := rfl
@[simp] theorem Dev.setCtl_cues (d : Dev) (f : Control → Control) : (d.setCtl f).cues = d.cues := rfl
@[simp] theorem Dev.setCtl_tally (d : Dev) (f : Control → Control) : (d.setCtl f).tally = d.tally := rfl
@[simp] theorem Dev.setCtl_odo (d : Dev) (f : Control → Control) : (d.setCtl f).odo = d.odo := rfl
@[simp] theorem Dev.setCtl_sc (d : Dev) (f : Control → Control) : (d.setCtl f).sc = d.sc := rfl
@[simp] theorem Dev.setCtl_conv (d : Dev) (f : Control → Control) : (d.setCtl f).conv = d.conv := rfl
@[simp] theorem Dev.setCtl_wave (d : Dev) (f : Control → Control) : (d.setCtl f).wave = d.wave := rfl
@[simp] theorem Dev.setCtl_therm (d : Dev) (f : Control → Control) : (d.setCtl f).therm = d.therm := rfl
@[simp] theorem Dev.setCtl_nv (d : Dev) (f : Control → Control) : (d.setCtl f).nv = d.nv := rfl
@[simp] theorem Dev.setCtl_score (d : Dev) (f : Control → Control) : (d.setCtl f).score = d.score := rfl
@[simp] theorem Dev.setCtl_link (d : Dev) (f : Control → Control) : (d.setCtl f).link = d.link := rfl
@[simp] theorem Dev.setCtl_chain (d : Dev) (f : Control → Control) : (d.setCtl f).chain = d.chain := rfl
@[simp] theorem Dev.setCtl_patch (d : Dev) (f : Control → Control) : (d.setCtl f).patch = d.patch := rfl
@[simp] theorem Dev.setCtl_pd (d : Dev) (f : Control → Control) : (d.setCtl f).pd = d.pd := rfl
@[simp] theorem Dev.setCtl_slotOffs (d : Dev) (f : Control → Control) : (d.setCtl f).slotOffs = d.slotOffs := rfl
@[simp] theorem Dev.setCtl_slotFaults (d : Dev) (f : Control → Control) : (d.setCtl f).slotFaults = d.slotFaults := rfl
@[simp] theorem Dev.setCtl_edges (d : Dev) (f : Control → Control) : (d.setCtl f).edges = d.edges := rfl
@[simp] theorem Dev.setCtl_found (d : Dev) (f : Control → Control) : (d.setCtl f).found = d.found := rfl

@[simp] theorem Dev.setPort_headPin (d : Dev) (f : HostPort → HostPort) : (d.setPort f).headPin = d.headPin := rfl
@[simp] theorem Dev.setPort_time (d : Dev) (f : HostPort → HostPort) : (d.setPort f).time = d.time := rfl
@[simp] theorem Dev.setPort_ctl (d : Dev) (f : HostPort → HostPort) : (d.setPort f).ctl = d.ctl := rfl
@[simp] theorem Dev.setPort_ka (d : Dev) (f : HostPort → HostPort) : (d.setPort f).ka = d.ka := rfl
@[simp] theorem Dev.setPort_port (d : Dev) (f : HostPort → HostPort) : (d.setPort f).port = f d.port := rfl
@[simp] theorem Dev.setPort_log (d : Dev) (f : HostPort → HostPort) : (d.setPort f).log = d.log := rfl
@[simp] theorem Dev.setPort_par (d : Dev) (f : HostPort → HostPort) : (d.setPort f).par = d.par := rfl
@[simp] theorem Dev.setPort_voices (d : Dev) (f : HostPort → HostPort) : (d.setPort f).voices = d.voices := rfl
@[simp] theorem Dev.setPort_banks (d : Dev) (f : HostPort → HostPort) : (d.setPort f).banks = d.banks := rfl
@[simp] theorem Dev.setPort_staggers (d : Dev) (f : HostPort → HostPort) : (d.setPort f).staggers = d.staggers := rfl
@[simp] theorem Dev.setPort_lh (d : Dev) (f : HostPort → HostPort) : (d.setPort f).lh = d.lh := rfl
@[simp] theorem Dev.setPort_cues (d : Dev) (f : HostPort → HostPort) : (d.setPort f).cues = d.cues := rfl
@[simp] theorem Dev.setPort_tally (d : Dev) (f : HostPort → HostPort) : (d.setPort f).tally = d.tally := rfl
@[simp] theorem Dev.setPort_odo (d : Dev) (f : HostPort → HostPort) : (d.setPort f).odo = d.odo := rfl
@[simp] theorem Dev.setPort_sc (d : Dev) (f : HostPort → HostPort) : (d.setPort f).sc = d.sc := rfl
@[simp] theorem Dev.setPort_conv (d : Dev) (f : HostPort → HostPort) : (d.setPort f).conv = d.conv := rfl
@[simp] theorem Dev.setPort_wave (d : Dev) (f : HostPort → HostPort) : (d.setPort f).wave = d.wave := rfl
@[simp] theorem Dev.setPort_therm (d : Dev) (f : HostPort → HostPort) : (d.setPort f).therm = d.therm := rfl
@[simp] theorem Dev.setPort_nv (d : Dev) (f : HostPort → HostPort) : (d.setPort f).nv = d.nv := rfl
@[simp] theorem Dev.setPort_score (d : Dev) (f : HostPort → HostPort) : (d.setPort f).score = d.score := rfl
@[simp] theorem Dev.setPort_link (d : Dev) (f : HostPort → HostPort) : (d.setPort f).link = d.link := rfl
@[simp] theorem Dev.setPort_chain (d : Dev) (f : HostPort → HostPort) : (d.setPort f).chain = d.chain := rfl
@[simp] theorem Dev.setPort_patch (d : Dev) (f : HostPort → HostPort) : (d.setPort f).patch = d.patch := rfl
@[simp] theorem Dev.setPort_pd (d : Dev) (f : HostPort → HostPort) : (d.setPort f).pd = d.pd := rfl
@[simp] theorem Dev.setPort_slotOffs (d : Dev) (f : HostPort → HostPort) : (d.setPort f).slotOffs = d.slotOffs := rfl
@[simp] theorem Dev.setPort_slotFaults (d : Dev) (f : HostPort → HostPort) : (d.setPort f).slotFaults = d.slotFaults := rfl
@[simp] theorem Dev.setPort_edges (d : Dev) (f : HostPort → HostPort) : (d.setPort f).edges = d.edges := rfl
@[simp] theorem Dev.setPort_found (d : Dev) (f : HostPort → HostPort) : (d.setPort f).found = d.found := rfl

@[simp] theorem Dev.setPd_headPin (d : Dev) (f : PowerDown → PowerDown) : (d.setPd f).headPin = d.headPin := rfl
@[simp] theorem Dev.setPd_time (d : Dev) (f : PowerDown → PowerDown) : (d.setPd f).time = d.time := rfl
@[simp] theorem Dev.setPd_ctl (d : Dev) (f : PowerDown → PowerDown) : (d.setPd f).ctl = d.ctl := rfl
@[simp] theorem Dev.setPd_ka (d : Dev) (f : PowerDown → PowerDown) : (d.setPd f).ka = d.ka := rfl
@[simp] theorem Dev.setPd_port (d : Dev) (f : PowerDown → PowerDown) : (d.setPd f).port = d.port := rfl
@[simp] theorem Dev.setPd_log (d : Dev) (f : PowerDown → PowerDown) : (d.setPd f).log = d.log := rfl
@[simp] theorem Dev.setPd_par (d : Dev) (f : PowerDown → PowerDown) : (d.setPd f).par = d.par := rfl
@[simp] theorem Dev.setPd_voices (d : Dev) (f : PowerDown → PowerDown) : (d.setPd f).voices = d.voices := rfl
@[simp] theorem Dev.setPd_banks (d : Dev) (f : PowerDown → PowerDown) : (d.setPd f).banks = d.banks := rfl
@[simp] theorem Dev.setPd_staggers (d : Dev) (f : PowerDown → PowerDown) : (d.setPd f).staggers = d.staggers := rfl
@[simp] theorem Dev.setPd_lh (d : Dev) (f : PowerDown → PowerDown) : (d.setPd f).lh = d.lh := rfl
@[simp] theorem Dev.setPd_cues (d : Dev) (f : PowerDown → PowerDown) : (d.setPd f).cues = d.cues := rfl
@[simp] theorem Dev.setPd_tally (d : Dev) (f : PowerDown → PowerDown) : (d.setPd f).tally = d.tally := rfl
@[simp] theorem Dev.setPd_odo (d : Dev) (f : PowerDown → PowerDown) : (d.setPd f).odo = d.odo := rfl
@[simp] theorem Dev.setPd_sc (d : Dev) (f : PowerDown → PowerDown) : (d.setPd f).sc = d.sc := rfl
@[simp] theorem Dev.setPd_conv (d : Dev) (f : PowerDown → PowerDown) : (d.setPd f).conv = d.conv := rfl
@[simp] theorem Dev.setPd_wave (d : Dev) (f : PowerDown → PowerDown) : (d.setPd f).wave = d.wave := rfl
@[simp] theorem Dev.setPd_therm (d : Dev) (f : PowerDown → PowerDown) : (d.setPd f).therm = d.therm := rfl
@[simp] theorem Dev.setPd_nv (d : Dev) (f : PowerDown → PowerDown) : (d.setPd f).nv = d.nv := rfl
@[simp] theorem Dev.setPd_score (d : Dev) (f : PowerDown → PowerDown) : (d.setPd f).score = d.score := rfl
@[simp] theorem Dev.setPd_link (d : Dev) (f : PowerDown → PowerDown) : (d.setPd f).link = d.link := rfl
@[simp] theorem Dev.setPd_chain (d : Dev) (f : PowerDown → PowerDown) : (d.setPd f).chain = d.chain := rfl
@[simp] theorem Dev.setPd_patch (d : Dev) (f : PowerDown → PowerDown) : (d.setPd f).patch = d.patch := rfl
@[simp] theorem Dev.setPd_pd (d : Dev) (f : PowerDown → PowerDown) : (d.setPd f).pd = f d.pd := rfl
@[simp] theorem Dev.setPd_slotOffs (d : Dev) (f : PowerDown → PowerDown) : (d.setPd f).slotOffs = d.slotOffs := rfl
@[simp] theorem Dev.setPd_slotFaults (d : Dev) (f : PowerDown → PowerDown) : (d.setPd f).slotFaults = d.slotFaults := rfl
@[simp] theorem Dev.setPd_edges (d : Dev) (f : PowerDown → PowerDown) : (d.setPd f).edges = d.edges := rfl
@[simp] theorem Dev.setPd_found (d : Dev) (f : PowerDown → PowerDown) : (d.setPd f).found = d.found := rfl

@[simp] theorem Dev.setSc_headPin (d : Dev) (f : SoundCheck → SoundCheck) : (d.setSc f).headPin = d.headPin := rfl
@[simp] theorem Dev.setSc_time (d : Dev) (f : SoundCheck → SoundCheck) : (d.setSc f).time = d.time := rfl
@[simp] theorem Dev.setSc_ctl (d : Dev) (f : SoundCheck → SoundCheck) : (d.setSc f).ctl = d.ctl := rfl
@[simp] theorem Dev.setSc_ka (d : Dev) (f : SoundCheck → SoundCheck) : (d.setSc f).ka = d.ka := rfl
@[simp] theorem Dev.setSc_port (d : Dev) (f : SoundCheck → SoundCheck) : (d.setSc f).port = d.port := rfl
@[simp] theorem Dev.setSc_log (d : Dev) (f : SoundCheck → SoundCheck) : (d.setSc f).log = d.log := rfl
@[simp] theorem Dev.setSc_par (d : Dev) (f : SoundCheck → SoundCheck) : (d.setSc f).par = d.par := rfl
@[simp] theorem Dev.setSc_voices (d : Dev) (f : SoundCheck → SoundCheck) : (d.setSc f).voices = d.voices := rfl
@[simp] theorem Dev.setSc_banks (d : Dev) (f : SoundCheck → SoundCheck) : (d.setSc f).banks = d.banks := rfl
@[simp] theorem Dev.setSc_staggers (d : Dev) (f : SoundCheck → SoundCheck) : (d.setSc f).staggers = d.staggers := rfl
@[simp] theorem Dev.setSc_lh (d : Dev) (f : SoundCheck → SoundCheck) : (d.setSc f).lh = d.lh := rfl
@[simp] theorem Dev.setSc_cues (d : Dev) (f : SoundCheck → SoundCheck) : (d.setSc f).cues = d.cues := rfl
@[simp] theorem Dev.setSc_tally (d : Dev) (f : SoundCheck → SoundCheck) : (d.setSc f).tally = d.tally := rfl
@[simp] theorem Dev.setSc_odo (d : Dev) (f : SoundCheck → SoundCheck) : (d.setSc f).odo = d.odo := rfl
@[simp] theorem Dev.setSc_sc (d : Dev) (f : SoundCheck → SoundCheck) : (d.setSc f).sc = f d.sc := rfl
@[simp] theorem Dev.setSc_conv (d : Dev) (f : SoundCheck → SoundCheck) : (d.setSc f).conv = d.conv := rfl
@[simp] theorem Dev.setSc_wave (d : Dev) (f : SoundCheck → SoundCheck) : (d.setSc f).wave = d.wave := rfl
@[simp] theorem Dev.setSc_therm (d : Dev) (f : SoundCheck → SoundCheck) : (d.setSc f).therm = d.therm := rfl
@[simp] theorem Dev.setSc_nv (d : Dev) (f : SoundCheck → SoundCheck) : (d.setSc f).nv = d.nv := rfl
@[simp] theorem Dev.setSc_score (d : Dev) (f : SoundCheck → SoundCheck) : (d.setSc f).score = d.score := rfl
@[simp] theorem Dev.setSc_link (d : Dev) (f : SoundCheck → SoundCheck) : (d.setSc f).link = d.link := rfl
@[simp] theorem Dev.setSc_chain (d : Dev) (f : SoundCheck → SoundCheck) : (d.setSc f).chain = d.chain := rfl
@[simp] theorem Dev.setSc_patch (d : Dev) (f : SoundCheck → SoundCheck) : (d.setSc f).patch = d.patch := rfl
@[simp] theorem Dev.setSc_pd (d : Dev) (f : SoundCheck → SoundCheck) : (d.setSc f).pd = d.pd := rfl
@[simp] theorem Dev.setSc_slotOffs (d : Dev) (f : SoundCheck → SoundCheck) : (d.setSc f).slotOffs = d.slotOffs := rfl
@[simp] theorem Dev.setSc_slotFaults (d : Dev) (f : SoundCheck → SoundCheck) : (d.setSc f).slotFaults = d.slotFaults := rfl
@[simp] theorem Dev.setSc_edges (d : Dev) (f : SoundCheck → SoundCheck) : (d.setSc f).edges = d.edges := rfl
@[simp] theorem Dev.setSc_found (d : Dev) (f : SoundCheck → SoundCheck) : (d.setSc f).found = d.found := rfl

@[simp] theorem Dev.setConv_headPin (d : Dev) (f : Converter → Converter) : (d.setConv f).headPin = d.headPin := rfl
@[simp] theorem Dev.setConv_time (d : Dev) (f : Converter → Converter) : (d.setConv f).time = d.time := rfl
@[simp] theorem Dev.setConv_ctl (d : Dev) (f : Converter → Converter) : (d.setConv f).ctl = d.ctl := rfl
@[simp] theorem Dev.setConv_ka (d : Dev) (f : Converter → Converter) : (d.setConv f).ka = d.ka := rfl
@[simp] theorem Dev.setConv_port (d : Dev) (f : Converter → Converter) : (d.setConv f).port = d.port := rfl
@[simp] theorem Dev.setConv_log (d : Dev) (f : Converter → Converter) : (d.setConv f).log = d.log := rfl
@[simp] theorem Dev.setConv_par (d : Dev) (f : Converter → Converter) : (d.setConv f).par = d.par := rfl
@[simp] theorem Dev.setConv_voices (d : Dev) (f : Converter → Converter) : (d.setConv f).voices = d.voices := rfl
@[simp] theorem Dev.setConv_banks (d : Dev) (f : Converter → Converter) : (d.setConv f).banks = d.banks := rfl
@[simp] theorem Dev.setConv_staggers (d : Dev) (f : Converter → Converter) : (d.setConv f).staggers = d.staggers := rfl
@[simp] theorem Dev.setConv_lh (d : Dev) (f : Converter → Converter) : (d.setConv f).lh = d.lh := rfl
@[simp] theorem Dev.setConv_cues (d : Dev) (f : Converter → Converter) : (d.setConv f).cues = d.cues := rfl
@[simp] theorem Dev.setConv_tally (d : Dev) (f : Converter → Converter) : (d.setConv f).tally = d.tally := rfl
@[simp] theorem Dev.setConv_odo (d : Dev) (f : Converter → Converter) : (d.setConv f).odo = d.odo := rfl
@[simp] theorem Dev.setConv_sc (d : Dev) (f : Converter → Converter) : (d.setConv f).sc = d.sc := rfl
@[simp] theorem Dev.setConv_conv (d : Dev) (f : Converter → Converter) : (d.setConv f).conv = f d.conv := rfl
@[simp] theorem Dev.setConv_wave (d : Dev) (f : Converter → Converter) : (d.setConv f).wave = d.wave := rfl
@[simp] theorem Dev.setConv_therm (d : Dev) (f : Converter → Converter) : (d.setConv f).therm = d.therm := rfl
@[simp] theorem Dev.setConv_nv (d : Dev) (f : Converter → Converter) : (d.setConv f).nv = d.nv := rfl
@[simp] theorem Dev.setConv_score (d : Dev) (f : Converter → Converter) : (d.setConv f).score = d.score := rfl
@[simp] theorem Dev.setConv_link (d : Dev) (f : Converter → Converter) : (d.setConv f).link = d.link := rfl
@[simp] theorem Dev.setConv_chain (d : Dev) (f : Converter → Converter) : (d.setConv f).chain = d.chain := rfl
@[simp] theorem Dev.setConv_patch (d : Dev) (f : Converter → Converter) : (d.setConv f).patch = d.patch := rfl
@[simp] theorem Dev.setConv_pd (d : Dev) (f : Converter → Converter) : (d.setConv f).pd = d.pd := rfl
@[simp] theorem Dev.setConv_slotOffs (d : Dev) (f : Converter → Converter) : (d.setConv f).slotOffs = d.slotOffs := rfl
@[simp] theorem Dev.setConv_slotFaults (d : Dev) (f : Converter → Converter) : (d.setConv f).slotFaults = d.slotFaults := rfl
@[simp] theorem Dev.setConv_edges (d : Dev) (f : Converter → Converter) : (d.setConv f).edges = d.edges := rfl
@[simp] theorem Dev.setConv_found (d : Dev) (f : Converter → Converter) : (d.setConv f).found = d.found := rfl

@[simp] theorem Dev.setScore_headPin (d : Dev) (f : Score → Score) : (d.setScore f).headPin = d.headPin := rfl
@[simp] theorem Dev.setScore_time (d : Dev) (f : Score → Score) : (d.setScore f).time = d.time := rfl
@[simp] theorem Dev.setScore_ctl (d : Dev) (f : Score → Score) : (d.setScore f).ctl = d.ctl := rfl
@[simp] theorem Dev.setScore_ka (d : Dev) (f : Score → Score) : (d.setScore f).ka = d.ka := rfl
@[simp] theorem Dev.setScore_port (d : Dev) (f : Score → Score) : (d.setScore f).port = d.port := rfl
@[simp] theorem Dev.setScore_log (d : Dev) (f : Score → Score) : (d.setScore f).log = d.log := rfl
@[simp] theorem Dev.setScore_par (d : Dev) (f : Score → Score) : (d.setScore f).par = d.par := rfl
@[simp] theorem Dev.setScore_voices (d : Dev) (f : Score → Score) : (d.setScore f).voices = d.voices := rfl
@[simp] theorem Dev.setScore_banks (d : Dev) (f : Score → Score) : (d.setScore f).banks = d.banks := rfl
@[simp] theorem Dev.setScore_staggers (d : Dev) (f : Score → Score) : (d.setScore f).staggers = d.staggers := rfl
@[simp] theorem Dev.setScore_lh (d : Dev) (f : Score → Score) : (d.setScore f).lh = d.lh := rfl
@[simp] theorem Dev.setScore_cues (d : Dev) (f : Score → Score) : (d.setScore f).cues = d.cues := rfl
@[simp] theorem Dev.setScore_tally (d : Dev) (f : Score → Score) : (d.setScore f).tally = d.tally := rfl
@[simp] theorem Dev.setScore_odo (d : Dev) (f : Score → Score) : (d.setScore f).odo = d.odo := rfl
@[simp] theorem Dev.setScore_sc (d : Dev) (f : Score → Score) : (d.setScore f).sc = d.sc := rfl
@[simp] theorem Dev.setScore_conv (d : Dev) (f : Score → Score) : (d.setScore f).conv = d.conv := rfl
@[simp] theorem Dev.setScore_wave (d : Dev) (f : Score → Score) : (d.setScore f).wave = d.wave := rfl
@[simp] theorem Dev.setScore_therm (d : Dev) (f : Score → Score) : (d.setScore f).therm = d.therm := rfl
@[simp] theorem Dev.setScore_nv (d : Dev) (f : Score → Score) : (d.setScore f).nv = d.nv := rfl
@[simp] theorem Dev.setScore_score (d : Dev) (f : Score → Score) : (d.setScore f).score = f d.score := rfl
@[simp] theorem Dev.setScore_link (d : Dev) (f : Score → Score) : (d.setScore f).link = d.link := rfl
@[simp] theorem Dev.setScore_chain (d : Dev) (f : Score → Score) : (d.setScore f).chain = d.chain := rfl
@[simp] theorem Dev.setScore_patch (d : Dev) (f : Score → Score) : (d.setScore f).patch = d.patch := rfl
@[simp] theorem Dev.setScore_pd (d : Dev) (f : Score → Score) : (d.setScore f).pd = d.pd := rfl
@[simp] theorem Dev.setScore_slotOffs (d : Dev) (f : Score → Score) : (d.setScore f).slotOffs = d.slotOffs := rfl
@[simp] theorem Dev.setScore_slotFaults (d : Dev) (f : Score → Score) : (d.setScore f).slotFaults = d.slotFaults := rfl
@[simp] theorem Dev.setScore_edges (d : Dev) (f : Score → Score) : (d.setScore f).edges = d.edges := rfl
@[simp] theorem Dev.setScore_found (d : Dev) (f : Score → Score) : (d.setScore f).found = d.found := rfl

@[simp] theorem Dev.setTime_headPin (d : Dev) (f : TimeBase → TimeBase) : (d.setTime f).headPin = d.headPin := rfl
@[simp] theorem Dev.setTime_time (d : Dev) (f : TimeBase → TimeBase) : (d.setTime f).time = f d.time := rfl
@[simp] theorem Dev.setTime_ctl (d : Dev) (f : TimeBase → TimeBase) : (d.setTime f).ctl = d.ctl := rfl
@[simp] theorem Dev.setTime_ka (d : Dev) (f : TimeBase → TimeBase) : (d.setTime f).ka = d.ka := rfl
@[simp] theorem Dev.setTime_port (d : Dev) (f : TimeBase → TimeBase) : (d.setTime f).port = d.port := rfl
@[simp] theorem Dev.setTime_log (d : Dev) (f : TimeBase → TimeBase) : (d.setTime f).log = d.log := rfl
@[simp] theorem Dev.setTime_par (d : Dev) (f : TimeBase → TimeBase) : (d.setTime f).par = d.par := rfl
@[simp] theorem Dev.setTime_voices (d : Dev) (f : TimeBase → TimeBase) : (d.setTime f).voices = d.voices := rfl
@[simp] theorem Dev.setTime_banks (d : Dev) (f : TimeBase → TimeBase) : (d.setTime f).banks = d.banks := rfl
@[simp] theorem Dev.setTime_staggers (d : Dev) (f : TimeBase → TimeBase) : (d.setTime f).staggers = d.staggers := rfl
@[simp] theorem Dev.setTime_lh (d : Dev) (f : TimeBase → TimeBase) : (d.setTime f).lh = d.lh := rfl
@[simp] theorem Dev.setTime_cues (d : Dev) (f : TimeBase → TimeBase) : (d.setTime f).cues = d.cues := rfl
@[simp] theorem Dev.setTime_tally (d : Dev) (f : TimeBase → TimeBase) : (d.setTime f).tally = d.tally := rfl
@[simp] theorem Dev.setTime_odo (d : Dev) (f : TimeBase → TimeBase) : (d.setTime f).odo = d.odo := rfl
@[simp] theorem Dev.setTime_sc (d : Dev) (f : TimeBase → TimeBase) : (d.setTime f).sc = d.sc := rfl
@[simp] theorem Dev.setTime_conv (d : Dev) (f : TimeBase → TimeBase) : (d.setTime f).conv = d.conv := rfl
@[simp] theorem Dev.setTime_wave (d : Dev) (f : TimeBase → TimeBase) : (d.setTime f).wave = d.wave := rfl
@[simp] theorem Dev.setTime_therm (d : Dev) (f : TimeBase → TimeBase) : (d.setTime f).therm = d.therm := rfl
@[simp] theorem Dev.setTime_nv (d : Dev) (f : TimeBase → TimeBase) : (d.setTime f).nv = d.nv := rfl
@[simp] theorem Dev.setTime_score (d : Dev) (f : TimeBase → TimeBase) : (d.setTime f).score = d.score := rfl
@[simp] theorem Dev.setTime_link (d : Dev) (f : TimeBase → TimeBase) : (d.setTime f).link = d.link := rfl
@[simp] theorem Dev.setTime_chain (d : Dev) (f : TimeBase → TimeBase) : (d.setTime f).chain = d.chain := rfl
@[simp] theorem Dev.setTime_patch (d : Dev) (f : TimeBase → TimeBase) : (d.setTime f).patch = d.patch := rfl
@[simp] theorem Dev.setTime_pd (d : Dev) (f : TimeBase → TimeBase) : (d.setTime f).pd = d.pd := rfl
@[simp] theorem Dev.setTime_slotOffs (d : Dev) (f : TimeBase → TimeBase) : (d.setTime f).slotOffs = d.slotOffs := rfl
@[simp] theorem Dev.setTime_slotFaults (d : Dev) (f : TimeBase → TimeBase) : (d.setTime f).slotFaults = d.slotFaults := rfl
@[simp] theorem Dev.setTime_edges (d : Dev) (f : TimeBase → TimeBase) : (d.setTime f).edges = d.edges := rfl
@[simp] theorem Dev.setTime_found (d : Dev) (f : TimeBase → TimeBase) : (d.setTime f).found = d.found := rfl

@[simp] theorem Dev.setWave_headPin (d : Dev) (f : Wave → Wave) : (d.setWave f).headPin = d.headPin := rfl
@[simp] theorem Dev.setWave_time (d : Dev) (f : Wave → Wave) : (d.setWave f).time = d.time := rfl
@[simp] theorem Dev.setWave_ctl (d : Dev) (f : Wave → Wave) : (d.setWave f).ctl = d.ctl := rfl
@[simp] theorem Dev.setWave_ka (d : Dev) (f : Wave → Wave) : (d.setWave f).ka = d.ka := rfl
@[simp] theorem Dev.setWave_port (d : Dev) (f : Wave → Wave) : (d.setWave f).port = d.port := rfl
@[simp] theorem Dev.setWave_log (d : Dev) (f : Wave → Wave) : (d.setWave f).log = d.log := rfl
@[simp] theorem Dev.setWave_par (d : Dev) (f : Wave → Wave) : (d.setWave f).par = d.par := rfl
@[simp] theorem Dev.setWave_voices (d : Dev) (f : Wave → Wave) : (d.setWave f).voices = d.voices := rfl
@[simp] theorem Dev.setWave_banks (d : Dev) (f : Wave → Wave) : (d.setWave f).banks = d.banks := rfl
@[simp] theorem Dev.setWave_staggers (d : Dev) (f : Wave → Wave) : (d.setWave f).staggers = d.staggers := rfl
@[simp] theorem Dev.setWave_lh (d : Dev) (f : Wave → Wave) : (d.setWave f).lh = d.lh := rfl
@[simp] theorem Dev.setWave_cues (d : Dev) (f : Wave → Wave) : (d.setWave f).cues = d.cues := rfl
@[simp] theorem Dev.setWave_tally (d : Dev) (f : Wave → Wave) : (d.setWave f).tally = d.tally := rfl
@[simp] theorem Dev.setWave_odo (d : Dev) (f : Wave → Wave) : (d.setWave f).odo = d.odo := rfl
@[simp] theorem Dev.setWave_sc (d : Dev) (f : Wave → Wave) : (d.setWave f).sc = d.sc := rfl
@[simp] theorem Dev.setWave_conv (d : Dev) (f : Wave → Wave) : (d.setWave f).conv = d.conv := rfl
@[simp] theorem Dev.setWave_wave (d : Dev) (f : Wave → Wave) : (d.setWave f).wave = f d.wave := rfl
@[simp] theorem Dev.setWave_therm (d : Dev) (f : Wave → Wave) : (d.setWave f).therm = d.therm := rfl
@[simp] theorem Dev.setWave_nv (d : Dev) (f : Wave → Wave) : (d.setWave f).nv = d.nv := rfl
@[simp] theorem Dev.setWave_score (d : Dev) (f : Wave → Wave) : (d.setWave f).score = d.score := rfl
@[simp] theorem Dev.setWave_link (d : Dev) (f : Wave → Wave) : (d.setWave f).link = d.link := rfl
@[simp] theorem Dev.setWave_chain (d : Dev) (f : Wave → Wave) : (d.setWave f).chain = d.chain := rfl
@[simp] theorem Dev.setWave_patch (d : Dev) (f : Wave → Wave) : (d.setWave f).patch = d.patch := rfl
@[simp] theorem Dev.setWave_pd (d : Dev) (f : Wave → Wave) : (d.setWave f).pd = d.pd := rfl
@[simp] theorem Dev.setWave_slotOffs (d : Dev) (f : Wave → Wave) : (d.setWave f).slotOffs = d.slotOffs := rfl
@[simp] theorem Dev.setWave_slotFaults (d : Dev) (f : Wave → Wave) : (d.setWave f).slotFaults = d.slotFaults := rfl
@[simp] theorem Dev.setWave_edges (d : Dev) (f : Wave → Wave) : (d.setWave f).edges = d.edges := rfl
@[simp] theorem Dev.setWave_found (d : Dev) (f : Wave → Wave) : (d.setWave f).found = d.found := rfl

@[simp] theorem Dev.modVoice_headPin (d : Dev) (v : VoiceId) (f : Voice → Voice) : (d.modVoice v f).headPin = d.headPin := rfl
@[simp] theorem Dev.modVoice_time (d : Dev) (v : VoiceId) (f : Voice → Voice) : (d.modVoice v f).time = d.time := rfl
@[simp] theorem Dev.modVoice_ctl (d : Dev) (v : VoiceId) (f : Voice → Voice) : (d.modVoice v f).ctl = d.ctl := rfl
@[simp] theorem Dev.modVoice_ka (d : Dev) (v : VoiceId) (f : Voice → Voice) : (d.modVoice v f).ka = d.ka := rfl
@[simp] theorem Dev.modVoice_port (d : Dev) (v : VoiceId) (f : Voice → Voice) : (d.modVoice v f).port = d.port := rfl
@[simp] theorem Dev.modVoice_log (d : Dev) (v : VoiceId) (f : Voice → Voice) : (d.modVoice v f).log = d.log := rfl
@[simp] theorem Dev.modVoice_par (d : Dev) (v : VoiceId) (f : Voice → Voice) : (d.modVoice v f).par = d.par := rfl
@[simp] theorem Dev.modVoice_voices (d : Dev) (v : VoiceId) (f : Voice → Voice) : (d.modVoice v f).voices = d.voices.modify v f := rfl
@[simp] theorem Dev.modVoice_banks (d : Dev) (v : VoiceId) (f : Voice → Voice) : (d.modVoice v f).banks = d.banks := rfl
@[simp] theorem Dev.modVoice_staggers (d : Dev) (v : VoiceId) (f : Voice → Voice) : (d.modVoice v f).staggers = d.staggers := rfl
@[simp] theorem Dev.modVoice_lh (d : Dev) (v : VoiceId) (f : Voice → Voice) : (d.modVoice v f).lh = d.lh := rfl
@[simp] theorem Dev.modVoice_cues (d : Dev) (v : VoiceId) (f : Voice → Voice) : (d.modVoice v f).cues = d.cues := rfl
@[simp] theorem Dev.modVoice_tally (d : Dev) (v : VoiceId) (f : Voice → Voice) : (d.modVoice v f).tally = d.tally := rfl
@[simp] theorem Dev.modVoice_odo (d : Dev) (v : VoiceId) (f : Voice → Voice) : (d.modVoice v f).odo = d.odo := rfl
@[simp] theorem Dev.modVoice_sc (d : Dev) (v : VoiceId) (f : Voice → Voice) : (d.modVoice v f).sc = d.sc := rfl
@[simp] theorem Dev.modVoice_conv (d : Dev) (v : VoiceId) (f : Voice → Voice) : (d.modVoice v f).conv = d.conv := rfl
@[simp] theorem Dev.modVoice_wave (d : Dev) (v : VoiceId) (f : Voice → Voice) : (d.modVoice v f).wave = d.wave := rfl
@[simp] theorem Dev.modVoice_therm (d : Dev) (v : VoiceId) (f : Voice → Voice) : (d.modVoice v f).therm = d.therm := rfl
@[simp] theorem Dev.modVoice_nv (d : Dev) (v : VoiceId) (f : Voice → Voice) : (d.modVoice v f).nv = d.nv := rfl
@[simp] theorem Dev.modVoice_score (d : Dev) (v : VoiceId) (f : Voice → Voice) : (d.modVoice v f).score = d.score := rfl
@[simp] theorem Dev.modVoice_link (d : Dev) (v : VoiceId) (f : Voice → Voice) : (d.modVoice v f).link = d.link := rfl
@[simp] theorem Dev.modVoice_chain (d : Dev) (v : VoiceId) (f : Voice → Voice) : (d.modVoice v f).chain = d.chain := rfl
@[simp] theorem Dev.modVoice_patch (d : Dev) (v : VoiceId) (f : Voice → Voice) : (d.modVoice v f).patch = d.patch := rfl
@[simp] theorem Dev.modVoice_pd (d : Dev) (v : VoiceId) (f : Voice → Voice) : (d.modVoice v f).pd = d.pd := rfl
@[simp] theorem Dev.modVoice_slotOffs (d : Dev) (v : VoiceId) (f : Voice → Voice) : (d.modVoice v f).slotOffs = d.slotOffs := rfl
@[simp] theorem Dev.modVoice_slotFaults (d : Dev) (v : VoiceId) (f : Voice → Voice) : (d.modVoice v f).slotFaults = d.slotFaults := rfl
@[simp] theorem Dev.modVoice_edges (d : Dev) (v : VoiceId) (f : Voice → Voice) : (d.modVoice v f).edges = d.edges := rfl
@[simp] theorem Dev.modVoice_found (d : Dev) (v : VoiceId) (f : Voice → Voice) : (d.modVoice v f).found = d.found := rfl

@[simp] theorem Dev.modBank_headPin (d : Dev) (b : BankId) (f : Bank → Bank) : (d.modBank b f).headPin = d.headPin := rfl
@[simp] theorem Dev.modBank_time (d : Dev) (b : BankId) (f : Bank → Bank) : (d.modBank b f).time = d.time := rfl
@[simp] theorem Dev.modBank_ctl (d : Dev) (b : BankId) (f : Bank → Bank) : (d.modBank b f).ctl = d.ctl := rfl
@[simp] theorem Dev.modBank_ka (d : Dev) (b : BankId) (f : Bank → Bank) : (d.modBank b f).ka = d.ka := rfl
@[simp] theorem Dev.modBank_port (d : Dev) (b : BankId) (f : Bank → Bank) : (d.modBank b f).port = d.port := rfl
@[simp] theorem Dev.modBank_log (d : Dev) (b : BankId) (f : Bank → Bank) : (d.modBank b f).log = d.log := rfl
@[simp] theorem Dev.modBank_par (d : Dev) (b : BankId) (f : Bank → Bank) : (d.modBank b f).par = d.par := rfl
@[simp] theorem Dev.modBank_voices (d : Dev) (b : BankId) (f : Bank → Bank) : (d.modBank b f).voices = d.voices := rfl
@[simp] theorem Dev.modBank_banks (d : Dev) (b : BankId) (f : Bank → Bank) : (d.modBank b f).banks = d.banks.modify b f := rfl
@[simp] theorem Dev.modBank_staggers (d : Dev) (b : BankId) (f : Bank → Bank) : (d.modBank b f).staggers = d.staggers := rfl
@[simp] theorem Dev.modBank_lh (d : Dev) (b : BankId) (f : Bank → Bank) : (d.modBank b f).lh = d.lh := rfl
@[simp] theorem Dev.modBank_cues (d : Dev) (b : BankId) (f : Bank → Bank) : (d.modBank b f).cues = d.cues := rfl
@[simp] theorem Dev.modBank_tally (d : Dev) (b : BankId) (f : Bank → Bank) : (d.modBank b f).tally = d.tally := rfl
@[simp] theorem Dev.modBank_odo (d : Dev) (b : BankId) (f : Bank → Bank) : (d.modBank b f).odo = d.odo := rfl
@[simp] theorem Dev.modBank_sc (d : Dev) (b : BankId) (f : Bank → Bank) : (d.modBank b f).sc = d.sc := rfl
@[simp] theorem Dev.modBank_conv (d : Dev) (b : BankId) (f : Bank → Bank) : (d.modBank b f).conv = d.conv := rfl
@[simp] theorem Dev.modBank_wave (d : Dev) (b : BankId) (f : Bank → Bank) : (d.modBank b f).wave = d.wave := rfl
@[simp] theorem Dev.modBank_therm (d : Dev) (b : BankId) (f : Bank → Bank) : (d.modBank b f).therm = d.therm := rfl
@[simp] theorem Dev.modBank_nv (d : Dev) (b : BankId) (f : Bank → Bank) : (d.modBank b f).nv = d.nv := rfl
@[simp] theorem Dev.modBank_score (d : Dev) (b : BankId) (f : Bank → Bank) : (d.modBank b f).score = d.score := rfl
@[simp] theorem Dev.modBank_link (d : Dev) (b : BankId) (f : Bank → Bank) : (d.modBank b f).link = d.link := rfl
@[simp] theorem Dev.modBank_chain (d : Dev) (b : BankId) (f : Bank → Bank) : (d.modBank b f).chain = d.chain := rfl
@[simp] theorem Dev.modBank_patch (d : Dev) (b : BankId) (f : Bank → Bank) : (d.modBank b f).patch = d.patch := rfl
@[simp] theorem Dev.modBank_pd (d : Dev) (b : BankId) (f : Bank → Bank) : (d.modBank b f).pd = d.pd := rfl
@[simp] theorem Dev.modBank_slotOffs (d : Dev) (b : BankId) (f : Bank → Bank) : (d.modBank b f).slotOffs = d.slotOffs := rfl
@[simp] theorem Dev.modBank_slotFaults (d : Dev) (b : BankId) (f : Bank → Bank) : (d.modBank b f).slotFaults = d.slotFaults := rfl
@[simp] theorem Dev.modBank_edges (d : Dev) (b : BankId) (f : Bank → Bank) : (d.modBank b f).edges = d.edges := rfl
@[simp] theorem Dev.modBank_found (d : Dev) (b : BankId) (f : Bank → Bank) : (d.modBank b f).found = d.found := rfl

@[simp] theorem Dev.modZone_headPin (d : Dev) (z : ZoneId) (f : Zone → Zone) : (d.modZone z f).headPin = d.headPin := rfl
@[simp] theorem Dev.modZone_time (d : Dev) (z : ZoneId) (f : Zone → Zone) : (d.modZone z f).time = d.time := rfl
@[simp] theorem Dev.modZone_ctl (d : Dev) (z : ZoneId) (f : Zone → Zone) : (d.modZone z f).ctl = d.ctl := rfl
@[simp] theorem Dev.modZone_ka (d : Dev) (z : ZoneId) (f : Zone → Zone) : (d.modZone z f).ka = d.ka := rfl
@[simp] theorem Dev.modZone_port (d : Dev) (z : ZoneId) (f : Zone → Zone) : (d.modZone z f).port = d.port := rfl
@[simp] theorem Dev.modZone_log (d : Dev) (z : ZoneId) (f : Zone → Zone) : (d.modZone z f).log = d.log := rfl
@[simp] theorem Dev.modZone_par (d : Dev) (z : ZoneId) (f : Zone → Zone) : (d.modZone z f).par = d.par := rfl
@[simp] theorem Dev.modZone_voices (d : Dev) (z : ZoneId) (f : Zone → Zone) : (d.modZone z f).voices = d.voices := rfl
@[simp] theorem Dev.modZone_banks (d : Dev) (z : ZoneId) (f : Zone → Zone) : (d.modZone z f).banks = d.banks := rfl
@[simp] theorem Dev.modZone_staggers (d : Dev) (z : ZoneId) (f : Zone → Zone) : (d.modZone z f).staggers = d.staggers := rfl
@[simp] theorem Dev.modZone_lh (d : Dev) (z : ZoneId) (f : Zone → Zone) : (d.modZone z f).lh = d.lh := rfl
@[simp] theorem Dev.modZone_cues (d : Dev) (z : ZoneId) (f : Zone → Zone) : (d.modZone z f).cues = d.cues := rfl
@[simp] theorem Dev.modZone_tally (d : Dev) (z : ZoneId) (f : Zone → Zone) : (d.modZone z f).tally = d.tally := rfl
@[simp] theorem Dev.modZone_odo (d : Dev) (z : ZoneId) (f : Zone → Zone) : (d.modZone z f).odo = d.odo := rfl
@[simp] theorem Dev.modZone_sc (d : Dev) (z : ZoneId) (f : Zone → Zone) : (d.modZone z f).sc = d.sc := rfl
@[simp] theorem Dev.modZone_conv (d : Dev) (z : ZoneId) (f : Zone → Zone) : (d.modZone z f).conv = d.conv := rfl
@[simp] theorem Dev.modZone_wave (d : Dev) (z : ZoneId) (f : Zone → Zone) : (d.modZone z f).wave = d.wave := rfl
@[simp] theorem Dev.modZone_therm (d : Dev) (z : ZoneId) (f : Zone → Zone) : (d.modZone z f).therm = { d.therm with zones := d.therm.zones.modify z f } := rfl
@[simp] theorem Dev.modZone_nv (d : Dev) (z : ZoneId) (f : Zone → Zone) : (d.modZone z f).nv = d.nv := rfl
@[simp] theorem Dev.modZone_score (d : Dev) (z : ZoneId) (f : Zone → Zone) : (d.modZone z f).score = d.score := rfl
@[simp] theorem Dev.modZone_link (d : Dev) (z : ZoneId) (f : Zone → Zone) : (d.modZone z f).link = d.link := rfl
@[simp] theorem Dev.modZone_chain (d : Dev) (z : ZoneId) (f : Zone → Zone) : (d.modZone z f).chain = d.chain := rfl
@[simp] theorem Dev.modZone_patch (d : Dev) (z : ZoneId) (f : Zone → Zone) : (d.modZone z f).patch = d.patch := rfl
@[simp] theorem Dev.modZone_pd (d : Dev) (z : ZoneId) (f : Zone → Zone) : (d.modZone z f).pd = d.pd := rfl
@[simp] theorem Dev.modZone_slotOffs (d : Dev) (z : ZoneId) (f : Zone → Zone) : (d.modZone z f).slotOffs = d.slotOffs := rfl
@[simp] theorem Dev.modZone_slotFaults (d : Dev) (z : ZoneId) (f : Zone → Zone) : (d.modZone z f).slotFaults = d.slotFaults := rfl
@[simp] theorem Dev.modZone_edges (d : Dev) (z : ZoneId) (f : Zone → Zone) : (d.modZone z f).edges = d.edges := rfl
@[simp] theorem Dev.modZone_found (d : Dev) (z : ZoneId) (f : Zone → Zone) : (d.modZone z f).found = d.found := rfl

@[simp] theorem Dev.modTally_headPin (d : Dev) (i : Fin 8) (f : TallyInput → TallyInput) : (d.modTally i f).headPin = d.headPin := rfl
@[simp] theorem Dev.modTally_time (d : Dev) (i : Fin 8) (f : TallyInput → TallyInput) : (d.modTally i f).time = d.time := rfl
@[simp] theorem Dev.modTally_ctl (d : Dev) (i : Fin 8) (f : TallyInput → TallyInput) : (d.modTally i f).ctl = d.ctl := rfl
@[simp] theorem Dev.modTally_ka (d : Dev) (i : Fin 8) (f : TallyInput → TallyInput) : (d.modTally i f).ka = d.ka := rfl
@[simp] theorem Dev.modTally_port (d : Dev) (i : Fin 8) (f : TallyInput → TallyInput) : (d.modTally i f).port = d.port := rfl
@[simp] theorem Dev.modTally_log (d : Dev) (i : Fin 8) (f : TallyInput → TallyInput) : (d.modTally i f).log = d.log := rfl
@[simp] theorem Dev.modTally_par (d : Dev) (i : Fin 8) (f : TallyInput → TallyInput) : (d.modTally i f).par = d.par := rfl
@[simp] theorem Dev.modTally_voices (d : Dev) (i : Fin 8) (f : TallyInput → TallyInput) : (d.modTally i f).voices = d.voices := rfl
@[simp] theorem Dev.modTally_banks (d : Dev) (i : Fin 8) (f : TallyInput → TallyInput) : (d.modTally i f).banks = d.banks := rfl
@[simp] theorem Dev.modTally_staggers (d : Dev) (i : Fin 8) (f : TallyInput → TallyInput) : (d.modTally i f).staggers = d.staggers := rfl
@[simp] theorem Dev.modTally_lh (d : Dev) (i : Fin 8) (f : TallyInput → TallyInput) : (d.modTally i f).lh = d.lh := rfl
@[simp] theorem Dev.modTally_cues (d : Dev) (i : Fin 8) (f : TallyInput → TallyInput) : (d.modTally i f).cues = d.cues := rfl
@[simp] theorem Dev.modTally_tally (d : Dev) (i : Fin 8) (f : TallyInput → TallyInput) : (d.modTally i f).tally = d.tally.modify i f := rfl
@[simp] theorem Dev.modTally_odo (d : Dev) (i : Fin 8) (f : TallyInput → TallyInput) : (d.modTally i f).odo = d.odo := rfl
@[simp] theorem Dev.modTally_sc (d : Dev) (i : Fin 8) (f : TallyInput → TallyInput) : (d.modTally i f).sc = d.sc := rfl
@[simp] theorem Dev.modTally_conv (d : Dev) (i : Fin 8) (f : TallyInput → TallyInput) : (d.modTally i f).conv = d.conv := rfl
@[simp] theorem Dev.modTally_wave (d : Dev) (i : Fin 8) (f : TallyInput → TallyInput) : (d.modTally i f).wave = d.wave := rfl
@[simp] theorem Dev.modTally_therm (d : Dev) (i : Fin 8) (f : TallyInput → TallyInput) : (d.modTally i f).therm = d.therm := rfl
@[simp] theorem Dev.modTally_nv (d : Dev) (i : Fin 8) (f : TallyInput → TallyInput) : (d.modTally i f).nv = d.nv := rfl
@[simp] theorem Dev.modTally_score (d : Dev) (i : Fin 8) (f : TallyInput → TallyInput) : (d.modTally i f).score = d.score := rfl
@[simp] theorem Dev.modTally_link (d : Dev) (i : Fin 8) (f : TallyInput → TallyInput) : (d.modTally i f).link = d.link := rfl
@[simp] theorem Dev.modTally_chain (d : Dev) (i : Fin 8) (f : TallyInput → TallyInput) : (d.modTally i f).chain = d.chain := rfl
@[simp] theorem Dev.modTally_patch (d : Dev) (i : Fin 8) (f : TallyInput → TallyInput) : (d.modTally i f).patch = d.patch := rfl
@[simp] theorem Dev.modTally_pd (d : Dev) (i : Fin 8) (f : TallyInput → TallyInput) : (d.modTally i f).pd = d.pd := rfl
@[simp] theorem Dev.modTally_slotOffs (d : Dev) (i : Fin 8) (f : TallyInput → TallyInput) : (d.modTally i f).slotOffs = d.slotOffs := rfl
@[simp] theorem Dev.modTally_slotFaults (d : Dev) (i : Fin 8) (f : TallyInput → TallyInput) : (d.modTally i f).slotFaults = d.slotFaults := rfl
@[simp] theorem Dev.modTally_edges (d : Dev) (i : Fin 8) (f : TallyInput → TallyInput) : (d.modTally i f).edges = d.edges := rfl
@[simp] theorem Dev.modTally_found (d : Dev) (i : Fin 8) (f : TallyInput → TallyInput) : (d.modTally i f).found = d.found := rfl

@[simp] theorem Dev.event_headPin (d : Dev) (c u : Nat) (b : List Byte) : (d.event c u b).headPin = d.headPin := by
  unfold Dev.event
  split <;> rfl
@[simp] theorem Dev.event_time (d : Dev) (c u : Nat) (b : List Byte) : (d.event c u b).time = d.time := by
  unfold Dev.event
  split <;> rfl
@[simp] theorem Dev.event_ctl (d : Dev) (c u : Nat) (b : List Byte) : (d.event c u b).ctl = d.ctl := by
  unfold Dev.event
  split <;> rfl
@[simp] theorem Dev.event_ka (d : Dev) (c u : Nat) (b : List Byte) : (d.event c u b).ka = d.ka := by
  unfold Dev.event
  split <;> rfl
@[simp] theorem Dev.event_port (d : Dev) (c u : Nat) (b : List Byte) :
    (d.event c u b).port = { d.port with
      irqn := d.port.irqn || (!d.ctl.por && d.port.isOpen), newsNow := d.port.newsNow || (!d.ctl.por && d.port.isOpen) } := by
  unfold Dev.event
  cases d.ctl.por <;> simp
/-- An event enters the log unless power-on reset holds (05 R141). -/
theorem Dev.event_log (d : Dev) (c u : Nat) (b : List Byte) (h : d.ctl.por = false) :
    (d.event c u b).log = d.log.push
      { seq := d.log.nextSeq, tbc := d.time.tbc, code := c, unit := u, acked := false, fallbackTb := d.time.onFallback,
        data := data8 b } := by
  unfold Dev.event
  simp [h]
@[simp] theorem Dev.event_par (d : Dev) (c u : Nat) (b : List Byte) : (d.event c u b).par = d.par := by
  unfold Dev.event
  split <;> rfl
@[simp] theorem Dev.event_voices (d : Dev) (c u : Nat) (b : List Byte) : (d.event c u b).voices = d.voices := by
  unfold Dev.event
  split <;> rfl
@[simp] theorem Dev.event_banks (d : Dev) (c u : Nat) (b : List Byte) : (d.event c u b).banks = d.banks := by
  unfold Dev.event
  split <;> rfl
@[simp] theorem Dev.event_staggers (d : Dev) (c u : Nat) (b : List Byte) : (d.event c u b).staggers = d.staggers := by
  unfold Dev.event
  split <;> rfl
@[simp] theorem Dev.event_lh (d : Dev) (c u : Nat) (b : List Byte) : (d.event c u b).lh = d.lh := by
  unfold Dev.event
  split <;> rfl
@[simp] theorem Dev.event_cues (d : Dev) (c u : Nat) (b : List Byte) : (d.event c u b).cues = d.cues := by
  unfold Dev.event
  split <;> rfl
@[simp] theorem Dev.event_tally (d : Dev) (c u : Nat) (b : List Byte) : (d.event c u b).tally = d.tally := by
  unfold Dev.event
  split <;> rfl
@[simp] theorem Dev.event_odo (d : Dev) (c u : Nat) (b : List Byte) : (d.event c u b).odo = d.odo := by
  unfold Dev.event
  split <;> rfl
@[simp] theorem Dev.event_sc (d : Dev) (c u : Nat) (b : List Byte) : (d.event c u b).sc = d.sc := by
  unfold Dev.event
  split <;> rfl
@[simp] theorem Dev.event_conv (d : Dev) (c u : Nat) (b : List Byte) : (d.event c u b).conv = d.conv := by
  unfold Dev.event
  split <;> rfl
@[simp] theorem Dev.event_wave (d : Dev) (c u : Nat) (b : List Byte) : (d.event c u b).wave = d.wave := by
  unfold Dev.event
  split <;> rfl
@[simp] theorem Dev.event_therm (d : Dev) (c u : Nat) (b : List Byte) : (d.event c u b).therm = d.therm := by
  unfold Dev.event
  split <;> rfl
@[simp] theorem Dev.event_nv (d : Dev) (c u : Nat) (b : List Byte) : (d.event c u b).nv = d.nv := by
  unfold Dev.event
  split <;> rfl
@[simp] theorem Dev.event_score (d : Dev) (c u : Nat) (b : List Byte) : (d.event c u b).score = d.score := by
  unfold Dev.event
  split <;> rfl
@[simp] theorem Dev.event_link (d : Dev) (c u : Nat) (b : List Byte) : (d.event c u b).link = d.link := by
  unfold Dev.event
  split <;> rfl
@[simp] theorem Dev.event_chain (d : Dev) (c u : Nat) (b : List Byte) : (d.event c u b).chain = d.chain := by
  unfold Dev.event
  split <;> rfl
@[simp] theorem Dev.event_patch (d : Dev) (c u : Nat) (b : List Byte) : (d.event c u b).patch = d.patch := by
  unfold Dev.event
  split <;> rfl
@[simp] theorem Dev.event_pd (d : Dev) (c u : Nat) (b : List Byte) : (d.event c u b).pd = d.pd := by
  unfold Dev.event
  split <;> rfl
@[simp] theorem Dev.event_slotOffs (d : Dev) (c u : Nat) (b : List Byte) : (d.event c u b).slotOffs = d.slotOffs := by
  unfold Dev.event
  split <;> rfl
@[simp] theorem Dev.event_slotFaults (d : Dev) (c u : Nat) (b : List Byte) : (d.event c u b).slotFaults = d.slotFaults := by
  unfold Dev.event
  split <;> rfl
@[simp] theorem Dev.event_edges (d : Dev) (c u : Nat) (b : List Byte) : (d.event c u b).edges = d.edges := by
  unfold Dev.event
  split <;> rfl
@[simp] theorem Dev.event_found (d : Dev) (c u : Nat) (b : List Byte) : (d.event c u b).found = d.found := by
  unfold Dev.event
  split <;> rfl

/-! ### Reading a voice -/

@[simp] theorem Dev.voice_modVoice_self (d : Dev) (v : VoiceId) (f : Voice → Voice) :
    (d.modVoice v f).voice v = f (d.voice v) := by
  simp [Dev.voice]

theorem Dev.voice_modVoice_ne (d : Dev) {v w : VoiceId} (f : Voice → Voice) (h : w ≠ v) :
    (d.modVoice v f).voice w = d.voice w := by
  simp [Dev.voice, Tab.get_modify_ne _ _ h]

@[simp] theorem Dev.voice_event (d : Dev) (c u : Nat) (b : List Byte) (v : VoiceId) : (d.event c u b).voice v = d.voice v := by
  simp [Dev.voice]

@[simp] theorem Dev.voice_advance (d : Dev) (n : Nat) (v : VoiceId) : (d.advance n).voice v = d.voice v := rfl

/-! ### The log and the replies -/

/-- The log numbers its events in order and keeps the last 256 (05 R141). -/
theorem EventLog.push_nextSeq (l : EventLog) (e : Event) : (l.push e).nextSeq = l.nextSeq + 1 := rfl

theorem EventLog.push_length (l : EventLog) (e : Event) (h : l.events.length ≤ 256) : (l.push e).events.length ≤ 256 := by
  unfold EventLog.push
  dsimp only
  rw [List.length_append]
  split
  · rw [List.length_drop, List.length_singleton]
    omega
  · rename_i full
    rw [List.length_singleton]
    omega

/-- The reply queue keeps the last 64 (03 R93). -/
theorem HostPort.push_replies (p : HostPort) (r : Reply) :
    (p.push r).replies = (if 64 ≤ p.replies.length then p.replies.drop 1 else p.replies) ++ [r] := by
  unfold HostPort.push
  split <;> rfl

theorem HostPort.push_length (p : HostPort) (r : Reply) (h : p.replies.length ≤ 64) : (p.push r).replies.length ≤ 64 := by
  rw [HostPort.push_replies]
  split <;> simp <;> omega

end Sys2Proof.Machine
end

