-- ==== Sys2Proof/Laws/Keeps.lean ====
section
/-! SUPPORT. What a change of the device keeps: `Dev.Keeps W e d` says that `e` comes from `d` by changes of the parts in `W`
alone, and that every bounded or canonical part of it keeps its form. One lemma per way of changing the device. -/

namespace Sys2Proof.Machine
open Sys2Proof

structure Dev.Keeps (W : Part → Prop) (e d : Dev) : Prop where
  frame : ∀ p, ¬ W p → p.same e d
  good : d.Good → e.Good

theorem Part.same_trans {p : Part} {a b c : Dev} (h : p.same a b) (k : p.same b c) : p.same a c := by
  cases p <;> exact Eq.trans h k

theorem Dev.Keeps.refl {W : Part → Prop} (d : Dev) : d.Keeps W d :=
  ⟨fun p _ => by cases p <;> rfl, id⟩

theorem Dev.Keeps.trans {W : Part → Prop} {a b c : Dev} (h : a.Keeps W b) (k : b.Keeps W c) : a.Keeps W c :=
  ⟨fun p hp => Part.same_trans (h.frame p hp) (k.frame p hp), fun g => h.good (k.good g)⟩

theorem Dev.Keeps.mono {V W : Part → Prop} {e d : Dev} (h : e.Keeps V d) (hv : ∀ p, V p → W p) : e.Keeps W d :=
  ⟨fun p hp => h.frame p fun k => hp (hv p k), h.good⟩

variable {W : Part → Prop} {d e : Dev}

theorem Dev.Keeps.headPin (h : e.Keeps W d) (hw : W .headPin) (x : Bool) : Dev.Keeps W { e with headPin := x } d :=
  Dev.Keeps.trans (b := e) ⟨fun p hp => by cases p <;> first | rfl | exact absurd hw hp, fun g => ⟨g.replies, g.log, g.cues, g.raw⟩⟩ h

theorem Dev.Keeps.time (h : e.Keeps W d) (hw : W .time) (x : TimeBase) : Dev.Keeps W { e with time := x } d :=
  Dev.Keeps.trans (b := e) ⟨fun p hp => by cases p <;> first | rfl | exact absurd hw hp, fun g => ⟨g.replies, g.log, g.cues, g.raw⟩⟩ h

theorem Dev.Keeps.ctl (h : e.Keeps W d) (hw : W .ctl) (x : Control) : Dev.Keeps W { e with ctl := x } d :=
  Dev.Keeps.trans (b := e) ⟨fun p hp => by cases p <;> first | rfl | exact absurd hw hp, fun g => ⟨g.replies, g.log, g.cues, g.raw⟩⟩ h

theorem Dev.Keeps.ka (h : e.Keeps W d) (hw : W .ka) (x : KeepAlive) : Dev.Keeps W { e with ka := x } d :=
  Dev.Keeps.trans (b := e) ⟨fun p hp => by cases p <;> first | rfl | exact absurd hw hp, fun g => ⟨g.replies, g.log, g.cues, g.raw⟩⟩ h

theorem Dev.Keeps.port (h : e.Keeps W d) (hw : W .port) (x : HostPort) (hx : e.port.replies.length ≤ 64 → x.replies.length ≤ 64) :
    Dev.Keeps W { e with port := x } d :=
  Dev.Keeps.trans (b := e) ⟨fun p hp => by cases p <;> first | rfl | exact absurd hw hp, fun g => ⟨hx g.replies, g.log, g.cues, g.raw⟩⟩ h

theorem Dev.Keeps.log (h : e.Keeps W d) (hw : W .log) (x : EventLog) (hx : e.log.good → x.good) :
    Dev.Keeps W { e with log := x } d :=
  Dev.Keeps.trans (b := e) ⟨fun p hp => by cases p <;> first | rfl | exact absurd hw hp, fun g => ⟨g.replies, hx g.log, g.cues, g.raw⟩⟩ h

theorem Dev.Keeps.par (h : e.Keeps W d) (hw : W .par) (x : ParamSpace) : Dev.Keeps W { e with par := x } d :=
  Dev.Keeps.trans (b := e) ⟨fun p hp => by cases p <;> first | rfl | exact absurd hw hp, fun g => ⟨g.replies, g.log, g.cues, g.raw⟩⟩ h

theorem Dev.Keeps.voices (h : e.Keeps W d) (hw : W .voices) (x : Tab Voice 48) : Dev.Keeps W { e with voices := x } d :=
  Dev.Keeps.trans (b := e) ⟨fun p hp => by cases p <;> first | rfl | exact absurd hw hp, fun g => ⟨g.replies, g.log, g.cues, g.raw⟩⟩ h

theorem Dev.Keeps.banks (h : e.Keeps W d) (hw : W .banks) (x : Tab Bank 4) : Dev.Keeps W { e with banks := x } d :=
  Dev.Keeps.trans (b := e) ⟨fun p hp => by cases p <;> first | rfl | exact absurd hw hp, fun g => ⟨g.replies, g.log, g.cues, g.raw⟩⟩ h

theorem Dev.Keeps.staggers (h : e.Keeps W d) (hw : W .staggers) (x : List Stagger) : Dev.Keeps W { e with staggers := x } d :=
  Dev.Keeps.trans (b := e) ⟨fun p hp => by cases p <;> first | rfl | exact absurd hw hp, fun g => ⟨g.replies, g.log, g.cues, g.raw⟩⟩ h

theorem Dev.Keeps.lh (h : e.Keeps W d) (hw : W .lh) (x : Tab LhInput 8) : Dev.Keeps W { e with lh := x } d :=
  Dev.Keeps.trans (b := e) ⟨fun p hp => by cases p <;> first | rfl | exact absurd hw hp, fun g => ⟨g.replies, g.log, g.cues, g.raw⟩⟩ h

theorem Dev.Keeps.cues (h : e.Keeps W d) (hw : W .cues) (x : CueQueue) (hx : e.cues.queue.length ≤ 4096 → x.queue.length ≤ 4096) :
    Dev.Keeps W { e with cues := x } d :=
  Dev.Keeps.trans (b := e) ⟨fun p hp => by cases p <;> first | rfl | exact absurd hw hp, fun g => ⟨g.replies, g.log, hx g.cues, g.raw⟩⟩ h

theorem Dev.Keeps.tally (h : e.Keeps W d) (hw : W .tally) (x : Tab TallyInput 8) : Dev.Keeps W { e with tally := x } d :=
  Dev.Keeps.trans (b := e) ⟨fun p hp => by cases p <;> first | rfl | exact absurd hw hp, fun g => ⟨g.replies, g.log, g.cues, g.raw⟩⟩ h

theorem Dev.Keeps.odo (h : e.Keeps W d) (hw : W .odo) (x : Odometer) : Dev.Keeps W { e with odo := x } d :=
  Dev.Keeps.trans (b := e) ⟨fun p hp => by cases p <;> first | rfl | exact absurd hw hp, fun g => ⟨g.replies, g.log, g.cues, g.raw⟩⟩ h

theorem Dev.Keeps.sc (h : e.Keeps W d) (hw : W .sc) (x : SoundCheck) : Dev.Keeps W { e with sc := x } d :=
  Dev.Keeps.trans (b := e) ⟨fun p hp => by cases p <;> first | rfl | exact absurd hw hp, fun g => ⟨g.replies, g.log, g.cues, g.raw⟩⟩ h

theorem Dev.Keeps.conv (h : e.Keeps W d) (hw : W .conv) (x : Converter) : Dev.Keeps W { e with conv := x } d :=
  Dev.Keeps.trans (b := e) ⟨fun p hp => by cases p <;> first | rfl | exact absurd hw hp, fun g => ⟨g.replies, g.log, g.cues, g.raw⟩⟩ h

theorem Dev.Keeps.wave (h : e.Keeps W d) (hw : W .wave) (x : Wave) : Dev.Keeps W { e with wave := x } d :=
  Dev.Keeps.trans (b := e) ⟨fun p hp => by cases p <;> first | rfl | exact absurd hw hp, fun g => ⟨g.replies, g.log, g.cues, g.raw⟩⟩ h

theorem Dev.Keeps.therm (h : e.Keeps W d) (hw : W .therm) (x : Thermal) : Dev.Keeps W { e with therm := x } d :=
  Dev.Keeps.trans (b := e) ⟨fun p hp => by cases p <;> first | rfl | exact absurd hw hp, fun g => ⟨g.replies, g.log, g.cues, g.raw⟩⟩ h

theorem Dev.Keeps.nv (h : e.Keeps W d) (hw : W .nv) (x : Flash) (hx : Memory.wf e.nv.raw = true → Memory.wf x.raw = true) :
    Dev.Keeps W { e with nv := x } d :=
  Dev.Keeps.trans (b := e) ⟨fun p hp => by cases p <;> first | rfl | exact absurd hw hp, fun g => ⟨g.replies, g.log, g.cues, hx g.raw⟩⟩ h

theorem Dev.Keeps.score (h : e.Keeps W d) (hw : W .score) (x : Score) : Dev.Keeps W { e with score := x } d :=
  Dev.Keeps.trans (b := e) ⟨fun p hp => by cases p <;> first | rfl | exact absurd hw hp, fun g => ⟨g.replies, g.log, g.cues, g.raw⟩⟩ h

theorem Dev.Keeps.link (h : e.Keeps W d) (hw : W .link) (x : ScoreLink) : Dev.Keeps W { e with link := x } d :=
  Dev.Keeps.trans (b := e) ⟨fun p hp => by cases p <;> first | rfl | exact absurd hw hp, fun g => ⟨g.replies, g.log, g.cues, g.raw⟩⟩ h

theorem Dev.Keeps.chain (h : e.Keeps W d) (hw : W .chain) (x : Chain) : Dev.Keeps W { e with chain := x } d :=
  Dev.Keeps.trans (b := e) ⟨fun p hp => by cases p <;> first | rfl | exact absurd hw hp, fun g => ⟨g.replies, g.log, g.cues, g.raw⟩⟩ h

theorem Dev.Keeps.patch (h : e.Keeps W d) (hw : W .patch) (x : Patch) : Dev.Keeps W { e with patch := x } d :=
  Dev.Keeps.trans (b := e) ⟨fun p hp => by cases p <;> first | rfl | exact absurd hw hp, fun g => ⟨g.replies, g.log, g.cues, g.raw⟩⟩ h

theorem Dev.Keeps.pd (h : e.Keeps W d) (hw : W .pd) (x : PowerDown) : Dev.Keeps W { e with pd := x } d :=
  Dev.Keeps.trans (b := e) ⟨fun p hp => by cases p <;> first | rfl | exact absurd hw hp, fun g => ⟨g.replies, g.log, g.cues, g.raw⟩⟩ h

theorem Dev.Keeps.slotOffs (h : e.Keeps W d) (hw : W .slotOffs) (x : Mask) : Dev.Keeps W { e with slotOffs := x } d :=
  Dev.Keeps.trans (b := e) ⟨fun p hp => by cases p <;> first | rfl | exact absurd hw hp, fun g => ⟨g.replies, g.log, g.cues, g.raw⟩⟩ h

theorem Dev.Keeps.slotFaults (h : e.Keeps W d) (hw : W .slotFaults) (x : List SlotFault) : Dev.Keeps W { e with slotFaults := x } d :=
  Dev.Keeps.trans (b := e) ⟨fun p hp => by cases p <;> first | rfl | exact absurd hw hp, fun g => ⟨g.replies, g.log, g.cues, g.raw⟩⟩ h

theorem Dev.Keeps.edges (h : e.Keeps W d) (hw : W .edges) (x : List LinkEdge) : Dev.Keeps W { e with edges := x } d :=
  Dev.Keeps.trans (b := e) ⟨fun p hp => by cases p <;> first | rfl | exact absurd hw hp, fun g => ⟨g.replies, g.log, g.cues, g.raw⟩⟩ h

theorem Dev.Keeps.found (h : e.Keeps W d) (hw : W .found) (x : List Nat) : Dev.Keeps W { e with found := x } d :=
  Dev.Keeps.trans (b := e) ⟨fun p hp => by cases p <;> first | rfl | exact absurd hw hp, fun g => ⟨g.replies, g.log, g.cues, g.raw⟩⟩ h

theorem Dev.Keeps.score_link (h : e.Keeps W d) (hw : W .score) (hl : W .link) (x : Score) (y : ScoreLink) :
    Dev.Keeps W { e with score := x, link := y } d := (h.score hw x).link hl y

theorem Dev.Keeps.voices_therm (h : e.Keeps W d) (hw : W .voices) (hl : W .therm) (x : Tab Voice 48) (y : Thermal) :
    Dev.Keeps W { e with voices := x, therm := y } d := (h.voices hw x).therm hl y

theorem Dev.Keeps.time_chain (h : e.Keeps W d) (hw : W .time) (hl : W .chain) (x : TimeBase) (y : Chain) :
    Dev.Keeps W { e with time := x, chain := y } d := (h.time hw x).chain hl y

theorem Dev.Keeps.cues_odo (h : e.Keeps W d) (hw : W .cues) (hl : W .odo) (x : CueQueue) (y : Odometer)
    (hx : e.cues.queue.length ≤ 4096 → x.queue.length ≤ 4096) :
    Dev.Keeps W { e with cues := x, odo := y } d := (h.cues hw x hx).odo hl y

theorem Dev.Keeps.ka_banks_lh (h : e.Keeps W d) (hw : W .ka) (hb : W .banks) (hl : W .lh) (x : KeepAlive)
    (y : Tab Bank 4) (z : Tab LhInput 8) : Dev.Keeps W { e with ka := x, banks := y, lh := z } d :=
  ((h.ka hw x).banks hb y).lh hl z

theorem Dev.Keeps.banks_lh (h : e.Keeps W d) (hb : W .banks) (hl : W .lh) (y : Tab Bank 4) (z : Tab LhInput 8) :
    Dev.Keeps W { e with banks := y, lh := z } d := (h.banks hb y).lh hl z

theorem Dev.Keeps.slotOffs_slotFaults (h : e.Keeps W d) (ho : W .slotOffs) (hf : W .slotFaults) (x : Mask) (y : List SlotFault) :
    Dev.Keeps W { e with slotOffs := x, slotFaults := y } d := (h.slotOffs ho x).slotFaults hf y

theorem Dev.Keeps.log_slotFaults (h : e.Keeps W d) (ho : W .log) (hf : W .slotFaults) (x : EventLog) (y : List SlotFault)
    (hx : e.log.good → x.good) : Dev.Keeps W { e with log := x, slotFaults := y } d := (h.log ho x hx).slotFaults hf y

theorem Dev.Keeps.cues_tally_odo (h : e.Keeps W d) (hw : W .cues) (ht : W .tally) (hl : W .odo) (x : CueQueue)
    (y : Tab TallyInput 8) (z : Odometer) (hx : e.cues.queue.length ≤ 4096 → x.queue.length ≤ 4096) :
    Dev.Keeps W { e with cues := x, tally := y, odo := z } d := ((h.cues hw x hx).tally ht y).odo hl z

theorem Dev.Keeps.port_chain (h : e.Keeps W d) (hw : W .port) (hl : W .chain) (x : HostPort) (y : Chain)
    (hx : e.port.replies.length ≤ 64 → x.replies.length ≤ 64) :
    Dev.Keeps W { e with port := x, chain := y } d := (h.port hw x hx).chain hl y

theorem Dev.Keeps.sc_conv_therm_nv_chain (h : e.Keeps W d) (h1 : W .sc) (h2 : W .conv) (h3 : W .therm) (h4 : W .nv)
    (h5 : W .chain) (a : SoundCheck) (b : Converter) (c : Thermal) (f : Flash) (g : Chain)
    (hx : Memory.wf e.nv.raw = true → Memory.wf f.raw = true) :
    Dev.Keeps W { e with sc := a, conv := b, therm := c, nv := f, chain := g } d :=
  ((((h.sc h1 a).conv h2 b).therm h3 c).nv h4 f hx).chain h5 g

theorem Dev.Keeps.of_pair {α : Type} {p : Dev × α} {x : Dev} {y : α} (h : p = (x, y)) (k : p.1.Keeps W d) :
    x.Keeps W d := by
  subst h
  exact k

theorem Dev.Keeps.foldl {α : Type} {f : Dev → α → Dev} (h : e.Keeps W d)
    (hf : ∀ x : Dev, x.Keeps W d → ∀ a, (f x a).Keeps W d) (l : List α) : (l.foldl f e).Keeps W d := by
  induction l generalizing e with
  | nil => exact h
  | cons a l ih => exact ih (hf e h a)

theorem Dev.Keeps.foldl_pair {α β : Type} {f : Dev × β → α → Dev × β} {p : Dev × β} (h : p.1.Keeps W d)
    (hf : ∀ x : Dev × β, x.1.Keeps W d → ∀ a, (f x a).1.Keeps W d) (l : List α) : (l.foldl f p).1.Keeps W d := by
  induction l generalizing p with
  | nil => exact h
  | cons a l ih => exact ih (hf p h a)

theorem Dev.forVoices_keeps (h : e.Keeps W d) {f : Dev → VoiceId → Dev}
    (hf : ∀ x : Dev, x.Keeps W d → ∀ v, (f x v).Keeps W d) (vs : List VoiceId) : (e.forVoices vs f).Keeps W d :=
  h.foldl hf vs

theorem Dev.modVoice_keeps (w_voices : W .voices) (h : e.Keeps W d) (v : VoiceId) (f : Voice → Voice) :
    (e.modVoice v f).Keeps W d := h.voices w_voices _

theorem Dev.modUnit_keeps (w_voices : W .voices) (h : e.Keeps W d) (v : VoiceId) (f : Voice → Voice) :
    (e.modUnit v f).Keeps W d := Dev.forVoices_keeps h (fun _ k _ => k.voices w_voices _) _

theorem Dev.tellAll_keeps {α : Type} (h : e.Keeps W d) {f : Dev → α → Dev}
    (hf : ∀ x : Dev, x.Keeps W d → ∀ a, (f x a).Keeps W d) (l : List α) : (e.tellAll l f).Keeps W d :=
  h.foldl hf l

theorem Dev.modBank_keeps (w_banks : W .banks) (h : e.Keeps W d) (v : BankId) (f : Bank → Bank) :
    (e.modBank v f).Keeps W d := h.banks w_banks _

theorem Dev.modZone_keeps (w_therm : W .therm) (h : e.Keeps W d) (v : ZoneId) (f : Zone → Zone) :
    (e.modZone v f).Keeps W d := h.therm w_therm _

theorem Dev.raiseIrq_keeps (w_port : W .port) (h : e.Keeps W d) : e.raiseIrq.Keeps W d := h.port w_port _ id

theorem EventLog.good_push (l : EventLog) (x : Event) (h : l.good) (hx : x.seq = l.nextSeq) : (l.push x).good := by
  obtain ⟨hl, hs⟩ := h
  have key : ∀ m : List Event, m.length ≤ 255 → (∀ i (h : i < m.length), m[i].seq + BitVec.ofNat 32 (m.length - i) = l.nextSeq) →
      ∀ i (h : i < (m ++ [x]).length),
        (m ++ [x])[i].seq + BitVec.ofNat 32 ((m ++ [x]).length - i) = l.nextSeq + 1 := by
    intro m hm k i hi
    rw [List.length_append, List.length_singleton] at hi ⊢
    rw [List.getElem_append]
    split
    · rename_i hlt
      rw [← k i hlt, show m.length + 1 - i = m.length - i + 1 by omega, BitVec.ofNat_add, BitVec.add_assoc]
      rfl
    · rw [List.getElem_singleton, hx, show m.length + 1 - i = 1 by omega]
      rfl
  unfold EventLog.push
  dsimp only
  split
  · refine ⟨by simp; omega, key _ (by simp; omega) fun i hi => ?_⟩
    rw [List.getElem_drop]
    rw [List.length_drop] at hi ⊢
    rw [← hs (1 + i) (by omega)]
    congr 2
    omega
  · exact ⟨by simp; omega, key _ (by omega) hs⟩

theorem EventLog.good_empty : EventLog.good { events := [], nextSeq := 0, lost := 0 } :=
  ⟨Nat.zero_le _, fun _ h => absurd h (Nat.not_lt_zero _)⟩

/-- Without one event, or one that is gone already, the numbers that follow close up. -/
theorem EventLog.good_cut {l : EventLog} (h : l.good) (m o : Nat)
    (hm : (m < l.events.length ∧ o = m + 1) ∨ (m = 0 ∧ o = 0)) :
    EventLog.good { l with
      events := l.events.take m ++ (l.events.drop o).map fun e => { e with seq := e.seq - 1 }, nextSeq := l.nextSeq - 1 } := by
  obtain ⟨hl, hs⟩ := h
  have back (a b : Word) (k n : Nat) (hk : a + BitVec.ofNat 32 k = b) (hn : k = n + 1) : a + BitVec.ofNat 32 n = b - 1 := by
    rw [← hk, hn, BitVec.ofNat_add, ← BitVec.add_assoc]
    exact (BitVec.add_sub_cancel _ _).symm
  have both (a b : Word) (k n : Nat) (hk : a + BitVec.ofNat 32 k = b) (hn : k = n) : a - 1 + BitVec.ofNat 32 n = b - 1 := by
    rw [← hk, hn, BitVec.sub_eq_add_neg, BitVec.sub_eq_add_neg, BitVec.add_assoc, BitVec.add_assoc, BitVec.add_comm (-1)]
  refine ⟨by simp only [List.length_append, List.length_take, List.length_map, List.length_drop]; omega, fun i hi => ?_⟩
  simp only [List.length_append, List.length_take, List.length_map, List.length_drop] at hi ⊢
  rw [List.getElem_append]
  split
  · rename_i k
    simp only [List.length_take] at k
    rw [List.getElem_take]
    exact back _ _ _ _ (hs i (by omega)) (by omega)
  · rename_i k
    simp only [List.length_take] at k
    simp only [List.getElem_map, List.getElem_drop, List.length_take]
    exact both _ _ _ _ (hs _ (by omega)) (by omega)

/-- An event taken back leaves the numbers without a gap (07 R203). -/
theorem EventLog.good_retract {l : EventLog} (h : l.good) (s : Word) : (l.retract s).good := by
  unfold EventLog.retract
  extract_lets n len
  split
  · exact h
  · rename_i hn
    have hlen : len = l.events.length := rfl
    exact EventLog.good_cut h _ _ (by split <;> omega)

/-- Acknowledging events keeps their numbers. -/
theorem EventLog.good_map {l : EventLog} (h : l.good) (f : Event → Event) (hf : ∀ e, (f e).seq = e.seq) :
    EventLog.good { l with events := l.events.map f } := by
  refine ⟨by simpa using h.1, fun i hi => ?_⟩
  rw [List.length_map] at hi ⊢
  rw [List.getElem_map, hf]
  exact h.2 i hi

/-- START is numbered before the events that stand, which move up by one; of more than 256 the oldest goes. -/
theorem EventLog.good_start {l : EventLog} (h : l.good) (e : Event) (k : Nat)
    (he : e.seq = l.nextSeq - BitVec.ofNat 32 l.events.length) :
    EventLog.good
      { events := (e :: l.events.map fun x => { x with seq := x.seq + 1 }).drop (l.events.length - 255)
        nextSeq := l.nextSeq + 1, lost := k } := by
  obtain ⟨hl, hs⟩ := h
  have key : ∀ i (hi : i < (e :: l.events.map fun x => { x with seq := x.seq + 1 }).length),
      ((e :: l.events.map fun x => { x with seq := x.seq + 1 })[i]).seq + BitVec.ofNat 32 (l.events.length + 1 - i) =
        l.nextSeq + 1 := by
    intro i hi
    cases i with
    | zero =>
      rw [List.getElem_cons_zero, he, Nat.sub_zero, BitVec.ofNat_add, ← BitVec.add_assoc, BitVec.sub_add_cancel]
      rfl
    | succ i =>
      have hi : i < l.events.length := by simpa using hi
      have k := hs i hi
      simp only [List.getElem_cons_succ, List.getElem_map, Nat.add_sub_add_right]
      rw [← k]
      rw [BitVec.add_assoc, BitVec.add_comm 1, ← BitVec.add_assoc]
  generalize hn : l.events.length - 255 = n
  refine ⟨by simp only [List.length_drop, List.length_cons, List.length_map]; omega, fun i hi => ?_⟩
  simp only [List.length_drop, List.length_cons, List.length_map] at hi
  have hk := key (n + i) (by rw [List.length_cons, List.length_map]; omega)
  simp only [List.getElem_drop, List.length_drop, List.length_cons, List.length_map]
  rw [show l.events.length + 1 - n - i = l.events.length + 1 - (n + i) by omega]
  exact hk

theorem Dev.event_keeps (w_port : W .port) (w_log : W .log) (h : e.Keeps W d) (c u : Nat) (b : List Byte) :
    (e.event c u b).Keeps W d := by
  unfold Dev.event
  dsimp only
  split
  · exact h
  · exact Dev.raiseIrq_keeps w_port (h.log w_log _ fun g => EventLog.good_push _ _ g rfl)

theorem Dev.Keeps.tally_odo (h : e.Keeps W d) (hw : W .tally) (hl : W .odo) (x : Tab TallyInput 8) (y : Odometer) :
    Dev.Keeps W { e with tally := x, odo := y } d := (h.tally hw x).odo hl y

theorem Dev.Keeps.time_score (h : e.Keeps W d) (hw : W .time) (hl : W .score) (x : TimeBase) (y : Score) :
    Dev.Keeps W { e with time := x, score := y } d := (h.time hw x).score hl y

theorem Dev.advance_keeps (w_time : W .time) (w_score : W .score) (h : e.Keeps W d) (n : Nat) :
    (e.advance n).Keeps W d := h.time_score w_time w_score _ _

theorem Dev.setChain_keeps (w_chain : W .chain) (h : e.Keeps W d) (f : Chain → Chain) : (e.setChain f).Keeps W d :=
  h.chain w_chain _

theorem Dev.setCues_keeps (w_cues : W .cues) (h : e.Keeps W d) (f : CueQueue → CueQueue) (hx : e.cues.queue.length ≤ 4096 → (f e.cues).queue.length ≤ 4096) :
    (e.setCues f).Keeps W d := h.cues w_cues _ hx

theorem Dev.setNv_keeps (w_nv : W .nv) (h : e.Keeps W d) (f : Flash → Flash) (hx : Memory.wf e.nv.raw = true → Memory.wf (f e.nv).raw = true) :
    (e.setNv f).Keeps W d := h.nv w_nv _ hx

theorem Dev.setPatch_keeps (w_patch : W .patch) (h : e.Keeps W d) (f : Patch → Patch) : (e.setPatch f).Keeps W d :=
  h.patch w_patch _

theorem Dev.setCtl_keeps (w_ctl : W .ctl) (h : e.Keeps W d) (f : Control → Control) : (e.setCtl f).Keeps W d :=
  h.ctl w_ctl _

theorem Dev.setPort_keeps (w_port : W .port) (h : e.Keeps W d) (f : HostPort → HostPort) (hx : e.port.replies.length ≤ 64 → (f e.port).replies.length ≤ 64) :
    (e.setPort f).Keeps W d := h.port w_port _ hx

theorem Dev.setPd_keeps (w_pd : W .pd) (h : e.Keeps W d) (f : PowerDown → PowerDown) : (e.setPd f).Keeps W d :=
  h.pd w_pd _

theorem Dev.setSc_keeps (w_sc : W .sc) (h : e.Keeps W d) (f : SoundCheck → SoundCheck) : (e.setSc f).Keeps W d :=
  h.sc w_sc _

theorem Dev.setConv_keeps (w_conv : W .conv) (h : e.Keeps W d) (f : Converter → Converter) : (e.setConv f).Keeps W d :=
  h.conv w_conv _

theorem Dev.setScore_keeps (w_score : W .score) (h : e.Keeps W d) (f : Score → Score) : (e.setScore f).Keeps W d :=
  h.score w_score _

theorem Dev.setTime_keeps (w_time : W .time) (h : e.Keeps W d) (f : TimeBase → TimeBase) : (e.setTime f).Keeps W d :=
  h.time w_time _

theorem Dev.setWave_keeps (w_wave : W .wave) (h : e.Keeps W d) (f : Wave → Wave) : (e.setWave f).Keeps W d :=
  h.wave w_wave _

end Sys2Proof.Machine
end

