-- ==== Sys2Proof/Laws/KeepsOps.lean ====
section
/-! SUPPORT. What each change of Ops.lean keeps (Laws/Keeps.lean): which parts it may change, and that every form stays. -/

namespace Sys2Proof.Machine
open Sys2Proof

variable {W : Part → Prop} {r₀ : Dev}

theorem Dev.holdCorr_keeps (w_conv : W .conv) {d : Dev} (h : d.Keeps W r₀) (old : Dev) :
  (Dev.holdCorr d old).Keeps W r₀ := by
  unfold Dev.holdCorr
  try dsimp only
  repeat' first
    | with_reducible assumption
    | split
    | with_reducible apply Dev.Keeps.conv
    | exact id
    | intro _
    | dsimp only
    | (with_reducible refine Dev.Keeps.of_pair (by with_reducible assumption) ?_)

theorem Dev.reply_keeps (w_port : W .port) {d : Dev} (h : d.Keeps W r₀) (r : Reply) :
  (Dev.reply d r).Keeps W r₀ :=
  h.port w_port _ (HostPort.push_length _ _)

theorem Dev.replyNews_keeps (w_port : W .port) {d : Dev} (h : d.Keeps W r₀) (r : Reply) :
  (Dev.replyNews d r).Keeps W r₀ := by
  unfold Dev.replyNews
  try dsimp only
  repeat' first
    | with_reducible assumption
    | with_reducible apply Dev.raiseIrq_keeps
    | with_reducible apply Dev.reply_keeps
    | split
    | exact id
    | intro _
    | dsimp only
    | (with_reducible refine Dev.Keeps.of_pair (by with_reducible assumption) ?_)

theorem Dev.tellNews_keeps (w_port : W .port) {d : Dev} (h : d.Keeps W r₀) (d0 : Dev) (prev : Dev) :
  (Dev.tellNews d d0 prev).Keeps W r₀ := by
  unfold Dev.tellNews
  try dsimp only
  repeat' first
    | with_reducible assumption
    | with_reducible apply Dev.raiseIrq_keeps
    | split
    | exact id
    | intro _
    | dsimp only
    | (with_reducible refine Dev.Keeps.of_pair (by with_reducible assumption) ?_)

end Sys2Proof.Machine
end

