-- ==== Sys2Proof/Laws/KeepsDrive.lean ====
section
/-! SUPPORT. What each change of Drive.lean keeps (Laws/Keeps.lean): which parts it may change, and that every form stays. -/

namespace Sys2Proof.Machine
open Sys2Proof

variable {W : Part → Prop} {r₀ : Dev}

theorem Dev.lifetimeMax_keeps (w_port : W .port) (w_log : W .log) (w_voices : W .voices) {d : Dev} (h : d.Keeps W r₀) (v : VoiceId) :
  (Dev.lifetimeMax d v).Keeps W r₀ := by
  unfold Dev.lifetimeMax
  try dsimp only
  repeat' first
    | with_reducible assumption
    | with_reducible apply Dev.event_keeps
    | with_reducible apply Dev.modVoice_keeps
    | split
    | exact id
    | intro _
    | dsimp only
    | (with_reducible refine Dev.Keeps.of_pair (by with_reducible assumption) ?_)

theorem Dev.edgeEnergy_keeps (w_voices : W .voices) {d : Dev} (h : d.Keeps W r₀) (v : VoiceId) :
  (Dev.edgeEnergy d v).Keeps W r₀ := by
  unfold Dev.edgeEnergy
  try dsimp only
  repeat' first
    | with_reducible assumption
    | with_reducible apply Dev.modVoice_keeps
    | split
    | exact id
    | intro _
    | dsimp only
    | (with_reducible refine Dev.Keeps.of_pair (by with_reducible assumption) ?_)

theorem Dev.returnDomain_keeps (w_chain : W .chain) {d : Dev} (h : d.Keeps W r₀) (n : Nat) (k : Nat) :
  (Dev.returnDomain d n k).Keeps W r₀ := by
  unfold Dev.returnDomain
  try dsimp only
  repeat' first
    | with_reducible assumption
    | split
    | with_reducible apply Dev.Keeps.chain
    | exact id
    | intro _
    | dsimp only
    | (with_reducible refine Dev.Keeps.of_pair (by with_reducible assumption) ?_)

theorem Dev.returnTokens_keeps (w_voices : W .voices) (w_chain : W .chain) {d : Dev} (h : d.Keeps W r₀) (v : VoiceId) :
  (Dev.returnTokens d v).Keeps W r₀ := by
  unfold Dev.returnTokens
  try dsimp only
  repeat' first
    | with_reducible assumption
    | with_reducible apply Dev.modVoice_keeps
    | with_reducible apply Dev.returnDomain_keeps
    | split
    | exact id
    | intro _
    | dsimp only
    | (with_reducible refine Dev.Keeps.of_pair (by with_reducible assumption) ?_)

theorem Dev.turnOff_keeps (w_port : W .port) (w_log : W .log) (w_voices : W .voices) (w_therm : W .therm) (w_chain : W .chain) {d : Dev} (h : d.Keeps W r₀) (v : VoiceId) (why : OffWhy) :
  (Dev.turnOff d v why).Keeps W r₀ := by
  unfold Dev.turnOff
  try dsimp only
  repeat' first
    | with_reducible assumption
    | with_reducible apply Dev.modVoice_keeps
    | with_reducible apply Dev.lifetimeMax_keeps
    | with_reducible apply Dev.returnTokens_keeps
    | split
    | with_reducible apply Dev.Keeps.therm
    | exact id
    | intro _
    | dsimp only
    | (with_reducible refine Dev.Keeps.of_pair (by with_reducible assumption) ?_)

theorem Dev.withdraw_keeps (w_voices : W .voices) (w_chain : W .chain) {d : Dev} (h : d.Keeps W r₀) (v : VoiceId) :
  (Dev.withdraw d v).Keeps W r₀ := by
  unfold Dev.withdraw
  try dsimp only
  repeat' first
    | with_reducible assumption
    | with_reducible apply Dev.modVoice_keeps
    | with_reducible apply Dev.returnTokens_keeps
    | split
    | exact id
    | intro _
    | dsimp only
    | (with_reducible refine Dev.Keeps.of_pair (by with_reducible assumption) ?_)

theorem Dev.turnOffUnit_keeps (w_port : W .port) (w_log : W .log) (w_voices : W .voices) (w_cues : W .cues) (w_therm : W .therm) (w_chain : W .chain) {d : Dev} (h : d.Keeps W r₀) (v : VoiceId) (why : OffWhy) :
  (Dev.turnOffUnit d v why).Keeps W r₀ := by
  unfold Dev.turnOffUnit
  try dsimp only
  repeat' first
    | with_reducible assumption
    | with_reducible apply Dev.forVoices_keeps
    | with_reducible apply Dev.turnOff_keeps
    | split
    | with_reducible apply Dev.Keeps.cues
    | exact id
    | intro _
    | dsimp only
    | (with_reducible refine Dev.Keeps.of_pair (by with_reducible assumption) ?_)
    | (simp only [List.length_map]; assumption)
    | exact Nat.le_trans (List.length_filter_le _ _) (by assumption)
    | exact Nat.le_trans (by simp) (by assumption)
    | exact Nat.le_trans (by simp only [List.length_drop]; exact Nat.sub_le _ _) (by assumption)
    | exact Nat.zero_le _

theorem Dev.begin1_keeps (w_port : W .port) (w_log : W .log) (w_voices : W .voices) {d : Dev} (h : d.Keeps W r₀) (v : VoiceId) (w : Wait) (tokens : Bool) :
  (Dev.begin1 d v w tokens).Keeps W r₀ := by
  unfold Dev.begin1
  extract_lets x hd mode cold plan rampLen target dr pulsed s1 s2 s3 x1 d1
  have k : d1.Keeps W r₀ := by
    apply Dev.lifetimeMax_keeps <;> first | assumption | exact Dev.modVoice_keeps w_voices h _ _
  clear_value d1
  repeat' first
    | exact k
    | with_reducible apply Dev.modVoice_keeps
    | with_reducible assumption
    | split

theorem Dev.beginUnit_keeps (w_port : W .port) (w_log : W .log) (w_voices : W .voices) (w_chain : W .chain) {d : Dev} (h : d.Keeps W r₀) (v : VoiceId) (w : Wait) :
  (Dev.beginUnit d v w).Keeps W r₀ := by
  unfold Dev.beginUnit
  try dsimp only
  repeat' first
    | with_reducible assumption
    | with_reducible apply Dev.forVoices_keeps
    | with_reducible apply Dev.returnTokens_keeps
    | with_reducible apply Dev.begin1_keeps
    | split
    | exact id
    | intro _
    | dsimp only
    | (with_reducible refine Dev.Keeps.of_pair (by with_reducible assumption) ?_)

theorem Dev.ask_keeps (w_voices : W .voices) {d : Dev} (h : d.Keeps W r₀) (v : VoiceId) (source : TurnOnSource) (profile : Nat) (prio : Nat) :
  (Dev.ask d v source profile prio).Keeps W r₀ := by
  unfold Dev.ask
  try dsimp only
  repeat' first
    | with_reducible assumption
    | with_reducible apply Dev.modVoice_keeps
    | split
    | exact id
    | intro _
    | dsimp only
    | (with_reducible refine Dev.Keeps.of_pair (by with_reducible assumption) ?_)

theorem Dev.syncDomain_keeps (w_chain : W .chain) {d : Dev} (h : d.Keeps W r₀) :
  (Dev.syncDomain d).Keeps W r₀ := by
  unfold Dev.syncDomain
  try dsimp only
  repeat' first
    | with_reducible assumption
    | with_reducible apply Dev.returnDomain_keeps
    | split
    | with_reducible apply Dev.Keeps.chain
    | exact id
    | intro _
    | dsimp only
    | (with_reducible refine Dev.Keeps.of_pair (by with_reducible assumption) ?_)

theorem Dev.granted_keeps (w_voices : W .voices) (w_sc : W .sc) {d : Dev} (h : d.Keeps W r₀) (v : VoiceId) (w : Wait) :
  (Dev.granted d v w).Keeps W r₀ := by
  unfold Dev.granted
  try dsimp only
  repeat' first
    | with_reducible assumption
    | with_reducible apply Dev.modVoice_keeps
    | split
    | with_reducible apply Dev.Keeps.sc
    | exact id
    | intro _
    | dsimp only
    | (with_reducible refine Dev.Keeps.of_pair (by with_reducible assumption) ?_)

theorem Dev.grant1_keeps (w_voices : W .voices) (w_sc : W .sc) (w_chain : W .chain) {d : Dev} (h : d.Keeps W r₀) (v : VoiceId) :
  (Dev.grant1 d v).Keeps W r₀ := by
  unfold Dev.grant1
  try dsimp only
  repeat' first
    | with_reducible assumption
    | with_reducible apply Dev.modVoice_keeps
    | with_reducible apply Dev.granted_keeps
    | split
    | with_reducible apply Dev.Keeps.chain
    | exact id
    | intro _
    | dsimp only
    | (with_reducible refine Dev.Keeps.of_pair (by with_reducible assumption) ?_)

theorem Dev.raiseGate_keeps (w_voices : W .voices) {d : Dev} (h : d.Keeps W r₀) (v : VoiceId) :
  (Dev.raiseGate d v).Keeps W r₀ := by
  unfold Dev.raiseGate
  try dsimp only
  repeat' first
    | with_reducible assumption
    | with_reducible apply Dev.modVoice_keeps
    | with_reducible apply Dev.edgeEnergy_keeps
    | split
    | exact id
    | intro _
    | dsimp only
    | (with_reducible refine Dev.Keeps.of_pair (by with_reducible assumption) ?_)

theorem Dev.startRamp_keeps (w_port : W .port) (w_log : W .log) (w_voices : W .voices) (w_sc : W .sc) (w_chain : W .chain) {acc : Dev × Bool} (h : acc.1.Keeps W r₀) (v : VoiceId) :
  (Dev.startRamp acc v).1.Keeps W r₀ := by
  unfold Dev.startRamp
  try dsimp only
  repeat' first
    | with_reducible assumption
    | with_reducible apply Dev.beginUnit_keeps
    | with_reducible apply Dev.granted_keeps
    | with_reducible apply Dev.raiseGate_keeps
    | split
    | exact id
    | intro _
    | dsimp only
    | (with_reducible refine Dev.Keeps.of_pair (by with_reducible assumption) ?_)

theorem Dev.grants_keeps (w_port : W .port) (w_log : W .log) (w_voices : W .voices) (w_sc : W .sc) (w_chain : W .chain) {d : Dev} (h : d.Keeps W r₀) :
  (Dev.grants d).Keeps W r₀ := by
  unfold Dev.grants
  try dsimp only
  repeat' first
    | with_reducible assumption
    | with_reducible apply Dev.forVoices_keeps
    | with_reducible apply Dev.syncDomain_keeps
    | with_reducible apply Dev.grant1_keeps
    | with_reducible apply Dev.startRamp_keeps
    | split
    | with_reducible apply Dev.Keeps.foldl
    | with_reducible apply Dev.Keeps.foldl_pair
    | exact id
    | intro _
    | dsimp only
    | (with_reducible refine Dev.Keeps.of_pair (by with_reducible assumption) ?_)

theorem Dev.endRetry_keeps (w_voices : W .voices) {d : Dev} (h : d.Keeps W r₀) (v : VoiceId) :
  (Dev.endRetry d v).Keeps W r₀ := by
  unfold Dev.endRetry
  try dsimp only
  repeat' first
    | with_reducible assumption
    | with_reducible apply Dev.modVoice_keeps
    | with_reducible apply Dev.forVoices_keeps
    | split
    | exact id
    | intro _
    | dsimp only
    | (with_reducible refine Dev.Keeps.of_pair (by with_reducible assumption) ?_)

theorem Dev.askOff_keeps (w_voices : W .voices) (w_cues : W .cues) (w_chain : W .chain) (w_slotOffs : W .slotOffs) {d : Dev} (h : d.Keeps W r₀) (v : VoiceId) :
  (Dev.askOff d v).Keeps W r₀ := by
  unfold Dev.askOff
  try dsimp only
  repeat' first
    | with_reducible assumption
    | with_reducible apply Dev.modVoice_keeps
    | with_reducible apply Dev.forVoices_keeps
    | with_reducible apply Dev.withdraw_keeps
    | with_reducible apply Dev.endRetry_keeps
    | split
    | with_reducible apply Dev.Keeps.cues
    | with_reducible apply Dev.Keeps.slotOffs
    | exact id
    | intro _
    | dsimp only
    | (with_reducible refine Dev.Keeps.of_pair (by with_reducible assumption) ?_)
    | (simp only [List.length_map]; assumption)
    | exact Nat.le_trans (List.length_filter_le _ _) (by assumption)
    | exact Nat.le_trans (by simp) (by assumption)
    | exact Nat.le_trans (by simp only [List.length_drop]; exact Nat.sub_le _ _) (by assumption)
    | exact Nat.zero_le _

theorem Dev.askOn_keeps (w_port : W .port) (w_log : W .log) (w_voices : W .voices) (w_therm : W .therm) (w_chain : W .chain) (w_slotOffs : W .slotOffs) {d : Dev} (h : d.Keeps W r₀) (v : VoiceId) (source : TurnOnSource) (profile : Nat) (prio : Nat) :
  (Dev.askOn d v source profile prio).Keeps W r₀ := by
  unfold Dev.askOn
  try dsimp only
  repeat' first
    | with_reducible assumption
    | with_reducible apply Dev.modVoice_keeps
    | with_reducible apply Dev.forVoices_keeps
    | with_reducible apply Dev.turnOff_keeps
    | with_reducible apply Dev.ask_keeps
    | split
    | with_reducible apply Dev.Keeps.slotOffs
    | exact id
    | intro _
    | dsimp only
    | (with_reducible refine Dev.Keeps.of_pair (by with_reducible assumption) ?_)

theorem Dev.blipNext_keeps (w_voices : W .voices) (w_therm : W .therm) {a1 : Dev} (h : a1.Keeps W r₀) (a0 : List VoiceId) :
  (Dev.blipNext a0 a1).Keeps W r₀ := by
  induction a0 generalizing a1 with
  | nil => exact h
  | cons v vs ih =>
    unfold Dev.blipNext
    dsimp only
    repeat' first
      | with_reducible assumption
      | with_reducible apply ih
      | with_reducible apply Dev.modVoice_keeps
      | with_reducible apply Dev.forVoices_keeps
      | split
      | with_reducible apply Dev.Keeps.therm
      | intro _

theorem Dev.lhMove_keeps (w_voices : W .voices) {d : Dev} (h : d.Keeps W r₀) (v : VoiceId) :
  (Dev.lhMove d v).Keeps W r₀ := by
  unfold Dev.lhMove
  try dsimp only
  repeat' first
    | with_reducible assumption
    | with_reducible apply Dev.modVoice_keeps
    | split
    | exact id
    | intro _
    | dsimp only
    | (with_reducible refine Dev.Keeps.of_pair (by with_reducible assumption) ?_)

theorem Dev.lhWithhold_keeps (w_voices : W .voices) {d : Dev} (h : d.Keeps W r₀) (v : VoiceId) :
  (Dev.lhWithhold d v).Keeps W r₀ := by
  unfold Dev.lhWithhold
  try dsimp only
  repeat' first
    | with_reducible assumption
    | with_reducible apply Dev.modVoice_keeps
    | split
    | exact id
    | intro _
    | dsimp only
    | (with_reducible refine Dev.Keeps.of_pair (by with_reducible assumption) ?_)

theorem Dev.followLevel_keeps (w_port : W .port) (w_log : W .log) (w_voices : W .voices) (w_cues : W .cues) (w_therm : W .therm) (w_chain : W .chain) (w_slotOffs : W .slotOffs) {d : Dev} (h : d.Keeps W r₀) (v : VoiceId) :
  (Dev.followLevel d v).Keeps W r₀ := by
  unfold Dev.followLevel
  try dsimp only
  repeat' first
    | with_reducible assumption
    | with_reducible apply Dev.modVoice_keeps
    | with_reducible apply Dev.forVoices_keeps
    | with_reducible apply Dev.askOff_keeps
    | with_reducible apply Dev.askOn_keeps
    | with_reducible apply Dev.lhWithhold_keeps
    | split
    | with_reducible apply Dev.Keeps.slotOffs
    | exact id
    | intro _
    | dsimp only
    | (with_reducible refine Dev.Keeps.of_pair (by with_reducible assumption) ?_)

theorem Dev.followRetry_keeps (w_voices : W .voices) {d : Dev} (h : d.Keeps W r₀) (v : VoiceId) :
  (Dev.followRetry d v).Keeps W r₀ := by
  unfold Dev.followRetry
  try dsimp only
  repeat' first
    | with_reducible assumption
    | with_reducible apply Dev.ask_keeps
    | split
    | exact id
    | intro _
    | dsimp only
    | (with_reducible refine Dev.Keeps.of_pair (by with_reducible assumption) ?_)

theorem Dev.followLevels_keeps (w_port : W .port) (w_log : W .log) (w_voices : W .voices) (w_cues : W .cues) (w_therm : W .therm) (w_chain : W .chain) (w_slotOffs : W .slotOffs) {d : Dev} (h : d.Keeps W r₀) :
  (Dev.followLevels d).Keeps W r₀ := by
  unfold Dev.followLevels
  try dsimp only
  repeat' first
    | with_reducible assumption
    | with_reducible apply Dev.forVoices_keeps
    | with_reducible apply Dev.followLevel_keeps
    | split
    | exact id
    | intro _
    | dsimp only
    | (with_reducible refine Dev.Keeps.of_pair (by with_reducible assumption) ?_)

theorem Dev.followRetries_keeps (w_voices : W .voices) {d : Dev} (h : d.Keeps W r₀) :
  (Dev.followRetries d).Keeps W r₀ := by
  unfold Dev.followRetries
  try dsimp only
  repeat' first
    | with_reducible assumption
    | with_reducible apply Dev.forVoices_keeps
    | with_reducible apply Dev.followRetry_keeps
    | split
    | exact id
    | intro _
    | dsimp only
    | (with_reducible refine Dev.Keeps.of_pair (by with_reducible assumption) ?_)

end Sys2Proof.Machine
end

