-- ==== Sys2Proof/Laws/KeepsCues.lean ====
section
/-! SUPPORT. What each change of Cues.lean keeps (Laws/Keeps.lean): which parts it may change, and that every form stays. -/

namespace Sys2Proof.Machine
open Sys2Proof

variable {W : Part → Prop} {r₀ : Dev}

theorem Dev.newSlot_keeps (w_port : W .port) (w_odo : W .odo) (w_found : W .found) {d : Dev} (h : d.Keeps W r₀) :
  (Dev.newSlot d).Keeps W r₀ := by
  unfold Dev.newSlot
  extract_lets past due
  exact ((h.port w_port { d.port with lostNow := false, newsNow := false } id).found w_found _).odo w_odo _

theorem Dev.applyDuty_keeps (w_voices : W .voices) {d : Dev} (h : d.Keeps W r₀) (v : VoiceId) (duty : Nat) :
  (Dev.applyDuty d v duty).Keeps W r₀ := by
  unfold Dev.applyDuty
  try dsimp only
  repeat' first
    | with_reducible assumption
    | with_reducible apply Dev.modVoice_keeps
    | with_reducible apply Dev.forVoices_keeps
    | split
    | exact id
    | intro _
    | dsimp only
    | (with_reducible refine Dev.Keeps.of_pair (by with_reducible assumption) ?_)

theorem Dev.modCue_keeps (w_cues : W .cues) {d : Dev} (h : d.Keeps W r₀) (id : Word) (f : Cue → Cue) :
  (Dev.modCue d id f).Keeps W r₀ := by
  unfold Dev.modCue
  try dsimp only
  repeat' first
    | with_reducible assumption
    | with_reducible apply Dev.setCues_keeps
    | split
    | exact id
    | intro _
    | dsimp only
    | (with_reducible refine Dev.Keeps.of_pair (by with_reducible assumption) ?_)
    | (simp only [List.length_map]; assumption)
    | exact Nat.le_trans (List.length_filter_le _ _) (by assumption)
    | exact Nat.le_trans (by simp) (by assumption)
    | exact Nat.le_trans (by simp only [List.length_drop]; exact Nat.sub_le _ _) (by assumption)
    | exact Nat.zero_le _

theorem Dev.cueAct_keeps (w_port : W .port) (w_log : W .log) (w_voices : W .voices) (w_cues : W .cues) (w_therm : W .therm) (w_chain : W .chain) (w_slotOffs : W .slotOffs) {d : Dev} (h : d.Keeps W r₀) (c : Cue) (v : VoiceId) :
  (Dev.cueAct d c v).Keeps W r₀ := by
  unfold Dev.cueAct
  try dsimp only
  repeat' first
    | with_reducible assumption
    | with_reducible apply Dev.askOff_keeps
    | with_reducible apply Dev.askOn_keeps
    | with_reducible apply Dev.applyDuty_keeps
    | split
    | exact id
    | intro _
    | dsimp only
    | (with_reducible refine Dev.Keeps.of_pair (by with_reducible assumption) ?_)

theorem Dev.cueVoice_keeps (w_port : W .port) (w_log : W .log) (w_voices : W .voices) (w_cues : W .cues) (w_therm : W .therm) (w_chain : W .chain) (w_slotOffs : W .slotOffs) {d : Dev} (h : d.Keeps W r₀) (id : Word) (due : Bool) (v : VoiceId) :
  (Dev.cueVoice id due d v).Keeps W r₀ := by
  unfold Dev.cueVoice
  try dsimp only
  repeat' first
    | with_reducible assumption
    | with_reducible apply Dev.setCues_keeps
    | with_reducible apply Dev.modCue_keeps
    | with_reducible apply Dev.cueAct_keeps
    | split
    | exact id
    | intro _
    | dsimp only
    | (with_reducible refine Dev.Keeps.of_pair (by with_reducible assumption) ?_)
    | (simp only [List.length_map]; assumption)
    | exact Nat.le_trans (List.length_filter_le _ _) (by assumption)
    | exact Nat.le_trans (by simp) (by assumption)
    | exact Nat.le_trans (by simp only [List.length_drop]; exact Nat.sub_le _ _) (by assumption)
    | exact Nat.zero_le _

theorem Dev.cueEntry_keeps (w_port : W .port) (w_log : W .log) (w_voices : W .voices) (w_cues : W .cues) (w_therm : W .therm) (w_chain : W .chain) (w_slotOffs : W .slotOffs) {d : Dev} (h : d.Keeps W r₀) (id : Word) :
  (Dev.cueEntry d id).Keeps W r₀ := by
  unfold Dev.cueEntry
  try dsimp only
  repeat' first
    | with_reducible assumption
    | with_reducible apply Dev.modCue_keeps
    | with_reducible apply Dev.cueVoice_keeps
    | split
    | with_reducible apply Dev.Keeps.foldl
    | with_reducible apply Dev.Keeps.foldl_pair
    | exact id
    | intro _
    | dsimp only
    | (with_reducible refine Dev.Keeps.of_pair (by with_reducible assumption) ?_)

theorem Dev.cueSlot_keeps (w_port : W .port) (w_log : W .log) (w_voices : W .voices) (w_cues : W .cues) (w_therm : W .therm) (w_chain : W .chain) (w_slotOffs : W .slotOffs) {d : Dev} (h : d.Keeps W r₀) (p : Cue → Bool) :
  (Dev.cueSlot d p).Keeps W r₀ := by
  unfold Dev.cueSlot
  try dsimp only
  repeat' first
    | with_reducible assumption
    | with_reducible apply Dev.cueEntry_keeps
    | split
    | with_reducible apply Dev.Keeps.foldl
    | with_reducible apply Dev.Keeps.foldl_pair
    | exact id
    | intro _
    | dsimp only
    | (with_reducible refine Dev.Keeps.of_pair (by with_reducible assumption) ?_)

theorem Dev.cuesNow_keeps (w_port : W .port) (w_log : W .log) (w_voices : W .voices) (w_cues : W .cues) (w_therm : W .therm) (w_chain : W .chain) (w_slotOffs : W .slotOffs) {d : Dev} (h : d.Keeps W r₀) :
  (Dev.cuesNow d).Keeps W r₀ := by
  unfold Dev.cuesNow
  try dsimp only
  repeat' first
    | with_reducible assumption
    | with_reducible apply Dev.cueSlot_keeps
    | split
    | exact id
    | intro _
    | dsimp only
    | (with_reducible refine Dev.Keeps.of_pair (by with_reducible assumption) ?_)

theorem Dev.completeCues_keeps (w_cues : W .cues) {d : Dev} (h : d.Keeps W r₀) :
  (Dev.completeCues d).Keeps W r₀ := by
  unfold Dev.completeCues
  try dsimp only
  repeat' first
    | with_reducible assumption
    | with_reducible apply Dev.setCues_keeps
    | split
    | exact id
    | intro _
    | dsimp only
    | (with_reducible refine Dev.Keeps.of_pair (by with_reducible assumption) ?_)
    | (simp only [List.length_map]; assumption)
    | exact Nat.le_trans (List.length_filter_le _ _) (by assumption)
    | exact Nat.le_trans (by simp) (by assumption)
    | exact Nat.le_trans (by simp only [List.length_drop]; exact Nat.sub_le _ _) (by assumption)
    | exact Nat.zero_le _

theorem Dev.cancelCues_keeps (w_cues : W .cues) {d : Dev} (h : d.Keeps W r₀) :
  (Dev.cancelCues d).Keeps W r₀ := by
  unfold Dev.cancelCues
  try dsimp only
  repeat' first
    | with_reducible assumption
    | with_reducible apply Dev.setCues_keeps
    | split
    | exact id
    | intro _
    | dsimp only
    | (with_reducible refine Dev.Keeps.of_pair (by with_reducible assumption) ?_)
    | (simp only [List.length_map]; assumption)
    | exact Nat.le_trans (List.length_filter_le _ _) (by assumption)
    | exact Nat.le_trans (by simp) (by assumption)
    | exact Nat.le_trans (by simp only [List.length_drop]; exact Nat.sub_le _ _) (by assumption)
    | exact Nat.zero_le _

end Sys2Proof.Machine
end

