-- ==== Sys2Proof/Laws/KeepsEdges.lean ====
section
/-! SUPPORT. What each change of Edges.lean keeps (Laws/Keeps.lean): which parts it may change, and that every form stays. -/

namespace Sys2Proof.Machine
open Sys2Proof

variable {W : Part → Prop} {r₀ : Dev}

theorem Dev.modTally_keeps (w_tally : W .tally) {d : Dev} (h : d.Keeps W r₀) (i : Fin 8) (f : TallyInput → TallyInput) :
  (Dev.modTally d i f).Keeps W r₀ := by
  unfold Dev.modTally
  try dsimp only
  repeat' first
    | with_reducible assumption
    | split
    | with_reducible apply Dev.Keeps.tally
    | exact id
    | intro _
    | dsimp only
    | (with_reducible refine Dev.Keeps.of_pair (by with_reducible assumption) ?_)

theorem Dev.odoLose_keeps (w_odo : W .odo) {d : Dev} (h : d.Keeps W r₀) :
  (Dev.odoLose d).Keeps W r₀ := by
  unfold Dev.odoLose
  try dsimp only
  repeat' first
    | with_reducible assumption
    | split
    | with_reducible apply Dev.Keeps.odo
    | exact id
    | intro _
    | dsimp only
    | (with_reducible refine Dev.Keeps.of_pair (by with_reducible assumption) ?_)

theorem Dev.odoRegain_keeps (w_odo : W .odo) {d : Dev} (h : d.Keeps W r₀) :
  (Dev.odoRegain d).Keeps W r₀ := by
  unfold Dev.odoRegain
  try dsimp only
  repeat' first
    | with_reducible assumption
    | split
    | with_reducible apply Dev.Keeps.odo
    | exact id
    | intro _
    | dsimp only
    | (with_reducible refine Dev.Keeps.of_pair (by with_reducible assumption) ?_)

theorem Dev.odoEdge_keeps (w_port : W .port) (w_log : W .log) (w_odo : W .odo) {d : Dev} (h : d.Keeps W r₀) (stamp : Int) :
  (Dev.odoEdge d stamp).Keeps W r₀ := by
  unfold Dev.odoEdge
  try dsimp only
  repeat' first
    | with_reducible assumption
    | with_reducible apply Dev.event_keeps
    | split
    | with_reducible apply Dev.Keeps.odo
    | exact id
    | intro _
    | dsimp only
    | (with_reducible refine Dev.Keeps.of_pair (by with_reducible assumption) ?_)

theorem Dev.groundNone_keeps (w_port : W .port) (w_log : W .log) (w_tally : W .tally) (w_odo : W .odo) {d : Dev} (h : d.Keeps W r₀) (lost : Fin 8) :
  (Dev.groundNone d lost).Keeps W r₀ := by
  unfold Dev.groundNone
  try dsimp only
  repeat' first
    | with_reducible assumption
    | with_reducible apply Dev.event_keeps
    | with_reducible apply Dev.odoLose_keeps
    | split
    | with_reducible apply Dev.Keeps.tally
    | with_reducible apply Dev.Keeps.odo
    | with_reducible apply Dev.Keeps.tally_odo
    | exact id
    | intro _
    | dsimp only
    | (with_reducible refine Dev.Keeps.of_pair (by with_reducible assumption) ?_)

theorem Dev.groundMove_keeps (w_odo : W .odo) {d : Dev} (h : d.Keeps W r₀) (src : GroundSource) (i : Fin 8) :
  (Dev.groundMove d src i).Keeps W r₀ := by
  unfold Dev.groundMove
  try dsimp only
  repeat' first
    | with_reducible assumption
    | split
    | with_reducible apply Dev.Keeps.odo
    | exact id
    | intro _
    | dsimp only
    | (with_reducible refine Dev.Keeps.of_pair (by with_reducible assumption) ?_)

theorem Dev.groundReturn_keeps (w_port : W .port) (w_log : W .log) (w_odo : W .odo) {d : Dev} (h : d.Keeps W r₀) (i : Fin 8) (stamp : Int) (period : Int) :
  (Dev.groundReturn d i stamp period).Keeps W r₀ := by
  unfold Dev.groundReturn
  try dsimp only
  repeat' first
    | with_reducible assumption
    | with_reducible apply Dev.event_keeps
    | split
    | with_reducible apply Dev.Keeps.odo
    | exact id
    | intro _
    | dsimp only
    | (with_reducible refine Dev.Keeps.of_pair (by with_reducible assumption) ?_)

theorem Dev.fifoPush_keeps (w_port : W .port) (w_log : W .log) (w_tally : W .tally) {d : Dev} (h : d.Keeps W r₀) (i : Fin 8) (e : FifoEntry) :
  (Dev.fifoPush d i e).Keeps W r₀ := by
  unfold Dev.fifoPush
  try dsimp only
  repeat' first
    | with_reducible assumption
    | with_reducible apply Dev.event_keeps
    | with_reducible apply Dev.modTally_keeps
    | split
    | exact id
    | intro _
    | dsimp only
    | (with_reducible refine Dev.Keeps.of_pair (by with_reducible assumption) ?_)

theorem Dev.countingEdge_keeps (w_port : W .port) (w_log : W .log) (w_tally : W .tally) (w_odo : W .odo) {d : Dev} (h : d.Keeps W r₀) (i : Fin 8) (stamp : Int) :
  (Dev.countingEdge d i stamp).Keeps W r₀ := by
  unfold Dev.countingEdge
  try dsimp only
  repeat' first
    | with_reducible assumption
    | with_reducible apply Dev.event_keeps
    | with_reducible apply Dev.modTally_keeps
    | with_reducible apply Dev.odoEdge_keeps
    | with_reducible apply Dev.groundReturn_keeps
    | split
    | exact id
    | intro _
    | dsimp only
    | (with_reducible refine Dev.Keeps.of_pair (by with_reducible assumption) ?_)

theorem Dev.timestampEdge_keeps (w_port : W .port) (w_log : W .log) (w_tally : W .tally) (w_odo : W .odo) {d : Dev} (h : d.Keeps W r₀) (i : Fin 8) (rising : Bool) (link : Int) :
  (Dev.timestampEdge d i rising link).Keeps W r₀ := by
  unfold Dev.timestampEdge
  try dsimp only
  repeat' first
    | with_reducible assumption
    | with_reducible apply Dev.modTally_keeps
    | with_reducible apply Dev.fifoPush_keeps
    | with_reducible apply Dev.countingEdge_keeps
    | split
    | exact id
    | intro _
    | dsimp only
    | (with_reducible refine Dev.Keeps.of_pair (by with_reducible assumption) ?_)

theorem Dev.ripeEdges_keeps (w_edges : W .edges) {d : Dev} (h : d.Keeps W r₀) :
  (Dev.ripeEdges d).Keeps W r₀ := by
  unfold Dev.ripeEdges
  try dsimp only
  repeat' first
    | with_reducible assumption
    | split
    | with_reducible apply Dev.Keeps.edges
    | exact id
    | intro _
    | dsimp only
    | (with_reducible refine Dev.Keeps.of_pair (by with_reducible assumption) ?_)

theorem Dev.takeEdges_keeps (w_port : W .port) (w_log : W .log) (w_tally : W .tally) (w_odo : W .odo) (w_edges : W .edges) {d : Dev} (h : d.Keeps W r₀) :
  (Dev.takeEdges d).Keeps W r₀ := by
  unfold Dev.takeEdges
  try dsimp only
  repeat' first
    | with_reducible assumption
    | with_reducible apply Dev.modTally_keeps
    | with_reducible apply Dev.timestampEdge_keeps
    | split
    | with_reducible apply Dev.Keeps.foldl
    | with_reducible apply Dev.Keeps.foldl_pair
    | with_reducible apply Dev.Keeps.edges
    | exact id
    | intro _
    | dsimp only
    | (with_reducible refine Dev.Keeps.of_pair (by with_reducible assumption) ?_)

end Sys2Proof.Machine
end

