-- ==== Sys2Proof/Laws/KeepsSlot.lean ====
section
/-! SUPPORT. What each change of Slot.lean keeps (Laws/Keeps.lean): which parts it may change, and that every form stays. -/

namespace Sys2Proof.Machine
open Sys2Proof

variable {W : Part → Prop} {r₀ : Dev}

theorem Dev.settleReplies_keeps (w_port : W .port) (w_chain : W .chain) {d : Dev} (h : d.Keeps W r₀) :
  (Dev.settleReplies d).Keeps W r₀ := by
  unfold Dev.settleReplies
  try dsimp only
  repeat' first
    | with_reducible assumption
    | split
    | with_reducible apply Dev.Keeps.foldl
    | with_reducible apply Dev.Keeps.foldl_pair
    | with_reducible apply Dev.Keeps.port
    | with_reducible apply Dev.Keeps.chain
    | with_reducible apply Dev.Keeps.port_chain
    | exact id
    | intro _
    | dsimp only
    | (with_reducible refine Dev.Keeps.of_pair (by with_reducible assumption) ?_)
    | (simp only [List.length_map]; assumption)
    | exact Nat.le_trans (List.length_filter_le _ _) (by assumption)
    | exact Nat.le_trans (by simp) (by assumption)
    | exact Nat.le_trans (by simp only [List.length_drop]; exact Nat.sub_le _ _) (by assumption)
    | exact Nat.zero_le _

theorem Dev.levelsAndCues_keeps (w_port : W .port) (w_log : W .log) (w_voices : W .voices) (w_cues : W .cues) (w_tally : W .tally) (w_odo : W .odo) (w_therm : W .therm) (w_chain : W .chain) (w_slotOffs : W .slotOffs) (w_edges : W .edges) {d : Dev} (h : d.Keeps W r₀) :
  (Dev.levelsAndCues d).Keeps W r₀ := by
  unfold Dev.levelsAndCues
  try dsimp only
  repeat' first
    | with_reducible assumption
    | with_reducible apply Dev.followLevels_keeps
    | with_reducible apply Dev.cuesNow_keeps
    | with_reducible apply Dev.takeEdges_keeps
    | split
    | exact id
    | intro _
    | dsimp only
    | (with_reducible refine Dev.Keeps.of_pair (by with_reducible assumption) ?_)

theorem Dev.endSlot_keeps (w_port : W .port) (w_log : W .log) (w_voices : W .voices) (w_cues : W .cues) (w_tally : W .tally) (w_odo : W .odo) (w_sc : W .sc) (w_therm : W .therm) (w_chain : W .chain) (w_slotOffs : W .slotOffs) (w_slotFaults : W .slotFaults) (w_edges : W .edges) {d : Dev} (h : d.Keeps W r₀) :
  (Dev.endSlot d).Keeps W r₀ := by
  unfold Dev.endSlot
  try dsimp only
  repeat' first
    | with_reducible assumption
    | with_reducible apply Dev.forVoices_keeps
    | with_reducible apply Dev.turnOffUnit_keeps
    | with_reducible apply Dev.grants_keeps
    | with_reducible apply Dev.blipNext_keeps
    | with_reducible apply Dev.lhMove_keeps
    | with_reducible apply Dev.followRetries_keeps
    | with_reducible apply Dev.completeCues_keeps
    | with_reducible apply Dev.settleReplies_keeps
    | with_reducible apply Dev.levelsAndCues_keeps
    | split
    | with_reducible apply Dev.Keeps.slotOffs
    | with_reducible apply Dev.Keeps.slotFaults
    | with_reducible apply Dev.Keeps.slotOffs_slotFaults
    | exact id
    | intro _
    | dsimp only
    | (with_reducible refine Dev.Keeps.of_pair (by with_reducible assumption) ?_)

theorem Dev.holdCount_keeps (w_time : W .time) (w_chain : W .chain) {d : Dev} (h : d.Keeps W r₀) :
  (Dev.holdCount d).Keeps W r₀ := by
  unfold Dev.holdCount
  try dsimp only
  repeat' first
    | with_reducible assumption
    | split
    | with_reducible apply Dev.Keeps.time
    | with_reducible apply Dev.Keeps.chain
    | with_reducible apply Dev.Keeps.time_chain
    | exact id
    | intro _
    | dsimp only
    | (with_reducible refine Dev.Keeps.of_pair (by with_reducible assumption) ?_)

end Sys2Proof.Machine
end

