-- ==== Sys2Proof/Laws/Runs.lean ====
section
/-! SUPPORT. A command that runs by `State.run` has a next state and leaves the queue; the slots before it end and settle, and then
its action alone changes the device. -/

namespace Sys2Proof.Machine
open Sys2Proof

/-- The outcome `o` of a command on `s`: a next state, with the queue as it was, a settled slot, and only the parts in `W`
changed since `n` slots had passed. -/
def Runs (W : Part → Prop) (s : State) (n : Nat) (o : Host.Outcome State Fault Refusal) : Prop :=
  ∃ t, o = .next t ∧ t.pending = s.pending ∧ ((s.turn n).slot.Settled → t.slot.Settled) ∧ t.dev.Keeps W (s.turn n).dev

/-! ### The end of a slot -/

/-- Replies that join the upstream stream leave no reply of the chain and no downbeat behind. -/
theorem Chain.pushReply_rest (l : List (List Byte)) (c : Chain) (hr : c.replies = []) (hb : c.beat = false) :
    (l.foldl Chain.pushReply c).replies = [] ∧ (l.foldl Chain.pushReply c).beat = false := by
  induction l generalizing c with
  | nil => exact ⟨hr, hb⟩
  | cons x l ih =>
    refine ih _ ?_ ?_ <;> unfold Chain.pushReply <;> (repeat' split) <;> assumption

theorem Dev.settleReplies_settled (d : Dev) (ho : d.slotOffs = 0) (hf : d.slotFaults = []) (he : ∀ e ∈ d.edges, e.at_ = d.now) :
    (∀ r ∈ d.settleReplies.port.replies, r.settle = none) ∧ d.settleReplies.chain.replies = [] ∧
      d.settleReplies.chain.beat = false ∧ d.settleReplies.slotOffs = 0 ∧ d.settleReplies.slotFaults = [] ∧
      ∀ e ∈ d.settleReplies.edges, e.at_ = d.settleReplies.now := by
  refine ⟨fun r hr => ?_, (Chain.pushReply_rest _ _ rfl rfl).1, (Chain.pushReply_rest _ _ rfl rfl).2, ho, hf, he⟩
  obtain ⟨q, _, rfl⟩ := List.mem_map.1 hr
  split
  · rfl
  · assumption

/-- An edge that the end of a slot leaves came in that slot: it waits for one of the next (09 R264). -/
theorem Dev.takeEdges_edges (d : Dev) : ∀ e ∈ d.takeEdges.edges, e.at_ = d.now := by
  unfold Dev.takeEdges
  dsimp only
  generalize dropPairs d.edges = p
  obtain ⟨es, glitches⟩ := p
  dsimp only
  have h0 : (glitches.foldl (fun (d : Dev) i => d.modTally i fun x => { x with glitch := stick 16 (x.glitch + 1) })
      { d with edges := es.filter (LinkEdge.waits d.now) }).Keeps (· ≠ .edges)
      { d with edges := es.filter (LinkEdge.waits d.now) } :=
    Dev.Keeps.foldl (.refl _) (fun x hx i => Dev.modTally_keeps (by decide) hx _ _) _
  have h := (Dev.Keeps.foldl (W := (· ≠ .edges)) (f := fun (d : Dev) (e : LinkEdge) => d.timestampEdge e.input e.rising e.stamp)
    h0 (fun x hx e => by apply Dev.timestampEdge_keeps <;> first | decide | exact hx) (List.filter (fun e => decide (e.input = d.primary)) (es.filter fun e => !e.waits d.now) ++
      List.filter (fun e => decide (e.input ≠ d.primary)) (es.filter fun e => !e.waits d.now))).frame .edges fun k => k rfl
  intro e he
  replace he := Eq.subst (motive := fun l => e ∈ l) h he
  have hw := (List.mem_filter.1 he).2
  unfold LinkEdge.waits at hw
  simp only [Bool.and_eq_true, decide_eq_true_eq] at hw
  exact hw.1

/-- The end of a slot leaves nothing of it over but tally edges that wait for one of the next (09 R264). -/
theorem Dev.endSlot_settled (d : Dev) :
    (∀ r ∈ d.endSlot.port.replies, r.settle = none) ∧ d.endSlot.chain.replies = [] ∧ d.endSlot.chain.beat = false ∧
      d.endSlot.slotOffs = 0 ∧ d.endSlot.slotFaults = [] ∧ ∀ e ∈ d.endSlot.edges, e.at_ = d.endSlot.now := by
  unfold Dev.endSlot
  extract_lets d0 d1 d2
  have hd : d1.Keeps (fun p => p ≠ .edges ∧ p ≠ .time) d.takeEdges := by
    unfold d1 d0 Dev.levelsAndCues
    apply Dev.forVoices_keeps
    · apply Dev.followRetries_keeps <;> first | decide | skip
      apply Dev.cuesNow_keeps <;> first | decide | skip
      apply Dev.followLevels_keeps <;> first | decide | exact .refl _
    · intro x hx v
      apply Dev.turnOffUnit_keeps <;> first | decide | skip
      apply Dev.lhMove_keeps <;> first | decide | exact hx
  have ht : d.takeEdges.Keeps (· ≠ .time) d := by apply Dev.takeEdges_keeps <;> first | decide | exact .refl _
  have he : ∀ e ∈ d1.edges, e.at_ = d1.now := by
    have e1 : d1.edges = d.takeEdges.edges := hd.frame .edges fun k => k.1 rfl
    have e2 : d1.time = d.time := (hd.frame .time fun k => k.2 rfl).trans (ht.frame .time fun k => k rfl)
    rw [e1]
    unfold Dev.now
    rw [e2]
    exact d.takeEdges_edges
  have h : (d2.grants.completeCues).Keeps (fun p => p ≠ .slotOffs ∧ p ≠ .slotFaults ∧ p ≠ .edges ∧ p ≠ .time)
      { d1 with slotOffs := 0, slotFaults := [] } := by
    apply Dev.completeCues_keeps (by decide)
    apply Dev.grants_keeps <;> first | decide | skip
    apply Dev.blipNext_keeps <;> first | decide | exact .refl _
  have h1 : d2.grants.completeCues.edges = d1.edges := h.frame .edges (by decide)
  have h2 : d2.grants.completeCues.time = d1.time := h.frame .time (by decide)
  refine Dev.settleReplies_settled _ (h.frame .slotOffs (by decide)) (h.frame .slotFaults (by decide)) ?_
  rw [h1]
  unfold Dev.now
  rw [h2]
  exact he

/-! ### Slots pass -/

variable {W : Part → Prop}

@[simp] theorem State.turn_zero (s : State) : s.turn 0 = s := rfl

@[simp] theorem State.turn_pending (s : State) (n : Nat) : (s.turn n).pending = s.pending := by
  unfold State.turn
  split <;> rfl

@[simp] theorem State.turn_snap (s : State) (n : Nat) : (s.turn n).snap = s.snap := by
  unfold State.turn
  split <;> rfl

/-- A slot begins settled. -/
theorem State.turn_settled {s : State} (n : Nat) (h : s.slot.Settled) : (s.turn n).slot.Settled := by
  unfold State.turn
  split
  · exact h
  · rename_i hn
    dsimp only
    generalize (if n = 1 then s.dev else s.dev.ripeEdges) = d0
    obtain ⟨hr, hc, hb, ho, hf, he⟩ := d0.endSlot_settled
    have ht : ∀ f : Dev, (f.tellNews s.dev s.snap).Keeps (· = .port) f := fun f => Dev.tellNews_keeps (W := (· = .port)) rfl (.refl _) _ _
    have hp : (d0.endSlot.tellNews s.dev s.snap).port.replies = d0.endSlot.port.replies := by
      unfold Dev.tellNews
      split <;> rfl
    have k := ht d0.endSlot
    generalize d0.endSlot.tellNews s.dev s.snap = d1 at k hp ⊢
    have kc : d1.chain = d0.endSlot.chain := k.frame .chain (by decide)
    have ke : d1.edges = d0.endSlot.edges := k.frame .edges (by decide)
    have kt : d1.time = d0.endSlot.time := k.frame .time (by decide)
    have ko : d1.slotOffs = d0.endSlot.slotOffs := k.frame .slotOffs (by decide)
    have kf : d1.slotFaults = d0.endSlot.slotFaults := k.frame .slotFaults (by decide)
    have hnow : ∀ e ∈ d1.edges, e.at_ < d1.time.now + 8 * n := fun e h => by
      rw [ke] at h
      have := he e h
      unfold Dev.now at this
      rw [kt]
      omega
    unfold Dev.holdCount
    split
    · exact ⟨fun r hm => hr r (hp ▸ hm), kc ▸ hc, kc ▸ hb, ko ▸ ho, kf ▸ hf, hnow⟩
    · exact ⟨fun r hm => hr r (hp ▸ hm), kc ▸ hc, kc ▸ hb, ko ▸ ho, kf ▸ hf, hnow⟩

/-- What the end of a slot and the passing of time may change. -/
theorem State.turn_keeps (w_time : W .time) (w_port : W .port) (w_log : W .log) (w_voices : W .voices) (w_cues : W .cues) (w_tally : W .tally) (w_odo : W .odo) (w_sc : W .sc) (w_therm : W .therm) (w_score : W .score) (w_chain : W .chain) (w_slotOffs : W .slotOffs) (w_slotFaults : W .slotFaults) (w_edges : W .edges) (w_found : W .found) {s : State} {b : Dev} (n : Nat) (h : s.dev.Keeps W b) : (s.turn n).dev.Keeps W b := by
  unfold State.turn
  split
  · exact h
  · refine Dev.newSlot_keeps w_port w_odo w_found (Dev.holdCount_keeps w_time w_chain
      (Dev.advance_keeps w_time w_score (Dev.tellNews_keeps w_port ?_ _ _) n))
    apply Dev.endSlot_keeps <;> try assumption
    split
    · exact h
    · exact Dev.ripeEdges_keeps w_edges h

/-! ### A command -/

@[simp] theorem State.after_slot (s : State) (n : Nat) (f : Dev → Dev) : (s.after n f).slot = (s.turn n).slot := rfl

@[simp] theorem State.after_pending (s : State) (n : Nat) (f : Dev → Dev) : (s.after n f).pending = s.pending :=
  s.turn_pending n

theorem State.after_keeps (w_port : W .port) {s : State} {n : Nat} {f : Dev → Dev} {b : Dev}
    (hf : (f (s.turn n).dev).Keeps W b) : (s.after n f).dev.Keeps W b := Dev.tellNews_keeps w_port hf _ _

theorem State.run_keeps (w_port : W .port) {s : State} {n : Nat} {f : Dev → Dev}
    (hf : ∀ d : Dev, d.Keeps W (s.turn n).dev → (f d).Keeps W (s.turn n).dev) : Runs W s n (s.run n f) :=
  ⟨s.after n f, rfl, s.turn_pending n, id, State.after_keeps w_port (hf _ (.refl _))⟩

end Sys2Proof.Machine
end

