-- ==== Sys2Proof/Laws/Effects.lean ====
section
/-! SUPPORT. How a statement about one command is used: the outcome of a command whose action is known on the device it meets,
and what stands after it. News moves IRQN alone, so that every other part is what the action left. -/

namespace Sys2Proof.Machine
open Sys2Proof

/-- News lowers IRQN on an open port, which the next snapshot has not shown, and changes nothing else. -/
theorem Dev.tellNews_eq (d d0 prev : Dev) :
    ∃ b n, d.tellNews d0 prev = { d with port := { d.port with irqn := b, newsNow := n } } := by
  unfold Dev.tellNews
  split
  · exact ⟨_, _, rfl⟩
  · exact ⟨d.port.irqn, d.port.newsNow, rfl⟩

/-- A command that leaves the device as it meets it is no news. -/
theorem Dev.tellNews_self (d prev : Dev) : d.tellNews d prev = d := by
  have h : risen (d.newsBits prev) (d.newsBits prev) = false := by
    unfold risen
    generalize d.newsBits prev = l
    induction l with
    | nil => rfl
    | cons b l ih => cases b <;> simpa using ih
  simp [Dev.tellNews, h]

/-- A command's end depends on its action only where the action acts. -/
theorem State.after_congr {s : State} {dt : Nat} {f g : Dev → Dev} (h : f (s.turn dt).dev = g (s.turn dt).dev) :
    s.after dt f = s.after dt g := by
  unfold State.after
  dsimp only
  rw [h]

/-- The outcome of a command that makes the device `e`. -/
theorem State.run_eq {s : State} {dt : Nat} {f : Dev → Dev} {e : Dev} (h : f (s.turn dt).dev = e) :
    s.run dt f = .next (s.after dt fun _ => e) := congrArg Host.Outcome.next (State.after_congr (g := fun _ => e) h)

/-- What stands after a command, IRQN aside: what its action made of the device. -/
theorem State.after_dev (s : State) (dt : Nat) (f : Dev → Dev) : ∃ b n,
    (s.after dt f).dev = { f (s.turn dt).dev with port := { (f (s.turn dt).dev).port with irqn := b, newsNow := n } } :=
  Dev.tellNews_eq _ _ _

/-- A command without effect leaves the device as it meets it. -/
theorem State.after_same {s : State} {dt : Nat} {f : Dev → Dev} (h : f (s.turn dt).dev = (s.turn dt).dev) :
    (s.after dt f).dev = (s.turn dt).dev := by
  show ((f (s.turn dt).dev).tellNews (s.turn dt).dev (s.turn dt).snap) = _
  rw [h, Dev.tellNews_self]

@[simp] theorem State.after_headPin (s : State) (dt : Nat) (f : Dev → Dev) :
    (s.after dt f).dev.headPin = (f (s.turn dt).dev).headPin := by
  obtain ⟨b, n, h⟩ := s.after_dev dt f
  rw [h]
@[simp] theorem State.after_time (s : State) (dt : Nat) (f : Dev → Dev) :
    (s.after dt f).dev.time = (f (s.turn dt).dev).time := by
  obtain ⟨b, n, h⟩ := s.after_dev dt f
  rw [h]
@[simp] theorem State.after_ctl (s : State) (dt : Nat) (f : Dev → Dev) :
    (s.after dt f).dev.ctl = (f (s.turn dt).dev).ctl := by
  obtain ⟨b, n, h⟩ := s.after_dev dt f
  rw [h]
@[simp] theorem State.after_ka (s : State) (dt : Nat) (f : Dev → Dev) :
    (s.after dt f).dev.ka = (f (s.turn dt).dev).ka := by
  obtain ⟨b, n, h⟩ := s.after_dev dt f
  rw [h]
@[simp] theorem State.after_log (s : State) (dt : Nat) (f : Dev → Dev) :
    (s.after dt f).dev.log = (f (s.turn dt).dev).log := by
  obtain ⟨b, n, h⟩ := s.after_dev dt f
  rw [h]
@[simp] theorem State.after_par (s : State) (dt : Nat) (f : Dev → Dev) :
    (s.after dt f).dev.par = (f (s.turn dt).dev).par := by
  obtain ⟨b, n, h⟩ := s.after_dev dt f
  rw [h]
@[simp] theorem State.after_voices (s : State) (dt : Nat) (f : Dev → Dev) :
    (s.after dt f).dev.voices = (f (s.turn dt).dev).voices := by
  obtain ⟨b, n, h⟩ := s.after_dev dt f
  rw [h]
@[simp] theorem State.after_banks (s : State) (dt : Nat) (f : Dev → Dev) :
    (s.after dt f).dev.banks = (f (s.turn dt).dev).banks := by
  obtain ⟨b, n, h⟩ := s.after_dev dt f
  rw [h]
@[simp] theorem State.after_staggers (s : State) (dt : Nat) (f : Dev → Dev) :
    (s.after dt f).dev.staggers = (f (s.turn dt).dev).staggers := by
  obtain ⟨b, n, h⟩ := s.after_dev dt f
  rw [h]
@[simp] theorem State.after_lh (s : State) (dt : Nat) (f : Dev → Dev) :
    (s.after dt f).dev.lh = (f (s.turn dt).dev).lh := by
  obtain ⟨b, n, h⟩ := s.after_dev dt f
  rw [h]
@[simp] theorem State.after_cues (s : State) (dt : Nat) (f : Dev → Dev) :
    (s.after dt f).dev.cues = (f (s.turn dt).dev).cues := by
  obtain ⟨b, n, h⟩ := s.after_dev dt f
  rw [h]
@[simp] theorem State.after_tally (s : State) (dt : Nat) (f : Dev → Dev) :
    (s.after dt f).dev.tally = (f (s.turn dt).dev).tally := by
  obtain ⟨b, n, h⟩ := s.after_dev dt f
  rw [h]
@[simp] theorem State.after_odo (s : State) (dt : Nat) (f : Dev → Dev) :
    (s.after dt f).dev.odo = (f (s.turn dt).dev).odo := by
  obtain ⟨b, n, h⟩ := s.after_dev dt f
  rw [h]
@[simp] theorem State.after_sc (s : State) (dt : Nat) (f : Dev → Dev) :
    (s.after dt f).dev.sc = (f (s.turn dt).dev).sc := by
  obtain ⟨b, n, h⟩ := s.after_dev dt f
  rw [h]
@[simp] theorem State.after_conv (s : State) (dt : Nat) (f : Dev → Dev) :
    (s.after dt f).dev.conv = (f (s.turn dt).dev).conv := by
  obtain ⟨b, n, h⟩ := s.after_dev dt f
  rw [h]
@[simp] theorem State.after_wave (s : State) (dt : Nat) (f : Dev → Dev) :
    (s.after dt f).dev.wave = (f (s.turn dt).dev).wave := by
  obtain ⟨b, n, h⟩ := s.after_dev dt f
  rw [h]
@[simp] theorem State.after_therm (s : State) (dt : Nat) (f : Dev → Dev) :
    (s.after dt f).dev.therm = (f (s.turn dt).dev).therm := by
  obtain ⟨b, n, h⟩ := s.after_dev dt f
  rw [h]
@[simp] theorem State.after_nv (s : State) (dt : Nat) (f : Dev → Dev) :
    (s.after dt f).dev.nv = (f (s.turn dt).dev).nv := by
  obtain ⟨b, n, h⟩ := s.after_dev dt f
  rw [h]
@[simp] theorem State.after_score (s : State) (dt : Nat) (f : Dev → Dev) :
    (s.after dt f).dev.score = (f (s.turn dt).dev).score := by
  obtain ⟨b, n, h⟩ := s.after_dev dt f
  rw [h]
@[simp] theorem State.after_link (s : State) (dt : Nat) (f : Dev → Dev) :
    (s.after dt f).dev.link = (f (s.turn dt).dev).link := by
  obtain ⟨b, n, h⟩ := s.after_dev dt f
  rw [h]
@[simp] theorem State.after_chain (s : State) (dt : Nat) (f : Dev → Dev) :
    (s.after dt f).dev.chain = (f (s.turn dt).dev).chain := by
  obtain ⟨b, n, h⟩ := s.after_dev dt f
  rw [h]
@[simp] theorem State.after_patch (s : State) (dt : Nat) (f : Dev → Dev) :
    (s.after dt f).dev.patch = (f (s.turn dt).dev).patch := by
  obtain ⟨b, n, h⟩ := s.after_dev dt f
  rw [h]
@[simp] theorem State.after_pd (s : State) (dt : Nat) (f : Dev → Dev) :
    (s.after dt f).dev.pd = (f (s.turn dt).dev).pd := by
  obtain ⟨b, n, h⟩ := s.after_dev dt f
  rw [h]
@[simp] theorem State.after_slotOffs (s : State) (dt : Nat) (f : Dev → Dev) :
    (s.after dt f).dev.slotOffs = (f (s.turn dt).dev).slotOffs := by
  obtain ⟨b, n, h⟩ := s.after_dev dt f
  rw [h]
@[simp] theorem State.after_slotFaults (s : State) (dt : Nat) (f : Dev → Dev) :
    (s.after dt f).dev.slotFaults = (f (s.turn dt).dev).slotFaults := by
  obtain ⟨b, n, h⟩ := s.after_dev dt f
  rw [h]
@[simp] theorem State.after_edges (s : State) (dt : Nat) (f : Dev → Dev) :
    (s.after dt f).dev.edges = (f (s.turn dt).dev).edges := by
  obtain ⟨b, n, h⟩ := s.after_dev dt f
  rw [h]
@[simp] theorem State.after_found (s : State) (dt : Nat) (f : Dev → Dev) :
    (s.after dt f).dev.found = (f (s.turn dt).dev).found := by
  obtain ⟨b, n, h⟩ := s.after_dev dt f
  rw [h]

/-- The port after a command, IRQN aside. -/
theorem State.after_port (s : State) (dt : Nat) (f : Dev → Dev) :
    ∃ b n, (s.after dt f).dev.port = { (f (s.turn dt).dev).port with irqn := b, newsNow := n } := by
  obtain ⟨b, n, h⟩ := s.after_dev dt f
  exact ⟨b, n, by rw [h]⟩

@[simp] theorem State.after_replies (s : State) (dt : Nat) (f : Dev → Dev) :
    (s.after dt f).dev.port.replies = (f (s.turn dt).dev).port.replies := by
  obtain ⟨b, n, h⟩ := s.after_dev dt f
  rw [h]

/-- A command that leaves the log with these events has logged them. -/
theorem State.after_logged {s : State} {dt : Nat} {d e : Dev} {es : List (Nat × Nat × List Byte)} (h : e.log = d.loggedAs es) :
    Logged d es (s.after dt fun _ => e) := (s.after_log dt fun _ => e).trans h

/-- An event in the log (05 R142). -/
theorem Dev.event_logged (d : Dev) (code unit : Nat) (data : List Byte) (h : d.ctl.por = false) :
    (d.event code unit data).log = d.loggedAs [(code, unit, data)] := by
  unfold Dev.event
  rw [h]
  rfl

end Sys2Proof.Machine
end

