-- ==== Sys2Proof/Laws/KeepsConverter.lean ====
section
/-! SUPPORT. What each change of Converter.lean keeps (Laws/Keeps.lean): which parts it may change, and that every form stays. -/

namespace Sys2Proof.Machine
open Sys2Proof

variable {W : Part → Prop} {r₀ : Dev}

theorem Dev.modEngine_keeps (w_conv : W .conv) {d : Dev} (h : d.Keeps W r₀) (e : EngineId) (f : Engine → Engine) :
  (Dev.modEngine d e f).Keeps W r₀ := by
  unfold Dev.modEngine
  try dsimp only
  repeat' first
    | with_reducible assumption
    | split
    | with_reducible apply Dev.Keeps.conv
    | exact id
    | intro _
    | dsimp only
    | (with_reducible refine Dev.Keeps.of_pair (by with_reducible assumption) ?_)

theorem Dev.modSlice_keeps (w_conv : W .conv) {d : Dev} (h : d.Keeps W r₀) (k : Fin 9) (f : Slice → Slice) :
  (Dev.modSlice d k f).Keeps W r₀ := by
  unfold Dev.modSlice
  try dsimp only
  repeat' first
    | with_reducible assumption
    | split
    | with_reducible apply Dev.Keeps.conv
    | exact id
    | intro _
    | dsimp only
    | (with_reducible refine Dev.Keeps.of_pair (by with_reducible assumption) ?_)

theorem Dev.modAux_keeps (w_conv : W .conv) {d : Dev} (h : d.Keeps W r₀) (a : Fin 8) (f : Aux → Aux) :
  (Dev.modAux d a f).Keeps W r₀ := by
  unfold Dev.modAux
  try dsimp only
  repeat' first
    | with_reducible assumption
    | split
    | with_reducible apply Dev.Keeps.conv
    | exact id
    | intro _
    | dsimp only
    | (with_reducible refine Dev.Keeps.of_pair (by with_reducible assumption) ?_)

theorem Dev.startScan_keeps (w_conv : W .conv) {d : Dev} (h : d.Keeps W r₀) (e : EngineId) (delay : Nat) :
  (Dev.startScan d e delay).Keeps W r₀ := by
  unfold Dev.startScan
  try dsimp only
  repeat' first
    | with_reducible assumption
    | with_reducible apply Dev.modEngine_keeps
    | split
    | exact id
    | intro _
    | dsimp only
    | (with_reducible refine Dev.Keeps.of_pair (by with_reducible assumption) ?_)

theorem Dev.putRecord_keeps (w_conv : W .conv) {d : Dev} (h : d.Keeps W r₀) (e : EngineId) (w : Word) (scan : Nat) :
  (Dev.putRecord d e w scan).Keeps W r₀ := by
  unfold Dev.putRecord
  try dsimp only
  repeat' first
    | with_reducible assumption
    | with_reducible apply Dev.modEngine_keeps
    | split
    | exact id
    | intro _
    | dsimp only
    | (with_reducible refine Dev.Keeps.of_pair (by with_reducible assumption) ?_)

theorem Dev.plainRecord_keeps (w_conv : W .conv) {d : Dev} (h : d.Keeps W r₀) (e : EngineId) (input : Nat) (scan : Nat) (y : Nat) (valid : Bool) (ow : Bool) :
  (Dev.plainRecord d e input scan y valid ow).Keeps W r₀ := by
  unfold Dev.plainRecord
  try dsimp only
  repeat' first
    | with_reducible assumption
    | with_reducible apply Dev.modEngine_keeps
    | with_reducible apply Dev.putRecord_keeps
    | split
    | exact id
    | intro _
    | dsimp only
    | (with_reducible refine Dev.Keeps.of_pair (by with_reducible assumption) ?_)

theorem Dev.ntcRaise_keeps (w_port : W .port) (w_log : W .log) (w_conv : W .conv) {d : Dev} (h : d.Keeps W r₀) (a : Fin 8) (why : Nat) :
  (Dev.ntcRaise d a why).Keeps W r₀ := by
  unfold Dev.ntcRaise
  try dsimp only
  repeat' first
    | with_reducible assumption
    | with_reducible apply Dev.event_keeps
    | with_reducible apply Dev.modAux_keeps
    | split
    | exact id
    | intro _
    | dsimp only
    | (with_reducible refine Dev.Keeps.of_pair (by with_reducible assumption) ?_)

theorem Dev.testVisit_keeps (w_port : W .port) (w_log : W .log) (w_conv : W .conv) {d : Dev} (h : d.Keeps W r₀) (a : Fin 8) (scan : Nat) (y : Nat) (tbc : Int) :
  (Dev.testVisit d a scan y tbc).Keeps W r₀ := by
  unfold Dev.testVisit
  try dsimp only
  repeat' first
    | with_reducible assumption
    | with_reducible apply Dev.event_keeps
    | with_reducible apply Dev.modAux_keeps
    | with_reducible apply Dev.ntcRaise_keeps
    | split
    | exact id
    | intro _
    | dsimp only
    | (with_reducible refine Dev.Keeps.of_pair (by with_reducible assumption) ?_)

theorem Dev.auxPlain_keeps (w_port : W .port) (w_log : W .log) (w_conv : W .conv) {d : Dev} (h : d.Keeps W r₀) (a : Fin 8) (y : Nat) :
  (Dev.auxPlain d a y).Keeps W r₀ := by
  unfold Dev.auxPlain
  try dsimp only
  repeat' first
    | with_reducible assumption
    | with_reducible apply Dev.modAux_keeps
    | with_reducible apply Dev.ntcRaise_keeps
    | split
    | exact id
    | intro _
    | dsimp only
    | (with_reducible refine Dev.Keeps.of_pair (by with_reducible assumption) ?_)

theorem Dev.feedCurrent_keeps (w_voices : W .voices) {d : Dev} (h : d.Keeps W r₀) (v : VoiceId) (y : Nat) (t : Nat) :
  (Dev.feedCurrent d v y t).Keeps W r₀ := by
  unfold Dev.feedCurrent
  try dsimp only
  repeat' first
    | with_reducible assumption
    | with_reducible apply Dev.modVoice_keeps
    | split
    | exact id
    | intro _
    | dsimp only
    | (with_reducible refine Dev.Keeps.of_pair (by with_reducible assumption) ?_)

theorem Dev.feedSearch_keeps (w_voices : W .voices) {d : Dev} (h : d.Keeps W r₀) (v : VoiceId) (opening : Bool) (unit : Rat) (t : Nat) :
  (Dev.feedSearch d v opening unit t).Keeps W r₀ := by
  unfold Dev.feedSearch
  try dsimp only
  repeat' first
    | with_reducible assumption
    | with_reducible apply Dev.modVoice_keeps
    | split
    | exact id
    | intro _
    | dsimp only
    | (with_reducible refine Dev.Keeps.of_pair (by with_reducible assumption) ?_)

theorem Dev.sense_keeps (w_voices : W .voices) {d : Dev} (h : d.Keeps W r₀) (input : Nat) (y : Nat) (t : Nat) :
  (Dev.sense d input y t).Keeps W r₀ := by
  unfold Dev.sense
  try dsimp only
  repeat' first
    | with_reducible assumption
    | with_reducible apply Dev.feedCurrent_keeps
    | with_reducible apply Dev.feedSearch_keeps
    | split
    | exact id
    | intro _
    | dsimp only
    | (with_reducible refine Dev.Keeps.of_pair (by with_reducible assumption) ?_)

theorem Dev.request_keeps (w_conv : W .conv) {d : Dev} (h : d.Keeps W r₀) (source : UrgentSource) (input : Nat) :
  (Dev.request d source input).Keeps W r₀ := by
  unfold Dev.request
  try dsimp only
  repeat' first
    | with_reducible assumption
    | split
    | with_reducible apply Dev.Keeps.conv
    | exact id
    | intro _
    | dsimp only
    | (with_reducible refine Dev.Keeps.of_pair (by with_reducible assumption) ?_)

theorem Dev.holdMakers_keeps (w_conv : W .conv) {d : Dev} (h : d.Keeps W r₀) :
  (Dev.holdMakers d).Keeps W r₀ := by
  unfold Dev.holdMakers
  try dsimp only
  repeat' first
    | with_reducible assumption
    | split
    | with_reducible apply Dev.Keeps.conv
    | exact id
    | intro _
    | dsimp only
    | (with_reducible refine Dev.Keeps.of_pair (by with_reducible assumption) ?_)

theorem Dev.rangeCheck_keeps (w_conv : W .conv) {d : Dev} (h : d.Keeps W r₀) (k : Nat) (input : Nat) (raw : Option (BitVec 14)) :
  (Dev.rangeCheck d k input raw).Keeps W r₀ := by
  unfold Dev.rangeCheck
  try dsimp only
  repeat' first
    | with_reducible assumption
    | with_reducible apply Dev.modSlice_keeps
    | with_reducible apply Dev.request_keeps
    | split
    | exact id
    | intro _
    | dsimp only
    | (with_reducible refine Dev.Keeps.of_pair (by with_reducible assumption) ?_)

theorem Dev.conversion_keeps (w_port : W .port) (w_log : W .log) (w_voices : W .voices) (w_conv : W .conv) {d : Dev} (h : d.Keeps W r₀) (e : EngineId) (raw : Option (BitVec 14)) :
  (Dev.conversion d e raw).Keeps W r₀ := by
  unfold Dev.conversion
  try dsimp only
  repeat' first
    | with_reducible assumption
    | with_reducible apply Dev.modEngine_keeps
    | with_reducible apply Dev.plainRecord_keeps
    | with_reducible apply Dev.testVisit_keeps
    | with_reducible apply Dev.auxPlain_keeps
    | with_reducible apply Dev.sense_keeps
    | with_reducible apply Dev.rangeCheck_keeps
    | split
    | with_reducible apply Dev.Keeps.conv
    | exact id
    | intro _
    | dsimp only
    | (with_reducible refine Dev.Keeps.of_pair (by with_reducible assumption) ?_)

theorem Dev.disturb_keeps (w_conv : W .conv) {d : Dev} (h : d.Keeps W r₀) (unit : Nat) (e : EngineId) :
  (Dev.disturb unit d e).Keeps W r₀ := by
  unfold Dev.disturb
  try dsimp only
  repeat' first
    | with_reducible assumption
    | with_reducible apply Dev.modEngine_keeps
    | split
    | exact id
    | intro _
    | dsimp only
    | (with_reducible refine Dev.Keeps.of_pair (by with_reducible assumption) ?_)

theorem Dev.urgentServe_keeps (w_conv : W .conv) {d : Dev} (h : d.Keeps W r₀) (source : UrgentSource) (input : Nat) (raw : Option (BitVec 14)) :
  (Dev.urgentServe d source input raw).Keeps W r₀ := by
  unfold Dev.urgentServe
  try dsimp only
  repeat' first
    | with_reducible assumption
    | with_reducible apply Dev.rangeCheck_keeps
    | with_reducible apply Dev.disturb_keeps
    | split
    | with_reducible apply Dev.Keeps.foldl
    | with_reducible apply Dev.Keeps.foldl_pair
    | with_reducible apply Dev.Keeps.conv
    | exact id
    | intro _
    | dsimp only
    | (with_reducible refine Dev.Keeps.of_pair (by with_reducible assumption) ?_)

theorem Dev.engineReconf_keeps (w_port : W .port) (w_log : W .log) (w_conv : W .conv) {d : Dev} (h : d.Keeps W r₀) (old : Dev) :
  (Dev.engineReconf d old).Keeps W r₀ := by
  unfold Dev.engineReconf
  try dsimp only
  repeat' first
    | with_reducible assumption
    | with_reducible apply Dev.event_keeps
    | with_reducible apply Dev.modEngine_keeps
    | with_reducible apply Dev.modAux_keeps
    | split
    | with_reducible apply Dev.Keeps.foldl
    | with_reducible apply Dev.Keeps.foldl_pair
    | exact id
    | intro _
    | dsimp only
    | (with_reducible refine Dev.Keeps.of_pair (by with_reducible assumption) ?_)

theorem Dev.engineUnpause_keeps (w_conv : W .conv) {d : Dev} (h : d.Keeps W r₀) :
  (Dev.engineUnpause d).Keeps W r₀ := by
  unfold Dev.engineUnpause
  try dsimp only
  repeat' first
    | with_reducible assumption
    | split
    | with_reducible apply Dev.Keeps.conv
    | exact id
    | intro _
    | dsimp only
    | (with_reducible refine Dev.Keeps.of_pair (by with_reducible assumption) ?_)

theorem Dev.engineStop_keeps (w_conv : W .conv) {d : Dev} (h : d.Keeps W r₀) :
  (Dev.engineStop d).Keeps W r₀ := by
  unfold Dev.engineStop
  try dsimp only
  repeat' first
    | with_reducible assumption
    | split
    | with_reducible apply Dev.Keeps.conv
    | exact id
    | intro _
    | dsimp only
    | (with_reducible refine Dev.Keeps.of_pair (by with_reducible assumption) ?_)

theorem Dev.engineFallback_keeps (w_conv : W .conv) {d : Dev} (h : d.Keeps W r₀) :
  (Dev.engineFallback d).Keeps W r₀ := by
  unfold Dev.engineFallback
  try dsimp only
  repeat' first
    | with_reducible assumption
    | split
    | with_reducible apply Dev.Keeps.conv
    | exact id
    | intro _
    | dsimp only
    | (with_reducible refine Dev.Keeps.of_pair (by with_reducible assumption) ?_)

theorem Dev.engineStart_keeps (w_conv : W .conv) {d : Dev} (h : d.Keeps W r₀) :
  (Dev.engineStart d).Keeps W r₀ := by
  unfold Dev.engineStart
  try dsimp only
  repeat' first
    | with_reducible assumption
    | split
    | with_reducible apply Dev.Keeps.conv
    | exact id
    | intro _
    | dsimp only
    | (with_reducible refine Dev.Keeps.of_pair (by with_reducible assumption) ?_)

theorem opConvertNow_keeps (w_conv : W .conv) {d : Dev} (h : d.Keeps W r₀) (p : List Byte) :
  (opConvertNow p d).1.Keeps W r₀ := by
  unfold opConvertNow
  try dsimp only
  repeat' first
    | with_reducible assumption
    | with_reducible apply Dev.modEngine_keeps
    | with_reducible apply Dev.startScan_keeps
    | split
    | with_reducible apply Dev.Keeps.foldl
    | with_reducible apply Dev.Keeps.foldl_pair
    | exact id
    | intro _
    | dsimp only
    | (with_reducible refine Dev.Keeps.of_pair (by with_reducible assumption) ?_)

theorem Dev.engineAction_keeps (w_conv : W .conv) {d : Dev} (h : d.Keeps W r₀) (e : EngineId) (a : Nat) :
  (Dev.engineAction d e a).1.Keeps W r₀ := by
  unfold Dev.engineAction
  try dsimp only
  repeat' first
    | with_reducible assumption
    | with_reducible apply Dev.modEngine_keeps
    | split
    | exact id
    | intro _
    | dsimp only
    | (with_reducible refine Dev.Keeps.of_pair (by with_reducible assumption) ?_)

theorem opEngineCtrl_keeps (w_conv : W .conv) {d : Dev} (h : d.Keeps W r₀) (p : List Byte) :
  (opEngineCtrl p d).1.Keeps W r₀ := by
  unfold opEngineCtrl
  try dsimp only
  repeat' first
    | with_reducible assumption
    | with_reducible apply Dev.engineAction_keeps
    | split
    | with_reducible apply Dev.Keeps.foldl
    | with_reducible apply Dev.Keeps.foldl_pair
    | exact id
    | intro _
    | dsimp only
    | (with_reducible refine Dev.Keeps.of_pair (by with_reducible assumption) ?_)

theorem opReadBuffer_keeps (w_conv : W .conv) {d : Dev} (h : d.Keeps W r₀) (snap : Dev) (p : List Byte) :
  (opReadBuffer snap p d).1.Keeps W r₀ := by
  unfold opReadBuffer
  try dsimp only
  repeat' first
    | with_reducible assumption
    | with_reducible apply Dev.modEngine_keeps
    | split
    | exact id
    | intro _
    | dsimp only
    | (with_reducible refine Dev.Keeps.of_pair (by with_reducible assumption) ?_)

end Sys2Proof.Machine
end

