-- ==== Sys2Proof/Laws/Memory.lean ====
section
/-! SUPPORT. The raw flash region: every operation on it keeps the canonical form, and what reading gives after each. -/

namespace Sys2Proof.Machine
open Sys2Proof

theorem Memory.wf_iff (m : List Host.Cell) :
    Memory.wf m = true ↔ (∀ e ∈ m, e.2 ≠ 0xFF) ∧ m.Pairwise (fun a b => a.1 < b.1) := by
  simp [Memory.wf, canonical]

theorem Memory.wf_nil : Memory.wf [] = true := by decide

theorem Memory.wf_filter (m : List Host.Cell) (p : Host.Cell → Bool) (h : Memory.wf m = true) :
    Memory.wf (m.filter p) = true := by
  rw [Memory.wf_iff] at *
  exact ⟨fun e he => h.1 e (List.mem_filter.1 he).1, h.2.filter p⟩

theorem cellWrite_wf (m : List Host.Cell) (a : Nat) (b : Byte) (h : Memory.wf m = true) :
    Memory.wf (cellWrite m a b) = true := by
  rw [Memory.wf_iff] at h
  have hb : ∀ e ∈ m.filter (fun e => e.1 < a), e.2 ≠ 0xFF ∧ e.1 < a := fun e he => by
    obtain ⟨h1, h2⟩ := List.mem_filter.1 he
    exact ⟨h.1 e h1, by simpa using h2⟩
  have ha : ∀ e ∈ m.filter (fun e => a < e.1), e.2 ≠ 0xFF ∧ a < e.1 := fun e he => by
    obtain ⟨h1, h2⟩ := List.mem_filter.1 he
    exact ⟨h.1 e h1, by simpa using h2⟩
  unfold cellWrite
  dsimp only
  rw [Memory.wf_iff]
  split
  · refine ⟨fun e he => ?_, List.pairwise_append.2 ⟨h.2.filter _, h.2.filter _, fun x hx y hy => ?_⟩⟩
    · exact (List.mem_append.1 he).elim (fun k => (hb e k).1) fun k => (ha e k).1
    · exact Nat.lt_trans (hb x hx).2 (ha y hy).2
  · refine ⟨fun e he => ?_, List.pairwise_append.2 ⟨h.2.filter _, List.pairwise_cons.2 ⟨fun y hy => (ha y hy).2, h.2.filter _⟩,
      fun x hx y hy => ?_⟩⟩
    · rcases List.mem_append.1 he with k | k
      · exact (hb e k).1
      · rcases List.mem_cons.1 k with rfl | k
        · assumption
        · exact (ha e k).1
    · rcases List.mem_cons.1 hy with rfl | k
      · exact (hb x hx).2
      · exact Nat.lt_trans (hb x hx).2 (ha y k).2

theorem cellsWrite_wf (m : List Host.Cell) (a : Nat) (bs : List Byte) (h : Memory.wf m = true) :
    Memory.wf (cellsWrite m a bs) = true := by
  induction bs generalizing m a with
  | nil => exact h
  | cons b bs ih => exact ih _ _ (cellWrite_wf m a b h)

theorem cellsErase_wf (m : List Host.Cell) (s : Nat) (h : Memory.wf m = true) : Memory.wf (cellsErase m s) = true :=
  Memory.wf_filter m _ h

theorem Flash.putWord_wf (f : Flash) (a : Nat) (bs : List Byte) (h : Memory.wf f.raw = true) :
    Memory.wf (f.putWord a bs).raw = true := by
  unfold Flash.putWord
  exact cellsWrite_wf _ _ _ h

theorem Flash.tearWord_wf (f : Flash) (a : Nat) (bs : List Byte) (w : Bool) (h : Memory.wf f.raw = true) :
    Memory.wf (f.tearWord a bs w).raw = true := Flash.putWord_wf f a bs h

theorem Flash.putWords_wf (f : Flash) (n : Nat) (h : Memory.wf f.raw = true) : Memory.wf (f.putWords n).raw = true := by
  induction n with
  | zero => exact h
  | succ n ih => exact Flash.putWord_wf _ _ _ ih

/-! The record store never touches the raw region. -/

theorem Flash.closeOlder_raw (f : Flash) : f.closeOlder.raw = f.raw := rfl

theorem Flash.consume_raw (f : Flash) : f.consume.raw = f.raw := by
  unfold Flash.consume
  split <;> rfl

theorem Flash.room_raw {f g : Flash} {n : Nat} {s : Fin 16} (h : f.room n = some (g, s)) : g.raw = f.raw := by
  unfold Flash.room at h
  dsimp only at h
  repeat' split at h
  all_goals simp_all
  all_goals rw [← h.1]

theorem Flash.yieldRaw_raw (f : Flash) (now n : Nat) : (f.yieldRaw now n).raw = f.raw := by
  unfold Flash.yieldRaw
  dsimp only
  split <;> rfl

theorem Flash.pause_raw (f : Flash) (now : Nat) : (f.pause now).raw = f.raw := by
  unfold Flash.pause
  repeat' split
  all_goals rfl

theorem Flash.resume_raw (f : Flash) (t : Nat) : (f.resume t).raw = f.raw := by
  unfold Flash.resume
  split <;> rfl

theorem Flash.enqueue_raw (f : Flash) (now key : Nat) (tomb : Bool) (value : List Byte) (host : Bool) :
    (f.enqueue now key tomb value host).raw = f.raw := by
  unfold Flash.enqueue
  dsimp only
  rw [Flash.yieldRaw_raw, Flash.pause_raw]

theorem Flash.gcBegin_raw (f : Flash) (now : Nat) (k : Fin 16) : (f.gcBegin now k).raw = f.raw := Flash.yieldRaw_raw _ _ _

theorem Flash.gcNext_raw (f : Flash) (t : Nat) (g : GcRun) (rest : List Rec) : (f.gcNext t g rest).raw = f.raw := by
  unfold Flash.gcNext
  dsimp only
  split
  · rfl
  · exact Flash.yieldRaw_raw _ _ _

theorem Flash.finishCopy_raw (f : Flash) : f.finishCopy.raw = f.raw := by
  unfold Flash.finishCopy
  repeat' split
  all_goals first
    | rfl
    | (rename_i k
       have r := Flash.room_raw k
       rw [Flash.gcNext_raw]
       exact r)

theorem Flash.landAppends_raw (f : Flash) (n : Nat) (settles : Bool) (l : List Append) :
    (f.landAppends n settles l).raw = f.raw := by
  induction l generalizing f n with
  | nil => rfl
  | cons a rest ih =>
    unfold Flash.landAppends
    split
    · exact ih _ _
    · rename_i k
      have r := Flash.room_raw k
      dsimp only
      split
      · rw [ih]
        exact r
      · exact r

theorem Flash.tearGc_raw (f : Flash) (now : Nat) (settles : Bool) : (f.tearGc now settles).raw = f.raw := by
  unfold Flash.tearGc
  repeat' split
  all_goals first
    | rfl
    | (rename_i k
       have r := Flash.room_raw k
       dsimp only
       split <;> first | rfl | exact r)
    | (dsimp only
       split
       · split
         · rfl
         · rename_i k _
           exact Flash.room_raw k
       · rfl)

theorem Flash.tearAppend_raw (f : Flash) (now : Nat) (settles : Bool) : (f.tearAppend now settles).raw = f.raw := by
  unfold Flash.tearAppend
  dsimp only
  rw [Flash.landAppends_raw, Flash.tearGc_raw]

theorem Flash.restarted_raw (f : Flash) (now : Nat) (settles : Bool) : (f.restarted now settles).raw = f.raw :=
  f.tearAppend_raw now settles

/-! ### Reading -/

theorem lookup_filter_of_true (m : List Host.Cell) (p : Nat → Bool) (x : Nat) (h : p x = true) :
    (m.filter fun e => p e.1).lookup x = m.lookup x := by
  induction m with
  | nil => rfl
  | cons e m ih =>
    obtain ⟨k, v⟩ := e
    by_cases hk : x = k
    · subst hk
      simp [h]
    · have hb : (x == k) = false := by simpa using hk
      by_cases hp : p k = true <;> simp [List.lookup_cons, hb, hp, ih]

theorem lookup_filter_of_false (m : List Host.Cell) (p : Nat → Bool) (x : Nat) (h : p x = false) :
    (m.filter fun e => p e.1).lookup x = none := by
  rw [List.lookup_eq_none_iff]
  intro e he
  have k := (List.mem_filter.1 he).2
  have : x ≠ e.1 := by
    rintro rfl
    rw [h] at k
    exact absurd k (by decide)
  simpa using this

/-- The byte written reads back. -/
theorem cellRead_cellWrite_self (m : List Host.Cell) (a : Nat) (b : Byte) : cellRead (cellWrite m a b) a = b := by
  have hb := lookup_filter_of_false m (fun k => decide (k < a)) a (by simp)
  have ha := lookup_filter_of_false m (fun k => decide (a < k)) a (by simp)
  unfold cellRead cellWrite
  dsimp only
  split
  · rename_i e
    rw [List.lookup_append, hb, ha, e]
    rfl
  · rw [List.lookup_append, hb]
    simp

/-- Every other byte reads as before. -/
theorem cellRead_cellWrite_ne (m : List Host.Cell) {a x : Nat} (b : Byte) (h : x ≠ a) :
    cellRead (cellWrite m a b) x = cellRead m x := by
  unfold cellRead cellWrite
  dsimp only
  rcases Nat.lt_or_gt_of_ne h with k | k
  · have hb := lookup_filter_of_true m (fun k => decide (k < a)) x (by simpa using k)
    have ha := lookup_filter_of_false m (fun k => decide (a < k)) x (by simp; omega)
    have hx : (x == a) = false := by simpa using h
    split <;> simp [List.lookup_append, List.lookup_cons, hb, ha, hx]
  · have hb := lookup_filter_of_false m (fun k => decide (k < a)) x (by simp; omega)
    have ha := lookup_filter_of_true m (fun k => decide (a < k)) x (by simpa using k)
    have hx : (x == a) = false := by simpa using h
    split <;> simp [List.lookup_append, List.lookup_cons, hb, ha, hx]

/-- Erasing a sector makes its bytes read 0xFF and leaves every other byte. -/
theorem cellRead_cellsErase (m : List Host.Cell) (s x : Nat) :
    cellRead (cellsErase m s) x = if x / 4096 = s then 0xFF else cellRead m x := by
  unfold cellRead cellsErase
  split
  · rename_i h
    rw [lookup_filter_of_false m (fun k => k / 4096 != s) x (by simp [h])]
    rfl
  · rename_i h
    rw [lookup_filter_of_true m (fun k => k / 4096 != s) x (by simp [h])]

end Sys2Proof.Machine
end

