-- ==== Sys2Proof/Laws/KeepsFlash.lean ====
section
/-! SUPPORT. What each change of Flash.lean keeps (Laws/Keeps.lean): which parts it may change, and that every form stays. -/

namespace Sys2Proof.Machine
open Sys2Proof

variable {W : Part → Prop} {r₀ : Dev}

theorem Dev.discardRecord_keeps (w_sc : W .sc) {d : Dev} (h : d.Keeps W r₀) :
  (Dev.discardRecord d).Keeps W r₀ := by
  unfold Dev.discardRecord
  try dsimp only
  repeat' first
    | with_reducible assumption
    | split
    | with_reducible apply Dev.Keeps.sc
    | exact id
    | intro _
    | dsimp only
    | (with_reducible refine Dev.Keeps.of_pair (by with_reducible assumption) ?_)
    | exact (congrArg Memory.wf (Flash.pause_raw _ _)).trans (by assumption)
    | exact (congrArg Memory.wf (Flash.enqueue_raw _ _ _ _ _ _)).trans (by assumption)
    | exact (congrArg Memory.wf (Flash.resume_raw _ _)).trans (by assumption)
    | exact (congrArg Memory.wf (Flash.finishCopy_raw _)).trans (by assumption)
    | exact Flash.putWords_wf _ _ (by assumption)
    | exact Flash.tearWord_wf _ _ _ _ (by assumption)
    | exact cellsErase_wf _ _ (by assumption)

theorem Dev.storeFull_keeps (w_port : W .port) (w_log : W .log) (w_sc : W .sc) {d : Dev} (h : d.Keeps W r₀) (key : Nat) (host : Bool) :
  (Dev.storeFull d key host).Keeps W r₀ := by
  unfold Dev.storeFull
  try dsimp only
  repeat' first
    | with_reducible assumption
    | with_reducible apply Dev.event_keeps
    | with_reducible apply Dev.discardRecord_keeps
    | split
    | exact id
    | intro _
    | dsimp only
    | (with_reducible refine Dev.Keeps.of_pair (by with_reducible assumption) ?_)
    | exact (congrArg Memory.wf (Flash.pause_raw _ _)).trans (by assumption)
    | exact (congrArg Memory.wf (Flash.enqueue_raw _ _ _ _ _ _)).trans (by assumption)
    | exact (congrArg Memory.wf (Flash.resume_raw _ _)).trans (by assumption)
    | exact (congrArg Memory.wf (Flash.finishCopy_raw _)).trans (by assumption)
    | exact Flash.putWords_wf _ _ (by assumption)
    | exact Flash.tearWord_wf _ _ _ _ (by assumption)
    | exact cellsErase_wf _ _ (by assumption)

theorem Dev.appendRecord_keeps (w_port : W .port) (w_log : W .log) (w_sc : W .sc) (w_nv : W .nv) {d : Dev} (h : d.Keeps W r₀) (key : Nat) (value : List Byte) :
  (Dev.appendRecord d key value).Keeps W r₀ := by
  unfold Dev.appendRecord
  try dsimp only
  repeat' first
    | with_reducible assumption
    | with_reducible apply Dev.setNv_keeps
    | with_reducible apply Dev.discardRecord_keeps
    | with_reducible apply Dev.storeFull_keeps
    | split
    | with_reducible apply Dev.Keeps.sc
    | exact id
    | intro _
    | dsimp only
    | (with_reducible refine Dev.Keeps.of_pair (by with_reducible assumption) ?_)
    | exact (congrArg Memory.wf (Flash.pause_raw _ _)).trans (by assumption)
    | exact (congrArg Memory.wf (Flash.enqueue_raw _ _ _ _ _ _)).trans (by assumption)
    | exact (congrArg Memory.wf (Flash.resume_raw _ _)).trans (by assumption)
    | exact (congrArg Memory.wf (Flash.finishCopy_raw _)).trans (by assumption)
    | exact Flash.putWords_wf _ _ (by assumption)
    | exact Flash.tearWord_wf _ _ _ _ (by assumption)
    | exact cellsErase_wf _ _ (by assumption)

theorem Dev.deviceRecord_keeps (w_port : W .port) (w_log : W .log) (w_sc : W .sc) (w_nv : W .nv) {d : Dev} (h : d.Keeps W r₀) (key : Nat) (value : List Byte) :
  (Dev.deviceRecord d key value).Keeps W r₀ := by
  unfold Dev.deviceRecord
  try dsimp only
  repeat' first
    | with_reducible assumption
    | with_reducible apply Dev.discardRecord_keeps
    | with_reducible apply Dev.appendRecord_keeps
    | split
    | with_reducible apply Dev.Keeps.sc
    | exact id
    | intro _
    | dsimp only
    | (with_reducible refine Dev.Keeps.of_pair (by with_reducible assumption) ?_)
    | exact (congrArg Memory.wf (Flash.pause_raw _ _)).trans (by assumption)
    | exact (congrArg Memory.wf (Flash.enqueue_raw _ _ _ _ _ _)).trans (by assumption)
    | exact (congrArg Memory.wf (Flash.resume_raw _ _)).trans (by assumption)
    | exact (congrArg Memory.wf (Flash.finishCopy_raw _)).trans (by assumption)
    | exact Flash.putWords_wf _ _ (by assumption)
    | exact Flash.tearWord_wf _ _ _ _ (by assumption)
    | exact cellsErase_wf _ _ (by assumption)

theorem Dev.flushHeld_keeps (w_port : W .port) (w_log : W .log) (w_sc : W .sc) (w_nv : W .nv) {d : Dev} (h : d.Keeps W r₀) :
  (Dev.flushHeld d).Keeps W r₀ := by
  unfold Dev.flushHeld
  try dsimp only
  repeat' first
    | with_reducible assumption
    | with_reducible apply Dev.appendRecord_keeps
    | split
    | with_reducible apply Dev.Keeps.foldl
    | with_reducible apply Dev.Keeps.foldl_pair
    | with_reducible apply Dev.Keeps.sc
    | exact id
    | intro _
    | dsimp only
    | (with_reducible refine Dev.Keeps.of_pair (by with_reducible assumption) ?_)
    | exact (congrArg Memory.wf (Flash.pause_raw _ _)).trans (by assumption)
    | exact (congrArg Memory.wf (Flash.enqueue_raw _ _ _ _ _ _)).trans (by assumption)
    | exact (congrArg Memory.wf (Flash.resume_raw _ _)).trans (by assumption)
    | exact (congrArg Memory.wf (Flash.finishCopy_raw _)).trans (by assumption)
    | exact Flash.putWords_wf _ _ (by assumption)
    | exact Flash.tearWord_wf _ _ _ _ (by assumption)
    | exact cellsErase_wf _ _ (by assumption)

theorem Dev.soundEvent_keeps (w_port : W .port) (w_log : W .log) {d : Dev} (h : d.Keeps W r₀) (unit : Nat) (trigger : Nat) (outcome : Nat) (failed : Nat) (run : Nat) (dur : Nat) :
  (Dev.soundEvent d unit trigger outcome failed run dur).Keeps W r₀ := by
  unfold Dev.soundEvent
  try dsimp only
  repeat' first
    | with_reducible assumption
    | with_reducible apply Dev.event_keeps
    | split
    | exact id
    | intro _
    | dsimp only
    | (with_reducible refine Dev.Keeps.of_pair (by with_reducible assumption) ?_)
    | exact (congrArg Memory.wf (Flash.pause_raw _ _)).trans (by assumption)
    | exact (congrArg Memory.wf (Flash.enqueue_raw _ _ _ _ _ _)).trans (by assumption)
    | exact (congrArg Memory.wf (Flash.resume_raw _ _)).trans (by assumption)
    | exact (congrArg Memory.wf (Flash.finishCopy_raw _)).trans (by assumption)
    | exact Flash.putWords_wf _ _ (by assumption)
    | exact Flash.tearWord_wf _ _ _ _ (by assumption)
    | exact cellsErase_wf _ _ (by assumption)

theorem Dev.faultRecord_keeps (w_port : W .port) (w_log : W .log) (w_sc : W .sc) (w_nv : W .nv) {d : Dev} (h : d.Keeps W r₀) (seq : Word) (unit : Nat) (trigger : Nat) (o : CheckOutcome) (failed : Nat) (tail : List Byte) :
  (Dev.faultRecord d seq unit trigger o failed tail).Keeps W r₀ := by
  unfold Dev.faultRecord
  try dsimp only
  repeat' first
    | with_reducible assumption
    | with_reducible apply Dev.discardRecord_keeps
    | with_reducible apply Dev.deviceRecord_keeps
    | split
    | with_reducible apply Dev.Keeps.sc
    | exact id
    | intro _
    | dsimp only
    | (with_reducible refine Dev.Keeps.of_pair (by with_reducible assumption) ?_)
    | exact (congrArg Memory.wf (Flash.pause_raw _ _)).trans (by assumption)
    | exact (congrArg Memory.wf (Flash.enqueue_raw _ _ _ _ _ _)).trans (by assumption)
    | exact (congrArg Memory.wf (Flash.resume_raw _ _)).trans (by assumption)
    | exact (congrArg Memory.wf (Flash.finishCopy_raw _)).trans (by assumption)
    | exact Flash.putWords_wf _ _ (by assumption)
    | exact Flash.tearWord_wf _ _ _ _ (by assumption)
    | exact cellsErase_wf _ _ (by assumption)

theorem Dev.retireRecord_keeps (w_port : W .port) (w_log : W .log) (w_sc : W .sc) (w_nv : W .nv) {d : Dev} (h : d.Keeps W r₀) (unit : Nat) (cause : Nat) (trigger : Nat) (outcome : Nat) (failed : Nat) (dropped : Nat) :
  (Dev.retireRecord d unit cause trigger outcome failed dropped).Keeps W r₀ := by
  unfold Dev.retireRecord
  try dsimp only
  repeat' first
    | with_reducible assumption
    | with_reducible apply Dev.deviceRecord_keeps
    | split
    | exact id
    | intro _
    | dsimp only
    | (with_reducible refine Dev.Keeps.of_pair (by with_reducible assumption) ?_)
    | exact (congrArg Memory.wf (Flash.pause_raw _ _)).trans (by assumption)
    | exact (congrArg Memory.wf (Flash.enqueue_raw _ _ _ _ _ _)).trans (by assumption)
    | exact (congrArg Memory.wf (Flash.resume_raw _ _)).trans (by assumption)
    | exact (congrArg Memory.wf (Flash.finishCopy_raw _)).trans (by assumption)
    | exact Flash.putWords_wf _ _ (by assumption)
    | exact Flash.tearWord_wf _ _ _ _ (by assumption)
    | exact cellsErase_wf _ _ (by assumption)

theorem Dev.retireEvent_keeps (w_port : W .port) (w_log : W .log) {d : Dev} (h : d.Keeps W r₀) (unit : Nat) (cause : Nat) (dropped : Nat) :
  (Dev.retireEvent d unit cause dropped).Keeps W r₀ := by
  unfold Dev.retireEvent
  try dsimp only
  repeat' first
    | with_reducible assumption
    | with_reducible apply Dev.event_keeps
    | split
    | exact id
    | intro _
    | dsimp only
    | (with_reducible refine Dev.Keeps.of_pair (by with_reducible assumption) ?_)
    | exact (congrArg Memory.wf (Flash.pause_raw _ _)).trans (by assumption)
    | exact (congrArg Memory.wf (Flash.enqueue_raw _ _ _ _ _ _)).trans (by assumption)
    | exact (congrArg Memory.wf (Flash.resume_raw _ _)).trans (by assumption)
    | exact (congrArg Memory.wf (Flash.finishCopy_raw _)).trans (by assumption)
    | exact Flash.putWords_wf _ _ (by assumption)
    | exact Flash.tearWord_wf _ _ _ _ (by assumption)
    | exact cellsErase_wf _ _ (by assumption)

theorem Dev.unitChecked_keeps (w_port : W .port) (w_log : W .log) (w_sc : W .sc) (w_nv : W .nv) {d : Dev} (h : d.Keeps W r₀) (unit : Nat) (trigger : Nat) (o : CheckOutcome) (dur : Nat) :
  (Dev.unitChecked d unit trigger o dur).Keeps W r₀ := by
  unfold Dev.unitChecked
  try dsimp only
  repeat' first
    | with_reducible assumption
    | with_reducible apply Dev.soundEvent_keeps
    | with_reducible apply Dev.faultRecord_keeps
    | with_reducible apply Dev.retireRecord_keeps
    | with_reducible apply Dev.retireEvent_keeps
    | split
    | with_reducible apply Dev.Keeps.sc
    | exact id
    | intro _
    | dsimp only
    | (with_reducible refine Dev.Keeps.of_pair (by with_reducible assumption) ?_)
    | exact (congrArg Memory.wf (Flash.pause_raw _ _)).trans (by assumption)
    | exact (congrArg Memory.wf (Flash.enqueue_raw _ _ _ _ _ _)).trans (by assumption)
    | exact (congrArg Memory.wf (Flash.resume_raw _ _)).trans (by assumption)
    | exact (congrArg Memory.wf (Flash.finishCopy_raw _)).trans (by assumption)
    | exact Flash.putWords_wf _ _ (by assumption)
    | exact Flash.tearWord_wf _ _ _ _ (by assumption)
    | exact cellsErase_wf _ _ (by assumption)

theorem Dev.nvDone_keeps (w_port : W .port) (w_log : W .log) {d : Dev} (h : d.Keeps W r₀) :
  (Dev.nvDone d).Keeps W r₀ := by
  unfold Dev.nvDone
  try dsimp only
  repeat' first
    | with_reducible assumption
    | with_reducible apply Dev.event_keeps
    | split
    | exact id
    | intro _
    | dsimp only
    | (with_reducible refine Dev.Keeps.of_pair (by with_reducible assumption) ?_)
    | exact (congrArg Memory.wf (Flash.pause_raw _ _)).trans (by assumption)
    | exact (congrArg Memory.wf (Flash.enqueue_raw _ _ _ _ _ _)).trans (by assumption)
    | exact (congrArg Memory.wf (Flash.resume_raw _ _)).trans (by assumption)
    | exact (congrArg Memory.wf (Flash.finishCopy_raw _)).trans (by assumption)
    | exact Flash.putWords_wf _ _ (by assumption)
    | exact Flash.tearWord_wf _ _ _ _ (by assumption)
    | exact cellsErase_wf _ _ (by assumption)

theorem Dev.verifyFail_keeps (w_port : W .port) (w_log : W .log) (w_nv : W .nv) {d : Dev} (h : d.Keeps W r₀) (unit : Nat) (addr : Nat) (after : Option Append) :
  (Dev.verifyFail d unit addr after).Keeps W r₀ := by
  unfold Dev.verifyFail
  try dsimp only
  repeat' first
    | with_reducible assumption
    | with_reducible apply Dev.event_keeps
    | with_reducible apply Dev.setNv_keeps
    | split
    | exact id
    | intro _
    | dsimp only
    | (with_reducible refine Dev.Keeps.of_pair (by with_reducible assumption) ?_)
    | exact (congrArg Memory.wf (Flash.pause_raw _ _)).trans (by assumption)
    | exact (congrArg Memory.wf (Flash.enqueue_raw _ _ _ _ _ _)).trans (by assumption)
    | exact (congrArg Memory.wf (Flash.resume_raw _ _)).trans (by assumption)
    | exact (congrArg Memory.wf (Flash.finishCopy_raw _)).trans (by assumption)
    | exact Flash.putWords_wf _ _ (by assumption)
    | exact Flash.tearWord_wf _ _ _ _ (by assumption)
    | exact cellsErase_wf _ _ (by assumption)

theorem Dev.rawEnd_keeps (w_nv : W .nv) {d : Dev} (h : d.Keeps W r₀) (result : Nat) (done : Nat) :
  (Dev.rawEnd d result done).Keeps W r₀ := by
  unfold Dev.rawEnd
  try dsimp only
  repeat' first
    | with_reducible assumption
    | with_reducible apply Dev.setNv_keeps
    | split
    | exact id
    | intro _
    | dsimp only
    | (with_reducible refine Dev.Keeps.of_pair (by with_reducible assumption) ?_)
    | exact (congrArg Memory.wf (Flash.pause_raw _ _)).trans (by assumption)
    | exact (congrArg Memory.wf (Flash.enqueue_raw _ _ _ _ _ _)).trans (by assumption)
    | exact (congrArg Memory.wf (Flash.resume_raw _ _)).trans (by assumption)
    | exact (congrArg Memory.wf (Flash.finishCopy_raw _)).trans (by assumption)
    | exact Flash.putWords_wf _ _ (by assumption)
    | exact Flash.tearWord_wf _ _ _ _ (by assumption)
    | exact cellsErase_wf _ _ (by assumption)

theorem Dev.rawStop_keeps (w_port : W .port) (w_log : W .log) (w_nv : W .nv) {d : Dev} (h : d.Keeps W r₀) (told : Bool) :
  (Dev.rawStop d told).Keeps W r₀ := by
  unfold Dev.rawStop
  try dsimp only
  repeat' first
    | with_reducible assumption
    | with_reducible apply Dev.setNv_keeps
    | with_reducible apply Dev.nvDone_keeps
    | with_reducible apply Dev.rawEnd_keeps
    | split
    | exact id
    | intro _
    | dsimp only
    | (with_reducible refine Dev.Keeps.of_pair (by with_reducible assumption) ?_)
    | exact (congrArg Memory.wf (Flash.pause_raw _ _)).trans (by assumption)
    | exact (congrArg Memory.wf (Flash.enqueue_raw _ _ _ _ _ _)).trans (by assumption)
    | exact (congrArg Memory.wf (Flash.resume_raw _ _)).trans (by assumption)
    | exact (congrArg Memory.wf (Flash.finishCopy_raw _)).trans (by assumption)
    | exact Flash.putWords_wf _ _ (by assumption)
    | exact Flash.tearWord_wf _ _ _ _ (by assumption)
    | exact cellsErase_wf _ _ (by assumption)

theorem Dev.rawCollapse_keeps (w_port : W .port) (w_log : W .log) (w_nv : W .nv) {d : Dev} (h : d.Keeps W r₀) :
  (Dev.rawCollapse d).Keeps W r₀ := by
  unfold Dev.rawCollapse
  try dsimp only
  repeat' first
    | with_reducible assumption
    | with_reducible apply Dev.setNv_keeps
    | with_reducible apply Dev.rawEnd_keeps
    | with_reducible apply Dev.rawStop_keeps
    | split
    | exact id
    | intro _
    | dsimp only
    | (with_reducible refine Dev.Keeps.of_pair (by with_reducible assumption) ?_)
    | exact (congrArg Memory.wf (Flash.pause_raw _ _)).trans (by assumption)
    | exact (congrArg Memory.wf (Flash.enqueue_raw _ _ _ _ _ _)).trans (by assumption)
    | exact (congrArg Memory.wf (Flash.resume_raw _ _)).trans (by assumption)
    | exact (congrArg Memory.wf (Flash.finishCopy_raw _)).trans (by assumption)
    | exact Flash.putWords_wf _ _ (by assumption)
    | exact Flash.tearWord_wf _ _ _ _ (by assumption)
    | exact cellsErase_wf _ _ (by assumption)

theorem Dev.eraseRecord_keeps (w_port : W .port) (w_log : W .log) (w_sc : W .sc) (w_nv : W .nv) {d : Dev} (h : d.Keeps W r₀) (s : Fin 16) :
  (Dev.eraseRecord d s).Keeps W r₀ := by
  unfold Dev.eraseRecord
  try dsimp only
  repeat' first
    | with_reducible assumption
    | with_reducible apply Dev.deviceRecord_keeps
    | split
    | exact id
    | intro _
    | dsimp only
    | (with_reducible refine Dev.Keeps.of_pair (by with_reducible assumption) ?_)
    | exact (congrArg Memory.wf (Flash.pause_raw _ _)).trans (by assumption)
    | exact (congrArg Memory.wf (Flash.enqueue_raw _ _ _ _ _ _)).trans (by assumption)
    | exact (congrArg Memory.wf (Flash.resume_raw _ _)).trans (by assumption)
    | exact (congrArg Memory.wf (Flash.finishCopy_raw _)).trans (by assumption)
    | exact Flash.putWords_wf _ _ (by assumption)
    | exact Flash.tearWord_wf _ _ _ _ (by assumption)
    | exact cellsErase_wf _ _ (by assumption)

theorem Dev.scanDirty_keeps (w_port : W .port) (w_log : W .log) (w_nv : W .nv) {d : Dev} (h : d.Keeps W r₀) :
  (Dev.scanDirty d).Keeps W r₀ := by
  unfold Dev.scanDirty
  try dsimp only
  repeat' first
    | with_reducible assumption
    | with_reducible apply Dev.event_keeps
    | with_reducible apply Dev.setNv_keeps
    | split
    | with_reducible apply Dev.Keeps.foldl
    | with_reducible apply Dev.Keeps.foldl_pair
    | exact id
    | intro _
    | dsimp only
    | (with_reducible refine Dev.Keeps.of_pair (by with_reducible assumption) ?_)
    | exact (congrArg Memory.wf (Flash.pause_raw _ _)).trans (by assumption)
    | exact (congrArg Memory.wf (Flash.enqueue_raw _ _ _ _ _ _)).trans (by assumption)
    | exact (congrArg Memory.wf (Flash.resume_raw _ _)).trans (by assumption)
    | exact (congrArg Memory.wf (Flash.finishCopy_raw _)).trans (by assumption)
    | exact Flash.putWords_wf _ _ (by assumption)
    | exact Flash.tearWord_wf _ _ _ _ (by assumption)
    | exact cellsErase_wf _ _ (by assumption)

theorem Dev.scanTorn_keeps (w_port : W .port) (w_log : W .log) (w_nv : W .nv) {d : Dev} (h : d.Keeps W r₀) :
  (Dev.scanTorn d).Keeps W r₀ := by
  unfold Dev.scanTorn
  try dsimp only
  repeat' first
    | with_reducible assumption
    | with_reducible apply Dev.event_keeps
    | with_reducible apply Dev.setNv_keeps
    | split
    | with_reducible apply Dev.Keeps.foldl
    | with_reducible apply Dev.Keeps.foldl_pair
    | exact id
    | intro _
    | dsimp only
    | (with_reducible refine Dev.Keeps.of_pair (by with_reducible assumption) ?_)
    | exact (congrArg Memory.wf (Flash.pause_raw _ _)).trans (by assumption)
    | exact (congrArg Memory.wf (Flash.enqueue_raw _ _ _ _ _ _)).trans (by assumption)
    | exact (congrArg Memory.wf (Flash.resume_raw _ _)).trans (by assumption)
    | exact (congrArg Memory.wf (Flash.finishCopy_raw _)).trans (by assumption)
    | exact Flash.putWords_wf _ _ (by assumption)
    | exact Flash.tearWord_wf _ _ _ _ (by assumption)
    | exact cellsErase_wf _ _ (by assumption)

theorem Dev.loadLifetime_keeps (w_voices : W .voices) {d : Dev} (h : d.Keeps W r₀) :
  (Dev.loadLifetime d).Keeps W r₀ := by
  unfold Dev.loadLifetime
  try dsimp only
  repeat' first
    | with_reducible assumption
    | split
    | with_reducible apply Dev.Keeps.voices
    | exact id
    | intro _
    | dsimp only
    | (with_reducible refine Dev.Keeps.of_pair (by with_reducible assumption) ?_)
    | exact (congrArg Memory.wf (Flash.pause_raw _ _)).trans (by assumption)
    | exact (congrArg Memory.wf (Flash.enqueue_raw _ _ _ _ _ _)).trans (by assumption)
    | exact (congrArg Memory.wf (Flash.resume_raw _ _)).trans (by assumption)
    | exact (congrArg Memory.wf (Flash.finishCopy_raw _)).trans (by assumption)
    | exact Flash.putWords_wf _ _ (by assumption)
    | exact Flash.tearWord_wf _ _ _ _ (by assumption)
    | exact cellsErase_wf _ _ (by assumption)

theorem Dev.consumeMarker_keeps (w_nv : W .nv) {d : Dev} (h : d.Keeps W r₀) :
  (Dev.consumeMarker d).Keeps W r₀ := by
  unfold Dev.consumeMarker
  split
  · exact Dev.setNv_keeps w_nv h _ fun k => (congrArg Memory.wf (Flash.consume_raw _)).trans k
  · exact Dev.setNv_keeps w_nv h _ id

theorem Dev.markIfDue_keeps (w_nv : W .nv) {d : Dev} (h : d.Keeps W r₀) :
  (Dev.markIfDue d).Keeps W r₀ := by
  unfold Dev.markIfDue
  try dsimp only
  repeat' first
    | with_reducible assumption
    | with_reducible apply Dev.consumeMarker_keeps
    | split
    | exact id
    | intro _
    | dsimp only
    | (with_reducible refine Dev.Keeps.of_pair (by with_reducible assumption) ?_)
    | exact (congrArg Memory.wf (Flash.pause_raw _ _)).trans (by assumption)
    | exact (congrArg Memory.wf (Flash.enqueue_raw _ _ _ _ _ _)).trans (by assumption)
    | exact (congrArg Memory.wf (Flash.resume_raw _ _)).trans (by assumption)
    | exact (congrArg Memory.wf (Flash.finishCopy_raw _)).trans (by assumption)
    | exact Flash.putWords_wf _ _ (by assumption)
    | exact Flash.tearWord_wf _ _ _ _ (by assumption)
    | exact cellsErase_wf _ _ (by assumption)

theorem Dev.bootMarker_keeps (w_ctl : W .ctl) (w_port : W .port) (w_log : W .log) (w_sc : W .sc) (w_nv : W .nv) {d : Dev} (h : d.Keeps W r₀) (por : Bool) :
  (Dev.bootMarker d por).Keeps W r₀ := by
  unfold Dev.bootMarker
  try dsimp only
  repeat' first
    | with_reducible assumption
    | with_reducible apply Dev.deviceRecord_keeps
    | with_reducible apply Dev.consumeMarker_keeps
    | split
    | with_reducible apply Dev.Keeps.ctl
    | exact id
    | intro _
    | dsimp only
    | (with_reducible refine Dev.Keeps.of_pair (by with_reducible assumption) ?_)
    | exact (congrArg Memory.wf (Flash.pause_raw _ _)).trans (by assumption)
    | exact (congrArg Memory.wf (Flash.enqueue_raw _ _ _ _ _ _)).trans (by assumption)
    | exact (congrArg Memory.wf (Flash.resume_raw _ _)).trans (by assumption)
    | exact (congrArg Memory.wf (Flash.finishCopy_raw _)).trans (by assumption)
    | exact Flash.putWords_wf _ _ (by assumption)
    | exact Flash.tearWord_wf _ _ _ _ (by assumption)
    | exact cellsErase_wf _ _ (by assumption)

theorem Dev.foldSession_keeps (w_voices : W .voices) {d : Dev} (h : d.Keeps W r₀) :
  (Dev.foldSession d).Keeps W r₀ := by
  unfold Dev.foldSession
  try dsimp only
  repeat' first
    | with_reducible assumption
    | split
    | with_reducible apply Dev.Keeps.voices
    | exact id
    | intro _
    | dsimp only
    | (with_reducible refine Dev.Keeps.of_pair (by with_reducible assumption) ?_)
    | exact (congrArg Memory.wf (Flash.pause_raw _ _)).trans (by assumption)
    | exact (congrArg Memory.wf (Flash.enqueue_raw _ _ _ _ _ _)).trans (by assumption)
    | exact (congrArg Memory.wf (Flash.resume_raw _ _)).trans (by assumption)
    | exact (congrArg Memory.wf (Flash.finishCopy_raw _)).trans (by assumption)
    | exact Flash.putWords_wf _ _ (by assumption)
    | exact Flash.tearWord_wf _ _ _ _ (by assumption)
    | exact cellsErase_wf _ _ (by assumption)

theorem Dev.finishAppends_keeps (w_port : W .port) (w_log : W .log) (w_sc : W .sc) (w_nv : W .nv) {d : Dev} (h : d.Keeps W r₀) :
  (Dev.finishAppends d).Keeps W r₀ := by
  unfold Dev.finishAppends
  refine Dev.Keeps.foldl (Dev.setNv_keeps w_nv h _ id) (fun x hx a => ?_) _
  split
  · rename_i k
    exact Dev.setNv_keeps w_nv hx _ fun g => (congrArg Memory.wf (Flash.room_raw k)).trans g
  · exact Dev.storeFull_keeps w_port w_log w_sc hx _ _

theorem Dev.saveBegin_keeps (w_port : W .port) (w_log : W .log) (w_sc : W .sc) (w_nv : W .nv) {d : Dev} (h : d.Keeps W r₀) :
  (Dev.saveBegin d).Keeps W r₀ := by
  unfold Dev.saveBegin
  try dsimp only
  repeat' first
    | with_reducible assumption
    | with_reducible apply Dev.setNv_keeps
    | with_reducible apply Dev.appendRecord_keeps
    | with_reducible apply Dev.flushHeld_keeps
    | split
    | with_reducible apply Dev.Keeps.foldl
    | with_reducible apply Dev.Keeps.foldl_pair
    | exact id
    | intro _
    | dsimp only
    | (with_reducible refine Dev.Keeps.of_pair (by with_reducible assumption) ?_)
    | exact (congrArg Memory.wf (Flash.pause_raw _ _)).trans (by assumption)
    | exact (congrArg Memory.wf (Flash.enqueue_raw _ _ _ _ _ _)).trans (by assumption)
    | exact (congrArg Memory.wf (Flash.resume_raw _ _)).trans (by assumption)
    | exact (congrArg Memory.wf (Flash.finishCopy_raw _)).trans (by assumption)
    | exact Flash.putWords_wf _ _ (by assumption)
    | exact Flash.tearWord_wf _ _ _ _ (by assumption)
    | exact cellsErase_wf _ _ (by assumption)

theorem Dev.finishMarker_keeps (w_port : W .port) (w_log : W .log) (w_sc : W .sc) (w_nv : W .nv) {d : Dev} (h : d.Keeps W r₀) :
  (Dev.finishMarker d).Keeps W r₀ := by
  unfold Dev.finishMarker
  split
  · dsimp only
    split
    · rename_i k
      exact Dev.setNv_keeps w_nv (Dev.setNv_keeps w_nv h _ id) _ fun g => (congrArg Memory.wf (Flash.room_raw k)).trans g
    · exact Dev.storeFull_keeps w_port w_log w_sc (Dev.setNv_keeps w_nv h _ id) _ _
  · exact h

theorem opNvProgram_keeps (w_nv : W .nv) {d : Dev} (h : d.Keeps W r₀) (p : List Byte) :
  (opNvProgram p d).1.Keeps W r₀ := by
  unfold opNvProgram
  try dsimp only
  repeat' first
    | with_reducible assumption
    | with_reducible apply Dev.setNv_keeps
    | split
    | exact id
    | intro _
    | dsimp only
    | (with_reducible refine Dev.Keeps.of_pair (by with_reducible assumption) ?_)
    | exact (congrArg Memory.wf (Flash.pause_raw _ _)).trans (by assumption)
    | exact (congrArg Memory.wf (Flash.enqueue_raw _ _ _ _ _ _)).trans (by assumption)
    | exact (congrArg Memory.wf (Flash.resume_raw _ _)).trans (by assumption)
    | exact (congrArg Memory.wf (Flash.finishCopy_raw _)).trans (by assumption)
    | exact Flash.putWords_wf _ _ (by assumption)
    | exact Flash.tearWord_wf _ _ _ _ (by assumption)
    | exact cellsErase_wf _ _ (by assumption)

theorem opNvErase_keeps (w_nv : W .nv) {d : Dev} (h : d.Keeps W r₀) (p : List Byte) :
  (opNvErase p d).1.Keeps W r₀ := by
  unfold opNvErase
  try dsimp only
  repeat' first
    | with_reducible assumption
    | with_reducible apply Dev.setNv_keeps
    | split
    | exact id
    | intro _
    | dsimp only
    | (with_reducible refine Dev.Keeps.of_pair (by with_reducible assumption) ?_)
    | exact (congrArg Memory.wf (Flash.pause_raw _ _)).trans (by assumption)
    | exact (congrArg Memory.wf (Flash.enqueue_raw _ _ _ _ _ _)).trans (by assumption)
    | exact (congrArg Memory.wf (Flash.resume_raw _ _)).trans (by assumption)
    | exact (congrArg Memory.wf (Flash.finishCopy_raw _)).trans (by assumption)
    | exact Flash.putWords_wf _ _ (by assumption)
    | exact Flash.tearWord_wf _ _ _ _ (by assumption)
    | exact cellsErase_wf _ _ (by assumption)

theorem opNvProtect_keeps (w_nv : W .nv) {d : Dev} (h : d.Keeps W r₀) (p : List Byte) :
  (opNvProtect p d).1.Keeps W r₀ := by
  unfold opNvProtect
  try dsimp only
  repeat' first
    | with_reducible assumption
    | with_reducible apply Dev.setNv_keeps
    | split
    | exact id
    | intro _
    | dsimp only
    | (with_reducible refine Dev.Keeps.of_pair (by with_reducible assumption) ?_)
    | exact (congrArg Memory.wf (Flash.pause_raw _ _)).trans (by assumption)
    | exact (congrArg Memory.wf (Flash.enqueue_raw _ _ _ _ _ _)).trans (by assumption)
    | exact (congrArg Memory.wf (Flash.resume_raw _ _)).trans (by assumption)
    | exact (congrArg Memory.wf (Flash.finishCopy_raw _)).trans (by assumption)
    | exact Flash.putWords_wf _ _ (by assumption)
    | exact Flash.tearWord_wf _ _ _ _ (by assumption)
    | exact cellsErase_wf _ _ (by assumption)

theorem opRecWrite_keeps (w_port : W .port) (w_log : W .log) (w_sc : W .sc) (w_nv : W .nv) {d : Dev} (h : d.Keeps W r₀) (p : List Byte) :
  (opRecWrite p d).1.Keeps W r₀ := by
  unfold opRecWrite
  try dsimp only
  repeat' first
    | with_reducible assumption
    | with_reducible apply Dev.setNv_keeps
    | with_reducible apply Dev.storeFull_keeps
    | split
    | exact id
    | intro _
    | dsimp only
    | (with_reducible refine Dev.Keeps.of_pair (by with_reducible assumption) ?_)
    | exact (congrArg Memory.wf (Flash.pause_raw _ _)).trans (by assumption)
    | exact (congrArg Memory.wf (Flash.enqueue_raw _ _ _ _ _ _)).trans (by assumption)
    | exact (congrArg Memory.wf (Flash.resume_raw _ _)).trans (by assumption)
    | exact (congrArg Memory.wf (Flash.finishCopy_raw _)).trans (by assumption)
    | exact Flash.putWords_wf _ _ (by assumption)
    | exact Flash.tearWord_wf _ _ _ _ (by assumption)
    | exact cellsErase_wf _ _ (by assumption)

theorem opRecDelete_keeps (w_port : W .port) (w_log : W .log) (w_sc : W .sc) (w_nv : W .nv) {d : Dev} (h : d.Keeps W r₀) (p : List Byte) :
  (opRecDelete p d).1.Keeps W r₀ := by
  unfold opRecDelete
  try dsimp only
  repeat' first
    | with_reducible assumption
    | with_reducible apply Dev.setNv_keeps
    | with_reducible apply Dev.storeFull_keeps
    | split
    | exact id
    | intro _
    | dsimp only
    | (with_reducible refine Dev.Keeps.of_pair (by with_reducible assumption) ?_)
    | exact (congrArg Memory.wf (Flash.pause_raw _ _)).trans (by assumption)
    | exact (congrArg Memory.wf (Flash.enqueue_raw _ _ _ _ _ _)).trans (by assumption)
    | exact (congrArg Memory.wf (Flash.resume_raw _ _)).trans (by assumption)
    | exact (congrArg Memory.wf (Flash.finishCopy_raw _)).trans (by assumption)
    | exact Flash.putWords_wf _ _ (by assumption)
    | exact Flash.tearWord_wf _ _ _ _ (by assumption)
    | exact cellsErase_wf _ _ (by assumption)

end Sys2Proof.Machine
end

