-- ==== Sys2Proof/Laws/KeepsWave.lean ====
section
/-! SUPPORT. What each change of Wave.lean keeps (Laws/Keeps.lean): which parts it may change, and that every form stays. -/

namespace Sys2Proof.Machine
open Sys2Proof

variable {W : Part → Prop} {r₀ : Dev}

theorem Dev.modSlot_keeps (w_wave : W .wave) {d : Dev} (h : d.Keeps W r₀) (k : Fin 16) (f : WaveSlot → WaveSlot) :
  (Dev.modSlot d k f).Keeps W r₀ := by
  unfold Dev.modSlot
  try dsimp only
  repeat' first
    | with_reducible assumption
    | with_reducible apply Dev.setWave_keeps
    | split
    | exact id
    | intro _
    | dsimp only
    | (with_reducible refine Dev.Keeps.of_pair (by with_reducible assumption) ?_)

theorem Dev.endBlock_keeps (w_wave : W .wave) {d : Dev} (h : d.Keeps W r₀) (k : Fin 16) :
  (Dev.endBlock d k).Keeps W r₀ := by
  unfold Dev.endBlock
  try dsimp only
  repeat' first
    | with_reducible assumption
    | with_reducible apply Dev.setWave_keeps
    | with_reducible apply Dev.modSlot_keeps
    | split
    | exact id
    | intro _
    | dsimp only
    | (with_reducible refine Dev.Keeps.of_pair (by with_reducible assumption) ?_)

theorem Dev.startBlock_keeps (w_wave : W .wave) {d : Dev} (h : d.Keeps W r₀) :
  (Dev.startBlock d).Keeps W r₀ := by
  unfold Dev.startBlock
  try dsimp only
  repeat' first
    | with_reducible assumption
    | with_reducible apply Dev.setWave_keeps
    | with_reducible apply Dev.modSlot_keeps
    | split
    | with_reducible apply Dev.Keeps.foldl
    | with_reducible apply Dev.Keeps.foldl_pair
    | exact id
    | intro _
    | dsimp only
    | (with_reducible refine Dev.Keeps.of_pair (by with_reducible assumption) ?_)

theorem Dev.nextFrame_keeps (w_wave : W .wave) {d : Dev} (h : d.Keeps W r₀) :
  (Dev.nextFrame d).Keeps W r₀ := by
  unfold Dev.nextFrame
  try dsimp only
  repeat' first
    | with_reducible assumption
    | with_reducible apply Dev.setWave_keeps
    | with_reducible apply Dev.endBlock_keeps
    | with_reducible apply Dev.startBlock_keeps
    | split
    | with_reducible apply Dev.Keeps.foldl
    | with_reducible apply Dev.Keeps.foldl_pair
    | exact id
    | intro _
    | dsimp only
    | (with_reducible refine Dev.Keeps.of_pair (by with_reducible assumption) ?_)

theorem Dev.sendSlots_keeps (w_wave : W .wave) {d : Dev} (h : d.Keeps W r₀) :
  (Dev.sendSlots d).Keeps W r₀ := by
  unfold Dev.sendSlots
  try dsimp only
  repeat' first
    | with_reducible assumption
    | with_reducible apply Dev.modSlot_keeps
    | split
    | with_reducible apply Dev.Keeps.foldl
    | with_reducible apply Dev.Keeps.foldl_pair
    | exact id
    | intro _
    | dsimp only
    | (with_reducible refine Dev.Keeps.of_pair (by with_reducible assumption) ?_)

theorem Dev.transmit_keeps (w_wave : W .wave) {d : Dev} (h : d.Keeps W r₀) :
  (Dev.transmit d).Keeps W r₀ := by
  unfold Dev.transmit
  try dsimp only
  repeat' first
    | with_reducible assumption
    | with_reducible apply Dev.setWave_keeps
    | with_reducible apply Dev.sendSlots_keeps
    | split
    | exact id
    | intro _
    | dsimp only
    | (with_reducible refine Dev.Keeps.of_pair (by with_reducible assumption) ?_)

theorem Dev.cutSlot_keeps (w_voices : W .voices) (w_wave : W .wave) {d : Dev} (h : d.Keeps W r₀) (k : Fin 16) :
  (Dev.cutSlot d k).Keeps W r₀ := by
  unfold Dev.cutSlot
  try dsimp only
  repeat' first
    | with_reducible assumption
    | with_reducible apply Dev.modSlot_keeps
    | split
    | with_reducible apply Dev.Keeps.voices
    | exact id
    | intro _
    | dsimp only
    | (with_reducible refine Dev.Keeps.of_pair (by with_reducible assumption) ?_)

theorem Dev.cutFrame_keeps (w_voices : W .voices) (w_wave : W .wave) {d : Dev} (h : d.Keeps W r₀) :
  (Dev.cutFrame d).Keeps W r₀ := by
  unfold Dev.cutFrame
  try dsimp only
  repeat' first
    | with_reducible assumption
    | with_reducible apply Dev.cutSlot_keeps
    | split
    | with_reducible apply Dev.Keeps.foldl
    | with_reducible apply Dev.Keeps.foldl_pair
    | exact id
    | intro _
    | dsimp only
    | (with_reducible refine Dev.Keeps.of_pair (by with_reducible assumption) ?_)

theorem Dev.judgeFrame_keeps (w_voices : W .voices) (w_wave : W .wave) {d : Dev} (h : d.Keeps W r₀) (timing : FrameTiming) :
  (Dev.judgeFrame d timing).Keeps W r₀ := by
  unfold Dev.judgeFrame
  try dsimp only
  repeat' first
    | with_reducible assumption
    | with_reducible apply Dev.setWave_keeps
    | with_reducible apply Dev.cutFrame_keeps
    | split
    | exact id
    | intro _
    | dsimp only
    | (with_reducible refine Dev.Keeps.of_pair (by with_reducible assumption) ?_)

theorem Dev.firstMark_keeps (w_wave : W .wave) {d : Dev} (h : d.Keeps W r₀) :
  (Dev.firstMark d).Keeps W r₀ := by
  unfold Dev.firstMark
  try dsimp only
  repeat' first
    | with_reducible assumption
    | with_reducible apply Dev.setWave_keeps
    | with_reducible apply Dev.startBlock_keeps
    | with_reducible apply Dev.nextFrame_keeps
    | split
    | exact id
    | intro _
    | dsimp only
    | (with_reducible refine Dev.Keeps.of_pair (by with_reducible assumption) ?_)

theorem Dev.muteVoices_keeps (w_voices : W .voices) {d : Dev} (h : d.Keeps W r₀) :
  (Dev.muteVoices d).Keeps W r₀ := by
  unfold Dev.muteVoices
  try dsimp only
  repeat' first
    | with_reducible assumption
    | split
    | with_reducible apply Dev.Keeps.voices
    | exact id
    | intro _
    | dsimp only
    | (with_reducible refine Dev.Keeps.of_pair (by with_reducible assumption) ?_)

theorem Dev.mute_keeps (w_voices : W .voices) (w_wave : W .wave) {d : Dev} (h : d.Keeps W r₀) (st : WaveState) :
  (Dev.mute d st).Keeps W r₀ := by
  unfold Dev.mute
  try dsimp only
  repeat' first
    | with_reducible assumption
    | with_reducible apply Dev.setWave_keeps
    | with_reducible apply Dev.muteVoices_keeps
    | split
    | exact id
    | intro _
    | dsimp only
    | (with_reducible refine Dev.Keeps.of_pair (by with_reducible assumption) ?_)

theorem Dev.clockLoss_keeps (w_port : W .port) (w_log : W .log) (w_voices : W .voices) (w_wave : W .wave) {d : Dev} (h : d.Keeps W r₀) (cause : Byte) :
  (Dev.clockLoss d cause).Keeps W r₀ := by
  unfold Dev.clockLoss
  try dsimp only
  repeat' first
    | with_reducible assumption
    | with_reducible apply Dev.event_keeps
    | with_reducible apply Dev.setWave_keeps
    | with_reducible apply Dev.mute_keeps
    | split
    | exact id
    | intro _
    | dsimp only
    | (with_reducible refine Dev.Keeps.of_pair (by with_reducible assumption) ?_)

theorem Dev.sampleVoices_keeps (w_voices : W .voices) {d : Dev} (h : d.Keeps W r₀) (k : Fin 16) :
  (Dev.sampleVoices d k).Keeps W r₀ := by
  unfold Dev.sampleVoices
  try dsimp only
  repeat' first
    | with_reducible assumption
    | split
    | with_reducible apply Dev.Keeps.voices
    | exact id
    | intro _
    | dsimp only
    | (with_reducible refine Dev.Keeps.of_pair (by with_reducible assumption) ?_)

theorem Dev.takeWord_keeps (w_voices : W .voices) (w_wave : W .wave) {d : Dev} (h : d.Keeps W r₀) (k : Fin 16) (word : Word) (use_ : Bool) :
  (Dev.takeWord d k word use_).Keeps W r₀ := by
  unfold Dev.takeWord
  try dsimp only
  repeat' first
    | with_reducible assumption
    | with_reducible apply Dev.modSlot_keeps
    | with_reducible apply Dev.sampleVoices_keeps
    | split
    | exact id
    | intro _
    | dsimp only
    | (with_reducible refine Dev.Keeps.of_pair (by with_reducible assumption) ?_)

theorem Dev.resend_keeps (w_wave : W .wave) {d : Dev} (h : d.Keeps W r₀) :
  (Dev.resend d).Keeps W r₀ := by
  unfold Dev.resend
  try dsimp only
  repeat' first
    | with_reducible assumption
    | with_reducible apply Dev.modSlot_keeps
    | split
    | with_reducible apply Dev.Keeps.foldl
    | with_reducible apply Dev.Keeps.foldl_pair
    | exact id
    | intro _
    | dsimp only
    | (with_reducible refine Dev.Keeps.of_pair (by with_reducible assumption) ?_)

theorem Dev.takeB_keeps (w_wave : W .wave) {d : Dev} (h : d.Keeps W r₀) (w : Word) :
  (Dev.takeB d w).Keeps W r₀ := by
  unfold Dev.takeB
  try dsimp only
  repeat' first
    | with_reducible assumption
    | with_reducible apply Dev.setWave_keeps
    | with_reducible apply Dev.startBlock_keeps
    | with_reducible apply Dev.resend_keeps
    | split
    | exact id
    | intro _
    | dsimp only
    | (with_reducible refine Dev.Keeps.of_pair (by with_reducible assumption) ?_)

theorem Dev.useWords_keeps (w_voices : W .voices) (w_wave : W .wave) {d : Dev} (h : d.Keeps W r₀) :
  (Dev.useWords d).Keeps W r₀ := by
  unfold Dev.useWords
  try dsimp only
  repeat' first
    | with_reducible assumption
    | with_reducible apply Dev.modSlot_keeps
    | with_reducible apply Dev.takeWord_keeps
    | split
    | with_reducible apply Dev.Keeps.foldl
    | with_reducible apply Dev.Keeps.foldl_pair
    | exact id
    | intro _
    | dsimp only
    | (with_reducible refine Dev.Keeps.of_pair (by with_reducible assumption) ?_)

theorem Dev.waveFault_keeps (w_wave : W .wave) {d : Dev} (h : d.Keeps W r₀) (v : VoiceId) (code : Nat) :
  (Dev.waveFault d v code).Keeps W r₀ := by
  unfold Dev.waveFault
  try dsimp only
  repeat' first
    | with_reducible assumption
    | with_reducible apply Dev.setWave_keeps
    | split
    | exact id
    | intro _
    | dsimp only
    | (with_reducible refine Dev.Keeps.of_pair (by with_reducible assumption) ?_)

theorem Dev.waveUnfault_keeps (w_wave : W .wave) {d : Dev} (h : d.Keeps W r₀) (v : VoiceId) (code : Nat) :
  (Dev.waveUnfault d v code).Keeps W r₀ := by
  unfold Dev.waveUnfault
  try dsimp only
  repeat' first
    | with_reducible assumption
    | with_reducible apply Dev.setWave_keeps
    | split
    | exact id
    | intro _
    | dsimp only
    | (with_reducible refine Dev.Keeps.of_pair (by with_reducible assumption) ?_)

theorem Dev.waveDisarm_keeps (w_wave : W .wave) {d : Dev} (h : d.Keeps W r₀) (v : VoiceId) :
  (Dev.waveDisarm d v).Keeps W r₀ := by
  unfold Dev.waveDisarm
  try dsimp only
  repeat' first
    | with_reducible assumption
    | with_reducible apply Dev.setWave_keeps
    | split
    | exact id
    | intro _
    | dsimp only
    | (with_reducible refine Dev.Keeps.of_pair (by with_reducible assumption) ?_)

theorem Dev.waveReconf_keeps (w_voices : W .voices) (w_wave : W .wave) {d : Dev} (h : d.Keeps W r₀) (old : Dev) :
  (Dev.waveReconf d old).Keeps W r₀ := by
  unfold Dev.waveReconf
  try dsimp only
  repeat' first
    | with_reducible assumption
    | with_reducible apply Dev.setWave_keeps
    | with_reducible apply Dev.muteVoices_keeps
    | split
    | exact id
    | intro _
    | dsimp only
    | (with_reducible refine Dev.Keeps.of_pair (by with_reducible assumption) ?_)

theorem Dev.waveOff_keeps (w_wave : W .wave) {d : Dev} (h : d.Keeps W r₀) :
  (Dev.waveOff d).Keeps W r₀ := by
  unfold Dev.waveOff
  try dsimp only
  repeat' first
    | with_reducible assumption
    | with_reducible apply Dev.setWave_keeps
    | split
    | exact id
    | intro _
    | dsimp only
    | (with_reducible refine Dev.Keeps.of_pair (by with_reducible assumption) ?_)

theorem opWaveCtrl_keeps (w_wave : W .wave) {d : Dev} (h : d.Keeps W r₀) (p : List Byte) :
  (opWaveCtrl p d).1.Keeps W r₀ := by
  unfold opWaveCtrl
  try dsimp only
  repeat' first
    | with_reducible assumption
    | with_reducible apply Dev.setWave_keeps
    | with_reducible apply Dev.modSlot_keeps
    | split
    | with_reducible apply Dev.Keeps.foldl
    | with_reducible apply Dev.Keeps.foldl_pair
    | exact id
    | intro _
    | dsimp only
    | (with_reducible refine Dev.Keeps.of_pair (by with_reducible assumption) ?_)

end Sys2Proof.Machine
end

