-- ==== Sys2Proof/Laws/KeepsProtection.lean ====
section
/-! SUPPORT. What each change of Protection.lean keeps (Laws/Keeps.lean): which parts it may change, and that every form stays. -/

namespace Sys2Proof.Machine
open Sys2Proof

variable {W : Part → Prop} {r₀ : Dev}

theorem Dev.dropVoice_keeps (w_port : W .port) (w_log : W .log) (w_voices : W .voices) (w_therm : W .therm) (w_chain : W .chain) {d : Dev} (h : d.Keeps W r₀) (why : OffWhy) (v : VoiceId) :
  (Dev.dropVoice why d v).Keeps W r₀ := by
  unfold Dev.dropVoice
  try dsimp only
  repeat' first
    | with_reducible assumption
    | with_reducible apply Dev.modVoice_keeps
    | with_reducible apply Dev.turnOff_keeps
    | split
    | exact id
    | intro _
    | dsimp only
    | (with_reducible refine Dev.Keeps.of_pair (by with_reducible assumption) ?_)

theorem Dev.faultEvent_keeps (w_port : W .port) (w_log : W .log) (w_conv : W .conv) (w_wave : W .wave) (w_slotFaults : W .slotFaults) {d : Dev} (h : d.Keeps W r₀) (v : VoiceId) (code : Nat) (kind : Nat) (before : Nat) (m : Meas) :
  (Dev.faultEvent d v code kind before m).Keeps W r₀ := by
  unfold Dev.faultEvent
  try dsimp only
  repeat' first
    | with_reducible assumption
    | with_reducible apply Dev.event_keeps
    | with_reducible apply Dev.request_keeps
    | with_reducible apply Dev.waveFault_keeps
    | split
    | with_reducible apply Dev.Keeps.slotFaults
    | exact id
    | intro _
    | dsimp only
    | (with_reducible refine Dev.Keeps.of_pair (by with_reducible assumption) ?_)

theorem Dev.unrequest_keeps (w_conv : W .conv) {d : Dev} (h : d.Keeps W r₀) (source : UrgentSource) (input : Nat) :
  (Dev.unrequest d source input).Keeps W r₀ := by
  unfold Dev.unrequest
  try dsimp only
  repeat' first
    | with_reducible assumption
    | split
    | with_reducible apply Dev.Keeps.conv
    | exact id
    | intro _
    | dsimp only
    | (with_reducible refine Dev.Keeps.of_pair (by with_reducible assumption) ?_)

theorem Dev.unscore_keeps (w_log : W .log) (w_voices : W .voices) (w_conv : W .conv) (w_wave : W .wave) (w_slotFaults : W .slotFaults) {d : Dev} (h : d.Keeps W r₀) (f : SlotFault) :
  (Dev.unscore d f).Keeps W r₀ := by
  unfold Dev.unscore
  extract_lets later d0 d1
  have k0 : d0.Keeps W r₀ := Dev.unrequest_keeps w_conv (Dev.unrequest_keeps w_conv h _ _) _ _
  have k : d1.Keeps W r₀ := k0.log_slotFaults w_log w_slotFaults _ _ fun g => EventLog.good_retract (l := d.log) g _
  clear_value d1
  exact Dev.modVoice_keeps w_voices (Dev.waveUnfault_keeps w_wave k _ _) _ _

theorem Dev.scoreTrip_keeps (w_port : W .port) (w_log : W .log) (w_voices : W .voices) (w_sc : W .sc) (w_conv : W .conv) (w_wave : W .wave) (w_therm : W .therm) (w_chain : W .chain) (w_slotFaults : W .slotFaults) {d : Dev} (h : d.Keeps W r₀) (v : VoiceId) (code : Nat) (stripes : BitVec 2) (m : Meas) :
  (Dev.scoreTrip d v code stripes m).Keeps W r₀ := by
  unfold Dev.scoreTrip
  try dsimp only
  repeat' first
    | with_reducible assumption
    | with_reducible apply Dev.modVoice_keeps
    | with_reducible apply Dev.forVoices_keeps
    | with_reducible apply Dev.turnOff_keeps
    | with_reducible apply Dev.setSc_keeps
    | with_reducible apply Dev.modUnit_keeps
    | with_reducible apply Dev.faultEvent_keeps
    | with_reducible apply Dev.unscore_keeps
    | split
    | with_reducible apply Dev.Keeps.foldl
    | with_reducible apply Dev.Keeps.foldl_pair
    | exact id
    | intro _
    | dsimp only
    | (with_reducible refine Dev.Keeps.of_pair (by with_reducible assumption) ?_)

theorem Dev.scoreReport_keeps (w_port : W .port) (w_log : W .log) (w_voices : W .voices) (w_conv : W .conv) (w_wave : W .wave) (w_slotFaults : W .slotFaults) {d : Dev} (h : d.Keeps W r₀) (v : VoiceId) (code : Nat) (m : Meas) :
  (Dev.scoreReport d v code m).Keeps W r₀ := by
  unfold Dev.scoreReport
  try dsimp only
  repeat' first
    | with_reducible assumption
    | with_reducible apply Dev.modVoice_keeps
    | with_reducible apply Dev.faultEvent_keeps
    | split
    | exact id
    | intro _
    | dsimp only
    | (with_reducible refine Dev.Keeps.of_pair (by with_reducible assumption) ?_)

theorem Dev.ceaseReport_keeps (w_voices : W .voices) {d : Dev} (h : d.Keeps W r₀) (v : VoiceId) (code : Nat) :
  (Dev.ceaseReport d v code).Keeps W r₀ := by
  unfold Dev.ceaseReport
  try dsimp only
  repeat' first
    | with_reducible assumption
    | with_reducible apply Dev.modVoice_keeps
    | split
    | exact id
    | intro _
    | dsimp only
    | (with_reducible refine Dev.Keeps.of_pair (by with_reducible assumption) ?_)

theorem Dev.otStop_keeps (w_port : W .port) (w_log : W .log) (w_voices : W .voices) (w_sc : W .sc) (w_conv : W .conv) (w_wave : W .wave) (w_therm : W .therm) (w_chain : W .chain) (w_slotFaults : W .slotFaults) {d : Dev} (h : d.Keeps W r₀) (v : VoiceId) :
  (Dev.otStop d v).Keeps W r₀ := by
  unfold Dev.otStop
  try dsimp only
  repeat' first
    | with_reducible assumption
    | with_reducible apply Dev.setSc_keeps
    | with_reducible apply Dev.modUnit_keeps
    | with_reducible apply Dev.scoreTrip_keeps
    | split
    | with_reducible apply Dev.Keeps.foldl
    | with_reducible apply Dev.Keeps.foldl_pair
    | exact id
    | intro _
    | dsimp only
    | (with_reducible refine Dev.Keeps.of_pair (by with_reducible assumption) ?_)

theorem Dev.withdrawBank_keeps (w_voices : W .voices) (w_chain : W .chain) {d : Dev} (h : d.Keeps W r₀) (b : BankId) :
  (Dev.withdrawBank d b).Keeps W r₀ := by
  unfold Dev.withdrawBank
  try dsimp only
  repeat' first
    | with_reducible assumption
    | with_reducible apply Dev.forVoices_keeps
    | with_reducible apply Dev.withdraw_keeps
    | split
    | exact id
    | intro _
    | dsimp only
    | (with_reducible refine Dev.Keeps.of_pair (by with_reducible assumption) ?_)

theorem Dev.endSearches_keeps (w_voices : W .voices) {d : Dev} (h : d.Keeps W r₀) (b : BankId) :
  (Dev.endSearches d b).Keeps W r₀ := by
  unfold Dev.endSearches
  try dsimp only
  repeat' first
    | with_reducible assumption
    | with_reducible apply Dev.modVoice_keeps
    | with_reducible apply Dev.forVoices_keeps
    | split
    | exact id
    | intro _
    | dsimp only
    | (with_reducible refine Dev.Keeps.of_pair (by with_reducible assumption) ?_)

theorem Dev.staggerEnd_keeps (w_banks : W .banks) {d : Dev} (h : d.Keeps W r₀) (k : StaggerKind) :
  (Dev.staggerEnd d k).Keeps W r₀ := by
  unfold Dev.staggerEnd
  try dsimp only
  repeat' first
    | with_reducible assumption
    | with_reducible apply Dev.modBank_keeps
    | split
    | exact id
    | intro _
    | dsimp only
    | (with_reducible refine Dev.Keeps.of_pair (by with_reducible assumption) ?_)

theorem Dev.staggerStep_keeps (w_port : W .port) (w_log : W .log) (w_voices : W .voices) (w_banks : W .banks) (w_staggers : W .staggers) (w_sc : W .sc) (w_conv : W .conv) (w_wave : W .wave) (w_therm : W .therm) (w_chain : W .chain) (w_slotFaults : W .slotFaults) {d : Dev} (h : d.Keeps W r₀) (s : Stagger) :
  (Dev.staggerStep d s).Keeps W r₀ := by
  unfold Dev.staggerStep
  try dsimp only
  repeat' first
    | with_reducible assumption
    | with_reducible apply Dev.forVoices_keeps
    | with_reducible apply Dev.turnOff_keeps
    | with_reducible apply Dev.dropVoice_keeps
    | with_reducible apply Dev.otStop_keeps
    | with_reducible apply Dev.staggerEnd_keeps
    | split
    | with_reducible apply Dev.Keeps.staggers
    | exact id
    | intro _
    | dsimp only
    | (with_reducible refine Dev.Keeps.of_pair (by with_reducible assumption) ?_)

theorem Dev.stagger_keeps (w_port : W .port) (w_log : W .log) (w_voices : W .voices) (w_banks : W .banks) (w_staggers : W .staggers) (w_sc : W .sc) (w_conv : W .conv) (w_wave : W .wave) (w_therm : W .therm) (w_chain : W .chain) (w_slotFaults : W .slotFaults) {d : Dev} (h : d.Keeps W r₀) (k : StaggerKind) (vs : List VoiceId) :
  (Dev.stagger d k vs).Keeps W r₀ := by
  unfold Dev.stagger
  try dsimp only
  repeat' first
    | with_reducible assumption
    | with_reducible apply Dev.staggerStep_keeps
    | split
    | exact id
    | intro _
    | dsimp only
    | (with_reducible refine Dev.Keeps.of_pair (by with_reducible assumption) ?_)

theorem Dev.cutBank_keeps (w_port : W .port) (w_log : W .log) (w_voices : W .voices) (w_banks : W .banks) (w_staggers : W .staggers) (w_sc : W .sc) (w_conv : W .conv) (w_wave : W .wave) (w_therm : W .therm) (w_chain : W .chain) (w_slotFaults : W .slotFaults) {d : Dev} (h : d.Keeps W r₀) (b : BankId) :
  (Dev.cutBank d b).Keeps W r₀ := by
  unfold Dev.cutBank
  try dsimp only
  repeat' first
    | with_reducible assumption
    | with_reducible apply Dev.modBank_keeps
    | with_reducible apply Dev.withdrawBank_keeps
    | with_reducible apply Dev.endSearches_keeps
    | with_reducible apply Dev.stagger_keeps
    | split
    | exact id
    | intro _
    | dsimp only
    | (with_reducible refine Dev.Keeps.of_pair (by with_reducible assumption) ?_)

theorem Dev.restoreBank_keeps (w_banks : W .banks) {d : Dev} (h : d.Keeps W r₀) (b : BankId) :
  (Dev.restoreBank d b).Keeps W r₀ := by
  unfold Dev.restoreBank
  try dsimp only
  repeat' first
    | with_reducible assumption
    | with_reducible apply Dev.modBank_keeps
    | split
    | exact id
    | intro _
    | dsimp only
    | (with_reducible refine Dev.Keeps.of_pair (by with_reducible assumption) ?_)

theorem Dev.dropCues_keeps (w_cues : W .cues) {d : Dev} (h : d.Keeps W r₀) (v : VoiceId) :
  (Dev.dropCues d v).1.Keeps W r₀ := by
  unfold Dev.dropCues
  try dsimp only
  repeat' first
    | with_reducible assumption
    | split
    | with_reducible apply Dev.Keeps.cues
    | exact id
    | intro _
    | dsimp only
    | (with_reducible refine Dev.Keeps.of_pair (by with_reducible assumption) ?_)
    | (simp only [List.length_map]; assumption)
    | exact Nat.le_trans (List.length_filter_le _ _) (by assumption)
    | exact Nat.le_trans (by simp) (by assumption)
    | exact Nat.le_trans (by simp only [List.length_drop]; exact Nat.sub_le _ _) (by assumption)
    | exact Nat.zero_le _

theorem Dev.retireVoice_keeps (w_port : W .port) (w_log : W .log) (w_voices : W .voices) (w_cues : W .cues) (w_sc : W .sc) (w_wave : W .wave) (w_therm : W .therm) (w_nv : W .nv) (w_chain : W .chain) {d : Dev} (h : d.Keeps W r₀) (v : VoiceId) (cause : Nat) (trigger : Nat) (outcome : Nat) (failed : Nat) :
  (Dev.retireVoice d v cause trigger outcome failed).1.Keeps W r₀ := by
  unfold Dev.retireVoice
  try dsimp only
  repeat' first
    | with_reducible assumption
    | with_reducible apply Dev.modVoice_keeps
    | with_reducible apply Dev.turnOff_keeps
    | with_reducible apply Dev.withdraw_keeps
    | with_reducible apply Dev.retireRecord_keeps
    | with_reducible apply Dev.retireEvent_keeps
    | with_reducible apply Dev.waveDisarm_keeps
    | with_reducible apply Dev.dropCues_keeps
    | split
    | with_reducible apply Dev.Keeps.therm
    | exact id
    | intro _
    | dsimp only
    | (with_reducible refine Dev.Keeps.of_pair (by with_reducible assumption) ?_)

theorem Dev.barVoice_keeps (w_port : W .port) (w_log : W .log) (w_voices : W .voices) (w_sc : W .sc) (w_nv : W .nv) (w_chain : W .chain) {d : Dev} (h : d.Keeps W r₀) (v : VoiceId) (trigger : Nat) (failed : Nat) :
  (Dev.barVoice d v trigger failed).Keeps W r₀ := by
  unfold Dev.barVoice
  try dsimp only
  repeat' first
    | with_reducible assumption
    | with_reducible apply Dev.event_keeps
    | with_reducible apply Dev.modVoice_keeps
    | with_reducible apply Dev.withdraw_keeps
    | with_reducible apply Dev.retireRecord_keeps
    | with_reducible apply Dev.modUnit_keeps
    | split
    | exact id
    | intro _
    | dsimp only
    | (with_reducible refine Dev.Keeps.of_pair (by with_reducible assumption) ?_)

theorem Dev.retireStripe_keeps (w_port : W .port) (w_log : W .log) (w_voices : W .voices) (w_sc : W .sc) (w_nv : W .nv) {d : Dev} (h : d.Keeps W r₀) (v : VoiceId) (k : Nat) (trigger : Nat) (failed : Nat) :
  (Dev.retireStripe d v k trigger failed).Keeps W r₀ := by
  unfold Dev.retireStripe
  try dsimp only
  repeat' first
    | with_reducible assumption
    | with_reducible apply Dev.event_keeps
    | with_reducible apply Dev.modVoice_keeps
    | with_reducible apply Dev.retireRecord_keeps
    | with_reducible apply Dev.retireEvent_keeps
    | split
    | exact id
    | intro _
    | dsimp only
    | (with_reducible refine Dev.Keeps.of_pair (by with_reducible assumption) ?_)

theorem Dev.retirePullup_keeps (w_port : W .port) (w_log : W .log) (w_voices : W .voices) (w_sc : W .sc) (w_nv : W .nv) {d : Dev} (h : d.Keeps W r₀) (v : VoiceId) (trigger : Nat) (failed : Nat) :
  (Dev.retirePullup d v trigger failed).Keeps W r₀ := by
  unfold Dev.retirePullup
  try dsimp only
  repeat' first
    | with_reducible assumption
    | with_reducible apply Dev.modVoice_keeps
    | with_reducible apply Dev.retireRecord_keeps
    | with_reducible apply Dev.retireEvent_keeps
    | split
    | exact id
    | intro _
    | dsimp only
    | (with_reducible refine Dev.Keeps.of_pair (by with_reducible assumption) ?_)

theorem Dev.startCheck_keeps (w_voices : W .voices) (w_sc : W .sc) (w_conv : W .conv) {d : Dev} (h : d.Keeps W r₀) :
  (Dev.startCheck d).Keeps W r₀ := by
  unfold Dev.startCheck
  try dsimp only
  repeat' first
    | with_reducible assumption
    | with_reducible apply Dev.modVoice_keeps
    | with_reducible apply Dev.request_keeps
    | with_reducible apply Dev.setSc_keeps
    | with_reducible apply Dev.modUnit_keeps
    | split
    | with_reducible apply Dev.Keeps.foldl
    | with_reducible apply Dev.Keeps.foldl_pair
    | exact id
    | intro _
    | dsimp only
    | (with_reducible refine Dev.Keeps.of_pair (by with_reducible assumption) ?_)

theorem Dev.noteCheck_keeps (w_voices : W .voices) {d : Dev} (h : d.Keeps W r₀) (v : VoiceId) (trigger : Nat) (o : CheckOutcome) (failed : Nat) (dur : Nat) :
  (Dev.noteCheck d v trigger o failed dur).Keeps W r₀ := by
  unfold Dev.noteCheck
  try dsimp only
  repeat' first
    | with_reducible assumption
    | with_reducible apply Dev.modVoice_keeps
    | split
    | exact id
    | intro _
    | dsimp only
    | (with_reducible refine Dev.Keeps.of_pair (by with_reducible assumption) ?_)

theorem Dev.tellUnit_keeps (w_port : W .port) (w_log : W .log) (w_sc : W .sc) (w_nv : W .nv) {d : Dev} (h : d.Keeps W r₀) (v : VoiceId) (shown : Nat) (unit : Nat) (trigger : Nat) (o : CheckOutcome) (failed : Nat) (run : Nat) (dur : Nat) :
  (Dev.tellUnit d v shown unit trigger o failed run dur).Keeps W r₀ := by
  unfold Dev.tellUnit
  try dsimp only
  repeat' first
    | with_reducible assumption
    | with_reducible apply Dev.soundEvent_keeps
    | with_reducible apply Dev.faultRecord_keeps
    | split
    | exact id
    | intro _
    | dsimp only
    | (with_reducible refine Dev.Keeps.of_pair (by with_reducible assumption) ?_)

theorem Dev.tellOutcome_keeps (w_port : W .port) (w_log : W .log) (w_voices : W .voices) (w_sc : W .sc) (w_nv : W .nv) {d : Dev} (h : d.Keeps W r₀) (v : VoiceId) (unit : Nat) (trigger : Nat) (o : CheckOutcome) (failed : Nat) (run : Nat) (dur : Nat) :
  (Dev.tellOutcome d v unit trigger o failed run dur).Keeps W r₀ := by
  unfold Dev.tellOutcome
  try dsimp only
  repeat' first
    | with_reducible assumption
    | with_reducible apply Dev.noteCheck_keeps
    | with_reducible apply Dev.tellUnit_keeps
    | split
    | exact id
    | intro _
    | dsimp only
    | (with_reducible refine Dev.Keeps.of_pair (by with_reducible assumption) ?_)

theorem Dev.tellThermal_keeps (w_port : W .port) (w_log : W .log) (w_voices : W .voices) (w_sc : W .sc) (w_nv : W .nv) {d : Dev} (h : d.Keeps W r₀) (v : VoiceId) (incomplete : Bool) :
  (Dev.tellThermal d v incomplete).Keeps W r₀ := by
  unfold Dev.tellThermal
  try dsimp only
  repeat' first
    | with_reducible assumption
    | with_reducible apply Dev.tellOutcome_keeps
    | split
    | exact id
    | intro _
    | dsimp only
    | (with_reducible refine Dev.Keeps.of_pair (by with_reducible assumption) ?_)

theorem Dev.judge_keeps (w_port : W .port) (w_log : W .log) (w_voices : W .voices) (w_sc : W .sc) (w_nv : W .nv) {d : Dev} (h : d.Keeps W r₀) (v : VoiceId) (r : RunningCheck) (f0 : BitVec 6) (f1 : BitVec 6) (incomplete : Bool) (dur : Nat) :
  (Dev.judge d v r f0 f1 incomplete dur).1.Keeps W r₀ := by
  unfold Dev.judge
  try dsimp only
  repeat' first
    | with_reducible assumption
    | with_reducible apply Dev.retireStripe_keeps
    | with_reducible apply Dev.retirePullup_keeps
    | with_reducible apply Dev.tellUnit_keeps
    | with_reducible apply Dev.tellOutcome_keeps
    | split
    | exact id
    | intro _
    | dsimp only
    | (with_reducible refine Dev.Keeps.of_pair (by with_reducible assumption) ?_)

theorem Dev.settleUnit_keeps (w_voices : W .voices) {d : Dev} (h : d.Keeps W r₀) (v : VoiceId) (st : VState) :
  (Dev.settleUnit d v st).Keeps W r₀ := by
  unfold Dev.settleUnit
  try dsimp only
  repeat' first
    | with_reducible assumption
    | with_reducible apply Dev.modUnit_keeps
    | split
    | exact id
    | intro _
    | dsimp only
    | (with_reducible refine Dev.Keeps.of_pair (by with_reducible assumption) ?_)

theorem Dev.retryDecision_keeps (w_port : W .port) (w_log : W .log) (w_voices : W .voices) {d : Dev} (h : d.Keeps W r₀) (v : VoiceId) :
  (Dev.retryDecision d v).Keeps W r₀ := by
  unfold Dev.retryDecision
  try dsimp only
  repeat' first
    | with_reducible assumption
    | with_reducible apply Dev.event_keeps
    | with_reducible apply Dev.modUnit_keeps
    | with_reducible apply Dev.settleUnit_keeps
    | split
    | exact id
    | intro _
    | dsimp only
    | (with_reducible refine Dev.Keeps.of_pair (by with_reducible assumption) ?_)

theorem Dev.tripDecision_keeps (w_port : W .port) (w_log : W .log) (w_voices : W .voices) {d : Dev} (h : d.Keeps W r₀) (v : VoiceId) :
  (Dev.tripDecision d v).Keeps W r₀ := by
  unfold Dev.tripDecision
  try dsimp only
  repeat' first
    | with_reducible assumption
    | with_reducible apply Dev.settleUnit_keeps
    | with_reducible apply Dev.retryDecision_keeps
    | split
    | exact id
    | intro _
    | dsimp only
    | (with_reducible refine Dev.Keeps.of_pair (by with_reducible assumption) ?_)

theorem Dev.releaseHeld_keeps (w_voices : W .voices) {d : Dev} (h : d.Keeps W r₀) (v : VoiceId) :
  (Dev.releaseHeld d v).Keeps W r₀ := by
  unfold Dev.releaseHeld
  try dsimp only
  repeat' first
    | with_reducible assumption
    | with_reducible apply Dev.modUnit_keeps
    | split
    | exact id
    | intro _
    | dsimp only
    | (with_reducible refine Dev.Keeps.of_pair (by with_reducible assumption) ?_)

theorem Dev.clearTrip_keeps (w_voices : W .voices) {d : Dev} (h : d.Keeps W r₀) (v : VoiceId) :
  (Dev.clearTrip d v).Keeps W r₀ := by
  unfold Dev.clearTrip
  try dsimp only
  repeat' first
    | with_reducible assumption
    | with_reducible apply Dev.modUnit_keeps
    | split
    | exact id
    | intro _
    | dsimp only
    | (with_reducible refine Dev.Keeps.of_pair (by with_reducible assumption) ?_)

theorem Dev.retireUnit_keeps (w_port : W .port) (w_log : W .log) (w_voices : W .voices) (w_cues : W .cues) (w_sc : W .sc) (w_wave : W .wave) (w_therm : W .therm) (w_nv : W .nv) (w_chain : W .chain) {d : Dev} (h : d.Keeps W r₀) (v : VoiceId) (dead : List (VoiceId × Nat)) (trigger : Nat) :
  (Dev.retireUnit d v dead trigger).Keeps W r₀ := by
  unfold Dev.retireUnit
  try dsimp only
  repeat' first
    | with_reducible assumption
    | with_reducible apply Dev.forVoices_keeps
    | with_reducible apply Dev.retireVoice_keeps
    | split
    | exact id
    | intro _
    | dsimp only
    | (with_reducible refine Dev.Keeps.of_pair (by with_reducible assumption) ?_)

theorem Dev.finishTrip_keeps (w_port : W .port) (w_log : W .log) (w_voices : W .voices) (w_cues : W .cues) (w_sc : W .sc) (w_wave : W .wave) (w_therm : W .therm) (w_nv : W .nv) (w_chain : W .chain) (w_slotOffs : W .slotOffs) {d : Dev} (h : d.Keeps W r₀) (r : RunningCheck) (f : Tab (BitVec 6) 4) (incomplete : Bool) (dur : Nat) :
  (Dev.finishTrip d r f incomplete dur).Keeps W r₀ := by
  unfold Dev.finishTrip
  try dsimp only
  repeat' first
    | with_reducible assumption
    | with_reducible apply Dev.askOn_keeps
    | with_reducible apply Dev.judge_keeps
    | with_reducible apply Dev.settleUnit_keeps
    | with_reducible apply Dev.tripDecision_keeps
    | with_reducible apply Dev.releaseHeld_keeps
    | with_reducible apply Dev.clearTrip_keeps
    | with_reducible apply Dev.retireUnit_keeps
    | split
    | with_reducible apply Dev.Keeps.foldl
    | with_reducible apply Dev.Keeps.foldl_pair
    | exact id
    | intro _
    | dsimp only
    | (with_reducible refine Dev.Keeps.of_pair (by with_reducible assumption) ?_)

theorem Dev.finishReport_keeps (w_port : W .port) (w_log : W .log) (w_voices : W .voices) (w_banks : W .banks) (w_staggers : W .staggers) (w_sc : W .sc) (w_conv : W .conv) (w_wave : W .wave) (w_therm : W .therm) (w_nv : W .nv) (w_chain : W .chain) (w_slotFaults : W .slotFaults) {d : Dev} (h : d.Keeps W r₀) (r : RunningCheck) (f0 : BitVec 6) (f1 : BitVec 6) (partial_ : BitVec 6) (voHigh : Bool) (dur : Nat) :
  (Dev.finishReport d r f0 f1 partial_ voHigh dur).Keeps W r₀ := by
  unfold Dev.finishReport
  try dsimp only
  repeat' first
    | with_reducible assumption
    | with_reducible apply Dev.event_keeps
    | with_reducible apply Dev.modVoice_keeps
    | with_reducible apply Dev.cutBank_keeps
    | with_reducible apply Dev.barVoice_keeps
    | with_reducible apply Dev.judge_keeps
    | with_reducible apply Dev.releaseHeld_keeps
    | split
    | exact id
    | intro _
    | dsimp only
    | (with_reducible refine Dev.Keeps.of_pair (by with_reducible assumption) ?_)

theorem Dev.dropAsks_keeps (w_conv : W .conv) {d : Dev} (h : d.Keeps W r₀) :
  (Dev.dropAsks d).Keeps W r₀ := by
  unfold Dev.dropAsks
  try dsimp only
  repeat' first
    | with_reducible assumption
    | split
    | with_reducible apply Dev.Keeps.conv
    | exact id
    | intro _
    | dsimp only
    | (with_reducible refine Dev.Keeps.of_pair (by with_reducible assumption) ?_)

theorem Dev.finishCheck_keeps (w_port : W .port) (w_log : W .log) (w_voices : W .voices) (w_banks : W .banks) (w_staggers : W .staggers) (w_cues : W .cues) (w_sc : W .sc) (w_conv : W .conv) (w_wave : W .wave) (w_therm : W .therm) (w_nv : W .nv) (w_chain : W .chain) (w_slotOffs : W .slotOffs) (w_slotFaults : W .slotFaults) {d : Dev} (h : d.Keeps W r₀) (r : RunningCheck) (f : Tab (BitVec 6) 4) (partial_ : BitVec 6) (voHigh : Bool) (dur : Nat) :
  (Dev.finishCheck d r f partial_ voHigh dur).Keeps W r₀ := by
  unfold Dev.finishCheck
  try dsimp only
  repeat' first
    | with_reducible assumption
    | with_reducible apply Dev.setSc_keeps
    | with_reducible apply Dev.finishTrip_keeps
    | with_reducible apply Dev.finishReport_keeps
    | with_reducible apply Dev.dropAsks_keeps
    | split
    | exact id
    | intro _
    | dsimp only
    | (with_reducible refine Dev.Keeps.of_pair (by with_reducible assumption) ?_)

theorem Dev.cutShort_keeps (w_port : W .port) (w_log : W .log) (w_voices : W .voices) (w_banks : W .banks) (w_staggers : W .staggers) (w_cues : W .cues) (w_sc : W .sc) (w_conv : W .conv) (w_wave : W .wave) (w_therm : W .therm) (w_nv : W .nv) (w_chain : W .chain) (w_slotOffs : W .slotOffs) (w_slotFaults : W .slotFaults) {d : Dev} (h : d.Keeps W r₀) :
  (Dev.cutShort d).Keeps W r₀ := by
  unfold Dev.cutShort
  try dsimp only
  repeat' first
    | with_reducible assumption
    | with_reducible apply Dev.finishCheck_keeps
    | split
    | exact id
    | intro _
    | dsimp only
    | (with_reducible refine Dev.Keeps.of_pair (by with_reducible assumption) ?_)

theorem Dev.cutShortBank_keeps (w_port : W .port) (w_log : W .log) (w_voices : W .voices) (w_banks : W .banks) (w_staggers : W .staggers) (w_cues : W .cues) (w_sc : W .sc) (w_conv : W .conv) (w_wave : W .wave) (w_therm : W .therm) (w_nv : W .nv) (w_chain : W .chain) (w_slotOffs : W .slotOffs) (w_slotFaults : W .slotFaults) {d : Dev} (h : d.Keeps W r₀) (b : BankId) :
  (Dev.cutShortBank d b).Keeps W r₀ := by
  unfold Dev.cutShortBank
  try dsimp only
  repeat' first
    | with_reducible assumption
    | with_reducible apply Dev.cutShort_keeps
    | split
    | exact id
    | intro _
    | dsimp only
    | (with_reducible refine Dev.Keeps.of_pair (by with_reducible assumption) ?_)

theorem Dev.abandonCheck_keeps (w_sc : W .sc) (w_conv : W .conv) {d : Dev} (h : d.Keeps W r₀) :
  (Dev.abandonCheck d).Keeps W r₀ := by
  unfold Dev.abandonCheck
  try dsimp only
  repeat' first
    | with_reducible assumption
    | with_reducible apply Dev.setSc_keeps
    | with_reducible apply Dev.dropAsks_keeps
    | split
    | exact id
    | intro _
    | dsimp only
    | (with_reducible refine Dev.Keeps.of_pair (by with_reducible assumption) ?_)

theorem opVoiceClearFault_keeps (w_voices : W .voices) (w_chain : W .chain) {d : Dev} (h : d.Keeps W r₀) (p : List Byte) :
  (opVoiceClearFault p d).1.Keeps W r₀ := by
  unfold opVoiceClearFault
  try dsimp only
  repeat' first
    | with_reducible assumption
    | with_reducible apply Dev.modVoice_keeps
    | with_reducible apply Dev.forVoices_keeps
    | with_reducible apply Dev.withdraw_keeps
    | split
    | exact id
    | intro _
    | dsimp only
    | (with_reducible refine Dev.Keeps.of_pair (by with_reducible assumption) ?_)

theorem opVoiceRetire_keeps (w_port : W .port) (w_log : W .log) (w_voices : W .voices) (w_cues : W .cues) (w_sc : W .sc) (w_conv : W .conv) (w_wave : W .wave) (w_therm : W .therm) (w_nv : W .nv) (w_chain : W .chain) {d : Dev} (h : d.Keeps W r₀) (p : List Byte) :
  (opVoiceRetire p d).1.Keeps W r₀ := by
  unfold opVoiceRetire
  try dsimp only
  repeat' first
    | with_reducible assumption
    | with_reducible apply Dev.retireVoice_keeps
    | with_reducible apply Dev.abandonCheck_keeps
    | split
    | with_reducible apply Dev.Keeps.foldl
    | with_reducible apply Dev.Keeps.foldl_pair
    | exact id
    | intro _
    | dsimp only
    | (with_reducible refine Dev.Keeps.of_pair (by with_reducible assumption) ?_)

theorem opBankCut_keeps (w_port : W .port) (w_log : W .log) (w_voices : W .voices) (w_banks : W .banks) (w_staggers : W .staggers) (w_cues : W .cues) (w_sc : W .sc) (w_conv : W .conv) (w_wave : W .wave) (w_therm : W .therm) (w_nv : W .nv) (w_chain : W .chain) (w_slotOffs : W .slotOffs) (w_slotFaults : W .slotFaults) {d : Dev} (h : d.Keeps W r₀) (p : List Byte) :
  (opBankCut p d).1.Keeps W r₀ := by
  unfold opBankCut
  try dsimp only
  repeat' first
    | with_reducible assumption
    | with_reducible apply Dev.cutBank_keeps
    | with_reducible apply Dev.restoreBank_keeps
    | with_reducible apply Dev.cutShortBank_keeps
    | split
    | with_reducible apply Dev.Keeps.foldl
    | with_reducible apply Dev.Keeps.foldl_pair
    | exact id
    | intro _
    | dsimp only
    | (with_reducible refine Dev.Keeps.of_pair (by with_reducible assumption) ?_)

theorem opSoundcheckRun_keeps (w_voices : W .voices) {d : Dev} (h : d.Keeps W r₀) (p : List Byte) :
  (opSoundcheckRun p d).1.Keeps W r₀ := by
  unfold opSoundcheckRun
  try dsimp only
  repeat' first
    | with_reducible assumption
    | with_reducible apply Dev.modVoice_keeps
    | with_reducible apply Dev.forVoices_keeps
    | split
    | exact id
    | intro _
    | dsimp only
    | (with_reducible refine Dev.Keeps.of_pair (by with_reducible assumption) ?_)

end Sys2Proof.Machine
end

