-- ==== Sys2Proof/Laws/KeepsTally.lean ====
section
/-! SUPPORT. What each change of Tally.lean keeps (Laws/Keeps.lean): which parts it may change, and that every form stays. -/

namespace Sys2Proof.Machine
open Sys2Proof

variable {W : Part → Prop} {r₀ : Dev}

theorem Dev.judgePrimary_keeps (w_port : W .port) (w_log : W .log) (w_tally : W .tally) (w_odo : W .odo) {d : Dev} (h : d.Keeps W r₀) :
  (Dev.judgePrimary d).Keeps W r₀ := by
  unfold Dev.judgePrimary
  try dsimp only
  repeat' first
    | with_reducible assumption
    | with_reducible apply Dev.event_keeps
    | with_reducible apply Dev.groundNone_keeps
    | with_reducible apply Dev.groundMove_keeps
    | split
    | with_reducible apply Dev.Keeps.odo
    | exact id
    | intro _
    | dsimp only
    | (with_reducible refine Dev.Keeps.of_pair (by with_reducible assumption) ?_)

theorem Dev.judgeSecondary_keeps (w_port : W .port) (w_log : W .log) (w_tally : W .tally) (w_odo : W .odo) {d : Dev} (h : d.Keeps W r₀) :
  (Dev.judgeSecondary d).Keeps W r₀ := by
  unfold Dev.judgeSecondary
  try dsimp only
  repeat' first
    | with_reducible assumption
    | with_reducible apply Dev.event_keeps
    | with_reducible apply Dev.groundNone_keeps
    | with_reducible apply Dev.groundMove_keeps
    | split
    | with_reducible apply Dev.Keeps.odo
    | exact id
    | intro _
    | dsimp only
    | (with_reducible refine Dev.Keeps.of_pair (by with_reducible assumption) ?_)

theorem Dev.shiftTimes_keeps (w_cues : W .cues) (w_tally : W .tally) (w_odo : W .odo) {d : Dev} (h : d.Keeps W r₀) (off : Int) :
  (Dev.shiftTimes d off).Keeps W r₀ := by
  unfold Dev.shiftTimes
  try dsimp only
  repeat' first
    | with_reducible assumption
    | split
    | with_reducible apply Dev.Keeps.cues
    | with_reducible apply Dev.Keeps.tally
    | with_reducible apply Dev.Keeps.odo
    | with_reducible apply Dev.Keeps.tally_odo
    | with_reducible apply Dev.Keeps.cues_odo
    | with_reducible apply Dev.Keeps.cues_tally_odo
    | exact id
    | intro _
    | dsimp only
    | (with_reducible refine Dev.Keeps.of_pair (by with_reducible assumption) ?_)
    | (simp only [List.length_map]; assumption)
    | exact Nat.le_trans (List.length_filter_le _ _) (by assumption)
    | exact Nat.le_trans (by simp) (by assumption)
    | exact Nat.le_trans (by simp only [List.length_drop]; exact Nat.sub_le _ _) (by assumption)
    | exact Nat.zero_le _

theorem Dev.dropStarts_keeps (w_tally : W .tally) {d : Dev} (h : d.Keeps W r₀) :
  (Dev.dropStarts d).Keeps W r₀ := by
  unfold Dev.dropStarts
  try dsimp only
  repeat' first
    | with_reducible assumption
    | split
    | with_reducible apply Dev.Keeps.tally
    | exact id
    | intro _
    | dsimp only
    | (with_reducible refine Dev.Keeps.of_pair (by with_reducible assumption) ?_)

theorem Dev.linkDead_keeps (w_tally : W .tally) (w_odo : W .odo) {d : Dev} (h : d.Keeps W r₀) :
  (Dev.linkDead d).Keeps W r₀ := by
  unfold Dev.linkDead
  try dsimp only
  repeat' first
    | with_reducible assumption
    | with_reducible apply Dev.odoLose_keeps
    | split
    | with_reducible apply Dev.Keeps.tally
    | exact id
    | intro _
    | dsimp only
    | (with_reducible refine Dev.Keeps.of_pair (by with_reducible assumption) ?_)

theorem Dev.linkBack_keeps (w_tally : W .tally) (w_odo : W .odo) {d : Dev} (h : d.Keeps W r₀) :
  (Dev.linkBack d).Keeps W r₀ := by
  unfold Dev.linkBack
  try dsimp only
  repeat' first
    | with_reducible assumption
    | with_reducible apply Dev.odoRegain_keeps
    | split
    | with_reducible apply Dev.Keeps.tally
    | exact id
    | intro _
    | dsimp only
    | (with_reducible refine Dev.Keeps.of_pair (by with_reducible assumption) ?_)

theorem Dev.tallyReconf_keeps (w_tally : W .tally) (w_odo : W .odo) {d : Dev} (h : d.Keeps W r₀) (old : Dev) :
  (Dev.tallyReconf d old).Keeps W r₀ := by
  unfold Dev.tallyReconf
  try dsimp only
  repeat' first
    | with_reducible assumption
    | split
    | with_reducible apply Dev.Keeps.tally
    | with_reducible apply Dev.Keeps.odo
    | with_reducible apply Dev.Keeps.tally_odo
    | exact id
    | intro _
    | dsimp only
    | (with_reducible refine Dev.Keeps.of_pair (by with_reducible assumption) ?_)

theorem Dev.rebase_keeps (w_cues : W .cues) (w_odo : W .odo) {d : Dev} (h : d.Keeps W r₀) (value : Int) :
  (Dev.rebase d value).Keeps W r₀ := by
  unfold Dev.rebase
  try dsimp only
  repeat' first
    | with_reducible assumption
    | split
    | with_reducible apply Dev.Keeps.cues
    | with_reducible apply Dev.Keeps.odo
    | with_reducible apply Dev.Keeps.cues_odo
    | exact id
    | intro _
    | dsimp only
    | (with_reducible refine Dev.Keeps.of_pair (by with_reducible assumption) ?_)
    | (simp only [List.length_map]; assumption)
    | exact Nat.le_trans (List.length_filter_le _ _) (by assumption)
    | exact Nat.le_trans (by simp) (by assumption)
    | exact Nat.le_trans (by simp only [List.length_drop]; exact Nat.sub_le _ _) (by assumption)
    | exact Nat.zero_le _

end Sys2Proof.Machine
end

