-- ==== Sys2Proof/Laws/KeepsVoices.lean ====
section
/-! SUPPORT. What each change of Voices.lean keeps (Laws/Keeps.lean): which parts it may change, and that every form stays. -/

namespace Sys2Proof.Machine
open Sys2Proof

variable {W : Part → Prop} {r₀ : Dev}

theorem Dev.blipRaised_keeps (w_therm : W .therm) {d : Dev} (h : d.Keeps W r₀) (v : VoiceId) :
  (Dev.blipRaised d v).Keeps W r₀ := by
  unfold Dev.blipRaised
  try dsimp only
  repeat' first
    | with_reducible assumption
    | split
    | with_reducible apply Dev.Keeps.therm
    | exact id
    | intro _
    | dsimp only
    | (with_reducible refine Dev.Keeps.of_pair (by with_reducible assumption) ?_)

theorem Dev.pulse_keeps (w_voices : W .voices) {d : Dev} (h : d.Keeps W r₀) (v : VoiceId) (use_ : RampUse) (first : Bool) :
  (Dev.pulse d v use_ first).Keeps W r₀ := by
  unfold Dev.pulse
  try dsimp only
  repeat' first
    | with_reducible assumption
    | with_reducible apply Dev.modVoice_keeps
    | with_reducible apply Dev.edgeEnergy_keeps
    | split
    | exact id
    | intro _
    | dsimp only
    | (with_reducible refine Dev.Keeps.of_pair (by with_reducible assumption) ?_)

theorem Dev.beginHold_keeps (w_voices : W .voices) {d : Dev} (h : d.Keeps W r₀) (v : VoiceId) :
  (Dev.beginHold d v).Keeps W r₀ := by
  unfold Dev.beginHold
  try dsimp only
  repeat' first
    | with_reducible assumption
    | with_reducible apply Dev.modVoice_keeps
    | with_reducible apply Dev.edgeEnergy_keeps
    | split
    | exact id
    | intro _
    | dsimp only
    | (with_reducible refine Dev.Keeps.of_pair (by with_reducible assumption) ?_)

theorem Dev.enterMode_keeps (w_voices : W .voices) {d : Dev} (h : d.Keeps W r₀) (v : VoiceId) (mode : Nat) :
  (Dev.enterMode d v mode).Keeps W r₀ := by
  unfold Dev.enterMode
  try dsimp only
  repeat' first
    | with_reducible assumption
    | with_reducible apply Dev.modVoice_keeps
    | with_reducible apply Dev.pulse_keeps
    | with_reducible apply Dev.beginHold_keeps
    | split
    | exact id
    | intro _
    | dsimp only
    | (with_reducible refine Dev.Keeps.of_pair (by with_reducible assumption) ?_)

theorem Dev.takeDrive_keeps (w_voices : W .voices) {d : Dev} (h : d.Keeps W r₀) (v : VoiceId) :
  (Dev.takeDrive d v).Keeps W r₀ := by
  unfold Dev.takeDrive
  try dsimp only
  repeat' first
    | with_reducible assumption
    | with_reducible apply Dev.modVoice_keeps
    | with_reducible apply Dev.enterMode_keeps
    | split
    | exact id
    | intro _
    | dsimp only
    | (with_reducible refine Dev.Keeps.of_pair (by with_reducible assumption) ?_)

theorem Dev.dutyRampEnd_keeps (w_voices : W .voices) {d : Dev} (h : d.Keeps W r₀) (v : VoiceId) :
  (Dev.dutyRampEnd d v).Keeps W r₀ := by
  unfold Dev.dutyRampEnd
  try dsimp only
  repeat' first
    | with_reducible assumption
    | with_reducible apply Dev.modVoice_keeps
    | with_reducible apply Dev.takeDrive_keeps
    | split
    | exact id
    | intro _
    | dsimp only
    | (with_reducible refine Dev.Keeps.of_pair (by with_reducible assumption) ?_)

theorem Dev.settle_keeps (w_voices : W .voices) {d : Dev} (h : d.Keeps W r₀) (v : VoiceId) :
  (Dev.settle d v).Keeps W r₀ := by
  unfold Dev.settle
  try dsimp only
  repeat' first
    | with_reducible assumption
    | with_reducible apply Dev.modVoice_keeps
    | with_reducible apply Dev.enterMode_keeps
    | split
    | exact id
    | intro _
    | dsimp only
    | (with_reducible refine Dev.Keeps.of_pair (by with_reducible assumption) ?_)

theorem Dev.slewEnd_keeps (w_voices : W .voices) {d : Dev} (h : d.Keeps W r₀) (v : VoiceId) :
  (Dev.slewEnd d v).Keeps W r₀ := by
  unfold Dev.slewEnd
  try dsimp only
  repeat' first
    | with_reducible assumption
    | with_reducible apply Dev.modVoice_keeps
    | split
    | exact id
    | intro _
    | dsimp only
    | (with_reducible refine Dev.Keeps.of_pair (by with_reducible assumption) ?_)

theorem Dev.raised_keeps (w_voices : W .voices) {d : Dev} (h : d.Keeps W r₀) (v : VoiceId) :
  (Dev.raised d v).Keeps W r₀ := by
  unfold Dev.raised
  try dsimp only
  repeat' first
    | with_reducible assumption
    | with_reducible apply Dev.pulse_keeps
    | with_reducible apply Dev.beginHold_keeps
    | split
    | exact id
    | intro _
    | dsimp only
    | (with_reducible refine Dev.Keeps.of_pair (by with_reducible assumption) ?_)

theorem Dev.periodStart_keeps (w_voices : W .voices) {d : Dev} (h : d.Keeps W r₀) (v : VoiceId) :
  (Dev.periodStart d v).Keeps W r₀ := by
  unfold Dev.periodStart
  try dsimp only
  repeat' first
    | with_reducible assumption
    | with_reducible apply Dev.pulse_keeps
    | with_reducible apply Dev.dutyRampEnd_keeps
    | split
    | exact id
    | intro _
    | dsimp only
    | (with_reducible refine Dev.Keeps.of_pair (by with_reducible assumption) ?_)

theorem Dev.offEdge1_keeps (w_voices : W .voices) {d : Dev} (h : d.Keeps W r₀) (v : VoiceId) :
  (Dev.offEdge1 d v).Keeps W r₀ := by
  unfold Dev.offEdge1
  try dsimp only
  repeat' first
    | with_reducible assumption
    | with_reducible apply Dev.modVoice_keeps
    | with_reducible apply Dev.edgeEnergy_keeps
    | with_reducible apply Dev.settle_keeps
    | with_reducible apply Dev.slewEnd_keeps
    | split
    | exact id
    | intro _
    | dsimp only
    | (with_reducible refine Dev.Keeps.of_pair (by with_reducible assumption) ?_)

theorem Dev.cueLate_keeps (w_port : W .port) (w_log : W .log) (w_voices : W .voices) (w_cues : W .cues) (w_chain : W .chain) {d : Dev} (h : d.Keeps W r₀) (v : VoiceId) (w : Wait) :
  (Dev.cueLate d v w).Keeps W r₀ := by
  unfold Dev.cueLate
  try dsimp only
  repeat' first
    | with_reducible assumption
    | with_reducible apply Dev.event_keeps
    | with_reducible apply Dev.modVoice_keeps
    | with_reducible apply Dev.withdraw_keeps
    | with_reducible apply Dev.setCues_keeps
    | with_reducible apply Dev.modUnit_keeps
    | split
    | exact id
    | intro _
    | dsimp only
    | (with_reducible refine Dev.Keeps.of_pair (by with_reducible assumption) ?_)
    | (simp only [List.length_map]; assumption)
    | exact Nat.le_trans (List.length_filter_le _ _) (by assumption)
    | exact Nat.le_trans (by simp) (by assumption)
    | exact Nat.le_trans (by simp only [List.length_drop]; exact Nat.sub_le _ _) (by assumption)
    | exact Nat.zero_le _

theorem Dev.loseBank_keeps (w_port : W .port) (w_log : W .log) (w_voices : W .voices) (w_banks : W .banks) (w_staggers : W .staggers) (w_cues : W .cues) (w_sc : W .sc) (w_conv : W .conv) (w_wave : W .wave) (w_therm : W .therm) (w_nv : W .nv) (w_chain : W .chain) (w_slotOffs : W .slotOffs) (w_slotFaults : W .slotFaults) {d : Dev} (h : d.Keeps W r₀) (b : BankId) :
  (Dev.loseBank d b).Keeps W r₀ := by
  unfold Dev.loseBank
  try dsimp only
  repeat' first
    | with_reducible assumption
    | with_reducible apply Dev.forVoices_keeps
    | with_reducible apply Dev.dropVoice_keeps
    | with_reducible apply Dev.withdrawBank_keeps
    | with_reducible apply Dev.endSearches_keeps
    | with_reducible apply Dev.cutShortBank_keeps
    | split
    | exact id
    | intro _
    | dsimp only
    | (with_reducible refine Dev.Keeps.of_pair (by with_reducible assumption) ?_)

theorem Dev.bankSum_keeps (w_port : W .port) (w_log : W .log) (w_banks : W .banks) {d : Dev} (h : d.Keeps W r₀) (b : BankId) :
  (Dev.bankSum d b).Keeps W r₀ := by
  unfold Dev.bankSum
  try dsimp only
  repeat' first
    | with_reducible assumption
    | with_reducible apply Dev.event_keeps
    | with_reducible apply Dev.modBank_keeps
    | split
    | exact id
    | intro _
    | dsimp only
    | (with_reducible refine Dev.Keeps.of_pair (by with_reducible assumption) ?_)

theorem Dev.setVoice_keeps (w_port : W .port) (w_log : W .log) (w_voices : W .voices) (w_cues : W .cues) (w_therm : W .therm) (w_chain : W .chain) (w_slotOffs : W .slotOffs) {d : Dev} (h : d.Keeps W r₀) (v : VoiceId) (on : Bool) :
  (Dev.setVoice d v on).1.Keeps W r₀ := by
  unfold Dev.setVoice
  try dsimp only
  repeat' first
    | with_reducible assumption
    | with_reducible apply Dev.askOff_keeps
    | with_reducible apply Dev.askOn_keeps
    | split
    | exact id
    | intro _
    | dsimp only
    | (with_reducible refine Dev.Keeps.of_pair (by with_reducible assumption) ?_)

theorem opVoiceSet_keeps (w_port : W .port) (w_log : W .log) (w_voices : W .voices) (w_cues : W .cues) (w_therm : W .therm) (w_chain : W .chain) (w_slotOffs : W .slotOffs) {d : Dev} (h : d.Keeps W r₀) (p : List Byte) :
  (opVoiceSet p d).1.Keeps W r₀ := by
  unfold opVoiceSet
  try dsimp only
  repeat' first
    | with_reducible assumption
    | with_reducible apply Dev.setVoice_keeps
    | split
    | with_reducible apply Dev.Keeps.foldl
    | with_reducible apply Dev.Keeps.foldl_pair
    | exact id
    | intro _
    | dsimp only
    | (with_reducible refine Dev.Keeps.of_pair (by with_reducible assumption) ?_)

theorem Dev.dutyEntry_keeps (w_voices : W .voices) {d : Dev} (h : d.Keeps W r₀) (v : VoiceId) (duty : Nat) :
  (Dev.dutyEntry d v duty).1.Keeps W r₀ := by
  unfold Dev.dutyEntry
  try dsimp only
  repeat' first
    | with_reducible assumption
    | with_reducible apply Dev.applyDuty_keeps
    | split
    | exact id
    | intro _
    | dsimp only
    | (with_reducible refine Dev.Keeps.of_pair (by with_reducible assumption) ?_)

theorem opVoiceDuty_keeps (w_voices : W .voices) {d : Dev} (h : d.Keeps W r₀) (p : List Byte) :
  (opVoiceDuty p d).1.Keeps W r₀ := by
  unfold opVoiceDuty
  try dsimp only
  repeat' first
    | with_reducible assumption
    | with_reducible apply Dev.dutyEntry_keeps
    | split
    | with_reducible apply Dev.Keeps.foldl
    | with_reducible apply Dev.Keeps.foldl_pair
    | exact id
    | intro _
    | dsimp only
    | (with_reducible refine Dev.Keeps.of_pair (by with_reducible assumption) ?_)

theorem opCueAdd_keeps (w_port : W .port) (w_log : W .log) (w_voices : W .voices) (w_cues : W .cues) (w_therm : W .therm) (w_chain : W .chain) (w_slotOffs : W .slotOffs) {d : Dev} (h : d.Keeps W r₀) (p : List Byte) :
  (opCueAdd p d).1.Keeps W r₀ := by
  unfold opCueAdd
  dsimp only
  split
  · exact h
  · split
    · exact h
    · rename_i k
      apply Dev.cueSlot_keeps
      all_goals first
        | assumption
        | (refine Dev.setCues_keeps w_cues h _ fun g => ?_
           unfold Dev.cueFree at k
           simp only [List.length_append, List.length_mapIdx]
           omega)

theorem Dev.cancelWhere_keeps (w_voices : W .voices) (w_cues : W .cues) (w_chain : W .chain) {d : Dev} (h : d.Keeps W r₀) (p : Cue → Bool) :
  (Dev.cancelWhere d p).1.Keeps W r₀ := by
  unfold Dev.cancelWhere
  try dsimp only
  repeat' first
    | with_reducible assumption
    | with_reducible apply Dev.forVoices_keeps
    | with_reducible apply Dev.withdraw_keeps
    | with_reducible apply Dev.setCues_keeps
    | with_reducible apply Dev.modUnit_keeps
    | split
    | exact id
    | intro _
    | dsimp only
    | (with_reducible refine Dev.Keeps.of_pair (by with_reducible assumption) ?_)
    | (simp only [List.length_map]; assumption)
    | exact Nat.le_trans (List.length_filter_le _ _) (by assumption)
    | exact Nat.le_trans (by simp) (by assumption)
    | exact Nat.le_trans (by simp only [List.length_drop]; exact Nat.sub_le _ _) (by assumption)
    | exact Nat.zero_le _

theorem opCueCancel_keeps (w_voices : W .voices) (w_cues : W .cues) (w_chain : W .chain) {d : Dev} (h : d.Keeps W r₀) (p : List Byte) :
  (opCueCancel p d).1.Keeps W r₀ := by
  unfold opCueCancel
  try dsimp only
  repeat' first
    | with_reducible assumption
    | with_reducible apply Dev.cancelWhere_keeps
    | split
    | exact id
    | intro _
    | dsimp only
    | (with_reducible refine Dev.Keeps.of_pair (by with_reducible assumption) ?_)

theorem opCueStats_keeps (w_cues : W .cues) {d : Dev} (h : d.Keeps W r₀) (snap : Dev) (p : List Byte) :
  (opCueStats snap p d).1.Keeps W r₀ := by
  unfold opCueStats
  try dsimp only
  repeat' first
    | with_reducible assumption
    | with_reducible apply Dev.setCues_keeps
    | split
    | exact id
    | intro _
    | dsimp only
    | (with_reducible refine Dev.Keeps.of_pair (by with_reducible assumption) ?_)
    | (simp only [List.length_map]; assumption)
    | exact Nat.le_trans (List.length_filter_le _ _) (by assumption)
    | exact Nat.le_trans (by simp) (by assumption)
    | exact Nat.le_trans (by simp only [List.length_drop]; exact Nat.sub_le _ _) (by assumption)
    | exact Nat.zero_le _

theorem opOdometerRebase_keeps (w_cues : W .cues) (w_odo : W .odo) {d : Dev} (h : d.Keeps W r₀) (p : List Byte) :
  (opOdometerRebase p d).1.Keeps W r₀ := by
  unfold opOdometerRebase
  try dsimp only
  repeat' first
    | with_reducible assumption
    | with_reducible apply Dev.rebase_keeps
    | split
    | exact id
    | intro _
    | dsimp only
    | (with_reducible refine Dev.Keeps.of_pair (by with_reducible assumption) ?_)

theorem opTallyRead_keeps (w_tally : W .tally) {d : Dev} (h : d.Keeps W r₀) (snap : Dev) (p : List Byte) :
  (opTallyRead snap p d).1.Keeps W r₀ := by
  unfold opTallyRead
  try dsimp only
  repeat' first
    | with_reducible assumption
    | with_reducible apply Dev.modTally_keeps
    | split
    | exact id
    | intro _
    | dsimp only
    | (with_reducible refine Dev.Keeps.of_pair (by with_reducible assumption) ?_)

end Sys2Proof.Machine
end

