-- ==== Sys2Proof/Laws/KeepsModes.lean ====
section
/-! SUPPORT. What each change of Modes.lean keeps (Laws/Keeps.lean): which parts it may change, and that every form stays. -/

namespace Sys2Proof.Machine
open Sys2Proof

variable {W : Part → Prop} {r₀ : Dev}

theorem Dev.toMode_keeps (w_ctl : W .ctl) (w_port : W .port) (w_log : W .log) {d : Dev} (h : d.Keeps W r₀) (m : Mode) (cause : Nat) :
  (Dev.toMode d m cause).Keeps W r₀ := by
  unfold Dev.toMode
  try dsimp only
  repeat' first
    | with_reducible assumption
    | with_reducible apply Dev.event_keeps
    | split
    | with_reducible apply Dev.Keeps.ctl
    | exact id
    | intro _
    | dsimp only
    | (with_reducible refine Dev.Keeps.of_pair (by with_reducible assumption) ?_)

theorem Dev.stopWatchdog_keeps (w_port : W .port) {d : Dev} (h : d.Keeps W r₀) :
  (Dev.stopWatchdog d).Keeps W r₀ := by
  unfold Dev.stopWatchdog
  try dsimp only
  repeat' first
    | with_reducible assumption
    | with_reducible apply Dev.setPort_keeps
    | split
    | exact id
    | intro _
    | dsimp only
    | (with_reducible refine Dev.Keeps.of_pair (by with_reducible assumption) ?_)
    | (simp only [List.length_map]; assumption)
    | exact Nat.le_trans (List.length_filter_le _ _) (by assumption)
    | exact Nat.le_trans (by simp) (by assumption)
    | exact Nat.le_trans (by simp only [List.length_drop]; exact Nat.sub_le _ _) (by assumption)
    | exact Nat.zero_le _

theorem Dev.startWatchdog_keeps (w_port : W .port) {d : Dev} (h : d.Keeps W r₀) :
  (Dev.startWatchdog d).Keeps W r₀ := by
  unfold Dev.startWatchdog
  try dsimp only
  repeat' first
    | with_reducible assumption
    | with_reducible apply Dev.setPort_keeps
    | split
    | exact id
    | intro _
    | dsimp only
    | (with_reducible refine Dev.Keeps.of_pair (by with_reducible assumption) ?_)
    | (simp only [List.length_map]; assumption)
    | exact Nat.le_trans (List.length_filter_le _ _) (by assumption)
    | exact Nat.le_trans (by simp) (by assumption)
    | exact Nat.le_trans (by simp only [List.length_drop]; exact Nat.sub_le _ _) (by assumption)
    | exact Nat.zero_le _

theorem Dev.withdrawAll_keeps (w_voices : W .voices) (w_chain : W .chain) {d : Dev} (h : d.Keeps W r₀) :
  (Dev.withdrawAll d).Keeps W r₀ := by
  unfold Dev.withdrawAll
  try dsimp only
  repeat' first
    | with_reducible assumption
    | with_reducible apply Dev.forVoices_keeps
    | with_reducible apply Dev.withdraw_keeps
    | split
    | exact id
    | intro _
    | dsimp only
    | (with_reducible refine Dev.Keeps.of_pair (by with_reducible assumption) ?_)

theorem Dev.commandOff_keeps (w_voices : W .voices) {d : Dev} (h : d.Keeps W r₀) :
  (Dev.commandOff d).Keeps W r₀ := by
  unfold Dev.commandOff
  try dsimp only
  repeat' first
    | with_reducible assumption
    | split
    | with_reducible apply Dev.Keeps.voices
    | exact id
    | intro _
    | dsimp only
    | (with_reducible refine Dev.Keeps.of_pair (by with_reducible assumption) ?_)

theorem Dev.endRetries_keeps (w_voices : W .voices) {d : Dev} (h : d.Keeps W r₀) :
  (Dev.endRetries d).Keeps W r₀ := by
  unfold Dev.endRetries
  try dsimp only
  repeat' first
    | with_reducible assumption
    | split
    | with_reducible apply Dev.Keeps.voices
    | exact id
    | intro _
    | dsimp only
    | (with_reducible refine Dev.Keeps.of_pair (by with_reducible assumption) ?_)

theorem Dev.endUnitChecks_keeps (w_port : W .port) (w_log : W .log) (w_voices : W .voices) (w_sc : W .sc) (w_conv : W .conv) (w_therm : W .therm) (w_nv : W .nv) (w_chain : W .chain) {d : Dev} (h : d.Keeps W r₀) (hard : Bool) :
  (Dev.endUnitChecks d hard).Keeps W r₀ := by
  unfold Dev.endUnitChecks
  try dsimp only
  repeat' first
    | with_reducible assumption
    | with_reducible apply Dev.forVoices_keeps
    | with_reducible apply Dev.unitChecked_keeps
    | with_reducible apply Dev.tellThermal_keeps
    | split
    | with_reducible apply Dev.Keeps.foldl
    | with_reducible apply Dev.Keeps.foldl_pair
    | with_reducible apply Dev.Keeps.sc
    | with_reducible apply Dev.Keeps.conv
    | with_reducible apply Dev.Keeps.therm
    | with_reducible apply Dev.Keeps.nv
    | with_reducible apply Dev.Keeps.chain
    | with_reducible apply Dev.Keeps.sc_conv_therm_nv_chain
    | exact id
    | intro _
    | dsimp only
    | (with_reducible refine Dev.Keeps.of_pair (by with_reducible assumption) ?_)

theorem Dev.enterHalted_keeps (w_ctl : W .ctl) (w_port : W .port) (w_log : W .log) (w_voices : W .voices) (w_banks : W .banks) (w_staggers : W .staggers) (w_cues : W .cues) (w_sc : W .sc) (w_conv : W .conv) (w_wave : W .wave) (w_therm : W .therm) (w_nv : W .nv) (w_chain : W .chain) (w_slotOffs : W .slotOffs) (w_slotFaults : W .slotFaults) {d : Dev} (h : d.Keeps W r₀) (cause : Nat) (detail : Nat) (hard : Bool) :
  (Dev.enterHalted d cause detail hard).Keeps W r₀ := by
  unfold Dev.enterHalted
  try dsimp only
  repeat' first
    | with_reducible assumption
    | with_reducible apply Dev.event_keeps
    | with_reducible apply Dev.forVoices_keeps
    | with_reducible apply Dev.turnOff_keeps
    | with_reducible apply Dev.cancelCues_keeps
    | with_reducible apply Dev.rawStop_keeps
    | with_reducible apply Dev.engineStop_keeps
    | with_reducible apply Dev.waveOff_keeps
    | with_reducible apply Dev.cutShort_keeps
    | with_reducible apply Dev.abandonCheck_keeps
    | with_reducible apply Dev.toMode_keeps
    | with_reducible apply Dev.setCtl_keeps
    | with_reducible apply Dev.stopWatchdog_keeps
    | with_reducible apply Dev.withdrawAll_keeps
    | with_reducible apply Dev.commandOff_keeps
    | with_reducible apply Dev.endRetries_keeps
    | with_reducible apply Dev.endUnitChecks_keeps
    | split
    | with_reducible apply Dev.Keeps.voices
    | with_reducible apply Dev.Keeps.therm
    | with_reducible apply Dev.Keeps.voices_therm
    | exact id
    | intro _
    | dsimp only
    | (with_reducible refine Dev.Keeps.of_pair (by with_reducible assumption) ?_)

theorem Dev.fallbackVoice_keeps (w_voices : W .voices) (w_cues : W .cues) (w_chain : W .chain) (w_slotOffs : W .slotOffs) {d : Dev} (h : d.Keeps W r₀) (v : VoiceId) :
  (Dev.fallbackVoice d v).Keeps W r₀ := by
  unfold Dev.fallbackVoice
  try dsimp only
  repeat' first
    | with_reducible assumption
    | with_reducible apply Dev.askOff_keeps
    | with_reducible apply Dev.modUnit_keeps
    | split
    | exact id
    | intro _
    | dsimp only
    | (with_reducible refine Dev.Keeps.of_pair (by with_reducible assumption) ?_)

theorem Dev.enterFallback_keeps (w_ctl : W .ctl) (w_port : W .port) (w_log : W .log) (w_voices : W .voices) (w_cues : W .cues) (w_chain : W .chain) (w_slotOffs : W .slotOffs) {d : Dev} (h : d.Keeps W r₀) (cause : Nat) :
  (Dev.enterFallback d cause).Keeps W r₀ := by
  unfold Dev.enterFallback
  try dsimp only
  repeat' first
    | with_reducible assumption
    | with_reducible apply Dev.forVoices_keeps
    | with_reducible apply Dev.cancelCues_keeps
    | with_reducible apply Dev.toMode_keeps
    | with_reducible apply Dev.stopWatchdog_keeps
    | with_reducible apply Dev.withdrawAll_keeps
    | with_reducible apply Dev.fallbackVoice_keeps
    | split
    | exact id
    | intro _
    | dsimp only
    | (with_reducible refine Dev.Keeps.of_pair (by with_reducible assumption) ?_)

theorem Dev.enterParked_keeps (w_ctl : W .ctl) (w_port : W .port) (w_log : W .log) (w_voices : W .voices) (w_cues : W .cues) (w_chain : W .chain) {d : Dev} (h : d.Keeps W r₀) (cause : Nat) :
  (Dev.enterParked d cause).Keeps W r₀ := by
  unfold Dev.enterParked
  try dsimp only
  repeat' first
    | with_reducible assumption
    | with_reducible apply Dev.cancelCues_keeps
    | with_reducible apply Dev.toMode_keeps
    | with_reducible apply Dev.stopWatchdog_keeps
    | with_reducible apply Dev.withdrawAll_keeps
    | with_reducible apply Dev.commandOff_keeps
    | with_reducible apply Dev.endRetries_keeps
    | split
    | with_reducible apply Dev.Keeps.voices
    | exact id
    | intro _
    | dsimp only
    | (with_reducible refine Dev.Keeps.of_pair (by with_reducible assumption) ?_)

theorem Dev.takeDrives_keeps (w_voices : W .voices) {d : Dev} (h : d.Keeps W r₀) :
  (Dev.takeDrives d).Keeps W r₀ := by
  unfold Dev.takeDrives
  try dsimp only
  repeat' first
    | with_reducible assumption
    | with_reducible apply Dev.forVoices_keeps
    | with_reducible apply Dev.takeDrive_keeps
    | split
    | exact id
    | intro _
    | dsimp only
    | (with_reducible refine Dev.Keeps.of_pair (by with_reducible assumption) ?_)

theorem Dev.mergeWait_keeps (w_voices : W .voices) (w_chain : W .chain) {d : Dev} (h : d.Keeps W r₀) (e : VoiceId) :
  (Dev.mergeWait d e).Keeps W r₀ := by
  unfold Dev.mergeWait
  try dsimp only
  repeat' first
    | with_reducible assumption
    | with_reducible apply Dev.modVoice_keeps
    | with_reducible apply Dev.withdraw_keeps
    | split
    | exact id
    | intro _
    | dsimp only
    | (with_reducible refine Dev.Keeps.of_pair (by with_reducible assumption) ?_)

theorem Dev.formGang_keeps (w_port : W .port) (w_log : W .log) (w_voices : W .voices) (w_cues : W .cues) (w_sc : W .sc) (w_wave : W .wave) (w_therm : W .therm) (w_nv : W .nv) (w_chain : W .chain) {d : Dev} (h : d.Keeps W r₀) (e : VoiceId) :
  (Dev.formGang d e).Keeps W r₀ := by
  unfold Dev.formGang
  try dsimp only
  repeat' first
    | with_reducible assumption
    | with_reducible apply Dev.event_keeps
    | with_reducible apply Dev.modVoice_keeps
    | with_reducible apply Dev.forVoices_keeps
    | with_reducible apply Dev.turnOff_keeps
    | with_reducible apply Dev.withdraw_keeps
    | with_reducible apply Dev.retireVoice_keeps
    | with_reducible apply Dev.mergeWait_keeps
    | split
    | exact id
    | intro _
    | dsimp only
    | (with_reducible refine Dev.Keeps.of_pair (by with_reducible assumption) ?_)

theorem Dev.formGangs_keeps (w_port : W .port) (w_log : W .log) (w_voices : W .voices) (w_cues : W .cues) (w_sc : W .sc) (w_wave : W .wave) (w_therm : W .therm) (w_nv : W .nv) (w_chain : W .chain) {d : Dev} (h : d.Keeps W r₀) (old : Dev) :
  (Dev.formGangs d old).Keeps W r₀ := by
  unfold Dev.formGangs
  try dsimp only
  repeat' first
    | with_reducible assumption
    | with_reducible apply Dev.forVoices_keeps
    | with_reducible apply Dev.formGang_keeps
    | split
    | exact id
    | intro _
    | dsimp only
    | (with_reducible refine Dev.Keeps.of_pair (by with_reducible assumption) ?_)

theorem Dev.reconfigure_keeps (w_port : W .port) (w_log : W .log) (w_voices : W .voices) (w_tally : W .tally) (w_odo : W .odo) (w_conv : W .conv) (w_wave : W .wave) {d : Dev} (h : d.Keeps W r₀) (old : Dev) :
  (Dev.reconfigure d old).Keeps W r₀ := by
  unfold Dev.reconfigure
  try dsimp only
  repeat' first
    | with_reducible assumption
    | with_reducible apply Dev.holdCorr_keeps
    | with_reducible apply Dev.tallyReconf_keeps
    | with_reducible apply Dev.engineReconf_keeps
    | with_reducible apply Dev.waveReconf_keeps
    | split
    | exact id
    | intro _
    | dsimp only
    | (with_reducible refine Dev.Keeps.of_pair (by with_reducible assumption) ?_)

theorem Dev.conductVoice_keeps (w_voices : W .voices) (w_chain : W .chain) {d : Dev} (h : d.Keeps W r₀) (v : VoiceId) :
  (Dev.conductVoice d v).Keeps W r₀ := by
  unfold Dev.conductVoice
  try dsimp only
  repeat' first
    | with_reducible assumption
    | with_reducible apply Dev.modVoice_keeps
    | with_reducible apply Dev.withdraw_keeps
    | split
    | exact id
    | intro _
    | dsimp only
    | (with_reducible refine Dev.Keeps.of_pair (by with_reducible assumption) ?_)

theorem Dev.reconductVoice_keeps (w_voices : W .voices) (w_chain : W .chain) {d : Dev} (h : d.Keeps W r₀) (old : Dev) (v : VoiceId) :
  (Dev.reconductVoice old d v).Keeps W r₀ := by
  unfold Dev.reconductVoice
  try dsimp only
  repeat' first
    | with_reducible assumption
    | with_reducible apply Dev.modVoice_keeps
    | with_reducible apply Dev.withdraw_keeps
    | split
    | exact id
    | intro _
    | dsimp only
    | (with_reducible refine Dev.Keeps.of_pair (by with_reducible assumption) ?_)

theorem Dev.conduct_keeps (w_ctl : W .ctl) (w_port : W .port) (w_log : W .log) (w_par : W .par) (w_voices : W .voices) (w_cues : W .cues) (w_tally : W .tally) (w_odo : W .odo) (w_sc : W .sc) (w_conv : W .conv) (w_wave : W .wave) (w_therm : W .therm) (w_nv : W .nv) (w_chain : W .chain) {d : Dev} (h : d.Keeps W r₀) :
  (Dev.conduct d).Keeps W r₀ := by
  unfold Dev.conduct
  try dsimp only
  repeat' first
    | with_reducible assumption
    | with_reducible apply Dev.forVoices_keeps
    | with_reducible apply Dev.toMode_keeps
    | with_reducible apply Dev.setCtl_keeps
    | with_reducible apply Dev.startWatchdog_keeps
    | with_reducible apply Dev.takeDrives_keeps
    | with_reducible apply Dev.formGangs_keeps
    | with_reducible apply Dev.reconfigure_keeps
    | with_reducible apply Dev.conductVoice_keeps
    | with_reducible apply Dev.reconductVoice_keeps
    | split
    | with_reducible apply Dev.Keeps.par
    | exact id
    | intro _
    | dsimp only
    | (with_reducible refine Dev.Keeps.of_pair (by with_reducible assumption) ?_)

theorem Dev.enterAcappella_keeps (w_ctl : W .ctl) (w_port : W .port) (w_log : W .log) (w_par : W .par) (w_voices : W .voices) (w_cues : W .cues) (w_tally : W .tally) (w_odo : W .odo) (w_conv : W .conv) (w_wave : W .wave) (w_chain : W .chain) {d : Dev} (h : d.Keeps W r₀) (cause : Nat) :
  (Dev.enterAcappella d cause).Keeps W r₀ := by
  unfold Dev.enterAcappella
  try dsimp only
  repeat' first
    | with_reducible assumption
    | with_reducible apply Dev.cancelCues_keeps
    | with_reducible apply Dev.engineUnpause_keeps
    | with_reducible apply Dev.toMode_keeps
    | with_reducible apply Dev.setCtl_keeps
    | with_reducible apply Dev.stopWatchdog_keeps
    | with_reducible apply Dev.withdrawAll_keeps
    | with_reducible apply Dev.takeDrives_keeps
    | with_reducible apply Dev.reconfigure_keeps
    | split
    | with_reducible apply Dev.Keeps.par
    | with_reducible apply Dev.Keeps.voices
    | exact id
    | intro _
    | dsimp only
    | (with_reducible refine Dev.Keeps.of_pair (by with_reducible assumption) ?_)

theorem Dev.restart_keeps (w_time : W .time) (w_ctl : W .ctl) (w_ka : W .ka) (w_port : W .port) (w_log : W .log) (w_par : W .par) (w_voices : W .voices) (w_banks : W .banks) (w_staggers : W .staggers) (w_lh : W .lh) (w_cues : W .cues) (w_tally : W .tally) (w_odo : W .odo) (w_sc : W .sc) (w_conv : W .conv) (w_wave : W .wave) (w_therm : W .therm) (w_nv : W .nv) (w_link : W .link) (w_chain : W .chain) (w_patch : W .patch) (w_pd : W .pd) (w_slotOffs : W .slotOffs) (w_slotFaults : W .slotFaults) (w_edges : W .edges) {d : Dev} (h : d.Keeps W r₀) (cause : Nat) (hold : Nat) :
  (Dev.restart d cause hold).Keeps W r₀ := by
  have h1 : ((d.forVoices (idx 48) fun d v => d.turnOff v .forced).rawStop false).Keeps W r₀ :=
    Dev.rawStop_keeps w_port w_log w_nv
      (Dev.forVoices_keeps h (fun x hx v => Dev.turnOff_keeps w_port w_log w_voices w_therm w_chain hx v _) _) _
  unfold Dev.restart
  extract_lets boot d1 now
  refine Dev.Keeps.trans (b := d1) ⟨fun p hp => ?_, fun g => ⟨Nat.zero_le _, EventLog.good_empty, Nat.zero_le _, ?_⟩⟩ h1
  · clear_value d1
    cases p <;> first | exact absurd (by assumption) hp | rfl
  · exact (congrArg Memory.wf (Flash.restarted_raw _ _ _)).trans g.raw

end Sys2Proof.Machine
end

