-- ==== Sys2Proof/Laws/KeepsThermal.lean ====
section
/-! SUPPORT. What each change of Thermal.lean keeps (Laws/Keeps.lean): which parts it may change, and that every form stays. -/

namespace Sys2Proof.Machine
open Sys2Proof

variable {W : Part → Prop} {r₀ : Dev}

theorem Dev.modTherm_keeps (w_voices : W .voices) {d : Dev} (h : d.Keeps W r₀) (v : VoiceId) (f : VoiceThermal → VoiceThermal) :
  (Dev.modTherm d v f).Keeps W r₀ := by
  unfold Dev.modTherm
  try dsimp only
  repeat' first
    | with_reducible assumption
    | with_reducible apply Dev.modVoice_keeps
    | split
    | exact id
    | intro _
    | dsimp only
    | (with_reducible refine Dev.Keeps.of_pair (by with_reducible assumption) ?_)

theorem Dev.setWarn_keeps (w_voices : W .voices) (w_therm : W .therm) {d : Dev} (h : d.Keeps W r₀) (u : ThermUnit) (b : Bool) :
  (Dev.setWarn d u b).Keeps W r₀ := by
  unfold Dev.setWarn
  try dsimp only
  repeat' first
    | with_reducible assumption
    | with_reducible apply Dev.modZone_keeps
    | with_reducible apply Dev.modTherm_keeps
    | split
    | exact id
    | intro _
    | dsimp only
    | (with_reducible refine Dev.Keeps.of_pair (by with_reducible assumption) ?_)

theorem Dev.setReq_keeps (w_voices : W .voices) (w_therm : W .therm) {d : Dev} (h : d.Keeps W r₀) (u : ThermUnit) (q : Option ThrottleReq) :
  (Dev.setReq d u q).Keeps W r₀ := by
  unfold Dev.setReq
  try dsimp only
  repeat' first
    | with_reducible assumption
    | with_reducible apply Dev.modZone_keeps
    | with_reducible apply Dev.modTherm_keeps
    | split
    | exact id
    | intro _
    | dsimp only
    | (with_reducible refine Dev.Keeps.of_pair (by with_reducible assumption) ?_)

theorem Dev.warnCheck_keeps (w_port : W .port) (w_log : W .log) (w_voices : W .voices) (w_therm : W .therm) {d : Dev} (h : d.Keeps W r₀) (u : ThermUnit) :
  (Dev.warnCheck d u).Keeps W r₀ := by
  unfold Dev.warnCheck
  try dsimp only
  repeat' first
    | with_reducible assumption
    | with_reducible apply Dev.event_keeps
    | with_reducible apply Dev.setWarn_keeps
    | split
    | exact id
    | intro _
    | dsimp only
    | (with_reducible refine Dev.Keeps.of_pair (by with_reducible assumption) ?_)

theorem Dev.withdrawZone_keeps (w_voices : W .voices) (w_chain : W .chain) {d : Dev} (h : d.Keeps W r₀) (z : ZoneId) :
  (Dev.withdrawZone d z).Keeps W r₀ := by
  unfold Dev.withdrawZone
  try dsimp only
  repeat' first
    | with_reducible assumption
    | with_reducible apply Dev.forVoices_keeps
    | with_reducible apply Dev.withdraw_keeps
    | split
    | exact id
    | intro _
    | dsimp only
    | (with_reducible refine Dev.Keeps.of_pair (by with_reducible assumption) ?_)

theorem Dev.enforce_keeps (w_port : W .port) (w_log : W .log) (w_voices : W .voices) (w_therm : W .therm) (w_chain : W .chain) {d : Dev} (h : d.Keeps W r₀) (u : ThermUnit) (q : ThrottleReq) :
  (Dev.enforce d u q).Keeps W r₀ := by
  unfold Dev.enforce
  try dsimp only
  repeat' first
    | with_reducible assumption
    | with_reducible apply Dev.event_keeps
    | with_reducible apply Dev.modZone_keeps
    | with_reducible apply Dev.setReq_keeps
    | with_reducible apply Dev.withdrawZone_keeps
    | split
    | exact id
    | intro _
    | dsimp only
    | (with_reducible refine Dev.Keeps.of_pair (by with_reducible assumption) ?_)

theorem Dev.zoneRelease_keeps (w_port : W .port) (w_log : W .log) (w_therm : W .therm) {d : Dev} (h : d.Keeps W r₀) (z : ZoneId) :
  (Dev.zoneRelease d z).Keeps W r₀ := by
  unfold Dev.zoneRelease
  try dsimp only
  repeat' first
    | with_reducible assumption
    | with_reducible apply Dev.event_keeps
    | with_reducible apply Dev.modZone_keeps
    | split
    | exact id
    | intro _
    | dsimp only
    | (with_reducible refine Dev.Keeps.of_pair (by with_reducible assumption) ?_)

theorem Dev.throttleArise_keeps (w_port : W .port) (w_log : W .log) (w_voices : W .voices) (w_therm : W .therm) (w_chain : W .chain) {d : Dev} (h : d.Keeps W r₀) (u : ThermUnit) :
  (Dev.throttleArise d u).Keeps W r₀ := by
  unfold Dev.throttleArise
  try dsimp only
  repeat' first
    | with_reducible assumption
    | with_reducible apply Dev.event_keeps
    | with_reducible apply Dev.setReq_keeps
    | with_reducible apply Dev.enforce_keeps
    | split
    | exact id
    | intro _
    | dsimp only
    | (with_reducible refine Dev.Keeps.of_pair (by with_reducible assumption) ?_)

theorem Dev.throttleEnd_keeps (w_port : W .port) (w_log : W .log) (w_voices : W .voices) (w_therm : W .therm) {d : Dev} (h : d.Keeps W r₀) (u : ThermUnit) (q : ThrottleReq) :
  (Dev.throttleEnd d u q).Keeps W r₀ := by
  unfold Dev.throttleEnd
  try dsimp only
  repeat' first
    | with_reducible assumption
    | with_reducible apply Dev.event_keeps
    | with_reducible apply Dev.setReq_keeps
    | with_reducible apply Dev.zoneRelease_keeps
    | split
    | exact id
    | intro _
    | dsimp only
    | (with_reducible refine Dev.Keeps.of_pair (by with_reducible assumption) ?_)

theorem Dev.throttleCheck_keeps (w_port : W .port) (w_log : W .log) (w_voices : W .voices) (w_therm : W .therm) (w_chain : W .chain) {d : Dev} (h : d.Keeps W r₀) (u : ThermUnit) :
  (Dev.throttleCheck d u).Keeps W r₀ := by
  unfold Dev.throttleCheck
  try dsimp only
  repeat' first
    | with_reducible assumption
    | with_reducible apply Dev.throttleArise_keeps
    | with_reducible apply Dev.throttleEnd_keeps
    | split
    | exact id
    | intro _
    | dsimp only
    | (with_reducible refine Dev.Keeps.of_pair (by with_reducible assumption) ?_)

theorem Dev.zoneCheckStart_keeps (w_therm : W .therm) {d : Dev} (h : d.Keeps W r₀) (z : ZoneId) :
  (Dev.zoneCheckStart d z).Keeps W r₀ := by
  unfold Dev.zoneCheckStart
  try dsimp only
  repeat' first
    | with_reducible assumption
    | with_reducible apply Dev.modZone_keeps
    | split
    | exact id
    | intro _
    | dsimp only
    | (with_reducible refine Dev.Keeps.of_pair (by with_reducible assumption) ?_)

theorem Dev.stopCues_keeps (w_voices : W .voices) (w_cues : W .cues) (w_chain : W .chain) {d : Dev} (h : d.Keeps W r₀) (vs : List VoiceId) :
  (Dev.stopCues d vs).Keeps W r₀ := by
  unfold Dev.stopCues
  try dsimp only
  repeat' first
    | with_reducible assumption
    | with_reducible apply Dev.setCues_keeps
    | with_reducible apply Dev.cancelWhere_keeps
    | split
    | exact id
    | intro _
    | dsimp only
    | (with_reducible refine Dev.Keeps.of_pair (by with_reducible assumption) ?_)
    | (simp only [List.length_map]; assumption)
    | exact Nat.le_trans (List.length_filter_le _ _) (by assumption)
    | exact Nat.le_trans (by simp) (by assumption)
    | exact Nat.le_trans (by simp only [List.length_drop]; exact Nat.sub_le _ _) (by assumption)
    | exact Nat.zero_le _

theorem Dev.thermalStop_keeps (w_port : W .port) (w_log : W .log) (w_voices : W .voices) (w_banks : W .banks) (w_staggers : W .staggers) (w_cues : W .cues) (w_sc : W .sc) (w_conv : W .conv) (w_wave : W .wave) (w_therm : W .therm) (w_chain : W .chain) (w_slotFaults : W .slotFaults) {d : Dev} (h : d.Keeps W r₀) (u : ThermUnit) (vs : List VoiceId) (value : Rat) (before : Rat) :
  (Dev.thermalStop d u vs value before).Keeps W r₀ := by
  unfold Dev.thermalStop
  try dsimp only
  repeat' first
    | with_reducible assumption
    | with_reducible apply Dev.event_keeps
    | with_reducible apply Dev.forVoices_keeps
    | with_reducible apply Dev.withdraw_keeps
    | with_reducible apply Dev.otStop_keeps
    | with_reducible apply Dev.stagger_keeps
    | with_reducible apply Dev.modTherm_keeps
    | with_reducible apply Dev.zoneCheckStart_keeps
    | with_reducible apply Dev.stopCues_keeps
    | split
    | exact id
    | intro _
    | dsimp only
    | (with_reducible refine Dev.Keeps.of_pair (by with_reducible assumption) ?_)

theorem Dev.stopVoice_keeps (w_port : W .port) (w_log : W .log) (w_voices : W .voices) (w_banks : W .banks) (w_staggers : W .staggers) (w_cues : W .cues) (w_sc : W .sc) (w_conv : W .conv) (w_wave : W .wave) (w_therm : W .therm) (w_chain : W .chain) (w_slotFaults : W .slotFaults) {d : Dev} (h : d.Keeps W r₀) (v : VoiceId) :
  (Dev.stopVoice d v).Keeps W r₀ := by
  unfold Dev.stopVoice
  try dsimp only
  repeat' first
    | with_reducible assumption
    | with_reducible apply Dev.event_keeps
    | with_reducible apply Dev.modTherm_keeps
    | with_reducible apply Dev.thermalStop_keeps
    | split
    | exact id
    | intro _
    | dsimp only
    | (with_reducible refine Dev.Keeps.of_pair (by with_reducible assumption) ?_)

theorem Dev.stopZone_keeps (w_port : W .port) (w_log : W .log) (w_voices : W .voices) (w_banks : W .banks) (w_staggers : W .staggers) (w_cues : W .cues) (w_sc : W .sc) (w_conv : W .conv) (w_wave : W .wave) (w_therm : W .therm) (w_chain : W .chain) (w_slotFaults : W .slotFaults) {d : Dev} (h : d.Keeps W r₀) (z : ZoneId) :
  (Dev.stopZone d z).Keeps W r₀ := by
  unfold Dev.stopZone
  try dsimp only
  repeat' first
    | with_reducible assumption
    | with_reducible apply Dev.event_keeps
    | with_reducible apply Dev.modZone_keeps
    | with_reducible apply Dev.thermalStop_keeps
    | split
    | exact id
    | intro _
    | dsimp only
    | (with_reducible refine Dev.Keeps.of_pair (by with_reducible assumption) ?_)

theorem Dev.suspectZone_keeps (w_port : W .port) (w_log : W .log) (w_therm : W .therm) {d : Dev} (h : d.Keeps W r₀) (e : ZoneId → Rat) (z : ZoneId) :
  (Dev.suspectZone d e z).Keeps W r₀ := by
  unfold Dev.suspectZone
  try dsimp only
  repeat' first
    | with_reducible assumption
    | with_reducible apply Dev.event_keeps
    | with_reducible apply Dev.modZone_keeps
    | with_reducible apply Dev.zoneCheckStart_keeps
    | split
    | exact id
    | intro _
    | dsimp only
    | (with_reducible refine Dev.Keeps.of_pair (by with_reducible assumption) ?_)

theorem Dev.coldCheck_keeps (w_port : W .port) (w_log : W .log) (w_sc : W .sc) (w_therm : W .therm) (w_nv : W .nv) {d : Dev} (h : d.Keeps W r₀) :
  (Dev.coldCheck d).Keeps W r₀ := by
  unfold Dev.coldCheck
  try dsimp only
  repeat' first
    | with_reducible assumption
    | with_reducible apply Dev.event_keeps
    | with_reducible apply Dev.flushHeld_keeps
    | split
    | with_reducible apply Dev.Keeps.therm
    | exact id
    | intro _
    | dsimp only
    | (with_reducible refine Dev.Keeps.of_pair (by with_reducible assumption) ?_)

theorem Dev.zoneThresholds_keeps (w_port : W .port) (w_log : W .log) (w_voices : W .voices) (w_banks : W .banks) (w_staggers : W .staggers) (w_cues : W .cues) (w_sc : W .sc) (w_conv : W .conv) (w_wave : W .wave) (w_therm : W .therm) (w_chain : W .chain) (w_slotFaults : W .slotFaults) {d : Dev} (h : d.Keeps W r₀) (z : ZoneId) :
  (Dev.zoneThresholds d z).Keeps W r₀ := by
  unfold Dev.zoneThresholds
  try dsimp only
  repeat' first
    | with_reducible assumption
    | with_reducible apply Dev.modZone_keeps
    | with_reducible apply Dev.warnCheck_keeps
    | with_reducible apply Dev.throttleCheck_keeps
    | with_reducible apply Dev.stopZone_keeps
    | split
    | exact id
    | intro _
    | dsimp only
    | (with_reducible refine Dev.Keeps.of_pair (by with_reducible assumption) ?_)

theorem Dev.zoneReadings_keeps (w_port : W .port) (w_log : W .log) (w_voices : W .voices) (w_banks : W .banks) (w_staggers : W .staggers) (w_cues : W .cues) (w_sc : W .sc) (w_conv : W .conv) (w_wave : W .wave) (w_therm : W .therm) (w_nv : W .nv) (w_chain : W .chain) (w_slotFaults : W .slotFaults) {d : Dev} (h : d.Keeps W r₀) (readings : Tab Int 8) :
  (Dev.zoneReadings d readings).Keeps W r₀ := by
  unfold Dev.zoneReadings
  try dsimp only
  repeat' first
    | with_reducible assumption
    | with_reducible apply Dev.markIfDue_keeps
    | with_reducible apply Dev.suspectZone_keeps
    | with_reducible apply Dev.coldCheck_keeps
    | with_reducible apply Dev.zoneThresholds_keeps
    | split
    | with_reducible apply Dev.Keeps.foldl
    | with_reducible apply Dev.Keeps.foldl_pair
    | with_reducible apply Dev.Keeps.therm
    | exact id
    | intro _
    | dsimp only
    | (with_reducible refine Dev.Keeps.of_pair (by with_reducible assumption) ?_)

theorem Dev.retireZone_keeps (w_ctl : W .ctl) (w_port : W .port) (w_log : W .log) (w_voices : W .voices) (w_banks : W .banks) (w_staggers : W .staggers) (w_cues : W .cues) (w_sc : W .sc) (w_conv : W .conv) (w_wave : W .wave) (w_therm : W .therm) (w_nv : W .nv) (w_chain : W .chain) (w_slotOffs : W .slotOffs) (w_slotFaults : W .slotFaults) {d : Dev} (h : d.Keeps W r₀) (z : ZoneId) :
  (Dev.retireZone d z).Keeps W r₀ := by
  unfold Dev.retireZone
  try dsimp only
  repeat' first
    | with_reducible assumption
    | with_reducible apply Dev.event_keeps
    | with_reducible apply Dev.modZone_keeps
    | with_reducible apply Dev.enterHalted_keeps
    | split
    | exact id
    | intro _
    | dsimp only
    | (with_reducible refine Dev.Keeps.of_pair (by with_reducible assumption) ?_)

theorem Dev.settleZoneVoices_keeps (w_port : W .port) (w_log : W .log) (w_voices : W .voices) (w_sc : W .sc) (w_nv : W .nv) {d : Dev} (h : d.Keeps W r₀) (z : ZoneId) (incomplete : Bool) :
  (Dev.settleZoneVoices d z incomplete).Keeps W r₀ := by
  unfold Dev.settleZoneVoices
  try dsimp only
  repeat' first
    | with_reducible assumption
    | with_reducible apply Dev.forVoices_keeps
    | with_reducible apply Dev.setSc_keeps
    | with_reducible apply Dev.tellThermal_keeps
    | with_reducible apply Dev.tripDecision_keeps
    | with_reducible apply Dev.releaseHeld_keeps
    | with_reducible apply Dev.clearTrip_keeps
    | split
    | exact id
    | intro _
    | dsimp only
    | (with_reducible refine Dev.Keeps.of_pair (by with_reducible assumption) ?_)

theorem Dev.anchor_keeps (w_voices : W .voices) {d : Dev} (h : d.Keeps W r₀) (v : VoiceId) (tj : Rat) (ma : Rat) (kind : Anchor) :
  (Dev.anchor d v tj ma kind).Keeps W r₀ := by
  unfold Dev.anchor
  try dsimp only
  repeat' first
    | with_reducible assumption
    | with_reducible apply Dev.modTherm_keeps
    | split
    | exact id
    | intro _
    | dsimp only
    | (with_reducible refine Dev.Keeps.of_pair (by with_reducible assumption) ?_)

theorem Dev.modelStep_keeps (w_voices : W .voices) {d : Dev} (h : d.Keeps W r₀) (v : VoiceId) :
  (Dev.modelStep d v).Keeps W r₀ := by
  unfold Dev.modelStep
  try dsimp only
  repeat' first
    | with_reducible assumption
    | with_reducible apply Dev.modTherm_keeps
    | split
    | exact id
    | intro _
    | dsimp only
    | (with_reducible refine Dev.Keeps.of_pair (by with_reducible assumption) ?_)

theorem Dev.restAnchor_keeps (w_voices : W .voices) {d : Dev} (h : d.Keeps W r₀) (v : VoiceId) :
  (Dev.restAnchor d v).Keeps W r₀ := by
  unfold Dev.restAnchor
  try dsimp only
  repeat' first
    | with_reducible assumption
    | with_reducible apply Dev.anchor_keeps
    | split
    | exact id
    | intro _
    | dsimp only
    | (with_reducible refine Dev.Keeps.of_pair (by with_reducible assumption) ?_)

theorem Dev.quietAnchor_keeps (w_voices : W .voices) {d : Dev} (h : d.Keeps W r₀) (v : VoiceId) :
  (Dev.quietAnchor d v).Keeps W r₀ := by
  unfold Dev.quietAnchor
  try dsimp only
  repeat' first
    | with_reducible assumption
    | with_reducible apply Dev.modTherm_keeps
    | with_reducible apply Dev.anchor_keeps
    | split
    | exact id
    | intro _
    | dsimp only
    | (with_reducible refine Dev.Keeps.of_pair (by with_reducible assumption) ?_)

theorem Dev.updateVoice_keeps (w_port : W .port) (w_log : W .log) (w_voices : W .voices) (w_banks : W .banks) (w_staggers : W .staggers) (w_cues : W .cues) (w_sc : W .sc) (w_conv : W .conv) (w_wave : W .wave) (w_therm : W .therm) (w_chain : W .chain) (w_slotFaults : W .slotFaults) {d : Dev} (h : d.Keeps W r₀) (v : VoiceId) :
  (Dev.updateVoice d v).Keeps W r₀ := by
  unfold Dev.updateVoice
  try dsimp only
  repeat' first
    | with_reducible assumption
    | with_reducible apply Dev.lifetimeMax_keeps
    | with_reducible apply Dev.modTherm_keeps
    | with_reducible apply Dev.warnCheck_keeps
    | with_reducible apply Dev.throttleCheck_keeps
    | with_reducible apply Dev.stopVoice_keeps
    | with_reducible apply Dev.modelStep_keeps
    | with_reducible apply Dev.restAnchor_keeps
    | with_reducible apply Dev.quietAnchor_keeps
    | split
    | exact id
    | intro _
    | dsimp only
    | (with_reducible refine Dev.Keeps.of_pair (by with_reducible assumption) ?_)

theorem Dev.blipGate_keeps (w_voices : W .voices) {d : Dev} (h : d.Keeps W r₀) (v : VoiceId) :
  (Dev.blipGate d v).Keeps W r₀ := by
  unfold Dev.blipGate
  try dsimp only
  repeat' first
    | with_reducible assumption
    | with_reducible apply Dev.modVoice_keeps
    | with_reducible apply Dev.edgeEnergy_keeps
    | split
    | exact id
    | intro _
    | dsimp only
    | (with_reducible refine Dev.Keeps.of_pair (by with_reducible assumption) ?_)

theorem Dev.blipAnchor_keeps (w_port : W .port) (w_log : W .log) (w_voices : W .voices) {d : Dev} (h : d.Keeps W r₀) (v : VoiceId) :
  (Dev.blipAnchor d v).Keeps W r₀ := by
  unfold Dev.blipAnchor
  try dsimp only
  repeat' first
    | with_reducible assumption
    | with_reducible apply Dev.event_keeps
    | with_reducible apply Dev.anchor_keeps
    | split
    | exact id
    | intro _
    | dsimp only
    | (with_reducible refine Dev.Keeps.of_pair (by with_reducible assumption) ?_)

theorem opThrottleAck_keeps (w_voices : W .voices) (w_therm : W .therm) {d : Dev} (h : d.Keeps W r₀) (p : List Byte) :
  (opThrottleAck p d).1.Keeps W r₀ := by
  unfold opThrottleAck
  try dsimp only
  repeat' first
    | with_reducible assumption
    | with_reducible apply Dev.modZone_keeps
    | with_reducible apply Dev.forVoices_keeps
    | with_reducible apply Dev.modTherm_keeps
    | split
    | with_reducible apply Dev.Keeps.foldl
    | with_reducible apply Dev.Keeps.foldl_pair
    | exact id
    | intro _
    | dsimp only
    | (with_reducible refine Dev.Keeps.of_pair (by with_reducible assumption) ?_)

theorem opAnchorBlip_keeps (w_therm : W .therm) {d : Dev} (h : d.Keeps W r₀) (p : List Byte) :
  (opAnchorBlip p d).1.Keeps W r₀ := by
  unfold opAnchorBlip
  try dsimp only
  repeat' first
    | with_reducible assumption
    | split
    | with_reducible apply Dev.Keeps.therm
    | exact id
    | intro _
    | dsimp only
    | (with_reducible refine Dev.Keeps.of_pair (by with_reducible assumption) ?_)

end Sys2Proof.Machine
end

