-- ==== Sys2Proof/Laws/KeepsTimeBase.lean ====
section
/-! SUPPORT. What each change of TimeBase.lean keeps (Laws/Keeps.lean): which parts it may change, and that every form stays. -/

namespace Sys2Proof.Machine
open Sys2Proof

variable {W : Part → Prop} {r₀ : Dev}

theorem Dev.tellRefAbsent_keeps (w_time : W .time) (w_port : W .port) (w_log : W .log) {d : Dev} (h : d.Keeps W r₀) :
  (Dev.tellRefAbsent d).Keeps W r₀ := by
  unfold Dev.tellRefAbsent
  try dsimp only
  repeat' first
    | with_reducible assumption
    | with_reducible apply Dev.event_keeps
    | with_reducible apply Dev.setTime_keeps
    | split
    | exact id
    | intro _
    | dsimp only
    | (with_reducible refine Dev.Keeps.of_pair (by with_reducible assumption) ?_)

theorem Dev.rejoin_keeps (w_voices : W .voices) {d : Dev} (h : d.Keeps W r₀) :
  (Dev.rejoin d).Keeps W r₀ := by
  unfold Dev.rejoin
  try dsimp only
  repeat' first
    | with_reducible assumption
    | split
    | with_reducible apply Dev.Keeps.voices
    | exact id
    | intro _
    | dsimp only
    | (with_reducible refine Dev.Keeps.of_pair (by with_reducible assumption) ?_)

theorem Dev.takeCount_keeps (w_time : W .time) (w_voices : W .voices) (w_cues : W .cues) (w_tally : W .tally) (w_odo : W .odo) {d : Dev} (h : d.Keeps W r₀) (tbc : Int) (k : Int) :
  (Dev.takeCount d tbc k).Keeps W r₀ := by
  unfold Dev.takeCount
  try dsimp only
  repeat' first
    | with_reducible assumption
    | with_reducible apply Dev.shiftTimes_keeps
    | with_reducible apply Dev.setTime_keeps
    | with_reducible apply Dev.rejoin_keeps
    | split
    | exact id
    | intro _
    | dsimp only
    | (with_reducible refine Dev.Keeps.of_pair (by with_reducible assumption) ?_)

theorem Dev.loseTb_keeps (w_time : W .time) (w_ctl : W .ctl) (w_port : W .port) (w_log : W .log) (w_voices : W .voices) (w_banks : W .banks) (w_staggers : W .staggers) (w_cues : W .cues) (w_tally : W .tally) (w_sc : W .sc) (w_conv : W .conv) (w_wave : W .wave) (w_therm : W .therm) (w_nv : W .nv) (w_chain : W .chain) (w_slotOffs : W .slotOffs) (w_slotFaults : W .slotFaults) {d : Dev} (h : d.Keeps W r₀) (cause : Nat) :
  (Dev.loseTb d cause).Keeps W r₀ := by
  unfold Dev.loseTb
  try dsimp only
  repeat' first
    | with_reducible assumption
    | with_reducible apply Dev.event_keeps
    | with_reducible apply Dev.dropStarts_keeps
    | with_reducible apply Dev.engineFallback_keeps
    | with_reducible apply Dev.enterHalted_keeps
    | with_reducible apply Dev.setTime_keeps
    | split
    | exact id
    | intro _
    | dsimp only
    | (with_reducible refine Dev.Keeps.of_pair (by with_reducible assumption) ?_)

theorem Dev.tbcWord_keeps (w_time : W .time) (w_ctl : W .ctl) (w_port : W .port) (w_log : W .log) (w_voices : W .voices) (w_banks : W .banks) (w_staggers : W .staggers) (w_cues : W .cues) (w_tally : W .tally) (w_sc : W .sc) (w_conv : W .conv) (w_wave : W .wave) (w_therm : W .therm) (w_nv : W .nv) (w_chain : W .chain) (w_slotOffs : W .slotOffs) (w_slotFaults : W .slotFaults) {d : Dev} (h : d.Keeps W r₀) (valid : Bool) (word : Int) :
  (Dev.tbcWord d valid word).Keeps W r₀ := by
  unfold Dev.tbcWord
  try dsimp only
  repeat' first
    | with_reducible assumption
    | with_reducible apply Dev.setTime_keeps
    | with_reducible apply Dev.loseTb_keeps
    | split
    | exact id
    | intro _
    | dsimp only
    | (with_reducible refine Dev.Keeps.of_pair (by with_reducible assumption) ?_)

end Sys2Proof.Machine
end

