-- ==== Sys2Proof/Laws/KeepsBoot.lean ====
section
/-! SUPPORT. What each change of Boot.lean keeps (Laws/Keeps.lean): which parts it may change, and that every form stays. -/

namespace Sys2Proof.Machine
open Sys2Proof

variable {W : Part → Prop} {r₀ : Dev}

theorem Dev.held_keeps (w_time : W .time) (w_ctl : W .ctl) (w_ka : W .ka) (w_port : W .port) (w_log : W .log) (w_par : W .par) (w_voices : W .voices) (w_banks : W .banks) (w_staggers : W .staggers) (w_lh : W .lh) (w_cues : W .cues) (w_tally : W .tally) (w_odo : W .odo) (w_sc : W .sc) (w_conv : W .conv) (w_wave : W .wave) (w_therm : W .therm) (w_nv : W .nv) (w_link : W .link) (w_chain : W .chain) (w_patch : W .patch) (w_pd : W .pd) (w_slotOffs : W .slotOffs) (w_slotFaults : W .slotFaults) (w_edges : W .edges) {d : Dev} (h : d.Keeps W r₀) :
  (Dev.held d).Keeps W r₀ := by
  have h1 : d.rawCollapse.Keeps W r₀ := Dev.rawCollapse_keeps w_port w_log w_nv h
  unfold Dev.held
  extract_lets d1 now
  refine Dev.Keeps.trans (b := d1) ⟨fun p hp => ?_, fun g => ⟨Nat.zero_le _, EventLog.good_empty, Nat.zero_le _, ?_⟩⟩ h1
  · clear_value d1
    cases p <;> first | exact absurd (by assumption) hp | rfl
  · exact (congrArg Memory.wf (Flash.restarted_raw _ _ _)).trans g.raw

theorem Dev.startEvent_keeps (w_ctl : W .ctl) (w_port : W .port) (w_log : W .log) {d : Dev} (h : d.Keeps W r₀) :
  (Dev.startEvent d).Keeps W r₀ := by
  unfold Dev.startEvent
  extract_lets n e later l
  refine Dev.raiseIrq_keeps w_port (Dev.setCtl_keeps w_ctl (h.log w_log l fun g => ?_) _)
  exact EventLog.good_start g e _ rfl

theorem Dev.firstReadings_keeps (w_voices : W .voices) (w_therm : W .therm) {d : Dev} (h : d.Keeps W r₀) (zones : Tab Int 8) :
  (Dev.firstReadings d zones).Keeps W r₀ := by
  unfold Dev.firstReadings
  try dsimp only
  repeat' first
    | with_reducible assumption
    | split
    | with_reducible apply Dev.Keeps.voices
    | with_reducible apply Dev.Keeps.therm
    | with_reducible apply Dev.Keeps.voices_therm
    | exact id
    | intro _
    | dsimp only
    | (with_reducible refine Dev.Keeps.of_pair (by with_reducible assumption) ?_)

theorem Dev.bootEnd_keeps (w_time : W .time) (w_ctl : W .ctl) (w_port : W .port) (w_log : W .log) (w_sc : W .sc) (w_nv : W .nv) (w_chain : W .chain) {d : Dev} (h : d.Keeps W r₀) :
  (Dev.bootEnd d).Keeps W r₀ := by
  unfold Dev.bootEnd
  try dsimp only
  repeat' first
    | with_reducible assumption
    | with_reducible apply Dev.bootMarker_keeps
    | with_reducible apply Dev.tellRefAbsent_keeps
    | with_reducible apply Dev.startEvent_keeps
    | split
    | with_reducible apply Dev.Keeps.chain
    | exact id
    | intro _
    | dsimp only
    | (with_reducible refine Dev.Keeps.of_pair (by with_reducible assumption) ?_)

theorem Dev.goLive_keeps (w_ctl : W .ctl) (w_port : W .port) (w_log : W .log) (w_banks : W .banks) (w_lh : W .lh) (w_sc : W .sc) (w_conv : W .conv) (w_therm : W .therm) (w_nv : W .nv) {d : Dev} (h : d.Keeps W r₀) :
  (Dev.goLive d).Keeps W r₀ := by
  unfold Dev.goLive
  try dsimp only
  repeat' first
    | with_reducible assumption
    | with_reducible apply Dev.engineStart_keeps
    | with_reducible apply Dev.setCtl_keeps
    | with_reducible apply Dev.coldCheck_keeps
    | split
    | with_reducible apply Dev.Keeps.banks
    | with_reducible apply Dev.Keeps.lh
    | with_reducible apply Dev.Keeps.banks_lh
    | exact id
    | intro _
    | dsimp only
    | (with_reducible refine Dev.Keeps.of_pair (by with_reducible assumption) ?_)

end Sys2Proof.Machine
end

