-- ==== Sys2Proof/Laws/KeepsChainOps.lean ====
section
/-! SUPPORT. What each change of ChainOps.lean keeps (Laws/Keeps.lean): which parts it may change, and that every form stays. -/

namespace Sys2Proof.Machine
open Sys2Proof

variable {W : Part → Prop} {r₀ : Dev}

theorem Dev.openBar_keeps (w_port : W .port) (w_chain : W .chain) {d : Dev} (h : d.Keeps W r₀) (barNo : Nat) :
  (Dev.openBar d barNo).Keeps W r₀ := by
  unfold Dev.openBar
  try dsimp only
  repeat' first
    | with_reducible assumption
    | with_reducible apply Dev.setChain_keeps
    | split
    | with_reducible apply Dev.Keeps.port
    | exact id
    | intro _
    | dsimp only
    | (with_reducible refine Dev.Keeps.of_pair (by with_reducible assumption) ?_)
    | (simp only [List.length_map]; assumption)
    | exact Nat.le_trans (List.length_filter_le _ _) (by assumption)
    | exact Nat.le_trans (by simp) (by assumption)
    | exact Nat.le_trans (by simp only [List.length_drop]; exact Nat.sub_le _ _) (by assumption)
    | exact Nat.zero_le _

theorem Dev.modBar_keeps (w_chain : W .chain) {d : Dev} (h : d.Keeps W r₀) (f : FwdBar → FwdBar) :
  (Dev.modBar d f).Keeps W r₀ := by
  unfold Dev.modBar
  try dsimp only
  repeat' first
    | with_reducible assumption
    | with_reducible apply Dev.setChain_keeps
    | split
    | exact id
    | intro _
    | dsimp only
    | (with_reducible refine Dev.Keeps.of_pair (by with_reducible assumption) ?_)

theorem Dev.forward_keeps (w_chain : W .chain) {d : Dev} (h : d.Keeps W r₀) (p : Packet) :
  (Dev.forward d p).Keeps W r₀ := by
  unfold Dev.forward
  try dsimp only
  repeat' first
    | with_reducible assumption
    | with_reducible apply Dev.setChain_keeps
    | with_reducible apply Dev.modBar_keeps
    | split
    | exact id
    | intro _
    | dsimp only
    | (with_reducible refine Dev.Keeps.of_pair (by with_reducible assumption) ?_)

theorem Dev.answer_keeps (w_port : W .port) (w_chain : W .chain) {d : Dev} (h : d.Keeps W r₀) (news : Bool) (viaChain : Bool) (src : Nat) (p : Packet) (a : Answer) :
  (Dev.answer d news viaChain src p a).Keeps W r₀ := by
  unfold Dev.answer
  try dsimp only
  repeat' first
    | with_reducible assumption
    | with_reducible apply Dev.reply_keeps
    | with_reducible apply Dev.replyNews_keeps
    | with_reducible apply Dev.setChain_keeps
    | split
    | exact id
    | intro _
    | dsimp only
    | (with_reducible refine Dev.Keeps.of_pair (by with_reducible assumption) ?_)

theorem Dev.dropPending_keeps (w_port : W .port) (w_chain : W .chain) {d : Dev} (h : d.Keeps W r₀) :
  (Dev.dropPending d).Keeps W r₀ := by
  unfold Dev.dropPending
  try dsimp only
  repeat' first
    | with_reducible assumption
    | with_reducible apply Dev.answer_keeps
    | split
    | with_reducible apply Dev.Keeps.foldl
    | with_reducible apply Dev.Keeps.foldl_pair
    | with_reducible apply Dev.Keeps.port
    | exact id
    | intro _
    | dsimp only
    | (with_reducible refine Dev.Keeps.of_pair (by with_reducible assumption) ?_)
    | (simp only [List.length_map]; assumption)
    | exact Nat.le_trans (List.length_filter_le _ _) (by assumption)
    | exact Nat.le_trans (by simp) (by assumption)
    | exact Nat.le_trans (by simp only [List.length_drop]; exact Nat.sub_le _ _) (by assumption)
    | exact Nat.zero_le _

theorem Dev.followBreak_keeps (w_port : W .port) (w_log : W .log) (w_chain : W .chain) {d : Dev} (h : d.Keeps W r₀) :
  (Dev.followBreak d).Keeps W r₀ := by
  unfold Dev.followBreak
  try dsimp only
  repeat' first
    | with_reducible assumption
    | with_reducible apply Dev.event_keeps
    | with_reducible apply Dev.setChain_keeps
    | split
    | with_reducible apply Dev.Keeps.foldl
    | with_reducible apply Dev.Keeps.foldl_pair
    | exact id
    | intro _
    | dsimp only
    | (with_reducible refine Dev.Keeps.of_pair (by with_reducible assumption) ?_)

theorem opEnumerate_keeps (w_chain : W .chain) {d : Dev} (h : d.Keeps W r₀) (p : List Byte) :
  (opEnumerate p d).1.Keeps W r₀ := by
  unfold opEnumerate
  try dsimp only
  repeat' first
    | with_reducible assumption
    | with_reducible apply Dev.setChain_keeps
    | split
    | exact id
    | intro _
    | dsimp only
    | (with_reducible refine Dev.Keeps.of_pair (by with_reducible assumption) ?_)

theorem opChainRing_keeps (w_port : W .port) (w_log : W .log) (w_chain : W .chain) {d : Dev} (h : d.Keeps W r₀) (p : List Byte) :
  (opChainRing p d).1.Keeps W r₀ := by
  unfold opChainRing
  try dsimp only
  repeat' first
    | with_reducible assumption
    | with_reducible apply Dev.setChain_keeps
    | with_reducible apply Dev.followBreak_keeps
    | split
    | exact id
    | intro _
    | dsimp only
    | (with_reducible refine Dev.Keeps.of_pair (by with_reducible assumption) ?_)

theorem opBreathCtrl_keeps (w_chain : W .chain) {d : Dev} (h : d.Keeps W r₀) (p : List Byte) :
  (opBreathCtrl p d).1.Keeps W r₀ := by
  unfold opBreathCtrl
  try dsimp only
  repeat' first
    | with_reducible assumption
    | with_reducible apply Dev.setChain_keeps
    | split
    | with_reducible apply Dev.Keeps.foldl
    | with_reducible apply Dev.Keeps.foldl_pair
    | exact id
    | intro _
    | dsimp only
    | (with_reducible refine Dev.Keeps.of_pair (by with_reducible assumption) ?_)

theorem opChainStatus_keeps (w_chain : W .chain) {d : Dev} (h : d.Keeps W r₀) (snap : Dev) (p : List Byte) :
  (opChainStatus snap p d).1.Keeps W r₀ := by
  unfold opChainStatus
  try dsimp only
  repeat' first
    | with_reducible assumption
    | with_reducible apply Dev.setChain_keeps
    | split
    | exact id
    | intro _
    | dsimp only
    | (with_reducible refine Dev.Keeps.of_pair (by with_reducible assumption) ?_)

end Sys2Proof.Machine
end

