-- ==== Sys2Proof/Laws/KeepsHouse.lean ====
section
/-! SUPPORT. What each change of House.lean keeps (Laws/Keeps.lean): which parts it may change, and that every form stays. -/

namespace Sys2Proof.Machine
open Sys2Proof

variable {W : Part → Prop} {r₀ : Dev}

theorem opSoftReset_keeps (w_time : W .time) (w_ctl : W .ctl) (w_ka : W .ka) (w_port : W .port) (w_log : W .log) (w_par : W .par) (w_voices : W .voices) (w_banks : W .banks) (w_staggers : W .staggers) (w_lh : W .lh) (w_cues : W .cues) (w_tally : W .tally) (w_odo : W .odo) (w_sc : W .sc) (w_conv : W .conv) (w_wave : W .wave) (w_therm : W .therm) (w_nv : W .nv) (w_link : W .link) (w_chain : W .chain) (w_patch : W .patch) (w_pd : W .pd) (w_slotOffs : W .slotOffs) (w_slotFaults : W .slotFaults) (w_edges : W .edges) {d : Dev} (h : d.Keeps W r₀) (p : List Byte) :
  (opSoftReset p d).1.Keeps W r₀ := by
  unfold opSoftReset
  try dsimp only
  repeat' first
    | with_reducible assumption
    | with_reducible apply Dev.restart_keeps
    | split
    | exact id
    | intro _
    | dsimp only
    | (with_reducible refine Dev.Keeps.of_pair (by with_reducible assumption) ?_)

theorem opEventAck_keeps (w_log : W .log) {d : Dev} (h : d.Keeps W r₀) (p : List Byte) :
  (opEventAck p d).1.Keeps W r₀ := by
  unfold opEventAck
  dsimp only
  split
  · exact h
  · exact h.log w_log _ fun g => EventLog.good_map g _ (fun e => by split <;> rfl)

theorem opParamWrite_keeps (w_par : W .par) {d : Dev} (h : d.Keeps W r₀) (p : List Byte) :
  (opParamWrite p d).1.Keeps W r₀ := by
  unfold opParamWrite
  try dsimp only
  repeat' first
    | with_reducible assumption
    | split
    | with_reducible apply Dev.Keeps.par
    | exact id
    | intro _
    | dsimp only
    | (with_reducible refine Dev.Keeps.of_pair (by with_reducible assumption) ?_)

theorem Dev.clearLead_keeps (w_voices : W .voices) {d : Dev} (h : d.Keeps W r₀) (v : VoiceId) :
  (Dev.clearLead d v).Keeps W r₀ := by
  unfold Dev.clearLead
  try dsimp only
  repeat' first
    | with_reducible assumption
    | with_reducible apply Dev.modVoice_keeps
    | split
    | exact id
    | intro _
    | dsimp only
    | (with_reducible refine Dev.Keeps.of_pair (by with_reducible assumption) ?_)

theorem opParamWriteLive_keeps (w_par : W .par) (w_voices : W .voices) (w_conv : W .conv) {d : Dev} (h : d.Keeps W r₀) (p : List Byte) :
  (opParamWriteLive p d).1.Keeps W r₀ := by
  unfold opParamWriteLive
  try dsimp only
  repeat' first
    | with_reducible assumption
    | with_reducible apply Dev.holdCorr_keeps
    | with_reducible apply Dev.forVoices_keeps
    | with_reducible apply Dev.clearLead_keeps
    | split
    | with_reducible apply Dev.Keeps.par
    | exact id
    | intro _
    | dsimp only
    | (with_reducible refine Dev.Keeps.of_pair (by with_reducible assumption) ?_)

theorem opConduct_keeps (w_ctl : W .ctl) (w_port : W .port) (w_log : W .log) (w_par : W .par) (w_voices : W .voices) (w_cues : W .cues) (w_tally : W .tally) (w_odo : W .odo) (w_sc : W .sc) (w_conv : W .conv) (w_wave : W .wave) (w_therm : W .therm) (w_nv : W .nv) (w_chain : W .chain) (w_patch : W .patch) {d : Dev} (h : d.Keeps W r₀) (p : List Byte) :
  (opConduct p d).1.Keeps W r₀ := by
  unfold opConduct
  try dsimp only
  repeat' first
    | with_reducible assumption
    | with_reducible apply Dev.conduct_keeps
    | split
    | with_reducible apply Dev.Keeps.patch
    | exact id
    | intro _
    | dsimp only
    | (with_reducible refine Dev.Keeps.of_pair (by with_reducible assumption) ?_)

theorem patchBegin_keeps (w_patch : W .patch) {d : Dev} (h : d.Keeps W r₀) (p : List Byte) :
  (patchBegin p d).1.Keeps W r₀ := by
  unfold patchBegin
  try dsimp only
  repeat' first
    | with_reducible assumption
    | with_reducible apply Dev.setPatch_keeps
    | split
    | exact id
    | intro _
    | dsimp only
    | (with_reducible refine Dev.Keeps.of_pair (by with_reducible assumption) ?_)

theorem patchData_keeps (w_patch : W .patch) {d : Dev} (h : d.Keeps W r₀) (p : List Byte) :
  (patchData p d).1.Keeps W r₀ := by
  unfold patchData
  try dsimp only
  repeat' first
    | with_reducible assumption
    | with_reducible apply Dev.setPatch_keeps
    | split
    | exact id
    | intro _
    | dsimp only
    | (with_reducible refine Dev.Keeps.of_pair (by with_reducible assumption) ?_)

theorem patchEnd_keeps (w_port : W .port) (w_log : W .log) (w_patch : W .patch) {d : Dev} (h : d.Keeps W r₀) (p : List Byte) :
  (patchEnd p d).1.Keeps W r₀ := by
  unfold patchEnd
  try dsimp only
  repeat' first
    | with_reducible assumption
    | with_reducible apply Dev.event_keeps
    | with_reducible apply Dev.setPatch_keeps
    | split
    | exact id
    | intro _
    | dsimp only
    | (with_reducible refine Dev.Keeps.of_pair (by with_reducible assumption) ?_)

theorem patchAbort_keeps (w_patch : W .patch) {d : Dev} (h : d.Keeps W r₀) :
  (patchAbort d).1.Keeps W r₀ := by
  unfold patchAbort
  try dsimp only
  repeat' first
    | with_reducible assumption
    | with_reducible apply Dev.setPatch_keeps
    | split
    | exact id
    | intro _
    | dsimp only
    | (with_reducible refine Dev.Keeps.of_pair (by with_reducible assumption) ?_)

theorem opPatchLoad_keeps (w_port : W .port) (w_log : W .log) (w_patch : W .patch) {d : Dev} (h : d.Keeps W r₀) (p : List Byte) :
  (opPatchLoad p d).1.Keeps W r₀ := by
  unfold opPatchLoad
  try dsimp only
  repeat' first
    | with_reducible assumption
    | with_reducible apply patchBegin_keeps
    | with_reducible apply patchData_keeps
    | with_reducible apply patchEnd_keeps
    | with_reducible apply patchAbort_keeps
    | split
    | exact id
    | intro _
    | dsimp only
    | (with_reducible refine Dev.Keeps.of_pair (by with_reducible assumption) ?_)

end Sys2Proof.Machine
end

