-- ==== Sys2Proof/Laws/KeepsPower.lean ====
section
/-! SUPPORT. What each change of Power.lean keeps (Laws/Keeps.lean): which parts it may change, and that every form stays. -/

namespace Sys2Proof.Machine
open Sys2Proof

variable {W : Part → Prop} {r₀ : Dev}

theorem Dev.putBackBlip_keeps (w_voices : W .voices) (w_therm : W .therm) {d : Dev} (h : d.Keeps W r₀) (b : BankId) :
  (Dev.putBackBlip d b).Keeps W r₀ := by
  unfold Dev.putBackBlip
  try dsimp only
  repeat' first
    | with_reducible assumption
    | with_reducible apply Dev.modUnit_keeps
    | split
    | with_reducible apply Dev.Keeps.therm
    | exact id
    | intro _
    | dsimp only
    | (with_reducible refine Dev.Keeps.of_pair (by with_reducible assumption) ?_)
    | exact (congrArg Memory.wf (Flash.pause_raw _ _)).trans (by assumption)
    | exact (congrArg Memory.wf (Flash.enqueue_raw _ _ _ _ _ _)).trans (by assumption)
    | exact (congrArg Memory.wf (Flash.resume_raw _ _)).trans (by assumption)
    | exact (congrArg Memory.wf (Flash.finishCopy_raw _)).trans (by assumption)

theorem Dev.holdBank_keeps (w_voices : W .voices) (w_therm : W .therm) (w_chain : W .chain) {d : Dev} (h : d.Keeps W r₀) (b : BankId) :
  (Dev.holdBank d b).Keeps W r₀ := by
  unfold Dev.holdBank
  try dsimp only
  repeat' first
    | with_reducible assumption
    | with_reducible apply Dev.modVoice_keeps
    | with_reducible apply Dev.forVoices_keeps
    | with_reducible apply Dev.returnTokens_keeps
    | with_reducible apply Dev.putBackBlip_keeps
    | split
    | exact id
    | intro _
    | dsimp only
    | (with_reducible refine Dev.Keeps.of_pair (by with_reducible assumption) ?_)
    | exact (congrArg Memory.wf (Flash.pause_raw _ _)).trans (by assumption)
    | exact (congrArg Memory.wf (Flash.enqueue_raw _ _ _ _ _ _)).trans (by assumption)
    | exact (congrArg Memory.wf (Flash.resume_raw _ _)).trans (by assumption)
    | exact (congrArg Memory.wf (Flash.finishCopy_raw _)).trans (by assumption)

theorem Dev.releaseBank_keeps (w_voices : W .voices) {d : Dev} (h : d.Keeps W r₀) (b : BankId) :
  (Dev.releaseBank d b).Keeps W r₀ := by
  unfold Dev.releaseBank
  try dsimp only
  repeat' first
    | with_reducible assumption
    | with_reducible apply Dev.modVoice_keeps
    | with_reducible apply Dev.forVoices_keeps
    | split
    | exact id
    | intro _
    | dsimp only
    | (with_reducible refine Dev.Keeps.of_pair (by with_reducible assumption) ?_)
    | exact (congrArg Memory.wf (Flash.pause_raw _ _)).trans (by assumption)
    | exact (congrArg Memory.wf (Flash.enqueue_raw _ _ _ _ _ _)).trans (by assumption)
    | exact (congrArg Memory.wf (Flash.resume_raw _ _)).trans (by assumption)
    | exact (congrArg Memory.wf (Flash.finishCopy_raw _)).trans (by assumption)

theorem Dev.pdMode_keeps (w_ctl : W .ctl) (w_port : W .port) (w_log : W .log) (w_voices : W .voices) (w_cues : W .cues) (w_chain : W .chain) {d : Dev} (h : d.Keeps W r₀) (cause : Nat) :
  (Dev.pdMode d cause).Keeps W r₀ := by
  unfold Dev.pdMode
  try dsimp only
  repeat' first
    | with_reducible assumption
    | with_reducible apply Dev.enterParked_keeps
    | split
    | exact id
    | intro _
    | dsimp only
    | (with_reducible refine Dev.Keeps.of_pair (by with_reducible assumption) ?_)
    | exact (congrArg Memory.wf (Flash.pause_raw _ _)).trans (by assumption)
    | exact (congrArg Memory.wf (Flash.enqueue_raw _ _ _ _ _ _)).trans (by assumption)
    | exact (congrArg Memory.wf (Flash.resume_raw _ _)).trans (by assumption)
    | exact (congrArg Memory.wf (Flash.finishCopy_raw _)).trans (by assumption)

theorem Dev.pdStart_keeps (w_ctl : W .ctl) (w_port : W .port) (w_log : W .log) (w_voices : W .voices) (w_banks : W .banks) (w_staggers : W .staggers) (w_cues : W .cues) (w_sc : W .sc) (w_conv : W .conv) (w_wave : W .wave) (w_therm : W .therm) (w_nv : W .nv) (w_score : W .score) (w_chain : W .chain) (w_pd : W .pd) (w_slotFaults : W .slotFaults) {d : Dev} (h : d.Keeps W r₀) (cause : Nat) :
  (Dev.pdStart d cause).Keeps W r₀ := by
  unfold Dev.pdStart
  try dsimp only
  repeat' first
    | with_reducible assumption
    | with_reducible apply Dev.event_keeps
    | with_reducible apply Dev.cancelCues_keeps
    | with_reducible apply Dev.rawStop_keeps
    | with_reducible apply Dev.stagger_keeps
    | with_reducible apply Dev.setCtl_keeps
    | with_reducible apply Dev.withdrawAll_keeps
    | with_reducible apply Dev.setScore_keeps
    | with_reducible apply Dev.setPd_keeps
    | with_reducible apply Dev.pdMode_keeps
    | split
    | exact id
    | intro _
    | dsimp only
    | (with_reducible refine Dev.Keeps.of_pair (by with_reducible assumption) ?_)
    | exact (congrArg Memory.wf (Flash.pause_raw _ _)).trans (by assumption)
    | exact (congrArg Memory.wf (Flash.enqueue_raw _ _ _ _ _ _)).trans (by assumption)
    | exact (congrArg Memory.wf (Flash.resume_raw _ _)).trans (by assumption)
    | exact (congrArg Memory.wf (Flash.finishCopy_raw _)).trans (by assumption)

theorem Dev.pdEnd_keeps (w_port : W .port) (w_log : W .log) (w_pd : W .pd) {d : Dev} (h : d.Keeps W r₀) (marker : Bool) :
  (Dev.pdEnd d marker).Keeps W r₀ := by
  unfold Dev.pdEnd
  try dsimp only
  repeat' first
    | with_reducible assumption
    | with_reducible apply Dev.event_keeps
    | with_reducible apply Dev.setPd_keeps
    | split
    | exact id
    | intro _
    | dsimp only
    | (with_reducible refine Dev.Keeps.of_pair (by with_reducible assumption) ?_)
    | exact (congrArg Memory.wf (Flash.pause_raw _ _)).trans (by assumption)
    | exact (congrArg Memory.wf (Flash.enqueue_raw _ _ _ _ _ _)).trans (by assumption)
    | exact (congrArg Memory.wf (Flash.resume_raw _ _)).trans (by assumption)
    | exact (congrArg Memory.wf (Flash.finishCopy_raw _)).trans (by assumption)

theorem Dev.pdSave_keeps (w_port : W .port) (w_log : W .log) (w_sc : W .sc) (w_nv : W .nv) (w_pd : W .pd) {d : Dev} (h : d.Keeps W r₀) :
  (Dev.pdSave d).Keeps W r₀ := by
  unfold Dev.pdSave
  try dsimp only
  repeat' first
    | with_reducible assumption
    | with_reducible apply Dev.event_keeps
    | with_reducible apply Dev.saveBegin_keeps
    | with_reducible apply Dev.setPd_keeps
    | with_reducible apply Dev.pdEnd_keeps
    | split
    | exact id
    | intro _
    | dsimp only
    | (with_reducible refine Dev.Keeps.of_pair (by with_reducible assumption) ?_)
    | exact (congrArg Memory.wf (Flash.pause_raw _ _)).trans (by assumption)
    | exact (congrArg Memory.wf (Flash.enqueue_raw _ _ _ _ _ _)).trans (by assumption)
    | exact (congrArg Memory.wf (Flash.resume_raw _ _)).trans (by assumption)
    | exact (congrArg Memory.wf (Flash.finishCopy_raw _)).trans (by assumption)

theorem Dev.recover_keeps (w_time : W .time) (w_ctl : W .ctl) (w_ka : W .ka) (w_port : W .port) (w_log : W .log) (w_par : W .par) (w_voices : W .voices) (w_banks : W .banks) (w_staggers : W .staggers) (w_lh : W .lh) (w_cues : W .cues) (w_tally : W .tally) (w_odo : W .odo) (w_sc : W .sc) (w_conv : W .conv) (w_wave : W .wave) (w_therm : W .therm) (w_nv : W .nv) (w_link : W .link) (w_chain : W .chain) (w_patch : W .patch) (w_pd : W .pd) (w_slotOffs : W .slotOffs) (w_slotFaults : W .slotFaults) (w_edges : W .edges) {d : Dev} (h : d.Keeps W r₀) :
  (Dev.recover d).Keeps W r₀ := by
  unfold Dev.recover
  try dsimp only
  repeat' first
    | with_reducible assumption
    | with_reducible apply Dev.restart_keeps
    | split
    | with_reducible apply Dev.Keeps.ka
    | exact id
    | intro _
    | dsimp only
    | (with_reducible refine Dev.Keeps.of_pair (by with_reducible assumption) ?_)
    | exact (congrArg Memory.wf (Flash.pause_raw _ _)).trans (by assumption)
    | exact (congrArg Memory.wf (Flash.enqueue_raw _ _ _ _ _ _)).trans (by assumption)
    | exact (congrArg Memory.wf (Flash.resume_raw _ _)).trans (by assumption)
    | exact (congrArg Memory.wf (Flash.finishCopy_raw _)).trans (by assumption)

theorem opPark_keeps (w_ctl : W .ctl) (w_port : W .port) (w_log : W .log) (w_voices : W .voices) (w_banks : W .banks) (w_staggers : W .staggers) (w_cues : W .cues) (w_sc : W .sc) (w_conv : W .conv) (w_wave : W .wave) (w_therm : W .therm) (w_nv : W .nv) (w_score : W .score) (w_chain : W .chain) (w_pd : W .pd) (w_slotFaults : W .slotFaults) {d : Dev} (h : d.Keeps W r₀) :
  (opPark d).1.Keeps W r₀ := by
  unfold opPark
  try dsimp only
  repeat' first
    | with_reducible assumption
    | with_reducible apply Dev.setCtl_keeps
    | with_reducible apply Dev.pdStart_keeps
    | split
    | exact id
    | intro _
    | dsimp only
    | (with_reducible refine Dev.Keeps.of_pair (by with_reducible assumption) ?_)
    | exact (congrArg Memory.wf (Flash.pause_raw _ _)).trans (by assumption)
    | exact (congrArg Memory.wf (Flash.enqueue_raw _ _ _ _ _ _)).trans (by assumption)
    | exact (congrArg Memory.wf (Flash.resume_raw _ _)).trans (by assumption)
    | exact (congrArg Memory.wf (Flash.finishCopy_raw _)).trans (by assumption)

theorem Dev.unpark_keeps (w_nv : W .nv) (w_score : W .score) (w_pd : W .pd) {d : Dev} (h : d.Keeps W r₀) :
  (Dev.unpark d).Keeps W r₀ := by
  unfold Dev.unpark
  try dsimp only
  repeat' first
    | with_reducible assumption
    | with_reducible apply Dev.consumeMarker_keeps
    | with_reducible apply Dev.setScore_keeps
    | with_reducible apply Dev.setPd_keeps
    | split
    | exact id
    | intro _
    | dsimp only
    | (with_reducible refine Dev.Keeps.of_pair (by with_reducible assumption) ?_)
    | exact (congrArg Memory.wf (Flash.pause_raw _ _)).trans (by assumption)
    | exact (congrArg Memory.wf (Flash.enqueue_raw _ _ _ _ _ _)).trans (by assumption)
    | exact (congrArg Memory.wf (Flash.resume_raw _ _)).trans (by assumption)
    | exact (congrArg Memory.wf (Flash.finishCopy_raw _)).trans (by assumption)

theorem opResume_keeps (w_ctl : W .ctl) (w_port : W .port) (w_log : W .log) (w_par : W .par) (w_voices : W .voices) (w_tally : W .tally) (w_odo : W .odo) (w_conv : W .conv) (w_wave : W .wave) (w_nv : W .nv) (w_score : W .score) (w_chain : W .chain) (w_pd : W .pd) {d : Dev} (h : d.Keeps W r₀) :
  (opResume d).1.Keeps W r₀ := by
  unfold opResume
  try dsimp only
  repeat' first
    | with_reducible assumption
    | with_reducible apply Dev.forVoices_keeps
    | with_reducible apply Dev.withdraw_keeps
    | with_reducible apply Dev.toMode_keeps
    | with_reducible apply Dev.startWatchdog_keeps
    | with_reducible apply Dev.reconfigure_keeps
    | with_reducible apply Dev.unpark_keeps
    | split
    | with_reducible apply Dev.Keeps.par
    | with_reducible apply Dev.Keeps.voices
    | exact id
    | intro _
    | dsimp only
    | (with_reducible refine Dev.Keeps.of_pair (by with_reducible assumption) ?_)
    | exact (congrArg Memory.wf (Flash.pause_raw _ _)).trans (by assumption)
    | exact (congrArg Memory.wf (Flash.enqueue_raw _ _ _ _ _ _)).trans (by assumption)
    | exact (congrArg Memory.wf (Flash.resume_raw _ _)).trans (by assumption)
    | exact (congrArg Memory.wf (Flash.finishCopy_raw _)).trans (by assumption)

theorem opAcappella_keeps (w_ctl : W .ctl) (w_port : W .port) (w_log : W .log) (w_par : W .par) (w_voices : W .voices) (w_cues : W .cues) (w_tally : W .tally) (w_odo : W .odo) (w_conv : W .conv) (w_wave : W .wave) (w_nv : W .nv) (w_score : W .score) (w_chain : W .chain) (w_pd : W .pd) {d : Dev} (h : d.Keeps W r₀) :
  (opAcappella d).1.Keeps W r₀ := by
  unfold opAcappella
  try dsimp only
  repeat' first
    | with_reducible assumption
    | with_reducible apply Dev.enterAcappella_keeps
    | with_reducible apply Dev.unpark_keeps
    | split
    | exact id
    | intro _
    | dsimp only
    | (with_reducible refine Dev.Keeps.of_pair (by with_reducible assumption) ?_)
    | exact (congrArg Memory.wf (Flash.pause_raw _ _)).trans (by assumption)
    | exact (congrArg Memory.wf (Flash.enqueue_raw _ _ _ _ _ _)).trans (by assumption)
    | exact (congrArg Memory.wf (Flash.resume_raw _ _)).trans (by assumption)
    | exact (congrArg Memory.wf (Flash.finishCopy_raw _)).trans (by assumption)

end Sys2Proof.Machine
end

