-- ==== Sys2Proof/Laws/KeepsScore.lean ====
section
/-! SUPPORT. What each change of Score.lean keeps (Laws/Keeps.lean): which parts it may change, and that every form stays. -/

namespace Sys2Proof.Machine
open Sys2Proof

variable {W : Part → Prop} {r₀ : Dev}

theorem Dev.scoreEvents_keeps (w_port : W .port) (w_log : W .log) {d : Dev} (h : d.Keeps W r₀) (x : Score) :
  (Dev.scoreEvents d x).Keeps W r₀ := by
  unfold Dev.scoreEvents
  try dsimp only
  repeat' first
    | with_reducible assumption
    | with_reducible apply Dev.event_keeps
    | with_reducible apply Dev.tellAll_keeps
    | split
    | exact id
    | intro _
    | dsimp only
    | (with_reducible refine Dev.Keeps.of_pair (by with_reducible assumption) ?_)

theorem Dev.lateReply_keeps (w_port : W .port) (w_chain : W .chain) {d : Dev} (h : d.Keeps W r₀) (m : MailMsg) (a : Answer) :
  (Dev.lateReply d m a).Keeps W r₀ := by
  unfold Dev.lateReply
  try dsimp only
  repeat' first
    | with_reducible assumption
    | with_reducible apply Dev.replyNews_keeps
    | split
    | with_reducible apply Dev.Keeps.port
    | with_reducible apply Dev.Keeps.chain
    | with_reducible apply Dev.Keeps.port_chain
    | exact id
    | intro _
    | dsimp only
    | (with_reducible refine Dev.Keeps.of_pair (by with_reducible assumption) ?_)
    | (simp only [List.length_map]; assumption)
    | exact Nat.le_trans (List.length_filter_le _ _) (by assumption)
    | exact Nat.le_trans (by simp) (by assumption)
    | exact Nat.le_trans (by simp only [List.length_drop]; exact Nat.sub_le _ _) (by assumption)
    | exact Nat.zero_le _

theorem Dev.deliver_keeps (w_port : W .port) (w_link : W .link) (w_chain : W .chain) {d : Dev} (h : d.Keeps W r₀) (l : List MailAnswer) :
  (Dev.deliver d l).Keeps W r₀ := by
  unfold Dev.deliver
  try dsimp only
  repeat' first
    | with_reducible assumption
    | with_reducible apply Dev.lateReply_keeps
    | split
    | with_reducible apply Dev.Keeps.link
    | exact id
    | intro _
    | dsimp only
    | (with_reducible refine Dev.Keeps.of_pair (by with_reducible assumption) ?_)

theorem Dev.publish_keeps (w_ctl : W .ctl) (w_port : W .port) (w_log : W .log) (w_tally : W .tally) (w_odo : W .odo) (w_score : W .score) (w_link : W .link) (w_chain : W .chain) {d : Dev} (h : d.Keeps W r₀) :
  (Dev.publish d).Keeps W r₀ := by
  unfold Dev.publish
  try dsimp only
  repeat' first
    | with_reducible assumption
    | with_reducible apply Dev.linkBack_keeps
    | with_reducible apply Dev.setCtl_keeps
    | with_reducible apply Dev.scoreEvents_keeps
    | with_reducible apply Dev.deliver_keeps
    | split
    | with_reducible apply Dev.Keeps.score
    | with_reducible apply Dev.Keeps.link
    | with_reducible apply Dev.Keeps.score_link
    | exact id
    | intro _
    | dsimp only
    | (with_reducible refine Dev.Keeps.of_pair (by with_reducible assumption) ?_)

theorem Dev.scoreAbsent_keeps (w_time : W .time) (w_ctl : W .ctl) (w_port : W .port) (w_log : W .log) (w_voices : W .voices) (w_banks : W .banks) (w_staggers : W .staggers) (w_cues : W .cues) (w_tally : W .tally) (w_odo : W .odo) (w_sc : W .sc) (w_conv : W .conv) (w_wave : W .wave) (w_therm : W .therm) (w_nv : W .nv) (w_chain : W .chain) (w_slotOffs : W .slotOffs) (w_slotFaults : W .slotFaults) {d : Dev} (h : d.Keeps W r₀) :
  (Dev.scoreAbsent d).Keeps W r₀ := by
  unfold Dev.scoreAbsent
  try dsimp only
  repeat' first
    | with_reducible assumption
    | with_reducible apply Dev.linkDead_keeps
    | with_reducible apply Dev.setCtl_keeps
    | with_reducible apply Dev.loseTb_keeps
    | split
    | exact id
    | intro _
    | dsimp only
    | (with_reducible refine Dev.Keeps.of_pair (by with_reducible assumption) ?_)

theorem Dev.served_keeps (w_score : W .score) (w_link : W .link) {d : Dev} (h : d.Keeps W r₀) (m : MailMsg) (rest : List MailMsg) (y : Score) (a : Answer) :
  (Dev.served d m rest y a).Keeps W r₀ := by
  unfold Dev.served
  try dsimp only
  repeat' first
    | with_reducible assumption
    | split
    | with_reducible apply Dev.Keeps.score
    | with_reducible apply Dev.Keeps.link
    | with_reducible apply Dev.Keeps.score_link
    | exact id
    | intro _
    | dsimp only
    | (with_reducible refine Dev.Keeps.of_pair (by with_reducible assumption) ?_)

theorem Dev.servedCut_keeps (w_tally : W .tally) (w_odo : W .odo) (w_score : W .score) (w_link : W .link) {d : Dev} (h : d.Keeps W r₀) (m : MailMsg) (rest : List MailMsg) (y : Score) (written : Nat) (logged : Bool) :
  (Dev.servedCut d m rest y written logged).Keeps W r₀ := by
  unfold Dev.servedCut
  try dsimp only
  repeat' first
    | with_reducible assumption
    | with_reducible apply Dev.linkDead_keeps
    | split
    | with_reducible apply Dev.Keeps.score
    | with_reducible apply Dev.Keeps.link
    | with_reducible apply Dev.Keeps.score_link
    | exact id
    | intro _
    | dsimp only
    | (with_reducible refine Dev.Keeps.of_pair (by with_reducible assumption) ?_)

theorem Dev.mail_keeps (w_link : W .link) {d : Dev} (h : d.Keeps W r₀) (snap : Dev) (p : Packet) (viaChain : Bool) :
  (Dev.mail d snap p viaChain).1.Keeps W r₀ := by
  unfold Dev.mail
  try dsimp only
  repeat' first
    | with_reducible assumption
    | split
    | with_reducible apply Dev.Keeps.link
    | exact id
    | intro _
    | dsimp only
    | (with_reducible refine Dev.Keeps.of_pair (by with_reducible assumption) ?_)

end Sys2Proof.Machine
end

