-- ==== Sys2Proof/Laws/KeepsPacket.lean ====
section
/-! SUPPORT. What each change of Packet.lean keeps (Laws/Keeps.lean): which parts it may change, and that every form stays. -/

namespace Sys2Proof.Machine
open Sys2Proof

variable {W : Part → Prop} {r₀ : Dev}

theorem reads_keeps {d : Dev} (h : d.Keeps W r₀) (a : Answer) :
  (reads d a).1.Keeps W r₀ := by
  unfold reads
  try dsimp only
  repeat' first
    | with_reducible assumption
    | split
    | exact id
    | intro _
    | dsimp only
    | (with_reducible refine Dev.Keeps.of_pair (by with_reducible assumption) ?_)

theorem acts_keeps {r : Dev × Answer} (h : r.1.Keeps W r₀) :
  (acts r).1.Keeps W r₀ := by
  unfold acts
  try dsimp only
  repeat' first
    | with_reducible assumption
    | split
    | exact id
    | intro _
    | dsimp only
    | (with_reducible refine Dev.Keeps.of_pair (by with_reducible assumption) ?_)

theorem Dev.perform_keeps (w_time : W .time) (w_ctl : W .ctl) (w_ka : W .ka) (w_port : W .port) (w_log : W .log) (w_par : W .par) (w_voices : W .voices) (w_banks : W .banks) (w_staggers : W .staggers) (w_lh : W .lh) (w_cues : W .cues) (w_tally : W .tally) (w_odo : W .odo) (w_sc : W .sc) (w_conv : W .conv) (w_wave : W .wave) (w_therm : W .therm) (w_nv : W .nv) (w_score : W .score) (w_link : W .link) (w_chain : W .chain) (w_patch : W .patch) (w_pd : W .pd) (w_slotOffs : W .slotOffs) (w_slotFaults : W .slotFaults) (w_edges : W .edges) {d : Dev} (h : d.Keeps W r₀) (snap : Dev) (p : Packet) (viaChain : Bool) :
  (Dev.perform snap d p viaChain).1.Keeps W r₀ := by
  unfold Dev.perform
  try dsimp only
  repeat' first
    | with_reducible assumption
    | with_reducible apply opNvProgram_keeps
    | with_reducible apply opNvErase_keeps
    | with_reducible apply opNvProtect_keeps
    | with_reducible apply opRecWrite_keeps
    | with_reducible apply opRecDelete_keeps
    | with_reducible apply opConvertNow_keeps
    | with_reducible apply opEngineCtrl_keeps
    | with_reducible apply opReadBuffer_keeps
    | with_reducible apply opWaveCtrl_keeps
    | with_reducible apply opVoiceClearFault_keeps
    | with_reducible apply opVoiceRetire_keeps
    | with_reducible apply opBankCut_keeps
    | with_reducible apply opSoundcheckRun_keeps
    | with_reducible apply opVoiceSet_keeps
    | with_reducible apply opVoiceDuty_keeps
    | with_reducible apply opCueAdd_keeps
    | with_reducible apply opCueCancel_keeps
    | with_reducible apply opCueStats_keeps
    | with_reducible apply opOdometerRebase_keeps
    | with_reducible apply opTallyRead_keeps
    | with_reducible apply opThrottleAck_keeps
    | with_reducible apply opAnchorBlip_keeps
    | with_reducible apply Dev.mail_keeps
    | with_reducible apply opPark_keeps
    | with_reducible apply opResume_keeps
    | with_reducible apply opAcappella_keeps
    | with_reducible apply opSoftReset_keeps
    | with_reducible apply opEventAck_keeps
    | with_reducible apply opParamWrite_keeps
    | with_reducible apply opParamWriteLive_keeps
    | with_reducible apply opConduct_keeps
    | with_reducible apply opPatchLoad_keeps
    | with_reducible apply opEnumerate_keeps
    | with_reducible apply opChainRing_keeps
    | with_reducible apply opBreathCtrl_keeps
    | with_reducible apply opChainStatus_keeps
    | with_reducible apply reads_keeps
    | with_reducible apply acts_keeps
    | split
    | exact id
    | intro _
    | dsimp only
    | (with_reducible refine Dev.Keeps.of_pair (by with_reducible assumption) ?_)

theorem Dev.execute_keeps (w_time : W .time) (w_ctl : W .ctl) (w_ka : W .ka) (w_port : W .port) (w_log : W .log) (w_par : W .par) (w_voices : W .voices) (w_banks : W .banks) (w_staggers : W .staggers) (w_lh : W .lh) (w_cues : W .cues) (w_tally : W .tally) (w_odo : W .odo) (w_sc : W .sc) (w_conv : W .conv) (w_wave : W .wave) (w_therm : W .therm) (w_nv : W .nv) (w_score : W .score) (w_link : W .link) (w_chain : W .chain) (w_patch : W .patch) (w_pd : W .pd) (w_slotOffs : W .slotOffs) (w_slotFaults : W .slotFaults) (w_edges : W .edges) {d : Dev} (h : d.Keeps W r₀) (snap : Dev) (p : Packet) (viaChain : Bool) :
  (Dev.execute snap d p viaChain).1.Keeps W r₀ := by
  unfold Dev.execute
  try dsimp only
  repeat' first
    | with_reducible assumption
    | with_reducible apply Dev.perform_keeps
    | split
    | exact id
    | intro _
    | dsimp only
    | (with_reducible refine Dev.Keeps.of_pair (by with_reducible assumption) ?_)

theorem Dev.keepPatchStatus_keeps (w_patch : W .patch) {d : Dev} (h : d.Keeps W r₀) (p : Packet) (a : Answer) :
  (Dev.keepPatchStatus d p a).Keeps W r₀ := by
  unfold Dev.keepPatchStatus
  try dsimp only
  repeat' first
    | with_reducible assumption
    | with_reducible apply Dev.setPatch_keeps
    | split
    | exact id
    | intro _
    | dsimp only
    | (with_reducible refine Dev.Keeps.of_pair (by with_reducible assumption) ?_)

theorem Dev.finish_keeps (w_port : W .port) (w_chain : W .chain) (w_patch : W .patch) {r : Dev × Option Answer} (h : r.1.Keeps W r₀) (news : Bool) (viaChain : Bool) (p : Packet) :
  (Dev.finish r news viaChain p).Keeps W r₀ := by
  unfold Dev.finish
  try dsimp only
  repeat' first
    | with_reducible assumption
    | with_reducible apply Dev.answer_keeps
    | with_reducible apply Dev.keepPatchStatus_keeps
    | split
    | exact id
    | intro _
    | dsimp only
    | (with_reducible refine Dev.Keeps.of_pair (by with_reducible assumption) ?_)

theorem Dev.countAccepted_keeps (w_port : W .port) {d : Dev} (h : d.Keeps W r₀) (viaChain : Bool) (a : Option Answer) :
  (Dev.countAccepted d viaChain a).Keeps W r₀ := by
  unfold Dev.countAccepted
  try dsimp only
  repeat' first
    | with_reducible assumption
    | split
    | with_reducible apply Dev.Keeps.port
    | exact id
    | intro _
    | dsimp only
    | (with_reducible refine Dev.Keeps.of_pair (by with_reducible assumption) ?_)
    | (simp only [List.length_map]; assumption)
    | exact Nat.le_trans (List.length_filter_le _ _) (by assumption)
    | exact Nat.le_trans (by simp) (by assumption)
    | exact Nat.le_trans (by simp only [List.length_drop]; exact Nat.sub_le _ _) (by assumption)
    | exact Nat.zero_le _

theorem Dev.takeOwn_keeps (w_time : W .time) (w_ctl : W .ctl) (w_ka : W .ka) (w_port : W .port) (w_log : W .log) (w_par : W .par) (w_voices : W .voices) (w_banks : W .banks) (w_staggers : W .staggers) (w_lh : W .lh) (w_cues : W .cues) (w_tally : W .tally) (w_odo : W .odo) (w_sc : W .sc) (w_conv : W .conv) (w_wave : W .wave) (w_therm : W .therm) (w_nv : W .nv) (w_score : W .score) (w_link : W .link) (w_chain : W .chain) (w_patch : W .patch) (w_pd : W .pd) (w_slotOffs : W .slotOffs) (w_slotFaults : W .slotFaults) (w_edges : W .edges) {d : Dev} (h : d.Keeps W r₀) (snap : Dev) (p : Packet) (viaChain : Bool) :
  (Dev.takeOwn snap d p viaChain).Keeps W r₀ := by
  unfold Dev.takeOwn
  try dsimp only
  repeat' first
    | with_reducible assumption
    | with_reducible apply Dev.answer_keeps
    | with_reducible apply Dev.execute_keeps
    | with_reducible apply Dev.finish_keeps
    | with_reducible apply Dev.countAccepted_keeps
    | split
    | with_reducible apply Dev.Keeps.port
    | exact id
    | intro _
    | dsimp only
    | (with_reducible refine Dev.Keeps.of_pair (by with_reducible assumption) ?_)
    | (simp only [List.length_map]; assumption)
    | exact Nat.le_trans (List.length_filter_le _ _) (by assumption)
    | exact Nat.le_trans (by simp) (by assumption)
    | exact Nat.le_trans (by simp only [List.length_drop]; exact Nat.sub_le _ _) (by assumption)
    | exact Nat.zero_le _

theorem Dev.takePacket_keeps (w_time : W .time) (w_ctl : W .ctl) (w_ka : W .ka) (w_port : W .port) (w_log : W .log) (w_par : W .par) (w_voices : W .voices) (w_banks : W .banks) (w_staggers : W .staggers) (w_lh : W .lh) (w_cues : W .cues) (w_tally : W .tally) (w_odo : W .odo) (w_sc : W .sc) (w_conv : W .conv) (w_wave : W .wave) (w_therm : W .therm) (w_nv : W .nv) (w_score : W .score) (w_link : W .link) (w_chain : W .chain) (w_patch : W .patch) (w_pd : W .pd) (w_slotOffs : W .slotOffs) (w_slotFaults : W .slotFaults) (w_edges : W .edges) {d : Dev} (h : d.Keeps W r₀) (snap : Dev) (p : Packet) :
  (Dev.takePacket snap d p).Keeps W r₀ := by
  unfold Dev.takePacket
  try dsimp only
  repeat' first
    | with_reducible assumption
    | with_reducible apply Dev.modBar_keeps
    | with_reducible apply Dev.forward_keeps
    | with_reducible apply Dev.answer_keeps
    | with_reducible apply Dev.takeOwn_keeps
    | split
    | exact id
    | intro _
    | dsimp only
    | (with_reducible refine Dev.Keeps.of_pair (by with_reducible assumption) ?_)

theorem Dev.takeAll_keeps (w_time : W .time) (w_ctl : W .ctl) (w_ka : W .ka) (w_port : W .port) (w_log : W .log) (w_par : W .par) (w_voices : W .voices) (w_banks : W .banks) (w_staggers : W .staggers) (w_lh : W .lh) (w_cues : W .cues) (w_tally : W .tally) (w_odo : W .odo) (w_sc : W .sc) (w_conv : W .conv) (w_wave : W .wave) (w_therm : W .therm) (w_nv : W .nv) (w_score : W .score) (w_link : W .link) (w_chain : W .chain) (w_patch : W .patch) (w_pd : W .pd) (w_slotOffs : W .slotOffs) (w_slotFaults : W .slotFaults) (w_edges : W .edges) {d : Dev} (h : d.Keeps W r₀) (snap : Dev) (a0 : List Packet) :
  (Dev.takeAll snap d a0).Keeps W r₀ := by
  induction a0 generalizing d with
  | nil => exact h
  | cons p rest ih =>
    unfold Dev.takeAll
    dsimp only
    have h1 : (Dev.takePacket snap d p).Keeps W r₀ := by
      apply Dev.takePacket_keeps <;> assumption
    split
    · exact h1
    · exact ih h1

theorem Dev.commitBar_keeps (w_time : W .time) (w_ctl : W .ctl) (w_ka : W .ka) (w_port : W .port) (w_log : W .log) (w_par : W .par) (w_voices : W .voices) (w_banks : W .banks) (w_staggers : W .staggers) (w_lh : W .lh) (w_cues : W .cues) (w_tally : W .tally) (w_odo : W .odo) (w_sc : W .sc) (w_conv : W .conv) (w_wave : W .wave) (w_therm : W .therm) (w_nv : W .nv) (w_score : W .score) (w_link : W .link) (w_chain : W .chain) (w_patch : W .patch) (w_pd : W .pd) (w_slotOffs : W .slotOffs) (w_slotFaults : W .slotFaults) (w_edges : W .edges) {d : Dev} (h : d.Keeps W r₀) (snap : Dev) (barNo : Nat) (ps : List Packet) (lost : Option Reply) :
  (Dev.commitBar snap d barNo ps lost).Keeps W r₀ := by
  unfold Dev.commitBar
  try dsimp only
  repeat' first
    | with_reducible assumption
    | with_reducible apply Dev.reply_keeps
    | with_reducible apply Dev.openBar_keeps
    | with_reducible apply Dev.takeAll_keeps
    | split
    | with_reducible apply Dev.Keeps.port
    | exact id
    | intro _
    | dsimp only
    | (with_reducible refine Dev.Keeps.of_pair (by with_reducible assumption) ?_)
    | (simp only [List.length_map]; assumption)
    | exact Nat.le_trans (List.length_filter_le _ _) (by assumption)
    | exact Nat.le_trans (by simp) (by assumption)
    | exact Nat.le_trans (by simp only [List.length_drop]; exact Nat.sub_le _ _) (by assumption)
    | exact Nat.zero_le _

end Sys2Proof.Machine
end

