-- ==== Sys2Proof/Laws/KeepsChain.lean ====
section
/-! SUPPORT. What each change of Chain.lean keeps (Laws/Keeps.lean): which parts it may change, and that every form stays. -/

namespace Sys2Proof.Machine
open Sys2Proof

variable {W : Part → Prop} {r₀ : Dev}

theorem Dev.modPort_keeps (w_chain : W .chain) {d : Dev} (h : d.Keeps W r₀) (k : Fin 2) (f : ChainPort → ChainPort) :
  (Dev.modPort d k f).Keeps W r₀ := by
  unfold Dev.modPort
  try dsimp only
  repeat' first
    | with_reducible assumption
    | with_reducible apply Dev.setChain_keeps
    | split
    | exact id
    | intro _
    | dsimp only
    | (with_reducible refine Dev.Keeps.of_pair (by with_reducible assumption) ?_)

theorem Dev.goodFrame_keeps (w_port : W .port) (w_log : W .log) (w_chain : W .chain) {d : Dev} (h : d.Keeps W r₀) (k : Fin 2) :
  (Dev.goodFrame d k).Keeps W r₀ := by
  unfold Dev.goodFrame
  try dsimp only
  repeat' first
    | with_reducible assumption
    | with_reducible apply Dev.event_keeps
    | with_reducible apply Dev.modPort_keeps
    | split
    | exact id
    | intro _
    | dsimp only
    | (with_reducible refine Dev.Keeps.of_pair (by with_reducible assumption) ?_)

theorem Dev.badFrame_keeps (w_chain : W .chain) {d : Dev} (h : d.Keeps W r₀) (k : Fin 2) :
  (Dev.badFrame d k).Keeps W r₀ := by
  unfold Dev.badFrame
  try dsimp only
  repeat' first
    | with_reducible assumption
    | with_reducible apply Dev.modPort_keeps
    | split
    | exact id
    | intro _
    | dsimp only
    | (with_reducible refine Dev.Keeps.of_pair (by with_reducible assumption) ?_)

theorem Dev.splitRing_keeps (w_port : W .port) (w_log : W .log) (w_chain : W .chain) {d : Dev} (h : d.Keeps W r₀) :
  (Dev.splitRing d).Keeps W r₀ := by
  unfold Dev.splitRing
  try dsimp only
  repeat' first
    | with_reducible assumption
    | with_reducible apply Dev.event_keeps
    | with_reducible apply Dev.setChain_keeps
    | with_reducible apply Dev.followBreak_keeps
    | split
    | exact id
    | intro _
    | dsimp only
    | (with_reducible refine Dev.Keeps.of_pair (by with_reducible assumption) ?_)

theorem Dev.portDown_keeps (w_port : W .port) (w_log : W .log) (w_chain : W .chain) {d : Dev} (h : d.Keeps W r₀) (k : Fin 2) :
  (Dev.portDown d k).Keeps W r₀ := by
  unfold Dev.portDown
  try dsimp only
  repeat' first
    | with_reducible assumption
    | with_reducible apply Dev.event_keeps
    | with_reducible apply Dev.modPort_keeps
    | with_reducible apply Dev.splitRing_keeps
    | split
    | exact id
    | intro _
    | dsimp only
    | (with_reducible refine Dev.Keeps.of_pair (by with_reducible assumption) ?_)

theorem Dev.takeTokens_keeps (w_chain : W .chain) {d : Dev} (h : d.Keeps W r₀) (n : Nat) (k : Nat) :
  (Dev.takeTokens d n k).Keeps W r₀ := by
  unfold Dev.takeTokens
  try dsimp only
  repeat' first
    | with_reducible assumption
    | with_reducible apply Dev.returnDomain_keeps
    | with_reducible apply Dev.syncDomain_keeps
    | with_reducible apply Dev.setChain_keeps
    | split
    | exact id
    | intro _
    | dsimp only
    | (with_reducible refine Dev.Keeps.of_pair (by with_reducible assumption) ?_)

theorem Dev.gatherBreath_keeps (w_chain : W .chain) {d : Dev} (h : d.Keeps W r₀) :
  (Dev.gatherBreath d).1.Keeps W r₀ := by
  unfold Dev.gatherBreath
  try dsimp only
  repeat' first
    | with_reducible assumption
    | with_reducible apply Dev.syncDomain_keeps
    | with_reducible apply Dev.setChain_keeps
    | split
    | exact id
    | intro _
    | dsimp only
    | (with_reducible refine Dev.Keeps.of_pair (by with_reducible assumption) ?_)

theorem Dev.sendBreath_keeps (w_chain : W .chain) {d : Dev} (h : d.Keeps W r₀) :
  (Dev.sendBreath d).1.Keeps W r₀ := by
  unfold Dev.sendBreath
  try dsimp only
  repeat' first
    | with_reducible assumption
    | with_reducible apply Dev.setChain_keeps
    | with_reducible apply Dev.gatherBreath_keeps
    | split
    | exact id
    | intro _
    | dsimp only
    | (with_reducible refine Dev.Keeps.of_pair (by with_reducible assumption) ?_)

theorem Dev.grantDomain_keeps (w_chain : W .chain) {acc : Dev × List Grant} (h : acc.1.Keeps W r₀) (own : Tab Nat 15) (e : BreathEntry) :
  (Dev.grantDomain own acc e).1.Keeps W r₀ := by
  unfold Dev.grantDomain
  try dsimp only
  repeat' first
    | with_reducible assumption
    | with_reducible apply Dev.setChain_keeps
    | with_reducible apply Dev.takeTokens_keeps
    | split
    | exact id
    | intro _
    | dsimp only
    | (with_reducible refine Dev.Keeps.of_pair (by with_reducible assumption) ?_)

theorem Dev.grantMeasure_keeps (w_chain : W .chain) {d : Dev} (h : d.Keeps W r₀) :
  (Dev.grantMeasure d).1.Keeps W r₀ := by
  unfold Dev.grantMeasure
  try dsimp only
  repeat' first
    | with_reducible assumption
    | with_reducible apply Dev.syncDomain_keeps
    | with_reducible apply Dev.setChain_keeps
    | with_reducible apply Dev.gatherBreath_keeps
    | with_reducible apply Dev.grantDomain_keeps
    | split
    | with_reducible apply Dev.Keeps.foldl
    | with_reducible apply Dev.Keeps.foldl_pair
    | exact id
    | intro _
    | dsimp only
    | (with_reducible refine Dev.Keeps.of_pair (by with_reducible assumption) ?_)

theorem Dev.countMeasure_keeps (w_chain : W .chain) {d : Dev} (h : d.Keeps W r₀) :
  (Dev.countMeasure d).Keeps W r₀ := by
  unfold Dev.countMeasure
  try dsimp only
  repeat' first
    | with_reducible assumption
    | with_reducible apply Dev.setChain_keeps
    | split
    | exact id
    | intro _
    | dsimp only
    | (with_reducible refine Dev.Keeps.of_pair (by with_reducible assumption) ?_)

theorem Dev.precentorMeasure_keeps (w_chain : W .chain) {d : Dev} (h : d.Keeps W r₀) :
  (Dev.precentorMeasure d).Keeps W r₀ := by
  unfold Dev.precentorMeasure
  try dsimp only
  repeat' first
    | with_reducible assumption
    | with_reducible apply Dev.setChain_keeps
    | with_reducible apply Dev.grantMeasure_keeps
    | with_reducible apply Dev.countMeasure_keeps
    | split
    | exact id
    | intro _
    | dsimp only
    | (with_reducible refine Dev.Keeps.of_pair (by with_reducible assumption) ?_)

theorem Dev.sendUp_keeps (w_chain : W .chain) {d : Dev} (h : d.Keeps W r₀) :
  (Dev.sendUp d).Keeps W r₀ := by
  unfold Dev.sendUp
  try dsimp only
  repeat' first
    | with_reducible assumption
    | with_reducible apply Dev.setChain_keeps
    | with_reducible apply Dev.sendBreath_keeps
    | split
    | exact id
    | intro _
    | dsimp only
    | (with_reducible refine Dev.Keeps.of_pair (by with_reducible assumption) ?_)

theorem Dev.loseAddr_keeps (w_port : W .port) (w_chain : W .chain) {d : Dev} (h : d.Keeps W r₀) :
  (Dev.loseAddr d).Keeps W r₀ := by
  unfold Dev.loseAddr
  try dsimp only
  repeat' first
    | with_reducible assumption
    | with_reducible apply Dev.setChain_keeps
    | with_reducible apply Dev.dropPending_keeps
    | split
    | exact id
    | intro _
    | dsimp only
    | (with_reducible refine Dev.Keeps.of_pair (by with_reducible assumption) ?_)

theorem Dev.follow_keeps (w_port : W .port) (w_log : W .log) (w_chain : W .chain) {d : Dev} (h : d.Keeps W r₀) (f : DownFrame) :
  (Dev.follow d f).Keeps W r₀ := by
  unfold Dev.follow
  try dsimp only
  repeat' first
    | with_reducible assumption
    | with_reducible apply Dev.event_keeps
    | with_reducible apply Dev.setChain_keeps
    | with_reducible apply Dev.loseAddr_keeps
    | split
    | exact id
    | intro _
    | dsimp only
    | (with_reducible refine Dev.Keeps.of_pair (by with_reducible assumption) ?_)

theorem Dev.steer_keeps (w_time : W .time) (w_port : W .port) (w_log : W .log) (w_cues : W .cues) (w_tally : W .tally) (w_odo : W .odo) (w_chain : W .chain) {d : Dev} (h : d.Keeps W r₀) (f : DownFrame) :
  (Dev.steer d f).Keeps W r₀ := by
  unfold Dev.steer
  try dsimp only
  repeat' first
    | with_reducible assumption
    | with_reducible apply Dev.event_keeps
    | with_reducible apply Dev.shiftTimes_keeps
    | with_reducible apply Dev.setChain_keeps
    | split
    | with_reducible apply Dev.Keeps.time
    | with_reducible apply Dev.Keeps.chain
    | with_reducible apply Dev.Keeps.time_chain
    | exact id
    | intro _
    | dsimp only
    | (with_reducible refine Dev.Keeps.of_pair (by with_reducible assumption) ?_)

theorem Dev.takeChain_keeps (w_time : W .time) (w_ctl : W .ctl) (w_ka : W .ka) (w_port : W .port) (w_log : W .log) (w_par : W .par) (w_voices : W .voices) (w_banks : W .banks) (w_staggers : W .staggers) (w_lh : W .lh) (w_cues : W .cues) (w_tally : W .tally) (w_odo : W .odo) (w_sc : W .sc) (w_conv : W .conv) (w_wave : W .wave) (w_therm : W .therm) (w_nv : W .nv) (w_score : W .score) (w_link : W .link) (w_chain : W .chain) (w_patch : W .patch) (w_pd : W .pd) (w_slotOffs : W .slotOffs) (w_slotFaults : W .slotFaults) (w_edges : W .edges) {d : Dev} (h : d.Keeps W r₀) (snap : Dev) (a0 : List Packet) :
  (Dev.takeChain snap d a0).Keeps W r₀ := by
  induction a0 generalizing d with
  | nil => exact h
  | cons p rest ih =>
    unfold Dev.takeChain
    dsimp only
    have h1 : (Dev.takeOwn snap d p true).Keeps W r₀ := by
      apply Dev.takeOwn_keeps <;> assumption
    split
    · exact h1
    · exact ih h1

theorem Dev.chainCommit_keeps (w_time : W .time) (w_ctl : W .ctl) (w_ka : W .ka) (w_port : W .port) (w_log : W .log) (w_par : W .par) (w_voices : W .voices) (w_banks : W .banks) (w_staggers : W .staggers) (w_lh : W .lh) (w_cues : W .cues) (w_tally : W .tally) (w_odo : W .odo) (w_sc : W .sc) (w_conv : W .conv) (w_wave : W .wave) (w_therm : W .therm) (w_nv : W .nv) (w_score : W .score) (w_link : W .link) (w_chain : W .chain) (w_patch : W .patch) (w_pd : W .pd) (w_slotOffs : W .slotOffs) (w_slotFaults : W .slotFaults) (w_edges : W .edges) {d : Dev} (h : d.Keeps W r₀) (barNo : Nat) :
  (Dev.chainCommit d barNo).Keeps W r₀ := by
  unfold Dev.chainCommit
  try dsimp only
  repeat' first
    | with_reducible assumption
    | with_reducible apply Dev.startWatchdog_keeps
    | with_reducible apply Dev.setChain_keeps
    | with_reducible apply Dev.takeChain_keeps
    | split
    | with_reducible apply Dev.Keeps.port
    | exact id
    | intro _
    | dsimp only
    | (with_reducible refine Dev.Keeps.of_pair (by with_reducible assumption) ?_)
    | (simp only [List.length_map]; assumption)
    | exact Nat.le_trans (List.length_filter_le _ _) (by assumption)
    | exact Nat.le_trans (by simp) (by assumption)
    | exact Nat.le_trans (by simp only [List.length_drop]; exact Nat.sub_le _ _) (by assumption)
    | exact Nat.zero_le _

theorem Dev.sendOn_keeps (w_chain : W .chain) {d : Dev} (h : d.Keeps W r₀) (f : DownFrame) (out : Fin 2) :
  (Dev.sendOn d f out).Keeps W r₀ := by
  unfold Dev.sendOn
  try dsimp only
  repeat' first
    | with_reducible assumption
    | with_reducible apply Dev.setChain_keeps
    | split
    | exact id
    | intro _
    | dsimp only
    | (with_reducible refine Dev.Keeps.of_pair (by with_reducible assumption) ?_)

theorem Dev.receiveDown_keeps (w_time : W .time) (w_ctl : W .ctl) (w_ka : W .ka) (w_port : W .port) (w_log : W .log) (w_par : W .par) (w_voices : W .voices) (w_banks : W .banks) (w_staggers : W .staggers) (w_lh : W .lh) (w_cues : W .cues) (w_tally : W .tally) (w_odo : W .odo) (w_sc : W .sc) (w_conv : W .conv) (w_wave : W .wave) (w_therm : W .therm) (w_nv : W .nv) (w_score : W .score) (w_link : W .link) (w_chain : W .chain) (w_patch : W .patch) (w_pd : W .pd) (w_slotOffs : W .slotOffs) (w_slotFaults : W .slotFaults) (w_edges : W .edges) {d : Dev} (h : d.Keeps W r₀) (k : Fin 2) (f : DownFrame) :
  (Dev.receiveDown d k f).Keeps W r₀ := by
  unfold Dev.receiveDown
  try dsimp only
  repeat' first
    | with_reducible assumption
    | with_reducible apply Dev.setChain_keeps
    | with_reducible apply Dev.goodFrame_keeps
    | with_reducible apply Dev.takeTokens_keeps
    | with_reducible apply Dev.countMeasure_keeps
    | with_reducible apply Dev.sendUp_keeps
    | with_reducible apply Dev.follow_keeps
    | with_reducible apply Dev.steer_keeps
    | with_reducible apply Dev.chainCommit_keeps
    | with_reducible apply Dev.sendOn_keeps
    | split
    | with_reducible apply Dev.Keeps.foldl
    | with_reducible apply Dev.Keeps.foldl_pair
    | with_reducible apply Dev.Keeps.time
    | exact id
    | intro _
    | dsimp only
    | (with_reducible refine Dev.Keeps.of_pair (by with_reducible assumption) ?_)

theorem Dev.receiveBad_keeps (w_chain : W .chain) {d : Dev} (h : d.Keeps W r₀) (k : Fin 2) (f : DownFrame) :
  (Dev.receiveBad d k f).Keeps W r₀ := by
  unfold Dev.receiveBad
  try dsimp only
  repeat' first
    | with_reducible assumption
    | with_reducible apply Dev.setChain_keeps
    | with_reducible apply Dev.badFrame_keeps
    | with_reducible apply Dev.sendOn_keeps
    | split
    | exact id
    | intro _
    | dsimp only
    | (with_reducible refine Dev.Keeps.of_pair (by with_reducible assumption) ?_)

theorem Dev.downAtDevice_keeps (w_time : W .time) (w_ctl : W .ctl) (w_ka : W .ka) (w_port : W .port) (w_log : W .log) (w_par : W .par) (w_voices : W .voices) (w_banks : W .banks) (w_staggers : W .staggers) (w_lh : W .lh) (w_cues : W .cues) (w_tally : W .tally) (w_odo : W .odo) (w_sc : W .sc) (w_conv : W .conv) (w_wave : W .wave) (w_therm : W .therm) (w_nv : W .nv) (w_score : W .score) (w_link : W .link) (w_chain : W .chain) (w_patch : W .patch) (w_pd : W .pd) (w_slotOffs : W .slotOffs) (w_slotFaults : W .slotFaults) (w_edges : W .edges) {d : Dev} (h : d.Keeps W r₀) (k : Fin 2) (f : DownFrame) :
  (Dev.downAtDevice d k f).Keeps W r₀ := by
  unfold Dev.downAtDevice
  try dsimp only
  repeat' first
    | with_reducible assumption
    | with_reducible apply Dev.setChain_keeps
    | with_reducible apply Dev.goodFrame_keeps
    | with_reducible apply Dev.badFrame_keeps
    | with_reducible apply Dev.receiveDown_keeps
    | with_reducible apply Dev.receiveBad_keeps
    | split
    | exact id
    | intro _
    | dsimp only
    | (with_reducible refine Dev.Keeps.of_pair (by with_reducible assumption) ?_)

theorem Dev.downAtHead_keeps (w_port : W .port) (w_log : W .log) (w_chain : W .chain) {d : Dev} (h : d.Keeps W r₀) (k : Fin 2) (f : DownFrame) :
  (Dev.downAtHead d k f).Keeps W r₀ := by
  unfold Dev.downAtHead
  try dsimp only
  repeat' first
    | with_reducible assumption
    | with_reducible apply Dev.event_keeps
    | with_reducible apply Dev.setChain_keeps
    | with_reducible apply Dev.goodFrame_keeps
    | with_reducible apply Dev.badFrame_keeps
    | split
    | exact id
    | intro _
    | dsimp only
    | (with_reducible refine Dev.Keeps.of_pair (by with_reducible assumption) ?_)

theorem Dev.downNoCode_keeps (w_chain : W .chain) {d : Dev} (h : d.Keeps W r₀) (k : Fin 2) (f : DownFrame) :
  (Dev.downNoCode d k f).Keeps W r₀ := by
  unfold Dev.downNoCode
  try dsimp only
  repeat' first
    | with_reducible assumption
    | with_reducible apply Dev.sendOn_keeps
    | split
    | exact id
    | intro _
    | dsimp only
    | (with_reducible refine Dev.Keeps.of_pair (by with_reducible assumption) ?_)

theorem Dev.arrive_keeps (w_port : W .port) (w_chain : W .chain) {d : Dev} (h : d.Keeps W r₀) (b : List Byte) :
  (Dev.arrive d b).Keeps W r₀ := by
  unfold Dev.arrive
  try dsimp only
  repeat' first
    | with_reducible assumption
    | with_reducible apply Dev.replyNews_keeps
    | with_reducible apply Dev.setChain_keeps
    | split
    | with_reducible apply Dev.Keeps.port
    | exact id
    | intro _
    | dsimp only
    | (with_reducible refine Dev.Keeps.of_pair (by with_reducible assumption) ?_)
    | (simp only [List.length_map]; assumption)
    | exact Nat.le_trans (List.length_filter_le _ _) (by assumption)
    | exact Nat.le_trans (by simp) (by assumption)
    | exact Nat.le_trans (by simp only [List.length_drop]; exact Nat.sub_le _ _) (by assumption)
    | exact Nat.zero_le _

theorem Dev.takeUpSegment_keeps (w_port : W .port) (w_chain : W .chain) {d : Dev} (h : d.Keeps W r₀) (f : UpFrame) :
  (Dev.takeUpSegment d f).Keeps W r₀ := by
  unfold Dev.takeUpSegment
  try dsimp only
  repeat' first
    | with_reducible assumption
    | with_reducible apply Dev.setChain_keeps
    | with_reducible apply Dev.arrive_keeps
    | split
    | with_reducible apply Dev.Keeps.foldl
    | with_reducible apply Dev.Keeps.foldl_pair
    | exact id
    | intro _
    | dsimp only
    | (with_reducible refine Dev.Keeps.of_pair (by with_reducible assumption) ?_)

theorem Dev.receiveUp_keeps (w_port : W .port) (w_log : W .log) (w_chain : W .chain) {d : Dev} (h : d.Keeps W r₀) (k : Fin 2) (f : UpFrame) (linkTicks : Nat) :
  (Dev.receiveUp d k f linkTicks).Keeps W r₀ := by
  unfold Dev.receiveUp
  try dsimp only
  repeat' first
    | with_reducible assumption
    | with_reducible apply Dev.setChain_keeps
    | with_reducible apply Dev.followBreak_keeps
    | with_reducible apply Dev.modPort_keeps
    | with_reducible apply Dev.goodFrame_keeps
    | with_reducible apply Dev.takeUpSegment_keeps
    | split
    | exact id
    | intro _
    | dsimp only
    | (with_reducible refine Dev.Keeps.of_pair (by with_reducible assumption) ?_)

end Sys2Proof.Machine
end

