-- ==== Sys2Proof/Laws/KeepsHostPort.lean ====
section
/-! SUPPORT. What each change of HostPort.lean keeps (Laws/Keeps.lean): which parts it may change, and that every form stays. -/

namespace Sys2Proof.Machine
open Sys2Proof

variable {W : Part → Prop} {r₀ : Dev}

theorem Dev.watchdogExpire_keeps (w_ctl : W .ctl) (w_port : W .port) (w_log : W .log) (w_voices : W .voices) (w_cues : W .cues) (w_chain : W .chain) (w_slotOffs : W .slotOffs) {d : Dev} (h : d.Keeps W r₀) :
  (Dev.watchdogExpire d).Keeps W r₀ := by
  unfold Dev.watchdogExpire
  try dsimp only
  repeat' first
    | with_reducible assumption
    | with_reducible apply Dev.event_keeps
    | with_reducible apply Dev.enterFallback_keeps
    | split
    | exact id
    | intro _
    | dsimp only
    | (with_reducible refine Dev.Keeps.of_pair (by with_reducible assumption) ?_)

theorem dropShown_length (shown : List Reply) (k : Nat) (q : List Reply) : (dropShown shown k q).length ≤ q.length := by
  induction shown generalizing k q with
  | nil => exact Nat.le_of_eq rfl
  | cons r rest ih =>
    cases k with
    | zero => exact Nat.le_of_eq rfl
    | succ k =>
      unfold dropShown
      split
      · exact Nat.le_trans (Nat.le_of_eq List.length_drop) (Nat.sub_le _ _)
      · exact ih _ _

theorem Dev.settleBar_keeps (w_port : W .port) {d : Dev} (h : d.Keeps W r₀) (shown : List Reply) (sdi : List Byte) (extra : Nat) :
    (Dev.settleBar d shown sdi extra).Keeps W r₀ := by
  unfold Dev.settleBar
  extract_lets bad valid d1 d2
  have h1 : d1.Keeps W r₀ := Dev.setPort_keeps w_port h _ id
  have h2 : d2.Keeps W r₀ := Dev.setPort_keeps w_port h1 _ fun g => by
    exact Nat.le_trans (dropShown_length _ _ _) g
  clear_value d2 d1
  split
  · split
    · exact Dev.startWatchdog_keeps w_port h2
    · exact h2
  · exact h1

theorem Dev.commitNow_keeps (w_time : W .time) (w_ctl : W .ctl) (w_ka : W .ka) (w_port : W .port) (w_log : W .log) (w_par : W .par) (w_voices : W .voices) (w_banks : W .banks) (w_staggers : W .staggers) (w_lh : W .lh) (w_cues : W .cues) (w_tally : W .tally) (w_odo : W .odo) (w_sc : W .sc) (w_conv : W .conv) (w_wave : W .wave) (w_therm : W .therm) (w_nv : W .nv) (w_score : W .score) (w_link : W .link) (w_chain : W .chain) (w_patch : W .patch) (w_pd : W .pd) (w_slotOffs : W .slotOffs) (w_slotFaults : W .slotFaults) (w_edges : W .edges) {d : Dev} (h : d.Keeps W r₀) (snap : Dev) :
  (Dev.commitNow snap d).Keeps W r₀ := by
  unfold Dev.commitNow
  try dsimp only
  repeat' first
    | with_reducible assumption
    | with_reducible apply Dev.setPort_keeps
    | with_reducible apply Dev.commitBar_keeps
    | split
    | exact id
    | intro _
    | dsimp only
    | (with_reducible refine Dev.Keeps.of_pair (by with_reducible assumption) ?_)
    | (simp only [List.length_map]; assumption)
    | exact Nat.le_trans (List.length_filter_le _ _) (by assumption)
    | exact Nat.le_trans (by simp) (by assumption)
    | exact Nat.le_trans (by simp only [List.length_drop]; exact Nat.sub_le _ _) (by assumption)
    | exact Nat.zero_le _

theorem Dev.dbAct_keeps (w_time : W .time) (w_ctl : W .ctl) (w_ka : W .ka) (w_port : W .port) (w_log : W .log) (w_par : W .par) (w_voices : W .voices) (w_banks : W .banks) (w_staggers : W .staggers) (w_lh : W .lh) (w_cues : W .cues) (w_tally : W .tally) (w_odo : W .odo) (w_sc : W .sc) (w_conv : W .conv) (w_wave : W .wave) (w_therm : W .therm) (w_nv : W .nv) (w_score : W .score) (w_link : W .link) (w_chain : W .chain) (w_patch : W .patch) (w_pd : W .pd) (w_slotOffs : W .slotOffs) (w_slotFaults : W .slotFaults) (w_edges : W .edges) {d : Dev} (h : d.Keeps W r₀) (snap : Dev) (q : DbPacket) :
  (Dev.dbAct snap d q).Keeps W r₀ := by
  unfold Dev.dbAct
  try dsimp only
  repeat' first
    | with_reducible assumption
    | with_reducible apply Dev.execute_keeps
    | with_reducible apply Dev.finish_keeps
    | split
    | exact id
    | intro _
    | dsimp only
    | (with_reducible refine Dev.Keeps.of_pair (by with_reducible assumption) ?_)

end Sys2Proof.Machine
end

