-- ==== Sys2Proof/Laws/KeepsSlices.lean ====
section
/-! SUPPORT. What each change of Slices.lean keeps (Laws/Keeps.lean): which parts it may change, and that every form stays. -/

namespace Sys2Proof.Machine
open Sys2Proof

variable {W : Part → Prop} {r₀ : Dev}

theorem Dev.calBegin_keeps (w_conv : W .conv) {d : Dev} (h : d.Keeps W r₀) :
  (Dev.calBegin d).Keeps W r₀ := by
  unfold Dev.calBegin
  try dsimp only
  repeat' first
    | with_reducible assumption
    | with_reducible apply Dev.modSlice_keeps
    | with_reducible apply Dev.holdMakers_keeps
    | with_reducible apply Dev.setConv_keeps
    | split
    | exact id
    | intro _
    | dsimp only
    | (with_reducible refine Dev.Keeps.of_pair (by with_reducible assumption) ?_)

theorem Dev.handBack_keeps (w_conv : W .conv) {d : Dev} (h : d.Keeps W r₀) :
  (Dev.handBack d).Keeps W r₀ := by
  unfold Dev.handBack
  try dsimp only
  repeat' first
    | with_reducible assumption
    | with_reducible apply Dev.modSlice_keeps
    | with_reducible apply Dev.holdMakers_keeps
    | with_reducible apply Dev.setConv_keeps
    | split
    | exact id
    | intro _
    | dsimp only
    | (with_reducible refine Dev.Keeps.of_pair (by with_reducible assumption) ?_)

theorem Dev.calStop_keeps (w_port : W .port) (w_log : W .log) (w_conv : W .conv) {d : Dev} (h : d.Keeps W r₀) (unit : Nat) :
  (Dev.calStop d unit).Keeps W r₀ := by
  unfold Dev.calStop
  try dsimp only
  repeat' first
    | with_reducible assumption
    | with_reducible apply Dev.event_keeps
    | with_reducible apply Dev.setConv_keeps
    | with_reducible apply Dev.handBack_keeps
    | split
    | exact id
    | intro _
    | dsimp only
    | (with_reducible refine Dev.Keeps.of_pair (by with_reducible assumption) ?_)

theorem Dev.replaceSlice_keeps (w_port : W .port) (w_log : W .log) (w_conv : W .conv) {d : Dev} (h : d.Keeps W r₀) (k : Fin 9) :
  (Dev.replaceSlice d k).Keeps W r₀ := by
  unfold Dev.replaceSlice
  try dsimp only
  repeat' first
    | with_reducible assumption
    | with_reducible apply Dev.event_keeps
    | with_reducible apply Dev.modSlice_keeps
    | with_reducible apply Dev.holdMakers_keeps
    | with_reducible apply Dev.setConv_keeps
    | with_reducible apply Dev.calStop_keeps
    | split
    | exact id
    | intro _
    | dsimp only
    | (with_reducible refine Dev.Keeps.of_pair (by with_reducible assumption) ?_)

theorem Dev.retireDescant_keeps (w_port : W .port) (w_log : W .log) (w_conv : W .conv) {d : Dev} (h : d.Keeps W r₀) :
  (Dev.retireDescant d).Keeps W r₀ := by
  unfold Dev.retireDescant
  try dsimp only
  repeat' first
    | with_reducible assumption
    | with_reducible apply Dev.event_keeps
    | with_reducible apply Dev.modSlice_keeps
    | with_reducible apply Dev.calStop_keeps
    | split
    | exact id
    | intro _
    | dsimp only
    | (with_reducible refine Dev.Keeps.of_pair (by with_reducible assumption) ?_)

theorem Dev.retireSlice_keeps (w_port : W .port) (w_log : W .log) (w_sc : W .sc) (w_conv : W .conv) (w_nv : W .nv) {d : Dev} (h : d.Keeps W r₀) (k : Fin 9) :
  (Dev.retireSlice d k).Keeps W r₀ := by
  unfold Dev.retireSlice
  try dsimp only
  repeat' first
    | with_reducible assumption
    | with_reducible apply Dev.retireRecord_keeps
    | with_reducible apply Dev.retireEvent_keeps
    | with_reducible apply Dev.replaceSlice_keeps
    | with_reducible apply Dev.retireDescant_keeps
    | split
    | with_reducible apply Dev.Keeps.sc
    | exact id
    | intro _
    | dsimp only
    | (with_reducible refine Dev.Keeps.of_pair (by with_reducible assumption) ?_)

theorem Dev.trimSkew_keeps (w_conv : W .conv) {d : Dev} (h : d.Keeps W r₀) (k : Fin 9) (skew : Int) :
  (Dev.trimSkew d k skew).Keeps W r₀ := by
  unfold Dev.trimSkew
  try dsimp only
  repeat' first
    | with_reducible assumption
    | with_reducible apply Dev.modEngine_keeps
    | split
    | exact id
    | intro _
    | dsimp only
    | (with_reducible refine Dev.Keeps.of_pair (by with_reducible assumption) ?_)

theorem Dev.calEnd_keeps (w_port : W .port) (w_log : W .log) (w_sc : W .sc) (w_conv : W .conv) (w_nv : W .nv) {d : Dev} (h : d.Keeps W r₀) (passed : Bool) (offsetTrim : Int) (gainTrim : Int) (skew : Int) :
  (Dev.calEnd d passed offsetTrim gainTrim skew).Keeps W r₀ := by
  unfold Dev.calEnd
  try dsimp only
  repeat' first
    | with_reducible assumption
    | with_reducible apply Dev.event_keeps
    | with_reducible apply Dev.modSlice_keeps
    | with_reducible apply Dev.setConv_keeps
    | with_reducible apply Dev.handBack_keeps
    | with_reducible apply Dev.retireSlice_keeps
    | with_reducible apply Dev.trimSkew_keeps
    | split
    | exact id
    | intro _
    | dsimp only
    | (with_reducible refine Dev.Keeps.of_pair (by with_reducible assumption) ?_)

end Sys2Proof.Machine
end

