-- ==== Sys2Proof/Laws/Packet.lean ====
section
/-! SUPPORT. What a packet to this device does that passes the checks of 05 R130: its opcode's own action on the device, with
the bar's number counted, and its reply. -/

namespace Sys2Proof.Machine
open Sys2Proof

/-- The device as a packet to it meets it: its bar has its number, and on the precentor its entry (16 R471). -/
def Dev.opened (d : Dev) : Dev :=
  (d.openBar ((d.port.barNo + 65535) % 65536)).modBar fun b => { b with db := b.db || false }

theorem Dev.opened_eq (d : Dev) : ∃ fs, d.opened =
    { d with port := { d.port with serial := d.port.serial + 1 }, chain := { d.chain with forward := fs } } := by
  unfold Dev.opened Dev.openBar Dev.modBar Dev.setChain
  dsimp only
  split <;> dsimp only <;> split <;> exact ⟨_, rfl⟩

@[simp] theorem Dev.opened_headPin (d : Dev) : d.opened.headPin = d.headPin := by
  rw [d.opened_eq.choose_spec]
@[simp] theorem Dev.opened_time (d : Dev) : d.opened.time = d.time := by
  rw [d.opened_eq.choose_spec]
@[simp] theorem Dev.opened_ctl (d : Dev) : d.opened.ctl = d.ctl := by
  rw [d.opened_eq.choose_spec]
@[simp] theorem Dev.opened_ka (d : Dev) : d.opened.ka = d.ka := by
  rw [d.opened_eq.choose_spec]
@[simp] theorem Dev.opened_log (d : Dev) : d.opened.log = d.log := by
  rw [d.opened_eq.choose_spec]
@[simp] theorem Dev.opened_par (d : Dev) : d.opened.par = d.par := by
  rw [d.opened_eq.choose_spec]
@[simp] theorem Dev.opened_voices (d : Dev) : d.opened.voices = d.voices := by
  rw [d.opened_eq.choose_spec]
@[simp] theorem Dev.opened_banks (d : Dev) : d.opened.banks = d.banks := by
  rw [d.opened_eq.choose_spec]
@[simp] theorem Dev.opened_staggers (d : Dev) : d.opened.staggers = d.staggers := by
  rw [d.opened_eq.choose_spec]
@[simp] theorem Dev.opened_lh (d : Dev) : d.opened.lh = d.lh := by
  rw [d.opened_eq.choose_spec]
@[simp] theorem Dev.opened_cues (d : Dev) : d.opened.cues = d.cues := by
  rw [d.opened_eq.choose_spec]
@[simp] theorem Dev.opened_tally (d : Dev) : d.opened.tally = d.tally := by
  rw [d.opened_eq.choose_spec]
@[simp] theorem Dev.opened_odo (d : Dev) : d.opened.odo = d.odo := by
  rw [d.opened_eq.choose_spec]
@[simp] theorem Dev.opened_sc (d : Dev) : d.opened.sc = d.sc := by
  rw [d.opened_eq.choose_spec]
@[simp] theorem Dev.opened_conv (d : Dev) : d.opened.conv = d.conv := by
  rw [d.opened_eq.choose_spec]
@[simp] theorem Dev.opened_wave (d : Dev) : d.opened.wave = d.wave := by
  rw [d.opened_eq.choose_spec]
@[simp] theorem Dev.opened_therm (d : Dev) : d.opened.therm = d.therm := by
  rw [d.opened_eq.choose_spec]
@[simp] theorem Dev.opened_nv (d : Dev) : d.opened.nv = d.nv := by
  rw [d.opened_eq.choose_spec]
@[simp] theorem Dev.opened_score (d : Dev) : d.opened.score = d.score := by
  rw [d.opened_eq.choose_spec]
@[simp] theorem Dev.opened_link (d : Dev) : d.opened.link = d.link := by
  rw [d.opened_eq.choose_spec]
@[simp] theorem Dev.opened_patch (d : Dev) : d.opened.patch = d.patch := by
  rw [d.opened_eq.choose_spec]
@[simp] theorem Dev.opened_pd (d : Dev) : d.opened.pd = d.pd := by
  rw [d.opened_eq.choose_spec]
@[simp] theorem Dev.opened_slotOffs (d : Dev) : d.opened.slotOffs = d.slotOffs := by
  rw [d.opened_eq.choose_spec]
@[simp] theorem Dev.opened_slotFaults (d : Dev) : d.opened.slotFaults = d.slotFaults := by
  rw [d.opened_eq.choose_spec]
@[simp] theorem Dev.opened_edges (d : Dev) : d.opened.edges = d.edges := by
  rw [d.opened_eq.choose_spec]
@[simp] theorem Dev.opened_found (d : Dev) : d.opened.found = d.found := by
  rw [d.opened_eq.choose_spec]
@[simp] theorem Dev.opened_port (d : Dev) : d.opened.port = { d.port with serial := d.port.serial + 1 } := by
  rw [d.opened_eq.choose_spec]
theorem Dev.opened_chain (d : Dev) : d.opened.chain = { d.chain with forward := d.opened.chain.forward } := by
  rw [d.opened_eq.choose_spec]

/-- A packet that passes checks 3 to 8 and waits for no downbeat does its action and is answered. -/
theorem Dev.takeOwn_open {snap d : Dev} {p : Packet} {row : OpRow} (hdb : p.db = false) (h1 : d.precheck p = none)
    (h2 : opRow p.opc p.params.length = some row) (h3 : d.admits row p.opc false = true)
    (h4 : Dev.scanning snap d p = false) :
    Dev.takeOwn snap d p false = Dev.finish ((Dev.perform snap d p false).1.countAccepted false (Dev.perform snap d p false).2,
      (Dev.perform snap d p false).2) false false p := by
  have he : Dev.execute snap d p false = Dev.perform snap d p false := by
    unfold Dev.execute
    simp only [h2, h3, h4]
    simp
  unfold Dev.takeOwn
  simp only [h1, hdb, he]
  simp

/-- A packet for this device alone that passes checks 3 to 8 does its action, counts, and is answered. -/
theorem State.packet_own {s : State} {opc tag : Byte} {a : List Byte} (h : s.accepts opc a) :
    s.packet opc 0 tag a = .next (s.after 0 fun _ =>
      Dev.finish ((Dev.perform s.snap s.dev.opened { dest := 0, opc := opc, tag := tag, params := a } false).1.countAccepted false
        (Dev.perform s.snap s.dev.opened { dest := 0, opc := opc, tag := tag, params := a } false).2,
        (Dev.perform s.snap s.dev.opened { dest := 0, opc := opc, tag := tag, params := a } false).2) false false
        { dest := 0, opc := opc, tag := tag, params := a }) := by
  obtain ⟨h1, row, h2, h3, h4⟩ := h
  obtain ⟨fs, ho⟩ := s.dev.opened_eq
  have key : Dev.takeOwn s.snap s.dev.opened { dest := 0, opc := opc, tag := tag, params := a } false = _ :=
    Dev.takeOwn_open (row := row) (by simp [Packet.db]) (by rw [ho]; exact h1) h2 (by rw [ho]; exact h3) (by rw [ho]; exact h4)
  unfold State.packet State.run
  refine congrArg _ (State.after_congr ?_)
  rw [State.turn_zero, ← key]
  unfold Dev.commitBar
  simp only [Dev.takeAll]
  have hp : Dev.takePacket s.snap (s.dev.openBar ((s.dev.port.barNo + 65535) % 65536)) { dest := 0, opc := opc, tag := tag, params := a }
      = Dev.takeOwn s.snap s.dev.opened { dest := 0, opc := opc, tag := tag, params := a } false := by
    have ha : Packet.addr { dest := 0, opc := opc, tag := tag, params := a } = 0 := rfl
    unfold Dev.takePacket
    dsimp only
    rw [ha, if_neg (by decide), if_pos (by simp)]
    have hb : Packet.db { dest := 0, opc := opc, tag := tag, params := a } = false := by simp [Packet.db]
    rw [hb]
    rfl
  rw [hp]
  split <;> rfl

/-- What the answer of an opcode leaves of the device. -/
theorem Dev.finish_eq (r : Dev × Option Answer) (p : Packet) : ∃ po pa,
    Dev.finish (r.1.countAccepted false r.2, r.2) false false p = { r.1 with port := po, patch := pa } := by
  obtain ⟨d, a⟩ := r
  cases a with
  | none => exact ⟨d.port, d.patch, rfl⟩
  | some a =>
    have hc : ∃ po, d.countAccepted false (some a) = { d with port := po } := by
      unfold Dev.countAccepted
      dsimp only
      split
      · exact ⟨_, rfl⟩
      · exact ⟨d.port, rfl⟩
    obtain ⟨po, hc⟩ := hc
    have hk (e : Dev) : ∃ pa, e.keepPatchStatus p a = { e with patch := pa } := by
      unfold Dev.keepPatchStatus
      split
      · exact ⟨_, rfl⟩
      · exact ⟨e.patch, rfl⟩
    obtain ⟨pa, hk⟩ := hk (d.countAccepted false (some a))
    refine ⟨po.push { src := 0, opc := p.opc, tag := p.tag, status := a.status, data := a.data, settle := a.settle }, pa, ?_⟩
    unfold Dev.finish
    dsimp only
    rw [hk, hc]
    rfl

/-- What an opcode changes beside the port and the patch load is what its own action changes. -/
theorem State.packet_effect {s : State} {opc tag : Byte} {a : List Byte} (h : s.accepts opc a) :
    ∃ po pa, s.packet opc 0 tag a = .next (s.after 0 fun _ =>
      { (Dev.perform s.snap s.dev.opened { dest := 0, opc := opc, tag := tag, params := a } false).1 with
        port := po, patch := pa }) := by
  rw [s.packet_own h]
  obtain ⟨po, pa, e⟩ := Dev.finish_eq (Dev.perform s.snap s.dev.opened { dest := 0, opc := opc, tag := tag, params := a } false)
    { dest := 0, opc := opc, tag := tag, params := a }
  exact ⟨po, pa, by rw [e]⟩

theorem HostPort.push_congr {p q : HostPort} (h : p.replies = q.replies) (r : Reply) :
    (p.push r).replies = (q.push r).replies := by
  unfold HostPort.push
  rw [h]
  split <;> rfl

theorem HostPort.mem_push {p : HostPort} {r x : Reply} (h : x ∈ (p.push r).replies) : x ∈ p.replies ∨ x = r := by
  unfold HostPort.push at h
  split at h
  · rcases List.mem_append.mp h with h | h
    · exact .inl (List.mem_of_mem_drop h)
    · exact .inr (by simpa using h)
  · rcases List.mem_append.mp h with h | h
    · exact .inl h
    · exact .inr (by simpa using h)

/-- The reply of an opcode that answers and that leaves the queue alone stands last in the queue. -/
theorem State.packet_answered {s : State} {opc tag st : Byte} {a data : List Byte} {d : Dev} (h : s.accepts opc a)
    (hp : Dev.perform s.snap s.dev.opened { dest := 0, opc := opc, tag := tag, params := a } false = (d, some ⟨st, data, none⟩))
    (hr : d.port.replies = s.dev.port.replies) :
    ∃ t, s.packet opc 0 tag a = .next t ∧ Answered s t opc tag st data := by
  refine ⟨_, s.packet_own h, ?_⟩
  have hq : (Dev.finish (d.countAccepted false (some ⟨st, data, none⟩), some ⟨st, data, none⟩) false false
      { dest := 0, opc := opc, tag := tag, params := a }).port.replies =
      (s.dev.port.push { src := 0, opc := opc, tag := tag, status := st, data := data, settle := none }).replies := by
    have hc : ((d.countAccepted false (some ⟨st, data, none⟩)).keepPatchStatus
        { dest := 0, opc := opc, tag := tag, params := a } ⟨st, data, none⟩).port.replies = d.port.replies := by
      unfold Dev.keepPatchStatus Dev.countAccepted
      dsimp only
      repeat' split
      all_goals rfl
    exact HostPort.push_congr (hc.trans hr) _
  unfold Answered
  rw [hp, State.after_replies]
  exact hq

end Sys2Proof.Machine
end

