-- ==== Sys2Proof/Laws/RunsBoot.lean ====
section
/-! SUPPORT. Every command of Boot.lean has a next state, and what it keeps. -/

namespace Sys2Proof.Machine
open Sys2Proof

variable {W : Part → Prop}

theorem execPorAssert_runs (w_time : W .time) (w_ctl : W .ctl) (w_ka : W .ka) (w_port : W .port) (w_log : W .log) (w_par : W .par) (w_voices : W .voices) (w_banks : W .banks) (w_staggers : W .staggers) (w_lh : W .lh) (w_cues : W .cues) (w_tally : W .tally) (w_odo : W .odo) (w_sc : W .sc) (w_conv : W .conv) (w_wave : W .wave) (w_therm : W .therm) (w_nv : W .nv) (w_link : W .link) (w_chain : W .chain) (w_patch : W .patch) (w_pd : W .pd) (w_slotOffs : W .slotOffs) (w_slotFaults : W .slotFaults) (w_edges : W .edges) (dt : Nat) (s : State) :
    Runs W s dt (execPorAssert dt s) := by
  unfold execPorAssert
  refine State.run_keeps w_port fun d h => ?_
  try dsimp only
  repeat' first
    | with_reducible assumption
    | with_reducible apply Dev.held_keeps
    | split
    | exact id
    | intro _
    | dsimp only
    | (with_reducible refine Dev.Keeps.of_pair (by with_reducible assumption) ?_)

theorem execPowerOnReset_runs (w_time : W .time) (w_ctl : W .ctl) (w_ka : W .ka) (w_port : W .port) (w_log : W .log) (w_par : W .par) (w_voices : W .voices) (w_banks : W .banks) (w_staggers : W .staggers) (w_lh : W .lh) (w_cues : W .cues) (w_tally : W .tally) (w_odo : W .odo) (w_sc : W .sc) (w_conv : W .conv) (w_wave : W .wave) (w_therm : W .therm) (w_nv : W .nv) (w_score : W .score) (w_link : W .link) (w_chain : W .chain) (w_patch : W .patch) (w_pd : W .pd) (w_slotOffs : W .slotOffs) (w_slotFaults : W .slotFaults) (w_edges : W .edges) (dt : Nat) (banks : Tab Bool 4) (s : State) :
    Runs W s dt (execPowerOnReset dt banks s) := by
  unfold execPowerOnReset
  refine State.run_keeps w_port fun d h => ?_
  split
  · extract_lets d1 now t c q
    have h1 : d1.Keeps W (s.turn dt).dev := by
      unfold d1
      split
      · exact h
      · apply Dev.held_keeps <;> assumption
    clear_value d1
    refine Dev.Keeps.trans (b := d1) ⟨fun p hp => ?_, fun g => ⟨g.replies, g.log, g.cues, g.raw⟩⟩ h1
    cases p <;> first | exact absurd (by assumption) hp | rfl
  · exact h

theorem execControlBootDone_runs (w_headPin : W .headPin) (w_time : W .time) (w_ctl : W .ctl) (w_port : W .port) (w_log : W .log) (w_voices : W .voices) (w_banks : W .banks) (w_staggers : W .staggers) (w_lh : W .lh) (w_cues : W .cues) (w_sc : W .sc) (w_conv : W .conv) (w_wave : W .wave) (w_therm : W .therm) (w_nv : W .nv) (w_chain : W .chain) (w_slotOffs : W .slotOffs) (w_slotFaults : W .slotFaults) (dt : Nat) (boot : BootFinds) (s : State) :
    Runs W s dt (execControlBootDone dt boot s) := by
  unfold execControlBootDone
  refine State.run_keeps w_port fun d h => ?_
  try dsimp only
  repeat' first
    | with_reducible assumption
    | with_reducible apply Dev.enterHalted_keeps
    | with_reducible apply Dev.firstReadings_keeps
    | with_reducible apply Dev.bootEnd_keeps
    | with_reducible apply Dev.goLive_keeps
    | split
    | with_reducible apply Dev.Keeps.headPin
    | exact id
    | intro _
    | dsimp only
    | (with_reducible refine Dev.Keeps.of_pair (by with_reducible assumption) ?_)

theorem execBootTimeout_runs (w_time : W .time) (w_ctl : W .ctl) (w_port : W .port) (w_log : W .log) (w_voices : W .voices) (w_banks : W .banks) (w_staggers : W .staggers) (w_cues : W .cues) (w_sc : W .sc) (w_conv : W .conv) (w_wave : W .wave) (w_therm : W .therm) (w_nv : W .nv) (w_chain : W .chain) (w_slotOffs : W .slotOffs) (w_slotFaults : W .slotFaults) (dt : Nat) (cause : BootFailure) (s : State) :
    Runs W s dt (execBootTimeout dt cause s) := by
  unfold execBootTimeout
  refine State.run_keeps w_port fun d h => ?_
  try dsimp only
  repeat' first
    | with_reducible assumption
    | with_reducible apply Dev.enterHalted_keeps
    | with_reducible apply Dev.bootEnd_keeps
    | split
    | exact id
    | intro _
    | dsimp only
    | (with_reducible refine Dev.Keeps.of_pair (by with_reducible assumption) ?_)

theorem execRstn_runs (w_time : W .time) (w_ctl : W .ctl) (w_ka : W .ka) (w_port : W .port) (w_log : W .log) (w_par : W .par) (w_voices : W .voices) (w_banks : W .banks) (w_staggers : W .staggers) (w_lh : W .lh) (w_cues : W .cues) (w_tally : W .tally) (w_odo : W .odo) (w_sc : W .sc) (w_conv : W .conv) (w_wave : W .wave) (w_therm : W .therm) (w_nv : W .nv) (w_link : W .link) (w_chain : W .chain) (w_patch : W .patch) (w_pd : W .pd) (w_slotOffs : W .slotOffs) (w_slotFaults : W .slotFaults) (w_edges : W .edges) (rst : RstnPulse) (s : State) :
    Runs W s rst.dt (execRstn rst s) := by
  unfold execRstn
  refine State.run_keeps w_port fun d h => ?_
  try dsimp only
  repeat' first
    | with_reducible assumption
    | with_reducible apply Dev.restart_keeps
    | split
    | exact id
    | intro _
    | dsimp only
    | (with_reducible refine Dev.Keeps.of_pair (by with_reducible assumption) ?_)

theorem execKeepAliveFrame_runs (w_time : W .time) (w_ctl : W .ctl) (w_ka : W .ka) (w_port : W .port) (w_log : W .log) (w_voices : W .voices) (w_banks : W .banks) (w_staggers : W .staggers) (w_cues : W .cues) (w_sc : W .sc) (w_conv : W .conv) (w_wave : W .wave) (w_therm : W .therm) (w_nv : W .nv) (w_chain : W .chain) (w_slotOffs : W .slotOffs) (w_slotFaults : W .slotFaults) (dt : Nat) (echoSame : Bool) (s : State) :
    Runs W s dt (execKeepAliveFrame dt echoSame s) := by
  unfold execKeepAliveFrame
  refine State.run_keeps w_port fun d h => ?_
  try dsimp only
  repeat' first
    | with_reducible assumption
    | with_reducible apply Dev.enterHalted_keeps
    | with_reducible apply Dev.bootEnd_keeps
    | split
    | with_reducible apply Dev.Keeps.ka
    | exact id
    | intro _
    | dsimp only
    | (with_reducible refine Dev.Keeps.of_pair (by with_reducible assumption) ?_)

theorem execKeepAliveLoss_runs (w_time : W .time) (w_ctl : W .ctl) (w_ka : W .ka) (w_port : W .port) (w_log : W .log) (w_par : W .par) (w_voices : W .voices) (w_banks : W .banks) (w_staggers : W .staggers) (w_lh : W .lh) (w_cues : W .cues) (w_tally : W .tally) (w_odo : W .odo) (w_sc : W .sc) (w_conv : W .conv) (w_wave : W .wave) (w_therm : W .therm) (w_nv : W .nv) (w_link : W .link) (w_chain : W .chain) (w_patch : W .patch) (w_pd : W .pd) (w_slotOffs : W .slotOffs) (w_slotFaults : W .slotFaults) (w_edges : W .edges) (dt : Nat) (s : State) :
    Runs W s dt (execKeepAliveLoss dt s) := by
  unfold execKeepAliveLoss
  refine State.run_keeps w_port fun d h => ?_
  try dsimp only
  repeat' first
    | with_reducible assumption
    | with_reducible apply Dev.stagger_keeps
    | with_reducible apply Dev.recover_keeps
    | split
    | with_reducible apply Dev.Keeps.ka
    | exact id
    | intro _
    | dsimp only
    | (with_reducible refine Dev.Keeps.of_pair (by with_reducible assumption) ?_)

theorem execKeepAliveReassert_runs (w_time : W .time) (w_ctl : W .ctl) (w_ka : W .ka) (w_port : W .port) (w_log : W .log) (w_par : W .par) (w_voices : W .voices) (w_banks : W .banks) (w_staggers : W .staggers) (w_lh : W .lh) (w_cues : W .cues) (w_tally : W .tally) (w_odo : W .odo) (w_sc : W .sc) (w_conv : W .conv) (w_wave : W .wave) (w_therm : W .therm) (w_nv : W .nv) (w_link : W .link) (w_chain : W .chain) (w_patch : W .patch) (w_pd : W .pd) (w_slotOffs : W .slotOffs) (w_slotFaults : W .slotFaults) (w_edges : W .edges) (dt : Nat) (s : State) :
    Runs W s dt (execKeepAliveReassert dt s) := by
  unfold execKeepAliveReassert
  refine State.run_keeps w_port fun d h => ?_
  try dsimp only
  repeat' first
    | with_reducible assumption
    | with_reducible apply Dev.recover_keeps
    | split
    | exact id
    | intro _
    | dsimp only
    | (with_reducible refine Dev.Keeps.of_pair (by with_reducible assumption) ?_)

theorem execRomCrcCheck_runs (w_ctl : W .ctl) (w_port : W .port) (w_log : W .log) (w_voices : W .voices) (w_banks : W .banks) (w_staggers : W .staggers) (w_cues : W .cues) (w_sc : W .sc) (w_conv : W .conv) (w_wave : W .wave) (w_therm : W .therm) (w_nv : W .nv) (w_chain : W .chain) (w_slotOffs : W .slotOffs) (w_slotFaults : W .slotFaults) (dt : Nat) (crc : Word) (s : State) :
    Runs W s dt (execRomCrcCheck dt crc s) := by
  unfold execRomCrcCheck
  refine State.run_keeps w_port fun d h => ?_
  try dsimp only
  repeat' first
    | with_reducible assumption
    | with_reducible apply Dev.enterHalted_keeps
    | split
    | exact id
    | intro _
    | dsimp only
    | (with_reducible refine Dev.Keeps.of_pair (by with_reducible assumption) ?_)

theorem execPatchCrcCheck_runs (w_ctl : W .ctl) (w_port : W .port) (w_log : W .log) (w_voices : W .voices) (w_banks : W .banks) (w_staggers : W .staggers) (w_cues : W .cues) (w_sc : W .sc) (w_conv : W .conv) (w_wave : W .wave) (w_therm : W .therm) (w_nv : W .nv) (w_chain : W .chain) (w_slotOffs : W .slotOffs) (w_slotFaults : W .slotFaults) (dt : Nat) (crc : Word) (s : State) :
    Runs W s dt (execPatchCrcCheck dt crc s) := by
  unfold execPatchCrcCheck
  refine State.run_keeps w_port fun d h => ?_
  try dsimp only
  repeat' first
    | with_reducible assumption
    | with_reducible apply Dev.enterHalted_keeps
    | split
    | exact id
    | intro _
    | dsimp only
    | (with_reducible refine Dev.Keeps.of_pair (by with_reducible assumption) ?_)

theorem execSramScrub_runs (w_time : W .time) (w_ctl : W .ctl) (w_port : W .port) (w_log : W .log) (w_voices : W .voices) (w_banks : W .banks) (w_staggers : W .staggers) (w_cues : W .cues) (w_sc : W .sc) (w_conv : W .conv) (w_wave : W .wave) (w_therm : W .therm) (w_nv : W .nv) (w_chain : W .chain) (w_slotOffs : W .slotOffs) (w_slotFaults : W .slotFaults) (dt : Nat) (corrected : Nat) (uncorrectable : Bool) (s : State) :
    Runs W s dt (execSramScrub dt corrected uncorrectable s) := by
  unfold execSramScrub
  refine State.run_keeps w_port fun d h => ?_
  try dsimp only
  repeat' first
    | with_reducible assumption
    | with_reducible apply Dev.setCtl_keeps
    | with_reducible apply Dev.enterHalted_keeps
    | with_reducible apply Dev.bootEnd_keeps
    | split
    | exact id
    | intro _
    | dsimp only
    | (with_reducible refine Dev.Keeps.of_pair (by with_reducible assumption) ?_)

end Sys2Proof.Machine
end

