-- ==== Sys2Proof/Laws/RunsChain.lean ====
section
/-! SUPPORT. Every command of Chain.lean has a next state, and what it keeps. -/

namespace Sys2Proof.Machine
open Sys2Proof

variable {W : Part → Prop}

theorem execDownstreamFrame_runs (w_time : W .time) (w_ctl : W .ctl) (w_ka : W .ka) (w_port : W .port) (w_log : W .log) (w_par : W .par) (w_voices : W .voices) (w_banks : W .banks) (w_staggers : W .staggers) (w_lh : W .lh) (w_cues : W .cues) (w_tally : W .tally) (w_odo : W .odo) (w_sc : W .sc) (w_conv : W .conv) (w_wave : W .wave) (w_therm : W .therm) (w_nv : W .nv) (w_score : W .score) (w_link : W .link) (w_chain : W .chain) (w_patch : W .patch) (w_pd : W .pd) (w_slotOffs : W .slotOffs) (w_slotFaults : W .slotFaults) (w_edges : W .edges) (dt : Nat) (port : AkPort) (f : RxFrame) (s : State) :
    Runs W s dt (execDownstreamFrame dt port f s) := by
  unfold execDownstreamFrame
  refine State.run_keeps w_port fun d h => ?_
  try dsimp only
  repeat' first
    | with_reducible assumption
    | with_reducible apply Dev.downAtDevice_keeps
    | with_reducible apply Dev.downAtHead_keeps
    | with_reducible apply Dev.downNoCode_keeps
    | split
    | exact id
    | intro _
    | dsimp only
    | (with_reducible refine Dev.Keeps.of_pair (by with_reducible assumption) ?_)

theorem execMeasureBoundary_runs (w_port : W .port) (w_chain : W .chain) (dt : Nat) (s : State) :
    Runs W s dt (execMeasureBoundary dt s) := by
  unfold execMeasureBoundary
  refine State.run_keeps w_port fun d h => ?_
  try dsimp only
  repeat' first
    | with_reducible assumption
    | with_reducible apply Dev.setChain_keeps
    | with_reducible apply Dev.countMeasure_keeps
    | with_reducible apply Dev.precentorMeasure_keeps
    | with_reducible apply Dev.sendUp_keeps
    | split
    | exact id
    | intro _
    | dsimp only
    | (with_reducible refine Dev.Keeps.of_pair (by with_reducible assumption) ?_)

theorem execUpstreamFrame_runs (w_port : W .port) (w_log : W .log) (w_chain : W .chain) (dt : Nat) (port : AkPort) (f : RxFrame) (start : Fin 8) (s : State) :
    Runs W s dt (execUpstreamFrame dt port f start s) := by
  unfold execUpstreamFrame
  refine State.run_keeps w_port fun d h => ?_
  try dsimp only
  repeat' first
    | with_reducible assumption
    | with_reducible apply Dev.setChain_keeps
    | with_reducible apply Dev.badFrame_keeps
    | with_reducible apply Dev.receiveUp_keeps
    | split
    | exact id
    | intro _
    | dsimp only
    | (with_reducible refine Dev.Keeps.of_pair (by with_reducible assumption) ?_)

theorem execEnumerationDone_runs (w_port : W .port) (w_log : W .log) (w_chain : W .chain) (e : EnumEnd) (s : State) :
    Runs W s e.dt (execEnumerationDone e s) := by
  unfold execEnumerationDone
  refine State.run_keeps w_port fun d h => ?_
  try dsimp only
  repeat' first
    | with_reducible assumption
    | with_reducible apply Dev.event_keeps
    | with_reducible apply Dev.setChain_keeps
    | with_reducible apply Dev.followBreak_keeps
    | split
    | exact id
    | intro _
    | dsimp only
    | (with_reducible refine Dev.Keeps.of_pair (by with_reducible assumption) ?_)

theorem execRingCloseResult_runs (w_port : W .port) (w_log : W .log) (w_chain : W .chain) (dt : Nat) (_returned : Told) (_hop : Told) (s : State) :
    Runs W s dt (execRingCloseResult dt _returned _hop s) := by
  unfold execRingCloseResult
  refine State.run_keeps w_port fun d h => ?_
  try dsimp only
  repeat' first
    | with_reducible assumption
    | with_reducible apply Dev.event_keeps
    | with_reducible apply Dev.setChain_keeps
    | split
    | exact id
    | intro _
    | dsimp only
    | (with_reducible refine Dev.Keeps.of_pair (by with_reducible assumption) ?_)

theorem execLinkDown_runs (w_port : W .port) (w_log : W .log) (w_chain : W .chain) (dt : Nat) (port : AkPort) (s : State) :
    Runs W s dt (execLinkDown dt port s) := by
  unfold execLinkDown
  refine State.run_keeps w_port fun d h => ?_
  try dsimp only
  repeat' first
    | with_reducible assumption
    | with_reducible apply Dev.portDown_keeps
    | split
    | exact id
    | intro _
    | dsimp only
    | (with_reducible refine Dev.Keeps.of_pair (by with_reducible assumption) ?_)

theorem execHopLoopbackDone_runs (w_port : W .port) (w_log : W .log) (w_sc : W .sc) (w_nv : W .nv) (w_chain : W .chain) (dt : Nat) (port : AkPort) (result : CheckResult) (s : State) :
    Runs W s dt (execHopLoopbackDone dt port result s) := by
  unfold execHopLoopbackDone
  refine State.run_keeps w_port fun d h => ?_
  try dsimp only
  repeat' first
    | with_reducible assumption
    | with_reducible apply Dev.unitChecked_keeps
    | with_reducible apply Dev.modPort_keeps
    | with_reducible apply Dev.portDown_keeps
    | split
    | exact id
    | intro _
    | dsimp only
    | (with_reducible refine Dev.Keeps.of_pair (by with_reducible assumption) ?_)

theorem execDeviceUnreachable_runs (w_port : W .port) (w_log : W .log) (w_chain : W .chain) (dt : Nat) (addr : Nat) (s : State) :
    Runs W s dt (execDeviceUnreachable dt addr s) := by
  unfold execDeviceUnreachable
  refine State.run_keeps w_port fun d h => ?_
  try dsimp only
  repeat' first
    | with_reducible assumption
    | with_reducible apply Dev.replyNews_keeps
    | with_reducible apply Dev.setChain_keeps
    | with_reducible apply Dev.followBreak_keeps
    | split
    | with_reducible apply Dev.Keeps.foldl
    | with_reducible apply Dev.Keeps.foldl_pair
    | exact id
    | intro _
    | dsimp only
    | (with_reducible refine Dev.Keeps.of_pair (by with_reducible assumption) ?_)

theorem execLinkTimeout_runs (w_ctl : W .ctl) (w_port : W .port) (w_log : W .log) (w_voices : W .voices) (w_cues : W .cues) (w_chain : W .chain) (w_slotOffs : W .slotOffs) (dt : Nat) (s : State) :
    Runs W s dt (execLinkTimeout dt s) := by
  unfold execLinkTimeout
  refine State.run_keeps w_port fun d h => ?_
  try dsimp only
  repeat' first
    | with_reducible assumption
    | with_reducible apply Dev.event_keeps
    | with_reducible apply Dev.syncDomain_keeps
    | with_reducible apply Dev.enterFallback_keeps
    | with_reducible apply Dev.setChain_keeps
    | with_reducible apply Dev.dropPending_keeps
    | split
    | exact id
    | intro _
    | dsimp only
    | (with_reducible refine Dev.Keeps.of_pair (by with_reducible assumption) ?_)

theorem execChainAcap_runs (w_ctl : W .ctl) (w_port : W .port) (w_log : W .log) (w_par : W .par) (w_voices : W .voices) (w_cues : W .cues) (w_tally : W .tally) (w_odo : W .odo) (w_conv : W .conv) (w_wave : W .wave) (w_chain : W .chain) (dt : Nat) (s : State) :
    Runs W s dt (execChainAcap dt s) := by
  unfold execChainAcap
  refine State.run_keeps w_port fun d h => ?_
  try dsimp only
  repeat' first
    | with_reducible assumption
    | with_reducible apply Dev.enterAcappella_keeps
    | split
    | exact id
    | intro _
    | dsimp only
    | (with_reducible refine Dev.Keeps.of_pair (by with_reducible assumption) ?_)

theorem execBreathReclaim_runs (w_port : W .port) (w_log : W .log) (w_chain : W .chain) (dt : Nat) (addr : Nat) (s : State) :
    Runs W s dt (execBreathReclaim dt addr s) := by
  unfold execBreathReclaim
  refine State.run_keeps w_port fun d h => ?_
  try dsimp only
  repeat' first
    | with_reducible assumption
    | with_reducible apply Dev.event_keeps
    | with_reducible apply Dev.setChain_keeps
    | split
    | with_reducible apply Dev.Keeps.foldl
    | with_reducible apply Dev.Keeps.foldl_pair
    | exact id
    | intro _
    | dsimp only
    | (with_reducible refine Dev.Keeps.of_pair (by with_reducible assumption) ?_)

end Sys2Proof.Machine
end

