-- ==== Sys2Proof/Laws/RunsConverter.lean ====
section
/-! SUPPORT. Every command of Converter.lean has a next state, and what it keeps. -/

namespace Sys2Proof.Machine
open Sys2Proof

variable {W : Part → Prop}

theorem execScanStart_runs (w_port : W .port) (w_conv : W .conv) (dt : Nat) (e : EngineId) (s : State) :
    Runs W s dt (execScanStart dt e s) := by
  unfold execScanStart
  refine State.run_keeps w_port fun d h => ?_
  try dsimp only
  repeat' first
    | with_reducible assumption
    | with_reducible apply Dev.modEngine_keeps
    | with_reducible apply Dev.startScan_keeps
    | split
    | exact id
    | intro _
    | dsimp only
    | (with_reducible refine Dev.Keeps.of_pair (by with_reducible assumption) ?_)

theorem execAtrgEdge_runs (w_port : W .port) (w_conv : W .conv) (dt : Nat) (pin : Fin 2) (rising : Bool) (s : State) :
    Runs W s dt (execAtrgEdge dt pin rising s) := by
  unfold execAtrgEdge
  refine State.run_keeps w_port fun d h => ?_
  try dsimp only
  repeat' first
    | with_reducible assumption
    | with_reducible apply Dev.modEngine_keeps
    | with_reducible apply Dev.startScan_keeps
    | split
    | with_reducible apply Dev.Keeps.foldl
    | with_reducible apply Dev.Keeps.foldl_pair
    | exact id
    | intro _
    | dsimp only
    | (with_reducible refine Dev.Keeps.of_pair (by with_reducible assumption) ?_)

theorem execConversion_runs (w_port : W .port) (w_log : W .log) (w_voices : W .voices) (w_conv : W .conv) (dt : Nat) (e : EngineId) (raw : Option (BitVec 14)) (s : State) :
    Runs W s dt (execConversion dt e raw s) := by
  unfold execConversion
  refine State.run_keeps w_port fun d h => ?_
  try dsimp only
  repeat' first
    | with_reducible assumption
    | with_reducible apply Dev.conversion_keeps
    | split
    | exact id
    | intro _
    | dsimp only
    | (with_reducible refine Dev.Keeps.of_pair (by with_reducible assumption) ?_)

theorem execUrgentConversion_runs (w_port : W .port) (w_conv : W .conv) (dt : Nat) (source : UrgentSource) (input : Nat) (raw : Option (BitVec 14)) (s : State) :
    Runs W s dt (execUrgentConversion dt source input raw s) := by
  unfold execUrgentConversion
  refine State.run_keeps w_port fun d h => ?_
  try dsimp only
  repeat' first
    | with_reducible assumption
    | with_reducible apply Dev.urgentServe_keeps
    | split
    | exact id
    | intro _
    | dsimp only
    | (with_reducible refine Dev.Keeps.of_pair (by with_reducible assumption) ?_)

end Sys2Proof.Machine
end

