-- ==== Sys2Proof/Laws/RunsFlash.lean ====
section
/-! SUPPORT. Every command of Flash.lean has a next state, and what it keeps. -/

namespace Sys2Proof.Machine
open Sys2Proof

variable {W : Part → Prop}

theorem execNvProgramDone_runs (w_port : W .port) (w_log : W .log) (w_nv : W .nv) (dt : Nat) (failAt : Option Nat) (s : State) :
    Runs W s dt (execNvProgramDone dt failAt s) := by
  unfold execNvProgramDone
  refine State.run_keeps w_port fun d h => ?_
  dsimp only
  split
  · split
    · split
      · exact h
      · refine Dev.nvDone_keeps w_port w_log (Dev.verifyFail_keeps w_port w_log w_nv (Dev.setNv_keeps w_nv
          (Dev.rawEnd_keeps w_nv (Dev.setNv_keeps w_nv h _ fun g => ?_) _ _) _ (by exact id)) _ _ _)
        exact Flash.tearWord_wf _ _ _ _ (Flash.putWords_wf _ _ g)
    · split
      · exact h
      · exact Dev.nvDone_keeps w_port w_log (Dev.rawEnd_keeps w_nv
          (Dev.setNv_keeps w_nv h _ fun g => Flash.putWords_wf _ _ g) _ _)
  · exact h

theorem execNvEraseSectorDone_runs (w_port : W .port) (w_log : W .log) (w_sc : W .sc) (w_nv : W .nv) (dt : Nat) (verified : Bool) (s : State) :
    Runs W s dt (execNvEraseSectorDone dt verified s) := by
  unfold execNvEraseSectorDone
  refine State.run_keeps w_port fun d h => ?_
  dsimp only
  split
  · rename_i n rest _
    split
    · have h1 : ((d.setNv fun f => f.eraseRaw ⟨n % 16, Nat.mod_lt _ (by decide)⟩).eraseRecord
          ⟨n % 16, Nat.mod_lt _ (by decide)⟩).Keeps W (s.turn dt).dev :=
        Dev.eraseRecord_keeps w_port w_log w_sc w_nv (Dev.setNv_keeps w_nv h _ fun g => cellsErase_wf _ _ g) _
      split
      · exact Dev.nvDone_keeps w_port w_log (Dev.verifyFail_keeps w_port w_log w_nv
          (Dev.rawEnd_keeps w_nv (Dev.setNv_keeps w_nv h1 _ (by exact id)) _ _) _ _ _)
      · split
        · exact Dev.nvDone_keeps w_port w_log (Dev.rawEnd_keeps w_nv h1 _ _)
        · exact Dev.setNv_keeps w_nv h1 _ (by exact id)
    · exact h
  · exact h

theorem execRecordAppendDone_runs (w_port : W .port) (w_log : W .log) (w_sc : W .sc) (w_nv : W .nv) (dt : Nat) (verified : Bool) (s : State) :
    Runs W s dt (execRecordAppendDone dt verified s) := by
  unfold execRecordAppendDone
  refine State.run_keeps w_port fun d h => ?_
  split
  · split
    · exact h
    · extract_lets d1
      have h1 : d1.Keeps W (s.turn dt).dev :=
        Dev.setNv_keeps w_nv h _ fun g => (congrArg Memory.wf (Flash.resume_raw _ _)).trans g
      clear_value d1
      split
      · rename_i k
        have h2 (f : Flash) (r : Rec) (n : Fin 16) (hf : f.raw = d1.nv.raw) : (d1.setNv fun _ => f.putRec n r).Keeps W (s.turn dt).dev :=
          Dev.setNv_keeps w_nv h1 _ fun g => (congrArg Memory.wf hf).trans g
        extract_lets off w
        split
        · exact h2 _ _ _ (Flash.room_raw k)
        · exact Dev.verifyFail_keeps w_port w_log w_nv (h2 _ _ _ (Flash.room_raw k)) _ _ _
      · split
        · exact h
        · exact Dev.storeFull_keeps w_port w_log w_sc h1 _ _
  · exact h

theorem execFlashCheckDone_runs (w_port : W .port) (w_log : W .log) (w_sc : W .sc) (w_nv : W .nv) (dt : Nat) (result : CheckResult) (s : State) :
    Runs W s dt (execFlashCheckDone dt result s) := by
  unfold execFlashCheckDone
  refine State.run_keeps w_port fun d h => ?_
  split
  · rename_i unit after start rest _
    split
    · exact h
    · extract_lets o d1
      have h1 : d1.Keeps W (s.turn dt).dev := by
        apply Dev.unitChecked_keeps <;> first | assumption | exact Dev.setNv_keeps w_nv h _ (by exact id)
      clear_value d1 o
      split
      · refine Dev.setNv_keeps w_nv h1 _ fun g => ?_
        split <;> exact g
      · split
        · exact Dev.setNv_keeps w_nv h1 _ fun g => (congrArg Memory.wf (Flash.enqueue_raw _ _ _ _ _ _)).trans g
        · exact h1
      · split
        · exact Dev.setNv_keeps w_nv h1 _ fun g => (congrArg Memory.wf (Flash.enqueue_raw _ _ _ _ _ _)).trans g
        · exact h1
      · exact h1
  · exact h

theorem execGarbageCollection_runs (w_port : W .port) (w_log : W .log) (w_nv : W .nv) (gc : GcStep) (s : State) :
    Runs W s gc.dt (execGarbageCollection gc s) := by
  unfold execGarbageCollection
  refine State.run_keeps w_port fun d h => ?_
  split
  · split
    · split
      · exact Dev.setNv_keeps w_nv h _ fun g => (congrArg Memory.wf (Flash.gcBegin_raw _ _ _)).trans g
      · exact h
    · exact h
  · split
    · exact h
    · split
      · split
        · exact h
        · split
          · exact Dev.setNv_keeps w_nv h _ (by exact id)
          · rename_i k
            have r := Flash.room_raw k
            extract_lets off w
            split
            · refine Dev.setNv_keeps w_nv h _ fun g => (congrArg Memory.wf ((Flash.gcNext_raw _ _ _ _).trans ?_)).trans g
              exact r
            · exact Dev.verifyFail_keeps w_port w_log w_nv (Dev.setNv_keeps w_nv h _ fun g => (congrArg Memory.wf r).trans g) _ _ _
      · split
        · exact h
        · split
          · exact Dev.setNv_keeps w_nv h _ (by exact id)
          · exact Dev.verifyFail_keeps w_port w_log w_nv (Dev.setNv_keeps w_nv h _ (by exact id)) _ _ _

theorem execRecScanDone_runs (w_port : W .port) (w_log : W .log) (w_voices : W .voices) (w_sc : W .sc) (w_nv : W .nv) (dt : Nat) (_duration : Told) (s : State) :
    Runs W s dt (execRecScanDone dt _duration s) := by
  unfold execRecScanDone
  refine State.run_keeps w_port fun d h => ?_
  split
  · have h1 : (d.scanDirty.setNv Flash.closeOlder).scanTorn.Keeps W (s.turn dt).dev :=
      Dev.scanTorn_keeps w_port w_log w_nv (Dev.setNv_keeps w_nv (Dev.scanDirty_keeps w_port w_log w_nv h) _
        fun g => (congrArg Memory.wf (Flash.closeOlder_raw _)).trans g)
    generalize (d.scanDirty.setNv Flash.closeOlder).scanTorn = d1 at h1 ⊢
    extract_lets top keys erases rseq d2 sc d3
    have h2 : d2.Keeps W (s.turn dt).dev := Dev.loadLifetime_keeps w_voices (Dev.setNv_keeps w_nv h1 _ (fun g => by exact g))
    clear_value d2
    have h3 : d3.Keeps W (s.turn dt).dev := h2.sc w_sc _
    clear_value d3
    refine Dev.event_keeps w_port w_log ?_ _ _ _
    split
    · exact h3
    · exact Dev.flushHeld_keeps w_port w_log w_sc w_nv h3
  · exact h

end Sys2Proof.Machine
end

