-- ==== Sys2Proof/Laws/RunsHostPort.lean ====
section
/-! SUPPORT. Every command of HostPort.lean has a next state, and what it keeps. -/

namespace Sys2Proof.Machine
open Sys2Proof

variable {W : Part → Prop}

theorem execCommitEdge_runs (w_time : W .time) (w_ctl : W .ctl) (w_ka : W .ka) (w_port : W .port) (w_log : W .log) (w_par : W .par) (w_voices : W .voices) (w_banks : W .banks) (w_staggers : W .staggers) (w_lh : W .lh) (w_cues : W .cues) (w_tally : W .tally) (w_odo : W .odo) (w_sc : W .sc) (w_conv : W .conv) (w_wave : W .wave) (w_therm : W .therm) (w_nv : W .nv) (w_score : W .score) (w_link : W .link) (w_chain : W .chain) (w_patch : W .patch) (w_pd : W .pd) (w_slotOffs : W .slotOffs) (w_slotFaults : W .slotFaults) (w_edges : W .edges) (dt : Nat) (s : State) :
    Runs W s dt (execCommitEdge dt s) := by
  unfold execCommitEdge
  refine State.run_keeps w_port fun d h => ?_
  try dsimp only
  repeat' first
    | with_reducible assumption
    | with_reducible apply Dev.commitNow_keeps
    | split
    | exact id
    | intro _
    | dsimp only
    | (with_reducible refine Dev.Keeps.of_pair (by with_reducible assumption) ?_)

theorem execBar_runs (w_time : W .time) (w_ctl : W .ctl) (w_ka : W .ka) (w_port : W .port) (w_log : W .log) (w_par : W .par) (w_voices : W .voices) (w_banks : W .banks) (w_staggers : W .staggers) (w_lh : W .lh) (w_cues : W .cues) (w_tally : W .tally) (w_odo : W .odo) (w_sc : W .sc) (w_conv : W .conv) (w_wave : W .wave) (w_therm : W .therm) (w_nv : W .nv) (w_score : W .score) (w_link : W .link) (w_chain : W .chain) (w_patch : W .patch) (w_pd : W .pd) (w_slotOffs : W .slotOffs) (w_slotFaults : W .slotFaults) (w_edges : W .edges) (w_found : W .found) (dt : Nat) (low : Nat) (sdi : List Byte) (bits : Fin 8) (cut : Bool) (s : State) :
    Runs W s dt (execBar dt low sdi bits cut s) := by
  have hb : (s.beforeBar dt).dev.Keeps W (s.turn dt).dev ∧ (s.beforeBar dt).pending = s.pending ∧
      (s.beforeBar dt).slot = (s.turn dt).slot := by
    unfold State.beforeBar
    dsimp only
    split
    · refine ⟨State.after_keeps w_port ?_, s.turn_pending dt, rfl⟩
      apply Dev.commitNow_keeps <;> first | assumption | exact .refl _
    · exact ⟨.refl _, s.turn_pending dt, rfl⟩
  obtain ⟨hd, hp, hs⟩ := hb
  unfold execBar
  generalize s.beforeBar dt = s1 at hd hp hs
  have turn {u : State} (hu : u.dev.Keeps W (s.turn dt).dev) (n : Nat) : (u.turn n).dev.Keeps W (s.turn dt).dev := by
    apply State.turn_keeps <;> assumption
  have run {u : State} (hu : u.dev.Keeps W (s.turn dt).dev) (hq : u.pending = s.pending)
      (hv : (s.turn dt).slot.Settled → u.slot.Settled) {f : Dev → Dev}
      (hf : ∀ d : Dev, d.Keeps W (s.turn dt).dev → (f d).Keeps W (s.turn dt).dev) :
      Runs W s dt ((u.whileLow low).1.run (u.whileLow low).2 f) := by
    have low2 : (u.whileLow low).1.dev.Keeps W (s.turn dt).dev ∧ (u.whileLow low).1.pending = s.pending ∧
        ((s.turn dt).slot.Settled → (u.whileLow low).1.slot.Settled) := by
      unfold State.whileLow
      split
      · dsimp only
        split
        · refine ⟨State.after_keeps w_port ?_, (u.turn_pending _).trans hq, fun g => State.turn_settled _ (hv g)⟩
          apply Dev.watchdogExpire_keeps <;> first | assumption | exact turn hu _
        · exact ⟨hu, hq, hv⟩
      · exact ⟨hu, hq, hv⟩
    generalize u.whileLow low = q at low2
    exact ⟨_, rfl, (q.1.turn_pending _).trans low2.2.1, fun g => State.turn_settled _ (low2.2.2 g),
      State.after_keeps w_port (hf _ (turn low2.1 _))⟩
  dsimp only
  split
  · exact run hd hp (fun g => hs ▸ g) fun _ h => h
  · split
    · refine run hd hp (fun g => hs ▸ g) fun d h => ?_
      with_reducible apply Dev.setPort_keeps w_port h
      exact id
    · refine run (u := { s1 with
        dev := s1.dev.setPort fun p => p.fall (s.shown dt).port ((s.shown dt).sdoBytes s1.snap sdi.length)
        snap := s.shown dt }) ?_ hp (fun g => hs ▸ g) fun d h => ?_
      · with_reducible apply Dev.setPort_keeps w_port hd
        exact id
      · split
        · exact h
        · exact Dev.settleBar_keeps w_port h _ _ _

theorem execDownbeat_runs (w_time : W .time) (w_ctl : W .ctl) (w_ka : W .ka) (w_port : W .port) (w_log : W .log) (w_par : W .par) (w_voices : W .voices) (w_banks : W .banks) (w_staggers : W .staggers) (w_lh : W .lh) (w_cues : W .cues) (w_tally : W .tally) (w_odo : W .odo) (w_sc : W .sc) (w_conv : W .conv) (w_wave : W .wave) (w_therm : W .therm) (w_nv : W .nv) (w_score : W .score) (w_link : W .link) (w_chain : W .chain) (w_patch : W .patch) (w_pd : W .pd) (w_slotOffs : W .slotOffs) (w_slotFaults : W .slotFaults) (w_edges : W .edges) (dt : Nat) (s : State) :
    Runs W s dt (execDownbeat dt s) := by
  unfold execDownbeat
  refine State.run_keeps w_port fun d h => ?_
  try dsimp only
  repeat' first
    | with_reducible assumption
    | with_reducible apply Dev.setPort_keeps
    | with_reducible apply Dev.setChain_keeps
    | with_reducible apply Dev.dbAct_keeps
    | split
    | with_reducible apply Dev.Keeps.foldl
    | with_reducible apply Dev.Keeps.foldl_pair
    | exact id
    | intro _
    | dsimp only
    | (with_reducible refine Dev.Keeps.of_pair (by with_reducible assumption) ?_)
    | (simp only [List.length_map]; assumption)
    | exact Nat.le_trans (List.length_filter_le _ _) (by assumption)
    | exact Nat.zero_le _

theorem execWatchdog_runs (w_ctl : W .ctl) (w_port : W .port) (w_log : W .log) (w_voices : W .voices) (w_cues : W .cues) (w_chain : W .chain) (w_slotOffs : W .slotOffs) (dt : Nat) (s : State) :
    Runs W s dt (execWatchdog dt s) := by
  unfold execWatchdog
  refine State.run_keeps w_port fun d h => ?_
  try dsimp only
  repeat' first
    | with_reducible assumption
    | with_reducible apply Dev.watchdogExpire_keeps
    | split
    | exact id
    | intro _
    | dsimp only
    | (with_reducible refine Dev.Keeps.of_pair (by with_reducible assumption) ?_)

theorem execHostPortOpen_runs (w_port : W .port) (dt : Nat) (s : State) :
    Runs W s dt (execHostPortOpen dt s) := by
  unfold execHostPortOpen
  refine State.run_keeps w_port fun d h => ?_
  try dsimp only
  repeat' first
    | with_reducible assumption
    | with_reducible apply Dev.raiseIrq_keeps
    | with_reducible apply Dev.setPort_keeps
    | split
    | exact id
    | intro _
    | dsimp only
    | (with_reducible refine Dev.Keeps.of_pair (by with_reducible assumption) ?_)
    | (simp only [List.length_map]; assumption)
    | exact Nat.le_trans (List.length_filter_le _ _) (by assumption)
    | exact Nat.zero_le _

theorem execVioLost_runs (w_port : W .port) (w_log : W .log) (dt : Nat) (s : State) :
    Runs W s dt (execVioLost dt s) := by
  unfold execVioLost
  refine State.run_keeps w_port fun d h => ?_
  try dsimp only
  repeat' first
    | with_reducible assumption
    | with_reducible apply Dev.event_keeps
    | with_reducible apply Dev.setPort_keeps
    | split
    | exact id
    | intro _
    | dsimp only
    | (with_reducible refine Dev.Keeps.of_pair (by with_reducible assumption) ?_)
    | (simp only [List.length_map]; assumption)
    | exact Nat.le_trans (List.length_filter_le _ _) (by assumption)
    | exact Nat.zero_le _

theorem execVioReturn_runs (w_port : W .port) (w_log : W .log) (w_wave : W .wave) (dt : Nat) (s : State) :
    Runs W s dt (execVioReturn dt s) := by
  unfold execVioReturn
  refine State.run_keeps w_port fun d h => ?_
  try dsimp only
  repeat' first
    | with_reducible assumption
    | with_reducible apply Dev.event_keeps
    | with_reducible apply Dev.setPort_keeps
    | split
    | with_reducible apply Dev.Keeps.wave
    | exact id
    | intro _
    | dsimp only
    | (with_reducible refine Dev.Keeps.of_pair (by with_reducible assumption) ?_)
    | (simp only [List.length_map]; assumption)
    | exact Nat.le_trans (List.length_filter_le _ _) (by assumption)
    | exact Nat.zero_le _

end Sys2Proof.Machine
end

