-- ==== Sys2Proof/Laws/RunsOpcodes.lean ====
section
/-! SUPPORT. Every opcode row has a next state, and what it keeps: what its own action keeps, and the reply. -/

namespace Sys2Proof.Machine
open Sys2Proof

variable {W : Part → Prop} {r₀ : Dev}

theorem Dev.execute_keeps_of {snap d : Dev} {p : Packet} {c : Bool} (h : d.Keeps W r₀)
    (hf : (Dev.perform snap d p c).1.Keeps W r₀) : (Dev.execute snap d p c).1.Keeps W r₀ := by
  unfold Dev.execute
  repeat' split
  all_goals first
    | exact h
    | exact hf

theorem Dev.finish_keeps_of (w_port : W .port) (w_chain : W .chain) {r : Dev × Option Answer} {p : Packet} (n c : Bool)
    (hp : p.opc = 0xF0 → W .patch) (h : r.1.Keeps W r₀) : (Dev.finish r n c p).Keeps W r₀ := by
  unfold Dev.finish
  split
  · refine Dev.answer_keeps w_port w_chain ?_ _ _ _ _ _
    unfold Dev.keepPatchStatus
    split
    · rename_i k
      exact Dev.setPatch_keeps (hp (of_decide_eq_true (Bool.and_eq_true_iff.1 k).1)) h _
    · exact h
  · exact h

theorem Dev.takeOwn_keeps_of (w_port : W .port) (w_chain : W .chain) {snap d : Dev} {p : Packet}
    (hp : p.opc = 0xF0 → W .patch) (h : d.Keeps W r₀)
    (hf : ∀ x : Dev, x.Keeps W r₀ → (Dev.perform snap x p false).1.Keeps W r₀) : (Dev.takeOwn snap d p false).Keeps W r₀ := by
  unfold Dev.takeOwn
  split
  · exact Dev.finish_keeps_of w_port w_chain _ _ hp h
  · split
    · extract_lets serial q d1 a
      have h1 : d1.Keeps W r₀ := h.port w_port _ id
      exact Dev.answer_keeps w_port w_chain (Dev.countAccepted_keeps w_port h1 _ _) _ _ _ _ _
    · exact Dev.finish_keeps_of w_port w_chain _ _ hp
        (Dev.countAccepted_keeps w_port (Dev.execute_keeps_of h (hf _ h)) _ _)

theorem Dev.takePacket_keeps_of (w_port : W .port) (w_chain : W .chain) {snap d : Dev} {p : Packet}
    (hp : p.opc = 0xF0 → W .patch) (h : d.Keeps W r₀)
    (hf : ∀ x : Dev, x.Keeps W r₀ → (Dev.perform snap x p false).1.Keeps W r₀) : (Dev.takePacket snap d p).Keeps W r₀ := by
  unfold Dev.takePacket
  dsimp only
  repeat' split
  · exact Dev.answer_keeps w_port w_chain h _ _ _ _ _
  · exact Dev.takeOwn_keeps_of w_port w_chain hp (Dev.modBar_keeps w_chain h _) hf
  · exact Dev.answer_keeps w_port w_chain h _ _ _ _ _
  · exact Dev.answer_keeps w_port w_chain h _ _ _ _ _
  · exact Dev.takeOwn_keeps_of w_port w_chain hp (Dev.forward_keeps w_chain h _) hf
  · exact Dev.forward_keeps w_chain h _

/-- The command of an opcode row keeps what the opcode's own action keeps. -/
theorem State.packet_keeps (w_port : W .port) (w_chain : W .chain) {s : State} {opc dest tag : Byte} {a : List Byte}
    (hp : opc = 0xF0 → W .patch)
    (hf : ∀ x : Dev, x.Keeps W s.dev →
      (Dev.perform s.snap x { dest := dest, opc := opc, tag := tag, params := a } false).1.Keeps W s.dev) :
    Runs W s 0 (s.packet opc dest tag a) := by
  refine State.run_keeps w_port fun d h => ?_
  have h1 := Dev.takePacket_keeps_of w_port w_chain hp (Dev.openBar_keeps w_port w_chain h ((d.port.barNo + 65535) % 65536)) hf
  unfold Dev.commitBar Dev.takeAll
  dsimp only
  split
  · exact h1
  · exact h1

theorem execNop_runs (w_port : W .port) (w_chain : W .chain) (p : Pkt) (s : State) :
    Runs W s 0 (execNop p s) := by
  refine State.packet_keeps w_port w_chain (fun k => absurd k (by decide)) fun x h => ?_
  show (reads x (opNop _ x)).1.Keeps W _
  exact h

theorem execIdentify_runs (w_port : W .port) (w_chain : W .chain) (p : Pkt) (s : State) :
    Runs W s 0 (execIdentify p s) := by
  refine State.packet_keeps w_port w_chain (fun k => absurd k (by decide)) fun x h => ?_
  show (reads x (opIdentify s.snap)).1.Keeps W _
  exact h

theorem execStatusDetail_runs (w_port : W .port) (w_chain : W .chain) (p : Pkt) (s : State) :
    Runs W s 0 (execStatusDetail p s) := by
  refine State.packet_keeps w_port w_chain (fun k => absurd k (by decide)) fun x h => ?_
  show (reads x (opStatusDetail s.snap _)).1.Keeps W _
  exact h

theorem execEventRead_runs (w_port : W .port) (w_chain : W .chain) (p : Pkt) (s : State) :
    Runs W s 0 (execEventRead p s) := by
  refine State.packet_keeps w_port w_chain (fun k => absurd k (by decide)) fun x h => ?_
  show (reads x (opEventRead s.snap _)).1.Keeps W _
  exact h

theorem execEventAck_runs (w_port : W .port) (w_log : W .log) (w_chain : W .chain) (p : Pkt) (s : State) :
    Runs W s 0 (execEventAck p s) := by
  refine State.packet_keeps w_port w_chain (fun k => absurd k (by decide)) fun x h => ?_
  show (acts (opEventAck _ x)).1.Keeps W _
  apply opEventAck_keeps <;> with_reducible assumption

theorem execSoftReset_runs (w_time : W .time) (w_ctl : W .ctl) (w_ka : W .ka) (w_port : W .port) (w_log : W .log) (w_par : W .par) (w_voices : W .voices) (w_banks : W .banks) (w_staggers : W .staggers) (w_lh : W .lh) (w_cues : W .cues) (w_tally : W .tally) (w_odo : W .odo) (w_sc : W .sc) (w_conv : W .conv) (w_wave : W .wave) (w_therm : W .therm) (w_nv : W .nv) (w_link : W .link) (w_chain : W .chain) (w_patch : W .patch) (w_pd : W .pd) (w_slotOffs : W .slotOffs) (w_slotFaults : W .slotFaults) (w_edges : W .edges) (p : Pkt) (s : State) :
    Runs W s 0 (execSoftReset p s) := by
  refine State.packet_keeps w_port w_chain (fun k => absurd k (by decide)) fun x h => ?_
  show (opSoftReset _ x).1.Keeps W _
  apply opSoftReset_keeps <;> with_reducible assumption

theorem execParamWrite_runs (w_port : W .port) (w_par : W .par) (w_chain : W .chain) (p : Pkt) (s : State) :
    Runs W s 0 (execParamWrite p s) := by
  refine State.packet_keeps w_port w_chain (fun k => absurd k (by decide)) fun x h => ?_
  show (acts (opParamWrite _ x)).1.Keeps W _
  apply opParamWrite_keeps <;> with_reducible assumption

theorem execParamRead_runs (w_port : W .port) (w_chain : W .chain) (p : Pkt) (s : State) :
    Runs W s 0 (execParamRead p s) := by
  refine State.packet_keeps w_port w_chain (fun k => absurd k (by decide)) fun x h => ?_
  show (reads x (opParamRead s.snap _)).1.Keeps W _
  exact h

theorem execImageCheck_runs (w_port : W .port) (w_chain : W .chain) (p : Pkt) (s : State) :
    Runs W s 0 (execImageCheck p s) := by
  refine State.packet_keeps w_port w_chain (fun k => absurd k (by decide)) fun x h => ?_
  show (reads x (opImageCheck x)).1.Keeps W _
  exact h

theorem execConduct_runs (w_ctl : W .ctl) (w_port : W .port) (w_log : W .log) (w_par : W .par) (w_voices : W .voices) (w_cues : W .cues) (w_tally : W .tally) (w_odo : W .odo) (w_sc : W .sc) (w_conv : W .conv) (w_wave : W .wave) (w_therm : W .therm) (w_nv : W .nv) (w_chain : W .chain) (w_patch : W .patch) (p : Pkt) (s : State) :
    Runs W s 0 (execConduct p s) := by
  refine State.packet_keeps w_port w_chain (fun k => absurd k (by decide)) fun x h => ?_
  show (acts (opConduct _ x)).1.Keeps W _
  apply opConduct_keeps <;> with_reducible assumption

theorem execParamWriteLive_runs (w_port : W .port) (w_par : W .par) (w_voices : W .voices) (w_conv : W .conv) (w_chain : W .chain) (p : Pkt) (s : State) :
    Runs W s 0 (execParamWriteLive p s) := by
  refine State.packet_keeps w_port w_chain (fun k => absurd k (by decide)) fun x h => ?_
  show (acts (opParamWriteLive _ x)).1.Keeps W _
  apply opParamWriteLive_keeps <;> with_reducible assumption

theorem execAcappella_runs (w_ctl : W .ctl) (w_port : W .port) (w_log : W .log) (w_par : W .par) (w_voices : W .voices) (w_cues : W .cues) (w_tally : W .tally) (w_odo : W .odo) (w_conv : W .conv) (w_wave : W .wave) (w_nv : W .nv) (w_score : W .score) (w_chain : W .chain) (w_pd : W .pd) (p : Pkt) (s : State) :
    Runs W s 0 (execAcappella p s) := by
  refine State.packet_keeps w_port w_chain (fun k => absurd k (by decide)) fun x h => ?_
  show (acts (opAcappella x)).1.Keeps W _
  apply opAcappella_keeps <;> with_reducible assumption

theorem execVoiceSetOn_runs (w_port : W .port) (w_log : W .log) (w_voices : W .voices) (w_cues : W .cues) (w_therm : W .therm) (w_chain : W .chain) (w_slotOffs : W .slotOffs) (p : Pkt) (s : State) :
    Runs W s 0 (execVoiceSetOn p s) := by
  refine State.packet_keeps w_port w_chain (fun k => absurd k (by decide)) fun x h => ?_
  show (acts (opVoiceSet _ x)).1.Keeps W _
  apply opVoiceSet_keeps <;> with_reducible assumption

theorem execVoiceSetOff_runs (w_port : W .port) (w_log : W .log) (w_voices : W .voices) (w_cues : W .cues) (w_therm : W .therm) (w_chain : W .chain) (w_slotOffs : W .slotOffs) (p : Pkt) (s : State) :
    Runs W s 0 (execVoiceSetOff p s) := by
  refine State.packet_keeps w_port w_chain (fun k => absurd k (by decide)) fun x h => ?_
  show (acts (opVoiceSet _ x)).1.Keeps W _
  apply opVoiceSet_keeps <;> with_reducible assumption

theorem execVoiceDuty_runs (w_port : W .port) (w_voices : W .voices) (w_chain : W .chain) (p : Pkt) (s : State) :
    Runs W s 0 (execVoiceDuty p s) := by
  refine State.packet_keeps w_port w_chain (fun k => absurd k (by decide)) fun x h => ?_
  show (acts (opVoiceDuty _ x)).1.Keeps W _
  apply opVoiceDuty_keeps <;> with_reducible assumption

theorem execVoiceClearFault_runs (w_port : W .port) (w_voices : W .voices) (w_chain : W .chain) (p : Pkt) (s : State) :
    Runs W s 0 (execVoiceClearFault p s) := by
  refine State.packet_keeps w_port w_chain (fun k => absurd k (by decide)) fun x h => ?_
  show (acts (opVoiceClearFault _ x)).1.Keeps W _
  apply opVoiceClearFault_keeps <;> with_reducible assumption

theorem execVoiceRetire_runs (w_port : W .port) (w_log : W .log) (w_voices : W .voices) (w_cues : W .cues) (w_sc : W .sc) (w_conv : W .conv) (w_wave : W .wave) (w_therm : W .therm) (w_nv : W .nv) (w_chain : W .chain) (p : Pkt) (s : State) :
    Runs W s 0 (execVoiceRetire p s) := by
  refine State.packet_keeps w_port w_chain (fun k => absurd k (by decide)) fun x h => ?_
  show (acts (opVoiceRetire _ x)).1.Keeps W _
  apply opVoiceRetire_keeps <;> with_reducible assumption

theorem execBankCut_runs (w_port : W .port) (w_log : W .log) (w_voices : W .voices) (w_banks : W .banks) (w_staggers : W .staggers) (w_cues : W .cues) (w_sc : W .sc) (w_conv : W .conv) (w_wave : W .wave) (w_therm : W .therm) (w_nv : W .nv) (w_chain : W .chain) (w_slotOffs : W .slotOffs) (w_slotFaults : W .slotFaults) (h : Hdr) (banks : BitVec 4) (s : State) :
    Runs W s 0 (execBankCut h banks s) := by
  refine State.packet_keeps w_port w_chain (fun k => absurd k (by decide)) fun x h => ?_
  show (acts (opBankCut _ x)).1.Keeps W _
  apply opBankCut_keeps <;> with_reducible assumption

theorem execBankRestore_runs (w_port : W .port) (w_log : W .log) (w_voices : W .voices) (w_banks : W .banks) (w_staggers : W .staggers) (w_cues : W .cues) (w_sc : W .sc) (w_conv : W .conv) (w_wave : W .wave) (w_therm : W .therm) (w_nv : W .nv) (w_chain : W .chain) (w_slotOffs : W .slotOffs) (w_slotFaults : W .slotFaults) (h : Hdr) (banks : BitVec 4) (s : State) :
    Runs W s 0 (execBankRestore h banks s) := by
  refine State.packet_keeps w_port w_chain (fun k => absurd k (by decide)) fun x h => ?_
  show (acts (opBankCut _ x)).1.Keeps W _
  apply opBankCut_keeps <;> with_reducible assumption

theorem execPark_runs (w_ctl : W .ctl) (w_port : W .port) (w_log : W .log) (w_voices : W .voices) (w_banks : W .banks) (w_staggers : W .staggers) (w_cues : W .cues) (w_sc : W .sc) (w_conv : W .conv) (w_wave : W .wave) (w_therm : W .therm) (w_nv : W .nv) (w_score : W .score) (w_chain : W .chain) (w_pd : W .pd) (w_slotFaults : W .slotFaults) (p : Pkt) (s : State) :
    Runs W s 0 (execPark p s) := by
  refine State.packet_keeps w_port w_chain (fun k => absurd k (by decide)) fun x h => ?_
  show (acts (opPark x)).1.Keeps W _
  apply opPark_keeps <;> with_reducible assumption

theorem execResume_runs (w_ctl : W .ctl) (w_port : W .port) (w_log : W .log) (w_par : W .par) (w_voices : W .voices) (w_tally : W .tally) (w_odo : W .odo) (w_conv : W .conv) (w_wave : W .wave) (w_nv : W .nv) (w_score : W .score) (w_chain : W .chain) (w_pd : W .pd) (p : Pkt) (s : State) :
    Runs W s 0 (execResume p s) := by
  refine State.packet_keeps w_port w_chain (fun k => absurd k (by decide)) fun x h => ?_
  show (acts (opResume x)).1.Keeps W _
  apply opResume_keeps <;> with_reducible assumption

theorem execCueAdd_runs (w_port : W .port) (w_log : W .log) (w_voices : W .voices) (w_cues : W .cues) (w_therm : W .therm) (w_chain : W .chain) (w_slotOffs : W .slotOffs) (p : Pkt) (s : State) :
    Runs W s 0 (execCueAdd p s) := by
  refine State.packet_keeps w_port w_chain (fun k => absurd k (by decide)) fun x h => ?_
  show (acts (opCueAdd _ x)).1.Keeps W _
  apply opCueAdd_keeps <;> with_reducible assumption

theorem execCueCancel_runs (w_port : W .port) (w_voices : W .voices) (w_cues : W .cues) (w_chain : W .chain) (p : Pkt) (s : State) :
    Runs W s 0 (execCueCancel p s) := by
  refine State.packet_keeps w_port w_chain (fun k => absurd k (by decide)) fun x h => ?_
  show (acts (opCueCancel _ x)).1.Keeps W _
  apply opCueCancel_keeps <;> with_reducible assumption

theorem execCueQuery_runs (w_port : W .port) (w_cues : W .cues) (w_chain : W .chain) (p : Pkt) (s : State) :
    Runs W s 0 (execCueQuery p s) := by
  refine State.packet_keeps w_port w_chain (fun k => absurd k (by decide)) fun x h => ?_
  show (if p.params.length = 2 then acts (opCueStats s.snap _ x) else reads x (opCueQuery s.snap _)).1.Keeps W _
  split
  · apply opCueStats_keeps <;> with_reducible assumption
  · exact h

theorem execCueQueryStats_runs (w_port : W .port) (w_cues : W .cues) (w_chain : W .chain) (h : Hdr) (ctrl : Byte) (reserved : Byte) (s : State) :
    Runs W s 0 (execCueQueryStats h ctrl reserved s) := by
  refine State.packet_keeps w_port w_chain (fun k => absurd k (by decide)) fun x h => ?_
  show (acts (opCueStats s.snap _ x)).1.Keeps W _
  apply opCueStats_keeps <;> with_reducible assumption

theorem execOdometerRead_runs (w_port : W .port) (w_chain : W .chain) (h : Hdr) (s : State) :
    Runs W s 0 (execOdometerRead h s) := by
  refine State.packet_keeps w_port w_chain (fun k => absurd k (by decide)) fun x h => ?_
  show (reads x (opOdometerRead s.snap)).1.Keeps W _
  exact h

theorem execOdometerRebase_runs (w_port : W .port) (w_cues : W .cues) (w_odo : W .odo) (w_chain : W .chain) (h : Hdr) (value : BitVec 64) (s : State) :
    Runs W s 0 (execOdometerRebase h value s) := by
  refine State.packet_keeps w_port w_chain (fun k => absurd k (by decide)) fun x h => ?_
  show (acts (opOdometerRebase _ x)).1.Keeps W _
  apply opOdometerRebase_keeps <;> with_reducible assumption

theorem execTallyRead_runs (w_port : W .port) (w_tally : W .tally) (w_chain : W .chain) (h : Hdr) (input : Byte) (maxEntries : Byte) (ctrl : Byte) (reserved : Byte) (s : State) :
    Runs W s 0 (execTallyRead h input maxEntries ctrl reserved s) := by
  refine State.packet_keeps w_port w_chain (fun k => absurd k (by decide)) fun x h => ?_
  show (acts (opTallyRead s.snap _ x)).1.Keeps W _
  apply opTallyRead_keeps <;> with_reducible assumption

theorem execLeadRead_runs (w_port : W .port) (w_chain : W .chain) (p : Pkt) (s : State) :
    Runs W s 0 (execLeadRead p s) := by
  refine State.packet_keeps w_port w_chain (fun k => absurd k (by decide)) fun x h => ?_
  show (reads x (opLeadRead s.snap _)).1.Keeps W _
  exact h

theorem execAdcReadBuffer_runs (w_port : W .port) (w_conv : W .conv) (w_chain : W .chain) (p : Pkt) (s : State) :
    Runs W s 0 (execAdcReadBuffer p s) := by
  refine State.packet_keeps w_port w_chain (fun k => absurd k (by decide)) fun x h => ?_
  show (acts (opReadBuffer s.snap _ x)).1.Keeps W _
  apply opReadBuffer_keeps <;> with_reducible assumption

theorem execConvertNow_runs (w_port : W .port) (w_conv : W .conv) (w_chain : W .chain) (p : Pkt) (s : State) :
    Runs W s 0 (execConvertNow p s) := by
  refine State.packet_keeps w_port w_chain (fun k => absurd k (by decide)) fun x h => ?_
  show (acts (opConvertNow _ x)).1.Keeps W _
  apply opConvertNow_keeps <;> with_reducible assumption

theorem execAdcEnginePause_runs (w_port : W .port) (w_conv : W .conv) (w_chain : W .chain) (h : Hdr) (engines : BitVec 4) (s : State) :
    Runs W s 0 (execAdcEnginePause h engines s) := by
  refine State.packet_keeps w_port w_chain (fun k => absurd k (by decide)) fun x h => ?_
  show (acts (opEngineCtrl _ x)).1.Keeps W _
  apply opEngineCtrl_keeps <;> with_reducible assumption

theorem execAdcEngineRun_runs (w_port : W .port) (w_conv : W .conv) (w_chain : W .chain) (h : Hdr) (engines : BitVec 4) (s : State) :
    Runs W s 0 (execAdcEngineRun h engines s) := by
  refine State.packet_keeps w_port w_chain (fun k => absurd k (by decide)) fun x h => ?_
  show (acts (opEngineCtrl _ x)).1.Keeps W _
  apply opEngineCtrl_keeps <;> with_reducible assumption

theorem execAdcEngineFlush_runs (w_port : W .port) (w_conv : W .conv) (w_chain : W .chain) (h : Hdr) (engines : BitVec 4) (s : State) :
    Runs W s 0 (execAdcEngineFlush h engines s) := by
  refine State.packet_keeps w_port w_chain (fun k => absurd k (by decide)) fun x h => ?_
  show (acts (opEngineCtrl _ x)).1.Keeps W _
  apply opEngineCtrl_keeps <;> with_reducible assumption

theorem execAdcCalStatus_runs (w_port : W .port) (w_chain : W .chain) (p : Pkt) (s : State) :
    Runs W s 0 (execAdcCalStatus p s) := by
  refine State.packet_keeps w_port w_chain (fun k => absurd k (by decide)) fun x h => ?_
  show (reads x (opCalStatus s.snap _)).1.Keeps W _
  exact h

theorem execWaveReport_runs (w_port : W .port) (w_wave : W .wave) (w_chain : W .chain) (p : Pkt) (s : State) :
    Runs W s 0 (execWaveReport p s) := by
  refine State.packet_keeps w_port w_chain (fun k => absurd k (by decide)) fun x h => ?_
  show (acts (opWaveCtrl _ x)).1.Keeps W _
  apply opWaveCtrl_keeps <;> with_reducible assumption

theorem execWaveFreeze_runs (w_port : W .port) (w_wave : W .wave) (w_chain : W .chain) (p : Pkt) (s : State) :
    Runs W s 0 (execWaveFreeze p s) := by
  refine State.packet_keeps w_port w_chain (fun k => absurd k (by decide)) fun x h => ?_
  show (acts (opWaveCtrl _ x)).1.Keeps W _
  apply opWaveCtrl_keeps <;> with_reducible assumption

theorem execWaveRelease_runs (w_port : W .port) (w_wave : W .wave) (w_chain : W .chain) (p : Pkt) (s : State) :
    Runs W s 0 (execWaveRelease p s) := by
  refine State.packet_keeps w_port w_chain (fun k => absurd k (by decide)) fun x h => ?_
  show (acts (opWaveCtrl _ x)).1.Keeps W _
  apply opWaveCtrl_keeps <;> with_reducible assumption

theorem execWaveArmFault_runs (w_port : W .port) (w_wave : W .wave) (w_chain : W .chain) (p : Pkt) (s : State) :
    Runs W s 0 (execWaveArmFault p s) := by
  refine State.packet_keeps w_port w_chain (fun k => absurd k (by decide)) fun x h => ?_
  show (acts (opWaveCtrl _ x)).1.Keeps W _
  apply opWaveCtrl_keeps <;> with_reducible assumption

theorem execWaveClear_runs (w_port : W .port) (w_wave : W .wave) (w_chain : W .chain) (p : Pkt) (s : State) :
    Runs W s 0 (execWaveClear p s) := by
  refine State.packet_keeps w_port w_chain (fun k => absurd k (by decide)) fun x h => ?_
  show (acts (opWaveCtrl _ x)).1.Keeps W _
  apply opWaveCtrl_keeps <;> with_reducible assumption

theorem execWaveStatus_runs (w_port : W .port) (w_chain : W .chain) (p : Pkt) (s : State) :
    Runs W s 0 (execWaveStatus p s) := by
  refine State.packet_keeps w_port w_chain (fun k => absurd k (by decide)) fun x h => ?_
  show (reads x (opWaveStatus s.snap _)).1.Keeps W _
  exact h

theorem execThermalRead_runs (w_port : W .port) (w_chain : W .chain) (p : Pkt) (s : State) :
    Runs W s 0 (execThermalRead p s) := by
  refine State.packet_keeps w_port w_chain (fun k => absurd k (by decide)) fun x h => ?_
  show (reads x (opThermalRead s.snap _)).1.Keeps W _
  exact h

theorem execThrottleAck_runs (w_port : W .port) (w_voices : W .voices) (w_therm : W .therm) (w_chain : W .chain) (p : Pkt) (s : State) :
    Runs W s 0 (execThrottleAck p s) := by
  refine State.packet_keeps w_port w_chain (fun k => absurd k (by decide)) fun x h => ?_
  show (acts (opThrottleAck _ x)).1.Keeps W _
  apply opThrottleAck_keeps <;> with_reducible assumption

theorem execAnchorBlip_runs (w_port : W .port) (w_therm : W .therm) (w_chain : W .chain) (p : Pkt) (s : State) :
    Runs W s 0 (execAnchorBlip p s) := by
  refine State.packet_keeps w_port w_chain (fun k => absurd k (by decide)) fun x h => ?_
  show (acts (opAnchorBlip _ x)).1.Keeps W _
  apply opAnchorBlip_keeps <;> with_reducible assumption

theorem execNvRead_runs (w_port : W .port) (w_chain : W .chain) (p : Pkt) (s : State) :
    Runs W s 0 (execNvRead p s) := by
  refine State.packet_keeps w_port w_chain (fun k => absurd k (by decide)) fun x h => ?_
  show (reads x (opNvRead _ x)).1.Keeps W _
  exact h

theorem execNvProgram_runs (w_port : W .port) (w_nv : W .nv) (w_chain : W .chain) (p : Pkt) (s : State) :
    Runs W s 0 (execNvProgram p s) := by
  refine State.packet_keeps w_port w_chain (fun k => absurd k (by decide)) fun x h => ?_
  show (acts (opNvProgram _ x)).1.Keeps W _
  apply opNvProgram_keeps <;> with_reducible assumption

theorem execNvErase_runs (w_port : W .port) (w_nv : W .nv) (w_chain : W .chain) (p : Pkt) (s : State) :
    Runs W s 0 (execNvErase p s) := by
  refine State.packet_keeps w_port w_chain (fun k => absurd k (by decide)) fun x h => ?_
  show (acts (opNvErase _ x)).1.Keeps W _
  apply opNvErase_keeps <;> with_reducible assumption

theorem execNvProtect_runs (w_port : W .port) (w_nv : W .nv) (w_chain : W .chain) (p : Pkt) (s : State) :
    Runs W s 0 (execNvProtect p s) := by
  refine State.packet_keeps w_port w_chain (fun k => absurd k (by decide)) fun x h => ?_
  show (acts (opNvProtect _ x)).1.Keeps W _
  apply opNvProtect_keeps <;> with_reducible assumption

theorem execRecWrite_runs (w_port : W .port) (w_log : W .log) (w_sc : W .sc) (w_nv : W .nv) (w_chain : W .chain) (p : Pkt) (s : State) :
    Runs W s 0 (execRecWrite p s) := by
  refine State.packet_keeps w_port w_chain (fun k => absurd k (by decide)) fun x h => ?_
  show (acts (opRecWrite _ x)).1.Keeps W _
  apply opRecWrite_keeps <;> with_reducible assumption

theorem execRecRead_runs (w_port : W .port) (w_chain : W .chain) (p : Pkt) (s : State) :
    Runs W s 0 (execRecRead p s) := by
  refine State.packet_keeps w_port w_chain (fun k => absurd k (by decide)) fun x h => ?_
  show (reads x (opRecRead s.snap _)).1.Keeps W _
  exact h

theorem execRecDelete_runs (w_port : W .port) (w_log : W .log) (w_sc : W .sc) (w_nv : W .nv) (w_chain : W .chain) (p : Pkt) (s : State) :
    Runs W s 0 (execRecDelete p s) := by
  refine State.packet_keeps w_port w_chain (fun k => absurd k (by decide)) fun x h => ?_
  show (acts (opRecDelete _ x)).1.Keeps W _
  apply opRecDelete_keeps <;> with_reducible assumption

theorem execNvStatus_runs (w_port : W .port) (w_chain : W .chain) (p : Pkt) (s : State) :
    Runs W s 0 (execNvStatus p s) := by
  refine State.packet_keeps w_port w_chain (fun k => absurd k (by decide)) fun x h => ?_
  show (reads x (opNvStatus s.snap)).1.Keeps W _
  exact h

theorem execMarginRead_runs (w_port : W .port) (w_chain : W .chain) (p : Pkt) (s : State) :
    Runs W s 0 (execMarginRead p s) := by
  refine State.packet_keeps w_port w_chain (fun k => absurd k (by decide)) fun x h => ?_
  show (reads x (opMarginRead _ x)).1.Keeps W _
  exact h

theorem execLifetimeRead_runs (w_port : W .port) (w_chain : W .chain) (p : Pkt) (s : State) :
    Runs W s 0 (execLifetimeRead p s) := by
  refine State.packet_keeps w_port w_chain (fun k => absurd k (by decide)) fun x h => ?_
  show (reads x (opLifetimeRead s.snap)).1.Keeps W _
  exact h

theorem execScoreTotals_runs (w_port : W .port) (w_chain : W .chain) (p : Pkt) (s : State) :
    Runs W s 0 (execScoreTotals p s) := by
  refine State.packet_keeps w_port w_chain (fun k => absurd k (by decide)) fun x h => ?_
  show (reads x (opScoreTotals s.snap _)).1.Keeps W _
  exact h

theorem execScoreLegalSet_runs (w_port : W .port) (w_link : W .link) (w_chain : W .chain) (p : Pkt) (s : State) :
    Runs W s 0 (execScoreLegalSet p s) := by
  refine State.packet_keeps w_port w_chain (fun k => absurd k (by decide)) fun x h => ?_
  show (Dev.mail x s.snap _ false).1.Keeps W _
  apply Dev.mail_keeps <;> with_reducible assumption

theorem execScoreSectionMap_runs (w_port : W .port) (w_link : W .link) (w_chain : W .chain) (p : Pkt) (s : State) :
    Runs W s 0 (execScoreSectionMap p s) := by
  refine State.packet_keeps w_port w_chain (fun k => absurd k (by decide)) fun x h => ?_
  show (Dev.mail x s.snap _ false).1.Keeps W _
  apply Dev.mail_keeps <;> with_reducible assumption

theorem execScoreJobStart_runs (w_port : W .port) (w_link : W .link) (w_chain : W .chain) (p : Pkt) (s : State) :
    Runs W s 0 (execScoreJobStart p s) := by
  refine State.packet_keeps w_port w_chain (fun k => absurd k (by decide)) fun x h => ?_
  show (Dev.mail x s.snap _ false).1.Keeps W _
  apply Dev.mail_keeps <;> with_reducible assumption

theorem execScoreJobEnd_runs (w_port : W .port) (w_link : W .link) (w_chain : W .chain) (p : Pkt) (s : State) :
    Runs W s 0 (execScoreJobEnd p s) := by
  refine State.packet_keeps w_port w_chain (fun k => absurd k (by decide)) fun x h => ?_
  show (Dev.mail x s.snap _ false).1.Keeps W _
  apply Dev.mail_keeps <;> with_reducible assumption

theorem execScoreJobDiag_runs (w_port : W .port) (w_link : W .link) (w_chain : W .chain) (p : Pkt) (s : State) :
    Runs W s 0 (execScoreJobDiag p s) := by
  refine State.packet_keeps w_port w_chain (fun k => absurd k (by decide)) fun x h => ?_
  show (Dev.mail x s.snap _ false).1.Keeps W _
  apply Dev.mail_keeps <;> with_reducible assumption

theorem execScoreAuditRead_runs (w_port : W .port) (w_link : W .link) (w_chain : W .chain) (p : Pkt) (s : State) :
    Runs W s 0 (execScoreAuditRead p s) := by
  refine State.packet_keeps w_port w_chain (fun k => absurd k (by decide)) fun x h => ?_
  show (Dev.mail x s.snap _ false).1.Keeps W _
  apply Dev.mail_keeps <;> with_reducible assumption

theorem execScoreIdent_runs (w_port : W .port) (w_chain : W .chain) (p : Pkt) (s : State) :
    Runs W s 0 (execScoreIdent p s) := by
  refine State.packet_keeps w_port w_chain (fun k => absurd k (by decide)) fun x h => ?_
  show (reads x (opScoreIdent s.snap)).1.Keeps W _
  exact h

theorem execChainEnumerate_runs (w_port : W .port) (w_chain : W .chain) (p : Pkt) (s : State) :
    Runs W s 0 (execChainEnumerate p s) := by
  refine State.packet_keeps w_port w_chain (fun k => absurd k (by decide)) fun x h => ?_
  show (acts (opEnumerate _ x)).1.Keeps W _
  apply opEnumerate_keeps <;> with_reducible assumption

theorem execChainStatus_runs (w_port : W .port) (w_chain : W .chain) (p : Pkt) (s : State) :
    Runs W s 0 (execChainStatus p s) := by
  refine State.packet_keeps w_port w_chain (fun k => absurd k (by decide)) fun x h => ?_
  show (acts (opChainStatus s.snap _ x)).1.Keeps W _
  apply opChainStatus_keeps <;> with_reducible assumption

theorem execChainRingOpen_runs (w_port : W .port) (w_log : W .log) (w_chain : W .chain) (h : Hdr) (s : State) :
    Runs W s 0 (execChainRingOpen h s) := by
  refine State.packet_keeps w_port w_chain (fun k => absurd k (by decide)) fun x h => ?_
  show (acts (opChainRing _ x)).1.Keeps W _
  apply opChainRing_keeps <;> with_reducible assumption

theorem execChainRingClose_runs (w_port : W .port) (w_log : W .log) (w_chain : W .chain) (h : Hdr) (s : State) :
    Runs W s 0 (execChainRingClose h s) := by
  refine State.packet_keeps w_port w_chain (fun k => absurd k (by decide)) fun x h => ?_
  show (acts (opChainRing _ x)).1.Keeps W _
  apply opChainRing_keeps <;> with_reducible assumption

theorem execChainRingRestore_runs (w_port : W .port) (w_log : W .log) (w_chain : W .chain) (h : Hdr) (s : State) :
    Runs W s 0 (execChainRingRestore h s) := by
  refine State.packet_keeps w_port w_chain (fun k => absurd k (by decide)) fun x h => ?_
  show (acts (opChainRing _ x)).1.Keeps W _
  apply opChainRing_keeps <;> with_reducible assumption

theorem execBreathCtrl_runs (w_port : W .port) (w_chain : W .chain) (p : Pkt) (s : State) :
    Runs W s 0 (execBreathCtrl p s) := by
  refine State.packet_keeps w_port w_chain (fun k => absurd k (by decide)) fun x h => ?_
  show (acts (opBreathCtrl _ x)).1.Keeps W _
  apply opBreathCtrl_keeps <;> with_reducible assumption

theorem execSoundcheckRun_runs (w_port : W .port) (w_voices : W .voices) (w_chain : W .chain) (p : Pkt) (s : State) :
    Runs W s 0 (execSoundcheckRun p s) := by
  refine State.packet_keeps w_port w_chain (fun k => absurd k (by decide)) fun x h => ?_
  show (acts (opSoundcheckRun _ x)).1.Keeps W _
  apply opSoundcheckRun_keeps <;> with_reducible assumption

theorem execSoundcheckResult_runs (w_port : W .port) (w_chain : W .chain) (p : Pkt) (s : State) :
    Runs W s 0 (execSoundcheckResult p s) := by
  refine State.packet_keeps w_port w_chain (fun k => absurd k (by decide)) fun x h => ?_
  show (reads x (opSoundcheckResult s.snap _)).1.Keeps W _
  exact h

theorem execPatchBegin_runs (w_port : W .port) (w_log : W .log) (w_chain : W .chain) (w_patch : W .patch) (p : Pkt) (s : State) :
    Runs W s 0 (execPatchBegin p s) := by
  refine State.packet_keeps w_port w_chain (fun _ => w_patch) fun x h => ?_
  show (acts (opPatchLoad _ x)).1.Keeps W _
  apply opPatchLoad_keeps <;> with_reducible assumption

theorem execPatchData_runs (w_port : W .port) (w_log : W .log) (w_chain : W .chain) (w_patch : W .patch) (p : Pkt) (s : State) :
    Runs W s 0 (execPatchData p s) := by
  refine State.packet_keeps w_port w_chain (fun _ => w_patch) fun x h => ?_
  show (acts (opPatchLoad _ x)).1.Keeps W _
  apply opPatchLoad_keeps <;> with_reducible assumption

theorem execPatchEnd_runs (w_port : W .port) (w_log : W .log) (w_chain : W .chain) (w_patch : W .patch) (p : Pkt) (s : State) :
    Runs W s 0 (execPatchEnd p s) := by
  refine State.packet_keeps w_port w_chain (fun _ => w_patch) fun x h => ?_
  show (acts (opPatchLoad _ x)).1.Keeps W _
  apply opPatchLoad_keeps <;> with_reducible assumption

theorem execPatchAbort_runs (w_port : W .port) (w_log : W .log) (w_chain : W .chain) (w_patch : W .patch) (p : Pkt) (s : State) :
    Runs W s 0 (execPatchAbort p s) := by
  refine State.packet_keeps w_port w_chain (fun _ => w_patch) fun x h => ?_
  show (acts (opPatchLoad _ x)).1.Keeps W _
  apply opPatchLoad_keeps <;> with_reducible assumption

theorem execPatchStatus_runs (w_port : W .port) (w_chain : W .chain) (p : Pkt) (s : State) :
    Runs W s 0 (execPatchStatus p s) := by
  refine State.packet_keeps w_port w_chain (fun k => absurd k (by decide)) fun x h => ?_
  show (reads x (opPatchStatus s.snap)).1.Keeps W _
  exact h

end Sys2Proof.Machine
end

