-- ==== Sys2Proof/Laws/RunsPower.lean ====
section
/-! SUPPORT. Every command of Power.lean has a next state, and what it keeps. -/

namespace Sys2Proof.Machine
open Sys2Proof

variable {W : Part → Prop}

theorem execCrank_runs (w_port : W .port) (w_log : W .log) (w_voices : W .voices) (w_banks : W .banks) (w_therm : W .therm) (w_chain : W .chain) (dt : Nat) (bank : BankId) (begins : Bool) (volts : Nat) (s : State) :
    Runs W s dt (execCrank dt bank begins volts s) := by
  unfold execCrank
  refine State.run_keeps w_port fun d h => ?_
  try dsimp only
  repeat' first
    | with_reducible assumption
    | with_reducible apply Dev.event_keeps
    | with_reducible apply Dev.modBank_keeps
    | with_reducible apply Dev.holdBank_keeps
    | with_reducible apply Dev.releaseBank_keeps
    | split
    | exact id
    | intro _
    | dsimp only
    | (with_reducible refine Dev.Keeps.of_pair (by with_reducible assumption) ?_)

theorem execBankOv_runs (w_port : W .port) (w_log : W .log) (w_voices : W .voices) (w_banks : W .banks) (w_staggers : W .staggers) (w_cues : W .cues) (w_sc : W .sc) (w_conv : W .conv) (w_wave : W .wave) (w_therm : W .therm) (w_nv : W .nv) (w_chain : W .chain) (w_slotOffs : W .slotOffs) (w_slotFaults : W .slotFaults) (dt : Nat) (bank : BankId) (change : OvChange) (volts : Nat) (s : State) :
    Runs W s dt (execBankOv dt bank change volts s) := by
  unfold execBankOv
  refine State.run_keeps w_port fun d h => ?_
  try dsimp only
  repeat' first
    | with_reducible assumption
    | with_reducible apply Dev.event_keeps
    | with_reducible apply Dev.modBank_keeps
    | with_reducible apply Dev.loseBank_keeps
    | with_reducible apply Dev.holdBank_keeps
    | with_reducible apply Dev.releaseBank_keeps
    | split
    | exact id
    | intro _
    | dsimp only
    | (with_reducible refine Dev.Keeps.of_pair (by with_reducible assumption) ?_)

theorem execVholdReady_runs (w_port : W .port) (w_pd : W .pd) (dt : Nat) (s : State) :
    Runs W s dt (execVholdReady dt s) := by
  unfold execVholdReady
  refine State.run_keeps w_port fun d h => ?_
  try dsimp only
  repeat' first
    | with_reducible assumption
    | with_reducible apply Dev.setPd_keeps
    | split
    | exact id
    | intro _
    | dsimp only
    | (with_reducible refine Dev.Keeps.of_pair (by with_reducible assumption) ?_)

theorem execVholdFault_runs (w_port : W .port) (w_log : W .log) (w_pd : W .pd) (dt : Nat) (volts : Nat) (s : State) :
    Runs W s dt (execVholdFault dt volts s) := by
  unfold execVholdFault
  refine State.run_keeps w_port fun d h => ?_
  try dsimp only
  repeat' first
    | with_reducible assumption
    | with_reducible apply Dev.event_keeps
    | with_reducible apply Dev.setPd_keeps
    | split
    | exact id
    | intro _
    | dsimp only
    | (with_reducible refine Dev.Keeps.of_pair (by with_reducible assumption) ?_)

theorem execFlashFloor_runs (w_port : W .port) (w_pd : W .pd) (dt : Nat) (s : State) :
    Runs W s dt (execFlashFloor dt s) := by
  unfold execFlashFloor
  refine State.run_keeps w_port fun d h => ?_
  try dsimp only
  repeat' first
    | with_reducible assumption
    | with_reducible apply Dev.setPd_keeps
    | split
    | exact id
    | intro _
    | dsimp only
    | (with_reducible refine Dev.Keeps.of_pair (by with_reducible assumption) ?_)

theorem execPowerDown_runs (w_ctl : W .ctl) (w_port : W .port) (w_log : W .log) (w_voices : W .voices) (w_banks : W .banks) (w_staggers : W .staggers) (w_cues : W .cues) (w_sc : W .sc) (w_conv : W .conv) (w_wave : W .wave) (w_therm : W .therm) (w_nv : W .nv) (w_score : W .score) (w_chain : W .chain) (w_pd : W .pd) (w_slotFaults : W .slotFaults) (dt : Nat) (s : State) :
    Runs W s dt (execPowerDown dt s) := by
  unfold execPowerDown
  refine State.run_keeps w_port fun d h => ?_
  try dsimp only
  repeat' first
    | with_reducible assumption
    | with_reducible apply Dev.pdStart_keeps
    | split
    | exact id
    | intro _
    | dsimp only
    | (with_reducible refine Dev.Keeps.of_pair (by with_reducible assumption) ?_)

theorem execStaggeredTurnOff_runs (w_time : W .time) (w_ctl : W .ctl) (w_ka : W .ka) (w_port : W .port) (w_log : W .log) (w_par : W .par) (w_voices : W .voices) (w_banks : W .banks) (w_staggers : W .staggers) (w_lh : W .lh) (w_cues : W .cues) (w_tally : W .tally) (w_odo : W .odo) (w_sc : W .sc) (w_conv : W .conv) (w_wave : W .wave) (w_therm : W .therm) (w_nv : W .nv) (w_link : W .link) (w_chain : W .chain) (w_patch : W .patch) (w_pd : W .pd) (w_slotOffs : W .slotOffs) (w_slotFaults : W .slotFaults) (w_edges : W .edges) (dt : Nat) (s : State) :
    Runs W s dt (execStaggeredTurnOff dt s) := by
  unfold execStaggeredTurnOff
  refine State.run_keeps w_port fun d h => ?_
  try dsimp only
  repeat' first
    | with_reducible assumption
    | with_reducible apply Dev.staggerStep_keeps
    | with_reducible apply Dev.pdSave_keeps
    | with_reducible apply Dev.recover_keeps
    | split
    | with_reducible apply Dev.Keeps.staggers
    | exact id
    | intro _
    | dsimp only
    | (with_reducible refine Dev.Keeps.of_pair (by with_reducible assumption) ?_)

theorem execScoreCommitWait_runs (w_port : W .port) (w_log : W .log) (w_sc : W .sc) (w_nv : W .nv) (w_pd : W .pd) (dt : Nat) (reported : Bool) (vhold : Nat) (s : State) :
    Runs W s dt (execScoreCommitWait dt reported vhold s) := by
  unfold execScoreCommitWait
  refine State.run_keeps w_port fun d h => ?_
  try dsimp only
  repeat' first
    | with_reducible assumption
    | with_reducible apply Dev.event_keeps
    | with_reducible apply Dev.setPd_keeps
    | with_reducible apply Dev.pdSave_keeps
    | split
    | exact id
    | intro _
    | dsimp only
    | (with_reducible refine Dev.Keeps.of_pair (by with_reducible assumption) ?_)

theorem execLifetimeSaveDone_runs (w_port : W .port) (w_log : W .log) (w_sc : W .sc) (w_nv : W .nv) (w_pd : W .pd) (dt : Nat) (s : State) :
    Runs W s dt (execLifetimeSaveDone dt s) := by
  unfold execLifetimeSaveDone
  refine State.run_keeps w_port fun d h => ?_
  split
  · extract_lets at_ d1 value
    have h1 : d1.Keeps W (s.turn dt).dev := Dev.setNv_keeps w_nv (Dev.finishAppends_keeps w_port w_log w_sc w_nv h) _
      fun g => (congrArg Memory.wf (Flash.finishCopy_raw _)).trans g
    clear_value d1
    exact Dev.setPd_keeps w_pd (Dev.setNv_keeps w_nv h1 _
      fun g => (congrArg Memory.wf (Flash.enqueue_raw _ d.now 1 false value false)).trans g) _
  · exact h

theorem execMarkerWrite_runs (w_port : W .port) (w_log : W .log) (w_voices : W .voices) (w_sc : W .sc) (w_nv : W .nv) (w_pd : W .pd) (dt : Nat) (s : State) :
    Runs W s dt (execMarkerWrite dt s) := by
  unfold execMarkerWrite
  refine State.run_keeps w_port fun d h => ?_
  try dsimp only
  repeat' first
    | with_reducible assumption
    | with_reducible apply Dev.foldSession_keeps
    | with_reducible apply Dev.finishMarker_keeps
    | with_reducible apply Dev.setPd_keeps
    | with_reducible apply Dev.pdEnd_keeps
    | split
    | exact id
    | intro _
    | dsimp only
    | (with_reducible refine Dev.Keeps.of_pair (by with_reducible assumption) ?_)

theorem execParkedRestart_runs (w_time : W .time) (w_ctl : W .ctl) (w_ka : W .ka) (w_port : W .port) (w_log : W .log) (w_par : W .par) (w_voices : W .voices) (w_banks : W .banks) (w_staggers : W .staggers) (w_lh : W .lh) (w_cues : W .cues) (w_tally : W .tally) (w_odo : W .odo) (w_sc : W .sc) (w_conv : W .conv) (w_wave : W .wave) (w_therm : W .therm) (w_nv : W .nv) (w_score : W .score) (w_link : W .link) (w_chain : W .chain) (w_patch : W .patch) (w_pd : W .pd) (w_slotOffs : W .slotOffs) (w_slotFaults : W .slotFaults) (w_edges : W .edges) (dt : Nat) (s : State) :
    Runs W s dt (execParkedRestart dt s) := by
  unfold execParkedRestart
  refine State.run_keeps w_port fun d h => ?_
  try dsimp only
  repeat' first
    | with_reducible assumption
    | with_reducible apply Dev.restart_keeps
    | with_reducible apply Dev.setScore_keeps
    | split
    | exact id
    | intro _
    | dsimp only
    | (with_reducible refine Dev.Keeps.of_pair (by with_reducible assumption) ?_)

end Sys2Proof.Machine
end

