-- ==== Sys2Proof/Laws/RunsProtection.lean ====
section
/-! SUPPORT. Every command of Protection.lean has a next state, and what it keeps. -/

namespace Sys2Proof.Machine
open Sys2Proof

variable {W : Part → Prop}

theorem execCutPinNonConducting_runs (w_port : W .port) (w_banks : W .banks) (dt : Nat) (bank : BankId) (s : State) :
    Runs W s dt (execCutPinNonConducting dt bank s) := by
  unfold execCutPinNonConducting
  refine State.run_keeps w_port fun d h => ?_
  try dsimp only
  repeat' first
    | with_reducible assumption
    | with_reducible apply Dev.modBank_keeps
    | split
    | exact id
    | intro _
    | dsimp only
    | (with_reducible refine Dev.Keeps.of_pair (by with_reducible assumption) ?_)

theorem execFastTrip_runs (w_port : W .port) (w_log : W .log) (w_voices : W .voices) (w_sc : W .sc) (w_conv : W .conv) (w_wave : W .wave) (w_therm : W .therm) (w_chain : W .chain) (w_slotFaults : W .slotFaults) (dt : Nat) (v : VoiceId) (stripes : BitVec 2) (m : Meas) (s : State) :
    Runs W s dt (execFastTrip dt v stripes m s) := by
  unfold execFastTrip
  refine State.run_keeps w_port fun d h => ?_
  try dsimp only
  repeat' first
    | with_reducible assumption
    | with_reducible apply Dev.scoreTrip_keeps
    | split
    | exact id
    | intro _
    | dsimp only
    | (with_reducible refine Dev.Keeps.of_pair (by with_reducible assumption) ?_)

theorem execDesatTrip_runs (w_port : W .port) (w_log : W .log) (w_voices : W .voices) (w_sc : W .sc) (w_conv : W .conv) (w_wave : W .wave) (w_therm : W .therm) (w_chain : W .chain) (w_slotFaults : W .slotFaults) (dt : Nat) (v : VoiceId) (stripes : BitVec 2) (m : Meas) (s : State) :
    Runs W s dt (execDesatTrip dt v stripes m s) := by
  unfold execDesatTrip
  refine State.run_keeps w_port fun d h => ?_
  try dsimp only
  repeat' first
    | with_reducible assumption
    | with_reducible apply Dev.scoreTrip_keeps
    | split
    | exact id
    | intro _
    | dsimp only
    | (with_reducible refine Dev.Keeps.of_pair (by with_reducible assumption) ?_)

theorem execOcTimeout_runs (w_port : W .port) (w_log : W .log) (w_voices : W .voices) (w_sc : W .sc) (w_conv : W .conv) (w_wave : W .wave) (w_therm : W .therm) (w_chain : W .chain) (w_slotFaults : W .slotFaults) (dt : Nat) (v : VoiceId) (m : Meas) (s : State) :
    Runs W s dt (execOcTimeout dt v m s) := by
  unfold execOcTimeout
  refine State.run_keeps w_port fun d h => ?_
  try dsimp only
  repeat' first
    | with_reducible assumption
    | with_reducible apply Dev.scoreTrip_keeps
    | split
    | exact id
    | intro _
    | dsimp only
    | (with_reducible refine Dev.Keeps.of_pair (by with_reducible assumption) ?_)

theorem execGateFault_runs (w_port : W .port) (w_log : W .log) (w_voices : W .voices) (w_sc : W .sc) (w_conv : W .conv) (w_wave : W .wave) (w_therm : W .therm) (w_chain : W .chain) (w_slotFaults : W .slotFaults) (dt : Nat) (v : VoiceId) (stripes : BitVec 2) (m : Meas) (s : State) :
    Runs W s dt (execGateFault dt v stripes m s) := by
  unfold execGateFault
  refine State.run_keeps w_port fun d h => ?_
  try dsimp only
  repeat' first
    | with_reducible assumption
    | with_reducible apply Dev.scoreTrip_keeps
    | split
    | exact id
    | intro _
    | dsimp only
    | (with_reducible refine Dev.Keeps.of_pair (by with_reducible assumption) ?_)

theorem execOlOnDetect_runs (w_port : W .port) (w_log : W .log) (w_voices : W .voices) (w_conv : W .conv) (w_wave : W .wave) (w_slotFaults : W .slotFaults) (dt : Nat) (v : VoiceId) (ceased : Bool) (m : Meas) (s : State) :
    Runs W s dt (execOlOnDetect dt v ceased m s) := by
  unfold execOlOnDetect
  refine State.run_keeps w_port fun d h => ?_
  try dsimp only
  repeat' first
    | with_reducible assumption
    | with_reducible apply Dev.scoreReport_keeps
    | with_reducible apply Dev.ceaseReport_keeps
    | split
    | exact id
    | intro _
    | dsimp only
    | (with_reducible refine Dev.Keeps.of_pair (by with_reducible assumption) ?_)

theorem execOlOffDetect_runs (w_port : W .port) (w_log : W .log) (w_voices : W .voices) (w_conv : W .conv) (w_wave : W .wave) (w_slotFaults : W .slotFaults) (dt : Nat) (v : VoiceId) (ceased : Bool) (m : Meas) (s : State) :
    Runs W s dt (execOlOffDetect dt v ceased m s) := by
  unfold execOlOffDetect
  refine State.run_keeps w_port fun d h => ?_
  try dsimp only
  repeat' first
    | with_reducible assumption
    | with_reducible apply Dev.scoreReport_keeps
    | with_reducible apply Dev.ceaseReport_keeps
    | split
    | exact id
    | intro _
    | dsimp only
    | (with_reducible refine Dev.Keeps.of_pair (by with_reducible assumption) ?_)

theorem execStuckOnDetect_runs (w_port : W .port) (w_log : W .log) (w_voices : W .voices) (w_conv : W .conv) (w_wave : W .wave) (w_slotFaults : W .slotFaults) (dt : Nat) (v : VoiceId) (ceased : Bool) (m : Meas) (s : State) :
    Runs W s dt (execStuckOnDetect dt v ceased m s) := by
  unfold execStuckOnDetect
  refine State.run_keeps w_port fun d h => ?_
  try dsimp only
  repeat' first
    | with_reducible assumption
    | with_reducible apply Dev.scoreReport_keeps
    | with_reducible apply Dev.ceaseReport_keeps
    | split
    | exact id
    | intro _
    | dsimp only
    | (with_reducible refine Dev.Keeps.of_pair (by with_reducible assumption) ?_)

theorem execRevDetect_runs (w_port : W .port) (w_log : W .log) (w_voices : W .voices) (w_conv : W .conv) (w_wave : W .wave) (w_slotFaults : W .slotFaults) (dt : Nat) (v : VoiceId) (ceased : Bool) (m : Meas) (s : State) :
    Runs W s dt (execRevDetect dt v ceased m s) := by
  unfold execRevDetect
  refine State.run_keeps w_port fun d h => ?_
  try dsimp only
  repeat' first
    | with_reducible assumption
    | with_reducible apply Dev.scoreReport_keeps
    | with_reducible apply Dev.ceaseReport_keeps
    | split
    | exact id
    | intro _
    | dsimp only
    | (with_reducible refine Dev.Keeps.of_pair (by with_reducible assumption) ?_)

theorem execSoundcheckStart_runs (w_port : W .port) (w_voices : W .voices) (w_sc : W .sc) (w_conv : W .conv) (dt : Nat) (s : State) :
    Runs W s dt (execSoundcheckStart dt s) := by
  unfold execSoundcheckStart
  refine State.run_keeps w_port fun d h => ?_
  try dsimp only
  repeat' first
    | with_reducible assumption
    | with_reducible apply Dev.startCheck_keeps
    | split
    | exact id
    | intro _
    | dsimp only
    | (with_reducible refine Dev.Keeps.of_pair (by with_reducible assumption) ?_)

theorem execSoundcheckDone_runs (w_port : W .port) (w_log : W .log) (w_voices : W .voices) (w_banks : W .banks) (w_staggers : W .staggers) (w_cues : W .cues) (w_sc : W .sc) (w_conv : W .conv) (w_wave : W .wave) (w_therm : W .therm) (w_nv : W .nv) (w_chain : W .chain) (w_slotOffs : W .slotOffs) (w_slotFaults : W .slotFaults) (dt : Nat) (failed0 : Tab (BitVec 6) 2) (failed1 : Tab (BitVec 6) 2) (incomplete : BitVec 6) (voHigh : Bool) (s : State) :
    Runs W s dt (execSoundcheckDone dt failed0 failed1 incomplete voHigh s) := by
  unfold execSoundcheckDone
  refine State.run_keeps w_port fun d h => ?_
  try dsimp only
  repeat' first
    | with_reducible assumption
    | with_reducible apply Dev.finishCheck_keeps
    | split
    | exact id
    | intro _
    | dsimp only
    | (with_reducible refine Dev.Keeps.of_pair (by with_reducible assumption) ?_)

theorem execRetryDue_runs (w_port : W .port) (w_voices : W .voices) (dt : Nat) (v : VoiceId) (s : State) :
    Runs W s dt (execRetryDue dt v s) := by
  unfold execRetryDue
  refine State.run_keeps w_port fun d h => ?_
  try dsimp only
  repeat' first
    | with_reducible assumption
    | with_reducible apply Dev.modUnit_keeps
    | split
    | exact id
    | intro _
    | dsimp only
    | (with_reducible refine Dev.Keeps.of_pair (by with_reducible assumption) ?_)

theorem execRetryClear_runs (w_port : W .port) (w_voices : W .voices) (dt : Nat) (v : VoiceId) (s : State) :
    Runs W s dt (execRetryClear dt v s) := by
  unfold execRetryClear
  refine State.run_keeps w_port fun d h => ?_
  try dsimp only
  repeat' first
    | with_reducible assumption
    | with_reducible apply Dev.modUnit_keeps
    | split
    | exact id
    | intro _
    | dsimp only
    | (with_reducible refine Dev.Keeps.of_pair (by with_reducible assumption) ?_)

end Sys2Proof.Machine
end

