-- ==== Sys2Proof/Laws/RunsScore.lean ====
section
/-! SUPPORT. Every command of Score.lean has a next state, and what it keeps. -/

namespace Sys2Proof.Machine
open Sys2Proof

variable {W : Part → Prop}

theorem execScorePublication_runs (w_ctl : W .ctl) (w_port : W .port) (w_log : W .log) (w_tally : W .tally) (w_odo : W .odo) (w_score : W .score) (w_link : W .link) (w_chain : W .chain) (dt : Nat) (s : State) :
    Runs W s dt (execScorePublication dt s) := by
  unfold execScorePublication
  refine State.run_keeps w_port fun d h => ?_
  try dsimp only
  repeat' first
    | with_reducible assumption
    | with_reducible apply Dev.publish_keeps
    | split
    | exact id
    | intro _
    | dsimp only
    | (with_reducible refine Dev.Keeps.of_pair (by with_reducible assumption) ?_)

theorem execScoreSilent_runs (w_time : W .time) (w_ctl : W .ctl) (w_port : W .port) (w_log : W .log) (w_voices : W .voices) (w_banks : W .banks) (w_staggers : W .staggers) (w_cues : W .cues) (w_tally : W .tally) (w_odo : W .odo) (w_sc : W .sc) (w_conv : W .conv) (w_wave : W .wave) (w_therm : W .therm) (w_nv : W .nv) (w_link : W .link) (w_chain : W .chain) (w_slotOffs : W .slotOffs) (w_slotFaults : W .slotFaults) (dt : Nat) (s : State) :
    Runs W s dt (execScoreSilent dt s) := by
  unfold execScoreSilent
  refine State.run_keeps w_port fun d h => ?_
  try dsimp only
  repeat' first
    | with_reducible assumption
    | with_reducible apply Dev.tellAll_keeps
    | with_reducible apply Dev.lateReply_keeps
    | with_reducible apply Dev.scoreAbsent_keeps
    | split
    | with_reducible apply Dev.Keeps.link
    | exact id
    | intro _
    | dsimp only
    | (with_reducible refine Dev.Keeps.of_pair (by with_reducible assumption) ?_)

theorem execScoreReset_runs (w_port : W .port) (w_tally : W .tally) (w_odo : W .odo) (w_score : W .score) (dt : Nat) (xin : XinPins) (mseal : Bool) (levels : Tab Bool 8) (s : State) :
    Runs W s dt (execScoreReset dt xin mseal levels s) := by
  unfold execScoreReset
  refine State.run_keeps w_port fun d h => ?_
  try dsimp only
  repeat' first
    | with_reducible assumption
    | with_reducible apply Dev.linkBack_keeps
    | with_reducible apply Dev.setScore_keeps
    | split
    | exact id
    | intro _
    | dsimp only
    | (with_reducible refine Dev.Keeps.of_pair (by with_reducible assumption) ?_)

theorem execVmetLost_runs (w_port : W .port) (w_tally : W .tally) (w_odo : W .odo) (w_score : W .score) (loss : VmetLoss) (s : State) :
    Runs W s loss.dt (execVmetLost loss s) := by
  unfold execVmetLost
  refine State.run_keeps w_port fun d h => ?_
  try dsimp only
  repeat' first
    | with_reducible assumption
    | with_reducible apply Dev.linkDead_keeps
    | with_reducible apply Dev.setScore_keeps
    | split
    | exact id
    | intro _
    | dsimp only
    | (with_reducible refine Dev.Keeps.of_pair (by with_reducible assumption) ?_)

theorem execVmetCommit_runs (w_port : W .port) (w_score : W .score) (dt : Nat) (s : State) :
    Runs W s dt (execVmetCommit dt s) := by
  unfold execVmetCommit
  refine State.run_keeps w_port fun d h => ?_
  try dsimp only
  repeat' first
    | with_reducible assumption
    | with_reducible apply Dev.setScore_keeps
    | split
    | exact id
    | intro _
    | dsimp only
    | (with_reducible refine Dev.Keeps.of_pair (by with_reducible assumption) ?_)

theorem execScoreReady_runs (w_ctl : W .ctl) (w_port : W .port) (w_log : W .log) (w_tally : W .tally) (w_odo : W .odo) (w_score : W .score) (w_link : W .link) (w_chain : W .chain) (dt : Nat) (_duration : Told) (s : State) :
    Runs W s dt (execScoreReady dt _duration s) := by
  unfold execScoreReady
  refine State.run_keeps w_port fun d h => ?_
  try dsimp only
  repeat' first
    | with_reducible assumption
    | with_reducible apply Dev.event_keeps
    | with_reducible apply Dev.setScore_keeps
    | with_reducible apply Dev.publish_keeps
    | split
    | exact id
    | intro _
    | dsimp only
    | (with_reducible refine Dev.Keeps.of_pair (by with_reducible assumption) ?_)

theorem execScoreRingCommit_runs (w_port : W .port) (w_score : W .score) (dt : Nat) (s : State) :
    Runs W s dt (execScoreRingCommit dt s) := by
  unfold execScoreRingCommit
  refine State.run_keeps w_port fun d h => ?_
  try dsimp only
  repeat' first
    | with_reducible assumption
    | with_reducible apply Dev.setScore_keeps
    | split
    | exact id
    | intro _
    | dsimp only
    | (with_reducible refine Dev.Keeps.of_pair (by with_reducible assumption) ?_)

theorem execTapSample_runs (w_port : W .port) (w_score : W .score) (dt : Nat) (taps : TapPins) (s : State) :
    Runs W s dt (execTapSample dt taps s) := by
  unfold execTapSample
  refine State.run_keeps w_port fun d h => ?_
  try dsimp only
  repeat' first
    | with_reducible assumption
    | with_reducible apply Dev.setScore_keeps
    | split
    | exact id
    | intro _
    | dsimp only
    | (with_reducible refine Dev.Keeps.of_pair (by with_reducible assumption) ?_)

theorem execTallyEdge_runs (w_port : W .port) (w_tally : W .tally) (w_score : W .score) (dt : Nat) (input : Fin 8) (rising : Bool) (merged : Bool) (s : State) :
    Runs W s dt (execTallyEdge dt input rising merged s) := by
  unfold execTallyEdge
  refine State.run_keeps w_port fun d h => ?_
  try dsimp only
  repeat' first
    | with_reducible assumption
    | with_reducible apply Dev.modTally_keeps
    | with_reducible apply Dev.setScore_keeps
    | split
    | exact id
    | intro _
    | dsimp only
    | (with_reducible refine Dev.Keeps.of_pair (by with_reducible assumption) ?_)

theorem execScoreGroundEvaluation_runs (w_port : W .port) (w_score : W .score) (dt : Nat) (s : State) :
    Runs W s dt (execScoreGroundEvaluation dt s) := by
  unfold execScoreGroundEvaluation
  refine State.run_keeps w_port fun d h => ?_
  try dsimp only
  repeat' first
    | with_reducible assumption
    | with_reducible apply Dev.setScore_keeps
    | split
    | with_reducible apply Dev.Keeps.foldl
    | with_reducible apply Dev.Keeps.foldl_pair
    | exact id
    | intro _
    | dsimp only
    | (with_reducible refine Dev.Keeps.of_pair (by with_reducible assumption) ?_)

theorem execScoreDieTemperature_runs (w_port : W .port) (w_score : W .score) (dt : Nat) (tenths : Int) (s : State) :
    Runs W s dt (execScoreDieTemperature dt tenths s) := by
  unfold execScoreDieTemperature
  refine State.run_keeps w_port fun d h => ?_
  try dsimp only
  repeat' first
    | with_reducible assumption
    | with_reducible apply Dev.setScore_keeps
    | split
    | exact id
    | intro _
    | dsimp only
    | (with_reducible refine Dev.Keeps.of_pair (by with_reducible assumption) ?_)

theorem execMailboxMessage_runs (w_port : W .port) (w_tally : W .tally) (w_odo : W .odo) (w_score : W .score) (w_link : W .link) (dt : Nat) (fate : MailboxFate) (s : State) :
    Runs W s dt (execMailboxMessage dt fate s) := by
  unfold execMailboxMessage
  refine State.run_keeps w_port fun d h => ?_
  try dsimp only
  repeat' first
    | with_reducible assumption
    | with_reducible apply Dev.setScore_keeps
    | with_reducible apply Dev.served_keeps
    | with_reducible apply Dev.servedCut_keeps
    | split
    | exact id
    | intro _
    | dsimp only
    | (with_reducible refine Dev.Keeps.of_pair (by with_reducible assumption) ?_)

theorem execLaxitiaRequest_runs (w_port : W .port) (w_score : W .score) (dt : Nat) (line : List Byte) (s : State) :
    Runs W s dt (execLaxitiaRequest dt line s) := by
  unfold execLaxitiaRequest
  refine State.run_keeps w_port fun d h => ?_
  try dsimp only
  repeat' first
    | with_reducible assumption
    | with_reducible apply Dev.setScore_keeps
    | split
    | exact id
    | intro _
    | dsimp only
    | (with_reducible refine Dev.Keeps.of_pair (by with_reducible assumption) ?_)

theorem execSealFuses_runs (w_port : W .port) (w_score : W .score) (dt : Nat) (ident : List Byte) (verified : Bool) (s : State) :
    Runs W s dt (execSealFuses dt ident verified s) := by
  unfold execSealFuses
  refine State.run_keeps w_port fun d h => ?_
  try dsimp only
  repeat' first
    | with_reducible assumption
    | with_reducible apply Dev.setScore_keeps
    | split
    | exact id
    | intro _
    | dsimp only
    | (with_reducible refine Dev.Keeps.of_pair (by with_reducible assumption) ?_)

end Sys2Proof.Machine
end

