-- ==== Sys2Proof/Laws/RunsSlices.lean ====
section
/-! SUPPORT. Every command of Slices.lean has a next state, and what it keeps. -/

namespace Sys2Proof.Machine
open Sys2Proof

variable {W : Part → Prop}

theorem execCalStep_runs (w_port : W .port) (w_log : W .log) (w_sc : W .sc) (w_conv : W .conv) (w_nv : W .nv) (dt : Nat) (ends : Bool) (passed : Bool) (trims : SliceTrims) (skew : Int) (s : State) :
    Runs W s dt (execCalStep dt ends passed trims skew s) := by
  unfold execCalStep
  refine State.run_keeps w_port fun d h => ?_
  try dsimp only
  repeat' first
    | with_reducible assumption
    | with_reducible apply Dev.calBegin_keeps
    | with_reducible apply Dev.calEnd_keeps
    | split
    | exact id
    | intro _
    | dsimp only
    | (with_reducible refine Dev.Keeps.of_pair (by with_reducible assumption) ?_)

theorem execSliceCheckDone_runs (w_port : W .port) (w_log : W .log) (w_sc : W .sc) (w_conv : W .conv) (w_nv : W .nv) (dt : Nat) (slice : Fin 9) (_result : Told) (s : State) :
    Runs W s dt (execSliceCheckDone dt slice _result s) := by
  unfold execSliceCheckDone
  refine State.run_keeps w_port fun d h => ?_
  try dsimp only
  repeat' first
    | with_reducible assumption
    | with_reducible apply Dev.unitChecked_keeps
    | with_reducible apply Dev.modSlice_keeps
    | with_reducible apply Dev.replaceSlice_keeps
    | with_reducible apply Dev.retireDescant_keeps
    | split
    | exact id
    | intro _
    | dsimp only
    | (with_reducible refine Dev.Keeps.of_pair (by with_reducible assumption) ?_)

end Sys2Proof.Machine
end

