-- ==== Sys2Proof/Laws/RunsTally.lean ====
section
/-! SUPPORT. Every command of Tally.lean has a next state, and what it keeps. -/

namespace Sys2Proof.Machine
open Sys2Proof

variable {W : Part → Prop}

theorem execTimestampEdge_runs (w_port : W .port) (w_edges : W .edges) (dt : Nat) (input : Fin 8) (rising : Bool) (stamp : Int) (_pair : Told) (s : State) :
    Runs W s dt (execTimestampEdge dt input rising stamp _pair s) := by
  unfold execTimestampEdge
  refine State.run_keeps w_port fun d h => ?_
  try dsimp only
  repeat' first
    | with_reducible assumption
    | split
    | with_reducible apply Dev.Keeps.edges
    | exact id
    | intro _
    | dsimp only
    | (with_reducible refine Dev.Keeps.of_pair (by with_reducible assumption) ?_)

theorem execStuckLevel_runs (w_port : W .port) (w_log : W .log) (w_tally : W .tally) (w_odo : W .odo) (w_edges : W .edges) (dt : Nat) (input : Fin 8) (s : State) :
    Runs W s dt (execStuckLevel dt input s) := by
  unfold execStuckLevel
  refine State.run_keeps w_port fun d h => ?_
  try dsimp only
  repeat' first
    | with_reducible assumption
    | with_reducible apply Dev.event_keeps
    | with_reducible apply Dev.modTally_keeps
    | with_reducible apply Dev.takeEdges_keeps
    | split
    | exact id
    | intro _
    | dsimp only
    | (with_reducible refine Dev.Keeps.of_pair (by with_reducible assumption) ?_)

theorem execOdoFrozen_runs (w_port : W .port) (w_log : W .log) (w_tally : W .tally) (w_odo : W .odo) (w_edges : W .edges) (dt : Nat) (s : State) :
    Runs W s dt (execOdoFrozen dt s) := by
  unfold execOdoFrozen
  refine State.run_keeps w_port fun d h => ?_
  try dsimp only
  repeat' first
    | with_reducible assumption
    | with_reducible apply Dev.event_keeps
    | with_reducible apply Dev.takeEdges_keeps
    | split
    | with_reducible apply Dev.Keeps.odo
    | exact id
    | intro _
    | dsimp only
    | (with_reducible refine Dev.Keeps.of_pair (by with_reducible assumption) ?_)

theorem execGroundEvaluation_runs (w_port : W .port) (w_log : W .log) (w_tally : W .tally) (w_odo : W .odo) (w_edges : W .edges) (dt : Nat) (s : State) :
    Runs W s dt (execGroundEvaluation dt s) := by
  unfold execGroundEvaluation
  refine State.run_keeps w_port fun d h => ?_
  try dsimp only
  repeat' first
    | with_reducible assumption
    | with_reducible apply Dev.takeEdges_keeps
    | with_reducible apply Dev.judgePrimary_keeps
    | with_reducible apply Dev.judgeSecondary_keeps
    | split
    | with_reducible apply Dev.Keeps.odo
    | exact id
    | intro _
    | dsimp only
    | (with_reducible refine Dev.Keeps.of_pair (by with_reducible assumption) ?_)

end Sys2Proof.Machine
end

