-- ==== Sys2Proof/Laws/RunsThermal.lean ====
section
/-! SUPPORT. Every command of Thermal.lean has a next state, and what it keeps. -/

namespace Sys2Proof.Machine
open Sys2Proof

variable {W : Part → Prop}

theorem execThrottleGraceEnd_runs (w_port : W .port) (w_log : W .log) (w_voices : W .voices) (w_therm : W .therm) (w_chain : W .chain) (dt : Nat) (u : ThermUnit) (s : State) :
    Runs W s dt (execThrottleGraceEnd dt u s) := by
  unfold execThrottleGraceEnd
  refine State.run_keeps w_port fun d h => ?_
  try dsimp only
  repeat' first
    | with_reducible assumption
    | with_reducible apply Dev.enforce_keeps
    | with_reducible apply Dev.throttleEnd_keeps
    | split
    | exact id
    | intro _
    | dsimp only
    | (with_reducible refine Dev.Keeps.of_pair (by with_reducible assumption) ?_)

theorem execCeilingStep_runs (w_port : W .port) (w_therm : W .therm) (dt : Nat) (zone : ZoneId) (s : State) :
    Runs W s dt (execCeilingStep dt zone s) := by
  unfold execCeilingStep
  refine State.run_keeps w_port fun d h => ?_
  try dsimp only
  repeat' first
    | with_reducible assumption
    | with_reducible apply Dev.modZone_keeps
    | split
    | exact id
    | intro _
    | dsimp only
    | (with_reducible refine Dev.Keeps.of_pair (by with_reducible assumption) ?_)

theorem execZoneReading_runs (w_port : W .port) (w_log : W .log) (w_voices : W .voices) (w_banks : W .banks) (w_staggers : W .staggers) (w_cues : W .cues) (w_sc : W .sc) (w_conv : W .conv) (w_wave : W .wave) (w_therm : W .therm) (w_nv : W .nv) (w_chain : W .chain) (w_slotFaults : W .slotFaults) (dt : Nat) (readings : Tab Int 8) (s : State) :
    Runs W s dt (execZoneReading dt readings s) := by
  unfold execZoneReading
  refine State.run_keeps w_port fun d h => ?_
  try dsimp only
  repeat' first
    | with_reducible assumption
    | with_reducible apply Dev.zoneReadings_keeps
    | split
    | with_reducible apply Dev.Keeps.therm
    | exact id
    | intro _
    | dsimp only
    | (with_reducible refine Dev.Keeps.of_pair (by with_reducible assumption) ?_)

theorem execZoneHardStop_runs (w_ctl : W .ctl) (w_port : W .port) (w_log : W .log) (w_voices : W .voices) (w_banks : W .banks) (w_staggers : W .staggers) (w_cues : W .cues) (w_sc : W .sc) (w_conv : W .conv) (w_wave : W .wave) (w_therm : W .therm) (w_nv : W .nv) (w_chain : W .chain) (w_slotOffs : W .slotOffs) (w_slotFaults : W .slotFaults) (dt : Nat) (_zone : ZoneId) (s : State) :
    Runs W s dt (execZoneHardStop dt _zone s) := by
  unfold execZoneHardStop
  refine State.run_keeps w_port fun d h => ?_
  try dsimp only
  repeat' first
    | with_reducible assumption
    | with_reducible apply Dev.forVoices_keeps
    | with_reducible apply Dev.turnOff_keeps
    | with_reducible apply Dev.enterHalted_keeps
    | split
    | exact id
    | intro _
    | dsimp only
    | (with_reducible refine Dev.Keeps.of_pair (by with_reducible assumption) ?_)

theorem execZoneCheckDone_runs (w_ctl : W .ctl) (w_port : W .port) (w_log : W .log) (w_voices : W .voices) (w_banks : W .banks) (w_staggers : W .staggers) (w_cues : W .cues) (w_sc : W .sc) (w_conv : W .conv) (w_wave : W .wave) (w_therm : W .therm) (w_nv : W .nv) (w_chain : W .chain) (w_slotOffs : W .slotOffs) (w_slotFaults : W .slotFaults) (dt : Nat) (zone : ZoneId) (result : CheckResult) (s : State) :
    Runs W s dt (execZoneCheckDone dt zone result s) := by
  unfold execZoneCheckDone
  refine State.run_keeps w_port fun d h => ?_
  try dsimp only
  repeat' first
    | with_reducible assumption
    | with_reducible apply Dev.modZone_keeps
    | with_reducible apply Dev.unitChecked_keeps
    | with_reducible apply Dev.retireZone_keeps
    | with_reducible apply Dev.settleZoneVoices_keeps
    | split
    | exact id
    | intro _
    | dsimp only
    | (with_reducible refine Dev.Keeps.of_pair (by with_reducible assumption) ?_)

theorem execModelUpdate_runs (w_port : W .port) (w_log : W .log) (w_voices : W .voices) (w_banks : W .banks) (w_staggers : W .staggers) (w_cues : W .cues) (w_sc : W .sc) (w_conv : W .conv) (w_wave : W .wave) (w_therm : W .therm) (w_chain : W .chain) (w_slotFaults : W .slotFaults) (dt : Nat) (s : State) :
    Runs W s dt (execModelUpdate dt s) := by
  unfold execModelUpdate
  refine State.run_keeps w_port fun d h => ?_
  try dsimp only
  repeat' first
    | with_reducible assumption
    | with_reducible apply Dev.forVoices_keeps
    | with_reducible apply Dev.updateVoice_keeps
    | split
    | with_reducible apply Dev.Keeps.therm
    | exact id
    | intro _
    | dsimp only
    | (with_reducible refine Dev.Keeps.of_pair (by with_reducible assumption) ?_)

theorem execBlipEnd_runs (w_port : W .port) (w_log : W .log) (w_voices : W .voices) (w_therm : W .therm) (dt : Nat) (_current : Told) (_voltage : Told) (s : State) :
    Runs W s dt (execBlipEnd dt _current _voltage s) := by
  unfold execBlipEnd
  refine State.run_keeps w_port fun d h => ?_
  try dsimp only
  repeat' first
    | with_reducible assumption
    | with_reducible apply Dev.forVoices_keeps
    | with_reducible apply Dev.blipGate_keeps
    | with_reducible apply Dev.blipAnchor_keeps
    | split
    | with_reducible apply Dev.Keeps.therm
    | exact id
    | intro _
    | dsimp only
    | (with_reducible refine Dev.Keeps.of_pair (by with_reducible assumption) ?_)

end Sys2Proof.Machine
end

