-- ==== Sys2Proof/Laws/RunsTimeBase.lean ====
section
/-! SUPPORT. Every command of TimeBase.lean has a next state, and what it keeps. -/

namespace Sys2Proof.Machine
open Sys2Proof

variable {W : Part → Prop}

theorem execPllLock_runs (w_port : W .port) (w_score : W .score) (dt : Nat) (s : State) :
    Runs W s dt (execPllLock dt s) := by
  unfold execPllLock
  refine State.run_keeps w_port fun d h => ?_
  try dsimp only
  repeat' first
    | with_reducible assumption
    | with_reducible apply Dev.setScore_keeps
    | split
    | exact id
    | intro _
    | dsimp only
    | (with_reducible refine Dev.Keeps.of_pair (by with_reducible assumption) ?_)

theorem execLockTimeout_runs (w_time : W .time) (w_port : W .port) (w_log : W .log) (w_score : W .score) (dt : Nat) (s : State) :
    Runs W s dt (execLockTimeout dt s) := by
  unfold execLockTimeout
  refine State.run_keeps w_port fun d h => ?_
  try dsimp only
  repeat' first
    | with_reducible assumption
    | with_reducible apply Dev.setScore_keeps
    | with_reducible apply Dev.tellRefAbsent_keeps
    | split
    | exact id
    | intro _
    | dsimp only
    | (with_reducible refine Dev.Keeps.of_pair (by with_reducible assumption) ?_)

theorem execReferenceLost_runs (w_port : W .port) (w_score : W .score) (dt : Nat) (s : State) :
    Runs W s dt (execReferenceLost dt s) := by
  unfold execReferenceLost
  refine State.run_keeps w_port fun d h => ?_
  try dsimp only
  repeat' first
    | with_reducible assumption
    | with_reducible apply Dev.setScore_keeps
    | split
    | exact id
    | intro _
    | dsimp only
    | (with_reducible refine Dev.Keeps.of_pair (by with_reducible assumption) ?_)

theorem execReferenceReturn_runs (w_port : W .port) (w_score : W .score) (ret : RefReturn) (s : State) :
    Runs W s ret.dt (execReferenceReturn ret s) := by
  unfold execReferenceReturn
  refine State.run_keeps w_port fun d h => ?_
  try dsimp only
  repeat' first
    | with_reducible assumption
    | with_reducible apply Dev.setScore_keeps
    | split
    | exact id
    | intro _
    | dsimp only
    | (with_reducible refine Dev.Keeps.of_pair (by with_reducible assumption) ?_)

theorem execTimebaseMarkEnd_runs (w_port : W .port) (w_score : W .score) (dt : Nat) (s : State) :
    Runs W s dt (execTimebaseMarkEnd dt s) := by
  unfold execTimebaseMarkEnd
  refine State.run_keeps w_port fun d h => ?_
  try dsimp only
  repeat' first
    | with_reducible assumption
    | with_reducible apply Dev.setScore_keeps
    | split
    | exact id
    | intro _
    | dsimp only
    | (with_reducible refine Dev.Keeps.of_pair (by with_reducible assumption) ?_)

theorem execTbAdopted_runs (w_time : W .time) (w_port : W .port) (w_log : W .log) (w_voices : W .voices) (w_cues : W .cues) (w_tally : W .tally) (w_odo : W .odo) (dt : Nat) (s : State) :
    Runs W s dt (execTbAdopted dt s) := by
  unfold execTbAdopted
  refine State.run_keeps w_port fun d h => ?_
  try dsimp only
  repeat' first
    | with_reducible assumption
    | with_reducible apply Dev.event_keeps
    | with_reducible apply Dev.takeCount_keeps
    | split
    | exact id
    | intro _
    | dsimp only
    | (with_reducible refine Dev.Keeps.of_pair (by with_reducible assumption) ?_)

theorem execTbLost_runs (w_time : W .time) (w_ctl : W .ctl) (w_port : W .port) (w_log : W .log) (w_voices : W .voices) (w_banks : W .banks) (w_staggers : W .staggers) (w_cues : W .cues) (w_tally : W .tally) (w_sc : W .sc) (w_conv : W .conv) (w_wave : W .wave) (w_therm : W .therm) (w_nv : W .nv) (w_chain : W .chain) (w_slotOffs : W .slotOffs) (w_slotFaults : W .slotFaults) (dt : Nat) (cause : LossCause) (s : State) :
    Runs W s dt (execTbLost dt cause s) := by
  unfold execTbLost
  refine State.run_keeps w_port fun d h => ?_
  try dsimp only
  repeat' first
    | with_reducible assumption
    | with_reducible apply Dev.setTime_keeps
    | with_reducible apply Dev.loseTb_keeps
    | split
    | exact id
    | intro _
    | dsimp only
    | (with_reducible refine Dev.Keeps.of_pair (by with_reducible assumption) ?_)

theorem execTbcWord_runs (w_time : W .time) (w_ctl : W .ctl) (w_port : W .port) (w_log : W .log) (w_voices : W .voices) (w_banks : W .banks) (w_staggers : W .staggers) (w_cues : W .cues) (w_tally : W .tally) (w_sc : W .sc) (w_conv : W .conv) (w_wave : W .wave) (w_therm : W .therm) (w_nv : W .nv) (w_chain : W .chain) (w_slotOffs : W .slotOffs) (w_slotFaults : W .slotFaults) (dt : Nat) (valid : Bool) (word : Int) (s : State) :
    Runs W s dt (execTbcWord dt valid word s) := by
  unfold execTbcWord
  refine State.run_keeps w_port fun d h => ?_
  try dsimp only
  repeat' first
    | with_reducible assumption
    | with_reducible apply Dev.tbcWord_keeps
    | split
    | exact id
    | intro _
    | dsimp only
    | (with_reducible refine Dev.Keeps.of_pair (by with_reducible assumption) ?_)

theorem execTbFallback_runs (w_time : W .time) (w_port : W .port) (w_log : W .log) (dt : Nat) (s : State) :
    Runs W s dt (execTbFallback dt s) := by
  unfold execTbFallback
  refine State.run_keeps w_port fun d h => ?_
  try dsimp only
  repeat' first
    | with_reducible assumption
    | with_reducible apply Dev.event_keeps
    | with_reducible apply Dev.setTime_keeps
    | split
    | exact id
    | intro _
    | dsimp only
    | (with_reducible refine Dev.Keeps.of_pair (by with_reducible assumption) ?_)

theorem execTbQualified_runs (w_time : W .time) (w_port : W .port) (dt : Nat) (s : State) :
    Runs W s dt (execTbQualified dt s) := by
  unfold execTbQualified
  refine State.run_keeps w_port fun d h => ?_
  try dsimp only
  repeat' first
    | with_reducible assumption
    | with_reducible apply Dev.setTime_keeps
    | split
    | exact id
    | intro _
    | dsimp only
    | (with_reducible refine Dev.Keeps.of_pair (by with_reducible assumption) ?_)

theorem execTbReturned_runs (w_time : W .time) (w_port : W .port) (w_log : W .log) (w_voices : W .voices) (w_cues : W .cues) (w_tally : W .tally) (w_odo : W .odo) (dt : Nat) (s : State) :
    Runs W s dt (execTbReturned dt s) := by
  unfold execTbReturned
  refine State.run_keeps w_port fun d h => ?_
  try dsimp only
  repeat' first
    | with_reducible assumption
    | with_reducible apply Dev.event_keeps
    | with_reducible apply Dev.dropStarts_keeps
    | with_reducible apply Dev.takeCount_keeps
    | split
    | exact id
    | intro _
    | dsimp only
    | (with_reducible refine Dev.Keeps.of_pair (by with_reducible assumption) ?_)

theorem execFallbackBad_runs (w_time : W .time) (w_ctl : W .ctl) (w_port : W .port) (w_log : W .log) (w_voices : W .voices) (w_banks : W .banks) (w_staggers : W .staggers) (w_cues : W .cues) (w_sc : W .sc) (w_conv : W .conv) (w_wave : W .wave) (w_therm : W .therm) (w_nv : W .nv) (w_chain : W .chain) (w_slotOffs : W .slotOffs) (w_slotFaults : W .slotFaults) (dt : Nat) (s : State) :
    Runs W s dt (execFallbackBad dt s) := by
  unfold execFallbackBad
  refine State.run_keeps w_port fun d h => ?_
  try dsimp only
  repeat' first
    | with_reducible assumption
    | with_reducible apply Dev.event_keeps
    | with_reducible apply Dev.enterHalted_keeps
    | with_reducible apply Dev.setTime_keeps
    | split
    | exact id
    | intro _
    | dsimp only
    | (with_reducible refine Dev.Keeps.of_pair (by with_reducible assumption) ?_)

theorem execFallbackTrim_runs (w_time : W .time) (w_port : W .port) (dt : Nat) (s : State) :
    Runs W s dt (execFallbackTrim dt s) := by
  unfold execFallbackTrim
  refine State.run_keeps w_port fun d h => ?_
  try dsimp only
  repeat' first
    | with_reducible assumption
    | with_reducible apply Dev.setTime_keeps
    | split
    | exact id
    | intro _
    | dsimp only
    | (with_reducible refine Dev.Keeps.of_pair (by with_reducible assumption) ?_)

end Sys2Proof.Machine
end

