-- ==== Sys2Proof/Laws/RunsVoices.lean ====
section
/-! SUPPORT. Every command of Voices.lean has a next state, and what it keeps. -/

namespace Sys2Proof.Machine
open Sys2Proof

variable {W : Part → Prop}

theorem execGateRampEnd_runs (w_port : W .port) (w_voices : W .voices) (w_therm : W .therm) (dt : Nat) (v : VoiceId) (s : State) :
    Runs W s dt (execGateRampEnd dt v s) := by
  unfold execGateRampEnd
  refine State.run_keeps w_port fun d h => ?_
  try dsimp only
  repeat' first
    | with_reducible assumption
    | with_reducible apply Dev.modVoice_keeps
    | with_reducible apply Dev.blipRaised_keeps
    | with_reducible apply Dev.settle_keeps
    | with_reducible apply Dev.raised_keeps
    | split
    | exact id
    | intro _
    | dsimp only
    | (with_reducible refine Dev.Keeps.of_pair (by with_reducible assumption) ?_)

theorem execProfilePhaseEnd_runs (w_port : W .port) (w_voices : W .voices) (dt : Nat) (v : VoiceId) (s : State) :
    Runs W s dt (execProfilePhaseEnd dt v s) := by
  unfold execProfilePhaseEnd
  refine State.run_keeps w_port fun d h => ?_
  try dsimp only
  repeat' first
    | with_reducible assumption
    | with_reducible apply Dev.modVoice_keeps
    | with_reducible apply Dev.dutyRampEnd_keeps
    | with_reducible apply Dev.settle_keeps
    | with_reducible apply Dev.slewEnd_keeps
    | split
    | exact id
    | intro _
    | dsimp only
    | (with_reducible refine Dev.Keeps.of_pair (by with_reducible assumption) ?_)

theorem execPwmPeriodStart_runs (w_port : W .port) (w_voices : W .voices) (dt : Nat) (v : VoiceId) (s : State) :
    Runs W s dt (execPwmPeriodStart dt v s) := by
  unfold execPwmPeriodStart
  refine State.run_keeps w_port fun d h => ?_
  try dsimp only
  repeat' first
    | with_reducible assumption
    | with_reducible apply Dev.forVoices_keeps
    | with_reducible apply Dev.periodStart_keeps
    | split
    | exact id
    | intro _
    | dsimp only
    | (with_reducible refine Dev.Keeps.of_pair (by with_reducible assumption) ?_)

theorem execPwmOffEdge_runs (w_port : W .port) (w_voices : W .voices) (dt : Nat) (v : VoiceId) (s : State) :
    Runs W s dt (execPwmOffEdge dt v s) := by
  unfold execPwmOffEdge
  refine State.run_keeps w_port fun d h => ?_
  try dsimp only
  repeat' first
    | with_reducible assumption
    | with_reducible apply Dev.offEdge1_keeps
    | split
    | exact id
    | intro _
    | dsimp only
    | (with_reducible refine Dev.Keeps.of_pair (by with_reducible assumption) ?_)

theorem execHoldChopPeriod_runs (w_port : W .port) (w_log : W .log) (w_voices : W .voices) (w_sc : W .sc) (w_conv : W .conv) (w_wave : W .wave) (w_therm : W .therm) (w_chain : W .chain) (w_slotFaults : W .slotFaults) (dt : Nat) (v : VoiceId) (clamped : Bool) (m : Meas) (s : State) :
    Runs W s dt (execHoldChopPeriod dt v clamped m s) := by
  unfold execHoldChopPeriod
  refine State.run_keeps w_port fun d h => ?_
  try dsimp only
  repeat' first
    | with_reducible assumption
    | with_reducible apply Dev.modVoice_keeps
    | with_reducible apply Dev.edgeEnergy_keeps
    | with_reducible apply Dev.scoreTrip_keeps
    | split
    | exact id
    | intro _
    | dsimp only
    | (with_reducible refine Dev.Keeps.of_pair (by with_reducible assumption) ?_)

theorem execClampPulseEnd_runs (w_port : W .port) (w_log : W .log) (w_voices : W .voices) (w_conv : W .conv) (w_wave : W .wave) (w_slotFaults : W .slotFaults) (dt : Nat) (v : VoiceId) (pulse : ClampPulse) (m : Meas) (s : State) :
    Runs W s dt (execClampPulseEnd dt v pulse m s) := by
  unfold execClampPulseEnd
  refine State.run_keeps w_port fun d h => ?_
  try dsimp only
  repeat' first
    | with_reducible assumption
    | with_reducible apply Dev.modVoice_keeps
    | with_reducible apply Dev.scoreReport_keeps
    | split
    | exact id
    | intro _
    | dsimp only
    | (with_reducible refine Dev.Keeps.of_pair (by with_reducible assumption) ?_)

theorem execBreathGrant_runs (w_port : W .port) (w_log : W .log) (w_voices : W .voices) (w_cues : W .cues) (w_tally : W .tally) (w_odo : W .odo) (w_sc : W .sc) (w_therm : W .therm) (w_chain : W .chain) (w_slotOffs : W .slotOffs) (w_slotFaults : W .slotFaults) (w_edges : W .edges) (dt : Nat) (s : State) :
    Runs W s dt (execBreathGrant dt s) := by
  unfold execBreathGrant
  refine State.run_keeps w_port fun d h => ?_
  try dsimp only
  repeat' first
    | with_reducible assumption
    | with_reducible apply Dev.endSlot_keeps
    | split
    | exact id
    | intro _
    | dsimp only
    | (with_reducible refine Dev.Keeps.of_pair (by with_reducible assumption) ?_)

theorem execBreathSpanEnd_runs (w_port : W .port) (w_voices : W .voices) (w_chain : W .chain) (dt : Nat) (v : VoiceId) (s : State) :
    Runs W s dt (execBreathSpanEnd dt v s) := by
  unfold execBreathSpanEnd
  refine State.run_keeps w_port fun d h => ?_
  try dsimp only
  repeat' first
    | with_reducible assumption
    | with_reducible apply Dev.modVoice_keeps
    | with_reducible apply Dev.returnTokens_keeps
    | split
    | exact id
    | intro _
    | dsimp only
    | (with_reducible refine Dev.Keeps.of_pair (by with_reducible assumption) ?_)

theorem execBreathWaitExpiry_runs (w_port : W .port) (w_log : W .log) (w_voices : W .voices) (w_cues : W .cues) (w_sc : W .sc) (w_chain : W .chain) (dt : Nat) (v : VoiceId) (s : State) :
    Runs W s dt (execBreathWaitExpiry dt v s) := by
  unfold execBreathWaitExpiry
  refine State.run_keeps w_port fun d h => ?_
  try dsimp only
  repeat' first
    | with_reducible assumption
    | with_reducible apply Dev.event_keeps
    | with_reducible apply Dev.granted_keeps
    | with_reducible apply Dev.setCues_keeps
    | with_reducible apply Dev.cueLate_keeps
    | split
    | exact id
    | intro _
    | dsimp only
    | (with_reducible refine Dev.Keeps.of_pair (by with_reducible assumption) ?_)
    | (simp only [List.length_map]; assumption)
    | exact Nat.le_trans (List.length_filter_le _ _) (by assumption)
    | exact Nat.zero_le _

theorem execSignatureWindowExpiry_runs (w_port : W .port) (w_log : W .log) (w_voices : W .voices) (w_conv : W .conv) (w_wave : W .wave) (w_slotFaults : W .slotFaults) (dt : Nat) (v : VoiceId) (m : Meas) (s : State) :
    Runs W s dt (execSignatureWindowExpiry dt v m s) := by
  unfold execSignatureWindowExpiry
  refine State.run_keeps w_port fun d h => ?_
  try dsimp only
  repeat' first
    | with_reducible assumption
    | with_reducible apply Dev.modVoice_keeps
    | with_reducible apply Dev.scoreReport_keeps
    | split
    | exact id
    | intro _
    | dsimp only
    | (with_reducible refine Dev.Keeps.of_pair (by with_reducible assumption) ?_)

theorem execLhLevelChange_runs (w_port : W .port) (w_lh : W .lh) (dt : Nat) (lh : Fin 8) (raw : LhRaw) (s : State) :
    Runs W s dt (execLhLevelChange dt lh raw s) := by
  unfold execLhLevelChange
  refine State.run_keeps w_port fun d h => ?_
  try dsimp only
  repeat' first
    | with_reducible assumption
    | split
    | with_reducible apply Dev.Keeps.lh
    | exact id
    | intro _
    | dsimp only
    | (with_reducible refine Dev.Keeps.of_pair (by with_reducible assumption) ?_)

theorem execLhRateRelease_runs (w_port : W .port) (w_log : W .log) (w_voices : W .voices) (w_cues : W .cues) (w_therm : W .therm) (w_chain : W .chain) (w_slotOffs : W .slotOffs) (dt : Nat) (v : VoiceId) (s : State) :
    Runs W s dt (execLhRateRelease dt v s) := by
  unfold execLhRateRelease
  refine State.run_keeps w_port fun d h => ?_
  try dsimp only
  repeat' first
    | with_reducible assumption
    | with_reducible apply Dev.followLevel_keeps
    | split
    | exact id
    | intro _
    | dsimp only
    | (with_reducible refine Dev.Keeps.of_pair (by with_reducible assumption) ?_)

theorem execChatter_runs (w_port : W .port) (w_log : W .log) (w_lh : W .lh) (dt : Nat) (lh : Fin 8) (s : State) :
    Runs W s dt (execChatter dt lh s) := by
  unfold execChatter
  refine State.run_keeps w_port fun d h => ?_
  try dsimp only
  repeat' first
    | with_reducible assumption
    | with_reducible apply Dev.event_keeps
    | split
    | with_reducible apply Dev.Keeps.lh
    | exact id
    | intro _
    | dsimp only
    | (with_reducible refine Dev.Keeps.of_pair (by with_reducible assumption) ?_)

theorem execChatterClear_runs (w_port : W .port) (w_lh : W .lh) (dt : Nat) (lh : Fin 8) (s : State) :
    Runs W s dt (execChatterClear dt lh s) := by
  unfold execChatterClear
  refine State.run_keeps w_port fun d h => ?_
  try dsimp only
  repeat' first
    | with_reducible assumption
    | split
    | with_reducible apply Dev.Keeps.lh
    | exact id
    | intro _
    | dsimp only
    | (with_reducible refine Dev.Keeps.of_pair (by with_reducible assumption) ?_)

theorem execLhRearm_runs (w_port : W .port) (w_voices : W .voices) (dt : Nat) (lh : Fin 8) (s : State) :
    Runs W s dt (execLhRearm dt lh s) := by
  unfold execLhRearm
  refine State.run_keeps w_port fun d h => ?_
  try dsimp only
  repeat' first
    | with_reducible assumption
    | with_reducible apply Dev.modVoice_keeps
    | with_reducible apply Dev.forVoices_keeps
    | with_reducible apply Dev.modUnit_keeps
    | split
    | exact id
    | intro _
    | dsimp only
    | (with_reducible refine Dev.Keeps.of_pair (by with_reducible assumption) ?_)

theorem execBankSupplyAbsent_runs (w_port : W .port) (w_log : W .log) (w_voices : W .voices) (w_banks : W .banks) (w_staggers : W .staggers) (w_cues : W .cues) (w_sc : W .sc) (w_conv : W .conv) (w_wave : W .wave) (w_therm : W .therm) (w_nv : W .nv) (w_chain : W .chain) (w_slotOffs : W .slotOffs) (w_slotFaults : W .slotFaults) (dt : Nat) (bank : BankId) (s : State) :
    Runs W s dt (execBankSupplyAbsent dt bank s) := by
  unfold execBankSupplyAbsent
  refine State.run_keeps w_port fun d h => ?_
  try dsimp only
  repeat' first
    | with_reducible assumption
    | with_reducible apply Dev.event_keeps
    | with_reducible apply Dev.modBank_keeps
    | with_reducible apply Dev.loseBank_keeps
    | split
    | exact id
    | intro _
    | dsimp only
    | (with_reducible refine Dev.Keeps.of_pair (by with_reducible assumption) ?_)

theorem execBankSupplyPresent_runs (w_port : W .port) (w_log : W .log) (w_banks : W .banks) (dt : Nat) (bank : BankId) (s : State) :
    Runs W s dt (execBankSupplyPresent dt bank s) := by
  unfold execBankSupplyPresent
  refine State.run_keeps w_port fun d h => ?_
  try dsimp only
  repeat' first
    | with_reducible assumption
    | with_reducible apply Dev.event_keeps
    | with_reducible apply Dev.modBank_keeps
    | split
    | exact id
    | intro _
    | dsimp only
    | (with_reducible refine Dev.Keeps.of_pair (by with_reducible assumption) ?_)

theorem execChargePumpLow_runs (w_port : W .port) (w_log : W .log) (w_voices : W .voices) (w_banks : W .banks) (w_staggers : W .staggers) (w_cues : W .cues) (w_sc : W .sc) (w_conv : W .conv) (w_wave : W .wave) (w_therm : W .therm) (w_nv : W .nv) (w_chain : W .chain) (w_pd : W .pd) (w_slotOffs : W .slotOffs) (w_slotFaults : W .slotFaults) (dt : Nat) (s : State) :
    Runs W s dt (execChargePumpLow dt s) := by
  unfold execChargePumpLow
  refine State.run_keeps w_port fun d h => ?_
  try dsimp only
  repeat' first
    | with_reducible assumption
    | with_reducible apply Dev.event_keeps
    | with_reducible apply Dev.loseBank_keeps
    | split
    | with_reducible apply Dev.Keeps.foldl
    | with_reducible apply Dev.Keeps.foldl_pair
    | with_reducible apply Dev.Keeps.pd
    | exact id
    | intro _
    | dsimp only
    | (with_reducible refine Dev.Keeps.of_pair (by with_reducible assumption) ?_)

theorem execChargePumpRecovered_runs (w_port : W .port) (w_log : W .log) (w_pd : W .pd) (dt : Nat) (s : State) :
    Runs W s dt (execChargePumpRecovered dt s) := by
  unfold execChargePumpRecovered
  refine State.run_keeps w_port fun d h => ?_
  try dsimp only
  repeat' first
    | with_reducible assumption
    | with_reducible apply Dev.event_keeps
    | split
    | with_reducible apply Dev.Keeps.pd
    | exact id
    | intro _
    | dsimp only
    | (with_reducible refine Dev.Keeps.of_pair (by with_reducible assumption) ?_)

theorem execBankCurrentSum_runs (w_port : W .port) (w_log : W .log) (w_banks : W .banks) (dt : Nat) (_sums : Told) (s : State) :
    Runs W s dt (execBankCurrentSum dt _sums s) := by
  unfold execBankCurrentSum
  refine State.run_keeps w_port fun d h => ?_
  try dsimp only
  repeat' first
    | with_reducible assumption
    | with_reducible apply Dev.bankSum_keeps
    | split
    | with_reducible apply Dev.Keeps.foldl
    | with_reducible apply Dev.Keeps.foldl_pair
    | exact id
    | intro _
    | dsimp only
    | (with_reducible refine Dev.Keeps.of_pair (by with_reducible assumption) ?_)

theorem execCueExecute_runs (w_port : W .port) (w_log : W .log) (w_voices : W .voices) (w_cues : W .cues) (w_tally : W .tally) (w_odo : W .odo) (w_therm : W .therm) (w_chain : W .chain) (w_slotOffs : W .slotOffs) (w_edges : W .edges) (dt : Nat) (s : State) :
    Runs W s dt (execCueExecute dt s) := by
  unfold execCueExecute
  refine State.run_keeps w_port fun d h => ?_
  try dsimp only
  repeat' first
    | with_reducible assumption
    | with_reducible apply Dev.levelsAndCues_keeps
    | split
    | exact id
    | intro _
    | dsimp only
    | (with_reducible refine Dev.Keeps.of_pair (by with_reducible assumption) ?_)

end Sys2Proof.Machine
end

