-- ==== Sys2Proof/Laws/RunsWave.lean ====
section
/-! SUPPORT. Every command of Wave.lean has a next state, and what it keeps. -/

namespace Sys2Proof.Machine
open Sys2Proof

variable {W : Part → Prop}

theorem execWaveFrame_runs (w_port : W .port) (w_log : W .log) (w_voices : W .voices) (w_wave : W .wave) (dt : Nat) (timing : FrameTiming) (_rate : Told) (s : State) :
    Runs W s dt (execWaveFrame dt timing _rate s) := by
  unfold execWaveFrame
  refine State.run_keeps w_port fun d h => ?_
  try dsimp only
  repeat' first
    | with_reducible assumption
    | with_reducible apply Dev.setWave_keeps
    | with_reducible apply Dev.nextFrame_keeps
    | with_reducible apply Dev.transmit_keeps
    | with_reducible apply Dev.judgeFrame_keeps
    | with_reducible apply Dev.firstMark_keeps
    | with_reducible apply Dev.clockLoss_keeps
    | split
    | exact id
    | intro _
    | dsimp only
    | (with_reducible refine Dev.Keeps.of_pair (by with_reducible assumption) ?_)

theorem execInSlotWord_runs (w_port : W .port) (w_voices : W .voices) (w_wave : W .wave) (dt : Nat) (slot : Fin 16) (word : Word) (s : State) :
    Runs W s dt (execInSlotWord dt slot word s) := by
  unfold execInSlotWord
  refine State.run_keeps w_port fun d h => ?_
  try dsimp only
  repeat' first
    | with_reducible assumption
    | with_reducible apply Dev.setWave_keeps
    | with_reducible apply Dev.modSlot_keeps
    | with_reducible apply Dev.takeWord_keeps
    | with_reducible apply Dev.takeB_keeps
    | split
    | exact id
    | intro _
    | dsimp only
    | (with_reducible refine Dev.Keeps.of_pair (by with_reducible assumption) ?_)

theorem execWaveLoss_runs (w_port : W .port) (w_log : W .log) (w_voices : W .voices) (w_wave : W .wave) (dt : Nat) (cause : WaveCause) (s : State) :
    Runs W s dt (execWaveLoss dt cause s) := by
  unfold execWaveLoss
  refine State.run_keeps w_port fun d h => ?_
  try dsimp only
  repeat' first
    | with_reducible assumption
    | with_reducible apply Dev.judgeFrame_keeps
    | with_reducible apply Dev.clockLoss_keeps
    | split
    | exact id
    | intro _
    | dsimp only
    | (with_reducible refine Dev.Keeps.of_pair (by with_reducible assumption) ?_)

theorem execWaveUnmute_runs (w_port : W .port) (w_log : W .log) (w_voices : W .voices) (w_wave : W .wave) (dt : Nat) (s : State) :
    Runs W s dt (execWaveUnmute dt s) := by
  unfold execWaveUnmute
  refine State.run_keeps w_port fun d h => ?_
  try dsimp only
  repeat' first
    | with_reducible assumption
    | with_reducible apply Dev.event_keeps
    | with_reducible apply Dev.setWave_keeps
    | with_reducible apply Dev.modSlot_keeps
    | with_reducible apply Dev.sendSlots_keeps
    | with_reducible apply Dev.useWords_keeps
    | split
    | with_reducible apply Dev.Keeps.foldl
    | with_reducible apply Dev.Keeps.foldl_pair
    | exact id
    | intro _
    | dsimp only
    | (with_reducible refine Dev.Keeps.of_pair (by with_reducible assumption) ?_)

theorem execWaveFrozen_runs (w_port : W .port) (w_log : W .log) (w_wave : W .wave) (dt : Nat) (slot : Fin 16) (s : State) :
    Runs W s dt (execWaveFrozen dt slot s) := by
  unfold execWaveFrozen
  refine State.run_keeps w_port fun d h => ?_
  try dsimp only
  repeat' first
    | with_reducible assumption
    | with_reducible apply Dev.event_keeps
    | with_reducible apply Dev.modSlot_keeps
    | split
    | exact id
    | intro _
    | dsimp only
    | (with_reducible refine Dev.Keeps.of_pair (by with_reducible assumption) ?_)

end Sys2Proof.Machine
end

