-- ==== Sys2Proof/WellFormed.lean ====
section
/-! DEFINITION. Well-formed commands: what the pins, the links and the packets can carry. The machine acts on every
command; these checks say which of them the hardware can be given. -/

namespace Sys2Proof

/-- The PARAMS of a packet fill at most the packet area of 8,186 bytes less its 7 bytes of framing (03 R77, R84); `lead` bytes of them
stand in the row's own action field. -/
def Pkt.wf (p : Pkt) (lead : Nat := 0) : Bool := p.params.length + lead ≤ 8179

/-- A signed value of `n` bits. -/
def fitsInt (n : Nat) (x : Int) : Bool := -(2 ^ (n - 1) : Int) ≤ x && x < (2 ^ (n - 1) : Int)

/-- A printable ASCII character. -/
def printable (b : Byte) : Bool := 0x20 ≤ b.toNat && b.toNat ≤ 0x7E

/-- A well-formed command: packets that fit their bar, reserved bits apart; chain frames of as many characters
as they have (16 R460);
a Laxitia line of at most 31 characters before its CR (15 R450); 16 printable characters of an identifier (15 R453); an
input of the converter below 120 (11); an address of the chain (16 R464); one of the at most 1,021 words of a program (14 R412); and
words and stamps of 64 bits on the time base links (01 R23). -/
def Instr.wf : Instr → Bool
  | .nop p | .identify p | .statusDetail p | .eventRead p | .eventAck p | .softReset p | .paramWrite p | .paramRead p
  | .imageCheck p | .conduct p | .paramWriteLive p | .acappella p | .voiceDuty p | .voiceClearFault p | .voiceRetire p
  | .park p | .resume p | .cueAdd p | .cueCancel p | .cueQuery p | .leadRead p | .adcReadBuffer p | .convertNow p
  | .adcCalStatus p | .waveStatus p | .thermalRead p | .throttleAck p | .anchorBlip p | .nvRead p | .nvProgram p
  | .nvErase p | .nvProtect p | .recWrite p | .recRead p | .recDelete p | .nvStatus p | .marginRead p | .lifetimeRead p
  | .scoreTotals p | .scoreLegalSet p | .scoreSectionMap p | .scoreAuditRead p | .scoreIdent p | .chainEnumerate p
  | .chainStatus p | .breathCtrl p | .soundcheckRun p | .soundcheckResult p | .patchStatus p => p.wf
  | .voiceSetOn p | .voiceSetOff p | .waveReport p | .waveFreeze p | .waveRelease p | .waveArmFault p | .waveClear p
  | .scoreJobStart p | .scoreJobEnd p | .scoreJobDiag p | .patchBegin p | .patchData p | .patchEnd p | .patchAbort p =>
    p.wf 1
  | .laxitiaRequest _ line => line.length ≤ 31
  | .sealFuses _ ident _ => ident.length = 16 && ident.all printable
  | .tbcWord _ _ word => fitsInt 64 word
  | .timestampEdge _ _ _ stamp _ => fitsInt 64 stamp
  | .urgentConversion _ _ input _ => input < 120
  | .zoneReading _ readings => readings.all (fitsInt 16)
  | .controlBootDone _ f => f.zones.all (fitsInt 16)
  | .scoreDieTemperature _ tenths => fitsInt 16 tenths
  | .calStep _ _ _ trims _ => fitsInt 16 trims.offset && fitsInt 16 trims.gain
  | .fastTrip _ _ k _ | .desatTrip _ _ k _ | .gateFault _ _ k _ => k ≠ 0
  | .downstreamFrame _ _ f => f.chars.length = 51
  | .upstreamFrame _ _ f _ => f.chars.length = 35
  | .deviceUnreachable _ addr | .breathReclaim _ addr => 1 ≤ addr && addr ≤ 62
  | .nvProgramDone _ failAt => failAt.all (· < 1021)
  | .bar .. | .commitEdge .. | .downbeat .. | .watchdog .. | .rstn .. | .hostPortOpen .. | .vioLost .. | .vioReturn ..
  | .bankCut .. | .bankRestore .. | .cueQueryStats .. | .odometerRead .. | .odometerRebase .. | .tallyRead ..
  | .adcEnginePause .. | .adcEngineRun .. | .adcEngineFlush .. | .chainRingOpen .. | .chainRingClose ..
  | .chainRingRestore .. | .ringCloseResult .. | .powerOnReset .. | .bootTimeout .. | .recScanDone .. | .scoreReset .. | .vmetLost ..
  | .vmetCommit .. | .pllLock .. | .lockTimeout .. | .referenceLost .. | .referenceReturn .. | .tbAdopted ..
  | .scoreReady .. | .tbLost .. | .tbFallback .. | .tbQualified .. | .tbReturned .. | .fallbackBad .. | .fallbackTrim ..
  | .timebaseMarkEnd .. | .scorePublication .. | .scoreSilent .. | .mailboxMessage .. | .scoreRingCommit ..
  | .tapSample .. | .tallyEdge .. | .scoreGroundEvaluation .. | .stuckLevel .. | .groundEvaluation .. | .odoFrozen ..
  | .cueExecute .. | .breathGrant .. | .breathSpanEnd .. | .breathWaitExpiry .. | .signatureWindowExpiry ..
  | .lhLevelChange .. | .lhRateRelease .. | .chatter .. | .lhRearm .. | .gateRampEnd .. | .profilePhaseEnd ..
  | .pwmPeriodStart .. | .pwmOffEdge .. | .holdChopPeriod .. | .clampPulseEnd .. | .ocTimeout .. | .olOnDetect ..
  | .olOffDetect .. | .stuckOnDetect .. | .revDetect .. | .soundcheckStart .. | .soundcheckDone .. | .retryDue ..
  | .retryClear .. | .staggeredTurnOff .. | .cutPinNonConducting .. | .bankSupplyAbsent .. | .bankSupplyPresent ..
  | .crank .. | .bankOv .. | .chargePumpLow .. | .chargePumpRecovered .. | .bankCurrentSum .. | .keepAliveFrame ..
  | .keepAliveLoss .. | .keepAliveReassert .. | .romCrcCheck .. | .patchCrcCheck .. | .sramScrub .. | .zoneHardStop ..
  | .modelUpdate .. | .throttleGraceEnd .. | .ceilingStep .. | .blipEnd .. | .zoneCheckDone .. | .scanStart ..
  | .atrgEdge .. | .conversion .. | .sliceCheckDone .. | .waveFrame .. | .inSlotWord .. | .waveLoss ..
  | .waveUnmute .. | .waveFrozen .. | .measureBoundary .. | .enumerationDone .. | .linkDown .. | .linkTimeout ..
  | .chainAcap .. | .hopLoopbackDone .. | .nvEraseSectorDone .. | .garbageCollection .. | .flashCheckDone ..
  | .powerDown .. | .scoreCommitWait .. | .lifetimeSaveDone .. | .markerWrite .. | .parkedRestart .. | .vholdFault ..
  | .porAssert .. | .flashFloor .. | .vholdReady .. | .chatterClear .. | .recordAppendDone .. => true

end Sys2Proof
end

