-- ==== Sys2Proof/Tests/Slice0.lean ====
section
/-! SUPPORT. Tests: the ill-formed commands that WellFormed refuses, single steps with results taken from the spec, and for
each statement a state and operands that meet its hypotheses. -/

set_option linter.unusedVariables false
set_option Elab.async false
open Sys2Proof Sys2Proof.Machine

namespace Sys2Proof.Slice0

/-- A device that runs in CONDUCTED with its port open and its Score locked and scanned. -/
def base : Dev :=
  let d := State.reset.dev
  let x : Score := { d.score with
      powered := true, scanned := true, tb := .locked, locked := true, refMode := true, reference := some 10000000, own := 2 ^ 44 }
  { d with
    ctl := { d.ctl with mode := .conducted, por := false, started := true, liveAt := some 0, scoreSilent := false }
    port := { d.port with isOpen := true, vioValid := true }
    time := { d.time with phase := .score, now := 2 ^ 44, tbc := 2 ^ 44, measureAt := 2 ^ 44 }
    nv := { d.nv with scanned := true }
    banks := d.banks.map fun b => { b with crank := false }
    pd := { d.pd with vcpOk := true }
    ka := { d.ka with held := false, firstFrame := true }
    score := x, link := { d.link with publication := some x } }

/-- The state with the device that `f` makes of it, and no command waiting. -/
def at_ (f : Dev → Dev) : State := { pending := [], dev := f base, snap := f base, slot := f base }

/-- The state with voice V3 changed. -/
def onV (f : Voice → Voice) : State := at_ fun d => d.modVoice 3 f

/-- What a check measured. -/
def meas : Meas := { current := 120, bank := 1200 }

/-- The invariant of a state, from what a computation can check of it. -/
theorem inv_of {s : State} (h : s.dev.port.replies.length ≤ 64 ∧ s.dev.log.events.length ≤ 256 ∧
    (∀ i, (h : i < s.dev.log.events.length) →
      (s.dev.log.events[i]).seq + BitVec.ofNat 32 (s.dev.log.events.length - i) = s.dev.log.nextSeq) ∧
    s.dev.cues.queue.length ≤ 4096 ∧ Memory.wf s.dev.nv.raw = true ∧ (∀ r ∈ s.slot.port.replies, r.settle = none) ∧
    s.slot.chain.replies = [] ∧ s.slot.chain.beat = false ∧ s.slot.slotOffs = 0 ∧ s.slot.slotFaults = [] ∧ s.slot.edges = []) :
    s.Inv :=
  let ⟨replies, few, order, cues, raw, settled, chain, beat, offs, faults, edges⟩ := h
  { good := { replies, log := ⟨few, order⟩, cues, raw }, settled := { replies := settled, chain, beat, offs, faults, edges := by simp [edges] } }

/-- A word written in four bytes reads back. -/
theorem crc_param (x : Word) : BitVec.ofNat 32 (field (leBytes 4 x.toNat) 0 4) = x := by
  apply BitVec.eq_of_toNat_eq
  have h := x.isLt
  simp [leBytes, field, leNat, List.range, List.range.loop, Nat.shiftRight_eq_div_pow]
  omega

/-- An empty shadow image passes the checks of CONDUCT with its own CRC. -/
theorem conduct_ok (d : Dev) (h : d.par.shadow = []) :
    d.conductFailure (BitVec.ofNat 32 (field (leBytes 4 (imageCrc []).toNat) 0 4)) = none := by
  have a : firstDependent [] = none := by decide +kernel
  have b : firstConflict [] = none := by decide +kernel
  rw [crc_param]
  simp [Dev.conductFailure, h, a, b]

end Sys2Proof.Slice0

open Sys2Proof.Slice0

/-! ### Ill-formed commands (WellFormed) -/

/-- What `step` makes of the device with one command in front: the device after it and the end of its slot (08 R238). -/
def after_ (s : State) (c : Instr) : Dev :=
  match step { s with pending := [c] } with
  | .next t => t.dev
  | _ => s.dev

/-- The device one idle slot later, when the slot of the command has ended (08 R238). -/
def settled_ (s : State) (c : Instr) : Dev :=
  match step { s with pending := [c] } with
  | .next t => (match step t with | .next u => u.dev | _ => t.dev)
  | _ => s.dev

/-- A packet of 8,180 bytes of PARAMS does not fit the packet area (03 R77, R84). -/
theorem test_wf_params : (Instr.nop ⟨0, 0, List.replicate 8180 0⟩).wf = false ∧ (Instr.nop ⟨0, 0, List.replicate 8179 0⟩).wf = true := by
  decide +kernel
/-- A row that is one action of its opcode has one byte less (05 R151). -/
theorem test_wf_action : (Instr.voiceSetOn ⟨0, 0, List.replicate 8179 0⟩).wf = false := by decide +kernel
/-- A Laxitia line is at most 32 characters with its CR (15 R450). -/
theorem test_wf_laxitia : (Instr.laxitiaRequest 0 (List.replicate 32 0x41)).wf = false := by decide +kernel
/-- The identifier of a seal is 16 printable characters (15 R453). -/
theorem test_wf_seal :
    (Instr.sealFuses 0 (List.replicate 15 0x41) true).wf = false ∧ (Instr.sealFuses 0 (List.replicate 16 0x0A) true).wf = false := by
  decide +kernel
/-- Words and stamps of the time base links have 64 bits (01 R23). -/
theorem test_wf_words : (Instr.tbcWord 0 true (2 ^ 63)).wf = false ∧ (Instr.timestampEdge 0 1 true (-2 ^ 63 - 1) ()).wf = false := by
  decide +kernel
/-- The converter has 120 inputs (11). -/
theorem test_wf_input : (Instr.urgentConversion 0 .faultCapture 120 none).wf = false := by decide +kernel
/-- Readings of 16 bits (13 R355, 15 R437), and trims of 16 bits (11 R330). -/
theorem test_wf_readings :
    (Instr.zoneReading 0 (.fill 8 40000)).wf = false ∧ (Instr.controlBootDone 0 ⟨.fill 8 (-40000), false⟩).wf = false ∧
    (Instr.scoreDieTemperature 0 32768).wf = false ∧ (Instr.calStep 0 true true ⟨0, 32768⟩ 0).wf = false := by decide +kernel
/-- A fast trip names a stripe (07 R203). -/
theorem test_wf_stripes : (Instr.fastTrip 0 3 0 meas).wf = false ∧ (Instr.desatTrip 0 3 0 meas).wf = false ∧ (Instr.gateFault 0 3 0 meas).wf = false := by
  decide +kernel
/-- A downstream frame has 51 characters after its start, an upstream frame 35 (16 R460). -/
theorem test_wf_frames :
    (Instr.downstreamFrame 0 .a ⟨true, List.replicate 50 0⟩).wf = false ∧
    (Instr.downstreamFrame 0 .a ⟨true, List.replicate 51 0⟩).wf = true ∧
    (Instr.upstreamFrame 0 .b ⟨true, List.replicate 36 0⟩ 0).wf = false ∧
    (Instr.upstreamFrame 0 .b ⟨true, List.replicate 35 0⟩ 0).wf = true := by decide +kernel
/-- Addresses of the chain are 1 to 62 (16 R464), and a program has at most 1,021 words (14 R412). -/
theorem test_wf_addresses :
    (Instr.deviceUnreachable 0 0).wf = false ∧ (Instr.breathReclaim 0 63).wf = false ∧
    (Instr.nvProgramDone 0 (some 1021)).wf = false := by decide +kernel

/-! ### Values that the spec prints -/

/-- The check value of the CRC-16 over "123456789" is 0x29B1 (03 R78). -/
theorem test_crc16 : crc16 (asc ['1', '2', '3', '4', '5', '6', '7', '8', '9']) = 0x29B1 := by decide +kernel
/-- The check value of the CRC-32 over "123456789" is 0xCBF43926 (04 R126). -/
theorem test_crc32 : crc32 (asc ['1', '2', '3', '4', '5', '6', '7', '8', '9']) = 0xCBF43926 := by decide +kernel
/-- The table gives no row any bits, so no word spells a command. -/
theorem test_no_word : decodeTableWord 8 0x13 = none ∧ (State.reset.withFetchWord 8 0x13) = State.reset := by decide +kernel
/-- No image of the field example's V46 DRIVE and BREATH words breaks a field check (20, 04). -/
theorem test_field_words :
    firstBadEntry .image [(0x15C0, 0x00060811), (0x2080, 0x00020108), (0x4801, 0x00040000)] = none := by decide +kernel

/-! ### Single steps -/

/-- On an empty queue one slot of 8 ticks passes (00 R8). -/
theorem test_idle : (match step State.reset with | .next t => t.dev.time.now | _ => 0) = 8 := by decide +kernel
/-- A watchdog that has expired takes CONDUCTED to FALLBACK (03 R98). -/
theorem test_watchdog : (after_ (at_ fun d => { d with port := { d.port with watchdog := some 7 } }) (.watchdog 0)).ctl.mode = .fallback := by
  decide +kernel
/-- A bar outside an open port is ignored, and BAR_NO stands (02 R46). -/
theorem test_closed_bar : (after_ State.reset (.bar 0 100 [0xC3, 1, 0, 0] 0 false)).port.barNo = 0 := by decide +kernel
/-- An unknown opcode leaves one reply of status UNKNOWN_OPCODE (05 R130, R134). -/
theorem test_unknown_opcode :
    (match (at_ id).packet 0x05 0 9 [] with | .next t => t.dev.port.replies.map (fun r => (r.tag, r.status)) | _ => []) = [(9, stUnknown)] := by
  decide +kernel
/-- VOICE_SET OFF turns V3 off and leaves V4 on (05 R151). -/
theorem test_voice_set_off :
    let s := at_ fun d => (d.modVoice 3 fun x => { x with st := .on, gate := true, cmd := true }).modVoice 4 fun x => { x with st := .on, gate := true, cmd := true }
    let d := settled_ s (.voiceSetOff ⟨0, 9, [0xFF, 8, 0, 0, 0, 0, 0]⟩)
    (d.voice 3).driven = false ∧ (d.voice 4).st = .on := by decide +kernel
/-- A fast trip leaves the voice TRIPPED with FAULT 2 (07 R199, R200). -/
theorem test_fast_trip :
    let d := after_ (onV fun x => { x with st := .on, gate := true, cmd := true }) (.fastTrip 0 3 1 meas)
    (d.voice 3).st = .tripped ∧ (d.voice 3).fault = 2 := by decide +kernel
/-- BANK_CUT of bank A and C alone (05 R156). -/
theorem test_bank_cut : ((after_ (at_ id) (.bankCut ⟨0, 9⟩ 5)).banks.map fun b => b.cut).list = [true, false, true, false] := by
  decide +kernel
/-- A tally edge that rises counts one in the raw total of its input (15 R424). -/
theorem test_tally_edge : ((after_ (at_ id) (.tallyEdge 0 5 true false)).score.raw.get 5).value = 1 := by decide +kernel
/-- The first lock of the Score starts its TBC at 0 (09 R250). -/
theorem test_pll_lock :
    (after_ (at_ fun d => { d with score := { d.score with tb := .acquiring, locked := false, attemptAt := 2 ^ 44, tbc := 77 } }) (.pllLock 0)).score.tbc = 0 := by
  decide +kernel
/-- The zone hard stop halts the device with cause 4 (01 R17, R34, 21 R549). -/
theorem test_hard_stop :
    let d := after_ (at_ id) (.zoneHardStop 0 5)
    d.ctl.mode = .halted ∧ d.ctl.haltCause = 4 := by decide +kernel
/-- A word of an in-slot with wrong parity counts in PARITY_ERR and gives no duty (12 R335). -/
theorem test_parity :
    let s := at_ fun d => { d with par := { d.par with live := [(0x3800, 0x81), (0x3801, 1)] }
                                   wave := { d.wave with st := .running, marked := true } }
    let d := after_ s (.inSlotWord 0 0 0x00010000)
    d.wave.parityErr = 1 ∧ (d.wave.slots.get 0).duty = none := by decide +kernel
/-- An erase leaves its sector reading 0xFF with one erase counted (14 R392, R410). -/
theorem test_erase :
    let s := at_ fun d => { d with nv := { d.nv with
      raw := [(0x4010, 5)], op := { d.nv.op with kind := 2, sectors := [4], busy := true } } }
    let d := after_ s (.nvEraseSectorDone 0 true)
    d.nv.raw = [] ∧ d.nv.rawErases.get 4 = 1 := by decide +kernel
/-- A device without an address that passes an ENUM frame takes HOP + 1 (16 R464), and a frame whose CRC fails gives it
none (16 R460). -/
theorem test_enumerate :
    let f (ok : Bool) : DownFrame :=
      { ok := ok, downbeat := false, bar := false, clrEnum := false, enumerate := true, hold := false, ring := false, mseq := 5
        hop := 4, barNo := 9, cumlat := 700, ctbc := 2 ^ 44, grants := [], sseq := 4, seg := [] }
    (after_ (at_ id) (.downstreamFrame 0 .a ⟨true, DownFrame.chars (f true)⟩)).chain.addr = some 5 ∧
    (after_ (at_ id) (.downstreamFrame 0 .a ⟨true, DownFrame.chars (f false)⟩)).chain.addr = none := by decide +kernel
/-- The characters of a downstream frame: flags, MSEQ, HOP, BAR_NO and CUMLAT low byte first, and what they read as (16
R460). -/
theorem test_down_chars :
    let f : DownFrame :=
      { ok := true, downbeat := true, bar := false, clrEnum := false, enumerate := false, hold := false, ring := true, mseq := 0x0102
        hop := 4, barNo := 0x0304, cumlat := 0x0506, ctbc := -2, grants := [⟨3, 4, 5⟩], sseq := 7, seg := [8, 9] }
    ((DownFrame.chars f).take 8 = [0x84, 0x02, 0x01, 4, 0x04, 0x03, 0x06, 0x05]) ∧ downOf (DownFrame.chars f) = f := by decide +kernel

/-! ### The hypotheses of the statements -/


/-- The hypotheses of `Obligations.StepRunsFrontCommand` hold together. -/
theorem test_hyps_StepRunsFrontCommand :
    (∃ c : Instr, ∃ rest : List Instr, ∃ s : State, s.pending = c :: rest) :=
  ⟨.commitEdge 0, [], { at_ id with pending := [.commitEdge 0] }, rfl⟩

/-- The hypotheses of `Obligations.EveryStepKeepsInvariant` hold together. -/
theorem test_hyps_EveryStepKeepsInvariant :
    (∃ s : State, ∃ t : State, s.Inv ∧ Sys2Proof.Machine.step s = .next t) :=
  ⟨at_ id, _, inv_of (by decide +kernel), rfl⟩

/-- The hypotheses of each clause of `Obligations.CommandsKeepTheirFrame` hold together. -/
theorem test_hyps_CommandsKeepTheirFrame :
    (∃ c : Instr, ∃ s : State, ∃ t : State, s.Inv ∧ Sys2Proof.Machine.exec c s = .next t) ∧
    (∃ c : Instr, ∃ s : State, ∃ t : State, ∃ p : Part, s.Inv ∧ Sys2Proof.Machine.exec c s = .next t ∧ p ∉ writes c) ∧
    (∃ s : State, ∃ n : Nat, s.Inv) ∧
    (∃ s : State, ∃ n : Nat, ∃ p : Part, s.Inv ∧ p ∉ slotParts) :=
  ⟨⟨.pllLock 2, at_ id, _, inv_of (by decide +kernel), rfl⟩,
    ⟨.pllLock 2, at_ id, _, .par, inv_of (by decide +kernel), rfl, by decide +kernel⟩,
    ⟨at_ id, 5, inv_of (by decide +kernel)⟩,
    ⟨at_ id, 5, .par, inv_of (by decide +kernel), by decide +kernel⟩⟩

/-- The hypotheses of each clause of `Obligations.TimePassesAlone` hold together. -/
theorem test_hyps_TimePassesAlone :
    (∃ d : Dev, ∃ n : Nat, ∃ p : Part, p ≠ .time ∧ p ≠ .score) ∧
    (∃ d : Dev, ∃ n : Nat, d.score.locked = false) ∧
    (∃ d : Dev, ∃ n : Nat, 0 ≤ d.time.drift ∧ d.time.drift < 8000000) ∧
    (∃ d : Dev, ∃ n : Nat, 0 ≤ d.time.drift ∧ d.time.drift < 8000000 ∧ d.time.phase = .score) ∧
    (∃ d : Dev, ∃ n : Nat, 0 ≤ d.time.drift ∧ d.time.drift < 8000000 ∧ d.time.phase = .score ∧ d.score.locked = true) ∧
    (∃ d : Dev, ∃ n : Nat, 0 ≤ d.time.drift ∧ d.time.drift < 8000000 ∧ d.score.locked = true) ∧
    (∃ s : State, s.pending = []) :=
  ⟨⟨base, 5, .par, by and_intros <;> decide +kernel⟩,
    ⟨State.reset.dev, 5, by decide +kernel⟩,
    ⟨base, 5, by and_intros <;> decide +kernel⟩,
    ⟨base, 5, by and_intros <;> decide +kernel⟩,
    ⟨base, 5, by and_intros <;> decide +kernel⟩,
    ⟨base, 5, by and_intros <;> decide +kernel⟩,
    ⟨at_ id, rfl⟩⟩

/-- The hypotheses of each clause of `Obligations.PacketsAreCheckedInOrder` hold together. -/
theorem test_hyps_PacketsAreCheckedInOrder :
    (∃ s : State, ∃ opc : Byte, ∃ tag : Byte, ∃ a : List Byte, s.Inv ∧ opRow opc a.length = none) ∧
    (∃ s : State, ∃ opc : Byte, ∃ tag : Byte, ∃ a : List Byte, ∃ row, s.Inv ∧ opRow opc a.length = some row ∧
        legalOnly opc = true ∧ s.dev.score.variant = .s) ∧
    (∃ s : State, ∃ opc : Byte, ∃ tag : Byte, ∃ a : List Byte, ∃ row, s.Inv ∧ opRow opc a.length = some row ∧
        (¬(legalOnly opc = true ∧ s.dev.score.variant = .s)) ∧ lenOk opc a = false) ∧
    (∃ s : State, ∃ opc : Byte, ∃ tag : Byte, ∃ a : List Byte, ∃ row, s.Inv ∧ opRow opc a.length = some row ∧
        (¬(legalOnly opc = true ∧ s.dev.score.variant = .s)) ∧ lenOk opc a = true ∧ opc ≠ 0x30 ∧
        reservedFailure opc a = true) ∧
    (∃ s : State, ∃ opc : Byte, ∃ tag : Byte, ∃ a : List Byte, ∃ row, ∃ i, s.Inv ∧ opRow opc a.length = some row ∧
        (¬(legalOnly opc = true ∧ s.dev.score.variant = .s)) ∧ lenOk opc a = true ∧ opc = 0x30 ∧
        (chunks 16 256 a).findIdx? cueReserved = some i) ∧
    (∃ s : State, ∃ opc : Byte, ∃ tag : Byte, ∃ a : List Byte, ∃ row, s.Inv ∧ opRow opc a.length = some row ∧
        (¬(legalOnly opc = true ∧ s.dev.score.variant = .s)) ∧ lenOk opc a = true ∧ reservedAnswer opc a = none ∧
        (row.modes.has (if s.dev.pdRunning then .parked else s.dev.ctl.mode) = false ∨ (opc = 0x13 ∧
        s.dev.ctl.mode = .starting) ∨ (s.dev.role = 2 ∧ row.kind ≠ .read))) ∧
    (∃ s : State, ∃ opc : Byte, ∃ tag : Byte, ∃ a : List Byte, ∃ row, s.Inv ∧ opRow opc a.length = some row ∧
        (¬(legalOnly opc = true ∧ s.dev.score.variant = .s)) ∧ lenOk opc a = true ∧ reservedAnswer opc a = none ∧
        s.dev.admits row opc false = true ∧
        Dev.scanning s.snap s.dev { dest := 0, opc := opc, tag := tag, params := a } = true) ∧
    (∃ s : State, ∃ opc : Byte, ∃ tag : Byte, ∃ a : List Byte, ∃ row, s.Inv ∧ opRow opc a.length = some row ∧
        s.dev.ctl.mode = .halted ∧ s.dev.pdRunning = false ∧ row.kind = .commit ∧ opc ≠ 0x04 ∧ opc ≠ 0x06 ∧ opc ≠ 0x24) :=
  ⟨⟨at_ id, 0x05, 9, [], inv_of (by decide +kernel), by decide +kernel⟩,
    ⟨(at_ fun d => { d with score := { d.score with variant := .s } }), 0x81, 9, List.replicate 48 0, _,
        inv_of (by decide +kernel), rfl, by and_intros <;> decide +kernel⟩,
    ⟨at_ id, 0x02, 9, [], _, inv_of (by decide +kernel), rfl, by and_intros <;> decide +kernel⟩,
    ⟨at_ id, 0x91, 9, [2], _, inv_of (by decide +kernel), rfl, by and_intros <;> decide +kernel⟩,
    ⟨at_ id, 0x30, 9, [0, 3, 0x80, 0, 0, 0, 0, 0, 1, 0, 0, 0, 0, 0, 0, 0], _, 0, inv_of (by decide +kernel), rfl,
        by and_intros <;> decide +kernel⟩,
    ⟨(at_ fun d => { d with ctl := { d.ctl with mode := .halted } }), 0x10, 9, [0, 0, 0, 0, 0, 0], _,
        inv_of (by decide +kernel), rfl, by and_intros <;> decide +kernel⟩,
    ⟨(at_ fun d => { d with nv := { d.nv with scanned := false } }), 0x75, 9, [0, 0, 0, 0, 1], _,
        inv_of (by decide +kernel), rfl, by and_intros <;> decide +kernel⟩,
    ⟨(at_ fun d => { d with ctl := { d.ctl with mode := .halted } }), 0x10, 9, [0, 0, 0, 0, 0, 0], _,
        inv_of (by decide +kernel), rfl, by and_intros <;> decide +kernel⟩⟩

/-- The hypotheses of `Obligations.DbPacketsWaitForTheirDownbeat` hold together. -/
theorem test_hyps_DbPacketsWaitForTheirDownbeat :
    (∃ s : State, ∃ opc : Byte, ∃ tag : Byte, ∃ a : List Byte, 
    let p : Packet := { dest := 0x80, opc := opc, tag := tag, params := a }
    s.Inv ∧ s.dev.precheck p = none) :=
  ⟨(at_ fun d => { d with chain := { d.chain with head := true, enumerated := true } }), 0x14, 9, [0x00, 0x20, 0, 0, 0,
      0], inv_of (by decide +kernel), by decide +kernel⟩

/-- The hypotheses of each clause of `Obligations.RepliesReadBack` hold together. -/
theorem test_hyps_RepliesReadBack :
    (∃ rs : List Reply, ∃ rest : List Byte, ∃ n : Nat, (∀ r ∈ rs, r.src < 128 ∧ r.data.length < 65536) ∧ rs.length < n ∧
        takeReply rest = none) ∧
    (∃ rs : List Reply, ∃ rest : List Byte, ∃ n : Nat, ∃ r, (∀ r ∈ rs, r.src < 128 ∧ r.data.length < 65536) ∧
        rs.length < n ∧ takeReply rest = none ∧ r ∈ rs) :=
  ⟨⟨[{ src := 3, opc := 0x34, tag := 7, status := 0, data := [1, 2, 3], settle := none },
      { src := 3, opc := 0x34, tag := 7, status := 0, data := [1, 2, 3], settle := none }], [0], 3,
      by and_intros <;> decide +kernel⟩,
    ⟨[{ src := 3, opc := 0x34, tag := 7, status := 0, data := [1, 2, 3], settle := none }], [], 2,
        { src := 3, opc := 0x34, tag := 7, status := 0, data := [1, 2, 3], settle := none },
        by and_intros <;> decide +kernel⟩⟩

/-- The hypotheses of each clause of `Obligations.FullQueuesLoseTheOldest` hold together. -/
theorem test_hyps_FullQueuesLoseTheOldest :
    (∃ d : Dev, ∃ code : Nat, ∃ unit : Nat, ∃ data : List Byte, d.ctl.por = false) ∧
    (∃ d : Dev, ∃ code : Nat, ∃ unit : Nat, ∃ data : List Byte, d.ctl.por = false ∧ d.log.events.length < 256) ∧
    (∃ d : Dev, ∃ code : Nat, ∃ unit : Nat, ∃ data : List Byte, ∃ old : Event, ∃ rest : List Event,
        d.log.events = old :: rest ∧ d.ctl.por = false ∧ rest.length = 255) ∧
    (∃ p : HostPort, ∃ r : Reply, p.replies.length < 64) ∧
    (∃ p : HostPort, ∃ r : Reply, ∃ old : Reply, ∃ rest : List Reply, p.replies = old :: rest ∧ rest.length = 63) :=
  ⟨⟨base, 0x0B05, 0xFF, [], by decide +kernel⟩,
    ⟨base, 0x0B05, 0xFF, [], by and_intros <;> decide +kernel⟩,
    ⟨{ base with log := { base.log with events := List.replicate 256 { seq := 0, tbc := 0, code := 1, unit := 0, acked := false, fallbackTb := false, data := [] } } }, 0x0B05, 0xFF, [], _, _, rfl, by and_intros <;> decide +kernel⟩,
    ⟨base.port, { src := 3, opc := 0x34, tag := 7, status := 0, data := [1, 2, 3], settle := none }, by decide +kernel⟩,
    ⟨{ base.port with replies := List.replicate 64 { src := 3, opc := 0x34, tag := 7, status := 0, data := [1, 2, 3], settle := none } }, { src := 3, opc := 0x34, tag := 7, status := 0, data := [1, 2, 3], settle := none }, _, _, rfl, by decide +kernel⟩⟩

/-- The hypotheses of each clause of `Obligations.PacketsLeaveTheScoreAlone` hold together. -/
theorem test_hyps_PacketsLeaveTheScoreAlone :
    (∃ s : State, ∃ t : State, ∃ opc : Byte, ∃ dest : Byte, ∃ tag : Byte, ∃ a : List Byte,
        s.packet opc dest tag a = .next t) ∧
    (∃ s : State, ∃ t : State, ∃ opc : Byte, ∃ dest : Byte, ∃ tag : Byte, ∃ a : List Byte,
        s.packet opc dest tag a = .next t ∧ opc ≠ 0x15 ∧ opc ≠ 0x25 ∧ opc ≠ 0x26) :=
  ⟨⟨at_ id, _, 0x15, 0, 9, [], rfl⟩,
    ⟨at_ id, _, 0x00, 0, 9, [], rfl, by and_intros <;> decide +kernel⟩⟩

/-- The hypotheses of `Obligations.AcceptedBarIsCounted` hold together. -/
theorem test_hyps_AcceptedBarIsCounted :
    (∃ s : State, ∃ dt : Nat, ∃ low : Nat, ∃ sdi : List Byte, ∃ bits : Fin 8, 
    let d := (s.turn dt).dev
    (∀ w, d.port.watchdog = some w → d.now + 8 * low ≤ w) ∧ d.port.isOpen = true ∧ d.port.commit = none ∧
        d.port.quietUntil ≤ d.now ∧ d.ctl.mode ≠ .starting) :=
  ⟨at_ id, 0, 100, List.replicate 40 0, 0, (by intro w h; cases h), by and_intros <;> decide +kernel⟩

/-- The hypotheses of each clause of `Obligations.EarlyAndClosedBarsAreIgnored` hold together. -/
theorem test_hyps_EarlyAndClosedBarsAreIgnored :
    (∃ s : State, ∃ dt : Nat, ∃ low : Nat, ∃ sdi : List Byte, ∃ bits : Fin 8, ∃ cut : Bool,
        ((s.turn dt).dev.port.commit = none ∨ (s.turn dt).dev.now < (s.turn dt).dev.port.quietUntil)) ∧
    (∃ s : State, ∃ dt : Nat, ∃ low : Nat, ∃ sdi : List Byte, ∃ bits : Fin 8, ∃ cut : Bool, 
    let d := (s.beforeBar dt).dev
    d.port.isOpen = true ∧ d.now < d.port.quietUntil) ∧
    (∃ s : State, ∃ dt : Nat, ∃ low : Nat, ∃ sdi : List Byte, ∃ bits : Fin 8, ∃ cut : Bool, 
    let d := (s.beforeBar dt).dev
    d.port.isOpen = false) :=
  ⟨⟨(at_ fun d => { d with port := { d.port with quietUntil := 2 ^ 44 + 1 } }), 0, 100, [], 0, false, by decide +kernel⟩,
    ⟨(at_ fun d => { d with port := { d.port with quietUntil := 2 ^ 44 + 1 } }), 0, 100, [], 0, false,
        by and_intros <;> decide +kernel⟩,
    ⟨(at_ fun d => { d with port := { d.port with isOpen := false } }), 0, 100, [], 0, false, by decide +kernel⟩⟩

/-- The hypotheses of each clause of `Obligations.CommitEdgeTakesThePacketsOfTheBar` hold together. -/
theorem test_hyps_CommitEdgeTakesThePacketsOfTheBar :
    (∃ s : State, ∃ dt : Nat, ∃ b : PendingBar, ∃ ps : List Packet, (s.turn dt).dev.port.commit = some b ∧
        b.area = ps.flatMap Packet.bytes ∧ (∀ p ∈ ps, p.params.length < 65536)) ∧
    (∃ snap : Dev, ∃ d : Dev, ∃ n : Nat, ∃ ps : List Packet, (∀ p ∈ ps, p.opc ≠ 0x06)) ∧
    (∃ s : State, ∃ dt : Nat, ∃ b : PendingBar, ∃ c : Instr, ∃ p : Packet, 
    let d := (s.turn dt).dev
    opcodePacket c = some p ∧ d.port.commit = some b ∧ b.area = p.bytes ∧ p.params.length < 65536 ∧
        b.barNo = (d.port.barNo + 65535) % 65536) ∧
    (∃ s : State, ∃ dt : Nat, ∃ b : PendingBar, ∃ ps : List Packet, ∃ rest : List Byte, ∃ st : Byte,
        (s.turn dt).dev.port.commit = some b ∧ b.area = ps.flatMap Packet.bytes ++ rest ∧ (∀ p ∈ ps,
        p.params.length < 65536) ∧ rest ≠ [] ∧ 3 ≤ rest.length ∧ (rest.length < 7 + field rest 3 2 ∧ st = stBadLength ∨
        7 + field rest 3 2 ≤ rest.length ∧ field rest (5 + field rest 3 2) 2 ≠ crc16 (rest.take (5 + field rest 3 2)) ∧
        st = stBadCrc)) ∧
    (∃ ps : List Packet, ∃ rest : List Byte, (∀ p ∈ ps, p.params.length < 65536) ∧ rest ≠ [] ∧
        rest.length < 7 + field rest 3 2) :=
  ⟨⟨(at_ fun d => { d with port := { d.port with commit := some { area := [{ dest := 0, opc := 0, tag := 7, params := [] }, { dest := 0, opc := 0, tag := 7, params := [] }].flatMap Packet.bytes, barNo := 4} } }), 0, _, [{ dest := 0, opc := 0, tag := 7, params := [] }, { dest := 0, opc := 0, tag := 7, params := [] }], rfl, rfl, by decide +kernel⟩,
    ⟨base, base, 5, [{ dest := 0, opc := 0, tag := 7, params := [] }], by decide +kernel⟩,
    ⟨(at_ fun d => { d with port := { d.port with barNo := 5, commit := some { area := Packet.bytes { dest := 0, opc := 0, tag := 7, params := [] }, barNo := 4} } }), 0, _, .nop ⟨0, 7, []⟩, _, rfl, rfl, by and_intros <;> decide +kernel⟩,
    ⟨(at_ fun d => { d with port := { d.port with commit := some { area := [{ dest := 0, opc := 0, tag := 7, params := [] }].flatMap Packet.bytes ++ [0, 0, 9, 0, 0], barNo := 4} } }), 0, _, [{ dest := 0, opc := 0, tag := 7, params := [] }], [0, 0, 9, 0, 0], stBadLength, rfl, rfl, by and_intros <;> decide +kernel⟩,
    ⟨[{ dest := 0, opc := 0, tag := 7, params := [] }], [0, 0, 7], by and_intros <;> decide +kernel⟩⟩

/-- The hypotheses of `Obligations.SnapshotHeaderLeadsTheBar` hold together. -/
theorem test_hyps_SnapshotHeaderLeadsTheBar :
    (∃ d : Dev, ∃ prev : Dev, ∃ n : Nat, 24 ≤ n ∧ n ≤ 8192) :=
  ⟨base, base, 40, by and_intros <;> decide +kernel⟩

/-- The hypotheses of each clause of `Obligations.PortEventsActWhenDue` hold together. -/
theorem test_hyps_PortEventsActWhenDue :
    (∃ s : State, ∃ dt : Nat, 
    let d := (s.turn dt).dev
    ∃ b : Declared, ∃ rest : List Declared, d.dueDownbeat = some (b, rest)) ∧
    (∃ s : State, ∃ dt : Nat, 
    let d := (s.turn dt).dev
    ∃ w, d.ctl.mode = .conducted ∧ d.port.watchdog = some w ∧ w ≤ d.now ∧ d.ctl.por = false) ∧
    (∃ s : State, ∃ dt : Nat, 
    let d := (s.turn dt).dev
    ∃ low : Nat, ∃ w : Nat, ∃ sdi : List Byte, ∃ bits : Fin 8, d.port.isOpen = true ∧ d.port.commit = none ∧
        d.port.quietUntil ≤ d.now ∧ d.ctl.mode = .conducted ∧ d.ctl.por = false ∧ d.port.watchdog = some w ∧
        w < d.now + 8 * low) ∧
    (∃ s : State, ∃ dt : Nat, 
    let d := (s.turn dt).dev
    (∀ x, d.port.reopenAt = some x → x ≤ d.now) ∧ d.port.isOpen = false ∧ d.ctl.started = true ∧ d.port.vioValid = true) ∧
    (∃ s : State, ∃ dt : Nat, 
    let d := (s.turn dt).dev
    d.port.vioValid = true ∧ d.ctl.por = false) ∧
    (∃ s : State, ∃ dt : Nat, 
    let d := (s.turn dt).dev
    ∃ x, d.port.vioValid = false ∧ d.port.vioLostAt = some x ∧ d.ctl.por = false) :=
  ⟨⟨(at_ fun d => { d with chain := { d.chain with downbeats := [{ at_ := 5, serial := 2 }] } }), 0, _, _, rfl⟩,
    ⟨(at_ fun d => { d with port := { d.port with watchdog := some 7 } }), 0, 7, by and_intros <;> decide +kernel⟩,
    ⟨(at_ fun d => { d with port := { d.port with watchdog := some (2 ^ 44 + 799) } }), 0, 100, 2 ^ 44 + 799,
        List.replicate 40 0, 0, by and_intros <;> decide +kernel⟩,
    ⟨(at_ fun d => { d with port := { d.port with isOpen := false, reopenAt := some 7 } }), 0,
        by intro x h; cases h; decide +kernel, by and_intros <;> decide +kernel⟩,
    ⟨at_ id, 0, by and_intros <;> decide +kernel⟩,
    ⟨(at_ fun d => { d with port := { d.port with isOpen := false, vioValid := false, vioLostAt := some 5 } }), 0, 5,
        by and_intros <;> decide +kernel⟩⟩

/-- The hypotheses of each clause of `Obligations.CoreReadsAnswerOk` hold together. -/
theorem test_hyps_CoreReadsAnswerOk :
    (∃ s : State, ∃ tag : Byte, s.Inv ∧ s.accepts 0x00 []) ∧
    (∃ s : State, ∃ tag : Byte, s.Inv ∧ s.accepts 0x01 []) ∧
    (∃ s : State, ∃ tag : Byte, s.Inv ∧ s.accepts 0x02 [1]) ∧
    (∃ s : State, ∃ tag : Byte, ∃ a : List Byte, s.Inv ∧ s.accepts 0x03 a ∧ 1 ≤ byteAt a 4 ∧ byteAt a 4 ≤ 64) ∧
    (∃ s : State, ∃ tag : Byte, ∃ a : List Byte, ∃ id : Nat, ∃ w : Word, s.Inv ∧ s.accepts 0x11 a ∧
        a = 1 :: 0 :: leBytes 2 id ∧ s.snap.readWord true id = some w ∧ id < 65536) ∧
    (∃ s : State, ∃ tag : Byte, s.Inv ∧ s.accepts 0x12 []) :=
  ⟨⟨at_ id, 9, inv_of (by decide +kernel), ⟨by decide +kernel, _, rfl, by decide +kernel, by decide +kernel⟩⟩,
    ⟨at_ id, 9, inv_of (by decide +kernel), ⟨by decide +kernel, _, rfl, by decide +kernel, by decide +kernel⟩⟩,
    ⟨at_ id, 9, inv_of (by decide +kernel), ⟨by decide +kernel, _, rfl, by decide +kernel, by decide +kernel⟩⟩,
    ⟨at_ id, 9, [0, 0, 0, 0, 64], inv_of (by decide +kernel), ⟨by decide +kernel, _, rfl, by decide +kernel,
        by decide +kernel⟩, by and_intros <;> decide +kernel⟩,
    ⟨at_ id, 9, _, 0x1000, _, inv_of (by decide +kernel), ⟨by decide +kernel, _, rfl, by decide +kernel,
        by decide +kernel⟩, rfl, rfl, by decide +kernel⟩,
    ⟨at_ id, 9, inv_of (by decide +kernel), ⟨by decide +kernel, _, rfl, by decide +kernel, by decide +kernel⟩⟩⟩

/-- The hypotheses of each clause of `Obligations.CueAndVoiceReadsAnswerOk` hold together. -/
theorem test_hyps_CueAndVoiceReadsAnswerOk :
    (∃ s : State, ∃ tag : Byte, ∃ a : List Byte, s.Inv ∧ s.accepts 0x32 a ∧ a.length = 6 ∧ field a 4 2 ≤ 256) ∧
    (∃ s : State, ∃ tag : Byte, ∃ ctrl : Byte, s.Inv ∧ s.accepts 0x32 [ctrl, 0]) ∧
    (∃ s : State, ∃ tag : Byte, s.Inv ∧ s.accepts 0x34 []) ∧
    (∃ s : State, ∃ tag : Byte, ∃ a : List Byte, s.Inv ∧ s.accepts 0x35 a ∧ maskAt a 0 = 0) ∧
    (∃ s : State, ∃ tag : Byte, ∃ a : List Byte, ∃ v : VoiceId, s.Inv ∧ s.accepts 0x35 a ∧ maskVoices (maskAt a 0) = [v]) ∧
    (∃ s : State, ∃ tag : Byte, s.Inv ∧ s.accepts 0xA2 []) ∧
    (∃ s : State, ∃ tag : Byte, ∃ a : List Byte, s.Inv ∧ s.accepts 0xA1 a) :=
  ⟨⟨at_ id, 9, [0, 0, 0, 0, 0, 1], inv_of (by decide +kernel), ⟨by decide +kernel, _, rfl, by decide +kernel,
      by decide +kernel⟩, by and_intros <;> decide +kernel⟩,
    ⟨at_ id, 9, 1, inv_of (by decide +kernel), ⟨by decide +kernel, _, rfl, by decide +kernel, by decide +kernel⟩⟩,
    ⟨at_ id, 9, inv_of (by decide +kernel), ⟨by decide +kernel, _, rfl, by decide +kernel, by decide +kernel⟩⟩,
    ⟨at_ id, 9, [0, 0, 0, 0, 0, 0], inv_of (by decide +kernel), ⟨by decide +kernel, _, rfl, by decide +kernel,
        by decide +kernel⟩, by decide +kernel⟩,
    ⟨at_ id, 9, [0, 0, 0, 0, 0, 0x80], 47, inv_of (by decide +kernel), ⟨by decide +kernel, _, rfl, by decide +kernel,
        by decide +kernel⟩, by decide +kernel⟩,
    ⟨at_ id, 9, inv_of (by decide +kernel), ⟨by decide +kernel, _, rfl, by decide +kernel, by decide +kernel⟩⟩,
    ⟨at_ id, 9, [0, 0, 0, 0, 0, 0x80], inv_of (by decide +kernel), ⟨by decide +kernel, _, rfl, by decide +kernel,
        by decide +kernel⟩⟩⟩

/-- The hypotheses of each clause of `Obligations.ConverterAndFlashReadsAnswerOk` hold together. -/
theorem test_hyps_ConverterAndFlashReadsAnswerOk :
    (∃ s : State, ∃ tag : Byte, s.Inv ∧ s.accepts 0x43 [0]) ∧
    (∃ s : State, ∃ tag : Byte, ∃ a : List Byte, s.Inv ∧ s.accepts 0x51 a ∧ byteAt a 0 = 0xFF ∧ field a 4 2 ≤ 2024) ∧
    (∃ s : State, ∃ tag : Byte, s.Inv ∧ s.accepts 0x60 [0]) ∧
    (∃ s : State, ∃ tag : Byte, ∃ a : List Byte, s.Inv ∧ s.accepts 0x70 a ∧ 1 ≤ field a 4 2 ∧ field a 4 2 ≤ 8152 ∧
        field a 0 4 + field a 4 2 ≤ 0x10000 ∧ s.dev.nv.op.busy = false) ∧
    (∃ s : State, ∃ tag : Byte, ∃ a : List Byte, s.Inv ∧ s.accepts 0x75 a ∧ field a 0 2 ≤ field a 2 2 ∧ 1 ≤ byteAt a 4 ∧
        byteAt a 4 ≤ 100) ∧
    (∃ s : State, ∃ tag : Byte, s.Inv ∧ s.accepts 0x77 []) ∧
    (∃ s : State, ∃ tag : Byte, ∃ a : List Byte, s.Inv ∧ s.accepts 0x78 a ∧ byteAt a 0 = 0 ∧ field a 2 2 < 256 ∧
        s.dev.nv.op.busy = false ∧ s.dev.nv.appends = [] ∧ s.dev.nv.gc = none ∧ s.dev.pd.step ≠ .save ∧
        s.dev.pd.step ≠ .idleFlash) :=
  ⟨⟨at_ id, 9, inv_of (by decide +kernel), ⟨by decide +kernel, _, rfl, by decide +kernel, by decide +kernel⟩⟩,
    ⟨at_ id, 9, [0xFF, 0, 0, 0, 0, 0], inv_of (by decide +kernel), ⟨by decide +kernel, _, rfl, by decide +kernel,
        by decide +kernel⟩, by and_intros <;> decide +kernel⟩,
    ⟨at_ id, 9, inv_of (by decide +kernel), ⟨by decide +kernel, _, rfl, by decide +kernel, by decide +kernel⟩⟩,
    ⟨at_ id, 9, [0xFF, 0xFF, 0, 0, 1, 0], inv_of (by decide +kernel), ⟨by decide +kernel, _, rfl, by decide +kernel,
        by decide +kernel⟩, by and_intros <;> decide +kernel⟩,
    ⟨at_ id, 9, [0, 0, 0xFF, 0xFF, 100], inv_of (by decide +kernel), ⟨by decide +kernel, _, rfl, by decide +kernel,
        by decide +kernel⟩, by and_intros <;> decide +kernel⟩,
    ⟨at_ id, 9, inv_of (by decide +kernel), ⟨by decide +kernel, _, rfl, by decide +kernel, by decide +kernel⟩⟩,
    ⟨at_ id, 9, [0, 0, 255, 0], inv_of (by decide +kernel), ⟨by decide +kernel, _, rfl, by decide +kernel,
        by decide +kernel⟩, by and_intros <;> decide +kernel⟩⟩

/-- The hypotheses of each clause of `Obligations.ScoreAndChainReadsAnswerOk` hold together. -/
theorem test_hyps_ScoreAndChainReadsAnswerOk :
    (∃ s : State, ∃ tag : Byte, ∃ n : Byte, ∃ x : Score, s.Inv ∧ s.accepts 0x80 [n] ∧ s.snap.link.publication = some x ∧
        n.toNat ≤ 2) ∧
    (∃ s : State, ∃ tag : Byte, ∃ x : Score, s.Inv ∧ s.accepts 0x83 [] ∧ s.snap.link.publication = some x) ∧
    (∃ s : State, ∃ tag : Byte, ∃ a : Byte, s.Inv ∧ s.accepts 0x91 [a]) ∧
    (∃ s : State, ∃ tag : Byte, s.Inv ∧ s.accepts 0xF1 []) :=
  ⟨⟨at_ id, 9, 2, _, inv_of (by decide +kernel), ⟨by decide +kernel, _, rfl, by decide +kernel, by decide +kernel⟩, rfl,
      by decide +kernel⟩,
    ⟨at_ id, 9, _, inv_of (by decide +kernel), ⟨by decide +kernel, _, rfl, by decide +kernel, by decide +kernel⟩, rfl⟩,
    ⟨at_ id, 9, 1, inv_of (by decide +kernel), ⟨by decide +kernel, _, rfl, by decide +kernel, by decide +kernel⟩⟩,
    ⟨at_ id, 9, inv_of (by decide +kernel), ⟨by decide +kernel, _, rfl, by decide +kernel, by decide +kernel⟩⟩⟩

/-- The hypotheses of each clause of `Obligations.CoreCommitsAct` hold together. -/
theorem test_hyps_CoreCommitsAct :
    (∃ s : State, ∃ tag : Byte, ∃ a : List Byte, s.Inv ∧ s.accepts 0x04 a ∧
        atOrBefore (BitVec.ofNat 32 (field a 0 4)) s.dev.log.newest = true) ∧
    (∃ s : State, ∃ tag : Byte, s.Inv ∧ s.accepts 0x06 [0x5A, 0xA5]) ∧
    (∃ s : State, ∃ tag : Byte, ∃ a : List Byte, s.Inv ∧ s.accepts 0x10 a ∧ firstBadEntry .image (paramEntries a) = none) ∧
    (∃ s : State, ∃ tag : Byte, ∃ a : List Byte, ∃ id, ∃ k, s.Inv ∧ s.accepts 0x10 a ∧
        firstBadEntry .image (paramEntries a) = some (id, k)) ∧
    (∃ s : State, ∃ tag : Byte, ∃ id : Nat, ∃ w : Word, s.Inv ∧ (wordClass id = some .live ∨ wordClass id = some .ro)) ∧
    (∃ s : State, ∃ tag : Byte, ∃ l : List (Nat × Word), ∃ es : List (Nat × Word), ∃ id : Nat, s.Inv) ∧
    (∃ s : State, ∃ tag : Byte, ∃ a : List Byte, s.Inv ∧ s.accepts 0x14 a ∧ firstBadEntry .live (paramEntries a) = none) ∧
    (∃ s : State, ∃ tag : Byte, ∃ a : List Byte, s.Inv ∧ s.accepts 0x13 a ∧
        s.dev.conductFailure (BitVec.ofNat 32 (field a 0 4)) = none) ∧
    (∃ s : State, ∃ tag : Byte, s.Inv ∧ s.accepts 0x15 [] ∧ s.dev.parkRefusal = none ∧ s.dev.ctl.mode ≠ .acappella ∧
        s.dev.ctl.mode ≠ .starting) :=
  ⟨⟨(at_ fun d => { d with log := { d.log with events := [{ seq := 0, tbc := 0, code := 1, unit := 0, acked := false, fallbackTb := false, data := [] }], nextSeq := 1 } }), 9, [0, 0, 0, 0], inv_of (by decide +kernel), ⟨by decide +kernel, _, rfl, by decide +kernel, by decide +kernel⟩, by decide +kernel⟩,
    ⟨at_ id, 9, inv_of (by decide +kernel), ⟨by decide +kernel, _, rfl, by decide +kernel, by decide +kernel⟩⟩,
    ⟨at_ id, 9, [0x00, 0x10, 1, 0, 0, 0], inv_of (by decide +kernel), ⟨by decide +kernel, _, rfl, by decide +kernel,
        by decide +kernel⟩, by decide +kernel⟩,
    ⟨at_ id, 9, [0x80, 0x00, 1, 0, 0, 0], 0x80, 0xFF, inv_of (by decide +kernel), ⟨by decide +kernel, _, rfl,
        by decide +kernel, by decide +kernel⟩, by decide +kernel⟩,
    ⟨at_ id, 9, 0x80, 0, inv_of (by decide +kernel), by decide +kernel⟩,
    ⟨at_ id, 9, [], [], 0, inv_of (by decide +kernel)⟩,
    ⟨at_ id, 9, [0x00, 0x20, 1, 0, 0, 0], inv_of (by decide +kernel), ⟨by decide +kernel, _, rfl, by decide +kernel,
        by decide +kernel⟩, by decide +kernel⟩,
    ⟨(at_ fun d => { d with ctl := { d.ctl with mode := .acappella } }), 9, leBytes 4 (imageCrc []).toNat,
        inv_of (by decide +kernel), ⟨by decide +kernel, _, rfl, by decide +kernel, by decide +kernel⟩, conduct_ok _ rfl⟩,
    ⟨at_ id, 9, inv_of (by decide +kernel), ⟨by decide +kernel, _, rfl, by decide +kernel, by decide +kernel⟩,
        by and_intros <;> decide +kernel⟩⟩

/-- The hypotheses of each clause of `Obligations.VoiceOpcodesAct` hold together. -/
theorem test_hyps_VoiceOpcodesAct :
    (∃ s : State, ∃ tag : Byte, ∃ v : VoiceId, ∃ m : Mask, s.accepts 0x20 (1 :: 0xFF :: maskBytes m) ∧
        maskVoices m = [v] ∧ s.dev.gang v = none ∧ s.dev.levelInput v = none ∧ (s.dev.voice v).st = .off ∧
        (s.dev.voice v).wait = none ∧ s.dev.bar v = .none) ∧
    (∃ s : State, ∃ tag : Byte, ∃ v : VoiceId, ∃ m : Mask, s.accepts 0x20 (0 :: 0xFF :: maskBytes m) ∧
        maskVoices m = [v] ∧ s.dev.gang v = none ∧ s.dev.levelInput v = none ∧ (s.dev.voice v).st = .on ∧
        (s.dev.voice v).wait = none) ∧
    (∃ s : State, ∃ tag : Byte, ∃ v : VoiceId, ∃ m : Mask, ∃ lo : Byte, ∃ hi : Byte, s.accepts 0x21 [b8 v.val, 0, lo,
        hi] ∧ maskVoices m = [v] ∧ s.dev.gang v = none ∧ (s.dev.voice v).st = .pwm ∧ (s.dev.voice v).driveMode = 1 ∧
        (s.dev.voice v).barred = false ∧ ((s.dev.voice v).half = false ∨ (s.dev.voice v).gate = true)) ∧
    (∃ s : State, ∃ tag : Byte, ∃ v : VoiceId, ∃ m : Mask, s.accepts 0x22 (maskBytes m) ∧ maskVoices m = [v] ∧
        s.dev.gang v = none ∧ (s.dev.voice v).st = .latched) ∧
    (∃ s : State, ∃ tag : Byte, ∃ v : VoiceId, ∃ m : Mask, s.accepts 0x23 (maskBytes m) ∧ maskVoices m = [v] ∧
        s.dev.gang v = none ∧ (s.dev.voice v).st ≠ .retired ∧ s.dev.sc.running = none) :=
  ⟨⟨at_ id, 9, 3, 8, ⟨by decide +kernel, _, rfl, by decide +kernel, by decide +kernel⟩, by and_intros <;> decide +kernel⟩,
    ⟨(onV fun x => { x with st := .on, gate := true, cmd := true }), 9, 3, 8, ⟨by decide +kernel, _, rfl,
        by decide +kernel, by decide +kernel⟩, by and_intros <;> decide +kernel⟩,
    ⟨(onV fun x => { x with st := .pwm, driveMode := 1, cmd := true }), 9, 3, 8, 0xFF, 0x7F, ⟨by decide +kernel, _, rfl,
        by decide +kernel, by decide +kernel⟩, by and_intros <;> decide +kernel⟩,
    ⟨(onV fun x => { x with st := .latched, fault := 2 }), 9, 3, 8, ⟨by decide +kernel, _, rfl, by decide +kernel,
        by decide +kernel⟩, by and_intros <;> decide +kernel⟩,
    ⟨at_ id, 9, 3, 8, ⟨by decide +kernel, _, rfl, by decide +kernel, by decide +kernel⟩, by and_intros <;> decide +kernel⟩⟩

/-- The hypotheses of each clause of `Obligations.BankAndModeOpcodesAct` hold together. -/
theorem test_hyps_BankAndModeOpcodesAct :
    (∃ s : State, ∃ tag : Byte, ∃ m : BitVec 4, s.accepts 0x24 [bankByte m <<< 4 ||| bankByte m] ∧ m ≠ 0) ∧
    (∃ s : State, ∃ tag : Byte, ∃ m : BitVec 4, s.accepts 0x24 [bankByte m <<< 4] ∧ m ≠ 0) ∧
    (∃ s : State, ∃ tag : Byte, s.accepts 0x25 [] ∧ s.dev.pdRunning = false ∧ (s.dev.ctl.mode = .acappella ∨
        s.dev.ctl.mode = .conducted ∨ s.dev.ctl.mode = .fallback)) ∧
    (∃ s : State, ∃ tag : Byte, s.accepts 0x26 [] ∧ s.dev.parkRefusal = none ∧ s.dev.ctl.mode = .parked) ∧
    (∃ s : State, ∃ tag : Byte, s.accepts 0x26 [] ∧ s.dev.pdRunning = false ∧ s.dev.ctl.mode = .fallback) :=
  ⟨⟨at_ id, 9, 5, ⟨by decide +kernel, _, rfl, by decide +kernel, by decide +kernel⟩, by decide +kernel⟩,
    ⟨(at_ fun d => { d with banks := d.banks.map fun b => { b with cut := true } }), 9, 15, ⟨by decide +kernel, _, rfl,
        by decide +kernel, by decide +kernel⟩, by decide +kernel⟩,
    ⟨at_ id, 9, ⟨by decide +kernel, _, rfl, by decide +kernel, by decide +kernel⟩, by and_intros <;> decide +kernel⟩,
    ⟨(at_ fun d => { d with ctl := { d.ctl with mode := .parked } }), 9, ⟨by decide +kernel, _, rfl, by decide +kernel,
        by decide +kernel⟩, by and_intros <;> decide +kernel⟩,
    ⟨(at_ fun d => { d with ctl := { d.ctl with mode := .fallback } }), 9, ⟨by decide +kernel, _, rfl, by decide +kernel,
        by decide +kernel⟩, by and_intros <;> decide +kernel⟩⟩

/-- The hypotheses of each clause of `Obligations.CueAndBreathOpcodesAct` hold together. -/
theorem test_hyps_CueAndBreathOpcodesAct :
    (∃ s : State, ∃ tag : Byte, ∃ a : List Byte, 
    let es := chunks 16 256 a
    s.Inv ∧ s.accepts 0x30 a ∧ (∀ i, i < es.length → s.dev.cueCheck es i = none) ∧ es.length ≤ s.dev.cueFree ∧ (∀ b ∈ es,
        (cueOf 0 b).basis ≠ 2) ∧ (∀ c ∈ s.dev.cues.queue, c.basis ≠ 2)) ∧
    (∃ s : State, ∃ tag : Byte, s.Inv ∧ s.accepts 0x31 [3, 0]) ∧
    (∃ s : State, ∃ tag : Byte, ∃ x : BitVec 64, s.Inv ∧ s.accepts 0x34 (leBytes 8 x.toNat) ∧ s.dev.odo.st ≠ .unavailable) ∧
    (∃ s : State, ∃ tag : Byte, ∃ i : Fin 8, ∃ n : Byte, s.Inv ∧ s.accepts 0x34 [b8 i.val, n, 0, 0] ∧
        s.snap.tally.get i = s.dev.tally.get i) ∧
    (∃ s : State, ∃ tag : Byte, ∃ m : Mask, ∃ z : Byte, s.Inv ∧ s.accepts 0x61 (maskBytes m ++ [z]) ∧ (m ≠ 0 ∨ z ≠ 0)) ∧
    (∃ s : State, ∃ tag : Byte, ∃ m : Mask, ∃ v : VoiceId, s.Inv ∧ s.accepts 0x62 (maskBytes m) ∧ maskVoices m = [v] ∧
        s.dev.gang v = none ∧ s.dev.vfld v 0 11 1 = 1 ∧ (s.dev.voice v).st = .on ∧ (s.dev.voice v).barred = false ∧
        (s.dev.voice v).therm.stopHold = false ∧ v ∉ s.dev.therm.blips) ∧
    (∃ s : State, ∃ tag : Byte, ∃ m : Mask, ∃ k : Byte, s.Inv ∧ s.accepts 0xA0 (maskBytes m ++ [k, 0]) ∧ k ≠ 0) ∧
    (∃ s : State, ∃ tag : Byte, ∃ p : Fin 15, ∃ n : Byte, s.Inv ∧ s.accepts 0x93 [b8 (p.val + 1), n] ∧ n ≠ 0 ∧
        (s.dev.chain.head = true ∨ s.dev.chain.addr = none)) :=
  ⟨⟨at_ id, 9, [0, 3, 0, 0, 0, 0, 0, 0, 1, 0, 0, 0, 0, 0, 0, 0], inv_of (by decide +kernel), ⟨by decide +kernel, _, rfl,
      by decide +kernel, by decide +kernel⟩, by intro i h; obtain rfl : i = 0 := Nat.lt_one_iff.mp h; decide +kernel,
      by and_intros <;> decide +kernel⟩,
    ⟨at_ id, 9, inv_of (by decide +kernel), ⟨by decide +kernel, _, rfl, by decide +kernel, by decide +kernel⟩⟩,
    ⟨(at_ fun d => { d with odo := { d.odo with st := .running } }), 9, 12345, inv_of (by decide +kernel),
        ⟨by decide +kernel, _, rfl, by decide +kernel, by decide +kernel⟩, by decide +kernel⟩,
    ⟨at_ id, 9, 7, 8, inv_of (by decide +kernel), ⟨by decide +kernel, _, rfl, by decide +kernel, by decide +kernel⟩, rfl⟩,
    ⟨at_ id, 9, 8, 0x80, inv_of (by decide +kernel), ⟨by decide +kernel, _, rfl, by decide +kernel, by decide +kernel⟩,
        by decide +kernel⟩,
    ⟨(at_ fun d => { (d.modVoice 3 fun x => { x with st := .on, cmd := true }) with par := { d.par with live := [(0x1060, 0x800)] } }), 9, 8, 3, inv_of (by decide +kernel), ⟨by decide +kernel, _, rfl, by decide +kernel, by decide +kernel⟩, by and_intros <;> decide +kernel⟩,
    ⟨at_ id, 9, 8, 1, inv_of (by decide +kernel), ⟨by decide +kernel, _, rfl, by decide +kernel, by decide +kernel⟩,
        by decide +kernel⟩,
    ⟨at_ id, 9, 14, 3, inv_of (by decide +kernel), ⟨by decide +kernel, _, rfl, by decide +kernel, by decide +kernel⟩,
        by and_intros <;> decide +kernel⟩⟩

/-- The hypotheses of each clause of `Obligations.ConverterOpcodesAct` hold together. -/
theorem test_hyps_ConverterOpcodesAct :
    (∃ s : State, ∃ tag : Byte, ∃ e : EngineId, ∃ ctrl : Byte, ∃ lo : Byte, ∃ hi : Byte, s.accepts 0x40 [b8 e.val, ctrl,
        lo, hi] ∧ field [lo, hi] 0 2 ≤ 2034) ∧
    (∃ s : State, ∃ tag : Byte, ∃ e : EngineId, s.accepts 0x41 [b8 (2 ^ e.val)] ∧ s.dev.engEnabled e = true ∧
        (s.dev.conv.engines.get e).paused = false ∧ s.dev.engTrig e ≠ 0 ∧ (s.dev.conv.engines.get e).todo = []) ∧
    (∃ s : State, ∃ tag : Byte, ∃ m : BitVec 4, s.accepts 0x42 (engineBytes m 1)) ∧
    (∃ s : State, ∃ tag : Byte, ∃ m : BitVec 4, s.accepts 0x42 (engineBytes m 2)) ∧
    (∃ s : State, ∃ tag : Byte, ∃ m : BitVec 4, s.accepts 0x42 (engineBytes m 3)) :=
  ⟨⟨at_ id, 9, 3, 0, 0xF2, 0x07, ⟨by decide +kernel, _, rfl, by decide +kernel, by decide +kernel⟩, by decide +kernel⟩,
    ⟨(at_ fun d => { d with par := { d.par with live := [(0x3004, 0x1001)] } }), 9, 0, ⟨by decide +kernel, _, rfl,
        by decide +kernel, by decide +kernel⟩, by and_intros <;> decide +kernel⟩,
    ⟨at_ id, 9, 5, ⟨by decide +kernel, _, rfl, by decide +kernel, by decide +kernel⟩⟩,
    ⟨at_ id, 9, 5, ⟨by decide +kernel, _, rfl, by decide +kernel, by decide +kernel⟩⟩,
    ⟨at_ id, 9, 5, ⟨by decide +kernel, _, rfl, by decide +kernel, by decide +kernel⟩⟩⟩

/-- The hypotheses of each clause of `Obligations.WaveOpcodesAct` hold together. -/
theorem test_hyps_WaveOpcodesAct :
    (∃ s : State, ∃ tag : Byte, ∃ a : List Byte, s.accepts 0x50 (0 :: a) ∧ s.dev.waveEnabled = true ∧
        (∀ k ∈ slotsOf (field a 0 2), k.val < s.dev.waveSlots)) ∧
    (∃ s : State, ∃ tag : Byte, ∃ a : List Byte, s.accepts 0x50 (1 :: a) ∧ s.dev.waveEnabled = true ∧
        (∀ k ∈ slotsOf (field a 0 2), k.val < s.dev.waveSlots) ∧ field a 0 2 ≠ 0) ∧
    (∃ s : State, ∃ tag : Byte, ∃ a : List Byte, s.accepts 0x50 (2 :: a) ∧ s.dev.waveEnabled = true ∧
        (∀ k ∈ slotsOf (field a 0 2), k.val < s.dev.waveSlots) ∧ field a 0 2 ≠ 0) ∧
    (∃ s : State, ∃ tag : Byte, ∃ a : List Byte, ∃ v : VoiceId, s.accepts 0x50 (3 :: a) ∧ s.dev.waveEnabled = true ∧
        (∀ k ∈ slotsOf (field a 0 2), k.val < s.dev.waveSlots) ∧ field a 0 2 ≠ 0 ∧ byteAt a 2 = v.val ∧
        (s.dev.voice v).st ≠ .retired ∧ (∀ k ∈ slotsOf (field a 0 2), field a 3 2 < 2 ^ s.dev.slotLog k)) ∧
    (∃ s : State, ∃ tag : Byte, ∃ a : List Byte, s.accepts 0x50 (4 :: a) ∧ s.dev.waveEnabled = true ∧
        (∀ k ∈ slotsOf (field a 0 2), k.val < s.dev.waveSlots)) :=
  ⟨⟨(at_ fun d => { d with par := { d.par with live := [(0x3800, 0x81)] }, wave := { d.wave with st := .running } }), 9,
      [3, 0, 0, 0, 0, 0, 0], ⟨by decide +kernel, _, rfl, by decide +kernel, by decide +kernel⟩,
      by and_intros <;> decide +kernel⟩,
    ⟨(at_ fun d => { d with par := { d.par with live := [(0x3800, 0x81)] }, wave := { d.wave with st := .running } }), 9,
        [3, 0, 0, 0, 0, 0, 0], ⟨by decide +kernel, _, rfl, by decide +kernel, by decide +kernel⟩,
        by and_intros <;> decide +kernel⟩,
    ⟨(at_ fun d => { d with par := { d.par with live := [(0x3800, 0x81)] }, wave := { d.wave with st := .running } }), 9,
        [3, 0, 0, 0, 0, 0, 0], ⟨by decide +kernel, _, rfl, by decide +kernel, by decide +kernel⟩,
        by and_intros <;> decide +kernel⟩,
    ⟨(at_ fun d => { d with par := { d.par with live := [(0x3800, 0x81)] }, wave := { d.wave with st := .running } }), 9,
        [3, 0, 5, 0, 0, 0, 0], 5, ⟨by decide +kernel, _, rfl, by decide +kernel, by decide +kernel⟩,
        by and_intros <;> decide +kernel⟩,
    ⟨(at_ fun d => { d with par := { d.par with live := [(0x3800, 0x81)] }, wave := { d.wave with st := .running } }), 9,
        [3, 0, 0, 0, 0, 0, 0], ⟨by decide +kernel, _, rfl, by decide +kernel, by decide +kernel⟩,
        by and_intros <;> decide +kernel⟩⟩

/-- The hypotheses of each clause of `Obligations.FlashAndPatchOpcodesAct` hold together. -/
theorem test_hyps_FlashAndPatchOpcodesAct :
    (∃ s : State, ∃ tag : Byte, ∃ a : List Byte, 
    let at_ := field a 0 4
    
    let data := a.drop 8
    s.Inv ∧ s.accepts 0x71 a ∧ (∀ w, wordCount s.dev.nv.programs w < 2) ∧ byteAt a 4 = 0 ∧ at_ % 8 = 0 ∧
        at_ + data.length ≤ 0x10000 ∧ (sectorsOf at_ data.length).any s.dev.nv.isProtected = false ∧
        s.dev.therm.coldBlock = false ∧ s.dev.nv.op.busy = false ∧ (∀ b ∈ s.dev.nv.bytes s.dev.now at_ data.length,
        b = 0xFF)) ∧
    (∃ s : State, ∃ tag : Byte, ∃ a : List Byte, 
    let ss := (List.range 16).filter (field a 0 2).testBit
    s.Inv ∧ s.accepts 0x72 a ∧ ss ≠ [] ∧ ss.any s.dev.nv.isProtected = false ∧ s.dev.therm.coldBlock = false ∧
        s.dev.nv.op.busy = false) ∧
    (∃ s : State, ∃ tag : Byte, ∃ l : Byte, s.Inv ∧ s.accepts 0x73 [l] ∧ l.toNat ≤ 3) ∧
    (∃ s : State, ∃ tag : Byte, ∃ a : List Byte, s.Inv ∧ s.accepts 0x74 a ∧ hostKey (field a 0 2) = true ∧
        s.dev.therm.coldBlock = false ∧ s.dev.hasRoom (recSize (a.drop 2).length) = true) ∧
    (∃ s : State, ∃ tag : Byte, ∃ a : List Byte, s.Inv ∧ s.accepts 0x76 a ∧ hostKey (field a 0 2) = true ∧
        s.dev.therm.coldBlock = false ∧ (s.dev.nv.holds (field a 0 2)).isSome = true ∧ s.dev.hasRoom (recSize 0) = true) ∧
    (∃ s : State, ∃ tag : Byte, ∃ a : List Byte, s.Inv ∧ s.accepts 0xF0 (0 :: a) ∧ s.dev.patchClosed = false ∧
        8 ≤ field a 3 4 ∧ field a 3 4 ≤ 65536 ∧ field a 3 4 % 8 = 0 ∧ field a 7 4 ≠ 0 ∧ field a 11 2 = 0x0302 ∧
        byteAt a 13 = 0x43) ∧
    (∃ s : State, ∃ tag : Byte, ∃ a : List Byte, s.Inv ∧ s.accepts 0xF0 (1 :: a) ∧ s.dev.patchClosed = false ∧
        s.dev.patch.st = .loading ∧ field a 3 4 = s.dev.patch.image.length ∧
        s.dev.patch.image.length + (a.drop 7).length ≤ s.dev.patch.length) ∧
    (∃ s : State, ∃ tag : Byte, ∃ a : List Byte, s.Inv ∧ s.accepts 0xF0 (2 :: a) ∧ s.dev.patchClosed = false ∧
        s.dev.patch.st = .loading ∧ s.dev.patch.length ≤ s.dev.patch.image.length) ∧
    (∃ s : State, ∃ tag : Byte, ∃ a : List Byte, s.Inv ∧ s.accepts 0xF0 (3 :: a) ∧ s.dev.patchClosed = false ∧
        s.dev.patch.st = .loading) :=
  ⟨⟨(at_ fun d => { d with nv := { d.nv with protect := 0 } }), 9, [0, 0x10, 0, 0, 0, 0, 0, 0, 1, 2, 3, 4, 5, 6, 7, 8],
      inv_of (by decide +kernel), ⟨by decide +kernel, _, rfl, by decide +kernel, by decide +kernel⟩,
      fun w => by show wordCount [] w < 2; simp [wordCount], by and_intros <;> decide +kernel⟩,
    ⟨(at_ fun d => { d with nv := { d.nv with protect := 0 } }), 9, [1, 0x80], inv_of (by decide +kernel),
        ⟨by decide +kernel, _, rfl, by decide +kernel, by decide +kernel⟩, by and_intros <;> decide +kernel⟩,
    ⟨at_ id, 9, 3, inv_of (by decide +kernel), ⟨by decide +kernel, _, rfl, by decide +kernel, by decide +kernel⟩,
        by decide +kernel⟩,
    ⟨at_ id, 9, [0, 0x80, 1], inv_of (by decide +kernel), ⟨by decide +kernel, _, rfl, by decide +kernel,
        by decide +kernel⟩, by and_intros <;> decide +kernel⟩,
    ⟨(at_ fun d => { d with nv := { d.nv with appends := [{ key := 0x8000, tomb := false, value := [1], rseq := 0, host := true, words := 0 }] } }), 9, [0, 0x80], inv_of (by decide +kernel), ⟨by decide +kernel, _, rfl, by decide +kernel, by decide +kernel⟩, by and_intros <;> decide +kernel⟩,
    ⟨(at_ fun d => { d with ctl := { d.ctl with mode := .acappella } }), 9, [0, 0, 0, 8, 0, 0, 0, 1, 0, 0, 0, 2, 3, 0x43,
        0], inv_of (by decide +kernel), ⟨by decide +kernel, _, rfl, by decide +kernel, by decide +kernel⟩,
        by and_intros <;> decide +kernel⟩,
    ⟨(at_ fun d => { d with ctl := { d.ctl with mode := .acappella }, patch := { d.patch with st := .loading, length := 8, image := [] } }), 9, [0, 0, 0, 0, 0, 0, 0, 1, 2, 3, 4, 5, 6, 7, 8], inv_of (by decide +kernel), ⟨by decide +kernel, _, rfl, by decide +kernel, by decide +kernel⟩, by and_intros <;> decide +kernel⟩,
    ⟨(at_ fun d => { d with ctl := { d.ctl with mode := .acappella }, patch := { d.patch with st := .loading, length := 8, image := List.replicate 8 0 } }), 9, List.replicate 67 0, inv_of (by decide +kernel), ⟨by decide +kernel, _, rfl, by decide +kernel, by decide +kernel⟩, by and_intros <;> decide +kernel⟩,
    ⟨(at_ fun d => { d with ctl := { d.ctl with mode := .acappella }, patch := { d.patch with st := .loading, length := 8, image := [] } }), 9, [0, 0, 0], inv_of (by decide +kernel), ⟨by decide +kernel, _, rfl, by decide +kernel, by decide +kernel⟩, by and_intros <;> decide +kernel⟩⟩

/-- The hypotheses of each clause of `Obligations.ScoreOpcodesEnterTheMailbox` hold together. -/
theorem test_hyps_ScoreOpcodesEnterTheMailbox :
    (∃ s : State, ∃ tag : Byte, ∃ a : List Byte, s.Inv ∧ s.accepts 0x81 a ∧ s.dev.ctl.scoreSilent = false ∧
        s.dev.link.mailbox.length < 16) ∧
    (∃ s : State, ∃ tag : Byte, ∃ a : List Byte, s.Inv ∧ s.accepts 0x85 a ∧ s.dev.ctl.scoreSilent = false ∧
        s.dev.link.mailbox.length < 16) ∧
    (∃ s : State, ∃ tag : Byte, ∃ a : List Byte, s.Inv ∧ s.accepts 0x84 (0 :: a) ∧ s.dev.ctl.scoreSilent = false ∧
        s.dev.link.mailbox.length < 16) ∧
    (∃ s : State, ∃ tag : Byte, ∃ a : List Byte, s.Inv ∧ s.accepts 0x84 (1 :: a) ∧ s.dev.ctl.scoreSilent = false ∧
        s.dev.link.mailbox.length < 16) ∧
    (∃ s : State, ∃ tag : Byte, ∃ a : List Byte, s.Inv ∧ s.accepts 0x84 (2 :: a) ∧ s.dev.ctl.scoreSilent = false ∧
        s.dev.link.mailbox.length < 16) ∧
    (∃ s : State, ∃ tag : Byte, ∃ a : List Byte, s.Inv ∧ s.accepts 0x82 a ∧ s.dev.ctl.scoreSilent = false ∧
        s.dev.link.mailbox.length < 16) :=
  ⟨⟨at_ id, 9, List.replicate 48 0, inv_of (by decide +kernel), ⟨by decide +kernel, _, rfl, by decide +kernel,
      by decide +kernel⟩, by and_intros <;> decide +kernel⟩,
    ⟨at_ id, 9, [0, 0], inv_of (by decide +kernel), ⟨by decide +kernel, _, rfl, by decide +kernel, by decide +kernel⟩,
        by and_intros <;> decide +kernel⟩,
    ⟨at_ id, 9, List.replicate 7 0, inv_of (by decide +kernel), ⟨by decide +kernel, _, rfl, by decide +kernel,
        by decide +kernel⟩, by and_intros <;> decide +kernel⟩,
    ⟨at_ id, 9, List.replicate 7 0, inv_of (by decide +kernel), ⟨by decide +kernel, _, rfl, by decide +kernel,
        by decide +kernel⟩, by and_intros <;> decide +kernel⟩,
    ⟨at_ id, 9, List.replicate 7 0, inv_of (by decide +kernel), ⟨by decide +kernel, _, rfl, by decide +kernel,
        by decide +kernel⟩, by and_intros <;> decide +kernel⟩,
    ⟨at_ id, 9, List.replicate 8 0, inv_of (by decide +kernel), ⟨by decide +kernel, _, rfl, by decide +kernel,
        by decide +kernel⟩, by and_intros <;> decide +kernel⟩⟩

/-- The hypotheses of each clause of `Obligations.ChainOpcodesAct` hold together. -/
theorem test_hyps_ChainOpcodesAct :
    (∃ s : State, ∃ tag : Byte, ∃ x : Byte, s.Inv ∧ s.accepts 0x90 [x, 0] ∧ s.dev.chain.head = true ∧ (x.toNat ≤ 62 ∨
        x = 255) ∧ s.dev.port.pendingDb = [] ∧ s.dev.chain.backlog = 0 ∧ s.dev.chain.enumLeft = none) ∧
    (∃ s : State, ∃ tag : Byte, s.Inv ∧ s.accepts 0x92 [0] ∧ s.dev.chain.head = true) ∧
    (∃ s : State, ∃ tag : Byte, s.Inv ∧ s.accepts 0x92 [1] ∧ s.dev.chain.head = true ∧ s.dev.chain.enumerated = true ∧
        s.dev.chain.ring = .open_) ∧
    (∃ s : State, ∃ tag : Byte, s.Inv ∧ s.accepts 0x92 [2] ∧ s.dev.chain.head = true ∧ s.dev.chain.enumerated = true ∧
        s.dev.chain.ring = .split) :=
  ⟨⟨(at_ fun d => { d with chain := { d.chain with head := true, enumerated := true, count := 2, ring := .open_ } }), 9,
      255, inv_of (by decide +kernel), ⟨by decide +kernel, _, rfl, by decide +kernel, by decide +kernel⟩,
      by and_intros <;> decide +kernel⟩,
    ⟨(at_ fun d => { d with chain := { d.chain with head := true, enumerated := true, count := 2, ring := .closed } }),
        9, inv_of (by decide +kernel), ⟨by decide +kernel, _, rfl, by decide +kernel, by decide +kernel⟩, by decide +kernel⟩,
    ⟨(at_ fun d => { d with chain := { d.chain with head := true, enumerated := true, count := 2, ring := .open_ } }), 9,
        inv_of (by decide +kernel), ⟨by decide +kernel, _, rfl, by decide +kernel, by decide +kernel⟩,
        by and_intros <;> decide +kernel⟩,
    ⟨(at_ fun d => { d with chain := { d.chain with head := true, enumerated := true, count := 2, ring := .split } }), 9,
        inv_of (by decide +kernel), ⟨by decide +kernel, _, rfl, by decide +kernel, by decide +kernel⟩,
        by and_intros <;> decide +kernel⟩⟩

/-- The hypotheses of each clause of `Obligations.StartUpEventsAct` hold together. -/
theorem test_hyps_StartUpEventsAct :
    (∃ s : State, ∃ dt : Nat, 
    let d := (s.turn dt).dev
    ∃ present : Tab Bool 4, d.ctl.mode = .starting) ∧
    (∃ s : State, ∃ dt : Nat, 
    let d := (s.turn dt).dev
    ∃ zones : Tab Int 8, ∃ head : Bool, d.ctl.mode = .starting ∧ d.ctl.por = false ∧ d.time.fallbackOk = true ∧
        d.ctl.bootAt ≤ d.now ∧ (∀ z : ZoneId, zones.get z < 1600) ∧ d.recoveries.length < 3) ∧
    (∃ s : State, ∃ dt : Nat, 
    let d := (s.turn dt).dev
    ∃ zones : Tab Int 8, ∃ head : Bool, ∃ z : ZoneId, d.ctl.mode = .starting ∧ d.ctl.por = false ∧
        d.time.fallbackOk = true ∧ d.ctl.bootAt ≤ d.now ∧ 1600 ≤ zones.get z ∧ d.recoveries.length < 3) ∧
    (∃ s : State, ∃ dt : Nat, 
    let d := (s.turn dt).dev
    ∃ cause : BootFailure, d.ctl.mode = .starting ∧ d.ctl.por = false ∧ d.ctl.bootAt + 10 * msec ≤ d.now) ∧
    (∃ s : State, ∃ dt : Nat, 
    let d := (s.turn dt).dev
    ∃ low : Nat, d.ctl.por = false) ∧
    (∃ s : State, ∃ dt : Nat, 
    let d := (s.turn dt).dev
    d.ctl.por = false) ∧
    (∃ s : State, ∃ dt : Nat, 
    let d := (s.turn dt).dev
    d.ctl.parkedByPower = true ∧ d.pd.step = .done ∧ d.ctl.mode ≠ .halted ∧ d.pd.at_ + 100 * msec ≤ d.now) :=
  ⟨⟨State.reset, 0, .fill 4 true, by decide +kernel⟩,
    ⟨(at_ fun d => { d with ctl := { d.ctl with mode := .starting, bootAt := 0 } }), 0, .fill 8 250, true,
        by and_intros <;> decide +kernel⟩,
    ⟨(at_ fun d => { d with ctl := { d.ctl with mode := .starting, bootAt := 0 } }), 0,
        .ofFn fun z => if z = 7 then 1600 else 0, true, 7, by and_intros <;> decide +kernel⟩,
    ⟨(at_ fun d => { d with ctl := { d.ctl with mode := .starting, bootAt := 0 } }), 0, .otpTrims,
        by and_intros <;> decide +kernel⟩,
    ⟨at_ id, 0, 100, by decide +kernel⟩,
    ⟨at_ id, 3, by decide +kernel⟩,
    ⟨(at_ fun d => { d with ctl := { d.ctl with parkedByPower := true, mode := .parked }, pd := { d.pd with step := .done } }), 0, by and_intros <;> decide +kernel⟩⟩

/-- The hypotheses of each clause of `Obligations.KeepAliveAndSanityChecksAct` hold together. -/
theorem test_hyps_KeepAliveAndSanityChecksAct :
    (∃ s : State, ∃ dt : Nat, 
    let d := (s.turn dt).dev
    
    let frameDue : Prop := d.ctl.por = false ∧ d.ctl.bootAt ≤ d.now ∧ ∀ x, d.ka.lastFrame = some x → x + 10 * usec ≤ d.now
    frameDue ∧ d.ctl.startCause ≠ 1 ∧ d.ctl.startCause ≠ 2) ∧
    (∃ s : State, ∃ dt : Nat, 
    let d := (s.turn dt).dev
    ∃ v : VoiceId, d.ka.held = true) ∧
    (∃ s : State, ∃ dt : Nat, 
    let d := (s.turn dt).dev
    
    let frameDue : Prop := d.ctl.por = false ∧ d.ctl.bootAt ≤ d.now ∧ ∀ x, d.ka.lastFrame = some x → x + 10 * usec ≤ d.now
    frameDue ∧ d.ka.badEchoes < 2) ∧
    (∃ s : State, ∃ dt : Nat, 
    let d := (s.turn dt).dev
    
    let frameDue : Prop := d.ctl.por = false ∧ d.ctl.bootAt ≤ d.now ∧ ∀ x, d.ka.lastFrame = some x → x + 10 * usec ≤ d.now
    frameDue ∧ 2 ≤ d.ka.badEchoes ∧ d.ctl.mode ≠ .halted) ∧
    (∃ s : State, ∃ dt : Nat, 
    let d := (s.turn dt).dev
    ∃ x, d.ctl.por = false ∧ d.ctl.mode ≠ .halted ∧ d.ka.lastFrame = some x ∧ x + 100 * usec ≤ d.now ∧ d.staggers = [] ∧
        (∀ v : VoiceId, (d.voice v).driven = false)) ∧
    (∃ s : State, ∃ dt : Nat, 
    let d := (s.turn dt).dev
    ∃ x : Nat, ∃ u : VoiceId, ∃ v : VoiceId, d.ctl.por = false ∧ d.ctl.mode ≠ .halted ∧ d.ka.lastFrame = some x ∧
        x + 100 * usec ≤ d.now ∧ d.staggers = [] ∧ u ≠ v ∧ (d.voice u).driven = true ∧ (d.voice v).driven = true) ∧
    (∃ s : State, ∃ dt : Nat, 
    let d := (s.turn dt).dev
    ∃ x, d.ka.releasedAt = some x ∧ d.ctl.por = false ∧ d.ka.firstFrame = false ∧ d.ctl.mode ≠ .halted ∧
        x + 10 * msec ≤ d.now) ∧
    (∃ s : State, ∃ dt : Nat, 
    let d := (s.turn dt).dev
    ∃ crc : Word, crc ≠ Config.romCrc ∧ d.ctl.started = true ∧ d.ctl.mode ≠ .halted) ∧
    (∃ s : State, ∃ dt : Nat, 
    let d := (s.turn dt).dev
    ∃ crc : Word, d.patch.st = .active ∧ crc ≠ d.patch.crc ∧ d.ctl.mode ≠ .halted) ∧
    (∃ s : State, ∃ dt : Nat, 
    let d := (s.turn dt).dev
    ∃ n : Nat, d.ctl.por = false) ∧
    (∃ s : State, ∃ dt : Nat, 
    let d := (s.turn dt).dev
    ∃ n : Nat, d.ctl.por = false ∧ d.ctl.mode ≠ .halted) :=
  ⟨⟨(at_ fun d => { d with ka := { d.ka with lastFrame := some (2 ^ 44 - 100 * usec) } }), 0,
      by and_intros <;> decide +kernel⟩,
    ⟨(at_ fun d => { d with ka := { d.ka with held := true } }), 0, 3, by decide +kernel⟩,
    ⟨(at_ fun d => { d with ka := { d.ka with badEchoes := 1 } }), 0, by and_intros <;> decide +kernel⟩,
    ⟨(at_ fun d => { d with ka := { d.ka with badEchoes := 2 } }), 0, by and_intros <;> decide +kernel⟩,
    ⟨(at_ fun d => { d with ka := { d.ka with lastFrame := some (2 ^ 44 - 100 * usec) } }), 0, 2 ^ 44 - 100 * usec,
        by and_intros <;> decide +kernel⟩,
    ⟨(at_ fun d => { (d.modVoice 3 fun x => { x with st := .on, gate := true, cmd := true }).modVoice 4 (fun x => { x with st := .on, gate := true, cmd := true }) with ka := { d.ka with lastFrame := some 0 } }), 0, 0, 3, 4, by and_intros <;> decide +kernel⟩,
    ⟨(at_ fun d => { d with ka := { d.ka with releasedAt := some (2 ^ 44 - 10 * msec), firstFrame := false } }), 0,
        2 ^ 44 - 10 * msec, by and_intros <;> decide +kernel⟩,
    ⟨at_ id, 0, Config.romCrc + 1, fun h => absurd (BitVec.add_right_eq_self.mp h) (by decide),
        by and_intros <;> decide +kernel⟩,
    ⟨(at_ fun d => { d with patch := { d.patch with st := .active, crc := 4 } }), 0, 5, by and_intros <;> decide +kernel⟩,
    ⟨at_ id, 0, 3, by decide +kernel⟩,
    ⟨at_ id, 0, 3, by and_intros <;> decide +kernel⟩⟩

/-- The hypotheses of each clause of `Obligations.ScoreTimeBaseMoves` hold together. -/
theorem test_hyps_ScoreTimeBaseMoves :
    (∃ s : State, ∃ dt : Nat, 
    let d := (s.turn dt).dev
    d.score.powered = true ∧ d.score.tb = .acquiring ∧ d.score.identified = true ∧
        d.score.own ≤ d.score.attemptAt + 5 * msec ∧ (d.score.locked = true →
        d.score.attemptAt + 100 * usec ≤ d.score.own)) ∧
    (∃ s : State, ∃ dt : Nat, 
    let d := (s.turn dt).dev
    d.score.powered = true ∧ (d.score.tb = .noRef ∨ d.score.tb = .acquiring) ∧ d.score.attemptAt + 5 * msec ≤ d.score.own) ∧
    (∃ s : State, ∃ dt : Nat, 
    let d := (s.turn dt).dev
    d.score.powered = true ∧ (d.score.tb = .locked ∨ d.score.tb = .acquiring)) ∧
    (∃ s : State, ∃ dt : Nat, 
    let d := (s.turn dt).dev
    ∃ hz : Nat, d.score.powered = true ∧ (d.score.tb = .holdover ∨ d.score.tb = .noRef)) ∧
    (∃ s : State, ∃ dt : Nat, 
    let d := (s.turn dt).dev
    ∃ x, d.score.powered = true ∧ d.score.relockedAt = some x ∧ x + 100 * msec + 61440 ≤ d.score.own) :=
  ⟨⟨(at_ fun d => { d with score := { d.score with tb := .acquiring, attemptAt := 2 ^ 44 - 5 * msec } }), 0,
      by and_intros <;> decide +kernel⟩,
    ⟨(at_ fun d => { d with score := { d.score with tb := .acquiring, attemptAt := 2 ^ 44 - 5 * msec } }), 0,
        by and_intros <;> decide +kernel⟩,
    ⟨at_ id, 0, by and_intros <;> decide +kernel⟩,
    ⟨(at_ fun d => { d with score := { d.score with tb := .holdover } }), 0, 25000000, by and_intros <;> decide +kernel⟩,
    ⟨(at_ fun d => { d with score := { d.score with relockedAt := some (2 ^ 44 - 100 * msec - 61440) } }), 0,
        2 ^ 44 - 100 * msec - 61440, by and_intros <;> decide +kernel⟩⟩

/-- The hypotheses of each clause of `Obligations.ControlTimeBaseMoves` hold together. -/
theorem test_hyps_ControlTimeBaseMoves :
    (∃ s : State, ∃ dt : Nat, 
    let d := (s.turn dt).dev
    d.ctl.por = false ∧ d.time.phase = .first ∧ d.time.fallbackOk = true ∧ d.score.powered = true ∧ d.score.tb = .locked) ∧
    (∃ s : State, ∃ dt : Nat, 
    let d := (s.turn dt).dev
    
    let wordsCome : Prop := d.score.powered = true ∧ d.score.locked = true ∧ d.score.tb = .locked
    ∃ word : Int, d.ctl.por = false ∧ wordsCome ∧ d.time.phase = .score ∧ word + d.time.k + d.chain.offset = d.time.tbc) ∧
    (∃ s : State, ∃ dt : Nat, 
    let d := (s.turn dt).dev
    
    let wordsCome : Prop := d.score.powered = true ∧ d.score.locked = true ∧ d.score.tb = .locked
    ∃ word : Int, d.ctl.por = false ∧ wordsCome ∧ d.time.phase = .score ∧ word + d.time.k + d.chain.offset ≠ d.time.tbc ∧
        d.time.fallbackOk = true) ∧
    (∃ s : State, ∃ dt : Nat, 
    let d := (s.turn dt).dev
    
    let wordsCome : Prop := d.score.powered = true ∧ d.score.locked = true ∧ d.score.tb = .locked
    ∃ word : Int, d.ctl.por = false ∧ wordsCome ∧ d.ctl.scoreSilent = false ∧ d.time.phase = .fallback) ∧
    (∃ s : State, ∃ dt : Nat, 
    let d := (s.turn dt).dev
    
    let wordsCome : Prop := d.score.powered = true ∧ d.score.locked = true ∧ d.score.tb = .locked
    ∃ word : Int, d.ctl.por = false ∧ wordsCome ∧ d.ctl.scoreSilent = false ∧ d.time.phase = .qualifying ∧
        d.time.wordDue ≤ d.score.tbc ∧ d.score.tbc ≤ d.time.wordDue + 8) ∧
    (∃ s : State, ∃ dt : Nat, 
    let d := (s.turn dt).dev
    ∃ cause : LossCause, d.ctl.por = false ∧ d.time.phase = .score ∧ d.time.fallbackOk = true ∧ (cause ≠ .word ∨
        d.time.lastWord + 3072 ≤ d.time.tbc)) ∧
    (∃ s : State, ∃ dt : Nat, 
    let d := (s.turn dt).dev
    d.ctl.por = false ∧ d.time.phase = .score ∧ d.time.fallbackOk = false ∧ d.ctl.mode ≠ .halted ∧ d.ctl.mode ≠ .starting) ∧
    (∃ s : State, ∃ dt : Nat, 
    let d := (s.turn dt).dev
    d.ctl.por = false ∧ d.time.phase = .switching ∧ d.time.until_ ≤ d.now) ∧
    (∃ s : State, ∃ dt : Nat, 
    let d := (s.turn dt).dev
    d.ctl.por = false ∧ d.time.phase = .qualifying ∧ d.time.until_ ≤ d.now) ∧
    (∃ s : State, ∃ dt : Nat, 
    let d := (s.turn dt).dev
    d.ctl.por = false ∧ d.time.phase = .qualified ∧ d.atBoundary = true) ∧
    (∃ s : State, ∃ dt : Nat, 
    let d := (s.turn dt).dev
    d.ctl.por = false ∧ d.time.fallbackOk = true ∧ d.time.phase = .score) ∧
    (∃ s : State, ∃ dt : Nat, 
    let d := (s.turn dt).dev
    d.ctl.por = false ∧ d.time.fallbackOk = true ∧ d.time.phase ≠ .score ∧ d.ctl.mode ≠ .halted ∧ d.ctl.mode ≠ .starting) ∧
    (∃ s : State, ∃ dt : Nat, 
    let d := (s.turn dt).dev
    d.ctl.por = false ∧ d.time.fallbackOk = true ∧ d.time.phase = .score ∧ d.time.trimAt + msec ≤ d.now) :=
  ⟨⟨(at_ fun d => { d with time := { d.time with phase := .first, fallbackOk := true } }), 0,
      by and_intros <;> decide +kernel⟩,
    ⟨at_ id, 0, 2 ^ 44, by and_intros <;> decide +kernel⟩,
    ⟨(at_ fun d => { d with time := { d.time with fallbackOk := true } }), 0, 2 ^ 44 + 1, by and_intros <;> decide +kernel⟩,
    ⟨(at_ fun d => { d with time := { d.time with phase := .fallback } }), 0, 2 ^ 44, by and_intros <;> decide +kernel⟩,
    ⟨(at_ fun d => { d with time := { d.time with phase := .qualifying, wordAt := 4, word := 0 }, score := { d.score with tbc := 3084 } }), 0, 3072, by and_intros <;> decide +kernel⟩,
    ⟨(at_ fun d => { d with time := { d.time with fallbackOk := true, lastWord := 2 ^ 44 - 3072 } }), 0, .word,
        by and_intros <;> decide +kernel⟩,
    ⟨(at_ fun d => { d with time := { d.time with fallbackOk := false } }), 0, by and_intros <;> decide +kernel⟩,
    ⟨(at_ fun d => { d with time := { d.time with phase := .switching, until_ := 2 ^ 44 } }), 0,
        by and_intros <;> decide +kernel⟩,
    ⟨(at_ fun d => { d with time := { d.time with phase := .qualifying, until_ := 2 ^ 44 } }), 0,
        by and_intros <;> decide +kernel⟩,
    ⟨(at_ fun d => { d with time := { d.time with phase := .qualified } }), 0, by and_intros <;> decide +kernel⟩,
    ⟨(at_ fun d => { d with time := { d.time with fallbackOk := true } }), 0, by and_intros <;> decide +kernel⟩,
    ⟨(at_ fun d => { d with time := { d.time with fallbackOk := true, phase := .fallback } }), 0,
        by and_intros <;> decide +kernel⟩,
    ⟨(at_ fun d => { d with time := { d.time with fallbackOk := true } }), 0, by and_intros <;> decide +kernel⟩⟩

/-- The hypotheses of each clause of `Obligations.CueAndBreathEventsAct` hold together. -/
theorem test_hyps_CueAndBreathEventsAct :
    (∃ s : State, ∃ dt : Nat, ∃ v : VoiceId, 
    let d := (s.turn dt).dev
    
    let calm : Prop := d.edges = [] ∧ d.cues.queue = [] ∧ (∀ u : VoiceId, d.levelInput u = none ∧
        (d.voice u).retryReady = false) ∧
    d.slotOffs = 0 ∧ d.therm.blips = []
    ∃ w : Wait, (d.voice v).wait = some w ∧ calm ∧ (∀ u, u ≠ v → (d.voice u).wait = none) ∧ w.stage = .fresh ∧
        w.profile ≠ 0 ∧ w.prio < 16 ∧ w.free = false ∧ d.needsDomain = false ∧ 0 < d.breathFree) ∧
    (∃ s : State, ∃ dt : Nat, ∃ v : VoiceId, 
    let d := (s.turn dt).dev
    
    let calm : Prop := d.edges = [] ∧ d.cues.queue = [] ∧ (∀ u : VoiceId, d.levelInput u = none ∧
        (d.voice u).retryReady = false) ∧
    d.slotOffs = 0 ∧ d.therm.blips = []
    ∃ w : Wait, (d.voice v).wait = some w ∧ calm ∧ (∀ u, u ≠ v → (d.voice u).wait = none) ∧ w.stage = .fresh ∧
        w.profile ≠ 0 ∧ w.prio < 16 ∧ w.free = false ∧ w.source = .voiceSet ∧ d.breathFree = 0) ∧
    (∃ s : State, ∃ dt : Nat, ∃ v : VoiceId, 
    let d := (s.turn dt).dev
    ∃ x, (d.voice v).spanEnd = some x ∧ x ≤ d.now) ∧
    (∃ s : State, ∃ dt : Nat, ∃ v : VoiceId, 
    let d := (s.turn dt).dev
    ∃ w : Wait, ∃ x : Nat, (d.voice v).wait = some w ∧ w.stage = .deferred ∧ w.deadline = some x ∧ x ≤ d.now ∧
        d.vfld v 0 10 1 = 0) ∧
    (∃ s : State, ∃ dt : Nat, ∃ v : VoiceId, 
    let d := (s.turn dt).dev
    ∃ w : Wait, ∃ x : Nat, (d.voice v).wait = some w ∧ w.stage = .deferred ∧ w.deadline = some x ∧ x ≤ d.now ∧
        d.vfld v 0 10 1 = 1) ∧
    (∃ s : State, ∃ dt : Nat, ∃ v : VoiceId, 
    let d := (s.turn dt).dev
    ∃ c : Cue, d.cues.queue = [c] ∧ d.edges = [] ∧ (∀ u : VoiceId, d.levelInput u = none) ∧ d.lossNow = false ∧
        c.basis = 0 ∧ c.action = 0 ∧ c.chorus = false ∧ c.who = v.val ∧ c.target ≤ d.time.tbc ∧ c.spent = false ∧
        c.acted = 0 ∧ c.partner = none ∧ d.gang v = none ∧ (d.voice v).st = .on ∧ (d.voice v).wait = none) :=
  ⟨⟨(at_ fun d => { (d.modVoice 3 fun x => { x with cmd := true, wait := some { source := .voiceSet, stage := .fresh, prio := 8, profile := 1, deadline := none, free := false, since := 0 } }) with par := { d.par with live := [(0x2080, 4)] } }), 0, 3, _, rfl, by and_intros <;> decide +kernel⟩,
    ⟨(at_ fun d => { (d.modVoice 3 fun x => { x with cmd := true, wait := some { source := .voiceSet, stage := .fresh, prio := 8, profile := 1, deadline := none, free := false, since := 0 } }) with par := { d.par with live := [(0x2080, 0)] } }), 0, 3, _, rfl, by and_intros <;> decide +kernel⟩,
    ⟨(onV fun x => { x with spanEnd := some (2 ^ 44), token := true }), 0, 3, 2 ^ 44, by and_intros <;> decide +kernel⟩,
    ⟨(at_ fun d => { (d.modVoice 3 fun x => { x with cmd := true, wait := some { source := .voiceSet, stage := .deferred, prio := 8, profile := 1, deadline := some (2 ^ 44), free := false, since := 0 } }) with par := { d.par with live := [] } }), 0, 3, _, 2 ^ 44, rfl, by and_intros <;> decide +kernel⟩,
    ⟨(at_ fun d => { (d.modVoice 3 fun x => { x with cmd := true, wait := some { source := .voiceSet, stage := .deferred, prio := 8, profile := 1, deadline := some (2 ^ 44), free := false, since := 0 } }) with par := { d.par with live := [(0x1060, 0x400)] } }), 0, 3, _, 2 ^ 44, rfl, by and_intros <;> decide +kernel⟩,
    ⟨(at_ fun d => { (d.modVoice 3 fun x => { x with st := .on, gate := true, cmd := true }) with cues := { d.cues with queue := [{ id := 4, basis := 0, noLead := false, action := 0, chorus := false, who := 3, arg := 0, partner := none, target := 2 ^ 44, bytes := [], acted := 0, nulled := 0, seen := false, spent := false, named := 0 }] } }), 0, 3, _, rfl, by and_intros <;> decide +kernel⟩⟩

/-- The hypotheses of each clause of `Obligations.LhEventsAct` hold together. -/
theorem test_hyps_LhEventsAct :
    (∃ s : State, ∃ dt : Nat, ∃ i : Fin 8, 
    let d := (s.turn dt).dev
    ∃ level : Bool, ∃ held : Nat, 
    let seen := d.lhSample (d.now - 8 * held)
    d.lhLive = true ∧ (8 * held < 20 * usec ∨ d.now < seen)) ∧
    (∃ s : State, ∃ dt : Nat, ∃ i : Fin 8, 
    let d := (s.turn dt).dev
    ∃ level : Bool, ∃ held : Nat, 
    let seen := d.lhSample (d.now - 8 * held)
    d.lhLive = true ∧ 20 * usec ≤ 8 * held ∧ seen ≤ d.now) ∧
    (∃ s : State, ∃ dt : Nat, ∃ i : Fin 8, 
    let d := (s.turn dt).dev
    d.lhLive = true ∧ (d.lh.get i).chatter = false ∧ d.ctl.por = false ∧ d.chatterDue i = true) ∧
    (∃ s : State, ∃ dt : Nat, ∃ i : Fin 8, 
    let d := (s.turn dt).dev
    (d.lh.get i).since + 1000 * msec ≤ d.now ∧ d.chatterDue i = false) ∧
    (∃ s : State, ∃ dt : Nat, ∃ i : Fin 8, 
    let d := (s.turn dt).dev
    d.lhLive = true ∧ (d.lh.get i).level = false ∧ 1000 * msec ≤ d.now - (d.lh.get i).since) ∧
    (∃ s : State, ∃ dt : Nat, ∃ i : Fin 8, 
    let d := (s.turn dt).dev
    ∃ v : VoiceId, d.levelInput v = some i ∧ (d.lh.get i).level = true ∧ d.gang v = none ∧ (d.voice v).st = .on) :=
  ⟨⟨at_ id, 0, 7, true, 0, by and_intros <;> decide +kernel⟩,
    ⟨at_ id, 0, 7, true, 100000, by and_intros <;> decide +kernel⟩,
    ⟨(at_ fun d => { d with lh := d.lh.map fun x => { x with restless := some 0, rawAt := 2 ^ 44 } }), 0, 7,
        by and_intros <;> decide +kernel⟩,
    ⟨at_ id, 0, 7, by and_intros <;> decide +kernel⟩,
    ⟨at_ id, 0, 7, by and_intros <;> decide +kernel⟩,
    ⟨(at_ fun d => { (d.modVoice 3 fun x => { x with st := .on, gate := true, cmd := true }) with lh := d.lh.map fun x => { x with level := true }, par := { d.par with live := [(0x1060, 0x90000)] } }), 0, 1, 3, by and_intros <;> decide +kernel⟩⟩

/-- The hypotheses of each clause of `Obligations.DriveEventsAct` hold together. -/
theorem test_hyps_DriveEventsAct :
    (∃ s : State, ∃ dt : Nat, ∃ v : VoiceId, 
    let d := (s.turn dt).dev
    ∃ x, (d.voice v).ramp = .running x ∧ (d.voice v).profile ≠ 3 ∧ (d.voice v).plan = [] ∧ (d.voice v).st = .ramping ∧
        (d.voice v).rampUse = .turnOn ∧ (d.voice v).rampUntil ≤ d.now ∧ (d.voice v).dutyRamp = none ∧ d.vfld v 0 0 4 = 0) ∧
    (∃ s : State, ∃ dt : Nat, ∃ v : VoiceId, 
    let d := (s.turn dt).dev
    ∃ x : Nat, ∃ y : Nat, ∃ l : Nat, ∃ k : Nat, ∃ rest : List (Nat × Nat), (d.voice v).plan = (x, l) :: (y, k) :: rest ∧
        (d.voice v).driven = true ∧ x ≤ d.now ∧ (d.voice v).profile ≠ 3) ∧
    (∃ s : State, ∃ dt : Nat, ∃ v : VoiceId, 
    let d := (s.turn dt).dev
    d.gang v = none ∧ (d.voice v).st = .pwm ∧ (d.voice v).driveMode = 1 ∧ d.toGrid v = 0 ∧ (d.voice v).offEdge = none ∧
        (d.voice v).ramp = .none ∧ (d.voice v).dutyRamp = none ∧ tMin v ≤ d.onTime v ∧
        d.onTime v + tMin v ≤ d.pwmPeriod v ∧ d.ka.held = false) ∧
    (∃ s : State, ∃ dt : Nat, ∃ v : VoiceId, 
    let d := (s.turn dt).dev
    ∃ x, d.blips? v = false ∧ (d.voice v).st = .pwm ∧ (d.voice v).offEdge = some x ∧ x ≤ d.now ∧
        (d.voice v).firstPulse = false ∧ (d.voice v).plan = []) ∧
    (∃ s : State, ∃ dt : Nat, ∃ v : VoiceId, 
    let d := (s.turn dt).dev
    ∃ m : Meas, (d.voice v).st = .holding ∧ (d.now - (d.voice v).holdFrom) % (50 * usec) = 0 ∧ (d.voice v).ramp = .none ∧
        (d.voice v).clampedNow = false ∧ d.ka.held = false) ∧
    (∃ s : State, ∃ dt : Nat, ∃ v : VoiceId, 
    let d := (s.turn dt).dev
    ∃ m : Meas, (d.voice v).st = .holding ∧ (d.voice v).ramp = .none ∧ 2 ≤ (d.voice v).clampedChops ∧ d.slotFaults = [] ∧
        d.ka.held = false) ∧
    (∃ s : State, ∃ dt : Nat, ∃ v : VoiceId, 
    let d := (s.turn dt).dev
    ∃ m : Meas, (d.voice v).st = .ramping ∧ (d.voice v).driveMode = 2 ∧ (d.voice v).gate = false ∧
        (d.now - (d.voice v).onAt) % (50 * usec) = 0 ∧ d.ka.held = false) ∧
    (∃ s : State, ∃ dt : Nat, ∃ v : VoiceId, 
    let d := (s.turn dt).dev
    d.blips? v = false ∧ (d.voice v).st = .ramping ∧ (d.voice v).driveMode = 2 ∧ (d.voice v).gate = true) ∧
    (∃ s : State, ∃ dt : Nat, ∃ v : VoiceId, 
    let d := (s.turn dt).dev
    ∃ n : Nat, ∃ ended : Bool, ∃ m : Meas, 
    let total := (d.voice v).clamp.getD 0 + n
    ((if (d.voice v).half then 2 * total else total) ≤ d.vfld v 0x12 0 16 * 1000 ∨ ended = false)) :=
  ⟨⟨(onV fun x => { x with st := .ramping, cmd := true, ramp := .running (2 ^ 44), rampUse := .turnOn, profile := 1, plan := [], rampUntil := 2 ^ 44 }), 0, 3, 2 ^ 44, by and_intros <;> decide +kernel⟩,
    ⟨(onV fun x => { x with st := .on, gate := true, cmd := true, profile := 1, plan := [(2 ^ 44, 5), (2 ^ 44 + 9, 6)] }), 0, 3, 2 ^ 44, 2 ^ 44 + 9, 5, 6, [], by and_intros <;> decide +kernel⟩,
    ⟨(at_ fun d => { (d.modVoice 3 fun x => { x with st := .pwm, driveMode := 1, duty := 0x8000, cmd := true }) with par := { d.par with live := [(0x1069, 1000)] }, time := { d.time with tbc := 0 } }), 0, 3, by and_intros <;> decide +kernel⟩,
    ⟨(onV fun x => { x with st := .pwm, driveMode := 1, offEdge := some (2 ^ 44), firstPulse := false, gate := true }),
        0, 3, 2 ^ 44, by and_intros <;> decide +kernel⟩,
    ⟨(onV fun x => { x with st := .holding, holdFrom := 2 ^ 44 - 50 * usec }), 0, 3, meas, by and_intros <;> decide +kernel⟩,
    ⟨(onV fun x => { x with st := .holding, clampedChops := 2 }), 0, 3, meas, by and_intros <;> decide +kernel⟩,
    ⟨(onV fun x => { x with st := .ramping, driveMode := 2, gate := false, onAt := 2 ^ 44 - 50 * usec }), 0, 3, meas,
        by and_intros <;> decide +kernel⟩,
    ⟨(onV fun x => { x with st := .ramping, driveMode := 2, gate := true }), 0, 3, by and_intros <;> decide +kernel⟩,
    ⟨(at_ fun d => { d with par := { d.par with live := [(0x1072, 5)] } }), 0, 3, 5000, true, meas, by decide +kernel⟩⟩

/-- The hypotheses of each clause of `Obligations.TrippingFaultsTurnTheVoiceOff` hold together. -/
theorem test_hyps_TrippingFaultsTurnTheVoiceOff :
    (∃ s : State, ∃ dt : Nat, ∃ v : VoiceId, ∃ k : BitVec 2, ∃ m : Meas, 
    let d := (s.turn dt).dev
    d.gang v = none ∧ d.slotFaults = [] ∧ (d.voice v).driven = true) ∧
    (∃ s : State, ∃ dt : Nat, ∃ v : VoiceId, ∃ k : BitVec 2, ∃ m : Meas, 
    let d := (s.turn dt).dev
    ∃ x, d.gang v = none ∧ d.slotFaults = [] ∧ (d.voice v).driven = true ∧ (d.voice v).gate = true ∧
        (d.voice v).desatAt = some x ∧ x ≤ d.now ∧ (d.voice v).edgeAt + tGR v ≤ d.now) ∧
    (∃ s : State, ∃ dt : Nat, ∃ v : VoiceId, ∃ k : BitVec 2, ∃ m : Meas, 
    let d := (s.turn dt).dev
    d.gang v = none ∧ d.slotFaults = [] ∧ (d.voice v).driven = true ∧ (d.voice v).inInrush = false) ∧
    (∃ s : State, ∃ dt : Nat, ∃ v : VoiceId, ∃ k : BitVec 2, ∃ m : Meas, 
    let d := (s.turn dt).dev
    d.gang v = none ∧ d.slotFaults = [] ∧ (d.voice v).driven = true ∧ (d.voice v).gate = true) ∧
    (∃ s : State, ∃ dt : Nat, ∃ v : VoiceId, ∃ k : BitVec 2, ∃ m : Meas, 
    let d := (s.turn dt).dev
    ∃ c, d.gang v = none ∧ d.slotFaults = [] ∧ (d.voice v).driven = false ∧ c ∈ [Instr.fastTrip dt v k m,
        .desatTrip dt v k m, .ocTimeout dt v m, .gateFault dt v k m]) :=
  ⟨⟨(onV fun x => { x with st := .on, gate := true, cmd := true, profile := 1 }), 0, 3, 1, meas,
      by and_intros <;> decide +kernel⟩,
    ⟨(onV fun x => { x with st := .on, gate := true, cmd := true, profile := 1, desatAt := some (2 ^ 44), edgeAt := 0 }),
        0, 3, 3, meas, 2 ^ 44, by and_intros <;> decide +kernel⟩,
    ⟨(onV fun x => { x with st := .on, gate := true, cmd := true, profile := 1 }), 0, 3, 3, meas,
        by and_intros <;> decide +kernel⟩,
    ⟨(onV fun x => { x with st := .on, gate := true, cmd := true, profile := 1 }), 0, 3, 3, meas,
        by and_intros <;> decide +kernel⟩,
    ⟨at_ id, 0, 3, 1, meas, .ocTimeout 0 3 meas, by and_intros <;> decide +kernel⟩⟩

/-- The hypotheses of each clause of `Obligations.ReportingFaultsAreScored` hold together. -/
theorem test_hyps_ReportingFaultsAreScored :
    (∃ s : State, ∃ dt : Nat, ∃ v : VoiceId, ∃ m : Meas, 
    let d := (s.turn dt).dev
    d.tripPending v = false ∧ (d.voice v).scored.getLsbD 4 = false ∧ (d.voice v).st = .on ∧ (d.voice v).plan = [] ∧
        d.dutyRamps v = false) ∧
    (∃ s : State, ∃ dt : Nat, ∃ v : VoiceId, ∃ m : Meas, 
    let d := (s.turn dt).dev
    d.tripPending v = false ∧ (d.voice v).scored.getLsbD 5 = false ∧ d.armedOff v = true ∧ d.vfld v 0x0E 16 1 = 1 ∧
        (d.voice v).pullupRetired = false ∧ d.ctl.liveAt.isSome = true) ∧
    (∃ s : State, ∃ dt : Nat, ∃ v : VoiceId, ∃ m : Meas, 
    let d := (s.turn dt).dev
    d.tripPending v = false ∧ (d.voice v).scored.getLsbD 6 = false ∧ d.armedOff v = true ∧ (d.voice v).clamp = none ∧
        d.ctl.liveAt.isSome = true) ∧
    (∃ s : State, ∃ dt : Nat, ∃ v : VoiceId, ∃ m : Meas, 
    let d := (s.turn dt).dev
    d.tripPending v = false ∧ (d.voice v).scored.getLsbD 7 = false) ∧
    (∃ s : State, ∃ dt : Nat, ∃ v : VoiceId, ∃ m : Meas, 
    let d := (s.turn dt).dev
    ∃ q : Search, (d.voice v).lead.search = some q ∧ d.tripPending v = false ∧ d.vfld v 0x14 16 8 * msec ≤ d.now - q.t0 ∧
        d.vfld v 0x14 24 1 = 1 ∧ (d.voice v).scored.getLsbD 11 = false) ∧
    (∃ s : State, ∃ dt : Nat, ∃ v : VoiceId, ∃ m : Meas, 
    let d := (s.turn dt).dev
    d.tripPending v = false) :=
  ⟨⟨(onV fun x => { x with st := .on, gate := true, cmd := true, profile := 1 }), 0, 3, meas,
      by and_intros <;> decide +kernel⟩,
    ⟨(at_ fun d => { d with par := { d.par with live := [(0x106E, 0x10000)] } }), 0, 3, meas,
        by and_intros <;> decide +kernel⟩,
    ⟨at_ id, 0, 3, meas, by and_intros <;> decide +kernel⟩,
    ⟨at_ id, 0, 3, meas, by and_intros <;> decide +kernel⟩,
    ⟨(at_ fun d => { (d.modVoice 3 fun x => { x with st := .on, lead := { x.lead with search := some { opening := true, t0 := 0, top := none, low := none } } }) with par := { d.par with live := [(0x1074, 0x1140000)] } }), 0, 3, meas, _, rfl, by and_intros <;> decide +kernel⟩,
    ⟨at_ id, 0, 3, meas, by decide +kernel⟩⟩

/-- The hypotheses of each clause of `Obligations.SoundChecksAndRetriesAct` hold together. -/
theorem test_hyps_SoundChecksAndRetriesAct :
    (∃ s : State, ∃ dt : Nat, ∃ v : VoiceId, 
    let d := (s.turn dt).dev
    d.sc.running = none ∧ d.nextCheck = some (.trip, v) ∧ (d.voice v).st = .tripped ∧ d.gang v = none) ∧
    (∃ s : State, ∃ dt : Nat, ∃ v : VoiceId, 
    let d := (s.turn dt).dev
    ∃ r : RunningCheck, ∃ voHigh : Bool, d.sc.running = some r ∧ r.ends ≤ d.now ∧ r.kind = .host ∧ r.codes = []) ∧
    (∃ s : State, ∃ dt : Nat, ∃ v : VoiceId, 
    let d := (s.turn dt).dev
    ∃ r : RunningCheck, ∃ voHigh : Bool, d.sc.running = some r ∧ r.ends ≤ d.now ∧ r.kind = .trip ∧ r.voice = v ∧
        r.both = false ∧ (d.voice v).st = .checking ∧ (d.voice v).checks.offAsked = false ∧ d.gang v = none ∧
        d.ctl.mode = .conducted ∧ d.checkAsks = false ∧ d.vfld v 0x0F 0 2 = 0) ∧
    (∃ s : State, ∃ dt : Nat, ∃ v : VoiceId, 
    let d := (s.turn dt).dev
    ∃ x, (d.voice v).retryAt = some x ∧ x ≤ d.now ∧ (d.voice v).st = .retryWait ∧ d.vfld v 0x0F 0 2 ≠ 2 ∧ d.gang v = none) ∧
    (∃ s : State, ∃ dt : Nat, ∃ v : VoiceId, 
    let d := (s.turn dt).dev
    ∃ x, (d.voice v).drivenSince = some x ∧ (d.voice v).driven = true ∧ d.vfld v 0x10 0 16 * 100 * msec < d.now - x ∧
        d.gang v = none) :=
  ⟨⟨(onV fun x => { x with st := .tripped, fault := 2, checks := { x.checks with trip := some 2 } }), 0, 3,
      by and_intros <;> decide +kernel⟩,
    ⟨(at_ fun d => { d with sc := { d.sc with running := some { kind := .host, voice := 3, partner := none, both := false, trigger := 12, tests := 1, repeats := false, codes := [], meas := meas, before := 0, length := 5, ends := 2 ^ 44 } } }), 0, 3, _, true, rfl, by and_intros <;> decide +kernel⟩,
    ⟨(at_ fun d => { (d.modVoice 3 fun x => { x with st := .checking, fault := 2 }) with sc := { d.sc with running := some { kind := .trip, voice := 3, partner := none, both := false, trigger := 12, tests := 1, repeats := false, codes := [], meas := meas, before := 0, length := 5, ends := 2 ^ 44 } }, par := { d.par with live := [(0x106F, 0)] } }), 0, 3, _, true, rfl, by and_intros <;> decide +kernel⟩,
    ⟨(onV fun x => { x with st := .retryWait, cmd := true, fault := 1, retry := 1, retryAt := some (2 ^ 44) }), 0, 3,
        2 ^ 44, by and_intros <;> decide +kernel⟩,
    ⟨(onV fun x => { x with st := .on, gate := true, cmd := true, retry := 2, drivenSince := some 0 }), 0, 3, 0,
        by and_intros <;> decide +kernel⟩⟩

/-- The hypotheses of each clause of `Obligations.BankEventsAct` hold together. -/
theorem test_hyps_BankEventsAct :
    (∃ s : State, ∃ dt : Nat, ∃ b : BankId, 
    let d := (s.turn dt).dev
    (d.banks.get b).present = true) ∧
    (∃ s : State, ∃ dt : Nat, ∃ b : BankId, 
    let d := (s.turn dt).dev
    (d.banks.get b).present = false ∧ d.ctl.por = false) ∧
    (∃ s : State, ∃ dt : Nat, ∃ b : BankId, 
    let d := (s.turn dt).dev
    ∃ begins : Bool, ∃ volts : Nat, (d.banks.get b).crank ≠ begins ∧ d.ctl.por = false) ∧
    (∃ s : State, ∃ dt : Nat, ∃ b : BankId, 
    let d := (s.turn dt).dev
    ∃ volts : Nat, (d.banks.get b).ovHold = false ∧ d.ctl.por = false) ∧
    (∃ s : State, ∃ dt : Nat, ∃ b : BankId, 
    let d := (s.turn dt).dev
    ∃ volts : Nat, (d.banks.get b).ovOff = false) ∧
    (∃ s : State, ∃ dt : Nat, ∃ b : BankId, 
    let d := (s.turn dt).dev
    ∃ volts : Nat, (d.banks.get b).ovHold = true) ∧
    (∃ s : State, ∃ dt : Nat, ∃ b : BankId, 
    let d := (s.turn dt).dev
    ∃ x, (d.banks.get b).pinDue = some x ∧ x ≤ d.now) ∧
    (∃ s : State, ∃ dt : Nat, ∃ b : BankId, 
    let d := (s.turn dt).dev
    (d.banks.get b).sumAt + 10 * usec ≤ d.now) ∧
    (∃ s : State, ∃ dt : Nat, ∃ b : BankId, 
    let d := (s.turn dt).dev
    ∃ v : VoiceId, ∃ rest : List VoiceId, ∃ x : Nat, d.staggers = [{ kind := .cut b, voices := v :: rest, next := x }] ∧
        x ≤ d.now ∧ d.gang v = none ∧ d.pd.step = .idle) :=
  ⟨⟨at_ id, 0, 2, by decide +kernel⟩,
    ⟨(at_ fun d => d.modBank 2 fun b => { b with present := false }), 0, 2, by and_intros <;> decide +kernel⟩,
    ⟨at_ id, 0, 2, true, 620, by and_intros <;> decide +kernel⟩,
    ⟨at_ id, 0, 2, 3300, by and_intros <;> decide +kernel⟩,
    ⟨at_ id, 0, 2, 4100, by decide +kernel⟩,
    ⟨(at_ fun d => d.modBank 2 fun b => { b with ovHold := true }), 0, 2, 2900, by decide +kernel⟩,
    ⟨(at_ fun d => d.modBank 2 fun b => { b with pinDue := some (2 ^ 44) }), 0, 2, 2 ^ 44, by and_intros <;> decide +kernel⟩,
    ⟨at_ id, 0, 2, by decide +kernel⟩,
    ⟨(at_ fun d => { d with staggers := [{ kind := .cut 2, voices := [35, 36], next := 2 ^ 44 }], pd := { d.pd with step := .idle } }), 0, 2, 35, [36], 2 ^ 44, by and_intros <;> decide +kernel⟩⟩

/-- The hypotheses of each clause of `Obligations.PowerEventsAct` hold together. -/
theorem test_hyps_PowerEventsAct :
    (∃ s : State, ∃ dt : Nat, 
    let d := (s.turn dt).dev
    d.pd.vcpOk = true ∧ d.sc.running = none) ∧
    (∃ s : State, ∃ dt : Nat, 
    let d := (s.turn dt).dev
    d.pd.vcpOk = false ∧ d.ctl.por = false) ∧
    (∃ s : State, ∃ dt : Nat, 
    let d := (s.turn dt).dev
    ∃ volts : Nat, d.pd.vholdArmed = true ∧ d.pdRunning = false ∧ d.pd.vholdReady = true ∧ d.ctl.por = false) ∧
    (∃ s : State, ∃ dt : Nat, 
    let d := (s.turn dt).dev
    d.pdActive = true ∧ d.pd.cause = 0) ∧
    (∃ s : State, ∃ dt : Nat, 
    let d := (s.turn dt).dev
    d.pdRunning = false ∧ d.ctl.por = false) ∧
    (∃ s : State, ∃ dt : Nat, 
    let d := (s.turn dt).dev
    ∃ vhold : Nat, d.pd.step = .voicesAndCommit ∧ d.pd.committed = false ∧ d.ctl.scoreSilent = false) ∧
    (∃ s : State, ∃ dt : Nat, 
    let d := (s.turn dt).dev
    d.pd.step = .save ∧ d.pd.floor = false ∧ d.nv.servedAt + 12 * usec * d.saveWords ≤ d.now) ∧
    (∃ s : State, ∃ dt : Nat, 
    let d := (s.turn dt).dev
    d.pd.step = .idleFlash ∧ d.pd.floor = false ∧ d.pd.stepAt + 48 * usec ≤ d.now) :=
  ⟨⟨at_ id, 0, by and_intros <;> decide +kernel⟩,
    ⟨(at_ fun d => { d with pd := { d.pd with vcpOk := false } }), 0, by and_intros <;> decide +kernel⟩,
    ⟨(at_ fun d => { d with pd := { d.pd with vholdArmed := true, vholdReady := true } }), 0, 690,
        by and_intros <;> decide +kernel⟩,
    ⟨(at_ fun d => { d with pd := { d.pd with step := .save, cause := 0 } }), 0, by and_intros <;> decide +kernel⟩,
    ⟨at_ id, 0, by and_intros <;> decide +kernel⟩,
    ⟨(at_ fun d => { d with pd := { d.pd with step := .voicesAndCommit, cause := 0 } }), 0, 1600,
        by and_intros <;> decide +kernel⟩,
    ⟨(at_ fun d => { d with pd := { d.pd with step := .save } }), 0, by and_intros <;> decide +kernel⟩,
    ⟨(at_ fun d => { d with pd := { d.pd with step := .idleFlash } }), 0, by and_intros <;> decide +kernel⟩⟩

/-- The hypotheses of each clause of `Obligations.ScoreSupplyEventsAct` hold together. -/
theorem test_hyps_ScoreSupplyEventsAct :
    (∃ s : State, ∃ dt : Nat, 
    let d := (s.turn dt).dev
    ∃ xoutHigh : Bool, ∃ mseal : Bool, ∃ reference : Option Nat, ∃ levels : Tab Bool 8, d.score.powered = false) ∧
    (∃ s : State, ∃ dt : Nat, 
    let d := (s.turn dt).dev
    d.score.powered = true ∧ d.score.scanned = false ∧ d.ctl.por = false) ∧
    (∃ s : State, ∃ dt : Nat, 
    let d := (s.turn dt).dev
    ∃ torn : Bool, d.score.powered = true) ∧
    (∃ s : State, ∃ dt : Nat, 
    let d := (s.turn dt).dev
    d.score.powered = true ∧ d.score.scanned = true ∧ d.score.cold = false) ∧
    (∃ s : State, ∃ dt : Nat, 
    let d := (s.turn dt).dev
    ∃ x, d.score.changedAt = some x ∧ d.score.powered = true ∧ d.score.scanned = true ∧ d.score.cold = false ∧
        x + 10000 * msec ≤ d.score.own) ∧
    (∃ s : State, ∃ dt : Nat, 
    let d := (s.turn dt).dev
    ∃ tenths : Int, d.score.powered = true) :=
  ⟨⟨(at_ fun d => { d with score := { d.score with powered := false } }), 0, true, false, some 25000000, .fill 8 true,
      by decide +kernel⟩,
    ⟨(at_ fun d => { d with score := { d.score with scanned := false } }), 0, by and_intros <;> decide +kernel⟩,
    ⟨at_ id, 0, true, by decide +kernel⟩,
    ⟨at_ id, 0, by and_intros <;> decide +kernel⟩,
    ⟨(at_ fun d => { d with score := { d.score with changedAt := some 5 } }), 0, 5, by and_intros <;> decide +kernel⟩,
    ⟨at_ id, 0, -451, by decide +kernel⟩⟩

/-- The hypotheses of each clause of `Obligations.ScoreLinkEventsAct` hold together. -/
theorem test_hyps_ScoreLinkEventsAct :
    (∃ s : State, ∃ dt : Nat, 
    let d := (s.turn dt).dev
    d.score.powered = true ∧ d.ctl.por = false ∧ d.link.publishedAt + 10 * usec ≤ d.now) ∧
    (∃ s : State, ∃ dt : Nat, 
    let d := (s.turn dt).dev
    d.ctl.scoreSilent = false ∧ d.ctl.por = false ∧ d.link.publishedAt + 100 * usec ≤ d.now) ∧
    (∃ s : State, ∃ dt : Nat, 
    let d := (s.turn dt).dev
    ∃ m : MailMsg, ∃ rest : List MailMsg, ∃ written : Nat, ∃ logged : Bool, d.link.mailbox = m :: rest ∧
        d.score.powered = true ∧ d.link.inFlight = none) ∧
    (∃ s : State, ∃ dt : Nat, 
    let d := (s.turn dt).dev
    ∃ m : MailMsg, ∃ rest : List MailMsg, d.link.mailbox = m :: rest ∧ d.score.powered = true ∧ d.link.inFlight = none) ∧
    (∃ s : State, ∃ dt : Nat, 
    let d := (s.turn dt).dev
    ∃ fate : MailboxFate, ∃ r : Nat, rejectReason fate = some r ∧ d.score.powered = true) :=
  ⟨⟨at_ id, 0, by and_intros <;> decide +kernel⟩,
    ⟨at_ id, 0, by and_intros <;> decide +kernel⟩,
    ⟨(at_ fun d => { d with link := { d.link with mailbox := [{ packet := { dest := 0, opc := 0x83, tag := 1, params := [] }, stamp := 0, newest := 0, life := d.score.life, viaChain := false, bar := none, pending := .fill 6 0 }] } }), 0, _, _, 3, false, rfl, by and_intros <;> decide +kernel⟩,
    ⟨(at_ fun d => { d with link := { d.link with mailbox := [{ packet := { dest := 0, opc := 0x83, tag := 1, params := [] }, stamp := 0, newest := 0, life := d.score.life, viaChain := false, bar := none, pending := .fill 6 0 }] } }), 0, _, _, rfl, by and_intros <;> decide +kernel⟩,
    ⟨at_ id, 0, .badCrc, _, rfl, by decide +kernel⟩⟩

/-- The hypotheses of each clause of `Obligations.ScoreInputsAct` hold together. -/
theorem test_hyps_ScoreInputsAct :
    (∃ s : State, ∃ dt : Nat, 
    let d := (s.turn dt).dev
    ∃ i : Fin 8, ∃ rising : Bool, d.score.powered = true) ∧
    (∃ s : State, ∃ dt : Nat, 
    let d := (s.turn dt).dev
    ∃ outputs : Mask, ∃ below4 : BitVec 4, d.score.powered = true ∧ d.score.sampledAt + usec ≤ d.score.own) ∧
    (∃ s : State, ∃ dt : Nat, 
    let d := (s.turn dt).dev
    d.score.powered = true ∧ d.score.judgedAt + 10 * msec ≤ d.score.own) ∧
    (∃ s : State, ∃ dt : Nat, 
    let d := (s.turn dt).dev
    ∃ line : List Byte, d.score.powered = true ∧ isSealLine line = false ∧
        d.score.laxUntil + charTicks line.length ≤ d.score.own) ∧
    (∃ s : State, ∃ dt : Nat, 
    let d := (s.turn dt).dev
    ∃ line : List Byte, d.score.powered = true ∧ d.score.own < d.score.laxUntil) ∧
    (∃ s : State, ∃ dt : Nat, 
    let d := (s.turn dt).dev
    ∃ ident : List Byte, d.score.powered = true ∧ d.score.variant = .m ∧ d.score.scanned = true ∧
        d.score.sealSt = .sealMode ∧ isSealLine (sealLine ident) = true ∧
        d.score.laxUntil + charTicks (sealLine ident).length ≤ d.score.own) ∧
    (∃ s : State, ∃ dt : Nat, 
    let d := (s.turn dt).dev
    ∃ ident : List Byte, ∃ ok_ : Bool, d.score.powered = true ∧ d.score.variant = .m ∧ d.score.scanned = true ∧
        d.score.sealSt = .sealed ∧ d.score.laxUntil + charTicks (sealLine ident).length ≤ d.score.own) :=
  ⟨⟨at_ id, 0, 5, true, by decide +kernel⟩,
    ⟨at_ id, 0, 7, 0, by and_intros <;> decide +kernel⟩,
    ⟨at_ id, 0, by and_intros <;> decide +kernel⟩,
    ⟨at_ id, 0, asc ['?', 'I'], by and_intros <;> decide +kernel⟩,
    ⟨(at_ fun d => { d with score := { d.score with laxUntil := 2 ^ 44 + 1 } }), 0, asc ['?', 'I'],
        by and_intros <;> decide +kernel⟩,
    ⟨(at_ fun d => { d with score := { d.score with sealSt := .sealMode } }), 0, List.replicate 16 0x41,
        by and_intros <;> decide +kernel⟩,
    ⟨(at_ fun d => { d with score := { d.score with sealSt := .sealed } }), 0, List.replicate 16 0x41, true,
        by and_intros <;> decide +kernel⟩⟩

/-- The hypotheses of each clause of `Obligations.TallyAndOdometerEventsAct` hold together. -/
theorem test_hyps_TallyAndOdometerEventsAct :
    (∃ d : Dev, ∃ i : Fin 8, ∃ a : Bool, ∃ b : Bool, ∃ x : Int, ∃ y : Int, ∃ m : Nat, ∃ n : Nat, d.edges = [⟨i, a, x, m⟩,
        ⟨i, b, y, n⟩] ∧ -6 < y - x ∧ y - x < 6) ∧
    (∃ d : Dev, ∃ i : Fin 8, ∃ a : Bool, ∃ b : Bool, ∃ x : Int, ∃ y : Int, ∃ m : Nat, ∃ n : Nat, ∃ j, d.edges = [⟨i, a,
        x, m⟩, ⟨i, b, y, n⟩] ∧ -6 < y - x ∧ y - x < 6 ∧ j ≠ i) ∧
    (∃ d : Dev, ∃ i : Fin 8, ∃ rising : Bool, ∃ stamp : Int, d.edges = [⟨i, rising, stamp, d.now⟩] ∧ 3 ≤ stamp % 8) ∧
    (∃ d : Dev, ∃ i : Fin 8, ∃ rising : Bool, ∃ stamp : Int, ∃ n : Nat, d.edges = [⟨i, rising, stamp, n⟩] ∧ (n ≠ d.now ∨
        stamp % 8 < 3) ∧ rising ≠ d.countsRising i ∧ d.tsEn i = true ∧ d.widthEn i = true ∧
        (d.tally.get i).fifo.length < 256 ∧ (d.tally.get i).start = none) ∧
    (∃ s : State, ∃ dt : Nat, ∃ i : Fin 8, 
    let d := (s.turn dt).dev
    ∃ rising : Bool, ∃ stamp : Int, d.ctl.scoreSilent = false ∧ d.score.locked = true) ∧
    (∃ s : State, ∃ dt : Nat, ∃ i : Fin 8, 
    let d := (s.turn dt).dev
    
    let e := d.takeEdges
    ∃ x, (e.tally.get i).levelSince = some x ∧ e.stuckTime i ≤ e.now - x ∧ e.ctl.scoreSilent = false ∧ e.ctl.por = false) ∧
    (∃ s : State, ∃ dt : Nat, ∃ i : Fin 8, 
    let d := (s.turn dt).dev
    
    let e := d.takeEdges
    ∃ x, e.odo.st = .running ∧ e.odo.last = some x ∧ (e.stopTimeout : Int) ≤ e.time.tbc - x) ∧
    (∃ s : State, ∃ dt : Nat, ∃ i : Fin 8, 
    let d := (s.turn dt).dev
    
    let e := d.takeEdges
    e.odo.evalAt + 10 * msec ≤ e.now ∧ e.odo.source = .none) ∧
    (∃ s : State, ∃ dt : Nat, ∃ i : Fin 8, 
    let d := (s.turn dt).dev
    
    let e := d.takeEdges
    e.odo.evalAt + 10 * msec ≤ e.now ∧ e.odo.source = .primary ∧ e.secEn = false ∧
        20 ≤ e.rate e.secondary * (e.ratio : Rat) / 65536 ∧ (e.tally.get e.secondary).stuck = false ∧
        (e.tally.get e.primary).stuck = true) :=
  ⟨⟨{ base with edges := [⟨4, true, 9, 5⟩, ⟨4, false, 14, 6⟩] }, 4, true, false, 9, 14, 5, 6,
      by and_intros <;> decide +kernel⟩,
    ⟨{ base with edges := [⟨4, true, 9, 5⟩, ⟨4, false, 14, 6⟩] }, 4, true, false, 9, 14, 5, 6, 5,
        by and_intros <;> decide +kernel⟩,
    ⟨{ base with edges := [⟨4, false, 11, 2 ^ 44⟩] }, 4, false, 11, by and_intros <;> decide +kernel⟩,
    ⟨{ base with edges := [⟨4, false, 9, 7⟩], par := { base.par with live := [(tallyWord 4, 6)] } }, 4, false, 9, 7,
        by and_intros <;> decide +kernel⟩,
    ⟨at_ id, 0, 4, true, 5, by and_intros <;> decide +kernel⟩,
    ⟨(at_ fun d => d.modTally 7 fun x => { x with levelSince := some 0 }), 0, 7, 0, by and_intros <;> decide +kernel⟩,
    ⟨(at_ fun d => { d with odo := { d.odo with st := .running, last := some 0 } }), 0, 4, 0,
        by and_intros <;> decide +kernel⟩,
    ⟨(at_ fun d => { d with odo := { d.odo with source := .none } }), 0, 4, by and_intros <;> decide +kernel⟩,
    ⟨(at_ fun d => { (d.modTally 4 fun x => { x with stuck := true }).modTally 5 (fun x => { x with period := some 3000000, edgeAt := some (2 ^ 44) }) with par := { d.par with live := [(0x4800, 0x2C)] } }), 0, 4, by and_intros <;> decide +kernel⟩⟩

/-- The hypotheses of each clause of `Obligations.ZoneEventsAct` hold together. -/
theorem test_hyps_ZoneEventsAct :
    (∃ s : State, ∃ dt : Nat, ∃ z : ZoneId, 
    let d := (s.turn dt).dev
    d.thermLive = true ∧ d.ctl.mode ≠ .halted) ∧
    (∃ s : State, ∃ dt : Nat, ∃ z : ZoneId, 
    let d := (s.turn dt).dev
    ∃ readings : Tab Int 8, d.thermLive = true ∧ d.therm.readAt + 50 * usec ≤ d.now ∧ (d.zone z).st = .measured) ∧
    (∃ s : State, ∃ dt : Nat, ∃ z : ZoneId, 
    let d := (s.turn dt).dev
    ∃ u : ThermUnit, ∃ q : ThrottleReq, d.reqOf u = some q ∧ q.enforcing = false ∧ q.graceEnd ≤ d.now ∧
        d.compared u < d.throt u) ∧
    (∃ s : State, ∃ dt : Nat, ∃ z : ZoneId, 
    let d := (s.turn dt).dev
    ∃ u : ThermUnit, ∃ q : ThrottleReq, d.reqOf u = some q ∧ q.enforcing = false ∧ q.graceEnd ≤ d.now ∧
        d.throt u ≤ d.compared u ∧ (d.zone (zoneOfTherm u)).enforcing = false) ∧
    (∃ s : State, ∃ dt : Nat, ∃ z : ZoneId, 
    let d := (s.turn dt).dev
    ∃ x, (d.zone z).stepAt = some x ∧ x ≤ d.now ∧ (d.zone z).enforcing = false) ∧
    (∃ s : State, ∃ dt : Nat, ∃ z : ZoneId, 
    let d := (s.turn dt).dev
    ∃ x, (d.zone z).stepAt = some x ∧ x ≤ d.now ∧ (d.zone z).enforcing = true ∧
        (zoneUnits z).any (fun u => d.enforces u && decide (d.throt u ≤ d.compared u)) = true) ∧
    (∃ s : State, ∃ dt : Nat, ∃ z : ZoneId, 
    let d := (s.turn dt).dev
    ∃ x, (d.zone z).checkEnds = some x ∧ x ≤ d.now ∧ (d.zone z).healthy = true) :=
  ⟨⟨at_ id, 0, 5, by and_intros <;> decide +kernel⟩,
    ⟨(at_ fun d => d.modZone 5 fun z => { z with st := .measured }), 0, 5, .fill 8 400, by and_intros <;> decide +kernel⟩,
    ⟨(at_ fun d => d.modZone 5 fun z => { z with temp := 20, req := some { acked := false, enforcing := false, graceEnd := 2 ^ 44 } }), 0, 5, .zone 5, _, rfl, by and_intros <;> decide +kernel⟩,
    ⟨(at_ fun d => d.modZone 5 fun z => { z with temp := 190, req := some { acked := false, enforcing := false, graceEnd := 2 ^ 44 } }), 0, 5, .zone 5, _, rfl, by and_intros <;> decide +kernel⟩,
    ⟨(at_ fun d => d.modZone 5 fun z => { z with ceiling := 3, stepAt := some (2 ^ 44) }), 0, 5, 2 ^ 44,
        by and_intros <;> decide +kernel⟩,
    ⟨(at_ fun d => d.modZone 5 fun z => { z with temp := 190, req := some { acked := true, enforcing := true, graceEnd := 0 }, enforcing := true, ceiling := 3, stepAt := some (2 ^ 44) }), 0, 5, 2 ^ 44, by and_intros <;> decide +kernel⟩,
    ⟨(at_ fun d => d.modZone 5 fun z => { z with st := .checking, checkEnds := some (2 ^ 44) }), 0, 5, 2 ^ 44,
        by and_intros <;> decide +kernel⟩⟩

/-- The hypotheses of each clause of `Obligations.ModelEventsAct` hold together. -/
theorem test_hyps_ModelEventsAct :
    (∃ s : State, ∃ dt : Nat, ∃ v : VoiceId, 
    let d := (s.turn dt).dev
    d.thermLive = true ∧ d.therm.updatedAt + 10 * usec ≤ d.now) ∧
    (∃ s : State, ∃ dt : Nat, ∃ v : VoiceId, 
    let d := (s.turn dt).dev
    
    let win := (d.voice v).therm.blipWin
    ∃ x : Nat, d.therm.blip = some (v, some x) ∧ x ≤ d.now ∧ d.gang v = none ∧
        d.quietMin v ≤ win.2.1 / (max win.1 1 : Nat)) ∧
    (∃ s : State, ∃ dt : Nat, ∃ v : VoiceId, 
    let d := (s.turn dt).dev
    
    let win := (d.voice v).therm.blipWin
    ∃ x : Nat, d.therm.blip = some (v, some x) ∧ x ≤ d.now ∧ d.gang v = none ∧
        win.2.1 / (max win.1 1 : Nat) < d.quietMin v) :=
  ⟨⟨at_ id, 0, 3, by and_intros <;> decide +kernel⟩,
    ⟨(at_ fun d => { (d.modTherm 3 fun x => { x with blipWin := (2, 12, 90) }) with therm := { d.therm with blip := some (3, some (2 ^ 44)) } }), 0, 3, 2 ^ 44, by and_intros <;> decide +kernel⟩,
    ⟨(at_ fun d => { (d.modTherm 3 fun x => { x with blipWin := (2, 1, 90) }) with therm := { d.therm with blip := some (3, some (2 ^ 44)) } }), 0, 3, 2 ^ 44, by and_intros <;> decide +kernel⟩⟩

/-- The hypotheses of each clause of `Obligations.ConverterEventsAct` hold together. -/
theorem test_hyps_ConverterEventsAct :
    (∃ s : State, ∃ dt : Nat, ∃ e : EngineId, 
    let d := (s.turn dt).dev
    
    let x := d.conv.engines.get e
    d.convLive = true ∧ d.engEnabled e = true ∧ d.engTrig e = 0 ∧ x.paused = false ∧ x.nextScan ≤ d.now) ∧
    (∃ s : State, ∃ dt : Nat, ∃ e : EngineId, 
    let d := (s.turn dt).dev
    ∃ pin : Fin 2, ∃ rising : Bool, d.port.vioValid = true ∧ d.convLive = true) ∧
    (∃ s : State, ∃ dt : Nat, ∃ e : EngineId, 
    let d := (s.turn dt).dev
    
    let x := d.conv.engines.get e
    ∃ v : Visit, ∃ rest : List Visit, ∃ i : Fin 120, ∃ raw : Option (BitVec 14), d.convLive = true ∧ x.todo = v :: rest ∧
        v.at_ + 600 ≤ d.now ∧ v.input = i.val ∧ (i.val < 100 ∨ 108 ≤ i.val)) ∧
    (∃ s : State, ∃ dt : Nat, ∃ e : EngineId, 
    let d := (s.turn dt).dev
    ∃ src : UrgentSource, ∃ input : Nat, ∃ raw : Option (BitVec 14), d.convLive = true ∧ d.conv.urgentFree ≤ d.now ∧
        d.nextUrgent = some (src, input)) :=
  ⟨⟨(at_ fun d => { d with par := { d.par with live := [(engWord 0 4, 0x1000)] } }), 0, 0, by and_intros <;> decide +kernel⟩,
    ⟨at_ id, 0, 2, 1, true, by and_intros <;> decide +kernel⟩,
    ⟨(at_ fun d => d.modEngine 2 fun x => { x with todo := [{ scan := 1, input := 99, slice := 5, at_ := 2 ^ 44 - 600, corr := none, unit := none }] }), 0, 2, { scan := 1, input := 99, slice := 5, at_ := 2 ^ 44 - 600, corr := none, unit := none }, [], 99, some 77, by and_intros <;> decide +kernel⟩,
    ⟨(at_ fun d => { d with conv := { d.conv with urgent := [(.faultCapture, 9), (.rangeCheck, 3)] } }), 0, 2,
        .faultCapture, 9, some 77, by and_intros <;> decide +kernel⟩⟩

/-- The hypotheses of each clause of `Obligations.SliceEventsAct` hold together. -/
theorem test_hyps_SliceEventsAct :
    (∃ s : State, ∃ dt : Nat, 
    let d := (s.turn dt).dev
    ∃ p : Bool, ∃ a : Int, ∃ b : Int, ∃ w : Int, d.convLive = true ∧ d.conv.calRuns = true ∧ d.conv.calEnds = none ∧
        d.secondNow = true) ∧
    (∃ s : State, ∃ dt : Nat, 
    let d := (s.turn dt).dev
    ∃ j : Nat, ∃ end_ : Nat, ∃ a : Int, ∃ b : Int, ∃ w : Int, d.convLive = true ∧ d.conv.calRuns = true ∧
        d.conv.standIn = some j ∧ d.conv.calEnds = some end_ ∧ end_ ≤ d.now) ∧
    (∃ s : State, ∃ dt : Nat, 
    let d := (s.turn dt).dev
    ∃ j : Nat, ∃ end_ : Nat, ∃ a : Int, ∃ b : Int, ∃ w : Int, d.convLive = true ∧ d.conv.calRuns = true ∧
        d.conv.standIn = some j ∧ d.conv.calEnds = some end_ ∧ end_ ≤ d.now ∧ d.conv.calRepeat = false ∧ d.ctl.por = false) ∧
    (∃ s : State, ∃ dt : Nat, 
    let d := (s.turn dt).dev
    
    let k := d.calUnit
    ∃ j : Nat, ∃ end_ : Nat, ∃ a : Int, ∃ b : Int, ∃ w : Int, d.convLive = true ∧ d.conv.calRuns = true ∧
        d.conv.standIn = some j ∧ d.conv.calEnds = some end_ ∧ end_ ≤ d.now ∧ d.conv.calRepeat = true ∧ k ≠ 8) ∧
    (∃ s : State, ∃ dt : Nat, 
    let d := (s.turn dt).dev
    ∃ i : Fin 9, ∃ c : RangeCheck, (d.conv.slices.get i).check = some c ∧ (c.again ≠ none ∨ c.since + 2 * usec ≤ d.now)) :=
  ⟨⟨(at_ fun d => { d with conv := { d.conv with calRuns := true }, ctl := { d.ctl with liveAt := some (2 ^ 44 - 1000 * msec) } }), 0, true, 1, 2, 0, by and_intros <;> decide +kernel⟩,
    ⟨(at_ fun d => { d with conv := { d.conv with calRuns := true, standIn := some 0, calEnds := some 5 } }), 0, 0, 5, 5,
        -6, 1, by and_intros <;> decide +kernel⟩,
    ⟨(at_ fun d => { d with conv := { d.conv with calRuns := true, standIn := some 0, calEnds := some 5 } }), 0, 0, 5, 5,
        -6, 1, by and_intros <;> decide +kernel⟩,
    ⟨(at_ fun d => { d with conv := { d.conv with calRuns := true, standIn := some 0, calEnds := some 5, calRepeat := true } }), 0, 0, 5, 5, -6, 1, by and_intros <;> decide +kernel⟩,
    ⟨(at_ fun d => d.modSlice 6 fun x => { x with check := some { input := 13, raw := none, again := none, since := 0 } }), 0, 6, { input := 13, raw := none, again := none, since := 0 }, by and_intros <;> decide +kernel⟩⟩

/-- The hypotheses of each clause of `Obligations.WaveFramesAct` hold together. -/
theorem test_hyps_WaveFramesAct :
    (∃ s : State, ∃ dt : Nat, 
    let d := (s.turn dt).dev
    
    let w := d.wave
    ∃ timing : FrameTiming, w.st ≠ .disabled ∧ d.port.vioValid = true ∧ w.marked = true ∧ (d.waveMaster = true ∧
        d.frameDue ≤ d.now ∨ d.waveMaster = false ∧ timing = .stable)) ∧
    (∃ s : State, ∃ dt : Nat, 
    let d := (s.turn dt).dev
    
    let w := d.wave
    w.st ≠ .disabled ∧ d.port.vioValid = true ∧ w.marked = true ∧ d.waveMaster = false ∧ w.missing = 0) ∧
    (∃ s : State, ∃ dt : Nat, 
    let d := (s.turn dt).dev
    
    let w := d.wave
    w.st ≠ .disabled ∧ d.port.vioValid = true ∧ w.marked = true ∧ d.waveMaster = false ∧ 1 ≤ w.missing ∧ d.ctl.por = false) ∧
    (∃ s : State, ∃ dt : Nat, 
    let d := (s.turn dt).dev
    
    let w := d.wave
    w.st ≠ .disabled ∧ d.port.vioValid = true ∧ w.marked = true ∧ d.waveMaster = false ∧ w.assumed = false ∧ w.missing = 0) ∧
    (∃ s : State, ∃ dt : Nat, 
    let d := (s.turn dt).dev
    
    let w := d.wave
    ∃ timing : FrameTiming, w.st ≠ .disabled ∧ d.port.vioValid = true ∧ w.marked = false ∧ (d.waveMaster = true ∧
        d.frameDue ≤ d.now ∨ d.waveMaster = false ∧ timing ≠ .missing)) ∧
    (∃ s : State, ∃ dt : Nat, 
    let d := (s.turn dt).dev
    
    let w := d.wave
    ∃ timing : FrameTiming, (w.st = .disabled ∨ d.port.vioValid = false ∨ d.waveMaster = true ∧ d.now < d.frameDue)) ∧
    (∃ s : State, ∃ dt : Nat, 
    let d := (s.turn dt).dev
    
    let w := d.wave
    ∃ k : Fin 16, ∃ word : Word, w.st ≠ .disabled ∧ w.st ≠ .lost ∧ w.marked = true ∧ d.port.vioValid = true ∧
        k.val < d.waveSlots ∧ d.isIn k = true ∧ (w.slots.get k).inFrame = none) ∧
    (∃ s : State, ∃ dt : Nat, 
    let d := (s.turn dt).dev
    
    let w := d.wave
    ∃ word : Word, w.st ≠ .disabled ∧ w.st ≠ .lost ∧ w.marked = true ∧ d.port.vioValid = true ∧ 0 < d.waveSlots ∧
        d.isIn 0 = true ∧ (w.slots.get 0).inFrame = none ∧ bit word 3 = true ∧ parityOk word = true ∧ w.frame ≠ 0) :=
  ⟨⟨(at_ fun d => { d with par := { d.par with live := [(0x3800, 0x81), (0x3801, 1)] }, wave := { d.wave with st := .running, marked := true, frame := 191 } }), 0, .stable, by and_intros <;> decide +kernel⟩,
    ⟨(at_ fun d => { d with par := { d.par with live := [(0x3800, 0x81), (0x3801, 1)] }, wave := { d.wave with st := .running, marked := true } }), 0, by and_intros <;> decide +kernel⟩,
    ⟨(at_ fun d => { d with par := { d.par with live := [(0x3800, 0x81), (0x3801, 1)] }, wave := { d.wave with st := .running, marked := true, missing := 1 } }), 0, by and_intros <;> decide +kernel⟩,
    ⟨(at_ fun d => { d with par := { d.par with live := [(0x3800, 0x81), (0x3801, 1)] }, wave := { d.wave with st := .running, marked := true } }), 0, by and_intros <;> decide +kernel⟩,
    ⟨(at_ fun d => { d with par := { d.par with live := [(0x3800, 0x81), (0x3801, 1)] }, wave := { d.wave with marked := false, st := .acquiring } }), 0, .misplaced, by and_intros <;> decide +kernel⟩,
    ⟨at_ id, 0, .missing, by decide +kernel⟩,
    ⟨(at_ fun d => { d with par := { d.par with live := [(0x3800, 0x81), (0x3801, 1)] }, wave := { d.wave with st := .running, marked := true } }), 0, 0, 0x80000000, by and_intros <;> decide +kernel⟩,
    ⟨(at_ fun d => { d with par := { d.par with live := [(0x3800, 0x81), (0x3801, 1)] }, wave := { d.wave with st := .running, marked := true, frame := 5 } }), 0, 0x00000009, by and_intros <;> decide +kernel⟩⟩

/-- The hypotheses of each clause of `Obligations.WaveLossAndFreezeAct` hold together. -/
theorem test_hyps_WaveLossAndFreezeAct :
    (∃ s : State, ∃ dt : Nat, 
    let d := (s.turn dt).dev
    
    let w := d.wave
    ∃ cause : WaveCause, (cause = .boundaries → w.missing = 1) ∧ (w.st = .running ∨ w.st = .acquiring) ∧
        d.waveMaster = false ∧ d.ctl.por = false) ∧
    (∃ s : State, ∃ dt : Nat, 
    let d := (s.turn dt).dev
    
    let w := d.wave
    ∃ cause : WaveCause, (d.waveMaster = true ∨ w.st = .disabled ∨ w.st = .lost ∨ cause = .boundaries ∧ w.missing ≠ 1)) ∧
    (∃ s : State, ∃ dt : Nat, 
    let d := (s.turn dt).dev
    
    let w := d.wave
    w.st = .acquiring ∧ w.marked = true ∧ w.blockAt = some d.now ∧ 192 ≤ w.stable ∧ d.ctl.por = false) ∧
    (∃ s : State, ∃ dt : Nat, 
    let d := (s.turn dt).dev
    
    let w := d.wave
    ∃ k : Fin 16, ∃ v : VoiceId, ∃ code : Nat, ∃ post : Nat, (w.slots.get k).counting = some (0, v, code, post) ∧
        d.ctl.por = false) :=
  ⟨⟨(at_ fun d => { d with par := { d.par with live := [(0x3800, 0x81), (0x3801, 1)] }, wave := { d.wave with st := .running, missing := 1 } }), 0, .boundaries, fun _ => by decide +kernel, by and_intros <;> decide +kernel⟩,
    ⟨at_ id, 0, .fast, by decide +kernel⟩,
    ⟨(at_ fun d => { d with par := { d.par with live := [(0x3800, 0x81), (0x3801, 1)] }, wave := { d.wave with marked := true, blockAt := some (2 ^ 44), stable := 192, st := .acquiring } }), 0, by and_intros <;> decide +kernel⟩,
    ⟨(at_ fun d => d.modSlot 9 fun x => { x with counting := some (0, 3, 1, 40) }), 0, 9, 3, 1, 40,
        by and_intros <;> decide +kernel⟩⟩

/-- The hypotheses of each clause of `Obligations.MeasuresAct` hold together. -/
theorem test_hyps_MeasuresAct :
    (∃ s : State, ∃ dt : Nat, 
    let d := (s.turn dt).dev
    
    let c := d.chain
    (d.atBoundary = false ∨ c.measuredAt = some d.now)) ∧
    (∃ s : State, ∃ dt : Nat, 
    let d := (s.turn dt).dev
    
    let c := d.chain
    d.chainLive = true ∧ d.atBoundary = true ∧ c.measuredAt ≠ some d.now ∧ c.head = true) ∧
    (∃ s : State, ∃ dt : Nat, 
    let d := (s.turn dt).dev
    
    let c := d.chain
    d.chainLive = true ∧ d.atBoundary = true ∧ c.measuredAt ≠ some d.now ∧ c.head = false) :=
  ⟨⟨(at_ fun d => { d with chain := { d.chain with head := true, measuredAt := some (2 ^ 44) } }), 0, by decide +kernel⟩,
    ⟨(at_ fun d => { d with chain := { d.chain with head := true } }), 0, by and_intros <;> decide +kernel⟩,
    ⟨(at_ fun d => { d with chain := { d.chain with head := false, addr := some 2 } }), 0, by and_intros <;> decide +kernel⟩⟩

/-- The hypotheses of each clause of `Obligations.DownstreamFramesAct` hold together. -/
theorem test_hyps_DownstreamFramesAct :
    (∃ s : State, ∃ dt : Nat, ∃ l : List Byte, 
    let d := (s.turn dt).dev
    
    let c := d.chain
    ∃ codes : Bool, d.chainLive = true ∧ c.head = false ∧ c.turned = false ∧ (c.ports.get 0).outOfService = false ∧
        d.expects 0 (d.now - downLen) = false) ∧
    (∃ s : State, ∃ dt : Nat, ∃ l : List Byte, 
    let d := (s.turn dt).dev
    
    let c := d.chain
    d.chainLive = true ∧ c.head = false ∧ c.turned = false ∧ (c.ports.get 0).outOfService = false ∧
        d.expects 0 (d.now - downLen) = true) ∧
    (∃ s : State, ∃ dt : Nat, ∃ l : List Byte, 
    let d := (s.turn dt).dev
    
    let c := d.chain
    
    let f := downOf l
    d.chainLive = true ∧ c.head = false ∧ c.turned = false ∧ (c.ports.get 0).outOfService = false ∧
        d.expects 0 (d.now - downLen) = true ∧ f.ok = true ∧ f.bar = false) ∧
    (∃ s : State, ∃ dt : Nat, ∃ l : List Byte, 
    let d := (s.turn dt).dev
    
    let c := d.chain
    
    let f := downOf l
    d.chainLive = true ∧ c.head = false ∧ c.turned = false ∧ (c.ports.get 0).outOfService = false ∧
        d.expects 0 (d.now - downLen) = true ∧ f.ok = false) ∧
    (∃ s : State, ∃ dt : Nat, ∃ l : List Byte, 
    let d := (s.turn dt).dev
    
    let c := d.chain
    
    let f := downOf l
    ∃ a : Nat, d.chainLive = true ∧ c.head = false ∧ c.turned = false ∧ (c.ports.get 0).outOfService = false ∧
        d.expects 0 (d.now - downLen) = true ∧ f.ok = true ∧ f.bar = true ∧ f.clrEnum = false ∧ f.enumerate = false ∧
        c.addr = some a ∧ f.hop + 1 = a ∧ (c.discarding = true ∨ ∃ n, c.downSeq = some n ∧ f.sseq ≠ n + 1)) :=
  ⟨⟨(at_ fun d => { d with chain := { d.chain with head := false, addr := some 2, ports := d.chain.ports.modify 0 fun p => { p with up := true } }, time := { d.time with now := 2 ^ 44 + 20000 } }), 0, (DownFrame.chars { ok := true, downbeat := false, bar := false, clrEnum := false, enumerate := false, hold := false, ring := false, mseq := 5, hop := 1, barNo := 9, cumlat := 700, ctbc := 2 ^ 44 - 13180, grants := [], sseq := 4, seg := [] }), true, by and_intros <;> decide +kernel⟩,
    ⟨(at_ fun d => { d with chain := { d.chain with head := false, addr := some 2, ports := d.chain.ports.modify 0 fun p => { p with up := true } }, time := { d.time with now := 2 ^ 44 + 12480 } }), 0, (DownFrame.chars { ok := true, downbeat := false, bar := false, clrEnum := false, enumerate := false, hold := false, ring := false, mseq := 5, hop := 1, barNo := 9, cumlat := 700, ctbc := 2 ^ 44 - 13180, grants := [], sseq := 4, seg := [] }), by and_intros <;> decide +kernel⟩,
    ⟨(at_ fun d => { d with chain := { d.chain with head := false, addr := some 2, ports := d.chain.ports.modify 0 fun p => { p with up := true } }, time := { d.time with now := 2 ^ 44 + 12480 } }), 0, (DownFrame.chars { ok := true, downbeat := false, bar := false, clrEnum := false, enumerate := false, hold := false, ring := false, mseq := 5, hop := 1, barNo := 9, cumlat := 700, ctbc := 2 ^ 44 - 13180, grants := [], sseq := 4, seg := [] }), by and_intros <;> decide +kernel⟩,
    ⟨(at_ fun d => { d with chain := { d.chain with head := false, addr := some 2 }, time := { d.time with now := 2 ^ 44 + 12480 } }), 0, (DownFrame.chars { ok := false, downbeat := false, bar := false, clrEnum := false, enumerate := false, hold := false, ring := false, mseq := 5, hop := 1, barNo := 9, cumlat := 700, ctbc := 2 ^ 44 - 13180, grants := [], sseq := 4, seg := [] }), by and_intros <;> decide +kernel⟩,
    ⟨(at_ fun d => { d with chain := { d.chain with head := false, addr := some 2, ports := d.chain.ports.modify 0 fun p => { p with up := true }, discarding := true }, time := { d.time with now := 2 ^ 44 + 12480 } }), 0, (DownFrame.chars { ok := true, downbeat := false, bar := true, clrEnum := false, enumerate := false, hold := false, ring := false, mseq := 5, hop := 1, barNo := 9, cumlat := 700, ctbc := 2 ^ 44 - 13180, grants := [], sseq := 4, seg := [] }), 2, by and_intros <;> decide +kernel⟩⟩

/-- The hypotheses of each clause of `Obligations.UpstreamFramesAct` hold together. -/
theorem test_hyps_UpstreamFramesAct :
    (∃ s : State, ∃ dt : Nat, ∃ start : Fin 8, ∃ l : List Byte, 
    let d := (s.turn dt).dev
    
    let c := d.chain
    
    let at_ := d.now - upLen + start.val
    
    let due := d.boundary + 56 * charPos + 360
    d.chainLive = true ∧ c.head = true ∧ (c.ports.get 1).outOfService = false ∧
        within2 at_ (due + 2 * (c.ports.get 1).delay) = false) ∧
    (∃ s : State, ∃ dt : Nat, ∃ start : Fin 8, ∃ l : List Byte, 
    let d := (s.turn dt).dev
    
    let c := d.chain
    d.chainLive = true ∧ c.head = true ∧ (c.ports.get 1).outOfService = false) ∧
    (∃ s : State, ∃ dt : Nat, ∃ start : Fin 8, ∃ l : List Byte, 
    let d := (s.turn dt).dev
    
    let c := d.chain
    
    let f := upOf l
    
    let at_ := d.now - upLen + start.val
    
    let due := d.boundary + 56 * charPos + 360
    d.chainLive = true ∧ c.head = true ∧ (c.ports.get 1).outOfService = false ∧
        within2 at_ (due + 2 * (c.ports.get 1).delay) = true ∧ f.ok = true) ∧
    (∃ s : State, ∃ dt : Nat, ∃ start : Fin 8, ∃ l : List Byte, 
    let d := (s.turn dt).dev
    
    let c := d.chain
    
    let f := upOf l
    
    let at_ := d.now - upLen + start.val
    
    let due := d.boundary + 56 * charPos + 360
    ∃ r : Reply, (∀ n, c.upSeq = some n → f.sseq = n + 1) ∧ d.chainLive = true ∧ c.head = true ∧
        (c.ports.get 1).outOfService = false ∧ within2 at_ (due + 2 * (c.ports.get 1).delay) = true ∧ f.ok = true ∧
        f.seg = r.bytes ∧ r.src < 128 ∧ r.data.length < 65536 ∧ c.partReply = []) ∧
    (∃ s : State, ∃ dt : Nat, ∃ start : Fin 8, ∃ l : List Byte, 
    let d := (s.turn dt).dev
    
    let c := d.chain
    
    let f := upOf l
    
    let at_ := d.now - upLen + start.val
    
    let due := d.boundary + 56 * charPos + 360
    d.chainLive = true ∧ c.head = true ∧ (c.ports.get 1).outOfService = false ∧
        within2 at_ (due + 2 * (c.ports.get 1).delay) = true ∧ f.ok = false) :=
  ⟨⟨(at_ fun d => { d with chain := { d.chain with head := true, enumerated := true, count := 3, upSeq := some 7 }, time := { d.time with now := 2 ^ 44 + 3000 } }), 0, 5, (UpFrame.chars { ok := true, reach := 2, sseq := 8, breath := [], seg := [] }), by and_intros <;> decide +kernel⟩,
    ⟨(at_ fun d => { d with chain := { d.chain with head := true, enumerated := true, count := 3, upSeq := some 7 }, time := { d.time with now := 2 ^ 44 + 22440 } }), 0, 5, (UpFrame.chars { ok := true, reach := 2, sseq := 8, breath := [], seg := [] }), by and_intros <;> decide +kernel⟩,
    ⟨(at_ fun d => { d with chain := { d.chain with head := true, enumerated := true, count := 3, upSeq := some 7 }, time := { d.time with now := 2 ^ 44 + 22440 } }), 0, 5, (UpFrame.chars { ok := true, reach := 2, sseq := 8, breath := [], seg := [] }), by and_intros <;> decide +kernel⟩,
    ⟨(at_ fun d => { d with chain := { d.chain with head := true, enumerated := true, count := 3, upSeq := some 7 }, time := { d.time with now := 2 ^ 44 + 22440 } }), 0, 5, (UpFrame.chars { ok := true, reach := 2, sseq := 8, breath := [], seg := Reply.bytes { src := 3, opc := 0, tag := 7, status := 0, data := [], settle := none } }), { src := 3, opc := 0, tag := 7, status := 0, data := [], settle := none }, by intro n h; cases h; decide +kernel, by and_intros <;> decide +kernel⟩,
    ⟨(at_ fun d => { d with chain := { d.chain with head := true, enumerated := true, count := 3, upSeq := some 7 }, time := { d.time with now := 2 ^ 44 + 22440 } }), 0, 5, (UpFrame.chars { ok := false, reach := 2, sseq := 8, breath := [], seg := [] }), by and_intros <;> decide +kernel⟩⟩

/-- The hypotheses of each clause of `Obligations.ChainLinkEventsAct` hold together. -/
theorem test_hyps_ChainLinkEventsAct :
    (∃ s : State, ∃ dt : Nat, ∃ beyond : Bool, 
    let d := (s.turn dt).dev
    
    let c := d.chain
    c.head = true ∧ c.enumLeft = some 0 ∧ c.enumEndAt ≤ d.now ∧ d.atBoundary = true) ∧
    (∃ s : State, ∃ dt : Nat, ∃ beyond : Bool, 
    let d := (s.turn dt).dev
    
    let c := d.chain
    (c.head = false ∨ c.enumLeft ≠ some 0 ∨ d.now < c.enumEndAt ∨ d.atBoundary = false)) ∧
    (∃ s : State, ∃ dt : Nat, ∃ beyond : Bool, 
    let d := (s.turn dt).dev
    
    let c := d.chain
    c.ring = .closing ∧ c.closingAt + 8 * 30720 ≤ d.now ∧ d.ctl.por = false ∧ 8 ≤ c.returned) ∧
    (∃ s : State, ∃ dt : Nat, ∃ beyond : Bool, 
    let d := (s.turn dt).dev
    
    let c := d.chain
    c.ring = .closing ∧ c.closingAt + 8 * 30720 ≤ d.now ∧ d.ctl.por = false ∧ c.returned < 8) ∧
    (∃ s : State, ∃ dt : Nat, ∃ beyond : Bool, 
    let d := (s.turn dt).dev
    
    let c := d.chain
    (c.ring ≠ .closing ∨ d.now < c.closingAt + 8 * 30720)) ∧
    (∃ s : State, ∃ dt : Nat, ∃ beyond : Bool, 
    let d := (s.turn dt).dev
    
    let c := d.chain
    ∃ p : AkPort, (c.ports.get (portNo p)).missRun < 4) ∧
    (∃ s : State, ∃ dt : Nat, ∃ beyond : Bool, 
    let d := (s.turn dt).dev
    
    let c := d.chain
    ∃ p : AkPort, 4 ≤ (c.ports.get (portNo p)).missRun ∧ ((c.ports.get (portNo p)).up = true ∨ c.head = true ∧ p = .a ∧
        c.ring = .closed)) ∧
    (∃ s : State, ∃ dt : Nat, ∃ beyond : Bool, 
    let d := (s.turn dt).dev
    
    let c := d.chain
    ∃ p : AkPort, ∃ r : CheckResult, (c.ports.get (portNo p)).checking = true ∧
        (c.ports.get (portNo p)).checkAt + 4 * 30720 ≤ d.now) :=
  ⟨⟨(at_ fun d => { d with chain := { d.chain with head := true, enumLeft := some 0, reachB := 62 } }), 0, true,
      by and_intros <;> decide +kernel⟩,
    ⟨(at_ fun d => { d with chain := { d.chain with head := true, enumLeft := some 0, enumEndAt := 2 ^ 44 + 30720, reachB := 3 } }), 0, false, by decide +kernel⟩,
    ⟨(at_ fun d => { d with chain := { d.chain with ring := .closing, returned := 8 } }), 0, false,
        by and_intros <;> decide +kernel⟩,
    ⟨(at_ fun d => { d with chain := { d.chain with ring := .closing, returned := 7 } }), 0, false,
        by and_intros <;> decide +kernel⟩,
    ⟨(at_ fun d => { d with chain := { d.chain with ring := .closing, closingAt := 2 ^ 44 } }), 0, false, by decide +kernel⟩,
    ⟨(at_ fun d => d.modPort 1 fun p => { p with missRun := 3, up := true }), 0, false, .b, by decide +kernel⟩,
    ⟨(at_ fun d => d.modPort 1 fun p => { p with missRun := 4, up := true }), 0, false, .b,
        by and_intros <;> decide +kernel⟩,
    ⟨(at_ fun d => d.modPort 1 fun p => { p with checking := true }), 0, false, .b, .failed,
        by and_intros <;> decide +kernel⟩⟩

/-- The hypotheses of each clause of `Obligations.ChainBreaksAct` hold together. -/
theorem test_hyps_ChainBreaksAct :
    (∃ s : State, ∃ dt : Nat, ∃ addr : Nat, 
    let d := (s.turn dt).dev
    
    let c := d.chain
    c.head = true ∧ c.enumerated = true ∧ 1 ≤ addr ∧ addr ≤ c.count ∧ addr ∉ c.unreachable ∧
        d.lastHeard addr + d.linkTime ≤ d.now) ∧
    (∃ s : State, ∃ dt : Nat, ∃ addr : Nat, 
    let d := (s.turn dt).dev
    
    let c := d.chain
    c.head = false ∧ c.addr = some addr ∧ c.linkTimeout = false ∧ d.chainLive = true ∧ d.deadFor d.linkTime = true) ∧
    (∃ s : State, ∃ dt : Nat, ∃ addr : Nat, 
    let d := (s.turn dt).dev
    
    let c := d.chain
    c.head = false ∧ c.addr = some addr ∧ c.linkTimeout = true ∧ d.ctl.mode = .fallback ∧ d.deadFor d.acapTime = true) ∧
    (∃ s : State, ∃ dt : Nat, ∃ addr : Nat, 
    let d := (s.turn dt).dev
    
    let c := d.chain
    c.head = true ∧ addr ≠ 0 ∧ d.lastHeard addr + 2 * d.linkTime ≤ d.now) :=
  ⟨⟨(at_ fun d => { d with chain := { d.chain with head := true, enumerated := true, count := 3, upSeq := some 7 } }), 0,
      3, by and_intros <;> decide +kernel⟩,
    ⟨(at_ fun d => { d with chain := { d.chain with head := false, addr := some 2, lastFrame := some 0 } }), 0, 2,
        by and_intros <;> decide +kernel⟩,
    ⟨(at_ fun d => { d with chain := { d.chain with head := false, addr := some 2, lastFrame := some 0, linkTimeout := true }, ctl := { d.ctl with mode := .fallback } }), 0, 2, by and_intros <;> decide +kernel⟩,
    ⟨(at_ fun d => { d with chain := { d.chain with head := true, enumerated := true, count := 3, upSeq := some 7 } }),
        0, 3, by and_intros <;> decide +kernel⟩⟩

/-- The hypotheses of each clause of `Obligations.RawOperationsEnd` hold together. -/
theorem test_hyps_RawOperationsEnd :
    (∃ s : State, ∃ dt : Nat, 
    let d := (s.turn dt).dev
    
    let o := d.nv.op
    o.busy = true ∧ o.kind = 1 ∧ o.total ≤ d.nv.wordsDone d.now) ∧
    (∃ s : State, ∃ dt : Nat, 
    let d := (s.turn dt).dev
    
    let o := d.nv.op
    ∃ k : Nat, o.busy = true ∧ o.kind = 1 ∧ k < o.total ∧ k < d.nv.wordsDone d.now ∧ d.ctl.por = false) ∧
    (∃ s : State, ∃ dt : Nat, 
    let d := (s.turn dt).dev
    
    let o := d.nv.op
    ∃ k : Fin 16, ∃ rest : List Nat, o.busy = true ∧ o.kind = 2 ∧ o.sectors = k.val :: rest ∧ d.nv.gcServed = true ∧
        o.startedAt ≤ d.now) ∧
    (∃ s : State, ∃ dt : Nat, 
    let d := (s.turn dt).dev
    
    let o := d.nv.op
    ∃ verified : Bool, o.busy = true ∧ o.kind = 2 ∧ (d.nv.gcServed = false ∨ d.now < o.startedAt)) :=
  ⟨⟨(at_ fun d => { d with nv := { d.nv with op := { d.nv.op with busy := true, kind := 1, addr := 0x1000, data := List.replicate 8 5, total := 1 } } }), 0, by and_intros <;> decide +kernel⟩,
    ⟨(at_ fun d => { d with nv := { d.nv with op := { d.nv.op with busy := true, kind := 1, addr := 0x1000, data := List.replicate 16 5, total := 2 } } }), 0, 1, by and_intros <;> decide +kernel⟩,
    ⟨(at_ fun d => { d with nv := { d.nv with op := { d.nv.op with busy := true, kind := 2, sectors := [4, 15] } } }), 0,
        4, [15], by and_intros <;> decide +kernel⟩,
    ⟨(at_ fun d => { d with nv := { d.nv with op := { d.nv.op with busy := true, kind := 2, sectors := [4, 15], startedAt := 2 ^ 44 + 1 } } }), 0, true, by and_intros <;> decide +kernel⟩⟩

/-- The hypotheses of each clause of `Obligations.RecordStoreEventsAct` hold together. -/
theorem test_hyps_RecordStoreEventsAct :
    (∃ s : State, ∃ dt : Nat, 
    let d := (s.turn dt).dev
    ∃ verified : Bool, d.flashStill = true) ∧
    (∃ s : State, ∃ dt : Nat, 
    let d := (s.turn dt).dev
    ∃ a : Append, ∃ k : Fin 16, d.nv.serving = some a ∧ d.flashStill = false ∧ d.nv.servedBy a ≤ d.now ∧
        d.nv.openSector = some k ∧ (d.nv.sectors.get k).used + a.size ≤ 8192) ∧
    (∃ s : State, ∃ dt : Nat, 
    let d := (s.turn dt).dev
    ∃ unit : Nat, ∃ start : Nat, ∃ after : Option Append, ∃ rest : List (Nat × Option Append × Nat), ∃ r : CheckResult,
        d.nv.checks = (unit, after, start) :: rest ∧ start + msec ≤ d.now) ∧
    (∃ s : State, ∃ dt : Nat, 
    let d := (s.turn dt).dev
    ∃ verified : Bool, ∃ k, d.nv.gc = none ∧ d.flashStill = false ∧ d.gcDue = true ∧ d.nv.victim = some k) ∧
    (∃ s : State, ∃ dt : Nat, 
    let d := (s.turn dt).dev
    ∃ verified : Bool, d.nv.gc = none ∧ d.flashStill = false ∧ (d.gcDue = false ∨ d.nv.victim = none)) ∧
    (∃ s : State, ∃ dt : Nat, 
    let d := (s.turn dt).dev
    ∃ g : GcRun, ∃ r : Rec, ∃ rest : List Rec, ∃ k : Fin 16, d.nv.gc = some g ∧ g.todo = r :: rest ∧
        d.flashStill = false ∧ d.nv.gcServed = true ∧ g.at_ + wordTime * (r.size / 8 - g.words) ≤ d.now ∧
        d.nv.openSector = some k ∧ (d.nv.sectors.get k).used + r.size ≤ 8192) ∧
    (∃ s : State, ∃ dt : Nat, 
    let d := (s.turn dt).dev
    ∃ g : GcRun, d.nv.gc = some g ∧ g.todo = [] ∧ d.flashStill = false ∧ d.nv.gcServed = true ∧ g.at_ ≤ d.now) ∧
    (∃ s : State, ∃ dt : Nat, 
    let d := (s.turn dt).dev
    d.ctl.liveAt.isSome = true ∧ d.nv.scanned = false) :=
  ⟨⟨(at_ fun d => { d with pd := { d.pd with floor := true }, nv := { d.nv with appends := [{ key := 0x8000, tomb := false, value := [1], rseq := 0, host := true, words := 0 }] } }), 0, true, by decide +kernel⟩,
    ⟨(at_ fun d => { d with nv := { d.nv with appends := [{ key := 0x8000, tomb := false, value := [1], rseq := 0, host := true, words := 0 }] } }), 0, _, 0, rfl, by and_intros <;> decide +kernel⟩,
    ⟨(at_ fun d => { d with nv := { d.nv with checks := [(0x83, none, 0)] } }), 0, _, _, _, _, .failed, rfl,
        by decide +kernel⟩,
    ⟨(at_ fun d => { d with nv := { d.nv with sectors := d.nv.sectors.modify 2 fun x => { x with st := .full, seq := 1 } }, par := { d.par with live := [(0x6000, 15)] } }), 0, true, 2, by and_intros <;> decide +kernel⟩,
    ⟨(at_ fun d => { d with nv := { d.nv with scanned := false } }), 0, true, by and_intros <;> decide +kernel⟩,
    ⟨(at_ fun d => { d with nv := { d.nv with gc := some { victim := 2, todo := [{ key := 0x8000, tomb := false, rseq := 3, value := [1], consumed := false, torn := false, cut := false, words := 3, bad := none }], words := 0, at_ := 5 } } }), 0, _, _, _, 0, rfl, rfl, by and_intros <;> decide +kernel⟩,
    ⟨(at_ fun d => { d with nv := { d.nv with gc := some { victim := 2, todo := [], words := 0, at_ := 5 } } }), 0, _,
        rfl, by and_intros <;> decide +kernel⟩,
    ⟨(at_ fun d => { d with nv := { d.nv with scanned := false } }), 0, by and_intros <;> decide +kernel⟩⟩

/-- The hypotheses of each clause of `Obligations.ConverterAndWaveCommandsComplete` hold together. -/
theorem test_hyps_ConverterAndWaveCommandsComplete :
    (∃ s : State, ∃ tag : Byte, ∃ e : Byte, ∃ ctrl : Byte, ∃ lo : Byte, ∃ hi : Byte, s.accepts 0x40 [e, ctrl, lo, hi] ∧
        e.toNat < 4 ∧ field [lo, hi] 0 2 ≤ 2034) ∧
    (∃ s : State, ∃ tag : Byte, ∃ m : Byte, s.accepts 0x41 [m] ∧ m ≠ 0) ∧
    (∃ s : State, ∃ tag : Byte, ∃ m : BitVec 4, s.accepts 0x42 (engineBytes m 1)) ∧
    (∃ s : State, ∃ tag : Byte, ∃ m : BitVec 4, s.accepts 0x42 (engineBytes m 2)) ∧
    (∃ s : State, ∃ tag : Byte, ∃ m : BitVec 4, s.accepts 0x42 (engineBytes m 3)) ∧
    (∃ s : State, ∃ dt : Nat, 
    let d := (s.turn dt).dev
    
    let w := d.wave
    ∃ cause : WaveCause, (w.st = .running ∨ w.st = .acquiring) ∧ d.waveMaster = false ∧ cause ≠ .boundaries) ∧
    (∃ s : State, ∃ dt : Nat, 
    let d := (s.turn dt).dev
    
    let w := d.wave
    w.st = .acquiring ∧ w.marked = true ∧ w.blockAt = some d.now ∧ 192 ≤ w.stable) ∧
    (∃ s : State, ∃ dt : Nat, 
    let d := (s.turn dt).dev
    
    let w := d.wave
    ∃ k : Fin 16, ∃ v code post, (w.slots.get k).counting = some (0, v, code, post)) :=
  ⟨⟨at_ id, 9, 3, 7, 0xF2, 7, ⟨by decide +kernel, _, rfl, by decide +kernel, by decide +kernel⟩,
      by and_intros <;> decide +kernel⟩,
    ⟨at_ id, 9, 15, ⟨by decide +kernel, _, rfl, by decide +kernel, by decide +kernel⟩, by decide +kernel⟩,
    ⟨at_ id, 9, 10, ⟨by decide +kernel, _, rfl, by decide +kernel, by decide +kernel⟩⟩,
    ⟨at_ id, 9, 10, ⟨by decide +kernel, _, rfl, by decide +kernel, by decide +kernel⟩⟩,
    ⟨at_ id, 9, 10, ⟨by decide +kernel, _, rfl, by decide +kernel, by decide +kernel⟩⟩,
    ⟨(at_ fun d => { d with par := { d.par with live := [(0x3800, 0x81), (0x3801, 1)] }, wave := { d.wave with st := .running, missing := 1 } }), 0, .fast, by and_intros <;> decide +kernel⟩,
    ⟨(at_ fun d => { d with par := { d.par with live := [(0x3800, 0x81), (0x3801, 1)] }, wave := { d.wave with marked := true, blockAt := some (2 ^ 44), stable := 192, st := .acquiring } }), 0, by and_intros <;> decide +kernel⟩,
    ⟨(at_ fun d => d.modSlot 9 fun x => { x with counting := some (0, 3, 1, 40) }), 0, 9, ⟨3, 1, 40, by decide +kernel⟩⟩⟩
end

/-! SUPPORT. O44: what the Score tells (publications), its silence, and the mailbox (01 R20, R36, R37, 15 R442, R443, R455). -/

namespace Sys2Proof.Machine
open Sys2Proof

/-! ### A publication -/

/-- A publication goes out only where 10 µs have passed since the last one. -/
theorem execScorePublication_due {s : State} {dt : Nat} (hp : (s.turn dt).dev.score.powered = true)
    (hr : (s.turn dt).dev.ctl.por = false) (ht : (s.turn dt).dev.link.publishedAt + 10 * usec ≤ (s.turn dt).dev.now) :
    exec (.scorePublication dt) s = .next (s.after dt fun _ => (s.turn dt).dev.publish) :=
  State.run_eq (by simp only [hp, hr, ht, Bool.not_false, decide_true, Bool.and_self, if_true])

/-- An answer that has come frees the mailbox for the next message. -/
theorem Dev.deliver_inFlight (d : Dev) (a : MailAnswer) (l : List MailAnswer) :
    (d.deliver (a :: l)).link.inFlight = none := by
  cases h : d.link.inFlight <;> simp [Dev.deliver, h]

/-- Full service resumes with a publication: the Score counts as present again (01 R37). -/
def Dev.heard (d : Dev) : Dev :=
  if d.ctl.scoreSilent then (d.setCtl fun c => { c with scoreSilent := false }).linkBack else d

/-- The events and the answers of a publication have reached the control die (15 R442, R455). -/
def Dev.told (d : Dev) : Dev := (d.heard.scoreEvents d.score).deliver d.score.answers

/-- A Score whose news has been published. -/
def Score.published (x : Score) : Score :=
  { x with answers := [], rejects := [], rollovers := [], legalEvents := [], jobEvents := [], markEvents := [], unpowered := none }

theorem Dev.publish_eq (d : Dev) :
    d.publish = { d.told with
      score := d.told.score.published
      link := { d.told.link with publication := some d.score.published, publishedAt := d.told.now } } := rfl

theorem Dev.heard_scoreSilent (d : Dev) : d.heard.ctl.scoreSilent = false := by
  unfold Dev.heard
  split
  · exact congrArg Control.scoreSilent
      ((Dev.linkBack_keeps (W := (· ≠ .ctl)) (by decide) (by decide) (.refl _)).frame .ctl (by decide))
  · next h => exact Bool.eq_false_iff.2 h

theorem Dev.told_keeps_heard (d : Dev) : d.told.Keeps (· ∈ [.port, .log, .link, .chain]) d.heard :=
  Dev.deliver_keeps (by decide) (by decide) (by decide) (Dev.scoreEvents_keeps (by decide) (by decide) (.refl _) _) _

theorem Dev.heard_keeps (d : Dev) : d.heard.Keeps (· ∈ [.ctl, .tally, .odo]) d := by
  unfold Dev.heard
  split
  · exact Dev.linkBack_keeps (by decide) (by decide) (Dev.setCtl_keeps (by decide) (.refl _) _)
  · exact .refl _

theorem Dev.told_scoreSilent (d : Dev) : d.told.ctl.scoreSilent = false :=
  (congrArg Control.scoreSilent (d.told_keeps_heard.frame .ctl (by decide))).trans d.heard_scoreSilent

theorem Dev.told_time (d : Dev) : d.told.time = d.time :=
  (d.told_keeps_heard.frame .time (by decide)).trans (d.heard_keeps.frame .time (by decide))

theorem Dev.told_inFlight {d : Dev} {a : MailAnswer} {l : List MailAnswer} (h : d.score.answers = a :: l) :
    d.told.link.inFlight = none := by
  unfold Dev.told
  rw [h]
  exact Dev.deliver_inFlight _ a l

/-! ### Silence -/

/-- Entering HALTED does not change what the control die holds of the Score's silence: the mode and its cause are all that
it changes in the control state (08 R241). -/
theorem Dev.enterHalted_scoreSilent (d : Dev) (cause detail : Nat) (hard : Bool) :
    (d.enterHalted cause detail hard).ctl.scoreSilent = d.ctl.scoreSilent := by
  unfold Dev.enterHalted
  split
  · rfl
  extract_lets d1 d2 d3 d4 _ d5
  have toHalted : d1.ctl.scoreSilent = d.ctl.scoreSilent := by simp [d1, Dev.toMode]
  have h2 : d2.Keeps (· ≠ .ctl) d1 :=
    Dev.stopWatchdog_keeps (by decide) (Dev.event_keeps (by decide) (by decide) (.refl _) _ _ _)
  have h3 : d3.Keeps (· ≠ .ctl) d1 := by
    apply Dev.cancelCues_keeps <;> first | decide | skip
    apply Dev.commandOff_keeps (by decide)
    refine Dev.forVoices_keeps (Dev.withdrawAll_keeps (by decide) (by decide) h2) (fun x hx v => ?_) _
    apply Dev.turnOff_keeps <;> first | decide | exact hx
  have h4 : d4.Keeps (· ≠ .ctl) d1 := by
    apply Dev.endRetries_keeps (by decide)
    apply Dev.endUnitChecks_keeps <;> first | decide | skip
    split
    · apply Dev.cutShort_keeps <;> first | decide | exact h3
    · apply Dev.abandonCheck_keeps <;> first | decide | exact h3
  have h5 : d5.Keeps (· ≠ .ctl) d1 := h4.voices_therm (by decide) (by decide) _ _
  have stopped : (((d5.engineStop).waveOff).rawStop true).Keeps (· ≠ .ctl) d1 := by
    apply Dev.rawStop_keeps <;> first | decide | skip
    apply Dev.waveOff_keeps <;> first | decide | skip
    apply Dev.engineStop_keeps <;> first | decide | exact h5
  exact (congrArg Control.scoreSilent (stopped.frame .ctl (by decide))).trans toHalted

theorem Dev.enterHalted_time (d : Dev) (cause detail : Nat) (hard : Bool) :
    (d.enterHalted cause detail hard).time = d.time := by
  have h : (d.enterHalted cause detail hard).Keeps (· ≠ .time) d := by
    apply Dev.enterHalted_keeps <;> first | decide | exact .refl _
  exact h.frame .time (by decide)

/-- The loss of the Score time base begins the 40 µs switch, whether or not it ends in HALTED (09 R255). -/
theorem Dev.loseTb_phase (d : Dev) (cause : Nat) : (d.loseTb cause).time.phase = .switching := by
  unfold Dev.loseTb
  extract_lets d1 d2
  have switching : d2.time.phase = .switching := congrArg TimeBase.phase (Dev.event_time ..)
  split
  · exact switching
  · rw [Dev.enterHalted_time, switching]

theorem Dev.loseTb_scoreSilent (d : Dev) (cause : Nat) : (d.loseTb cause).ctl.scoreSilent = d.ctl.scoreSilent := by
  unfold Dev.loseTb
  extract_lets d1 d2
  have same : d2.ctl.scoreSilent = d.ctl.scoreSilent := congrArg Control.scoreSilent (Dev.event_ctl ..)
  split
  · exact same
  · rw [Dev.enterHalted_scoreSilent, same]

/-- Without the timestamp link the odometer is unavailable (10 R285). -/
theorem Dev.linkDead_odo (d : Dev) : d.linkDead.odo.st = .unavailable := by
  unfold Dev.linkDead
  dsimp only
  split
  · assumption
  · rfl

theorem Dev.linkDead_frame (d : Dev) : d.linkDead.Keeps (· ∈ [.tally, .odo]) d :=
  Dev.linkDead_keeps (by decide) (by decide) (.refl _)

/-- The control die does without the Score: it holds the Score for silent, has no odometer, and is off the Score time base
(01 R37, log entry 123). -/
structure Dev.WithoutScore (d : Dev) : Prop where
  silent : d.ctl.scoreSilent = true
  odo : d.odo.st = .unavailable
  phase : d.time.phase ≠ .score

theorem Dev.scoreAbsent_withoutScore (d : Dev) : d.scoreAbsent.WithoutScore := by
  unfold Dev.scoreAbsent
  extract_lets d1
  have silent : d1.ctl.scoreSilent = true :=
    congrArg Control.scoreSilent ((Dev.linkDead_frame (d.setCtl _)).frame .ctl (by decide))
  have odo : d1.odo.st = .unavailable := Dev.linkDead_odo _
  split
  · have lost : (d1.loseTb 1).Keeps (· ≠ .odo) d1 := by
      apply Dev.loseTb_keeps <;> first | decide | exact .refl _
    exact ⟨(d1.loseTb_scoreSilent 1).trans silent, (congrArg Odometer.st (lost.frame .odo (by decide))).trans odo,
      by simp [Dev.loseTb_phase]⟩
  · next h => exact ⟨silent, odo, h⟩

theorem Dev.scoreAbsent_link (d : Dev) : d.scoreAbsent.link = d.link := by
  have h : d.scoreAbsent.Keeps (· ≠ .link) d := by
    apply Dev.scoreAbsent_keeps <;> first | decide | exact .refl _
  exact h.frame .link (by decide)

/-- Where the Score falls silent every message is answered, which moves replies alone, and none stays (15 R443). -/
theorem execScoreSilent_due {s : State} {dt : Nat} (hs : (s.turn dt).dev.ctl.scoreSilent = false)
    (hr : (s.turn dt).dev.ctl.por = false) (ht : (s.turn dt).dev.link.publishedAt + 100 * usec ≤ (s.turn dt).dev.now) :
    ∃ e : Dev, e.Keeps (· ∈ [.port, .chain]) (s.turn dt).dev.scoreAbsent ∧
      exec (.scoreSilent dt) s = .next (s.after dt fun _ => { e with link := { e.link with mailbox := [], inFlight := none } }) := by
  refine ⟨_, ?_, State.run_eq (by simp only [hs, hr, Nat.not_lt.2 ht]; rfl)⟩
  refine Dev.tellAll_keeps ?_ (fun x hx m => Dev.lateReply_keeps (by decide) (by decide) hx m _) _
  split
  · exact Dev.lateReply_keeps (by decide) (by decide) (.refl _) _ _
  · exact .refl _

/-! ### The mailbox -/

/-- A message rejected for its form is counted and told, and changes nothing else (01 R36, 15 R455). -/
theorem execMailboxMessage_rejected {s : State} {dt : Nat} {fate : MailboxFate} {r : Nat}
    (hp : (s.turn dt).dev.score.powered = true) (hr : rejectReason fate = some r) :
    exec (.mailboxMessage dt fate) s = .next (s.after dt fun _ => (s.turn dt).dev.setScore fun x =>
      { x with rejected := stick 32 (x.rejected + 1), rejects := x.rejects ++ [r] }) :=
  State.run_eq (by simp only [hp, hr]; rfl)

section
variable {s : State} {dt : Nat} {m : MailMsg} {rest : List MailMsg} (hp : (s.turn dt).dev.score.powered = true)
  (hm : (s.turn dt).dev.link.mailbox = m :: rest) (hf : (s.turn dt).dev.link.inFlight = none)
include hp hm hf

theorem execMailboxMessage_whole :
    exec (.mailboxMessage dt .whole) s = .next (s.after dt fun _ => (s.turn dt).dev.served m rest
      ((s.turn dt).dev.score.act (s.turn dt).dev.score.own m).1 ((s.turn dt).dev.score.act (s.turn dt).dev.score.own m).2) :=
  State.run_eq (by simp only [hp, hm, hf, rejectReason]; rfl)

theorem execMailboxMessage_powerCut (written : Nat) (logged : Bool) :
    exec (.mailboxMessage dt (.powerCut written logged)) s = .next (s.after dt fun _ => (s.turn dt).dev.servedCut m rest
      ((s.turn dt).dev.score.act (s.turn dt).dev.score.own m).1 written logged) :=
  State.run_eq (by simp only [hp, hm, hf, rejectReason]; rfl)

end

/-- A VX48-S serves no mailbox message (15 R442). -/
theorem Score.act_of_variant_s {x : Score} (h : x.variant = .s) (now : Nat) (m : MailMsg) :
    x.act now m = (x, fail stUnknown []) := by
  unfold Score.act
  rw [h]
  rfl

theorem Dev.served_score_of_variant_s {d : Dev} {m : MailMsg} {rest : List MailMsg} {y : Score} {a : Answer}
    (h : y.variant = .s) :
    (d.served m rest y a).score = { y with
      rejected := stick 32 (y.rejected + 1), rejects := y.rejects ++ [3]
      answers := y.answers ++ [{ opc := m.packet.opc, tag := m.packet.tag, status := a.status, data := a.data }] } := by
  simp only [Dev.served, h, if_true]

theorem Dev.served_score_of_variant_m {d : Dev} {m : MailMsg} {rest : List MailMsg} {y : Score} {a : Answer}
    (h : y.variant = .m) :
    (d.served m rest y a).score = { y with
      accepted := stick 32 (y.accepted + 1)
      answers := y.answers ++ [{ opc := m.packet.opc, tag := m.packet.tag, status := a.status, data := a.data }] } := by
  simp only [Dev.served, h, reduceCtorEq, if_false]

theorem Dev.servedCut_score (d : Dev) (m : MailMsg) (rest : List MailMsg) (y : Score) (written : Nat) (logged : Bool) :
    (d.servedCut m rest y written logged).score = (d.score.cutShort y written logged).unpowered_ :=
  (Dev.linkDead_frame _).frame .score (by decide)

theorem Dev.servedCut_link (d : Dev) (m : MailMsg) (rest : List MailMsg) (y : Score) (written : Nat) (logged : Bool) :
    (d.servedCut m rest y written logged).link = { d.link with mailbox := rest, inFlight := some m } :=
  (Dev.linkDead_frame _).frame .link (by decide)

end Sys2Proof.Machine

namespace Sys2Proof
open Machine

/-- Settles O44: a publication through `Dev.publish_eq`, silence through `Dev.WithoutScore`, and the mailbox by the fate of
the message and the variant of the Score. -/
theorem scoreLinkEventsAct : Obligations.ScoreLinkEventsAct := by
  intro s dt d
  refine ⟨fun hp hr ht => ?_, fun hs hr ht => ?_, fun m rest hp hm hf => ⟨fun written logged => ?_, ?_⟩, fun fate r hp hr => ?_⟩
  · refine ⟨_, execScorePublication_due hp hr ht, ?_⟩
    rw [State.after_ctl, State.after_link, State.after_score, Dev.publish_eq]
    exact ⟨d.told_scoreSilent, congrArg TimeBase.now d.told_time, rfl, rfl, fun a l h => Dev.told_inFlight h⟩
  · obtain ⟨e, keeps, runs⟩ := execScoreSilent_due hs hr ht
    obtain ⟨silent, odo, phase⟩ := d.scoreAbsent_withoutScore
    have ctl_same : e.ctl = d.scoreAbsent.ctl := keeps.frame .ctl (by decide)
    have odo_same : e.odo = d.scoreAbsent.odo := keeps.frame .odo (by decide)
    have time_same : e.time = d.scoreAbsent.time := keeps.frame .time (by decide)
    have link_same : e.link = d.link := (keeps.frame .link (by decide)).trans d.scoreAbsent_link
    refine ⟨_, runs, ?_⟩
    rw [State.after_ctl, State.after_link, State.after_odo, State.after_time, ctl_same, odo_same, time_same, link_same]
    exact ⟨silent, rfl, rfl, rfl, odo, phase⟩
  · refine ⟨_, execMailboxMessage_powerCut hp hm hf written logged, ?_⟩
    rw [State.after_score, State.after_link, Dev.servedCut_score, Dev.servedCut_link]
    exact ⟨rfl, rfl, rfl, rfl, rfl⟩
  · refine ⟨_, execMailboxMessage_whole hp hm hf, ?_⟩
    rw [State.after_score, State.after_link]
    refine ⟨rfl, rfl, fun _ => Dev.served_score_of_variant_m, fun hv => ?_⟩
    rw [Score.act_of_variant_s hv]
    exact Dev.served_score_of_variant_s hv
  · exact ⟨_, execMailboxMessage_rejected hp hr, State.after_score ..⟩

end Sys2Proof

/-! SUPPORT. O13, O14: the host port while slots pass, and the bar from CSN falling to CSN rising (03 R73 to R77, R88, R92, R97,
R98). -/

namespace Sys2Proof.Machine
open Sys2Proof

/-! ### What the end of a slot does to the host port: IRQN moves, and nothing else before the replies are settled -/

/-- The host port without IRQN and its news, which any event moves, and the place of the device in the chain. -/
def Dev.portCore (d : Dev) : HostPort × Bool × Option Nat :=
  ({ d.port with irqn := false, newsNow := false }, d.chain.head, d.chain.addr)

theorem Dev.Keeps.portCore {e d : Dev} (h : e.Keeps (fun p => p ≠ .port ∧ p ≠ .chain) d) :
    e.portCore = d.portCore := by
  have port_same : e.port = d.port := h.frame .port (by decide)
  have chain_same : e.chain = d.chain := h.frame .chain (by decide)
  rw [Dev.portCore, port_same, chain_same, Dev.portCore]

section
variable {d : Dev}

theorem Dev.foldl_portCore {α : Type} {f : Dev → α → Dev} (hf : ∀ x a, (f x a).portCore = x.portCore) (l : List α)
    (d : Dev) : (l.foldl f d).portCore = d.portCore := by
  induction l generalizing d with
  | nil => rfl
  | cons a l ih => exact (ih _).trans (hf d a)

theorem Dev.forVoices_portCore {f : Dev → VoiceId → Dev} (hf : ∀ x v, (f x v).portCore = x.portCore) (vs : List VoiceId)
    (d : Dev) : (d.forVoices vs f).portCore = d.portCore := Dev.foldl_portCore hf vs d

@[simp] theorem Dev.portCore_cues (x : CueQueue) : ({ d with cues := x } : Dev).portCore = d.portCore := rfl
@[simp] theorem Dev.portCore_odo (x : Odometer) : ({ d with odo := x } : Dev).portCore = d.portCore := rfl
@[simp] theorem Dev.portCore_slotOffs (x : Mask) : ({ d with slotOffs := x } : Dev).portCore = d.portCore := rfl
@[simp] theorem Dev.modVoice_portCore (v : VoiceId) (f : Voice → Voice) : (d.modVoice v f).portCore = d.portCore := rfl

/-- A change of voices alone. -/
@[simp] theorem Dev.forVoices_modVoice_portCore (vs : List VoiceId) (f : Dev → VoiceId → Voice → Voice) :
    (d.forVoices vs fun d v => d.modVoice v (f d v)).portCore = d.portCore :=
  Dev.forVoices_portCore (fun _ _ => Dev.modVoice_portCore _ _) vs d

@[simp] theorem Dev.modTally_portCore (i : Fin 8) (f : TallyInput → TallyInput) :
    (d.modTally i f).portCore = d.portCore := rfl
@[simp] theorem Dev.setCues_portCore (f : CueQueue → CueQueue) : (d.setCues f).portCore = d.portCore := rfl

@[simp] theorem Dev.event_portCore (code unit : Nat) (data : List Byte) :
    (d.event code unit data).portCore = d.portCore := by
  unfold Dev.event
  split <;> rfl

/-! ### Turn-offs, waits and tokens -/

@[simp] theorem Dev.lifetimeMax_portCore (v : VoiceId) : (d.lifetimeMax v).portCore = d.portCore := by
  unfold Dev.lifetimeMax
  dsimp only
  split <;> split <;> simp

@[simp] theorem Dev.returnDomain_portCore (n k : Nat) : (d.returnDomain n k).portCore = d.portCore := by
  unfold Dev.returnDomain
  split <;> rfl

@[simp] theorem Dev.returnTokens_portCore (v : VoiceId) : (d.returnTokens v).portCore = d.portCore := by
  unfold Dev.returnTokens
  dsimp only
  split <;> simp

@[simp] theorem Dev.withdraw_portCore (v : VoiceId) : (d.withdraw v).portCore = d.portCore := by
  unfold Dev.withdraw
  split <;> simp

@[simp] theorem Dev.turnOff_portCore (v : VoiceId) (why : OffWhy) : (d.turnOff v why).portCore = d.portCore := by
  unfold Dev.turnOff
  extract_lets why' d1 d2
  have ended : d2.portCore = d.portCore := by simp [d2, d1]
  split
  · split
    · split
      · exact ended
      · exact ended
    · exact ended
  · rfl

@[simp] theorem Dev.turnOffUnit_portCore (v : VoiceId) (why : OffWhy) : (d.turnOffUnit v why).portCore = d.portCore := by
  unfold Dev.turnOffUnit
  dsimp only
  split <;> simp [Dev.forVoices_portCore]

/-! ### Turn-ons -/

@[simp] theorem Dev.begin1_portCore (v : VoiceId) (w : Wait) (tokens : Bool) :
    (d.begin1 v w tokens).portCore = d.portCore := by
  unfold Dev.begin1
  extract_lets x h mode cold plan rampLen target dr pulsed therm lead life x1 d1 on
  have begun : d1.portCore = d.portCore := by simp [d1]
  split
  · split
    · exact begun
    · split <;> exact begun
  · exact begun

@[simp] theorem Dev.beginUnit_portCore (v : VoiceId) (w : Wait) : (d.beginUnit v w).portCore = d.portCore := by
  unfold Dev.beginUnit
  dsimp only
  split <;> simp [Dev.forVoices_portCore]

@[simp] theorem Dev.syncDomain_portCore : d.syncDomain.portCore = d.portCore := by
  unfold Dev.syncDomain
  split
  · rfl
  · exact Dev.returnDomain_portCore ..

@[simp] theorem Dev.granted_portCore (v : VoiceId) (w : Wait) : (d.granted v w).portCore = d.portCore := by
  unfold Dev.granted
  split <;> rfl

@[simp] theorem Dev.grant1_portCore (v : VoiceId) : (d.grant1 v).portCore = d.portCore := by
  unfold Dev.grant1
  split
  · rfl
  · extract_lets domain d1 chain d2 deadline
    have taken : d2.portCore = d.portCore := by
      simp only [d2]
      split <;> rfl
    split
    · exact Dev.granted_portCore ..
    · split
      · exact (Dev.granted_portCore ..).trans taken
      · split <;> rfl

@[simp] theorem Dev.raiseGate_portCore (v : VoiceId) : (d.raiseGate v).portCore = d.portCore :=
  Dev.Keeps.portCore (Dev.raiseGate_keeps (by decide) (.refl _) v)

theorem Dev.startRamp_portCore (acc : Dev × Bool) (v : VoiceId) : (Dev.startRamp acc v).1.portCore = acc.1.portCore := by
  unfold Dev.startRamp
  split
  next d blocked =>
    split
    · dsimp only
      split
      · simp
      · split
        · simp
        · split <;> simp
    · dsimp only
      split <;> simp

theorem Dev.foldl_startRamp_portCore (l : List VoiceId) (acc : Dev × Bool) :
    (l.foldl Dev.startRamp acc).1.portCore = acc.1.portCore := by
  induction l generalizing acc with
  | nil => rfl
  | cons v l ih => exact (ih _).trans (Dev.startRamp_portCore acc v)

@[simp] theorem Dev.grants_portCore : d.grants.portCore = d.portCore := by
  unfold Dev.grants
  dsimp only
  split
  · rfl
  · simp [Dev.foldl_startRamp_portCore, Dev.forVoices_portCore]

/-! ### What is asked of voices -/

@[simp] theorem Dev.endRetry_portCore (v : VoiceId) : (d.endRetry v).portCore = d.portCore :=
  Dev.Keeps.portCore (Dev.endRetry_keeps (by decide) (.refl _) v)

@[simp] theorem Dev.ask_portCore (v : VoiceId) (source : TurnOnSource) (profile prio : Nat) :
    (d.ask v source profile prio).portCore = d.portCore :=
  Dev.Keeps.portCore (Dev.ask_keeps (by decide) (.refl _) v source profile prio)

@[simp] theorem Dev.askOff_portCore (v : VoiceId) : (d.askOff v).portCore = d.portCore := by
  unfold Dev.askOff
  refine Dev.forVoices_portCore (fun d h => ?_) _ d
  extract_lets x d1 d2 cues d3
  have uncommanded : d1.portCore = d.portCore := by simp [d1]
  have settled : d3.portCore = d.portCore := by
    simp only [d3]
    split <;> simp [uncommanded]
  split
  · split
    · simp [d2, uncommanded]
    · split <;> simp [d2, uncommanded]
  · split
    · exact settled
    · split <;> exact settled

@[simp] theorem Dev.askOn_portCore (v : VoiceId) (source : TurnOnSource) (profile prio : Nat) :
    (d.askOn v source profile prio).portCore = d.portCore := by
  unfold Dev.askOn
  dsimp only
  split
  · simp
  · split <;> simp [Dev.forVoices_portCore]

@[simp] theorem Dev.lhWithhold_portCore (v : VoiceId) : (d.lhWithhold v).portCore = d.portCore := rfl

@[simp] theorem Dev.followLevel_portCore (v : VoiceId) : (d.followLevel v).portCore = d.portCore := by
  unfold Dev.followLevel
  split
  · rfl
  · dsimp only
    split
    · split
      · simp
      · split
        · split <;> simp
        · simp
        · rfl
    · split
      · split
        · rfl
        · split <;> simp
      · split <;> simp

@[simp] theorem Dev.followLevels_portCore : d.followLevels.portCore = d.portCore :=
  Dev.forVoices_portCore (fun _ => Dev.followLevel_portCore) _ d

@[simp] theorem Dev.followRetries_portCore : d.followRetries.portCore = d.portCore :=
  Dev.Keeps.portCore (Dev.followRetries_keeps (by decide) (.refl _))

/-! ### Cues -/

@[simp] theorem Dev.modCue_portCore (id : Word) (f : Cue → Cue) : (d.modCue id f).portCore = d.portCore := rfl

@[simp] theorem Dev.applyDuty_portCore (v : VoiceId) (duty : Nat) : (d.applyDuty v duty).portCore = d.portCore :=
  Dev.Keeps.portCore (Dev.applyDuty_keeps (by decide) (.refl _) v duty)

@[simp] theorem Dev.cueAct_portCore (c : Cue) (v : VoiceId) : (d.cueAct c v).portCore = d.portCore := by
  unfold Dev.cueAct
  split
  · simp
  · split <;> simp
  · simp

@[simp] theorem Dev.cueVoice_portCore (id : Word) (due : Bool) (v : VoiceId) :
    (d.cueVoice id due v).portCore = d.portCore := by
  unfold Dev.cueVoice
  split
  · rfl
  · dsimp only
    split
    · rfl
    · split
      · rfl
      · split
        · rfl
        · split <;> simp

@[simp] theorem Dev.cueEntry_portCore (id : Word) : (d.cueEntry id).portCore = d.portCore := by
  unfold Dev.cueEntry
  split
  · rfl
  · dsimp only
    split
    · rfl
    · simp [Dev.foldl_portCore]

@[simp] theorem Dev.cuesNow_portCore : d.cuesNow.portCore = d.portCore :=
  Dev.foldl_portCore (fun _ => Dev.cueEntry_portCore) _ d

@[simp] theorem Dev.completeCues_portCore : d.completeCues.portCore = d.portCore := rfl

/-! ### Edges -/

@[simp] theorem Dev.odoEdge_portCore (stamp : Int) : (d.odoEdge stamp).portCore = d.portCore := by
  unfold Dev.odoEdge
  dsimp only
  split
  · rfl
  · split <;> simp

@[simp] theorem Dev.groundReturn_portCore (i : Fin 8) (stamp period : Int) :
    (d.groundReturn i stamp period).portCore = d.portCore := by
  simp [Dev.groundReturn]

@[simp] theorem Dev.fifoPush_portCore (i : Fin 8) (e : FifoEntry) : (d.fifoPush i e).portCore = d.portCore := by
  unfold Dev.fifoPush
  dsimp only
  split
  · rfl
  · split <;> simp

@[simp] theorem Dev.countingEdge_portCore (i : Fin 8) (stamp : Int) : (d.countingEdge i stamp).portCore = d.portCore := by
  unfold Dev.countingEdge
  extract_lets x d1 d2
  have seen : d2.portCore = d.portCore := by
    simp only [d2, d1]
    split <;> simp
  split
  · split
    · split
      · exact seen
      · split
        · split <;> simp [seen]
        · exact seen
    · exact seen
  · split <;> simp [seen]

@[simp] theorem Dev.timestampEdge_portCore (i : Fin 8) (rising : Bool) (link : Int) :
    (d.timestampEdge i rising link).portCore = d.portCore := by
  unfold Dev.timestampEdge
  extract_lets stamp counting hold entry d1 d2 d3
  have counted : d2.portCore = d.portCore := by
    simp only [d2, d1]
    split <;> simp
  have queued : d3.portCore = d.portCore := by
    simp only [d3]
    split <;> simp [counted]
  split
  · exact queued
  · split <;> exact queued

@[simp] theorem Dev.takeEdges_portCore : d.takeEdges.portCore = d.portCore := by
  unfold Dev.takeEdges
  split
  extract_lets es d1 first rest
  have glitched : d1.portCore = d.portCore := Dev.foldl_portCore (fun _ _ => Dev.modTally_portCore _ _) _ _
  exact (Dev.foldl_portCore (fun _ _ => Dev.timestampEdge_portCore _ _ _) _ d1).trans glitched

/-! ### The end of a slot -/

@[simp] theorem Dev.lhMove_portCore (v : VoiceId) : (d.lhMove v).portCore = d.portCore :=
  Dev.Keeps.portCore (Dev.lhMove_keeps (by decide) (.refl _) v)

@[simp] theorem Dev.blipNext_portCore (l : List VoiceId) : (Dev.blipNext l d).portCore = d.portCore :=
  Dev.Keeps.portCore (Dev.blipNext_keeps (by decide) (by decide) (.refl _) l)

end

/-! ### The host port across the end of a slot -/

/-- What slots that pass leave of the host port as it stands: all but IRQN, the notes of the slot under way (01 R30) and the
reply queue. -/
def HostPort.standing (p : HostPort) : HostPort :=
  { p with irqn := false, newsNow := false, lostNow := false, replies := [] }

theorem Dev.standing_of_portCore {e d : Dev} (h : e.portCore = d.portCore) : e.port.standing = d.port.standing :=
  congrArg (HostPort.standing ·.1) h

theorem Dev.replies_of_portCore {e d : Dev} (h : e.portCore = d.portCore) : e.port.replies = d.port.replies :=
  congrArg (HostPort.replies ·.1) h

theorem Chain.pushReply_place (c : Chain) (l : List Byte) :
    (c.pushReply l).head = c.head ∧ (c.pushReply l).addr = c.addr := by
  unfold Chain.pushReply
  split
  · exact ⟨rfl, rfl⟩
  · split <;> exact ⟨rfl, rfl⟩

theorem Chain.foldl_pushReply_place (l : List (List Byte)) (c : Chain) :
    (l.foldl Chain.pushReply c).head = c.head ∧ (l.foldl Chain.pushReply c).addr = c.addr := by
  induction l generalizing c with
  | nil => exact ⟨rfl, rfl⟩
  | cons a l ih =>
    obtain ⟨head_same, addr_same⟩ := c.pushReply_place a
    exact ⟨(ih _).1.trans head_same, (ih _).2.trans addr_same⟩

theorem Dev.settleReplies_standing (d : Dev) : d.settleReplies.port.standing = d.port.standing := rfl

/-- A queue in which every VOICE_SET reply is settled stays as it is. -/
theorem Dev.settleReplies_replies {d : Dev} (h : ∀ r ∈ d.port.replies, r.settle = none) :
    d.settleReplies.port.replies = d.port.replies :=
  (List.map_congr_left fun r hr => by rw [h r hr]).trans (List.map_id' _)

/-- The end of a slot settles the replies; what it does before moves nothing of the port but IRQN. -/
theorem Dev.endSlot_settles (d : Dev) : ∃ e : Dev, e.portCore = d.portCore ∧ d.endSlot = e.settleReplies := by
  refine ⟨_, ?_, rfl⟩
  rw [Dev.completeCues_portCore, Dev.grants_portCore, Dev.blipNext_portCore]
  refine (Dev.forVoices_portCore (fun x v => ?_) _ d.levelsAndCues.followRetries).trans ?_
  · rw [Dev.turnOffUnit_portCore, Dev.lhMove_portCore]
  · rw [Dev.followRetries_portCore, Dev.levelsAndCues, Dev.cuesNow_portCore, Dev.followLevels_portCore,
      Dev.takeEdges_portCore]

theorem Dev.slotBegins_now (d : Dev) (n : Nat) :
    ((d.advance n).holdCount.newSlot).now = d.now + 8 * n := by
  unfold Dev.holdCount
  split <;> rfl

/-- `e` is `d` some slots later, as far as the host port and what it rests on go: its queue changes only where a VOICE_SET
reply is settled (05 R152). -/
structure Dev.SlotsPassed (e d : Dev) : Prop where
  standing : e.port.standing = d.port.standing
  replies : (∀ r ∈ d.port.replies, r.settle = none) → e.port.replies = d.port.replies
  head : e.chain.head = d.chain.head
  addr : e.chain.addr = d.chain.addr
  ctl : e.ctl = d.ctl
  par : e.par = d.par

theorem Dev.SlotsPassed.refl (d : Dev) : d.SlotsPassed d := ⟨rfl, fun _ => rfl, rfl, rfl, rfl, rfl⟩

theorem Dev.endSlot_passed (d : Dev) : d.endSlot.SlotsPassed d := by
  have same : d.endSlot.Keeps (fun p => p ≠ .ctl ∧ p ≠ .par) d := by
    apply Dev.endSlot_keeps <;> first | decide | exact .refl _
  obtain ⟨e, core, ends⟩ := d.endSlot_settles
  have replies_same := Dev.replies_of_portCore core
  obtain ⟨head_same, addr_same⟩ :
      e.settleReplies.chain.head = e.chain.head ∧ e.settleReplies.chain.addr = e.chain.addr :=
    Chain.foldl_pushReply_place _ _
  refine ⟨?_, fun h => ?_, ?_, ?_, same.frame .ctl (by decide), same.frame .par (by decide)⟩ <;> rw [ends]
  · exact (Dev.settleReplies_standing e).trans (Dev.standing_of_portCore core)
  · exact (Dev.settleReplies_replies (replies_same ▸ h)).trans replies_same
  · exact head_same.trans (congrArg (·.2.1) core)
  · exact addr_same.trans (congrArg (·.2.2) core)

theorem Dev.endSlot_now (d : Dev) : d.endSlot.now = d.now := by
  have same : d.endSlot.Keeps (· ≠ .time) d := by
    apply Dev.endSlot_keeps <;> first | decide | exact .refl _
  exact congrArg TimeBase.now (same.frame .time (by decide))

theorem Dev.slotBegins_passed (d : Dev) (n : Nat) : ((d.advance n).holdCount.newSlot).SlotsPassed d := by
  unfold Dev.holdCount
  split <;> exact ⟨rfl, fun _ => rfl, rfl, rfl, rfl, rfl⟩

theorem Dev.tellNews_passed (d d0 prev : Dev) : (d.tellNews d0 prev).SlotsPassed d := by
  obtain ⟨b, n, told⟩ := d.tellNews_eq d0 prev
  rw [told]
  exact ⟨rfl, fun _ => rfl, rfl, rfl, rfl, rfl⟩

theorem Dev.SlotsPassed.trans {a b c : Dev} (h : a.SlotsPassed b) (k : b.SlotsPassed c) : a.SlotsPassed c where
  standing := h.standing.trans k.standing
  replies settled := (h.replies (k.replies settled ▸ settled)).trans (k.replies settled)
  head := h.head.trans k.head
  addr := h.addr.trans k.addr
  ctl := h.ctl.trans k.ctl
  par := h.par.trans k.par

/-- The device that ends its slot: the one that stands, its edges ripe where more than one slot passes. -/
theorem State.turn_dev (s : State) {n : Nat} (hn : n ≠ 0) :
    ∃ es, (s.turn n).dev =
      (((({ s.dev with edges := es } : Dev).endSlot.tellNews s.dev s.snap).advance n).holdCount.newSlot) := by
  unfold State.turn
  simp only [hn, if_false]
  split
  · exact ⟨s.dev.edges, rfl⟩
  · exact ⟨_, rfl⟩

theorem State.turn_passed (s : State) (n : Nat) : (s.turn n).dev.SlotsPassed s.dev := by
  by_cases hn : n = 0
  · subst hn
    exact .refl _
  · obtain ⟨es, turned⟩ := s.turn_dev hn
    have ended : ({ s.dev with edges := es } : Dev).endSlot.SlotsPassed s.dev :=
      (Dev.endSlot_passed _).trans ⟨rfl, fun _ => rfl, rfl, rfl, rfl, rfl⟩
    rw [turned]
    exact ((Dev.slotBegins_passed _ n).trans (Dev.tellNews_passed _ _ _)).trans ended

theorem State.turn_now (s : State) (n : Nat) : (s.turn n).dev.now = s.dev.now + 8 * n := by
  by_cases hn : n = 0
  · subst hn
    rfl
  · obtain ⟨es, turned⟩ := s.turn_dev hn
    obtain ⟨b, c, told⟩ := ({ s.dev with edges := es } : Dev).endSlot.tellNews_eq s.dev s.snap
    rw [turned, Dev.slotBegins_now, told]
    exact congrArg (· + 8 * n) (Dev.endSlot_now _)

theorem State.after_standing (s : State) (n : Nat) (f : Dev → Dev) :
    (s.after n f).dev.port.standing = (f (s.turn n).dev).port.standing := by
  obtain ⟨b, c, h⟩ := s.after_port n f
  rw [h]
  rfl

/-- Outside STARTING a command leaves the snapshot to the next bar. -/
theorem State.after_snap {s : State} {n : Nat} {f : Dev → Dev} (h : (f (s.turn n).dev).ctl.mode ≠ .starting) :
    (s.after n f).snap = s.snap := by
  have mode_same : (s.after n f).dev.ctl.mode ≠ .starting := by rwa [State.after_ctl]
  exact (if_neg mode_same).trans (s.turn_snap n)

/-! ### The time of a bar with CSN low -/

/-- The watchdog expires before CSN rises, `low` slots from now (03 R98). -/
def State.ExpiresLow (s : State) (low : Nat) : Prop :=
  s.dev.ctl.mode = .conducted ∧ ∃ w, s.dev.port.watchdog = some w ∧ w < s.dev.now + 8 * low

theorem State.whileLow_of_not_expiresLow {s : State} {low : Nat} (h : ¬ s.ExpiresLow low) : s.whileLow low = (s, low) := by
  unfold State.whileLow
  split
  next w hw =>
    have late : ¬ (s.dev.ctl.mode = .conducted ∧ w < s.dev.now + 8 * low) := fun k => h ⟨k.1, w, hw, k.2⟩
    simp [late]
  · rfl

/-- A watchdog that expires while CSN is low does so in its own slot. -/
theorem State.whileLow_of_expiresLow {s : State} {low : Nat} (h : s.ExpiresLow low) :
    ∃ k left w, s.whileLow low = (s.after k Dev.watchdogExpire, left) ∧ s.dev.port.watchdog = some w ∧
      w ≤ s.dev.now + 8 * k := by
  obtain ⟨conducted, w, hw, before⟩ := h
  refine ⟨(w - s.dev.now + 7) / 8, low - (w - s.dev.now + 7) / 8, w, ?_, hw, by omega⟩
  simp only [State.whileLow, hw, conducted, before]
  rfl

theorem Dev.toMode_standing (d : Dev) (m : Mode) (cause : Nat) : (d.toMode m cause).port.standing = d.port.standing :=
  Dev.standing_of_portCore (Dev.event_portCore ..)

/-- The entry to FALLBACK stops the watchdog and moves nothing else of the port that stands (08 R241). -/
theorem Dev.enterFallback_effect (d : Dev) (cause : Nat) :
    (d.enterFallback cause).port.standing = { d.port.standing with watchdog := none } ∧
      (d.enterFallback cause).ctl.mode = .fallback := by
  let entered := (d.toMode .fallback cause).stopWatchdog
  have rest : (d.enterFallback cause).Keeps (fun p => p ≠ .port ∧ p ≠ .ctl) entered := by
    refine Dev.forVoices_keeps ?_ (fun x hx v => ?_) _
    · exact Dev.withdrawAll_keeps (by decide) (by decide) (Dev.cancelCues_keeps (by decide) (.refl _))
    · apply Dev.fallbackVoice_keeps <;> first | decide | exact hx
  have port_same : (d.enterFallback cause).port = entered.port := rest.frame .port (by decide)
  have ctl_same : (d.enterFallback cause).ctl = entered.ctl := rest.frame .ctl (by decide)
  rw [port_same, ctl_same]
  exact ⟨congrArg ({ · with watchdog := none }) (d.toMode_standing .fallback cause),
    by simp [entered, Dev.toMode, Dev.stopWatchdog, Dev.setPort]⟩

theorem Dev.watchdogExpire_due {d : Dev} {w : Nat} (hw : d.port.watchdog = some w) (hm : d.ctl.mode = .conducted)
    (due : w ≤ d.now) :
    d.watchdogExpire.port.standing = { d.port.standing with watchdog := none } ∧ d.watchdogExpire.ctl.mode = .fallback := by
  have expires : d.watchdogExpire = (d.event 0x0004 0xFF (leBytes 2 d.tWd)).enterFallback 1 := by
    simp [Dev.watchdogExpire, hw, hm, due]
  obtain ⟨port, mode⟩ := Dev.enterFallback_effect (d.event 0x0004 0xFF (leBytes 2 d.tWd)) 1
  rw [expires]
  exact ⟨port.trans (congrArg ({ · with watchdog := none }) (Dev.standing_of_portCore (Dev.event_portCore ..))), mode⟩

/-- The state in which CSN rises, whether or not the watchdog has expired meanwhile. -/
def State.risen (s : State) (low : Nat) : State := (s.whileLow low).1.turn (s.whileLow low).2

theorem State.risen_of_not_expiresLow {s : State} {low : Nat} (h : ¬ s.ExpiresLow low) :
    (s.risen low).dev.SlotsPassed s.dev := by
  rw [State.risen, State.whileLow_of_not_expiresLow h]
  exact s.turn_passed low

theorem State.risen_of_expiresLow {s : State} {low : Nat} (h : s.ExpiresLow low) :
    (s.risen low).dev.port.standing = { s.dev.port.standing with watchdog := none } ∧
      (s.risen low).dev.ctl.mode = .fallback := by
  obtain ⟨k, left, w, passes, hw, reached⟩ := State.whileLow_of_expiresLow h
  have met := s.turn_passed k
  have watchdog_same : (s.turn k).dev.port.watchdog = some w := (congrArg HostPort.watchdog met.standing).trans hw
  have mode_same : (s.turn k).dev.ctl.mode = .conducted := (congrArg Control.mode met.ctl).trans h.1
  obtain ⟨port, mode⟩ := Dev.watchdogExpire_due watchdog_same mode_same (by rw [s.turn_now]; exact reached)
  have rose := (s.after k Dev.watchdogExpire).turn_passed left
  rw [State.risen, passes]
  constructor
  · rw [rose.standing, State.after_standing, port, met.standing]
  · rw [rose.ctl, State.after_ctl, mode]

/-- The time of a bar that the device ignores moves nothing of the port that stands but the watchdog. -/
theorem State.risen_standing (s : State) (low : Nat) :
    ∃ wd, (s.risen low).dev.port.standing = { s.dev.port.standing with watchdog := wd } := by
  by_cases h : s.ExpiresLow low
  · exact ⟨_, (State.risen_of_expiresLow h).1⟩
  · exact ⟨_, (State.risen_of_not_expiresLow h).standing⟩

/-! ### A bar that the device ignores -/

/-- A commit edge acts before the bar only where its time has come. -/
theorem State.beforeBar_of_not_due {s : State} {dt : Nat}
    (h : (s.turn dt).dev.port.commit = none ∨ (s.turn dt).dev.now < (s.turn dt).dev.port.quietUntil) :
    s.beforeBar dt = s.turn dt := by
  unfold State.beforeBar
  refine if_neg fun due => ?_
  simp only [Bool.and_eq_true, decide_eq_true_eq] at due
  obtain ⟨awaits, reached⟩ := due
  obtain no_commit | quiet := h
  · simp [no_commit] at awaits
  · omega

/-- The port counts an early bar, and stays silent (03 R88). -/
def HostPort.tooEarly (p : HostPort) : HostPort := { p with early := min (p.early + 1) 15, sdo := none }

section
variable {s : State} {dt low : Nat} {sdi : List Byte} {bits : Fin 8} {cut : Bool}

theorem execBar_closed (h : (s.beforeBar dt).dev.port.isOpen = false) :
    exec (.bar dt low sdi bits cut) s =
      .next (((s.beforeBar dt).whileLow low).1.after ((s.beforeBar dt).whileLow low).2 id) := by
  show execBar dt low sdi bits cut s = _
  simp only [execBar, h, Bool.not_false, if_true]
  rfl

theorem execBar_early (ho : (s.beforeBar dt).dev.port.isOpen = true)
    (hq : (s.beforeBar dt).dev.now < (s.beforeBar dt).dev.port.quietUntil) :
    exec (.bar dt low sdi bits cut) s =
      .next (((s.beforeBar dt).whileLow low).1.after ((s.beforeBar dt).whileLow low).2 fun d =>
        d.setPort HostPort.tooEarly) := by
  show execBar dt low sdi bits cut s = _
  simp only [execBar, ho, hq, Bool.not_true, Bool.false_eq_true, if_false, if_true]
  rfl

end

/-! ### CSN rises on an accepted bar -/

/-- The bar is valid: its opener and its length pass (03 R73, R77). -/
def barValid (sdi : List Byte) (extra : Nat) : Bool := openerOk sdi && !lengthBad sdi extra

theorem openerOk_iff (sdi : List Byte) :
    openerOk sdi = true ↔ 6 ≤ sdi.length ∧ byteAt sdi 0 = 0xC3 ∧ byteAt sdi 1 = 1 ∧ plenOf sdi ≤ 8186 ∧
      field sdi 4 2 = crc16 (sdi.take 4) := by
  simp [openerOk, and_assoc]

theorem lengthBad_eq_false_iff (sdi : List Byte) (extra : Nat) :
    lengthBad sdi extra = false ↔ extra = 0 ∧ 20 ≤ sdi.length ∧ sdi.length ≤ 8192 ∧
      (openerOk sdi = true → 6 + plenOf sdi ≤ sdi.length) := by
  simp [lengthBad, and_assoc]

theorem barValid_iff (sdi : List Byte) (extra : Nat) :
    barValid sdi extra = true ↔ openerOk sdi = true ∧ lengthBad sdi extra = false := by
  simp [barValid]

/-- A good opener states a PLEN that counts in t_CMT (03 R87). -/
theorem tCmt_of_openerOk {sdi : List Byte} (h : openerOk sdi = true) : tCmt sdi = 2 * usec + 30 * plenOf sdi := by
  obtain ⟨long, -, -, fits, -⟩ := (openerOk_iff sdi).1 h
  have counted : 4 ≤ sdi.length := by omega
  simp [tCmt, counted, fits]

/-- A valid bar restarts the watchdog of a conducted device that is no chain device (03 R97, 16 R472). -/
def Dev.barRestarts (d : Dev) : Bool := d.ctl.mode = .conducted && (d.chain.head || d.chain.addr.isNone)

/-- The port as CSN rises on any bar: what the next header tells of it (03 R73, R77, R88). -/
def HostPort.judge (p : HostPort) (sdi : List Byte) (extra now : Nat) : HostPort :=
  { p with
    prevValid := barValid sdi extra, openerBad := !openerOk sdi, lengthBad := Machine.lengthBad sdi extra
    quietUntil := now + tCmt sdi }

/-- The port as CSN rises on a valid bar: its replies are released and its commit edge is awaited (03 R87, R92). -/
def HostPort.accept (p : HostPort) (shown : List Reply) (sdi : List Byte) : HostPort :=
  { p with
    replies := dropShown shown (clockedOut shown 24 sdi.length) p.replies
    commit := some { area := (sdi.drop 6).take (plenOf sdi), barNo := (p.barNo + 65535) % 65536 } }

theorem Dev.settleBar_eq (d : Dev) (shown : List Reply) (sdi : List Byte) (extra : Nat) :
    d.settleBar shown sdi extra =
      if barValid sdi extra then
        if d.barRestarts then (d.setPort fun p => (p.judge sdi extra d.now).accept shown sdi).startWatchdog
        else d.setPort fun p => (p.judge sdi extra d.now).accept shown sdi
      else d.setPort fun p => p.judge sdi extra d.now := rfl

theorem Dev.settleBar_port_of_invalid {sdi : List Byte} {extra : Nat} (h : barValid sdi extra = false) (d : Dev)
    (shown : List Reply) : (d.settleBar shown sdi extra).port = d.port.judge sdi extra d.now := by
  rw [Dev.settleBar_eq, h]
  rfl

theorem Dev.settleBar_port_of_valid {sdi : List Byte} {extra : Nat} (h : barValid sdi extra = true) (d : Dev)
    (shown : List Reply) :
    (d.settleBar shown sdi extra).port = { (d.port.judge sdi extra d.now).accept shown sdi with
      watchdog := if d.barRestarts then some (d.now + d.tWd * msec) else d.port.watchdog } := by
  rw [Dev.settleBar_eq, h]
  cases d.barRestarts <;> rfl

/-! ### An accepted bar -/

/-- The state in which CSN has fallen on an accepted bar of `n` bytes (03 R74, R79). -/
def State.fallen (s : State) (dt n : Nat) : State :=
  { s.turn dt with
    dev := (s.turn dt).dev.setPort fun p => p.fall (s.turn dt).slot.port ((s.turn dt).slot.sdoBytes s.snap n)
    snap := (s.turn dt).slot }

theorem State.shown_of_no_commit {s : State} {dt : Nat} (h : (s.turn dt).dev.port.commit = none) :
    s.shown dt = (s.turn dt).slot := by
  simp [State.shown, h]

/-- A bar that finds the port open, no commit edge to come and CSN high long enough is accepted. -/
theorem execBar_accepted {s : State} {dt low : Nat} {sdi : List Byte} (bits : Fin 8)
    (isOpen : (s.turn dt).dev.port.isOpen = true) (no_commit : (s.turn dt).dev.port.commit = none)
    (quiet : (s.turn dt).dev.port.quietUntil ≤ (s.turn dt).dev.now) (calm : ¬ (s.fallen dt sdi.length).ExpiresLow low) :
    exec (.bar dt low sdi bits false) s =
      .next ((s.fallen dt sdi.length).after low fun d => d.settleBar (s.turn dt).slot.port.replies sdi bits.val) := by
  have before : s.beforeBar dt = s.turn dt := State.beforeBar_of_not_due (.inl no_commit)
  have waits := State.whileLow_of_not_expiresLow calm
  rw [State.fallen] at waits
  show execBar dt low sdi bits false s = _
  simp only [execBar, before, isOpen, Bool.not_true, Bool.false_eq_true, if_false, Nat.not_lt.2 quiet,
    State.shown_of_no_commit no_commit, State.turn_snap, waits]
  rfl

theorem Dev.settleBar_ctl (d : Dev) (shown : List Reply) (sdi : List Byte) (extra : Nat) :
    (d.settleBar shown sdi extra).ctl = d.ctl :=
  (Dev.settleBar_keeps (W := (· = .port)) rfl (.refl d) shown sdi extra).frame .ctl (by decide)

theorem Dev.SlotsPassed.barRestarts {e d : Dev} (h : e.SlotsPassed d) : e.barRestarts = d.barRestarts := by
  rw [Dev.barRestarts, h.ctl, h.head, h.addr, Dev.barRestarts]

theorem Dev.SlotsPassed.tWd {e d : Dev} (h : e.SlotsPassed d) : e.tWd = d.tWd :=
  congrArg (fun par : ParamSpace => bits (wordGet par.live 0) 0 16) h.par

/-- What CSN rising tells of a bar, valid or not: of the rest of the port it may move the replies, the bar that awaits its
commit edge and the watchdog. -/
theorem Dev.settleBar_judges (d : Dev) (shown : List Reply) (sdi : List Byte) (extra : Nat) :
    ∃ c w, (d.settleBar shown sdi extra).port.standing =
      { d.port.standing.judge sdi extra d.now with commit := c, watchdog := w } := by
  cases h : barValid sdi extra
  · rw [Dev.settleBar_port_of_invalid h]
    exact ⟨_, _, rfl⟩
  · rw [Dev.settleBar_port_of_valid h]
    exact ⟨_, _, rfl⟩

/-- CSN rises, `low` slots after it fell, on a bar that showed the replies `shown`. -/
def State.rise (s : State) (low : Nat) (shown : List Reply) (sdi : List Byte) (extra : Nat) : State :=
  s.after low fun d => d.settleBar shown sdi extra

section
variable (s : State) (low : Nat) (shown : List Reply) (sdi : List Byte) (extra : Nat)

theorem State.rise_standing :
    (s.rise low shown sdi extra).dev.port.standing = ((s.turn low).dev.settleBar shown sdi extra).port.standing :=
  State.after_standing ..

theorem State.rise_snap (h : s.dev.ctl.mode ≠ .starting) : (s.rise low shown sdi extra).snap = s.snap := by
  have ctl_same : ((s.turn low).dev.settleBar shown sdi extra).ctl = s.dev.ctl :=
    (Dev.settleBar_ctl ..).trans (s.turn_passed low).ctl
  exact State.after_snap (f := fun d => d.settleBar shown sdi extra) (ctl_same ▸ h)

theorem State.rise_judges :
    ∃ c w, (s.rise low shown sdi extra).dev.port.standing =
      { s.dev.port.standing.judge sdi extra (s.turn low).dev.now with commit := c, watchdog := w } := by
  rw [State.rise_standing, ← (s.turn_passed low).standing]
  exact Dev.settleBar_judges ..

variable {sdi extra}

theorem State.rise_of_invalid (h : barValid sdi extra = false) :
    (s.rise low shown sdi extra).dev.port.commit = s.dev.port.commit ∧
      (s.rise low shown sdi extra).dev.port.watchdog = s.dev.port.watchdog := by
  have settled := s.rise_standing low shown sdi extra
  rw [Dev.settleBar_port_of_invalid h] at settled
  have passed := (s.turn_passed low).standing
  exact ⟨(congrArg HostPort.commit settled :).trans (congrArg HostPort.commit passed :),
    (congrArg HostPort.watchdog settled :).trans (congrArg HostPort.watchdog passed :)⟩

theorem State.rise_of_valid (h : barValid sdi extra = true) :
    (s.rise low shown sdi extra).dev.port.commit =
        some { area := (sdi.drop 6).take (plenOf sdi), barNo := (s.dev.port.barNo + 65535) % 65536 } ∧
      (s.rise low shown sdi extra).dev.port.quietUntil = s.dev.now + 8 * low + tCmt sdi ∧
      (s.rise low shown sdi extra).dev.port.replies =
        dropShown shown (clockedOut shown 24 sdi.length) (s.turn low).dev.port.replies ∧
      (s.rise low shown sdi extra).dev.port.watchdog =
        if s.dev.barRestarts then some (s.dev.now + 8 * low + s.dev.tWd * msec) else s.dev.port.watchdog := by
  have passed := s.turn_passed low
  have number_same : (s.turn low).dev.port.barNo = s.dev.port.barNo := (congrArg HostPort.barNo passed.standing :)
  have watchdog_same : (s.turn low).dev.port.watchdog = s.dev.port.watchdog := (congrArg HostPort.watchdog passed.standing :)
  have port := Dev.settleBar_port_of_valid h (s.turn low).dev shown
  have settled := s.rise_standing low shown sdi extra
  rw [port] at settled
  rw [← number_same, ← watchdog_same, ← passed.barRestarts, ← passed.tWd, ← s.turn_now]
  refine ⟨(congrArg HostPort.commit settled :), (congrArg HostPort.quietUntil settled :), ?_,
    (congrArg HostPort.watchdog settled :)⟩
  exact (State.after_replies ..).trans (congrArg HostPort.replies port)

end

end Sys2Proof.Machine

namespace Sys2Proof
open Machine

/-- Settles O13: the bar is judged on the port that CSN falling has left, which the slots with CSN low leave standing. -/
theorem acceptedBarIsCounted : Obligations.AcceptedBarIsCounted := by
  intro s dt low sdi bits d shown plen opener long fallen released isOpen no_commit quiet mode watchdog_late
  have opener_iff : openerOk sdi = true ↔ opener := openerOk_iff sdi
  have long_iff : lengthBad sdi bits.val = false ↔ long := by
    rw [lengthBad_eq_false_iff, opener_iff]
    rfl
  have valid_iff : barValid sdi bits.val = true ↔ opener ∧ long := by rw [barValid_iff, opener_iff, long_iff]
  have calm : ¬ (s.fallen dt sdi.length).ExpiresLow low := fun ⟨_, w, hw, before⟩ =>
    absurd (watchdog_late w hw) (Nat.not_le.2 before)
  let t := fallen.rise low shown.port.replies sdi bits.val
  obtain ⟨c, w, judged⟩ := fallen.rise_judges low shown.port.replies sdi bits.val
  have opener_told : t.dev.port.openerBad = !openerOk sdi := (congrArg HostPort.openerBad judged :)
  have length_told : t.dev.port.lengthBad = lengthBad sdi bits.val := (congrArg HostPort.lengthBad judged :)
  have valid_told : t.dev.port.prevValid = barValid sdi bits.val := (congrArg HostPort.prevValid judged :)
  refine ⟨t, execBar_accepted bits isOpen no_commit quiet calm, fallen.rise_snap low _ sdi _ mode,
    (congrArg HostPort.barNo judged :), (congrArg HostPort.sdo judged :), (congrArg HostPort.early judged :), ?_, ?_, ?_,
    fun ok => ?_, fun bad => ?_⟩
  · rw [opener_told, Bool.not_eq_false', opener_iff]
  · rw [length_told, long_iff]
  · rw [valid_told, valid_iff]
  · obtain ⟨commit, quietUntil, replies, watchdog⟩ := fallen.rise_of_valid low shown.port.replies (valid_iff.2 ok)
    have number : (fallen.dev.port.barNo + 65535) % 65536 = d.port.barNo % 65536 := by
      show ((d.port.barNo + 1) % 65536 + 65535) % 65536 = d.port.barNo % 65536
      omega
    rw [number] at commit
    rw [tCmt_of_openerOk (opener_iff.2 ok.1), ← Nat.add_assoc] at quietUntil
    have restarts_iff : fallen.dev.barRestarts = true ↔
        d.ctl.mode = .conducted ∧ (d.chain.head = true ∨ d.chain.addr = none) := by
      simp [Dev.barRestarts, fallen]
    refine ⟨commit, quietUntil, replies, fun settled => ?_, fun conducted place => ?_, fun head addr => ?_⟩
    · have queue_same : (fallen.turn low).dev.port.replies = d.port.replies := (fallen.turn_passed low).replies settled
      exact replies.trans (congrArg released queue_same)
    · exact watchdog.trans (if_pos (restarts_iff.2 ⟨conducted, place⟩))
    · exact watchdog.trans (if_neg fun restarts => by simpa [head, addr] using (restarts_iff.1 restarts).2)
  · obtain ⟨commit, watchdog⟩ := fallen.rise_of_invalid low shown.port.replies
      (Bool.eq_false_iff.2 fun ok => bad (valid_iff.1 ok))
    exact ⟨commit.trans no_commit, watchdog⟩

/-- Settles O14: the port after the bar is the one that CSN rising finds, which the watchdog alone can have changed. -/
theorem earlyAndClosedBarsAreIgnored : Obligations.EarlyAndClosedBarsAreIgnored := by
  intro s dt low sdi bits cut d expires
  let risen := (s.beforeBar dt).risen low
  have calm (h : ¬ expires) : risen.dev.SlotsPassed d := State.risen_of_not_expiresLow h
  have expired (h : expires) : risen.dev.port.standing = { d.port.standing with watchdog := none } ∧
      risen.dev.ctl.mode = .fallback := State.risen_of_expiresLow h
  obtain ⟨wd, stands⟩ := (s.beforeBar dt).risen_standing low
  refine ⟨State.beforeBar_of_not_due, fun isOpen early => ?_, fun closed => ?_⟩
  · refine ⟨_, execBar_early isOpen early, ?_⟩
    generalize ht : State.after _ _ _ = t
    have port : t.dev.port.standing = risen.dev.port.standing.tooEarly := ht ▸ State.after_standing ..
    have port_of_bar := port.trans (congrArg HostPort.tooEarly stands)
    refine ⟨(congrArg HostPort.early port_of_bar :), (congrArg HostPort.sdo port_of_bar :),
      (congrArg HostPort.barNo port_of_bar :), (congrArg HostPort.commit port_of_bar :),
      (congrArg HostPort.quietUntil port_of_bar :), fun h => ?_, fun h => ⟨?_, ?_⟩, fun h settled => ?_⟩
    · exact (congrArg HostPort.watchdog (port.trans (congrArg HostPort.tooEarly (calm h).standing)) :)
    · exact (congrArg HostPort.watchdog (port.trans (congrArg HostPort.tooEarly (expired h).1)) :)
    · rw [← ht, State.after_ctl]
      exact (expired h).2
    · rw [← ht, State.after_replies]
      exact (calm h).replies settled
  · refine ⟨_, execBar_closed closed, ?_⟩
    generalize ht : State.after _ _ _ = t
    have port : t.dev.port.standing = risen.dev.port.standing := ht ▸ State.after_standing ..
    have port_of_bar := port.trans stands
    refine ⟨(congrArg HostPort.early port_of_bar :), (congrArg HostPort.barNo port_of_bar :),
      (congrArg HostPort.commit port_of_bar :), fun h => ?_, fun h => ⟨?_, ?_⟩⟩
    · exact (congrArg HostPort.watchdog (port.trans (calm h).standing) :)
    · exact (congrArg HostPort.watchdog (port.trans (expired h).1) :)
    · rw [← ht, State.after_ctl]
      exact (expired h).2

end Sys2Proof

/-! SUPPORT. O22: the opcodes of the event log, the parameter space and the modes (02 R62, R65, R66, 04 R104, R105, 05 R140,
R145, R146). -/

namespace Sys2Proof.Machine
open Sys2Proof

/-! ### The words of a list of differences (04 R104, R111) -/

theorem lookup_cons_of_ne {id k : Nat} (h : id ≠ k) (w : Word) (l : List (Nat × Word)) :
    ((k, w) :: l).lookup id = l.lookup id := by
  rw [List.lookup_cons, beq_eq_false_iff_ne.2 h]

/-- Of a list cut down to some words, those words keep their entries and the others have none. -/
theorem lookup_filter_fst (l : List (Nat × Word)) (p : Nat → Bool) (id : Nat) :
    (l.filter fun e => p e.1).lookup id = if p id then l.lookup id else none := by
  induction l with
  | nil => simp
  | cons e l ih =>
    obtain ⟨k, w⟩ := e
    by_cases same : id = k
    · subst same
      cases kept : p id <;> simp [kept, ih]
    · cases kept : p k <;> simp [kept, lookup_cons_of_ne same, ih]

/-- A word that is set has an entry unless it is at its power-up value; the others keep theirs, on their side of it. -/
theorem lookup_wordSet (l : List (Nat × Word)) (a : Nat) (w : Word) (id : Nat) :
    (wordSet l a w).lookup id =
      if id = a then (if w = powerUp a then none else some w) else l.lookup id := by
  have below := lookup_filter_fst l (fun k => decide (k < a)) id
  have above := lookup_filter_fst l (fun k => decide (a < k)) id
  unfold wordSet
  dsimp only
  obtain side | rfl | side := Nat.lt_trichotomy id a
  · have other : id ≠ a := Nat.ne_of_lt side
    have not_above : ¬ a < id := Nat.lt_asymm side
    split <;> simp [List.lookup_append, lookup_cons_of_ne other, below, above, side, not_above]
  · split <;> simp [List.lookup_append, below, above]
  · have other : id ≠ a := Nat.ne_of_gt side
    have not_below : ¬ id < a := Nat.lt_asymm side
    split <;> simp [List.lookup_append, lookup_cons_of_ne other, below, above, side, not_below]

theorem wordGet_eq_getD (l : List (Nat × Word)) (id : Nat) : wordGet l id = (l.lookup id).getD (powerUp id) := by
  unfold wordGet
  split <;> next found => rw [found]; rfl

/-- The list with one word set holds it there, and every other word as before. -/
theorem wordGet_wordSet (l : List (Nat × Word)) (a : Nat) (w : Word) (id : Nat) :
    wordGet (wordSet l a w) id = if id = a then w else wordGet l id := by
  rw [wordGet_eq_getD, wordGet_eq_getD, lookup_wordSet]
  split
  · next same =>
    subst same
    split
    · next power_up => exact power_up.symm
    · rfl
  · rfl

/-- Of the entries for one word the last stands; a word that no entry names keeps its value (04 R104). -/
theorem wordGet_writeWords (l es : List (Nat × Word)) (id : Nat) :
    wordGet (writeWords l es) id = (es.reverse.lookup id).getD (wordGet l id) := by
  induction es generalizing l with
  | nil => rfl
  | cons e es ih =>
    show wordGet (writeWords (wordSet l e.1 e.2) es) id = _
    rw [ih, wordGet_wordSet, List.reverse_cons, List.lookup_append]
    obtain ⟨k, w⟩ := e
    cases later : es.reverse.lookup id with
    | none =>
      by_cases same : id = k
      · simp [same]
      · simp [same, lookup_cons_of_ne same]
    | some w' => rfl

/-- A write of the other class than the word's fails (04 R111). -/
theorem entryFailure_of_other_class {cls c : WordClass} {id : Nat} (h : wordClass id = some c) (other : c ≠ cls) (w : Word) :
    entryFailure cls id w = some 0xFF := by
  obtain ⟨⟨c', fs⟩, info, rfl⟩ := Option.map_eq_some_iff.1 h
  simp only [entryFailure, info]
  exact if_neg other

/-! ### A packet to this device that passes its checks -/

theorem Dev.opened_replies (d : Dev) : d.opened.port.replies = d.port.replies := by rw [Dev.opened_port]

/-- The reply and its count leave the watchdog as the action left it. -/
theorem Dev.finish_watchdog (d : Dev) (a : Option Answer) (p : Packet) :
    (Dev.finish (d.countAccepted false a, a) false false p).port.watchdog = d.port.watchdog := by
  cases a with
  | none => rfl
  | some a =>
    have counted : (d.countAccepted false (some a)).port.watchdog = d.port.watchdog := by
      unfold Dev.countAccepted
      dsimp only
      split <;> rfl
    have kept (e : Dev) : (e.keepPatchStatus p a).port = e.port := by
      unfold Dev.keepPatchStatus
      split <;> rfl
    have pushed (q : HostPort) (r : Reply) : (q.push r).watchdog = q.watchdog := by
      unfold HostPort.push
      split <;> rfl
    exact (pushed _ _).trans ((congrArg HostPort.watchdog (kept _)).trans counted)

section
variable {s : State} {opc tag : Byte} {a : List Byte} {d : Dev} {ans : Option Answer} (h : s.accepts opc a)
  (action : Dev.perform s.snap s.dev.opened { dest := 0, opc := opc, tag := tag, params := a } false = (d, ans))
include h action

/-- The action of the opcode makes the device, the host port's queue and the status of a patch load aside. -/
theorem State.packet_performs :
    ∃ t, s.packet opc 0 tag a = .next t ∧ t.dev.Keeps (· ∈ [.port, .chain, .patch]) d ∧
      t.dev.port.watchdog = d.port.watchdog := by
  have runs := s.packet_own (tag := tag) h
  rw [action] at runs
  refine ⟨_, runs, State.after_keeps (by decide) ?_, ?_⟩
  · exact Dev.finish_keeps_of (by decide) (by decide) _ _ (fun _ => by decide)
      (Dev.countAccepted_keeps (by decide) (.refl d) _ _)
  · obtain ⟨b, n, port⟩ := s.after_port 0 fun _ =>
      Dev.finish (d.countAccepted false ans, ans) false false { dest := 0, opc := opc, tag := tag, params := a }
    exact (congrArg HostPort.watchdog port).trans (Dev.finish_watchdog ..)

/-- Where the action leaves the queue alone, its answer is the reply of the packet. -/
theorem State.packet_answers {st : Byte} {data : List Byte} (answer : ans = some ⟨st, data, none⟩)
    (queue : d.port.replies = s.dev.port.replies) :
    ∃ t, s.packet opc 0 tag a = .next t ∧ Answered s t opc tag st data ∧ t.dev.par = d.par := by
  subst answer
  obtain ⟨t, runs, keeps, -⟩ := State.packet_performs h action
  obtain ⟨u, runs', answered⟩ := State.packet_answered h action queue
  cases runs.symm.trans runs'
  exact ⟨t, runs, answered, keeps.frame .par (by decide)⟩

end

/-! ### EVENT_ACK and the parameter writes (05 R145, R146) -/

/-- The events up to `upto` are acknowledged. -/
def EventLog.ackUpTo (l : EventLog) (upto : Word) : EventLog :=
  { l with events := l.events.map fun e => if atOrBefore e.seq upto then { e with acked := true } else e }

theorem opEventAck_of_atOrBefore {p : List Byte} {d : Dev}
    (h : atOrBefore (BitVec.ofNat 32 (field p 0 4)) d.log.newest = true) :
    (opEventAck p d).1.log = d.log.ackUpTo (BitVec.ofNat 32 (field p 0 4)) := by
  simp only [opEventAck, h, Bool.not_true, Bool.false_eq_true, if_false]
  rfl

theorem opParamWrite_good {p : List Byte} (h : firstBadEntry .image (paramEntries p) = none) (d : Dev) :
    opParamWrite p d = ({ d with par := { d.par with shadow := writeWords d.par.shadow (paramEntries p) } }, ok []) := by
  simp only [opParamWrite, h]

theorem opParamWrite_bad {p : List Byte} {e : Nat × Nat} (h : firstBadEntry .image (paramEntries p) = some e) (d : Dev) :
    opParamWrite p d = (d, entryFail e) := by
  simp only [opParamWrite, h]

theorem opParamWriteLive_good {p : List Byte} (h : firstBadEntry .live (paramEntries p) = none) (d : Dev) :
    (opParamWriteLive p d).2 = ok [] ∧ (opParamWriteLive p d).1.port = d.port ∧
      (opParamWriteLive p d).1.par = { d.par with live := writeWords d.par.live (paramEntries p) } := by
  simp only [opParamWriteLive, h]
  let written : Dev := { d with par := { d.par with live := writeWords d.par.live (paramEntries p) } }
  have rest (vs : List VoiceId) :
      ((written.holdCorr d).forVoices vs Dev.clearLead).Keeps (· ∈ [.conv, .voices]) written :=
    Dev.forVoices_keeps (Dev.holdCorr_keeps (by decide) (.refl _) d)
      (fun x hx v => Dev.clearLead_keeps (by decide) hx v) vs
  exact ⟨trivial, (rest _).frame .port (by decide), (rest _).frame .par (by decide)⟩

/-! ### SOFT_RESET (05 R140, 02 R66) -/

/-- In STARTING the device stands for the snapshot, which no bar has taken yet. -/
theorem State.after_snap_of_starting {s : State} {n : Nat} {f : Dev → Dev} (h : (f (s.turn n).dev).ctl.mode = .starting) :
    (s.after n f).snap = (s.after n f).dev := by
  have starting : (s.after n f).dev.ctl.mode = .starting := by rwa [State.after_ctl]
  exact if_pos starting

theorem Dev.restart_score (d : Dev) (cause hold : Nat) : (d.restart cause hold).score = d.score := by
  have same : (d.restart cause hold).Keeps (· ≠ .score) d := by
    apply Dev.restart_keeps <;> first | decide | exact .refl _
  exact same.frame .score (by decide)

/-- SOFT_RESET restarts the control die, and no reply is left of it. -/
theorem State.packet_softReset {s : State} {tag : Byte} (h : s.accepts 0x06 [0x5A, 0xA5]) :
    s.packet 0x06 0 tag [0x5A, 0xA5] = .next (s.after 0 fun _ => s.dev.opened.restart 2 0) := s.packet_own h

/-! ### Changes of mode: what they leave of the host port -/

section
variable {d : Dev}

theorem Dev.Keeps.portCore_of {W : Part → Prop} {e : Dev} (h : e.Keeps W d) (port : ¬ W .port) (chain : ¬ W .chain) :
    e.portCore = d.portCore :=
  Dev.Keeps.portCore (h.mono fun _ w => ⟨fun is_port => port (is_port ▸ w), fun is_chain => chain (is_chain ▸ w)⟩)

@[simp] theorem Dev.appendRecord_portCore (key : Nat) (value : List Byte) :
    (d.appendRecord key value).portCore = d.portCore := by
  unfold Dev.appendRecord
  extract_lets isLog k d1
  split
  · rfl
  · split
    · exact Dev.event_portCore ..
    · split <;> rfl

@[simp] theorem Dev.deviceRecord_portCore (key : Nat) (value : List Byte) :
    (d.deviceRecord key value).portCore = d.portCore := by
  unfold Dev.deviceRecord
  split
  · split <;> rfl
  · exact Dev.appendRecord_portCore ..

@[simp] theorem Dev.retireRecord_portCore (unit cause trigger outcome failed dropped : Nat) :
    (d.retireRecord unit cause trigger outcome failed dropped).portCore = d.portCore := Dev.deviceRecord_portCore ..

@[simp] theorem Dev.retireVoice_portCore (v : VoiceId) (cause trigger outcome failed : Nat) :
    (d.retireVoice v cause trigger outcome failed).1.portCore = d.portCore := by
  let off := (d.turnOff v .forced).withdraw v
  calc (d.retireVoice v cause trigger outcome failed).1.portCore
    _ = off.portCore := (Dev.retireRecord_portCore ..).trans (Dev.event_portCore ..)
    _ = d.portCore := by simp [off]

@[simp] theorem Dev.mergeWait_portCore (v : VoiceId) : (d.mergeWait v).portCore = d.portCore := by
  unfold Dev.mergeWait
  dsimp only
  split
  · rfl
  · exact Dev.withdraw_portCore _

@[simp] theorem Dev.formGang_portCore (v : VoiceId) : (d.formGang v).portCore = d.portCore := by
  unfold Dev.formGang
  extract_lets o a b same keep d1 src d2
  have kept (x : Dev) (u : VoiceId) : (keep x u).portCore = x.portCore := by
    simp only [keep]
    split <;> simp
  have parted : d2.portCore = d.portCore := Dev.forVoices_portCore (fun x u => by simp) _ d
  split
  · have retired : d1.portCore = d.portCore := (kept _ _).trans (kept _ _)
    split
    · exact retired
    · exact (Dev.event_portCore ..).trans retired
  · split
    · exact (Dev.forVoices_portCore (fun x u => Dev.modVoice_portCore _ _) _ _).trans (Dev.mergeWait_portCore v)
    · exact (Dev.event_portCore ..).trans parted

@[simp] theorem Dev.engineReconf_portCore (old : Dev) : (d.engineReconf old).portCore = d.portCore := by
  have aux (l : List (Fin 8)) (x : Dev) :
      (l.foldl (fun (d : Dev) a => d.modAux a fun x => { x with test := false }) x).portCore = x.portCore :=
    Dev.foldl_portCore (f := fun d a => d.modAux a _) (fun _ _ => rfl) l x
  unfold Dev.engineReconf
  refine (Dev.foldl_portCore (fun x a => ?_) _ _).trans (Dev.foldl_portCore (fun x e => ?_) _ d)
  · split <;> rfl
  · split
    · dsimp only
      split
      · exact (Dev.event_portCore ..).trans (aux _ x)
      · exact aux _ x
    · rfl

@[simp] theorem Dev.reconfigure_portCore (old : Dev) : (d.reconfigure old).portCore = d.portCore := by
  have before : ((d.holdCorr old).tallyReconf old).portCore = d.portCore := rfl
  unfold Dev.reconfigure
  refine Eq.trans ?_ ((Dev.engineReconf_portCore old).trans before)
  exact (Dev.waveReconf_keeps (W := (· ∈ [.voices, .wave])) (by decide) (by decide) (.refl _) old).portCore_of
    (by decide) (by decide)

@[simp] theorem Dev.takeDrives_portCore : d.takeDrives.portCore = d.portCore :=
  (Dev.takeDrives_keeps (W := (· = .voices)) rfl (.refl d)).portCore_of (by decide) (by decide)

@[simp] theorem Dev.engineUnpause_portCore : d.engineUnpause.portCore = d.portCore := rfl

@[simp] theorem Dev.conductVoice_portCore (v : VoiceId) : (d.conductVoice v).portCore = d.portCore := by
  unfold Dev.conductVoice
  dsimp only
  split <;> simp

@[simp] theorem Dev.reconductVoice_portCore (old : Dev) (v : VoiceId) :
    (Dev.reconductVoice old d v).portCore = d.portCore := by
  unfold Dev.reconductVoice
  split
  · dsimp only
    split
    · split <;> simp
    · simp
  · rfl

end

/-! ### CONDUCT (02 R62) -/

/-- The shadow's words are live, and the mode is CONDUCTED. -/
def Dev.imaged (d : Dev) : Dev :=
  let d1 : Dev := { d with par := { d.par with live := conductWords d.par.shadow d.par.live } }
  (if d.ctl.mode = .conducted then d1 else d1.toMode .conducted 0).setCtl fun c => { c with conducted := true }

/-- The voices carry over into the new image, which the gangs, drives and units then take. -/
def Dev.carried (d old : Dev) : Dev :=
  (((d.forVoices (idx 48) (if old.ctl.mode = .acappella then Dev.conductVoice else Dev.reconductVoice old)).formGangs
    old).takeDrives).reconfigure old

theorem Dev.conduct_eq (d : Dev) : d.conduct = d.imaged.startWatchdog.carried d := rfl

theorem Dev.imaged_mode (d : Dev) : d.imaged.ctl.mode = .conducted := by
  unfold Dev.imaged
  dsimp only
  split
  · assumption
  · simp [Dev.toMode, Dev.setCtl]

theorem Dev.imaged_par (d : Dev) :
    d.imaged.par = { d.par with live := conductWords d.par.shadow d.par.live } := by
  unfold Dev.imaged
  dsimp only
  split
  · rfl
  · exact Dev.event_par ..

theorem Dev.imaged_now (d : Dev) : d.imaged.now = d.now := by
  unfold Dev.imaged
  dsimp only
  split
  · rfl
  · exact congrArg TimeBase.now (Dev.event_time ..)

theorem Dev.carried_keeps (d old : Dev) : (d.carried old).Keeps (fun p => p ≠ .ctl ∧ p ≠ .par ∧ p ≠ .time) d := by
  have voices : (d.forVoices (idx 48) (if old.ctl.mode = .acappella then Dev.conductVoice else Dev.reconductVoice old)).Keeps
      (fun p => p ≠ .ctl ∧ p ≠ .par ∧ p ≠ .time) d := by
    refine Dev.forVoices_keeps (.refl d) (fun x hx v => ?_) _
    split
    · exact Dev.conductVoice_keeps (by decide) (by decide) hx v
    · exact Dev.reconductVoice_keeps (by decide) (by decide) hx old v
  unfold Dev.carried
  apply Dev.reconfigure_keeps <;> first | decide | skip
  apply Dev.takeDrives_keeps (by decide)
  apply Dev.formGangs_keeps <;> first | decide | exact voices

theorem Dev.carried_portCore (d old : Dev) : (d.carried old).portCore = d.portCore := by
  unfold Dev.carried
  rw [Dev.reconfigure_portCore, Dev.takeDrives_portCore]
  refine (Dev.forVoices_portCore (fun x => Dev.formGang_portCore) _ _).trans (Dev.forVoices_portCore (fun x v => ?_) _ d)
  split
  · exact Dev.conductVoice_portCore v
  · exact Dev.reconductVoice_portCore old v

theorem Dev.conduct_mode (d : Dev) : d.conduct.ctl.mode = .conducted := by
  rw [Dev.conduct_eq, (Dev.carried_keeps _ d).frame .ctl (by decide)]
  exact d.imaged_mode

theorem Dev.conduct_par (d : Dev) :
    d.conduct.par = { d.par with live := conductWords d.par.shadow d.par.live } := by
  rw [Dev.conduct_eq, (Dev.carried_keeps _ d).frame .par (by decide)]
  exact d.imaged_par

/-- T_wd is read from the new live words (04 R116). -/
theorem Dev.conduct_watchdog (d : Dev) : d.conduct.port.watchdog = some (d.now + d.conduct.tWd * msec) := by
  have same : d.conduct.tWd = d.imaged.tWd :=
    congrArg (fun par : ParamSpace => bits (wordGet par.live 0) 0 16) (d.conduct_par.trans d.imaged_par.symm)
  have core := Dev.carried_portCore d.imaged.startWatchdog d
  rw [same, ← d.imaged_now]
  exact congrArg (HostPort.watchdog ·.1) core

/-- CONDUCT that passes its checks does it, and abandons a patch load that goes on (05 R166). -/
theorem opConduct_good {p : List Byte} {d : Dev} (h : d.conductFailure (BitVec.ofNat 32 (field p 0 4)) = none) :
    (opConduct p d).1.Keeps (· = .patch) d.conduct := by
  simp only [opConduct, h]
  split
  · exact Dev.Keeps.patch (W := (· = .patch)) (.refl _) rfl _
  · exact .refl _

/-! ### ACAPPELLA (02 R65) -/

/-- The mode is A CAPPELLA, with every live word at its power-up value and no watchdog. -/
def Dev.unconducted (d : Dev) (cause : Nat) : Dev :=
  (({ d with par := { d.par with live := [] } }).toMode .acappella cause).stopWatchdog.setCtl fun c =>
    { c with parkFromAcappella := false }

/-- No voice goes on as FALLBACK had it, and the drives and units take the words that stand. -/
def Dev.released (d old : Dev) : Dev :=
  (({ d with voices := d.voices.map fun x => { x with fallbackLh := false } } : Dev).takeDrives.engineUnpause).reconfigure old

theorem Dev.enterAcappella_eq (d : Dev) (cause : Nat) :
    d.enterAcappella cause = (d.cancelCues.withdrawAll.unconducted cause).released d := rfl

theorem Dev.released_keeps (d old : Dev) : (d.released old).Keeps (fun p => p ≠ .ctl ∧ p ≠ .par) d := by
  unfold Dev.released
  apply Dev.reconfigure_keeps <;> first | decide | skip
  apply Dev.engineUnpause_keeps (by decide)
  apply Dev.takeDrives_keeps (by decide)
  exact Dev.Keeps.voices (.refl d) (by decide) _

theorem Dev.released_portCore (d old : Dev) : (d.released old).portCore = d.portCore := by
  unfold Dev.released
  rw [Dev.reconfigure_portCore, Dev.engineUnpause_portCore, Dev.takeDrives_portCore]
  rfl

theorem Dev.unconducted_mode (d : Dev) (cause : Nat) : (d.unconducted cause).ctl.mode = .acappella := by
  exact congrArg Control.mode (Dev.event_ctl ..)

theorem Dev.unconducted_par (d : Dev) (cause : Nat) : (d.unconducted cause).par = { d.par with live := [] } :=
  Dev.event_par ..

theorem Dev.enterAcappella_mode (d : Dev) (cause : Nat) : (d.enterAcappella cause).ctl.mode = .acappella := by
  rw [Dev.enterAcappella_eq, (Dev.released_keeps _ d).frame .ctl (by decide)]
  exact Dev.unconducted_mode _ cause

theorem Dev.enterAcappella_par (d : Dev) (cause : Nat) : (d.enterAcappella cause).par = { d.par with live := [] } := by
  have cancelled : d.cancelCues.withdrawAll.Keeps (· ≠ .par) d :=
    Dev.withdrawAll_keeps (by decide) (by decide) (Dev.cancelCues_keeps (by decide) (.refl d))
  have par_same : d.cancelCues.withdrawAll.par = d.par := cancelled.frame .par (by decide)
  rw [Dev.enterAcappella_eq, (Dev.released_keeps _ d).frame .par (by decide), Dev.unconducted_par, par_same]

theorem Dev.enterAcappella_watchdog (d : Dev) (cause : Nat) : (d.enterAcappella cause).port.watchdog = none :=
  congrArg (HostPort.watchdog ·.1) (Dev.released_portCore (d.cancelCues.withdrawAll.unconducted cause) d)

theorem opAcappella_good {d : Dev} (free : d.parkRefusal = none) (not_acappella : d.ctl.mode ≠ .acappella)
    (not_starting : d.ctl.mode ≠ .starting) : (opAcappella d).1 = d.unpark.enterAcappella 0 := by
  simp [opAcappella, free, not_acappella, not_starting]

theorem Dev.unpark_par (d : Dev) : d.unpark.par = d.par :=
  (Dev.unpark_keeps (W := (· ≠ .par)) (by decide) (by decide) (by decide) (.refl d)).frame .par (by decide)

/-! ### The opcodes -/

section
variable {s : State} {tag : Byte}

theorem execEventAck_acts {a : List Byte} (h : s.accepts 0x04 a)
    (held : atOrBefore (BitVec.ofNat 32 (field a 0 4)) s.dev.log.newest = true) :
    ∃ t, exec (.eventAck ⟨0, tag, a⟩) s = .next t ∧
      t.dev.log = s.dev.log.ackUpTo (BitVec.ofNat 32 (field a 0 4)) := by
  obtain ⟨t, runs, keeps, -⟩ := s.packet_performs (tag := tag) h rfl
  refine ⟨t, runs, Eq.trans (keeps.frame .log (by decide)) ?_⟩
  have acked := opEventAck_of_atOrBefore (p := a) (d := s.dev.opened) (by rwa [Dev.opened_log])
  rwa [Dev.opened_log] at acked

theorem execSoftReset_acts (h : s.accepts 0x06 [0x5A, 0xA5]) :
    ∃ t, exec (.softReset ⟨0, tag, [0x5A, 0xA5]⟩) s = .next t ∧ t.dev.ctl.mode = .starting ∧
      t.dev.ctl.startCause = 2 ∧ t.dev.port.isOpen = false ∧ t.dev.port.barNo = 0 ∧ t.dev.par.live = [] ∧
      t.dev.par.shadow = [] ∧ t.dev.time.tbc = 0 ∧ t.dev.score = s.dev.score ∧ t.snap = t.dev := by
  refine ⟨_, State.packet_softReset h, ?_⟩
  obtain ⟨b, n, port⟩ := s.after_port 0 fun _ => s.dev.opened.restart 2 0
  rw [State.after_ctl, State.after_par, State.after_time, State.after_score, port, Dev.restart_score, Dev.opened_score]
  exact ⟨rfl, rfl, rfl, rfl, rfl, rfl, rfl, rfl, State.after_snap_of_starting rfl⟩

theorem execParamWrite_writes {a : List Byte} (h : s.accepts 0x10 a)
    (good : firstBadEntry .image (paramEntries a) = none) :
    ∃ t, exec (.paramWrite ⟨0, tag, a⟩) s = .next t ∧ Answered s t 0x10 tag 0 [] ∧
      t.dev.par.shadow = writeWords s.dev.par.shadow (paramEntries a) ∧ t.dev.par.live = s.dev.par.live := by
  have action := congrArg acts (opParamWrite_good good s.dev.opened)
  obtain ⟨t, runs, answered, par⟩ := s.packet_answers (tag := tag) h action rfl s.dev.opened_replies
  exact ⟨t, runs, answered, by rw [par, Dev.opened_par], by rw [par, Dev.opened_par]⟩

theorem execParamWrite_refuses {a : List Byte} {id k : Nat} (h : s.accepts 0x10 a)
    (bad : firstBadEntry .image (paramEntries a) = some (id, k)) :
    ∃ t, exec (.paramWrite ⟨0, tag, a⟩) s = .next t ∧ Answered s t 0x10 tag stBadParam (leBytes 2 id ++ [b8 k]) ∧
      t.dev.par = s.dev.par := by
  have action := congrArg acts (opParamWrite_bad bad s.dev.opened)
  obtain ⟨t, runs, answered, par⟩ := s.packet_answers (tag := tag) h action rfl s.dev.opened_replies
  exact ⟨t, runs, answered, par.trans s.dev.opened_par⟩

theorem execParamWriteLive_writes {a : List Byte} (h : s.accepts 0x14 a)
    (good : firstBadEntry .live (paramEntries a) = none) :
    ∃ t, exec (.paramWriteLive ⟨0, tag, a⟩) s = .next t ∧ Answered s t 0x14 tag 0 [] ∧
      t.dev.par.live = writeWords s.dev.par.live (paramEntries a) ∧ t.dev.par.shadow = s.dev.par.shadow := by
  obtain ⟨answer, port, written⟩ := opParamWriteLive_good good s.dev.opened
  obtain ⟨t, runs, answered, par⟩ := s.packet_answers (tag := tag) h rfl (congrArg some answer)
    ((congrArg HostPort.replies port).trans s.dev.opened_replies)
  have par_written := par.trans written
  exact ⟨t, runs, answered, by rw [par_written, Dev.opened_par], by rw [par_written, Dev.opened_par]⟩

theorem execConduct_acts {a : List Byte} (h : s.accepts 0x13 a)
    (good : s.dev.conductFailure (BitVec.ofNat 32 (field a 0 4)) = none) :
    ∃ t, exec (.conduct ⟨0, tag, a⟩) s = .next t ∧ t.dev.ctl.mode = .conducted ∧
      t.dev.par.live = conductWords s.dev.par.shadow s.dev.par.live ∧ t.dev.par.shadow = s.dev.par.shadow ∧
      t.dev.port.watchdog = some (s.dev.now + t.dev.tWd * msec) := by
  have opened_good : s.dev.opened.conductFailure (BitVec.ofNat 32 (field a 0 4)) = none := by
    rwa [Dev.conductFailure, Dev.opened_par]
  have conducted := opConduct_good opened_good
  obtain ⟨t, runs, keeps, watchdog⟩ := s.packet_performs (tag := tag) h rfl
  have par_conducted : t.dev.par = s.dev.opened.conduct.par :=
    Eq.trans (keeps.frame .par (by decide)) (conducted.frame .par (by decide))
  have ctl_conducted : t.dev.ctl = s.dev.opened.conduct.ctl :=
    Eq.trans (keeps.frame .ctl (by decide)) (conducted.frame .ctl (by decide))
  have port_conducted : (opConduct a s.dev.opened).1.port = s.dev.opened.conduct.port :=
    conducted.frame .port (by decide)
  have par_new := par_conducted.trans s.dev.opened.conduct_par
  have tWd_same : t.dev.tWd = s.dev.opened.conduct.tWd :=
    congrArg (fun par : ParamSpace => bits (wordGet par.live 0) 0 16) par_conducted
  have now_same : s.dev.opened.now = s.dev.now := congrArg TimeBase.now s.dev.opened_time
  refine ⟨t, runs, ?_, by rw [par_new, Dev.opened_par], by rw [par_new, Dev.opened_par], ?_⟩
  · rw [ctl_conducted, Dev.conduct_mode]
  · rw [tWd_same, ← now_same, ← Dev.conduct_watchdog, ← port_conducted]
    exact watchdog

theorem execAcappella_acts (h : s.accepts 0x15 []) (free : s.dev.parkRefusal = none)
    (not_acappella : s.dev.ctl.mode ≠ .acappella) (not_starting : s.dev.ctl.mode ≠ .starting) :
    ∃ t, exec (.acappella ⟨0, tag, []⟩) s = .next t ∧ t.dev.ctl.mode = .acappella ∧
      t.dev.par.live = [] ∧ t.dev.par.shadow = s.dev.par.shadow ∧ t.dev.port.watchdog = none := by
  obtain ⟨fs, opened⟩ := s.dev.opened_eq
  have entered : (opAcappella s.dev.opened).1 = s.dev.opened.unpark.enterAcappella 0 :=
    opAcappella_good (by rw [opened]; exact free) (by rwa [Dev.opened_ctl]) (by rwa [Dev.opened_ctl])
  obtain ⟨t, runs, keeps, watchdog⟩ := s.packet_performs (tag := tag) h rfl
  have par_new : t.dev.par = { s.dev.par with live := [] } := by
    refine Eq.trans (keeps.frame .par (by decide)) ((congrArg Dev.par entered).trans ?_)
    rw [Dev.enterAcappella_par, Dev.unpark_par, Dev.opened_par]
  have ctl_new : t.dev.ctl.mode = .acappella :=
    (congrArg Control.mode (keeps.frame .ctl (by decide))).trans
      ((congrArg (·.ctl.mode) entered).trans (Dev.enterAcappella_mode _ 0))
  exact ⟨t, runs, ctl_new, by rw [par_new], by rw [par_new],
    watchdog.trans ((congrArg (·.port.watchdog) entered).trans (Dev.enterAcappella_watchdog _ 0))⟩

end

end Sys2Proof.Machine

namespace Sys2Proof
open Machine

/-- Settles O22: each opcode by what its action makes of the device, and the entries of a parameter write by
`wordGet_writeWords`. -/
theorem coreCommitsAct : Obligations.CoreCommitsAct := by
  intro s tag _
  refine ⟨fun a => execEventAck_acts, execSoftReset_acts, fun a => execParamWrite_writes,
    fun a id k => execParamWrite_refuses, fun id w other => ?_, wordGet_writeWords, fun a => execParamWriteLive_writes,
    fun a => execConduct_acts, execAcappella_acts⟩
  obtain live | read_only := other
  · exact entryFailure_of_other_class live (by decide) w
  · exact entryFailure_of_other_class read_only (by decide) w

end Sys2Proof

/-! SUPPORT. O18: the reads of the core opcodes (05 R137 to R139, R144, R147, R148). -/

namespace Sys2Proof.Machine
open Sys2Proof

/-! ### Fields of a byte string (00 R5) -/

@[simp] theorem length_leBytes (n v : Nat) : (leBytes n v).length = n := by simp [leBytes]

theorem leBytes_succ (n v : Nat) : leBytes (n + 1) v = BitVec.ofNat 8 v :: leBytes n (v / 256) := by
  have shifted (i : Nat) : v >>> (8 * (i + 1)) = (v / 256) >>> (8 * i) := by
    rw [Nat.mul_succ, Nat.add_comm, Nat.shiftRight_add, Nat.shiftRight_eq_div_pow v 8]
  simp [leBytes, List.range_succ_eq_map, shifted]

theorem leNat_leBytes (n v : Nat) : leNat (leBytes n v) = v % 256 ^ n := by
  induction n generalizing v with
  | zero => simp [leBytes, leNat, Nat.mod_one]
  | succ n ih =>
    rw [leBytes_succ, leNat, ih, Nat.pow_succ', Nat.mod_mul]
    rfl

/-- A field is read from the bytes before `q` where it ends before them. -/
theorem field_append_of_le {p : List Byte} {o n : Nat} (h : o + n ≤ p.length) (q : List Byte) :
    field (p ++ q) o n = field p o n := by
  unfold field
  rw [List.drop_append_of_le_length (by omega), List.take_append_of_le_length (by simp; omega)]

/-- The field of the bytes that come last is the number they spell. -/
theorem field_append_leBytes {p : List Byte} {o n v : Nat} (h : p.length = o) (fits : v < 256 ^ n) :
    field (p ++ leBytes n v) o n = v := by
  subst h
  rw [field, List.drop_left, List.take_of_length_le (Nat.le_of_eq (length_leBytes n v)), leNat_leBytes, Nat.mod_eq_of_lt fits]

/-! ### What each opcode reads -/

/-- A Read that the device takes answers OK with what it read (05 R133). -/
theorem State.packet_reads {s : State} {opc tag : Byte} {a data : List Byte} (h : s.accepts opc a)
    (reading : Dev.perform s.snap s.dev.opened { dest := 0, opc := opc, tag := tag, params := a } false =
      reads s.dev.opened (ok data)) :
    ∃ t, s.packet opc 0 tag a = .next t ∧ Answered s t opc tag 0 data :=
  s.packet_answered h reading s.dev.opened_replies

/-- A NOP without DB returns nothing (05 R137). -/
theorem opNop_of_not_db {p : Packet} (h : p.db = false) (d : Dev) : opNop p.db d = ok [] := by
  rw [h]
  rfl

/-- What an IDENTIFY of 32 bytes tells of the device (05 R138). -/
structure Dev.Identifies (snap : Dev) (data : List Byte) : Prop where
  length : data.length = 32
  model : data.take 4 = [b8 snap.score.variant.code, 0x43, 0x02, 0x03]
  patch : field data 6 4 = snap.patch.running.toNat
  uid : field data 10 8 = Config.uid.toNat
  mode : data.getD 20 0 = b8 snap.ctl.mode.code
  crc : field data 24 4 = (imageCrc snap.par.live).toNat
  rom : field data 28 4 = Config.romCrc.toNat

theorem opIdentify_identifies (snap : Dev) : ∃ data, opIdentify snap = ok data ∧ snap.Identifies data := by
  refine ⟨_, rfl, by simp, rfl, ?_, ?_, rfl, ?_, ?_⟩
  · rw [field_append_of_le (by simp), field_append_of_le (by simp), field_append_of_le (by simp),
      field_append_of_le (by simp)]
    exact field_append_leBytes (by simp) snap.patch.running.isLt
  · rw [field_append_of_le (by simp), field_append_of_le (by simp), field_append_of_le (by simp)]
    exact field_append_leBytes (by simp) Config.uid.isLt
  · rw [field_append_of_le (by simp)]
    exact field_append_leBytes (by simp) (imageCrc snap.par.live).isLt
  · exact field_append_leBytes (by simp) Config.romCrc.isLt

/-- An EVENT_READ of 1 to 64 events returns the ends of the log and those events (05 R144). -/
theorem opEventRead_of_count {snap : Dev} {p : List Byte} (positive : 1 ≤ byteAt p 4) (fits : byteAt p 4 ≤ 64) :
    ∃ data, opEventRead snap p = ok data ∧
      data.take 8 = leBytes 4 snap.log.oldest.toNat ++ leBytes 4 snap.log.newest.toNat ∧
      data.drop 12 = ((snap.log.events.filter fun e => atOrBefore (BitVec.ofNat 32 (field p 0 4)) e.seq).take
        (byteAt p 4)).flatMap Event.bytes := by
  have in_range : ¬ (byteAt p 4 < 1 || 64 < byteAt p 4) = true := by simp; omega
  exact ⟨_, if_neg in_range, rfl, rfl⟩

theorem readIds_leBytes {id : Nat} (h : id < 65536) : readIds (leBytes 2 id) = [id] :=
  congrArg (fun n => [n]) ((leNat_leBytes 2 id).trans (Nat.mod_eq_of_lt h))

/-- A PARAM_READ of the live copy of one assigned word returns that word (05 R147). -/
theorem opParamRead_of_word {snap : Dev} {id : Nat} {w : Word} (two_bytes : id < 65536)
    (word : snap.readWord true id = some w) :
    opParamRead snap (1 :: 0 :: leBytes 2 id) = ok ([1, 0] ++ wordBytes (id, w)) := by
  have assigned : (wordClass id).isNone = false := by
    obtain ⟨c, cls, -⟩ := Option.map_eq_some_iff.1 word
    rw [cls]
    rfl
  have list_form : Nat.testBit 1 1 = false := by decide
  simp [opParamRead, byteAt, readIds_leBytes two_bytes, assigned, list_form, word, b8]

end Sys2Proof.Machine

namespace Sys2Proof
open Machine

/-- Settles O18: each opcode by `State.packet_reads` and by what it reads. -/
theorem coreReadsAnswerOk : Obligations.CoreReadsAnswerOk := by
  intro s tag _
  refine ⟨fun h => s.packet_reads h (congrArg (reads s.dev.opened) (opNop_of_not_db (by simp [Packet.db]) _)),
    fun h => ?_, fun h => ?_, fun a h positive fits => ?_, fun a id w h form two_bytes word => ?_, fun h => ?_⟩
  · obtain ⟨data, identify, told⟩ := opIdentify_identifies s.snap
    obtain ⟨t, runs, answered⟩ := s.packet_reads (tag := tag) h (congrArg (reads s.dev.opened) identify)
    exact ⟨t, data, runs, answered, told.length, told.model, told.patch, told.uid, told.mode, told.crc, told.rom⟩
  · obtain ⟨t, runs, answered⟩ := s.packet_reads (tag := tag) h rfl
    exact ⟨t, _, runs, answered, rfl⟩
  · obtain ⟨data, read, ends, events⟩ := opEventRead_of_count (snap := s.snap) positive fits
    obtain ⟨t, runs, answered⟩ := s.packet_reads (tag := tag) h (congrArg (reads s.dev.opened) read)
    exact ⟨t, data, runs, answered, ends, events⟩
  · subst form
    exact s.packet_reads h (congrArg (reads s.dev.opened) (opParamRead_of_word two_bytes word))
  · rw [← s.dev.opened_par]
    exact s.packet_reads h rfl

end Sys2Proof

/-! SUPPORT. O51: the frames of the wave port, and the words of its in-slots (12 R334 to R336, R338, R341 to R343, R345, R347
to R349). -/

namespace Sys2Proof.Machine
open Sys2Proof

/-! ### Changes of the slots -/

/-- What no step of a fold changes, the fold does not change. -/
theorem Dev.foldl_same {α β : Type} {q : Dev → β} {f : Dev → α → Dev} {l : List α}
    (same : ∀ e, ∀ a ∈ l, q (f e a) = q e) (d : Dev) : q (l.foldl f d) = q d :=
  List.foldlRecOn l f (motive := fun e => q e = q d) rfl fun e h a ha => (same e a ha).trans h

/-- The port without its slots and the count of their channel-status errors. -/
def Wave.besideSlots (w : Wave) : Wave := { w with slots := .fill 16 .reset, csErr := 0 }

theorem Dev.modSlot_get_self (d : Dev) (k : Fin 16) (f : WaveSlot → WaveSlot) :
    (d.modSlot k f).wave.slots.get k = f (d.wave.slots.get k) := Tab.get_modify_self ..

theorem Dev.modSlot_get_ne {j k : Fin 16} (h : j ≠ k) (d : Dev) (f : WaveSlot → WaveSlot) :
    (d.modSlot k f).wave.slots.get j = d.wave.slots.get j := Tab.get_modify_ne _ _ h

/-- What a change of a slot leaves of it, it leaves of every slot. -/
theorem Dev.modSlot_get_same {β : Type} {p : WaveSlot → β} {f : WaveSlot → WaveSlot} (same : ∀ x, p (f x) = p x)
    (d : Dev) (k j : Fin 16) : p ((d.modSlot k f).wave.slots.get j) = p (d.wave.slots.get j) := by
  by_cases h : j = k
  · subst h
    rw [Dev.modSlot_get_self, same]
  · rw [Dev.modSlot_get_ne h]

/-! ### Blocks (12 R342 to R344) -/

/-- The port without its place in the blocks. -/
def Wave.unplaced (w : Wave) : Wave := { w with frame := 0, blocks := 0, fallbackTb := false, blockAt := none }

/-- The port without its slots and what the blocks move. -/
def Wave.besideBlock (w : Wave) : Wave := w.besideSlots.unplaced

/-- The port with a block that begins now. -/
def Wave.blockBegun (w : Wave) (now : Nat) (fallback : Bool) : Wave :=
  { w with frame := 0, blocks := (w.blocks + 1) % 2 ^ 32, fallbackTb := fallback, blockAt := some now }

/-- A slot without its channel status. -/
def WaveSlot.besideStatus (x : WaveSlot) : WaveSlot := { x with cs := [], csBits := [], csGood := false }

section
variable (d : Dev)

theorem Dev.endBlock_besideSlots (k : Fin 16) : (d.endBlock k).wave.besideSlots = d.wave.besideSlots := by
  unfold Dev.endBlock
  dsimp only
  split
  · rfl
  · split <;> rfl

theorem Dev.endBlock_besideStatus (k j : Fin 16) :
    ((d.endBlock k).wave.slots.get j).besideStatus = (d.wave.slots.get j).besideStatus := by
  unfold Dev.endBlock
  dsimp only
  split
  · rfl
  · split
    · exact Dev.modSlot_get_same (p := WaveSlot.besideStatus) (fun _ => by rfl) d k j
    · rfl

theorem Dev.startBlock_besideSlots :
    d.startBlock.wave.besideSlots = (d.wave.blockBegun d.now d.time.onFallback).besideSlots :=
  Dev.foldl_same (q := fun e => e.wave.besideSlots) (fun _ _ _ => by rfl) (d.setWave (·.blockBegun d.now d.time.onFallback))

theorem Dev.startBlock_besideStatus (j : Fin 16) :
    (d.startBlock.wave.slots.get j).besideStatus = (d.wave.slots.get j).besideStatus := by
  refine Dev.foldl_same (q := fun e => (e.wave.slots.get j).besideStatus) (fun e k _ => ?_)
    (d.setWave (·.blockBegun d.now d.time.onFallback))
  exact Dev.modSlot_get_same (p := WaveSlot.besideStatus) (fun x => by split <;> rfl) e k j

/-- The device after the in-slots' words of a block that ends naturally. -/
def Dev.blockEnded : Dev := (d.liveSlots.filter d.isIn).foldl Dev.endBlock d

theorem Dev.blockEnded_besideSlots : d.blockEnded.wave.besideSlots = d.wave.besideSlots :=
  Dev.foldl_same (q := fun e => e.wave.besideSlots) (fun e k _ => e.endBlock_besideSlots k) d

theorem Dev.blockEnded_besideStatus (j : Fin 16) :
    (d.blockEnded.wave.slots.get j).besideStatus = (d.wave.slots.get j).besideStatus :=
  Dev.foldl_same (q := fun e => (e.wave.slots.get j).besideStatus) (fun e k _ => e.endBlock_besideStatus k j) d

variable {d}

theorem Dev.nextFrame_of_last (last : d.wave.frame = 191) : d.nextFrame = d.blockEnded.startBlock := if_pos last

theorem Dev.nextFrame_of_not_last (within : d.wave.frame ≠ 191) :
    d.nextFrame = d.setWave fun w => { w with frame := w.frame + 1 } := if_neg within

variable (d)

theorem Dev.nextFrame_now : d.nextFrame.now = d.now :=
  congrArg TimeBase.now ((Dev.nextFrame_keeps (W := (· = .wave)) rfl (.refl d)).frame .time (by decide))

theorem Dev.nextFrame_frame : d.nextFrame.wave.frame = if d.wave.frame = 191 then 0 else d.wave.frame + 1 := by
  split
  next last =>
    rw [Dev.nextFrame_of_last last]
    exact congrArg Wave.frame d.blockEnded.startBlock_besideSlots
  next within => rw [Dev.nextFrame_of_not_last within, Dev.setWave_wave]

theorem Dev.nextFrame_blocks :
    d.nextFrame.wave.blocks = if d.wave.frame = 191 then (d.wave.blocks + 1) % 2 ^ 32 else d.wave.blocks := by
  split
  next last =>
    have blocks_same : d.blockEnded.wave.blocks = d.wave.blocks :=
      (congrArg Wave.blocks d.blockEnded_besideSlots :)
    rw [Dev.nextFrame_of_last last, ← blocks_same]
    exact congrArg Wave.blocks d.blockEnded.startBlock_besideSlots
  next within => rw [Dev.nextFrame_of_not_last within, Dev.setWave_wave]

theorem Dev.startBlock_besideBlock : d.startBlock.wave.besideBlock = d.wave.besideBlock :=
  (congrArg Wave.unplaced d.startBlock_besideSlots :)

theorem Dev.nextFrame_besideBlock : d.nextFrame.wave.besideBlock = d.wave.besideBlock := by
  by_cases last : d.wave.frame = 191
  · rw [Dev.nextFrame_of_last last, Dev.startBlock_besideBlock]
    exact congrArg Wave.unplaced d.blockEnded_besideSlots
  · rw [Dev.nextFrame_of_not_last last]
    rfl

theorem Dev.nextFrame_besideStatus (j : Fin 16) :
    (d.nextFrame.wave.slots.get j).besideStatus = (d.wave.slots.get j).besideStatus := by
  by_cases last : d.wave.frame = 191
  · rw [Dev.nextFrame_of_last last, Dev.startBlock_besideStatus, Dev.blockEnded_besideStatus]
  · rw [Dev.nextFrame_of_not_last last, Dev.setWave_wave]

/-! ### A frame begins (12 R345, R350) -/

/-- A slot without what it has sent and buffered. -/
def WaveSlot.unsent (x : WaveSlot) : WaveSlot := { x with lastWord := 0, buffer := [], written := 0, took := none }

/-- A slot without its channel status and its words. -/
def WaveSlot.besideWords (x : WaveSlot) : WaveSlot := x.besideStatus.unsent

/-- The port with a frame that begins now. -/
def Wave.frameBegun (w : Wave) (now : Nat) : Wave :=
  { w with starts := (now :: w.starts).take 193, count := w.count + 1
           muted := if w.st = .running then w.muted else w.muted + 1 }

theorem WaveSlot.push_besideWords (x : WaveSlot) (running : Bool) (cap : Nat) (word : Word) :
    (x.push running cap word).besideWords = x.besideWords := by
  unfold WaveSlot.push
  dsimp only
  split <;> rfl

theorem Dev.sendSlots_besideSlots : d.sendSlots.wave.besideSlots = d.wave.besideSlots :=
  Dev.foldl_same (q := fun e => e.wave.besideSlots) (fun _ _ _ => by rfl) d

theorem Dev.sendSlots_besideWords (j : Fin 16) :
    (d.sendSlots.wave.slots.get j).besideWords = (d.wave.slots.get j).besideWords :=
  Dev.foldl_same (q := fun e => (e.wave.slots.get j).besideWords)
    (fun e k _ => Dev.modSlot_get_same (p := WaveSlot.besideWords) (fun x => x.push_besideWords _ _ _) e k j) d

theorem Dev.transmit_besideSlots : d.transmit.wave.besideSlots = (d.wave.frameBegun d.now).besideSlots :=
  Dev.sendSlots_besideSlots _

theorem Dev.transmit_besideWords (j : Fin 16) :
    (d.transmit.wave.slots.get j).besideWords = (d.wave.slots.get j).besideWords := by
  refine (Dev.sendSlots_besideWords _ j).trans ?_
  simp only [Dev.setWave_wave, Tab.get_mapIdx]
  rfl

/-- A frame after the first begins: armed slots count it, the block goes on, and the out-slots send. -/
def Dev.frameBegins : Dev := (d.setWave Wave.countPost).nextFrame.transmit

theorem Dev.frameBegins_besideBlock : d.frameBegins.wave.besideBlock = (d.wave.frameBegun d.now).besideBlock := by
  let e := d.setWave Wave.countPost
  calc d.frameBegins.wave.besideBlock
      = e.nextFrame.wave.besideBlock.frameBegun e.nextFrame.now := congrArg Wave.unplaced e.nextFrame.transmit_besideSlots
    _ = e.wave.besideBlock.frameBegun e.now := by rw [e.nextFrame_besideBlock, e.nextFrame_now]

theorem Dev.frameBegins_frame :
    d.frameBegins.wave.frame = if d.wave.frame = 191 then 0 else d.wave.frame + 1 :=
  (congrArg Wave.frame (Dev.transmit_besideSlots _)).trans (Dev.nextFrame_frame (d.setWave Wave.countPost))

theorem Dev.frameBegins_blocks :
    d.frameBegins.wave.blocks = if d.wave.frame = 191 then (d.wave.blocks + 1) % 2 ^ 32 else d.wave.blocks :=
  (congrArg Wave.blocks (Dev.transmit_besideSlots _)).trans (Dev.nextFrame_blocks (d.setWave Wave.countPost))

/-- A slot in which a frame has begun: its word is yet to come, and the frame counts towards POST. -/
def WaveSlot.frameBegun (x : WaveSlot) : WaveSlot :=
  { x with inFrame := none, counting := x.counting.map fun c => (c.1 - 1, c.2) }

theorem Dev.frameBegins_besideWords (j : Fin 16) :
    (d.frameBegins.wave.slots.get j).besideWords = (d.wave.slots.get j).frameBegun.besideWords := by
  refine (Dev.transmit_besideWords _ j).trans ?_
  refine (congrArg WaveSlot.unsent (Dev.nextFrame_besideStatus _ j)).trans ?_
  exact congrArg WaveSlot.besideWords (Tab.get_map ..)

theorem Dev.frameBegins_stable : d.frameBegins.wave.stable = d.wave.stable :=
  (congrArg Wave.stable d.frameBegins_besideBlock :)
theorem Dev.frameBegins_missing : d.frameBegins.wave.missing = d.wave.missing :=
  (congrArg Wave.missing d.frameBegins_besideBlock :)
theorem Dev.frameBegins_frameErr : d.frameBegins.wave.frameErr = d.wave.frameErr :=
  (congrArg Wave.frameErr d.frameBegins_besideBlock :)
theorem Dev.frameBegins_starts : d.frameBegins.wave.starts = (d.now :: d.wave.starts).take 193 :=
  (congrArg Wave.starts d.frameBegins_besideBlock :)
theorem Dev.frameBegins_count : d.frameBegins.wave.count = d.wave.count + 1 :=
  (congrArg Wave.count d.frameBegins_besideBlock :)
theorem Dev.frameBegins_duty (j : Fin 16) : (d.frameBegins.wave.slots.get j).duty = (d.wave.slots.get j).duty :=
  (congrArg WaveSlot.duty (d.frameBegins_besideWords j) :)
theorem Dev.frameBegins_counting (j : Fin 16) : (d.frameBegins.wave.slots.get j).counting =
    (d.wave.slots.get j).counting.map fun c => (c.1 - 1, c.2) :=
  (congrArg WaveSlot.counting (d.frameBegins_besideWords j) :)

/-- The first mark makes the port acquire, and counts as no frame yet (12 R340). -/
def Wave.firstMarked (w : Wave) : Wave :=
  { w with st := .acquiring, marked := true, began := true, stable := 0, missing := 0, assumed := false }

theorem Dev.firstMark_besideBlock : d.firstMark.wave.besideBlock = d.wave.firstMarked.besideBlock := by
  unfold Dev.firstMark
  dsimp only
  split
  · exact Dev.startBlock_besideBlock _
  · exact Dev.nextFrame_besideBlock _

theorem Dev.firstMark_now : d.firstMark.now = d.now :=
  congrArg TimeBase.now ((Dev.firstMark_keeps (W := (· = .wave)) rfl (.refl d)).frame .time (by decide))

/-- The frame of the first mark begins. -/
def Dev.firstFrameBegins : Dev := (d.setWave Wave.countPost).firstMark.transmit

theorem Dev.firstFrameBegins_besideBlock :
    d.firstFrameBegins.wave.besideBlock = (d.wave.firstMarked.frameBegun d.now).besideBlock := by
  let e := d.setWave Wave.countPost
  calc d.firstFrameBegins.wave.besideBlock
      = e.firstMark.wave.besideBlock.frameBegun e.firstMark.now := congrArg Wave.unplaced e.firstMark.transmit_besideSlots
    _ = e.wave.firstMarked.besideBlock.frameBegun e.now := by rw [e.firstMark_besideBlock, e.firstMark_now]

/-! ### A cut frame (12 R338) -/

theorem Dev.cutSlot_besideSlots (k : Fin 16) : (d.cutSlot k).wave.besideSlots = d.wave.besideSlots := by
  unfold Dev.cutSlot
  split <;> rfl

theorem Dev.cutSlot_inFrame (k j : Fin 16) :
    ((d.cutSlot k).wave.slots.get j).inFrame = (d.wave.slots.get j).inFrame := by
  unfold Dev.cutSlot
  split <;> exact Dev.modSlot_get_same (p := WaveSlot.inFrame) (fun _ => by rfl) d k j

theorem Dev.cutSlot_get_ne {j k : Fin 16} (h : j ≠ k) : (d.cutSlot k).wave.slots.get j = d.wave.slots.get j := by
  unfold Dev.cutSlot
  split <;> exact Dev.modSlot_get_ne h d _

theorem Dev.cutFrame_besideSlots : d.cutFrame.wave.besideSlots = d.wave.besideSlots :=
  Dev.foldl_same (q := fun e => e.wave.besideSlots) (fun e k _ => e.cutSlot_besideSlots k) d

variable {d}
variable {k : Fin 16} {was : Option Nat} {fresh kept : Mask}

/-- The duty that the word of the cut frame replaced is held again. -/
theorem Dev.cutSlot_duty (came : (d.wave.slots.get k).inFrame = some (was, fresh, kept)) :
    ((d.cutSlot k).wave.slots.get k).duty = was := by
  unfold Dev.cutSlot
  rw [came]
  exact congrArg WaveSlot.duty (d.modSlot_get_self k _)

theorem Dev.foldl_cutSlot_duty {l : List (Fin 16)} (hk : k ∈ l)
    (came : (d.wave.slots.get k).inFrame = some (was, fresh, kept)) :
    ((l.foldl Dev.cutSlot d).wave.slots.get k).duty = was := by
  induction l generalizing d with
  | nil => cases hk
  | cons a l ih =>
    by_cases later : k ∈ l
    · exact ih later ((d.cutSlot_inFrame a k).trans came)
    · obtain rfl : k = a := (List.mem_cons.1 hk).resolve_right later
      have rest_same : (l.foldl Dev.cutSlot (d.cutSlot k)).wave.slots.get k = (d.cutSlot k).wave.slots.get k :=
        Dev.foldl_same (q := fun e => e.wave.slots.get k)
          (fun e a ha => e.cutSlot_get_ne fun same => later (same ▸ ha)) _
      rw [List.foldl_cons, rest_same, Dev.cutSlot_duty came]

theorem mem_idx {n : Nat} (i : Fin n) : i ∈ idx n := List.mem_ofFn.2 ⟨i, rfl⟩

theorem Dev.mem_liveSlots : k ∈ d.liveSlots ↔ k.val < d.waveSlots := by
  simp only [Dev.liveSlots, List.mem_filter, mem_idx, true_and, decide_eq_true_eq]

theorem Dev.cutFrame_duty (live : k.val < d.waveSlots) (isIn : d.isIn k = true)
    (came : (d.wave.slots.get k).inFrame = some (was, fresh, kept)) : (d.cutFrame.wave.slots.get k).duty = was :=
  Dev.foldl_cutSlot_duty (List.mem_filter.2 ⟨Dev.mem_liveSlots.2 live, isIn⟩) came

end

/-! ### How a frame counts (12 R338, R339, R347) -/

/-- The port takes what comes as a frame start that counts as `t`: in master mode its own, which is due and always stable,
and in slave mode the timing it meets. -/
structure Dev.TakesFrame (d : Dev) (timing t : FrameTiming) : Prop where
  on : d.wave.st ≠ .disabled
  vio : d.port.vioValid = true
  counts : d.waveMaster = true ∧ d.frameDue ≤ d.now ∧ t = .stable ∨ d.waveMaster = false ∧ t = timing

section
variable {s : State} {dt : Nat} {timing t : FrameTiming}

/-- What a frame start does to a port that takes it. -/
def Dev.frameStarts (d : Dev) (t : FrameTiming) : Dev :=
  if !d.wave.marked then
    if t = .missing then d else d.firstFrameBegins
  else if 2 ≤ (d.judgeFrame t).wave.missing then (d.judgeFrame t).clockLoss 1
  else (d.judgeFrame t).frameBegins

theorem execWaveFrame_taken (h : (s.turn dt).dev.TakesFrame timing t) :
    exec (.waveFrame dt timing ()) s = .next (s.after dt fun _ => (s.turn dt).dev.frameStarts t) := by
  obtain ⟨on, vio, ⟨master, due, rfl⟩ | ⟨slave, rfl⟩⟩ := h
  · exact State.run_eq (by simp only [on, vio, master, Nat.not_lt.2 due]; rfl)
  · exact State.run_eq (by simp only [on, vio, slave]; rfl)

theorem execWaveFrame_ignored (h : (s.turn dt).dev.wave.st = .disabled ∨ (s.turn dt).dev.port.vioValid = false ∨
      (s.turn dt).dev.waveMaster = true ∧ (s.turn dt).dev.now < (s.turn dt).dev.frameDue) :
    exec (.waveFrame dt timing ()) s = .next (s.after dt fun _ => (s.turn dt).dev) := by
  refine State.run_eq (if_pos ?_)
  obtain off | no_vio | ⟨master, early⟩ := h
  · simp [off]
  · simp [no_vio]
  · simp [master, early]

end

/-- A misplaced mark in a frame whose boundary was not assumed counts that boundary as missing too. -/
def Wave.misplaced (w : Wave) : Wave :=
  { w with stable := 0, began := false, missing := if w.assumed then w.missing else w.missing + 1, assumed := false
           frameErr := stick 16 (w.frameErr + if w.assumed then 1 else 2) }

theorem Dev.judgeFrame_misplaced_besideSlots (d : Dev) :
    (d.judgeFrame .misplaced).wave.besideSlots = d.wave.misplaced.besideSlots :=
  congrArg Wave.misplaced d.cutFrame_besideSlots

section
variable {d : Dev} {t : FrameTiming}

theorem Dev.judgeFrame_misplaced_missing (came : d.wave.assumed = false) :
    (d.judgeFrame .misplaced).wave.missing = d.wave.missing + 1 :=
  (congrArg Wave.missing d.judgeFrame_misplaced_besideSlots :).trans (if_neg (came ▸ Bool.false_ne_true))

theorem Dev.judgeFrame_misplaced_frameErr (came : d.wave.assumed = false) :
    (d.judgeFrame .misplaced).wave.frameErr = stick 16 (d.wave.frameErr + 2) :=
  (congrArg Wave.frameErr d.judgeFrame_misplaced_besideSlots :).trans
    (congrArg (fun n => stick 16 (d.wave.frameErr + n)) (if_neg (came ▸ Bool.false_ne_true)))

theorem Dev.frameStarts_first (first : d.wave.marked = false) (comes : t ≠ .missing) :
    d.frameStarts t = d.firstFrameBegins := by
  simp only [Dev.frameStarts, first, comes, Bool.not_false, if_true, if_false]

theorem Dev.frameStarts_begins (marked : d.wave.marked = true) (few : (d.judgeFrame t).wave.missing < 2) :
    d.frameStarts t = (d.judgeFrame t).frameBegins := by
  simp only [Dev.frameStarts, marked, Nat.not_le.2 few, Bool.not_true, Bool.false_eq_true, if_false]

theorem Dev.frameStarts_lost (marked : d.wave.marked = true) (many : 2 ≤ (d.judgeFrame t).wave.missing) :
    d.frameStarts t = (d.judgeFrame t).clockLoss 1 := by
  simp only [Dev.frameStarts, marked, many, Bool.not_true, Bool.false_eq_true, if_true, if_false]

end

/-! ### Clock loss (12 R338, R339) -/

theorem Dev.clockLoss_wave (d : Dev) (cause : Byte) :
    (d.clockLoss cause).wave = { (d.mute .lost).wave with
      losses := stick 16 (d.wave.losses + 1), muted := if d.wave.st = .acquiring then d.wave.muted else 0 } := by
  simp only [Dev.clockLoss, Dev.event_wave, Dev.setWave_wave]
  rfl

theorem Dev.clockLoss_logged {d : Dev} (no_por : d.ctl.por = false) (cause : Byte) :
    (d.clockLoss cause).log = d.loggedAs [(0x0501, 0xFF, [cause])] :=
  Dev.event_logged _ 0x0501 0xFF [cause] no_por

/-! ### A word of an in-slot (12 R334, R341, R343, R349) -/

/-- The parity and the V bit of a word are counted (12 R335). -/
def Wave.judgeWord (w : Wave) (word : Word) : Wave :=
  { w with
    parityErr := if parityOk word then w.parityErr else stick 16 (w.parityErr + 1)
    vSkipped := if parityOk word && bit word 7 then stick 16 (w.vSkipped + 1) else w.vSkipped }

/-- A word enters an in-slot, with its C bit. -/
def WaveSlot.receive (x : WaveSlot) (running : Bool) (cap : Nat) (word : Word) : WaveSlot :=
  { x.push running cap word with csBits := x.csBits ++ [bit word 5], csGood := x.csGood && parityOk word }

/-- The duty of a word is used: the port runs, and the word is valid. -/
def Dev.usesWord (d : Dev) (word : Word) : Bool := (d.wave.st == .running) && parityOk word && !bit word 7

/-- The port receives a word of the in-slot `k`, the first of its frame. -/
structure Dev.Hears (d : Dev) (k : Fin 16) : Prop where
  on : d.wave.st ≠ .disabled
  clocked : d.wave.st ≠ .lost
  marked : d.wave.marked = true
  vio : d.port.vioValid = true
  live : k.val < d.waveSlots
  isIn : d.isIn k = true
  first : (d.wave.slots.get k).inFrame = none

section
variable (d : Dev) (k : Fin 16) (word : Word)

theorem Dev.takeWord_wave (use_ : Bool) : ∃ fresh kept,
    (d.takeWord k word use_).wave = (d.modSlot k fun x => { x with
      inFrame := some (x.duty, fresh, kept), duty := if use_ then some (bits word 16 16) else x.duty }).wave := by
  cases use_ <;> exact ⟨_, _, rfl⟩

/-- A word of slot `k` has been judged and has entered the slot. -/
def Dev.wordReceived : Dev :=
  (d.setWave (·.judgeWord word)).modSlot k (·.receive (d.wave.st == .running) (2 ^ d.slotLog k) word)

/-- A word of slot `k` is judged, enters the slot, and has its duty used where it is valid. -/
def Dev.hearWord : Dev := (d.wordReceived k word).takeWord k word (d.usesWord word)

theorem WaveSlot.receive_duty (x : WaveSlot) (running : Bool) (cap : Nat) : (x.receive running cap word).duty = x.duty :=
  (congrArg WaveSlot.duty (x.push_besideWords running cap word) :)

theorem WaveSlot.push_lastWord (x : WaveSlot) (running : Bool) (cap : Nat) : (x.push running cap word).lastWord = word := by
  unfold WaveSlot.push
  dsimp only
  split <;> rfl

theorem WaveSlot.push_buffer (x : WaveSlot) (running : Bool) (cap : Nat) :
    (x.push running cap word).buffer = if x.writes running then (word :: x.buffer).take cap else x.buffer :=
  apply_ite WaveSlot.buffer (x.writes running = true) _ _

/-- But for the channel status, to receive a word is to push it. -/
theorem WaveSlot.receive_besideStatus (x : WaveSlot) (running : Bool) (cap : Nat) :
    (x.receive running cap word).besideStatus = x.besideStatus.push running cap word :=
  apply_ite WaveSlot.besideStatus (x.writes running = true) _ _

theorem Dev.hearWord_besideSlots : (d.hearWord k word).wave.besideSlots = (d.wave.judgeWord word).besideSlots := by
  obtain ⟨fresh, kept, taken⟩ := (d.wordReceived k word).takeWord_wave k word (d.usesWord word)
  rw [Dev.hearWord, taken]
  rfl

theorem Dev.hearWord_get_self : ∃ fresh kept,
    (d.hearWord k word).wave.slots.get k =
      { (d.wave.slots.get k).receive (d.wave.st == .running) (2 ^ d.slotLog k) word with
        inFrame := some ((d.wave.slots.get k).duty, fresh, kept)
        duty := if d.usesWord word then some (bits word 16 16) else (d.wave.slots.get k).duty } := by
  obtain ⟨fresh, kept, taken⟩ := (d.wordReceived k word).takeWord_wave k word (d.usesWord word)
  refine ⟨fresh, kept, ?_⟩
  rw [Dev.hearWord, taken, Dev.modSlot_get_self, Dev.wordReceived, Dev.modSlot_get_self, WaveSlot.receive_duty]
  rfl

theorem Dev.hearWord_get_ne {j : Fin 16} (h : j ≠ k) : (d.hearWord k word).wave.slots.get j = d.wave.slots.get j := by
  obtain ⟨fresh, kept, taken⟩ := (d.wordReceived k word).takeWord_wave k word (d.usesWord word)
  rw [Dev.hearWord, taken, Dev.modSlot_get_ne h, Dev.wordReceived, Dev.modSlot_get_ne h]
  rfl

/-! ### B in slot 0 (12 R343) -/

theorem Dev.resend_besideSlots : d.resend.wave.besideSlots = d.wave.besideSlots :=
  Dev.foldl_same (q := fun e => e.wave.besideSlots) (fun _ _ _ => by rfl) d

/-- An in-slot sends nothing anew. -/
theorem Dev.resend_get {d : Dev} {k : Fin 16} (isIn : d.isIn k = true) : d.resend.wave.slots.get k = d.wave.slots.get k := by
  refine Dev.foldl_same (q := fun e => e.wave.slots.get k) (fun e a out => Dev.modSlot_get_ne ?_ e _) d
  rintro rfl
  simp [isIn] at out

/-- The port realigned by a B that comes inside the block. -/
def Dev.realigned : Dev := (d.setWave fun x => { x with realign := stick 16 (x.realign + 1) }).startBlock.resend

theorem Dev.realigned_besideSlots : d.realigned.wave.besideSlots =
    ({ d.wave with realign := stick 16 (d.wave.realign + 1) }.blockBegun d.now d.time.onFallback).besideSlots :=
  (Dev.resend_besideSlots _).trans (Dev.startBlock_besideSlots _)

theorem Dev.startBlock_par : d.startBlock.par = d.par :=
  (Dev.startBlock_keeps (W := (· = .wave)) rfl (.refl d)).frame .par (by decide)

theorem Dev.resend_par : d.resend.par = d.par :=
  (Dev.resend_keeps (W := (· = .wave)) rfl (.refl d)).frame .par (by decide)

theorem Dev.realigned_par : d.realigned.par = d.par := (Dev.resend_par _).trans (Dev.startBlock_par _)

theorem Dev.realigned_besideStatus {d : Dev} {k : Fin 16} (isIn : d.isIn k = true) :
    (d.realigned.wave.slots.get k).besideStatus = (d.wave.slots.get k).besideStatus := by
  let e := d.setWave fun x => { x with realign := stick 16 (x.realign + 1) }
  have started_isIn : e.startBlock.isIn k = true := by
    rw [← isIn, Dev.isIn, Dev.word, e.startBlock_par]
    rfl
  rw [Dev.realigned, Dev.resend_get started_isIn]
  exact e.startBlock_besideStatus k

/-- The port in which a word of slot `k` is judged: a B in slot 0 realigns it first. -/
def Dev.aligned : Dev := if k = 0 then d.takeB word else d

theorem Dev.aligned_eq_or : d.aligned k word = d.realigned ∨ d.aligned k word = d := by
  unfold Dev.aligned Dev.takeB
  split
  · split
    · exact .inl rfl
    · exact .inr rfl
  · exact .inr rfl

theorem Dev.aligned_of_ne {k : Fin 16} (h : k ≠ 0) : d.aligned k word = d := if_neg h

theorem Dev.aligned_of_b {word : Word} (b : bit word 3 = true) (parity : parityOk word = true) (inside : d.wave.frame ≠ 0) :
    d.aligned 0 word = d.realigned := by
  simp [Dev.aligned, Dev.takeB, Dev.realigned, b, parity, inside]

theorem Dev.aligned_par : (d.aligned k word).par = d.par := by
  obtain same | same := d.aligned_eq_or k word <;> rw [same]
  exact d.realigned_par

theorem Dev.aligned_besideBlock :
    { (d.aligned k word).wave.besideBlock with realign := 0 } = { d.wave.besideBlock with realign := 0 } := by
  obtain same | same := d.aligned_eq_or k word <;> rw [same]
  exact (congrArg (fun w => { w.unplaced with realign := 0 }) d.realigned_besideSlots :)

theorem Dev.aligned_besideStatus {d : Dev} {k : Fin 16} (isIn : d.isIn k = true) :
    ((d.aligned k word).wave.slots.get k).besideStatus = (d.wave.slots.get k).besideStatus := by
  obtain same | same := d.aligned_eq_or k word <;> rw [same]
  exact Dev.realigned_besideStatus isIn

/-- What the port makes of a word of slot `k`. -/
def Dev.wordComes : Dev := (d.aligned k word).hearWord k word

theorem execInSlotWord_heard {s : State} {dt : Nat} {k : Fin 16} (h : (s.turn dt).dev.Hears k) (word : Word) :
    exec (.inSlotWord dt k word) s = .next (s.after dt fun _ => (s.turn dt).dev.wordComes k word) := by
  obtain ⟨on, clocked, marked, vio, live, isIn, first⟩ := h
  exact State.run_eq (by simp only [on, clocked, marked, vio, Nat.not_le.2 live, isIn, first]; rfl)

theorem Dev.wordComes_parityErr : (d.wordComes k word).wave.parityErr =
    if parityOk word then d.wave.parityErr else stick 16 (d.wave.parityErr + 1) := by
  have parityErr_same : (d.aligned k word).wave.parityErr = d.wave.parityErr :=
    (congrArg Wave.parityErr (d.aligned_besideBlock k word) :)
  rw [← parityErr_same]
  exact congrArg Wave.parityErr ((d.aligned k word).hearWord_besideSlots k word)

theorem Dev.wordComes_vSkipped : (d.wordComes k word).wave.vSkipped =
    if parityOk word = true ∧ bit word 7 = true then stick 16 (d.wave.vSkipped + 1) else d.wave.vSkipped := by
  have vSkipped_same : (d.aligned k word).wave.vSkipped = d.wave.vSkipped :=
    (congrArg Wave.vSkipped (d.aligned_besideBlock k word) :)
  rw [← vSkipped_same]
  refine (congrArg Wave.vSkipped ((d.aligned k word).hearWord_besideSlots k word)).trans ?_
  exact ite_congr (propext Bool.and_eq_true_iff) (fun _ => rfl) fun _ => rfl

theorem Dev.wordComes_get_self {d : Dev} {k : Fin 16} (isIn : d.isIn k = true) : ∃ fresh kept,
    ((d.wordComes k word).wave.slots.get k).besideStatus =
      { (d.wave.slots.get k).besideStatus.push (d.wave.st == .running) (2 ^ d.slotLog k) word with
        inFrame := some ((d.wave.slots.get k).duty, fresh, kept)
        duty := if d.usesWord word then some (bits word 16 16) else (d.wave.slots.get k).duty } := by
  let e := d.aligned k word
  obtain ⟨fresh, kept, heard⟩ := e.hearWord_get_self k word
  have slot_same : (e.wave.slots.get k).besideStatus = (d.wave.slots.get k).besideStatus := Dev.aligned_besideStatus word isIn
  have duty_same : (e.wave.slots.get k).duty = (d.wave.slots.get k).duty := (congrArg WaveSlot.duty slot_same :)
  have st_same : e.wave.st = d.wave.st := (congrArg Wave.st (d.aligned_besideBlock k word) :)
  have log_same : e.slotLog k = d.slotLog k := by rw [Dev.slotLog, Dev.fld, Dev.word, d.aligned_par]; rfl
  have received := (e.wave.slots.get k).receive_besideStatus word (d.wave.st == .running) (2 ^ d.slotLog k)
  refine ⟨fresh, kept, ?_⟩
  rw [Dev.wordComes, heard, Dev.usesWord, st_same, log_same, duty_same, ← slot_same, ← received]
  rfl

theorem Dev.wordComes_get_ne {j k : Fin 16} (other : j ≠ k) (not_first : k ≠ 0) :
    (d.wordComes k word).wave.slots.get j = d.wave.slots.get j := by
  rw [Dev.wordComes, d.aligned_of_ne word not_first, d.hearWord_get_ne k word other]

theorem Dev.wordComes_of_b {word : Word} (b : bit word 3 = true) (parity : parityOk word = true) (inside : d.wave.frame ≠ 0) :
    (d.wordComes 0 word).wave.besideSlots =
      (({ d.wave with realign := stick 16 (d.wave.realign + 1) }.blockBegun d.now d.time.onFallback).judgeWord
        word).besideSlots := by
  rw [Dev.wordComes, d.aligned_of_b b parity inside, Dev.hearWord_besideSlots]
  exact congrArg (Wave.judgeWord · word) d.realigned_besideSlots

theorem Dev.usesWord_iff : d.usesWord word = true ↔ d.wave.st = .running ∧ parityOk word = true ∧ bit word 7 = false := by
  simp [Dev.usesWord, and_assoc]

end

end Sys2Proof.Machine

namespace Sys2Proof
open Machine

/-- Settles O51: a frame start by how it counts (`Dev.frameStarts`), and a word by what the port makes of it
(`Dev.wordComes`). -/
theorem waveFramesAct : Obligations.WaveFramesAct := by
  intro s dt d w
  refine ⟨fun timing on vio marked counts => ?_, fun on vio marked slave => ?_,
    fun timing on vio first counts => ?_,
    fun timing idle => ⟨_, execWaveFrame_ignored idle, State.after_wave ..⟩,
    fun k word on clocked marked vio live isIn first => ?_,
    fun word on clocked marked vio live isIn first b parity inside => ?_⟩
  · have taken : d.TakesFrame timing .stable :=
      ⟨on, vio, counts.imp (fun ⟨master, due⟩ => ⟨master, due, rfl⟩) fun ⟨slave, stable⟩ => ⟨slave, stable.symm⟩⟩
    have none_missing : (d.judgeFrame .stable).wave.missing = 0 := rfl
    refine ⟨_, execWaveFrame_taken taken, ?_⟩
    rw [State.after_wave, Dev.frameStarts_begins marked (none_missing ▸ Nat.zero_lt_two)]
    exact ⟨Dev.frameBegins_stable _, Dev.frameBegins_missing _, Dev.frameBegins_frame _, Dev.frameBegins_blocks _,
      Dev.frameBegins_starts _, Dev.frameBegins_count _, Dev.frameBegins_counting _⟩
  · have taken (t : FrameTiming) : d.TakesFrame t t := ⟨on, vio, .inr ⟨slave, rfl⟩⟩
    refine ⟨fun none_missing => ?_, fun some_missing no_por => ?_, fun came none_missing => ?_⟩
    · have one_missing : (d.judgeFrame .missing).wave.missing = 1 := congrArg (· + 1) none_missing
      refine ⟨_, execWaveFrame_taken (taken .missing), ?_⟩
      rw [State.after_wave, Dev.frameStarts_begins marked (one_missing ▸ Nat.one_lt_two)]
      exact ⟨Dev.frameBegins_stable _, (Dev.frameBegins_missing _).trans one_missing, Dev.frameBegins_frameErr _⟩
    · have two_missing : 2 ≤ (d.judgeFrame .missing).wave.missing := Nat.succ_le_succ some_missing
      refine ⟨_, execWaveFrame_taken (taken .missing), ?_⟩
      rw [Dev.frameStarts_lost marked two_missing, State.after_wave, Dev.clockLoss_wave]
      exact ⟨rfl, rfl, rfl, State.after_logged (Dev.clockLoss_logged (d := d.judgeFrame .missing) no_por 1)⟩
    · have one_missing : (d.judgeFrame .misplaced).wave.missing = 1 :=
        (Dev.judgeFrame_misplaced_missing came).trans (congrArg (· + 1) none_missing)
      refine ⟨_, execWaveFrame_taken (taken .misplaced), ?_⟩
      rw [State.after_wave, Dev.frameStarts_begins marked (one_missing ▸ Nat.one_lt_two)]
      exact ⟨Dev.frameBegins_stable _, (Dev.frameBegins_missing _).trans one_missing,
        (Dev.frameBegins_frameErr _).trans (Dev.judgeFrame_misplaced_frameErr came),
        fun k was fresh kept live isIn brought => (Dev.frameBegins_duty _ k).trans (Dev.cutFrame_duty live isIn brought)⟩
  · have port := d.firstFrameBegins_besideBlock
    obtain ⟨t, taken, comes⟩ : ∃ t, d.TakesFrame timing t ∧ t ≠ .missing := by
      obtain ⟨master, due⟩ | ⟨slave, comes⟩ := counts
      · exact ⟨.stable, ⟨on, vio, .inl ⟨master, due, rfl⟩⟩, by decide⟩
      · exact ⟨timing, ⟨on, vio, .inr ⟨slave, rfl⟩⟩, comes⟩
    refine ⟨_, execWaveFrame_taken taken, ?_⟩
    rw [State.after_wave, Dev.frameStarts_first first comes]
    exact ⟨(congrArg Wave.st port :), (congrArg Wave.marked port :), (congrArg Wave.stable port :),
      (congrArg Wave.starts port :)⟩
  · obtain ⟨fresh, kept, slot⟩ := Dev.wordComes_get_self word isIn
    refine ⟨_, execInSlotWord_heard ⟨on, clocked, marked, vio, live, isIn, first⟩ word, ?_⟩
    rw [State.after_wave]
    exact ⟨(congrArg WaveSlot.lastWord slot :).trans (WaveSlot.push_lastWord ..),
      ⟨fresh, kept, (congrArg WaveSlot.inFrame slot :)⟩,
      (congrArg WaveSlot.duty slot :).trans (ite_congr (propext (d.usesWord_iff word)) (fun _ => rfl) fun _ => rfl),
      d.wordComes_parityErr k word, d.wordComes_vSkipped k word,
      (congrArg WaveSlot.buffer slot :).trans (WaveSlot.push_buffer ..), fun not_first j other =>
        d.wordComes_get_ne word other not_first⟩
  · have port := d.wordComes_of_b b parity inside
    refine ⟨_, execInSlotWord_heard ⟨on, clocked, marked, vio, live, isIn, first⟩ word, ?_⟩
    rw [State.after_wave]
    exact ⟨(congrArg Wave.frame port :), (congrArg Wave.blockAt port :), (congrArg Wave.realign port :),
      (congrArg Wave.blocks port :)⟩

end Sys2Proof

/-! SUPPORT. O4, O5, O6: every command has an outcome, keeps its frame and the invariant (00 R8, 03 R93, 05 R141, R152, 08 R238). -/

namespace Sys2Proof.Machine
open Sys2Proof

/-- An opcode row runs as its packet does: it has a next state, leaves the queue, and changes what `writes` says and no more. -/
theorem exec_runs_of_opcode {c : Instr} (opcode : opcodePacket c ≠ none) (s : State) :
    Runs (· ∈ writes c) s (slots c) (exec c s) := by
  cases c with
  | nop p => apply execNop_runs <;> exact of_decide_eq_true rfl
  | identify p => apply execIdentify_runs <;> exact of_decide_eq_true rfl
  | statusDetail p => apply execStatusDetail_runs <;> exact of_decide_eq_true rfl
  | eventRead p => apply execEventRead_runs <;> exact of_decide_eq_true rfl
  | eventAck p => apply execEventAck_runs <;> exact of_decide_eq_true rfl
  | softReset p => apply execSoftReset_runs <;> exact of_decide_eq_true rfl
  | paramWrite p => apply execParamWrite_runs <;> exact of_decide_eq_true rfl
  | paramRead p => apply execParamRead_runs <;> exact of_decide_eq_true rfl
  | imageCheck p => apply execImageCheck_runs <;> exact of_decide_eq_true rfl
  | conduct p => apply execConduct_runs <;> exact of_decide_eq_true rfl
  | paramWriteLive p => apply execParamWriteLive_runs <;> exact of_decide_eq_true rfl
  | acappella p => apply execAcappella_runs <;> exact of_decide_eq_true rfl
  | voiceSetOn p => apply execVoiceSetOn_runs <;> exact of_decide_eq_true rfl
  | voiceSetOff p => apply execVoiceSetOff_runs <;> exact of_decide_eq_true rfl
  | voiceDuty p => apply execVoiceDuty_runs <;> exact of_decide_eq_true rfl
  | voiceClearFault p => apply execVoiceClearFault_runs <;> exact of_decide_eq_true rfl
  | voiceRetire p => apply execVoiceRetire_runs <;> exact of_decide_eq_true rfl
  | bankCut h banks => apply execBankCut_runs <;> exact of_decide_eq_true rfl
  | bankRestore h banks => apply execBankRestore_runs <;> exact of_decide_eq_true rfl
  | park p => apply execPark_runs <;> exact of_decide_eq_true rfl
  | resume p => apply execResume_runs <;> exact of_decide_eq_true rfl
  | cueAdd p => apply execCueAdd_runs <;> exact of_decide_eq_true rfl
  | cueCancel p => apply execCueCancel_runs <;> exact of_decide_eq_true rfl
  | cueQuery p => apply execCueQuery_runs <;> exact of_decide_eq_true rfl
  | cueQueryStats h ctrl reserved => apply execCueQueryStats_runs <;> exact of_decide_eq_true rfl
  | odometerRead h => apply execOdometerRead_runs <;> exact of_decide_eq_true rfl
  | odometerRebase h value => apply execOdometerRebase_runs <;> exact of_decide_eq_true rfl
  | tallyRead h input maxEntries ctrl reserved => apply execTallyRead_runs <;> exact of_decide_eq_true rfl
  | leadRead p => apply execLeadRead_runs <;> exact of_decide_eq_true rfl
  | adcReadBuffer p => apply execAdcReadBuffer_runs <;> exact of_decide_eq_true rfl
  | convertNow p => apply execConvertNow_runs <;> exact of_decide_eq_true rfl
  | adcEnginePause h engines => apply execAdcEnginePause_runs <;> exact of_decide_eq_true rfl
  | adcEngineRun h engines => apply execAdcEngineRun_runs <;> exact of_decide_eq_true rfl
  | adcEngineFlush h engines => apply execAdcEngineFlush_runs <;> exact of_decide_eq_true rfl
  | adcCalStatus p => apply execAdcCalStatus_runs <;> exact of_decide_eq_true rfl
  | waveReport p => apply execWaveReport_runs <;> exact of_decide_eq_true rfl
  | waveFreeze p => apply execWaveFreeze_runs <;> exact of_decide_eq_true rfl
  | waveRelease p => apply execWaveRelease_runs <;> exact of_decide_eq_true rfl
  | waveArmFault p => apply execWaveArmFault_runs <;> exact of_decide_eq_true rfl
  | waveClear p => apply execWaveClear_runs <;> exact of_decide_eq_true rfl
  | waveStatus p => apply execWaveStatus_runs <;> exact of_decide_eq_true rfl
  | thermalRead p => apply execThermalRead_runs <;> exact of_decide_eq_true rfl
  | throttleAck p => apply execThrottleAck_runs <;> exact of_decide_eq_true rfl
  | anchorBlip p => apply execAnchorBlip_runs <;> exact of_decide_eq_true rfl
  | nvRead p => apply execNvRead_runs <;> exact of_decide_eq_true rfl
  | nvProgram p => apply execNvProgram_runs <;> exact of_decide_eq_true rfl
  | nvErase p => apply execNvErase_runs <;> exact of_decide_eq_true rfl
  | nvProtect p => apply execNvProtect_runs <;> exact of_decide_eq_true rfl
  | recWrite p => apply execRecWrite_runs <;> exact of_decide_eq_true rfl
  | recRead p => apply execRecRead_runs <;> exact of_decide_eq_true rfl
  | recDelete p => apply execRecDelete_runs <;> exact of_decide_eq_true rfl
  | nvStatus p => apply execNvStatus_runs <;> exact of_decide_eq_true rfl
  | marginRead p => apply execMarginRead_runs <;> exact of_decide_eq_true rfl
  | lifetimeRead p => apply execLifetimeRead_runs <;> exact of_decide_eq_true rfl
  | scoreTotals p => apply execScoreTotals_runs <;> exact of_decide_eq_true rfl
  | scoreLegalSet p => apply execScoreLegalSet_runs <;> exact of_decide_eq_true rfl
  | scoreSectionMap p => apply execScoreSectionMap_runs <;> exact of_decide_eq_true rfl
  | scoreJobStart p => apply execScoreJobStart_runs <;> exact of_decide_eq_true rfl
  | scoreJobEnd p => apply execScoreJobEnd_runs <;> exact of_decide_eq_true rfl
  | scoreJobDiag p => apply execScoreJobDiag_runs <;> exact of_decide_eq_true rfl
  | scoreAuditRead p => apply execScoreAuditRead_runs <;> exact of_decide_eq_true rfl
  | scoreIdent p => apply execScoreIdent_runs <;> exact of_decide_eq_true rfl
  | chainEnumerate p => apply execChainEnumerate_runs <;> exact of_decide_eq_true rfl
  | chainStatus p => apply execChainStatus_runs <;> exact of_decide_eq_true rfl
  | chainRingOpen h => apply execChainRingOpen_runs <;> exact of_decide_eq_true rfl
  | chainRingClose h => apply execChainRingClose_runs <;> exact of_decide_eq_true rfl
  | chainRingRestore h => apply execChainRingRestore_runs <;> exact of_decide_eq_true rfl
  | breathCtrl p => apply execBreathCtrl_runs <;> exact of_decide_eq_true rfl
  | soundcheckRun p => apply execSoundcheckRun_runs <;> exact of_decide_eq_true rfl
  | soundcheckResult p => apply execSoundcheckResult_runs <;> exact of_decide_eq_true rfl
  | patchBegin p => apply execPatchBegin_runs <;> exact of_decide_eq_true rfl
  | patchData p => apply execPatchData_runs <;> exact of_decide_eq_true rfl
  | patchEnd p => apply execPatchEnd_runs <;> exact of_decide_eq_true rfl
  | patchAbort p => apply execPatchAbort_runs <;> exact of_decide_eq_true rfl
  | patchStatus p => apply execPatchStatus_runs <;> exact of_decide_eq_true rfl
  | _ => exact absurd rfl opcode

/-- A command that brings no packet runs likewise. -/
theorem exec_runs_of_event {c : Instr} (event : opcodePacket c = none) (s : State) :
    Runs (· ∈ writes c) s (slots c) (exec c s) := by
  cases c with
  | bar dt low sdi bits cut => apply execBar_runs <;> exact of_decide_eq_true rfl
  | commitEdge dt => apply execCommitEdge_runs <;> exact of_decide_eq_true rfl
  | downbeat dt => apply execDownbeat_runs <;> exact of_decide_eq_true rfl
  | watchdog dt => apply execWatchdog_runs <;> exact of_decide_eq_true rfl
  | rstn dt => apply execRstn_runs <;> exact of_decide_eq_true rfl
  | hostPortOpen dt => apply execHostPortOpen_runs <;> exact of_decide_eq_true rfl
  | vioLost dt => apply execVioLost_runs <;> exact of_decide_eq_true rfl
  | vioReturn dt => apply execVioReturn_runs <;> exact of_decide_eq_true rfl
  | powerOnReset dt banks => apply execPowerOnReset_runs <;> exact of_decide_eq_true rfl
  | controlBootDone dt zones => apply execControlBootDone_runs <;> exact of_decide_eq_true rfl
  | bootTimeout dt cause => apply execBootTimeout_runs <;> exact of_decide_eq_true rfl
  | recScanDone dt duration => apply execRecScanDone_runs (_duration := duration) <;> exact of_decide_eq_true rfl
  | scoreReset dt xin mseal levels => apply execScoreReset_runs <;> exact of_decide_eq_true rfl
  | vmetLost loss => apply execVmetLost_runs <;> exact of_decide_eq_true rfl
  | vmetCommit dt => apply execVmetCommit_runs <;> exact of_decide_eq_true rfl
  | pllLock dt => apply execPllLock_runs <;> exact of_decide_eq_true rfl
  | lockTimeout dt => apply execLockTimeout_runs <;> exact of_decide_eq_true rfl
  | referenceLost dt => apply execReferenceLost_runs <;> exact of_decide_eq_true rfl
  | referenceReturn ret => apply execReferenceReturn_runs <;> exact of_decide_eq_true rfl
  | tbAdopted dt => apply execTbAdopted_runs <;> exact of_decide_eq_true rfl
  | scoreReady dt duration => apply execScoreReady_runs (_duration := duration) <;> exact of_decide_eq_true rfl
  | tbcWord dt valid word => apply execTbcWord_runs <;> exact of_decide_eq_true rfl
  | tbLost dt cause => apply execTbLost_runs <;> exact of_decide_eq_true rfl
  | tbFallback dt => apply execTbFallback_runs <;> exact of_decide_eq_true rfl
  | tbQualified dt => apply execTbQualified_runs <;> exact of_decide_eq_true rfl
  | tbReturned dt => apply execTbReturned_runs <;> exact of_decide_eq_true rfl
  | fallbackBad dt => apply execFallbackBad_runs <;> exact of_decide_eq_true rfl
  | fallbackTrim dt => apply execFallbackTrim_runs <;> exact of_decide_eq_true rfl
  | timebaseMarkEnd dt => apply execTimebaseMarkEnd_runs <;> exact of_decide_eq_true rfl
  | scorePublication dt => apply execScorePublication_runs <;> exact of_decide_eq_true rfl
  | scoreSilent dt => apply execScoreSilent_runs <;> exact of_decide_eq_true rfl
  | mailboxMessage dt fate => apply execMailboxMessage_runs <;> exact of_decide_eq_true rfl
  | scoreRingCommit dt => apply execScoreRingCommit_runs <;> exact of_decide_eq_true rfl
  | tapSample dt taps => apply execTapSample_runs <;> exact of_decide_eq_true rfl
  | tallyEdge dt input rising merged => apply execTallyEdge_runs <;> exact of_decide_eq_true rfl
  | scoreGroundEvaluation dt => apply execScoreGroundEvaluation_runs <;> exact of_decide_eq_true rfl
  | laxitiaRequest dt line => apply execLaxitiaRequest_runs <;> exact of_decide_eq_true rfl
  | sealFuses dt ident verified => apply execSealFuses_runs <;> exact of_decide_eq_true rfl
  | timestampEdge dt input rising stamp pair => apply execTimestampEdge_runs (_pair := pair) <;> exact of_decide_eq_true rfl
  | stuckLevel dt input => apply execStuckLevel_runs <;> exact of_decide_eq_true rfl
  | groundEvaluation dt => apply execGroundEvaluation_runs <;> exact of_decide_eq_true rfl
  | odoFrozen dt => apply execOdoFrozen_runs <;> exact of_decide_eq_true rfl
  | cueExecute dt => apply execCueExecute_runs <;> exact of_decide_eq_true rfl
  | breathGrant dt => apply execBreathGrant_runs <;> exact of_decide_eq_true rfl
  | breathSpanEnd dt v => apply execBreathSpanEnd_runs <;> exact of_decide_eq_true rfl
  | breathWaitExpiry dt v => apply execBreathWaitExpiry_runs <;> exact of_decide_eq_true rfl
  | signatureWindowExpiry dt v m => apply execSignatureWindowExpiry_runs <;> exact of_decide_eq_true rfl
  | lhLevelChange dt lh raw => apply execLhLevelChange_runs <;> exact of_decide_eq_true rfl
  | lhRateRelease dt v => apply execLhRateRelease_runs <;> exact of_decide_eq_true rfl
  | chatter dt lh => apply execChatter_runs <;> exact of_decide_eq_true rfl
  | lhRearm dt lh => apply execLhRearm_runs <;> exact of_decide_eq_true rfl
  | gateRampEnd dt v => apply execGateRampEnd_runs <;> exact of_decide_eq_true rfl
  | profilePhaseEnd dt v => apply execProfilePhaseEnd_runs <;> exact of_decide_eq_true rfl
  | pwmPeriodStart dt v => apply execPwmPeriodStart_runs <;> exact of_decide_eq_true rfl
  | pwmOffEdge dt v => apply execPwmOffEdge_runs <;> exact of_decide_eq_true rfl
  | holdChopPeriod dt v clamped m => apply execHoldChopPeriod_runs <;> exact of_decide_eq_true rfl
  | clampPulseEnd dt v pulse m => apply execClampPulseEnd_runs <;> exact of_decide_eq_true rfl
  | fastTrip dt v stripes m => apply execFastTrip_runs <;> exact of_decide_eq_true rfl
  | desatTrip dt v stripes m => apply execDesatTrip_runs <;> exact of_decide_eq_true rfl
  | ocTimeout dt v m => apply execOcTimeout_runs <;> exact of_decide_eq_true rfl
  | gateFault dt v stripes m => apply execGateFault_runs <;> exact of_decide_eq_true rfl
  | olOnDetect dt v ceased m => apply execOlOnDetect_runs <;> exact of_decide_eq_true rfl
  | olOffDetect dt v ceased m => apply execOlOffDetect_runs <;> exact of_decide_eq_true rfl
  | stuckOnDetect dt v ceased m => apply execStuckOnDetect_runs <;> exact of_decide_eq_true rfl
  | revDetect dt v ceased m => apply execRevDetect_runs <;> exact of_decide_eq_true rfl
  | soundcheckStart dt => apply execSoundcheckStart_runs <;> exact of_decide_eq_true rfl
  | soundcheckDone dt failed0 failed1 incomplete voHigh => apply execSoundcheckDone_runs <;> exact of_decide_eq_true rfl
  | retryDue dt v => apply execRetryDue_runs <;> exact of_decide_eq_true rfl
  | retryClear dt v => apply execRetryClear_runs <;> exact of_decide_eq_true rfl
  | staggeredTurnOff dt => apply execStaggeredTurnOff_runs <;> exact of_decide_eq_true rfl
  | cutPinNonConducting dt bank => apply execCutPinNonConducting_runs <;> exact of_decide_eq_true rfl
  | bankSupplyAbsent dt bank => apply execBankSupplyAbsent_runs <;> exact of_decide_eq_true rfl
  | bankSupplyPresent dt bank => apply execBankSupplyPresent_runs <;> exact of_decide_eq_true rfl
  | crank dt bank begins volts => apply execCrank_runs <;> exact of_decide_eq_true rfl
  | bankOv dt bank change volts => apply execBankOv_runs <;> exact of_decide_eq_true rfl
  | chargePumpLow dt => apply execChargePumpLow_runs <;> exact of_decide_eq_true rfl
  | chargePumpRecovered dt => apply execChargePumpRecovered_runs <;> exact of_decide_eq_true rfl
  | bankCurrentSum dt sums => apply execBankCurrentSum_runs (_sums := sums) <;> exact of_decide_eq_true rfl
  | keepAliveFrame dt echoSame => apply execKeepAliveFrame_runs <;> exact of_decide_eq_true rfl
  | keepAliveLoss dt => apply execKeepAliveLoss_runs <;> exact of_decide_eq_true rfl
  | keepAliveReassert dt => apply execKeepAliveReassert_runs <;> exact of_decide_eq_true rfl
  | romCrcCheck dt crc => apply execRomCrcCheck_runs <;> exact of_decide_eq_true rfl
  | patchCrcCheck dt crc => apply execPatchCrcCheck_runs <;> exact of_decide_eq_true rfl
  | sramScrub dt corrected uncorrectable => apply execSramScrub_runs <;> exact of_decide_eq_true rfl
  | zoneHardStop dt zone => apply execZoneHardStop_runs (_zone := zone) <;> exact of_decide_eq_true rfl
  | zoneReading dt readings => apply execZoneReading_runs <;> exact of_decide_eq_true rfl
  | modelUpdate dt => apply execModelUpdate_runs <;> exact of_decide_eq_true rfl
  | throttleGraceEnd dt u => apply execThrottleGraceEnd_runs <;> exact of_decide_eq_true rfl
  | ceilingStep dt zone => apply execCeilingStep_runs <;> exact of_decide_eq_true rfl
  | blipEnd dt current voltage => apply execBlipEnd_runs (_current := current) (_voltage := voltage) <;> exact of_decide_eq_true rfl
  | zoneCheckDone dt zone result => apply execZoneCheckDone_runs <;> exact of_decide_eq_true rfl
  | scanStart dt e => apply execScanStart_runs <;> exact of_decide_eq_true rfl
  | atrgEdge dt pin rising => apply execAtrgEdge_runs <;> exact of_decide_eq_true rfl
  | conversion dt e raw => apply execConversion_runs <;> exact of_decide_eq_true rfl
  | urgentConversion dt source input raw => apply execUrgentConversion_runs <;> exact of_decide_eq_true rfl
  | sliceCheckDone dt slice result => apply execSliceCheckDone_runs (_result := result) <;> exact of_decide_eq_true rfl
  | calStep dt ends passed trims skew => apply execCalStep_runs <;> exact of_decide_eq_true rfl
  | waveFrame dt timing rate => apply execWaveFrame_runs (_rate := rate) <;> exact of_decide_eq_true rfl
  | inSlotWord dt slot word => apply execInSlotWord_runs <;> exact of_decide_eq_true rfl
  | waveLoss dt cause => apply execWaveLoss_runs <;> exact of_decide_eq_true rfl
  | waveUnmute dt => apply execWaveUnmute_runs <;> exact of_decide_eq_true rfl
  | waveFrozen dt slot => apply execWaveFrozen_runs <;> exact of_decide_eq_true rfl
  | measureBoundary dt => apply execMeasureBoundary_runs <;> exact of_decide_eq_true rfl
  | downstreamFrame dt port f => apply execDownstreamFrame_runs <;> exact of_decide_eq_true rfl
  | upstreamFrame dt port f start => apply execUpstreamFrame_runs <;> exact of_decide_eq_true rfl
  | enumerationDone e => apply execEnumerationDone_runs <;> exact of_decide_eq_true rfl
  | ringCloseResult dt returned hop => apply execRingCloseResult_runs (_returned := returned) (_hop := hop) <;> exact of_decide_eq_true rfl
  | linkDown dt port => apply execLinkDown_runs <;> exact of_decide_eq_true rfl
  | deviceUnreachable dt addr => apply execDeviceUnreachable_runs <;> exact of_decide_eq_true rfl
  | linkTimeout dt => apply execLinkTimeout_runs <;> exact of_decide_eq_true rfl
  | chainAcap dt => apply execChainAcap_runs <;> exact of_decide_eq_true rfl
  | breathReclaim dt addr => apply execBreathReclaim_runs <;> exact of_decide_eq_true rfl
  | hopLoopbackDone dt port result => apply execHopLoopbackDone_runs <;> exact of_decide_eq_true rfl
  | nvProgramDone dt failAt => apply execNvProgramDone_runs <;> exact of_decide_eq_true rfl
  | nvEraseSectorDone dt verified => apply execNvEraseSectorDone_runs <;> exact of_decide_eq_true rfl
  | garbageCollection dt => apply execGarbageCollection_runs <;> exact of_decide_eq_true rfl
  | flashCheckDone dt result => apply execFlashCheckDone_runs <;> exact of_decide_eq_true rfl
  | powerDown dt => apply execPowerDown_runs <;> exact of_decide_eq_true rfl
  | scoreCommitWait dt reported vhold => apply execScoreCommitWait_runs <;> exact of_decide_eq_true rfl
  | lifetimeSaveDone dt => apply execLifetimeSaveDone_runs <;> exact of_decide_eq_true rfl
  | markerWrite dt => apply execMarkerWrite_runs <;> exact of_decide_eq_true rfl
  | parkedRestart dt => apply execParkedRestart_runs <;> exact of_decide_eq_true rfl
  | vholdFault dt volts => apply execVholdFault_runs <;> exact of_decide_eq_true rfl
  | porAssert dt => apply execPorAssert_runs <;> exact of_decide_eq_true rfl
  | flashFloor dt => apply execFlashFloor_runs <;> exact of_decide_eq_true rfl
  | vholdReady dt => apply execVholdReady_runs <;> exact of_decide_eq_true rfl
  | scoreDieTemperature dt tenths => apply execScoreDieTemperature_runs <;> exact of_decide_eq_true rfl
  | chatterClear dt lh => apply execChatterClear_runs <;> exact of_decide_eq_true rfl
  | recordAppendDone dt verified => apply execRecordAppendDone_runs <;> exact of_decide_eq_true rfl
  | _ => cases event

theorem exec_runs (c : Instr) (s : State) : Runs (· ∈ writes c) s (slots c) (exec c s) := by
  by_cases event : opcodePacket c = none
  · exact exec_runs_of_event event s
  · exact exec_runs_of_opcode event s

/-- What the slots before a command may change. -/
theorem State.turn_keeps_slotParts (s : State) (n : Nat) : (s.turn n).dev.Keeps (· ∈ slotParts) s.dev := by
  apply State.turn_keeps <;> first | decide | exact .refl _

theorem Dev.Keeps.state_inv {W : Part → Prop} {s t : State} {n : Nat} (inv : s.Inv) (settled : (s.turn n).slot.Settled → t.slot.Settled)
    (keeps : t.dev.Keeps W (s.turn n).dev) : t.Inv :=
  ⟨keeps.good ((s.turn_keeps_slotParts n).good inv.good), settled (State.turn_settled n inv.settled)⟩

theorem Runs.inv {W : Part → Prop} {s t : State} {n : Nat} (runs : Runs W s n (.next t)) (inv : s.Inv) : t.Inv := by
  obtain ⟨t', next, -, settled, keeps⟩ := runs
  cases next
  exact keeps.state_inv inv settled

/-- On an empty queue a step is a slot that passes (00 R8). -/
theorem State.idle_runs (s : State) : Runs (· ∈ [.port]) s 1 (.next s.idle) :=
  ⟨_, rfl, s.turn_pending 1, id, State.after_keeps (by decide) (.refl _)⟩

/-- A step runs on the state that it has taken the command from. -/
theorem step_runs (s : State) : ∃ (W : Part → Prop) (n : Nat) (rest : List Instr),
    Runs W { s with pending := rest } n (step s) := by
  unfold step
  split
  · next empty => exact ⟨_, 1, s.pending, s.idle_runs⟩
  · next c rest _ => exact ⟨_, _, rest, exec_runs c _⟩

end Sys2Proof.Machine

namespace Sys2Proof
open Machine

/-- Settles O4: every step runs. -/
theorem everyStepGoesOn : Obligations.EveryStepGoesOn := by
  intro s
  obtain ⟨W, n, rest, t, next, -⟩ := step_runs s
  exact ⟨t, next⟩

/-- Settles O5: what every run keeps (`Runs.inv`) holds of every step. -/
theorem everyStepKeepsInvariant : Obligations.EveryStepKeepsInvariant := by
  intro s t inv next
  obtain ⟨W, n, rest, runs⟩ := step_runs s
  rw [next] at runs
  exact runs.inv ⟨inv.good, inv.settled⟩

/-- Settles O6: each command's own frame (`exec_runs`), and that of the slots before it. -/
theorem commandsKeepTheirFrame : Obligations.CommandsKeepTheirFrame := by
  refine ⟨fun c s t _ next => ?_, fun s n _ => ⟨s.turn_zero, s.turn_pending n, (s.turn_keeps_slotParts n).frame⟩⟩
  have runs := exec_runs c s
  rw [next] at runs
  obtain ⟨t', same, pending, -, keeps⟩ := runs
  cases same
  exact ⟨pending, keeps.frame⟩

end Sys2Proof

/-! SUPPORT. O10: bytes with their CRC, and the replies of a stream (03 R78, R91). -/

namespace Sys2Proof.Machine
open Sys2Proof

/-! ### Bytes with their CRC (03 R78) -/

theorem crc16Bit_lt {c : Nat} (b : Bool) : crc16Bit c b < 65536 := by
  have shifted : (2 * c) % 65536 < 2 ^ 16 := Nat.mod_lt _ (by decide)
  unfold crc16Bit
  dsimp only
  split
  · exact Nat.xor_lt_two_pow shifted (by decide)
  · exact shifted

theorem crc16_lt (bs : List Byte) : crc16 bs < 65536 := by
  unfold crc16
  cases bs.eq_nil_or_concat with
  | inl empty => subst empty; decide
  | inr last =>
    obtain ⟨bs, b, rfl⟩ := last
    rw [List.concat_eq_append, List.foldl_append]
    exact crc16Bit_lt _

/-- A field that its bytes spell is read from among other bytes. -/
theorem field_append_leBytes_append {p q : List Byte} {o n v : Nat} (h : p.length = o) (fits : v < 256 ^ n) :
    field (p ++ leBytes n v ++ q) o n = v := by
  rw [field_append_of_le (by simp [h]), field_append_leBytes h fits]

@[simp] theorem withCrc_length (bs : List Byte) : (withCrc bs).length = bs.length + 2 := by simp [withCrc]

/-- Bytes with their CRC hold it behind them. -/
theorem field_withCrc {bs : List Byte} {o : Nat} (h : bs.length = o) (q : List Byte) :
    field (withCrc bs ++ q) o 2 = crc16 bs :=
  field_append_leBytes_append h (crc16_lt bs)

theorem take_withCrc {bs : List Byte} {o : Nat} (h : bs.length = o) (q : List Byte) : (withCrc bs ++ q).take o = bs := by
  subst h
  rw [withCrc, List.append_assoc, List.take_left]

/-! ### Replies (03 R91) -/

/-- The bytes of a reply that its CRC covers. -/
def Reply.body (r : Reply) : List Byte := [b8 (r.src % 128), r.opc, r.tag, r.status] ++ leBytes 2 r.data.length ++ r.data

theorem Reply.bytes_eq (r : Reply) : r.bytes = withCrc r.body := rfl

@[simp] theorem Reply.body_length (r : Reply) : r.body.length = 6 + r.data.length := by simp [Reply.body]; omega

theorem Reply.bytes_length (r : Reply) : r.bytes.length = 8 + r.data.length := by rw [Reply.bytes_eq]; simp; omega

theorem Reply.bytes_dataLength {r : Reply} (fits : r.data.length < 65536) (q : List Byte) :
    field (r.bytes ++ q) 4 2 = r.data.length := by
  rw [Reply.bytes_eq, withCrc, List.append_assoc, Reply.body, List.append_assoc]
  exact field_append_leBytes_append rfl fits

theorem Reply.bytes_crc (r : Reply) (q : List Byte) :
    field (r.bytes ++ q) (6 + r.data.length) 2 = crc16 ((r.bytes ++ q).take (6 + r.data.length)) := by
  rw [Reply.bytes_eq, field_withCrc r.body_length, take_withCrc r.body_length]

/-- A reply whose bytes begin a stream is taken from it whole, with its CRC right. -/
theorem takeReply_bytes {r : Reply} (fits : r.data.length < 65536) (rest : List Byte) :
    takeReply (r.bytes ++ rest) = some (r.bytes, true, rest) := by
  have whole := r.bytes_length
  have crc := r.bytes_crc rest
  have not_short : ¬ ((r.bytes ++ rest).length < 8 || (r.bytes ++ rest).length < 8 + r.data.length) = true := by
    simp [whole]; omega
  have behind : 8 + r.data.length - 2 = 6 + r.data.length := by omega
  unfold takeReply
  dsimp only
  rw [Reply.bytes_dataLength fits, if_neg not_short, behind, crc, ← whole, List.take_left, List.drop_left]
  simp

/-- Replies sent back to back are taken one by one. -/
theorem takeReplies_bytes {rs : List Reply} {rest : List Byte} (fits : ∀ r ∈ rs, r.data.length < 65536)
    (none_whole : takeReply rest = none) {n : Nat} (enough : rs.length < n) :
    takeReplies n (rs.flatMap Reply.bytes ++ rest) = (rs.map fun r => (r.bytes, true), rest) := by
  induction rs generalizing n with
  | nil =>
    obtain ⟨m, rfl⟩ := Nat.exists_eq_succ_of_ne_zero (Nat.ne_of_gt enough)
    simp [takeReplies, none_whole]
  | cons r rs ih =>
    obtain ⟨m, rfl⟩ := Nat.exists_eq_succ_of_ne_zero (Nat.ne_of_gt (Nat.zero_lt_of_lt enough))
    have taken := takeReply_bytes (fits r List.mem_cons_self) (rs.flatMap Reply.bytes ++ rest)
    have others := ih (fun x hx => fits x (List.mem_cons_of_mem r hx)) (n := m) (Nat.lt_of_succ_lt_succ enough)
    rw [List.flatMap_cons, List.append_assoc, takeReplies, taken]
    simp only [others, List.map_cons]

end Sys2Proof.Machine

namespace Sys2Proof
open Machine

/-- Settles O10, by induction on the replies of the stream. -/
theorem repliesReadBack : Obligations.RepliesReadBack := by
  intro rs rest n fits enough none_whole
  refine ⟨takeReplies_bytes (fun r hr => (fits r hr).2) none_whole enough, fun r hr => ?_⟩
  obtain ⟨src_fits, data_fits⟩ := fits r hr
  have data_length := r.bytes_dataLength data_fits []
  have crc := r.bytes_crc []
  rw [List.append_nil] at data_length crc
  refine ⟨r.bytes_length, ?_, rfl, rfl, rfl, data_length, ?_, crc⟩
  · show (BitVec.ofNat 8 (r.src % 128)).toNat = r.src
    simp [Nat.mod_eq_of_lt src_fits]
    omega
  · have six : ([b8 (r.src % 128), r.opc, r.tag, r.status] ++ leBytes 2 r.data.length).length = 6 := by simp
    rw [Reply.bytes_eq, withCrc, Reply.body, List.append_assoc, ← six, List.drop_left, List.take_left]

end Sys2Proof

/-! SUPPORT. O15: the packets of a packet area, and what they do at its commit edge (03 R84, R87, R100). -/

namespace Sys2Proof.Machine
open Sys2Proof

/-! ### Packets (03 R84) -/

/-- The bytes of a packet that its CRC covers. -/
def Packet.body (p : Packet) : List Byte := [p.dest, p.opc, p.tag] ++ leBytes 2 p.params.length ++ p.params

theorem Packet.bytes_eq (p : Packet) : p.bytes = withCrc p.body := rfl

@[simp] theorem Packet.body_length (p : Packet) : p.body.length = 5 + p.params.length := by simp [Packet.body]; omega

theorem Packet.bytes_length (p : Packet) : p.bytes.length = 7 + p.params.length := by rw [Packet.bytes_eq]; simp; omega

theorem Packet.bytes_paramsLength {p : Packet} (fits : p.params.length < 65536) (q : List Byte) :
    field (p.bytes ++ q) 3 2 = p.params.length := by
  rw [Packet.bytes_eq, withCrc, List.append_assoc, Packet.body, List.append_assoc]
  exact field_append_leBytes_append rfl fits

theorem Packet.bytes_crc (p : Packet) (q : List Byte) :
    field (p.bytes ++ q) (5 + p.params.length) 2 = crc16 ((p.bytes ++ q).take (5 + p.params.length)) := by
  rw [Packet.bytes_eq, field_withCrc p.body_length, take_withCrc p.body_length]

theorem Packet.bytes_params (p : Packet) (q : List Byte) : ((p.bytes ++ q).drop 5).take p.params.length = p.params := by
  have five : ([p.dest, p.opc, p.tag] ++ leBytes 2 p.params.length).length = 5 := by simp
  rw [Packet.bytes_eq, withCrc, Packet.body, List.append_assoc, List.append_assoc, ← five, List.drop_left, List.take_left]

/-! ### The packets of an area, and its first framing loss -/

/-- A packet whose bytes stand at the offset is the next packet of the area. -/
theorem parseArea_packet {area pre rest : List Byte} {p : Packet} (fits : p.params.length < 65536)
    (place : area = pre ++ (p.bytes ++ rest)) (fuel : Nat) :
    parseArea area (fuel + 1) pre.length =
      (p :: (parseArea area fuel (pre ++ p.bytes).length).1, (parseArea area fuel (pre ++ p.bytes).length).2) := by
  have behind : area.drop pre.length = p.bytes ++ rest := by rw [place, List.drop_left]
  have whole := p.bytes_length
  have not_empty : ¬ (p.bytes ++ rest).isEmpty = true := by
    rw [List.isEmpty_iff_length_eq_zero]; simp [whole]
  have not_short : ¬ (p.bytes ++ rest).length < 7 + p.params.length := by simp [whole]
  have next : pre.length + 7 + p.params.length = (pre ++ p.bytes).length := by simp [whole]; omega
  have read : Packet.mk ((p.bytes ++ rest).getD 0 0) ((p.bytes ++ rest).getD 1 0) ((p.bytes ++ rest).getD 2 0)
      (((p.bytes ++ rest).drop 5).take p.params.length) = p := by
    rw [p.bytes_params]; rfl
  rw [parseArea]
  simp only [behind, Packet.bytes_paramsLength fits, if_neg not_empty, if_neg not_short, p.bytes_crc rest,
    ne_eq, not_true, if_false, next]
  rw [read]

/-- The packets whose bytes lead an area are its packets, before what is behind them. -/
theorem parseArea_packets (ps : List Packet) {area pre rest : List Byte} (fits : ∀ p ∈ ps, p.params.length < 65536)
    (place : area = pre ++ (ps.flatMap Packet.bytes ++ rest)) (fuel : Nat) :
    parseArea area (ps.length + fuel) pre.length =
      (ps ++ (parseArea area fuel (pre ++ ps.flatMap Packet.bytes).length).1,
        (parseArea area fuel (pre ++ ps.flatMap Packet.bytes).length).2) := by
  induction ps generalizing pre with
  | nil => simp
  | cons p ps ih =>
    have split : area = pre ++ (p.bytes ++ (ps.flatMap Packet.bytes ++ rest)) := by
      rw [place, List.flatMap_cons, List.append_assoc]
    have others := ih (pre := pre ++ p.bytes) (fun x hx => fits x (List.mem_cons_of_mem p hx)) (by rw [split, List.append_assoc])
    rw [List.length_cons, Nat.add_right_comm, parseArea_packet (fits p List.mem_cons_self) split, others,
      List.flatMap_cons, List.append_assoc]
    rfl

/-- The packets behind one another are no more than their bytes. -/
theorem length_le_flatMap_bytes (ps : List Packet) : ps.length ≤ (ps.flatMap Packet.bytes).length := by
  induction ps with
  | nil => exact Nat.le_refl 0
  | cons p ps ih =>
    have whole := p.bytes_length
    rw [List.flatMap_cons, List.length_append, List.length_cons]
    omega

/-- An area led by packets has those packets, and the loss that what is behind them makes. -/
theorem parseArea_loss {ps : List Packet} {area rest : List Byte} {lost : Option (Nat × Byte)}
    (fits : ∀ p ∈ ps, p.params.length < 65536) (place : area = ps.flatMap Packet.bytes ++ rest)
    (behind : ∀ fuel, parseArea area (fuel + 1) (ps.flatMap Packet.bytes).length = ([], lost)) :
    parseArea area (area.length + 1) 0 = (ps, lost) := by
  have few := length_le_flatMap_bytes ps
  obtain ⟨fuel, enough⟩ : ∃ fuel, area.length + 1 = ps.length + (fuel + 1) := ⟨area.length - ps.length, by
    rw [place, List.length_append]; omega⟩
  have led := parseArea_packets ps (pre := []) fits place (fuel + 1)
  rw [List.nil_append, behind, List.append_nil] at led
  rw [enough]
  exact led

/-- How an area ends behind its packets: nothing is left, or bytes that are no packet (03 R100). -/
theorem parseArea_end {area rest : List Byte} {o : Nat} (place : area.drop o = rest) (none_left : rest = []) (fuel : Nat) :
    parseArea area (fuel + 1) o = ([], none) := by
  rw [parseArea, place, none_left]
  rfl

theorem parseArea_cutShort {area rest : List Byte} {o : Nat} (place : area.drop o = rest) (left : rest ≠ [])
    (short : rest.length < 7 + field rest 3 2) (fuel : Nat) :
    parseArea area (fuel + 1) o = ([], some (o, stBadLength)) := by
  rw [parseArea]
  simp [place, left, short]

theorem parseArea_wrongCrc {area rest : List Byte} {o : Nat} (place : area.drop o = rest) (left : rest ≠ [])
    (whole : 7 + field rest 3 2 ≤ rest.length)
    (wrong : field rest (5 + field rest 3 2) 2 ≠ crc16 (rest.take (5 + field rest 3 2))) (fuel : Nat) :
    parseArea area (fuel + 1) o = ([], some (o, stBadCrc)) := by
  rw [parseArea]
  simp [place, left, Nat.not_lt.2 whole, wrong]

/-! ### The commit edge (03 R87) -/

theorem Dev.commitNow_of_parse {snap d : Dev} {b : PendingBar} {ps : List Packet} {lost : Option (Nat × Byte)}
    (awaits : d.port.commit = some b) (parse : parseArea b.area (b.area.length + 1) 0 = (ps, lost)) :
    Dev.commitNow snap d = Dev.commitBar snap { d with port := { d.port with commit := none } } b.barNo ps
      (lost.map (d.lostReply b.area)) := by
  simp only [Dev.commitNow, awaits, parse]
  rfl

/-- The commit edge of a bar whose area has these packets and this loss. -/
theorem execCommitEdge_of_parse {s : State} {dt : Nat} {b : PendingBar} {ps : List Packet} {lost : Option (Nat × Byte)}
    (awaits : (s.turn dt).dev.port.commit = some b) (parse : parseArea b.area (b.area.length + 1) 0 = (ps, lost))
    {r : Option Reply} (told : lost.map ((s.turn dt).dev.lostReply b.area) = r) :
    exec (.commitEdge dt) s = .next (s.after dt fun d =>
      Dev.commitBar s.snap { d with port := { d.port with commit := none } } b.barNo ps r) := by
  subst told
  exact congrArg Host.Outcome.next (State.after_congr (Dev.commitNow_of_parse awaits parse))

/-- The loss of a packet of which at least 3 bytes have come is told by its own OPC and TAG (03 R100). -/
theorem Dev.lostReply_behind {area pre rest : List Byte} (place : area = pre ++ rest) (three : 3 ≤ rest.length) (d : Dev)
    (st : Byte) : d.lostReply area (pre.length, st) = { src := 0, opc := rest.getD 1 0, tag := rest.getD 2 0, status := st
                                                        data := leBytes 2 pre.length, settle := none } := by
  have byte (k : Nat) (x : Byte) (within : k < rest.length) : area.getD (pre.length + k) x = rest.getD k 0 := by
    simp [place, within]
  simp only [Dev.lostReply, byte 1 _ (by omega), byte 2 _ (by omega)]

theorem Dev.takeAll_eq_foldl {ps : List Packet} (no_reset : ∀ p ∈ ps, p.opc ≠ 0x06) (snap d : Dev) :
    Dev.takeAll snap d ps = ps.foldl (Dev.takePacket snap) d := by
  induction ps generalizing d with
  | nil => rfl
  | cons p ps ih =>
    have goes_on : (Dev.takePacket snap d p).softReset? p = false := by
      rw [Dev.softReset?, decide_eq_false (no_reset p List.mem_cons_self)]
      rfl
    simp only [Dev.takeAll, goes_on, Bool.false_eq_true, if_false, List.foldl_cons]
    exact ih (fun x hx => no_reset x (List.mem_cons_of_mem p hx)) _

/-- The device whose bar awaits its commit edge no longer. -/
def Dev.uncommitted (d : Dev) : Dev := { d with port := { d.port with commit := none } }

/-- That a bar awaits its commit edge is no flag. -/
theorem Dev.uncommitted_newsBits (d prev : Dev) : d.uncommitted.newsBits prev = d.newsBits prev := by
  simp only [Dev.newsBits]
  rfl

theorem State.after_uncommitted (s : State) (dt : Nat) (f : Dev → Dev) :
    ({ s.turn dt with dev := (s.turn dt).dev.uncommitted } : State).after 0 f = s.after dt fun d => f d.uncommitted := by
  unfold State.after
  simp only [State.turn_zero, Dev.tellNews, Dev.uncommitted_newsBits]

/-- The packet of an opcode row at the commit edge of the bar that has brought it. -/
theorem State.packet_uncommitted (s : State) (dt : Nat) (p : Packet) :
    ({ s.turn dt with dev := (s.turn dt).dev.uncommitted } : State).packet p.opc p.dest p.tag p.params =
      .next (s.after dt fun d => Dev.commitBar (s.turn dt).snap d.uncommitted ((d.port.barNo + 65535) % 65536) [p] none) :=
  congrArg Host.Outcome.next (s.after_uncommitted dt fun d =>
    Dev.commitBar (s.turn dt).snap d ((d.port.barNo + 65535) % 65536) [p] none)

/-- The command of an opcode row is its packet, alone in its bar. -/
theorem exec_opcodePacket {c : Instr} {p : Packet} (row : opcodePacket c = some p) (s : State) :
    exec c s = s.packet p.opc p.dest p.tag p.params := by
  cases c <;> cases row <;> rfl

end Sys2Proof.Machine

namespace Sys2Proof
open Machine

/-- Settles O15: the packets of an area by `parseArea_packets`, and the commit edge by what the area has. -/
theorem commitEdgeTakesThePacketsOfTheBar : Obligations.CommitEdgeTakesThePacketsOfTheBar := by
  refine ⟨fun s dt b ps awaits area fits => ?_, fun snap d n ps no_reset => Dev.takeAll_eq_foldl no_reset snap _,
    fun s dt b c p row => ?_, fun s dt b ps rest st awaits area fits left three loss => ?_,
    fun ps rest fits left => ?_⟩
  · have parse := parseArea_loss (area := b.area) (rest := []) (lost := none) fits (by rw [area, List.append_nil])
      (parseArea_end (by rw [area, List.drop_length]) rfl)
    exact execCommitEdge_of_parse awaits parse rfl
  · intro d awaits area fits barNo
    have parse := parseArea_loss (area := b.area) (ps := [p]) (rest := []) (lost := none) (by simpa using fits)
      (by simp [area]) (parseArea_end (by simp [area]) rfl)
    rw [execCommitEdge_of_parse awaits parse rfl, exec_opcodePacket row, barNo, ← s.turn_snap dt]
    refine Eq.trans (congrArg Host.Outcome.next (State.after_congr ?_)) (s.packet_uncommitted dt p).symm
    rfl
  · have behind : b.area.drop (ps.flatMap Packet.bytes).length = rest := by rw [area, List.drop_left]
    have parse : parseArea b.area (b.area.length + 1) 0 = (ps, some ((ps.flatMap Packet.bytes).length, st)) := by
      refine parseArea_loss fits area fun fuel => ?_
      obtain ⟨short, rfl⟩ | ⟨whole, wrong, rfl⟩ := loss
      · exact parseArea_cutShort behind left short fuel
      · exact parseArea_wrongCrc behind left whole wrong fuel
    exact execCommitEdge_of_parse awaits parse (congrArg some (Dev.lostReply_behind area three _ st))
  · intro area short
    exact parseArea_loss fits rfl (parseArea_cutShort List.drop_left left short)

end Sys2Proof

/-! SUPPORT. O12: what a packet can do to the Score (05 R157, 15 R434). -/

namespace Sys2Proof.Machine
open Sys2Proof

/-- A device in CONDUCTED whose Score is powered and has scanned its ring, and no command waiting. -/
def State.conductedWithScore : State :=
  let d : Dev := { State.reset.dev with
    ctl := { State.reset.dev.ctl with mode := .conducted, por := false }
    score := { State.reset.dev.score with powered := true, scanned := true } }
  { pending := [], dev := d, snap := d, slot := d }

/-- PARK drives the power-fail line high, at which the Score commits its totals to the ring (15 R434). -/
theorem State.park_commits_ring : ∃ t, State.conductedWithScore.packet 0x25 0 9 [] = .next t ∧
    t.dev.score.ringNext ≠ State.conductedWithScore.dev.score.ringNext :=
  ⟨_, rfl, by decide +kernel⟩

end Sys2Proof.Machine

namespace Sys2Proof
open Machine

/-- Refutes O12: at PARK the Score commits to its ring in the slot in which the power-fail line rises, so that more of it
changes than the line. -/
theorem not_packetsLeaveTheScoreAlone : ¬ Obligations.PacketsLeaveTheScoreAlone := by
  intro h
  obtain ⟨t, parks, committed⟩ := State.park_commits_ring
  obtain ⟨⟨b, same⟩, -⟩ := h State.conductedWithScore t 0x25 0 9 [] parks
  exact committed (by rw [same])

end Sys2Proof

/-! SUPPORT. O1, O2, O3, O11, O16: a step, the state after reset, the log and the queues, and the snapshot of a bar (02 R38, 03
R75, R82, R92, R93, 05 R141). -/

namespace Sys2Proof.Machine
open Sys2Proof

/-! ### The header of a bar (03 R82) -/

/-- The header as far as its own CRC does not cover the length of the reply stream. -/
def Dev.headerCore (d prev : Dev) : List Byte :=
  [0xA5, b8 d.hstat] ++ leBytes 2 d.port.barNo ++ leInt 8 d.time.tbc ++ leBytes 2 (d.attn prev) ++
    leBytes 2 (d.log.nextSeq - 1).toNat ++ [b8 d.prev, b8 d.port.prevAccepted]

theorem Dev.header_eq (d prev : Dev) (n : Nat) :
    d.header prev n = withCrc (withCrc (d.headerCore prev) ++ leBytes 2 (min n 65535)) := rfl

@[simp] theorem length_leInt (n : Nat) (v : Int) : (leInt n v).length = n := length_leBytes n _

@[simp] theorem Dev.headerCore_length (d prev : Dev) : (d.headerCore prev).length = 18 := by simp [Dev.headerCore]

@[simp] theorem Dev.header_length (d prev : Dev) (n : Nat) : (d.header prev n).length = 24 := by simp [Dev.header_eq]

theorem Dev.header_barNo (d prev : Dev) (n : Nat) : field (d.header prev n) 2 2 = d.port.barNo % 65536 := by
  have led : (d.header prev n).drop 2 = leBytes 2 d.port.barNo ++ (d.header prev n).drop 4 := rfl
  rw [field, led, List.take_left' (length_leBytes 2 _)]
  exact leNat_leBytes 2 _

theorem Dev.header_streamLength (d prev : Dev) (n : Nat) : field (d.header prev n) 20 2 = min n 65535 := by
  rw [Dev.header_eq, withCrc]
  exact field_append_leBytes_append (by simp) (Nat.lt_of_le_of_lt (Nat.min_le_right n 65535) (by decide))

theorem Dev.header_coreCrc (d prev : Dev) (n : Nat) :
    field (d.header prev n) 18 2 = crc16 ((d.header prev n).take 18) := by
  rw [Dev.header_eq, withCrc, List.append_assoc, field_withCrc (d.headerCore_length prev), take_withCrc (d.headerCore_length prev)]

theorem Dev.header_crc (d prev : Dev) (n : Nat) :
    field (d.header prev n) 22 2 = crc16 ((d.header prev n).take 22) := by
  have crc := field_withCrc (bs := withCrc (d.headerCore prev) ++ leBytes 2 (min n 65535)) (o := 22) (by simp) []
  have covered := take_withCrc (bs := withCrc (d.headerCore prev) ++ leBytes 2 (min n 65535)) (o := 22) (by simp) []
  rw [List.append_nil] at crc covered
  rw [Dev.header_eq, crc, covered]

/-! ### What a bar clocks out (03 R75, R92) -/

theorem Dev.sdoBytes_length (d prev : Dev) (n : Nat) : (d.sdoBytes prev n).length = n := by
  simp only [Dev.sdoBytes, List.length_append, List.length_take, List.length_replicate, Dev.header_length]
  omega

/-- A bar of at least 24 bytes clocks the whole header out first. -/
theorem Dev.sdoBytes_header {n : Nat} (long : 24 ≤ n) (d prev : Dev) :
    (d.sdoBytes prev n).take 24 = d.header prev d.replyStream.length := by
  have shown : 24 ≤ min n (min 8192 (24 + d.replyStream.length)) := by omega
  have whole := d.header_length prev d.replyStream.length
  rw [Dev.sdoBytes, List.take_append_of_le_length (by simp; omega), List.take_take, Nat.min_eq_left shown,
    List.take_left' whole]

/-! ### Full queues (03 R93, 05 R141) -/

theorem EventLog.push_of_room {l : EventLog} (room : l.events.length < 256) (e : Event) :
    (l.push e).events = l.events ++ [e] ∧ (l.push e).lost = l.lost := by
  have not_full : ¬ 256 ≤ l.events.length := Nat.not_le.2 room
  simp [EventLog.push, not_full]

theorem EventLog.push_of_full {l : EventLog} {old : Event} {rest : List Event} (held : l.events = old :: rest)
    (full : rest.length = 255) (e : Event) :
    (l.push e).events = rest ++ [e] ∧ (l.push e).lost = if old.acked then l.lost else min (l.lost + 1) 65535 := by
  simp only [EventLog.push, held, full, List.length_cons]
  cases acked : old.acked <;> simp [stick, acked]

theorem HostPort.push_of_room {p : HostPort} (room : p.replies.length < 64) (r : Reply) :
    (p.push r).replies = p.replies ++ [r] ∧ (p.push r).replyLost = p.replyLost := by
  simp [HostPort.push, Nat.not_le.2 room]

theorem HostPort.push_of_full {p : HostPort} {old : Reply} {rest : List Reply} (held : p.replies = old :: rest)
    (full : rest.length = 63) (r : Reply) : (p.push r).replies = rest ++ [r] ∧ (p.push r).replyLost = true := by
  simp [HostPort.push, held, full]

end Sys2Proof.Machine

namespace Sys2Proof
open Machine

/-- Settles O1, by the queue's two forms. -/
theorem stepRunsFrontCommand : Obligations.StepRunsFrontCommand := by
  intro c rest s front
  rw [step, front]

/-- Settles O2, by the state after reset. -/
theorem resetIsStarting : Obligations.ResetIsStarting := by
  refine ⟨rfl, rfl, fun v => ?_, rfl, rfl, rfl, rfl, rfl, rfl⟩
  have off : State.reset.dev.voice v = Voice.reset := Tab.get_fill ..
  rw [off]
  exact ⟨rfl, rfl⟩

/-- Settles O3: what is empty at reset leaves nothing over. -/
theorem resetMeetsInvariant : Obligations.ResetMeetsInvariant :=
  ⟨⟨by decide, ⟨by decide, fun i h => absurd h (Nat.not_lt_zero i)⟩, by decide, by decide⟩,
    ⟨fun r h => absurd h List.not_mem_nil, rfl, rfl, rfl, rfl, fun e h => absurd h List.not_mem_nil⟩⟩

/-- Settles O11, by whether the log or the queue has room. -/
theorem fullQueuesLoseTheOldest : Obligations.FullQueuesLoseTheOldest := by
  refine ⟨fun d code unit data no_por => ?_, fun p r => ⟨fun room => p.push_of_room room r,
    fun old rest held full => p.push_of_full held full r⟩⟩
  intro e t
  have logs : t = ({ d with log := d.log.push e }).raiseIrq := by
    simp only [t, Dev.event, no_por]
    rfl
  rw [logs]
  exact ⟨rfl, rfl, fun room => d.log.push_of_room room e, fun old rest held full => d.log.push_of_full held full e⟩

/-- Settles O16, by the fields of the header and what of it a bar clocks out. -/
theorem snapshotHeaderLeadsTheBar : Obligations.SnapshotHeaderLeadsTheBar := by
  intro d prev n
  exact ⟨d.sdoBytes_length prev n, d.header_length prev _, rfl, d.header_barNo prev _, d.header_streamLength prev _,
    d.header_coreCrc prev _, d.header_crc prev _, fun long _ => d.sdoBytes_header long prev⟩

end Sys2Proof

/-! SUPPORT. O7: what a slot that passes does to the chain TBC (16 R470). -/

namespace Sys2Proof.Machine
open Sys2Proof

/-- The device after reset, but that a backward move of the chain TBC is to hold its count for a slot. -/
def State.holdingCount : State :=
  let d : Dev := { State.reset.dev with chain := { State.reset.dev.chain with holdOne := true } }
  { pending := [], dev := d, snap := d, slot := d }

/-- The slot that passes on an empty queue is the one in which the count is held. -/
theorem State.holdingCount_tbc : State.holdingCount.idle.dev.time.tbc = State.holdingCount.dev.time.tbc := by
  decide +kernel

end Sys2Proof.Machine

namespace Sys2Proof
open Machine

/-- Refutes O7: where the chain TBC holds its count for one slot (16 R470), the slot that passes on an empty queue leaves the
control die's TBC as it was. -/
theorem not_timePassesAlone : ¬ Obligations.TimePassesAlone := by
  intro h
  obtain ⟨t, next, -, -, advanced⟩ := h.2 State.holdingCount rfl
  obtain rfl : State.holdingCount.idle = t := Host.Outcome.next.inj next
  rw [State.holdingCount_tbc] at advanced
  omega

end Sys2Proof

/-! SUPPORT. O8, O9: the checks that a packet to this device meets, in their order (05 R130, R131, 03 R89). -/

namespace Sys2Proof.Machine
open Sys2Proof

/-! ### A packet to this device -/

/-- The device as a packet to it meets it: its bar has its number, and on the precentor its entry, which says whether a
packet of it waits for a downbeat (16 R468, R471). -/
def Dev.openedAs (d : Dev) (db : Bool) : Dev :=
  (d.openBar ((d.port.barNo + 65535) % 65536)).modBar fun b => { b with db := b.db || db }

theorem Dev.openedAs_eq (d : Dev) (db : Bool) : ∃ fs, d.openedAs db =
    { d with port := { d.port with serial := d.port.serial + 1 }, chain := { d.chain with forward := fs } } := by
  unfold Dev.openedAs Dev.openBar Dev.modBar Dev.setChain
  dsimp only
  split <;> dsimp only <;> split <;> exact ⟨_, rfl⟩

/-- A packet to this device alone is taken by it. -/
theorem State.packet_taken (s : State) {p : Packet} (own : p.addr = 0) :
    s.packet p.opc p.dest p.tag p.params =
      .next (s.after 0 fun _ => Dev.takeOwn s.snap (s.dev.openedAs p.db) p false) := by
  have taken : Dev.takePacket s.snap (s.dev.openBar ((s.dev.port.barNo + 65535) % 65536)) p =
      Dev.takeOwn s.snap (s.dev.openedAs p.db) p false := by
    simp only [Dev.takePacket, own]
    rfl
  refine State.run_eq (s := s) (dt := 0) ?_
  rw [State.turn_zero, ← taken]
  simp only [Dev.commitBar, Dev.takeAll]
  split <;> rfl

/-! ### A packet that fails a check -/

/-- The packet has no effect but its reply: beside the port nothing changes but the entry of its bar and the status that a
PATCH_LOAD keeps. -/
def State.Refuses (s : State) (opc tag : Byte) (a : List Byte) (st : Byte) (data : List Byte) : Prop :=
  ∃ po pa fs, s.packet opc 0 tag a = .next (s.after 0 fun _ =>
      { s.dev with port := po, patch := pa, chain := { s.dev.chain with forward := fs } }) ∧
    po.replies = (s.dev.port.push { src := 0, opc := opc, tag := tag, status := st, data := data, settle := none }).replies ∧
    po.prevAccepted = s.dev.port.prevAccepted ∧ (opc ≠ 0xF0 → pa = s.dev.patch)

theorem HostPort.push_prevAccepted (p : HostPort) (r : Reply) : (p.push r).prevAccepted = p.prevAccepted := by
  unfold HostPort.push
  split <;> rfl

theorem HostPort.push_pendingDb (p : HostPort) (r : Reply) : (p.push r).pendingDb = p.pendingDb := by
  unfold HostPort.push
  split <;> rfl

theorem Dev.keepPatchStatus_eq (d : Dev) (p : Packet) (a : Answer) :
    ∃ pa, d.keepPatchStatus p a = { d with patch := pa } ∧ (p.opc ≠ 0xF0 → pa = d.patch) := by
  unfold Dev.keepPatchStatus
  split
  · next kept =>
    have load : p.opc = 0xF0 := of_decide_eq_true (Bool.and_eq_true_iff.1 kept).1
    exact ⟨_, rfl, fun other => absurd load other⟩
  · exact ⟨d.patch, rfl, fun _ => rfl⟩

section
variable {s : State} {opc tag : Byte} {a : List Byte}

theorem State.refuses_of_takeOwn {st : Byte} {data : List Byte}
    (refused : Dev.takeOwn s.snap (s.dev.openedAs false) { dest := 0, opc := opc, tag := tag, params := a } false =
      Dev.finish (s.dev.openedAs false, some (fail st data)) false false { dest := 0, opc := opc, tag := tag, params := a }) :
    s.Refuses opc tag a st data := by
  obtain ⟨fs, opened⟩ := s.dev.openedAs_eq false
  obtain ⟨pa, kept, same_patch⟩ := Dev.keepPatchStatus_eq (s.dev.openedAs false)
    { dest := 0, opc := opc, tag := tag, params := a } (fail st data)
  let told : Reply := { src := 0, opc := opc, tag := tag, status := st, data := data, settle := none }
  have ends : Dev.takeOwn s.snap (s.dev.openedAs false) { dest := 0, opc := opc, tag := tag, params := a } false =
      { s.dev with port := HostPort.push { s.dev.port with serial := s.dev.port.serial + 1 } told, patch := pa
                   chain := { s.dev.chain with forward := fs } } := by
    rw [refused, Dev.finish]
    dsimp only
    rw [kept, opened]
    rfl
  have packet := s.packet_taken (p := { dest := 0, opc := opc, tag := tag, params := a }) rfl
  have not_db : Packet.db { dest := 0, opc := opc, tag := tag, params := a } = false := by simp [Packet.db]
  rw [not_db, ends] at packet
  refine ⟨_, pa, fs, packet, HostPort.push_congr ?_ told, HostPort.push_prevAccepted _ told, fun other => ?_⟩
  · rfl
  · rw [same_patch other, opened]

/-- Checks 3 to 6 see only what the entry of its bar leaves as it is. -/
theorem Dev.openedAs_precheck (d : Dev) (db : Bool) (p : Packet) : (d.openedAs db).precheck p = d.precheck p := by
  obtain ⟨fs, opened⟩ := d.openedAs_eq db
  rw [opened]
  rfl

/-- A packet that fails check 3, 4 or 5 is refused. -/
theorem State.refuses_of_precheck {st : Byte} {data : List Byte}
    (failed : s.dev.precheck { dest := 0, opc := opc, tag := tag, params := a } = some (fail st data)) :
    s.Refuses opc tag a st data := by
  refine State.refuses_of_takeOwn ?_
  simp only [Dev.takeOwn, Dev.openedAs_precheck, failed]

/-- A packet that passes checks 3 to 6 and fails check 7 or 8 is refused. -/
theorem State.refuses_of_execute {st : Byte} {data : List Byte} (above : 1 < st.toNat)
    (passed : s.dev.precheck { dest := 0, opc := opc, tag := tag, params := a } = none)
    (failed : Dev.execute s.snap (s.dev.openedAs false) { dest := 0, opc := opc, tag := tag, params := a } false =
      (s.dev.openedAs false, some (fail st data))) : s.Refuses opc tag a st data := by
  refine State.refuses_of_takeOwn ?_
  have not_counted (d : Dev) : d.countAccepted false (some (fail st data)) = d := by
    simp [Dev.countAccepted, fail, Nat.not_le.2 above]
  have not_db : Packet.db { dest := 0, opc := opc, tag := tag, params := a } = false := by simp [Packet.db]
  simp only [Dev.takeOwn, Dev.openedAs_precheck, passed, not_db, failed, not_counted, Bool.false_eq_true, if_false]

/-! ### The checks in their order (05 R130) -/

theorem Dev.precheck_of_no_row {d : Dev} (none_row : opRow opc a.length = none) :
    d.precheck { dest := 0, opc := opc, tag := tag, params := a } = some (fail stUnknown []) := by
  simp only [Dev.precheck, none_row]

variable {row : OpRow} (known : opRow opc a.length = some row)
include known

theorem Dev.precheck_of_legalOnly {d : Dev} (legal : legalOnly opc = true) (variant : d.score.variant = .s) :
    d.precheck { dest := 0, opc := opc, tag := tag, params := a } = some (fail stUnknown []) := by
  simp [Dev.precheck, known, legal, variant]

variable {d : Dev} (assigned : ¬(legalOnly opc = true ∧ d.score.variant = .s))
include assigned

theorem Dev.precheck_of_length (wrong : lenOk opc a = false) :
    d.precheck { dest := 0, opc := opc, tag := tag, params := a } = some (fail stBadLength []) := by
  simp [Dev.precheck, known, assigned, wrong]

theorem Dev.precheck_of_reserved (fits : lenOk opc a = true) {failure : Answer} (bad : reservedAnswer opc a = some failure) :
    d.precheck { dest := 0, opc := opc, tag := tag, params := a } = some failure := by
  simp [Dev.precheck, known, assigned, fits, bad]

theorem Dev.precheck_passed (fits : lenOk opc a = true) (good : reservedAnswer opc a = none) :
    d.precheck { dest := 0, opc := opc, tag := tag, params := a } = none := by
  simp [Dev.precheck, known, assigned, fits, good, Packet.db]

end

/-- What check 7 refuses: the mode, CONDUCT in STARTING, and what is no Read on a chain device's port. -/
theorem Dev.admits_eq_false {d : Dev} {row : OpRow} {opc : Byte}
    (barred : row.modes.has (if d.pdRunning then .parked else d.ctl.mode) = false ∨ (opc = 0x13 ∧ d.ctl.mode = .starting) ∨
      (d.role = 2 ∧ row.kind ≠ .read)) : d.admits row opc false = false := by
  obtain mode | ⟨conduct, starting⟩ | ⟨role, kind⟩ := barred
  · simp only [Dev.admits, mode, Bool.false_and]
  · simp [Dev.admits, conduct, starting]
  · simp [Dev.admits, role, kind]

theorem Dev.openedAs_admits (d : Dev) (db : Bool) (row : OpRow) (opc : Byte) :
    (d.openedAs db).admits row opc false = d.admits row opc false := by
  obtain ⟨fs, opened⟩ := d.openedAs_eq db
  rw [opened]
  rfl

theorem Dev.openedAs_scanning (snap d : Dev) (db : Bool) (p : Packet) :
    Dev.scanning snap (d.openedAs db) p = Dev.scanning snap d p := by
  obtain ⟨fs, opened⟩ := d.openedAs_eq db
  rw [opened]
  rfl

/-- In HALTED no Commit but EVENT_ACK, SOFT_RESET and BANK_CUT is admitted (05 R131, R133). -/
theorem opRow_modes_of_commit {opc : Byte} {n : Nat} {row : OpRow} (known : opRow opc n = some row) (commit : row.kind = .commit)
    (not_ack : opc ≠ 0x04) (not_reset : opc ≠ 0x06) (not_cut : opc ≠ 0x24) : row.modes ≠ .all := by
  have ne_toNat {x : Byte} (h : opc ≠ x) : opc.toNat ≠ x.toNat := fun same => h (BitVec.eq_of_toNat_eq same)
  have := ne_toNat not_ack
  have := ne_toNat not_reset
  have := ne_toNat not_cut
  unfold opRow at known
  split at known <;> cases known
  case h_23 =>
    split at commit
    · next eight => simp [eight]
    · split at commit <;> cases commit
  all_goals first
    | contradiction
    | nofun

/-- HALTED admits no Commit but those three, unless a power-down sequence runs. -/
theorem Dev.admits_of_halted {d : Dev} {row : OpRow} {opc : Byte} (halted : d.ctl.mode = .halted) (still : d.pdRunning = false)
    (not_all : row.modes ≠ .all) : d.admits row opc false = false := by
  refine Dev.admits_eq_false (.inl ?_)
  rw [still, halted]
  cases modes : row.modes <;> first | exact absurd modes not_all | rfl

/-! ### A DB packet (03 R89) -/

/-- A DB packet that passes checks 1 to 6 waits for its downbeat. -/
theorem State.packet_waits {s : State} {p : Packet} (own : p.addr = 0) (db : p.db = true) (passed : s.dev.precheck p = none) :
    ∃ po fs, s.packet p.opc p.dest p.tag p.params = .next (s.after 0 fun _ =>
        { s.dev with port := po, chain := { s.dev.chain with forward := fs } }) ∧
      po.pendingDb = s.dev.port.pendingDb ++
        [{ packet := p, serial := if s.dev.chain.head then s.dev.port.serial + 1 else 0, viaChain := false }] ∧
      po.prevAccepted = stick 8 (s.dev.port.prevAccepted + 1) ∧
      po.replies = (s.dev.port.push { src := 0, opc := p.opc, tag := p.tag, status := stPending, data := [], settle := none }).replies := by
  obtain ⟨fs, opened⟩ := s.dev.openedAs_eq p.db
  let waits : HostPort := { s.dev.port with
    serial := s.dev.port.serial + 1, prevAccepted := stick 8 (s.dev.port.prevAccepted + 1)
    pendingDb := s.dev.port.pendingDb ++
      [{ packet := p, serial := if s.dev.chain.head then s.dev.port.serial + 1 else 0, viaChain := false }] }
  let told : Reply := { src := 0, opc := p.opc, tag := p.tag, status := stPending, data := [], settle := none }
  have ends : Dev.takeOwn s.snap (s.dev.openedAs p.db) p false =
      { s.dev with port := waits.push told, chain := { s.dev.chain with forward := fs } } := by
    rw [db] at opened ⊢
    simp only [Dev.takeOwn, Dev.openedAs_precheck, passed]
    rw [opened]
    simp only [db, if_true, Bool.or_false]
    rfl
  have packet := s.packet_taken own
  rw [ends] at packet
  refine ⟨_, fs, packet, HostPort.push_pendingDb _ told, HostPort.push_prevAccepted _ told, HostPort.push_congr ?_ told⟩
  rfl

end Sys2Proof.Machine

namespace Sys2Proof
open Machine

/-- Settles O8: the checks in the order of `Dev.precheck`, then those of `Dev.execute`. -/
theorem packetsAreCheckedInOrder : Obligations.PacketsAreCheckedInOrder := by
  intro s opc tag a _ refused
  refine ⟨fun none_row => State.refuses_of_precheck (Dev.precheck_of_no_row none_row), fun row known => ⟨fun legal variant =>
    State.refuses_of_precheck (Dev.precheck_of_legalOnly known legal variant), fun assigned => ⟨fun wrong =>
    State.refuses_of_precheck (Dev.precheck_of_length known assigned wrong), fun fits other bad => ?_,
    fun i fits cueAdd bad => ?_, fun fits good => ?_⟩⟩, fun halted still row known commit not_ack not_reset not_cut =>
    Dev.admits_of_halted halted still (opRow_modes_of_commit known commit not_ack not_reset not_cut)⟩
  · have failure : reservedAnswer opc a = some (fail stBadParam []) := by
      rw [reservedAnswer, if_neg other, if_pos bad]
    exact State.refuses_of_precheck (Dev.precheck_of_reserved known assigned fits failure)
  · have failure : reservedAnswer opc a = some (fail stBadParam (leBytes 2 i ++ [0xFF, 0xFF])) := by
      rw [reservedAnswer, if_pos cueAdd, bad]
      rfl
    exact State.refuses_of_precheck (Dev.precheck_of_reserved known assigned fits failure)
  · have passed := Dev.precheck_passed (tag := tag) known assigned fits good
    refine ⟨fun barred => ?_, fun admitted scanning => ?_⟩
    · refine State.refuses_of_execute (by decide) passed ?_
      have not_admitted := (s.dev.openedAs_admits false row opc).trans (Dev.admits_eq_false barred)
      obtain ⟨fs, opened⟩ := s.dev.openedAs_eq false
      simp only [Dev.execute, known, not_admitted, Bool.not_false, if_true, Dev.wrongMode]
      rw [opened]
    · refine State.refuses_of_execute (by decide) passed ?_
      simp only [Dev.execute, known, Dev.openedAs_admits, admitted, Dev.openedAs_scanning, scanning, Bool.not_true,
        Bool.false_eq_true, if_false, if_true]

/-- Settles O9: a DB packet that passes joins the packets that wait. -/
theorem dbPacketsWaitForTheirDownbeat : Obligations.DbPacketsWaitForTheirDownbeat := by
  intro s opc tag a _ p passed
  have own : Packet.addr { dest := 0x80, opc := opc, tag := tag, params := a } = 0 := by
    show (BitVec.toNat (0x80#8)) % 128 = 0
    decide
  have db : Packet.db { dest := 0x80, opc := opc, tag := tag, params := a } = true := by
    show (BitVec.toNat (0x80#8)).testBit 7 = true
    decide
  obtain ⟨po, fs, packet, waits, counted, replies⟩ := State.packet_waits own db passed
  exact ⟨po, fs, packet, waits, counted, replies⟩

end Sys2Proof

/-! SUPPORT. The events that several changes log one after another, and the fields of the host port after a command (05 R141,
03 R95). -/

namespace Sys2Proof.Machine
open Sys2Proof

/-! ### What is logged -/

theorem Dev.loggedAs_nil (d : Dev) : d.loggedAs [] = d.log := rfl

/-- An event behind those that a device has logged since `d`, on the same time base. -/
theorem Dev.event_loggedAs {e d : Dev} {es : List (Nat × Nat × List Byte)} (no_por : e.ctl.por = false)
    (time : e.time = d.time) (logged : e.log = d.loggedAs es) (code unit : Nat) (data : List Byte) :
    (e.event code unit data).log = d.loggedAs (es ++ [(code, unit, data)]) := by
  rw [Dev.event_logged e code unit data no_por]
  simp [Dev.loggedAs, List.foldl_append, logged, time]

/-- A change of the mode behind the events that a device has logged since `d` (05 R143). -/
theorem Dev.toMode_loggedAs {e d : Dev} {es : List (Nat × Nat × List Byte)} (no_por : e.ctl.por = false)
    (time : e.time = d.time) (logged : e.log = d.loggedAs es) (m : Mode) (cause : Nat) :
    (e.toMode m cause).log = d.loggedAs (es ++ [(0x0002, 0xFF, [b8 e.ctl.mode.code, b8 m.code, b8 cause])]) :=
  Dev.event_loggedAs (e := { e with ctl := { e.ctl with mode := m } }) no_por time logged ..

/-- The log tells of the device by its log and its time base alone. -/
theorem Dev.loggedAs_congr {e d : Dev} (log : e.log = d.log) (time : e.time = d.time) (es : List (Nat × Nat × List Byte)) :
    e.loggedAs es = d.loggedAs es := by
  simp only [Dev.loggedAs, log, time]

/-! ### The host port after a command, IRQN aside -/

section
variable (s : State) (dt : Nat) (f : Dev → Dev)

@[simp] theorem State.after_isOpen : (s.after dt f).dev.port.isOpen = (f (s.turn dt).dev).port.isOpen := by
  obtain ⟨b, n, h⟩ := s.after_port dt f
  rw [h]
@[simp] theorem State.after_barNo : (s.after dt f).dev.port.barNo = (f (s.turn dt).dev).port.barNo := by
  obtain ⟨b, n, h⟩ := s.after_port dt f
  rw [h]
@[simp] theorem State.after_sdo : (s.after dt f).dev.port.sdo = (f (s.turn dt).dev).port.sdo := by
  obtain ⟨b, n, h⟩ := s.after_port dt f
  rw [h]
@[simp] theorem State.after_watchdog : (s.after dt f).dev.port.watchdog = (f (s.turn dt).dev).port.watchdog := by
  obtain ⟨b, n, h⟩ := s.after_port dt f
  rw [h]
@[simp] theorem State.after_pendingDb : (s.after dt f).dev.port.pendingDb = (f (s.turn dt).dev).port.pendingDb := by
  obtain ⟨b, n, h⟩ := s.after_port dt f
  rw [h]
@[simp] theorem State.after_prevAccepted :
    (s.after dt f).dev.port.prevAccepted = (f (s.turn dt).dev).port.prevAccepted := by
  obtain ⟨b, n, h⟩ := s.after_port dt f
  rw [h]
@[simp] theorem State.after_vioValid : (s.after dt f).dev.port.vioValid = (f (s.turn dt).dev).port.vioValid := by
  obtain ⟨b, n, h⟩ := s.after_port dt f
  rw [h]
@[simp] theorem State.after_reopenAt : (s.after dt f).dev.port.reopenAt = (f (s.turn dt).dev).port.reopenAt := by
  obtain ⟨b, n, h⟩ := s.after_port dt f
  rw [h]

end

end Sys2Proof.Machine

/-! SUPPORT. O17: the downbeat, the watchdog and the supply of the host port (02 R39, 03 R89, R98, 17 R505). -/

namespace Sys2Proof.Machine
open Sys2Proof

/-! ### The watchdog (03 R98, 08 R239) -/

/-- The entry to FALLBACK logs the change of the mode. -/
theorem Dev.enterFallback_log (d : Dev) (cause : Nat) : (d.enterFallback cause).log = (d.toMode .fallback cause).log := by
  have rest : (d.enterFallback cause).Keeps (· ≠ .log) (d.toMode .fallback cause).stopWatchdog := by
    refine Dev.forVoices_keeps ?_ (fun x hx v => ?_) _
    · exact Dev.withdrawAll_keeps (by decide) (by decide) (Dev.cancelCues_keeps (by decide) (.refl _))
    · apply Dev.fallbackVoice_keeps <;> first | decide | exact hx
  exact rest.frame .log (by decide)

theorem Dev.watchdogExpire_eq {d : Dev} {w : Nat} (conducted : d.ctl.mode = .conducted) (running : d.port.watchdog = some w)
    (due : w ≤ d.now) : d.watchdogExpire = (d.event 0x0004 0xFF (leBytes 2 d.tWd)).enterFallback 1 := by
  simp [Dev.watchdogExpire, running, conducted, due]

theorem Dev.watchdogExpire_logged {d : Dev} {w : Nat} (conducted : d.ctl.mode = .conducted)
    (running : d.port.watchdog = some w) (due : w ≤ d.now) (no_por : d.ctl.por = false) :
    d.watchdogExpire.log = d.loggedAs [(0x0004, 0xFF, leBytes 2 d.tWd), (0x0002, 0xFF, [2, 3, 1])] := by
  have expired := d.event_logged 0x0004 0xFF (leBytes 2 d.tWd) no_por
  rw [Dev.watchdogExpire_eq conducted running due, Dev.enterFallback_log]
  refine (Dev.toMode_loggedAs (by simpa) (by simp) expired .fallback 1).trans ?_
  rw [Dev.event_ctl, conducted]
  rfl

/-! ### A bar in whose time the watchdog expires -/

theorem execBar_accepted_expires {s : State} {dt low : Nat} {sdi : List Byte} (bits : Fin 8)
    (isOpen : (s.turn dt).dev.port.isOpen = true) (no_commit : (s.turn dt).dev.port.commit = none)
    (quiet : (s.turn dt).dev.port.quietUntil ≤ (s.turn dt).dev.now) :
    exec (.bar dt low sdi bits false) s =
      .next (((s.fallen dt sdi.length).whileLow low).1.after ((s.fallen dt sdi.length).whileLow low).2 fun d =>
        d.settleBar (s.turn dt).slot.port.replies sdi bits.val) := by
  have before : s.beforeBar dt = s.turn dt := State.beforeBar_of_not_due (.inl no_commit)
  show execBar dt low sdi bits false s = _
  simp only [execBar, before, isOpen, Bool.not_true, Bool.false_eq_true, if_false, Nat.not_lt.2 quiet,
    State.shown_of_no_commit no_commit, State.turn_snap]
  rfl

/-- A bar that rises outside CONDUCTED leaves the watchdog as it finds it. -/
theorem Dev.settleBar_watchdog {d : Dev} (not_conducted : d.ctl.mode ≠ .conducted) (shown : List Reply) (sdi : List Byte)
    (extra : Nat) : (d.settleBar shown sdi extra).port.watchdog = d.port.watchdog := by
  have stays : d.barRestarts = false := by simp [Dev.barRestarts, not_conducted]
  cases valid : barValid sdi extra
  · rw [Dev.settleBar_port_of_invalid valid]
    rfl
  · rw [Dev.settleBar_port_of_valid valid, stays]
    rfl

/-! ### The downbeat and the supply of the port (03 R89, 02 R39, 17 R505) -/

section
variable {s : State} {dt : Nat}

/-- The packets that wait for the downbeat `b`, or an earlier one, act in order; the others wait on. -/
def Dev.servesDownbeat (snap d : Dev) (b : Declared) (rest : List Declared) : Dev :=
  (d.port.pendingDb.filter fun q => q.serial ≤ b.serial).foldl (Dev.dbAct snap)
    { d with chain := { d.chain with downbeats := rest }
             port := { d.port with pendingDb := d.port.pendingDb.filter fun q => b.serial < q.serial } }

theorem execDownbeat_due {b : Declared} {rest : List Declared} (due : (s.turn dt).dev.dueDownbeat = some (b, rest)) :
    exec (.downbeat dt) s = .next (s.after dt fun d =>
      { Dev.servesDownbeat s.snap d b rest with chain := { (Dev.servesDownbeat s.snap d b rest).chain with beat := true } }) := by
  refine congrArg Host.Outcome.next (State.after_congr ?_)
  simp only [due]
  rfl

theorem execHostPortOpen_ready (closed : (s.turn dt).dev.port.isOpen = false) (started : (s.turn dt).dev.ctl.started = true)
    (valid : (s.turn dt).dev.port.vioValid = true)
    (ready : ∀ x, (s.turn dt).dev.port.reopenAt = some x → x ≤ (s.turn dt).dev.now) :
    exec (.hostPortOpen dt) s = .next (s.after dt fun _ =>
      ((s.turn dt).dev.setPort fun p => { p with isOpen := true, reopenAt := none }).raiseIrq) := by
  refine State.run_eq ?_
  have opens : (match (s.turn dt).dev.port.reopenAt with
      | some t => decide (t ≤ (s.turn dt).dev.now)
      | none => true) = true := by
    split
    · next x reopens => exact decide_eq_true (ready x reopens)
    · rfl
  simp [closed, started, valid]
  exact fun late => absurd (opens.symm.trans late) (by decide)

/-- The port without its supply (17 R505). -/
def Dev.withoutVio (d : Dev) : Dev := d.setPort fun p => { p with
  vioValid := false, vioLostAt := some d.now, reopenAt := none, isOpen := false, irqn := false, sdo := none }

theorem execVioLost_valid (valid : (s.turn dt).dev.port.vioValid = true) (no_por : (s.turn dt).dev.ctl.por = false) :
    exec (.vioLost dt) s = .next (s.after dt fun _ => (s.turn dt).dev.withoutVio.event 0x0B05 0xFF []) := by
  refine State.run_eq ?_
  simp only [valid, no_por, Bool.not_true, Bool.false_eq_true, if_false]
  rfl

/-- The port as its supply returns: it reopens 2.0 ms later, and a master wave port has a new grid (17 R505). -/
def Dev.withVio (d : Dev) : Dev :=
  ({ d with wave := { d.wave with origin := d.now, count := 0 } } : Dev).setPort fun p => { p with
    vioValid := true, vioLostAt := none, reopenAt := some (d.now + 2 * msec) }

theorem execVioReturn_lost {x : Nat} (invalid : (s.turn dt).dev.port.vioValid = false)
    (lost : (s.turn dt).dev.port.vioLostAt = some x) (no_por : (s.turn dt).dev.ctl.por = false) :
    ∃ data, exec (.vioReturn dt) s = .next (s.after dt fun _ => (s.turn dt).dev.withVio.event 0x0B06 0xFF data) := by
  refine ⟨leBytes 2 (sat 16 (report ((((s.turn dt).dev.now - x : Nat) : Rat) / msec))), State.run_eq ?_⟩
  simp only [invalid, no_por, lost, Bool.false_eq_true, if_false]
  rfl

end

end Sys2Proof.Machine

namespace Sys2Proof
open Machine

/-- Settles O17, event by event; of a bar in whose time the watchdog expires, by the state in which CSN rises. -/
theorem portEventsActWhenDue : Obligations.PortEventsActWhenDue := by
  intro s dt d
  refine ⟨fun b rest due => ⟨_, execDownbeat_due due, by rw [State.after_chain], rfl⟩,
    fun w conducted running due no_por => ⟨_, rfl, ?_, ?_⟩,
    fun low w sdi bits isOpen no_commit quiet conducted no_por running expires =>
      ⟨_, execBar_accepted_expires bits isOpen no_commit quiet, ?_⟩,
    fun closed started valid ready => ⟨_, execHostPortOpen_ready closed started valid ready, by simp [Dev.setPort], by
      simp [Dev.setPort]⟩,
    fun valid no_por => ⟨_, execVioLost_valid valid no_por, by simp [Dev.withoutVio, Dev.setPort], by
      simp [Dev.withoutVio, Dev.setPort], by simp [Dev.withoutVio, Dev.setPort], by simp [Dev.withoutVio, Dev.setPort, d], ?_⟩,
    fun x invalid lost no_por => ?_⟩
  · exact (congrArg Control.mode (State.after_ctl ..)).trans (Dev.watchdogExpire_due running conducted due).2
  · exact (State.after_log ..).trans (Dev.watchdogExpire_logged conducted running due no_por)
  · have low_expires : (s.fallen dt sdi.length).ExpiresLow low := ⟨conducted, w, running, expires⟩
    obtain ⟨port, mode⟩ := State.risen_of_expiresLow low_expires
    rw [State.risen] at port mode
    refine ⟨?_, ?_⟩
    · rw [State.after_ctl, Dev.settleBar_ctl]
      exact mode
    · rw [State.after_watchdog, Dev.settleBar_watchdog (by rw [mode]; decide)]
      exact (congrArg HostPort.watchdog port :)
  · exact State.after_logged (Dev.event_logged (d := d.withoutVio) 0x0B05 0xFF [] no_por)
  · obtain ⟨data, returns⟩ := execVioReturn_lost invalid lost no_por
    exact ⟨_, returns, by simp [Dev.withVio, Dev.setPort], by simp [Dev.withVio, Dev.setPort, d], by
      simp [Dev.withVio, Dev.setPort, d]⟩

end Sys2Proof

/-! SUPPORT. O33: the states of the Score time base (09 R249, R250, R251, R253, R259). -/

namespace Sys2Proof.Machine
open Sys2Proof

/-! ### Marks, beside which the Score time base stands (15 R437) -/

theorem Score.markBegin_besideMarks (x : Score) (k : Fin 8) (input : Nat) :
    x.markBegin k input = { x with marks := (x.markBegin k input).marks, markEvents := (x.markBegin k input).markEvents } := by
  unfold Score.markBegin
  split <;> rfl

theorem Score.leftLock_tb (x : Score) : x.leftLock.tb = x.tb := by
  simp only [Score.leftLock]
  split
  · rfl
  · rw [Score.markBegin_besideMarks]

theorem Score.leftLock_reference (x : Score) : x.leftLock.reference = x.reference := by
  simp only [Score.leftLock]
  split
  · rfl
  · rw [Score.markBegin_besideMarks]

theorem Score.leftLock_failed (x : Score) : x.leftLock.failed = x.failed := by
  simp only [Score.leftLock]
  split
  · rfl
  · rw [Score.markBegin_besideMarks]

theorem Score.record_relockedAt (x : Score) (type flags : Nat) (eventCtr : Nat) (data : List Byte) :
    (x.record type flags eventCtr data).relockedAt = x.relockedAt := by
  unfold Score.record
  dsimp only
  split
  · rfl
  · split
    · split <;> rfl
    · rfl

theorem Score.rated_relockedAt (x : Score) (k : Fin 8) (m : Mark) (flags : Nat) :
    (x.rated k m flags).relockedAt = x.relockedAt := by
  exact x.record_relockedAt ..

/-- A mark that ends is no more. -/
theorem Score.markEnd_ended (x : Score) (k : Fin 8) : (x.markEnd k).marks.get k = none := by
  unfold Score.markEnd
  split
  · exact Tab.get_set_self ..
  · assumption

theorem Score.markEnd_relockedAt (x : Score) (k : Fin 8) : (x.markEnd k).relockedAt = x.relockedAt := by
  unfold Score.markEnd
  split
  · exact x.rated_relockedAt ..
  · rfl

theorem Dev.tellRefAbsent_score (d : Dev) : d.tellRefAbsent.score = d.score := by
  unfold Dev.tellRefAbsent
  split
  · rw [Dev.event_score, Dev.setTime_score]
  · rfl

/-- The first lock attempt has failed (09 R250, R253). -/
def Dev.failFirstLock (d : Dev) : Dev :=
  (d.setScore fun x => { x with tb := .noRef, failed := true }.leftLock).tellRefAbsent

theorem Dev.failFirstLock_score (d : Dev) :
    d.failFirstLock.score = { d.score with tb := .noRef, failed := true }.leftLock := Dev.tellRefAbsent_score _

/-! ### What each event makes of the Score -/

section
variable {s : State} {dt : Nat}

theorem execPllLock_locks (powered : (s.turn dt).dev.score.powered = true) (acquiring : (s.turn dt).dev.score.tb = .acquiring)
    (identified : (s.turn dt).dev.score.identified = true)
    (in_time : (s.turn dt).dev.score.own ≤ (s.turn dt).dev.score.attemptAt + 5 * msec)
    (settled : (s.turn dt).dev.score.locked = true →
      (s.turn dt).dev.score.attemptAt + 100 * usec ≤ (s.turn dt).dev.score.own) :
    exec (.pllLock dt) s = .next (s.after dt fun d => d.setScore fun x => { x with
      tb := .locked, locked := true, tbc := if x.locked then x.tbc else 0
      relockedAt := if (x.marks.get 0).isSome then some x.own else none }) := by
  refine congrArg Host.Outcome.next (State.after_congr ?_)
  have relocks : (!(s.turn dt).dev.score.locked ||
      decide ((s.turn dt).dev.score.attemptAt + 100 * usec ≤ (s.turn dt).dev.score.own)) = true := by
    cases locked : (s.turn dt).dev.score.locked
    · rfl
    · simpa using settled locked
  simp only [Dev.setScore, powered, acquiring, identified, in_time, relocks, decide_true, Bool.and_self, if_true]

theorem execLockTimeout_relocking (powered : (s.turn dt).dev.score.powered = true)
    (attempts : (s.turn dt).dev.score.tb = .noRef ∨ (s.turn dt).dev.score.tb = .acquiring)
    (ended : (s.turn dt).dev.score.attemptAt + 5 * msec ≤ (s.turn dt).dev.score.own)
    (locked : (s.turn dt).dev.score.locked = true) :
    exec (.lockTimeout dt) s = .next (s.after dt fun d => d.setScore fun x => { x with tb := .holdover }.leftLock) := by
  refine congrArg Host.Outcome.next (State.after_congr ?_)
  simp [powered, attempts, ended, locked]

theorem execLockTimeout_first (powered : (s.turn dt).dev.score.powered = true)
    (attempts : (s.turn dt).dev.score.tb = .noRef ∨ (s.turn dt).dev.score.tb = .acquiring)
    (ended : (s.turn dt).dev.score.attemptAt + 5 * msec ≤ (s.turn dt).dev.score.own)
    (unlocked : (s.turn dt).dev.score.locked = false) :
    exec (.lockTimeout dt) s = .next (s.after dt Dev.failFirstLock) := by
  refine congrArg Host.Outcome.next (State.after_congr ?_)
  simp only [powered, attempts, ended, unlocked, Bool.or_eq_true, decide_eq_true_eq, decide_true, if_true,
    Bool.true_and, Bool.and_true, Bool.false_eq_true, if_false]
  rfl

theorem execReferenceLost_locked (powered : (s.turn dt).dev.score.powered = true)
    (runs : (s.turn dt).dev.score.tb = .locked ∨ (s.turn dt).dev.score.tb = .acquiring)
    (locked : (s.turn dt).dev.score.locked = true) :
    exec (.referenceLost dt) s = .next (s.after dt fun d =>
      d.setScore fun x => { x with reference := none, tb := .holdover }.leftLock) := by
  refine congrArg Host.Outcome.next (State.after_congr ?_)
  simp [Dev.setScore, powered, runs, locked]

theorem execReferenceLost_unlocked (powered : (s.turn dt).dev.score.powered = true)
    (unlocked : (s.turn dt).dev.score.locked = false) :
    exec (.referenceLost dt) s = .next (s.after dt fun d => d.setScore fun x => { x with reference := none }) := by
  refine congrArg Host.Outcome.next (State.after_congr ?_)
  simp [Dev.setScore, powered, unlocked]

theorem execReferenceReturn_identified {hz : Nat} (powered : (s.turn dt).dev.score.powered = true)
    (waits : (s.turn dt).dev.score.tb = .holdover ∨ (s.turn dt).dev.score.tb = .noRef)
    (identified : ({ (s.turn dt).dev.score with reference := some hz } : Score).identified = true) :
    exec (.referenceReturn ⟨dt, hz⟩) s = .next (s.after dt fun d =>
      d.setScore fun x => { x with reference := some hz, tb := .acquiring, attemptAt := x.own }) := by
  refine congrArg Host.Outcome.next (State.after_congr ?_)
  have lit : ¬(!(s.turn dt).dev.score.powered) = true := by simp [powered]
  have begins : ((((s.turn dt).dev.score.tb = .holdover || (s.turn dt).dev.score.tb = .noRef) : Bool) &&
      ({ (s.turn dt).dev.score with reference := some hz } : Score).identified) = true := by
    rw [identified]
    simpa using waits
  exact congrArg (fun x => { (s.turn dt).dev with score := x }) ((if_neg lit).trans (if_pos begins))

theorem execReferenceReturn_unlisted {hz : Nat} (powered : (s.turn dt).dev.score.powered = true)
    (unlisted : ({ (s.turn dt).dev.score with reference := some hz } : Score).identified = false) :
    exec (.referenceReturn ⟨dt, hz⟩) s = .next (s.after dt fun d =>
      d.setScore fun x => { x with reference := some hz }) := by
  refine congrArg Host.Outcome.next (State.after_congr ?_)
  have lit : ¬(!(s.turn dt).dev.score.powered) = true := by simp [powered]
  have stays : ¬((((s.turn dt).dev.score.tb = .holdover || (s.turn dt).dev.score.tb = .noRef) : Bool) &&
      ({ (s.turn dt).dev.score with reference := some hz } : Score).identified) = true := by
    simp [unlisted]
  exact congrArg (fun x => { (s.turn dt).dev with score := x }) ((if_neg lit).trans (if_neg stays))

theorem execTimebaseMarkEnd_due {x : Nat} (powered : (s.turn dt).dev.score.powered = true)
    (relocked : (s.turn dt).dev.score.relockedAt = some x)
    (due : x + 100 * msec + 61440 ≤ (s.turn dt).dev.score.own) :
    exec (.timebaseMarkEnd dt) s = .next (s.after dt fun d =>
      d.setScore fun x => { x with relockedAt := none }.markEnd 0) := by
  refine congrArg Host.Outcome.next (State.after_congr ?_)
  simp [Dev.setScore, powered, relocked, due]

end

end Sys2Proof.Machine

namespace Sys2Proof
open Machine

/-- Settles O33, event by event, by whether the Score has locked before and whether the reference is listed. -/
theorem scoreTimeBaseMoves : Obligations.ScoreTimeBaseMoves := by
  intro s dt d powered
  refine ⟨fun acquiring identified in_time settled =>
      ⟨_, execPllLock_locks powered acquiring identified in_time settled, ?_, ?_, ?_⟩,
    fun attempts ended => ?_, fun runs => ?_, fun hz waits => ?_,
    fun x relocked due => ⟨_, execTimebaseMarkEnd_due powered relocked due, ?_, ?_⟩⟩
  case refine_4 =>
    cases locked : d.score.locked
    · refine ⟨_, execLockTimeout_first powered attempts ended locked, nofun, fun _ => ⟨?_, ?_⟩⟩ <;>
        rw [State.after_score, Dev.failFirstLock_score]
      · rw [Score.leftLock_tb]
      · rw [Score.leftLock_failed]
    · refine ⟨_, execLockTimeout_relocking powered attempts ended locked, fun _ => ?_, nofun⟩
      rw [State.after_score]
      exact Score.leftLock_tb _
  case refine_5 =>
    cases locked : d.score.locked
    · refine ⟨_, execReferenceLost_unlocked powered locked, ?_, ?_⟩ <;> rw [State.after_score] <;> rfl
    · refine ⟨_, execReferenceLost_locked powered runs locked, ?_, ?_⟩ <;> rw [State.after_score]
      · exact Score.leftLock_reference _
      · exact Score.leftLock_tb _
  case refine_6 =>
    cases identified : ({ d.score with reference := some hz } : Score).identified
    · refine ⟨_, execReferenceReturn_unlisted powered identified, ?_, nofun, fun _ => ?_⟩ <;>
        rw [State.after_score] <;> rfl
    · refine ⟨_, execReferenceReturn_identified powered waits identified, ?_, fun _ => ⟨?_, ?_⟩, nofun⟩ <;>
        rw [State.after_score] <;> rfl
  all_goals rw [State.after_score]
  case refine_1 => rfl
  case refine_2 => rfl
  case refine_3 => rfl
  case refine_7 => exact Score.markEnd_relockedAt _ 0
  case refine_8 => exact Score.markEnd_ended _ 0

end Sys2Proof

/-! SUPPORT. HALTED and the end of a run: what the entry to HALTED makes of the control state (08 R241). -/

namespace Sys2Proof.Machine
open Sys2Proof

/-- The log tells of the time base by its count and by its source alone. -/
theorem Dev.loggedAs_congr_time {e d : Dev} (log : e.log = d.log) (tbc : e.time.tbc = d.time.tbc)
    (source : e.time.onFallback = d.time.onFallback) (es : List (Nat × Nat × List Byte)) : e.loggedAs es = d.loggedAs es := by
  simp only [Dev.loggedAs, log, tbc, source]

/-- The entry to HALTED changes the mode and its cause in the control state and nothing else (08 R241). -/
theorem Dev.enterHalted_ctl {d : Dev} (running : d.ctl.mode ≠ .halted) (cause detail : Nat) (hard : Bool) :
    (d.enterHalted cause detail hard).ctl =
      { d.ctl with haltCause := cause, haltDetail := detail, mode := .halted } := by
  unfold Dev.enterHalted
  rw [if_neg running]
  extract_lets d1 d2 d3 d4 _ d5
  have toHalted : d1.ctl = { d.ctl with haltCause := cause, haltDetail := detail, mode := .halted } := by
    simp [d1, Dev.toMode, Dev.setCtl]
  have h2 : d2.Keeps (· ≠ .ctl) d1 :=
    Dev.stopWatchdog_keeps (by decide) (Dev.event_keeps (by decide) (by decide) (.refl _) _ _ _)
  have h3 : d3.Keeps (· ≠ .ctl) d1 := by
    apply Dev.cancelCues_keeps <;> first | decide | skip
    apply Dev.commandOff_keeps (by decide)
    refine Dev.forVoices_keeps (Dev.withdrawAll_keeps (by decide) (by decide) h2) (fun x hx v => ?_) _
    apply Dev.turnOff_keeps <;> first | decide | exact hx
  have h4 : d4.Keeps (· ≠ .ctl) d1 := by
    apply Dev.endRetries_keeps (by decide)
    apply Dev.endUnitChecks_keeps <;> first | decide | skip
    split
    · apply Dev.cutShort_keeps <;> first | decide | exact h3
    · apply Dev.abandonCheck_keeps <;> first | decide | exact h3
  have h5 : d5.Keeps (· ≠ .ctl) d1 := h4.voices_therm (by decide) (by decide) _ _
  have stopped : (((d5.engineStop).waveOff).rawStop true).Keeps (· ≠ .ctl) d1 := by
    apply Dev.rawStop_keeps <;> first | decide | skip
    apply Dev.waveOff_keeps <;> first | decide | skip
    apply Dev.engineStop_keeps <;> first | decide | exact h5
  exact (stopped.frame .ctl (by decide)).trans toHalted

theorem Dev.enterHalted_mode {d : Dev} (running : d.ctl.mode ≠ .halted) (cause detail : Nat) (hard : Bool) :
    (d.enterHalted cause detail hard).ctl.mode = .halted := by rw [Dev.enterHalted_ctl running]

theorem Dev.enterHalted_haltCause {d : Dev} (running : d.ctl.mode ≠ .halted) (cause detail : Nat) (hard : Bool) :
    (d.enterHalted cause detail hard).ctl.haltCause = cause := by rw [Dev.enterHalted_ctl running]

theorem Dev.enterHalted_haltDetail {d : Dev} (running : d.ctl.mode ≠ .halted) (cause detail : Nat) (hard : Bool) :
    (d.enterHalted cause detail hard).ctl.haltDetail = detail := by rw [Dev.enterHalted_ctl running]

end Sys2Proof.Machine

/-! SUPPORT. O34: the control die's time base (01 R23, R34, 02 R43, 09 R252 to R258). -/

namespace Sys2Proof.Machine
open Sys2Proof

/-! ### The loss of the Score time base and the switch back (09 R255, R258) -/

theorem Dev.loseTb_eq_of_fallbackOk {d : Dev} (ok : d.time.fallbackOk = true) (cause : Nat) :
    d.loseTb cause = (d.setTime fun t =>
      { t with phase := .switching, until_ := t.now + 40 * usec, lostAt := t.now }).dropStarts.engineFallback.event
        0x0A01 0xFF [b8 cause] := by
  unfold Dev.loseTb
  extract_lets d1 d2
  have oscillates : d2.time.fallbackOk = true := (congrArg TimeBase.fallbackOk (Dev.event_time d1 ..)).trans ok
  exact if_pos (by rw [oscillates]; rfl)

theorem Dev.loseTb_time {d : Dev} (ok : d.time.fallbackOk = true) (cause : Nat) :
    (d.loseTb cause).time = { d.time with phase := .switching, until_ := d.now + 40 * usec, lostAt := d.now } := by
  rw [Dev.loseTb_eq_of_fallbackOk ok, Dev.event_time]
  rfl

/-- Without the fallback oscillator the device halts (01 R34). -/
theorem Dev.loseTb_ctl {d : Dev} (bad : d.time.fallbackOk = false) (running : d.ctl.mode ≠ .halted)
    (started : d.ctl.mode ≠ .starting) (cause : Nat) :
    (d.loseTb cause).ctl = { d.ctl with haltCause := 5, haltDetail := 0, mode := .halted } := by
  unfold Dev.loseTb
  extract_lets d1 d2
  have ctl : d2.ctl = d.ctl := Dev.event_ctl d1 ..
  have stopped : d2.time.fallbackOk = false := (congrArg TimeBase.fallbackOk (Dev.event_time d1 ..)).trans bad
  rw [if_neg (by simp [stopped, ctl, started]), Dev.enterHalted_ctl (by rwa [ctl]), ctl]

theorem Dev.takeCount_time (d : Dev) (tbc k : Int) :
    (d.takeCount tbc k).time =
      { d.time with tbc := tbc, k := k, phase := .score, lastWord := tbc, drift := 0, trimAt := d.now } := rfl

/-- The switch back never takes the count back (09 R258). -/
def Dev.returnTb (d : Dev) : Dev :=
  let sc := d.score.tbc + d.time.k + d.chain.offset
  (if d.time.tbc ≤ sc then d.dropStarts.takeCount sc d.time.k
    else d.dropStarts.takeCount d.time.tbc (d.time.k + (d.time.tbc - sc))).event 0x0A03 0xFF (leInt 8 d.time.tbc)

theorem Dev.returnTb_phase (d : Dev) : d.returnTb.time.phase = .score := by
  unfold Dev.returnTb
  rw [Dev.event_time]
  split <;> rfl

theorem Dev.returnTb_tbc (d : Dev) :
    d.returnTb.time.tbc = max d.time.tbc (d.score.tbc + d.time.k + d.chain.offset) := by
  unfold Dev.returnTb
  rw [Dev.event_time]
  split
  · next behind => exact (Int.max_eq_right behind).symm
  · next ahead => exact (Int.max_eq_left (Int.le_of_lt (Int.not_le.1 ahead))).symm

/-! ### Words (01 R23, 09 R257) -/

theorem Dev.tbcWord_same {d : Dev} {word : Int} (score : d.time.phase = .score)
    (same : word + d.time.k + d.chain.offset = d.time.tbc) :
    d.tbcWord true word = d.setTime fun t => { t with lastWord := t.tbc } := by
  simp [Dev.tbcWord, score, same]

theorem Dev.tbcWord_other {d : Dev} {word : Int} (score : d.time.phase = .score)
    (other : word + d.time.k + d.chain.offset ≠ d.time.tbc) : d.tbcWord true word = d.loseTb 2 := by
  simp [Dev.tbcWord, score, other]

theorem Dev.tbcWord_first {d : Dev} {word : Int} (fallback : d.time.phase = .fallback) :
    d.tbcWord true word = d.setTime fun t =>
      { t with phase := .qualifying, until_ := t.now + 100 * msec, word := word, wordAt := d.score.tbc } := by
  simp [Dev.tbcWord, Dev.setTime, fallback, TimeBase.qualifyWord]

/-- A word that comes when it is due goes on with the qualification where it is the next one. -/
theorem Dev.tbcWord_due {d : Dev} {word : Int} (qualifying : d.time.phase = .qualifying)
    (due : d.time.wordDue ≤ d.score.tbc) (in_time : d.score.tbc ≤ d.time.wordDue + 8) :
    (d.tbcWord true word).time.phase = if word = d.time.word + 3072 then .qualifying else .fallback := by
  have not_missed : d.time.wordMissed d.score.tbc = false := by simpa [TimeBase.wordMissed] using in_time
  simp only [Dev.tbcWord, qualifying, Dev.setTime_time, TimeBase.qualifyWord, not_missed, due, Bool.or_false, Bool.true_and,
    decide_true, decide_eq_true_eq, reduceCtorEq, decide_false, Bool.false_eq_true, if_false]
  split <;> rfl

/-! ### What each event makes of the device -/

def Dev.adoptTb (d : Dev) : Dev :=
  (d.takeCount (d.score.tbc + d.chain.offset) 0).event 0x0007 0xFF (leInt 8 d.time.tbc)

theorem Dev.adoptTb_time (d : Dev) : d.adoptTb.time = (d.takeCount (d.score.tbc + d.chain.offset) 0).time := Dev.event_time ..

/-- The 40 µs switch is over (09 R255). -/
def Dev.switched (d : Dev) : Dev :=
  (d.setTime fun t => { t with phase := .fallback }).event 0x0A02 0xFF [b8 (boolNat d.time.trimmed)]

theorem Dev.switched_phase (d : Dev) : d.switched.time.phase = .fallback := congrArg TimeBase.phase (Dev.event_time ..)

theorem Dev.switched_log {d : Dev} (switching : d.time.phase = .switching) (no_por : d.ctl.por = false) :
    d.switched.log = d.loggedAs [(0x0A02, 0xFF, [b8 (boolNat d.time.trimmed)])] := by
  have source : (d.setTime fun t => { t with phase := .fallback }).time.onFallback = d.time.onFallback := by
    simp only [TimeBase.onFallback, Dev.setTime_time, switching]
    rfl
  exact (Dev.event_logged (d.setTime fun t => { t with phase := .fallback }) _ _ _ no_por).trans
    (Dev.loggedAs_congr_time (d := d) (e := d.setTime fun t => { t with phase := .fallback }) rfl rfl source _)

/-- The fallback oscillator fails (09 R254). -/
def Dev.badOscillator (d : Dev) : Dev := (d.setTime fun t => { t with fallbackOk := false }).event 0x0A05 0xFF []

theorem Dev.badOscillator_ctl (d : Dev) : d.badOscillator.ctl = d.ctl := Dev.event_ctl ..

theorem Dev.badOscillator_time (d : Dev) : d.badOscillator.time = { d.time with fallbackOk := false } := Dev.event_time ..

theorem Dev.badOscillator_log {d : Dev} (no_por : d.ctl.por = false) :
    d.badOscillator.log = d.loggedAs [(0x0A05, 0xFF, [])] :=
  (Dev.event_logged (d.setTime fun t => { t with fallbackOk := false }) _ _ _ no_por).trans
    (Dev.loggedAs_congr_time (d := d) (e := d.setTime fun t => { t with fallbackOk := false }) rfl rfl rfl _)

section
variable {s : State} {dt : Nat}

theorem execTbAdopted_first (no_por : (s.turn dt).dev.ctl.por = false) (first : (s.turn dt).dev.time.phase = .first)
    (ok : (s.turn dt).dev.time.fallbackOk = true) (powered : (s.turn dt).dev.score.powered = true)
    (locked : (s.turn dt).dev.score.tb = .locked) : exec (.tbAdopted dt) s = .next (s.after dt Dev.adoptTb) := by
  refine congrArg Host.Outcome.next (State.after_congr ?_)
  simp only [no_por, first, ok, powered, locked, decide_true, Bool.and_self, Bool.not_false, if_true]
  rfl

/-- From the first lock onward a word reaches the control die (01 R23, 09 R250). -/
theorem execTbcWord_valid {word : Int} (no_por : (s.turn dt).dev.ctl.por = false)
    (powered : (s.turn dt).dev.score.powered = true) (locked : (s.turn dt).dev.score.locked = true)
    (tb : (s.turn dt).dev.score.tb = .locked)
    (counts : (s.turn dt).dev.time.phase = .score ∨ (s.turn dt).dev.ctl.scoreSilent = false) :
    exec (.tbcWord dt true word) s = .next (s.after dt fun d => d.tbcWord true word) := by
  refine congrArg Host.Outcome.next (State.after_congr ?_)
  have valid : ((s.turn dt).dev.time.phase = .score || !(s.turn dt).dev.ctl.scoreSilent : Bool) = true := by
    simpa using counts
  simp [no_por, powered, locked, tb, valid]

theorem execTbLost_score {cause : LossCause} (no_por : (s.turn dt).dev.ctl.por = false)
    (score : (s.turn dt).dev.time.phase = .score)
    (due : cause ≠ .word ∨ (s.turn dt).dev.time.lastWord + 3072 ≤ (s.turn dt).dev.time.tbc) :
    ∃ n, exec (.tbLost dt cause) s = .next (s.after dt fun d => d.loseTb n) := by
  cases cause
  case word =>
    exact ⟨1, congrArg Host.Outcome.next (State.after_congr (by simp [no_por, score, due.resolve_left (by decide)]))⟩
  case clock => exact ⟨0, congrArg Host.Outcome.next (State.after_congr (by simp [no_por, score]))⟩
  case mismatch => exact ⟨2, congrArg Host.Outcome.next (State.after_congr (by simp [no_por, score]))⟩

theorem execTbFallback_due (switching : (s.turn dt).dev.time.phase = .switching)
    (due : (s.turn dt).dev.time.until_ ≤ (s.turn dt).dev.now) :
    exec (.tbFallback dt) s = .next (s.after dt Dev.switched) := by
  refine congrArg Host.Outcome.next (State.after_congr ?_)
  simp only [switching, due, decide_true, Bool.and_self, if_true]
  rfl

theorem execTbQualified_due (qualifying : (s.turn dt).dev.time.phase = .qualifying)
    (due : (s.turn dt).dev.time.until_ ≤ (s.turn dt).dev.now) :
    exec (.tbQualified dt) s = .next (s.after dt fun d => d.setTime fun t =>
      if t.wordMissed d.score.tbc then t.requalify else { t with phase := .qualified }) := by
  refine congrArg Host.Outcome.next (State.after_congr ?_)
  simp only [qualifying, due, decide_true, Bool.and_self, if_true]

theorem execTbReturned_due (qualified : (s.turn dt).dev.time.phase = .qualified)
    (boundary : (s.turn dt).dev.atBoundary = true) : exec (.tbReturned dt) s = .next (s.after dt Dev.returnTb) := by
  refine congrArg Host.Outcome.next (State.after_congr ?_)
  simp only [qualified, boundary, decide_true, Bool.and_self, if_true]
  rfl

theorem execFallbackBad_score (no_por : (s.turn dt).dev.ctl.por = false) (ok : (s.turn dt).dev.time.fallbackOk = true)
    (score : (s.turn dt).dev.time.phase = .score) : exec (.fallbackBad dt) s = .next (s.after dt Dev.badOscillator) := by
  refine congrArg Host.Outcome.next (State.after_congr ?_)
  have unused : ¬((s.turn dt).dev.badOscillator.time.onFallback &&
      decide ((s.turn dt).dev.badOscillator.ctl.mode ≠ .starting)) = true := by
    rw [Dev.badOscillator_time]
    simp [TimeBase.onFallback, score]
  exact (if_pos (by rw [ok, no_por]; rfl)).trans (if_neg unused)

theorem execFallbackBad_source (no_por : (s.turn dt).dev.ctl.por = false) (ok : (s.turn dt).dev.time.fallbackOk = true)
    (off_score : (s.turn dt).dev.time.phase ≠ .score) (started : (s.turn dt).dev.ctl.mode ≠ .starting) :
    exec (.fallbackBad dt) s = .next (s.after dt fun d => d.badOscillator.enterHalted 5 0 false) := by
  refine congrArg Host.Outcome.next (State.after_congr ?_)
  have source : ((s.turn dt).dev.badOscillator.time.onFallback &&
      decide ((s.turn dt).dev.badOscillator.ctl.mode ≠ .starting)) = true := by
    rw [Dev.badOscillator_time, Dev.badOscillator_ctl]
    simp [TimeBase.onFallback, off_score, started]
  exact (if_pos (by rw [ok, no_por]; rfl)).trans (if_pos source)

theorem execFallbackTrim_due (score : (s.turn dt).dev.time.phase = .score) (ok : (s.turn dt).dev.time.fallbackOk = true)
    (due : (s.turn dt).dev.time.trimAt + msec ≤ (s.turn dt).dev.now) :
    exec (.fallbackTrim dt) s = .next (s.after dt fun d => d.setTime fun t => { t with trimmed := true, trimAt := t.now }) := by
  refine congrArg Host.Outcome.next (State.after_congr ?_)
  simp only [score, ok, due, decide_true, Bool.and_self, if_true]

end

end Sys2Proof.Machine

namespace Sys2Proof
open Machine

/-- Settles O34, event by event, by the phase of the time base and by the fallback oscillator. -/
theorem controlTimeBaseMoves : Obligations.ControlTimeBaseMoves := by
  intro s dt d wordsCome no_por
  refine ⟨fun first ok powered locked => ⟨_, execTbAdopted_first no_por first ok powered locked, ?adopted⟩,
    fun word ⟨powered, locked, tb⟩ score same => ⟨_, execTbcWord_valid no_por powered locked tb (.inl score), ?same⟩,
    fun word ⟨powered, locked, tb⟩ score other ok =>
      ⟨_, execTbcWord_valid no_por powered locked tb (.inl score), ?mismatch⟩,
    fun word ⟨powered, locked, tb⟩ heard fallback =>
      ⟨_, execTbcWord_valid no_por powered locked tb (.inr heard), ?begins⟩,
    fun word ⟨powered, locked, tb⟩ heard qualifying due in_time =>
      ⟨_, execTbcWord_valid no_por powered locked tb (.inr heard), ?qualifies⟩,
    fun cause score ok due => ?lost,
    fun score bad running started => ?both,
    fun switching due => ⟨_, execTbFallback_due switching due, ?_, ?_⟩,
    fun qualifying due => ⟨_, execTbQualified_due qualifying due, ?qualified⟩,
    fun qualified boundary => ⟨_, execTbReturned_due qualified boundary, ?_, ?_⟩,
    fun ok score => ⟨_, execFallbackBad_score no_por ok score, ?_, ?_, ?_⟩,
    fun ok off_score running started => ⟨_, execFallbackBad_source no_por ok off_score started, ?halts⟩,
    fun ok score due => ⟨_, execFallbackTrim_due score ok due, ?_, ?_⟩⟩
  case adopted =>
    rw [State.after_time, Dev.adoptTb_time, Dev.takeCount_time]
    exact ⟨rfl, rfl, rfl⟩
  case same =>
    rw [State.after_time, Dev.tbcWord_same score same]
    rfl
  case mismatch =>
    rw [State.after_time, Dev.tbcWord_other score other, Dev.loseTb_time ok]
    exact ⟨rfl, rfl, rfl⟩
  case begins =>
    rw [State.after_time, Dev.tbcWord_first fallback]
    exact ⟨rfl, rfl, rfl⟩
  case qualifies =>
    rw [State.after_time]
    exact Dev.tbcWord_due qualifying due in_time
  case lost =>
    obtain ⟨n, loses⟩ := execTbLost_score no_por score due
    refine ⟨_, loses, ?_⟩
    rw [State.after_time, Dev.loseTb_time ok]
    exact ⟨rfl, rfl, rfl⟩
  case both =>
    obtain ⟨n, loses⟩ := execTbLost_score (cause := .clock) no_por score (.inl (by decide))
    refine ⟨_, loses, ?_⟩
    rw [State.after_ctl, Dev.loseTb_ctl bad running started]
    exact ⟨rfl, rfl⟩
  case qualified =>
    rw [State.after_time, Dev.setTime_time]
    simp only [TimeBase.wordMissed, decide_eq_true_eq]
    split <;> rfl
  case halts =>
    have on : d.badOscillator.ctl.mode ≠ .halted := by rwa [Dev.badOscillator_ctl]
    rw [State.after_ctl]
    exact ⟨Dev.enterHalted_mode on .., Dev.enterHalted_haltCause on ..⟩
  · rw [State.after_time, Dev.switched_phase]
  · exact (State.after_log ..).trans (Dev.switched_log switching no_por)
  · rw [State.after_time, Dev.returnTb_phase]
  · rw [State.after_time, Dev.returnTb_tbc]
  · rw [State.after_time, Dev.badOscillator_time]
  · rw [State.after_ctl, Dev.badOscillator_ctl]
  · exact (State.after_log ..).trans (Dev.badOscillator_log no_por)
  · rw [State.after_time]
    rfl
  · rw [State.after_time]
    rfl

end Sys2Proof

/-! SUPPORT. Units and voices: the unit of a voice outside a gang, and what a turn-off makes of each voice (06 R175, R190,
R191, 14 R404). -/

namespace Sys2Proof.Machine
open Sys2Proof

/-! ### Units (06 R190, R191) -/

section
variable {d : Dev} {v : VoiceId}

theorem Dev.unitOf_of_no_gang (alone : d.gang v = none) : d.unitOf v = [v] := by rw [Dev.unitOf, alone]

theorem Dev.headOf_of_no_gang (alone : d.gang v = none) : d.headOf v = v := by rw [Dev.headOf, alone]; rfl

theorem Dev.unitDriven_of_no_gang (alone : d.gang v = none) : d.unitDriven v = (d.voice v).driven := by
  simp [Dev.unitDriven, Dev.unitOf_of_no_gang alone]

theorem Dev.unitIn_of_no_gang (alone : d.gang v = none) (st : VState) : d.unitIn v st = ((d.voice v).st == st) := by
  simp [Dev.unitIn, Dev.unitOf_of_no_gang alone]

end

/-- The live parameters alone say which voices are ganged. -/
theorem Dev.vfld_congr {e d : Dev} (par : e.par = d.par) (v : VoiceId) (o lo w : Nat) : e.vfld v o lo w = d.vfld v o lo w := by
  simp only [Dev.vfld, Dev.fld, Dev.word, par]

theorem Dev.gang_congr {e d : Dev} (par : e.par = d.par) (v : VoiceId) : e.gang v = d.gang v := by
  simp only [Dev.gang, Dev.vfld_congr par]

theorem Dev.unitOf_congr {e d : Dev} (par : e.par = d.par) (v : VoiceId) : e.unitOf v = d.unitOf v := by
  simp only [Dev.unitOf, Dev.gang_congr par]

theorem Dev.headOf_congr {e d : Dev} (par : e.par = d.par) (v : VoiceId) : e.headOf v = d.headOf v := by
  simp only [Dev.headOf, Dev.gang_congr par]

/-! ### Changes of several voices -/

theorem Dev.voices_modVoice_ne (d : Dev) {v u : VoiceId} (f : Voice → Voice) (other : u ≠ v) :
    (d.modVoice v f).voices.get u = d.voices.get u := Dev.voice_modVoice_ne d f other

/-- A voice that no change of the list reaches stands. -/
theorem Dev.forVoices_voice_of_not_mem {d : Dev} {vs : List VoiceId} {f : Dev → VoiceId → Dev} {u : VoiceId}
    (others : ∀ (e : Dev) (v : VoiceId), u ≠ v → (f e v).voice u = e.voice u) (out : u ∉ vs) :
    (d.forVoices vs f).voice u = d.voice u :=
  Dev.foldl_same (q := fun e => e.voice u) (fun e v mem => others e v fun same => out (same ▸ mem)) d

/-- A change of each voice of a list that names none twice changes each of them once. -/
theorem Dev.forVoices_modVoice_of_mem {d : Dev} {vs : List VoiceId} (g : Voice → Voice) {u : VoiceId} (once : vs.Nodup)
    (mem : u ∈ vs) : (d.forVoices vs fun d v => d.modVoice v g).voice u = g (d.voice u) := by
  induction vs generalizing d with
  | nil => exact absurd mem List.not_mem_nil
  | cons v vs ih =>
    obtain ⟨out, once⟩ := List.nodup_cons.1 once
    show ((d.modVoice v g).forVoices vs fun d v => d.modVoice v g).voice u = _
    rcases List.mem_cons.1 mem with rfl | mem
    · rw [Dev.forVoices_voice_of_not_mem (fun e x other => Dev.voice_modVoice_ne e g other) out, Dev.voice_modVoice_self]
    · rw [ih once mem, Dev.voice_modVoice_ne d g fun same => out (by rwa [← same])]

theorem Dev.forVoices_modVoice_of_not_mem {d : Dev} {vs : List VoiceId} (g : Voice → Voice) {u : VoiceId} (out : u ∉ vs) :
    (d.forVoices vs fun d v => d.modVoice v g).voice u = d.voice u :=
  Dev.forVoices_voice_of_not_mem (fun e _ other => Dev.voice_modVoice_ne e g other) out

/-! ### Turn-off (06 R175, 14 R404) -/

theorem Dev.lifetimeMax_voice_ne (d : Dev) {v u : VoiceId} (other : u ≠ v) : (d.lifetimeMax v).voice u = d.voice u := by
  unfold Dev.lifetimeMax
  extract_lets l c n d1
  have first : d1.voice u = d.voice u := by
    unfold d1
    split
    · rw [Dev.voice_event, Dev.voice_modVoice_ne _ _ other]
    · rfl
  split
  · rw [Dev.voice_event, Dev.voice_modVoice_ne _ _ other, first]
  · exact first

/-- The counters alone change in a voice whose lifetime value sticks. -/
theorem Dev.lifetimeMax_voice_self (d : Dev) (v : VoiceId) :
    ∃ life, (d.lifetimeMax v).voice v = { d.voice v with life := life } := by
  unfold Dev.lifetimeMax
  extract_lets l c n d1
  have first : ∃ life, d1.voice v = { d.voice v with life := life } := by
    unfold d1
    split
    · exact ⟨_, by rw [Dev.voice_event, Dev.voice_modVoice_self]⟩
    · exact ⟨_, rfl⟩
  obtain ⟨life, first⟩ := first
  split
  · exact ⟨_, by rw [Dev.voice_event, Dev.voice_modVoice_self, first]⟩
  · exact ⟨life, first⟩

theorem Dev.lifetimeMax_beside (d : Dev) (v : VoiceId) : (d.lifetimeMax v).Keeps (· ∈ [.port, .log, .voices]) d := by
  apply Dev.lifetimeMax_keeps <;> first | decide | exact .refl _

theorem Dev.returnDomain_voices (d : Dev) (n k : Nat) : (d.returnDomain n k).voices = d.voices := by
  unfold Dev.returnDomain
  split <;> rfl

theorem Dev.returnTokens_voice_self (d : Dev) (v : VoiceId) :
    (d.returnTokens v).voice v = { d.voice v with token := false, domainToken := none } := by
  unfold Dev.returnTokens
  dsimp only
  split
  · rw [Dev.voice, Dev.returnDomain_voices]
    exact Dev.voice_modVoice_self ..
  · exact Dev.voice_modVoice_self ..

theorem Dev.returnTokens_voice_ne (d : Dev) {v u : VoiceId} (other : u ≠ v) : (d.returnTokens v).voice u = d.voice u := by
  unfold Dev.returnTokens
  dsimp only
  split
  · rw [Dev.voice, Dev.returnDomain_voices]
    exact Dev.voice_modVoice_ne _ _ other
  · exact Dev.voice_modVoice_ne _ _ other

theorem Dev.turnOff_of_not_driven {d : Dev} {v : VoiceId} (off : (d.voice v).driven = false) (why : OffWhy) :
    d.turnOff v why = d := by
  rw [Dev.turnOff, off]
  rfl

/-- Beside the blip a driven voice that turns off leaves the device as its release does. -/
theorem Dev.turnOff_besideTherm {d : Dev} {v : VoiceId} (driven : (d.voice v).driven = true) (why : OffWhy) :
    (d.turnOff v why).Keeps (· = .therm) (((d.returnTokens v).modVoice v fun x =>
      x.release d.now (if d.headOf v = v then why else .forced)).lifetimeMax v) := by
  rw [Dev.turnOff, if_pos driven]
  extract_lets why' d1 d2
  have ends : ∀ x, ({ d2 with therm := x } : Dev).Keeps (· = .therm) d2 := fun x => Dev.Keeps.therm (W := (· = .therm)) (.refl _) rfl x
  split
  · split
    · exact ends _
    · exact .refl _
  · exact .refl _

theorem Dev.turnOff_voice_ne (d : Dev) {v u : VoiceId} (why : OffWhy) (other : u ≠ v) : (d.turnOff v why).voice u = d.voice u := by
  cases driven : (d.voice v).driven
  · rw [Dev.turnOff_of_not_driven driven]
  · have released := (Dev.turnOff_besideTherm driven why).frame .voices (by decide)
    rw [Dev.voice, released]
    exact (Dev.lifetimeMax_voice_ne _ other).trans ((Dev.voice_modVoice_ne _ _ other).trans (d.returnTokens_voice_ne other))

/-- A driven voice that turns off is released with its tokens returned. -/
theorem Dev.turnOff_voice_self {d : Dev} {v : VoiceId} (driven : (d.voice v).driven = true) (why : OffWhy) :
    ∃ life, (d.turnOff v why).voice v =
      { ({ d.voice v with token := false, domainToken := none } : Voice).release d.now
          (if d.headOf v = v then why else .forced) with life := life } := by
  have released := (Dev.turnOff_besideTherm driven why).frame .voices (by decide)
  obtain ⟨life, kept⟩ := ((d.returnTokens v).modVoice v fun x =>
    x.release d.now (if d.headOf v = v then why else .forced)).lifetimeMax_voice_self v
  refine ⟨life, ?_⟩
  rw [Dev.voice, released]
  refine kept.trans ?_
  rw [Dev.voice_modVoice_self, Dev.returnTokens_voice_self]

/-- What stands of a voice behind its turn-off. -/
theorem Dev.turnOff_off {d : Dev} {v : VoiceId} (driven : (d.voice v).driven = true) (why : OffWhy) :
    ((d.turnOff v why).voice v).st = .off ∧ ((d.turnOff v why).voice v).gate = false ∧
      ((d.turnOff v why).voice v).checks = (d.voice v).checks := by
  obtain ⟨life, off⟩ := Dev.turnOff_voice_self driven why
  rw [off]
  exact ⟨rfl, rfl, rfl⟩

theorem Dev.turnOff_not_driven (d : Dev) (v : VoiceId) (why : OffWhy) : ((d.turnOff v why).voice v).driven = false := by
  cases driven : (d.voice v).driven
  · rwa [Dev.turnOff_of_not_driven driven]
  · rw [Voice.driven, (Dev.turnOff_off driven why).1]
    rfl

theorem Dev.turnOff_par (d : Dev) (v : VoiceId) (why : OffWhy) : (d.turnOff v why).par = d.par := by
  have kept : (d.turnOff v why).Keeps (· ≠ .par) d := by
    apply Dev.turnOff_keeps <;> first | decide | exact .refl _
  exact kept.frame .par (by decide)

end Sys2Proof.Machine

/-! SUPPORT. O36: the LH inputs (02 R53, R54, R55, R56, R58, 08 R235, 18 R522). -/

namespace Sys2Proof.Machine
open Sys2Proof

/-! ### The debounced level (02 R53, R54) -/

theorem LhInput.see_raw (x : LhInput) (level : Bool) (t debounce : Nat) : (x.see level t debounce).raw = level := by
  unfold LhInput.see
  split
  · next same => exact same.symm
  · rfl

theorem LhInput.see_rawAt (x : LhInput) (level : Bool) (t debounce : Nat) :
    (x.see level t debounce).rawAt = max x.rawAt t := by
  unfold LhInput.see
  split <;> rfl

theorem LhInput.see_level (x : LhInput) (level : Bool) (t debounce : Nat) : (x.see level t debounce).level = x.level := by
  unfold LhInput.see
  split <;> rfl

theorem LhInput.see_since (x : LhInput) (level : Bool) (t debounce : Nat) : (x.see level t debounce).since = x.since := by
  unfold LhInput.see
  split <;> rfl

/-- The input has been restless for 1 s (02 R56). -/
def LhInput.bounced (x : LhInput) (now : Nat) : Bool := x.restless.any fun t => t + 1000 * msec ≤ now

theorem LhInput.bounced_iff {x : LhInput} {now : Nat} :
    x.bounced now = true ↔ ∃ r, x.restless = some r ∧ r + 1000 * msec ≤ now := by
  simp only [LhInput.bounced, Option.any_eq_true, decide_eq_true_eq]

/-- The input when its pin has shown `level` since the sample `seen` (02 R54). -/
def Dev.lhTaken (d : Dev) (i : Fin 8) (level : Bool) (seen : Nat) : LhInput :=
  let x := (d.lh.get i).see level seen d.lhDebounce
  if x.rawAt + d.lhDebounce ≤ d.now then
    { x with restless := none, level := level, since := if x.level = level && !x.bounced d.now then x.since else d.now }
  else x

section
variable (d : Dev) (i : Fin 8) (level : Bool) (seen : Nat)

theorem Dev.lhTaken_raw : (d.lhTaken i level seen).raw = level := by
  simp only [Dev.lhTaken]
  split <;> exact LhInput.see_raw ..

theorem Dev.lhTaken_rawAt : (d.lhTaken i level seen).rawAt = max (d.lh.get i).rawAt seen := by
  simp only [Dev.lhTaken]
  split <;> exact LhInput.see_rawAt ..

variable {d i level seen}

theorem Dev.lhTaken_settled (settled : max (d.lh.get i).rawAt seen + d.lhDebounce ≤ d.now) :
    d.lhTaken i level seen = { (d.lh.get i).see level seen d.lhDebounce with
      restless := none, level := level
      since := if (d.lh.get i).level = level && !((d.lh.get i).see level seen d.lhDebounce).bounced d.now then
        (d.lh.get i).since else d.now } := by
  simp only [Dev.lhTaken, LhInput.see_rawAt, LhInput.see_level, LhInput.see_since, settled, if_true]

theorem Dev.lhTaken_unsettled (unsettled : d.now < max (d.lh.get i).rawAt seen + d.lhDebounce) :
    d.lhTaken i level seen = (d.lh.get i).see level seen d.lhDebounce := by
  simp only [Dev.lhTaken, LhInput.see_rawAt, Nat.not_le.2 unsettled, if_false]

end

section
variable {s : State} {dt : Nat} {i : Fin 8}

theorem execLhLevelChange_unseen {level : Bool} {held : Nat} (live : (s.turn dt).dev.lhLive = true)
    (unseen : 8 * held < 20 * usec ∨ (s.turn dt).dev.now < (s.turn dt).dev.lhSample ((s.turn dt).dev.now - 8 * held)) :
    exec (.lhLevelChange dt i ⟨level, held⟩) s = .next (s.after dt fun _ => (s.turn dt).dev) :=
  State.run_eq ((if_pos live).trans (if_pos (by simpa using unseen)))

theorem execLhLevelChange_seen {level : Bool} {held : Nat} (live : (s.turn dt).dev.lhLive = true)
    (passed : 20 * usec ≤ 8 * held) (seen : (s.turn dt).dev.lhSample ((s.turn dt).dev.now - 8 * held) ≤ (s.turn dt).dev.now) :
    exec (.lhLevelChange dt i ⟨level, held⟩) s = .next (s.after dt fun d =>
      { d with lh := d.lh.set i (d.lhTaken i level (d.lhSample (d.now - 8 * held))) }) := by
  refine congrArg Host.Outcome.next (State.after_congr ?_)
  have sampled : ¬(decide (8 * held < 20 * usec) ||
      decide ((s.turn dt).dev.now < (s.turn dt).dev.lhSample ((s.turn dt).dev.now - 8 * held))) = true := by
    simp [Nat.not_lt.2 passed, Nat.not_lt.2 seen]
  exact (if_pos live).trans (if_neg sampled)

/-- Chatter is flagged and logged (02 R56). -/
def Dev.lhChatters (d : Dev) (i : Fin 8) : Dev :=
  ({ d with lh := d.lh.modify i fun x => { x with chatter := true } }).event 0x000A i.val []

theorem execChatter_due (live : (s.turn dt).dev.lhLive = true) (calm : ((s.turn dt).dev.lh.get i).chatter = false)
    (due : (s.turn dt).dev.chatterDue i = true) : exec (.chatter dt i) s = .next (s.after dt fun d => d.lhChatters i) := by
  refine congrArg Host.Outcome.next (State.after_congr ?_)
  simp only [live, calm, due, Bool.not_false, Bool.and_self, if_true]
  rfl

theorem execChatterClear_due (second : ((s.turn dt).dev.lh.get i).since + 1000 * msec ≤ (s.turn dt).dev.now)
    (no_cause : (s.turn dt).dev.chatterDue i = false) :
    exec (.chatterClear dt i) s = .next (s.after dt fun d =>
      { d with lh := d.lh.modify i fun x => { x with chatter := false } }) := by
  refine congrArg Host.Outcome.next (State.after_congr ?_)
  simp only [second, no_cause, Bool.not_false, decide_true, Bool.and_self, if_true]

end

/-! ### Re-arming (02 R58) -/

/-- A latched voice of an input that has been inactive for 1 s is OFF again, and its unit counts no retry. -/
def Dev.rearm (d : Dev) (v : VoiceId) : Dev :=
  (d.modUnit v fun y => { y with retry := 0 }).modVoice v fun y => { y with st := .off }

theorem Dev.modUnit_retry_st (d : Dev) (v u : VoiceId) :
    ((d.modUnit v fun y => { y with retry := 0 }).voice u).st = (d.voice u).st := by
  refine Dev.foldl_same (q := fun e => (e.voice u).st) (fun e m _ => ?_) d
  rcases Decidable.em (u = m) with rfl | other
  · rw [Dev.voice_modVoice_self]
  · rw [Dev.voice_modVoice_ne _ _ other]

theorem Dev.rearm_st_self (d : Dev) (v : VoiceId) : ((d.rearm v).voice v).st = .off := by
  rw [Dev.rearm, Dev.voice_modVoice_self]

theorem Dev.rearm_st_ne (d : Dev) {v u : VoiceId} (other : u ≠ v) : ((d.rearm v).voice u).st = (d.voice u).st := by
  rw [Dev.rearm, Dev.voice_modVoice_ne _ _ other, Dev.modUnit_retry_st]

theorem Dev.forVoices_rearm_st (d : Dev) (vs : List VoiceId) (u : VoiceId) :
    ((d.forVoices vs Dev.rearm).voice u).st = if u ∈ vs then .off else (d.voice u).st := by
  induction vs generalizing d with
  | nil => rfl
  | cons v vs ih =>
    refine (ih (d.rearm v)).trans ?_
    rcases Decidable.em (u = v) with rfl | other
    · simp [Dev.rearm_st_self]
    · simp [Dev.rearm_st_ne d other, other]

theorem execLhRearm_due {s : State} {dt : Nat} {i : Fin 8} (live : (s.turn dt).dev.lhLive = true)
    (inactive : ((s.turn dt).dev.lh.get i).level = false)
    (second : 1000 * msec ≤ (s.turn dt).dev.now - ((s.turn dt).dev.lh.get i).since) :
    exec (.lhRearm dt i) s = .next (s.after dt fun d =>
      d.forVoices ((idx 48).filter fun v => d.levelInput v = some i && (d.voice v).st = .latched) Dev.rearm) := by
  refine congrArg Host.Outcome.next (State.after_congr ?_)
  simp only [live, inactive, second, Bool.not_false, decide_true, Bool.and_self, if_true]
  rfl

/-! ### The end of a withheld change (02 R55, R57) -/

/-- A driven voice whose input is active is commanded ON, and no change of it is withheld. -/
theorem Dev.followLevel_on {d : Dev} {v : VoiceId} {i : Fin 8} (input : d.levelInput v = some i)
    (active : (d.lh.get i).level = true) (alone : d.gang v = none) (on : (d.voice v).st = .on) :
    (d.followLevel v).voice v = { d.voice v with cmd := true, withheld := none } := by
  have driven : d.unitDriven v = true := by rw [Dev.unitDriven_of_no_gang alone, Voice.driven, on]; rfl
  simp only [Dev.followLevel, input, active, driven, Bool.true_or, if_true]
  rw [Dev.voice_modVoice_self, Dev.unitOf_of_no_gang alone]
  exact congrArg (fun x : Voice => { x with withheld := none }) (Dev.voice_modVoice_self ..)

end Sys2Proof.Machine

namespace Sys2Proof
open Machine

/-- Settles O36: the level by whether it was sampled and has settled, the other events one by one. -/
theorem lhEventsAct : Obligations.LhEventsAct := by
  intro s dt i d
  refine ⟨fun level held live => ⟨execLhLevelChange_unseen live, fun passed in_time =>
      ⟨_, execLhLevelChange_seen live passed in_time, ?_, ?_, fun j other => ?_, fun settled => ⟨?_, ?_, fun same calm => ?_,
        fun moved => ?_⟩, fun unsettled => ⟨?_, ?_⟩⟩⟩,
    fun live calm no_por due => ⟨_, execChatter_due live calm due, ?chatters, ?logged⟩,
    fun second no_cause => ⟨_, execChatterClear_due second no_cause, ?clears, fun j other => ?keeps⟩,
    fun live inactive second => ⟨_, execLhRearm_due live inactive second, fun v => ?rearms⟩,
    fun v input active alone on => ⟨_, rfl, ?commands⟩⟩
  case chatters =>
    rw [State.after_lh, Dev.lhChatters, Dev.event_lh, Tab.get_modify_self]
  case logged =>
    have with_flag := Dev.event_logged { d with lh := d.lh.modify i fun x => { x with chatter := true } } 0x000A i.val [] no_por
    exact (State.after_log ..).trans with_flag
  case clears => rw [State.after_lh, Tab.get_modify_self]
  case keeps => rw [State.after_lh, Tab.get_modify_ne _ _ other]
  case rearms =>
    rw [Dev.voice, State.after_voices]
    refine (Dev.forVoices_rearm_st ..).trans ?_
    simp only [List.mem_filter, mem_idx, true_and, Bool.and_eq_true, decide_eq_true_eq]
    rfl
  case commands =>
    have followed : ((s.turn dt).dev.followLevel ((s.turn dt).dev.headOf v)).voice v = { d.voice v with cmd := true, withheld := none } := by
      rw [Dev.headOf_of_no_gang alone, Dev.followLevel_on input active alone on]
    rw [Dev.voice, State.after_voices]
    exact ⟨congrArg Voice.cmd followed, congrArg Voice.withheld followed⟩
  all_goals rw [State.after_lh]
  · rw [Tab.get_set_self, Dev.lhTaken_raw]
  · rw [Tab.get_set_self, Dev.lhTaken_rawAt]
  · rw [Tab.get_set_ne _ _ other]
  · rw [Tab.get_set_self, Dev.lhTaken_settled settled]
  · rw [Tab.get_set_self, Dev.lhTaken_settled settled]
  · have quiet : ((d.lh.get i).see level (d.lhSample (d.now - 8 * held)) d.lhDebounce).bounced d.now = false :=
      Bool.eq_false_iff.2 fun bounced => calm (LhInput.bounced_iff.1 bounced)
    rw [Tab.get_set_self, Dev.lhTaken_settled settled]
    exact if_pos (by rw [quiet, decide_eq_true same]; rfl)
  · have changes : ¬(decide ((d.lh.get i).level = level) &&
        !((d.lh.get i).see level (d.lhSample (d.now - 8 * held)) d.lhDebounce).bounced d.now) = true := by
      rcases moved with changed | bounced
      · simp [changed]
      · simp [LhInput.bounced_iff.2 bounced]
    rw [Tab.get_set_self, Dev.lhTaken_settled settled]
    exact if_neg changes
  · rw [Tab.get_set_self, Dev.lhTaken_unsettled unsettled, LhInput.see_level]
  · rw [Tab.get_set_self, Dev.lhTaken_unsettled unsettled, LhInput.see_since]

end Sys2Proof

/-! SUPPORT. O38, O39: what a fault that is scored makes of its voice (07 R200, R203, R207, R208, R212). -/

namespace Sys2Proof.Machine
open Sys2Proof

/-! ### Scoring (07 R200, R203) -/

theorem Dev.faultEvent_voice (d : Dev) (v : VoiceId) (code kind before : Nat) (m : Meas) (u : VoiceId) :
    (d.faultEvent v code kind before m).voice u = d.voice u := by
  have kept : (d.faultEvent v code kind before m).Keeps (· ≠ .voices) d := by
    apply Dev.faultEvent_keeps <;> first | decide | exact .refl _
  exact congrArg (fun t : Tab Voice 48 => t.get u) (kept.frame .voices (by decide))

theorem Dev.slotTrip_of_no_faults {d : Dev} (none_scored : d.slotFaults = []) (v : VoiceId) : d.slotTrip v = none := by
  rw [Dev.slotTrip, none_scored]
  rfl

theorem Dev.scoreTrip_of_not_driven {d : Dev} {v : VoiceId} (none_scored : d.slotFaults = [])
    (off : (d.voice v).driven = false) (code : Nat) (stripes : BitVec 2) (m : Meas) : d.scoreTrip v code stripes m = d := by
  simp only [Dev.scoreTrip, Dev.slotTrip_of_no_faults none_scored, off, Bool.false_eq_true, if_false]

/-- A voice of a unit that trips is turned off hard (07 R200). -/
def Dev.tripOff (d : Dev) (u : VoiceId) : Dev :=
  let before := (d.voice u).code
  (d.turnOff u .forced).modVoice u fun y => { y with
    st := .tripped, checks := { y.checks with report := [], repeated := false, offAsked := false, before := before } }

/-- The fault that a tripped unit scores: its code on the unit, its check on the voice (07 R203, R212). -/
def Dev.markTrip (d : Dev) (v : VoiceId) (code : Nat) (stripes : BitVec 2) (m : Meas) : Dev :=
  let d2 := (d.modUnit v fun y => { y with fault := code, st := if y.st = .checking then .tripped else y.st }).modVoice v
    fun y => { y with checks := { y.checks with trip := some code, stripes := stripes, meas := m } }
  (d2.setSc fun c => { c with zoneChecked := c.zoneChecked &&& ~~~ maskOf (d.unitOf v).contains }).faultEvent
    v code 0 (d2.voice v).checks.before m

/-- The first fault of a slot on a driven voice. -/
theorem Dev.scoreTrip_of_driven {d : Dev} {v : VoiceId} (none_scored : d.slotFaults = [])
    (driven : (d.voice v).driven = true) (code : Nat) (stripes : BitVec 2) (m : Meas) :
    d.scoreTrip v code stripes m = (d.forVoices (d.unitOf v) Dev.tripOff).markTrip v code stripes m := by
  simp only [Dev.scoreTrip, Dev.slotTrip_of_no_faults none_scored, driven, if_true, none_scored, List.filter_nil,
    List.reverse_nil, List.foldl_nil]
  rfl

theorem Dev.markTrip_voice (d : Dev) (v : VoiceId) (code : Nat) (stripes : BitVec 2) (m : Meas) (u : VoiceId) :
    (d.markTrip v code stripes m).voice u =
      ((d.modUnit v fun y => { y with fault := code, st := if y.st = .checking then .tripped else y.st }).modVoice v
        fun y => { y with checks := { y.checks with trip := some code, stripes := stripes, meas := m } }).voice u :=
  Dev.faultEvent_voice ..

/-- The check of a scored fault names its code, its stripes and what was measured. -/
theorem Dev.markTrip_checks (d : Dev) (v : VoiceId) (code : Nat) (stripes : BitVec 2) (m : Meas) :
    ((d.markTrip v code stripes m).voice v).checks.trip = some code ∧
      ((d.markTrip v code stripes m).voice v).checks.stripes = stripes ∧
      ((d.markTrip v code stripes m).voice v).checks.meas = m := by
  rw [Dev.markTrip_voice, Dev.voice_modVoice_self]
  exact ⟨rfl, rfl, rfl⟩

theorem Dev.tripOff_voice_ne (d : Dev) {v u : VoiceId} (other : u ≠ v) : (d.tripOff v).voice u = d.voice u := by
  rw [Dev.tripOff, Dev.voice_modVoice_ne _ _ other, Dev.turnOff_voice_ne _ _ other]

theorem Dev.tripOff_par (d : Dev) (v : VoiceId) : (d.tripOff v).par = d.par := d.turnOff_par v .forced

theorem Dev.forVoices_tripOff_par (d : Dev) (vs : List VoiceId) : (d.forVoices vs Dev.tripOff).par = d.par :=
  Dev.foldl_same (q := Dev.par) (fun e v _ => e.tripOff_par v) d

section
variable {d : Dev} {v : VoiceId}

theorem Dev.tripOff_off (driven : (d.voice v).driven = true) :
    ((d.tripOff v).voice v).st = .tripped ∧ ((d.tripOff v).voice v).gate = false := by
  rw [Dev.tripOff, Dev.voice_modVoice_self]
  exact ⟨rfl, (Dev.turnOff_off driven .forced).2.1⟩

/-- Outside a gang the fault marks its voice alone. -/
theorem Dev.markTrip_alone (alone : d.gang v = none) (code : Nat) (stripes : BitVec 2) (m : Meas) :
    (d.markTrip v code stripes m).voice v = { d.voice v with
      fault := code, st := if (d.voice v).st = .checking then .tripped else (d.voice v).st
      checks := { (d.voice v).checks with trip := some code, stripes := stripes, meas := m } } := by
  rw [Dev.markTrip_voice, Dev.voice_modVoice_self, Dev.modUnit, Dev.unitOf_of_no_gang alone]
  exact congrArg (fun y : Voice => { y with checks := { y.checks with trip := some code, stripes := stripes, meas := m } })
    (Dev.voice_modVoice_self ..)

theorem Dev.markTrip_voice_ne {u : VoiceId} (alone : d.gang v = none) (other : u ≠ v) (code : Nat) (stripes : BitVec 2)
    (m : Meas) : (d.markTrip v code stripes m).voice u = d.voice u := by
  rw [Dev.markTrip_voice, Dev.voice_modVoice_ne _ _ other, Dev.modUnit, Dev.unitOf_of_no_gang alone]
  exact Dev.voice_modVoice_ne _ _ other

/-- The device behind the first fault of its slot on a driven voice outside a gang. -/
structure Dev.Tripped (e d : Dev) (v : VoiceId) (code : Nat) (stripes : BitVec 2) (m : Meas) : Prop where
  st : (e.voice v).st = .tripped
  gate : (e.voice v).gate = false
  fault : (e.voice v).fault = code
  trip : (e.voice v).checks.trip = some code
  stripes : (e.voice v).checks.stripes = stripes
  meas : (e.voice v).checks.meas = m
  others : ∀ u, u ≠ v → e.voice u = d.voice u

theorem Dev.scoreTrip_trips (none_scored : d.slotFaults = []) (alone : d.gang v = none)
    (driven : (d.voice v).driven = true) (code : Nat) (stripes : BitVec 2) (m : Meas) :
    (d.scoreTrip v code stripes m).Tripped d v code stripes m := by
  have marked : d.scoreTrip v code stripes m = (d.tripOff v).markTrip v code stripes m := by
    rw [Dev.scoreTrip_of_driven none_scored driven, Dev.unitOf_of_no_gang alone]
    rfl
  have alone' : (d.tripOff v).gang v = none := (Dev.gang_congr (d.tripOff_par v) v).trans alone
  obtain ⟨tripped, gate⟩ := Dev.tripOff_off driven
  rw [marked]
  constructor
  case others =>
    intro u other
    rw [Dev.markTrip_voice_ne alone' other, Dev.tripOff_voice_ne d other]
  all_goals rw [Dev.markTrip_alone alone']
  case st => exact (if_neg (by rw [tripped]; decide)).trans tripped
  case gate => exact gate

/-! ### Reports (07 R200, R212) -/

/-- A fault that is scored without a trip: its FAULT byte and its check. -/
def Voice.reported (x : Voice) (code : Nat) (m : Meas) : Voice := { x with
  fault := code, scored := x.scored ||| BitVec.ofNat 12 (2 ^ code)
  checks := if x.checks.report.isEmpty then { x.checks with report := [code], meas := m, before := x.code, repeated := false }
    else { x.checks with report := x.checks.report ++ [code] } }

theorem Voice.reported_report (x : Voice) (code : Nat) (m : Meas) :
    (x.reported code m).checks.report = x.checks.report ++ [code] := by
  simp only [Voice.reported]
  split
  · next empty => rw [List.isEmpty_iff.1 empty]; rfl
  · rfl

theorem getLsbD_twoPow_ofNat {code : Nat} (small : code < 12) : (BitVec.ofNat 12 (2 ^ code)).getLsbD code = true := by
  rw [BitVec.getLsbD_ofNat, Nat.testBit_two_pow_self, decide_eq_true small]
  rfl

theorem Voice.reported_scored (x : Voice) {code : Nat} (small : code < 12) (m : Meas) :
    (x.reported code m).scored.getLsbD code = true := by
  rw [Voice.reported, BitVec.getLsbD_or, getLsbD_twoPow_ofNat small, Bool.or_true]

theorem Dev.scoreReport_eq (code : Nat) (m : Meas) (unscored : (d.voice v).scored.getLsbD code = false)
    (no_trip : d.tripPending v = false) :
    d.scoreReport v code m = (d.modVoice v fun x => x.reported code m).faultEvent v code 1 (d.voice v).code m := by
  simp only [Dev.scoreReport, unscored, no_trip, Bool.or_false, Bool.false_eq_true, if_false]
  rfl

theorem Dev.scoreReport_voice_self (code : Nat) (m : Meas) (unscored : (d.voice v).scored.getLsbD code = false)
    (no_trip : d.tripPending v = false) : (d.scoreReport v code m).voice v = (d.voice v).reported code m := by
  rw [Dev.scoreReport_eq code m unscored no_trip, Dev.faultEvent_voice, Dev.voice_modVoice_self]

theorem Dev.scoreReport_voice_ne {u : VoiceId} (other : u ≠ v) (code : Nat) (m : Meas)
    (unscored : (d.voice v).scored.getLsbD code = false) (no_trip : d.tripPending v = false) :
    (d.scoreReport v code m).voice u = d.voice u := by
  rw [Dev.scoreReport_eq code m unscored no_trip, Dev.faultEvent_voice, Dev.voice_modVoice_ne _ _ other]

/-- The device behind a reporting fault. -/
structure Dev.Reported (e d : Dev) (v : VoiceId) (code : Nat) : Prop where
  fault : (e.voice v).fault = code
  scored : (e.voice v).scored.getLsbD code = true
  report : (e.voice v).checks.report = (d.voice v).checks.report ++ [code]
  st : (e.voice v).st = (d.voice v).st
  gate : (e.voice v).gate = (d.voice v).gate
  others : ∀ u, u ≠ v → e.voice u = d.voice u

theorem Dev.scoreReport_reports {code : Nat} (small : code < 12) (m : Meas)
    (unscored : (d.voice v).scored.getLsbD code = false) (no_trip : d.tripPending v = false) :
    (d.scoreReport v code m).Reported d v code := by
  constructor
  case others => exact fun u other => Dev.scoreReport_voice_ne other code m unscored no_trip
  all_goals rw [Dev.scoreReport_voice_self code m unscored no_trip]
  case scored => exact Voice.reported_scored _ small m
  case report => exact Voice.reported_report ..
  all_goals rfl

/-- The search of a voice is over without a signature (10 R290). -/
def Dev.missSignature (d : Dev) (v : VoiceId) : Dev :=
  d.modVoice v fun x => { x with lead := { x.lead with search := none, noMotion := true } }

theorem Dev.missSignature_voice_ne {u : VoiceId} (other : u ≠ v) : (d.missSignature v).voice u = d.voice u :=
  Dev.voice_modVoice_ne d _ other

theorem Dev.missSignature_voice_self (d : Dev) (v : VoiceId) : (d.missSignature v).voice v =
    { d.voice v with lead := { (d.voice v).lead with search := none, noMotion := true } } := Dev.voice_modVoice_self ..

/-- A search is no check. -/
theorem Dev.missSignature_tripPending (d : Dev) (v u : VoiceId) : (d.missSignature v).tripPending u = d.tripPending u := by
  have checks : ∀ x, ((d.missSignature v).voice x).checks = (d.voice x).checks := fun x => by
    rcases Decidable.em (x = v) with rfl | other
    · rw [Dev.missSignature_voice_self]
    · rw [Dev.missSignature_voice_ne other]
  have units : (d.missSignature v).unitOf u = d.unitOf u := Dev.unitOf_congr rfl u
  simp only [Dev.tripPending, units, checks]
  rfl

theorem Dev.missSignature_reports (m : Meas) (unscored : (d.voice v).scored.getLsbD 11 = false)
    (no_trip : d.tripPending v = false) : ((d.missSignature v).scoreReport v 11 m).Reported d v 11 := by
  have reported := Dev.scoreReport_reports (d := d.missSignature v) (v := v) (by decide : 11 < 12) m
    (by rwa [Dev.missSignature_voice_self]) (by rwa [Dev.missSignature_tripPending])
  obtain ⟨fault, scored, report, st, gate, others⟩ := reported
  rw [Dev.missSignature_voice_self] at report st gate
  exact ⟨fault, scored, report, st, gate, fun u other => (others u other).trans (Dev.missSignature_voice_ne other)⟩

theorem Dev.ceaseReport_voice_self (d : Dev) (v : VoiceId) (code : Nat) : (d.ceaseReport v code).voice v =
    { d.voice v with scored := (d.voice v).scored &&& ~~~ BitVec.ofNat 12 (2 ^ code) } := Dev.voice_modVoice_self ..

/-- The condition of a reporting fault that has ceased may be scored again. -/
theorem Dev.ceaseReport_ceases (d : Dev) (v : VoiceId) {code : Nat} (small : code < 12) :
    ((d.ceaseReport v code).voice v).scored.getLsbD code = false ∧
      ((d.ceaseReport v code).voice v).fault = (d.voice v).fault ∧
      ∀ u, u ≠ v → (d.ceaseReport v code).voice u = d.voice u := by
  refine ⟨?_, by rw [Dev.ceaseReport_voice_self], fun u other => Dev.voice_modVoice_ne d _ other⟩
  rw [Dev.ceaseReport_voice_self, BitVec.getLsbD_and, BitVec.getLsbD_not, getLsbD_twoPow_ofNat small, Bool.not_true,
    Bool.and_false, Bool.and_false]

end

/-! ### The events (07 R200) -/

theorem State.after_voice (s : State) (dt : Nat) (f : Dev → Dev) (v : VoiceId) :
    (s.after dt f).dev.voice v = (f (s.turn dt).dev).voice v := by
  rw [Dev.voice, State.after_voices]
  rfl

section
variable {s : State} {dt : Nat} {v : VoiceId} (k : BitVec 2) (m : Meas)

theorem execDesatTrip_armed {x : Nat} (gate : ((s.turn dt).dev.voice v).gate = true)
    (armed : ((s.turn dt).dev.voice v).desatAt = some x) (due : x ≤ (s.turn dt).dev.now)
    (ramped : ((s.turn dt).dev.voice v).edgeAt + tGR v ≤ (s.turn dt).dev.now) :
    exec (.desatTrip dt v k m) s = .next (s.after dt fun d => d.scoreTrip v 3 k m) := by
  refine congrArg Host.Outcome.next (State.after_congr ?_)
  simp [gate, armed, due, ramped]

theorem execOcTimeout_steady (steady : ((s.turn dt).dev.voice v).inInrush = false) :
    exec (.ocTimeout dt v m) s = .next (s.after dt fun d => d.scoreTrip v 1 3 m) := by
  refine congrArg Host.Outcome.next (State.after_congr ?_)
  simp [steady]

theorem execGateFault_on (gate : ((s.turn dt).dev.voice v).gate = true) :
    exec (.gateFault dt v k m) s = .next (s.after dt fun d => d.scoreTrip v 10 k m) := by
  refine congrArg Host.Outcome.next (State.after_congr ?_)
  simp [gate]

theorem execOlOnDetect_on (on : ((s.turn dt).dev.voice v).st = .on) (planless : ((s.turn dt).dev.voice v).plan = [])
    (steady : (s.turn dt).dev.dutyRamps v = false) :
    exec (.olOnDetect dt v false m) s = .next (s.after dt fun d => d.scoreReport v 4 m) := by
  refine congrArg Host.Outcome.next (State.after_congr ?_)
  simp [on, planless, steady]

theorem execOlOffDetect_armed (armed : (s.turn dt).dev.armedOff v = true) (detects : (s.turn dt).dev.vfld v 0x0E 16 1 = 1)
    (pullup : ((s.turn dt).dev.voice v).pullupRetired = false) (live : (s.turn dt).dev.ctl.liveAt.isSome = true) :
    exec (.olOffDetect dt v false m) s = .next (s.after dt fun d => d.scoreReport v 5 m) := by
  refine congrArg Host.Outcome.next (State.after_congr ?_)
  simp [armed, detects, pullup, live]

theorem execStuckOnDetect_armed (armed : (s.turn dt).dev.armedOff v = true)
    (unclamped : ((s.turn dt).dev.voice v).clamp = none) (live : (s.turn dt).dev.ctl.liveAt.isSome = true) :
    exec (.stuckOnDetect dt v false m) s = .next (s.after dt fun d => d.scoreReport v 6 m) := by
  refine congrArg Host.Outcome.next (State.after_congr ?_)
  simp [armed, unclamped, live]

theorem execSignatureWindowExpiry_told {q : Search} (searches : ((s.turn dt).dev.voice v).lead.search = some q)
    (due : (s.turn dt).dev.vfld v 0x14 16 8 * msec ≤ (s.turn dt).dev.now - q.t0)
    (told : (s.turn dt).dev.vfld v 0x14 24 1 = 1) :
    exec (.signatureWindowExpiry dt v m) s = .next (s.after dt fun d => (d.missSignature v).scoreReport v 11 m) := by
  refine congrArg Host.Outcome.next (State.after_congr ?_)
  simp only [searches, due, told, if_true]
  rfl

end

end Sys2Proof.Machine

namespace Sys2Proof
open Machine

/-- Settles O38: each event scores its fault where its condition holds, and the first fault of a slot trips a driven
voice. -/
theorem trippingFaultsTurnTheVoiceOff : Obligations.TrippingFaultsTurnTheVoiceOff := by
  intro s dt v k m d trips alone none_scored
  have scores : ∀ {c : Instr} {code : Nat} {stripes : BitVec 2}, (d.voice v).driven = true →
      exec c s = .next (s.after dt fun d => d.scoreTrip v code stripes m) → trips c code stripes := by
    intro c code stripes driven executes
    obtain ⟨st, gate, fault, trip, stripes, meas, others⟩ := Dev.scoreTrip_trips none_scored alone driven code stripes m
    refine ⟨_, executes, ?_⟩
    simp only [State.after_voice]
    exact ⟨st, gate, fault, trip, stripes, meas, others⟩
  refine ⟨fun driven => scores driven rfl,
    fun x driven gate armed due ramped => scores driven (execDesatTrip_armed k m gate armed due ramped),
    fun driven steady => scores driven (execOcTimeout_steady m steady),
    fun driven gate => scores driven (execGateFault_on k m gate), fun off c mem => ?_⟩
  have stands : ∀ code stripes, d.scoreTrip v code stripes m = d := fun code stripes =>
    Dev.scoreTrip_of_not_driven none_scored off code stripes m
  simp only [List.mem_cons, List.not_mem_nil, or_false] at mem
  rcases mem with rfl | rfl | rfl | rfl
  · exact State.run_eq (stands 2 k)
  · exact State.run_eq ((congrArg (ite _ · d) (stands 3 k)).trans (ite_self d))
  · exact State.run_eq ((congrArg (ite _ d) (stands 1 3)).trans (ite_self d))
  · exact State.run_eq ((congrArg (ite _ · d) (stands 10 k)).trans (ite_self d))

/-- Settles O39: each event reports its fault where its condition holds, or takes note that the condition has ceased. -/
theorem reportingFaultsAreScored : Obligations.ReportingFaultsAreScored := by
  intro s dt v m d scores ceases no_trip
  have of_reported : ∀ {c : Instr} {code : Nat} {f : Dev → Dev}, exec c s = .next (s.after dt f) →
      (f (s.turn dt).dev).Reported d v code → scores c code := by
    intro c code f executes reported
    obtain ⟨fault, scored, report, st, gate, others⟩ := reported
    refine ⟨_, executes, ?_⟩
    simp only [State.after_voice]
    exact ⟨fault, scored, report, st, gate, others⟩
  have of_ceased : ∀ {c : Instr} {code : Nat}, code < 12 →
      exec c s = .next (s.after dt fun d => d.ceaseReport v code) → ceases c code := by
    intro c code small executes
    refine ⟨_, executes, ?_⟩
    simp only [State.after_voice]
    exact d.ceaseReport_ceases v small
  exact ⟨fun unscored on planless steady => of_reported (execOlOnDetect_on m on planless steady)
      (Dev.scoreReport_reports (by decide) m unscored no_trip),
    fun unscored armed detects pullup live => of_reported (execOlOffDetect_armed m armed detects pullup live)
      (Dev.scoreReport_reports (by decide) m unscored no_trip),
    fun unscored armed unclamped live => of_reported (execStuckOnDetect_armed m armed unclamped live)
      (Dev.scoreReport_reports (by decide) m unscored no_trip),
    fun unscored => of_reported (f := fun d => d.scoreReport v 7 m) rfl
      (Dev.scoreReport_reports (by decide) m unscored no_trip),
    fun q searches due told unscored => of_reported (execSignatureWindowExpiry_told m searches due told)
      (Dev.missSignature_reports m unscored no_trip),
    of_ceased (by decide) rfl, of_ceased (by decide) rfl, of_ceased (by decide) rfl, of_ceased (by decide) rfl⟩

end Sys2Proof

/-! SUPPORT. O37: ramps, phases, PWM, chops and clamp pulses (06 R173, R178, R181 to R184, R195, 13 R356). -/

namespace Sys2Proof.Machine
open Sys2Proof

section
variable {d : Dev} {v : VoiceId}

theorem Dev.edgeEnergy_voice_self (d : Dev) (v : VoiceId) : (d.edgeEnergy v).voice v =
    { d.voice v with therm := { (d.voice v).therm with
        energy := (d.voice v).therm.energy + d.edgeCoef v * d.amps v * d.vbat (bankOf v) } } := Dev.voice_modVoice_self ..

theorem Voice.gateFall_gate (x : Voice) (now : Nat) : (x.gateFall now).gate = false := by
  unfold Voice.gateFall
  split <;> rfl

theorem Voice.gateFall_ramp (x : Voice) (now : Nat) : (x.gateFall now).ramp = .none := by
  unfold Voice.gateFall
  split <;> rfl

theorem Voice.gateFall_st (x : Voice) (now : Nat) : (x.gateFall now).st = x.st := by
  unfold Voice.gateFall
  split <;> rfl

/-! ### The end of a ramp and of a phase (06 R173, R187, R197) -/

theorem Dev.blipRaised_beside (d : Dev) (v : VoiceId) : (d.blipRaised v).Keeps (· ∈ [.therm]) d := by
  apply Dev.blipRaised_keeps <;> first | decide | exact .refl _

theorem Dev.blipRaised_voice (d : Dev) (v u : VoiceId) : (d.blipRaised v).voice u = d.voice u :=
  congrArg (fun t : Tab Voice 48 => t.get u) ((d.blipRaised_beside v).frame .voices (by decide))

theorem Dev.blipRaised_par (d : Dev) (v : VoiceId) : (d.blipRaised v).par = d.par :=
  (d.blipRaised_beside v).frame .par (by decide)

theorem Dev.settle_of_plan (planned : (d.voice v).plan ≠ []) : d.settle v = d := by
  have full : (d.voice v).plan.isEmpty = false := by simpa using planned
  simp [Dev.settle, full]

/-- A turn-on whose ramp and phases are over enters its drive mode. -/
theorem Dev.settle_ready (ramping : (d.voice v).st = .ramping) (planless : (d.voice v).plan = [])
    (ramped : (d.voice v).ramp = .none) (due : (d.voice v).rampUntil ≤ d.now) (steady : (d.voice v).dutyRamp = none) :
    d.settle v = d.enterMode v (d.vfld v 0 0 4) := by
  simp [Dev.settle, ramping, planless, ramped, due, Dev.dutyRamps, steady]

/-- In drive mode 0 the gate stays on and the limit is ILIM (06 R176). -/
theorem Dev.enterMode_zero (d : Dev) (v : VoiceId) : ((d.enterMode v 0).voice v).st = .on ∧
    ((d.enterMode v 0).voice v).driveMode = 0 ∧ ((d.enterMode v 0).voice v).limit = d.ilim v := by
  simp only [Dev.enterMode, Dev.voice_modVoice_self]
  refine ⟨trivial, ?_, ?_⟩ <;> (unfold Voice.raise; split <;> rfl)

/-- The ramp of a turn-on ends (06 R173). -/
def Dev.rampEnds (d : Dev) (v : VoiceId) : Dev := (d.modVoice v fun x => { x with ramp := .none }).blipRaised v

theorem Dev.rampEnds_voice_self (d : Dev) (v : VoiceId) : (d.rampEnds v).voice v = { d.voice v with ramp := .none } :=
  (Dev.blipRaised_voice ..).trans (Dev.voice_modVoice_self ..)

theorem Dev.rampEnds_par (d : Dev) (v : VoiceId) : (d.rampEnds v).par = d.par := Dev.blipRaised_par _ v

theorem Dev.rampEnds_now (d : Dev) (v : VoiceId) : (d.rampEnds v).now = d.now :=
  congrArg TimeBase.now ((Dev.blipRaised_beside (d.modVoice v fun x => { x with ramp := .none }) v).frame .time (by decide))

theorem Dev.rampEnds_ilim (d : Dev) (v : VoiceId) : (d.rampEnds v).ilim v = d.ilim v := by
  simp only [Dev.ilim, Dev.rampEnds_voice_self, Dev.vfld_congr (d.rampEnds_par v)]

/-- The ramp of a turn-on that has no phases ends: the voice is ON. -/
theorem Dev.rampEnds_on (ramping : (d.voice v).st = .ramping) (planless : (d.voice v).plan = [])
    (due : (d.voice v).rampUntil ≤ d.now) (steady : (d.voice v).dutyRamp = none) (mode : d.vfld v 0 0 4 = 0) :
    (((d.rampEnds v).settle v).voice v).st = .on ∧ (((d.rampEnds v).settle v).voice v).driveMode = 0 ∧
      (((d.rampEnds v).settle v).voice v).limit = d.ilim v := by
  have enters : (d.rampEnds v).settle v = (d.rampEnds v).enterMode v 0 := by
    rw [Dev.settle_ready (by rwa [Dev.rampEnds_voice_self]) (by rwa [Dev.rampEnds_voice_self])
      (by rw [Dev.rampEnds_voice_self]) (by rwa [Dev.rampEnds_voice_self, Dev.rampEnds_now])
      (by rwa [Dev.rampEnds_voice_self]), Dev.vfld_congr (d.rampEnds_par v), mode]
  rw [enters, ← Dev.rampEnds_ilim]
  exact Dev.enterMode_zero ..

/-- The running phase is over and the next begins (06 R182, R187). -/
def Dev.nextPhase (rest : List (Nat × Nat)) (limit : Nat) (d : Dev) (v : VoiceId) : Dev :=
  d.modVoice v fun x => { x with plan := rest, limit := limit }

/-! ### PWM (06 R178 to R181) -/

/-- A period whose pulse and gap are both long enough begins with its gate raised. -/
theorem Dev.periodStart_pulses (st : (d.voice v).st = .pwm) (mode : (d.voice v).driveMode = 1) (grid : d.toGrid v = 0)
    (idle : (d.voice v).offEdge = none) (ramped : (d.voice v).ramp = .none) (steady : (d.voice v).dutyRamp = none)
    (long : tMin v ≤ d.onTime v) (gap : d.onTime v + tMin v ≤ d.pwmPeriod v) (free : d.ka.held = false) :
    d.periodStart v = d.modVoice v fun x => { x.raise .edge with
      offEdge := some (d.now + 8 * d.onTime v), firstPulse := false } := by
  have no_end : d.dutyRampEnd v = d := by simp [Dev.dutyRampEnd, steady]
  have positive : 0 < tMin v := by unfold tMin; split <;> decide
  have short : ¬(d.pwmPeriod v ≤ d.onTime v ∨ d.pwmPeriod v < d.onTime v + tMin v) := by omega
  simp only [Dev.periodStart, no_end, st, mode, grid, idle, ramped, free]
  simp [Dev.pulse, Nat.not_lt.2 long, short]

/-- A pulse's on-time is over (06 R177). -/
def Dev.pulseEnds (d : Dev) (v : VoiceId) : Dev :=
  (if (d.voice v).gate then d.edgeEnergy v else d).modVoice v fun x =>
    { x.gateFall d.now with offEdge := none, firstPulse := false }

theorem Dev.offEdge1_pwm {x : Nat} (no_blip : d.blips? v = false) (st : (d.voice v).st = .pwm)
    (edge : (d.voice v).offEdge = some x) (due : x ≤ d.now) (later : (d.voice v).firstPulse = false)
    (planless : (d.voice v).plan = []) : d.offEdge1 v = d.pulseEnds v := by
  have driven : (d.voice v).driven = true := by rw [Voice.driven, st]; rfl
  simp [Dev.offEdge1, Dev.pulseEnds, no_blip, st, edge, due, later, planless, driven]

/-! ### The chops (06 R182, R183, 10 R290) -/

/-- In the peak phase the current has reached its target (06 R182). -/
def Dev.peakReached (d : Dev) (v : VoiceId) : Dev :=
  (d.edgeEnergy v).modVoice v fun x => { x.gateFall d.now with
    lead := { x.lead with search := if x.lead.search.any (·.opening) then none else x.lead.search } }

theorem Dev.offEdge1_peak (no_blip : d.blips? v = false) (st : (d.voice v).st = .ramping)
    (mode : (d.voice v).driveMode = 2) (gate : (d.voice v).gate = true) : d.offEdge1 v = d.peakReached v := by
  simp [Dev.offEdge1, Dev.peakReached, no_blip, st, mode, gate]

/-- A chop period of the hold phase begins (06 R182). -/
def Dev.chopBegins (d : Dev) (v : VoiceId) : Dev :=
  (if (d.voice v).gate then d else d.edgeEnergy v).modVoice v fun y => { y.gateRise d.now with
    clampedChops := 0, clampedNow := false, target := d.holdTarget v
    edgeAt := if (d.voice v).gate then (d.voice v).edgeAt else d.now, offEdge := some (d.now + 45 * usec) }

/-- The clamp was found active in a third period in a row (06 R183). -/
def Dev.clampTrip (d : Dev) (v : VoiceId) (m : Meas) : Dev :=
  (d.scoreTrip v 9 3 m).modVoice v fun x => { x with clamp := some (x.clamp.getD 0) }

/-- A chop period of the peak phase begins (06 R182). -/
def Dev.peakBegins (d : Dev) (v : VoiceId) : Dev :=
  (d.edgeEnergy v).modVoice v fun x => { x.gateRise d.now with edgeAt := d.now }

theorem nextVoice_prevVoice (v : VoiceId) : nextVoice (prevVoice v) = v := by
  apply Fin.ext
  have := v.isLt
  simp only [nextVoice, prevVoice]
  omega

theorem Dev.mem_unitOf_self (d : Dev) (v : VoiceId) : v ∈ d.unitOf v := by
  unfold Dev.unitOf Dev.gang
  extract_lets e
  split
  · next g ganged =>
    have head : g = if v.val % 2 = 0 then v else prevVoice v := by
      split at ganged
      · exact (Option.some.inj ganged).symm
      · cases ganged
    split at head
    · simp [head]
    · simp [head, nextVoice_prevVoice]
  · simp

theorem Dev.forVoices_modVoice_fault {code : Nat} (g : Voice → Voice) (sets : ∀ x, (g x).fault = code) {vs : List VoiceId}
    (mem : v ∈ vs) : ((d.forVoices vs fun d m => d.modVoice m g).voice v).fault = code := by
  induction vs generalizing d with
  | nil => exact absurd mem List.not_mem_nil
  | cons u vs ih =>
    show (((d.modVoice u g).forVoices vs fun d m => d.modVoice m g).voice v).fault = code
    by_cases later : v ∈ vs
    · exact ih later
    · have same : v = u := (List.mem_cons.1 mem).resolve_right later
      rw [Dev.forVoices_modVoice_of_not_mem g later, same, Dev.voice_modVoice_self, sets]

/-- Every member of a unit that trips shows the fault. -/
theorem Dev.markTrip_fault (d : Dev) (v : VoiceId) (code : Nat) (stripes : BitVec 2) (m : Meas) :
    ((d.markTrip v code stripes m).voice v).fault = code := by
  rw [Dev.markTrip_voice, Dev.voice_modVoice_self]
  exact Dev.forVoices_modVoice_fault (d := d)
    (fun y => { y with fault := code, st := if y.st = .checking then .tripped else y.st }) (fun _ => rfl) (d.mem_unitOf_self v)

theorem Dev.clampTrip_trips (none_scored : d.slotFaults = []) (driven : (d.voice v).driven = true) (m : Meas) :
    ((d.clampTrip v m).voice v).fault = 9 ∧ ((d.clampTrip v m).voice v).checks.trip = some 9 := by
  rw [Dev.clampTrip, Dev.voice_modVoice_self, Dev.scoreTrip_of_driven none_scored driven]
  exact ⟨Dev.markTrip_fault .., (Dev.markTrip_checks ..).1⟩

/-! ### The clamp (06 R195) -/

/-- What a clamp pulse adds to its voice (06 R195, 13 R356, R361). -/
def Voice.clampPulse (x : Voice) (now n : Nat) (ended : Bool) : Voice := { x with
  clamp := if ended then none else some (x.clamp.getD 0 + n)
  therm := { x.therm with
    energy := x.therm.energy + (n : Rat) / 1000000
    driven := if ended && !x.driven then x.therm.driven + (now - max x.idleSince x.therm.anchoredAt) else x.therm.driven
    restSince := if x.driven || !ended then none else some now } }

end

/-! ### The events -/

section
variable {s : State} {dt : Nat} {v : VoiceId}

theorem execGateRampEnd_turnOn {x : Nat} (ramp : ((s.turn dt).dev.voice v).ramp = .running x)
    (no_slew : ((s.turn dt).dev.voice v).profile ≠ 3) (use : ((s.turn dt).dev.voice v).rampUse = .turnOn) :
    exec (.gateRampEnd dt v) s = .next (s.after dt fun d => (d.rampEnds v).settle v) := by
  refine congrArg Host.Outcome.next (State.after_congr ?_)
  simp only [ramp, no_slew, use, decide_false, Bool.false_and, Bool.false_eq_true, if_false, reduceCtorEq]
  rfl

theorem execProfilePhaseEnd_next {x y l k : Nat} {rest : List (Nat × Nat)}
    (plan : ((s.turn dt).dev.voice v).plan = (x, l) :: (y, k) :: rest) (driven : ((s.turn dt).dev.voice v).driven = true)
    (due : x ≤ (s.turn dt).dev.now) (no_slew : ((s.turn dt).dev.voice v).profile ≠ 3) :
    exec (.profilePhaseEnd dt v) s = .next (s.after dt fun d => Dev.nextPhase ((y, k) :: rest) k d v) := by
  refine congrArg Host.Outcome.next (State.after_congr ?_)
  have planned : ((Dev.nextPhase ((y, k) :: rest) k (s.turn dt).dev v).voice v).plan ≠ [] := by
    simp [Dev.nextPhase]
  refine Eq.trans ?_ (Dev.settle_of_plan planned)
  simp only [plan, driven, due, no_slew, decide_false, Bool.and_false, decide_true, Bool.and_self, Bool.false_eq_true,
    if_false, if_true]
  rfl

theorem execHoldChopPeriod_begins (m : Meas) (free : (s.turn dt).dev.ka.held = false)
    (st : ((s.turn dt).dev.voice v).st = .holding) (ramped : ((s.turn dt).dev.voice v).ramp = .none)
    (period : ((s.turn dt).dev.now - ((s.turn dt).dev.voice v).holdFrom) % (50 * usec) = 0)
    (unclamped : ((s.turn dt).dev.voice v).clampedNow = false) :
    exec (.holdChopPeriod dt v false m) s = .next (s.after dt fun d => d.chopBegins v) := by
  refine congrArg Host.Outcome.next (State.after_congr ?_)
  simp only [free, st, ramped, period, unclamped, Bool.false_or, Bool.false_eq_true, if_false, decide_true, Bool.and_self,
    if_true, Nat.reduceLeDiff]
  rfl

/-- The third clamped period in a row trips at once, whether it ends or runs (06 R183). -/
theorem execHoldChopPeriod_trips (m : Meas) (free : (s.turn dt).dev.ka.held = false)
    (st : ((s.turn dt).dev.voice v).st = .holding) (ramped : ((s.turn dt).dev.voice v).ramp = .none)
    (clamped : 2 ≤ ((s.turn dt).dev.voice v).clampedChops) :
    exec (.holdChopPeriod dt v true m) s = .next (s.after dt fun d => d.clampTrip v m) := by
  refine congrArg Host.Outcome.next (State.after_congr ?_)
  have third : 3 ≤ ((s.turn dt).dev.voice v).clampedChops + 1 := by omega
  simp only [free, st, ramped, clamped, third, Bool.true_or, Bool.false_eq_true, if_false, decide_true, Bool.and_self,
    if_true]
  split <;> rfl

theorem execHoldChopPeriod_peak (m : Meas) (free : (s.turn dt).dev.ka.held = false)
    (st : ((s.turn dt).dev.voice v).st = .ramping) (mode : ((s.turn dt).dev.voice v).driveMode = 2)
    (gate : ((s.turn dt).dev.voice v).gate = false)
    (period : ((s.turn dt).dev.now - ((s.turn dt).dev.voice v).onAt) % (50 * usec) = 0) :
    exec (.holdChopPeriod dt v false m) s = .next (s.after dt fun d => d.peakBegins v) := by
  refine congrArg Host.Outcome.next (State.after_congr ?_)
  simp only [free, st, mode, gate, period, Bool.false_eq_true, if_false, decide_true, Bool.and_self, Bool.not_false,
    if_true, reduceCtorEq, decide_false, Bool.false_and]
  rfl

theorem execClampPulseEnd_within {n : Nat} {ended : Bool} (m : Meas)
    (within : (if ((s.turn dt).dev.voice v).half then 2 * (((s.turn dt).dev.voice v).clamp.getD 0 + n)
      else ((s.turn dt).dev.voice v).clamp.getD 0 + n) ≤ (s.turn dt).dev.vfld v 0x12 0 16 * 1000 ∨ ended = false) :
    exec (.clampPulseEnd dt v ⟨n, ended⟩ m) s = .next (s.after dt fun d =>
      d.modVoice v fun x => x.clampPulse d.now n ended) := by
  refine congrArg Host.Outcome.next (State.after_congr (if_neg ?_))
  rcases within with within | runs
  · simpa using fun _ => within
  · simp [runs]

end

end Sys2Proof.Machine

namespace Sys2Proof
open Machine

/-- Settles O37, event by event. -/
theorem driveEventsAct : Obligations.DriveEventsAct := by
  intro s dt v d
  refine ⟨fun x ramp no_slew planless st use due steady mode => ⟨_, execGateRampEnd_turnOn ramp no_slew use, ?on⟩,
    fun x y l k rest plan driven due no_slew => ⟨_, execProfilePhaseEnd_next plan driven due no_slew, ?phase⟩,
    fun alone st mode grid idle ramped steady long gap free => ⟨_, rfl, ?period⟩,
    fun x no_blip st edge due later planless => ⟨_, rfl, ?edge⟩,
    fun m st period ramped unclamped free =>
      ⟨_, execHoldChopPeriod_begins m free st ramped period unclamped, ?chop⟩,
    fun m st ramped clamped none_scored free => ⟨_, execHoldChopPeriod_trips m free st ramped clamped, ?trips⟩,
    fun m st mode gate period free => ⟨_, execHoldChopPeriod_peak m free st mode gate period, ?peak⟩,
    fun no_blip st mode gate => ⟨_, rfl, ?reached⟩,
    fun n ended m => ?clamp⟩
  case clamp =>
    intro total within
    refine ⟨_, execClampPulseEnd_within m within, ?_⟩
    rw [State.after_voice, Dev.voice_modVoice_self]
    exact ⟨rfl, rfl, rfl⟩
  all_goals simp only [State.after_voice]
  case on => exact Dev.rampEnds_on st planless due steady mode
  case phase =>
    simp only [Dev.nextPhase, Dev.voice_modVoice_self]
    exact ⟨trivial, trivial, fun u other => Dev.voice_modVoice_ne _ _ other⟩
  case period =>
    have starts : (s.turn dt).dev.forVoices ((s.turn dt).dev.unitOf v) Dev.periodStart = (s.turn dt).dev.periodStart v := by
      rw [Dev.unitOf_of_no_gang alone]
      rfl
    rw [starts, Dev.periodStart_pulses st mode grid idle ramped steady long gap free, Dev.voice_modVoice_self]
    exact ⟨rfl, fun u other => Dev.voice_modVoice_ne _ _ other⟩
  case edge =>
    rw [Dev.offEdge1_pwm no_blip st edge due later planless, Dev.pulseEnds, Dev.voice_modVoice_self]
    exact ⟨Voice.gateFall_gate .., Voice.gateFall_ramp .., rfl⟩
  case chop =>
    rw [Dev.chopBegins, Dev.voice_modVoice_self]
    exact ⟨rfl, rfl, rfl⟩
  case trips =>
    exact Dev.clampTrip_trips none_scored (by rw [Voice.driven, st]; rfl) m
  case peak =>
    rw [Dev.peakBegins, Dev.voice_modVoice_self]
    rfl
  case reached =>
    rw [Dev.offEdge1_peak no_blip st mode gate, Dev.peakReached, Dev.voice_modVoice_self]
    refine ⟨Voice.gateFall_gate .., (Voice.gateFall_st ..).trans ?_⟩
    rw [Dev.edgeEnergy_voice_self]
    exact st

end Sys2Proof

/-! SUPPORT. O40: sound checks that find nothing, and retries (07 R205, R206, R212 to R218). -/

namespace Sys2Proof.Machine
open Sys2Proof

/-! ### The members of a unit -/

theorem Dev.Keeps.voice_eq {W : Part → Prop} {e d : Dev} (kept : e.Keeps W d) (out : ¬W .voices) (u : VoiceId) :
    e.voice u = d.voice u := congrArg (fun t : Tab Voice 48 => t.get u) (kept.frame .voices out)

section
variable {d : Dev} {v : VoiceId}

theorem Dev.modUnit_voice_self (alone : d.gang v = none) (f : Voice → Voice) : (d.modUnit v f).voice v = f (d.voice v) := by
  rw [Dev.modUnit, Dev.unitOf_of_no_gang alone]
  exact Dev.voice_modVoice_self ..

theorem Dev.modUnit_voice_ne {u : VoiceId} (alone : d.gang v = none) (other : u ≠ v) (f : Voice → Voice) :
    (d.modUnit v f).voice u = d.voice u := by
  rw [Dev.modUnit, Dev.unitOf_of_no_gang alone]
  exact Dev.voice_modVoice_ne _ _ other

/-- What a change leaves of every voice it leaves of every voice of a unit. -/
theorem Dev.modUnit_same {α : Type} {q : Voice → α} {f : Voice → Voice} (same : ∀ x, q (f x) = q x) (d : Dev)
    (v u : VoiceId) : q ((d.modUnit v f).voice u) = q (d.voice u) := by
  refine Dev.foldl_same (q := fun e => q (e.voice u)) (fun e m _ => ?_) d
  rcases Decidable.em (u = m) with rfl | other
  · rw [Dev.voice_modVoice_self, same]
  · rw [Dev.voice_modVoice_ne _ _ other]

theorem Dev.modUnit_beside (d : Dev) (v : VoiceId) (f : Voice → Voice) : (d.modUnit v f).Keeps (· ∈ [.voices]) d := by
  refine Dev.forVoices_keeps (.refl _) (fun x hx m => ?_) _
  apply Dev.modVoice_keeps <;> first | decide | exact hx

end

/-! ### The start of a check (07 R212 to R215) -/

/-- The check of a tripped voice outside a gang. -/
def Dev.tripCheck (d : Dev) (v : VoiceId) : RunningCheck :=
  let x := d.voice v
  let tests := testsOf (x.checks.trip.getD 0)
  let len := d.checkLength v tests
  { kind := .trip, voice := v, partner := d.partner v, both := false, trigger := x.checks.trip.getD 0, tests := tests, codes := []
    meas := x.checks.meas, before := x.checks.before, repeats := false, length := len, ends := d.now + len * usec }

section
variable {d : Dev} {v : VoiceId}

/-- The descant is asked for a current, beside which the device stands. -/
theorem Dev.requests_beside (d : Dev) (source : UrgentSource) (inputs : List Nat) :
    (inputs.foldl (fun d i => d.request source i) d).Keeps (· ∈ [.conv]) d := by
  refine Dev.Keeps.foldl (.refl _) (fun x hx i => ?_) inputs
  apply Dev.request_keeps <;> first | decide | exact hx

theorem Dev.startCheck_trip (idle : d.sc.running = none) (next : d.nextCheck = some (.trip, v)) (alone : d.gang v = none) :
    ∃ e : Dev, e.Keeps (· ∈ [.conv]) d ∧ d.startCheck =
      ((e.setSc fun c => { c with running := some (d.tripCheck v) }).modUnit v fun y =>
        if y.st = .tripped || y.st = .checking then { y with st := .checking } else y).modVoice v fun y => { y with checks := y.checks } := by
  have single : d.unitOf v = [v] := Dev.unitOf_of_no_gang alone
  refine ⟨_, Dev.requests_beside d .soundCheck (List.replicate
    (if (testsOf ((d.voice v).checks.trip.getD 0)).getLsbD 0 then d.stripesLeft v else 0) v.val), ?_⟩
  simp [Dev.startCheck, idle, next, single, alone, Dev.tripCheck]

theorem Dev.startCheck_sc (idle : d.sc.running = none) (next : d.nextCheck = some (.trip, v)) (alone : d.gang v = none) :
    d.startCheck.sc.running = some (d.tripCheck v) := by
  obtain ⟨e, _, starts⟩ := Dev.startCheck_trip idle next alone
  have unit := (Dev.modUnit_beside (e.setSc fun c => { c with running := some (d.tripCheck v) }) v fun y =>
    if y.st = .tripped || y.st = .checking then { y with st := .checking } else y).frame .sc (by decide)
  rw [starts]
  exact congrArg SoundCheck.running unit

theorem Dev.startCheck_voice_self (idle : d.sc.running = none) (next : d.nextCheck = some (.trip, v))
    (alone : d.gang v = none) (tripped : (d.voice v).st = .tripped) : (d.startCheck.voice v).st = .checking := by
  obtain ⟨e, kept, starts⟩ := Dev.startCheck_trip idle next alone
  have alone' : e.gang v = none := (Dev.gang_congr (kept.frame .par (by decide)) v).trans alone
  have same : e.voice v = d.voice v := kept.voice_eq (by decide) v
  rw [starts, Dev.voice_modVoice_self, Dev.modUnit_voice_self (d := e.setSc fun c => { c with running := some (d.tripCheck v) }) alone']
  have st : (e.voice v).st = .tripped := by rw [same, tripped]
  show (if ((e.voice v).st = .tripped || (e.voice v).st = .checking : Bool) = true then { e.voice v with st := .checking } else e.voice v).st = .checking
  rw [st]
  rfl

theorem Dev.startCheck_voice_ne {u : VoiceId} (idle : d.sc.running = none) (next : d.nextCheck = some (.trip, v))
    (alone : d.gang v = none) (other : u ≠ v) : d.startCheck.voice u = d.voice u := by
  obtain ⟨e, kept, starts⟩ := Dev.startCheck_trip idle next alone
  have alone' : e.gang v = none := (Dev.gang_congr (kept.frame .par (by decide)) v).trans alone
  rw [starts, Dev.voice_modVoice_ne _ _ other, Dev.modUnit_voice_ne (d := e.setSc fun c => { c with running := some (d.tripCheck v) }) alone' other]
  exact kept.voice_eq (by decide) u

end

/-! ### A check that finds nothing (07 R216) -/

section
variable {d : Dev} {v : VoiceId}

theorem Dev.tellUnit_beside (d : Dev) (v : VoiceId) (shown unit trigger : Nat) (o : CheckOutcome) (failed run dur : Nat) :
    (d.tellUnit v shown unit trigger o failed run dur).Keeps (· ∈ [.port, .log, .sc, .nv]) d := by
  apply Dev.tellUnit_keeps <;> first | decide | exact .refl _

theorem Dev.tellOutcome_beside (d : Dev) (v : VoiceId) (unit trigger : Nat) (o : CheckOutcome) (failed run dur : Nat) :
    (d.tellOutcome v unit trigger o failed run dur).Keeps (· ∈ [.port, .log, .sc, .nv, .voices]) d := by
  apply Dev.tellOutcome_keeps <;> first | decide | exact .refl _

/-- The outcome is noted in the voice's record, and opens its window; nothing else of the voice changes. -/
theorem Dev.tellOutcome_voice_self (d : Dev) (v : VoiceId) (unit trigger : Nat) (o : CheckOutcome) (failed run dur : Nat) :
    ∃ record windows, (d.tellOutcome v unit trigger o failed run dur).voice v =
      { d.voice v with record := record, windows := windows } ∧ record.trigger = trigger ∧ record.outcome = o.code := by
  have noted : (d.tellOutcome v unit trigger o failed run dur).voice v = _ := Dev.voice_modVoice_self ..
  rw [(d.tellUnit_beside v v.val unit trigger o failed run dur).voice_eq (by decide)] at noted
  exact ⟨_, _, noted, rfl, rfl⟩

/-- Where no test failed the outcome is by rules 2 to 4 of 07 R216. -/
theorem Dev.judge_clean (d : Dev) (v : VoiceId) (r : RunningCheck) (incomplete : Bool) (dur : Nat) :
    ∃ o, d.judge v r 0#6 0#6 incomplete dur = (d.tellOutcome v v.val r.trigger o 0 r.tests.toNat dur, .sound o) ∧
      (r.kind = .host → o = .transient) := by
  refine ⟨if r.kind = .host then .transient else d.classify v r.trigger incomplete, ?_, fun host => if_pos host⟩
  simp [Dev.judge]

theorem bothMembers_fill (i : Fin 4) : (bothMembers (.fill 2 0#6) (.fill 2 0#6)).get i = 0#6 := by
  simp [bothMembers]

theorem Dev.releaseHeld_same {α : Type} {q : Voice → α} (wait : ∀ x w, q { x with wait := w } = q x) (d : Dev) (v u : VoiceId) :
    q ((d.releaseHeld v).voice u) = q (d.voice u) := by
  refine Dev.modUnit_same (fun x => ?_) d v u
  split
  · split
    · exact wait ..
    · rfl
  · rfl

/-- A host check that finds nothing is TRANSIENT and leaves its voice (07 R210, R219). -/
theorem Dev.finishReport_host {r : RunningCheck} (host : r.kind = .host) (codeless : r.codes = []) (partial_ : BitVec 6)
    (voHigh : Bool) (dur : Nat) : d.finishReport r 0#6 0#6 partial_ voHigh dur =
      (d.tellOutcome r.voice r.voice.val r.trigger .transient 0 r.tests.toNat dur).releaseHeld r.voice := by
  obtain ⟨o, judged, transient⟩ := d.judge_clean r.voice r (partial_ &&& r.tests != 0#6) dur
  simp [Dev.finishReport, codeless, judged, transient host, host]

theorem Dev.finishCheck_host {r : RunningCheck} (host : r.kind = .host) (codeless : r.codes = []) (voHigh : Bool) (dur : Nat) :
    d.finishCheck r (bothMembers (.fill 2 0#6) (.fill 2 0#6)) 0#6 voHigh dur =
      ((d.dropAsks.tellOutcome r.voice r.voice.val r.trigger .transient 0 r.tests.toNat dur).releaseHeld r.voice).setSc
        fun c => { c with running := none } := by
  simp only [Dev.finishCheck, host, bothMembers_fill, Dev.finishReport_host host codeless]

/-! ### A trip whose check finds nothing (07 R205, R218) -/

/-- The LATCH policy. -/
theorem Dev.retryDecision_latch (policy : d.vfld v 0x0F 0 2 = 0) : d.retryDecision v =
    (d.settleUnit v .latched).event 0x0205 (d.headOf v).val [b8 (d.voice v).fault, b8 (d.voice v).retry] := by
  simp only [Dev.retryDecision, policy]

theorem Dev.tripDecision_latch (alone : d.gang v = none) (checking : (d.voice v).st = .checking)
    (kept_on : (d.voice v).checks.offAsked = false) (conducted : d.ctl.mode = .conducted) (policy : d.vfld v 0x0F 0 2 = 0) :
    ((d.tripDecision v).voice v).st = .latched := by
  have decides : d.tripDecision v = d.retryDecision v := by
    simp [Dev.tripDecision, checking, kept_on, conducted, Dev.unitOf_of_no_gang alone]
  rw [decides, Dev.retryDecision_latch policy, Dev.voice_event, Dev.settleUnit, Dev.modUnit_voice_self alone, checking]
  rfl

theorem Dev.tripDecision_par (d : Dev) (v : VoiceId) : (d.tripDecision v).par = d.par := by
  have kept : (d.tripDecision v).Keeps (· ≠ .par) d := by
    apply Dev.tripDecision_keeps <;> first | decide | exact .refl _
  exact kept.frame .par (by decide)

theorem Dev.finishTrip_clean {r : RunningCheck} (single : r.both = false) (incomplete : Bool) (dur : Nat) :
    ∃ o, d.finishTrip r (bothMembers (.fill 2 0#6) (.fill 2 0#6)) incomplete dur =
      ((((d.tellOutcome r.voice r.voice.val r.trigger o 0 r.tests.toNat dur).tripDecision r.voice).clearTrip r.voice).releaseHeld
        r.voice) := by
  obtain ⟨o, judged, _⟩ := d.judge_clean r.voice r incomplete dur
  refine ⟨o, ?_⟩
  simp [Dev.finishTrip, single, bothMembers_fill, judged]

theorem Dev.finishTrip_latches {r : RunningCheck} (voice : r.voice = v) (single : r.both = false) (alone : d.gang v = none)
    (checking : (d.voice v).st = .checking) (kept_on : (d.voice v).checks.offAsked = false)
    (conducted : d.ctl.mode = .conducted) (policy : d.vfld v 0x0F 0 2 = 0) (incomplete : Bool) (dur : Nat) :
    ((d.finishTrip r (bothMembers (.fill 2 0#6) (.fill 2 0#6)) incomplete dur).voice v).st = .latched ∧
      ((d.finishTrip r (bothMembers (.fill 2 0#6) (.fill 2 0#6)) incomplete dur).voice v).checks.trip = none := by
  subst voice
  obtain ⟨o, finished⟩ := Dev.finishTrip_clean (d := d) single incomplete dur
  obtain ⟨record, windows, told, _⟩ := d.tellOutcome_voice_self r.voice r.voice.val r.trigger o 0 r.tests.toNat dur
  have beside := d.tellOutcome_beside r.voice r.voice.val r.trigger o 0 r.tests.toNat dur
  have par := beside.frame .par (by decide)
  generalize d.tellOutcome r.voice r.voice.val r.trigger o 0 r.tests.toNat dur = e at finished told beside par
  have alone' : e.gang r.voice = none := (Dev.gang_congr par _).trans alone
  have latched : ((e.tripDecision r.voice).voice r.voice).st = .latched :=
    Dev.tripDecision_latch alone' (by rwa [told]) (by rwa [told])
      ((congrArg Control.mode (beside.frame .ctl (by decide))).trans conducted) ((Dev.vfld_congr par ..).trans policy)
  have alone'' : (e.tripDecision r.voice).gang r.voice = none := (Dev.gang_congr (e.tripDecision_par _) _).trans alone'
  rw [finished]
  refine ⟨(Dev.releaseHeld_same (q := Voice.st) (fun _ _ => rfl) ..).trans ?_,
    (Dev.releaseHeld_same (q := fun x => x.checks.trip) (fun _ _ => rfl) ..).trans ?_⟩
  · rw [Dev.clearTrip, Dev.modUnit_voice_self alone'']
    exact latched
  · rw [Dev.clearTrip, Dev.modUnit_voice_self alone'']

theorem Dev.finishCheck_trip {r : RunningCheck} (trip : r.kind = .trip) (served : d.checkAsks = false) (voHigh : Bool)
    (dur : Nat) : d.finishCheck r (bothMembers (.fill 2 0#6) (.fill 2 0#6)) 0#6 voHigh dur =
      (d.dropAsks.finishTrip r (bothMembers (.fill 2 0#6) (.fill 2 0#6)) false dur).setSc fun c => { c with running := none } := by
  simp [Dev.finishCheck, trip, served]

end

/-! ### The events -/

section
variable {s : State} {dt : Nat} {v : VoiceId}

theorem execSoundcheckDone_due {r : RunningCheck} {voHigh : Bool} (running : (s.turn dt).dev.sc.running = some r)
    (due : r.ends ≤ (s.turn dt).dev.now) :
    exec (.soundcheckDone dt (.fill 2 0) (.fill 2 0) 0 voHigh) s = .next (s.after dt fun d =>
      d.finishCheck r (bothMembers (.fill 2 0#6) (.fill 2 0#6)) 0#6 voHigh r.length) := by
  refine congrArg Host.Outcome.next (State.after_congr ?_)
  simp only [running, due, if_true]
  rfl

theorem execRetryDue_due {x : Nat} (waits : ((s.turn dt).dev.voice v).retryAt = some x) (due : x ≤ (s.turn dt).dev.now)
    (st : ((s.turn dt).dev.voice v).st = .retryWait) (not_cool : (s.turn dt).dev.vfld v 0x0F 0 2 ≠ 2) :
    exec (.retryDue dt v) s = .next (s.after dt fun d =>
      d.modUnit v fun y => { y with retryAt := none, retryReady := true }) := by
  refine congrArg Host.Outcome.next (State.after_congr ?_)
  simp [waits, due, st, not_cool]

theorem execRetryClear_due {x : Nat} (since : ((s.turn dt).dev.voice v).drivenSince = some x)
    (driven : ((s.turn dt).dev.voice v).driven = true)
    (long : (s.turn dt).dev.vfld v 0x10 0 16 * 100 * msec < (s.turn dt).dev.now - x) :
    exec (.retryClear dt v) s = .next (s.after dt fun d => d.modUnit v fun x => { x with retry := 0, windows := 0 }) := by
  refine congrArg Host.Outcome.next (State.after_congr ?_)
  simp [since, driven, long]

end

end Sys2Proof.Machine

namespace Sys2Proof
open Machine

/-- Settles O40: the check that starts, the two that find nothing, and the two ends of a retry. -/
theorem soundChecksAndRetriesAct : Obligations.SoundChecksAndRetriesAct := by
  intro s dt v d
  refine ⟨fun idle next tripped alone => ⟨_, d.tripCheck v, rfl, ?_, rfl, rfl, rfl, rfl, ?_, fun u other => ?_⟩,
    fun r voHigh running due host codeless => ⟨_, execSoundcheckDone_due running due, ?sc, ?host⟩,
    fun r voHigh running due trip voice single checking kept_on alone conducted served policy =>
      ⟨_, execSoundcheckDone_due running due, ?sc', ?trip⟩,
    fun x waits due st not_cool alone => ⟨_, execRetryDue_due waits due st not_cool, ?_, ?_, fun u other => ?_⟩,
    fun x since driven long alone => ⟨_, execRetryClear_due since driven long, ?_, ?_, fun u other => ?_⟩⟩
  · exact (congrArg SoundCheck.running (State.after_sc ..)).trans (Dev.startCheck_sc idle next alone)
  · exact (congrArg Voice.st (State.after_voice ..)).trans (Dev.startCheck_voice_self idle next alone tripped)
  · exact (State.after_voice ..).trans (Dev.startCheck_voice_ne idle next alone other)
  case sc =>
    rw [State.after_sc]
    rfl
  case host =>
    obtain ⟨record, windows, told, trigger, outcome⟩ := d.dropAsks.tellOutcome_voice_self r.voice r.voice.val r.trigger
      .transient 0 r.tests.toNat r.length
    simp only [State.after_voice]
    rw [Dev.finishCheck_host host codeless]
    refine ⟨(Dev.releaseHeld_same (q := fun x => x.record.trigger) (fun _ _ => rfl) ..).trans ?_,
      (Dev.releaseHeld_same (q := fun x => x.record.outcome) (fun _ _ => rfl) ..).trans ?_,
      (Dev.releaseHeld_same (q := fun x => x.checks.host) (fun _ _ => rfl) ..).trans ?_⟩
    · rw [told]
      exact trigger
    · rw [told]
      exact outcome
    · rw [told]
      rfl
  case sc' =>
    rw [State.after_sc]
    rfl
  case trip =>
    simp only [State.after_voice]
    rw [Dev.finishCheck_trip trip served]
    exact Dev.finishTrip_latches (d := d.dropAsks) voice single alone checking kept_on conducted policy false r.length
  all_goals rw [State.after_voice]
  · rw [Dev.modUnit_voice_self alone]
  · rw [Dev.modUnit_voice_self alone]
  · exact Dev.modUnit_voice_ne alone other _
  · rw [Dev.modUnit_voice_self alone]
  · rw [Dev.modUnit_voice_self alone]
  · exact Dev.modUnit_voice_ne alone other _

end Sys2Proof

/-! SUPPORT. O41: the loss of a bank, its holds, its cut and its current sum (05 R156, 06 R171, R172, 17 R492, R493). -/

namespace Sys2Proof.Machine
open Sys2Proof

/-! ### Levels that turn voices off (08 R237) -/

theorem Dev.dropVoice_voice_ne (why : OffWhy) (d : Dev) {v u : VoiceId} (other : u ≠ v) :
    (Dev.dropVoice why d v).voice u = d.voice u := by
  unfold Dev.dropVoice
  extract_lets was d1
  have off : d1.voice u = d.voice u := d.turnOff_voice_ne why other
  split
  · exact (Dev.voice_modVoice_ne _ _ other).trans off
  · exact off

theorem Dev.dropVoice_not_driven (why : OffWhy) (d : Dev) (v : VoiceId) : ((Dev.dropVoice why d v).voice v).driven = false := by
  unfold Dev.dropVoice
  extract_lets was d1
  have off : (d1.voice v).driven = false := d.turnOff_not_driven v why
  split
  · rw [Dev.voice_modVoice_self]
    exact off
  · exact off

theorem Dev.dropVoice_off_stays (why : OffWhy) {d : Dev} {u : VoiceId} (off : (d.voice u).driven = false) (v : VoiceId) :
    ((Dev.dropVoice why d v).voice u).driven = false := by
  rcases Decidable.em (u = v) with rfl | other
  · exact Dev.dropVoice_not_driven why d u
  · rwa [Dev.dropVoice_voice_ne why d other]

/-- Every voice of the list is off behind it, and every voice that was off before. -/
theorem Dev.forVoices_dropVoice_not_driven (why : OffWhy) {d : Dev} {vs : List VoiceId} {u : VoiceId}
    (named : (d.voice u).driven = true → u ∈ vs) : ((d.forVoices vs (Dev.dropVoice why)).voice u).driven = false := by
  induction vs generalizing d with
  | nil => exact Bool.eq_false_iff.2 fun driven => List.not_mem_nil (named driven)
  | cons v vs ih =>
    refine ih (d := Dev.dropVoice why d v) fun driven => ?_
    rcases Decidable.em (u = v) with rfl | other
    · rw [Dev.dropVoice_not_driven] at driven
      cases driven
    · rw [Dev.dropVoice_voice_ne why d other] at driven
      exact (List.mem_cons.1 (named driven)).resolve_left other

/-! ### Waits (10 R298) -/

theorem Dev.withdraw_voice_ne (d : Dev) {v u : VoiceId} (other : u ≠ v) : (d.withdraw v).voice u = d.voice u := by
  unfold Dev.withdraw
  split
  · exact (Dev.voice_modVoice_ne _ _ other).trans (d.returnTokens_voice_ne other)
  · rfl

theorem Dev.withdraw_wait (d : Dev) (v : VoiceId) : ((d.withdraw v).voice v).wait = none := by
  unfold Dev.withdraw
  split
  · rw [Dev.voice_modVoice_self]
  · assumption

theorem Dev.withdraw_st (d : Dev) (v u : VoiceId) : ((d.withdraw v).voice u).st = (d.voice u).st := by
  rcases Decidable.em (u = v) with rfl | other
  · unfold Dev.withdraw
    split
    · rw [Dev.voice_modVoice_self, Dev.returnTokens_voice_self]
    · rfl
  · rw [Dev.withdraw_voice_ne d other]

theorem Dev.withdraw_wait_stays {d : Dev} {u : VoiceId} (idle : (d.voice u).wait = none) (v : VoiceId) :
    ((d.withdraw v).voice u).wait = none := by
  rcases Decidable.em (u = v) with rfl | other
  · exact Dev.withdraw_wait d u
  · rwa [Dev.withdraw_voice_ne d other]

theorem Dev.forVoices_withdraw_wait {d : Dev} {vs : List VoiceId} {u : VoiceId}
    (named : (d.voice u).wait ≠ none → u ∈ vs) : ((d.forVoices vs fun d v => d.withdraw v).voice u).wait = none := by
  induction vs generalizing d with
  | nil => exact Classical.byContradiction fun waits => List.not_mem_nil (named waits)
  | cons v vs ih =>
    refine ih (d := d.withdraw v) fun waits => ?_
    rcases Decidable.em (u = v) with rfl | other
    · exact absurd (d.withdraw_wait u) waits
    · rw [Dev.withdraw_voice_ne d other] at waits
      exact (List.mem_cons.1 (named waits)).resolve_left other

theorem Dev.forVoices_withdraw_st (d : Dev) (vs : List VoiceId) (u : VoiceId) :
    ((d.forVoices vs fun d v => d.withdraw v).voice u).st = (d.voice u).st :=
  Dev.foldl_same (q := fun e => (e.voice u).st) (fun e v _ => e.withdraw_st v u) d

/-! ### The loss of a bank (06 R172) -/

theorem Dev.endSearches_same {α : Type} {q : Voice → α} (lead : ∀ x l, q { x with lead := l } = q x) (d : Dev) (b : BankId)
    (u : VoiceId) : q ((d.endSearches b).voice u) = q (d.voice u) := by
  refine Dev.foldl_same (q := fun e => q (e.voice u)) (fun e m _ => ?_) d
  rcases Decidable.em (u = m) with rfl | other
  · rw [Dev.voice_modVoice_self]
    exact lead ..
  · rw [Dev.voice_modVoice_ne _ _ other]

section
variable {d : Dev} {b : BankId}

/-- The device as a bank is lost, before a check of its voices ends. -/
def Dev.bankGone (d : Dev) (b : BankId) : Dev :=
  ((d.forVoices (d.drivenOf b) (Dev.dropVoice .forced)).endSearches b).withdrawBank b

theorem Dev.bankGone_beside (d : Dev) (b : BankId) : (d.bankGone b).Keeps (· ∈ [.port, .log, .voices, .therm, .chain]) d := by
  refine Dev.withdrawBank_keeps (by decide) (by decide) (Dev.endSearches_keeps (by decide) ?_ _) _
  refine Dev.forVoices_keeps (.refl _) (fun x hx v => ?_) _
  apply Dev.dropVoice_keeps <;> first | decide | exact hx

theorem Dev.bankGone_not_driven (d : Dev) {b : BankId} {v : VoiceId} (gone : (d.voice v).driven = true → bankOf v = b) :
    ((d.bankGone b).voice v).driven = false := by
  have dropped : ((d.forVoices (d.drivenOf b) (Dev.dropVoice .forced)).voice v).driven = false := by
    refine Dev.forVoices_dropVoice_not_driven .forced fun driven => ?_
    simp [Dev.drivenOf, mem_idx, driven, gone driven]
  have searched : (((d.forVoices (d.drivenOf b) (Dev.dropVoice .forced)).endSearches b).voice v).driven = false :=
    (Dev.endSearches_same (q := Voice.driven) (fun _ _ => rfl) ..).trans dropped
  rw [Voice.driven] at searched ⊢
  rwa [Dev.bankGone, Dev.withdrawBank, Dev.forVoices_withdraw_st]

theorem Dev.dropVoice_wait (why : OffWhy) (d : Dev) (v u : VoiceId) :
    ((Dev.dropVoice why d v).voice u).wait = (d.voice u).wait := by
  rcases Decidable.em (u = v) with rfl | other
  · have off : ((d.turnOff u why).voice u).wait = (d.voice u).wait := by
      cases driven : (d.voice u).driven
      · rw [Dev.turnOff_of_not_driven driven]
      · obtain ⟨life, off⟩ := Dev.turnOff_voice_self driven why
        rw [off]
        rfl
    unfold Dev.dropVoice
    extract_lets was d1
    split
    · rw [Dev.voice_modVoice_self]
      exact off
    · exact off
  · rw [Dev.dropVoice_voice_ne why d other]

theorem Dev.bankGone_wait (d : Dev) {b : BankId} {v : VoiceId} (gone : (d.voice v).wait ≠ none → bankOf v = b) :
    ((d.bankGone b).voice v).wait = none := by
  refine Dev.forVoices_withdraw_wait fun waits => ?_
  have waited : (d.voice v).wait ≠ none := by
    have same := Dev.endSearches_same (q := Voice.wait) (fun _ _ => rfl) (d.forVoices (d.drivenOf b) (Dev.dropVoice .forced)) b v
    rw [same] at waits
    rwa [← Dev.foldl_same (q := fun e => (e.voice v).wait) (fun e u _ => Dev.dropVoice_wait .forced e u v) d]
  simp [mem_idx, gone waited]

theorem Dev.bankGone_sc (d : Dev) (b : BankId) : (d.bankGone b).sc = d.sc := (d.bankGone_beside b).frame .sc (by decide)

/-- With no check under way the loss of a bank ends none. -/
theorem Dev.loseBank_idle (idle : d.sc.running = none) : d.loseBank b = d.bankGone b := by
  have none_runs : (d.bankGone b).sc.running = none := by rw [Dev.bankGone_sc, idle]
  show (d.bankGone b).cutShortBank b = _
  simp only [Dev.cutShortBank, none_runs]

theorem Dev.loseBank_sc (idle : d.sc.running = none) : (d.loseBank b).sc.running = none := by
  rw [Dev.loseBank_idle idle, Dev.bankGone_sc, idle]

end

/-! ### What the supply of a bank keeps (05 R156, 06 R172) -/

/-- The banks of the two devices differ in their cuts alone. -/
def Dev.SameSupply (e d : Dev) : Prop :=
  ∀ c, (e.banks.get c).present = (d.banks.get c).present ∧ (e.banks.get c).ovOff = (d.banks.get c).ovOff

theorem Dev.SameSupply.of_banks {e d : Dev} (banks : e.banks = d.banks) : e.SameSupply d := fun c => by rw [banks]; exact ⟨rfl, rfl⟩

theorem Dev.SameSupply.trans {e f d : Dev} (h : e.SameSupply f) (g : f.SameSupply d) : e.SameSupply d :=
  fun c => ⟨(h c).1.trans (g c).1, (h c).2.trans (g c).2⟩

theorem Dev.SameSupply.modBank (d : Dev) (b : BankId) {f : Bank → Bank}
    (kept : ∀ x, (f x).present = x.present ∧ (f x).ovOff = x.ovOff) : (d.modBank b f).SameSupply d := by
  intro c
  rcases Decidable.em (c = b) with rfl | other
  · simpa [Dev.modBank] using kept (d.banks.get c)
  · simp [Dev.modBank, Tab.get_modify_ne _ _ other]

theorem Dev.staggerEnd_supply (d : Dev) (k : StaggerKind) : (d.staggerEnd k).SameSupply d := by
  unfold Dev.staggerEnd
  split
  · split
    · exact .modBank d _ fun _ => ⟨rfl, rfl⟩
    · exact .of_banks rfl
  · exact .of_banks rfl

theorem Dev.forVoices_dropVoice_banks (d : Dev) (vs : List VoiceId) (why : OffWhy) :
    (d.forVoices vs (Dev.dropVoice why)).banks = d.banks := by
  have kept : (d.forVoices vs (Dev.dropVoice why)).Keeps (· ≠ .banks) d := by
    refine Dev.forVoices_keeps (.refl _) (fun x hx v => ?_) _
    apply Dev.dropVoice_keeps <;> first | decide | exact hx
  exact kept.frame .banks (by decide)

theorem Dev.staggerStep_supply (d : Dev) (b : BankId) (vs : List VoiceId) (next : Nat) :
    (d.staggerStep ⟨.cut b, vs, next⟩).SameSupply d := by
  unfold Dev.staggerStep
  split
  · exact d.staggerEnd_supply _
  · next v rest _ =>
    have dropped : (d.forVoices (d.unitOf v) (Dev.dropVoice .forced)).SameSupply d :=
      .of_banks (d.forVoices_dropVoice_banks ..)
    dsimp only
    split
    · exact (Dev.staggerEnd_supply _ _).trans dropped
    · exact dropped

theorem Dev.cutBank_supply (d : Dev) (b : BankId) : (d.cutBank b).SameSupply d := by
  unfold Dev.cutBank
  split
  · exact .of_banks rfl
  · extract_lets d1
    have cut : (d.modBank b fun x => { x with cut := true }).SameSupply d := .modBank d b fun _ => ⟨rfl, rfl⟩
    have kept : d1.Keeps (· ≠ .banks) (d.modBank b fun x => { x with cut := true }) :=
      Dev.endSearches_keeps (by decide) (Dev.withdrawBank_keeps (by decide) (by decide) (.refl _) _) _
    exact (d1.staggerStep_supply b _ _).trans ((Dev.SameSupply.of_banks (kept.frame .banks (by decide))).trans cut)

/-- A check that ends cuts a bank at most. -/
theorem Dev.finishReport_supply (d : Dev) (r : RunningCheck) (f0 f1 partial_ : BitVec 6) (voHigh : Bool) (dur : Nat) :
    (d.finishReport r f0 f1 partial_ voHigh dur).SameSupply d := by
  unfold Dev.finishReport
  extract_lets v incomplete stuck toff confirmed d0
  have h0 : d0.Keeps (· ≠ .banks) d := by
    unfold d0
    split
    · exact Dev.modVoice_keeps (by decide) (.refl _) _ _
    · exact .refl _
  have h1 : (d0.judge v r f0 f1 incomplete dur).1.Keeps (· ≠ .banks) d := by
    apply Dev.judge_keeps <;> first | decide | exact h0
  split
  next d1 w judged =>
  rw [judged] at h1
  extract_lets d1' d2 again d3 cut d5 d4
  have h1' : d1'.Keeps (· ≠ .banks) d := by
    unfold d1'
    split
    · exact Dev.modVoice_keeps (by decide) h1 _ _
    · exact h1
  have h2 : d2.Keeps (· ≠ .banks) d := by
    unfold d2
    split
    · apply Dev.barVoice_keeps <;> first | decide | exact h1'
    · exact h1'
  have h3 : d3.Keeps (· ≠ .banks) d := by
    unfold d3
    split
    · exact Dev.modVoice_keeps (by decide) h2 _ _
    · exact h2
  have supply3 : d3.SameSupply d := .of_banks (h3.frame .banks (by decide))
  have supply4 : d4.SameSupply d := by
    unfold d4
    split
    · split
      · refine (Dev.cutBank_supply _ _).trans ((Dev.SameSupply.of_banks ?_).trans supply3)
        exact (Dev.event_banks ..).trans (Dev.event_banks ..)
      · exact (Dev.SameSupply.of_banks (Dev.event_banks ..)).trans supply3
    · exact supply3
  have released : (d4.releaseHeld v).Keeps (· ∈ [.voices]) d4 := Dev.releaseHeld_keeps (by decide) (.refl _) _
  exact (Dev.SameSupply.of_banks (released.frame .banks (by decide))).trans supply4

theorem Dev.finishCheck_supply (d : Dev) (r : RunningCheck) (f : Tab (BitVec 6) 4) (partial_ : BitVec 6) (voHigh : Bool)
    (dur : Nat) : (d.finishCheck r f partial_ voHigh dur).SameSupply d := by
  unfold Dev.finishCheck
  extract_lets p d0 d1
  have supply1 : d1.SameSupply d0 := by
    unfold d1
    split
    · have kept : (d0.finishTrip r f (p &&& r.tests != 0) dur).Keeps (· ≠ .banks) d0 := by
        apply Dev.finishTrip_keeps <;> first | decide | exact .refl _
      exact .of_banks (kept.frame .banks (by decide))
    · exact Dev.finishReport_supply _ _ _ _ _ _ _
  exact supply1

theorem Dev.loseBank_supply (d : Dev) (b : BankId) : (d.loseBank b).SameSupply d := by
  have gone : (d.bankGone b).SameSupply d := .of_banks ((d.bankGone_beside b).frame .banks (by decide))
  refine Dev.SameSupply.trans ?_ gone
  show ((d.bankGone b).cutShortBank b).SameSupply _
  unfold Dev.cutShortBank
  split
  · split
    · unfold Dev.cutShort
      split
      · exact Dev.finishCheck_supply _ _ _ _ _ _
      · exact .of_banks rfl
    · exact .of_banks rfl
  · exact .of_banks rfl

/-! ### Changes of one bank that are told (17 R492, R493) -/

section
variable {d : Dev} {b : BankId}

/-- A change of a bank with its event. -/
def Dev.tellBank (d : Dev) (b : BankId) (f : Bank → Bank) (code : Nat) (data : List Byte) : Dev :=
  (d.modBank b f).event code b.val data

theorem Dev.tellBank_banks (d : Dev) (b : BankId) (f : Bank → Bank) (code : Nat) (data : List Byte) :
    (d.tellBank b f code data).banks = d.banks.modify b f := Dev.event_banks ..

theorem Dev.tellBank_log (no_por : d.ctl.por = false) (b : BankId) (f : Bank → Bank) (code : Nat) (data : List Byte) :
    (d.tellBank b f code data).log = d.loggedAs [(code, b.val, data)] :=
  Dev.event_logged (d.modBank b f) code b.val data no_por

theorem Dev.holdBank_beside (d : Dev) (b : BankId) : (d.holdBank b).Keeps (· ∈ [.voices, .therm, .chain]) d := by
  apply Dev.holdBank_keeps <;> first | decide | exact .refl _

theorem Dev.releaseBank_beside (d : Dev) (b : BankId) : (d.releaseBank b).Keeps (· ∈ [.voices]) d := by
  apply Dev.releaseBank_keeps <;> first | decide | exact .refl _

/-- Crank begins or ends at a bank (17 R492). -/
def Dev.cranks (d : Dev) (b : BankId) (begins : Bool) (volts : Nat) : Dev :=
  let d1 := d.tellBank b (fun x => { x with crank := begins }) 0x0B02 (b8 (boolNat begins) :: volts2 volts)
  if begins then d1.holdBank b else d1.releaseBank b

theorem Dev.cranks_beside (d : Dev) (b : BankId) (begins : Bool) (volts : Nat) :
    (d.cranks b begins volts).Keeps (· ∈ [.voices, .therm, .chain])
      (d.tellBank b (fun x => { x with crank := begins }) 0x0B02 (b8 (boolNat begins) :: volts2 volts)) := by
  unfold Dev.cranks
  extract_lets d1
  split
  · exact d1.holdBank_beside b
  · exact (d1.releaseBank_beside b).mono fun p mem => by simp_all

/-! ### The current sum (06 R171) -/

/-- The sum joins the average of its bank, and the bank's event is told or armed again by it. -/
theorem Dev.bankSum_bank (d : Dev) (b : BankId) :
    ∃ told : Bool, (d.bankSum b).banks.get b = { d.banks.get b with
        sums := (d.bankAmps b :: (d.banks.get b).sums).take 100000, sumAt := d.now, overLogged := told } ∧
      (30 < ((d.bankAmps b :: (d.banks.get b).sums).take 100000).sum / 100000 → told = true) ∧
      (((d.bankAmps b :: (d.banks.get b).sums).take 100000).sum / 100000 < 27 → told = false) := by
  unfold Dev.bankSum
  extract_lets amps d1 average
  have summed : d1.banks.get b = { d.banks.get b with sums := (amps :: (d.banks.get b).sums).take 100000, sumAt := d.now } :=
    Tab.get_modify_self ..
  have averaged : average = ((amps :: (d.banks.get b).sums).take 100000).sum / 100000  := by
    show (d1.banks.get b).sums.sum / 100000 = _
    rw [summed]
  have twenty_seven_le : (27 : Rat) ≤ 30 := by decide
  rw [← averaged]
  split
  · next over_ =>
    simp only [Bool.and_eq_true, decide_eq_true_eq] at over_
    refine ⟨true, ?_, fun _ => rfl, fun low => ?_⟩
    · rw [Dev.event_banks]
      exact (Tab.get_modify_self ..).trans (by rw [summed])
    · exact absurd low (Rat.not_lt.2 (Rat.le_trans twenty_seven_le (Rat.le_of_lt over_.1)))
  · next not_over =>
    split
    · next low =>
      refine ⟨false, (Tab.get_modify_self ..).trans (by rw [summed]), fun high => absurd high ?_, fun _ => rfl⟩
      exact Rat.not_lt.2 (Rat.le_trans (Rat.le_of_lt low) twenty_seven_le)
    · next not_low =>
      refine ⟨(d1.banks.get b).overLogged, ?_, fun high => ?_, fun low => absurd low not_low⟩
      · rw [summed]
      · simpa [high] using not_over

theorem Dev.bankSum_bank_ne (d : Dev) {b c : BankId} (other : c ≠ b) : (d.bankSum b).banks.get c = d.banks.get c := by
  unfold Dev.bankSum
  extract_lets amps d1 average
  have summed : d1.banks.get c = d.banks.get c := Tab.get_modify_ne _ _ other
  split
  · rw [Dev.event_banks]
    exact (Tab.get_modify_ne _ _ other).trans summed
  · split
    · exact (Tab.get_modify_ne _ _ other).trans summed
    · exact summed

theorem Dev.bankSum_beside (d : Dev) (b : BankId) : (d.bankSum b).Keeps (· ∈ [.port, .log, .banks]) d := by
  apply Dev.bankSum_keeps <;> first | decide | exact .refl _

/-- A bank's sum where 10 µs have passed since the last. -/
def Dev.sumIfDue (d : Dev) (b : BankId) : Dev := if (d.banks.get b).sumAt + 10 * usec ≤ d.now then d.bankSum b else d

theorem Dev.sumIfDue_beside (d : Dev) (b : BankId) : (d.sumIfDue b).Keeps (· ∈ [.port, .log, .banks]) d := by
  unfold Dev.sumIfDue
  split
  · exact d.bankSum_beside b
  · exact .refl _

theorem Dev.sumIfDue_bank_ne (d : Dev) {b c : BankId} (other : c ≠ b) : (d.sumIfDue b).banks.get c = d.banks.get c := by
  unfold Dev.sumIfDue
  split
  · exact d.bankSum_bank_ne other
  · rfl

theorem Dev.foldl_sumIfDue_of_not_mem {bs : List BankId} (out : b ∉ bs) :
    (bs.foldl Dev.sumIfDue d).banks.get b = d.banks.get b :=
  Dev.foldl_same (q := fun e => e.banks.get b) (fun e c mem => e.sumIfDue_bank_ne fun same => out (by rwa [same])) d

/-- What the current sum of a bank leaves of the bank. -/
def Dev.Summed (d : Dev) (b : BankId) (x : Bank) : Prop :=
  x.sumAt = d.now ∧ x.sums = (d.bankAmps b :: (d.banks.get b).sums).take 100000 ∧
    (30 < x.sums.sum / 100000 → x.overLogged = true) ∧ (x.sums.sum / 100000 < 27 → x.overLogged = false)

theorem Dev.bankSum_summed (d : Dev) (b : BankId) : d.Summed b ((d.bankSum b).banks.get b) := by
  obtain ⟨told, summed, high, low⟩ := d.bankSum_bank b
  rw [summed]
  exact ⟨rfl, rfl, high, low⟩

/-- In the pass over the banks each is summed once, where it is due. -/
theorem Dev.foldl_sumIfDue_summed {bs : List BankId} (once : bs.Nodup) (mem : b ∈ bs)
    (due : (d.banks.get b).sumAt + 10 * usec ≤ d.now) : d.Summed b ((bs.foldl Dev.sumIfDue d).banks.get b) := by
  induction bs generalizing d with
  | nil => exact absurd mem List.not_mem_nil
  | cons c bs ih =>
    obtain ⟨out, once⟩ := List.nodup_cons.1 once
    rw [List.foldl_cons]
    rcases List.mem_cons.1 mem with rfl | later
    · have summed : d.sumIfDue b = d.bankSum b := if_pos due
      rw [Dev.foldl_sumIfDue_of_not_mem out, summed]
      exact d.bankSum_summed b
    · have other : b ≠ c := fun same => out (by rwa [← same])
      have now : (d.sumIfDue c).now = d.now := congrArg TimeBase.now ((d.sumIfDue_beside c).frame .time (by decide))
      have conv : (d.sumIfDue c).conv = d.conv := (d.sumIfDue_beside c).frame .conv (by decide)
      have each : (d.sumIfDue c).amps = d.amps := funext fun v => by simp only [Dev.amps, conv]
      have amps : (d.sumIfDue c).bankAmps b = d.bankAmps b := by rw [Dev.bankAmps, Dev.bankAmps, each]
      have summed := ih (d := d.sumIfDue c) once later (by rwa [Dev.sumIfDue_bank_ne d other, now])
      rwa [Dev.Summed, now, amps, Dev.sumIfDue_bank_ne d other] at summed

end

/-! ### The staggered turn-off of a cut (05 R156) -/

/-- The next voice of a cut turns off, and no other. -/
theorem Dev.staggerStep_cut (d : Dev) (b : BankId) {v : VoiceId} (alone : d.gang v = none) (rest : List VoiceId) (next : Nat) :
    (d.staggerStep ⟨.cut b, v :: rest, next⟩).Keeps (· ∈ [.banks, .staggers]) (Dev.dropVoice .forced d v) := by
  have dropped : d.forVoices (d.unitOf v) (Dev.dropVoice .forced) = Dev.dropVoice .forced d v := by
    rw [Dev.unitOf_of_no_gang alone]
    rfl
  simp only [Dev.staggerStep, dropped]
  split
  · apply Dev.staggerEnd_keeps <;> first | decide | exact .refl _
  · exact Dev.Keeps.staggers (W := (· ∈ [Part.banks, Part.staggers])) (.refl _) (by decide) _

/-! ### The events -/

section
variable {s : State} {dt : Nat} {b : BankId}

theorem execBankSupplyAbsent_present (present : ((s.turn dt).dev.banks.get b).present = true) :
    exec (.bankSupplyAbsent dt b) s = .next (s.after dt fun d =>
      ((d.modBank b fun x => { x with present := false }).loseBank b).event 0x0101 b.val [0]) := by
  refine congrArg Host.Outcome.next (State.after_congr ?_)
  simp only [present, if_true]

theorem execBankSupplyPresent_absent (absent : ((s.turn dt).dev.banks.get b).present = false) :
    exec (.bankSupplyPresent dt b) s = .next (s.after dt fun d => d.tellBank b (fun x => { x with present := true }) 0x0101 [1]) := by
  refine congrArg Host.Outcome.next (State.after_congr ?_)
  simp only [absent, Bool.false_eq_true, if_false]
  rfl

theorem execCrank_change {begins : Bool} {volts : Nat} (change : ((s.turn dt).dev.banks.get b).crank ≠ begins) :
    exec (.crank dt b begins volts) s = .next (s.after dt fun d => d.cranks b begins volts) :=
  congrArg Host.Outcome.next (State.after_congr (if_neg change))

theorem execBankOv_holdBegin {volts : Nat} (free : ((s.turn dt).dev.banks.get b).ovHold = false) :
    exec (.bankOv dt b .holdBegin volts) s = .next (s.after dt fun d =>
      (d.tellBank b (fun x => { x with ovHold := true }) 0x0B03 (b8 0 :: volts2 volts)).holdBank b) := by
  refine congrArg Host.Outcome.next (State.after_congr ?_)
  simp only [free, Bool.false_eq_true, if_false]
  rfl

theorem execBankOv_offBegin {volts : Nat} (free : ((s.turn dt).dev.banks.get b).ovOff = false) :
    exec (.bankOv dt b .offBegin volts) s = .next (s.after dt fun d =>
      ((d.modBank b fun x => { x with ovOff := true }).loseBank b).event 0x0B03 b.val (b8 1 :: volts2 volts)) := by
  refine congrArg Host.Outcome.next (State.after_congr ?_)
  simp only [free, Bool.false_eq_true, if_false]

theorem execBankOv_offEnd {volts : Nat} (off : ((s.turn dt).dev.banks.get b).ovOff = true) :
    exec (.bankOv dt b .offEnd volts) s = .next (s.after dt fun d =>
      d.tellBank b (fun x => { x with ovOff := false }) 0x0B03 (b8 2 :: volts2 volts)) := by
  refine congrArg Host.Outcome.next (State.after_congr ?_)
  simp only [off, if_true]
  rfl

theorem execBankOv_offEnd_ignored {volts : Nat} (on : ((s.turn dt).dev.banks.get b).ovOff = false) :
    exec (.bankOv dt b .offEnd volts) s = .next (s.after dt fun _ => (s.turn dt).dev) := by
  refine State.run_eq ?_
  simp only [on, Bool.false_eq_true, if_false]

theorem execBankOv_holdEnd {volts : Nat} (held : ((s.turn dt).dev.banks.get b).ovHold = true) :
    exec (.bankOv dt b .holdEnd volts) s = .next (s.after dt fun d =>
      (d.tellBank b (fun x => { x with ovHold := false }) 0x0B03 (b8 2 :: volts2 volts)).releaseBank b) := by
  refine congrArg Host.Outcome.next (State.after_congr ?_)
  simp only [held, if_true]
  rfl

theorem execCutPinNonConducting_due {x : Nat} (pin : ((s.turn dt).dev.banks.get b).pinDue = some x)
    (due : x ≤ (s.turn dt).dev.now) :
    exec (.cutPinNonConducting dt b) s = .next (s.after dt fun d =>
      d.modBank b fun x => { x with pinDue := none, conducting := false }) := by
  refine congrArg Host.Outcome.next (State.after_congr ?_)
  simp only [pin, due, if_true]

/-- The only turn-off under way is a cut's: its next voice turns off, and no power-down goes on with it. -/
theorem execStaggeredTurnOff_cut {v : VoiceId} {rest : List VoiceId} {x : Nat}
    (only : (s.turn dt).dev.staggers = [⟨.cut b, v :: rest, x⟩]) (due : x ≤ (s.turn dt).dev.now)
    (alone : (s.turn dt).dev.gang v = none) (idle : (s.turn dt).dev.pd.step = .idle) :
    exec (.staggeredTurnOff dt) s = .next (s.after dt fun d =>
      Dev.staggerStep { d with staggers := [] } ⟨.cut b, v :: rest, x⟩) := by
  refine congrArg Host.Outcome.next (State.after_congr ?_)
  have step : (Dev.staggerStep { (s.turn dt).dev with staggers := [] } ⟨.cut b, v :: rest, x⟩).pd.step = .idle := by
    have dropped : (Dev.dropVoice .forced { (s.turn dt).dev with staggers := [] } v).Keeps (· ≠ .pd)
        { (s.turn dt).dev with staggers := [] } := by
      apply Dev.dropVoice_keeps <;> first | decide | exact .refl _
    rw [(Dev.staggerStep_cut { (s.turn dt).dev with staggers := [] } b alone rest x).frame .pd (by decide),
      dropped.frame .pd (by decide)]
    exact idle
  simp [only, due, Dev.pdSave, step, Dev.dropping]

end

end Sys2Proof.Machine

namespace Sys2Proof
open Machine

/-- Settles O41, event by event. -/
theorem bankEventsAct : Obligations.BankEventsAct := by
  intro s dt b d
  refine ⟨fun present => ⟨_, execBankSupplyAbsent_present present, ?absent, fun idle v bank => ?lost⟩,
    fun absent no_por => ⟨_, execBankSupplyPresent_absent absent, ?_, fun c other => ?_, ?_⟩,
    fun begins volts change no_por => ⟨_, execCrank_change change, ?_, ?_⟩,
    fun volts free no_por => ⟨_, execBankOv_holdBegin free, ?_, ?_⟩,
    fun volts free => ⟨_, execBankOv_offBegin free, ?ov, fun idle v bank => ?ovLost⟩,
    fun volts => ?offEnd, fun volts held => ⟨_, execBankOv_holdEnd held, ?_⟩,
    fun x pin due => ⟨_, execCutPinNonConducting_due pin due, ?_⟩, fun due => ⟨_, rfl, ?sum⟩,
    fun v rest x only due alone idle => ⟨_, execStaggeredTurnOff_cut only due alone idle, ?off, fun u other => ?others⟩⟩
  case absent =>
    rw [State.after_banks, Dev.event_banks, (Dev.loseBank_supply _ b b).1, Dev.modBank, Tab.get_modify_self]
  case lost =>
    rw [State.after_voice, Dev.voice_event, Dev.loseBank_idle (d := d.modBank b _) idle]
    exact ⟨Dev.bankGone_not_driven _ fun _ => bank, Dev.bankGone_wait _ fun _ => bank⟩
  case ov =>
    rw [State.after_banks, Dev.event_banks, (Dev.loseBank_supply _ b b).2, Dev.modBank, Tab.get_modify_self]
  case ovLost =>
    rw [State.after_voice, Dev.voice_event, Dev.loseBank_idle (d := d.modBank b _) idle]
    exact Dev.bankGone_not_driven _ fun _ => bank
  case offEnd =>
    cases off : (d.banks.get b).ovOff
    · exact ⟨_, execBankOv_offEnd_ignored off, by rw [State.after_banks]; exact off, nofun⟩
    · refine ⟨_, execBankOv_offEnd off, ?_, fun _ no_por => (State.after_log ..).trans (Dev.tellBank_log no_por ..)⟩
      rw [State.after_banks, Dev.tellBank_banks, Tab.get_modify_self]
  case sum =>
    rw [State.after_banks]
    exact Dev.foldl_sumIfDue_summed (List.nodup_finRange 4) (mem_idx b) due
  case off =>
    rw [State.after_voice, (Dev.staggerStep_cut { (s.turn dt).dev with staggers := [] } b alone rest x).voice_eq (by decide)]
    exact Dev.dropVoice_not_driven ..
  case others =>
    rw [State.after_voice, (Dev.staggerStep_cut { (s.turn dt).dev with staggers := [] } b alone rest x).voice_eq (by decide)]
    exact Dev.dropVoice_voice_ne _ _ other
  · rw [State.after_banks, Dev.tellBank_banks, Tab.get_modify_self]
  · rw [State.after_banks, Dev.tellBank_banks, Tab.get_modify_ne _ _ other]
  · exact (State.after_log ..).trans (Dev.tellBank_log no_por ..)
  · rw [State.after_banks, (Dev.cranks_beside ..).frame .banks (by decide), Dev.tellBank_banks, Tab.get_modify_self]
  · exact (State.after_log ..).trans (((Dev.cranks_beside ..).frame .log (by decide)).trans (Dev.tellBank_log no_por ..))
  · rw [State.after_banks, (Dev.holdBank_beside ..).frame .banks (by decide), Dev.tellBank_banks, Tab.get_modify_self]
  · exact (State.after_log ..).trans (((Dev.holdBank_beside ..).frame .log (by decide)).trans (Dev.tellBank_log no_por ..))
  · rw [State.after_banks, (Dev.releaseBank_beside ..).frame .banks (by decide), Dev.tellBank_banks, Tab.get_modify_self]
  · rw [State.after_banks, Dev.modBank, Tab.get_modify_self]

end Sys2Proof

/-! SUPPORT. O42: the supplies and the power-down sequence (07 R204, 17 R491, R494 to R502). -/

namespace Sys2Proof.Machine
open Sys2Proof

/-! ### The charge pump (07 R204) -/

section
variable {d : Dev}

theorem Dev.loseBank_pd (d : Dev) (b : BankId) : (d.loseBank b).pd = d.pd := by
  have kept : (d.loseBank b).Keeps (· ≠ .pd) d := by
    apply Dev.loseBank_keeps <;> first | decide | exact .refl _
  exact kept.frame .pd (by decide)

/-- A voice that is off and waits for nothing stays so as banks are lost. -/
theorem Dev.foldl_loseBank_stays {bs : List BankId} {v : VoiceId} (idle : d.sc.running = none)
    (off : (d.voice v).driven = false) (calm : (d.voice v).wait = none) :
    ((bs.foldl Dev.loseBank d).voice v).driven = false ∧ ((bs.foldl Dev.loseBank d).voice v).wait = none := by
  induction bs generalizing d with
  | nil => exact ⟨off, calm⟩
  | cons c bs ih =>
    refine ih (d := d.loseBank c) (Dev.loseBank_sc idle) ?_ ?_ <;> rw [Dev.loseBank_idle idle]
    · exact d.bankGone_not_driven fun driven => absurd driven (by simp [off])
    · exact d.bankGone_wait fun waits => absurd calm waits

/-- Every voice of the banks lost is off and waits for nothing. -/
theorem Dev.foldl_loseBank_off {bs : List BankId} {v : VoiceId} (idle : d.sc.running = none) (mem : bankOf v ∈ bs) :
    ((bs.foldl Dev.loseBank d).voice v).driven = false ∧ ((bs.foldl Dev.loseBank d).voice v).wait = none := by
  induction bs generalizing d with
  | nil => exact absurd mem List.not_mem_nil
  | cons c bs ih =>
    rcases List.mem_cons.1 mem with bank | later
    · refine Dev.foldl_loseBank_stays (d := d.loseBank c) (Dev.loseBank_sc idle) ?_ ?_ <;> rw [Dev.loseBank_idle idle]
      · exact d.bankGone_not_driven fun _ => bank
      · exact d.bankGone_wait fun _ => bank
    · exact ih (d := d.loseBank c) (Dev.loseBank_sc idle) later

/-! ### The begin of a sequence (17 R497, R498) -/

theorem Dev.enterParked_mode (d : Dev) (cause : Nat) : (d.enterParked cause).ctl.mode = .parked := by
  unfold Dev.enterParked
  extract_lets d1
  have kept : d1.Keeps (· ≠ .ctl) (d.toMode .parked cause) := by
    refine Dev.commandOff_keeps (by decide) (Dev.endRetries_keeps (by decide) (Dev.withdrawAll_keeps (by decide) (by decide)
      (Dev.cancelCues_keeps (by decide) (Dev.stopWatchdog_keeps (by decide) (.refl _)))))
  rw [show d1.ctl = _ from kept.frame .ctl (by decide)]
  exact congrArg Control.mode (Dev.event_ctl ..)

theorem Dev.pdMode_conducted {cause : Nat} (conducted : d.ctl.mode = .conducted) : (d.pdMode cause).ctl.mode = .parked := by
  simp only [Dev.pdMode, conducted]
  exact Dev.enterParked_mode ..

theorem Score.commit_powerFail (x : Score) : x.commit.powerFail = x.powerFail := by
  unfold Score.commit
  split <;> rfl

/-- The power-fail line is high from step 1 on, which makes a Score that runs commit its ring (15 R434). -/
def Dev.failing (d : Dev) (cause : Nat) : Dev :=
  (d.event 0x0B01 0xFF [b8 cause, b8 d.ctl.mode.code]).setScore fun x =>
    let y := { x with powerFail := true }
    if y.powered && y.scanned then y.commit else y

theorem Dev.failing_powerFail (d : Dev) (cause : Nat) : (d.failing cause).score.powerFail = true := by
  rw [Dev.failing, Dev.setScore_score]
  dsimp only
  split
  · exact Score.commit_powerFail _
  · rfl

theorem Dev.failing_ctl (d : Dev) (cause : Nat) : (d.failing cause).ctl = d.ctl := Dev.event_ctl ..

/-- The device at step 1, before its staggered turn-off. -/
def Dev.pdOpens (d : Dev) (cause : Nat) : Dev :=
  (((((d.failing cause).pdMode cause).withdrawAll).cancelCues).rawStop true).setPd fun p => { p with
    step := .voicesAndCommit, cause := cause, at_ := d.now, scanned := d.nv.scanned, committed := false, floor := false, vhold := 0 }

theorem Dev.pdStart_eq (d : Dev) (cause : Nat) : d.pdStart cause =
    ((d.pdOpens cause).stagger .powerDown ((idx 48).filter fun v => ((d.pdOpens cause).voice v).driven)).setCtl fun c =>
      { c with parkedByPower := c.parkedByPower || cause = 0 } := rfl

theorem Dev.pdOpens_beside (d : Dev) (cause : Nat) : (d.pdOpens cause).Keeps (· ∈ [.port, .log, .voices, .cues, .chain, .nv, .pd])
    ((d.failing cause).pdMode cause) := by
  refine Dev.setPd_keeps (by decide) (Dev.rawStop_keeps (by decide) (by decide) (by decide) (Dev.cancelCues_keeps (by decide)
    (Dev.withdrawAll_keeps (by decide) (by decide) (.refl _))) _) _

theorem Dev.stagger_beside (d : Dev) (k : StaggerKind) (vs : List VoiceId) : (d.stagger k vs).Keeps
    (· ∈ [.port, .log, .voices, .banks, .staggers, .sc, .conv, .wave, .therm, .chain, .slotFaults]) d := by
  apply Dev.stagger_keeps <;> first | decide | exact .refl _

theorem Dev.pdStart_pd (d : Dev) (cause : Nat) : (d.pdStart cause).pd.step = .voicesAndCommit ∧
    (d.pdStart cause).pd.cause = cause ∧ (d.pdStart cause).pd.at_ = d.now := by
  rw [Dev.pdStart_eq]
  have pd := ((d.pdOpens cause).stagger_beside .powerDown ((idx 48).filter fun v => ((d.pdOpens cause).voice v).driven)).frame
    .pd (by decide)
  rw [Dev.setCtl_pd, pd]
  exact ⟨rfl, rfl, rfl⟩

theorem Dev.pdStart_powerFail (d : Dev) (cause : Nat) : (d.pdStart cause).score.powerFail = true := by
  have mode : ((d.failing cause).pdMode cause).Keeps (· ≠ .score) (d.failing cause) := by
    apply Dev.pdMode_keeps <;> first | decide | exact .refl _
  rw [Dev.pdStart_eq, Dev.setCtl_score, ((d.pdOpens cause).stagger_beside _ _).frame .score (by decide),
    (d.pdOpens_beside cause).frame .score (by decide), mode.frame .score (by decide), Dev.failing_powerFail]

theorem Dev.pdStart_ctl (d : Dev) (cause : Nat) : (d.pdStart cause).ctl =
    { ((d.failing cause).pdMode cause).ctl with
      parkedByPower := ((d.failing cause).pdMode cause).ctl.parkedByPower || cause = 0 } := by
  rw [Dev.pdStart_eq, Dev.setCtl_ctl, ((d.pdOpens cause).stagger_beside _ _).frame .ctl (by decide),
    (d.pdOpens_beside cause).frame .ctl (by decide)]

/-! ### The save (17 R498 to R500) -/

theorem Dev.pdEnd_pd (d : Dev) (marker : Bool) :
    (d.pdEnd marker).pd = { d.pd with step := if d.pd.cause = 0 then .done else .idle } := Dev.event_pd ..

/-- Step 4 moves the sequence on, and changes neither the commit nor what VHOLD was. -/
theorem Dev.pdSave_pd (d : Dev) : d.pdSave.pd.committed = d.pd.committed ∧ d.pdSave.pd.vhold = d.pd.vhold := by
  unfold Dev.pdSave
  extract_lets off
  split
  · split
    · rw [Dev.pdEnd_pd, Dev.event_pd]
      exact ⟨rfl, rfl⟩
    · have kept : d.saveBegin.Keeps (· ≠ .pd) d := by
        apply Dev.saveBegin_keeps <;> first | decide | exact .refl _
      have pd : d.saveBegin.pd = d.pd := kept.frame .pd (by decide)
      rw [Dev.setPd_pd, pd]
      exact ⟨rfl, rfl⟩
  · exact ⟨rfl, rfl⟩

theorem Flash.room_appends {f g : Flash} {n : Nat} {s : Fin 16} (room : f.room n = some (g, s)) : g.appends = f.appends := by
  unfold Flash.room at room
  extract_lets next at room
  have of_next : ∀ h : Flash, next h = some (g, s) → g.appends = h.appends := by
    intro h found
    simp only [next] at found
    split at found
    · cases found
      rfl
    · cases found
  split at room
  · split at room
    · cases room
      rfl
    · exact (of_next _ room :)
  · exact of_next _ room

theorem Flash.yieldRaw_appends (f : Flash) (now n : Nat) : (f.yieldRaw now n).appends = f.appends := by
  simp only [Flash.yieldRaw]
  split <;> rfl

theorem Flash.gcNext_appends (f : Flash) (t : Nat) (g : GcRun) (rest : List Rec) : (f.gcNext t g rest).appends = f.appends := by
  unfold Flash.gcNext
  extract_lets todo
  split
  · rfl
  · exact Flash.yieldRaw_appends ..

theorem Flash.finishCopy_appends (f : Flash) : f.finishCopy.appends = f.appends := by
  unfold Flash.finishCopy
  split
  · split
    · split
      · rfl
      · split
        · next f1 s found => exact (Flash.gcNext_appends ..).trans (Flash.room_appends found :)
        · rfl
    · rfl
  · rfl

theorem Flash.pause_keys (f : Flash) (now : Nat) : (f.pause now).appends.map (·.key) = f.appends.map (·.key) := by
  unfold Flash.pause
  split
  · rw [List.map_map]
    refine List.map_congr_left fun a _ => ?_
    show (if a.rseq = _ then _ else a : Append).key = a.key
    split <;> rfl
  · split <;> rfl

theorem Flash.enqueue_keys (f : Flash) (now key : Nat) (tomb : Bool) (value : List Byte) (host : Bool) :
    (f.enqueue now key tomb value host).appends.map (·.key) = f.appends.map (·.key) ++ [key] := by
  simp only [Flash.enqueue, Flash.yieldRaw_appends, List.map_append, List.map_cons, List.map_nil, Flash.pause_keys]

theorem Flash.resume_appends (f : Flash) (t : Nat) : (f.resume t).appends = f.appends := by
  unfold Flash.resume
  split <;> rfl

/-- An append in hand completes, or finds the store full. -/
theorem Dev.finishAppends_appends (d : Dev) : d.finishAppends.nv.appends = [] := by
  refine (Dev.foldl_same (q := fun e => e.nv.appends) (fun e a _ => ?_) _).trans (Flash.resume_appends ..)
  split
  · next f s found => exact (Flash.room_appends found :)
  · have kept : (e.storeFull a.key a.host).Keeps (· ≠ .nv) e := by
      apply Dev.storeFull_keeps <;> first | decide | exact .refl _
    exact congrArg Flash.appends (kept.frame .nv (by decide))

/-- What the save leaves (17 R498 steps 4 and 5). -/
def Dev.saveDone (d : Dev) : Dev :=
  let at_ := d.now + wordTime * d.nv.copyLeft
  let d1 := d.finishAppends.setNv Flash.finishCopy
  let value := leInt 8 d.time.tbc ++ [b8 d.pd.cause] ++ List.replicate 7 0
  (d1.setNv fun f => { f.enqueue d.now 1 false value false with servedAt := at_ }).setPd fun p =>
    { p with step := .idleFlash, stepAt := at_ }

theorem Dev.saveDone_appends (d : Dev) : d.saveDone.nv.appends.map (·.key) = [1] := by
  have emptied : (d.finishAppends.setNv Flash.finishCopy).nv.appends = [] :=
    (Flash.finishCopy_appends _).trans d.finishAppends_appends
  refine (Flash.enqueue_keys ..).trans ?_
  rw [emptied]
  rfl

/-- The marker is in the store (17 R498 step 6, 14 R405). -/
def Dev.marked (d : Dev) : Dev := d.finishMarker.foldSession.setPd fun p => { p with fresh := p.cause = 1 }

theorem Dev.marked_pd (d : Dev) : d.marked.pd = { d.pd with fresh := d.pd.cause = 1 } := by
  have kept : d.finishMarker.Keeps (· ≠ .pd) d := by
    apply Dev.finishMarker_keeps <;> first | decide | exact .refl _
  have pd : d.finishMarker.foldSession.pd = d.pd := kept.frame .pd (by decide)
  exact congrArg (fun p : PowerDown => { p with fresh := p.cause = 1 }) pd

end

/-! ### The events -/

section
variable {s : State} {dt : Nat}

/-- All four banks are lost with the charge pump (07 R204). -/
def Dev.pumpLow (d : Dev) : Dev :=
  ((idx 4).foldl Dev.loseBank { d with pd := { d.pd with vcpOk := false } }).event 0x0209 0xFF [0]

theorem execChargePumpLow_ok (ok : (s.turn dt).dev.pd.vcpOk = true) :
    exec (.chargePumpLow dt) s = .next (s.after dt Dev.pumpLow) := by
  refine congrArg Host.Outcome.next (State.after_congr ?_)
  simp only [ok, if_true]
  rfl

theorem Dev.pumpLow_pd (d : Dev) : d.pumpLow.pd.vcpOk = false := by
  rw [Dev.pumpLow, Dev.event_pd, Dev.foldl_same (q := Dev.pd) (fun e b _ => e.loseBank_pd b)]

theorem execChargePumpRecovered_low (low : (s.turn dt).dev.pd.vcpOk = false) :
    exec (.chargePumpRecovered dt) s = .next (s.after dt fun d =>
      ({ d with pd := { d.pd with vcpOk := true } } : Dev).event 0x0209 0xFF [1]) := by
  refine congrArg Host.Outcome.next (State.after_congr ?_)
  simp only [low, Bool.false_eq_true, if_false]

theorem execVholdFault_due {volts : Nat} (armed : (s.turn dt).dev.pd.vholdArmed = true)
    (idle : (s.turn dt).dev.pdRunning = false) (ready : (s.turn dt).dev.pd.vholdReady = true) :
    exec (.vholdFault dt volts) s = .next (s.after dt fun d =>
      (d.setPd fun p => { p with vholdReady := false, vholdArmed := false }).event 0x0B04 0xFF (volts2 volts)) := by
  refine congrArg Host.Outcome.next (State.after_congr (if_pos ?_))
  rw [armed, ready, idle]
  rfl

theorem execFlashFloor_due (active : (s.turn dt).dev.pdActive = true) (cause : (s.turn dt).dev.pd.cause = 0) :
    exec (.flashFloor dt) s = .next (s.after dt fun d => d.setPd fun p => { p with floor := true }) := by
  refine congrArg Host.Outcome.next (State.after_congr (if_pos ?_))
  rw [active, cause]
  rfl

theorem execPowerDown_idle (idle : (s.turn dt).dev.pdRunning = false) (no_por : (s.turn dt).dev.ctl.por = false) :
    exec (.powerDown dt) s = .next (s.after dt fun d => d.pdStart 0) := by
  refine congrArg Host.Outcome.next (State.after_congr (if_neg ?_))
  rw [idle, no_por]
  decide

/-- The Score's commit is reported, and step 4 may begin (17 R499). -/
def Dev.commitReported (d : Dev) (vhold : Nat) : Dev :=
  ((d.event 0x0B07 0xFF (b8 0 :: leBytes 2 (min ((d.now - d.pd.at_) / (10 * usec)) 65535))).setPd fun p =>
    { p with committed := true, vhold := vhold }).pdSave

theorem execScoreCommitWait_reported {vhold : Nat} (step : (s.turn dt).dev.pd.step = .voicesAndCommit)
    (waits : (s.turn dt).dev.pd.committed = false) (heard : (s.turn dt).dev.ctl.scoreSilent = false) :
    exec (.scoreCommitWait dt true vhold) s = .next (s.after dt fun d => d.commitReported vhold) := by
  refine congrArg Host.Outcome.next (State.after_congr ?_)
  simp only [step, waits, heard, decide_true, Bool.not_false, Bool.and_self, Bool.false_or, Bool.true_or, if_true,
    Bool.false_eq_true, if_false]
  rfl

theorem execLifetimeSaveDone_due (step : (s.turn dt).dev.pd.step = .save) (no_floor : (s.turn dt).dev.pd.floor = false)
    (due : (s.turn dt).dev.nv.servedAt + 12 * usec * (s.turn dt).dev.saveWords ≤ (s.turn dt).dev.now) :
    exec (.lifetimeSaveDone dt) s = .next (s.after dt Dev.saveDone) := by
  refine congrArg Host.Outcome.next (State.after_congr (if_pos ?_))
  have ended : (s.turn dt).dev.nv.servedAt + wordTime * (s.turn dt).dev.saveWords ≤ (s.turn dt).dev.now := due
  rw [step, no_floor, decide_eq_true ended]
  rfl

theorem execMarkerWrite_due (step : (s.turn dt).dev.pd.step = .idleFlash) (no_floor : (s.turn dt).dev.pd.floor = false)
    (due : (s.turn dt).dev.pd.stepAt + 48 * usec ≤ (s.turn dt).dev.now) :
    exec (.markerWrite dt) s = .next (s.after dt fun d => d.marked.pdEnd true) := by
  refine congrArg Host.Outcome.next (State.after_congr (if_pos ?_))
  have words : wordTime * 4 = 48 * usec := rfl
  rw [step, no_floor, words, decide_eq_true due]
  rfl

end

end Sys2Proof.Machine

namespace Sys2Proof
open Machine

/-- Settles O42, event by event. -/
theorem powerEventsAct : Obligations.PowerEventsAct := by
  intro s dt d
  refine ⟨fun ok idle => ⟨_, execChargePumpLow_ok ok, ?low, fun v => ?off⟩,
    fun low no_por => ⟨_, execChargePumpRecovered_low low, ?_, ?_⟩, ⟨_, rfl, State.after_pd ..⟩,
    fun volts armed idle ready no_por => ⟨_, execVholdFault_due armed idle ready, ?_, ?_⟩,
    fun active cause => ⟨_, execFlashFloor_due active cause, State.after_pd ..⟩,
    fun idle no_por => ⟨_, execPowerDown_idle idle no_por, ?step, ?cause, ?at_, ?line, ?byPower, fun conducted => ?mode⟩,
    fun vhold step waits heard => ⟨_, execScoreCommitWait_reported step waits heard, ?committed, ?vhold⟩,
    fun step no_floor due => ⟨_, execLifetimeSaveDone_due step no_floor due, ?_, ?_, ?_⟩,
    fun step no_floor due => ⟨_, execMarkerWrite_due step no_floor due, ?_, ?_⟩⟩
  case low => rw [State.after_pd, Dev.pumpLow_pd]
  case off =>
    rw [State.after_voice, Dev.pumpLow, Dev.voice_event]
    exact Dev.foldl_loseBank_off idle (mem_idx _)
  case step => rw [State.after_pd, (Dev.pdStart_pd ..).1]
  case cause => rw [State.after_pd, (Dev.pdStart_pd ..).2.1]
  case at_ => rw [State.after_pd, (Dev.pdStart_pd ..).2.2]
  case line => rw [State.after_score, Dev.pdStart_powerFail]
  case byPower =>
    rw [State.after_ctl, Dev.pdStart_ctl]
    exact Bool.or_true _
  case mode =>
    rw [State.after_ctl, Dev.pdStart_ctl]
    exact Dev.pdMode_conducted (by rwa [Dev.failing_ctl])
  case committed => rw [State.after_pd, Dev.commitReported, (Dev.pdSave_pd _).1, Dev.setPd_pd]
  case vhold => rw [State.after_pd, Dev.commitReported, (Dev.pdSave_pd _).2, Dev.setPd_pd]
  · exact (State.after_pd ..).trans (Dev.event_pd ..)
  · exact State.after_logged (Dev.event_logged { d with pd := { d.pd with vcpOk := true } } 0x0209 0xFF [1] no_por)
  · exact (State.after_pd ..).trans (Dev.event_pd ..)
  · exact State.after_logged
      (Dev.event_logged (d.setPd fun p => { p with vholdReady := false, vholdArmed := false }) 0x0B04 0xFF (volts2 volts) no_por)
  · rw [State.after_pd]
    rfl
  · rw [State.after_pd]
    rfl
  · rw [State.after_nv, Dev.saveDone_appends]
  · rw [State.after_pd, Dev.pdEnd_pd, Dev.marked_pd]
  · rw [State.after_pd, Dev.pdEnd_pd, Dev.marked_pd]

end Sys2Proof

/-! SUPPORT. O35: grants while the power die ignores gate commands (01 R26). -/

namespace Sys2Proof.Machine
open Sys2Proof

/-- A turn-on of VOICE_SET that has just been asked for. -/
def Wait.asked : Wait :=
  { source := .voiceSet, stage := .fresh, prio := 8, profile := 1, deadline := none, free := false, since := 0 }

/-- The device after reset with the power die holding its gates off, and one voice that waits for its turn-on. -/
def State.heldWithWait : State :=
  let d : Dev := ({ State.reset.dev with ka := { State.reset.dev.ka with held := true } } : Dev).modVoice 0 fun x =>
    { x with wait := some Wait.asked }
  { pending := [], dev := d, snap := d, slot := d }

theorem State.heldWithWait_alone : ∀ u : VoiceId, u ≠ 0 → (State.heldWithWait.dev.voice u).wait = none := by
  decide +kernel

theorem State.heldWithWait_calm : ∀ u : VoiceId, State.heldWithWait.dev.levelInput u = none ∧
    (State.heldWithWait.dev.voice u).retryReady = false := by
  decide +kernel

/-- A token is free, and the hold keeps it free (01 R26). -/
theorem State.heldWithWait_grants : 0 < State.heldWithWait.dev.breathFree ∧
    (State.heldWithWait.dev.endSlot.voice 0).token = false := by
  decide +kernel

end Sys2Proof.Machine

namespace Sys2Proof
open Machine

/-- Refutes O35: while the power die ignores gate commands after a keep-alive loss (01 R26), a turn-on that waits alone takes
no token, though one is free. -/
theorem not_cueAndBreathEventsAct : ¬ Obligations.CueAndBreathEventsAct := by
  intro h
  obtain ⟨free, untaken⟩ := State.heldWithWait_grants
  obtain ⟨t, grants, token⟩ := (h State.heldWithWait 0 0).1 Wait.asked ⟨rfl, rfl, State.heldWithWait_calm, rfl, rfl⟩ rfl
    State.heldWithWait_alone rfl (by decide) (by decide) rfl rfl free
  obtain rfl : State.heldWithWait.after 0 Dev.endSlot = t := Host.Outcome.next.inj grants
  rw [State.after_voice] at token
  exact absurd (untaken.symm.trans token) (by decide)

end Sys2Proof

/-! SUPPORT. O43, O45: the Score's records beside which it stands, its ring of committed totals, and its supply (15 R423 to R441,
02 R39, R45, 17 R491, R504). -/

namespace Sys2Proof.Machine
open Sys2Proof

/-! ### Records and marks: what the audit trail touches (15 R436, R437, R440) -/

/-- `y` is `x` but for the audit trail, the open marks and the events that tell of both. -/
def Score.SameBesideTrail (x y : Score) : Prop :=
  y = { x with audit := y.audit, nextAseq := y.nextAseq, auditDropped := y.auditDropped, heldAudit := y.heldAudit,
               marks := y.marks, markEvents := y.markEvents, rollovers := y.rollovers }

theorem Score.SameBesideTrail.refl (x : Score) : x.SameBesideTrail x := rfl

theorem Score.SameBesideTrail.trans {x y z : Score} (first : x.SameBesideTrail y) (second : y.SameBesideTrail z) :
    x.SameBesideTrail z := by
  unfold Score.SameBesideTrail at *
  rw [second, first]

/-- What holds of one step over a list holds of them all. -/
theorem Score.SameBesideTrail.foldl {α : Type} {f : Score → α → Score} (step : ∀ (x : Score) (a : α), x.SameBesideTrail (f x a)) (l : List α)
    (x : Score) : x.SameBesideTrail (l.foldl f x) := by
  induction l generalizing x with
  | nil => exact .refl x
  | cons a l ih => exact (step x a).trans (ih _)

theorem Score.pushAudit_besideTrail (x : Score) (r : AuditRec) : x.SameBesideTrail (x.pushAudit r) := rfl

theorem Score.record_besideTrail (x : Score) (type flags ctr : Nat) (data : List Byte) :
    x.SameBesideTrail (x.record type flags ctr data) := by
  unfold Score.record
  dsimp only
  split
  · exact .refl x
  · split
    · split <;> rfl
    · exact x.pushAudit_besideTrail _

theorem Score.markBegin_besideTrail (x : Score) (k : Fin 8) (input : Nat) : x.SameBesideTrail (x.markBegin k input) := by
  unfold Score.markBegin
  split <;> rfl

theorem Score.markEnd_besideTrail (x : Score) (k : Fin 8) : x.SameBesideTrail (x.markEnd k) := by
  unfold Score.markEnd
  split
  · next m _ => exact (x.record_besideTrail ..).trans (y := x.rated k m 0x80) rfl
  · exact .refl x

theorem Score.rollovers_besideTrail (x : Score) (l : List (Nat × Nat × Nat)) : x.SameBesideTrail { x with rollovers := l } := rfl

theorem Score.rolled_besideTrail (x : Score) (set_ index : Nat) (old : Total) (n : Nat) :
    x.SameBesideTrail (x.rolled set_ index old n) := by
  unfold Score.rolled
  refine .foldl (fun x i => ?_) _ x
  exact (x.record_besideTrail ..).trans (Score.rollovers_besideTrail ..)

theorem Score.powerDownRecords_besideTrail (x : Score) : x.SameBesideTrail x.powerDownRecords := by
  have marks : x.SameBesideTrail ((idx 8).foldl (fun x k => match x.marks.get k with
      | some m => if markCause k = 4 then x.markEnd k else x.rated k m 0xA0
      | none => x) x) := by
    refine .foldl (fun x k => ?_) _ x
    split
    · split
      · exact x.markEnd_besideTrail k
      · exact x.record_besideTrail ..
    · exact .refl x
  unfold Score.powerDownRecords
  dsimp only
  split
  · exact marks
  · exact marks.trans (Score.record_besideTrail ..)

theorem Score.SameBesideTrail.life {x y : Score} (same : x.SameBesideTrail y) : y.life = x.life := (congrArg Score.life same :)
theorem Score.SameBesideTrail.cold {x y : Score} (same : x.SameBesideTrail y) : y.cold = x.cold := (congrArg Score.cold same :)
theorem Score.SameBesideTrail.temp {x y : Score} (same : x.SameBesideTrail y) : y.temp = x.temp := (congrArg Score.temp same :)

/-! ### The ring: its newest whole slot (15 R434, R435) -/

/-- What the search finds was there, and is whole. -/
theorem foldl_laterSlot_mem {l : List (Option RingSlot)} {a : Option RingSlot} {r : RingSlot}
    (found : l.foldl laterSlot a = some r) : a = some r ∨ (some r ∈ l ∧ r.torn = false) := by
  induction l generalizing a with
  | nil => exact .inl found
  | cons b l ih =>
    obtain kept | ⟨mem, whole⟩ := ih found
    · cases a <;> cases b <;> simp only [laterSlot] at kept
      · cases kept
      · split at kept <;> simp_all
      · exact .inl kept
      · split at kept
        · exact .inl kept
        · simp_all
    · exact .inr ⟨List.mem_cons_of_mem _ mem, whole⟩

/-- No whole slot that the search has seen is later than what it finds, and it finds one where there is one. -/
theorem foldl_laterSlot_max {l : List (Option RingSlot)} {a : Option RingSlot} {p : RingSlot}
    (seen : a = some p ∨ (some p ∈ l ∧ p.torn = false)) : ∃ q, l.foldl laterSlot a = some q ∧ p.seq ≤ q.seq := by
  induction l generalizing a p with
  | nil => exact ⟨p, by simpa using seen, Nat.le_refl _⟩
  | cons b l ih =>
    have later : (∃ q, laterSlot a b = some q ∧ p.seq ≤ q.seq) ∨ (some p ∈ l ∧ p.torn = false) := by
      obtain rfl | ⟨mem, whole⟩ := seen
      · cases b with
        | none => exact .inl ⟨p, rfl, Nat.le_refl _⟩
        | some q =>
          simp only [laterSlot]
          split
          · exact .inl ⟨p, rfl, Nat.le_refl _⟩
          · next h => exact .inl ⟨q, rfl, by simp at h; omega⟩
      · obtain rfl | mem := List.mem_cons.1 mem
        · cases a with
          | none => exact .inl ⟨p, by simp [laterSlot, whole], Nat.le_refl _⟩
          | some r =>
            simp only [laterSlot, whole, Bool.false_or, decide_eq_true_eq]
            split
            · next h => exact .inl ⟨r, rfl, Nat.le_of_lt h⟩
            · exact .inl ⟨p, rfl, Nat.le_refl _⟩
        · exact .inr ⟨mem, whole⟩
    obtain ⟨q, found, le⟩ | rest := later
    · obtain ⟨z, end_, le'⟩ := ih (.inl found)
      exact ⟨z, end_, Nat.le_trans le le'⟩
    · exact ih (.inr rest)

theorem Tab.mem_list_iff {α : Type} {n : Nat} {t : Tab α n} {a : α} : a ∈ t.list ↔ ∃ i, t.get i = a := by
  rw [List.mem_iff_getElem]
  constructor
  · rintro ⟨i, lt, rfl⟩
    exact ⟨⟨i, by rw [← t.size]; exact lt⟩, rfl⟩
  · rintro ⟨i, rfl⟩
    exact ⟨i.val, by rw [t.size]; exact i.isLt, rfl⟩

/-- The slot that the ring gives stands in it and is whole. -/
theorem Score.slot_mem {x : Score} {r : RingSlot} (found : x.slot = some r) : (∃ i, x.ring.get i = some r) ∧ r.torn = false := by
  obtain absent | ⟨mem, whole⟩ := foldl_laterSlot_mem found
  · cases absent
  · exact ⟨Tab.mem_list_iff.1 mem, whole⟩

/-- No whole slot of the ring is later than the one that it gives. -/
theorem Score.seq_le_slot {x : Score} {i : Fin 64} {p : RingSlot} (there : x.ring.get i = some p) (whole : p.torn = false) :
    ∃ q, x.slot = some q ∧ p.seq ≤ q.seq :=
  foldl_laterSlot_max (.inr ⟨Tab.mem_list_iff.2 ⟨i, there⟩, whole⟩)

/-- A whole slot later than every other whole one is what the ring gives. -/
theorem Score.slot_eq_of_latest {x : Score} {i : Fin 64} {r : RingSlot} (there : x.ring.get i = some r) (whole : r.torn = false)
    (latest : ∀ j p, x.ring.get j = some p → p.torn = false → p = r ∨ p.seq < r.seq) : x.slot = some r := by
  obtain ⟨q, found, le⟩ := Score.seq_le_slot there whole
  obtain ⟨⟨j, stands⟩, whole_q⟩ := Score.slot_mem found
  obtain same | earlier := latest j q stands whole_q
  · rw [found, same]
  · omega

/-- What the Score commits (15 R434). -/
def Score.toCommit (x : Score) : RingSlot :=
  { seq := x.slot.elim 0 (·.seq + 1), torn := false, life := x.life, job := x.job, raw := x.raw, volRes := x.volRes
    distRes := x.distRes, areaRes := x.areaRes, pending := x.pending, unmapped := x.unmapped, eventCtr := x.eventCtr
    jobOpen := x.jobOpen, jobId := x.jobId, session := x.session, tbc := x.tbc }

theorem Score.toCommit_life (x : Score) : x.toCommit.life = x.life := rfl

theorem Score.commit_of_warm {x : Score} (warm : x.cold = false) :
    x.commit = { x.putSlot x.toCommit with changedAt := none, commitDue := false } := by
  simp only [Score.commit, warm]
  rfl

/-- Every slot of the ring after a slot has gone into it is that one or stood there before. -/
theorem Score.putSlot_ring_get (x : Score) (r : RingSlot) (i : Fin 64) :
    (x.putSlot r).ring.get i = some r ∨ (x.putSlot r).ring.get i = x.ring.get i ∨ (x.putSlot r).ring.get i = none := by
  unfold Score.putSlot
  dsimp only
  by_cases here : i = x.ringNext
  · subst here
    exact .inl (Tab.get_set_self ..)
  · rw [Tab.get_set_ne _ _ here]
    split
    · rw [Tab.get_mapIdx]
      split
      · exact .inr (.inr rfl)
      · exact .inr (.inl rfl)
    · exact .inr (.inl rfl)

/-- A commit is the newest slot of the ring (15 R435). -/
theorem Score.commit_slot {x : Score} (warm : x.cold = false) : x.commit.slot = some x.toCommit := by
  rw [Score.commit_of_warm warm]
  refine Score.slot_eq_of_latest (i := x.ringNext) (Tab.get_set_self ..) rfl fun j p stands whole => ?_
  obtain new | old | gone := x.putSlot_ring_get x.toCommit j
  · exact .inl (Option.some.inj (stands.symm.trans new))
  · obtain ⟨q, found, le⟩ := Score.seq_le_slot (old.symm.trans stands) whole
    refine .inr ?_
    simp only [Score.toCommit, found, Option.elim_some]
    omega
  · exact absurd (stands.symm.trans gone) (by simp)

theorem Score.commit_life (x : Score) : x.commit.life = x.life := by
  unfold Score.commit
  split <;> rfl

theorem Score.commit_changedAt {x : Score} (warm : x.cold = false) : x.commit.changedAt = none := by
  rw [Score.commit_of_warm warm]

theorem Score.commit_temp (x : Score) : x.commit.temp = x.temp := by
  unfold Score.commit
  split <;> rfl

theorem Score.commit_cold (x : Score) : x.commit.cold = x.cold := by
  unfold Score.commit
  split <;> rfl

/-! ### A commit that the collapse of VMET tears (15 R435) -/

/-- A torn commit moves the ring alone. -/
theorem Score.tearCommit_besideRing (x : Score) : x.tearCommit = { x with ring := x.tearCommit.ring } := by
  unfold Score.tearCommit
  split
  · split <;> rfl
  · rfl

theorem Score.tearCommit_of_settled {x : Score} (settled : x.committing = false) : x.tearCommit = x := by
  simp only [Score.tearCommit, settled]
  rfl

/-- The slot that a torn commit leaves is an earlier one. -/
theorem Score.tearCommit_slot {x : Score} {r q : RingSlot} (committing : x.committing = true) (newest : x.slot = some r)
    (left : x.tearCommit.slot = some q) : q ≠ r ∧ q.seq ≤ r.seq := by
  obtain ⟨⟨j, stands⟩, whole⟩ := Score.slot_mem left
  simp only [Score.tearCommit, committing, newest, if_true, Tab.get_map] at stands
  split at stands
  · rw [← Option.some.inj stands] at whole
    cases whole
  · next other =>
    obtain ⟨p, found, le⟩ := Score.seq_le_slot stands whole
    rw [newest] at found
    obtain rfl := Option.some.inj found
    exact ⟨fun same => other (same ▸ stands), le⟩

/-! ### The end of the Score's reset, its scan and its temperature -/

theorem Score.afterReset_slot (x : Score) (xoutHigh mseal : Bool) (reference : Option Nat) (levels : Tab Bool 8) :
    (x.afterReset xoutHigh mseal reference levels).slot = x.slot := by
  unfold Score.afterReset
  dsimp only
  split <;> rfl

/-- What the ring's newest slot leaves as it is: everything but the totals. -/
theorem Score.afterReset_powered (x : Score) (xoutHigh mseal : Bool) (reference : Option Nat) (levels : Tab Bool 8) :
    let y := x.afterReset xoutHigh mseal reference levels
    y.powered = true ∧ y.scanned = false ∧ y.locked = false ∧ y.refMode = !xoutHigh ∧ y.reference = reference ∧
      y.resetAt = x.own ∧ y.ring = x.ring ∧ y.accepted = x.accepted ∧ y.rejected = x.rejected ∧
      y.auditDropped = x.auditDropped ∧ y.levels = levels ∧ y.session = (x.session + 1) % 65536 := by
  cases newest : x.slot <;> simp only [Score.afterReset, newest, Score.reset, and_self]

/-- MSEAL: sampled on a VX48-M, driven low by a VX48-S (00 R9, 15 R452, R454). -/
theorem Score.afterReset_mseal (x : Score) (xoutHigh mseal : Bool) (reference : Option Nat) (levels : Tab Bool 8) :
    (x.afterReset xoutHigh mseal reference levels).mseal = (decide (x.variant = .m) && mseal) := by
  unfold Score.afterReset
  dsimp only
  split <;> rfl

theorem Score.afterReset_msealOut {x : Score} (lite : x.variant = .s) (xoutHigh mseal : Bool) (reference : Option Nat)
    (levels : Tab Bool 8) : (x.afterReset xoutHigh mseal reference levels).msealOut = some false := by
  unfold Score.afterReset
  dsimp only
  split <;> exact if_pos lite

/-- The ring gives the totals (15 R435). -/
theorem Score.afterReset_totals {x : Score} {r : RingSlot} (newest : x.slot = some r) (xoutHigh mseal : Bool)
    (reference : Option Nat) (levels : Tab Bool 8) :
    let y := x.afterReset xoutHigh mseal reference levels
    y.life = r.life ∧ y.job = r.job ∧ y.raw = r.raw := by
  simp only [Score.afterReset, newest, and_self]

theorem Score.ready_scanned (x : Score) : x.ready.scanned = true := by
  unfold Score.ready
  dsimp only
  split
  · exact (congrArg Score.scanned (Score.record_besideTrail ..) :)
  · rfl

/-- The records held while it was cold change the trail alone. -/
theorem Score.foldl_pushAudit_besideTrail (l : List AuditRec) (x : Score) : x.SameBesideTrail (l.foldl Score.pushAudit x) :=
  .foldl Score.pushAudit_besideTrail l x

theorem Score.putSetLog_temp (x : Score) : x.putSetLog.temp = x.temp := rfl
theorem Score.putSetLog_cold (x : Score) : x.putSetLog.cold = x.cold := rfl

theorem Score.dieTemp_temp_cold (x : Score) (t : Int) : (x.dieTemp t).temp = t ∧ (x.dieTemp t).cold = decide (t < -450) := by
  unfold Score.dieTemp
  extract_lets x1 x2 x3 y z
  have low : x1.SameBesideTrail x2 := by
    simp only [x2]
    split
    · exact x1.markBegin_besideTrail ..
    · split
      · exact x1.markEnd_besideTrail ..
      · exact .refl _
  have high : x2.SameBesideTrail x3 := by
    simp only [x3]
    split
    · exact x2.markBegin_besideTrail ..
    · split
      · exact x2.markEnd_besideTrail ..
      · exact .refl _
  have told : x3.temp = t := (low.trans high).temp
  split
  · next cold => exact ⟨told, (decide_eq_true cold).symm⟩
  · next warm =>
    have released : { x3 with cold := false, heldAudit := [] }.SameBesideTrail y := Score.foldl_pushAudit_besideTrail ..
    have temp_y : y.temp = t := released.temp.trans told
    have cold_y : y.cold = false := released.cold
    have logged : z.temp = t ∧ z.cold = false := by
      simp only [z]
      split <;> exact ⟨temp_y, cold_y⟩
    rw [decide_eq_false warm]
    split
    · rw [Score.commit_temp, Score.commit_cold]
      exact logged
    · exact logged

/-! ### The Score's events -/

section
variable {s : State} {dt : Nat}

/-- The device whose Score comes out of its reset; its links are heard again where they were not silent. -/
def Dev.scoreUp (d : Dev) (x : Score) : Dev :=
  let d1 := d.setScore fun _ => x
  if d1.ctl.scoreSilent then d1 else d1.linkBack

theorem Dev.scoreUp_score (d : Dev) (x : Score) : (d.scoreUp x).score = x := by
  have k : (d.scoreUp x).Keeps (· ∈ [.tally, .odo]) (d.setScore fun _ => x) := by
    unfold Dev.scoreUp
    dsimp only
    split
    · exact .refl _
    · exact Dev.linkBack_keeps (by decide) (by decide) (.refl _)
  exact k.frame .score (by decide)

theorem execScoreReset_unpowered (off : (s.turn dt).dev.score.powered = false) (xin : XinPins) (mseal : Bool)
    (levels : Tab Bool 8) :
    exec (.scoreReset dt xin mseal levels) s = .next (s.after dt fun d =>
      d.scoreUp (d.score.afterReset xin.xoutHigh mseal xin.reference levels)) := by
  refine congrArg Host.Outcome.next (State.after_congr ?_)
  simp only [off]
  rfl

/-- The Score's scan is over, and the publication shows it (02 R45). -/
def Dev.scoreScanned (d : Dev) : Dev :=
  (d.setScore Score.ready).publish.event 0x0006 0xFF (tenthsMs (d.score.own - d.score.resetAt))

theorem execScoreReady_scans (on : (s.turn dt).dev.score.powered = true) (scanning : (s.turn dt).dev.score.scanned = false)
    (no_por : (s.turn dt).dev.ctl.por = false) :
    exec (.scoreReady dt ()) s = .next (s.after dt Dev.scoreScanned) := by
  refine congrArg Host.Outcome.next (State.after_congr ?_)
  have no_por' : ((s.turn dt).dev.setScore Score.ready).ctl.por = false := no_por
  simp only [on, scanning, no_por', Bool.not_false, Bool.and_self, if_true]
  rfl

theorem Dev.told_score (d : Dev) : d.told.score = d.score :=
  (d.told_keeps_heard.frame .score (by decide)).trans (d.heard_keeps.frame .score (by decide))

theorem Dev.scoreScanned_scanned (d : Dev) : d.scoreScanned.score.scanned = true := by
  rw [Dev.scoreScanned, Dev.event_score, Dev.publish_eq]
  exact (congrArg Score.scanned (Dev.told_score _)).trans d.score.ready_scanned

theorem Dev.scoreScanned_publication (d : Dev) : (d.scoreScanned.link.publication.map fun x => x.scanned) = some true := by
  rw [Dev.scoreScanned, Dev.event_link, Dev.publish_eq]
  exact congrArg some d.score.ready_scanned

theorem Dev.scoreScanned_scoreSilent (d : Dev) : d.scoreScanned.ctl.scoreSilent = false := by
  rw [Dev.scoreScanned, Dev.event_ctl, Dev.publish_eq]
  exact Dev.told_scoreSilent _

/-- The Score is held in reset, and its links fall silent (17 R491). -/
def Dev.scoreDown (d : Dev) (torn : Bool) : Dev :=
  (d.setScore fun x => (if torn then x.tearCommit else x).unpowered_).linkDead

theorem execVmetLost_powered (on : (s.turn dt).dev.score.powered = true) (torn : Bool) :
    exec (.vmetLost ⟨dt, torn⟩) s = .next (s.after dt fun d => d.scoreDown torn) := by
  refine congrArg Host.Outcome.next (State.after_congr ?_)
  simp only [on]
  rfl

theorem Dev.scoreDown_score (d : Dev) (torn : Bool) :
    (d.scoreDown torn).score = (if torn then d.score.tearCommit else d.score).unpowered_ :=
  (Dev.linkDead_frame _).frame .score (by decide)

/-- What the tearing leaves of the Score: its lifetime totals, and the ring where there is nothing to tear. -/
theorem Dev.scoreDown_life (d : Dev) (torn : Bool) : (d.scoreDown torn).score.life = d.score.life := by
  rw [Dev.scoreDown_score]
  split
  · exact (congrArg Score.life d.score.tearCommit_besideRing :)
  · rfl

theorem Dev.scoreDown_ring {d : Dev} {torn : Bool} (whole : torn = false ∨ d.score.committing = false) :
    (d.scoreDown torn).score.ring = d.score.ring := by
  rw [Dev.scoreDown_score]
  obtain rfl | settled := whole
  · rfl
  · rw [Score.tearCommit_of_settled settled, ite_self]
    rfl

theorem Dev.scoreDown_slot (d : Dev) : (d.scoreDown true).score.slot = d.score.tearCommit.slot := by
  rw [Dev.scoreDown_score]
  rfl

/-- Without VMET every input has the rate 0 (09 R269). -/
theorem Dev.rate_of_unpowered {d : Dev} (off : d.score.powered = false) (i : Fin 8) : d.rate i = 0 := by
  unfold Dev.rate
  dsimp only
  split
  · rw [off, Bool.not_false, Bool.or_true, if_pos rfl]
  · rfl

theorem execVmetCommit_scanned (on : (s.turn dt).dev.score.powered = true) (scanned : (s.turn dt).dev.score.scanned = true) :
    exec (.vmetCommit dt) s = .next (s.after dt fun d => d.setScore fun x => x.powerDownRecords.commit) := by
  refine congrArg Host.Outcome.next (State.after_congr ?_)
  simp only [Dev.setScore, on, scanned, if_true]

theorem execScoreRingCommit_due {t : Nat} (changed : (s.turn dt).dev.score.changedAt = some t)
    (on : (s.turn dt).dev.score.powered = true) (scanned : (s.turn dt).dev.score.scanned = true)
    (late : t + 10000 * msec ≤ (s.turn dt).dev.score.own) :
    exec (.scoreRingCommit dt) s = .next (s.after dt fun d => d.setScore Score.commit) := by
  refine congrArg Host.Outcome.next (State.after_congr ?_)
  simp only [Dev.setScore, changed, on, scanned, late, decide_true, Bool.and_self, if_true]

theorem execScoreDieTemperature_powered (on : (s.turn dt).dev.score.powered = true) (tenths : Int) :
    exec (.scoreDieTemperature dt tenths) s = .next (s.after dt fun d => d.setScore fun x => x.dieTemp tenths) := by
  refine congrArg Host.Outcome.next (State.after_congr ?_)
  simp only [Dev.setScore, on, if_true]

end

end Sys2Proof.Machine

namespace Sys2Proof
open Machine

/-- Settles O43: the reset through what it takes from the ring, the loss of VMET through the slot that a torn commit leaves,
and the commits through `Score.commit_slot`. -/
theorem scoreSupplyEventsAct : Obligations.ScoreSupplyEventsAct := by
  intro s dt d
  refine ⟨fun xoutHigh mseal reference levels off => ⟨_, execScoreReset_unpowered off .., ?reset⟩,
    fun on scanning no_por => ⟨_, execScoreReady_scans on scanning no_por, ?ready⟩,
    fun torn on => ⟨_, execVmetLost_powered on torn, ?lost⟩,
    fun on scanned warm => ⟨_, execVmetCommit_scanned on scanned, ?commit⟩,
    fun x changed on scanned warm late => ⟨_, execScoreRingCommit_due changed on scanned late, ?ring⟩,
    fun tenths on => ⟨_, execScoreDieTemperature_powered on tenths, ?temperature⟩⟩
  case reset =>
    rw [State.after_score, Dev.scoreUp_score]
    obtain ⟨powered, scanned, locked, refMode, known, resetAt, ring, accepted, rejected, dropped, level, session⟩ :=
      d.score.afterReset_powered xoutHigh mseal reference levels
    exact ⟨powered, scanned, locked, refMode, known, resetAt, ring, accepted, rejected, dropped, level, session,
      Score.afterReset_slot .., Score.afterReset_mseal .., fun lite => Score.afterReset_msealOut lite ..,
      fun r newest => Score.afterReset_totals newest ..⟩
  case ready =>
    rw [State.after_score, State.after_link, State.after_ctl]
    exact ⟨Dev.scoreScanned_scanned _, Dev.scoreScanned_publication _, Dev.scoreScanned_scoreSilent _⟩
  case lost =>
    have off : (s.after dt fun d => d.scoreDown torn).dev.score.powered = false := by
      rw [State.after_score, Dev.scoreDown_score]
      rfl
    refine ⟨off, ?_, ?_, ?_, fun whole => ?_, fun tears committing r q newest left => ?_, ?_, fun i => Dev.rate_of_unpowered off i⟩
    · rw [State.after_score, Dev.scoreDown_score]
      rfl
    · rw [State.after_score, Dev.scoreDown_score]
      rfl
    · rw [State.after_score]
      exact Dev.scoreDown_life ..
    · rw [State.after_score]
      exact Dev.scoreDown_ring whole
    · subst tears
      rw [State.after_score, Dev.scoreDown_slot] at left
      exact Score.tearCommit_slot committing newest left
    · rw [State.after_odo]
      exact Dev.linkDead_odo _
  case commit =>
    have same := d.score.powerDownRecords_besideTrail
    have warm' : d.score.powerDownRecords.cold = false := same.cold.trans warm
    have kept : d.score.powerDownRecords.commit.life = d.score.powerDownRecords.life := Score.commit_life _
    rw [State.after_score, Dev.setScore_score, Score.commit_slot warm', Score.commit_changedAt warm', kept, Option.map_some,
      Score.toCommit_life, same.life]
    exact ⟨rfl, rfl, rfl⟩
  case ring =>
    rw [State.after_score, Dev.setScore_score, Score.commit_slot warm, Score.commit_changedAt warm]
    exact ⟨rfl, rfl⟩
  case temperature =>
    rw [State.after_score]
    exact d.score.dieTemp_temp_cold tenths

end Sys2Proof

/-! SUPPORT. O45: tally edges, taps, grounds, Laxitia and the seal at the Score (15 R421 to R428, R438, R450 to R454). -/

namespace Sys2Proof.Machine
open Sys2Proof

/-! ### Legal pulses: what counting touches (15 R424 to R429) -/

/-- `y` is `x` but for what legal pulses count: the totals, residues, pending and unmapped counts, the ground's lines, and the
audit trail with its marks and events. -/
def Score.SameBesideCounts (x y : Score) : Prop :=
  y = { x with life := y.life, job := y.job, volRes := y.volRes, distRes := y.distRes, areaRes := y.areaRes,
               pending := y.pending, unmapped := y.unmapped, unsetLines := y.unsetLines, lines := y.lines,
               ground := y.ground, samples := y.samples, energised := y.energised, audit := y.audit,
               nextAseq := y.nextAseq, auditDropped := y.auditDropped, heldAudit := y.heldAudit, marks := y.marks,
               markEvents := y.markEvents, rollovers := y.rollovers }

theorem Score.SameBesideCounts.refl (x : Score) : x.SameBesideCounts x := rfl

theorem Score.SameBesideCounts.trans {x y z : Score} (first : x.SameBesideCounts y) (second : y.SameBesideCounts z) :
    x.SameBesideCounts z := by
  unfold Score.SameBesideCounts at *
  rw [second, first]

theorem Score.SameBesideTrail.besideCounts {x y : Score} (same : x.SameBesideTrail y) : x.SameBesideCounts y := by
  unfold Score.SameBesideTrail at same
  unfold Score.SameBesideCounts
  rw [same]

theorem Score.SameBesideCounts.foldl {α : Type} {f : Score → α → Score} (step : ∀ (x : Score) (a : α), x.SameBesideCounts (f x a))
    (l : List α) (x : Score) : x.SameBesideCounts (l.foldl f x) := by
  induction l generalizing x with
  | nil => exact .refl x
  | cons a l ih => exact (step x a).trans (ih _)

/-- A total moves, with the records of its rollovers. -/
theorem Score.rolled_besideCounts {x y : Score} (same : x.SameBesideCounts y) (set_ index : Nat) (old : Total) (n : Nat) :
    x.SameBesideCounts (y.rolled set_ index old n) := same.trans (y.rolled_besideTrail ..).besideCounts

theorem Score.count_besideCounts (x : Score) (q : Quantity) (k : Nat) : x.SameBesideCounts (x.count q k) := by
  unfold Score.count
  extract_lets old x1 j
  have life : x.SameBesideCounts x1 := by
    refine Score.rolled_besideCounts ?_ ..
    rfl
  split
  · refine life.trans (Score.rolled_besideCounts ?_ ..)
    rfl
  · exact life

theorem Score.addVolume_besideCounts (x : Score) (f : Fin 4) (n : Nat) : x.SameBesideCounts (x.addVolume f n) := by
  refine Score.SameBesideCounts.trans ?_ (Score.count_besideCounts ..)
  rfl

theorem Score.addDistance_besideCounts (x : Score) (g : Fin 2) (n : Nat) : x.SameBesideCounts (x.addDistance g n) := by
  refine Score.SameBesideCounts.trans ?_ (Score.count_besideCounts ..)
  rfl

theorem Score.pend_besideCounts (x : Score) (i : Fin 6) : x.SameBesideCounts (x.pend i) := by
  refine Score.SameBesideCounts.trans ?_ (Score.markBegin_besideTrail ..).besideCounts
  rfl

theorem Score.addArea_besideCounts (now : Nat) (g : Fin 2) (x : Score) (f : Fin 4) : x.SameBesideCounts (x.addArea now g f) := by
  unfold Score.addArea
  split
  · extract_lets res x1
    have area : x.SameBesideCounts x1 := by
      simp only [x1]
      split
      · refine Score.SameBesideCounts.trans ?_ (Score.count_besideCounts ..)
        rfl
      · exact .refl x
    exact area.trans rfl
  · exact .refl x

theorem Score.unmap_besideCounts (x : Score) (g : Fin 2) : x.SameBesideCounts (x.unmap g) := by
  unfold Score.unmap
  dsimp only
  split
  · exact .refl x
  · refine Score.SameBesideCounts.trans ?_ (Score.markBegin_besideTrail ..).besideCounts
    rfl

theorem Score.measuredFrom_besideCounts (x : Score) (ground : Tab (Option Nat × Option Nat) 2) (samples : Tab Nat 2)
    (energised : Tab (Tab Nat 32) 2) :
    x.SameBesideCounts { x with ground := ground, samples := samples, energised := energised } := rfl

theorem Score.groundPulse_besideCounts (x : Score) (now : Nat) (g : Fin 2) : x.SameBesideCounts (x.groundPulse now g) := by
  unfold Score.groundPulse
  extract_lets x1 x2 last
  have distance : x.SameBesideCounts x1 := by
    simp only [x1]
    split
    · exact x.pend_besideCounts _
    · exact x.addDistance_besideCounts ..
  have area : x1.SameBesideCounts x2 := (x1.unmap_besideCounts g).trans (.foldl (Score.addArea_besideCounts now g) ..)
  exact (distance.trans area).trans (Score.measuredFrom_besideCounts ..)

theorem Score.legalPulse_besideCounts (x : Score) (now : Nat) (i : Fin 8) : x.SameBesideCounts (x.legalPulse now i) := by
  unfold Score.legalPulse
  split
  · split
    · exact x.pend_besideCounts _
    · exact x.addVolume_besideCounts ..
  · split
    · exact x.groundPulse_besideCounts ..
    · exact .refl x

/-! ### A tally edge at the Score (09 R261, 15 R424) -/

/-- The levels and the counts of the edges of the tally inputs. -/
def Score.edgeCounts (x : Score) : Tab Bool 8 × Tab Nat 8 × Tab Nat 8 := (x.levels, x.rising, x.falling)

theorem Score.SameBesideCounts.edgeCounts {x y : Score} (same : x.SameBesideCounts y) : y.edgeCounts = x.edgeCounts :=
  (congrArg Score.edgeCounts same :)

/-- The level moves at once, and an edge that is not merged counts by its direction. -/
theorem Score.edge_edgeCounts (x : Score) (now : Nat) (i : Fin 8) (rising : Bool) :
    (x.edge now i rising false).edgeCounts = (x.levels.set i rising,
      if rising then (x.rising.modify i count48, x.falling) else (x.rising, x.falling.modify i count48)) := by
  unfold Score.edge
  extract_lets x1 x2 legal x3
  rw [if_neg Bool.false_ne_true]
  have counted : x2.edgeCounts = (x.levels.set i rising,
      if rising then (x.rising.modify i count48, x.falling) else (x.rising, x.falling.modify i count48)) := by
    simp only [x2]
    split
    · exact ((Score.rolled_besideTrail ..).besideCounts).edgeCounts
    · rfl
  have pulsed : x3.edgeCounts = x2.edgeCounts := by
    simp only [x3]
    split
    · exact (x2.legalPulse_besideCounts ..).edgeCounts
    · rfl
  split
  · exact pulsed.trans counted
  · exact pulsed.trans counted

theorem Score.edge_merged (x : Score) (now : Nat) (i : Fin 8) (rising : Bool) :
    x.edge now i rising true = { x with levels := x.levels.set i rising } := rfl

/-! ### The taps (15 R423) -/

theorem getLsbD_clearBit (m : Mask) (u v : VoiceId) :
    (m &&& ~~~ BitVec.ofNat 48 (2 ^ u.val)).getLsbD v.val = (m.getLsbD v.val && !decide (u = v)) := by
  have lt : v.val < 48 := v.isLt
  rw [BitVec.getLsbD_and, BitVec.getLsbD_not, BitVec.getLsbD_ofNat, Nat.testBit_two_pow]
  simp only [lt, decide_true, Bool.true_and, Fin.ext_iff]

theorem foldl_clearBits (below4 : BitVec 4) (l : List VoiceId) (m : Mask) (v : VoiceId) :
    (l.foldl (fun m u => if below4.getLsbD (bankOf u).val then m &&& ~~~ BitVec.ofNat 48 (2 ^ u.val) else m) m).getLsbD v.val =
      (m.getLsbD v.val && !(decide (v ∈ l) && below4.getLsbD (bankOf v).val)) := by
  induction l generalizing m with
  | nil => simp
  | cons u l ih =>
    rw [List.foldl_cons, ih]
    by_cases here : u = v
    · subst here
      split
      · next low => simp only [getLsbD_clearBit, low, decide_true, List.mem_cons_self, Bool.not_true, Bool.and_false,
          Bool.false_and, Bool.and_true]
      · next high => simp only [Bool.eq_false_iff.2 high, Bool.and_false]
    · have there : v ≠ u := fun h => here h.symm
      split
      · simp only [getLsbD_clearBit, here, there, decide_false, Bool.not_false, Bool.and_true, List.mem_cons, false_or]
      · simp only [there, List.mem_cons, false_or]

/-- The taps of a bank whose VBAT is below 4.0 V read low, the others as they are. -/
theorem tapsRead_getLsbD (p : TapPins) (v : VoiceId) :
    (tapsRead p).getLsbD v.val = (p.outputs.getLsbD v.val && !p.below4.getLsbD (bankOf v).val) := by
  rw [tapsRead, foldl_clearBits]
  simp [mem_idx]

/-! ### The Laxitia port (15 R450) -/

theorem charTicks_mono {m n : Nat} (le : m ≤ n) : charTicks m ≤ charTicks n :=
  Nat.div_le_div_right (Nat.mul_le_mul_right _ le)

/-- Nothing of a line is lost whose first character came after the last answer. -/
theorem Score.heard_whole {x : Score} {line : List Byte} (quiet : x.laxUntil + charTicks line.length ≤ x.own) :
    x.heard line = some line := by
  have all_heard : (List.range line.length).filter (fun j => x.laxUntil + charTicks (line.length - j) ≤ x.own) =
      List.range line.length := by
    refine List.filter_eq_self.2 fun j _ => decide_eq_true ?_
    have := charTicks_mono (Nat.sub_le line.length j)
    omega
  have said : (List.range line.length).map (fun j => line.getD j 0) = line := by
    refine List.ext_getElem (by simp) fun j h1 h2 => ?_
    simp [List.getElem?_eq_getElem h2]
  rw [Score.heard, if_neg (by omega), all_heard, said]

theorem Score.heard_nothing {x : Score} (line : List Byte) (busy : x.own < x.laxUntil) : x.heard line = none :=
  if_pos busy

/-! ### The Score's events -/

section
variable {s : State} {dt : Nat} (on : (s.turn dt).dev.score.powered = true)
include on

/-- An edge as the control die learns of it: by the level on the link until the Score has locked (09 R267). -/
def Dev.tallyEdge (d : Dev) (i : Fin 8) (rising : Bool) : Dev :=
  let d1 := d.setScore fun x => x.edge x.own i rising false
  if d.score.locked || d.ctl.scoreSilent then d1
  else d1.modTally i fun x => { x with level := rising, levelSince := some d.now }

omit on in
theorem Dev.tallyEdge_score (d : Dev) (i : Fin 8) (rising : Bool) :
    (d.tallyEdge i rising).score = d.score.edge d.score.own i rising false := by
  unfold Dev.tallyEdge
  dsimp only
  split <;> rfl

omit on in
theorem Dev.tallyEdge_tally {d : Dev} (unlocked : d.score.locked = false) (heard : d.ctl.scoreSilent = false) (i : Fin 8)
    (rising : Bool) :
    (d.tallyEdge i rising).tally.get i = { d.tally.get i with level := rising, levelSince := some d.now } := by
  simp only [Dev.tallyEdge, unlocked, heard]
  exact Tab.get_modify_self ..

theorem execTallyEdge_alone (i : Fin 8) (rising : Bool) :
    exec (.tallyEdge dt i rising false) s = .next (s.after dt fun d => d.tallyEdge i rising) := by
  refine congrArg Host.Outcome.next (State.after_congr ?_)
  simp only [on, Bool.not_true, Bool.false_eq_true, if_false, Bool.or_false]
  rfl

theorem execTallyEdge_merged (i : Fin 8) (rising : Bool) :
    exec (.tallyEdge dt i rising true) s =
      .next (s.after dt fun d => d.setScore fun x => { x with levels := x.levels.set i rising }) := by
  refine congrArg Host.Outcome.next (State.after_congr ?_)
  simp only [on, Bool.not_true, Bool.false_eq_true, if_false, Bool.or_true, Bool.true_or, if_true]
  rfl

theorem execTapSample_due (late : (s.turn dt).dev.score.sampledAt + usec ≤ (s.turn dt).dev.score.own) (taps : TapPins) :
    exec (.tapSample dt taps) s =
      .next (s.after dt fun d => d.setScore fun x => { x.sample (tapsRead taps) with sampledAt := x.own }) := by
  refine congrArg Host.Outcome.next (State.after_congr ?_)
  simp only [Dev.setScore, on, late, decide_true, Bool.and_self, if_true]

theorem execScoreGroundEvaluation_due (late : (s.turn dt).dev.score.judgedAt + 10 * msec ≤ (s.turn dt).dev.score.own) :
    exec (.scoreGroundEvaluation dt) s =
      .next (s.after dt fun d => d.setScore fun x => { (idx 4).foldl (Score.judge x.own) x with judgedAt := x.own }) := by
  refine congrArg Host.Outcome.next (State.after_congr ?_)
  simp only [Dev.setScore, on, late, decide_true, Bool.and_self, if_true]

theorem execLaxitiaRequest_heard {line : List Byte} (asks : isSealLine line = false)
    (quiet : (s.turn dt).dev.score.laxUntil + charTicks line.length ≤ (s.turn dt).dev.score.own) :
    exec (.laxitiaRequest dt line) s = .next (s.after dt fun d => d.setScore fun x => x.sayLax (x.laxitiaAnswer line)) := by
  refine congrArg Host.Outcome.next (State.after_congr ?_)
  simp only [Dev.setScore, Score.heard_whole quiet, on, asks, Bool.not_true, Bool.false_and, Bool.or_self,
    Bool.false_eq_true, if_false]

omit on in
theorem execLaxitiaRequest_unheard (line : List Byte) (busy : (s.turn dt).dev.score.own < (s.turn dt).dev.score.laxUntil) :
    exec (.laxitiaRequest dt line) s = .next (s.after dt fun _ => (s.turn dt).dev) := by
  refine congrArg Host.Outcome.next (State.after_congr ?_)
  simp only [Dev.setScore, Score.heard_nothing line busy]

/-- A Score whose seal request has succeeded (15 R453, R454). -/
def Score.becomeSealed (x : Score) (ident : List Byte) : Score :=
  (Score.recordOne { x with sealSt := .sealed, msealOut := some true, instrument := ident } 0x08 ident).sayLax
    (laxWord ['S', 'E', 'A', 'L', 'E', 'D'])

omit on in
theorem Score.becomeSealed_sealed (x : Score) (ident : List Byte) :
    (x.becomeSealed ident).sealSt = .sealed ∧ (x.becomeSealed ident).msealOut = some true ∧
      (x.becomeSealed ident).instrument = ident := by
  have trail := Score.record_besideTrail { x with sealSt := .sealed, msealOut := some true, instrument := ident } 0x08 0x80
    x.eventCtr ident
  exact ⟨(congrArg Score.sealSt trail :), (congrArg Score.msealOut trail :), (congrArg Score.instrument trail :)⟩

section
variable {ident : List Byte} (legal : (s.turn dt).dev.score.variant = .m) (scanned : (s.turn dt).dev.score.scanned = true)
  (quiet : (s.turn dt).dev.score.laxUntil + charTicks (sealLine ident).length ≤ (s.turn dt).dev.score.own)
include legal scanned quiet

theorem execSealFuses_verified (mode : (s.turn dt).dev.score.sealSt = .sealMode) (formed : isSealLine (sealLine ident) = true) :
    exec (.sealFuses dt ident true) s = .next (s.after dt fun d => d.setScore fun x => x.becomeSealed ident) := by
  refine congrArg Host.Outcome.next (State.after_congr ?_)
  refine congrArg (fun x => { (s.turn dt).dev with score := x }) ?_
  refine (if_neg (by simp only [on, Bool.not_true, Bool.false_eq_true, not_false_eq_true])).trans ?_
  rw [Score.heard_whole quiet]
  dsimp only
  rw [if_neg (by simp [legal]), if_neg (by simp [scanned]), if_neg (by simp [mode, formed]), if_neg (by simp)]
  rfl

theorem execSealFuses_failed (mode : (s.turn dt).dev.score.sealSt = .sealMode) (formed : isSealLine (sealLine ident) = true) :
    exec (.sealFuses dt ident false) s =
      .next (s.after dt fun d => d.setScore fun x => x.sayLax (laxWord ['E', 'R', 'R', ' ', 'S', 'E', 'A', 'L'])) := by
  refine congrArg Host.Outcome.next (State.after_congr ?_)
  simp only [Dev.setScore, Score.heard_whole quiet, on, legal, scanned, mode, formed, Bool.not_true, Bool.not_false,
    Bool.false_eq_true, if_false, if_true, reduceCtorEq, ne_eq, not_true_eq_false, decide_false, Bool.or_self]

theorem execSealFuses_sealed (sealed : (s.turn dt).dev.score.sealSt = .sealed) (verified : Bool) :
    exec (.sealFuses dt ident verified) s =
      .next (s.after dt fun d => d.setScore fun x => x.sayLax (laxWord ['E', 'R', 'R'])) := by
  refine congrArg Host.Outcome.next (State.after_congr ?_)
  simp only [Dev.setScore, Score.heard_whole quiet, on, legal, scanned, sealed, Bool.not_true,
    Bool.false_eq_true, if_false, if_true, reduceCtorEq, ne_eq, not_false_eq_true, decide_true, Bool.true_or]

end

end

end Sys2Proof.Machine

namespace Sys2Proof
open Machine

/-- Settles O45: the raw counts through `Score.edge_edgeCounts`, the taps through `tapsRead_getLsbD`, Laxitia through what the
Score hears of a line, and the seal by its state. -/
theorem scoreInputsAct : Obligations.ScoreInputsAct := by
  intro s dt d on
  refine ⟨fun i rising => ⟨⟨_, execTallyEdge_merged on i rising, State.after_score ..⟩, _, execTallyEdge_alone on i rising, ?edge⟩,
    fun outputs below4 late => ⟨_, execTapSample_due on late _, ?taps⟩,
    fun late => ⟨_, execScoreGroundEvaluation_due on late, State.after_score ..⟩,
    fun line asks quiet => ⟨_, execLaxitiaRequest_heard on asks quiet, State.after_score ..⟩,
    fun line busy => execLaxitiaRequest_unheard line busy,
    fun ident legal scanned mode formed quiet => ⟨⟨_, execSealFuses_verified on legal scanned quiet mode formed, ?sealing⟩,
      _, execSealFuses_failed on legal scanned quiet mode formed, State.after_score ..⟩,
    fun ident ok_ legal scanned sealed quiet => ⟨_, execSealFuses_sealed on legal scanned quiet sealed ok_, State.after_score ..⟩⟩
  case edge =>
    have counts := d.score.edge_edgeCounts d.score.own i rising
    obtain ⟨levels, counted⟩ := Prod.mk.inj counts
    rw [State.after_score, State.after_tally, Dev.tallyEdge_score, levels]
    refine ⟨Tab.get_set_self .., ?_⟩
    cases rising
    · obtain ⟨up, down⟩ := Prod.mk.inj counted
      rw [up, down]
      refine ⟨rfl, Tab.get_modify_self .., fun unlocked heard => ?_, fun j other =>
        ⟨Tab.get_set_ne _ _ other, rfl, Tab.get_modify_ne _ _ other⟩⟩
      rw [Dev.tallyEdge_tally unlocked heard]
      exact ⟨rfl, rfl⟩
    · obtain ⟨up, down⟩ := Prod.mk.inj counted
      rw [up, down]
      refine ⟨Tab.get_modify_self .., rfl, fun unlocked heard => ?_, fun j other =>
        ⟨Tab.get_set_ne _ _ other, Tab.get_modify_ne _ _ other, rfl⟩⟩
      rw [Dev.tallyEdge_tally unlocked heard]
      exact ⟨rfl, rfl⟩
  case taps =>
    rw [State.after_score, Dev.setScore_score]
    exact ⟨fun v => tapsRead_getLsbD _ v, fun k => Tab.get_map .., rfl, rfl⟩
  case sealing =>
    rw [State.after_score, Dev.setScore_score]
    obtain ⟨sealed, driven, named⟩ := d.score.becomeSealed_sealed ident
    exact ⟨sealed, driven, named, rfl⟩

end Sys2Proof

/-! SUPPORT. O46: the edges of the link in step 4 of their slot, stuck levels, the frozen odometer and the grounds (09 R262 to R271,
10 R285). -/

namespace Sys2Proof.Machine
open Sys2Proof

/-! ### Edges of the link (09 R264) -/

/-- Two edges of one input closer than 2 ns are a pair that is left out. -/
theorem dropPairs_pair {i : Fin 8} {a b : Bool} {x y : Int} {m n : Nat} (after : -6 < y - x) (before : y - x < 6) :
    dropPairs [⟨i, a, x, m⟩, ⟨i, b, y, n⟩] = ([], [i]) := by
  have close : (y - x).natAbs < 6 := by omega
  simp [dropPairs, close]

theorem dropPairs_single (e : LinkEdge) : dropPairs [e] = ([e], []) := rfl

/-- A pair is a glitch of its input, and nothing else moves. -/
theorem Dev.takeEdges_of_pair {d : Dev} {i : Fin 8} {a b : Bool} {x y : Int} {m n : Nat}
    (edges : d.edges = [⟨i, a, x, m⟩, ⟨i, b, y, n⟩]) (after : -6 < y - x) (before : y - x < 6) :
    d.takeEdges = ({ d with edges := [] } : Dev).modTally i fun x => { x with glitch := stick 16 (x.glitch + 1) } := by
  simp only [Dev.takeEdges, edges, dropPairs_pair after before]
  rfl

/-- An edge that one of the next slot could pair with waits. -/
theorem Dev.takeEdges_of_waiting {d : Dev} {e : LinkEdge} (edges : d.edges = [e]) (waits : e.waits d.now = true) :
    d.takeEdges = d := by
  have kept : d.takeEdges = { d with edges := [e] } := by
    simp only [Dev.takeEdges, edges, dropPairs_single, List.filter_cons, waits]
    rfl
  rw [kept, ← edges]

/-- An edge alone that need not wait is used. -/
theorem Dev.takeEdges_of_single {d : Dev} {e : LinkEdge} (edges : d.edges = [e]) (ripe : e.waits d.now = false) :
    d.takeEdges = ({ d with edges := [] } : Dev).timestampEdge e.input e.rising e.stamp := by
  simp only [Dev.takeEdges, edges, dropPairs_single, List.filter_cons, ripe]
  by_cases primary : e.input = d.primary <;> simp [primary]

/-- An edge of the polarity that does not count, on an input that captures time stamps and widths but has no start: the level,
its FIFO entry and an orphan (09 R265 to R267). -/
theorem Dev.timestampEdge_orphan {d : Dev} {i : Fin 8} {rising : Bool} {stamp : Int} (opposite : rising ≠ d.countsRising i)
    (stamps : d.tsEn i = true) (widths : d.widthEn i = true) (room : (d.tally.get i).fifo.length < 256)
    (unstarted : (d.tally.get i).start = none) :
    ∃ entry : FifoEntry, entry.tbc = d.useStamp stamp ∧ entry.rising = rising ∧
      (d.timestampEdge i rising stamp).tally.get i = { d.tally.get i with
        level := rising, levelSince := some d.now, fifo := (d.tally.get i).fifo ++ [entry]
        orphan := stick 16 ((d.tally.get i).orphan + 1) } := by
  unfold Dev.timestampEdge
  extract_lets used counting hold entry d1 d2 d3 x
  have uncounted : d2 = d1 := if_neg opposite
  have captured : d3 = d1.fifoPush i entry := by
    have enabled : (d2.tsEn i && (counting || d2.widthEn i)) = true := by
      rw [uncounted, show d1.tsEn i = true from stamps, show d1.widthEn i = true from widths]
      simp
    rw [← uncounted]
    exact if_pos enabled
  have pushed : d1.fifoPush i entry = d1.modTally i fun x => { x with fifo := x.fifo ++ [entry] } :=
    if_pos (by rw [show d1.tally.get i = _ from Tab.get_modify_self ..]; exact room)
  have widths' : d3.widthEn i = true := by
    rw [captured, pushed]
    exact widths
  refine ⟨entry, rfl, rfl, ?_⟩
  rw [if_neg (by simp [widths']), if_neg opposite, captured, pushed]
  simp only [Dev.modTally, d1, x, Tab.get_modify_self, unstarted]

/-! ### The events -/

section
variable {s : State} {dt : Nat}

theorem execTimestampEdge_locked (heard : (s.turn dt).dev.ctl.scoreSilent = false) (locked : (s.turn dt).dev.score.locked = true)
    (i : Fin 8) (rising : Bool) (stamp : Int) :
    exec (.timestampEdge dt i rising stamp ()) s = .next (s.after dt fun d =>
      { d with edges := d.edges ++ [⟨i, rising, stamp, d.now⟩] }) := by
  refine congrArg Host.Outcome.next (State.after_congr ?_)
  simp only [heard, locked, Bool.not_true, Bool.or_self, Bool.false_eq_true, if_false]

/-- A level that has stood for STUCK_TIME (09 R267). -/
def Dev.markStuck (d : Dev) (i : Fin 8) : Dev :=
  (d.modTally i fun x => { x with stuck := true, levelSince := none, returned := none }).event 0x0A06 i.val
    [b8 (boolNat (d.tally.get i).level)]

theorem execStuckLevel_due {i : Fin 8} {x : Nat} (since : ((s.turn dt).dev.takeEdges.tally.get i).levelSince = some x)
    (late : (s.turn dt).dev.takeEdges.stuckTime i ≤ (s.turn dt).dev.takeEdges.now - x)
    (heard : (s.turn dt).dev.takeEdges.ctl.scoreSilent = false) :
    exec (.stuckLevel dt i) s = .next (s.after dt fun d => d.takeEdges.markStuck i) := by
  refine congrArg Host.Outcome.next (State.after_congr ?_)
  simp only [since, late, heard, decide_true, Bool.not_false, Bool.and_self, if_true]
  rfl

/-- The odometer is frozen (10 R285). -/
def Dev.freezeOdo (d : Dev) : Dev :=
  let d1 := { d with odo := { d.odo with floor := d.odoValue, st := .frozen } }
  d1.event 0x0301 d1.odoInput (leInt 8 d1.odoUnits)

theorem execOdoFrozen_due {x : Int} (running : (s.turn dt).dev.takeEdges.odo.st = .running)
    (last : (s.turn dt).dev.takeEdges.odo.last = some x)
    (late : ((s.turn dt).dev.takeEdges.stopTimeout : Int) ≤ (s.turn dt).dev.takeEdges.time.tbc - x) :
    exec (.odoFrozen dt) s = .next (s.after dt fun d => d.takeEdges.freezeOdo) := by
  refine congrArg Host.Outcome.next (State.after_congr ?_)
  dsimp only
  split
  · next t _ last' =>
    obtain rfl := Option.some.inj (last.symm.trans last')
    exact if_pos late
  · next h => exact (h x running last).elim

theorem execGroundEvaluation_none (late : (s.turn dt).dev.takeEdges.odo.evalAt + 10 * msec ≤ (s.turn dt).dev.takeEdges.now)
    (none_used : (s.turn dt).dev.takeEdges.odo.source = .none) :
    exec (.groundEvaluation dt) s = .next (s.after dt fun d =>
      { d.takeEdges with odo := { d.takeEdges.odo with evalAt := d.takeEdges.now } }) := by
  refine congrArg Host.Outcome.next (State.after_congr ?_)
  simp only [Nat.not_lt.2 late, if_false, none_used]

theorem execGroundEvaluation_primary (late : (s.turn dt).dev.takeEdges.odo.evalAt + 10 * msec ≤ (s.turn dt).dev.takeEdges.now)
    (primary : (s.turn dt).dev.takeEdges.odo.source = .primary) :
    exec (.groundEvaluation dt) s = .next (s.after dt fun d =>
      Dev.judgePrimary { d.takeEdges with odo := { d.takeEdges.odo with evalAt := d.takeEdges.now } }) := by
  refine congrArg Host.Outcome.next (State.after_congr ?_)
  simp only [Nat.not_lt.2 late, if_false, primary]

/-- What the odometer is where no ground is left (09 R271). -/
structure Odometer.NoGround (o before : Odometer) : Prop where
  source : o.source = .none
  groundNone : o.groundNone = true
  st : o.st = .unavailable
  evalAt : o.evalAt = before.evalAt

theorem Dev.groundNone_noGround (d : Dev) (lost : Fin 8) : (d.groundNone lost).odo.NoGround d.odo := by
  unfold Dev.groundNone
  dsimp only
  rw [Dev.event_odo]
  exact ⟨rfl, rfl, rfl, rfl⟩

theorem plausibility_judged {judged expected : Rat} {pct : Nat} (fast : 20 ≤ expected) :
    plausibility judged expected false pct ≠ .suspended := by
  simp only [plausibility, Bool.or_false, decide_eq_true_eq, Rat.not_lt.2 fast, if_false]
  generalize (if judged ≤ expected then expected - judged else judged - expected) = off
  split
  · exact Plausibility.noConfusion
  · exact Plausibility.noConfusion

/-- A primary that is stuck without a substitute is lost (09 R271). -/
theorem Dev.judgePrimary_noGround {d : Dev} (alone : d.secEn = false)
    (fast : 20 ≤ d.rate d.secondary * (d.ratio : Rat) / 65536) (sound : (d.tally.get d.secondary).stuck = false)
    (stuck : (d.tally.get d.primary).stuck = true) : d.judgePrimary.odo.NoGround d.odo := by
  unfold Dev.judgePrimary
  extract_lets p sec expected j lost since o d1 late can
  have lost' : lost = true := by
    have judged : j ≠ .suspended := by
      simp only [j, sec, sound]
      exact plausibility_judged fast
    simp only [lost, judged, p, stuck, ne_eq, not_false_eq_true, decide_true, Bool.true_or, Bool.and_self]
  have cannot : can = false := by simp only [can, alone, Bool.false_and]
  rw [lost', cannot, Bool.true_or, if_pos rfl, if_neg Bool.false_ne_true, if_pos rfl]
  obtain ⟨source, none_, st, evalAt⟩ := d1.groundNone_noGround p
  exact ⟨source, none_, st, evalAt⟩

end

end Sys2Proof.Machine

namespace Sys2Proof
open Machine

/-- Settles O46: edges through what `Dev.takeEdges` makes of a pair, of an edge that waits and of one alone; the rest by the
state of the input and of the odometer. -/
theorem tallyAndOdometerEventsAct : Obligations.TallyAndOdometerEventsAct := by
  refine ⟨fun d i a b x y m n edges after before => ?pair, fun d i rising stamp edges early => ?waiting,
    fun d i rising stamp n edges ripe opposite stamps widths room unstarted => ?alone, fun s dt i => ?events⟩
  case pair =>
    rw [Dev.takeEdges_of_pair edges after before]
    exact ⟨rfl, Tab.get_modify_self .., fun j other => Tab.get_modify_ne _ _ other⟩
  case waiting =>
    have waits : LinkEdge.waits d.now ⟨i, rising, stamp, d.now⟩ = true := by simp [LinkEdge.waits, early]
    rw [Dev.takeEdges_of_waiting edges waits]
    exact ⟨rfl, rfl, rfl⟩
  case alone =>
    have ripe' : LinkEdge.waits d.now ⟨i, rising, stamp, n⟩ = false := by
      obtain before | early := ripe
      · simp [LinkEdge.waits, before]
      · simp [LinkEdge.waits, early]
    rw [Dev.takeEdges_of_single edges ripe']
    obtain ⟨entry, tbc, edge, eq⟩ := Dev.timestampEdge_orphan (d := { d with edges := [] }) (stamp := stamp) opposite stamps
      widths room unstarted
    rw [eq]
    refine ⟨rfl, rfl, ?_, rfl⟩
    rw [List.map_append, List.map_singleton, tbc, edge]
    rfl
  case events =>
    intro d e
    refine ⟨fun rising stamp heard locked => ⟨_, execTimestampEdge_locked heard locked i rising stamp, ?edge⟩,
      fun x since late heard no_por => ⟨_, execStuckLevel_due since late heard, ?stuck⟩,
      fun x running last late => ⟨_, execOdoFrozen_due running last late, ?frozen⟩,
      fun late none_used => ⟨_, execGroundEvaluation_none late none_used, ?evaluated⟩,
      fun late primary alone fast sound stuck => ⟨_, execGroundEvaluation_primary late primary, ?lost⟩⟩
    case edge =>
      rw [State.after_edges, State.after_tally, State.after_odo]
      exact ⟨rfl, rfl, rfl⟩
    case stuck =>
      refine ⟨?_, State.after_logged (Dev.event_logged _ _ _ _ no_por)⟩
      rw [State.after_tally, Dev.markStuck, Dev.event_tally]
      exact Tab.get_modify_self ..
    case frozen =>
      rw [State.after_odo, Dev.freezeOdo, Dev.event_odo]
    case evaluated =>
      rw [State.after_odo]
    case lost =>
      obtain ⟨source, none_, st, evalAt⟩ := Dev.judgePrimary_noGround (d := { e with odo := { e.odo with evalAt := e.now } })
        alone fast sound stuck
      rw [State.after_odo]
      exact ⟨source, none_, st, evalAt⟩

end Sys2Proof

/-! SUPPORT. O47: zones: readings, the hard stop, grace times, ceiling steps and sensor checks (13 R354, R355, R366 to R376). -/

namespace Sys2Proof.Machine
open Sys2Proof

/-! ### The readings of the zones, which only a reading moves (13 R355) -/

/-- What the sensors of the zones last read, and when. -/
def Dev.readings (d : Dev) : Tab Int 8 × Nat := (d.therm.zones.map Zone.reading, d.therm.readAt)

theorem Dev.Keeps.readings {e d : Dev} (k : e.Keeps (· ≠ .therm) d) : e.readings = d.readings := by
  rw [Dev.readings, k.frame .therm (by decide), Dev.readings]

theorem Dev.readings_readAt (d : Dev) : d.therm.readAt = d.readings.2 := rfl

theorem Dev.readings_reading (d : Dev) (z : ZoneId) : (d.zone z).reading = d.readings.1.get z := (Tab.get_map ..).symm

section
variable {d : Dev}

theorem Dev.modZone_readings (z : ZoneId) {f : Zone → Zone} (same : ∀ x, (f x).reading = x.reading) :
    (d.modZone z f).readings = d.readings := by
  refine Prod.ext (Tab.ext_get fun y => ?_) rfl
  change (Tab.map _ _).get y = (Tab.map _ _).get y
  rw [Tab.get_map, Tab.get_map]
  rcases Decidable.em (y = z) with rfl | other
  · rw [Dev.modZone_therm, Tab.get_modify_self, same]
  · rw [Dev.modZone_therm, Tab.get_modify_ne _ _ other]

theorem Dev.forVoices_readings {f : Dev → VoiceId → Dev} (same : ∀ e v, (f e v).readings = e.readings) (vs : List VoiceId)
    (d : Dev) : (d.forVoices vs f).readings = d.readings := Dev.foldl_same (fun e v _ => same e v) d

@[simp] theorem Dev.event_readings (code unit : Nat) (data : List Byte) : (d.event code unit data).readings = d.readings := by
  rw [Dev.readings, Dev.event_therm, Dev.readings]

@[simp] theorem Dev.modVoice_readings (v : VoiceId) (f : Voice → Voice) : (d.modVoice v f).readings = d.readings := rfl

@[simp] theorem Dev.modTherm_readings (v : VoiceId) (f : VoiceThermal → VoiceThermal) : (d.modTherm v f).readings = d.readings := rfl

@[simp] theorem Dev.modUnit_readings (v : VoiceId) (f : Voice → Voice) : (d.modUnit v f).readings = d.readings :=
  Dev.Keeps.readings (Dev.modUnit_keeps (by decide) (.refl _) v f)

/-- A turn-off ends a blip at most. -/
@[simp] theorem Dev.turnOff_readings (v : VoiceId) (why : OffWhy) : (d.turnOff v why).readings = d.readings := by
  unfold Dev.turnOff
  split
  · extract_lets why' d1 d2
    have released : d2.readings = d.readings := Dev.Keeps.readings (by
      refine Dev.lifetimeMax_keeps (by decide) (by decide) (by decide) (Dev.modVoice_keeps (by decide) ?_ _ _) v
      exact Dev.returnTokens_keeps (by decide) (by decide) (.refl _) v)
    split
    · split
      · exact released
      · exact released
    · exact released
  · rfl

@[simp] theorem Dev.dropVoice_readings (v : VoiceId) (why : OffWhy) : (Dev.dropVoice why d v).readings = d.readings := by
  unfold Dev.dropVoice
  dsimp only
  split <;> simp

@[simp] theorem Dev.setSc_readings (f : SoundCheck → SoundCheck) : (d.setSc f).readings = d.readings := rfl

@[simp] theorem Dev.faultEvent_readings (v : VoiceId) (code kind before : Nat) (m : Meas) :
    (d.faultEvent v code kind before m).readings = d.readings := by
  apply Dev.Keeps.readings
  apply Dev.faultEvent_keeps <;> first | decide | exact .refl _

@[simp] theorem Dev.unscore_readings (f : SlotFault) : (d.unscore f).readings = d.readings := by
  apply Dev.Keeps.readings
  apply Dev.unscore_keeps <;> first | decide | exact .refl _

@[simp] theorem Dev.scoreTrip_readings (v : VoiceId) (code : Nat) (stripes : BitVec 2) (m : Meas) :
    (d.scoreTrip v code stripes m).readings = d.readings := by
  unfold Dev.scoreTrip
  extract_lets name mark reports d0
  have named (e : Dev) : (name e).readings = e.readings := rfl
  have marked (e : Dev) : (mark e).readings = e.readings := by
    simp only [mark, Dev.faultEvent_readings, Dev.setSc_readings, named, Dev.modUnit_readings]
  split
  · split
    · rw [marked, Dev.modUnit_readings, Dev.unscore_readings]
    · split
      · exact named d
      · rfl
  · split
    · rw [marked, Dev.forVoices_readings (fun e u => by rw [Dev.modVoice_readings, Dev.turnOff_readings])]
      exact Dev.foldl_same (fun e f _ => e.unscore_readings f) d
    · rfl

@[simp] theorem Dev.otStop_readings (v : VoiceId) : (d.otStop v).readings = d.readings := by
  unfold Dev.otStop
  dsimp only
  split
  · rfl
  · rw [Dev.setSc_readings, Dev.modUnit_readings]
    exact Dev.foldl_same (fun e u _ => e.scoreTrip_readings ..) d

@[simp] theorem Dev.staggerEnd_readings (k : StaggerKind) : (d.staggerEnd k).readings = d.readings :=
  Dev.Keeps.readings (Dev.staggerEnd_keeps (by decide) (.refl _) k)

@[simp] theorem Dev.stagger_readings (k : StaggerKind) (vs : List VoiceId) : (d.stagger k vs).readings = d.readings := by
  unfold Dev.stagger Dev.staggerStep
  split
  · exact Dev.staggerEnd_readings ..
  · next v rest _ =>
    extract_lets d1 left
    have stepped : d1.readings = d.readings := by
      simp only [d1]
      split
      · exact Dev.otStop_readings v
      · exact Dev.turnOff_readings ..
      · exact Dev.forVoices_readings (fun e u => e.dropVoice_readings ..) _ d
      · exact Dev.forVoices_readings (fun e u => e.dropVoice_readings ..) _ d
    split
    · rw [Dev.staggerEnd_readings, stepped]
    · exact stepped

@[simp] theorem Dev.zoneCheckStart_readings (z : ZoneId) : (d.zoneCheckStart z).readings = d.readings := by
  unfold Dev.zoneCheckStart
  dsimp only
  split
  · rfl
  · exact Dev.modZone_readings z fun _ => rfl

@[simp] theorem Dev.withdraw_readings (v : VoiceId) : (d.withdraw v).readings = d.readings :=
  Dev.Keeps.readings (Dev.withdraw_keeps (by decide) (by decide) (.refl _) v)

@[simp] theorem Dev.stopCues_readings (vs : List VoiceId) : (d.stopCues vs).readings = d.readings :=
  Dev.Keeps.readings (Dev.stopCues_keeps (by decide) (by decide) (by decide) (.refl _) vs)

@[simp] theorem Dev.thermalStop_readings (u : ThermUnit) (vs : List VoiceId) (value before : Rat) :
    (d.thermalStop u vs value before).readings = d.readings := by
  unfold Dev.thermalStop
  extract_lets all driven tp orderly told d1 d2 d3 d4
  have held : d2.readings = d.readings := by
    simp only [d2, d1]
    rw [Dev.forVoices_readings (fun e v => e.modTherm_readings ..), Dev.forVoices_readings (fun e v => e.withdraw_readings v),
      Dev.stopCues_readings]
  have checked : d3.readings = d2.readings := by
    simp only [d3]
    split
    · rfl
    · exact Dev.zoneCheckStart_readings _
  have told_ : d4.readings = d.readings := (Dev.event_readings ..).trans (checked.trans held)
  split
  · rw [Dev.stagger_readings, told_]
  · rw [Dev.forVoices_readings (fun e v => e.otStop_readings v), told_]

@[simp] theorem Dev.setWarn_readings (u : ThermUnit) (b : Bool) : (d.setWarn u b).readings = d.readings := by
  cases u with
  | voice v => rfl
  | zone z => exact Dev.modZone_readings z fun _ => rfl

@[simp] theorem Dev.setReq_readings (u : ThermUnit) (q : Option ThrottleReq) : (d.setReq u q).readings = d.readings := by
  cases u with
  | voice v => rfl
  | zone z => exact Dev.modZone_readings z fun _ => rfl

@[simp] theorem Dev.warnCheck_readings (u : ThermUnit) : (d.warnCheck u).readings = d.readings := by
  unfold Dev.warnCheck
  dsimp only
  split
  · simp
  · split <;> simp

@[simp] theorem Dev.zoneRelease_readings (z : ZoneId) : (d.zoneRelease z).readings = d.readings := by
  unfold Dev.zoneRelease
  split
  · exact (Dev.event_readings ..).trans (Dev.modZone_readings z fun _ => rfl)
  · rfl

@[simp] theorem Dev.enforce_readings (u : ThermUnit) (q : ThrottleReq) : (d.enforce u q).readings = d.readings := by
  unfold Dev.enforce
  extract_lets z d1 d2
  split
  · exact Dev.setReq_readings ..
  · have withdrawn (e : Dev) : (e.withdrawZone z).readings = e.readings :=
      Dev.forVoices_readings (fun e v => e.withdraw_readings v) _ e
    have begun : d2.readings = d1.readings := Dev.modZone_readings z fun _ => rfl
    rw [withdrawn, Dev.event_readings, begun]
    exact Dev.setReq_readings ..

@[simp] theorem Dev.throttleCheck_readings (u : ThermUnit) : (d.throttleCheck u).readings = d.readings := by
  unfold Dev.throttleCheck
  dsimp only
  split
  · split
    · unfold Dev.throttleArise
      dsimp only
      split <;> simp
    · rfl
  · split
    · unfold Dev.throttleEnd
      simp
    · rfl

@[simp] theorem Dev.stopZone_readings (z : ZoneId) : (d.stopZone z).readings = d.readings := by
  unfold Dev.stopZone
  dsimp only
  split
  · rw [Dev.thermalStop_readings]
    exact Dev.modZone_readings z fun _ => rfl
  · split
    · rw [Dev.event_readings]
      exact Dev.modZone_readings z fun _ => rfl
    · rfl

theorem Dev.zoneThresholds_readings (z : ZoneId) : (d.zoneThresholds z).readings = d.readings := by
  unfold Dev.zoneThresholds
  dsimp only
  rw [Dev.modZone_readings, Dev.stopZone_readings, Dev.throttleCheck_readings, Dev.warnCheck_readings]
  exact fun _ => rfl

theorem Dev.suspectZone_readings (e : ZoneId → Rat) (z : ZoneId) : (d.suspectZone e z).readings = d.readings := by
  unfold Dev.suspectZone
  dsimp only
  split
  · rfl
  · split
    · rw [Dev.zoneCheckStart_readings, Dev.event_readings]
      exact Dev.modZone_readings z fun _ => rfl
    · split
      · rw [Dev.zoneCheckStart_readings]
        exact Dev.modZone_readings z fun _ => rfl
      · rfl
    · rfl

theorem Dev.flushHeld_readings : d.flushHeld.readings = d.readings := by
  apply Dev.Keeps.readings
  apply Dev.flushHeld_keeps <;> first | decide | exact .refl _

theorem Dev.coldCheck_readings : d.coldCheck.readings = d.readings := by
  unfold Dev.coldCheck
  dsimp only
  split
  · exact Dev.event_readings ..
  · split
    · split
      · exact Dev.flushHeld_readings.trans (Dev.event_readings ..)
      · exact Dev.event_readings ..
    · rfl

theorem Zone.read_reading (x : Zone) (e : Rat) (alone : Bool) : (x.read e alone).reading = x.reading := by
  unfold Zone.read
  extract_lets r off far near
  split
  · rfl
  · split <;> rfl
  · rfl
  · rfl

/-- A zone in service takes its reading; the time of the readings stands. -/
theorem Dev.zoneReadings_reading {z : ZoneId} (measured : (d.zone z).st = .measured) (readings : Tab Int 8) :
    ((d.zoneReadings readings).zone z).reading = readings.get z ∧
      (d.zoneReadings readings).therm.readAt = d.therm.readAt := by
  unfold Dev.zoneReadings
  extract_lets th d1 e zs th1 d2 d3
  have judged : d3.readings = d2.readings := Dev.foldl_same (fun x k _ => x.suspectZone_readings e k) d2
  have marked : d3.coldCheck.markIfDue.readings = d2.readings :=
    (Dev.Keeps.readings (Dev.markIfDue_keeps (by decide) (.refl _))).trans (Dev.coldCheck_readings.trans judged)
  have after_ : ((idx 8).foldl Dev.zoneThresholds d3.coldCheck.markIfDue).readings = d2.readings :=
    (Dev.foldl_same (fun x k _ => x.zoneThresholds_readings k) _).trans marked
  have taken : (d2.zone z).reading = readings.get z := by
    change (Tab.get zs z).reading = _
    rw [show zs.get z = _ from Tab.get_mapIdx .., Zone.read_reading, show d1.therm.zones.get z = _ from Tab.get_mapIdx ..,
      if_neg (by rw [show d.therm.zones.get z = d.zone z from rfl, measured]; decide)]
  rw [Dev.readings_reading, Dev.readings_readAt, after_, ← Dev.readings_reading, taken]
  exact ⟨rfl, rfl⟩

/-! ### Requests of a throttle (13 R366 to R368) -/

theorem Dev.reqOf_setReq (u : ThermUnit) (q : Option ThrottleReq) : (d.setReq u q).reqOf u = q := by
  cases u with
  | voice v => exact congrArg (fun x : Voice => x.therm.req) (Dev.voice_modVoice_self ..)
  | zone z => exact congrArg Zone.req (Tab.get_modify_self ..)

theorem Dev.reqOf_modZone (u : ThermUnit) (z : ZoneId) {f : Zone → Zone} (same : ∀ x, (f x).req = x.req) :
    (d.modZone z f).reqOf u = d.reqOf u := by
  cases u with
  | voice v => rfl
  | zone y =>
    rcases Decidable.em (y = z) with rfl | other
    · exact (congrArg Zone.req (Tab.get_modify_self ..)).trans (same _)
    · exact congrArg Zone.req (Tab.get_modify_ne _ _ other)

theorem Dev.reqOf_event (u : ThermUnit) (code unit : Nat) (data : List Byte) : (d.event code unit data).reqOf u = d.reqOf u := by
  cases u with
  | voice v => simp [Dev.reqOf]
  | zone z => simp [Dev.reqOf, Dev.zone]

theorem Dev.withdraw_voice_therm (v u : VoiceId) : ((d.withdraw v).voice u).therm = (d.voice u).therm := by
  rcases Decidable.em (u = v) with rfl | other
  · unfold Dev.withdraw
    split
    · rw [Dev.voice_modVoice_self, Dev.returnTokens_voice_self]
    · rfl
  · rw [Dev.withdraw_voice_ne d other]

theorem Dev.withdrawZone_therm (z : ZoneId) : (d.withdrawZone z).therm = d.therm :=
  (Dev.withdrawZone_keeps (W := (· ≠ .therm)) (by decide) (by decide) (.refl _) z).frame .therm (by decide)

theorem Dev.reqOf_withdrawZone (u : ThermUnit) (z : ZoneId) : (d.withdrawZone z).reqOf u = d.reqOf u := by
  cases u with
  | voice v => exact Dev.foldl_same (q := fun e => (e.voice v).therm.req) (fun e m _ => by rw [e.withdraw_voice_therm]) d
  | zone y => rw [Dev.reqOf, Dev.zone, Dev.withdrawZone_therm, Dev.reqOf, Dev.zone]

/-- A request that ends is no more (13 R367). -/
theorem Dev.throttleEnd_reqOf (u : ThermUnit) (q : ThrottleReq) : (d.throttleEnd u q).reqOf u = none := by
  unfold Dev.throttleEnd Dev.zoneRelease
  split
  · rw [Dev.reqOf_event, Dev.reqOf_modZone, Dev.reqOf_event, Dev.reqOf_setReq]
    exact fun _ => rfl
  · rw [Dev.reqOf_event, Dev.reqOf_setReq]

/-- Setting a request leaves the rest of the zones. -/
theorem Dev.setReq_zone {α : Type} {q : Zone → α} (same : ∀ x r, q { x with req := r } = q x) (u : ThermUnit)
    (r : Option ThrottleReq) (z : ZoneId) : q ((d.setReq u r).zone z) = q (d.zone z) := by
  cases u with
  | voice v => rfl
  | zone y =>
    rcases Decidable.em (z = y) with rfl | other
    · exact (congrArg q (Tab.get_modify_self ..)).trans (same ..)
    · exact congrArg q (Tab.get_modify_ne _ _ other)

/-- What the zone of a request becomes that begins to enforce where none does yet (13 R368). -/
structure Dev.BeginsToEnforce (d : Dev) (u : ThermUnit) (q : ThrottleReq) (e : Dev) : Prop where
  req : e.reqOf u = some { q with enforcing := true }
  enforcing : (e.zone (zoneOfTherm u)).enforcing = true
  stepAt : (e.zone (zoneOfTherm u)).stepAt = some (d.now + 50 * msec)
  ceiling : (e.zone (zoneOfTherm u)).ceiling =
    if (d.zone (zoneOfTherm u)).ceiling = 8 then 7 else (d.zone (zoneOfTherm u)).ceiling

theorem Dev.enforce_begins {u : ThermUnit} (idle : (d.zone (zoneOfTherm u)).enforcing = false) (q : ThrottleReq) :
    d.BeginsToEnforce u q (d.enforce u q) := by
  unfold Dev.enforce
  extract_lets z d1 d2
  rw [if_neg (by simp [z, idle])]
  have zone_eq : ((d2.event 0x0603 (0x50 + z.val) [b8 (unitOfTherm u)]).withdrawZone z).zone z = d2.zone z := by
    rw [Dev.zone, Dev.withdrawZone_therm, Dev.event_therm, Dev.zone]
  have begun : d2.zone z = _ := Tab.get_modify_self ..
  refine ⟨?_, ?_, ?_, ?_⟩
  · have kept : d2.reqOf u = d1.reqOf u := Dev.reqOf_modZone u z fun _ => rfl
    rw [Dev.reqOf_withdrawZone, Dev.reqOf_event, kept, Dev.reqOf_setReq]
  · exact (congrArg Zone.enforcing (zone_eq.trans begun) :)
  · exact (congrArg Zone.stepAt (zone_eq.trans begun) :)
  · refine (congrArg Zone.ceiling (zone_eq.trans begun) :).trans ?_
    have same : (d1.zone z).ceiling = (d.zone z).ceiling := Dev.setReq_zone (fun _ _ => rfl) u _ z
    exact congrArg (fun n => if n = 8 then 7 else n) same

end

/-! ### The events -/

section
variable {s : State} {dt : Nat}

theorem execZoneHardStop_live (live : (s.turn dt).dev.thermLive = true) (z : ZoneId) :
    exec (.zoneHardStop dt z) s = .next (s.after dt fun d => d.enterHalted 4 0 true) := by
  refine congrArg Host.Outcome.next (State.after_congr ?_)
  simp only [live, if_true]

/-- A reading of all zones, taken now. -/
def Dev.readZones (d : Dev) (readings : Tab Int 8) : Dev :=
  ({ d with therm := { d.therm with readAt := d.now } } : Dev).zoneReadings readings

theorem Dev.readZones_reading {d : Dev} {z : ZoneId} (measured : (d.zone z).st = .measured) (readings : Tab Int 8) :
    ((d.readZones readings).zone z).reading = readings.get z ∧ (d.readZones readings).therm.readAt = d.now := by
  obtain ⟨reading, readAt⟩ := Dev.zoneReadings_reading (d := { d with therm := { d.therm with readAt := d.now } }) measured readings
  rw [Dev.readZones, reading, readAt]
  exact ⟨rfl, rfl⟩

theorem execZoneReading_due (live : (s.turn dt).dev.thermLive = true)
    (late : (s.turn dt).dev.therm.readAt + 50 * usec ≤ (s.turn dt).dev.now) (readings : Tab Int 8) :
    exec (.zoneReading dt readings) s = .next (s.after dt fun d => d.readZones readings) := by
  refine congrArg Host.Outcome.next (State.after_congr ?_)
  simp only [live, late, decide_true, Bool.and_self, if_true]
  rfl

section
variable {u : ThermUnit} {q : ThrottleReq} (waits : (s.turn dt).dev.reqOf u = some q) (grace : q.enforcing = false)
  (late : q.graceEnd ≤ (s.turn dt).dev.now)
include waits grace late

theorem execThrottleGraceEnd_cool (cool : (s.turn dt).dev.compared u < (s.turn dt).dev.throt u) :
    exec (.throttleGraceEnd dt u) s = .next (s.after dt fun d => d.throttleEnd u q) := by
  refine congrArg Host.Outcome.next (State.after_congr ?_)
  simp only [waits, grace, Nat.not_lt.2 late, cool, decide_false, Bool.or_self, Bool.false_eq_true, if_false, if_true]

theorem execThrottleGraceEnd_hot (hot : (s.turn dt).dev.throt u ≤ (s.turn dt).dev.compared u) :
    exec (.throttleGraceEnd dt u) s = .next (s.after dt fun d => d.enforce u q) := by
  refine congrArg Host.Outcome.next (State.after_congr ?_)
  simp only [waits, grace, Nat.not_lt.2 late, Rat.not_lt.2 hot, decide_false, Bool.or_self, Bool.false_eq_true, if_false]

end

/-- One step of the ceiling of a zone, due at `t`; `hot` tells an enforcing request at or over its threshold (13 R368). -/
def Zone.ceilingStep (t : Nat) (hot : Bool) (x : Zone) : Zone :=
  if x.enforcing then { x with ceiling := if hot then max 1 (x.ceiling - 1) else x.ceiling, stepAt := some (t + 50 * msec) }
  else { x with ceiling := min 8 (x.ceiling + 1), stepAt := if 7 ≤ x.ceiling then none else some (t + 50 * msec) }

theorem execCeilingStep_due {z : ZoneId} {t : Nat} (steps : ((s.turn dt).dev.zone z).stepAt = some t)
    (late : t ≤ (s.turn dt).dev.now) :
    exec (.ceilingStep dt z) s = .next (s.after dt fun d => d.modZone z
      (Zone.ceilingStep t ((zoneUnits z).any fun u => d.enforces u && decide (d.throt u ≤ d.compared u)))) := by
  refine congrArg Host.Outcome.next (State.after_congr ?_)
  simp only [steps, Nat.not_lt.2 late, if_false]
  rfl

/-- A sensor check that has passed: the zone is suspect until its readings agree again (13 R375). -/
def Dev.zoneCheckPassed (d : Dev) (z : ZoneId) : Dev :=
  ((d.modZone z fun x => { x with
      checkEnds := none, disagree := 0, agree := 0, checkPassed := true, checkAfter := d.now + 10000 * msec
      st := if x.healthy then .suspect else x.st }).unitChecked (0x50 + z.val) 0x81 .transient 2000).settleZoneVoices z false

theorem execZoneCheckDone_passed {z : ZoneId} {t : Nat} (ends : ((s.turn dt).dev.zone z).checkEnds = some t)
    (late : t ≤ (s.turn dt).dev.now) (healthy : ((s.turn dt).dev.zone z).healthy = true) :
    exec (.zoneCheckDone dt z .passed) s = .next (s.after dt fun d => d.zoneCheckPassed z) := by
  refine congrArg Host.Outcome.next (State.after_congr ?_)
  simp only [ends, Nat.not_lt.2 late, healthy, if_false, if_true, outcomeOf]
  rfl

theorem Dev.zoneCheckPassed_zone {d : Dev} {z : ZoneId} (healthy : (d.zone z).healthy = true) :
    (d.zoneCheckPassed z).zone z = { d.zone z with
      checkEnds := none, disagree := 0, agree := 0, checkPassed := true, checkAfter := d.now + 10000 * msec, st := .suspect } := by
  have k : (d.zoneCheckPassed z).Keeps (· ≠ .therm) (d.modZone z fun x => { x with
      checkEnds := none, disagree := 0, agree := 0, checkPassed := true, checkAfter := d.now + 10000 * msec
      st := if x.healthy then .suspect else x.st }) := by
    apply Dev.settleZoneVoices_keeps <;> first | decide | skip
    apply Dev.unitChecked_keeps <;> first | decide | exact .refl _
  rw [Dev.zone, k.frame .therm (by decide), Dev.modZone_therm, Tab.get_modify_self,
    show d.therm.zones.get z = d.zone z from rfl, if_pos healthy]

end

/-- The zone of a device after a command. -/
theorem State.after_zone (s : State) (dt : Nat) (f : Dev → Dev) (z : ZoneId) :
    (s.after dt f).dev.zone z = (f (s.turn dt).dev).zone z := by
  rw [Dev.zone, State.after_therm, Dev.zone]

theorem State.after_reqOf (s : State) (dt : Nat) (f : Dev → Dev) (u : ThermUnit) :
    (s.after dt f).dev.reqOf u = (f (s.turn dt).dev).reqOf u := by
  cases u with
  | voice v => rw [Dev.reqOf, State.after_voice, Dev.reqOf]
  | zone z => rw [Dev.reqOf, State.after_zone, Dev.reqOf]

end Sys2Proof.Machine

namespace Sys2Proof
open Machine

/-- Settles O47: a reading through `Dev.readings`, which nothing else moves, a grace time through what enforcing begins, and a
check through the zone that it leaves. -/
theorem zoneEventsAct : Obligations.ZoneEventsAct := by
  intro s dt z d
  refine ⟨fun live running => ⟨_, execZoneHardStop_live live z, ?stop⟩,
    fun readings live late measured => ⟨_, execZoneReading_due live late readings, ?reading⟩,
    fun u q waits grace late cool => ⟨_, execThrottleGraceEnd_cool waits grace late cool, ?cool⟩,
    fun u q waits grace late hot idle => ⟨_, execThrottleGraceEnd_hot waits grace late hot, ?hot⟩,
    fun x steps late rising => ⟨_, execCeilingStep_due steps late, ?rising⟩,
    fun x steps late falling hot => ⟨_, execCeilingStep_due steps late, ?falling⟩,
    fun x ends late healthy => ⟨_, execZoneCheckDone_passed ends late healthy, ?passed⟩⟩
  case stop =>
    rw [State.after_ctl, Dev.enterHalted_ctl running]
    exact ⟨rfl, rfl⟩
  case reading =>
    obtain ⟨read, readAt⟩ := Dev.readZones_reading (d := d) measured readings
    rw [State.after_zone, State.after_therm, read, readAt]
    exact ⟨rfl, rfl⟩
  case cool =>
    rw [State.after_reqOf]
    exact Dev.throttleEnd_reqOf u q
  case hot =>
    rw [State.after_reqOf, State.after_zone]
    obtain ⟨req, enforcing, stepAt, ceiling⟩ := Dev.enforce_begins idle q
    exact ⟨req, enforcing, stepAt, ceiling⟩
  case rising =>
    have other_zones (y : ZoneId) (other : y ≠ z) : (s.after dt fun d => d.modZone z (Zone.ceilingStep x
        ((zoneUnits z).any fun u => d.enforces u && decide (d.throt u ≤ d.compared u)))).dev.zone y = d.zone y := by
      rw [State.after_zone]
      exact Tab.get_modify_ne _ _ other
    have stepped : (s.after dt fun d => d.modZone z (Zone.ceilingStep x
        ((zoneUnits z).any fun u => d.enforces u && decide (d.throt u ≤ d.compared u)))).dev.zone z = { d.zone z with
          ceiling := min 8 ((d.zone z).ceiling + 1), stepAt := if 7 ≤ (d.zone z).ceiling then none else some (x + 50 * msec) } := by
      rw [State.after_zone]
      exact (Tab.get_modify_self ..).trans (if_neg (by rw [show d.therm.zones.get z = d.zone z from rfl, rising]; decide))
    rw [stepped]
    exact ⟨rfl, rfl, other_zones⟩
  case falling =>
    rw [State.after_zone, hot]
    exact (congrArg Zone.ceiling (Tab.get_modify_self ..)).trans (congrArg Zone.ceiling (if_pos falling))
  case passed =>
    rw [State.after_zone, Dev.zoneCheckPassed_zone healthy]
    exact ⟨rfl, rfl, rfl, rfl⟩

end Sys2Proof

/-! SUPPORT. O31, O32: start-up and its ends, the keep-alive machinery and the sanity checks (01 R25, R26, R35, 02 R38 to R47, R66,
17 R491, R503). -/

namespace Sys2Proof.Machine
open Sys2Proof

section
variable {d : Dev}

/-! ### POR and power-on (02 R38, 17 R503) -/

theorem Dev.rawCollapse_same : d.rawCollapse.Keeps (· ∈ [.port, .log, .nv]) d :=
  Dev.rawCollapse_keeps (by decide) (by decide) (by decide) (.refl _)

theorem Dev.held_now : d.held.now = d.now := by
  have time_same : d.rawCollapse.time = d.time := Dev.rawCollapse_same.frame .time (by decide)
  exact (congrArg TimeBase.now time_same :)

theorem Dev.held_score : d.held.score = d.score := by
  have score_same : d.rawCollapse.score = d.score := Dev.rawCollapse_same.frame .score (by decide)
  exact score_same

/-- The device that POR holds, whether it held it already or holds it now. -/
def Dev.heldAtPowerOn (d : Dev) : Dev := if d.ctl.por then d else d.held

/-- The device at t0. -/
def Dev.powerOn (d : Dev) (banks : Tab Bool 4) : Dev :=
  let d1 := d.heldAtPowerOn
  let now := d1.now
  { d1 with
    time := { d1.time with tbc := 0, k := 0, phase := .first, measureAt := now }
    ctl := { d1.ctl with por := false, bootAt := now, scoreSilent := !d1.score.powered }
    odo := .atStart d1.score.powered
    link := { ScoreLink.reset with publishedAt := now }
    banks := banks.map fun b => { Bank.reset with present := b }
    tally := Tab.ofFn fun i => { TallyInput.reset with
      level := d1.score.levels.get i, levelSince := if d1.score.powered then some now else none }
    score := { d1.score with powerFail := false } }

theorem Dev.heldAtPowerOn_mode (starting : d.ctl.mode = .starting) : d.heldAtPowerOn.ctl.mode = .starting := by
  unfold Dev.heldAtPowerOn
  split
  · exact starting
  · rfl

theorem Dev.heldAtPowerOn_now : d.heldAtPowerOn.now = d.now := by
  unfold Dev.heldAtPowerOn
  split
  · rfl
  · exact Dev.held_now

theorem Dev.powerOn_bank (banks : Tab Bool 4) (b : BankId) :
    (d.powerOn banks).banks.get b = { Bank.reset with present := banks.get b } := Tab.get_map ..

/-! ### A restart of the control die (02 R66) -/

theorem Dev.beforeRestart_time : ((d.forVoices (idx 48) fun d v => d.turnOff v .forced).rawStop false).time = d.time := by
  have k : ((d.forVoices (idx 48) fun d v => d.turnOff v .forced).rawStop false).Keeps (· ≠ .time) d := by
    apply Dev.rawStop_keeps <;> first | decide | skip
    refine Dev.forVoices_keeps (.refl _) (fun x hx v => ?_) _
    apply Dev.turnOff_keeps <;> first | decide | exact hx
  exact k.frame .time (by decide)

theorem Dev.beforeRestart_ka : ((d.forVoices (idx 48) fun d v => d.turnOff v .forced).rawStop false).ka = d.ka := by
  have k : ((d.forVoices (idx 48) fun d v => d.turnOff v .forced).rawStop false).Keeps (· ≠ .ka) d := by
    apply Dev.rawStop_keeps <;> first | decide | skip
    refine Dev.forVoices_keeps (.refl _) (fun x hx v => ?_) _
    apply Dev.turnOff_keeps <;> first | decide | exact hx
  exact k.frame .ka (by decide)

theorem Dev.restart_ka (cause hold : Nat) : (d.restart cause hold).ka = { d.ka with
    badEchoes := 0, held := d.ka.held || decide (cause = 3), firstFrame := false, lastFrame := none
    releasedAt := if cause = 3 then some (d.now + hold) else none } := by
  unfold Dev.restart
  exact congrArg (fun k : KeepAlive => { k with
    badEchoes := 0, held := k.held || decide (cause = 3), firstFrame := false, lastFrame := none
    releasedAt := if cause = 3 then some (d.now + hold) else none }) Dev.beforeRestart_ka

/-- What a keep-alive recovery leaves (01 R26). -/
theorem Dev.recover_ka : d.recover.ka = { d.ka with
    badEchoes := 0, held := true, firstFrame := false, lastFrame := none, recoveries := d.now :: d.ka.recoveries
    releasedAt := some (d.now + 10 * usec) } := by
  rw [Dev.recover, Dev.restart_ka, if_pos rfl, decide_eq_true rfl, Bool.or_true]
  rfl

/-! ### The end of control boot (02 R39, 14 R406) -/

/-- The control state without what the marker decision moves: SHUTDOWN_UNSAVED and the count of lost sessions. -/
def Control.besideMarker (c : Control) : Control := { c with unsaved := false, lostSessions := 0 }

theorem Dev.bootMarker_besideMarker (por : Bool) : (d.bootMarker por).ctl.besideMarker = d.ctl.besideMarker := by
  unfold Dev.bootMarker
  extract_lets fresh base lost
  split
  · have marked : d.consumeMarker.ctl = d.ctl :=
      (Dev.consumeMarker_keeps (W := (· ≠ .ctl)) (by decide) (.refl _)).frame .ctl (by decide)
    exact (congrArg Control.besideMarker marked :)
  · split
    · have kept (e : Dev) (value : List Byte) : (e.deviceRecord 2 value).ctl = e.ctl := by
        have k : (e.deviceRecord 2 value).Keeps (· ≠ .ctl) e := by
          apply Dev.deviceRecord_keeps <;> first | decide | exact .refl _
        exact k.frame .ctl (by decide)
      rw [kept]
      rfl
    · rfl

/-- The end of control boot starts the log, and counts a session as lost or as saved. -/
theorem Dev.bootEnd_besideMarker : d.bootEnd.ctl.besideMarker = ({ d.ctl with started := true } : Control).besideMarker := by
  unfold Dev.bootEnd
  extract_lets c d1
  have told (e : Dev) : e.tellRefAbsent.ctl = e.ctl :=
    (Dev.tellRefAbsent_keeps (W := (· ≠ .ctl)) (by decide) (by decide) (by decide) (.refl _)).frame .ctl (by decide)
  have start (e : Dev) : e.startEvent.ctl.besideMarker = { e.ctl.besideMarker with started := true } := rfl
  rw [told, start, Dev.bootMarker_besideMarker]
  rfl

theorem Dev.bootEnd_mode : d.bootEnd.ctl.mode = d.ctl.mode := (congrArg Control.mode Dev.bootEnd_besideMarker :)

theorem Dev.bootEnd_started : d.bootEnd.ctl.started = true := (congrArg Control.started Dev.bootEnd_besideMarker :)

/-- The parts that the end of control boot may move. -/
theorem Dev.bootEnd_same : d.bootEnd.Keeps (· ∈ [.time, .ctl, .port, .log, .sc, .nv, .chain]) d := by
  apply Dev.bootEnd_keeps <;> first | decide | exact .refl _

theorem Dev.bootEnd_head : d.bootEnd.chain.head = d.headPin := by
  unfold Dev.bootEnd
  extract_lets c d1
  have k : ((d1.bootMarker d1.ctl.fromPor).startEvent).tellRefAbsent.Keeps (· ≠ .chain) d1 := by
    apply Dev.tellRefAbsent_keeps <;> first | decide | skip
    apply Dev.startEvent_keeps <;> first | decide | skip
    apply Dev.bootMarker_keeps <;> first | decide | exact .refl _
  rw [k.frame .chain (by decide)]

theorem Dev.bootEnd_now : d.bootEnd.now = d.now := by
  unfold Dev.bootEnd
  extract_lets c d1
  have told (e : Dev) : e.tellRefAbsent.now = e.now := by
    unfold Dev.tellRefAbsent
    split
    · exact (congrArg TimeBase.now (Dev.event_time ..) :)
    · rfl
  have k : (d1.bootMarker d1.ctl.fromPor).startEvent.Keeps (· ≠ .time) d1 := by
    apply Dev.startEvent_keeps <;> first | decide | skip
    apply Dev.bootMarker_keeps <;> first | decide | exact .refl _
  rw [told]
  exact congrArg TimeBase.now (k.frame .time (by decide))

/-- Control boot at its end, with HEAD sampled and the first readings of the zones taken. -/
def Dev.booted (d : Dev) (zones : Tab Int 8) (head : Bool) : Dev := (({ d with headPin := head } : Dev).firstReadings zones).bootEnd

theorem Dev.booted_same (zones : Tab Int 8) (head : Bool) :
    (d.booted zones head).Keeps (· ∈ [.time, .ctl, .port, .log, .sc, .nv, .chain, .voices, .therm]) { d with headPin := head } := by
  refine (Dev.bootEnd_same.mono fun p hp => ?_).trans ?_
  · exact List.mem_append_left [.voices, .therm] hp
  · exact Dev.firstReadings_keeps (by decide) (by decide) (.refl _) zones

theorem Dev.booted_now (zones : Tab Int 8) (head : Bool) : (d.booted zones head).now = d.now := Dev.bootEnd_now

theorem Dev.booted_ka (zones : Tab Int 8) (head : Bool) : (d.booted zones head).ka = d.ka :=
  (Dev.booted_same zones head).frame .ka (by decide)

theorem Dev.booted_recoveries (zones : Tab Int 8) (head : Bool) : (d.booted zones head).recoveries = d.recoveries := by
  rw [Dev.recoveries, Dev.booted_now, Dev.booted_ka, Dev.recoveries]

/-- A cappella is live (02 R41). -/
theorem Dev.goLive_same : d.goLive.Keeps (· ∈ [.port, .log, .lh, .sc, .conv, .therm, .nv, .banks])
    (d.setCtl fun c => { c with mode := .acappella, liveAt := some d.now }) := by
  unfold Dev.goLive
  extract_lets d1 l0 d2
  apply Dev.coldCheck_keeps <;> first | decide | skip
  apply Dev.engineStart_keeps <;> first | decide | skip
  exact Dev.Keeps.banks_lh (.refl _) (by decide) (by decide) _ _

theorem Dev.goLive_bank (b : BankId) : (d.goLive.banks.get b).conducting = true := by
  unfold Dev.goLive
  extract_lets d1 l0 d2
  have k : d2.engineStart.coldCheck.Keeps (· ≠ .banks) d2 := by
    apply Dev.coldCheck_keeps <;> first | decide | skip
    exact Dev.engineStart_keeps (by decide) (.refl _)
  rw [k.frame .banks (by decide)]
  exact congrArg Bank.conducting (Tab.get_map ..)

end

/-! ### The events of start-up -/

section
variable {s : State} {dt : Nat}

theorem execPowerOnReset_starting (starting : (s.turn dt).dev.ctl.mode = .starting) (banks : Tab Bool 4) :
    exec (.powerOnReset dt banks) s = .next (s.after dt fun d => d.powerOn banks) := by
  refine congrArg Host.Outcome.next (State.after_congr ?_)
  exact if_pos (by simp only [starting, decide_true, Bool.or_true])

/-- What control boot leads to once it may end (08 R245, 01 R26). -/
def Dev.bootOutcome (d : Dev) (boot : BootFinds) : Dev :=
  let d1 := d.booted boot.zones boot.head
  if 3 ≤ d1.recoveries.length then d1.enterHalted 6 5 false
  else if boot.zones.any (fun z => decide (1600 ≤ z)) then d1.enterHalted 4 0 false
  else d1.goLive

section
variable (starting : (s.turn dt).dev.ctl.mode = .starting) (no_por : (s.turn dt).dev.ctl.por = false)
include starting no_por

theorem execControlBootDone_due (ok : (s.turn dt).dev.time.fallbackOk = true)
    (late : (s.turn dt).dev.ctl.bootAt ≤ (s.turn dt).dev.now) (boot : BootFinds) :
    exec (.controlBootDone dt boot) s = .next (s.after dt fun d => d.bootOutcome boot) := by
  refine congrArg Host.Outcome.next (State.after_congr ?_)
  exact if_pos (by simp only [starting, no_por, ok, late, decide_true, Bool.not_false, Bool.and_self])

theorem execBootTimeout_due (late : (s.turn dt).dev.ctl.bootAt + 10 * msec ≤ (s.turn dt).dev.now) (cause : BootFailure) :
    exec (.bootTimeout dt cause) s = .next (s.after dt fun d => d.bootEnd.enterHalted (match cause with
      | .romCrc => 1
      | .otpTrims => 2
      | .powerDieSilent => 3) 0 false) := by
  refine congrArg Host.Outcome.next (State.after_congr ?_)
  exact if_pos (by simp only [starting, no_por, late, decide_true, Bool.not_false, Bool.and_self])

end

theorem execRstn_powered (no_por : (s.turn dt).dev.ctl.por = false) (low : Nat) :
    exec (.rstn ⟨dt, low⟩) s = .next (s.after dt fun d => d.restart 1 (8 * low)) := by
  refine congrArg Host.Outcome.next (State.after_congr ?_)
  exact if_neg (by simp only [no_por, Bool.false_eq_true, not_false_eq_true])

theorem execPorAssert_powered (no_por : (s.turn dt).dev.ctl.por = false) :
    exec (.porAssert dt) s = .next (s.after dt Dev.held) := by
  refine congrArg Host.Outcome.next (State.after_congr ?_)
  exact if_neg (by simp only [no_por, Bool.false_eq_true, not_false_eq_true])

theorem execParkedRestart_due (parked : (s.turn dt).dev.ctl.parkedByPower = true) (ended : (s.turn dt).dev.pd.step = .done)
    (running : (s.turn dt).dev.ctl.mode ≠ .halted) (late : (s.turn dt).dev.pd.at_ + 100 * msec ≤ (s.turn dt).dev.now) :
    exec (.parkedRestart dt) s = .next (s.after dt fun d => (d.restart 0 0).setScore fun x => { x with powerFail := false }) := by
  refine congrArg Host.Outcome.next (State.after_congr ?_)
  exact if_pos (by simp only [parked, ended, running, late, ne_eq, not_false_eq_true, decide_true, Bool.and_self])

section
variable {d : Dev} (starting : d.ctl.mode = .starting) (few : d.recoveries.length < 3)
include few

theorem Dev.bootOutcome_live {boot : BootFinds} (cool : ∀ z : ZoneId, boot.zones.get z < 1600) :
    d.bootOutcome boot = (d.booted boot.zones boot.head).goLive := by
  have none_hot : ¬ boot.zones.any (fun z => decide (1600 ≤ z)) = true := by
    rw [Bool.not_eq_true, Tab.any, List.any_eq_false]
    intro t mem
    obtain ⟨z, rfl⟩ := Tab.mem_list_iff.1 mem
    simpa using cool z
  simp only [Dev.bootOutcome, Dev.booted_recoveries, Nat.not_le.2 few, if_false, none_hot, Bool.false_eq_true]

theorem Dev.bootOutcome_hot {boot : BootFinds} {z : ZoneId} (hot : 1600 ≤ boot.zones.get z) :
    d.bootOutcome boot = (d.booted boot.zones boot.head).enterHalted 4 0 false := by
  have some_hot : boot.zones.any (fun z => decide (1600 ≤ z)) = true :=
    List.any_eq_true.2 ⟨_, Tab.mem_list_iff.2 ⟨z, rfl⟩, decide_eq_true hot⟩
  simp only [Dev.bootOutcome, Dev.booted_recoveries, Nat.not_le.2 few, if_false, some_hot, if_true]

omit few

include starting

theorem Dev.booted_mode (zones : Tab Int 8) (head : Bool) : (d.booted zones head).ctl.mode = .starting :=
  Dev.bootEnd_mode.trans starting

theorem Dev.booted_running (zones : Tab Int 8) (head : Bool) : (d.booted zones head).ctl.mode ≠ .halted := by
  rw [Dev.booted_mode starting]
  exact Mode.noConfusion

omit starting

/-- A cappella from the end of control boot on. -/
structure Dev.Live (d e : Dev) (head : Bool) : Prop where
  mode : e.ctl.mode = .acappella
  started : e.ctl.started = true
  liveAt : e.ctl.liveAt = some d.now
  ka : e.ka = d.ka
  headPin : e.headPin = head
  head : e.chain.head = head
  conducting : ∀ b : BankId, (e.banks.get b).conducting = true

theorem Dev.booted_goLive (zones : Tab Int 8) (head : Bool) : d.Live (d.booted zones head).goLive head := by
  have same : (d.booted zones head).goLive.Keeps _ _ := Dev.goLive_same
  have ctl : (d.booted zones head).goLive.ctl =
      { (d.booted zones head).ctl with mode := .acappella, liveAt := some (d.booted zones head).now } :=
    same.frame .ctl (by decide)
  refine ⟨?_, ?_, ?_, ?_, ?_, ?_, fun b => Dev.goLive_bank b⟩
  · rw [ctl]
  · rw [ctl]
    exact Dev.bootEnd_started
  · rw [ctl, Dev.booted_now]
  · exact (same.frame .ka (by decide)).trans (Dev.booted_ka ..)
  · exact (same.frame .headPin (by decide)).trans ((Dev.booted_same zones head).frame .headPin (by decide))
  · exact (congrArg Chain.head (same.frame .chain (by decide))).trans Dev.bootEnd_head

end

end

end Sys2Proof.Machine

namespace Sys2Proof
open Machine

/-- Settles O31: power-on and POR through `Dev.held`, control boot through `Dev.bootOutcome`, and the restarts through what
`Dev.restart` takes along. -/
theorem startUpEventsAct : Obligations.StartUpEventsAct := by
  intro s dt d
  refine ⟨fun present starting => ⟨_, execPowerOnReset_starting starting present, ?power⟩,
    fun zones head starting no_por ok late cool few => ⟨_, execControlBootDone_due starting no_por ok late _, ?live⟩,
    fun zones head z starting no_por ok late hot few => ⟨_, execControlBootDone_due starting no_por ok late _, ?hot⟩,
    fun cause starting no_por late => ⟨_, execBootTimeout_due starting no_por late cause, ?timeout⟩,
    fun no_por low => ⟨_, execRstn_powered no_por low, ?rstn⟩,
    fun no_por => ⟨_, execPorAssert_powered no_por, ?por⟩,
    fun parked ended running late => ⟨_, execParkedRestart_due parked ended running late, ?parked⟩⟩
  case power =>
    rw [State.after_ctl, State.after_time, State.after_banks]
    refine ⟨Dev.heldAtPowerOn_mode starting, rfl, Dev.heldAtPowerOn_now, rfl, fun b => ?_⟩
    rw [Dev.powerOn_bank]
    exact ⟨rfl, rfl, rfl⟩
  case live =>
    rw [State.after_ctl, State.after_ka, State.after_headPin, State.after_chain, State.after_banks, Dev.bootOutcome_live few cool]
    obtain ⟨mode, started, liveAt, ka, headPin, chainHead, conducting⟩ := d.booted_goLive zones head
    exact ⟨mode, started, liveAt, ka, headPin, chainHead, conducting⟩
  case hot =>
    rw [State.after_ctl, Dev.bootOutcome_hot few hot, Dev.enterHalted_ctl (Dev.booted_running starting zones head)]
    exact ⟨rfl, rfl⟩
  case timeout =>
    have running : d.bootEnd.ctl.mode ≠ .halted := by
      rw [Dev.bootEnd_mode, starting]
      exact Mode.noConfusion
    rw [State.after_ctl, Dev.enterHalted_ctl running]
    exact ⟨rfl, rfl⟩
  case rstn =>
    rw [State.after_snap_of_starting rfl, State.after_ctl, State.after_time, State.after_isOpen, State.after_barNo, State.after_par,
      State.after_score, Dev.restart_score]
    exact ⟨rfl, rfl, rfl, rfl, rfl, rfl, rfl, rfl, rfl⟩
  case por =>
    rw [State.after_ctl, State.after_isOpen, State.after_par, State.after_score, Dev.held_score]
    exact ⟨rfl, rfl, rfl, rfl, rfl⟩
  case parked =>
    rw [State.after_ctl, State.after_score, State.after_pd]
    exact ⟨rfl, rfl, rfl, rfl⟩

end Sys2Proof

/-! SUPPORT. O32: the keep-alive machinery and the sanity checks (01 R25, R26, R35). -/

namespace Sys2Proof.Machine
open Sys2Proof

section
variable {d : Dev}

/-! ### HALTED for a failed check, out of control boot too (01 R35) -/

/-- The device halts with cause 6; a control boot under way ends so. -/
def Dev.failCheck (d : Dev) (detail : Nat) : Dev := (if d.ctl.started then d else d.bootEnd).enterHalted 6 detail false

/-- HALTED with cause 6, from the end of control boot on. -/
structure Dev.FailedCheck (e : Dev) (detail : Nat) : Prop where
  mode : e.ctl.mode = .halted
  haltCause : e.ctl.haltCause = 6
  haltDetail : e.ctl.haltDetail = detail
  started : e.ctl.started = true

theorem Dev.failCheck_failed (running : d.ctl.mode ≠ .halted) (detail : Nat) : (d.failCheck detail).FailedCheck detail := by
  unfold Dev.failCheck
  split
  · next started =>
    have ctl := Dev.enterHalted_ctl running 6 detail false
    exact ⟨by rw [ctl], by rw [ctl], by rw [ctl], by rw [ctl]; exact started⟩
  · have running' : d.bootEnd.ctl.mode ≠ .halted := by rwa [Dev.bootEnd_mode]
    have ctl := Dev.enterHalted_ctl running' 6 detail false
    exact ⟨by rw [ctl], by rw [ctl], by rw [ctl], by rw [ctl]; exact Dev.bootEnd_started⟩

/-! ### Frames of the keep-alive (01 R19, R25) -/

/-- A frame that has come is counted; `bad` wrong echoes have come in a row. -/
def Dev.frameSeen (d : Dev) (bad : Nat) : Dev :=
  let cleared := !d.ka.firstFrame && (d.ctl.startCause = 1 || d.ctl.startCause = 2)
  { d with ka := { d.ka with
    badEchoes := bad, firstFrame := true, releasedAt := none, lastFrame := some d.now, held := d.ka.held && !(d.bootDone && !d.dropping)
    recoveries := if cleared then [] else d.ka.recoveries } }

/-- A frame of the keep-alive is due. -/
structure Dev.FrameDue (d : Dev) : Prop where
  no_por : d.ctl.por = false
  boots : d.ctl.bootAt ≤ d.now
  late : ∀ x, d.ka.lastFrame = some x → x + 10 * usec ≤ d.now

theorem Dev.FrameDue.open_ (due : d.FrameDue) :
    (d.ctl.por || d.now < d.ctl.bootAt || d.ka.lastFrame.any (fun t => d.now < t + 10 * usec)) = false := by
  have apart : d.ka.lastFrame.any (fun t => d.now < t + 10 * usec) = false := by
    cases last : d.ka.lastFrame with
    | none => rfl
    | some x => exact decide_eq_false (Nat.not_lt.2 (due.late x last))
  rw [due.no_por, apart, decide_eq_false (Nat.not_lt.2 due.boots)]
  rfl

/-! ### The loss of the keep-alive (01 R25, R26) -/

/-- The voices that the loss turns off. -/
def Dev.drivenVoices (d : Dev) : List VoiceId := (idx 48).filter fun v => (d.voice v).driven

/-- The power die holds every voice off from the loss on. -/
def Dev.holdOff (d : Dev) : Dev := { d with ka := { d.ka with held := true } }

/-- The keep-alive is lost: the restart follows the last driven voice. -/
def Dev.keepAliveLost (d : Dev) : Dev :=
  let d1 := d.holdOff.stagger .keepAlive d.drivenVoices
  if d1.dropping then d1 else d1.recover

theorem Dev.dropping_of_no_staggers (none_runs : d.staggers = []) : d.dropping = false := by
  rw [Dev.dropping, none_runs]
  rfl

/-- No voice is driven: the restart follows at once. -/
theorem Dev.keepAliveLost_of_off (none_runs : d.staggers = []) (off : ∀ v : VoiceId, (d.voice v).driven = false) :
    d.keepAliveLost = d.holdOff.recover := by
  have none_driven : d.drivenVoices = [] := by
    rw [Dev.drivenVoices, List.filter_eq_nil_iff]
    exact fun v _ => by simp [off v]
  have still : d.holdOff.dropping = false := Dev.dropping_of_no_staggers none_runs
  unfold Dev.keepAliveLost
  rw [none_driven]
  exact if_neg (by rw [show d.holdOff.stagger .keepAlive [] = d.holdOff from rfl, still]; decide)

/-- Of the driven voices one turns off now; the others follow. -/
theorem Dev.stagger_keepAlive_drops {v : VoiceId} {rest : List VoiceId} {u : VoiceId} (other : u ≠ v) (named : u ∈ rest)
    (driven : (d.voice u).driven = true) : (d.stagger .keepAlive (v :: rest)).dropping = true ∧
      (d.stagger .keepAlive (v :: rest)).staggers ≠ [] ∧
      (d.stagger .keepAlive (v :: rest)).Keeps (· ∈ [.port, .log, .voices, .therm, .chain, .staggers]) d := by
  have waits : u ∈ rest.filter fun w => ((d.turnOff v .forced).voice w).driven := by
    rw [List.mem_filter, Dev.turnOff_voice_ne d .forced other]
    exact ⟨named, driven⟩
  have some_left : ¬ (rest.filter fun w => ((d.turnOff v .forced).voice w).driven).isEmpty = true := by
    rw [List.isEmpty_iff]
    exact List.ne_nil_of_mem waits
  have turned : (d.turnOff v .forced).Keeps (· ∈ [.port, .log, .voices, .therm, .chain, .staggers]) d := by
    apply Dev.turnOff_keeps <;> first | decide | exact .refl _
  rw [show d.stagger .keepAlive (v :: rest) = _ from if_neg some_left]
  refine ⟨?_, List.append_ne_nil_of_right_ne_nil _ (by simp), turned.staggers (by decide) _⟩
  rw [Dev.dropping, List.any_append]
  simp

/-- Two voices are driven: the drop goes on, and the mode stands. -/
theorem Dev.keepAliveLost_of_driven {u v : VoiceId} (distinct : u ≠ v) (u_driven : (d.voice u).driven = true)
    (v_driven : (d.voice v).driven = true) :
    d.keepAliveLost.ctl = d.ctl ∧ d.keepAliveLost.ka.held = true ∧ d.keepAliveLost.staggers ≠ [] := by
  have u_named : u ∈ d.drivenVoices := List.mem_filter.2 ⟨mem_idx u, u_driven⟩
  have v_named : v ∈ d.drivenVoices := List.mem_filter.2 ⟨mem_idx v, v_driven⟩
  unfold Dev.keepAliveLost
  dsimp only
  match vs : d.drivenVoices with
  | [] =>
    rw [vs] at u_named
    cases u_named
  | w :: rest =>
    rw [vs] at u_named v_named
    obtain ⟨x, other, named, driven⟩ : ∃ x, x ≠ w ∧ x ∈ rest ∧ (d.holdOff.voice x).driven = true := by
      by_cases first : u = w
      · have second : v ≠ w := fun same => distinct (first.trans same.symm)
        exact ⟨v, second, (List.mem_cons.1 v_named).resolve_left second, v_driven⟩
      · exact ⟨u, first, (List.mem_cons.1 u_named).resolve_left first, u_driven⟩
    obtain ⟨dropping, waiting, same⟩ := Dev.stagger_keepAlive_drops other named driven
    rw [if_pos dropping]
    refine ⟨same.frame .ctl (by decide), ?_, waiting⟩
    rw [show (d.holdOff.stagger .keepAlive (w :: rest)).ka = d.holdOff.ka from same.frame .ka (by decide)]
    rfl

/-- A voice gets no grant while the power die ignores gate commands (01 R26). -/
theorem Dev.grants_of_held (held : d.ka.held = true) : d.grants = d := if_pos held

end

/-! ### The events -/

section
variable {s : State} {dt : Nat}

section
variable (due : (s.turn dt).dev.FrameDue)
include due

theorem execKeepAliveFrame_right :
    exec (.keepAliveFrame dt true) s = .next (s.after dt fun d => d.frameSeen 0) := by
  refine congrArg Host.Outcome.next (State.after_congr ?_)
  exact if_neg (by rw [due.open_]; decide)

theorem execKeepAliveFrame_wrong (few : (s.turn dt).dev.ka.badEchoes < 2) :
    exec (.keepAliveFrame dt false) s = .next (s.after dt fun d => d.frameSeen (d.ka.badEchoes + 1)) := by
  refine congrArg Host.Outcome.next (State.after_congr ?_)
  refine (if_neg (by rw [due.open_]; decide)).trans (if_neg ?_)
  simp only [Bool.false_eq_true, if_false]
  omega

theorem execKeepAliveFrame_third (many : 2 ≤ (s.turn dt).dev.ka.badEchoes) :
    exec (.keepAliveFrame dt false) s = .next (s.after dt fun d => (d.frameSeen (d.ka.badEchoes + 1)).failCheck 4) := by
  refine congrArg Host.Outcome.next (State.after_congr ?_)
  refine (if_neg (by rw [due.open_]; decide)).trans (if_pos ?_)
  simp only [Bool.false_eq_true, if_false]
  omega

end

theorem execKeepAliveLoss_due {x : Nat} (no_por : (s.turn dt).dev.ctl.por = false) (running : (s.turn dt).dev.ctl.mode ≠ .halted)
    (last : (s.turn dt).dev.ka.lastFrame = some x) (late : x + 100 * usec ≤ (s.turn dt).dev.now)
    (none_runs : (s.turn dt).dev.staggers = []) :
    exec (.keepAliveLoss dt) s = .next (s.after dt Dev.keepAliveLost) := by
  refine congrArg Host.Outcome.next (State.after_congr ?_)
  refine if_neg ?_
  rw [no_por, last, Dev.dropping_of_no_staggers none_runs, decide_eq_false running]
  dsimp only
  rw [decide_eq_true late]
  decide

theorem execKeepAliveReassert_due {x : Nat} (released : (s.turn dt).dev.ka.releasedAt = some x)
    (no_por : (s.turn dt).dev.ctl.por = false) (waiting : (s.turn dt).dev.ka.firstFrame = false)
    (running : (s.turn dt).dev.ctl.mode ≠ .halted) (late : x + 10 * msec ≤ (s.turn dt).dev.now) :
    exec (.keepAliveReassert dt) s = .next (s.after dt Dev.recover) := by
  refine congrArg Host.Outcome.next (State.after_congr ?_)
  rw [released]
  exact if_pos (by simp only [no_por, waiting, running, late, ne_eq, not_false_eq_true, decide_true, Bool.not_false, Bool.and_self])

theorem execRomCrcCheck_wrong {crc : Word} (started : (s.turn dt).dev.ctl.started = true) (wrong : crc ≠ Config.romCrc) :
    exec (.romCrcCheck dt crc) s = .next (s.after dt fun d => d.enterHalted 6 1 false) := by
  refine congrArg Host.Outcome.next (State.after_congr ?_)
  exact if_pos (by simp only [started, wrong, ne_eq, not_false_eq_true, decide_true, Bool.and_self])

theorem execPatchCrcCheck_wrong {crc : Word} (active : (s.turn dt).dev.patch.st = .active) (wrong : crc ≠ (s.turn dt).dev.patch.crc) :
    exec (.patchCrcCheck dt crc) s = .next (s.after dt fun d => d.enterHalted 6 2 false) := by
  refine congrArg Host.Outcome.next (State.after_congr ?_)
  exact if_pos (by simp only [active, wrong, ne_eq, not_false_eq_true, decide_true, Bool.and_self])

/-- Words corrected by the scrub are counted (01 R35). -/
def Dev.scrubbed (d : Dev) (n : Nat) : Dev := d.setCtl fun c => { c with eccCorrected := stick 16 (c.eccCorrected + n) }

section
variable (no_por : (s.turn dt).dev.ctl.por = false)
include no_por

theorem execSramScrub_corrected (n : Nat) :
    exec (.sramScrub dt n false) s = .next (s.after dt fun d => d.scrubbed n) := by
  refine congrArg Host.Outcome.next (State.after_congr ?_)
  exact if_neg (by simp only [no_por, Bool.false_eq_true, not_false_eq_true])

theorem execSramScrub_uncorrectable (n : Nat) :
    exec (.sramScrub dt n true) s = .next (s.after dt fun d => (d.scrubbed n).failCheck 3) := by
  refine congrArg Host.Outcome.next (State.after_congr ?_)
  refine (if_neg (by simp only [no_por, Bool.false_eq_true, not_false_eq_true])).trans (if_pos rfl)

end

end

end Sys2Proof.Machine

namespace Sys2Proof
open Machine

/-- Settles O32: frames through `Dev.frameSeen`, the loss through the drop of the driven voices and `Dev.recover_ka`, and every
failed check through what HALTED leaves of the control state. -/
theorem keepAliveAndSanityChecksAct : Obligations.KeepAliveAndSanityChecksAct := by
  intro s dt d frameDue
  refine ⟨fun ⟨no_por, boots, late⟩ not_rstn not_soft => ⟨_, execKeepAliveFrame_right ⟨no_por, boots, late⟩, ?right⟩,
    fun held v => ?held,
    fun ⟨no_por, boots, late⟩ few => ⟨_, execKeepAliveFrame_wrong ⟨no_por, boots, late⟩ few, ?wrong⟩,
    fun ⟨no_por, boots, late⟩ many running => ⟨_, execKeepAliveFrame_third ⟨no_por, boots, late⟩ many, ?third⟩,
    fun x no_por running last late none_runs off => ⟨_, execKeepAliveLoss_due no_por running last late none_runs, ?lost⟩,
    fun x u v no_por running last late none_runs distinct u_driven v_driven =>
      ⟨_, execKeepAliveLoss_due no_por running last late none_runs, ?drops⟩,
    fun x released no_por waiting running late =>
      ⟨_, execKeepAliveReassert_due released no_por waiting running late, ?reassert⟩,
    fun crc started wrong running => ⟨_, execRomCrcCheck_wrong started wrong, ?rom⟩,
    fun crc active wrong running => ⟨_, execPatchCrcCheck_wrong active wrong, ?patch⟩,
    fun n no_por => ⟨_, execSramScrub_corrected no_por n, ?corrected⟩,
    fun n no_por running => ⟨_, execSramScrub_uncorrectable no_por n, ?uncorrectable⟩⟩
  case right =>
    have kept : d.frameSeen 0 = { d with ka := { d.ka with
        badEchoes := 0, firstFrame := true, releasedAt := none, lastFrame := some d.now
        held := d.ka.held && !(d.bootDone && !d.dropping) } } := by
      simp only [Dev.frameSeen, not_rstn, not_soft, decide_false, Bool.or_self, Bool.and_false, Bool.false_eq_true, if_false]
    rw [State.after_ka, kept]
    simp only [Dev.bootDone, bne, decide_not]
    rfl
  case held => rw [Dev.grants_of_held held]
  case wrong =>
    rw [State.after_ka, State.after_ctl]
    exact ⟨rfl, rfl⟩
  case third =>
    obtain ⟨mode, haltCause, haltDetail, started⟩ :=
      Dev.failCheck_failed (d := d.frameSeen (d.ka.badEchoes + 1)) running 4
    rw [State.after_ctl]
    exact ⟨mode, haltCause, haltDetail, started⟩
  case lost =>
    rw [State.after_ctl, State.after_ka, Dev.keepAliveLost_of_off none_runs off, Dev.recover_ka]
    exact ⟨rfl, rfl, rfl, rfl, rfl⟩
  case drops =>
    obtain ⟨ctl, held, waiting⟩ := Dev.keepAliveLost_of_driven distinct u_driven v_driven
    rw [State.after_ctl, State.after_ka, State.after_staggers, ctl]
    exact ⟨rfl, held, waiting⟩
  case reassert =>
    rw [State.after_ctl, State.after_ka, Dev.recover_ka]
    exact ⟨rfl, rfl, rfl, rfl⟩
  case rom =>
    rw [State.after_ctl, Dev.enterHalted_ctl running]
    exact ⟨rfl, rfl, rfl⟩
  case patch =>
    rw [State.after_ctl, Dev.enterHalted_ctl running]
    exact ⟨rfl, rfl, rfl⟩
  case corrected =>
    rw [State.after_ctl]
    rfl
  case uncorrectable =>
    obtain ⟨mode, haltCause, haltDetail, _⟩ := Dev.failCheck_failed (d := d.scrubbed n) running 3
    rw [State.after_ctl]
    exact ⟨mode, haltCause, haltDetail⟩

end Sys2Proof

/-! SUPPORT. O49: scans, triggers, conversions and urgent conversions (11 R303 to R314). -/

namespace Sys2Proof.Machine
open Sys2Proof

section
variable {d : Dev} {e : EngineId}

/-! ### One engine among the four -/

theorem Dev.modEngine_get_self (f : Engine → Engine) :
    (d.modEngine e f).conv.engines.get e = f (d.conv.engines.get e) := Tab.get_modify_self ..

theorem Dev.modEngine_get_ne {k : EngineId} (f : Engine → Engine) (other : k ≠ e) :
    (d.modEngine e f).conv.engines.get k = d.conv.engines.get k := Tab.get_modify_ne _ _ other

/-- The device without its engines. -/
def Dev.besideEngines (d : Dev) : Dev := { d with conv := { d.conv with engines := .fill 4 Engine.reset } }

/-- A step that moves one engine, by the engine itself and by what stands beside the engines. -/
structure OwnEngine (f : Dev → EngineId → Dev) : Prop where
  beside : ∀ d e, (f d e).besideEngines = d.besideEngines
  others : ∀ d e k, k ≠ e → (f d e).conv.engines.get k = d.conv.engines.get k
  congr : ∀ d d' e, d.besideEngines = d'.besideEngines → d.conv.engines.get e = d'.conv.engines.get e →
    (f d e).conv.engines.get e = (f d' e).conv.engines.get e

theorem OwnEngine.foldl_beside {f : Dev → EngineId → Dev} (own : OwnEngine f) (l : List EngineId) (d : Dev) :
    (l.foldl f d).besideEngines = d.besideEngines := Dev.foldl_same (fun x e _ => own.beside x e) d

theorem OwnEngine.foldl_not_mem {f : Dev → EngineId → Dev} (own : OwnEngine f) {l : List EngineId} (absent : e ∉ l) (d : Dev) :
    (l.foldl f d).conv.engines.get e = d.conv.engines.get e :=
  Dev.foldl_same (q := fun x => x.conv.engines.get e) (fun x k mem => own.others x k e fun same => absent (same ▸ mem)) d

/-- Over the engines one by one each is moved as it is alone. -/
theorem OwnEngine.foldl_get {f : Dev → EngineId → Dev} (own : OwnEngine f) {l : List EngineId} (once : l.Nodup) (mem : e ∈ l)
    (d : Dev) : (l.foldl f d).conv.engines.get e = (f d e).conv.engines.get e := by
  induction l generalizing d with
  | nil => cases mem
  | cons k l ih =>
    obtain ⟨absent, once⟩ := List.nodup_cons.1 once
    rw [List.foldl_cons]
    by_cases here : e = k
    · subst here
      exact own.foldl_not_mem absent _
    · rw [ih once ((List.mem_cons.1 mem).resolve_left here)]
      exact own.congr _ _ e (own.beside d k) (own.others d k e here)

theorem idx_nodup (n : Nat) : (idx n).Nodup := List.nodup_finRange n

/-! ### Scans (11 R303, R304) -/

/-- An engine after the start of a scan of `inputs` whose first sample falls at `first`. -/
def Engine.scanStarted (x : Engine) (e : EngineId) (inputs : List Nat) (first : Nat) (tbc : Int) (fallback : Bool) : Engine :=
  { x with
    scanNo := x.scanNo + 1
    todo := x.todo ++ inputs.mapIdx fun k i =>
      { scan := x.scanNo, input := i, slice := 2 * e.val + k % 2, at_ := first + 300 * k, corr := none, unit := none }
    log := ({ scan := x.scanNo, tbc := tbc, urgent := 0, fallbackTb := fallback } :: x.log).take 1024 }

theorem Dev.startScan_get (delay : Nat) : (d.startScan e delay).conv.engines.get e =
    (d.conv.engines.get e).scanStarted e (d.scanInputs e) (d.now + delay) (d.time.tbc + delay) d.time.onFallback :=
  Dev.modEngine_get_self _

theorem Dev.startScan_get_ne {k : EngineId} (delay : Nat) (other : k ≠ e) :
    (d.startScan e delay).conv.engines.get k = d.conv.engines.get k := Dev.modEngine_get_ne _ other

theorem Engine.scanStarted_inputs (x : Engine) (inputs : List Nat) (first : Nat) (tbc : Int) (fallback : Bool) :
    (x.scanStarted e inputs first tbc fallback).todo.map (·.input) = x.todo.map (·.input) ++ inputs := by
  rw [Engine.scanStarted, List.map_append]
  refine congrArg _ (List.ext_getElem (by simp) fun i h1 h2 => ?_)
  simp

/-! ### Triggers (11 R306, R307) -/

/-- A trigger edge at one engine. -/
def Dev.trigger (pin : Fin 2) (rising : Bool) (d : Dev) (e : EngineId) : Dev :=
  let x := d.conv.engines.get e
  if d.engEnabled e && trigSelects (d.engTrig e) pin rising && !x.paused then
    if x.todo.isEmpty then d.startScan e (atrgDelay e d.now)
    else d.modEngine e fun x => { x with trigOverrun := stick 16 (x.trigOverrun + 1) }
  else d

/-- What a trigger edge makes of an engine. -/
theorem Dev.trigger_get (pin : Fin 2) (rising : Bool) : (d.trigger pin rising e).conv.engines.get e =
    if d.engEnabled e = true ∧ trigSelects (d.engTrig e) pin rising = true ∧ (d.conv.engines.get e).paused = false then
      (if (d.conv.engines.get e).todo = [] then (d.startScan e (atrgDelay e d.now)).conv.engines.get e
       else { d.conv.engines.get e with trigOverrun := stick 16 ((d.conv.engines.get e).trigOverrun + 1) })
    else d.conv.engines.get e := by
  simp only [Dev.trigger, Bool.and_eq_true, Bool.not_eq_true', List.isEmpty_iff, and_assoc]
  split
  · split
    · rfl
    · exact Dev.modEngine_get_self _
  · rfl

theorem Dev.trigger_own (pin : Fin 2) (rising : Bool) : OwnEngine (Dev.trigger pin rising) where
  beside d e := by
    unfold Dev.trigger
    dsimp only
    split
    · split <;> rfl
    · rfl
  others d e k other := by
    unfold Dev.trigger
    dsimp only
    split
    · split
      · exact Dev.startScan_get_ne _ other
      · exact Dev.modEngine_get_ne _ other
    · rfl
  congr d d' e beside same := by
    have enabled : d.engEnabled e = d'.engEnabled e := (congrArg (Dev.engEnabled · e) beside :)
    have trig : d.engTrig e = d'.engTrig e := (congrArg (Dev.engTrig · e) beside :)
    have inputs : d.scanInputs e = d'.scanInputs e := (congrArg (Dev.scanInputs · e) beside :)
    have time_same : d.time = d'.time := (congrArg Dev.time beside :)
    have now_same : d.now = d'.now := (congrArg Dev.now beside :)
    rw [Dev.trigger_get, Dev.trigger_get, Dev.startScan_get, Dev.startScan_get, enabled, trig, inputs, time_same, now_same, same]

/-! ### One conversion (11 R308 to R311) -/

theorem Dev.sense_conv (input y t : Nat) : (d.sense input y t).conv = d.conv := by
  have k : (d.sense input y t).Keeps (· ≠ .conv) d := by
    apply Dev.sense_keeps <;> first | decide | exact .refl _
  exact k.frame .conv (by decide)

/-- The range check of a unit leaves the engines and the newest values. -/
theorem Dev.rangeCheck_conv (k input : Nat) (raw : Option (BitVec 14)) :
    (d.rangeCheck k input raw).conv = { d.conv with
      slices := (d.rangeCheck k input raw).conv.slices, urgent := (d.rangeCheck k input raw).conv.urgent } := by
  unfold Dev.rangeCheck
  extract_lets i x recent d1
  split <;> rfl

theorem Dev.putRecord_newest (w : Word) (scan : Nat) : (d.putRecord e w scan).conv.newest = d.conv.newest := rfl

theorem Dev.putRecord_todo (w : Word) (scan : Nat) :
    ((d.putRecord e w scan).conv.engines.get e).todo = (d.conv.engines.get e).todo := by
  rw [Dev.putRecord, Dev.modEngine_get_self]

theorem Dev.putRecord_buffer (w : Word) (scan : Nat) :
    ((d.putRecord e w scan).conv.engines.get e).buffer = ((w, scan) :: (d.conv.engines.get e).buffer).take (d.engCap e) := by
  rw [Dev.putRecord, Dev.modEngine_get_self]

theorem Dev.plainRecord_newest (input scan y : Nat) (valid ow : Bool) :
    (d.plainRecord e input scan y valid ow).conv.newest = d.conv.newest := by
  unfold Dev.plainRecord
  dsimp only
  split
  · rfl
  · split <;> rfl

theorem Dev.plainRecord_todo (input scan y : Nat) (valid ow : Bool) :
    ((d.plainRecord e input scan y valid ow).conv.engines.get e).todo = (d.conv.engines.get e).todo := by
  unfold Dev.plainRecord
  dsimp only
  split
  · exact Dev.putRecord_todo ..
  · split
    · rw [Dev.modEngine_get_self]
    · rw [Dev.putRecord_todo, Dev.modEngine_get_self]

/-- Without averaging a conversion is a record of its own. -/
theorem Dev.plainRecord_buffer (plain : d.fld (engWord e 4) 4 4 = 0) (input scan y : Nat) (valid ow : Bool) :
    ((d.plainRecord e input scan y valid ow).conv.engines.get e).buffer =
      ((recordWord y input valid ow false scan, scan) :: (d.conv.engines.get e).buffer).take (d.engCap e) := by
  unfold Dev.plainRecord
  dsimp only
  rw [if_pos plain]
  exact Dev.putRecord_buffer ..

/-- The value that a conversion gives, with the correction word that stood when it began. -/
def Dev.codeOf (d : Dev) (v : Visit) (i : Fin 120) (raw : Option (BitVec 14)) : Nat :=
  match raw with
  | some r => corrected (v.corr.getD (d.word (0x3040 + i.val))) r.toNat
  | none => 0

/-- The device that takes the next visit of engine `e` in hand; a code out of range begins a check of its unit. -/
def Dev.visited (d : Dev) (e : EngineId) (v : Visit) (rest : List Visit) (i : Fin 120) (raw : Option (BitVec 14)) : Dev :=
  let d0 := d.modEngine e fun x => { x with todo := rest }
  if outOfRange i.val raw then d0.rangeCheck (d.visitMaker v) i.val raw else d0

/-- The conversion of an input with value `y` is the newest of its input and goes to a record. -/
def Dev.converted (d : Dev) (e : EngineId) (v : Visit) (i : Fin 120) (valid : Bool) (y : Nat) : Dev :=
  let c : Conv := { y := y, valid := valid, scan := v.scan, at_ := v.at_ + 600 }
  ({ d with conv := { d.conv with newest := d.conv.newest.set i (some c) } } : Dev).plainRecord e i.val v.scan y valid false

theorem Dev.converted_todo (v : Visit) (i : Fin 120) (valid : Bool) (y : Nat) :
    ((d.converted e v i valid y).conv.engines.get e).todo = (d.conv.engines.get e).todo := Dev.plainRecord_todo ..

theorem Dev.converted_newest (v : Visit) (i : Fin 120) (valid : Bool) (y : Nat) : (d.converted e v i valid y).conv.newest =
    d.conv.newest.set i (some { y := y, valid := valid, scan := v.scan, at_ := v.at_ + 600 }) := Dev.plainRecord_newest ..

theorem Dev.converted_buffer (plain : d.fld (engWord e 4) 4 4 = 0) (v : Visit) (i : Fin 120) (valid : Bool) (y : Nat) :
    ((d.converted e v i valid y).conv.engines.get e).buffer =
      ((recordWord y i.val valid false false v.scan, v.scan) :: (d.conv.engines.get e).buffer).take (d.engCap e) := by
  unfold Dev.converted
  rw [Dev.plainRecord_buffer]
  · rfl
  · exact plain

theorem Dev.conversion_of_sense {v : Visit} {rest : List Visit} {i : Fin 120} (first : (d.conv.engines.get e).todo = v :: rest)
    (late : v.at_ + 600 ≤ d.now) (input : v.input = i.val) (not_aux : i.val < 100 ∨ 108 ≤ i.val) (raw : Option (BitVec 14)) :
    (d.conversion e raw).conv = ((d.visited e v rest i raw).converted e v i raw.isSome (d.codeOf v i raw)).conv := by
  have place : (⟨v.input % 120, Nat.mod_lt _ (by decide)⟩ : Fin 120) = i := Fin.ext (by rw [input]; exact Nat.mod_eq_of_lt i.isLt)
  unfold Dev.conversion
  split
  · next none_left => cases first.symm.trans none_left
  · next v' rest' first' =>
    obtain ⟨rfl, rfl⟩ := List.cons.inj (first.symm.trans first')
    rw [if_neg (Nat.not_lt.2 late)]
    extract_lets d0 j valid y d1 aux plain
    obtain rfl : j = i := place
    have plain_input : aux = none := if_neg (by simp only [Bool.and_eq_true, decide_eq_true_eq]; omega)
    rw [plain_input]
    cases raw with
    | none => rfl
    | some r => exact Dev.sense_conv ..

theorem Dev.visited_get (v : Visit) (rest : List Visit) (i : Fin 120) (raw : Option (BitVec 14)) :
    (d.visited e v rest i raw).conv.engines.get e = { d.conv.engines.get e with todo := rest } ∧
      (d.visited e v rest i raw).conv.newest = d.conv.newest ∧ (d.visited e v rest i raw).par = d.par := by
  unfold Dev.visited
  dsimp only
  split
  · have checked := Dev.rangeCheck_conv (d := d.modEngine e fun x => { x with todo := rest }) (d.visitMaker v) i.val raw
    have k : ((d.modEngine e fun x => { x with todo := rest }).rangeCheck (d.visitMaker v) i.val raw).Keeps (· ≠ .par)
        (d.modEngine e fun x => { x with todo := rest }) := by
      apply Dev.rangeCheck_keeps <;> first | decide | exact .refl _
    refine ⟨?_, ?_, k.frame .par (by decide)⟩
    · rw [checked]
      exact Dev.modEngine_get_self _
    · rw [checked]
      rfl
  · exact ⟨Dev.modEngine_get_self _, rfl, rfl⟩

/-! ### Urgent conversions (11 R313, R314) -/

theorem mem_insertVisit {v w : Visit} {l : List Visit} : w ∈ insertVisit v l ↔ w = v ∨ w ∈ l := by
  induction l with
  | nil => simp [insertVisit]
  | cons u l ih =>
    unfold insertVisit
    split
    · simp
    · rw [List.mem_cons, ih, List.mem_cons]
      exact or_left_comm

theorem mem_foldr_insertVisit {w : Visit} {l : List Visit} : w ∈ l.foldr insertVisit [] ↔ w ∈ l := by
  induction l with
  | nil => simp
  | cons u l ih => rw [List.foldr_cons, mem_insertVisit, ih, List.mem_cons]

/-- The visit of engine `e` that an urgent conversion on `unit` meets. -/
def Dev.met (d : Dev) (unit : Nat) (e : EngineId) : Option Visit :=
  (d.conv.engines.get e).todo.find? fun v => d.visitMaker v = unit && decide (v.at_ < d.now + 600)

/-- A visit of the slice and the scan of `v` moves 600 ticks later. -/
def Visit.movedWith (v w : Visit) : Visit :=
  if w.slice = v.slice && w.scan = v.scan then { w with at_ := w.at_ + 600, corr := none } else w

/-- An engine whose visit `v` an urgent conversion aborts. -/
def Engine.disturbed (x : Engine) (v : Visit) : Engine :=
  { x with
    todo := (x.todo.map v.movedWith).foldr insertVisit []
    log := x.log.map fun l => if l.scan = v.scan then { l with urgent := stick 8 (l.urgent + 1) } else l }

theorem Dev.disturb_of_none {unit : Nat} (free : d.met unit e = none) : Dev.disturb unit d e = d := by
  rw [Dev.met] at free
  simp only [Dev.disturb, free]

theorem Dev.disturb_of_some {unit : Nat} {v : Visit} (met : d.met unit e = some v) :
    Dev.disturb unit d e = d.modEngine e (Engine.disturbed · v) := by
  rw [Dev.met] at met
  simp only [Dev.disturb, met]
  rfl

theorem Dev.disturb_own (unit : Nat) : OwnEngine (Dev.disturb unit) where
  beside d e := by
    unfold Dev.disturb
    split <;> rfl
  others d e k other := by
    unfold Dev.disturb
    split
    · rfl
    · exact Dev.modEngine_get_ne _ other
  congr d d' e beside same := by
    have maker : d.visitMaker = d'.visitMaker := (congrArg Dev.visitMaker beside :)
    have now_same : d.now = d'.now := (congrArg Dev.now beside :)
    have met_same : d.met unit e = d'.met unit e := by rw [Dev.met, Dev.met, maker, now_same, same]
    cases met : d'.met unit e with
    | none => rw [Dev.disturb_of_none met, Dev.disturb_of_none (met_same.trans met), same]
    | some v =>
      rw [Dev.disturb_of_some met, Dev.disturb_of_some (met_same.trans met), Dev.modEngine_get_self, Dev.modEngine_get_self, same]

/-- The device whose engines the urgent conversion has met, with the request served. -/
theorem Dev.urgentServe_conv (source : UrgentSource) (input : Nat) (raw : Option (BitVec 14)) :
    (d.urgentServe source input raw).conv.urgentFree = d.now + 600 ∧
      (outOfRange input raw = false → (d.urgentServe source input raw).conv.urgent = d.conv.urgent.erase (source, input)) ∧
      (d.urgentServe source input raw).conv.engines.get e = (Dev.disturb (d.urgentUnit input) d e).conv.engines.get e := by
  have own := Dev.disturb_own (d.urgentUnit input)
  unfold Dev.urgentServe
  extract_lets unit d1 learn c d2
  have beside : d1.besideEngines = d.besideEngines := own.foldl_beside (idx 4) d
  have engine : d1.conv.engines.get e = (Dev.disturb unit d e).conv.engines.get e := own.foldl_get (idx_nodup 4) (mem_idx e) d
  clear_value d1
  have now_same : d1.now = d.now := (congrArg Dev.now beside :)
  have urgent_same : d1.conv.urgent = d.conv.urgent := (congrArg (fun x : Dev => x.conv.urgent) beside :)
  have free : d2.conv.urgentFree = d.now + 600 := congrArg (· + 600) now_same
  have served : d2.conv.urgent = d.conv.urgent.erase (source, input) := congrArg (List.erase · (source, input)) urgent_same
  split
  · next wild =>
    rw [Dev.rangeCheck_conv]
    exact ⟨free, fun tame => absurd wild (by rw [tame]; decide), engine⟩
  · exact ⟨free, fun _ => served, engine⟩

end

/-! ### The events -/

section
variable {s : State} {dt : Nat} {e : EngineId}

/-- A continuous scan begins. -/
def Dev.scanAgain (d : Dev) (e : EngineId) : Dev :=
  (d.startScan e 0).modEngine e fun x => { x with nextScan := x.nextScan + max 1 (d.scanPeriod e) }

theorem execScanStart_due (live : (s.turn dt).dev.convLive = true) (enabled : (s.turn dt).dev.engEnabled e = true)
    (continuous : (s.turn dt).dev.engTrig e = 0) (runs : ((s.turn dt).dev.conv.engines.get e).paused = false)
    (late : ((s.turn dt).dev.conv.engines.get e).nextScan ≤ (s.turn dt).dev.now) :
    exec (.scanStart dt e) s = .next (s.after dt fun d => d.scanAgain e) := by
  refine congrArg Host.Outcome.next (State.after_congr ?_)
  exact if_pos (by simp only [live, enabled, continuous, runs, late, decide_true, Bool.not_false, Bool.and_self])

theorem Dev.scanAgain_get (d : Dev) (e : EngineId) : (d.scanAgain e).conv.engines.get e =
    { (d.conv.engines.get e).scanStarted e (d.scanInputs e) d.now d.time.tbc d.time.onFallback with
      nextScan := (d.conv.engines.get e).nextScan + max 1 (d.scanPeriod e) } := by
  rw [Dev.scanAgain, Dev.modEngine_get_self, Dev.startScan_get, Nat.add_zero, Int.natCast_zero, Int.add_zero]
  rfl

theorem execAtrgEdge_live (vio : (s.turn dt).dev.port.vioValid = true) (live : (s.turn dt).dev.convLive = true) (pin : Fin 2)
    (rising : Bool) :
    exec (.atrgEdge dt pin rising) s = .next (s.after dt fun d => (idx 4).foldl (Dev.trigger pin rising) d) := by
  refine congrArg Host.Outcome.next (State.after_congr ?_)
  exact if_pos (by simp only [vio, live, Bool.and_self])

theorem execConversion_live (live : (s.turn dt).dev.convLive = true) (raw : Option (BitVec 14)) :
    exec (.conversion dt e raw) s = .next (s.after dt fun d => d.conversion e raw) := by
  refine congrArg Host.Outcome.next (State.after_congr ?_)
  exact if_pos live

theorem execUrgentConversion_due {src : UrgentSource} {input : Nat} (live : (s.turn dt).dev.convLive = true)
    (free : (s.turn dt).dev.conv.urgentFree ≤ (s.turn dt).dev.now) (next : (s.turn dt).dev.nextUrgent = some (src, input))
    (raw : Option (BitVec 14)) :
    exec (.urgentConversion dt src input raw) s = .next (s.after dt fun d => d.urgentServe src input raw) := by
  refine congrArg Host.Outcome.next (State.after_congr ?_)
  exact if_pos (by simp only [live, free, next, decide_true, Bool.and_self])

end

end Sys2Proof.Machine

namespace Sys2Proof
open Machine

/-- Settles O49: scans and triggers through what they make of one engine, a conversion through its record, and an urgent one
through the visit that it meets on each engine. -/
theorem converterEventsAct : Obligations.ConverterEventsAct := by
  intro s dt e d x
  refine ⟨fun live enabled continuous runs late => ⟨_, execScanStart_due live enabled continuous runs late, ?scan⟩,
    fun pin rising vio live => ⟨_, execAtrgEdge_live vio live pin rising, ?trigger⟩,
    fun v rest i raw live first late input not_aux => ?conversion,
    fun src input raw live free next => ⟨_, execUrgentConversion_due live free next raw, ?urgent⟩⟩
  case scan =>
    rw [State.after_conv, Dev.scanAgain_get]
    refine ⟨rfl, rfl, Engine.scanStarted_inputs _ _ _ d.time.tbc d.time.onFallback, fun f other => ?_⟩
    exact (Dev.modEngine_get_ne _ other).trans (Dev.startScan_get_ne _ other)
  case trigger =>
    rw [State.after_conv, (Dev.trigger_own pin rising).foldl_get (idx_nodup 4) (mem_idx e), Dev.trigger_get]
  case conversion =>
    intro y
    refine ⟨_, execConversion_live live raw, ?_⟩
    obtain ⟨engine, newest, par⟩ := Dev.visited_get (d := d) (e := e) v rest i raw
    rw [State.after_conv, Dev.conversion_of_sense first late input not_aux raw]
    refine ⟨?_, ?_, fun j other => ?_, fun plain => ?_⟩
    · rw [Dev.converted_todo, engine]
    · rw [Dev.converted_newest, Tab.get_set_self]
      rfl
    · rw [Dev.converted_newest, Tab.get_set_ne _ _ other, newest]
    · have plain' : (d.visited e v rest i raw).fld (engWord e 4) 4 4 = 0 := by
        rw [← plain, Dev.fld, Dev.word, par]
        rfl
      have capacity : (d.visited e v rest i raw).engCap e = d.engCap e := by
        rw [Dev.engCap, Dev.fld, Dev.word, par]
        rfl
      rw [Dev.converted_buffer plain', engine, capacity]
      rfl
  case urgent =>
    obtain ⟨busy, served, engine⟩ := Dev.urgentServe_conv (d := d) (e := e) src input raw
    rw [State.after_conv, engine]
    refine ⟨busy, served, ?_⟩
    intro meets
    refine ⟨fun none_met => by rw [Dev.disturb_of_none none_met], fun v l rest met log scan => ?_⟩
    rw [Dev.disturb_of_some met, Dev.modEngine_get_self]
    refine ⟨?_, fun w mem slice same_scan => ?_⟩
    · rw [Engine.disturbed, show (d.conv.engines.get e).log = l :: rest from log, List.map_cons, if_pos scan]
      rfl
    · refine mem_foldr_insertVisit.2 (List.mem_map.2 ⟨w, mem, ?_⟩)
      exact if_pos (by simp only [slice, same_scan, decide_true, Bool.and_self])

end Sys2Proof

/-! SUPPORT. O50: calibration steps and range checks of the slices (11 R305, R316 to R319). -/

namespace Sys2Proof.Machine
open Sys2Proof

section
variable {d : Dev}

/-! ### One slice among the nine -/

theorem Dev.modSlice_get_self (k : Fin 9) (f : Slice → Slice) :
    (d.modSlice k f).conv.slices.get k = f (d.conv.slices.get k) := Tab.get_modify_self ..

theorem Dev.modSlice_get_ne {k i : Fin 9} (f : Slice → Slice) (other : i ≠ k) :
    (d.modSlice k f).conv.slices.get i = d.conv.slices.get i := Tab.get_modify_ne _ _ other

theorem Dev.event_conv_slices (code unit : Nat) (data : List Byte) : (d.event code unit data).conv = d.conv := Dev.event_conv ..

/-- A slice without its state. -/
def Slice.besideSt (x : Slice) : Slice := { x with st := .inService }

section
variable {x y : Slice} (same : x.besideSt = y.besideSt)
include same

theorem Slice.offsetTrim_of_besideSt : x.offsetTrim = y.offsetTrim := (congrArg Slice.offsetTrim same :)
theorem Slice.gainTrim_of_besideSt : x.gainTrim = y.gainTrim := (congrArg Slice.gainTrim same :)
theorem Slice.passedAt_of_besideSt : x.passedAt = y.passedAt := (congrArg Slice.passedAt same :)
theorem Slice.check_of_besideSt : x.check = y.check := (congrArg Slice.check same :)
theorem Slice.decidedAt_of_besideSt : x.decidedAt = y.decidedAt := (congrArg Slice.decidedAt same :)

end

/-- A change of one slice that leaves everything but its state. -/
theorem Dev.modSlice_besideSt {f : Slice → Slice} (same : ∀ x, (f x).besideSt = x.besideSt) (k i : Fin 9) :
    ((d.modSlice k f).conv.slices.get i).besideSt = (d.conv.slices.get i).besideSt := by
  rcases Decidable.em (i = k) with rfl | other
  · rw [Dev.modSlice_get_self, same]
  · rw [Dev.modSlice_get_ne f other]

/-- A unit goes back into service, unless it is retired. -/
def Slice.back (x : Slice) : Slice := if x.st = .retired then x else { x with st := .inService }

theorem Slice.back_besideSt (x : Slice) : x.back.besideSt = x.besideSt := by
  unfold Slice.back
  split <;> rfl

/-- The slice that the descant stood in for and the descant go back into service (11 R317). -/
theorem Dev.handBack_of_standIn {j : Nat} (stands : d.conv.standIn = some j) : d.handBack =
    ((d.holdMakers.modSlice ⟨j % 9, Nat.mod_lt _ (by decide)⟩ Slice.back).modSlice 8 Slice.back).setConv
      fun c => { c with standIn := none, calEnds := none } := by
  unfold Dev.handBack
  rw [stands]
  rfl

/-- Handing back moves the states of slices, and what is under calibration. -/
theorem Dev.handBack_besideSt (i : Fin 9) : (d.handBack.conv.slices.get i).besideSt = (d.conv.slices.get i).besideSt := by
  cases stands : d.conv.standIn with
  | none =>
    unfold Dev.handBack
    rw [stands]
  | some j =>
    rw [Dev.handBack_of_standIn stands]
    exact (Dev.modSlice_besideSt Slice.back_besideSt ..).trans (Dev.modSlice_besideSt Slice.back_besideSt ..)

/-! ### The skew of an odd slice (11 R305) -/

/-- The trims for skew of the engines. -/
def Dev.skews (d : Dev) : Tab Int 4 := d.conv.engines.map Engine.skewTrim

theorem Dev.skews_get (e : EngineId) : d.skews.get e = (d.conv.engines.get e).skewTrim := Tab.get_map ..

theorem Dev.holdMakers_skews : d.holdMakers.skews = d.skews := by
  refine Tab.ext_get fun e => ?_
  rw [Dev.skews_get, Dev.skews_get]
  change Engine.skewTrim (Tab.get (Tab.map _ _) e) = _
  rw [Tab.get_map]

theorem Dev.handBack_skews : d.handBack.skews = d.skews := by
  unfold Dev.handBack
  split
  · exact Dev.holdMakers_skews
  · rfl

theorem Dev.trimSkew_skew {k : Fin 9} (slice : k ≠ 8) (skew : Int) :
    (d.trimSkew k skew).skews.get (engineOfSlice k.val) = d.skews.get (engineOfSlice k.val) - skew := by
  rw [Dev.skews_get, Dev.skews_get, Dev.trimSkew, if_neg slice, Dev.modEngine_get_self]

/-- Beside the engines a trim for skew leaves everything. -/
theorem Dev.trimSkew_beside (k : Fin 9) (skew : Int) : (d.trimSkew k skew).besideEngines = d.besideEngines := by
  unfold Dev.trimSkew
  split <;> rfl

/-! ### A calibration step (11 R316 to R318) -/

/-- The step has taken its 100 ms. -/
def Dev.stepEnded (d : Dev) (skew : Int) : Dev :=
  (d.setConv fun c => { c with cycles := (c.cycles + 1) % 2 ^ 32, calEnds := none }).trimSkew d.calUnit skew

theorem Dev.stepEnded_beside (skew : Int) : (d.stepEnded skew).besideEngines =
    ({ d with conv := { d.conv with cycles := (d.conv.cycles + 1) % 2 ^ 32, calEnds := none } } : Dev).besideEngines :=
  Dev.trimSkew_beside ..

/-- The parts of the converter that stand beside its engines, after the end of a step. -/
theorem Dev.stepEnded_conv (skew : Int) : (d.stepEnded skew).conv = { d.conv with
    engines := (d.stepEnded skew).conv.engines, cycles := (d.conv.cycles + 1) % 2 ^ 32, calEnds := none } := by
  unfold Dev.stepEnded Dev.trimSkew
  split <;> rfl

/-- The unit has passed: new trims, and the next unit's turn. -/
def Dev.stepPassed (d : Dev) (offsetTrim gainTrim skew : Int) : Dev :=
  (((d.stepEnded skew).modSlice d.calUnit fun x => { x with
      offsetTrim := offsetTrim, gainTrim := gainTrim, passedAt := d.now }).handBack).setConv
    fun c => { c with calStep := (c.calStep + 1) % 9, calRepeat := false }

/-- The failures of the unit count one more, and are told. -/
def Dev.stepFailed (d : Dev) (skew : Int) : Dev :=
  let d2 := (d.stepEnded skew).modSlice d.calUnit fun x => { x with fails := stick 8 (x.fails + 1) }
  d2.event 0x0401 (0x40 + d.calUnit.val) [b8 (d2.conv.slices.get d.calUnit).fails]

theorem Dev.calEnd_passed {end_ : Nat} (runs : d.conv.calRuns = true) (ends : d.conv.calEnds = some end_) (late : end_ ≤ d.now)
    (offsetTrim gainTrim skew : Int) : d.calEnd true offsetTrim gainTrim skew = d.stepPassed offsetTrim gainTrim skew := by
  unfold Dev.calEnd
  rw [ends]
  exact if_neg (by simp only [runs, Nat.not_lt.2 late, decide_false, Bool.not_true, Bool.or_self, Bool.false_eq_true, not_false_eq_true])

theorem Dev.calEnd_failed {end_ : Nat} (runs : d.conv.calRuns = true) (ends : d.conv.calEnds = some end_) (late : end_ ≤ d.now)
    (offsetTrim gainTrim skew : Int) : d.calEnd false offsetTrim gainTrim skew =
      if d.conv.calRepeat then (d.stepFailed skew).retireSlice d.calUnit
      else (d.stepFailed skew).setConv fun c => { c with calRepeat := true } := by
  unfold Dev.calEnd
  rw [ends]
  exact if_neg (by simp only [runs, Nat.not_lt.2 late, decide_false, Bool.not_true, Bool.or_self, Bool.false_eq_true, not_false_eq_true])

theorem Dev.stepEnded_standIn (skew : Int) : (d.stepEnded skew).conv.standIn = d.conv.standIn := by
  rw [Dev.stepEnded_conv]

theorem Dev.stepEnded_slices (skew : Int) : (d.stepEnded skew).conv.slices = d.conv.slices := by
  rw [Dev.stepEnded_conv]

theorem Dev.stepFailed_conv (skew : Int) : (d.stepFailed skew).conv = { (d.stepEnded skew).conv with
    slices := (d.stepEnded skew).conv.slices.modify d.calUnit fun x => { x with fails := stick 8 (x.fails + 1) } } :=
  Dev.event_conv ..

theorem Dev.stepFailed_fails (skew : Int) :
    ((d.stepFailed skew).conv.slices.get d.calUnit).fails = stick 8 ((d.conv.slices.get d.calUnit).fails + 1) := by
  rw [Dev.stepFailed_conv, Dev.stepEnded_slices, Tab.get_modify_self]

theorem Dev.stepFailed_log (no_por : d.ctl.por = false) (skew : Int) : (d.stepFailed skew).log =
    d.loggedAs [(0x0401, 0x40 + d.calUnit.val, [b8 (stick 8 ((d.conv.slices.get d.calUnit).fails + 1))])] := by
  have beside := d.stepEnded_beside skew
  have no_por' : (d.stepEnded skew).ctl.por = false := (congrArg (fun x : Dev => x.ctl.por) beside :).trans no_por
  rw [Dev.stepFailed]
  refine (Dev.event_logged (Dev.modSlice _ _ _) _ _ _ no_por').trans ?_
  rw [Dev.modSlice_get_self, Dev.stepEnded_slices]
  exact Dev.loggedAs_congr (congrArg Dev.log beside :) (congrArg Dev.time beside :) _

/-- The converter after a step that has passed. -/
structure Dev.StepPassed (d e : Dev) (offsetTrim gainTrim skew : Int) : Prop where
  standIn : e.conv.standIn = none
  calEnds : e.conv.calEnds = none
  cycles : e.conv.cycles = (d.conv.cycles + 1) % 2 ^ 32
  calStep : e.conv.calStep = (d.conv.calStep + 1) % 9
  offsetTrim : (e.conv.slices.get d.calUnit).offsetTrim = offsetTrim
  gainTrim : (e.conv.slices.get d.calUnit).gainTrim = gainTrim
  passedAt : (e.conv.slices.get d.calUnit).passedAt = d.now
  skew : d.calUnit ≠ 8 → (e.conv.engines.get (engineOfSlice d.calUnit.val)).skewTrim =
    (d.conv.engines.get (engineOfSlice d.calUnit.val)).skewTrim - skew

/-- The unit that has passed, before it goes back into service. -/
def Dev.newTrims (d : Dev) (offsetTrim gainTrim skew : Int) : Dev :=
  (d.stepEnded skew).modSlice d.calUnit fun x => { x with offsetTrim := offsetTrim, gainTrim := gainTrim, passedAt := d.now }

theorem Dev.newTrims_conv (offsetTrim gainTrim skew : Int) : (d.newTrims offsetTrim gainTrim skew).conv = { d.conv with
    engines := (d.stepEnded skew).conv.engines, cycles := (d.conv.cycles + 1) % 2 ^ 32, calEnds := none
    slices := (d.newTrims offsetTrim gainTrim skew).conv.slices } := by
  exact (congrArg (fun c : Converter => { c with slices := (d.newTrims offsetTrim gainTrim skew).conv.slices })
    (d.stepEnded_conv skew) :)

theorem Dev.stepPassed_conv (offsetTrim gainTrim skew : Int) : (d.stepPassed offsetTrim gainTrim skew).conv =
    { (d.newTrims offsetTrim gainTrim skew).handBack.conv with
      calStep := ((d.newTrims offsetTrim gainTrim skew).handBack.conv.calStep + 1) % 9, calRepeat := false } := rfl

/-- What handing back leaves of the converter's counts. -/
theorem Dev.handBack_counts {j : Nat} (stands : d.conv.standIn = some j) : d.handBack.conv.standIn = none ∧
    d.handBack.conv.calEnds = none ∧ d.handBack.conv.cycles = d.conv.cycles ∧ d.handBack.conv.calStep = d.conv.calStep := by
  rw [Dev.handBack_of_standIn stands]
  exact ⟨rfl, rfl, rfl, rfl⟩

theorem Dev.stepPassed_passed {j : Nat} (stands : d.conv.standIn = some j) (offsetTrim gainTrim skew : Int) :
    d.StepPassed (d.stepPassed offsetTrim gainTrim skew) offsetTrim gainTrim skew := by
  have conv := d.newTrims_conv offsetTrim gainTrim skew
  have stands' : (d.newTrims offsetTrim gainTrim skew).conv.standIn = some j := by rw [conv]; exact stands
  obtain ⟨standIn, calEnds, cycles, calStep⟩ := Dev.handBack_counts stands'
  have trims := Dev.handBack_besideSt (d := d.newTrims offsetTrim gainTrim skew) d.calUnit
  rw [Dev.newTrims, Dev.modSlice_get_self, ← Dev.newTrims] at trims
  have skews : d.calUnit ≠ 8 → (d.newTrims offsetTrim gainTrim skew).handBack.skews.get (engineOfSlice d.calUnit.val) =
      d.skews.get (engineOfSlice d.calUnit.val) - skew := fun slice => by
    rw [Dev.handBack_skews]
    exact Dev.trimSkew_skew slice skew
  constructor
  · rw [Dev.stepPassed_conv, standIn]
  · rw [Dev.stepPassed_conv, calEnds]
  · rw [Dev.stepPassed_conv, cycles, conv]
  · rw [Dev.stepPassed_conv, calStep, conv]
  · rw [Dev.stepPassed_conv, Slice.offsetTrim_of_besideSt trims]
  · rw [Dev.stepPassed_conv, Slice.gainTrim_of_besideSt trims]
  · rw [Dev.stepPassed_conv, Slice.passedAt_of_besideSt trims]
  · rw [Dev.stepPassed_conv, ← Dev.skews_get, ← Dev.skews_get]
    exact skews

/-! ### Retirement (11 R318) -/

theorem Dev.calStop_besideSt (unit : Nat) (i : Fin 9) :
    ((d.calStop unit).conv.slices.get i).besideSt = (d.conv.slices.get i).besideSt := by
  rw [Dev.calStop, Dev.event_conv]
  exact Dev.handBack_besideSt i

theorem Dev.calStop_calRuns (unit : Nat) : (d.calStop unit).conv.calRuns = false := by
  rw [Dev.calStop, Dev.event_conv]
  rfl

theorem Dev.handBack_sc : d.handBack.sc = d.sc := by
  unfold Dev.handBack
  split <;> rfl

theorem Dev.calStop_sc (unit : Nat) : (d.calStop unit).sc = d.sc :=
  (Dev.event_sc ..).trans Dev.handBack_sc

theorem Dev.replaceSlice_sc (k : Fin 9) : (d.replaceSlice k).sc = d.sc :=
  (Dev.event_sc ..).trans (Dev.calStop_sc (d := d.holdMakers) (0x40 + k.val))

theorem Dev.replaceSlice_conv (k : Fin 9) : (d.replaceSlice k).conv =
    { ((((d.holdMakers.calStop (0x40 + k.val)).modSlice k fun x => { x with st := .retired }).modSlice 8
        fun x => { x with st := .standingIn })).conv with replaced := some k.val } := Dev.event_conv ..

theorem Dev.replaceSlice_besideSt (k i : Fin 9) :
    ((d.replaceSlice k).conv.slices.get i).besideSt = (d.conv.slices.get i).besideSt := by
  rw [Dev.replaceSlice_conv, Dev.modSlice_besideSt, Dev.modSlice_besideSt, Dev.calStop_besideSt]
  · rw [Dev.holdMakers]
  · exact fun _ => rfl
  · exact fun _ => rfl

theorem Dev.retireDescant_besideSt (i : Fin 9) :
    (d.retireDescant.conv.slices.get i).besideSt = (d.conv.slices.get i).besideSt := by
  rw [Dev.retireDescant, Dev.event_conv, Dev.modSlice_besideSt, Dev.calStop_besideSt]
  exact fun _ => rfl

/-- A slice whose place the descant has taken for good. -/
structure Dev.Replaced (e : Dev) (k : Fin 9) : Prop where
  calRuns : e.conv.calRuns = false
  replaced : e.conv.replaced = some k.val
  retired : (e.conv.slices.get k).st = .retired
  descant : (e.conv.slices.get 8).st = .standingIn

theorem Dev.replaceSlice_replaced {k : Fin 9} (slice : k ≠ 8) : (d.replaceSlice k).Replaced k := by
  have conv := d.replaceSlice_conv k
  refine ⟨?_, ?_, ?_, ?_⟩
  · rw [conv]
    exact Dev.calStop_calRuns _
  · rw [conv]
  · rw [conv]
    refine (congrArg Slice.st (Dev.modSlice_get_ne _ slice)).trans ?_
    rw [Dev.modSlice_get_self]
  · rw [conv]
    change (Tab.get (Dev.conv (Dev.modSlice _ 8 _)).slices 8).st = _
    rw [Dev.modSlice_get_self]

theorem Dev.retireDescant_retired : d.retireDescant.conv.calRuns = false ∧ (d.retireDescant.conv.slices.get 8).st = .retired := by
  rw [Dev.retireDescant, Dev.event_conv]
  refine ⟨Dev.calStop_calRuns _, ?_⟩
  rw [Dev.modSlice_get_self]

theorem Dev.deviceRecord_unitsRetired (key : Nat) (value : List Byte) :
    (d.deviceRecord key value).sc.unitsRetired = d.sc.unitsRetired := by
  unfold Dev.deviceRecord
  split
  · split <;> rfl
  · unfold Dev.appendRecord
    extract_lets isLog k d1
    have full : (d.storeFull k false).sc.unitsRetired = d.sc.unitsRetired := by
      rw [Dev.storeFull, Dev.event_sc]
      rfl
    split
    · rfl
    · split
      · exact full
      · split <;> rfl

theorem Dev.retireSlice_of_slice {k : Fin 9} (slice : k ≠ 8) :
    (d.retireSlice k).Replaced k ∧ (d.retireSlice k).sc.unitsRetired = stick 8 (d.sc.unitsRetired + 1) := by
  unfold Dev.retireSlice
  extract_lets d1 c d2
  rw [if_neg slice]
  refine ⟨Dev.replaceSlice_replaced slice, ?_⟩
  have counted : d1.sc.unitsRetired = d.sc.unitsRetired := by
    refine (Dev.deviceRecord_unitsRetired ..).trans ?_
    rw [Dev.retireEvent, Dev.event_sc]
  rw [Dev.replaceSlice_sc]
  exact congrArg (fun n => stick 8 (n + 1)) counted

/-! ### Range checks (11 R319) -/

/-- The end of a range check of `slice`, before its decision acts. -/
def Dev.rangeChecked (d : Dev) (slice : Fin 9) (c : RangeCheck) : Dev :=
  (d.modSlice slice fun x => { x with check := none, decidedAt := some d.now }).unitChecked (0x40 + slice.val) 0x82 (d.rangeOutcome c) 2

/-- The decision of a range check acts: INTERNAL retires the slice, or the descant. -/
def Dev.rangeDecided (d : Dev) (slice : Fin 9) (c : RangeCheck) : Dev :=
  match d.rangeOutcome c with
  | .internal => if slice = 8 then (d.rangeChecked slice c).retireDescant else (d.rangeChecked slice c).replaceSlice slice
  | _ => d.rangeChecked slice c

theorem Dev.rangeChecked_conv (slice : Fin 9) (c : RangeCheck) : (d.rangeChecked slice c).conv =
    (d.modSlice slice fun x => { x with check := none, decidedAt := some d.now }).conv := by
  have k : (d.rangeChecked slice c).Keeps (· ≠ .conv) (d.modSlice slice fun x => { x with check := none, decidedAt := some d.now }) := by
    apply Dev.unitChecked_keeps <;> first | decide | exact .refl _
  exact k.frame .conv (by decide)

theorem Dev.rangeDecided_of_not_internal {slice : Fin 9} {c : RangeCheck} (other : d.rangeOutcome c ≠ .internal) :
    d.rangeDecided slice c = d.rangeChecked slice c := by
  unfold Dev.rangeDecided
  split
  · next internal => exact absurd internal other
  · rfl

/-- Whatever the decision, the slice's check is over. -/
theorem Dev.rangeDecided_besideSt (slice : Fin 9) (c : RangeCheck) : ((d.rangeDecided slice c).conv.slices.get slice).besideSt =
    ({ d.conv.slices.get slice with check := none, decidedAt := some d.now } : Slice).besideSt := by
  have ended : ((d.rangeChecked slice c).conv.slices.get slice).besideSt =
      ({ d.conv.slices.get slice with check := none, decidedAt := some d.now } : Slice).besideSt := by
    rw [Dev.rangeChecked_conv, Dev.modSlice_get_self]
  unfold Dev.rangeDecided
  split
  · split
    · rw [Dev.retireDescant_besideSt, ended]
    · rw [Dev.replaceSlice_besideSt, ended]
  · exact ended

end

/-! ### The events -/

section
variable {s : State} {dt : Nat}

theorem execCalStep_begins (live : (s.turn dt).dev.convLive = true) (passed : Bool) (trims : SliceTrims) (skew : Int) :
    exec (.calStep dt false passed trims skew) s = .next (s.after dt Dev.calBegin) := by
  refine congrArg Host.Outcome.next (State.after_congr ?_)
  exact if_pos live

theorem execCalStep_ends (live : (s.turn dt).dev.convLive = true) (passed : Bool) (trims : SliceTrims) (skew : Int) :
    exec (.calStep dt true passed trims skew) s = .next (s.after dt fun d => d.calEnd passed trims.offset trims.gain skew) := by
  refine congrArg Host.Outcome.next (State.after_congr ?_)
  exact if_pos live

/-- A calibration step under way. -/
def Dev.calBegun (d : Dev) : Dev :=
  ((d.holdMakers.modSlice 8 fun x => { x with st := .standingIn }).modSlice d.calUnit fun x => { x with st := .calibrating }).setConv
    fun c => { c with standIn := some d.calUnit.val, calEnds := some (d.now + 100 * msec) }

theorem Dev.calBegin_begun {d : Dev} (runs : d.conv.calRuns = true) (idle : d.conv.calEnds = none) (whole : d.secondNow = true) :
    d.calBegin = d.calBegun :=
  if_neg (by rw [runs, idle, whole]; decide)

theorem execSliceCheckDone_due {slice : Fin 9} {c : RangeCheck} (runs : ((s.turn dt).dev.conv.slices.get slice).check = some c)
    (done : c.again ≠ none ∨ c.since + 2 * usec ≤ (s.turn dt).dev.now) :
    exec (.sliceCheckDone dt slice ()) s = .next (s.after dt fun d => d.rangeDecided slice c) := by
  refine congrArg Host.Outcome.next (State.after_congr ?_)
  have over_ : ¬ (c.again.isNone && decide ((s.turn dt).dev.now < c.since + 2 * usec)) = true := by
    simp only [Bool.and_eq_true, Option.isNone_iff_eq_none, decide_eq_true_eq, not_and, Nat.not_lt]
    exact fun unread => done.resolve_left (· unread)
  dsimp only
  rw [runs]
  exact if_neg over_

end

end Sys2Proof.Machine

namespace Sys2Proof
open Machine

/-- Settles O50: calibration steps through what their end makes of the converter, retirement through `Dev.Replaced`, and range
checks through their decision. -/
theorem sliceEventsAct : Obligations.SliceEventsAct := by
  intro s dt d k
  refine ⟨fun p a b w live runs idle whole => ⟨_, execCalStep_begins live p _ w, ?begins⟩,
    fun j end_ a b w live runs stands ends late => ⟨_, execCalStep_ends live true _ w, ?passed⟩,
    fun j end_ a b w live runs stands ends late first no_por => ⟨_, execCalStep_ends live false _ w, ?failed⟩,
    fun j end_ a b w live runs stands ends late again slice => ⟨_, execCalStep_ends live false _ w, ?retired⟩,
    fun i c runs done => ⟨_, execSliceCheckDone_due runs done, ?checked⟩⟩
  case begins =>
    rw [State.after_conv, Dev.calBegin_begun runs idle whole]
    refine ⟨rfl, rfl, ?_, fun slice => ?_⟩
    · change (Tab.get (Dev.conv (Dev.modSlice _ k _)).slices k).st = _
      rw [Dev.modSlice_get_self]
    · change (Tab.get (Dev.conv (Dev.modSlice _ k _)).slices 8).st = _
      rw [Dev.modSlice_get_ne _ (Ne.symm slice), Dev.modSlice_get_self]
  case passed =>
    obtain ⟨standIn, calEnds, cycles, calStep, offset, gain, passedAt, skew⟩ := Dev.stepPassed_passed stands a b w
    rw [State.after_conv, Dev.calEnd_passed runs ends late]
    exact ⟨standIn, calEnds, cycles, calStep, offset, gain, passedAt, skew⟩
  case failed =>
    have eq : d.calEnd false a b w = (d.stepFailed w).setConv fun c => { c with calRepeat := true } := by
      rw [Dev.calEnd_failed runs ends late, first, if_neg Bool.false_ne_true]
    refine ⟨?_, ?_, ?_, ?_, ?_, ?_⟩
    · rw [State.after_conv, eq]
      rfl
    · rw [State.after_conv, eq, Dev.setConv_conv, Dev.stepFailed_conv, Dev.stepEnded_conv]
    · rw [State.after_conv, eq, Dev.setConv_conv, Dev.stepFailed_conv, Dev.stepEnded_conv]
      exact stands
    · rw [State.after_conv, eq, Dev.setConv_conv, Dev.stepFailed_conv, Dev.stepEnded_conv]
    · rw [State.after_conv, eq, Dev.setConv_conv, Dev.stepFailed_fails]
    · rw [State.after_congr (g := fun _ => (d.stepFailed w).setConv fun c => { c with calRepeat := true }) eq]
      exact State.after_logged (Dev.stepFailed_log no_por w)
  case retired =>
    obtain ⟨⟨calRuns, replaced, retired, descant⟩, units⟩ := Dev.retireSlice_of_slice (d := d.stepFailed w) slice
    rw [State.after_conv, State.after_sc, Dev.calEnd_failed runs ends late, again, if_pos rfl]
    refine ⟨calRuns, replaced, retired, descant, units.trans ?_⟩
    have counted : (d.stepFailed w).sc = d.sc := by
      rw [Dev.stepFailed, Dev.event_sc]
      exact (congrArg Dev.sc (Dev.stepEnded_beside w) :)
    rw [counted]
  case checked =>
    have ended := Dev.rangeDecided_besideSt (d := d) i c
    rw [State.after_conv]
    refine ⟨Slice.check_of_besideSt ended, Slice.decidedAt_of_besideSt ended, fun other => ?_, fun internal => ?_⟩
    · rw [Dev.rangeDecided_of_not_internal other, Dev.rangeChecked_conv, Dev.modSlice_get_self]
      exact ⟨rfl, rfl⟩
    · have decided : d.rangeDecided i c = if i = 8 then (d.rangeChecked i c).retireDescant else (d.rangeChecked i c).replaceSlice i := by
        simp only [Dev.rangeDecided, internal]
      rw [decided]
      split
      · next descant =>
        subst descant
        obtain ⟨calRuns, retired⟩ := Dev.retireDescant_retired (d := d.rangeChecked 8 c)
        exact ⟨retired, calRuns, fun slice => absurd rfl slice⟩
      · next slice =>
        obtain ⟨calRuns, replaced, retired, descant⟩ := Dev.replaceSlice_replaced (d := d.rangeChecked i c) slice
        exact ⟨retired, calRuns, fun _ => ⟨replaced, descant⟩⟩

end Sys2Proof

/-! SUPPORT. O52, O60: clock loss, unmuting and freezing of the wave port (12 R338 to R341, R350). -/

namespace Sys2Proof.Machine
open Sys2Proof

/-! ### Clock loss -/

section
variable {s : State} {dt : Nat} {cause : WaveCause}

/-- The code of a cause of clock loss in its event (12 R353). -/
def lossCause : WaveCause → Byte
  | .gap => 0
  | .boundaries => 1
  | .fast => 2

/-- The port that loses its clock: the boundary that is missing is counted first. -/
def Dev.lossJudged (d : Dev) (cause : WaveCause) : Dev := if cause = .boundaries then d.judgeFrame .missing else d

/-- A device loses the clock of its wave port. -/
def Dev.waveLost (d : Dev) (cause : WaveCause) : Dev := (d.lossJudged cause).clockLoss (lossCause cause)

theorem execWaveLoss_lost (on : (s.turn dt).dev.wave.st = .running ∨ (s.turn dt).dev.wave.st = .acquiring)
    (slave : (s.turn dt).dev.waveMaster = false) (second : cause = .boundaries → (s.turn dt).dev.wave.missing = 1) :
    exec (.waveLoss dt cause) s = .next (s.after dt fun d => d.waveLost cause) := by
  have clocked : ¬ ((s.turn dt).dev.waveMaster || (s.turn dt).dev.wave.st = .disabled || (s.turn dt).dev.wave.st = .lost) := by
    obtain run | acq := on
    · simp [slave, run]
    · simp [slave, acq]
  refine congrArg Host.Outcome.next (State.after_congr ?_)
  refine (if_neg clocked).trans ?_
  cases cause with
  | gap => rfl
  | fast => rfl
  | boundaries => exact if_pos (second rfl)

theorem execWaveLoss_ignored (idle : (s.turn dt).dev.waveMaster = true ∨ (s.turn dt).dev.wave.st = .disabled ∨
      (s.turn dt).dev.wave.st = .lost ∨ cause = .boundaries ∧ (s.turn dt).dev.wave.missing ≠ 1) :
    exec (.waveLoss dt cause) s = .next (s.after dt fun d => d) := by
  refine congrArg Host.Outcome.next (State.after_congr ?_)
  obtain master | off | lost | ⟨rfl, first⟩ := idle
  · exact if_pos (by simp [master])
  · exact if_pos (by simp [off])
  · exact if_pos (by simp [lost])
  · refine (ite_congr rfl (fun _ => rfl) fun _ => ?_).trans (ite_self _)
    exact if_neg first

variable (d : Dev) (cause : WaveCause)

theorem Dev.lossJudged_frameErr : (d.lossJudged cause).wave.frameErr =
    if cause = .boundaries then stick 16 (d.wave.frameErr + 1) else d.wave.frameErr := by
  cases cause <;> rfl

theorem Dev.lossJudged_losses : (d.lossJudged cause).wave.losses = d.wave.losses := by
  cases cause <;> rfl

theorem Dev.lossJudged_ctl : (d.lossJudged cause).ctl = d.ctl := by
  cases cause <;> rfl

theorem Dev.lossJudged_loggedAs (es : List (Nat × Nat × List Byte)) : (d.lossJudged cause).loggedAs es = d.loggedAs es := by
  cases cause <;> rfl

theorem Dev.waveLost_st : (d.waveLost cause).wave.st = .lost := by
  rw [Dev.waveLost, Dev.clockLoss_wave]
  rfl

theorem Dev.waveLost_losses : (d.waveLost cause).wave.losses = stick 16 (d.wave.losses + 1) := by
  rw [Dev.waveLost, Dev.clockLoss_wave, Dev.lossJudged_losses]

theorem Dev.waveLost_stable : (d.waveLost cause).wave.stable = 0 := by
  rw [Dev.waveLost, Dev.clockLoss_wave]
  rfl

theorem Dev.waveLost_duty (k : Fin 16) : ((d.waveLost cause).wave.slots.get k).duty = none := by
  rw [Dev.waveLost, Dev.clockLoss_wave]
  exact congrArg WaveSlot.duty (Tab.get_map ..)

theorem Dev.waveLost_frameErr : (d.waveLost cause).wave.frameErr =
    if cause = .boundaries then stick 16 (d.wave.frameErr + 1) else d.wave.frameErr := by
  rw [← Dev.lossJudged_frameErr, Dev.waveLost, Dev.clockLoss_wave]
  rfl

theorem Dev.waveLost_log {d : Dev} (no_por : d.ctl.por = false) :
    (d.waveLost cause).log = d.loggedAs [(0x0501, 0xFF, [(lossCause cause)])] := by
  rw [Dev.waveLost, Dev.clockLoss_logged (by rw [Dev.lossJudged_ctl, no_por]), Dev.lossJudged_loggedAs]

end

/-! ### Changes of the slots one by one -/

section
variable {k : Fin 16}

/-- In changes of the slots one by one, each of its own slot, a slot is made what its own change makes of it, on a device that
differs from the first in nothing that the changes leave. -/
theorem Dev.foldl_slot {β γ : Type} {q : Dev → β} {r : WaveSlot → γ} {c : γ} {f : Dev → Fin 16 → Dev} {l : List (Fin 16)} {d : Dev}
    (once : l.Nodup) (mem : k ∈ l) (frame : ∀ e a, q (f e a) = q e)
    (others : ∀ e a, a ≠ k → (f e a).wave.slots.get k = e.wave.slots.get k)
    (self : ∀ e, q e = q d → e.wave.slots.get k = d.wave.slots.get k → r ((f e k).wave.slots.get k) = c) :
    r ((l.foldl f d).wave.slots.get k) = c := by
  induction l generalizing d with
  | nil => cases mem
  | cons a l ih =>
    obtain ⟨absent, once⟩ := List.nodup_cons.1 once
    by_cases here : a = k
    · subst here
      refine (Dev.foldl_same (q := fun e => r (e.wave.slots.get a)) (fun e b hb => ?_) (f d a)).trans (self d rfl rfl)
      exact congrArg r (others e b fun same => absent (same ▸ hb))
    · exact ih once ((List.mem_cons.1 mem).resolve_left (Ne.symm here)) fun e beside slot =>
        self e (beside.trans (frame d a)) (slot.trans (others d a here))

/-- In changes of the slots one by one, each of its own slot, a slot that is not among them stands. -/
theorem Dev.foldl_slot_of_not_mem {f : Dev → Fin 16 → Dev} {l : List (Fin 16)} (absent : k ∉ l)
    (others : ∀ e a, a ≠ k → (f e a).wave.slots.get k = e.wave.slots.get k) (d : Dev) :
    (l.foldl f d).wave.slots.get k = d.wave.slots.get k :=
  Dev.foldl_same (q := fun e => e.wave.slots.get k) (fun e a ha => others e a fun same => absent (same ▸ ha)) d

theorem Dev.liveSlots_nodup (d : Dev) (p : Fin 16 → Bool) : (d.liveSlots.filter p).Nodup :=
  ((idx_nodup 16).filter _).filter _

/-! ### Unmuting (12 R340, R341) -/

/-- The port runs again: the frame of the block start is its first unmuted one. -/
def Dev.muteOver (d : Dev) : Dev := d.setWave fun w => { w with st := .running, muted := w.muted - 1 }

/-- An out-slot sends the word of the block. -/
def Dev.sendStatus (d : Dev) (k : Fin 16) : Dev := d.modSlot k fun x => { x with cs := d.channelStatus k }

/-- The out-slots send the words of the block. -/
def Dev.statusSent (d : Dev) : Dev := (d.liveSlots.filter fun k => !d.isIn k).foldl Dev.sendStatus d

/-- A word that the first unmuted frame has brought is used and written. -/
def Dev.useWord (d : Dev) (k : Fin 16) : Dev :=
  let w := (d.wave.slots.get k).lastWord
  (d.modSlot k fun x => x.push true (2 ^ d.slotLog k) w).takeWord k w (parityOk w && !bit w 7)

/-- A port that has unmuted. -/
def Dev.unmuted (d : Dev) : Dev :=
  d.muteOver.statusSent.sendSlots.useWords.event 0x0502 0xFF (leBytes 4 (min (d.wave.muted - 1) 0xFFFFFFFF))

theorem execWaveUnmute_unmuted {s : State} {dt : Nat} (acquiring : (s.turn dt).dev.wave.st = .acquiring)
    (marked : (s.turn dt).dev.wave.marked = true) (start : (s.turn dt).dev.wave.blockAt = some (s.turn dt).dev.now)
    (stable : 192 ≤ (s.turn dt).dev.wave.stable) :
    exec (.waveUnmute dt) s = .next (s.after dt Dev.unmuted) := by
  refine congrArg Host.Outcome.next (State.after_congr ?_)
  exact if_pos (by simp [acquiring, marked, start, stable])

variable (d : Dev)

/-- The word that an in-slot has brought is written. -/
def Dev.wordWritten (k : Fin 16) : Dev := 
  d.modSlot k fun x => x.push true (2 ^ d.slotLog k) (d.wave.slots.get k).lastWord

theorem Dev.useWord_wave (k : Fin 16) : ∃ fresh kept, (d.useWord k).wave = ((d.wordWritten k).modSlot k fun x => { x with
    inFrame := some (x.duty, fresh, kept)
    duty := if parityOk (d.wave.slots.get k).lastWord && !bit (d.wave.slots.get k).lastWord 7 then
      some (bits (d.wave.slots.get k).lastWord 16 16) else x.duty }).wave := by
  obtain ⟨fresh, kept, taken⟩ := Dev.takeWord_wave (d.modSlot k fun x => x.push true (2 ^ d.slotLog k) (d.wave.slots.get k).lastWord)
    k (d.wave.slots.get k).lastWord (parityOk (d.wave.slots.get k).lastWord && !bit (d.wave.slots.get k).lastWord 7)
  exact ⟨fresh, kept, taken⟩

theorem Dev.useWord_besideSlots (k : Fin 16) : (d.useWord k).wave.besideSlots = d.wave.besideSlots := by
  obtain ⟨fresh, kept, taken⟩ := d.useWord_wave k
  rw [taken]
  rfl

theorem Dev.useWord_get_ne {j k : Fin 16} (other : j ≠ k) : (d.useWord k).wave.slots.get j = d.wave.slots.get j := by
  obtain ⟨fresh, kept, taken⟩ := d.useWord_wave k
  rw [taken, Dev.modSlot_get_ne other, Dev.wordWritten, Dev.modSlot_get_ne other]

theorem Dev.useWord_duty (k : Fin 16) : ((d.useWord k).wave.slots.get k).duty =
    if parityOk (d.wave.slots.get k).lastWord = true ∧ bit (d.wave.slots.get k).lastWord 7 = false then
      some (bits (d.wave.slots.get k).lastWord 16 16) else (d.wave.slots.get k).duty := by
  obtain ⟨fresh, kept, taken⟩ := d.useWord_wave k
  have held : ((d.wordWritten k).wave.slots.get k).duty = (d.wave.slots.get k).duty :=
    (congrArg WaveSlot.duty (Dev.modSlot_get_self ..)).trans (congrArg WaveSlot.duty (WaveSlot.push_besideWords ..) :)
  rw [taken, Dev.modSlot_get_self, held]
  exact ite_congr (by simp) (fun _ => rfl) fun _ => rfl

theorem Dev.useWords_besideSlots : d.useWords.wave.besideSlots = d.wave.besideSlots :=
  Dev.foldl_same (q := fun e => e.wave.besideSlots) (fun e k _ => e.useWord_besideSlots k) d

theorem Dev.useWords_get {j : Fin 16} (none_here : d.isIn j = false ∨ (d.wave.slots.get j).inFrame = none) :
    d.useWords.wave.slots.get j = d.wave.slots.get j := by
  refine Dev.foldl_slot_of_not_mem (f := Dev.useWord) (fun mem => ?_) (fun e a other => e.useWord_get_ne other.symm) d
  obtain out | nothing := none_here
  · simp [out] at mem
  · simp [nothing] at mem

theorem Dev.useWords_duty {j : Fin 16} {x : Option Nat × Mask × Mask} (live : j.val < d.waveSlots) (isIn : d.isIn j = true)
    (brought : (d.wave.slots.get j).inFrame = some x) : (d.useWords.wave.slots.get j).duty =
    if parityOk (d.wave.slots.get j).lastWord = true ∧ bit (d.wave.slots.get j).lastWord 7 = false then
      some (bits (d.wave.slots.get j).lastWord 16 16) else (d.wave.slots.get j).duty := by
  refine Dev.foldl_slot (f := Dev.useWord) (q := fun _ => ()) (r := WaveSlot.duty) (d.liveSlots_nodup _) ?_ (fun _ _ => rfl)
    (fun e a other => e.useWord_get_ne other.symm) fun e _ slot => ?_
  · exact List.mem_filter.2 ⟨Dev.mem_liveSlots.2 live, by simp [isIn, brought]⟩
  · rw [Dev.useWord_duty, slot]

theorem Dev.sendSlots_get {j : Fin 16} (isIn : d.isIn j = true) : d.sendSlots.wave.slots.get j = d.wave.slots.get j :=
  Dev.foldl_slot_of_not_mem (fun mem => by simp [isIn] at mem) (fun e _ other => Dev.modSlot_get_ne other.symm e _) d

theorem Dev.sendSlots_cs (j : Fin 16) : (d.sendSlots.wave.slots.get j).cs = (d.wave.slots.get j).cs := by
  refine Dev.foldl_same (q := fun e => (e.wave.slots.get j).cs) (fun e k _ => ?_) d
  exact Dev.modSlot_get_same (p := WaveSlot.cs) (fun x => by unfold WaveSlot.push; dsimp only; split <;> rfl) e k j

theorem Dev.sendSlots_par : d.sendSlots.par = d.par :=
  (Dev.sendSlots_keeps (W := (· = .wave)) rfl (.refl d)).frame .par (by decide)

theorem Dev.statusSent_get {j : Fin 16} (isIn : d.isIn j = true) : d.statusSent.wave.slots.get j = d.wave.slots.get j :=
  Dev.foldl_slot_of_not_mem (f := Dev.sendStatus) (fun mem => by simp [isIn] at mem)
    (fun e _ other => Dev.modSlot_get_ne other.symm e _) d

theorem Dev.statusSent_beside : ({ d.statusSent with wave := d.statusSent.wave.besideSlots } : Dev) =
    { d with wave := d.wave.besideSlots } :=
  Dev.foldl_same (q := fun e => ({ e with wave := e.wave.besideSlots } : Dev)) (fun _ _ _ => by rfl) d

/-- The word of the block rests on the parameters and the place in the blocks alone. -/
theorem Dev.channelStatus_congr {d e : Dev} (par : e.par = d.par) (wave : e.wave.besideSlots = d.wave.besideSlots) (k : Fin 16) :
    e.channelStatus k = d.channelStatus k := by
  calc e.channelStatus k
      = ({ d with par := e.par, wave := e.wave.besideSlots } : Dev).channelStatus k := rfl
    _ = ({ d with wave := d.wave.besideSlots } : Dev).channelStatus k := by rw [par, wave]
    _ = d.channelStatus k := rfl

theorem Dev.statusSent_cs {j : Fin 16} (live : j.val < d.waveSlots) (out : d.isIn j = false) :
    (d.statusSent.wave.slots.get j).cs = d.channelStatus j := by
  refine Dev.foldl_slot (f := Dev.sendStatus) (q := fun e => (e.par, e.wave.besideSlots)) (r := WaveSlot.cs)
    (d.liveSlots_nodup _) ?_ (fun _ _ => by rfl) (fun e _ other => Dev.modSlot_get_ne other.symm e _) fun e beside _ => ?_
  · exact List.mem_filter.2 ⟨Dev.mem_liveSlots.2 live, by simp [out]⟩
  · obtain ⟨par, wave⟩ := Prod.mk.inj beside
    rw [Dev.sendStatus, Dev.modSlot_get_self, Dev.channelStatus_congr par wave]

/-- The device whose out-slots send in the first unmuted frame. -/
def Dev.unmuteSent (d : Dev) : Dev := d.muteOver.statusSent.sendSlots

theorem Dev.unmuteSent_par : d.unmuteSent.par = d.par := by
  rw [Dev.unmuteSent, Dev.sendSlots_par]
  exact (congrArg Dev.par d.muteOver.statusSent_beside :)

theorem Dev.unmuteSent_isIn (j : Fin 16) : d.unmuteSent.isIn j = d.isIn j := by
  rw [Dev.isIn, Dev.word, d.unmuteSent_par]
  rfl

theorem Dev.unmuteSent_waveSlots : d.unmuteSent.waveSlots = d.waveSlots := by
  rw [Dev.waveSlots, Dev.fld, Dev.word, d.unmuteSent_par]
  rfl

theorem Dev.unmuteSent_get {j : Fin 16} (isIn : d.isIn j = true) : d.unmuteSent.wave.slots.get j = d.wave.slots.get j := by
  have same : d.muteOver.statusSent.isIn j = true := by
    rw [Dev.isIn, Dev.word, (congrArg Dev.par d.muteOver.statusSent_beside :)]
    exact isIn
  rw [Dev.unmuteSent, Dev.sendSlots_get _ same, Dev.statusSent_get d.muteOver isIn]
  rfl

theorem Dev.unmuted_wave : d.unmuted.wave = d.unmuteSent.useWords.wave := Dev.event_wave ..

theorem Dev.unmuted_besideSlots : d.unmuted.wave.besideSlots = d.muteOver.wave.besideSlots := by
  rw [Dev.unmuted_wave, Dev.useWords_besideSlots, Dev.unmuteSent, Dev.sendSlots_besideSlots]
  exact congrArg Dev.wave d.muteOver.statusSent_beside

theorem Dev.unmuted_cs {k : Fin 16} (live : k.val < d.waveSlots) (out : d.isIn k = false) :
    (d.unmuted.wave.slots.get k).cs = d.channelStatus k := by
  rw [Dev.unmuted_wave, Dev.useWords_get _ (.inl ((d.unmuteSent_isIn k).trans out)), Dev.unmuteSent, Dev.sendSlots_cs,
    Dev.statusSent_cs d.muteOver live out]
  rfl

theorem Dev.unmuted_get {k : Fin 16} (isIn : d.isIn k = true) (nothing : (d.wave.slots.get k).inFrame = none) :
    d.unmuted.wave.slots.get k = d.wave.slots.get k := by
  have slot := d.unmuteSent_get isIn
  rw [Dev.unmuted_wave, Dev.useWords_get _ (.inr (by rw [slot, nothing])), slot]

theorem Dev.unmuted_duty {k : Fin 16} {x : Option Nat × Mask × Mask} (live : k.val < d.waveSlots) (isIn : d.isIn k = true)
    (brought : (d.wave.slots.get k).inFrame = some x) : (d.unmuted.wave.slots.get k).duty =
    if parityOk (d.wave.slots.get k).lastWord = true ∧ bit (d.wave.slots.get k).lastWord 7 = false then
      some (bits (d.wave.slots.get k).lastWord 16 16) else (d.wave.slots.get k).duty := by
  have slot := d.unmuteSent_get isIn
  have live' : k.val < d.unmuteSent.waveSlots := d.unmuteSent_waveSlots ▸ live
  rw [Dev.unmuted_wave, Dev.useWords_duty _ live' ((d.unmuteSent_isIn k).trans isIn) (slot ▸ brought), slot]

theorem Dev.unmuted_log {d : Dev} (no_por : d.ctl.por = false) :
    d.unmuted.log = d.loggedAs [(0x0502, 0xFF, leBytes 4 (min (d.wave.muted - 1) 0xFFFFFFFF))] := by
  have sent : d.unmuteSent.Keeps (· = .wave) d.muteOver :=
    Dev.sendSlots_keeps (W := (· = .wave)) rfl
      (Dev.Keeps.foldl (f := Dev.sendStatus) (.refl _) (fun _ h _ => Dev.modSlot_keeps (W := (· = .wave)) rfl h _ _) _)
  have kept : d.unmuteSent.useWords.Keeps (fun p => p = .wave ∨ p = .voices) d.muteOver :=
    Dev.useWords_keeps (.inr rfl) (.inl rfl) (sent.mono fun _ h => .inl h)
  have ctl := kept.frame .ctl (by simp)
  have log := kept.frame .log (by simp)
  have time := kept.frame .time (by simp)
  refine (Dev.event_logged d.unmuteSent.useWords 0x0502 0xFF _ ((congrArg Control.por ctl :).trans no_por)).trans ?_
  exact Dev.loggedAs_congr log time _

end

/-! ### Freezing (12 R350) -/

/-- A slot whose frames after the fault have passed freezes. -/
def Dev.waveFrozen (d : Dev) (k : Fin 16) (v : VoiceId) (code post : Nat) : Dev :=
  (d.modSlot k fun x => { x with frozen := true, armed := none, counting := none }).event 0x0503 k.val
    ([b8 v.val, b8 code] ++ leBytes 2 post)

theorem execWaveFrozen_frozen {s : State} {dt : Nat} {k : Fin 16} {v : VoiceId} {code post : Nat}
    (counted : ((s.turn dt).dev.wave.slots.get k).counting = some (0, v, code, post)) :
    exec (.waveFrozen dt k) s = .next (s.after dt fun d => d.waveFrozen k v code post) := by
  refine congrArg Host.Outcome.next (State.after_congr ?_)
  split
  next v' code' post' counted' =>
    cases counted.symm.trans counted'
    rfl
  next other => exact absurd counted (other v code post)

section
variable (d : Dev) (k : Fin 16) (v : VoiceId) (code post : Nat)

theorem Dev.waveFrozen_get_self : (d.waveFrozen k v code post).wave.slots.get k =
    { d.wave.slots.get k with frozen := true, armed := none, counting := none } := by
  rw [Dev.waveFrozen, Dev.event_wave, Dev.modSlot_get_self]

theorem Dev.waveFrozen_get_ne {j : Fin 16} (other : j ≠ k) :
    (d.waveFrozen k v code post).wave.slots.get j = d.wave.slots.get j := by
  rw [Dev.waveFrozen, Dev.event_wave, Dev.modSlot_get_ne other]

theorem Dev.waveFrozen_log {d : Dev} (no_por : d.ctl.por = false) :
    (d.waveFrozen k v code post).log = d.loggedAs [(0x0503, k.val, [b8 v.val, b8 code] ++ leBytes 2 post)] :=
  Dev.event_logged (Dev.modSlot _ _ _) _ _ _ no_por

end

end Sys2Proof.Machine

namespace Sys2Proof
open Machine

/-- Settles O52: a clock loss by `Dev.waveLost`, an unmute by what each of its folds over the slots makes of one slot, a freeze
by `Dev.waveFrozen`. -/
theorem waveLossAndFreezeAct : Obligations.WaveLossAndFreezeAct := by
  intro s dt d w
  refine ⟨fun cause on slave second no_por => ⟨_, execWaveLoss_lost on slave second, ?loss⟩,
    fun cause idle => ⟨_, execWaveLoss_ignored idle, State.after_wave ..⟩,
    fun acquiring marked start stable no_por => ⟨_, execWaveUnmute_unmuted acquiring marked start stable, ?unmute⟩,
    fun k v code post counted no_por => ⟨_, execWaveFrozen_frozen counted, ?freeze⟩⟩
  case loss =>
    rw [State.after_wave]
    exact ⟨d.waveLost_st cause, d.waveLost_losses cause, d.waveLost_stable cause, d.waveLost_duty cause, d.waveLost_frameErr cause,
      State.after_logged ((Dev.waveLost_log cause no_por).trans (by cases cause <;> rfl))⟩
  case unmute =>
    have beside := d.unmuted_besideSlots
    rw [State.after_wave]
    exact ⟨(congrArg Wave.st beside :), (congrArg Wave.muted beside :), fun k live out => d.unmuted_cs live out,
      fun k isIn nothing => d.unmuted_get isIn nothing, fun k x live isIn brought => d.unmuted_duty live isIn brought,
      State.after_logged (Dev.unmuted_log no_por)⟩
  case freeze =>
    rw [State.after_wave]
    exact ⟨d.waveFrozen_get_self k v code post, fun j other => d.waveFrozen_get_ne k v code post other,
      State.after_logged (Dev.waveFrozen_log k v code post no_por)⟩

end Sys2Proof

/-! SUPPORT. O26, O60: the opcodes of the converter (11 R315, R327 to R329). -/

namespace Sys2Proof.Machine
open Sys2Proof

/-! ### A packet whose opcode answers -/

/-- An opcode that answers at once and leaves the queue alone: its reply, and what it makes of the device. -/
theorem State.packet_acts {s : State} {opc tag st : Byte} {a data : List Byte} {d : Dev} (h : s.accepts opc a)
    (action : Dev.perform s.snap s.dev.opened { dest := 0, opc := opc, tag := tag, params := a } false = (d, some ⟨st, data, none⟩))
    (queue : d.port.replies = s.dev.port.replies) :
    ∃ t, s.packet opc 0 tag a = .next t ∧ Answered s t opc tag st data ∧ t.dev.Keeps (· ∈ [.port, .chain, .patch]) d := by
  obtain ⟨t, runs, keeps, -⟩ := State.packet_performs h action
  obtain ⟨u, runs', answered⟩ := State.packet_answered h action queue
  cases runs.symm.trans runs'
  exact ⟨t, runs, answered, keeps⟩

/-! ### The engines one by one, with what is told of each -/

/-- Over the engines one by one, what is told of each is told of it as it stood before. -/
theorem OwnEngine.foldl_told {A γ : Type} {f : Dev → EngineId → Dev} {g : Dev → EngineId → γ} {add : A → γ → A}
    (own : OwnEngine f) (told : ∀ d d' e, d.par = d'.par → d.conv.engines.get e = d'.conv.engines.get e → g d e = g d' e)
    {l : List EngineId} (once : l.Nodup) (d : Dev) (acc : A) :
    l.foldl (fun acc e => (f acc.1 e, add acc.2 (g acc.1 e))) (d, acc) = (l.foldl f d, (l.map (g d)).foldl add acc) := by
  induction l generalizing d acc with
  | nil => rfl
  | cons k l ih =>
    obtain ⟨absent, once⟩ := List.nodup_cons.1 once
    have later : l.map (g (f d k)) = l.map (g d) := List.map_congr_left fun e mem =>
      told _ _ e (congrArg Dev.par (own.beside d k) :) (own.others d k e fun same => absent (same ▸ mem))
    rw [List.foldl_cons, ih once, later]
    rfl

section
variable (d : Dev) (e : EngineId)

/-! ### ADC_ENGINE_CTRL (11 R329) -/

/-- An engine after an action of ADC_ENGINE_CTRL: `any` where its mask holds an input that cannot pause. -/
def Engine.acted (x : Engine) (any enabled : Bool) (now : Nat) : Nat → Engine
  | 1 => if any then x else { x with paused := true }
  | 2 => if enabled && x.paused then { x with paused := false, nextScan := now, blocks := [] } else x
  | 3 => if enabled then { x with read := x.write } else x
  | _ => x

theorem Engine.acted_pause (x : Engine) (any enabled : Bool) (now : Nat) :
    x.acted any enabled now 1 = if any then x else { x with paused := true } := rfl

theorem Engine.acted_run (x : Engine) (any enabled : Bool) (now : Nat) : x.acted any enabled now 2 =
    if enabled && x.paused then { x with paused := false, nextScan := now, blocks := [] } else x := rfl

theorem Engine.acted_flush (x : Engine) (any enabled : Bool) (now : Nat) :
    x.acted any enabled now 3 = if enabled then { x with read := x.write } else x := rfl

theorem Dev.engineAction_pause : d.engineAction e 1 =
    if (d.engInputs e).any (· < 96) then (d, 2) else if (d.conv.engines.get e).paused then (d, 1)
    else (d.modEngine e fun x => { x with paused := true }, 0) := rfl

theorem Dev.engineAction_run : d.engineAction e 2 =
    if !d.engEnabled e then (d, 2) else if (d.conv.engines.get e).paused then
      (d.modEngine e fun x => { x with paused := false, nextScan := d.now, blocks := [] }, 0) else (d, 1) := rfl

theorem Dev.engineAction_flush : d.engineAction e 3 =
    if !d.engEnabled e then (d, 2) else (d.modEngine e fun x => { x with read := x.write }, 0) := rfl

theorem Dev.engineAction_get (a : Nat) : (d.engineAction e a).1.conv.engines.get e =
    (d.conv.engines.get e).acted ((d.engInputs e).any (· < 96)) (d.engEnabled e) d.now a := by
  match a with
  | 0 => rfl
  | 1 =>
    rw [Dev.engineAction_pause, Engine.acted_pause]
    split
    · rfl
    · split
      next paused => rw [← paused]
      next => exact Dev.modEngine_get_self _
  | 2 =>
    rw [Dev.engineAction_run, Engine.acted_run]
    cases enabled : d.engEnabled e with
    | false => rfl
    | true =>
      cases paused : (d.conv.engines.get e).paused with
      | false => rfl
      | true => exact Dev.modEngine_get_self _
  | 3 =>
    rw [Dev.engineAction_flush, Engine.acted_flush]
    cases enabled : d.engEnabled e with
    | false => rfl
    | true => exact Dev.modEngine_get_self _
  | _ + 4 => rfl

/-- The result of an action for an engine: done, already so, or refused. -/
def Dev.actionResult (d : Dev) (e : EngineId) (a : Nat) : Byte := (d.engineAction e a).2

theorem Dev.actionResult_pause : d.actionResult e 1 =
    if (d.engInputs e).any (· < 96) then 2 else if (d.conv.engines.get e).paused then 1 else 0 := by
  simp only [Dev.actionResult, Dev.engineAction_pause, apply_ite Prod.snd]

theorem Dev.actionResult_run : d.actionResult e 2 =
    if !d.engEnabled e then 2 else if !(d.conv.engines.get e).paused then 1 else 0 := by
  simp only [Dev.actionResult, Dev.engineAction_run, apply_ite Prod.snd]
  cases (d.conv.engines.get e).paused <;> rfl

theorem Dev.actionResult_flush : d.actionResult e 3 = if !d.engEnabled e then 2 else 0 := by
  simp only [Dev.actionResult, Dev.engineAction_flush, apply_ite Prod.snd]

variable {d e}

theorem Dev.word_congr {d' : Dev} (par : d.par = d'.par) : d.word = d'.word :=
  congrArg (fun p : ParamSpace => wordGet p.live) par

theorem Dev.engInputs_congr {d' : Dev} (par : d.par = d'.par) : d.engInputs e = d'.engInputs e := by
  rw [Dev.engInputs, Dev.word_congr par, ← Dev.engInputs]

theorem Dev.engEnabled_congr {d' : Dev} (par : d.par = d'.par) : d.engEnabled e = d'.engEnabled e := by
  rw [Dev.engEnabled, Dev.word_congr par, ← Dev.engEnabled]

theorem Dev.engTrig_congr {d' : Dev} (par : d.par = d'.par) : d.engTrig e = d'.engTrig e := by
  rw [Dev.engTrig, Dev.fld, Dev.word_congr par, ← Dev.fld, ← Dev.engTrig]

theorem Dev.actionResult_congr {d' : Dev} (par : d.par = d'.par) (same : d.conv.engines.get e = d'.conv.engines.get e) (a : Nat) :
    d.actionResult e a = d'.actionResult e a := by
  have inputs := Dev.engInputs_congr (e := e) par
  have enabled := Dev.engEnabled_congr (e := e) par
  match a with
  | 1 => rw [Dev.actionResult_pause, Dev.actionResult_pause, inputs, same]
  | 2 => rw [Dev.actionResult_run, Dev.actionResult_run, enabled, same]
  | 3 => rw [Dev.actionResult_flush, Dev.actionResult_flush, enabled]
  | 0 => rfl
  | _ + 4 => rfl

/-- The action of ADC_ENGINE_CTRL for one engine. -/
def Dev.actOn (p : List Byte) (d : Dev) (e : EngineId) : Dev := (d.engineAction e (byteAt p e.val)).1

theorem Dev.actOn_own (p : List Byte) : OwnEngine (Dev.actOn p) where
  beside d e := by
    unfold Dev.actOn Dev.engineAction
    dsimp only
    repeat' split
    all_goals rfl
  others d e k other := by
    unfold Dev.actOn Dev.engineAction
    dsimp only
    repeat' split
    all_goals first | rfl | exact Dev.modEngine_get_ne _ other
  congr d d' e beside same := by
    have par : d.par = d'.par := (congrArg Dev.par beside :)
    have now_same : d.now = d'.now := (congrArg Dev.now beside :)
    rw [Dev.actOn, Dev.actOn, Dev.engineAction_get, Dev.engineAction_get, Dev.engInputs_congr par, Dev.engEnabled_congr par,
      now_same, same]

/-- ADC_ENGINE_CTRL with known actions acts on the engines one by one, and tells the result of each. -/
theorem opEngineCtrl_of_known {p : List Byte} (known : p.any (fun a => 3 < a.toNat) = false) (d : Dev) :
    opEngineCtrl p d = ((idx 4).foldl (Dev.actOn p) d, ok ((idx 4).map fun e => d.actionResult e (byteAt p e.val))) := by
  have acted : (idx 4).foldl (fun (acc : Dev × List Byte) e =>
      (Dev.actOn p acc.1 e, acc.2 ++ [acc.1.actionResult e (byteAt p e.val)])) (d, []) =
        ((idx 4).foldl (Dev.actOn p) d, (idx 4).map fun e => d.actionResult e (byteAt p e.val)) :=
    (Dev.actOn_own p).foldl_told (add := fun l r => l ++ [r]) (g := fun d e => d.actionResult e (byteAt p e.val))
      (fun _ _ _ par same => Dev.actionResult_congr par same _) (idx_nodup 4) d []
  unfold opEngineCtrl
  rw [known]
  exact congrArg (fun r : Dev × List Byte => (r.1, ok r.2)) acted

/-- The parameters of ADC_ENGINE_CTRL with one action for the engines of a mask. -/
theorem byteAt_engineBytes (m : BitVec 4) (action : Byte) (e : EngineId) :
    byteAt (engineBytes m action) e.val = if m.getLsbD e.val then action.toNat else 0 := by
  have here : (engineBytes m action).getD e.val 0 = if m.getLsbD e.val then action else 0 := by
    simp [engineBytes, List.getD, e.isLt]
  rw [byteAt, here]
  split <;> rfl

theorem engineBytes_known (m : BitVec 4) {action : Byte} (known : action.toNat ≤ 3) :
    (engineBytes m action).any (fun a => 3 < a.toNat) = false := by
  simp only [engineBytes, List.any_map, List.any_eq_false]
  intro k _
  simp only [Function.comp, decide_eq_true_eq, Nat.not_lt]
  split
  · exact known
  · exact Nat.zero_le 3

/-- ADC_ENGINE_CTRL with one action for the engines of a mask: its results, and what it makes of each engine. -/
theorem State.engineCtrl_acts {s : State} {tag action : Byte} {m : BitVec 4} (h : s.accepts 0x42 (engineBytes m action))
    (known : action.toNat ≤ 3) :
    ∃ t, s.packet 0x42 0 tag (engineBytes m action) = .next t ∧
      Answered s t 0x42 tag 0 ((idx 4).map fun e => if m.getLsbD e.val then s.dev.actionResult e action.toNat else 1) ∧
      ∀ e : EngineId, t.dev.conv.engines.get e = if m.getLsbD e.val then
        (s.dev.conv.engines.get e).acted ((s.dev.engInputs e).any (· < 96)) (s.dev.engEnabled e) s.dev.now action.toNat
        else s.dev.conv.engines.get e := by
  have acted := congrArg acts (opEngineCtrl_of_known (engineBytes_known m known) s.dev.opened)
  have queue : ((idx 4).foldl (Dev.actOn (engineBytes m action)) s.dev.opened).port.replies = s.dev.port.replies :=
    (congrArg (fun d : Dev => d.port.replies) ((Dev.actOn_own _).foldl_beside _ _) :).trans s.dev.opened_replies
  obtain ⟨t, runs, answered, keeps⟩ := State.packet_acts (tag := tag) h acted queue
  refine ⟨t, runs, ?_, fun e => ?_⟩
  · have results : (idx 4).map (fun e => s.dev.opened.actionResult e (byteAt (engineBytes m action) e.val)) =
        (idx 4).map fun e => if m.getLsbD e.val then s.dev.actionResult e action.toNat else 1 := List.map_congr_left fun e _ => by
      rw [byteAt_engineBytes, Dev.actionResult_congr (d' := s.dev) s.dev.opened_par (by rw [Dev.opened_conv])]
      split <;> rfl
    exact results ▸ answered
  · have conv : t.dev.conv = _ := keeps.frame .conv (by decide)
    rw [conv, (Dev.actOn_own _).foldl_get (idx_nodup 4) (mem_idx e), Dev.actOn, Dev.engineAction_get, byteAt_engineBytes,
      Dev.engInputs_congr s.dev.opened_par, Dev.engEnabled_congr s.dev.opened_par, Dev.opened_conv]
    split
    · rw [Dev.now, Dev.opened_time]
      rfl
    · rfl

/-! ### CONVERT_NOW (11 R315, R328) -/

variable (d : Dev) (m : Nat) (e : EngineId)

/-- CONVERT_NOW refuses an engine that is disabled or paused. -/
def Dev.convRefused : Bool := m.testBit e.val && (!d.engEnabled e || (d.conv.engines.get e).paused)

/-- CONVERT_NOW drops the scan of an engine that scans continuously or has a scan under way. -/
def Dev.convDropped : Bool :=
  m.testBit e.val && !d.convRefused m e && (d.engTrig e = 0 || (d.conv.engines.get e).todo ≠ [])

/-- CONVERT_NOW starts a scan of any other engine that it names. -/
def Dev.convStarted : Bool := m.testBit e.val && !d.convRefused m e && !d.convDropped m e

/-- CONVERT_NOW for one engine. -/
def Dev.convertOne (d : Dev) (e : EngineId) : Dev :=
  if d.convDropped m e then d.modEngine e fun x => { x with drops := stick 16 (x.drops + 1) }
  else if d.convStarted m e then d.startScan e 0 else d

/-- An engine after CONVERT_NOW. -/
theorem Dev.convertOne_get : (d.convertOne m e).conv.engines.get e =
    if d.convDropped m e then { d.conv.engines.get e with drops := stick 16 ((d.conv.engines.get e).drops + 1) }
    else if d.convStarted m e then
      (d.conv.engines.get e).scanStarted e (d.scanInputs e) (d.now + 0) (d.time.tbc + (0 : Nat)) d.time.onFallback
    else d.conv.engines.get e := by
  unfold Dev.convertOne
  split
  · exact Dev.modEngine_get_self _
  · split
    · exact Dev.startScan_get 0
    · rfl

theorem Dev.convertOne_drops : ((d.convertOne m e).conv.engines.get e).drops =
    if d.convDropped m e then stick 16 ((d.conv.engines.get e).drops + 1) else (d.conv.engines.get e).drops := by
  rw [Dev.convertOne_get]
  split
  · rfl
  · split <;> rfl

/-- What CONVERT_NOW tells of an engine: whether its scan started, was dropped or refused, and the number of its scan. -/
def Dev.convTold : Bool × Bool × Bool × Option Nat :=
  (d.convStarted m e, d.convDropped m e, d.convRefused m e,
    if d.convStarted m e then some (d.conv.engines.get e).scanNo else none)

variable {d e} in
theorem Dev.convRefused_congr {d' : Dev} (par : d.par = d'.par) (same : d.conv.engines.get e = d'.conv.engines.get e) :
    d.convRefused m e = d'.convRefused m e := by
  rw [Dev.convRefused, Dev.engEnabled_congr par, same, ← Dev.convRefused]

variable {d e} in
theorem Dev.convDropped_congr {d' : Dev} (par : d.par = d'.par) (same : d.conv.engines.get e = d'.conv.engines.get e) :
    d.convDropped m e = d'.convDropped m e := by
  unfold Dev.convDropped
  rw [Dev.convRefused_congr m par same, Dev.engTrig_congr par, same]

variable {d e} in
theorem Dev.convStarted_congr {d' : Dev} (par : d.par = d'.par) (same : d.conv.engines.get e = d'.conv.engines.get e) :
    d.convStarted m e = d'.convStarted m e := by
  rw [Dev.convStarted, Dev.convRefused_congr m par same, Dev.convDropped_congr m par same, ← Dev.convStarted]

variable {d e} in
theorem Dev.convTold_congr {d' : Dev} (par : d.par = d'.par) (same : d.conv.engines.get e = d'.conv.engines.get e) :
    d.convTold m e = d'.convTold m e := by
  rw [Dev.convTold, Dev.convStarted_congr m par same, Dev.convDropped_congr m par same, Dev.convRefused_congr m par same, same,
    ← Dev.convTold]

theorem Dev.convertOne_own : OwnEngine (Dev.convertOne m) where
  beside d e := by
    unfold Dev.convertOne
    split
    · rfl
    · split <;> rfl
  others d e k other := by
    unfold Dev.convertOne
    split
    · exact Dev.modEngine_get_ne _ other
    · split
      · exact Dev.startScan_get_ne _ other
      · rfl
  congr d d' e beside same := by
    have par : d.par = d'.par := (congrArg Dev.par beside :)
    have time : d.time = d'.time := (congrArg Dev.time beside :)
    have inputs : d.scanInputs e = d'.scanInputs e := (congrArg (Dev.scanInputs · e) beside :)
    rw [Dev.convertOne_get, Dev.convertOne_get, Dev.convDropped_congr m par same, Dev.convStarted_congr m par same, inputs,
      Dev.now, Dev.now, time, same]

/-- What CONVERT_NOW has gathered of the engines so far. -/
abbrev ConvTold := List Bool × List Bool × List Bool × List (Option Nat)

/-- The next engine is told behind those before it. -/
def ConvTold.add (l : ConvTold) (r : Bool × Bool × Bool × Option Nat) : ConvTold :=
  (l.1 ++ [r.1], l.2.1 ++ [r.2.1], l.2.2.1 ++ [r.2.2.1], l.2.2.2 ++ [r.2.2.2])

theorem opConvertNow_of_some {p : List Byte} (some_ : byteAt p 0 ≠ 0) (d : Dev) : opConvertNow p d =
    ((idx 4).foldl (Dev.convertOne (byteAt p 0)) d,
      ok ([b8 (packBits ((idx 4).map (d.convStarted (byteAt p 0)))), b8 (packBits ((idx 4).map (d.convDropped (byteAt p 0)))),
        b8 (packBits ((idx 4).map (d.convRefused (byteAt p 0))))] ++
        (idx 4).flatMap fun e => leBytes 4 (if d.convStarted (byteAt p 0) e then (d.conv.engines.get e).scanNo else 0xFFFFFFFF))) := by
  have gone := (Dev.convertOne_own (byteAt p 0)).foldl_told (add := ConvTold.add) (g := fun d e => d.convTold (byteAt p 0) e)
    (fun _ _ _ par same => Dev.convTold_congr _ par same) (idx_nodup 4) d ([], [], [], [])
  unfold opConvertNow
  extract_lets m go
  rw [if_neg some_]
  have step : go = fun acc e => (Dev.convertOne m acc.1 e, ConvTold.add acc.2 (acc.1.convTold m e)) := by
    funext ⟨d, st, dr, rf, ns⟩ e
    by_cases named : m.testBit e.val
    · by_cases refused : d.engEnabled e = false ∨ (d.conv.engines.get e).paused = true
      · have r : d.convRefused m e = true := by simpa [Dev.convRefused, named] using refused
        simp [go, named, refused, Dev.convertOne, Dev.convTold, ConvTold.add, Dev.convDropped, Dev.convStarted, r]
      · have r : d.convRefused m e = false := by simpa [Dev.convRefused, named] using refused
        by_cases continuous : d.engTrig e = 0
        · simp [go, named, refused, continuous, Dev.convertOne, Dev.convTold, ConvTold.add, Dev.convDropped, Dev.convStarted, r]
        · by_cases free : (d.conv.engines.get e).todo = []
          · simp [go, named, refused, continuous, free, Dev.convertOne, Dev.convTold, ConvTold.add, Dev.convDropped,
              Dev.convStarted, r]
          · simp [go, named, refused, continuous, free, Dev.convertOne, Dev.convTold, ConvTold.add, Dev.convDropped,
              Dev.convStarted, r]
    · simp [go, named, Dev.convertOne, Dev.convTold, ConvTold.add, Dev.convRefused, Dev.convDropped, Dev.convStarted]
  have number (b : Bool) (n : Nat) : (if b then some n else none).getD 0xFFFFFFFF = if b then n else 0xFFFFFFFF := by
    cases b <;> rfl
  rw [step, gone]
  simp [ConvTold.add, Dev.convTold, idx, number]

/-- CONVERT_NOW on an open port: what it answers, and what it makes of each engine. -/
theorem State.convertNow_acts {s : State} {tag : Byte} {p : List Byte} (h : s.accepts 0x41 p) (some_ : byteAt p 0 ≠ 0) :
    ∃ t, s.packet 0x41 0 tag p = .next t ∧
      Answered s t 0x41 tag 0 ([b8 (packBits ((idx 4).map (s.dev.convStarted (byteAt p 0)))),
        b8 (packBits ((idx 4).map (s.dev.convDropped (byteAt p 0)))),
        b8 (packBits ((idx 4).map (s.dev.convRefused (byteAt p 0))))] ++
        (idx 4).flatMap fun e =>
          leBytes 4 (if s.dev.convStarted (byteAt p 0) e then (s.dev.conv.engines.get e).scanNo else 0xFFFFFFFF)) ∧
      ∀ e : EngineId, t.dev.conv.engines.get e = (s.dev.convertOne (byteAt p 0) e).conv.engines.get e := by
  obtain ⟨fs, opened⟩ := s.dev.opened_eq
  have acted := congrArg acts (opConvertNow_of_some some_ s.dev.opened)
  have queue : ((idx 4).foldl (Dev.convertOne (byteAt p 0)) s.dev.opened).port.replies = s.dev.port.replies :=
    (congrArg (fun d : Dev => d.port.replies) ((Dev.convertOne_own _).foldl_beside _ _) :).trans s.dev.opened_replies
  obtain ⟨t, runs, answered, keeps⟩ := State.packet_acts (tag := tag) h acted queue
  refine ⟨t, runs, ?_, fun e => ?_⟩
  · rw [opened] at answered
    exact answered
  · have conv : t.dev.conv = _ := keeps.frame .conv (by decide)
    rw [conv, (Dev.convertOne_own _).foldl_get (idx_nodup 4) (mem_idx e), opened, Dev.convertOne_get, Dev.convertOne_get]
    rfl

end

/-! ### ADC_READ_BUFFER (11 R327) -/

theorem fitRecords_le (x : Engine) (times : Bool) (rs : List (Word × Nat)) (n : Nat) : fitRecords x times rs n ≤ n := by
  induction n with
  | zero => exact Nat.le_refl 0
  | succ n ih =>
    unfold fitRecords
    extract_lets got size
    split
    · exact List.length_take_le ..
    · exact Nat.le_trans ih (Nat.le_succ n)

/-- The engine that ADC_READ_BUFFER names. -/
def readEngine (p : List Byte) : EngineId := ⟨byteAt p 0 % 4, Nat.mod_lt _ (by decide)⟩

/-- An engine `d` whose records up to `upto` have been read, by the control byte of ADC_READ_BUFFER. -/
def Dev.bufferRead (d : Dev) (e : EngineId) (ctrl upto : Nat) : Dev :=
  let d1 := if ctrl.testBit 0 then d else d.modEngine e fun x => { x with read := max x.read upto }
  if ctrl.testBit 2 then d1.modEngine e fun x => { x with
      overrun := d.sinceSlot (3 * e.val) x.overrun, drops := d.sinceSlot (3 * e.val + 1) x.drops
      trigOverrun := d.sinceSlot (3 * e.val + 2) x.trigOverrun } else d1

theorem opReadBuffer_of_range {p : List Byte} (engine : byteAt p 0 < 4) (few : field p 2 2 ≤ 2034) (snap d : Dev) :
    ∃ n rest, n ≤ field p 2 2 ∧ opReadBuffer snap p d =
      (d.bufferRead (readEngine p) (byteAt p 1) (max (snap.conv.engines.get (readEngine p)).read
        ((d.conv.engines.get (readEngine p)).write - d.engCap (readEngine p)) + n), ok (b8 (readEngine p).val :: rest)) := by
  have range : ¬ (4 ≤ byteAt p 0 || 2034 < field p 2 2) = true := by simp; omega
  unfold opReadBuffer
  rw [if_neg range]
  exact ⟨_, _, Nat.le_trans (fitRecords_le ..) (Nat.min_le_left ..), rfl⟩

section
variable (d : Dev) (e : EngineId) (ctrl upto : Nat)

/-- An engine after ADC_READ_BUFFER. -/
def Engine.bufferRead (x : Engine) (found : Nat → Nat) (ctrl upto : Nat) : Engine :=
  let x1 := if ctrl.testBit 0 then x else { x with read := max x.read upto }
  if ctrl.testBit 2 then { x1 with
    overrun := x.overrun - found 0, drops := x.drops - found 1, trigOverrun := x.trigOverrun - found 2 } else x1

theorem Dev.bufferRead_get : (d.bufferRead e ctrl upto).conv.engines.get e =
    (d.conv.engines.get e).bufferRead (fun k => d.found.getD (3 * e.val + k) 0) ctrl upto := by
  unfold Dev.bufferRead Engine.bufferRead
  cases ctrl.testBit 0 <;> cases ctrl.testBit 2 <;> simp only [if_true, Bool.false_eq_true, if_false, Dev.modEngine_get_self] <;> rfl

theorem Dev.bufferRead_get_ne {u : EngineId} (other : u ≠ e) :
    (d.bufferRead e ctrl upto).conv.engines.get u = d.conv.engines.get u := by
  unfold Dev.bufferRead
  cases ctrl.testBit 0 <;> cases ctrl.testBit 2 <;> simp only [if_true, Bool.false_eq_true, if_false, Dev.modEngine_get_ne _ other]

theorem Dev.bufferRead_port : (d.bufferRead e ctrl upto).port = d.port := by
  unfold Dev.bufferRead
  cases ctrl.testBit 0 <;> cases ctrl.testBit 2 <;> rfl

theorem Engine.bufferRead_read (x : Engine) (found : Nat → Nat) :
    (x.bufferRead found ctrl upto).read = if ctrl.testBit 0 then x.read else max x.read upto := by
  unfold Engine.bufferRead
  cases ctrl.testBit 0 <;> cases ctrl.testBit 2 <;> rfl

theorem Engine.bufferRead_of_clear (x : Engine) (found : Nat → Nat) (clear : ctrl.testBit 2 = true) :
    (x.bufferRead found ctrl upto).overrun = x.overrun - found 0 ∧ (x.bufferRead found ctrl upto).drops = x.drops - found 1 ∧
      (x.bufferRead found ctrl upto).trigOverrun = x.trigOverrun - found 2 := by
  unfold Engine.bufferRead
  rw [clear]
  exact ⟨rfl, rfl, rfl⟩

theorem Engine.bufferRead_of_keep (x : Engine) (found : Nat → Nat) (keep : ctrl.testBit 2 = false) :
    (x.bufferRead found ctrl upto).overrun = x.overrun ∧ (x.bufferRead found ctrl upto).drops = x.drops ∧
      (x.bufferRead found ctrl upto).trigOverrun = x.trigOverrun := by
  unfold Engine.bufferRead
  rw [keep]
  cases ctrl.testBit 0 <;> exact ⟨rfl, rfl, rfl⟩

end

/-- ADC_READ_BUFFER of an engine: its answer, and what it makes of each engine. -/
theorem State.readBuffer_acts {s : State} {tag : Byte} {p : List Byte} (h : s.accepts 0x40 p) (engine : byteAt p 0 < 4)
    (few : field p 2 2 ≤ 2034) :
    ∃ t n rest, s.packet 0x40 0 tag p = .next t ∧ n ≤ field p 2 2 ∧ Answered s t 0x40 tag 0 (b8 (readEngine p).val :: rest) ∧
      t.dev.conv.engines.get (readEngine p) = (s.dev.conv.engines.get (readEngine p)).bufferRead
        (fun k => s.dev.found.getD (3 * (readEngine p).val + k) 0) (byteAt p 1)
        (max (s.snap.conv.engines.get (readEngine p)).read
          ((s.dev.conv.engines.get (readEngine p)).write - s.dev.engCap (readEngine p)) + n) ∧
      ∀ u, u ≠ readEngine p → t.dev.conv.engines.get u = s.dev.conv.engines.get u := by
  obtain ⟨fs, opened⟩ := s.dev.opened_eq
  obtain ⟨n, rest, fits, action⟩ := opReadBuffer_of_range engine few s.snap s.dev.opened
  have queue := congrArg HostPort.replies (s.dev.opened.bufferRead_port (readEngine p) (byteAt p 1)
    (max (s.snap.conv.engines.get (readEngine p)).read
      ((s.dev.opened.conv.engines.get (readEngine p)).write - s.dev.opened.engCap (readEngine p)) + n))
  obtain ⟨t, runs, answered, keeps⟩ := State.packet_acts (tag := tag) h (congrArg acts action) (queue.trans s.dev.opened_replies)
  have conv : t.dev.conv = _ := keeps.frame .conv (by decide)
  refine ⟨t, n, rest, runs, fits, answered, ?_, fun u other => ?_⟩
  · rw [conv, Dev.bufferRead_get, opened]
    rfl
  · rw [conv, Dev.bufferRead_get_ne _ _ _ _ other, Dev.opened_conv]

end Sys2Proof.Machine

namespace Sys2Proof
open Machine

/-- Settles O26: each opcode by what it makes of one engine. -/
theorem converterOpcodesAct : Obligations.ConverterOpcodesAct := by
  intro s tag
  have low (e : EngineId) (x : Byte) (l : List Byte) : byteAt (b8 e.val :: x :: l) 0 = e.val :=
    Nat.mod_eq_of_lt (Nat.lt_trans e.isLt (by decide))
  refine ⟨fun e ctrl lo hi h few => ?read, fun e h enabled running triggered free => ?convert, fun m h => ?pause,
    fun m h => ?run, fun m h => ?flush⟩
  case read =>
    have named : readEngine [b8 e.val, ctrl, lo, hi] = e :=
      Fin.ext ((congrArg (· % 4) (low e ctrl [lo, hi])).trans (Nat.mod_eq_of_lt e.isLt))
    obtain ⟨t, n, rest, runs, fits, -, self, others⟩ :=
      State.readBuffer_acts (tag := tag) h (lt_of_eq_of_lt (low e ctrl [lo, hi]) e.isLt) few
    rw [named] at self others
    refine ⟨t, n, runs, fits, ?_, fun clear => ?_, fun keep => ?_, others⟩
    · rw [self]
      exact Engine.bufferRead_read ..
    · rw [self]
      exact Engine.bufferRead_of_clear _ _ _ _ clear
    · rw [self]
      exact Engine.bufferRead_of_keep _ _ _ _ keep
  case convert =>
    have mask : byteAt [b8 (2 ^ e.val)] 0 = 2 ^ e.val := Nat.mod_eq_of_lt (Nat.pow_lt_pow_right (by decide) (Nat.lt_trans e.isLt (by decide)))
    have one (u : EngineId) : (byteAt [b8 (2 ^ e.val)] 0).testBit u.val = decide (e = u) := by
      rw [mask, Nat.testBit_two_pow]
      exact decide_eq_decide.2 Fin.val_inj
    have refused : s.dev.convRefused (byteAt [b8 (2 ^ e.val)] 0) e = false := by simp [Dev.convRefused, enabled, running]
    have dropped : s.dev.convDropped (byteAt [b8 (2 ^ e.val)] 0) e = false := by simp [Dev.convDropped, triggered, free]
    have started : s.dev.convStarted (byteAt [b8 (2 ^ e.val)] 0) e = true := by simp [Dev.convStarted, one, refused, dropped]
    obtain ⟨t, runs, -, engines⟩ := State.convertNow_acts (tag := tag) h (by rw [mask]; exact Nat.ne_of_gt (Nat.two_pow_pos e.val))
    refine ⟨t, runs, ?_, ?_, fun u other => ?_⟩
    · rw [engines, Dev.convertOne_get, dropped, started]
      rfl
    · rw [engines, Dev.convertOne_get, dropped, started]
      refine (Engine.scanStarted_inputs ..).trans ?_
      rw [free]
      rfl
    · rw [engines, Dev.convertOne_get]
      simp [Dev.convDropped, Dev.convStarted, one, other.symm]
  case pause =>
    obtain ⟨t, runs, -, engines⟩ := State.engineCtrl_acts (tag := tag) h (by decide)
    refine ⟨t, runs, fun e => ?_⟩
    rw [engines]
    refine (congrArg Engine.paused (ite_congr rfl (fun _ => Engine.acted_pause ..) fun _ => rfl)).trans ?_
    cases m.getLsbD e.val <;> cases (s.dev.engInputs e).any (· < 96) <;> simp
  case run =>
    obtain ⟨t, runs, -, engines⟩ := State.engineCtrl_acts (tag := tag) h (by decide)
    refine ⟨t, runs, fun e => ?_⟩
    rw [engines]
    refine (congrArg Engine.paused (ite_congr rfl (fun _ => Engine.acted_run ..) fun _ => rfl)).trans ?_
    cases m.getLsbD e.val <;> cases s.dev.engEnabled e <;> cases paused : (s.dev.conv.engines.get e).paused <;> simp [paused]
  case flush =>
    obtain ⟨t, runs, -, engines⟩ := State.engineCtrl_acts (tag := tag) h (by decide)
    refine ⟨t, runs, fun e => ?_⟩
    rw [engines]
    refine (congrArg Engine.read (ite_congr rfl (fun _ => Engine.acted_flush ..) fun _ => rfl)).trans ?_
    cases m.getLsbD e.val <;> cases s.dev.engEnabled e <;> rfl

/-- Settles O60: the answers of the converter's opcodes, and the ends of the wave port's muted states. -/
theorem converterAndWaveCommandsComplete : Obligations.ConverterAndWaveCommandsComplete := by
  refine ⟨fun s tag e ctrl lo hi h engine few => ?read, fun s tag m h some_ => ?convert, fun s tag m => ⟨?pause, ?run, ?flush⟩,
    fun s dt => ⟨fun cause on slave single => ?loss, fun acquiring marked start stable => ?unmute, fun k counted => ?freeze⟩⟩
  case read =>
    have named : b8 (readEngine [e, ctrl, lo, hi]).val = e := by
      refine (congrArg (BitVec.ofNat 8) (Nat.mod_eq_of_lt engine)).trans ?_
      exact BitVec.ofNat_toNat 8 e |>.trans (BitVec.setWidth_eq e)
    obtain ⟨t, n, rest, runs, -, answered, -, -⟩ := State.readBuffer_acts (tag := tag) h engine few
    exact ⟨t, _, runs, answered, congrArg (fun b => [b]) named⟩
  case convert =>
    have positive : byteAt [m] 0 ≠ 0 := fun zero => some_ (BitVec.eq_of_toNat_eq zero)
    obtain ⟨t, runs, answered, engines⟩ := State.convertNow_acts (tag := tag) h positive
    refine ⟨t, runs, answered, fun e => ?_⟩
    rw [engines]
    exact Dev.convertOne_drops ..
  case pause =>
    intro h
    obtain ⟨t, runs, answered, -⟩ := State.engineCtrl_acts (tag := tag) h (by decide)
    refine ⟨t, runs, (congrArg (Answered s t 0x42 tag 0) (List.map_congr_left fun e _ => ?_)).mp answered⟩
    cases m.getLsbD e.val with
    | false => rfl
    | true => exact Dev.actionResult_pause ..
  case run =>
    intro h
    obtain ⟨t, runs, answered, -⟩ := State.engineCtrl_acts (tag := tag) h (by decide)
    refine ⟨t, runs, (congrArg (Answered s t 0x42 tag 0) (List.map_congr_left fun e _ => ?_)).mp answered⟩
    cases m.getLsbD e.val with
    | false => rfl
    | true => exact Dev.actionResult_run ..
  case flush =>
    intro h
    obtain ⟨t, runs, answered, -⟩ := State.engineCtrl_acts (tag := tag) h (by decide)
    refine ⟨t, runs, (congrArg (Answered s t 0x42 tag 0) (List.map_congr_left fun e _ => ?_)).mp answered⟩
    cases m.getLsbD e.val with
    | false => rfl
    | true => exact Dev.actionResult_flush ..
  case loss =>
    refine ⟨_, execWaveLoss_lost on slave (absurd · single), ?_⟩
    rw [State.after_wave]
    exact ⟨Dev.waveLost_st .., Dev.waveLost_losses .., (Dev.waveLost_frameErr ..).trans (if_neg single)⟩
  case unmute =>
    have beside := (s.turn dt).dev.unmuted_besideSlots
    refine ⟨_, execWaveUnmute_unmuted acquiring marked start stable, ?_⟩
    rw [State.after_wave]
    exact ⟨(congrArg Wave.st beside :), (congrArg Wave.stable beside :), (congrArg Wave.frame beside :)⟩
  case freeze =>
    obtain ⟨v, code, post, counted⟩ := counted
    have slot := (s.turn dt).dev.waveFrozen_get_self k v code post
    refine ⟨_, execWaveFrozen_frozen counted, ?_⟩
    rw [State.after_wave, slot]
    exact ⟨rfl, rfl, fun j other => Dev.waveFrozen_get_ne _ k v code post other⟩

end Sys2Proof

/-! SUPPORT. O58: raw programs and erases (14 R385, R386, R388, R391 to R393, R410, R411). -/

namespace Sys2Proof.Machine
open Sys2Proof

/-! ### The raw region after a program -/

/-- Bytes written one behind another read back, and every other byte reads as before. -/
theorem cellRead_cellsWrite (bs : List Byte) (m : List Host.Cell) (a x : Nat) : cellRead (cellsWrite m a bs) x =
    if a ≤ x ∧ x < a + bs.length then bs.getD (x - a) 0 else cellRead m x := by
  induction bs generalizing m a with
  | nil => exact (if_neg (by simp)).symm
  | cons b bs ih =>
    rw [cellsWrite, ih, List.length_cons]
    by_cases here : x = a
    · subst here
      rw [if_neg (by omega), if_pos (by omega), cellRead_cellWrite_self, Nat.sub_self, List.getD_cons_zero]
    · by_cases later : a + 1 ≤ x ∧ x < a + 1 + bs.length
      · have shifted : x - a = x - (a + 1) + 1 := by omega
        rw [if_pos later, if_pos (by omega), shifted, List.getD_cons_succ]
      · rw [if_neg later, if_neg (by omega), cellRead_cellWrite_ne m b here]

section
variable (f : Flash)

/-- The flash without the words of its raw region. -/
def Flash.besideWords : Flash := { f with raw := [], torn := [], programs := [], burns := [] }

theorem Flash.putWords_besideWords (n : Nat) : (f.putWords n).besideWords = f.besideWords := by
  induction n with
  | zero => rfl
  | succ n ih => exact Eq.trans rfl ih

theorem Flash.putWords_op (n : Nat) : (f.putWords n).op = f.op := (congrArg Flash.op (f.putWords_besideWords n) :)

/-- A program of one word reads back. -/
theorem Flash.cellRead_putWords_one (len : f.op.data.length = 8) (x : Nat) : cellRead (f.putWords 1).raw x =
    if f.op.addr ≤ x ∧ x < f.op.addr + 8 then f.op.data.getD (x - f.op.addr) 0 else cellRead f.raw x := by
  have whole : (f.op.data.drop (8 * 0)).take 8 = f.op.data := List.take_of_length_le (Nat.le_of_eq len)
  refine (cellRead_cellsWrite ..).trans ?_
  rw [whole, len]
  rfl

/-! ### Device records and the flash beside the appends -/

/-- The flash without its appends and the place of the work in hand. -/
def Flash.besideQueue : Flash :=
  { f with appends := [], nextRseq := 0, servedAt := 0, gc := none, op := { f.op with base := 0, startedAt := 0 } }

theorem Flash.pause_besideQueue (now : Nat) : (f.pause now).besideQueue = f.besideQueue := by
  unfold Flash.pause
  split
  · rfl
  · split <;> rfl

theorem Flash.yieldRaw_besideQueue (now n : Nat) : (f.yieldRaw now n).besideQueue = f.besideQueue := by
  unfold Flash.yieldRaw
  dsimp only
  split <;> rfl

theorem Flash.enqueue_besideQueue (now key : Nat) (tomb : Bool) (value : List Byte) (host : Bool) :
    (f.enqueue now key tomb value host).besideQueue = f.besideQueue :=
  (Flash.yieldRaw_besideQueue (f.pause now) now _).trans (f.pause_besideQueue now)

end

section
variable (d : Dev)

theorem Dev.storeFull_nv (key : Nat) (host : Bool) : (d.storeFull key host).nv = d.nv := by
  unfold Dev.storeFull
  rw [Dev.event_nv]
  cases host <;> rfl

theorem Dev.appendRecord_besideQueue (key : Nat) (value : List Byte) :
    (d.appendRecord key value).nv.besideQueue = d.nv.besideQueue := by
  unfold Dev.appendRecord
  extract_lets isLog k d1
  have joined : d1.nv.besideQueue = d.nv.besideQueue := d.nv.enqueue_besideQueue ..
  split
  · rfl
  · split
    · exact congrArg Flash.besideQueue (d.storeFull_nv ..)
    · split <;> exact joined

theorem Dev.deviceRecord_besideQueue (key : Nat) (value : List Byte) :
    (d.deviceRecord key value).nv.besideQueue = d.nv.besideQueue := by
  unfold Dev.deviceRecord
  split
  · split <;> rfl
  · exact d.appendRecord_besideQueue ..

/-! ### Raw operations end -/

/-- A program whose words have all been written, before it is told. -/
def Dev.programWritten : Dev := (d.setNv fun f => f.putWords d.nv.op.total).rawEnd 0 d.nv.op.total

/-- A program whose words have all been written. -/
def Dev.programEnded : Dev := d.programWritten.nvDone

/-- A program that the word `n` at address `a` has stopped. -/
def Dev.programStopped (n a : Nat) : Dev :=
  ((d.setNv fun f => (f.putWords n).tearWord a ((d.nv.op.data.drop (8 * n)).take 8) false).rawEnd 2 n).setNv
    fun f => { f with op := { f.op with failAddr := a } }

/-- A program whose word `n` at address `a` has failed its readback. -/
def Dev.programFailed (n a : Nat) : Dev := ((d.programStopped n a).verifyFail (0x80 + a / 4096) a none).nvDone

/-- The sector in hand has been erased and its count recorded. -/
def Dev.sectorErased (k : Fin 16) : Dev := (d.setNv fun f => f.eraseRaw k).eraseRecord k

/-- The erase goes on to the sectors `rest`, or ends. -/
def Dev.eraseGoesOn (k : Fin 16) (rest : List Nat) : Dev :=
  if rest.isEmpty then ((d.sectorErased k).rawEnd 0 (d.nv.op.done + 1)).nvDone
  else (d.sectorErased k).setNv fun f => { f with op := { f.op with done := d.nv.op.done + 1, sectors := rest } }

/-- The word at address `a` of an erased sector has failed its blank check. -/
def Dev.blankFailed (k : Fin 16) (a : Nat) : Dev :=
  ((((d.sectorErased k).setNv fun f => { f with
    torn := (a / 8, List.replicate 8 0xFF, List.replicate 8 0, false) :: f.torn, op := { f.op with failAddr := a } }).rawEnd 2
    d.nv.op.done).verifyFail (0x80 + k.val) a none).nvDone

end

section
variable {s : State} {dt : Nat}

theorem execNvProgramDone_ended (busy : (s.turn dt).dev.nv.op.busy = true) (kind : (s.turn dt).dev.nv.op.kind = 1)
    (written : (s.turn dt).dev.nv.op.total ≤ (s.turn dt).dev.nv.wordsDone (s.turn dt).dev.now) :
    exec (.nvProgramDone dt none) s = .next (s.after dt Dev.programEnded) := by
  refine congrArg Host.Outcome.next (State.after_congr ?_)
  refine (if_pos (by simp [busy, kind])).trans ?_
  exact if_neg (Nat.not_lt.2 written)

theorem execNvProgramDone_failed {k : Nat} (busy : (s.turn dt).dev.nv.op.busy = true) (kind : (s.turn dt).dev.nv.op.kind = 1)
    (within : k < (s.turn dt).dev.nv.op.total) (written : k < (s.turn dt).dev.nv.wordsDone (s.turn dt).dev.now) :
    exec (.nvProgramDone dt (some k)) s = .next (s.after dt fun d => d.programFailed k (d.nv.op.addr + 8 * k)) := by
  have word : min k ((s.turn dt).dev.nv.op.total - 1) = k := Nat.min_eq_left (Nat.le_sub_one_of_lt within)
  refine congrArg Host.Outcome.next (State.after_congr ?_)
  refine (if_pos (by simp [busy, kind])).trans ?_
  dsimp only
  rw [word]
  exact if_neg (Nat.not_le.2 written)

theorem execNvEraseSectorDone_erased {k : Fin 16} {rest : List Nat} (busy : (s.turn dt).dev.nv.op.busy = true)
    (kind : (s.turn dt).dev.nv.op.kind = 2) (sectors : (s.turn dt).dev.nv.op.sectors = k.val :: rest)
    (served : (s.turn dt).dev.nv.gcServed = true) (late : (s.turn dt).dev.nv.op.startedAt ≤ (s.turn dt).dev.now) :
    exec (.nvEraseSectorDone dt true) s = .next (s.after dt fun d => d.eraseGoesOn k rest) := by
  have same : (⟨k.val % 16, Nat.mod_lt _ (by decide)⟩ : Fin 16) = k := Fin.ext (Nat.mod_eq_of_lt k.isLt)
  refine congrArg Host.Outcome.next (State.after_congr ?_)
  dsimp only
  rw [sectors]
  dsimp only
  rw [same]
  refine (if_pos (by simp [busy, kind, served, late])).trans ?_
  exact if_neg (by decide)

theorem execNvEraseSectorDone_failed {k : Fin 16} {rest : List Nat} (busy : (s.turn dt).dev.nv.op.busy = true)
    (kind : (s.turn dt).dev.nv.op.kind = 2) (sectors : (s.turn dt).dev.nv.op.sectors = k.val :: rest)
    (served : (s.turn dt).dev.nv.gcServed = true) (late : (s.turn dt).dev.nv.op.startedAt ≤ (s.turn dt).dev.now) :
    ∃ w, w < 512 ∧
      exec (.nvEraseSectorDone dt false) s = .next (s.after dt fun d => d.blankFailed k (4096 * k.val + 8 * w)) := by
  refine ⟨_, Nat.mod_lt (Config.failedWord (4096 * k.val) 512 (s.turn dt).dev.now) (by decide),
    congrArg Host.Outcome.next (State.after_congr ?_)⟩
  dsimp only
  rw [sectors]
  dsimp only
  simp only [Nat.mod_eq_of_lt k.isLt]
  refine (if_pos (by simp [busy, kind, served, late])).trans ?_
  exact if_pos rfl

theorem execNvEraseSectorDone_waits {verified : Bool}
    (waits : (s.turn dt).dev.nv.gcServed = false ∨ (s.turn dt).dev.now < (s.turn dt).dev.nv.op.startedAt) :
    exec (.nvEraseSectorDone dt verified) s = .next (s.after dt fun d => d) := by
  refine congrArg Host.Outcome.next (State.after_congr ?_)
  dsimp only
  split
  · refine if_neg ?_
    obtain unserved | early := waits
    · simp [unserved]
    · simp [Nat.not_le.2 early]
  · rfl

end

section
variable (d : Dev)

theorem Dev.programWritten_nv : d.programWritten.nv = { d.nv.putWords d.nv.op.total with
    op := { d.nv.op with busy := false, result := 0, done := d.nv.op.total, data := [], sectors := [] } } :=
  (congrArg (fun o : RawOp => { d.nv.putWords d.nv.op.total with
    op := { o with busy := false, result := 0, done := d.nv.op.total, data := [], sectors := [] } }) (d.nv.putWords_op _) :)

theorem Dev.programEnded_nv : d.programEnded.nv = d.programWritten.nv := Dev.event_nv ..

variable {d} in
theorem Dev.nvDone_log (no_por : d.ctl.por = false) : d.nvDone.log =
    d.loggedAs [(0x0701, 0xFF, [b8 d.nv.op.kind, b8 d.nv.op.result] ++ leBytes 4 d.nv.op.addr)] :=
  Dev.event_logged _ _ _ _ no_por

theorem Dev.nvDone_loggedAs {e d : Dev} {es : List (Nat × Nat × List Byte)} (no_por : e.ctl.por = false) (time : e.time = d.time)
    (logged : e.log = d.loggedAs es) : e.nvDone.log =
    d.loggedAs (es ++ [(0x0701, 0xFF, [b8 e.nv.op.kind, b8 e.nv.op.result] ++ leBytes 4 e.nv.op.addr)]) :=
  Dev.event_loggedAs no_por time logged ..

variable {d} in
theorem Dev.programEnded_log (kind : d.nv.op.kind = 1) (no_por : d.ctl.por = false) :
    d.programEnded.log = d.loggedAs [(0x0701, 0xFF, [1, 0] ++ leBytes 4 d.nv.op.addr)] := by
  rw [Dev.programEnded, Dev.nvDone_log (d := d.programWritten) no_por, d.programWritten_nv]
  dsimp only
  rw [kind]
  exact Dev.loggedAs_congr rfl rfl _

theorem Dev.verifyFail_nv (unit addr : Nat) (after : Option Append) :
    (d.verifyFail unit addr after).nv = { d.nv with checks := d.nv.checks ++ [(unit, after, d.now)] } := Dev.event_nv ..

theorem Dev.verifyFail_ctl (unit addr : Nat) (after : Option Append) : (d.verifyFail unit addr after).ctl = d.ctl := Dev.event_ctl ..

theorem Dev.verifyFail_time (unit addr : Nat) (after : Option Append) : (d.verifyFail unit addr after).time = d.time :=
  Dev.event_time ..

variable {d} in
theorem Dev.verifyFail_log (no_por : d.ctl.por = false) (unit addr : Nat) (after : Option Append) :
    (d.verifyFail unit addr after).log = d.loggedAs [(0x0702, unit, leBytes 4 addr)] :=
  Dev.event_logged (d.setNv _) _ _ _ no_por

theorem Dev.nvDone_nv : d.nvDone.nv = d.nv := Dev.event_nv ..

/-- The operation that the word `n` at address `a` has stopped. -/
def RawOp.failed (o : RawOp) (n a : Nat) : RawOp :=
  { o with busy := false, result := 2, done := n, data := [], sectors := [], failAddr := a }

theorem Dev.programStopped_op (n a : Nat) : (d.programStopped n a).nv.op = d.nv.op.failed n a :=
  (congrArg (RawOp.failed · n a) (d.nv.putWords_op n) :)

theorem Dev.programStopped_checks (n a : Nat) : (d.programStopped n a).nv.checks = d.nv.checks :=
  (congrArg Flash.checks (d.nv.putWords_besideWords n) :)

theorem Dev.programFailed_op (n a : Nat) : (d.programFailed n a).nv.op = d.nv.op.failed n a := by
  rw [Dev.programFailed, Dev.nvDone_nv, Dev.verifyFail_nv, d.programStopped_op]

theorem Dev.programFailed_checks (n a : Nat) :
    (d.programFailed n a).nv.checks = d.nv.checks ++ [(0x80 + a / 4096, none, d.now)] := by
  rw [Dev.programFailed, Dev.nvDone_nv, Dev.verifyFail_nv]
  exact congrArg (· ++ _) (d.programStopped_checks n a)

variable {d} in
theorem Dev.programFailed_log (kind : d.nv.op.kind = 1) (no_por : d.ctl.por = false) (n a : Nat) : (d.programFailed n a).log =
    d.loggedAs [(0x0702, 0x80 + a / 4096, leBytes 4 a), (0x0701, 0xFF, [1, 2] ++ leBytes 4 d.nv.op.addr)] := by
  have failed : ((d.programStopped n a).verifyFail (0x80 + a / 4096) a none).log =
      d.loggedAs [(0x0702, 0x80 + a / 4096, leBytes 4 a)] :=
    (Dev.verifyFail_log (d := d.programStopped n a) no_por ..).trans (Dev.loggedAs_congr rfl rfl _)
  have op : ((d.programStopped n a).verifyFail (0x80 + a / 4096) a none).nv.op = d.nv.op.failed n a := by
    rw [Dev.verifyFail_nv, d.programStopped_op]
  rw [Dev.programFailed, Dev.nvDone_loggedAs (((d.programStopped n a).verifyFail_ctl ..) ▸ no_por)
    ((d.programStopped n a).verifyFail_time ..) failed, op, RawOp.failed, kind]
  rfl

/-! ### A sector is erased -/

theorem Dev.sectorErased_besideQueue (k : Fin 16) : (d.sectorErased k).nv.besideQueue = (d.nv.eraseRaw k).besideQueue :=
  Dev.deviceRecord_besideQueue ..

theorem Dev.sectorErased_time (k : Fin 16) : (d.sectorErased k).time = d.time := by
  have kept : (d.sectorErased k).Keeps (· ≠ .time) (d.setNv fun f => f.eraseRaw k) := by
    apply Dev.eraseRecord_keeps <;> first | decide | exact .refl _
  exact kept.frame .time (by decide)

theorem Flash.eraseRaw_defined (f : Flash) (k : Fin 16) : (f.eraseRaw k).undefinedSectors.getLsbD k.val = false := by
  rw [show (f.eraseRaw k).undefinedSectors = f.undefinedSectors &&& ~~~BitVec.ofNat 16 (2 ^ k.val) from rfl, BitVec.getLsbD_and,
    BitVec.getLsbD_not, BitVec.getLsbD_ofNat, Nat.testBit_two_pow_self]
  simp

/-- What an erase leaves in the sector that it has erased. -/
structure Flash.Erased (f g : Flash) (k : Fin 16) : Prop where
  count : g.rawErases.get k = stick 32 (f.rawErases.get k + 1)
  defined : g.undefinedSectors.getLsbD k.val = false
  reads : ∀ a, cellRead g.raw a = if a / 4096 = k.val then 0xFF else cellRead f.raw a

theorem Dev.sectorErased_erased (k : Fin 16) : d.nv.Erased (d.sectorErased k).nv k where
  count := (congrArg (fun f : Flash => f.rawErases.get k) (d.sectorErased_besideQueue k) :).trans (Tab.get_modify_self ..)
  defined := (congrArg (fun f : Flash => f.undefinedSectors.getLsbD k.val) (d.sectorErased_besideQueue k) :).trans
    (d.nv.eraseRaw_defined k)
  reads a := (congrArg (fun f : Flash => cellRead f.raw a) (d.sectorErased_besideQueue k) :).trans (cellRead_cellsErase ..)

theorem Dev.eraseGoesOn_of_last (k : Fin 16) :
    d.eraseGoesOn k [] = ((d.sectorErased k).rawEnd 0 (d.nv.op.done + 1)).nvDone := rfl

variable {d} in
theorem Dev.eraseGoesOn_of_more {k : Fin 16} {rest : List Nat} (more : rest ≠ []) : d.eraseGoesOn k rest =
    (d.sectorErased k).setNv fun f => { f with op := { f.op with done := d.nv.op.done + 1, sectors := rest } } :=
  if_neg (by simpa using more)

theorem Dev.eraseGoesOn_erased (k : Fin 16) (rest : List Nat) : d.nv.Erased (d.eraseGoesOn k rest).nv k := by
  obtain ⟨count, defined, reads⟩ := d.sectorErased_erased k
  by_cases last : rest = []
  · subst last
    rw [Dev.eraseGoesOn_of_last, Dev.nvDone_nv]
    exact ⟨count, defined, reads⟩
  · rw [Dev.eraseGoesOn_of_more last]
    exact ⟨count, defined, reads⟩

theorem Dev.eraseGoesOn_done (k : Fin 16) (rest : List Nat) : (d.eraseGoesOn k rest).nv.op.done = d.nv.op.done + 1 := by
  by_cases last : rest = []
  · subst last
    rw [Dev.eraseGoesOn_of_last, Dev.nvDone_nv]
    rfl
  · rw [Dev.eraseGoesOn_of_more last]
    rfl

theorem Dev.eraseGoesOn_last (k : Fin 16) :
    (d.eraseGoesOn k []).nv.op.busy = false ∧ (d.eraseGoesOn k []).nv.op.result = 0 := by
  rw [Dev.eraseGoesOn_of_last, Dev.nvDone_nv]
  exact ⟨rfl, rfl⟩

variable {d} in
theorem Dev.eraseGoesOn_more (k : Fin 16) {rest : List Nat} (busy : d.nv.op.busy = true) (more : rest ≠ []) :
    (d.eraseGoesOn k rest).nv.op.busy = true ∧ (d.eraseGoesOn k rest).nv.op.sectors = rest := by
  have busy_same : (d.sectorErased k).nv.op.busy = d.nv.op.busy :=
    (congrArg (fun f : Flash => f.op.busy) (d.sectorErased_besideQueue k) :)
  rw [Dev.eraseGoesOn_of_more more]
  exact ⟨busy_same.trans busy, rfl⟩

/-- The operation of an erase that a blank check at address `a` has ended. -/
def RawOp.blankFailed (o : RawOp) (done a : Nat) : RawOp :=
  { o with failAddr := a, busy := false, result := 2, done := done, data := [], sectors := [] }

theorem Dev.blankFailed_op (k : Fin 16) (a : Nat) :
    (d.blankFailed k a).nv.op = (d.sectorErased k).nv.op.blankFailed d.nv.op.done a := by
  rw [Dev.blankFailed, Dev.nvDone_nv, Dev.verifyFail_nv]
  rfl

theorem Dev.blankFailed_checks (k : Fin 16) (a : Nat) :
    (d.blankFailed k a).nv.checks = d.nv.checks ++ [(0x80 + k.val, none, d.now)] := by
  have checks : (d.sectorErased k).nv.checks = d.nv.checks :=
    (congrArg Flash.checks (d.sectorErased_besideQueue k) :)
  have now_same : (d.sectorErased k).now = d.now := congrArg TimeBase.now (d.sectorErased_time k)
  rw [Dev.blankFailed, Dev.nvDone_nv, Dev.verifyFail_nv, ← checks, ← now_same]
  rfl

end

end Sys2Proof.Machine

namespace Sys2Proof
open Machine

/-- Settles O58: a program by its words, which leave the rest of the flash, and an erase by its sector, whose record leaves all
but the queue of appends. -/
theorem rawOperationsEnd : Obligations.RawOperationsEnd := by
  intro s dt d o busy
  refine ⟨fun kind written => ⟨_, execNvProgramDone_ended busy kind written, ?ended⟩,
    fun k kind within written no_por => ⟨_, execNvProgramDone_failed busy kind within written, ?failed⟩,
    fun k rest kind sectors served late => ⟨_, execNvEraseSectorDone_erased busy kind sectors served late, ?erased⟩,
    fun k rest kind sectors served late => ?blank,
    fun kind waits verified => ⟨_, execNvEraseSectorDone_waits waits, State.after_same rfl⟩⟩
  case ended =>
    rw [State.after_nv, Dev.programEnded_nv, Dev.programWritten_nv]
    refine ⟨rfl, rfl, rfl, rfl, fun no_por => State.after_logged (Dev.programEnded_log kind no_por), fun one len a => ?_⟩
    rw [show d.nv.op.total = 1 from one]
    exact d.nv.cellRead_putWords_one len a
  case failed =>
    rw [State.after_nv, Dev.programFailed_op, Dev.programFailed_checks]
    exact ⟨rfl, rfl, rfl, rfl, rfl, State.after_logged (Dev.programFailed_log kind no_por _ _)⟩
  case erased =>
    obtain ⟨count, defined, reads⟩ := d.eraseGoesOn_erased k rest
    rw [State.after_nv]
    refine ⟨d.eraseGoesOn_done k rest, count, defined, reads, fun last => ?_, fun more => ?_⟩
    · rw [last]
      exact d.eraseGoesOn_last k
    · exact d.eraseGoesOn_more k busy more
  case blank =>
    obtain ⟨w, within, runs⟩ := execNvEraseSectorDone_failed busy kind sectors served late
    refine ⟨_, runs, ?_⟩
    rw [State.after_nv, Dev.blankFailed_op, Dev.blankFailed_checks]
    refine ⟨rfl, rfl, rfl, ?_, rfl⟩
    show (4096 * k.val + 8 * w) / 4096 = k.val
    omega

end Sys2Proof

/-! SUPPORT. O59: appends, checks, garbage collection and the scan of the record store (14 R385, R400 to R402, R411, 02 R44). -/

namespace Sys2Proof.Machine
open Sys2Proof

/-! ### The place of a record -/

section
variable {f : Flash}

theorem Flash.room_of_fits {k : Fin 16} {n : Nat} (opened : f.openSector = some k) (fits : (f.sectors.get k).used + n ≤ 8192) :
    f.room n = some (f, k) := by
  unfold Flash.room
  dsimp only
  rw [opened]
  exact if_pos fits

theorem Flash.putRec_recs (k : Fin 16) (r : Rec) : ((f.putRec k r).sectors.get k).recs = (f.sectors.get k).recs ++ [r] :=
  congrArg Sector.recs (Tab.get_modify_self ..)

theorem Flash.putRec_get_ne {j k : Fin 16} (other : j ≠ k) (r : Rec) : (f.putRec k r).sectors.get j = f.sectors.get j :=
  Tab.get_modify_ne _ _ other

theorem Flash.resume_besideQueue (t : Nat) : (f.resume t).besideQueue = f.besideQueue := by
  unfold Flash.resume
  split
  · dsimp only [Flash.besideQueue]
    split <;> rfl
  · rfl

/-- A record occupies at least the two words of its header. -/
theorem recSize_words (n : Nat) : 0 < recSize n / 8 := by
  unfold recSize
  omega

end

/-! ### The append in hand -/

section
variable {s : State} {dt : Nat}

theorem execRecordAppendDone_still {verified : Bool} (still : (s.turn dt).dev.flashStill = true) :
    exec (.recordAppendDone dt verified) s = .next (s.after dt fun d => d) := by
  refine congrArg Host.Outcome.next (State.after_congr ?_)
  dsimp only
  split
  · exact if_pos (by simp [still])
  · rfl

/-- The append in hand leaves those that wait. -/
def Dev.appendServed (d : Dev) (a : Append) : Dev :=
  d.setNv fun f => Flash.resume { f with appends := f.appends.erase a, servedAt := f.servedBy a } (f.servedBy a)

/-- A record reaches sector `k`. -/
def Dev.recordPut (d : Dev) (k : Fin 16) (r : Rec) : Dev := d.setNv fun f => f.putRec k r

/-- The append in hand reaches sector `k`. -/
def Dev.appended (d : Dev) (a : Append) (k : Fin 16) : Dev := (d.appendServed a).recordPut k a.rec_

/-- The word of the next record of sector `k`, of so many words, that fails its readback. -/
def Dev.failedAt (d : Dev) (k : Fin 16) (words : Nat) : Nat :=
  Config.failedWord (8192 * k.val + (d.nv.sectors.get k).used) words d.now % words

/-- A record reaches sector `k` with a word that fails its readback. -/
def Dev.recordTorn (d : Dev) (k : Fin 16) (r : Rec) (after : Option Append) : Dev :=
  (d.recordPut k (r.unverified (d.failedAt k (r.size / 8)))).verifyFail (0x70 + k.val)
    (8192 * k.val + (d.nv.sectors.get k).used + 8 * d.failedAt k (r.size / 8)) after

/-- The append in hand reaches sector `k` with a word that fails its readback. -/
def Dev.appendTorn (d : Dev) (a : Append) (k : Fin 16) : Dev := (d.appendServed a).recordTorn k a.rec_ (some a)

theorem Dev.appendServed_besideQueue (d : Dev) (a : Append) : (d.appendServed a).nv.besideQueue = d.nv.besideQueue :=
  Flash.resume_besideQueue _

section
variable {a : Append} {k : Fin 16}

theorem execRecordAppendDone_appended (works : (s.turn dt).dev.flashStill = false) (serving : (s.turn dt).dev.nv.serving = some a)
    (late : (s.turn dt).dev.nv.servedBy a ≤ (s.turn dt).dev.now) (opened : (s.turn dt).dev.nv.openSector = some k)
    (fits : ((s.turn dt).dev.nv.sectors.get k).used + a.size ≤ 8192) :
    exec (.recordAppendDone dt true) s = .next (s.after dt fun d => d.appended a k) := by
  have room : ((s.turn dt).dev.appendServed a).nv.room a.size = some (((s.turn dt).dev.appendServed a).nv, k) :=
    Flash.room_of_fits ((congrArg Flash.openSector ((s.turn dt).dev.appendServed_besideQueue a) :).trans opened)
      (le_of_eq_of_le (congrArg (fun f : Flash => (f.sectors.get k).used + a.size) ((s.turn dt).dev.appendServed_besideQueue a) :) fits)
  refine congrArg Host.Outcome.next (State.after_congr ?_)
  dsimp only
  rw [serving]
  refine (if_neg (by simp [works, Nat.not_lt.2 late])).trans ?_
  rw [← Dev.appendServed, room]
  rfl

theorem execRecordAppendDone_torn (works : (s.turn dt).dev.flashStill = false) (serving : (s.turn dt).dev.nv.serving = some a)
    (late : (s.turn dt).dev.nv.servedBy a ≤ (s.turn dt).dev.now) (opened : (s.turn dt).dev.nv.openSector = some k)
    (fits : ((s.turn dt).dev.nv.sectors.get k).used + a.size ≤ 8192) :
    exec (.recordAppendDone dt false) s = .next (s.after dt fun d => d.appendTorn a k) := by
  have room : ((s.turn dt).dev.appendServed a).nv.room a.size = some (((s.turn dt).dev.appendServed a).nv, k) :=
    Flash.room_of_fits ((congrArg Flash.openSector ((s.turn dt).dev.appendServed_besideQueue a) :).trans opened)
      (le_of_eq_of_le (congrArg (fun f : Flash => (f.sectors.get k).used + a.size) ((s.turn dt).dev.appendServed_besideQueue a) :) fits)
  refine congrArg Host.Outcome.next (State.after_congr ?_)
  dsimp only
  rw [serving]
  refine (if_neg (by simp [works, Nat.not_lt.2 late])).trans ?_
  rw [← Dev.appendServed, room]
  rfl

end

theorem Dev.recordPut_sectors (d : Dev) {j k : Fin 16} (other : j ≠ k) (r : Rec) :
    (d.recordPut k r).nv.sectors.get j = d.nv.sectors.get j := Flash.putRec_get_ne other r

theorem Dev.appended_recs (d : Dev) (a : Append) (k : Fin 16) :
    ((d.appended a k).nv.sectors.get k).recs = (d.nv.sectors.get k).recs ++ [a.rec_] :=
  (Flash.putRec_recs ..).trans
    (congrArg (fun f : Flash => (f.sectors.get k).recs ++ [a.rec_]) (d.appendServed_besideQueue a) :)

theorem Dev.appended_get_ne (d : Dev) (a : Append) {j k : Fin 16} (other : j ≠ k) :
    (d.appended a k).nv.sectors.get j = d.nv.sectors.get j :=
  (Dev.recordPut_sectors _ other _).trans (congrArg (fun f : Flash => f.sectors.get j) (d.appendServed_besideQueue a) :)

theorem Dev.appended_appends (d : Dev) (a : Append) (k : Fin 16) : (d.appended a k).nv.appends = d.nv.appends.erase a :=
  Flash.resume_appends ..

theorem Dev.recordTorn_nv (d : Dev) (k : Fin 16) (r : Rec) (after : Option Append) : (d.recordTorn k r after).nv =
    { d.nv.putRec k (r.unverified (d.failedAt k (r.size / 8))) with checks := d.nv.checks ++ [(0x70 + k.val, after, d.now)] } :=
  Dev.verifyFail_nv ..

theorem Dev.recordTorn_recs (d : Dev) (k : Fin 16) (r : Rec) (after : Option Append) : ∃ w, w < r.size / 8 ∧
    ((d.recordTorn k r after).nv.sectors.get k).recs = (d.nv.sectors.get k).recs ++ [{ r with torn := true, bad := some (w, false) }] := by
  refine ⟨d.failedAt k (r.size / 8), Nat.mod_lt _ (recSize_words r.value.length), ?_⟩
  rw [Dev.recordTorn_nv]
  exact Flash.putRec_recs ..

theorem Dev.recordTorn_checks (d : Dev) (k : Fin 16) (r : Rec) (after : Option Append) :
    (d.recordTorn k r after).nv.checks = d.nv.checks ++ [(0x70 + k.val, after, d.now)] := by
  rw [Dev.recordTorn_nv]

/-! ### Flash checks (14 R411) -/

/-- The outcome of a flash check by its result; in the cold block a pass decides nothing. -/
def flashOutcome (cold : Bool) : CheckResult → CheckOutcome
  | .failed => .internal
  | .incomplete => .inconclusive
  | .passed => if cold then .inconclusive else .transient

/-- The flash with a unit retired. -/
def Flash.retireUnit (f : Flash) (unit : Nat) : Flash :=
  if unit < 0x80 then { f with recRetired := f.recRetired ||| BitVec.ofNat 16 (2 ^ (unit % 16)) }
  else { f with rawRetired := f.rawRetired ||| BitVec.ofNat 16 (2 ^ (unit % 16)) }

/-- A flash check of a unit is told. -/
def Dev.flashTold (d : Dev) (unit : Nat) (rest : List (Nat × Option Append × Nat)) (o : CheckOutcome) : Dev :=
  (d.setNv fun f => { f with checks := rest }).unitChecked unit 0x84 o 1000

/-- A flash check ends: the unit is retired, or the append that it follows joins the queue again. -/
def Dev.flashChecked (d : Dev) (unit : Nat) (after : Option Append) (rest : List (Nat × Option Append × Nat)) (o : CheckOutcome) :
    Dev :=
  match o with
  | .internal => (d.flashTold unit rest o).setNv fun f => f.retireUnit unit
  | .transient | .load => match after with
    | some a => (d.flashTold unit rest o).setNv fun f => f.enqueue d.now a.key a.tomb a.value a.host
    | none => d.flashTold unit rest o
  | .inconclusive => d.flashTold unit rest o

theorem execFlashCheckDone_due {unit start : Nat} {after : Option Append} {rest : List (Nat × Option Append × Nat)} {r : CheckResult}
    (first : (s.turn dt).dev.nv.checks = (unit, after, start) :: rest) (late : start + msec ≤ (s.turn dt).dev.now) :
    exec (.flashCheckDone dt r) s =
      .next (s.after dt fun d => d.flashChecked unit after rest (flashOutcome d.therm.coldBlock r)) := by
  refine congrArg Host.Outcome.next (State.after_congr ?_)
  dsimp only
  rw [first]
  refine (if_neg (Nat.not_lt.2 late)).trans ?_
  cases r <;> rfl

section
variable (d : Dev) (unit : Nat) (rest : List (Nat × Option Append × Nat))

theorem Dev.faultRecord_besideQueue (seq : Word) (trigger : Nat) (o : CheckOutcome) (failed : Nat) (tail : List Byte) :
    (d.faultRecord seq unit trigger o failed tail).nv.besideQueue = d.nv.besideQueue := by
  unfold Dev.faultRecord
  extract_lets key due c d1 waiting
  have nv : d1.nv = d.nv := by cases o <;> rfl
  split
  · rfl
  · split
    · exact congrArg Flash.besideQueue nv
    · exact (Dev.deviceRecord_besideQueue ..).trans (congrArg Flash.besideQueue nv)

/-- The records of a check leave the flash beside the queue of appends. -/
theorem Dev.unitChecked_besideQueue (trigger : Nat) (o : CheckOutcome) (dur : Nat) :
    (d.unitChecked unit trigger o dur).nv.besideQueue = d.nv.besideQueue := by
  unfold Dev.unitChecked
  extract_lets free seq tail d1 d2
  have told : d1.nv.besideQueue = d.nv.besideQueue := by
    refine (Dev.faultRecord_besideQueue ..).trans ?_
    rw [Dev.soundEvent, Dev.event_nv]
  split
  · refine (Dev.deviceRecord_besideQueue ..).trans ?_
    rw [Dev.retireEvent, Dev.event_nv]
    exact told
  · exact told

theorem Dev.flashTold_besideQueue (o : CheckOutcome) :
    (d.flashTold unit rest o).nv.besideQueue = { d.nv with checks := rest }.besideQueue := Dev.unitChecked_besideQueue ..

/-- A transient outcome leaves no record. -/
theorem Dev.flashTold_transient_nv : (d.flashTold unit rest .transient).nv = { d.nv with checks := rest } := by
  refine (?_ : (Dev.soundEvent _ _ _ _ _ _ _).nv = _)
  rw [Dev.soundEvent, Dev.event_nv]
  rfl

theorem Flash.retireUnit_checks (f : Flash) : (f.retireUnit unit).checks = f.checks := by
  unfold Flash.retireUnit
  split <;> rfl

theorem Dev.flashChecked_checks (after : Option Append) (o : CheckOutcome) : (d.flashChecked unit after rest o).nv.checks = rest := by
  have told (o : CheckOutcome) : (d.flashTold unit rest o).nv.checks = rest :=
    (congrArg Flash.checks (d.flashTold_besideQueue unit rest o) :)
  have again (a : Append) (o : CheckOutcome) :
      ((d.flashTold unit rest o).nv.enqueue d.now a.key a.tomb a.value a.host).checks = rest :=
    (congrArg Flash.checks (Flash.enqueue_besideQueue _ d.now a.key a.tomb a.value a.host) :).trans (told o)
  cases o with
  | internal => exact (Flash.retireUnit_checks ..).trans (told _)
  | transient =>
    cases after
    case none => exact told _
    case some => exact again _ _
  | load =>
    cases after
    case none => exact told _
    case some => exact again _ _
  | inconclusive => exact told _

/-- The sectors that are retired, of the record store and of the raw region. -/
def Flash.retired (f : Flash) : BitVec 16 × BitVec 16 := (f.recRetired, f.rawRetired)

theorem Dev.flashTold_retired (o : CheckOutcome) : (d.flashTold unit rest o).nv.retired = d.nv.retired :=
  (congrArg Flash.retired (d.flashTold_besideQueue unit rest o) :)

theorem Dev.flashChecked_retired (after : Option Append) {o : CheckOutcome} (passed : o ≠ .internal) :
    (d.flashChecked unit after rest o).nv.retired = d.nv.retired := by
  have again (a : Append) (o : CheckOutcome) :
      ((d.flashTold unit rest o).nv.enqueue d.now a.key a.tomb a.value a.host).retired = d.nv.retired :=
    (congrArg Flash.retired (Flash.enqueue_besideQueue _ d.now a.key a.tomb a.value a.host) :).trans (d.flashTold_retired unit rest o)
  cases o with
  | internal => exact absurd rfl passed
  | transient =>
    cases after
    case none => exact d.flashTold_retired unit rest _
    case some => exact again _ _
  | load =>
    cases after
    case none => exact d.flashTold_retired unit rest _
    case some => exact again _ _
  | inconclusive => exact d.flashTold_retired unit rest _

theorem Dev.flashChecked_internal (after : Option Append) : (d.flashChecked unit after rest .internal).nv.retired =
    if unit < 0x80 then (d.nv.recRetired ||| BitVec.ofNat 16 (2 ^ (unit % 16)), d.nv.rawRetired)
    else (d.nv.recRetired, d.nv.rawRetired ||| BitVec.ofNat 16 (2 ^ (unit % 16))) := by
  obtain ⟨recs, raws⟩ := Prod.mk.inj (d.flashTold_retired unit rest .internal)
  rw [← recs, ← raws]
  refine (congrArg Flash.retired (?_ : _ = Flash.retireUnit (d.flashTold unit rest .internal).nv unit)).trans ?_
  · rfl
  · unfold Flash.retireUnit
    split <;> rfl

/-- After a transient outcome the append joins the queue again. -/
theorem Dev.flashChecked_again (a : Append) : (d.flashChecked unit (some a) rest .transient).nv =
    { d.nv with checks := rest }.enqueue d.now a.key a.tomb a.value a.host := by
  rw [← Dev.flashTold_transient_nv d unit]
  rfl

theorem Flash.enqueue_appends (f : Flash) (now key : Nat) (tomb : Bool) (value : List Byte) (host : Bool) :
    (f.enqueue now key tomb value host).appends = (f.pause now).appends ++
      [{ key := key, tomb := tomb, value := value, rseq := f.nextRseq, host := host, words := 0 }] :=
  congrArg (· ++ _) (Flash.yieldRaw_appends ..)

theorem Flash.pause_appends_of_checks (f : Flash) (now : Nat) :
    ({ f with checks := rest }.pause now).appends = (f.pause now).appends := by
  have serving : { f with checks := rest }.serving = f.serving := rfl
  unfold Flash.pause
  rw [serving]
  cases f.serving with
  | some _ => rfl
  | none => cases f.gc <;> rfl

end

/-! ### Garbage collection (14 R401) -/

section
variable {verified : Bool}

theorem execGarbageCollection_still (still : (s.turn dt).dev.flashStill = true) :
    exec (.garbageCollection { dt := dt, verified := verified }) s = .next (s.after dt fun d => d) := by
  refine congrArg Host.Outcome.next (State.after_congr ?_)
  dsimp only
  split
  · split
    · exact if_neg (by simp [still])
    · rfl
  · exact if_pos (by simp [still])

theorem execGarbageCollection_begins {k : Fin 16} (none_runs : (s.turn dt).dev.nv.gc = none)
    (works : (s.turn dt).dev.flashStill = false) (due : (s.turn dt).dev.gcDue = true)
    (victim : (s.turn dt).dev.nv.victim = some k) :
    exec (.garbageCollection { dt := dt, verified := verified }) s =
      .next (s.after dt fun d => d.setNv fun f => f.gcBegin d.now k) := by
  refine congrArg Host.Outcome.next (State.after_congr ?_)
  dsimp only
  rw [none_runs, victim]
  exact if_pos (by simp [due, works])

theorem execGarbageCollection_rests (none_runs : (s.turn dt).dev.nv.gc = none)
    (rests : (s.turn dt).dev.gcDue = false ∨ (s.turn dt).dev.nv.victim = none) :
    exec (.garbageCollection { dt := dt, verified := verified }) s = .next (s.after dt fun d => d) := by
  refine congrArg Host.Outcome.next (State.after_congr ?_)
  dsimp only
  rw [none_runs]
  obtain not_due | no_victim := rests
  · dsimp only
    split
    · exact if_neg (by simp [not_due])
    · rfl
  · rw [no_victim]

/-- The flash whose garbage collection begins, before a raw program yields to its first copy. -/
theorem Flash.gcBegin_gc (f : Flash) (now : Nat) (k : Fin 16) :
    (f.gcBegin now k).gc = some { victim := k, todo := f.toCopy k, words := 0, at_ := now } := by
  unfold Flash.gcBegin Flash.yieldRaw
  dsimp only
  split <;> rfl

theorem Flash.gcBegin_sectors (f : Flash) (now : Nat) (k : Fin 16) : (f.gcBegin now k).sectors = f.sectors :=
  (congrArg Flash.sectors (Flash.yieldRaw_besideQueue _ now _) :)

theorem Flash.gcNext_sectors (f : Flash) (t : Nat) (g : GcRun) (rest : List Rec) : (f.gcNext t g rest).sectors = f.sectors := by
  unfold Flash.gcNext
  dsimp only
  split
  · rfl
  · exact (congrArg Flash.sectors (Flash.yieldRaw_besideQueue _ t _) :)

/-- Behind the last copy comes the erase of the victim. -/
theorem Flash.gcNext_of_last {f : Flash} {g : GcRun} (in_service : f.retiredRec g.victim.val = false) (t : Nat) :
    (f.gcNext t g []).gc = some { victim := g.victim, todo := [], words := 0, at_ := t } := by
  unfold Flash.gcNext
  rw [in_service]
  unfold Flash.yieldRaw
  dsimp only [List.filter_nil]
  split
  · contradiction
  · split <;> rfl

section
variable {g : GcRun}

/-- The copy in hand reaches sector `k`, and the work goes on. -/
def Dev.copied (d : Dev) (g : GcRun) (r : Rec) (rest : List Rec) (k : Fin 16) : Dev :=
  (d.recordPut k r).setNv fun f => f.gcNext (g.copiedBy r) g rest

/-- The copy in hand reaches sector `k` with a word that fails its readback, and is made again. -/
def Dev.copyTorn (d : Dev) (g : GcRun) (r : Rec) (k : Fin 16) : Dev :=
  (d.setNv fun f => { f.putRec k (r.unverified (d.failedAt k (r.size / 8))) with
    gc := some { g with words := 0, at_ := g.copiedBy r } }).verifyFail (0x70 + k.val)
      (8192 * k.val + (d.nv.sectors.get k).used + 8 * d.failedAt k (r.size / 8)) none

theorem execGarbageCollection_copies {r : Rec} {rest : List Rec} {k : Fin 16} (runs : (s.turn dt).dev.nv.gc = some g)
    (copies : g.todo = r :: rest) (works : (s.turn dt).dev.flashStill = false) (served : (s.turn dt).dev.nv.gcServed = true)
    (late : g.copiedBy r ≤ (s.turn dt).dev.now) (opened : (s.turn dt).dev.nv.openSector = some k)
    (fits : ((s.turn dt).dev.nv.sectors.get k).used + r.size ≤ 8192) :
    exec (.garbageCollection { dt := dt, verified := verified }) s =
      .next (s.after dt fun d => if verified then d.copied g r rest k else d.copyTorn g r k) := by
  obtain ⟨victim, todo, words, at_⟩ := g
  obtain rfl : todo = r :: rest := copies
  refine congrArg Host.Outcome.next (State.after_congr ?_)
  dsimp only
  rw [runs]
  refine (if_neg (by simp [works, served])).trans ?_
  refine (if_neg (Nat.not_lt.2 late)).trans ?_
  rw [Flash.room_of_fits opened fits]
  cases verified <;> rfl

/-- The victim of the garbage collection has been erased. -/
def Dev.victimErased (d : Dev) (g : GcRun) : Dev := d.setNv fun f => f.gcErased g.victim true

/-- The victim of the garbage collection has failed its blank check. -/
def Dev.victimFailed (d : Dev) (g : GcRun) : Dev :=
  (d.setNv fun f => f.gcErased g.victim false).verifyFail (0x70 + g.victim.val)
    (8192 * g.victim.val + 8 * (Config.failedWord (8192 * g.victim.val) 1024 d.now % 1024)) none

theorem execGarbageCollection_erases (runs : (s.turn dt).dev.nv.gc = some g)
    (done : g.todo = []) (works : (s.turn dt).dev.flashStill = false) (served : (s.turn dt).dev.nv.gcServed = true)
    (late : g.at_ ≤ (s.turn dt).dev.now) :
    exec (.garbageCollection { dt := dt, verified := verified }) s =
      .next (s.after dt fun d => if verified then d.victimErased g else d.victimFailed g) := by
  refine congrArg Host.Outcome.next (State.after_congr ?_)
  dsimp only
  rw [runs]
  refine (if_neg (by simp [works, served])).trans ?_
  rw [done]
  exact if_neg (Nat.not_lt.2 late)

end

end

section
variable (d : Dev) (g : GcRun) (r : Rec) (rest : List Rec) (k : Fin 16)

theorem Dev.copied_sectors : (d.copied g r rest k).nv.sectors = (d.recordPut k r).nv.sectors := Flash.gcNext_sectors ..

theorem Dev.copied_last (in_service : d.nv.retiredRec g.victim.val = false) :
    (d.copied g r [] k).nv.gc = some { victim := g.victim, todo := [], words := 0, at_ := g.copiedBy r } :=
  Flash.gcNext_of_last (f := (d.recordPut k r).nv) in_service _

theorem Dev.copyTorn_nv : (d.copyTorn g r k).nv =
    { d.nv.putRec k (r.unverified (d.failedAt k (r.size / 8))) with
      gc := some { g with words := 0, at_ := g.copiedBy r }, checks := d.nv.checks ++ [(0x70 + k.val, none, d.now)] } :=
  Dev.verifyFail_nv ..

theorem Dev.copyTorn_gc : (d.copyTorn g r k).nv.gc = some { g with words := 0, at_ := g.copiedBy r } := by
  rw [Dev.copyTorn_nv]

theorem Dev.copyTorn_checks : (d.copyTorn g r k).nv.checks = d.nv.checks ++ [(0x70 + k.val, none, d.now)] := by
  rw [Dev.copyTorn_nv]

theorem Dev.copyTorn_recs : ∃ w, w < r.size / 8 ∧ ((d.copyTorn g r k).nv.sectors.get k).recs =
    (d.nv.sectors.get k).recs ++ [{ r with torn := true, bad := some (w, false) }] := by
  refine ⟨d.failedAt k (r.size / 8), Nat.mod_lt _ (recSize_words r.value.length), ?_⟩
  rw [Dev.copyTorn_nv]
  exact Flash.putRec_recs ..

theorem Dev.victimErased_get : (d.victimErased g).nv.sectors.get g.victim =
    { d.nv.sectors.get g.victim with
      st := .erased, recs := [], erases := stick 32 ((d.nv.sectors.get g.victim).erases + 1) } := Tab.get_modify_self ..

theorem Dev.victimErased_get_ne {j : Fin 16} (other : j ≠ g.victim) :
    (d.victimErased g).nv.sectors.get j = d.nv.sectors.get j := Tab.get_modify_ne _ _ other

theorem Dev.victimFailed_nv : (d.victimFailed g).nv =
    { d.nv.gcErased g.victim false with checks := d.nv.checks ++ [(0x70 + g.victim.val, none, d.now)] } := Dev.verifyFail_nv ..

theorem Dev.victimFailed_st : ((d.victimFailed g).nv.sectors.get g.victim).st = .dirty := by
  rw [Dev.victimFailed_nv]
  exact congrArg Sector.st (Tab.get_modify_self ..)

end

/-! ### The scan of the store (02 R44) -/

section
variable (d : Dev)

/-- The store as the scan finds it, before its index is built. -/
def Dev.storeScanned : Dev := (d.scanDirty.setNv Flash.closeOlder).scanTorn

theorem Dev.storeScanned_keeps : d.storeScanned.Keeps (· ∈ [.port, .log, .nv]) d := by
  have dirty : d.scanDirty.Keeps (· ∈ [.port, .log, .nv]) d := by
    apply Dev.scanDirty_keeps <;> first | decide | exact .refl _
  have closed : (d.scanDirty.setNv Flash.closeOlder).Keeps (· ∈ [.port, .log, .nv]) d :=
    Dev.setNv_keeps (by decide) dirty _ fun wf => by rwa [Flash.closeOlder_raw]
  apply Dev.scanTorn_keeps <;> first | decide | exact closed

theorem Dev.appendRecord_held (key : Nat) (value : List Byte) : (d.appendRecord key value).sc.held = d.sc.held := by
  unfold Dev.appendRecord
  extract_lets isLog k d1
  split
  · rfl
  · split
    · rw [Dev.storeFull, Dev.event_sc]
      rfl
    · split <;> rfl

theorem Dev.flushHeld_held : d.flushHeld.sc.held = [] :=
  Dev.foldl_same (q := fun e => e.sc.held) (fun e (r : Nat × List Byte) _ => e.appendRecord_held r.1 r.2) _

theorem Dev.flushHeld_scanned : d.flushHeld.nv.scanned = d.nv.scanned :=
  Dev.foldl_same (q := fun e => e.nv.scanned)
    (fun e (r : Nat × List Byte) _ => (congrArg Flash.scanned (e.appendRecord_besideQueue r.1 r.2) :)) _

/-- The held records of an indexed store are written where the cold block lets them, and the end of the scan is told. -/
def Dev.storeOpened (told : List Byte) : Dev := (if d.therm.coldBlock then d else d.flushHeld).event 0x0005 0xFF told

theorem Dev.storeOpened_scanned (told : List Byte) : (d.storeOpened told).nv.scanned = d.nv.scanned := by
  rw [Dev.storeOpened, Dev.event_nv]
  split
  · rfl
  · exact d.flushHeld_scanned

theorem Dev.storeOpened_held (told : List Byte) :
    (d.storeOpened told).sc.held = if d.therm.coldBlock then d.sc.held else [] := by
  rw [Dev.storeOpened, Dev.event_sc]
  split
  · rfl
  · exact d.flushHeld_held

end

theorem Dev.storeScanned_therm (d : Dev) : d.storeScanned.therm = d.therm := d.storeScanned_keeps.frame .therm (by decide)

theorem Dev.storeScanned_sc (d : Dev) : d.storeScanned.sc = d.sc := d.storeScanned_keeps.frame .sc (by decide)

/-- A scan that ends opens the store, and writes the held records where the cold block lets them. -/
theorem execRecScanDone_opens (live : (s.turn dt).dev.ctl.liveAt.isSome = true) (unscanned : (s.turn dt).dev.nv.scanned = false) :
    ∃ t, exec (.recScanDone dt ()) s = .next t ∧ t.dev.nv.scanned = true ∧
      t.dev.sc.held = if (s.turn dt).dev.therm.coldBlock then (s.turn dt).dev.sc.held else [] := by
  refine ⟨_, rfl, ?_⟩
  rw [State.after_nv, State.after_sc, if_pos (by simp [live, unscanned])]
  extract_lets d1 top erases rseq d2 c d3
  have therm : d1.therm = (s.turn dt).dev.therm := (s.turn dt).dev.storeScanned_therm
  have sc : d1.sc = (s.turn dt).dev.sc := (s.turn dt).dev.storeScanned_sc
  clear_value top erases rseq d1
  have therm : d3.therm = (s.turn dt).dev.therm := therm
  have held : d3.sc.held = (s.turn dt).dev.sc.held := (congrArg SoundCheck.held sc :)
  have scanned : d3.nv.scanned = true := rfl
  clear_value d3
  rw [← therm, ← held]
  exact ⟨(d3.storeOpened_scanned _).trans scanned, d3.storeOpened_held _⟩

end

end Sys2Proof.Machine

namespace Sys2Proof
open Machine

/-- Settles O59: an append and a copy by the sector that they reach, a check by its outcome, a garbage collection by its copies
and the erase of its victim, and the scan by what it leaves of the held records. -/
theorem recordStoreEventsAct : Obligations.RecordStoreEventsAct := by
  intro s dt d
  refine ⟨fun still => ⟨fun verified => ⟨_, execRecordAppendDone_still still, State.after_same rfl⟩,
      fun verified => ⟨_, execGarbageCollection_still still, State.after_same rfl⟩⟩,
    fun a k works serving late opened fits => ⟨_, execRecordAppendDone_appended works serving late opened fits, ?appended⟩,
    fun a k works serving late opened fits => ⟨_, execRecordAppendDone_torn works serving late opened fits, ?torn⟩,
    fun unit start after rest r first late => ⟨_, execFlashCheckDone_due first late, ?checked⟩,
    fun verified none_runs works => ⟨fun k due victim => ⟨_, execGarbageCollection_begins none_runs works due victim, ?begins⟩,
      fun rests => ⟨_, execGarbageCollection_rests none_runs rests, State.after_same rfl⟩⟩,
    fun g r rest k runs copies works served late opened fits =>
      ⟨⟨_, execGarbageCollection_copies runs copies works served late opened fits, ?copied⟩, ?copyTorn⟩,
    fun g runs done works served late => ⟨⟨_, execGarbageCollection_erases runs done works served late, ?erased⟩,
      ⟨_, execGarbageCollection_erases runs done works served late, ?failed⟩⟩,
    fun live unscanned => ?scan⟩
  case appended =>
    rw [State.after_nv]
    exact ⟨d.appended_appends a k, d.appended_recs a k, fun j other => d.appended_get_ne a other⟩
  case torn =>
    obtain ⟨w, within, recs⟩ := (d.appendServed a).recordTorn_recs k a.rec_ (some a)
    have beside := d.appendServed_besideQueue a
    rw [State.after_nv]
    refine ⟨⟨w, within, recs.trans ?_⟩, ((d.appendServed a).recordTorn_checks k a.rec_ (some a)).trans ?_⟩
    · exact (congrArg (fun f : Flash => (f.sectors.get k).recs ++ _) beside :)
    · exact (congrArg (fun f : Flash => f.checks ++ _) beside :)
  case checked =>
    rw [State.after_nv]
    refine ⟨d.flashChecked_checks unit rest after _, ?_, ?_, fun passed => ?_, ?_⟩
    · rintro rfl low
      have retired := d.flashChecked_internal unit rest after
      rw [if_pos low] at retired
      exact congrArg Prod.fst retired
    · rintro rfl high
      have retired := d.flashChecked_internal unit rest after
      rw [if_neg (Nat.not_lt.2 high)] at retired
      exact congrArg Prod.snd retired
    · have kept : flashOutcome d.therm.coldBlock r ≠ .internal := by
        cases r with
        | failed => exact absurd rfl passed
        | incomplete => exact nofun
        | passed => cases cold : d.therm.coldBlock <;> simp [flashOutcome]
      exact Prod.mk.inj (d.flashChecked_retired unit rest after kept)
    · rintro a rfl warm rfl
      have again := d.flashChecked_again unit rest a
      rw [show (s.turn dt).dev.therm.coldBlock = false from warm]
      refine (congrArg (fun f : Flash => f.appends = _ ∧ f.nextRseq = _) again).mpr ⟨?_, rfl⟩
      rw [Flash.enqueue_appends, Flash.pause_appends_of_checks]
  case begins =>
    rw [State.after_nv]
    exact ⟨Flash.gcBegin_gc .., Flash.gcBegin_sectors ..⟩
  case copied =>
    rw [State.after_nv]
    refine ⟨?_, fun j other => ?_, fun last in_service => ?_⟩
    · exact (congrArg (fun t : Tab Sector 16 => (t.get k).recs) (d.copied_sectors g r rest k)).trans (Flash.putRec_recs ..)
    · exact (congrArg (fun t : Tab Sector 16 => t.get j) (d.copied_sectors g r rest k)).trans (d.recordPut_sectors other r)
    · subst last
      exact ⟨_, d.copied_last g r k in_service⟩
  case copyTorn =>
    obtain ⟨w, within, recs⟩ := d.copyTorn_recs g r k
    refine ⟨_, w, execGarbageCollection_copies runs copies works served late opened fits, within, ?_⟩
    rw [State.after_nv]
    exact ⟨recs, congrArg (Option.map (·.todo)) (d.copyTorn_gc g r k), d.copyTorn_checks g r k⟩
  case erased =>
    have erased := d.victimErased_get g
    rw [State.after_nv]
    exact ⟨rfl, congrArg Sector.st erased, congrArg Sector.recs erased, congrArg Sector.erases erased,
      fun j other => d.victimErased_get_ne g other⟩
  case failed =>
    have failed := d.victimFailed_nv g
    rw [State.after_nv]
    exact ⟨congrArg Flash.gc failed, d.victimFailed_st g, congrArg Flash.checks failed⟩
  case scan =>
    obtain ⟨t, runs, scanned, held⟩ := execRecScanDone_opens live unscanned
    exact ⟨t, runs, scanned, fun warm => held.trans (if_neg (Bool.eq_false_iff.1 warm)), fun cold => held.trans (if_pos cold)⟩

end Sys2Proof

/-! SUPPORT. O56: the ends of an enumeration, of a ring's closing, of a link and of a loopback (16 R464, R482, R483, R487). -/

namespace Sys2Proof.Machine
open Sys2Proof

section
variable (d : Dev)

/-! ### Breaks (16 R485) -/

/-- Nothing is told where the break stands as declared. -/
theorem Dev.followBreak_of_same {d : Dev} (same : d.chain.broken = d.chain.breaks) : d.followBreak = d := by
  unfold Dev.followBreak
  dsimp only
  rw [same]
  cases d.chain.breaks <;> rfl

/-- The declared break follows its condition. -/
theorem Dev.followBreak_chain : d.followBreak.chain = { d.chain with broken := d.chain.breaks } := by
  by_cases same : d.chain.broken = d.chain.breaks
  · rw [Dev.followBreak_of_same same, ← same]
  · have other : d.chain.broken = !d.chain.breaks := Bool.eq_not.2 same
    unfold Dev.followBreak
    dsimp only
    rw [other]
    cases d.chain.breaks <;> exact Dev.event_chain ..

theorem Dev.event_setChain_chain (f : Chain → Chain) (code unit : Nat) (data : List Byte) :
    ((d.setChain f).event code unit data).chain = f d.chain := Dev.event_chain ..

variable {d} in
theorem Dev.event_setChain_log (no_por : d.ctl.por = false) (f : Chain → Chain) (code unit : Nat) (data : List Byte) :
    ((d.setChain f).event code unit data).log = d.loggedAs [(code, unit, data)] :=
  Dev.event_logged (d.setChain f) _ _ _ no_por

/-! ### The end of an enumeration (16 R464) -/

/-- The chain that an enumeration has numbered up to `n`. -/
def Chain.numbered (c : Chain) (now n : Nat) : Chain :=
  { c with
    enumLeft := none, enumerated := true, count := n, unreachable := [], reachA := none
    heard := (List.range n).map fun i => (i + 1, now) }

/-- The data of the event that ends an enumeration of `n` devices. -/
def Chain.numberedData (c : Chain) (n : Nat) (beyond : Bool) : List Byte :=
  [b8 n, b8 (if c.expect_ = 255 ∨ c.expect_ = n then 1 else 0), b8 (if n = 62 ∧ beyond = true then 1 else 0)]

/-- An enumeration ends. -/
def Dev.enumEnded (d : Dev) (beyond : Bool) : Dev :=
  ((d.setChain fun c => c.numbered d.now (min d.chain.reachB 62)).event 0x0901 0xFF
    (d.chain.numberedData (min d.chain.reachB 62) beyond)).followBreak

theorem Chain.numberedData_eq (c : Chain) (n : Nat) (beyond : Bool) :
    [b8 n, b8 (boolNat (decide (c.expect_ = 255) || decide (c.expect_ = n))), b8 (boolNat (decide (n = 62) && beyond))] =
      c.numberedData n beyond := by
  simp [Chain.numberedData, boolNat]

theorem execEnumerationDone_ended {s : State} {dt : Nat} {beyond : Bool} (head : (s.turn dt).dev.chain.head = true)
    (over_ : (s.turn dt).dev.chain.enumLeft = some 0) (late : (s.turn dt).dev.chain.enumEndAt ≤ (s.turn dt).dev.now)
    (boundary : (s.turn dt).dev.atBoundary = true) :
    exec (.enumerationDone { dt := dt, beyond := beyond }) s = .next (s.after dt fun d => d.enumEnded beyond) := by
  refine congrArg Host.Outcome.next (State.after_congr ?_)
  refine (if_pos (by simp [head, over_, late, boundary])).trans ?_
  rw [Dev.enumEnded, ← Chain.numberedData_eq]
  rfl

theorem execEnumerationDone_waits {s : State} {dt : Nat} {beyond : Bool} (waits : (s.turn dt).dev.chain.head = false ∨
      (s.turn dt).dev.chain.enumLeft ≠ some 0 ∨ (s.turn dt).dev.now < (s.turn dt).dev.chain.enumEndAt ∨
      (s.turn dt).dev.atBoundary = false) :
    exec (.enumerationDone { dt := dt, beyond := beyond }) s = .next (s.after dt fun d => d) := by
  refine congrArg Host.Outcome.next (State.after_congr (if_neg ?_))
  obtain off | running | early | within := waits
  · simp [off]
  · simp [running]
  · simp [Nat.not_le.2 early]
  · simp [within]

theorem Dev.enumEnded_chain (beyond : Bool) : (d.enumEnded beyond).chain =
    { d.chain.numbered d.now (min d.chain.reachB 62) with
      broken := (d.chain.numbered d.now (min d.chain.reachB 62)).breaks } := by
  rw [Dev.enumEnded, Dev.followBreak_chain, Dev.event_setChain_chain]

variable {d} in
theorem Dev.enumEnded_log (whole : d.chain.broken = false) (unsplit : d.chain.ring ≠ .split) (no_por : d.ctl.por = false)
    (beyond : Bool) : (d.enumEnded beyond).log =
      d.loggedAs [(0x0901, 0xFF, d.chain.numberedData (min d.chain.reachB 62) beyond)] := by
  have unbroken : (d.chain.numbered d.now (min d.chain.reachB 62)).breaks = false := by
    simp [Chain.breaks, Chain.numbered, unsplit]
  rw [Dev.enumEnded, Dev.followBreak_of_same, Dev.event_setChain_log no_por]
  rw [Dev.event_setChain_chain, unbroken]
  exact whole

/-! ### The end of a ring's closing (16 R482) -/

section
variable {s : State} {dt : Nat}

/-- The ring is found closed. -/
def Dev.ringClosed (d : Dev) : Dev := (d.setChain fun c => { c with ring := .closed }).event 0x0907 0xFF []

/-- The ring stays open. -/
def Dev.ringOpened (d : Dev) : Dev :=
  (d.setChain fun c => { c with ring := .open_ }).event 0x0909 0xFF [(d.chain.backHop.map b8).getD 0xFF]

theorem execRingCloseResult_closes (closing : (s.turn dt).dev.chain.ring = .closing)
    (late : (s.turn dt).dev.chain.closingAt + 8 * 30720 ≤ (s.turn dt).dev.now) :
    exec (.ringCloseResult dt () ()) s =
      .next (s.after dt fun d => if 8 ≤ d.chain.returned then d.ringClosed else d.ringOpened) := by
  refine congrArg Host.Outcome.next (State.after_congr ?_)
  exact if_neg (by simp [closing, Nat.not_lt.2 late])

theorem execRingCloseResult_waits (waits : (s.turn dt).dev.chain.ring ≠ .closing ∨
      (s.turn dt).dev.now < (s.turn dt).dev.chain.closingAt + 8 * 30720) :
    exec (.ringCloseResult dt () ()) s = .next (s.after dt fun d => d) := by
  refine congrArg Host.Outcome.next (State.after_congr ?_)
  exact if_pos (by simpa [-ne_eq] using waits)

/-! ### The end of a link (16 R483) -/

theorem execLinkDown_ends {p : AkPort} (missed : 4 ≤ ((s.turn dt).dev.chain.ports.get (portNo p)).missRun)
    (was : ((s.turn dt).dev.chain.ports.get (portNo p)).up = true ∨
      (s.turn dt).dev.chain.head = true ∧ p = .a ∧ (s.turn dt).dev.chain.ring = .closed) :
    exec (.linkDown dt p) s = .next (s.after dt fun d => d.portDown (portNo p)) := by
  refine congrArg Host.Outcome.next (State.after_congr (if_pos ?_))
  obtain up | ⟨head, rfl, closed⟩ := was
  · simp [missed, up]
  · simp only [portNo] at missed
    simp [missed, head, closed, portNo]

theorem execLinkDown_stays {p : AkPort} (few : ((s.turn dt).dev.chain.ports.get (portNo p)).missRun < 4) :
    exec (.linkDown dt p) s = .next (s.after dt fun d => d) :=
  congrArg Host.Outcome.next (State.after_congr (if_neg (by simp [Nat.not_le.2 few])))

end

/-- A link that is down, told where it was up, before the ring splits. -/
def Dev.linkEnded (k : Fin 2) : Dev :=
  if (d.chain.ports.get k).up then (d.modPort k fun x => { x with up := false, goodRun := 0 }).event 0x0904 (0x60 + k.val) []
  else d.modPort k fun x => { x with up := false, goodRun := 0 }

/-- The port is the armed one of a precentor. -/
def Dev.armedPort (k : Fin 2) : Bool := d.chain.head && k = 0 && d.chain.ring = .closed

theorem Dev.linkEnded_chain (k : Fin 2) : (d.linkEnded k).chain =
    { d.chain with ports := d.chain.ports.modify k fun x => { x with up := false, goodRun := 0 } } := by
  unfold Dev.linkEnded
  split
  · exact Dev.event_chain ..
  · rfl

theorem Dev.portDown_eq (k : Fin 2) :
    d.portDown k = if d.armedPort k then (d.linkEnded k).splitRing else d.linkEnded k := by
  have armed : d.armedPort k = ((d.linkEnded k).chain.head && k = 0 && (d.linkEnded k).chain.ring = .closed) := by
    rw [Dev.linkEnded_chain]
    rfl
  rw [armed]
  rfl

theorem Dev.splitRing_chain : d.splitRing.chain = { d.chain with ring := .split, sendA := true, broken := true } := by
  have breaks : ({ d.chain with ring := .split, sendA := true } : Chain).breaks = true := by simp [Chain.breaks]
  rw [Dev.splitRing, Dev.followBreak_chain, Dev.event_setChain_chain, breaks]

theorem Dev.portDown_ports (k : Fin 2) :
    (d.portDown k).chain.ports = d.chain.ports.modify k fun x => { x with up := false, goodRun := 0 } := by
  rw [Dev.portDown_eq]
  split
  · rw [Dev.splitRing_chain, Dev.linkEnded_chain]
  · rw [Dev.linkEnded_chain]

theorem Dev.portDown_get (k : Fin 2) :
    (d.portDown k).chain.ports.get k = { d.chain.ports.get k with up := false, goodRun := 0 } := by
  rw [Dev.portDown_ports, Tab.get_modify_self]

/-! ### The end of a loopback (16 R487) -/

/-- A port after its loopback. -/
def ChainPort.looped (x : ChainPort) : ChainPort := { x with checking := false, missRun := 0, heard := false }

/-- A port's loopback is over and told. -/
def Dev.loopbackTold (k : Fin 2) (o : CheckOutcome) : Dev :=
  (d.modPort k ChainPort.looped).unitChecked (0x60 + k.val) 0x83 o 41

/-- A port's loopback has ended with a result. -/
def Dev.loopbackEnded (k : Fin 2) (r : CheckResult) : Dev :=
  if r = .failed then ((d.loopbackTold k .internal).modPort k fun x => { x with retired := true }).portDown k
  else d.loopbackTold k (outcomeOf r)

theorem execHopLoopbackDone_ended {s : State} {dt : Nat} {p : AkPort} (r : CheckResult)
    (checking : ((s.turn dt).dev.chain.ports.get (portNo p)).checking = true)
    (late : ((s.turn dt).dev.chain.ports.get (portNo p)).checkAt + 4 * 30720 ≤ (s.turn dt).dev.now) :
    exec (.hopLoopbackDone dt p r) s = .next (s.after dt fun d => d.loopbackEnded (portNo p) r) := by
  refine congrArg Host.Outcome.next (State.after_congr ?_)
  refine (if_neg (by simp [checking, Nat.not_lt.2 late])).trans ?_
  cases r <;> rfl

theorem Dev.unitChecked_chain (unit trigger : Nat) (o : CheckOutcome) (dur : Nat) :
    (d.unitChecked unit trigger o dur).chain = d.chain := by
  have kept : (d.unitChecked unit trigger o dur).Keeps (· ≠ .chain) d := by
    apply Dev.unitChecked_keeps <;> first | decide | exact .refl _
  exact kept.frame .chain (by decide)

theorem Dev.loopbackTold_get (k : Fin 2) (o : CheckOutcome) :
    (d.loopbackTold k o).chain.ports.get k = (d.chain.ports.get k).looped := by
  rw [Dev.loopbackTold, Dev.unitChecked_chain]
  exact Tab.get_modify_self ..

/-- A port after a loopback with a result. -/
theorem Dev.loopbackEnded_get (k : Fin 2) (r : CheckResult) : (d.loopbackEnded k r).chain.ports.get k =
    if r = .failed then { (d.chain.ports.get k).looped with retired := true, up := false, goodRun := 0 }
    else (d.chain.ports.get k).looped := by
  unfold Dev.loopbackEnded
  split
  · rw [Dev.portDown_get, ← d.loopbackTold_get k .internal]
    exact congrArg (fun x : ChainPort => { x with up := false, goodRun := 0 }) (Tab.get_modify_self ..)
  · exact d.loopbackTold_get k _

end

end Sys2Proof.Machine

namespace Sys2Proof
open Machine

/-- Settles O56: each end by the device that it leaves. -/
theorem chainLinkEventsAct : Obligations.ChainLinkEventsAct := by
  intro s dt beyond d c n
  refine ⟨fun head over_ late boundary => ⟨_, execEnumerationDone_ended head over_ late boundary, ?enumerated⟩,
    fun waits => ⟨_, execEnumerationDone_waits waits, State.after_same rfl⟩,
    fun closing late no_por => ⟨fun whole => ⟨_, execRingCloseResult_closes closing late, ?closed⟩,
      fun few => ⟨_, execRingCloseResult_closes closing late, ?opened⟩⟩,
    fun waits => ⟨_, execRingCloseResult_waits waits, State.after_chain ..⟩,
    fun p few => ⟨_, execLinkDown_stays few, State.after_same rfl⟩,
    fun p missed was => ⟨_, execLinkDown_ends missed was, ?down⟩,
    fun p r checking late => ⟨_, execHopLoopbackDone_ended r checking late, ?looped⟩⟩
  case enumerated =>
    rw [State.after_chain, Dev.enumEnded_chain]
    exact ⟨rfl, rfl, rfl, rfl, fun whole unsplit no_por => State.after_logged (Dev.enumEnded_log whole unsplit no_por beyond)⟩
  case closed =>
    rw [State.after_chain, if_pos whole]
    exact ⟨congrArg Chain.ring (Dev.event_setChain_chain ..),
      State.after_logged ((congrArg Dev.log (if_pos whole)).trans (Dev.event_setChain_log no_por ..))⟩
  case opened =>
    rw [State.after_chain, if_neg (Nat.not_le.2 few)]
    exact ⟨congrArg Chain.ring (Dev.event_setChain_chain ..),
      State.after_logged ((congrArg Dev.log (if_neg (Nat.not_le.2 few))).trans (Dev.event_setChain_log no_por ..))⟩
  case down =>
    have port := d.portDown_get (portNo p)
    rw [State.after_chain]
    refine ⟨congrArg ChainPort.up port, congrArg ChainPort.goodRun port, fun head armed closed => ?_, fun up single no_por => ?_⟩
    · have splits : d.armedPort (portNo p) = true := by
        subst armed
        exact (congr (congrArg (fun h r => h && portNo .a = 0 && decide (r = .closed)) head) closed)
      have chain : (d.portDown (portNo p)).chain = _ := (congrArg Dev.chain ((d.portDown_eq _).trans (if_pos splits))).trans
        (Dev.splitRing_chain _)
      exact ⟨congrArg Chain.ring chain, congrArg Chain.sendA chain, congrArg Chain.broken chain⟩
    · have whole : d.armedPort (portNo p) = false := by
        obtain alone | rfl := single
        · exact congrArg (fun h => h && portNo p = 0 && d.chain.ring = .closed) alone
        · simp [Dev.armedPort, portNo]
      have ended := (d.portDown_eq (portNo p)).trans (if_neg (by simp [whole]))
      refine ⟨(congrArg (fun e => e.chain.ring) ended).trans (congrArg Chain.ring (d.linkEnded_chain _)), State.after_logged ?_⟩
      refine (congrArg Dev.log (ended.trans (if_pos up))).trans ?_
      exact Dev.event_setChain_log no_por ..
  case looped =>
    have port := d.loopbackEnded_get (portNo p) r
    rw [State.after_chain]
    cases r with
    | failed => exact ⟨congrArg ChainPort.checking port, (congrArg ChainPort.retired port).trans (Bool.or_true _).symm,
        fun _ => congrArg ChainPort.up port⟩
    | passed => exact ⟨congrArg ChainPort.checking port, (congrArg ChainPort.retired port).trans (Bool.or_false _).symm, nofun⟩
    | incomplete => exact ⟨congrArg ChainPort.checking port, (congrArg ChainPort.retired port).trans (Bool.or_false _).symm, nofun⟩

end Sys2Proof

/-! SUPPORT. O57: breaks of the chain (16 R475, R480, R485, R486). -/

namespace Sys2Proof.Machine
open Sys2Proof

/-! ### What a turn-off and a change of domain do to the chain: domain tokens, and nothing else -/

/-- The chain without the domain tokens in hand and to return. -/
def Chain.besideTokens (c : Chain) : Chain := { c with returns := .fill 15 0, hand := 0, handDomain := 0 }

/-- The chain of a device without its tokens. -/
def Dev.besideTokens (d : Dev) : Chain := d.chain.besideTokens

theorem Dev.Keeps.besideTokens {e d : Dev} (h : e.Keeps (· ≠ .chain) d) : e.besideTokens = d.besideTokens :=
  congrArg Chain.besideTokens (h.frame .chain (by decide))

section
variable (d : Dev)

@[simp] theorem Dev.returnDomain_besideTokens (n k : Nat) : (d.returnDomain n k).besideTokens = d.besideTokens := by
  unfold Dev.returnDomain
  split <;> rfl

@[simp] theorem Dev.syncDomain_besideTokens : d.syncDomain.besideTokens = d.besideTokens := by
  unfold Dev.syncDomain
  split
  · rfl
  · exact Dev.returnDomain_besideTokens ..

@[simp] theorem Dev.returnTokens_besideTokens (v : VoiceId) : (d.returnTokens v).besideTokens = d.besideTokens := by
  unfold Dev.returnTokens
  dsimp only
  split
  · exact Dev.returnDomain_besideTokens ..
  · rfl

@[simp] theorem Dev.withdraw_besideTokens (v : VoiceId) : (d.withdraw v).besideTokens = d.besideTokens := by
  unfold Dev.withdraw
  split
  · exact d.returnTokens_besideTokens v
  · rfl

theorem Dev.withdrawAll_besideTokens : d.withdrawAll.besideTokens = d.besideTokens :=
  Dev.foldl_same (q := Dev.besideTokens) (fun e v _ => e.withdraw_besideTokens v) d

theorem Dev.forVoices_modVoice_chain (vs : List VoiceId) (f : Dev → VoiceId → Voice → Voice) :
    (d.forVoices vs fun d v => d.modVoice v (f d v)).chain = d.chain :=
  Dev.foldl_same (q := Dev.chain) (f := fun d v => d.modVoice v (f d v)) (fun _ _ _ => rfl) d

theorem Dev.endRetry_chain (v : VoiceId) : (d.endRetry v).chain = d.chain := by
  have kept : (d.endRetry v).Keeps (· ≠ .chain) d := Dev.endRetry_keeps (by decide) (.refl _) v
  exact kept.frame .chain (by decide)

/-- An OFF withdraws what waits. -/
theorem Dev.askOff_besideTokens (v : VoiceId) : (d.askOff v).besideTokens = d.besideTokens := by
  refine Dev.foldl_same (q := Dev.besideTokens) (fun d h _ => ?_) d
  extract_lets x d1 d2 cues d3
  have uncommanded : d1.besideTokens = d.besideTokens := congrArg Chain.besideTokens (d.forVoices_modVoice_chain ..)
  have retried (e : Dev) : (e.endRetry h).besideTokens = e.besideTokens := congrArg Chain.besideTokens (e.endRetry_chain h)
  have withdrawn : d2.besideTokens = d.besideTokens := (d1.withdraw_besideTokens h).trans uncommanded
  have settled : d3.besideTokens = d.besideTokens := by
    unfold d3
    split
    · exact (retried d1).trans uncommanded
    · exact uncommanded
  split
  · split
    · exact withdrawn
    · split
      · exact (retried d2).trans withdrawn
      · exact withdrawn
  · split
    · exact settled
    · split <;> exact settled

theorem Dev.fallbackVoice_besideTokens (v : VoiceId) : (d.fallbackVoice v).besideTokens = d.besideTokens := by
  unfold Dev.fallbackVoice
  split
  · rfl
  · split
    · exact d.askOff_besideTokens v
    · exact congrArg Chain.besideTokens (d.forVoices_modVoice_chain ..)
    · exact congrArg Chain.besideTokens (d.forVoices_modVoice_chain ..)

/-- The entry to FALLBACK leaves the chain but for its tokens. -/
theorem Dev.enterFallback_besideTokens (cause : Nat) : (d.enterFallback cause).besideTokens = d.besideTokens := by
  unfold Dev.enterFallback
  refine (Dev.foldl_same (q := Dev.besideTokens) (fun e v _ => e.fallbackVoice_besideTokens v) _).trans ?_
  refine (Dev.withdrawAll_besideTokens _).trans ?_
  exact congrArg Chain.besideTokens (Dev.event_chain ..)

/-! ### What is answered for a packet that waits: replies, and nothing else -/

theorem Dev.answer_chain (news viaChain : Bool) (src : Nat) (p : Packet) (a : Answer) :
    ({ (d.answer news viaChain src p a).chain with replies := [] } : Chain) = { d.chain with replies := [] } := by
  unfold Dev.answer
  split
  · rfl
  · split <;> rfl

theorem Dev.answer_pendingDb (news viaChain : Bool) (src : Nat) (p : Packet) (a : Answer) :
    (d.answer news viaChain src p a).port.pendingDb = d.port.pendingDb := by
  unfold Dev.answer
  split
  · rfl
  · split <;> exact HostPort.push_pendingDb ..

/-- Packets dropped leave nothing pending, and of the chain all but the replies. -/
theorem Dev.dropPending_chain : ({ d.dropPending.chain with replies := [] } : Chain) = { d.chain with replies := [] } :=
  Dev.foldl_same (q := fun e => ({ e.chain with replies := [] } : Chain)) (fun e _ _ => e.answer_chain ..) _

theorem Dev.dropPending_pendingDb : d.dropPending.port.pendingDb = [] :=
  Dev.foldl_same (q := fun e => e.port.pendingDb) (fun e _ _ => e.answer_pendingDb ..) _

theorem Dev.dropPending_beside : d.dropPending.Keeps (· ∈ [.port, .chain]) d := by
  apply Dev.dropPending_keeps <;> first | decide | exact .refl _

/-! ### A device that no frame reaches (16 R486) -/

/-- The chain is declared broken, and the domain is left. -/
def Dev.linkLost : Dev := (d.setChain fun c => { c with linkTimeout := true, broken := true }).dropPending.syncDomain

theorem Dev.linkLost_besideTokens : ({ d.linkLost.besideTokens with replies := [] } : Chain) =
    { ({ d.chain with linkTimeout := true, broken := true } : Chain).besideTokens with replies := [] } := by
  rw [Dev.linkLost, Dev.syncDomain_besideTokens]
  exact congrArg Chain.besideTokens (d.setChain fun c => { c with linkTimeout := true, broken := true }).dropPending_chain

theorem Dev.linkLost_beside : d.linkLost.Keeps (· ∈ [.port, .chain]) d := by
  refine Dev.syncDomain_keeps (by decide) ?_
  exact (Dev.dropPending_beside _).trans (.chain (.refl d) (by decide) _)

theorem Dev.linkLost_pendingDb : d.linkLost.port.pendingDb = [] := by
  have port : d.linkLost.Keeps (· = .chain) (d.setChain fun c => { c with linkTimeout := true, broken := true }).dropPending :=
    Dev.syncDomain_keeps (by decide) (.refl _)
  have port_same : d.linkLost.port = _ := port.frame .port (by decide)
  exact (congrArg HostPort.pendingDb port_same).trans (Dev.dropPending_pendingDb _)

/-- The link's end told, before the mode moves. -/
def Dev.linkTold (addr : Nat) : Dev := d.linkLost.event 0x0906 addr []

/-- A device loses its link. -/
def Dev.linkTimedOut (addr : Nat) : Dev :=
  if d.ctl.mode = .conducted then (d.linkTold addr).enterFallback 2 else d.linkTold addr

theorem Dev.linkTold_ctl (addr : Nat) : (d.linkTold addr).ctl = d.ctl :=
  (Dev.event_ctl ..).trans (d.linkLost_beside.frame .ctl (by decide))

theorem Dev.linkTold_chain (addr : Nat) : (d.linkTold addr).chain = d.linkLost.chain := Dev.event_chain ..

variable {d} in
theorem Dev.linkTold_log (no_por : d.ctl.por = false) (addr : Nat) : (d.linkTold addr).log = d.loggedAs [(0x0906, addr, [])] := by
  have ctl : d.linkLost.ctl = d.ctl := d.linkLost_beside.frame .ctl (by decide)
  refine (Dev.event_logged d.linkLost _ _ _ (ctl ▸ no_por)).trans ?_
  exact Dev.loggedAs_congr (d.linkLost_beside.frame .log (by decide)) (d.linkLost_beside.frame .time (by decide)) _

theorem Dev.linkTold_pendingDb (addr : Nat) : (d.linkTold addr).port.pendingDb = [] := by
  rw [Dev.linkTold, Dev.event_port]
  exact d.linkLost_pendingDb

theorem Dev.linkTimedOut_besideTokens (addr : Nat) : (d.linkTimedOut addr).besideTokens = d.linkLost.besideTokens := by
  have told := congrArg Chain.besideTokens (d.linkTold_chain addr)
  unfold Dev.linkTimedOut
  split
  · exact (Dev.enterFallback_besideTokens ..).trans told
  · exact told

theorem Dev.linkTimedOut_mode (addr : Nat) :
    (d.linkTimedOut addr).ctl.mode = if d.ctl.mode = .conducted then .fallback else d.ctl.mode := by
  unfold Dev.linkTimedOut
  split
  · exact (Dev.enterFallback_effect ..).2
  · exact congrArg Control.mode (d.linkTold_ctl addr)

theorem Dev.linkTimedOut_pendingDb (addr : Nat) : (d.linkTimedOut addr).port.pendingDb = [] := by
  unfold Dev.linkTimedOut
  split
  · exact (congrArg HostPort.pendingDb (Dev.enterFallback_effect ..).1).trans (d.linkTold_pendingDb addr)
  · exact d.linkTold_pendingDb addr

/-! ### A device that the precentor no longer hears (16 R475, R485) -/

/-- The answer of an outstanding packet whose device is unreachable. -/
def Outstanding.unreachable (addr : Nat) (o : Outstanding) : Reply :=
  { src := addr, opc := o.opc, tag := o.tag, status := stUnreachable, data := [], settle := none }

/-- The precentor gives a device up. -/
def Chain.giveUp (c : Chain) (addr : Nat) : Chain :=
  { c with unreachable := c.unreachable ++ [addr], outstanding := c.outstanding.filter fun o => o.addr ≠ addr }

/-- The packets of a device that is given up are answered. -/
def Dev.givenUp (addr : Nat) : Dev :=
  (d.chain.outstanding.filter fun o => o.addr = addr).foldl (fun d o => d.replyNews (o.unreachable addr))
    (d.setChain fun c => c.giveUp addr)

theorem Dev.givenUp_chain (addr : Nat) : (d.givenUp addr).chain = d.chain.giveUp addr :=
  Dev.foldl_same (q := Dev.chain) (f := fun d (o : Outstanding) => d.replyNews (o.unreachable addr)) (fun _ _ _ => rfl) _

theorem Dev.givenUp_breaks (addr : Nat) : (d.givenUp addr).chain.breaks = true := by
  simp [Dev.givenUp_chain, Chain.breaks, Chain.giveUp]

theorem Dev.followBreak_replies : d.followBreak.port.replies = d.port.replies := by
  unfold Dev.followBreak
  dsimp only
  split
  · rw [Dev.event_port]
    rfl
  · split
    · rw [Dev.event_port]
      rfl
    · rfl

variable {d} in
theorem Dev.givenUp_replies {addr : Nat} {o : Outstanding} (only : d.chain.outstanding.filter (fun o => o.addr = addr) = [o]) :
    (d.givenUp addr).port.replies = (d.port.push (o.unreachable addr)).replies := by
  rw [Dev.givenUp, only]
  rfl

/-! ### The tokens of a device long unheard (16 R480) -/

/-- A device holds no token any longer. -/
def Chain.forget (c : Chain) (addr : Nat) : Chain := { c with holders := c.holders.filter fun h => h.1 ≠ addr }

/-- The tokens that a device held are taken back, and told. -/
def Dev.reclaim1 (d : Dev) (addr : Nat) (h : Nat × Nat × Nat) : Dev :=
  (d.setChain fun c => c.modPool h.2.1 fun x => { x with outstanding := x.outstanding - h.2.2 }).event 0x090C addr [b8 h.2.1, b8 h.2.2]

/-- All tokens that a device held are taken back. -/
def Dev.reclaimed (addr : Nat) : Dev :=
  (d.chain.holders.filter fun h => h.1 = addr && 0 < h.2.2).foldl (fun d h => d.reclaim1 addr h)
    (d.setChain fun c => c.forget addr)

theorem Chain.modPool_holders (c : Chain) (n : Nat) (f : Pool → Pool) : (c.modPool n f).holders = c.holders := by
  unfold Chain.modPool
  split <;> rfl

theorem Dev.reclaim1_chain (addr : Nat) (h : Nat × Nat × Nat) : (d.reclaim1 addr h).chain =
    d.chain.modPool h.2.1 fun x => { x with outstanding := x.outstanding - h.2.2 } := Dev.event_chain ..

theorem Dev.reclaimed_holders (addr : Nat) :
    (d.reclaimed addr).chain.holders = d.chain.holders.filter fun h => h.1 ≠ addr := by
  refine Dev.foldl_same (q := fun e => e.chain.holders) (fun e h _ => ?_) _
  rw [Dev.reclaim1_chain, Chain.modPool_holders]

theorem Chain.modPool_pool (c : Chain) (n : Fin 15) (f : Pool → Pool) :
    ((c.modPool (n.val + 1) f).pools.get n) = f (c.pools.get n) := by
  rw [Chain.modPool, dif_pos ⟨by omega, by omega⟩]
  exact Tab.get_modify_self ..

section
variable {d : Dev} {addr k : Nat} {n : Fin 15} (only : d.chain.holders.filter (fun h => h.1 = addr && 0 < h.2.2) = [(addr, n.val + 1, k)])
include only

theorem Dev.reclaimed_of_one : d.reclaimed addr = (d.setChain fun c => c.forget addr).reclaim1 addr (addr, n.val + 1, k) := by
  rw [Dev.reclaimed, only]
  rfl

theorem Dev.reclaimed_pool :
    ((d.reclaimed addr).chain.pools.get n).outstanding = (d.chain.pools.get n).outstanding - k := by
  rw [Dev.reclaimed_of_one only, Dev.reclaim1_chain, Chain.modPool_pool]
  rfl

theorem Dev.reclaimed_log (no_por : d.ctl.por = false) :
    (d.reclaimed addr).log = d.loggedAs [(0x090C, addr, [b8 (n.val + 1), b8 k])] := by
  rw [Dev.reclaimed_of_one only]
  exact Dev.event_logged ((d.setChain fun c => c.forget addr).setChain _) _ _ _ no_por

end

end

/-! ### The events -/

section
variable {s : State} {dt addr : Nat}

theorem execDeviceUnreachable_givesUp (head : (s.turn dt).dev.chain.head = true)
    (enumerated : (s.turn dt).dev.chain.enumerated = true) (first : 1 ≤ addr) (last : addr ≤ (s.turn dt).dev.chain.count)
    (reachable : addr ∉ (s.turn dt).dev.chain.unreachable)
    (unheard : (s.turn dt).dev.lastHeard addr + (s.turn dt).dev.linkTime ≤ (s.turn dt).dev.now) :
    exec (.deviceUnreachable dt addr) s = .next (s.after dt fun d => (d.givenUp addr).followBreak) := by
  refine congrArg Host.Outcome.next (State.after_congr ?_)
  exact if_pos (by simp [head, enumerated, first, last, reachable, unheard])

theorem execLinkTimeout_loses (device : (s.turn dt).dev.chain.head = false) (address : (s.turn dt).dev.chain.addr = some addr)
    (untold : (s.turn dt).dev.chain.linkTimeout = false) (live : (s.turn dt).dev.chainLive = true)
    (dead : (s.turn dt).dev.deadFor (s.turn dt).dev.linkTime = true) :
    exec (.linkTimeout dt) s = .next (s.after dt fun d => d.linkTimedOut addr) := by
  refine congrArg Host.Outcome.next (State.after_congr ?_)
  have own : (s.turn dt).dev.ownAddr = addr := by simp [Dev.ownAddr, device, address]
  refine (if_pos (by simp [device, address, untold, live, dead])).trans ?_
  rw [own, Dev.linkTimedOut, ← Dev.linkTold_ctl _ addr]
  rfl

theorem execChainAcap_enters (device : (s.turn dt).dev.chain.head = false) (address : (s.turn dt).dev.chain.addr = some addr)
    (told : (s.turn dt).dev.chain.linkTimeout = true) (fallback : (s.turn dt).dev.ctl.mode = .fallback)
    (dead : (s.turn dt).dev.deadFor (s.turn dt).dev.acapTime = true) :
    exec (.chainAcap dt) s = .next (s.after dt fun d => d.enterAcappella 2) := by
  refine congrArg Host.Outcome.next (State.after_congr ?_)
  exact if_pos (by simp [device, address, told, fallback, dead])

theorem execBreathReclaim_takes (head : (s.turn dt).dev.chain.head = true) (device : addr ≠ 0)
    (unheard : (s.turn dt).dev.lastHeard addr + 2 * (s.turn dt).dev.linkTime ≤ (s.turn dt).dev.now) :
    exec (.breathReclaim dt addr) s = .next (s.after dt fun d => d.reclaimed addr) := by
  refine congrArg Host.Outcome.next (State.after_congr ?_)
  exact if_pos (by simp [head, device, unheard])

end

end Sys2Proof.Machine

namespace Sys2Proof
open Machine

/-- Settles O57: each break by the device that it leaves. -/
theorem chainBreaksAct : Obligations.ChainBreaksAct := by
  intro s dt addr d c
  refine ⟨fun head enumerated first last reachable unheard =>
      ⟨_, execDeviceUnreachable_givesUp head enumerated first last reachable unheard, ?unreachable⟩,
    fun device address untold live dead => ⟨_, execLinkTimeout_loses device address untold live dead, ?lost⟩,
    fun device address told fallback dead => ⟨_, execChainAcap_enters device address told fallback dead, ?acappella⟩,
    fun head device unheard => ⟨_, execBreathReclaim_takes head device unheard, ?reclaimed⟩⟩
  case unreachable =>
    have chain : (d.givenUp addr).followBreak.chain = _ :=
      (Dev.followBreak_chain _).trans (congrArg (fun c : Chain => { c with broken := c.breaks }) (d.givenUp_chain addr))
    rw [State.after_chain]
    refine ⟨congrArg Chain.unreachable chain, ?_, congrArg Chain.outstanding chain, fun o only => ?_⟩
    · exact (congrArg Chain.broken (Dev.followBreak_chain _)).trans (d.givenUp_breaks addr)
    · rw [State.after_replies, Dev.followBreak_replies]
      exact Dev.givenUp_replies only
  case lost =>
    have no_por : d.ctl.por = false := by
      have := (Bool.and_eq_true_iff.1 live).2
      simpa using this
    have chain := (congrArg (fun c : Chain => ({ c with replies := [] } : Chain)) (d.linkTimedOut_besideTokens addr)).trans
      d.linkLost_besideTokens
    rw [State.after_chain, State.after_ctl, State.after_pendingDb]
    refine ⟨(congrArg Chain.linkTimeout chain :), (congrArg Chain.broken chain :), d.linkTimedOut_pendingDb addr,
      d.linkTimedOut_mode addr, fun other => State.after_logged ?_⟩
    exact (congrArg Dev.log (if_neg other)).trans (Dev.linkTold_log no_por addr)
  case acappella =>
    rw [State.after_ctl, State.after_par]
    exact ⟨Dev.enterAcappella_mode .., congrArg (·.live) (Dev.enterAcappella_par ..)⟩
  case reclaimed =>
    rw [State.after_chain]
    refine ⟨d.reclaimed_holders addr, fun n k only no_por => ⟨Dev.reclaimed_pool only, State.after_logged ?_⟩⟩
    exact Dev.reclaimed_log only no_por

end Sys2Proof

/-! SUPPORT. O53: what a measure boundary sends (16 R459 to R461, R464, R471, R474). -/

namespace Sys2Proof.Machine
open Sys2Proof

/-! ### What breath does to the chain: its tokens, entries, pools and holders, and nothing else -/

/-- The chain without what breath moves. -/
def Chain.besideBreath (c : Chain) : Chain :=
  { c with
    returns := .fill 15 0, hand := 0, handDomain := 0
    merged := [], pools := .fill 15 { pool := 0, outstanding := 0 }, holders := [] }

def Dev.besideBreath (d : Dev) : Chain := d.chain.besideBreath

theorem Dev.besideBreath_of_besideTokens {e d : Dev} (same : e.besideTokens = d.besideTokens) : e.besideBreath = d.besideBreath :=
  (congrArg Chain.besideBreath same :)

theorem Chain.modPool_besideBreath (c : Chain) (n : Nat) (f : Pool → Pool) : (c.modPool n f).besideBreath = c.besideBreath := by
  unfold Chain.modPool
  split <;> rfl

/-- Breath leaves the count of measures, the enumeration, the ports and what goes down and up. -/
theorem Dev.besideBreath_keeps {e d : Dev} (same : e.besideBreath = d.besideBreath) : e.chain.mseq = d.chain.mseq ∧
    e.chain.enumLeft = d.chain.enumLeft ∧ e.chain.forward = d.chain.forward ∧ e.chain.sseq = d.chain.sseq ∧
    e.chain.ports = d.chain.ports ∧ e.chain.holdRx = d.chain.holdRx ∧ e.chain.upstream = d.chain.upstream ∧
    e.chain.upSseq = d.chain.upSseq :=
  ⟨(congrArg Chain.mseq same :), (congrArg Chain.enumLeft same :), (congrArg Chain.forward same :),
    (congrArg Chain.sseq same :), (congrArg Chain.ports same :), (congrArg Chain.holdRx same :),
    (congrArg Chain.upstream same :), (congrArg Chain.upSseq same :)⟩

section
variable (d : Dev)

theorem Dev.takeTokens_besideTokens (n k : Nat) : (d.takeTokens n k).besideTokens = d.besideTokens := by
  unfold Dev.takeTokens
  dsimp only
  split
  · rw [Dev.returnDomain_besideTokens, Dev.syncDomain_besideTokens]
  · rw [Dev.returnDomain_besideTokens]
    exact d.syncDomain_besideTokens

theorem Dev.gatherBreath_besideBreath : d.gatherBreath.1.besideBreath = d.besideBreath :=
  (Dev.besideBreath_of_besideTokens d.syncDomain_besideTokens :)

theorem Dev.sendBreath_besideBreath : d.sendBreath.1.besideBreath = d.besideBreath := d.gatherBreath_besideBreath

theorem Dev.grantDomain_besideBreath (own : Tab Nat 15) (acc : Dev × List Grant) (e : BreathEntry) :
    (Dev.grantDomain own acc e).1.besideBreath = acc.1.besideBreath := by
  unfold Dev.grantDomain
  extract_lets mine returned granted
  have back : returned.besideBreath = acc.1.besideBreath := Chain.modPool_besideBreath ..
  have given : granted.besideBreath = acc.1.besideBreath := (Chain.modPool_besideBreath ..).trans back
  split
  · exact back
  · split
    · exact (Dev.besideBreath_of_besideTokens (Dev.takeTokens_besideTokens ..)).trans given
    · exact given

theorem Dev.grantMeasure_besideBreath : d.grantMeasure.1.besideBreath = d.besideBreath := by
  have grants (own : Tab Nat 15) (l : List BreathEntry) (acc : Dev × List Grant) :
      (l.foldl (Dev.grantDomain own) acc).1.besideBreath = acc.1.besideBreath :=
    List.foldlRecOn l _ (motive := fun x => x.1.besideBreath = acc.1.besideBreath) rfl
      fun x same e _ => (Dev.grantDomain_besideBreath own x e).trans same
  exact (grants ..).trans d.gatherBreath_besideBreath

/-! ### The measure of a precentor -/

/-- A measure of the precentor begins. -/
def Dev.measureStarted : Dev :=
  (d.countMeasure.setChain Chain.beginEnum).setChain fun c => { c with
    mseq := c.mseq + 1, measuredAt := some d.now
    enumEndAt := if enumStep d.chain.enumLeft != .none then d.now + 30720 else c.enumEndAt
    enumLeft := c.enumLeft.map fun k => k - 1 }

/-- The grants of a measure have been made. -/
def Dev.measureGranted : Dev := d.measureStarted.grantMeasure.1

/-- What a measure takes from the forwarding buffer: nothing in an enumeration. -/
def Dev.measureSegment : List Byte × Option FwdBar × List FwdBar :=
  if enumStep d.chain.enumLeft != .none then ([], none, d.measureGranted.chain.forward)
  else nextSegment d.measureGranted.chain.forward

/-- A measure's segment goes out. -/
def Dev.measureCarried : Dev :=
  d.measureGranted.setChain fun c => { c with
    forward := d.measureSegment.2.2
    sseq := if !d.measureSegment.1.isEmpty || d.measureSegment.2.1.isSome then c.sseq + 1 else c.sseq }

/-- A measure declares a downbeat. -/
def Dev.measureBeat : Bool :=
  d.measureCarried.chain.enumerated && !(enumStep d.chain.enumLeft != .none) &&
    (d.measureSegment.2.1.any (·.db) || d.measureCarried.chain.mseq.toNat % 8 = 0)

/-- The frame of a measure. -/
def Dev.measureFrame : DownFrame :=
  { ok := true, downbeat := d.measureBeat, bar := d.measureSegment.2.1.isSome
    clrEnum := enumStep d.chain.enumLeft == .clearing, enumerate := enumStep d.chain.enumLeft == .numbering, hold := false
    ring := d.measureCarried.chain.ring.armed, mseq := d.measureCarried.chain.mseq, hop := 0
    barNo := BitVec.ofNat 16 ((d.measureSegment.2.1.map (·.barNo)).getD 0)
    cumlat := (d.measureCarried.chain.ports.get 1).delay + 360, ctbc := d.measureCarried.time.tbc
    grants := d.measureStarted.grantMeasure.2, sseq := d.measureCarried.chain.sseq, seg := d.measureSegment.1 }

/-- A frame goes down, with the downbeat that it declares for the bar sent last. -/
def Dev.sendDown (e : Dev) (f : DownFrame) (beat : Bool) (at_ : Nat) : Dev :=
  let sent := e.setChain fun c => { c with sentDown := some f }
  if beat then
    sent.setChain fun c => { c with downbeats := c.downbeats ++ [{ at_ := at_, serial := sent.markedSerial }] }
  else sent

theorem Dev.sendDown_chain (e : Dev) (f : DownFrame) (beat : Bool) (at_ : Nat) :
    (e.sendDown f beat at_).chain.mseq = e.chain.mseq ∧
    (e.sendDown f beat at_).chain.enumLeft = e.chain.enumLeft ∧ (e.sendDown f beat at_).chain.forward = e.chain.forward ∧
    (e.sendDown f beat at_).chain.sentDown = some f := by
  unfold Dev.sendDown
  dsimp only
  split <;> exact ⟨rfl, rfl, rfl, rfl⟩

/-- A precentor's measure by its parts. -/
theorem Dev.precentorMeasure_eq : d.precentorMeasure = d.measureCarried.sendDown d.measureFrame d.measureBeat (d.now + 61440) := by
  unfold Dev.measureFrame Dev.measureBeat Dev.measureCarried Dev.measureSegment Dev.measureGranted
    Dev.precentorMeasure
  extract_lets step started quiet
  have begun : started = d.measureStarted := rfl
  clear_value started
  subst begun
  generalize d.measureStarted.grantMeasure = granted
  obtain ⟨d2, grants⟩ := granted
  unfold quiet step
  dsimp only
  generalize (if (enumStep d.chain.enumLeft != .none) = true then ([], none, d2.chain.forward) else nextSegment d2.chain.forward) = carried
  obtain ⟨seg, ends, rest⟩ := carried
  rfl

theorem ChainPort.measure_delay (x : ChainPort) : x.measure.delay = x.delay := by
  unfold ChainPort.measure
  split
  · rfl
  · split <;> rfl

theorem Dev.countMeasure_delay (k : Fin 2) : (d.countMeasure.chain.ports.get k).delay = (d.chain.ports.get k).delay := by
  refine (congrArg ChainPort.delay (Tab.get_mapIdx ..)).trans ?_
  split
  · exact ChainPort.measure_delay _
  · rfl

/-- The disarming of the ring leaves the port, the frames and the buffer. -/
theorem Chain.beginEnum_beside (c : Chain) : c.beginEnum.ports = c.ports ∧ c.beginEnum.mseq = c.mseq ∧
    c.beginEnum.forward = c.forward ∧ c.beginEnum.sseq = c.sseq ∧ c.beginEnum.enumLeft = c.enumLeft := by
  unfold Chain.beginEnum
  split <;> exact ⟨rfl, rfl, rfl, rfl, rfl⟩

/-- What the start of a measure makes of the chain. -/
theorem Dev.measureStarted_chain : d.measureStarted.chain.mseq = d.chain.mseq + 1 ∧
    d.measureStarted.chain.enumLeft = d.chain.enumLeft.map (fun k => k - 1) ∧
    d.measureStarted.chain.forward = d.chain.forward ∧ d.measureStarted.chain.sseq = d.chain.sseq ∧
    ∀ k, (d.measureStarted.chain.ports.get k).delay = (d.chain.ports.get k).delay := by
  obtain ⟨ports, mseq, forward, sseq, enumLeft⟩ := d.countMeasure.chain.beginEnum_beside
  refine ⟨congrArg (· + 1) mseq, congrArg (Option.map fun k => k - 1) enumLeft, forward, sseq, fun k => ?_⟩
  exact (congrArg (fun t : Tab ChainPort 2 => (t.get k).delay) ports).trans (d.countMeasure_delay k)

/-- The grants leave what the frame carries besides. -/
theorem Dev.measureGranted_chain : d.measureGranted.chain.mseq = d.chain.mseq + 1 ∧
    d.measureGranted.chain.enumLeft = d.chain.enumLeft.map (fun k => k - 1) ∧
    d.measureGranted.chain.forward = d.chain.forward ∧ d.measureGranted.chain.sseq = d.chain.sseq ∧
    ∀ k, (d.measureGranted.chain.ports.get k).delay = (d.chain.ports.get k).delay := by
  obtain ⟨mseq, enumLeft, forward, sseq, delay⟩ := d.measureStarted_chain
  obtain ⟨mseq', enumLeft', forward', sseq', ports', -⟩ :=
    Dev.besideBreath_keeps (e := d.measureGranted) d.measureStarted.grantMeasure_besideBreath
  exact ⟨mseq'.trans mseq, enumLeft'.trans enumLeft, forward'.trans forward, sseq'.trans sseq,
    fun k => (congrArg (fun t : Tab ChainPort 2 => (t.get k).delay) ports').trans (delay k)⟩

theorem Dev.measureStarted_time : d.measureStarted.time = d.time := by
  unfold Dev.measureStarted Dev.countMeasure
  rw [Dev.setChain_time, Dev.setChain_time, Dev.setChain_time]

theorem Dev.measureCarried_time : d.measureCarried.time = d.time := by
  have granted : d.measureGranted.Keeps (· ∈ [.chain]) d.measureStarted := Dev.grantMeasure_keeps (by decide) (.refl _)
  have time : d.measureGranted.time = d.measureStarted.time := granted.frame .time (by decide)
  unfold Dev.measureCarried
  rw [Dev.setChain_time, time, Dev.measureStarted_time]

theorem Dev.measureCarried_chain : d.measureCarried.chain = { d.measureGranted.chain with
    forward := d.measureSegment.2.2
    sseq := if !d.measureSegment.1.isEmpty || d.measureSegment.2.1.isSome then d.measureGranted.chain.sseq + 1
      else d.measureGranted.chain.sseq } := by
  unfold Dev.measureCarried
  generalize d.measureGranted = e, d.measureSegment = p
  rfl

theorem Dev.measureCarried_keeps : d.measureCarried.chain.mseq = d.chain.mseq + 1 ∧
    d.measureCarried.chain.enumLeft = d.chain.enumLeft.map (fun k => k - 1) ∧
    d.measureCarried.chain.forward = d.measureSegment.2.2 ∧
    (d.measureCarried.chain.ports.get 1).delay = (d.chain.ports.get 1).delay := by
  obtain ⟨mseq, enumLeft, -, -, delay⟩ := d.measureGranted_chain
  rw [Dev.measureCarried_chain]
  exact ⟨mseq, enumLeft, rfl, delay 1⟩

/-- What the frame tells of the measure. -/
theorem Dev.measureFrame_tells : d.measureFrame.mseq = d.chain.mseq + 1 ∧ d.measureFrame.ctbc = d.time.tbc ∧
    d.measureFrame.cumlat = (d.chain.ports.get 1).delay + 360 := by
  obtain ⟨mseq, -, -, delay⟩ := d.measureCarried_keeps
  unfold Dev.measureFrame
  dsimp only
  exact ⟨mseq, congrArg TimeBase.tbc d.measureCarried_time, congrArg (· + 360) delay⟩

variable {d}

/-- In an enumeration a measure takes nothing from the buffer. -/
theorem Dev.measureSegment_quiet (quiet : enumStep d.chain.enumLeft ≠ .none) :
    d.measureSegment = ([], none, d.chain.forward) := by
  obtain ⟨-, -, forward, -, -⟩ := d.measureGranted_chain
  rw [Dev.measureSegment, if_pos (bne_iff_ne.2 quiet), forward]

/-- Outside an enumeration the next segment goes out. -/
theorem Dev.measureSegment_running (running : d.chain.enumLeft = none) :
    d.measureSegment = nextSegment d.chain.forward := by
  obtain ⟨-, -, forward, -, -⟩ := d.measureGranted_chain
  rw [Dev.measureSegment, running, forward]
  rfl

theorem enumStep_ne_none {left : Option Nat} (some_ : left ≠ none) (more : left ≠ some 0) : enumStep left ≠ .none := by
  match left with
  | none => exact absurd rfl some_
  | some 0 => exact absurd rfl more
  | some (k + 1) =>
    unfold enumStep
    simp only [Nat.add_eq_zero_iff, Nat.succ_ne_self, and_false, if_false]
    split
    · nofun
    · split <;> nofun

/-- A bar that fits goes out whole. -/
theorem nextSegment_whole {b : FwdBar} {rest : List FwdBar} (some_ : b.bytes ≠ []) (fits : b.bytes.length ≤ 23) :
    nextSegment (b :: rest) = (b.bytes, some b, rest) := by
  simp [nextSegment, some_, fits]

/-- A longer bar goes out in part. -/
theorem nextSegment_part {b : FwdBar} {rest : List FwdBar} (long : 23 < b.bytes.length) :
    nextSegment (b :: rest) = (b.bytes.take 23, none, { b with bytes := b.bytes.drop 23 } :: rest) := by
  have some_ : b.bytes ≠ [] := List.ne_nil_of_length_pos (by omega)
  simp [nextSegment, some_, Nat.not_le.2 long]

/-- A segment's bytes give the frame the next segment number. -/
theorem Dev.measureFrame_sseq (bytes : d.measureSegment.1 ≠ []) : d.measureFrame.sseq = d.chain.sseq + 1 := by
  obtain ⟨-, -, -, sseq, -⟩ := d.measureGranted_chain
  have carried : d.measureFrame.sseq = d.measureCarried.chain.sseq := rfl
  rw [carried, d.measureCarried_chain, ← sseq]
  exact if_pos (by simp [bytes])

end

/-! ### The boundary of a device that runs on -/

section
variable (d : Dev)

/-- A device's own measure begins. -/
def Dev.ranOn : Dev := (d.setChain fun c => { c with measuredAt := some d.now }).countMeasure

variable {d} in
theorem Dev.ranOn_port (device : d.chain.head = false) (k : Fin 2) :
    d.ranOn.chain.ports.get k = (d.chain.ports.get k).measure := by
  refine (Tab.get_mapIdx ..).trans (if_pos ?_)
  simp [device]

theorem Dev.ownReach_congr {e : Dev} (chain : e.besideBreath = d.besideBreath) (time : e.time = d.time) :
    e.ownReach = d.ownReach := by
  have addr : e.chain.addr = d.chain.addr := (congrArg Chain.addr chain :)
  have reach : e.chain.reachB = d.chain.reachB := (congrArg Chain.reachB chain :)
  have at_ : e.chain.reachBAt = d.chain.reachBAt := (congrArg Chain.reachBAt chain :)
  have turned : e.chain.turned = d.chain.turned := (congrArg Chain.turned chain :)
  simp only [Dev.ownReach, Dev.boundary, Dev.now, addr, reach, at_, turned, time]
  rfl

/-- The upstream frame that a device sends. -/
def Dev.upFrame : UpFrame :=
  let seg := if d.chain.holdRx then [] else d.chain.upstream.take 18
  { ok := true, reach := d.ownReach, sseq := if seg.isEmpty then d.chain.upSseq else d.chain.upSseq + 1
    breath := d.sendBreath.2, seg := seg }

theorem Dev.sendUp_sentUp : d.sendUp.chain.sentUp = some d.upFrame := by
  have same := d.sendBreath_besideBreath
  have kept : d.sendBreath.1.Keeps (· ∈ [.chain]) d := Dev.sendBreath_keeps (by decide) (.refl _)
  have reach := d.ownReach_congr same (kept.frame .time (by decide))
  obtain ⟨-, -, -, -, -, hold, bytes, seq⟩ := Dev.besideBreath_keeps same
  rw [Dev.upFrame, ← reach, ← hold, ← bytes, ← seq]
  rfl

/-- Sending upstream moves of the chain what breath moves, and the stream. -/
theorem Dev.sendUp_ports : d.sendUp.chain.ports = d.chain.ports :=
  (congrArg Chain.ports d.sendBreath_besideBreath :)

end

/-! ### The event -/

section
variable {s : State} {dt : Nat}

theorem execMeasureBoundary_stays (waits : (s.turn dt).dev.atBoundary = false ∨
      (s.turn dt).dev.chain.measuredAt = some (s.turn dt).dev.now) :
    exec (.measureBoundary dt) s = .next (s.after dt fun d => d) := by
  refine congrArg Host.Outcome.next (State.after_congr ?_)
  refine if_pos ?_
  obtain within | begun := waits
  · simp [within]
  · simp [begun]

section
variable (live : (s.turn dt).dev.chainLive = true) (boundary : (s.turn dt).dev.atBoundary = true)
  (new : (s.turn dt).dev.chain.measuredAt ≠ some (s.turn dt).dev.now)
include live boundary new

theorem execMeasureBoundary_precentor (head : (s.turn dt).dev.chain.head = true) :
    exec (.measureBoundary dt) s = .next (s.after dt Dev.precentorMeasure) := by
  refine congrArg Host.Outcome.next (State.after_congr ?_)
  exact (if_neg (by simp [live, boundary, new])).trans (if_pos head)

theorem execMeasureBoundary_device (device : (s.turn dt).dev.chain.head = false) :
    exec (.measureBoundary dt) s = .next (s.after dt fun d => d.ranOn.sendUp) := by
  refine congrArg Host.Outcome.next (State.after_congr ?_)
  exact (if_neg (by simp [live, boundary, new])).trans (if_neg (by simp [device]))

end

end

end Sys2Proof.Machine

namespace Sys2Proof
open Machine

/-- Settles O53: a precentor's measure by the frame it sends, a device's by its upstream frame. -/
theorem measuresAct : Obligations.MeasuresAct := by
  intro s dt d c
  refine ⟨fun waits => ⟨_, execMeasureBoundary_stays waits, State.after_same rfl⟩, fun live boundary new =>
    ⟨fun head => ⟨_, d.measureFrame, execMeasureBoundary_precentor live boundary new head, ?precentor⟩,
      fun device => ⟨_, d.ranOn.upFrame, execMeasureBoundary_device live boundary new device, ?device⟩⟩⟩
  case precentor =>
    obtain ⟨mseq, enumLeft, forward, -⟩ := d.measureCarried_keeps
    obtain ⟨number, count, latency⟩ := d.measureFrame_tells
    obtain ⟨mseq', enumLeft', forward', sent⟩ := d.measureCarried.sendDown_chain d.measureFrame d.measureBeat (d.now + 61440)
    have forward := forward'.trans forward
    rw [State.after_chain, Dev.precentorMeasure_eq]
    refine ⟨mseq'.trans mseq, enumLeft'.trans enumLeft, sent, rfl, rfl, number, count,
      latency, rfl, rfl, fun some_ more => ?_, fun b rest running next some_ fits => ?_,
      fun b rest running next long => ?_⟩
    · have quiet : enumStep d.chain.enumLeft ≠ .none := enumStep_ne_none some_ more
      have segment := Dev.measureSegment_quiet quiet
      refine ⟨congrArg (·.1) segment, congrArg (fun p => p.2.1.isSome) segment, ?_, forward.trans (congrArg (·.2.2) segment)⟩
      simp [Dev.measureFrame, Dev.measureBeat, quiet]
    · have segment := (Dev.measureSegment_running running).trans ((congrArg nextSegment next).trans (nextSegment_whole some_ fits))
      have bytes : d.measureSegment.1 = b.bytes := congrArg (·.1) segment
      exact ⟨bytes, congrArg (fun p => p.2.1.isSome) segment,
        congrArg (fun p : List Byte × Option FwdBar × List FwdBar => BitVec.ofNat 16 ((p.2.1.map FwdBar.barNo).getD 0)) segment,
        Dev.measureFrame_sseq (bytes ▸ some_), forward.trans (congrArg (·.2.2) segment)⟩
    · have segment := (Dev.measureSegment_running running).trans ((congrArg nextSegment next).trans (nextSegment_part long))
      have bytes : d.measureSegment.1 = b.bytes.take 23 := congrArg (·.1) segment
      have some_ : d.measureSegment.1 ≠ [] := by
        rw [bytes]
        exact List.ne_nil_of_length_pos (by rw [List.length_take]; omega)
      exact ⟨bytes, congrArg (fun p => p.2.1.isSome) segment, Dev.measureFrame_sseq some_,
        forward.trans (congrArg (·.2.2) segment)⟩
  case device =>
    rw [State.after_chain]
    refine ⟨d.ranOn.sendUp_sentUp, rfl, rfl, rfl, ?_, fun k => ?_⟩
    · exact ite_congr (propext List.isEmpty_iff) (fun _ => rfl) fun _ => rfl
    · rw [Dev.sendUp_ports]
      exact Dev.ranOn_port device k

end Sys2Proof

/-! SUPPORT. O54: a downstream frame at a device of the chain (16 R459 to R461, R463 to R467, R470, R473, R483, R486). -/

namespace Sys2Proof.Machine
open Sys2Proof

/-! ### The frame at its port, and the frame that goes on -/

theorem ChainPort.measure_frames (x : ChainPort) : x.measure.frames = x.frames := by
  unfold ChainPort.measure
  split
  · rfl
  · split <;> rfl

theorem ChainPort.measure_up (x : ChainPort) : x.measure.up = x.up := by
  unfold ChainPort.measure
  split
  · rfl
  · split <;> rfl

/-- A port that has heard its frame keeps its run. -/
theorem ChainPort.measure_goodRun_of_heard {x : ChainPort} (heard : x.heard = true) : x.measure.goodRun = x.goodRun := by
  unfold ChainPort.measure
  rw [if_pos heard]
  split <;> rfl

theorem ChainPort.measure_goodRun_of_zero {x : ChainPort} (none_ : x.goodRun = 0) : x.measure.goodRun = 0 := by
  unfold ChainPort.measure
  split
  · exact none_
  · split
    · exact none_
    · rfl

/-- A port that a valid frame has reached. -/
def ChainPort.good (x : ChainPort) : ChainPort :=
  { x with frames := (x.frames + 1) % 2 ^ 32, heard := true, missRun := 0, goodRun := x.goodRun + 1, up := x.up || 1 ≤ x.goodRun }

/-- A port that a frame with a wrong CRC has reached. -/
def ChainPort.bad (x : ChainPort) (now : Nat) : ChainPort :=
  let l := now :: x.failures.filter fun t => now < t + 1000 * msec
  { x with crcErr := stick 16 (x.crcErr + 1), checking := 8 ≤ l.length, checkAt := now, failures := if 8 ≤ l.length then [] else l }

/-- The frame that goes on: one hop further, with the latency and HOLD of the chain. -/
def Chain.onward (c : Chain) (f : DownFrame) : DownFrame :=
  { f with
    hop := if 62 ≤ f.hop then 62 else f.hop + 1, cumlat := f.cumlat + (c.ports.get 1).delay + 360, hold := c.holds }

section
variable (d : Dev)

theorem Dev.goodFrame_chain (k : Fin 2) : (d.goodFrame k).chain = { d.chain with ports := d.chain.ports.modify k ChainPort.good } := by
  unfold Dev.goodFrame
  dsimp only
  split
  · exact Dev.event_chain ..
  · rfl

theorem Dev.goodFrame_time (k : Fin 2) : (d.goodFrame k).time = d.time := by
  unfold Dev.goodFrame
  dsimp only
  split
  · exact Dev.event_time ..
  · rfl

theorem Dev.badFrame_chain (k : Fin 2) :
    (d.badFrame k).chain = { d.chain with ports := d.chain.ports.modify k (ChainPort.bad · d.now) } := rfl

/-- A port that a wrong frame has reached sends it on with the latency and HOLD of the chain. -/
theorem Dev.badFrame_onward (f : DownFrame) : some ((d.badFrame 0).chain.onward f) = some (d.chain.onward f) := by
  have port : (d.badFrame 0).chain.ports.get 1 = d.chain.ports.get 1 := Tab.get_modify_ne _ _ (by decide)
  rw [Chain.onward, port]
  rfl

theorem Dev.sendOn_chain (f : DownFrame) : (d.sendOn f 1).chain = { d.chain with sentDown := some (d.chain.onward f) } := rfl

/-! ### What a valid frame sends -/

/-- The chain without what breath, the ports and the stream upstream move. -/
def Chain.besideUp (c : Chain) : Chain :=
  { c with
    returns := .fill 15 0, hand := 0, handDomain := 0
    merged := [], pools := .fill 15 { pool := 0, outstanding := 0 }, holders := []
    ports := .fill 2 .reset, upSseq := 0, upstream := [], sentUp := none }

/-- What the chain shows of the last frame. -/
def Chain.tells (c : Chain) : Option Nat × Bool × Bool × Word16 × Nat × Bool × Option DownFrame :=
  (c.lastFrame, c.linkTimeout, c.broken, c.mseq, c.latency, c.holdRx, c.sentDown)

/-- Breath, the ports and the stream upstream move neither what the last frame told nor the device's place. -/
theorem Chain.besideUp_keeps {c e : Chain} (same : c.besideUp = e.besideUp) : c.tells = e.tells ∧ c.addr = e.addr ∧
    c.turned = e.turned ∧ c.hopWrong = e.hopWrong ∧ c.offset = e.offset ∧ c.holdOne = e.holdOne ∧
    c.discarding = e.discarding ∧ c.downSeq = e.downSeq ∧ c.lastBar = e.lastBar ∧ c.barLost = e.barLost ∧
    c.replies = e.replies ∧ c.head = e.head :=
  ⟨(congrArg Chain.tells same :), (congrArg Chain.addr same :), (congrArg Chain.turned same :),
    (congrArg Chain.hopWrong same :), (congrArg Chain.offset same :), (congrArg Chain.holdOne same :),
    (congrArg Chain.discarding same :), (congrArg Chain.downSeq same :), (congrArg Chain.lastBar same :),
    (congrArg Chain.barLost same :), (congrArg Chain.replies same :), (congrArg Chain.head same :)⟩

/-- The frame's measure has begun where it was not begun already. -/
def Dev.downMeasured : Dev := if d.chain.measuredAt.any (within2 (d.now - downLen)) then d else d.countMeasure

/-- What a valid frame tells a device. -/
def Chain.told (c : Chain) (f : DownFrame) (now b : Nat) : Chain :=
  { c with
    lastFrame := some now, linkTimeout := false, broken := false, mseq := f.mseq, latency := f.cumlat, holdRx := f.hold
    measuredAt := some b }

/-- A valid frame has been told. -/
def Dev.downTold (f : DownFrame) : Dev :=
  let d2 := (d.downMeasured.goodFrame 0).setChain fun c => c.told f d.now (d.now - downLen)
  { d2 with time := { d2.time with measureAt := d.now - downLen } }

/-- A valid frame has gone on, and its measure's upstream frame has been sent. -/
def Dev.downSent (f : DownFrame) : Dev :=
  if d.chain.measuredAt.any (within2 (d.now - downLen)) then (d.downTold f).sendOn f 1 else ((d.downTold f).sendOn f 1).sendUp

/-- The grants to the device have been taken. -/
def Dev.grantsTaken (f : DownFrame) : Dev :=
  (f.grants.filter fun g => d.chain.addr = some g.addr).foldl (fun d g => d.takeTokens g.domain g.count) d

/-- The downbeat of a frame is declared. -/
def Dev.beatDeclared (f : DownFrame) (b : Nat) : Dev :=
  if f.downbeat && d.chain.addr.isSome then
    d.setChain fun c => { c with downbeats := c.downbeats ++ [{ at_ := b + 61440 - f.cumlat, serial := d.port.serial }] }
  else d

/-- What a valid frame has made of the device before its bar. -/
def Dev.downTaken (f : DownFrame) : Dev :=
  ((((d.downSent f).follow f).steer f).grantsTaken f).setChain fun c => c.takeSegment f

theorem Dev.receiveDown_eq (f : DownFrame) : d.receiveDown 0 f =
    (if f.bar then (d.downTaken f).chainCommit f.barNo.toNat else d.downTaken f).beatDeclared f (d.now - downLen) := by
  unfold Dev.receiveDown Dev.downTaken Dev.grantsTaken Dev.beatDeclared Dev.downSent Dev.downTold Dev.downMeasured
  rfl

/-! ### What has been sent -/

theorem Dev.countMeasure_besideUp : d.countMeasure.chain.besideUp = d.chain.besideUp := rfl

theorem Dev.downMeasured_besideUp : d.downMeasured.chain.besideUp = d.chain.besideUp := by
  unfold Dev.downMeasured
  split <;> rfl

/-- What has been told is in the chain, whatever its ports count. -/
theorem Dev.downTold_chain (f : DownFrame) : (d.downTold f).chain =
    ({ d.downMeasured.chain with ports := d.downMeasured.chain.ports.modify 0 ChainPort.good } : Chain).told f d.now (d.now - downLen) := by
  unfold Dev.downTold
  rw [← Dev.goodFrame_chain]
  rfl

theorem Dev.downMeasured_time : d.downMeasured.time = d.time := by
  unfold Dev.downMeasured
  split <;> rfl

theorem Dev.downTold_time (f : DownFrame) : (d.downTold f).time = { d.time with measureAt := d.now - downLen } := by
  unfold Dev.downTold
  dsimp only
  rw [Dev.setChain_time, Dev.goodFrame_time, Dev.downMeasured_time]

/-- The frame that goes on is the one that the device would have sent on before. -/
theorem Dev.downTold_onward (f : DownFrame) : (d.downTold f).chain.onward f = d.chain.onward f := by
  rw [Dev.downTold_chain]
  have delay : (d.downMeasured.chain.ports.get 1).delay = (d.chain.ports.get 1).delay := by
    unfold Dev.downMeasured
    split
    · rfl
    · exact d.countMeasure_delay 1
  have held : d.downMeasured.chain.holds = d.chain.holds := by
    unfold Dev.downMeasured
    split <;> rfl
  have port : (d.downMeasured.chain.ports.modify 0 ChainPort.good).get 1 = d.downMeasured.chain.ports.get 1 :=
    Tab.get_modify_ne _ _ (by decide)
  rw [Chain.onward, Chain.onward, ← delay, ← held, ← port]
  rfl

theorem Dev.sendUp_besideUp : d.sendUp.chain.besideUp = d.chain.besideUp :=
  (congrArg Chain.besideUp d.sendBreath_besideBreath :)

theorem Dev.sendUp_time : d.sendUp.time = d.time := by
  have kept : d.sendUp.Keeps (· ∈ [.chain]) d := Dev.sendUp_keeps (by decide) (.refl _)
  exact kept.frame .time (by decide)

theorem Dev.downSent_time (f : DownFrame) : (d.downSent f).time = { d.time with measureAt := d.now - downLen } := by
  rw [← d.downTold_time f]
  unfold Dev.downSent
  split
  · rfl
  · exact Dev.sendUp_time _

theorem Dev.downSent_besideUp (f : DownFrame) : (d.downSent f).chain.besideUp =
    ({ d.chain.told f d.now (d.now - downLen) with sentDown := some (d.chain.onward f) } : Chain).besideUp := by
  have sent : ((d.downTold f).sendOn f 1).chain.besideUp =
      ({ d.chain.told f d.now (d.now - downLen) with sentDown := some (d.chain.onward f) } : Chain).besideUp := by
    rw [Dev.sendOn_chain, Dev.downTold_onward, Dev.downTold_chain]
    exact congrArg (fun c : Chain =>
      ({ c.told f d.now (d.now - downLen) with sentDown := some (d.chain.onward f) } : Chain)) d.downMeasured_besideUp
  unfold Dev.downSent
  split
  · exact sent
  · exact (Dev.sendUp_besideUp _).trans sent

theorem Dev.downSent_port (f : DownFrame) :
    (d.downSent f).chain.ports.get 0 = (d.downMeasured.chain.ports.get 0).good := by
  have sent : ((d.downTold f).sendOn f 1).chain.ports.get 0 = (d.downMeasured.chain.ports.get 0).good := by
    rw [Dev.sendOn_chain, Dev.downTold_chain]
    exact Tab.get_modify_self ..
  unfold Dev.downSent
  split
  · exact sent
  · rwa [Dev.sendUp_ports]

/-- The port counts the frame, and is UP where it has heard one before, in a row. -/
theorem Dev.downMeasured_port (device : d.chain.head = false) :
    d.downMeasured.chain.ports.get 0 = d.chain.ports.get 0 ∨
      d.downMeasured.chain.ports.get 0 = (d.chain.ports.get 0).measure := by
  unfold Dev.downMeasured
  split
  · exact .inl rfl
  · refine .inr ((Tab.get_mapIdx ..).trans (if_pos ?_))
    simp [device]

/-! ### The address (16 R463 to R465) -/

/-- The chain without what a lost address loses. -/
def Chain.besideAddr (c : Chain) : Chain :=
  { c with addr := none, hopWrong := 0, stream := [], discarding := false, downSeq := none, downbeats := [], lastBar := none, replies := [] }

/-- The chain without its replies. -/
def Chain.besideReplies (c : Chain) : Chain := { c with replies := [] }

theorem Dev.loseAddr_besideReplies : d.loseAddr.chain.besideReplies =
    ({ d.chain with addr := none, hopWrong := 0, stream := [], discarding := false, downSeq := none, downbeats := [] } : Chain).besideReplies := by
  unfold Dev.loseAddr
  dsimp only
  split
  · exact Dev.dropPending_chain _
  · rfl

theorem Chain.besideAddr_keeps {c e : Chain} (same : c.besideAddr = e.besideAddr) : c.tells = e.tells ∧ c.ports = e.ports :=
  ⟨(congrArg Chain.tells same :), (congrArg Chain.ports same :)⟩

theorem Dev.follow_besideAddr (f : DownFrame) : (d.follow f).chain.besideAddr = d.chain.besideAddr := by
  have lost : d.loseAddr.chain.besideAddr = d.chain.besideAddr := (congrArg Chain.besideAddr d.loseAddr_besideReplies :)
  unfold Dev.follow
  split
  · exact lost
  · split
    · split <;> rfl
    · split
      · rfl
      · split
        · rfl
        · split
          · rfl
          · split
            · rfl
            · exact (congrArg Chain.besideAddr (Dev.event_chain ..)).trans lost

theorem Dev.follow_time (f : DownFrame) : (d.follow f).time = d.time := by
  have kept : (d.follow f).Keeps (· ∈ [.port, .log, .chain]) d := by
    apply Dev.follow_keeps <;> first | decide | exact .refl _
  exact kept.frame .time (by decide)

section
variable {d : Dev} {f : DownFrame}

/-- CLR_ENUM takes the address. -/
theorem Dev.follow_of_clear (clear : f.clrEnum = true) : (d.follow f).chain.addr = none := by
  rw [Dev.follow, if_pos clear]
  exact (congrArg Chain.addr d.loseAddr_besideReplies :)

/-- An enumeration gives the next address. -/
theorem Dev.follow_of_enumerate (keep : f.clrEnum = false) (numbers : f.enumerate = true) (free : d.chain.addr = none)
    (straight : d.chain.turned = false) : (d.follow f).chain.addr = if 62 ≤ f.hop then none else some (f.hop + 1) := by
  rw [Dev.follow, if_neg (by simp [keep]), if_pos numbers]
  by_cases full : 62 ≤ f.hop
  · rw [if_pos (by simp [full]), if_pos full, free]
  · rw [if_neg (by simp [free, full, straight]), if_neg full]
    rfl

variable (keep : f.clrEnum = false) (runs : f.enumerate = false) (straight : d.chain.turned = false)
include keep runs straight

/-- The right place of the chain. -/
theorem Dev.follow_of_place (place : d.chain.addr = some (f.hop + 1)) :
    d.follow f = d.setChain fun c => { c with hopWrong := 0 } := by
  simp [Dev.follow, keep, runs, place, straight]

/-- Up to three frames from a wrong place are counted. -/
theorem Dev.follow_of_wrong {a : Nat} (address : d.chain.addr = some a) (wrong : f.hop + 1 ≠ a) (few : d.chain.hopWrong < 3) :
    d.follow f = d.setChain fun c => { c with hopWrong := c.hopWrong + 1 } := by
  have more : d.chain.hopWrong + 1 < 4 := by omega
  simp [Dev.follow, keep, runs, address, straight, wrong, more]

/-- The fourth costs the address. -/
theorem Dev.follow_of_fourth {a : Nat} (address : d.chain.addr = some a) (wrong : f.hop + 1 ≠ a) (many : 3 ≤ d.chain.hopWrong) :
    (d.follow f).chain.addr = none := by
  have last : ¬ d.chain.hopWrong + 1 < 4 := by omega
  have lost : d.follow f = d.loseAddr.event 0x090A a [b8 f.hop] := by
    simp [Dev.follow, keep, runs, address, straight, wrong, last]
  rw [lost, Dev.event_chain]
  exact (congrArg Chain.addr d.loseAddr_besideReplies :)

end

/-! ### The chain TBC (16 R470) -/

/-- How far the frame's count is from the device's own. -/
def Dev.tbcError (f : DownFrame) : Int := f.ctbc + f.cumlat - (d.time.tbc - downLen)

/-- How far the count moves for an error. -/
def tbcStep (e : Int) : Int := if e.natAbs < 8 then 0 else if e.natAbs ≤ 64 then (if 0 < e then 8 else 0) else 8 * roundDiv e 8

/-- The chain without what steering moves. -/
def Chain.besideCount (c : Chain) : Chain := { c with offset := 0, holdOne := false }

theorem Chain.besideCount_keeps {c e : Chain} (same : c.besideCount = e.besideCount) : c.tells = e.tells ∧ c.ports = e.ports ∧
    c.addr = e.addr ∧ c.hopWrong = e.hopWrong ∧ c.discarding = e.discarding ∧ c.downSeq = e.downSeq ∧
    c.lastBar = e.lastBar ∧ c.barLost = e.barLost ∧ c.replies = e.replies ∧ c.head = e.head :=
  ⟨(congrArg Chain.tells same :), (congrArg Chain.ports same :), (congrArg Chain.addr same :),
    (congrArg Chain.hopWrong same :), (congrArg Chain.discarding same :), (congrArg Chain.downSeq same :),
    (congrArg Chain.lastBar same :), (congrArg Chain.barLost same :), (congrArg Chain.replies same :),
    (congrArg Chain.head same :)⟩

theorem Dev.shiftTimes_chain (k : Int) : (d.shiftTimes k).chain = d.chain := rfl

theorem Dev.steer_besideCount (f : DownFrame) : (d.steer f).chain.besideCount = d.chain.besideCount := by
  unfold Dev.steer
  dsimp only
  split
  · rfl
  · split
    · split <;> rfl
    · rw [Dev.event_chain]
      rfl

theorem Dev.steer_measureAt (f : DownFrame) : (d.steer f).time.measureAt = d.time.measureAt := by
  unfold Dev.steer
  dsimp only
  split
  · rfl
  · split
    · split <;> rfl
    · rw [Dev.event_time]
      rfl

/-- A device with an address takes one step: forward at once, back by holding one count. -/
theorem Dev.steer_step {d : Dev} {f : DownFrame} {a : Nat} (address : d.chain.addr = some a) :
    (d.steer f).time.tbc = d.time.tbc + tbcStep (d.tbcError f) ∧
      (d.steer f).chain.offset = d.chain.offset + tbcStep (d.tbcError f) ∧
      (d.steer f).chain.holdOne =
        (d.chain.holdOne || decide (8 ≤ (d.tbcError f).natAbs ∧ (d.tbcError f).natAbs ≤ 64 ∧ d.tbcError f < 0)) := by
  unfold Dev.steer
  extract_lets e move k
  have error : d.tbcError f = e := rfl
  rw [error, tbcStep]
  clear_value e
  by_cases small : e.natAbs < 8
  · have not_back : ¬ (8 ≤ e.natAbs ∧ e.natAbs ≤ 64 ∧ e < 0) := by omega
    rw [if_pos (by simp [small]), if_pos small, decide_eq_false not_back]
    simp
  · rw [if_neg (by simp [address, small]), if_neg small]
    by_cases near : e.natAbs ≤ 64
    · rw [if_pos near, if_pos near]
      by_cases late : 0 < e
      · have not_back : ¬ (8 ≤ e.natAbs ∧ e.natAbs ≤ 64 ∧ e < 0) := by omega
        rw [if_pos late, if_pos late, decide_eq_false not_back, Bool.or_false]
        exact ⟨rfl, rfl, rfl⟩
      · have back : 8 ≤ e.natAbs ∧ e.natAbs ≤ 64 ∧ e < 0 := by omega
        rw [if_neg late, if_neg late, decide_eq_true back, Bool.or_true, Int.add_zero, Int.add_zero]
        exact ⟨rfl, rfl, rfl⟩
    · have not_back : ¬ (8 ≤ e.natAbs ∧ e.natAbs ≤ 64 ∧ e < 0) := fun h => near h.2.1
      rw [if_neg near, if_neg near, decide_eq_false not_back, Bool.or_false, Dev.event_time, Dev.event_chain]
      exact ⟨rfl, rfl, rfl⟩

/-! ### The grants, the segment and the downbeat -/

theorem Dev.grantsTaken_besideTokens (f : DownFrame) : (d.grantsTaken f).besideTokens = d.besideTokens :=
  Dev.foldl_same (q := Dev.besideTokens) (fun e g _ => e.takeTokens_besideTokens g.domain g.count) d

theorem Dev.grantsTaken_beside (f : DownFrame) : (d.grantsTaken f).Keeps (· ∈ [.chain]) d :=
  Dev.Keeps.foldl (f := fun d (g : Grant) => d.takeTokens g.domain g.count) (.refl _)
    (fun _ h _ => Dev.takeTokens_keeps (by decide) h _ _) _

/-- The chain without its tokens, its stream and its downbeats. -/
def Chain.besideStream (c : Chain) : Chain :=
  { c with
    returns := .fill 15 0, hand := 0, handDomain := 0
    stream := [], discarding := false, downSeq := none, downbeats := [] }

theorem Chain.takeSegment_besideStream (c : Chain) (f : DownFrame) : (c.takeSegment f).besideStream = c.besideStream := by
  unfold Chain.takeSegment
  split <;> rfl

theorem Dev.beatDeclared_besideStream (f : DownFrame) (b : Nat) :
    (d.beatDeclared f b).chain.besideStream = d.chain.besideStream := by
  unfold Dev.beatDeclared
  split <;> rfl

theorem Dev.beatDeclared_time (f : DownFrame) (b : Nat) : (d.beatDeclared f b).time = d.time := by
  unfold Dev.beatDeclared
  split <;> rfl

/-- The device once a frame has been followed and its count steered. -/
def Dev.downSteered (f : DownFrame) : Dev := ((d.downSent f).follow f).steer f

theorem Dev.downTaken_besideStream (f : DownFrame) : (d.downTaken f).chain.besideStream = (d.downSteered f).chain.besideStream :=
  (Chain.takeSegment_besideStream ..).trans (congrArg Chain.besideStream ((d.downSteered f).grantsTaken_besideTokens f) :)

theorem Dev.downTaken_time (f : DownFrame) : (d.downTaken f).time = (d.downSteered f).time :=
  ((d.downSteered f).grantsTaken_beside f).frame .time (by decide)

/-! ### A valid frame without a BAR marker -/

theorem Dev.downSteered_tells (f : DownFrame) : (d.downSteered f).chain.tells =
    (some d.now, false, false, f.mseq, f.cumlat, f.hold, some (d.chain.onward f)) := by
  obtain ⟨steered, -⟩ := Chain.besideCount_keeps (((d.downSent f).follow f).steer_besideCount f)
  obtain ⟨followed, -⟩ := Chain.besideAddr_keeps ((d.downSent f).follow_besideAddr f)
  obtain ⟨sent, -⟩ := Chain.besideUp_keeps (d.downSent_besideUp f)
  exact (steered.trans followed).trans sent

theorem Dev.downSteered_ports (f : DownFrame) : (d.downSteered f).chain.ports = (d.downSent f).chain.ports := by
  obtain ⟨-, steered, -⟩ := Chain.besideCount_keeps (((d.downSent f).follow f).steer_besideCount f)
  obtain ⟨-, followed⟩ := Chain.besideAddr_keeps ((d.downSent f).follow_besideAddr f)
  exact steered.trans followed

theorem Dev.downSteered_measureAt (f : DownFrame) : (d.downSteered f).time.measureAt = d.now - downLen := by
  rw [Dev.downSteered, Dev.steer_measureAt, Dev.follow_time, Dev.downSent_time]

theorem Dev.downSteered_addr (f : DownFrame) :
    (d.downSteered f).chain.addr = ((d.downSent f).follow f).chain.addr ∧
      (d.downSteered f).chain.hopWrong = ((d.downSent f).follow f).chain.hopWrong := by
  obtain ⟨-, -, addr, hopWrong, -⟩ := Chain.besideCount_keeps (((d.downSent f).follow f).steer_besideCount f)
  exact ⟨addr, hopWrong⟩

/-- What the frame finds of the place in the chain and of its count. -/
theorem Dev.downSent_place (f : DownFrame) : (d.downSent f).chain.addr = d.chain.addr ∧
    (d.downSent f).chain.turned = d.chain.turned ∧ (d.downSent f).chain.hopWrong = d.chain.hopWrong ∧
    (d.downSent f).chain.offset = d.chain.offset ∧ (d.downSent f).chain.holdOne = d.chain.holdOne := by
  obtain ⟨-, addr, turned, hopWrong, offset, holdOne, -⟩ := Chain.besideUp_keeps (d.downSent_besideUp f)
  exact ⟨addr, turned, hopWrong, offset, holdOne⟩

/-- What a frame leaves behind a device's stream. -/
theorem Dev.receiveDown_besideStream {d : Dev} {f : DownFrame} (no_bar : f.bar = false) :
    (d.receiveDown 0 f).chain.besideStream = (d.downSteered f).chain.besideStream := by
  rw [Dev.receiveDown_eq, if_neg (by simp [no_bar]), Dev.beatDeclared_besideStream, Dev.downTaken_besideStream]

theorem Dev.receiveDown_time {d : Dev} {f : DownFrame} (no_bar : f.bar = false) :
    (d.receiveDown 0 f).time = (d.downSteered f).time := by
  rw [Dev.receiveDown_eq, if_neg (by simp [no_bar]), Dev.beatDeclared_time, Dev.downTaken_time]

/-- The receiving port after a valid frame. -/
theorem Dev.downSent_heard {d : Dev} (device : d.chain.head = false) (f : DownFrame) :
    ((d.downSent f).chain.ports.get 0).frames = ((d.chain.ports.get 0).frames + 1) % 2 ^ 32 ∧
      ((d.chain.ports.get 0).goodRun ≠ 0 → (d.chain.ports.get 0).heard = true →
        ((d.downSent f).chain.ports.get 0).up = true) ∧
      ((d.chain.ports.get 0).up = false → (d.chain.ports.get 0).goodRun = 0 →
        ((d.downSent f).chain.ports.get 0).up = false) := by
  rw [Dev.downSent_port]
  obtain same | measured := Dev.downMeasured_port d device
  · rw [same]
    refine ⟨rfl, fun run _ => ?_, fun down first => ?_⟩
    · simp [ChainPort.good, Nat.one_le_iff_ne_zero.2 run]
    · simp [ChainPort.good, down, first]
  · rw [measured]
    refine ⟨congrArg (fun n => (n + 1) % 2 ^ 32) (ChainPort.measure_frames _), fun run heard => ?_, fun down first => ?_⟩
    · simp [ChainPort.good, ChainPort.measure_goodRun_of_heard heard, Nat.one_le_iff_ne_zero.2 run]
    · simp [ChainPort.good, ChainPort.measure_up, ChainPort.measure_goodRun_of_zero first, down]

section
variable {d : Dev} {f : DownFrame}

theorem Chain.besideStream_keeps {c e : Chain} (same : c.besideStream = e.besideStream) : c.tells = e.tells ∧ c.ports = e.ports ∧
    c.addr = e.addr ∧ c.hopWrong = e.hopWrong ∧ c.offset = e.offset ∧ c.holdOne = e.holdOne :=
  ⟨(congrArg Chain.tells same :), (congrArg Chain.ports same :), (congrArg Chain.addr same :),
    (congrArg Chain.hopWrong same :), (congrArg Chain.offset same :), (congrArg Chain.holdOne same :)⟩

theorem Dev.tbcError_congr {e : Dev} (count : e.time.tbc = d.time.tbc) : e.tbcError f = d.tbcError f := by
  rw [Dev.tbcError, count, Dev.tbcError]

/-- At the right place a device takes one step of its chain TBC. -/
theorem Dev.steer_of_place (keep : f.clrEnum = false) (runs : f.enumerate = false) (straight : d.chain.turned = false)
    (place : d.chain.addr = some (f.hop + 1)) : ((d.follow f).steer f).chain.addr = d.chain.addr ∧
      ((d.follow f).steer f).chain.hopWrong = 0 ∧
      ((d.follow f).steer f).time.tbc = d.time.tbc + tbcStep (d.tbcError f) ∧
      ((d.follow f).steer f).chain.offset = d.chain.offset + tbcStep (d.tbcError f) ∧
      ((d.follow f).steer f).chain.holdOne =
        (d.chain.holdOne || decide (8 ≤ (d.tbcError f).natAbs ∧ (d.tbcError f).natAbs ≤ 64 ∧ d.tbcError f < 0)) := by
  rw [Dev.follow_of_place keep runs straight place]
  obtain ⟨-, -, addr, hopWrong, -⟩ := Chain.besideCount_keeps ((d.setChain fun c => { c with hopWrong := 0 }).steer_besideCount f)
  obtain ⟨tbc, offset, holdOne⟩ :=
    Dev.steer_step (d := d.setChain fun c => { c with hopWrong := 0 }) (f := f) (a := f.hop + 1) place
  exact ⟨addr, hopWrong, tbc, offset, holdOne⟩

/-- The step goes by what the chain TBC was at the boundary. -/
theorem Dev.downSteered_step (keep : f.clrEnum = false) (runs : f.enumerate = false) (straight : d.chain.turned = false)
    (place : d.chain.addr = some (f.hop + 1)) : (d.downSteered f).chain.addr = d.chain.addr ∧
      (d.downSteered f).chain.hopWrong = 0 ∧ (d.downSteered f).time.tbc = d.time.tbc + tbcStep (d.tbcError f) ∧
      (d.downSteered f).chain.offset = d.chain.offset + tbcStep (d.tbcError f) ∧
      (d.downSteered f).chain.holdOne =
        (d.chain.holdOne || decide (8 ≤ (d.tbcError f).natAbs ∧ (d.tbcError f).natAbs ≤ 64 ∧ d.tbcError f < 0)) := by
  obtain ⟨addr, turned, -, offset, holdOne⟩ := d.downSent_place f
  have count : (d.downSent f).time.tbc = d.time.tbc := by rw [d.downSent_time f]
  rw [Dev.downSteered, ← addr, ← offset, ← holdOne, ← count, ← Dev.tbcError_congr count]
  exact Dev.steer_of_place keep runs (turned.trans straight) (addr.trans place)

/-! ### What a valid frame leaves -/

section
variable (no_bar : f.bar = false)
include no_bar

theorem Dev.receiveDown_tells : (d.receiveDown 0 f).chain.tells =
    (some d.now, false, false, f.mseq, f.cumlat, f.hold, some (d.chain.onward f)) := by
  obtain ⟨tells, -⟩ := Chain.besideStream_keeps (Dev.receiveDown_besideStream (d := d) no_bar)
  exact tells.trans (d.downSteered_tells f)

theorem Dev.receiveDown_measureAt : (d.receiveDown 0 f).time.measureAt = d.now - downLen := by
  rw [Dev.receiveDown_time no_bar, Dev.downSteered_measureAt]

theorem Dev.receiveDown_port : (d.receiveDown 0 f).chain.ports.get 0 = (d.downSent f).chain.ports.get 0 := by
  obtain ⟨-, ports, -⟩ := Chain.besideStream_keeps (Dev.receiveDown_besideStream (d := d) no_bar)
  rw [ports, Dev.downSteered_ports]

/-- The address is what the frame makes of it. -/
theorem Dev.receiveDown_addr : (d.receiveDown 0 f).chain.addr = ((d.downSent f).follow f).chain.addr ∧
    (d.receiveDown 0 f).chain.hopWrong = ((d.downSent f).follow f).chain.hopWrong := by
  obtain ⟨-, -, addr, hopWrong, -⟩ := Chain.besideStream_keeps (Dev.receiveDown_besideStream (d := d) no_bar)
  obtain ⟨addr', hopWrong'⟩ := d.downSteered_addr f
  exact ⟨addr.trans addr', hopWrong.trans hopWrong'⟩

theorem Dev.receiveDown_step (keep : f.clrEnum = false) (runs : f.enumerate = false) (straight : d.chain.turned = false)
    (place : d.chain.addr = some (f.hop + 1)) : (d.receiveDown 0 f).chain.addr = d.chain.addr ∧
      (d.receiveDown 0 f).chain.hopWrong = 0 ∧ (d.receiveDown 0 f).time.tbc = d.time.tbc + tbcStep (d.tbcError f) ∧
      (d.receiveDown 0 f).chain.offset = d.chain.offset + tbcStep (d.tbcError f) ∧
      (d.receiveDown 0 f).chain.holdOne =
        (d.chain.holdOne || decide (8 ≤ (d.tbcError f).natAbs ∧ (d.tbcError f).natAbs ≤ 64 ∧ d.tbcError f < 0)) := by
  obtain ⟨-, -, addr, hopWrong, offset, holdOne⟩ := Chain.besideStream_keeps (Dev.receiveDown_besideStream (d := d) no_bar)
  rw [addr, hopWrong, offset, holdOne, Dev.receiveDown_time no_bar]
  exact Dev.downSteered_step keep runs straight place

/-- A frame from a wrong place is counted up to the third, and the fourth costs the address. -/
theorem Dev.receiveDown_wrong {a : Nat} (keep : f.clrEnum = false) (runs : f.enumerate = false)
    (straight : d.chain.turned = false) (address : d.chain.addr = some a) (other : f.hop + 1 ≠ a) :
    (d.chain.hopWrong < 3 → (d.receiveDown 0 f).chain.addr = some a ∧
        (d.receiveDown 0 f).chain.hopWrong = d.chain.hopWrong + 1) ∧
      (3 ≤ d.chain.hopWrong → (d.receiveDown 0 f).chain.addr = none) := by
  obtain ⟨addr, hopWrong⟩ := Dev.receiveDown_addr (d := d) no_bar
  obtain ⟨place, turned, wrong, -, -⟩ := d.downSent_place f
  rw [addr, hopWrong, ← wrong]
  refine ⟨fun few => ?_, fun many => ?_⟩
  · rw [Dev.follow_of_wrong keep runs (turned.trans straight) (place.trans address) other few]
    exact ⟨place.trans address, rfl⟩
  · exact Dev.follow_of_fourth keep runs (turned.trans straight) (place.trans address) other many

end

/-! ### A frame with a wrong CRC -/

theorem Dev.receiveBad_chain (d : Dev) (f : DownFrame) : (d.receiveBad 0 f).chain = { d.chain with
    ports := d.chain.ports.modify 0 (ChainPort.bad · d.now), sentDown := some (d.chain.onward f)
    discarding := d.chain.addr.isSome } := by
  rw [← d.badFrame_onward f]
  rfl

theorem Dev.receiveBad_time (d : Dev) (f : DownFrame) : (d.receiveBad 0 f).time = d.time := rfl

/-! ### A BAR marker behind a gap (16 R473) -/

/-- A segment behind a gap. -/
theorem Chain.takeSegment_of_gap {c : Chain} (bar : f.bar = true)
    (gap : c.discarding = true ∨ ∃ n, c.downSeq = some n ∧ f.sseq ≠ n + 1) :
    c.takeSegment f = { c with downSeq := some f.sseq, discarding := true, stream := c.stream ++ f.seg } := by
  unfold Chain.takeSegment
  rw [if_neg (by simp [bar])]
  obtain discards | ⟨n, expected, other⟩ := gap
  · simp [discards]
  · have gap : (f.sseq != n + 1) = true := bne_iff_ne.2 other
    simp only [expected, gap, Bool.or_true]

/-- A chain commit edge behind a gap costs its bar. -/
theorem Dev.chainCommit_of_gap {a : Nat} (address : d.chain.addr = some a) (discards : d.chain.discarding = true) (barNo : Nat) :
    (d.chainCommit barNo).chain = { d.chain with
      stream := [], discarding := false, lastBar := some barNo, barLost := stick 16 (d.chain.barLost + 1)
      replies := d.chain.replies ++ [d.barLostReply barNo] } := by
  unfold Dev.chainCommit
  dsimp only
  split
  · next none_ => exact absurd (none_.symm.trans address) nofun
  · rw [if_pos discards]
    rfl

/-- What the stream of a device stands at, and who it is. -/
def Chain.streamAt (c : Chain) : Bool × Option Nat × Bool × Option Byte × Option Nat × Nat × List Reply :=
  (c.head, c.addr, c.discarding, c.downSeq, c.lastBar, c.barLost, c.replies)

theorem Dev.downSteered_streamAt (keep : f.clrEnum = false) (runs : f.enumerate = false) (straight : d.chain.turned = false)
    (place : d.chain.addr = some (f.hop + 1)) : (d.downSteered f).chain.streamAt = d.chain.streamAt := by
  obtain ⟨-, addr, turned, -, -, -, discarding, downSeq, lastBar, barLost, replies, head⟩ :=
    Chain.besideUp_keeps (d.downSent_besideUp f)
  have followed := Dev.follow_of_place keep runs (turned.trans straight) (addr.trans place)
  obtain ⟨-, -, addr', -, discarding', downSeq', lastBar', barLost', replies', head'⟩ :=
    Chain.besideCount_keeps (((d.downSent f).follow f).steer_besideCount f)
  rw [followed] at addr' discarding' downSeq' lastBar' barLost' replies' head'
  have steered : d.downSteered f = ((d.downSent f).setChain fun c => { c with hopWrong := 0 }).steer f :=
    congrArg (Dev.steer · f) followed
  rw [steered, Chain.streamAt, head', addr', discarding', downSeq', lastBar', barLost', replies', Chain.streamAt]
  simp only [Dev.setChain_chain, head, addr, discarding, downSeq, lastBar, barLost, replies]
  rfl

theorem Chain.besideTokens_streamAt {c e : Chain} (same : c.besideTokens = e.besideTokens) : c.streamAt = e.streamAt :=
  (congrArg Chain.streamAt same :)

/-- The chain's replies, and the stream, after a frame behind a gap. -/
def Chain.streamNow (c : Chain) : Bool × List Byte × Option Byte × Option Nat × Nat × List Reply :=
  (c.discarding, c.stream, c.downSeq, c.lastBar, c.barLost, c.replies)

theorem Dev.beatDeclared_besideBeats (f : DownFrame) (b : Nat) :
    ({ (d.beatDeclared f b).chain with downbeats := [] } : Chain) = { d.chain with downbeats := [] } := by
  unfold Dev.beatDeclared
  split <;> rfl

/-- The stream at a BAR marker behind a gap: it starts afresh, and the bars lost are counted and answered. -/
def Chain.barLostAt (c : Chain) (f : DownFrame) (a : Nat) : Bool × List Byte × Option Byte × Option Nat × Nat × List Reply :=
  (false, [], some f.sseq, some f.barNo.toNat, stick 16 (c.barLost + 1), c.replies ++ [{
    src := a, opc := 0, tag := 0, status := stBadCrc, settle := none
    data := leBytes 2 ((c.lastBar.map fun n => (n + 1) % 65536).getD f.barNo.toNat) ++ leBytes 2 f.barNo.toNat }])

theorem Dev.barLostReply_eq (a barNo : Nat) (device : d.chain.head = false) (address : d.chain.addr = some a) :
    d.barLostReply barNo = {
      src := a, opc := 0, tag := 0, status := stBadCrc, settle := none
      data := leBytes 2 ((d.chain.lastBar.map fun n => (n + 1) % 65536).getD barNo) ++ leBytes 2 barNo } := by
  have own : d.ownAddr = a := by simp [Dev.ownAddr, device, address]
  rw [Dev.barLostReply, own]
  cases d.chain.lastBar <;> rfl

/-- A frame behind a gap, for any device that has taken the rest of it. -/
theorem Dev.chainCommit_of_takeSegment {e : Dev} {a b : Nat} (same : e.chain.streamAt = d.chain.streamAt) (bar : f.bar = true)
    (device : d.chain.head = false) (address : d.chain.addr = some a)
    (gap : d.chain.discarding = true ∨ ∃ n, d.chain.downSeq = some n ∧ f.sseq ≠ n + 1) :
    (((e.setChain fun c => c.takeSegment f).chainCommit f.barNo.toNat).beatDeclared f b).chain.streamNow =
      d.chain.barLostAt f a := by
  obtain ⟨head, addr, discarding, downSeq, lastBar, barLost, replies⟩ :
      e.chain.head = d.chain.head ∧ e.chain.addr = d.chain.addr ∧ e.chain.discarding = d.chain.discarding ∧
        e.chain.downSeq = d.chain.downSeq ∧ e.chain.lastBar = d.chain.lastBar ∧ e.chain.barLost = d.chain.barLost ∧
        e.chain.replies = d.chain.replies := by
    simpa [Chain.streamAt] using same
  have taken : (e.setChain fun c => c.takeSegment f).chain =
      { e.chain with downSeq := some f.sseq, discarding := true, stream := e.chain.stream ++ f.seg } :=
    Chain.takeSegment_of_gap bar (by rwa [discarding, downSeq])
  have reply := (e.setChain fun c => c.takeSegment f).barLostReply_eq a f.barNo.toNat
    (by rw [taken]; exact head.trans device) (by rw [taken]; exact addr.trans address)
  have committed := Dev.chainCommit_of_gap (d := e.setChain fun c => c.takeSegment f) (a := a)
    (by rw [taken]; exact addr.trans address) (by rw [taken]) f.barNo.toNat
  rw [reply, taken] at committed
  have declared := ((e.setChain fun c => c.takeSegment f).chainCommit f.barNo.toNat).beatDeclared_besideBeats f b
  rw [committed] at declared
  refine (congrArg Chain.streamNow declared :).trans ?_
  rw [Chain.barLostAt, ← lastBar, ← barLost, ← replies]
  rfl

/-- A BAR marker behind a gap costs the bars lost. -/
theorem Dev.receiveDown_gap {a : Nat} (bar : f.bar = true) (keep : f.clrEnum = false) (runs : f.enumerate = false)
    (device : d.chain.head = false) (straight : d.chain.turned = false) (address : d.chain.addr = some a)
    (place : f.hop + 1 = a) (gap : d.chain.discarding = true ∨ ∃ n, d.chain.downSeq = some n ∧ f.sseq ≠ n + 1) :
    (d.receiveDown 0 f).chain.streamNow = d.chain.barLostAt f a := by
  have at_ : d.chain.addr = some (f.hop + 1) := address.trans (congrArg some place.symm)
  have taken := (Chain.besideTokens_streamAt ((d.downSteered f).grantsTaken_besideTokens f)).trans
    (Dev.downSteered_streamAt keep runs straight at_)
  rw [Dev.receiveDown_eq, if_pos bar]
  exact Dev.chainCommit_of_takeSegment taken bar device address gap

end

end

/-! ### The event -/

section
variable {d : Dev} {f : DownFrame} (straight : d.chain.turned = false) (serves : (d.chain.ports.get 0).outOfService = false)
include straight serves

theorem Dev.downAtDevice_valid (good : f.ok = true) : d.downAtDevice 0 f = d.receiveDown 0 f := by
  simp [Dev.downAtDevice, Chain.rx, straight, serves, good]

theorem Dev.downAtDevice_bad (bad : f.ok = false) : d.downAtDevice 0 f = d.receiveBad 0 f := by
  simp [Dev.downAtDevice, Chain.rx, straight, serves, bad]

theorem Dev.downNoCode_device (device : d.chain.head = false) : d.downNoCode 0 f = d.sendOn { f with ok := false } 1 := by
  simp [Dev.downNoCode, Chain.rx, straight, serves, device]

end

section
variable {s : State} {dt : Nat} {l : List Byte} (live : (s.turn dt).dev.chainLive = true)
  (device : (s.turn dt).dev.chain.head = false)
include live device

theorem execDownstreamFrame_unexpected (elsewhere : (s.turn dt).dev.expects 0 ((s.turn dt).dev.now - downLen) = false)
    (codes : Bool) : exec (.downstreamFrame dt .a { codes := codes, chars := l }) s = .next (s.after dt fun d => d) := by
  refine congrArg Host.Outcome.next (State.after_congr (if_pos ?_))
  simp [live, device, portNo, elsewhere]

variable (expected : (s.turn dt).dev.expects 0 ((s.turn dt).dev.now - downLen) = true)
include expected

theorem execDownstreamFrame_coded :
    exec (.downstreamFrame dt .a { codes := true, chars := l }) s = .next (s.after dt fun d => d.downAtDevice 0 (downOf l)) := by
  refine congrArg Host.Outcome.next (State.after_congr ?_)
  refine (if_neg (by simp [live, device, portNo, expected])).trans ((if_neg (by simp)).trans ?_)
  exact if_neg (by simp [device])

variable (straight : (s.turn dt).dev.chain.turned = false) (serves : ((s.turn dt).dev.chain.ports.get 0).outOfService = false)
include straight serves

theorem execDownstreamFrame_noCode :
    exec (.downstreamFrame dt .a { codes := false, chars := l }) s =
      .next (s.after dt fun d => d.sendOn { downOf l with ok := false } 1) := by
  refine congrArg Host.Outcome.next (State.after_congr ?_)
  refine (if_neg (by simp [live, device, portNo, expected])).trans ((if_pos rfl).trans ?_)
  exact Dev.downNoCode_device straight serves device

theorem execDownstreamFrame_valid (good : (downOf l).ok = true) :
    exec (.downstreamFrame dt .a { codes := true, chars := l }) s = .next (s.after dt fun d => d.receiveDown 0 (downOf l)) := by
  rw [execDownstreamFrame_coded live device expected]
  exact congrArg Host.Outcome.next (State.after_congr (Dev.downAtDevice_valid straight serves good))

theorem execDownstreamFrame_bad (bad : (downOf l).ok = false) :
    exec (.downstreamFrame dt .a { codes := true, chars := l }) s = .next (s.after dt fun d => d.receiveBad 0 (downOf l)) := by
  rw [execDownstreamFrame_coded live device expected]
  exact congrArg Host.Outcome.next (State.after_congr (Dev.downAtDevice_bad straight serves bad))

end

end Sys2Proof.Machine

namespace Sys2Proof
open Machine

/-- Settles O54: each frame by the device that it leaves. -/
theorem downstreamFramesAct : Obligations.DownstreamFramesAct := by
  intro s dt l d c f e step live device straight serves
  refine ⟨fun elsewhere codes => ⟨_, execDownstreamFrame_unexpected live device elsewhere codes, State.after_same rfl⟩,
    fun expected => ⟨_, execDownstreamFrame_noCode live device expected straight serves, ?noCode⟩,
    fun expected good no_bar => ⟨_, execDownstreamFrame_valid live device expected straight serves good, ?valid⟩,
    fun expected bad => ⟨_, execDownstreamFrame_bad live device expected straight serves bad, ?bad⟩,
    fun a expected good bar keep runs address place gap =>
      ⟨_, execDownstreamFrame_valid live device expected straight serves good, ?gap⟩⟩
  case noCode =>
    rw [State.after_time, State.after_chain]
    exact ⟨rfl, rfl⟩
  case valid =>
    obtain ⟨addr, -⟩ := Dev.receiveDown_addr (d := d) no_bar
    obtain ⟨place, turned, -⟩ := d.downSent_place f
    obtain ⟨frames, comesUp, staysDown⟩ := Dev.downSent_heard device f
    have told := Dev.receiveDown_tells (d := d) no_bar
    simp only [Chain.tells, Prod.mk.injEq] at told
    obtain ⟨lastFrame, linkTimeout, broken, mseq, latency, holdRx, sentDown⟩ := told
    rw [State.after_time, State.after_chain, Dev.receiveDown_port no_bar]
    exact ⟨lastFrame, linkTimeout, broken, mseq, latency, holdRx, Dev.receiveDown_measureAt no_bar, frames, comesUp, staysDown,
      sentDown, fun clear => addr.trans (Dev.follow_of_clear clear),
      fun keep numbers free => addr.trans (Dev.follow_of_enumerate keep numbers (place.trans free) (turned.trans straight)),
      fun keep runs at_ => Dev.receiveDown_step no_bar keep runs straight at_,
      fun a keep runs at_ other => Dev.receiveDown_wrong no_bar keep runs straight at_ other⟩
  case bad =>
    rw [State.after_time, State.after_chain, Dev.receiveBad_chain]
    exact ⟨rfl, rfl, congrArg ChainPort.crcErr (Tab.get_modify_self ..), rfl, d.receiveBad_time f, rfl⟩
  case gap =>
    have lost := Dev.receiveDown_gap bar keep runs device straight address place gap
    simp only [Chain.streamNow, Chain.barLostAt, Prod.mk.injEq] at lost
    obtain ⟨discarding, stream, downSeq, lastBar, barLost, replies⟩ := lost
    rw [State.after_chain]
    exact ⟨barLost, stream, discarding, lastBar, downSeq, replies⟩

end Sys2Proof

/-! SUPPORT. O55: an upstream frame at the precentor (03 R82, 16 R460, R467, R474, R475, R485). -/

namespace Sys2Proof.Machine
open Sys2Proof

/-! ### What the frame shows of the chain -/

/-- What an upstream frame on port B shows a precentor. -/
def Chain.shownUp (c : Chain) (f : UpFrame) (now : Nat) : Chain :=
  ({ c with merged := c.merged ++ f.breath, reachB := f.reach, reachBAt := now } : Chain).hear now fun a => a ≤ f.reach && a ≤ c.count

/-- A port that a valid frame has reached, with the delay of its link. -/
def ChainPort.delayed (x : ChainPort) (linkTicks : Nat) : ChainPort := { x.good with delay := towards x.delay linkTicks }

section
variable (d : Dev)

/-- A valid upstream frame has been heard at a precentor. -/
def Dev.upHeard (f : UpFrame) (linkTicks : Nat) : Dev :=
  ((d.goodFrame 1).modPort 1 fun x => { x with delay := towards x.delay linkTicks }).setChain fun c => c.shownUp f d.now

variable {d} in
theorem Dev.receiveUp_eq (head : d.chain.head = true) (f : UpFrame) (linkTicks : Nat) :
    d.receiveUp 1 f linkTicks = (d.upHeard f linkTicks).followBreak.takeUpSegment f := by
  unfold Dev.receiveUp
  extract_lets d1 d2
  have head1 : d1.chain.head = true := (congrArg Chain.head (d.goodFrame_chain 1)).trans head
  have shown : d2 = d.upHeard f linkTicks := by
    refine congrArg (fun c : Chain => ({ d1 with chain := c } : Dev)) ?_
    dsimp only
    rw [if_neg (by simp [head1]), if_pos rfl]
    rfl
  rw [shown]
  exact congrArg (Dev.takeUpSegment · f) (if_pos head1)

theorem Dev.upHeard_chain (f : UpFrame) (linkTicks : Nat) : (d.upHeard f linkTicks).chain =
    ({ d.chain with ports := (d.chain.ports.modify 1 ChainPort.good).modify 1 fun x =>
        { x with delay := towards x.delay linkTicks } } : Chain).shownUp f d.now := by
  unfold Dev.upHeard Dev.modPort
  rw [Dev.setChain_chain, Dev.setChain_chain, Dev.goodFrame_chain]

theorem Dev.upHeard_port (f : UpFrame) (linkTicks : Nat) :
    (d.upHeard f linkTicks).chain.ports.get 1 = (d.chain.ports.get 1).delayed linkTicks := by
  rw [Dev.upHeard_chain]
  refine (Tab.get_modify_self ..).trans ?_
  rw [Tab.get_modify_self]
  rfl

theorem Dev.goodFrame_port (k : Fin 2) : (d.goodFrame k).portCore.1 = d.portCore.1 := by
  unfold Dev.goodFrame
  dsimp only
  split
  · exact congrArg Prod.fst (Dev.event_portCore ..)
  · rfl

theorem Dev.followBreak_port : d.followBreak.portCore.1 = d.portCore.1 := by
  unfold Dev.followBreak
  dsimp only
  split
  · exact congrArg Prod.fst (Dev.event_portCore ..)
  · split
    · exact congrArg Prod.fst (Dev.event_portCore ..)
    · rfl

/-- The port on which an upstream frame has been heard, before its segment is taken. -/
def Dev.upFollowed (f : UpFrame) (linkTicks : Nat) : Dev := (d.upHeard f linkTicks).followBreak

theorem Dev.upFollowed_port (f : UpFrame) (linkTicks : Nat) : (d.upFollowed f linkTicks).portCore.1 = d.portCore.1 :=
  (Dev.followBreak_port _).trans (d.goodFrame_port 1)

theorem Dev.portCore_keeps {e d : Dev} (same : e.portCore.1 = d.portCore.1) : e.port.replies = d.port.replies ∧
    e.port.prevAccepted = d.port.prevAccepted ∧ e.port.barNo = d.port.barNo :=
  ⟨(congrArg HostPort.replies same :), (congrArg HostPort.prevAccepted same :), (congrArg HostPort.barNo same :)⟩

/-- What the chain shows of the devices beyond. -/
def Chain.shows (c : Chain) : Nat × Nat × Tab ChainPort 2 × List BreathEntry × List Nat :=
  (c.reachB, c.reachBAt, c.ports, c.merged, c.unreachable)

/-- The streams of replies that come to the precentor. -/
def Chain.heardOf (c : Chain) : Bool × List Byte × Option Byte × List Outstanding × Nat :=
  (c.head, c.partReply, c.upSeq, c.outstanding, c.upDropped)

theorem Dev.upFollowed_shows (f : UpFrame) (linkTicks : Nat) :
    (d.upFollowed f linkTicks).chain.shows = (d.upHeard f linkTicks).chain.shows := by
  rw [Dev.upFollowed, Dev.followBreak_chain]
  rfl

theorem Dev.upFollowed_heardOf (f : UpFrame) (linkTicks : Nat) :
    (d.upFollowed f linkTicks).chain.heardOf = d.chain.heardOf := by
  rw [Dev.upFollowed, Dev.followBreak_chain, Dev.upHeard_chain]
  rfl

/-! ### The segment (16 R474, R475) -/

theorem Dev.arrive_shows (b : List Byte) : (d.arrive b).chain.shows = d.chain.shows := by
  unfold Dev.arrive
  extract_lets r lost first covered mine counts keep d1 more port d2
  have counted : d2.chain = d1.chain := by
    unfold d2
    split <;> rfl
  show d2.chain.shows = d.chain.shows
  rw [counted]
  rfl

theorem Chain.dropPart_shows (c : Chain) : c.dropPart.shows = c.shows := by
  unfold Chain.dropPart
  split <;> rfl

theorem Chain.dropPart_head (c : Chain) : c.dropPart.head = c.head := by
  unfold Chain.dropPart
  split <;> rfl

/-- A gap in the segment numbers. -/
def Chain.upGap (c : Chain) (f : UpFrame) : Bool := match c.upSeq with
  | some n => f.sseq != n + 1
  | none => false

/-- The number of a segment is noted, and a gap costs the reply under way. -/
def Chain.noteSegment (c : Chain) (f : UpFrame) : Chain := { (if c.upGap f then c.dropPart else c) with upSeq := some f.sseq }

/-- The replies that a segment completes, and what is left. -/
def Chain.completes (c : Chain) (f : UpFrame) : List (List Byte × Bool) × List Byte :=
  takeReplies ((c.noteSegment f).partReply ++ f.seg).length ((c.noteSegment f).partReply ++ f.seg)

/-- The precentor keeps what is left of a segment, and counts what fails. -/
def Chain.keepLeft (c : Chain) (f : UpFrame) : Chain :=
  { c.noteSegment f with
    partReply := (c.completes f).2
    upDropped := stick 16 ((c.noteSegment f).upDropped + ((c.completes f).1.filter fun r => !r.2).length) }

theorem Chain.noteSegment_shows (c : Chain) (f : UpFrame) : (c.noteSegment f).shows = c.shows := by
  unfold Chain.noteSegment
  split
  · exact c.dropPart_shows
  · rfl

theorem Chain.noteSegment_head (c : Chain) (f : UpFrame) : (c.noteSegment f).head = c.head := by
  unfold Chain.noteSegment
  split
  · exact c.dropPart_head
  · rfl

section
variable {d : Dev} (head : d.chain.head = true)
include head

/-- A segment at the precentor: whole replies enter the host's queue. -/
theorem Dev.takeUpSegment_eq {f : UpFrame} (bytes : f.seg ≠ []) :
    d.takeUpSegment f =
      (((d.chain.completes f).1.filter fun r => r.2).map (·.1)).foldl Dev.arrive (d.setChain fun c => c.keepLeft f) := by
  have noted : (d.setChain fun c => c.noteSegment f).chain.head = true := (d.chain.noteSegment_head f).trans head
  unfold Dev.takeUpSegment
  rw [if_neg (by simpa using bytes)]
  exact if_pos noted

/-- The segment of an upstream frame moves the replies that come, and nothing that the chain shows. -/
theorem Dev.takeUpSegment_shows (f : UpFrame) : (d.takeUpSegment f).chain.shows = d.chain.shows := by
  by_cases bytes : f.seg = []
  · rw [Dev.takeUpSegment, if_pos (by simp [bytes])]
  · rw [Dev.takeUpSegment_eq head bytes]
    refine (Dev.foldl_same (q := fun e => e.chain.shows) (fun e b _ => e.arrive_shows b) _).trans ?_
    exact d.chain.noteSegment_shows f

end

/-! ### One reply in a segment of its own -/

/-- A reply that has come over the chain. -/
def Reply.heard (r : Reply) : Reply := { r with settle := none }

section
variable {c : Chain} {f : UpFrame} {r : Reply} (whole : f.seg = r.bytes) (fits : r.data.length < 65536)
  (fresh : c.partReply = []) (next_ : ∀ n, c.upSeq = some n → f.sseq = n + 1)

theorem Reply.bytes_ne_nil (r : Reply) : r.bytes ≠ [] :=
  List.ne_nil_of_length_pos (by rw [r.bytes_length]; omega)

include next_ in
theorem Chain.noteSegment_next : c.noteSegment f = { c with upSeq := some f.sseq } := by
  have no_gap : c.upGap f = false := by
    unfold Chain.upGap
    split
    · next n at_ => simp [next_ n at_]
    · rfl
  rw [Chain.noteSegment, no_gap]
  rfl

include whole fits fresh next_ in
theorem Chain.completes_one : c.completes f = ([(r.bytes, true)], []) := by
  have taken := takeReplies_bytes (rs := [r]) (rest := []) (n := r.bytes.length) (by simpa using fits) rfl
    (by rw [r.bytes_length]; simp; omega)
  rw [Chain.completes, Chain.noteSegment_next next_]
  simp only [fresh, whole, List.nil_append]
  simpa using taken

/-- The reply that its bytes give. -/
def replyOf (b : List Byte) : Reply :=
  { src := byteAt b 0, opc := b.getD 1 0, tag := b.getD 2 0, status := b.getD 3 0, data := (b.drop 6).take (field b 4 2), settle := none }

theorem replyOf_bytes (src_fits : r.src < 128) (fits : r.data.length < 65536) : replyOf r.bytes = r.heard := by
  obtain ⟨-, each⟩ := repliesReadBack [r] [] 2 (by simpa using ⟨src_fits, fits⟩) (by simp) rfl
  obtain ⟨-, src, opc, tag, status, length, data, -⟩ := each r (by simp)
  rw [replyOf, src, opc, tag, status, length, data]
  rfl

theorem Dev.arrive_replies (d : Dev) (b : List Byte) : (d.arrive b).port.replies = (d.port.push (replyOf b)).replies := by
  unfold Dev.arrive
  extract_lets x lost first covered mine counts keep d1 more port d2
  have counted : d2.port.replies = d.port.replies := by
    unfold d2
    split <;> rfl
  exact HostPort.push_congr counted x

theorem Dev.arrive_stream (d : Dev) (b : List Byte) : (d.arrive b).chain.partReply = d.chain.partReply ∧
    (d.arrive b).chain.upSeq = d.chain.upSeq := by
  unfold Dev.arrive
  extract_lets x lost first covered mine counts keep d1 more port d2
  have counted : d2.chain = d1.chain := by
    unfold d2
    split <;> rfl
  show d2.chain.partReply = _ ∧ d2.chain.upSeq = _
  rw [counted]
  exact ⟨rfl, rfl⟩

/-- A reply that accepts the one packet outstanding, of the previous bar, counts. -/
theorem Dev.arrive_counts {d : Dev} {b : List Byte} {o : Outstanding} (only : d.chain.outstanding = [o])
    (src : o.addr = (replyOf b).src) (opc : o.opc = (replyOf b).opc) (tag : o.tag = (replyOf b).tag)
    (uncounted : o.counted = false) (previous : (o.barNo + 1) % 65536 = d.port.barNo)
    (accepts : (replyOf b).status.toNat ≤ 1) : (d.arrive b).port.prevAccepted = stick 8 (d.port.prevAccepted + 1) := by
  have kept : (replyOf b).status ≠ stBadCrc := fun bad => by
    rw [bad] at accepts
    exact absurd accepts (by decide)
  unfold Dev.arrive
  extract_lets x lost first covered mine counts keep d1 more port d2
  have found : mine o = true := by simp only [mine, src, opc, tag, decide_true, Bool.and_self, x, replyOf]
  have counting : counts o = true := by simp only [counts, uncounted, previous]; simpa [x, replyOf] using accepts
  have whole : lost = false := by
    have other : decide (x.status = stBadCrc) = false := decide_eq_false kept
    simp only [lost, other, Bool.and_false, Bool.false_and]
  have both : more = true := by simp [more, whole, only, found, counting]
  have taken : d2.port.prevAccepted = stick 8 (d.port.prevAccepted + 1) := by
    unfold d2
    rw [if_pos both]
    rfl
  exact (HostPort.push_prevAccepted ..).trans taken

end

/-! ### What a valid frame leaves -/

section
variable {d : Dev} (head : d.chain.head = true) (f : UpFrame) (linkTicks : Nat)
include head

theorem Dev.upFollowed_head : (d.upFollowed f linkTicks).chain.head = true :=
  (congrArg (fun p : Bool × List Byte × Option Byte × List Outstanding × Nat => p.1) (d.upFollowed_heardOf f linkTicks)).trans head

theorem Dev.receiveUp_shows :
    (d.receiveUp 1 f linkTicks).chain.shows = (d.upHeard f linkTicks).chain.shows := by
  rw [Dev.receiveUp_eq head]
  exact (Dev.takeUpSegment_shows (Dev.upFollowed_head head f linkTicks) f).trans (d.upFollowed_shows f linkTicks)

variable {f} {r : Reply} (whole : f.seg = r.bytes) (src_fits : r.src < 128) (fits : r.data.length < 65536)
  (fresh : d.chain.partReply = []) (next_ : ∀ n, d.chain.upSeq = some n → f.sseq = n + 1)
include whole fits fresh next_

/-- A segment that is one reply is that reply's arrival. -/
theorem Dev.receiveUp_one : ∃ e : Dev, d.receiveUp 1 f linkTicks = e.arrive r.bytes ∧ e.chain.partReply = [] ∧
    e.chain.upSeq = some f.sseq ∧ e.chain.outstanding = d.chain.outstanding ∧ e.portCore.1 = d.portCore.1 := by
  have streams := d.upFollowed_heardOf f linkTicks
  simp only [Chain.heardOf, Prod.mk.injEq] at streams
  obtain ⟨head_same, part, seq, outstanding, -⟩ := streams
  have bytes : f.seg ≠ [] := whole ▸ r.bytes_ne_nil
  have completed : (d.upFollowed f linkTicks).chain.completes f = ([(r.bytes, true)], []) :=
    Chain.completes_one whole fits (part.trans fresh) (by rwa [seq])
  refine ⟨(d.upFollowed f linkTicks).setChain fun c => c.keepLeft f, ?_, congrArg Prod.snd completed, rfl, ?_,
    d.upFollowed_port f linkTicks⟩
  · rw [Dev.receiveUp_eq head]
    refine (Dev.takeUpSegment_eq (head_same.trans head) bytes).trans ?_
    rw [completed]
    rfl
  · refine Eq.trans ?_ outstanding
    rw [Dev.setChain_chain, Chain.keepLeft, Chain.noteSegment_next (by rwa [seq])]

end

end

/-! ### The event -/

section
variable {s : State} {dt : Nat} {start : Fin 8} {l : List Byte}

theorem execUpstreamFrame_noCode :
    exec (.upstreamFrame dt .b { codes := false, chars := l } start) s = .next (s.after dt fun d => d) := by
  refine congrArg Host.Outcome.next (State.after_congr (if_pos ?_))
  simp

theorem execUpstreamFrame_elsewhere
    (elsewhere : within2 ((s.turn dt).dev.now - upLen + start.val)
      ((s.turn dt).dev.upDue + 2 * ((s.turn dt).dev.chain.ports.get 1).delay) = false) :
    exec (.upstreamFrame dt .b { codes := true, chars := l } start) s = .next (s.after dt fun d => d) := by
  refine congrArg Host.Outcome.next (State.after_congr (if_pos ?_))
  simp [portNo, elsewhere]

variable (live : (s.turn dt).dev.chainLive = true) (head : (s.turn dt).dev.chain.head = true)
  (serves : ((s.turn dt).dev.chain.ports.get 1).outOfService = false)
  (expected : within2 ((s.turn dt).dev.now - upLen + start.val)
    ((s.turn dt).dev.upDue + 2 * ((s.turn dt).dev.chain.ports.get 1).delay) = true)
include live head serves expected

theorem execUpstreamFrame_valid (good : (upOf l).ok = true) :
    exec (.upstreamFrame dt .b { codes := true, chars := l } start) s =
      .next (s.after dt fun d => d.receiveUp 1 (upOf l) (d.linkDelay (d.now - upLen + start.val))) := by
  refine congrArg Host.Outcome.next (State.after_congr ?_)
  exact (if_neg (by simp [live, head, portNo, serves, expected])).trans (if_pos good)

theorem execUpstreamFrame_bad (bad : (upOf l).ok = false) :
    exec (.upstreamFrame dt .b { codes := true, chars := l } start) s =
      .next (s.after dt fun d => (d.badFrame 1).setChain Chain.dropPart) := by
  refine congrArg Host.Outcome.next (State.after_congr ?_)
  exact (if_neg (by simp [live, head, portNo, serves, expected])).trans (if_neg (by simp [bad]))

end

/-- A frame that is lost costs the reply under way, and leaves the ports. -/
theorem Chain.dropPart_effect (c : Chain) : c.dropPart.partReply = [] ∧
    c.dropPart.upDropped = (if c.partReply = [] then c.upDropped else stick 16 (c.upDropped + 1)) ∧ c.dropPart.ports = c.ports := by
  unfold Chain.dropPart
  by_cases none_ : c.partReply = []
  · simp [none_]
  · simp [none_]

end Sys2Proof.Machine

namespace Sys2Proof
open Machine

/-- Settles O55: each frame by the device that it leaves. -/
theorem upstreamFramesAct : Obligations.UpstreamFramesAct := by
  intro s dt start l d c f at_ due rx live head serves
  refine ⟨fun elsewhere => ⟨_, execUpstreamFrame_elsewhere elsewhere, State.after_same rfl⟩,
    ⟨_, execUpstreamFrame_noCode, State.after_same rfl⟩, fun expected =>
    ⟨fun good => ⟨_, execUpstreamFrame_valid live head serves expected good, ?shown⟩,
      fun r good whole src_fits fits fresh next_ => ⟨_, execUpstreamFrame_valid live head serves expected good, ?reply⟩,
      fun bad => ⟨_, execUpstreamFrame_bad live head serves expected bad, ?bad⟩⟩⟩
  case shown =>
    have shows := Dev.receiveUp_shows head f (d.linkDelay at_)
    have port := d.upHeard_port f (d.linkDelay at_)
    have chain := d.upHeard_chain f (d.linkDelay at_)
    simp only [Chain.shows, Prod.mk.injEq] at shows
    obtain ⟨reach, heardAt, ports, merged, unreachable⟩ := shows
    rw [State.after_chain, reach, heardAt, ports, merged, unreachable, port, chain]
    refine ⟨rfl, rfl, rfl, rfl, rfl, fun a mem covered => ?_⟩
    have uncovered : (!(decide (a ≤ f.reach) && decide (a ≤ c.count))) = true := (List.mem_filter.1 mem).2
    simp [covered] at uncovered
  case reply =>
    obtain ⟨e, received, part, seq, outstanding, port⟩ := Dev.receiveUp_one head (d.linkDelay at_) whole fits fresh next_
    obtain ⟨part', seq'⟩ := e.arrive_stream r.bytes
    obtain ⟨replies, counted, barNo⟩ := Dev.portCore_keeps port
    have replied := replyOf_bytes src_fits fits
    rw [State.after_chain, State.after_replies, State.after_prevAccepted, received]
    refine ⟨part'.trans part, seq'.trans seq, ?_, fun o only src opc tag uncounted previous accepts => ?_⟩
    · rw [Dev.arrive_replies, replied]
      exact HostPort.push_congr replies _
    · rw [← counted]
      refine Dev.arrive_counts (outstanding.trans only) ?_ ?_ ?_ uncounted (previous.trans barNo.symm) ?_
      · rwa [replied]
      · rwa [replied]
      · rwa [replied]
      · rwa [replied]
  case bad =>
    obtain ⟨part, dropped, ports⟩ := (d.badFrame 1).chain.dropPart_effect
    rw [State.after_chain]
    refine ⟨part, dropped, ?_⟩
    exact (congrArg (fun t : Tab ChainPort 2 => (t.get 1).crcErr) ports).trans (congrArg ChainPort.crcErr (Tab.get_modify_self ..))

end Sys2Proof

/-! SUPPORT. O29, O30: the opcodes of the Score join the mailbox (15 R442, R445 to R448), and those of the chain act (16 R464,
R466, R482). -/

namespace Sys2Proof.Machine
open Sys2Proof

/-! ### The mailbox (01 R20) -/

/-- The message of a packet of the Score. -/
def Dev.mailOf (d snap : Dev) (p : Packet) : MailMsg :=
  { packet := p, stamp := d.time.tbc, newest := (snap.link.publication.map fun x => x.nextAseq - 1).getD 0, life := d.score.life
    pending := d.score.pending, viaChain := false, bar := if p.dest.toNat / 128 = 1 then none else some d.port.barNo }

/-- A device with a message more in its mailbox. -/
def Dev.mailed (d : Dev) (m : MailMsg) : Dev := { d with link := { d.link with mailbox := d.link.mailbox ++ [m] } }

theorem Dev.mail_joins {d : Dev} (heard : d.ctl.scoreSilent = false) (room : d.link.mailbox.length < 16) (snap : Dev) (p : Packet) :
    d.mail snap p false = (d.mailed (d.mailOf snap p), none) := by
  unfold Dev.mail
  exact if_neg (by simp [heard, Nat.not_le.2 room])

/-- A packet of the Score joins the mailbox, and gets no reply. -/
theorem State.packet_mails {s : State} {opc tag : Byte} {a : List Byte} (h : s.accepts opc a)
    (heard : s.dev.ctl.scoreSilent = false) (room : s.dev.link.mailbox.length < 16)
    (mails : Dev.perform s.snap s.dev.opened { dest := 0, opc := opc, tag := tag, params := a } false =
      s.dev.opened.mail s.snap { dest := 0, opc := opc, tag := tag, params := a } false) :
    ∃ t, s.packet opc 0 tag a = .next t ∧ t.dev.port.replies = s.dev.port.replies ∧
      ∃ m : MailMsg, t.dev.link.mailbox = s.dev.link.mailbox ++ [m] ∧
        m.packet = { dest := 0, opc := opc, tag := tag, params := a } ∧ m.stamp = s.dev.time.tbc := by
  have joins := mails.trans (Dev.mail_joins (d := s.dev.opened) (by simpa using heard) (by simpa using room) s.snap _)
  have runs := s.packet_own (tag := tag) h
  rw [joins] at runs
  refine ⟨_, runs, ?_, s.dev.opened.mailOf s.snap { dest := 0, opc := opc, tag := tag, params := a }, ?_, rfl, ?_⟩
  · rw [State.after_replies]
    exact s.dev.opened_replies
  · rw [State.after_link]
    exact congrArg (fun l => l.mailbox ++ [_]) s.dev.opened_link
  · exact congrArg TimeBase.tbc s.dev.opened_time

/-! ### The opcodes of the chain -/

/-- A bar without bytes adds none to what waits. -/
theorem Dev.opened_backlog (d : Dev) : d.opened.chain.backlog = d.chain.backlog := by
  unfold Dev.opened Dev.openBar
  dsimp only
  split
  · simp [Dev.modBar, Dev.setChain, Chain.backlog]
  · unfold Dev.modBar Dev.setChain
    dsimp only
    split
    · next b rest last =>
      have forward : d.chain.forward = rest.reverse ++ [b] := by simpa using congrArg List.reverse last
      simp [Chain.backlog, forward]
    · rfl

/-- Opening a bar moves of the chain only what waits to go down. -/
theorem Dev.opened_besideForward (d : Dev) : ({ d.opened.chain with forward := [] } : Chain) = { d.chain with forward := [] } := by
  obtain ⟨fs, opened⟩ := d.opened_eq
  rw [opened]

theorem Dev.opened_place (d : Dev) : d.opened.chain.head = d.chain.head ∧ d.opened.chain.enumerated = d.chain.enumerated ∧
    d.opened.chain.enumLeft = d.chain.enumLeft ∧ d.opened.chain.ring = d.chain.ring ∧ d.opened.chain.count = d.chain.count := by
  obtain ⟨fs, opened⟩ := d.opened_eq
  rw [opened]
  exact ⟨rfl, rfl, rfl, rfl, rfl⟩

/-- A packet of the chain acts on the chain. -/
theorem State.packet_chain {s : State} {opc tag st : Byte} {a data : List Byte} {d : Dev} (h : s.accepts opc a)
    (action : Dev.perform s.snap s.dev.opened { dest := 0, opc := opc, tag := tag, params := a } false = (d, some ⟨st, data, none⟩))
    (queue : d.port.replies = s.dev.port.replies) :
    ∃ t, s.packet opc 0 tag a = .next t ∧ t.dev.chain = d.chain ∧ Answered s t opc tag st data := by
  obtain ⟨po, pa, runs⟩ := s.packet_effect (tag := tag) h
  obtain ⟨u, runs', answered⟩ := State.packet_answered h action queue
  rw [action] at runs
  cases runs.symm.trans runs'
  exact ⟨_, runs, State.after_chain .., answered⟩

section
variable {d : Dev} (head : d.chain.head = true)
include head

theorem opEnumerate_begins {p : List Byte} (count : byteAt p 0 ≤ 62 ∨ byteAt p 0 = 255) (idle : d.port.pendingDb = [])
    (sent : d.chain.backlog = 0) (new : d.chain.enumLeft = none) :
    opEnumerate p d = (d.setChain fun c => { c with enumLeft := some 32, enumEndAt := d.now + 33 * 30720, expect_ := byteAt p 0 },
      ok [b8 d.chain.count]) := by
  have known : ¬ (62 < byteAt p 0 ∧ byteAt p 0 ≠ 255) := by omega
  simp [opEnumerate, head, known, idle, sent, new]

theorem opChainRing_open : opChainRing [0] d =
    ((d.setChain fun c => { c with ring := .open_, sendA := false }).followBreak, ok [d.chain.ring.code]) := by
  unfold opChainRing
  exact if_neg (by simp [head])

variable (enumerated : d.chain.enumerated = true)
include enumerated

theorem opChainRing_close (opened : d.chain.ring = .open_) : opChainRing [1] d =
    (d.setChain fun c => { c with
      ring := .closing, closingAt := d.now, returned := 0, backHop := none
      ports := c.ports.modify 0 fun x => { x with missRun := 0, heard := false, goodRun := 0 } }, ok [d.chain.ring.code]) := by
  unfold opChainRing
  refine (if_neg (by simp [head])).trans ((if_neg (by simp [enumerated])).trans ?_)
  refine congrArg (fun c : Chain => (({ d with chain := c } : Dev), ok [d.chain.ring.code])) ?_
  exact if_pos opened

theorem opChainRing_restore (split_ : d.chain.ring = .split) : opChainRing [2] d =
    ((d.setChain fun c => { c with
      ring := .closed, sendA := false, reachA := none
      ports := c.ports.modify 0 fun x => { x with missRun := 0, heard := false, goodRun := 0 } }).followBreak,
      ok [d.chain.ring.code]) := by
  unfold opChainRing
  refine (if_neg (by simp [head])).trans ((if_neg (by simp [enumerated])).trans ?_)
  refine congrArg (fun c : Chain => (({ d with chain := c } : Dev).followBreak, ok [d.chain.ring.code])) ?_
  exact if_pos split_

end

end Sys2Proof.Machine

namespace Sys2Proof
open Machine

/-- Settles O29: each opcode of the Score by its packet, which is the message. -/
theorem scoreOpcodesEnterTheMailbox : Obligations.ScoreOpcodesEnterTheMailbox := by
  intro s tag a _ heard room
  exact ⟨fun h => State.packet_mails h heard room rfl, fun h => State.packet_mails h heard room rfl,
    fun h => State.packet_mails h heard room rfl, fun h => State.packet_mails h heard room rfl,
    fun h => State.packet_mails h heard room rfl, fun h => State.packet_mails h heard room rfl⟩

/-- Settles O30: each opcode of the chain by what it makes of the chain. -/
theorem chainOpcodesAct : Obligations.ChainOpcodesAct := by
  intro s tag _ head
  obtain ⟨head', enumerated', enumLeft', ring', count'⟩ := s.dev.opened_place
  refine ⟨fun x h known idle sent new => ?enumerate, fun h => ?opened, fun h enumerated opened => ?closed,
    fun h enumerated split_ => ?restored⟩
  case enumerate =>
    have begins := opEnumerate_begins (d := s.dev.opened) (p := [x, 0]) (head'.trans head)
      (known.imp id fun all => by rw [all]; rfl) (by rw [Dev.opened_port]; exact idle)
      (s.dev.opened_backlog.trans sent) (enumLeft'.trans new)
    obtain ⟨t, runs, chain, answered⟩ := State.packet_chain (tag := tag) h (congrArg acts begins) s.dev.opened_replies
    refine ⟨t, runs, congrArg Chain.enumLeft chain, congrArg Chain.expect_ chain, ?_⟩
    rwa [count'] at answered
  case opened =>
    have opens := opChainRing_open (d := s.dev.opened) (head'.trans head)
    obtain ⟨t, runs, chain, -⟩ := State.packet_chain (tag := tag) h (congrArg acts opens)
      ((Dev.followBreak_replies _).trans s.dev.opened_replies)
    rw [Dev.followBreak_chain] at chain
    exact ⟨t, runs, congrArg Chain.ring chain, congrArg Chain.sendA chain⟩
  case closed =>
    have closes := opChainRing_close (d := s.dev.opened) (head'.trans head) (enumerated'.trans enumerated) (ring'.trans opened)
    obtain ⟨t, runs, chain, -⟩ := State.packet_chain (tag := tag) h (congrArg acts closes) s.dev.opened_replies
    exact ⟨t, runs, congrArg Chain.ring chain⟩
  case restored =>
    have restores := opChainRing_restore (d := s.dev.opened) (head'.trans head) (enumerated'.trans enumerated)
      (ring'.trans split_)
    obtain ⟨t, runs, chain, -⟩ := State.packet_chain (tag := tag) h (congrArg acts restores)
      ((Dev.followBreak_replies _).trans s.dev.opened_replies)
    rw [Dev.followBreak_chain] at chain
    exact ⟨t, runs, congrArg Chain.ring chain⟩

end Sys2Proof

/-! SUPPORT. O24: what BANK_CUT, PARK and RESUME do (05 R156 to R158, 08 R241). -/

namespace Sys2Proof.Machine
open Sys2Proof

/-! ### What a check that a cut ends does to the banks: nothing -/

section
variable (d : Dev)

/-- A check that ends on a bank already cut leaves the banks. -/
theorem Dev.finishReport_banks {r : RunningCheck} (cut_ : (d.banks.get (bankOf r.voice)).cut = true) (f0 f1 partial_ : BitVec 6)
    (voHigh : Bool) (dur : Nat) : (d.finishReport r f0 f1 partial_ voHigh dur).banks = d.banks := by
  unfold Dev.finishReport
  extract_lets v incomplete stuck toff confirmed d0
  have h0 : d0.Keeps (· ≠ .banks) d := by
    unfold d0
    split
    · exact Dev.modVoice_keeps (by decide) (.refl _) _ _
    · exact .refl _
  have h1 : (d0.judge v r f0 f1 incomplete dur).1.Keeps (· ≠ .banks) d := by
    apply Dev.judge_keeps <;> first | decide | exact h0
  split
  next d1 w judged =>
  rw [judged] at h1
  extract_lets d1' d2 again d3 cut d5 d4
  have h1' : d1'.Keeps (· ≠ .banks) d := by
    unfold d1'
    split
    · exact Dev.modVoice_keeps (by decide) h1 _ _
    · exact h1
  have h2 : d2.Keeps (· ≠ .banks) d := by
    unfold d2
    split
    · apply Dev.barVoice_keeps <;> first | decide | exact h1'
    · exact h1'
  have h3 : d3.Keeps (· ≠ .banks) d := by
    unfold d3
    split
    · exact Dev.modVoice_keeps (by decide) h2 _ _
    · exact h2
  have banks3 : d3.banks = d.banks := h3.frame .banks (by decide)
  have stays : cut = false := by simp [cut, banks3, v, cut_]
  have banks4 : d4.banks = d.banks := by
    unfold d4
    rw [stays]
    split
    · exact (Dev.event_banks ..).trans banks3
    · exact banks3
  have released : (d4.releaseHeld v).Keeps (· ∈ [.voices]) d4 := Dev.releaseHeld_keeps (by decide) (.refl _) _
  exact Eq.trans (released.frame .banks (by decide)) banks4

theorem Dev.finishCheck_banks {r : RunningCheck} (cut_ : (d.banks.get (bankOf r.voice)).cut = true) (f : Tab (BitVec 6) 4)
    (partial_ : BitVec 6) (voHigh : Bool) (dur : Nat) : (d.finishCheck r f partial_ voHigh dur).banks = d.banks := by
  unfold Dev.finishCheck
  extract_lets p d0 d1
  have dropped : d0.Keeps (· ≠ .banks) d := Dev.dropAsks_keeps (by decide) (.refl _)
  have banks0 : d0.banks = d.banks := dropped.frame .banks (by decide)
  have banks1 : d1.banks = d0.banks := by
    unfold d1
    split
    · have kept : (d0.finishTrip r f (p &&& r.tests != 0) dur).Keeps (· ≠ .banks) d0 := by
        apply Dev.finishTrip_keeps <;> first | decide | exact .refl _
      exact kept.frame .banks (by decide)
    · exact d0.finishReport_banks (by rwa [banks0]) _ _ _ _ _
  exact banks1.trans banks0

theorem Dev.cutShortBank_banks {b : BankId} (cut_ : (d.banks.get b).cut = true) : (d.cutShortBank b).banks = d.banks := by
  unfold Dev.cutShortBank Dev.cutShort
  split
  · next r _ =>
    split
    · next own => exact d.finishCheck_banks (own ▸ cut_) _ _ _ _
    · rfl
  · rfl

/-! ### BANK_CUT (05 R156) -/

/-- A staggered turn-off moves of the banks no cut. -/
theorem Dev.staggerEnd_cut (k : StaggerKind) (c : BankId) : ((d.staggerEnd k).banks.get c).cut = (d.banks.get c).cut := by
  unfold Dev.staggerEnd
  split
  · next b =>
    split
    · rw [Dev.modBank_banks]
      rcases Decidable.em (c = b) with rfl | other
      · rw [Tab.get_modify_self]
      · rw [Tab.get_modify_ne _ _ other]
    · rfl
  · rfl

theorem Dev.stagger_cut (b : BankId) (vs : List VoiceId) (c : BankId) :
    ((d.stagger (.cut b) vs).banks.get c).cut = (d.banks.get c).cut := by
  unfold Dev.stagger Dev.staggerStep
  split
  · exact d.staggerEnd_cut _ c
  · next v rest _ =>
    have dropped := d.forVoices_dropVoice_banks (d.unitOf v) .forced
    dsimp only
    split
    · rw [Dev.staggerEnd_cut, dropped]
    · exact congrArg (fun t : Tab Bank 4 => (t.get c).cut) dropped

theorem Dev.cutBank_cut (b c : BankId) : ((d.cutBank b).banks.get c).cut = ((d.banks.get c).cut || decide (c = b)) := by
  unfold Dev.cutBank
  split
  · next already =>
    rcases Decidable.em (c = b) with rfl | other
    · simp [already]
    · simp [other]
  · extract_lets d1
    have kept : d1.Keeps (· ≠ .banks) (d.modBank b fun x => { x with cut := true }) :=
      Dev.endSearches_keeps (by decide) (Dev.withdrawBank_keeps (by decide) (by decide) (.refl _) _) _
    have banks : d1.banks = (d.modBank b fun x => { x with cut := true }).banks := kept.frame .banks (by decide)
    rw [Dev.stagger_cut, banks, Dev.modBank_banks]
    rcases Decidable.em (c = b) with rfl | other
    · simp
    · simp [Tab.get_modify_ne _ _ other, other]

/-- One bank of a BANK_CUT. -/
def Dev.cutStep (sel cut : Nat) (d : Dev) (b : BankId) : Dev :=
  if !sel.testBit b.val then d
  else if cut.testBit b.val then (if (d.banks.get b).cut then d else (d.cutBank b).cutShortBank b)
  else d.restoreBank b

theorem opBankCut_of_selected {p : List Byte} (some_ : byteAt p 0 / 16 ≠ 0) :
    (opBankCut p d).1 = (idx 4).foldl (Dev.cutStep (byteAt p 0 / 16) (byteAt p 0 % 16)) d :=
  congrArg Prod.fst (if_neg some_)

/-- A bank that is selected with its cut bit set is cut. -/
theorem Dev.cutStep_cut (sel : Nat) (b c : BankId) :
    ((Dev.cutStep sel sel d b).banks.get c).cut = ((d.banks.get c).cut || (decide (c = b) && sel.testBit c.val)) := by
  unfold Dev.cutStep
  by_cases named : sel.testBit b.val = true
  · rw [if_neg (by simp [named]), if_pos named]
    split
    · next already =>
      rcases Decidable.em (c = b) with rfl | other
      · simp [already]
      · simp [other]
    · have cut_ : ((d.cutBank b).banks.get b).cut = true := by simp [Dev.cutBank_cut]
      rw [Dev.cutShortBank_banks _ cut_, Dev.cutBank_cut]
      rcases Decidable.em (c = b) with rfl | other
      · simp [named]
      · simp [other]
  · rw [if_pos (by simp [named])]
    rcases Decidable.em (c = b) with rfl | other
    · simp [named]
    · simp [other]

theorem Dev.foldl_cutStep_cut (sel : Nat) (l : List BankId) (c : BankId) :
    ((l.foldl (Dev.cutStep sel sel) d).banks.get c).cut = ((d.banks.get c).cut || (decide (c ∈ l) && sel.testBit c.val)) := by
  induction l generalizing d with
  | nil => simp
  | cons b l ih =>
    rw [List.foldl_cons, ih, Dev.cutStep_cut]
    rcases Decidable.em (c = b) with rfl | other
    · cases (d.banks.get c).cut <;> simp
    · simp [other]

/-- A bank that is selected with its cut bit clear is restored. -/
theorem Dev.cutStep_restores (sel : Nat) (b c : BankId) :
    ((Dev.cutStep sel 0 d b).banks.get c).cut = ((d.banks.get c).cut && !(decide (c = b) && sel.testBit c.val)) ∧
      ((Dev.cutStep sel 0 d b).banks.get c).conducting =
        ((d.banks.get c).conducting || (decide (c = b) && sel.testBit c.val)) := by
  unfold Dev.cutStep
  by_cases named : sel.testBit b.val = true
  · rw [if_neg (by simp [named]), if_neg (by simp), Dev.restoreBank, Dev.modBank_banks]
    rcases Decidable.em (c = b) with rfl | other
    · simp [named]
    · simp [other, Tab.get_modify_ne _ _ other]
  · rw [if_pos (by simp [named])]
    rcases Decidable.em (c = b) with rfl | other
    · simp [named]
    · simp [other]

theorem Dev.foldl_cutStep_restores (sel : Nat) (l : List BankId) (c : BankId) :
    ((l.foldl (Dev.cutStep sel 0) d).banks.get c).cut = ((d.banks.get c).cut && !(decide (c ∈ l) && sel.testBit c.val)) ∧
      ((l.foldl (Dev.cutStep sel 0) d).banks.get c).conducting =
        ((d.banks.get c).conducting || (decide (c ∈ l) && sel.testBit c.val)) := by
  induction l generalizing d with
  | nil => simp
  | cons b l ih =>
    obtain ⟨cut_, conducting⟩ := ih (d := Dev.cutStep sel 0 d b)
    obtain ⟨cut', conducting'⟩ := d.cutStep_restores sel b c
    rw [List.foldl_cons, cut_, conducting, cut', conducting']
    rcases Decidable.em (c = b) with rfl | other
    · cases sel.testBit c.val <;> simp
    · simp [other]

end

/-- The byte of a cut and that of a restoration. -/
theorem bankBytes (m : BitVec 4) : byteAt [bankByte m <<< 4 ||| bankByte m] 0 / 16 = m.toNat ∧
    byteAt [bankByte m <<< 4 ||| bankByte m] 0 % 16 = m.toNat ∧ byteAt [bankByte m <<< 4] 0 / 16 = m.toNat ∧
    byteAt [bankByte m <<< 4] 0 % 16 = 0 := by
  revert m
  decide

theorem toNat_ne_zero_of_ne {m : BitVec 4} (some_ : m ≠ 0) : m.toNat ≠ 0 := fun none_ => some_ (BitVec.eq_of_toNat_eq none_)

/-! ### PARK (05 R157) -/

/-- PARK starts a power-down of its own. -/
def Dev.parks (d : Dev) : Dev := (d.setCtl fun c => { c with parkFromAcappella := d.ctl.mode = .acappella }).pdStart 1

theorem opPark_starts {d : Dev} (running : d.pdRunning = false) (unparked : d.ctl.mode ≠ .parked) : (opPark d).1 = d.parks := by
  unfold opPark Dev.parks
  rw [if_neg (by simp [running, unparked])]

theorem Dev.enterParked_watchdog (d : Dev) (cause : Nat) : (d.enterParked cause).port.watchdog = none := by
  unfold Dev.enterParked
  extract_lets d1
  have kept : d1.Keeps (· ≠ .port) (d.toMode .parked cause).stopWatchdog := by
    refine Dev.commandOff_keeps (by decide) (Dev.endRetries_keeps (by decide) (Dev.withdrawAll_keeps (by decide) (by decide)
      (Dev.cancelCues_keeps (by decide) (.refl _))))
  have port : d1.port = (d.toMode .parked cause).stopWatchdog.port := kept.frame .port (by decide)
  clear_value d1
  exact (congrArg HostPort.watchdog port).trans rfl

theorem Dev.enterParked_ctl (d : Dev) (cause : Nat) : (d.enterParked cause).ctl = { d.ctl with mode := .parked } := by
  unfold Dev.enterParked
  extract_lets d1
  have kept : d1.Keeps (· ≠ .ctl) (d.toMode .parked cause) := by
    refine Dev.commandOff_keeps (by decide) (Dev.endRetries_keeps (by decide) (Dev.withdrawAll_keeps (by decide) (by decide)
      (Dev.cancelCues_keeps (by decide) (Dev.stopWatchdog_keeps (by decide) (.refl _)))))
  have ctl : d1.ctl = (d.toMode .parked cause).ctl := kept.frame .ctl (by decide)
  clear_value d1
  exact Eq.trans ctl (Dev.event_ctl ..)

/-- The modes from which PARK parks. -/
def Mode.runs (m : Mode) : Prop := m = .acappella ∨ m = .conducted ∨ m = .fallback

theorem Dev.pdMode_of_runs {d : Dev} (runs : d.ctl.mode.runs) (cause : Nat) :
    d.pdMode cause = d.enterParked (if cause = 0 then 4 else 0) := by
  obtain mode | mode | mode := runs <;> simp only [Dev.pdMode, mode]

theorem Dev.parks_ctl {d : Dev} (runs : d.ctl.mode.runs) : d.parks.ctl =
    { d.ctl with mode := .parked, parkFromAcappella := d.ctl.mode = .acappella } := by
  have failing := (d.setCtl fun c => { c with parkFromAcappella := d.ctl.mode = .acappella }).failing_ctl 1
  have parks := Dev.pdMode_of_runs (d := (d.setCtl fun c => { c with parkFromAcappella := d.ctl.mode = .acappella }).failing 1)
    (by rw [failing]; exact runs) 1
  rw [Dev.parks, Dev.pdStart_ctl, parks, Dev.enterParked_ctl, failing]
  simp [Dev.setCtl]

theorem Dev.nvDone_portCore (d : Dev) : d.nvDone.portCore = d.portCore := by
  unfold Dev.nvDone
  simp

theorem Dev.rawStop_portCore (d : Dev) (told : Bool) : (d.rawStop told).portCore = d.portCore := by
  unfold Dev.rawStop
  extract_lets o n d1
  split
  · rfl
  · have stopped : d1.portCore = d.portCore := by
      unfold d1
      split <;> rfl
    split
    · exact (Dev.nvDone_portCore _).trans stopped
    · exact stopped

theorem Dev.dropVoice_portCore (why : OffWhy) (d : Dev) (v : VoiceId) : (Dev.dropVoice why d v).portCore = d.portCore := by
  unfold Dev.dropVoice
  dsimp only
  split <;> simp

/-- The staggered turn-off of a sequence leaves the host port but for IRQN. -/
theorem Dev.stagger_portCore (d : Dev) (vs : List VoiceId) : (d.stagger .powerDown vs).portCore = d.portCore := by
  unfold Dev.stagger Dev.staggerStep
  split
  · rfl
  · dsimp only
    split
    · exact Dev.forVoices_portCore (fun _ _ => Dev.dropVoice_portCore ..) _ d
    · exact Dev.forVoices_portCore (fun _ _ => Dev.dropVoice_portCore ..) _ d

theorem Dev.watchdog_of_portCore {e d : Dev} (same : e.portCore = d.portCore) : e.port.watchdog = d.port.watchdog :=
  (congrArg (HostPort.watchdog ·.1) same :)

/-- A sequence leaves the watchdog as its entry to PARKED does. -/
theorem Dev.pdStart_watchdog (d : Dev) (cause : Nat) :
    (d.pdStart cause).port.watchdog = ((d.failing cause).pdMode cause).port.watchdog := by
  have cancelled : ((d.failing cause).pdMode cause).withdrawAll.cancelCues.Keeps (· ≠ .port) ((d.failing cause).pdMode cause) :=
    Dev.cancelCues_keeps (by decide) (Dev.withdrawAll_keeps (by decide) (by decide) (.refl _))
  have port : ((d.failing cause).pdMode cause).withdrawAll.cancelCues.port = ((d.failing cause).pdMode cause).port :=
    cancelled.frame .port (by decide)
  have stopped := Dev.watchdog_of_portCore
    (Dev.rawStop_portCore ((d.failing cause).pdMode cause).withdrawAll.cancelCues true)
  have staggered := Dev.watchdog_of_portCore
    ((d.pdOpens cause).stagger_portCore ((idx 48).filter fun v => ((d.pdOpens cause).voice v).driven))
  have opens : (d.pdOpens cause).port.watchdog = ((d.failing cause).pdMode cause).withdrawAll.cancelCues.port.watchdog := by
    rw [Dev.pdOpens, Dev.setPd_port]
    exact stopped
  rw [Dev.pdStart_eq, Dev.setCtl_port]
  exact staggered.trans (opens.trans (congrArg HostPort.watchdog port))

theorem Dev.parks_watchdog {d : Dev} (runs : d.ctl.mode.runs) : d.parks.port.watchdog = none := by
  have failing := (d.setCtl fun c => { c with parkFromAcappella := d.ctl.mode = .acappella }).failing_ctl 1
  have parks := Dev.pdMode_of_runs (d := (d.setCtl fun c => { c with parkFromAcappella := d.ctl.mode = .acappella }).failing 1)
    (by rw [failing]; exact runs) 1
  rw [Dev.parks, Dev.pdStart_watchdog, parks, Dev.enterParked_watchdog]

/-! ### RESUME (05 R158) -/

section
variable {d : Dev}

/-- Out of PARKED to A CAPPELLA every live word is at its power-up value. -/
def Dev.resumesAcappella (d : Dev) : Dev :=
  let d1 := d.unpark.toMode .acappella 0
  { d1 with par := { d1.par with live := [] } }.reconfigure d

/-- Out of PARKED to CONDUCTED. -/
def Dev.resumesConducted (d : Dev) : Dev := (d.unpark.toMode .conducted 0).startWatchdog

/-- The turn-ons that FALLBACK alone asked for. -/
def Dev.fallbackAsks (d : Dev) : List VoiceId :=
  (idx 48).filter fun v => d.vfld v 0 19 1 = 0 && (d.voice v).fallbackLh && (d.voice v).wait.any fun w => w.source == .level

theorem opResume_of_parked (free : d.parkRefusal = none) (parked : d.ctl.mode = .parked) :
    (opResume d).1 = if d.ctl.parkFromAcappella then d.resumesAcappella else d.resumesConducted := by
  simp only [opResume, free, parked]
  split <;> rfl

theorem opResume_of_fallback (free : d.parkRefusal = none) (fallback : d.ctl.mode = .fallback) :
    ((opResume d).1).Keeps (· = .voices) ((d.forVoices d.fallbackAsks Dev.withdraw).toMode .conducted 0).startWatchdog := by
  simp only [opResume, free, fallback]
  exact Dev.Keeps.voices (.refl _) (by decide) _

theorem Dev.parkRefusal_of_fallback (running : d.pdRunning = false) (fallback : d.ctl.mode = .fallback) : d.parkRefusal = none := by
  simp [Dev.parkRefusal, running, fallback]

theorem Dev.unpark_powerFail (parked : d.ctl.mode = .parked) : d.unpark.score.powerFail = false := by
  rw [Dev.unpark, if_pos parked]
  rfl

theorem Dev.unpark_beside (d : Dev) : d.unpark.Keeps (· ∈ [.nv, .score, .pd]) d := by
  apply Dev.unpark_keeps <;> first | decide | exact .refl _

theorem Dev.toMode_mode (d : Dev) (m : Mode) (cause : Nat) : (d.toMode m cause).ctl.mode = m :=
  congrArg Control.mode (Dev.event_ctl ..)

theorem Dev.toMode_score (d : Dev) (m : Mode) (cause : Nat) : (d.toMode m cause).score = d.score := Dev.event_score ..

theorem Dev.resumesAcappella_beside (d : Dev) : d.resumesAcappella.Keeps
    (· ∈ [.port, .log, .par, .voices, .tally, .odo, .conv, .wave]) (d.unpark.toMode .acappella 0) := by
  unfold Dev.resumesAcappella
  apply Dev.reconfigure_keeps <;> first | decide | skip
  exact Dev.Keeps.par (.refl _) (by decide) _

theorem Dev.startWatchdog_watchdog {e d : Dev} (par : e.par = d.par) (time : e.time = d.time) :
    e.startWatchdog.port.watchdog = some (d.now + d.tWd * msec) := by
  have word : e.tWd = d.tWd := congrArg (fun par : ParamSpace => bits (wordGet par.live 0) 0 16) par
  have now : e.now = d.now := congrArg TimeBase.now time
  rw [← word, ← now]
  rfl

end

/-! ### The opcodes -/

theorem Dev.opened_pdRunning (d : Dev) : d.opened.pdRunning = d.pdRunning := by
  obtain ⟨fs, opened⟩ := d.opened_eq
  rw [opened]
  rfl

theorem Dev.opened_parkRefusal (d : Dev) : d.opened.parkRefusal = d.parkRefusal := by
  obtain ⟨fs, opened⟩ := d.opened_eq
  rw [opened]
  rfl

/-! ### What each opcode makes of the device -/

section
variable {s : State} {tag : Byte}

theorem execBankCut_cuts {m : BitVec 4} (some_ : m ≠ 0) (h : s.accepts 0x24 [bankByte m <<< 4 ||| bankByte m]) :
    ∃ t, exec (.bankCut ⟨0, tag⟩ m) s = .next t ∧
      ∀ b : BankId, (t.dev.banks.get b).cut = ((s.dev.banks.get b).cut || m.getLsbD b.val) := by
  obtain ⟨sel, cut, -, -⟩ := bankBytes m
  obtain ⟨t, performed, keeps, -⟩ := s.packet_performs (tag := tag) h rfl
  refine ⟨t, performed, fun b => ?_⟩
  have acts := opBankCut_of_selected s.dev.opened (p := [bankByte m <<< 4 ||| bankByte m]) (sel ▸ toNat_ne_zero_of_ne some_)
  rw [sel, cut] at acts
  have banks : t.dev.banks = _ := Eq.trans (keeps.frame .banks (by decide)) (congrArg Dev.banks acts)
  rw [banks, Dev.foldl_cutStep_cut, Dev.opened_banks]
  simp [mem_idx, BitVec.getLsbD]

theorem execBankRestore_restores {m : BitVec 4} (some_ : m ≠ 0) (h : s.accepts 0x24 [bankByte m <<< 4]) :
    ∃ t, exec (.bankRestore ⟨0, tag⟩ m) s = .next t ∧
      ∀ b : BankId, (t.dev.banks.get b).cut = ((s.dev.banks.get b).cut && !m.getLsbD b.val) ∧
        (t.dev.banks.get b).conducting = ((s.dev.banks.get b).conducting || m.getLsbD b.val) := by
  obtain ⟨-, -, sel, cut⟩ := bankBytes m
  obtain ⟨t, performed, keeps, -⟩ := s.packet_performs (tag := tag) h rfl
  refine ⟨t, performed, fun b => ?_⟩
  have acts := opBankCut_of_selected s.dev.opened (p := [bankByte m <<< 4]) (sel ▸ toNat_ne_zero_of_ne some_)
  rw [sel, cut] at acts
  have banks : t.dev.banks = _ := Eq.trans (keeps.frame .banks (by decide)) (congrArg Dev.banks acts)
  obtain ⟨cuts, conducts⟩ := s.dev.opened.foldl_cutStep_restores m.toNat (idx 4) b
  rw [banks, cuts, conducts, Dev.opened_banks]
  simp [mem_idx, BitVec.getLsbD]

theorem execPark_parks (h : s.accepts 0x25 []) (running : s.dev.pdRunning = false) (runs : s.dev.ctl.mode.runs) :
    ∃ t, exec (.park ⟨0, tag, []⟩) s = .next t ∧ t.dev.ctl.mode = .parked ∧
      t.dev.pd.step = .voicesAndCommit ∧ t.dev.pd.cause = 1 ∧ t.dev.pd.at_ = s.dev.now ∧ t.dev.port.watchdog = none ∧
      t.dev.ctl.parkFromAcappella = decide (s.dev.ctl.mode = .acappella) ∧ t.dev.score.powerFail = true := by
  have runs' : s.dev.opened.ctl.mode.runs := by rwa [Dev.opened_ctl]
  have unparked : s.dev.opened.ctl.mode ≠ .parked := by
    obtain mode | mode | mode := runs' <;> rw [mode] <;> decide
  have parks := opPark_starts (d := s.dev.opened) (s.dev.opened_pdRunning.trans running) unparked
  obtain ⟨t, performed, keeps, watchdog⟩ := s.packet_performs (tag := tag) h rfl
  have ctl : t.dev.ctl = s.dev.opened.parks.ctl := Eq.trans (keeps.frame .ctl (by decide)) (congrArg Dev.ctl parks)
  have pd : t.dev.pd = s.dev.opened.parks.pd := Eq.trans (keeps.frame .pd (by decide)) (congrArg Dev.pd parks)
  have score : t.dev.score = s.dev.opened.parks.score := Eq.trans (keeps.frame .score (by decide)) (congrArg Dev.score parks)
  obtain ⟨step, cause, at_⟩ :=
    (s.dev.opened.setCtl fun c => { c with parkFromAcappella := s.dev.opened.ctl.mode = .acappella }).pdStart_pd 1
  rw [Dev.parks_ctl runs', Dev.opened_ctl] at ctl
  refine ⟨t, performed, congrArg Control.mode ctl, ?_, ?_, ?_, ?_, congrArg Control.parkFromAcappella ctl, ?_⟩
  · rw [pd]; exact step
  · rw [pd]; exact cause
  · rw [pd]
    exact at_.trans (congrArg TimeBase.now s.dev.opened_time)
  · exact (watchdog.trans (congrArg (·.port.watchdog) parks)).trans (Dev.parks_watchdog runs')
  · rw [score]
    exact Dev.pdStart_powerFail ..

theorem execResume_of_parked (h : s.accepts 0x26 []) (free : s.dev.parkRefusal = none) (parked : s.dev.ctl.mode = .parked) :
    ∃ t, exec (.resume ⟨0, tag, []⟩) s = .next t ∧ t.dev.score.powerFail = false ∧
      (s.dev.ctl.parkFromAcappella = true → t.dev.ctl.mode = .acappella) ∧
      (s.dev.ctl.parkFromAcappella = false → t.dev.ctl.mode = .conducted ∧
        t.dev.port.watchdog = some (s.dev.now + s.dev.tWd * msec)) := by
  have mode : s.dev.opened.ctl.mode = .parked := (congrArg Control.mode s.dev.opened_ctl).trans parked
  have resumes := opResume_of_parked (s.dev.opened_parkRefusal.trans free) mode
  obtain ⟨t, performed, keeps, watchdog⟩ := s.packet_performs (tag := tag) h rfl
  have ctl : t.dev.ctl = _ := Eq.trans (keeps.frame .ctl (by decide)) (congrArg Dev.ctl resumes)
  have score : t.dev.score = _ := Eq.trans (keeps.frame .score (by decide)) (congrArg Dev.score resumes)
  have port := watchdog.trans (congrArg (·.port.watchdog) resumes)
  rw [Dev.opened_ctl] at ctl score port
  refine ⟨t, performed, ?_, fun acappella => ?_, fun conducted => ⟨?_, ?_⟩⟩
  · rw [score]
    split
    · exact (congrArg Score.powerFail (s.dev.opened.resumesAcappella_beside.frame .score (by decide))).trans
        ((congrArg Score.powerFail (Dev.toMode_score ..)).trans (Dev.unpark_powerFail mode))
    · exact (congrArg Score.powerFail (Dev.toMode_score ..)).trans (Dev.unpark_powerFail mode)
  · rw [ctl, if_pos acappella]
    exact (congrArg Control.mode (s.dev.opened.resumesAcappella_beside.frame .ctl (by decide))).trans (Dev.toMode_mode ..)
  · rw [ctl, if_neg (by simp [conducted])]
    exact Dev.toMode_mode ..
  · rw [port, if_neg (by simp [conducted])]
    refine Dev.startWatchdog_watchdog ?_ ?_
    · exact (Dev.event_par ..).trans ((Dev.unpark_par _).trans s.dev.opened_par)
    · exact (Dev.event_time ..).trans (Eq.trans (s.dev.opened.unpark_beside.frame .time (by decide)) s.dev.opened_time)

theorem execResume_of_fallback (h : s.accepts 0x26 []) (running : s.dev.pdRunning = false)
    (fallback : s.dev.ctl.mode = .fallback) :
    ∃ t, exec (.resume ⟨0, tag, []⟩) s = .next t ∧ t.dev.ctl.mode = .conducted ∧
      t.dev.port.watchdog = some (s.dev.now + s.dev.tWd * msec) := by
  have mode : s.dev.opened.ctl.mode = .fallback := (congrArg Control.mode s.dev.opened_ctl).trans fallback
  have resumes := opResume_of_fallback
    (Dev.parkRefusal_of_fallback (s.dev.opened_pdRunning.trans running) mode) mode
  obtain ⟨t, performed, keeps, watchdog⟩ := s.packet_performs (tag := tag) h rfl
  have ctl : t.dev.ctl = _ := Eq.trans (keeps.frame .ctl (by decide)) (resumes.frame .ctl (by decide))
  have port := watchdog.trans (congrArg HostPort.watchdog (resumes.frame .port (by decide)))
  have withdrawn : (s.dev.opened.forVoices s.dev.opened.fallbackAsks Dev.withdraw).Keeps (· ∈ [.voices, .chain]) s.dev.opened :=
    Dev.forVoices_keeps (.refl _) (fun x hx v => Dev.withdraw_keeps (by decide) (by decide) hx v) _
  refine ⟨t, performed, ?_, port.trans ?_⟩
  · rw [ctl]
    exact Dev.toMode_mode ..
  · refine Dev.startWatchdog_watchdog ?_ ?_
    · exact (Dev.event_par ..).trans (Eq.trans (withdrawn.frame .par (by decide)) s.dev.opened_par)
    · exact (Dev.event_time ..).trans (Eq.trans (withdrawn.frame .time (by decide)) s.dev.opened_time)

end

end Sys2Proof.Machine

namespace Sys2Proof
open Machine

/-- Settles O24: each opcode by the device that it leaves. -/
theorem bankAndModeOpcodesAct : Obligations.BankAndModeOpcodesAct := by
  intro s tag
  exact ⟨fun m => execBankCut_cuts, fun m => execBankRestore_restores, execPark_parks, execResume_of_parked,
    execResume_of_fallback⟩

end Sys2Proof

/-! SUPPORT. O19: the reads of cues, odometer, lead, lifetime and sound check (05 R161 to R163, 10 R299, 14 R420, 07 R230). -/

namespace Sys2Proof.Machine
open Sys2Proof

/-- A Read of the snapshot that the device takes answers OK with data of the form that the opcode returns. -/
theorem State.packet_reads_some {s : State} {opc tag : Byte} {a : List Byte} {ans : Answer} {told : List Byte → Prop}
    (h : s.accepts opc a)
    (reading : Dev.perform s.snap s.dev.opened { dest := 0, opc := opc, tag := tag, params := a } false =
      reads s.dev.opened ans) (read : ∃ data, ans = ok data ∧ told data) :
    ∃ t data, s.packet opc 0 tag a = .next t ∧ Answered s t opc tag 0 data ∧ told data := by
  obtain ⟨data, rfl, fact⟩ := read
  obtain ⟨t, runs, answered⟩ := s.packet_reads h reading
  exact ⟨t, data, runs, answered, fact⟩

/-! ### What each opcode reads -/

/-- The first element of all the indices is 0. -/
theorem idx_succ (n : Nat) : idx (n + 1) = 0 :: (idx n).map Fin.succ := List.finRange_succ

/-- A CUE_QUERY of at most 256 records is answered (05 R161). -/
theorem opCueQuery_of_count {snap : Dev} {p : List Byte} (few : field p 4 2 ≤ 256) :
    ∃ data, opCueQuery snap p = ok data ∧
      data.take 4 = leBytes 2 snap.cues.queue.length ++ leBytes 2 snap.cueFree ∧
      (data.drop 10).take 4 = leBytes 4 snap.cues.nextId.toNat ∧
      data.drop 16 = ((snap.cues.queue.filter fun c => (c.id - BitVec.ofNat 32 (field p 0 4)).toNat < 2 ^ 31).take
        (field p 4 2)).flatMap snap.cueRecord :=
  ⟨_, if_neg (Nat.not_lt.2 few), rfl, rfl, rfl⟩

/-- A LEAD_READ of no voice returns nothing. -/
theorem opLeadRead_of_none {snap : Dev} {p : List Byte} (none_ : maskAt p 0 = 0) : opLeadRead snap p = ok [] := by
  have voices : maskVoices (0 : Mask) = [] := by decide
  rw [opLeadRead, none_, voices]
  rfl

/-- A LEAD_READ of one voice names it, and holds in its seventh and eighth byte how many leads the voice keeps (05 R163). -/
theorem opLeadRead_of_voice {snap : Dev} {p : List Byte} {v : VoiceId} (one : maskVoices (maskAt p 0) = [v]) :
    ∃ data, opLeadRead snap p = ok data ∧ data.getD 0 0 = b8 v.val ∧
      data.getD 6 0 = b8 (snap.voice v).lead.opens.length ∧ data.getD 7 0 = b8 (snap.voice v).lead.closes.length := by
  rw [opLeadRead, one]
  exact ⟨_, rfl, rfl, rfl, rfl⟩

/-- A LIFETIME_READ begins with the lost sessions and goes on, from byte 8, with voice 0 (14 R420). -/
theorem opLifetimeRead_data (snap : Dev) :
    ∃ data, opLifetimeRead snap = ok data ∧ data.take 2 = leBytes 2 snap.ctl.lostSessions ∧
      (data.drop 8).take 8 = leBytes 4 (snap.cyclesOf 0) ++ leBytes 4 (snap.secondsOf 0) := by
  refine ⟨_, rfl, rfl, ?_⟩
  rw [idx_succ 47]
  rfl

/-- A SOUNDCHECK_RESULT begins with the checks that wait and the counts of those delayed and discarded (07 R230). -/
theorem opSoundcheckResult_data (snap : Dev) (p : List Byte) :
    ∃ data, opSoundcheckResult snap p = ok data ∧ data.getD 0 0 = b8 snap.checksWaiting ∧
      (data.drop 2).take 4 = leBytes 2 snap.sc.delayed ++ leBytes 2 snap.sc.discarded := by
  refine ⟨_, rfl, ?_, ?_⟩
  · rw [List.append_assoc, List.append_assoc]
    rfl
  · generalize b8 snap.checksWaiting = waiting
    rfl

end Sys2Proof.Machine

namespace Sys2Proof
open Machine

/-- Settles O19: each opcode by `State.packet_reads` and by what it reads; the STATS form of CUE_QUERY, which may also clear,
by `State.packet_acts`. -/
theorem cueAndVoiceReadsAnswerOk : Obligations.CueAndVoiceReadsAnswerOk := by
  intro s tag _
  refine ⟨fun a h six few => ?cues, fun ctrl h => ?stats, fun h => s.packet_reads h rfl,
    fun a h none_ => s.packet_reads h (congrArg (reads s.dev.opened) (opLeadRead_of_none none_)),
    fun a v h one => s.packet_reads_some h rfl (opLeadRead_of_voice one),
    fun h => s.packet_reads_some h rfl (opLifetimeRead_data s.snap),
    fun a h => s.packet_reads_some h rfl (opSoundcheckResult_data s.snap a)⟩
  case cues => exact s.packet_reads_some h (if_neg (by simp [six])) (opCueQuery_of_count few)
  case stats =>
    have queue : (opCueStats s.snap [ctrl, 0] s.dev.opened).1.port.replies = s.dev.port.replies := by
      unfold opCueStats
      dsimp only
      split <;> exact s.dev.opened_replies
    obtain ⟨t, runs, answered, -⟩ := State.packet_acts (tag := tag) h rfl queue
    exact ⟨t, _, runs, answered, rfl, rfl⟩

end Sys2Proof

/-! SUPPORT. O20: the reads of converter, wave port, zones and flash (11 R330, 12 R352, 13 R380, 14 R415, R417 to R419). -/

namespace Sys2Proof.Machine
open Sys2Proof

/-! ### What each opcode reads -/

section
variable (snap : Dev)

/-- Page 0 of ADC_CAL_STATUS begins with the round of calibration and the slice that the descant stands in for (11 R330). -/
theorem opCalStatus_slices : ∃ data, opCalStatus snap [0] = ok data ∧
    data.take 3 = [b8 (boolNat !snap.conv.calRuns), b8 (snap.conv.standIn.getD 0xFF), b8 (snap.conv.replaced.getD 0xFF)] ∧
    (data.drop 4).take 4 = leBytes 4 snap.conv.cycles :=
  ⟨_, rfl, rfl, rfl⟩

/-- WAVE_STATUS of no slot returns the head alone (12 R352). -/
theorem opWaveStatus_head {p : List Byte} (head : byteAt p 0 = 0xFF) (few : field p 4 2 ≤ 2024) :
    opWaveStatus snap p = ok snap.waveHead :=
  (if_neg (Nat.not_lt.2 few)).trans (if_pos head)

/-- Page 0 of THERMAL_READ begins with COLD and the healthy zones, and goes on, from byte 8, with zone 0 (13 R380). -/
theorem opThermalRead_zones : ∃ data, opThermalRead snap [0] = ok data ∧
    data.getD 0 0 = b8 (boolNat snap.therm.coldBlock * 192) ∧ data.getD 1 0 = b8 snap.healthyZones ∧
    (data.drop 8).take 2 = leInt 2 (tenths (snap.zone 0).temp) := by
  refine ⟨_, rfl, rfl, rfl, ?_⟩
  rw [idx_succ 7]
  rfl

/-- A REC_READ of 1 to 100 records of a range of keys tells how many it returns and whether there are more (14 R417). -/
theorem opRecRead_of_range {p : List Byte} (ordered : field p 0 2 ≤ field p 2 2) (positive : 1 ≤ byteAt p 4)
    (few : byteAt p 4 ≤ 100) : ∃ data, opRecRead snap p = ok data ∧
      let rs := (assignedKeys.filter fun k => field p 0 2 ≤ k && k ≤ field p 2 2).filterMap snap.nv.holds
      data.take 2 = [b8 (boolNat (byteAt p 4 < rs.length)), b8 (min (byteAt p 4) rs.length)] := by
  have in_range : ¬ (field p 2 2 < field p 0 2 || byteAt p 4 = 0 || 100 < byteAt p 4) = true := by simp; omega
  refine ⟨_, if_neg in_range, ?_⟩
  intro rs
  rw [← List.length_take]
  rfl

/-- NV_STATUS tells, from byte 1, the level of protection and the raw operation with its result (14 R419). -/
theorem opNvStatus_data : ∃ data, opNvStatus snap = ok data ∧
    (data.drop 1).take 3 = [b8 snap.nv.protect, b8 snap.nv.op.kind, b8 snap.nv.op.result] :=
  ⟨_, rfl, rfl⟩

end

theorem Dev.opened_now (d : Dev) : d.opened.now = d.now := congrArg TimeBase.now d.opened_time

section
variable {d : Dev} {p : List Byte}

/-- Where no raw operation runs, NV_READ returns the bytes of its range as they read now (14 R393, R415). -/
theorem opNvRead_of_idle (some_ : 1 ≤ field p 4 2) (fits : field p 4 2 ≤ 8152) (inside : field p 0 4 + field p 4 2 ≤ 0x10000)
    (idle : d.nv.op.busy = false) :
    opNvRead p d = ok (leBytes 4 (field p 0 4) ++ leBytes 2 (field p 4 2) ++ [0, 0] ++
      (d.nv.current d.now).bytes d.now (field p 0 4) (field p 4 2)) := by
  have in_range : ¬ (field p 4 2 = 0 || 8152 < field p 4 2 || 0x10000 < field p 0 4 + field p 4 2) = true := by simp; omega
  unfold opNvRead
  dsimp only
  rw [if_neg in_range, idle]
  rfl

/-- Where no flash work runs, MARGIN_READ of a raw page names the page and ends with its bytes (14 R418). -/
theorem opMarginRead_of_idle (raw : byteAt p 0 = 0) (inside : field p 2 2 < 256) (idle : d.nv.op.busy = false)
    (nothing : d.nv.appends = []) (no_gc : d.nv.gc = none) (no_save : d.pd.step ≠ .save) (no_idle : d.pd.step ≠ .idleFlash) :
    ∃ data, opMarginRead p d = ok data ∧ data.take 4 = [0, 0] ++ leBytes 2 (field p 2 2) ∧
      data.drop 12 = d.nv.bytes d.now (256 * field p 2 2) 256 := by
  have in_range : ¬ (1 < byteAt p 0 || (if byteAt p 0 = 0 then 256 else 512) ≤ field p 2 2) = true := by simp [raw]; omega
  have free : ¬ (d.nv.op.busy || !d.nv.appends.isEmpty || d.nv.gc.isSome || d.pd.step = .save || d.pd.step = .idleFlash) = true := by
    simp [idle, nothing, no_gc, no_save, no_idle]
  refine ⟨_, (if_neg in_range).trans (if_neg free), ?_, ?_⟩
  · rw [raw]
    rfl
  · dsimp only
    rw [if_pos raw]
    rfl

end

end Sys2Proof.Machine

namespace Sys2Proof
open Machine

/-- Settles O20: each opcode by `State.packet_reads` and by what it reads. -/
theorem converterAndFlashReadsAnswerOk : Obligations.ConverterAndFlashReadsAnswerOk := by
  intro s tag _
  refine ⟨fun h => s.packet_reads_some h rfl (opCalStatus_slices s.snap),
    fun a h head few => s.packet_reads h (congrArg (reads s.dev.opened) (opWaveStatus_head s.snap head few)),
    fun h => s.packet_reads_some h rfl (opThermalRead_zones s.snap), fun a h some_ fits inside idle => ?nvRead,
    fun a h ordered positive few => s.packet_reads_some h rfl (opRecRead_of_range s.snap ordered positive few),
    fun h => s.packet_reads_some h rfl (opNvStatus_data s.snap),
    fun a h raw inside idle nothing no_gc no_save no_idle => ?margin⟩
  case nvRead =>
    have read := opNvRead_of_idle (d := s.dev.opened) some_ fits inside (by rwa [Dev.opened_nv])
    rw [Dev.opened_nv, Dev.opened_now] at read
    exact s.packet_reads h (congrArg (reads s.dev.opened) read)
  case margin =>
    have read := opMarginRead_of_idle (d := s.dev.opened) raw inside (by rwa [Dev.opened_nv]) (by rwa [Dev.opened_nv])
      (by rwa [Dev.opened_nv]) (by rwa [Dev.opened_pd]) (by rwa [Dev.opened_pd])
    rw [Dev.opened_nv, Dev.opened_now] at read
    exact s.packet_reads_some h rfl read

end Sys2Proof

/-! SUPPORT. O27: what the opcodes of the wave port do (12 R351, 21 R557). -/

namespace Sys2Proof.Machine
open Sys2Proof

/-! ### The slots one by one -/

theorem slotsOf_nodup (m : Nat) : (slotsOf m).Nodup := (idx_nodup 16).filter _

/-- In changes of the slots one by one, each of its own slot, a slot that is among them is made what its own change makes of
it, and every other stands. -/
theorem Dev.foldl_slot_ite {γ : Type} {r g : WaveSlot → γ} {f : Dev → Fin 16 → Dev} {l : List (Fin 16)} (once : l.Nodup)
    (others : ∀ e a k, a ≠ k → (f e a).wave.slots.get k = e.wave.slots.get k)
    (self : ∀ e k, r ((f e k).wave.slots.get k) = g (e.wave.slots.get k)) (d : Dev) (k : Fin 16) :
    r ((l.foldl f d).wave.slots.get k) = if k ∈ l then g (d.wave.slots.get k) else r (d.wave.slots.get k) := by
  split
  · next named =>
    exact Dev.foldl_slot (q := fun _ => ()) once named (fun _ _ => rfl) (fun e a => others e a k)
      fun e _ slot => (self e k).trans (congrArg g slot)
  · next absent => exact congrArg r (Dev.foldl_slot_of_not_mem absent (fun e a => others e a k) d)

/-- A slot after FREEZE (12 R351). -/
def WaveSlot.freeze (x : WaveSlot) : WaveSlot := { x with frozen := true, armed := none, counting := none }

/-- A slot after RELEASE (12 R351). -/
def WaveSlot.release (x : WaveSlot) : WaveSlot :=
  { x with frozen := false, armed := none, counting := none, buffer := [], written := 0 }

def Dev.freezeSlot (d : Dev) (k : Fin 16) : Dev := d.modSlot k WaveSlot.freeze

def Dev.releaseSlot (d : Dev) (k : Fin 16) : Dev := d.modSlot k WaveSlot.release

/-- A slot is armed on the first fault of a voice (12 R350). -/
def Dev.armSlot (v : VoiceId) (post : Nat) (d : Dev) (k : Fin 16) : Dev :=
  d.modSlot k fun x => { x with armed := some (v, post), armedAt := d.now, counting := none }

/-- The counters of the port after CLEAR: what each has counted in this slot (21 R557). -/
def Dev.waveCleared (d : Dev) : Wave :=
  { d.wave with
    losses := d.sinceSlot 42 d.wave.losses, frameErr := d.sinceSlot 43 d.wave.frameErr
    parityErr := d.sinceSlot 44 d.wave.parityErr, vSkipped := d.sinceSlot 45 d.wave.vSkipped
    csErr := d.sinceSlot 46 d.wave.csErr, realign := d.sinceSlot 47 d.wave.realign }

/-! ### The actions where their checks pass -/

section
variable {d : Dev} {a : List Byte} (inside : ∀ k ∈ slotsOf (field a 0 2), k.val < d.waveSlots)
include inside

/-- The slots that an action of WAVE_CTRL names are slots of the port (12 R351). -/
theorem slotsOf_inside {action : Nat} (known : action ≤ 4) :
    ¬ (4 < action || (slotsOf (field a 0 2)).any fun k => d.waveSlots ≤ k.val) = true := by
  simpa [known] using inside

variable (live : d.waveEnabled = true)
include live

theorem opWaveCtrl_report : opWaveCtrl (0 :: a) d = (d, ok (slotMask (fun k => (d.wave.slots.get k).frozen) ++
    slotMask (fun k => (d.wave.slots.get k).armed.isSome) ++ [0, 0])) := by
  have asks_none : ¬ (field a 0 2 = 0 && 1 ≤ 0 && 0 ≤ 3) = true := by simp
  exact (if_neg (by simp [live])).trans ((if_neg (slotsOf_inside (action := 0) inside (by decide))).trans (if_neg asks_none))

theorem opWaveCtrl_freeze (named : field a 0 2 ≠ 0) :
    ∃ data, opWaveCtrl (1 :: a) d = ((slotsOf (field a 0 2)).foldl Dev.freezeSlot d, ok data) := by
  have some_ : ¬ (field a 0 2 = 0 && 1 ≤ 1 && 1 ≤ 3) = true := by simp [named]
  exact ⟨_, (if_neg (by simp [live])).trans ((if_neg (slotsOf_inside (action := 1) inside (by decide))).trans (if_neg some_))⟩

theorem opWaveCtrl_release (named : field a 0 2 ≠ 0) :
    ∃ data, opWaveCtrl (2 :: a) d = ((slotsOf (field a 0 2)).foldl Dev.releaseSlot d, ok data) := by
  have some_ : ¬ (field a 0 2 = 0 && 1 ≤ 2 && 2 ≤ 3) = true := by simp [named]
  exact ⟨_, (if_neg (by simp [live])).trans ((if_neg (slotsOf_inside (action := 2) inside (by decide))).trans (if_neg some_))⟩

theorem opWaveCtrl_arm (named : field a 0 2 ≠ 0) {v : VoiceId} (voice : byteAt a 2 = v.val) (usable : (d.voice v).st ≠ .retired)
    (short : ∀ k ∈ slotsOf (field a 0 2), field a 3 2 < 2 ^ d.slotLog k) :
    ∃ data, opWaveCtrl (3 :: a) d = (((slotsOf (field a 0 2)).filter fun k => !(d.wave.slots.get k).frozen).foldl
      (Dev.armSlot v (field a 3 2)) d, ok data) := by
  have some_ : ¬ (field a 0 2 = 0 && 1 ≤ 3 && 3 ≤ 3) = true := by simp [named]
  have fits : ¬ ((slotsOf (field a 0 2)).any fun k => 2 ^ d.slotLog k ≤ field a 3 2) = true := by simpa using short
  have known : byteAt a 2 < 48 := voice ▸ v.isLt
  obtain rfl : (⟨byteAt a 2, known⟩ : VoiceId) = v := Fin.ext voice
  exact ⟨_, (if_neg (by simp [live])).trans ((if_neg (slotsOf_inside (action := 3) inside (by decide))).trans ((if_neg some_).trans
    ((dif_pos known).trans ((if_neg fits).trans (if_neg usable)))))⟩

theorem opWaveCtrl_clear : ∃ data, opWaveCtrl (4 :: a) d = ({ d with wave := d.waveCleared }, ok data) := by
  have names_none : ¬ (field a 0 2 = 0 && 1 ≤ 4 && 4 ≤ 3) = true := by simp
  exact ⟨_, (if_neg (by simp [live])).trans ((if_neg (slotsOf_inside (action := 4) inside (by decide))).trans (if_neg names_none))⟩

end

/-! ### What they make of each slot -/

section
variable (d : Dev) (l : List (Fin 16)) (once : l.Nodup) (k : Fin 16)
include once

theorem Dev.freezeSlots_frozen :
    ((l.foldl Dev.freezeSlot d).wave.slots.get k).frozen = ((d.wave.slots.get k).frozen || l.contains k) := by
  refine (Dev.foldl_slot_ite (r := WaveSlot.frozen) (g := fun _ => true) once
    (fun e a k other => Dev.modSlot_get_ne other.symm e _) (fun e k => ?_) d k).trans ?_
  · exact congrArg WaveSlot.frozen (Dev.modSlot_get_self e k _)
  · by_cases named : k ∈ l <;> simp [named]

theorem Dev.releaseSlots_frozen :
    ((l.foldl Dev.releaseSlot d).wave.slots.get k).frozen = ((d.wave.slots.get k).frozen && !l.contains k) := by
  refine (Dev.foldl_slot_ite (r := WaveSlot.frozen) (g := fun _ => false) once
    (fun e a k other => Dev.modSlot_get_ne other.symm e _) (fun e k => ?_) d k).trans ?_
  · exact congrArg WaveSlot.frozen (Dev.modSlot_get_self e k _)
  · by_cases named : k ∈ l <;> simp [named]

theorem Dev.releaseSlots_buffer (named : l.contains k = true) :
    ((l.foldl Dev.releaseSlot d).wave.slots.get k).buffer = [] := by
  refine (Dev.foldl_slot_ite (r := WaveSlot.buffer) (g := fun _ => []) once
    (fun e a k other => Dev.modSlot_get_ne other.symm e _) (fun e k => ?_) d k).trans (if_pos (by simpa using named))
  exact congrArg WaveSlot.buffer (Dev.modSlot_get_self e k _)

/-- A slot that is frozen stays as it is armed. -/
theorem Dev.armSlots_armed (v : VoiceId) (post : Nat) :
    (((l.filter fun k => !(d.wave.slots.get k).frozen).foldl (Dev.armSlot v post) d).wave.slots.get k).armed =
      if l.contains k && !(d.wave.slots.get k).frozen then some (v, post) else (d.wave.slots.get k).armed := by
  refine (Dev.foldl_slot_ite (r := WaveSlot.armed) (g := fun _ => some (v, post)) (once.filter _)
    (fun e a k other => Dev.modSlot_get_ne other.symm e _) (fun e k => ?_) d k).trans ?_
  · exact congrArg WaveSlot.armed (Dev.modSlot_get_self e k _)
  · simp only [List.mem_filter, List.contains_iff_mem, Bool.and_eq_true]

end

/-! ### The slots are all that an action writes -/

theorem Dev.foldl_modSlot_replies {g : Dev → Fin 16 → WaveSlot → WaveSlot} (l : List (Fin 16)) (d : Dev) :
    (l.foldl (fun d k => d.modSlot k (g d k)) d).port.replies = d.port.replies :=
  Dev.foldl_same (q := fun e => e.port.replies) (fun _ _ _ => by rfl) d

/-- An action of WAVE_CTRL where its checks pass: the packet is answered, and the wave port is as the action left it. -/
theorem State.waveCtrl_acts {s : State} {tag : Byte} {p data : List Byte} {d : Dev} (h : s.accepts 0x50 p)
    (action : opWaveCtrl p s.dev.opened = (d, ok data)) (queue : d.port.replies = s.dev.opened.port.replies) :
    ∃ t, s.packet 0x50 0 tag p = .next t ∧ Answered s t 0x50 tag 0 data ∧ t.dev.wave = d.wave := by
  obtain ⟨t, runs, answered, keeps⟩ := State.packet_acts (tag := tag) h (congrArg acts action) (queue.trans s.dev.opened_replies)
  exact ⟨t, runs, answered, keeps.frame .wave (by decide)⟩

theorem Dev.opened_waveEnabled (d : Dev) : d.opened.waveEnabled = d.waveEnabled := by
  unfold Dev.waveEnabled Dev.fld
  rw [Dev.word_congr d.opened_par]

theorem Dev.opened_waveSlots (d : Dev) : d.opened.waveSlots = d.waveSlots := by
  unfold Dev.waveSlots Dev.fld
  rw [Dev.word_congr d.opened_par]

theorem Dev.opened_slotLog (d : Dev) : d.opened.slotLog = d.slotLog := by
  funext k
  unfold Dev.slotLog Dev.fld
  rw [Dev.word_congr d.opened_par]

end Sys2Proof.Machine

namespace Sys2Proof
open Machine

/-- Settles O27: each action by what `opWaveCtrl` does where its checks pass, and by what that makes of each slot. -/
theorem waveOpcodesAct : Obligations.WaveOpcodesAct := by
  intro s tag a live inside
  have live' : s.dev.opened.waveEnabled = true := s.dev.opened_waveEnabled.trans live
  have inside' : ∀ k ∈ slotsOf (field a 0 2), k.val < s.dev.opened.waveSlots := by rwa [Dev.opened_waveSlots]
  have once : (slotsOf (field a 0 2)).Nodup := slotsOf_nodup _
  have wave : s.dev.opened.wave = s.dev.wave := s.dev.opened_wave
  refine ⟨fun h => ?report, fun h named => ?freeze, fun h named => ?release, fun h named v voice usable short => ?arm,
    fun h => ?clear⟩
  case report =>
    obtain ⟨t, runs, answered, wave'⟩ := State.waveCtrl_acts (tag := tag) h (opWaveCtrl_report inside' live') rfl
    rw [wave] at answered wave'
    exact ⟨t, runs, wave', answered⟩
  case freeze =>
    obtain ⟨data, act⟩ := opWaveCtrl_freeze inside' live' named
    obtain ⟨t, runs, -, wave'⟩ := State.waveCtrl_acts (tag := tag) h act (Dev.foldl_modSlot_replies _ _)
    refine ⟨t, runs, fun k => ?_⟩
    rw [wave', Dev.freezeSlots_frozen _ _ once, wave]
  case release =>
    obtain ⟨data, act⟩ := opWaveCtrl_release inside' live' named
    obtain ⟨t, runs, -, wave'⟩ := State.waveCtrl_acts (tag := tag) h act (Dev.foldl_modSlot_replies _ _)
    refine ⟨t, runs, fun k => ⟨?_, fun mine => ?_⟩⟩
    · rw [wave', Dev.releaseSlots_frozen _ _ once, wave]
    · rw [wave', Dev.releaseSlots_buffer _ _ once k mine]
  case arm =>
    have usable' : (s.dev.opened.voice v).st ≠ .retired := by rwa [Dev.voice, Dev.opened_voices]
    obtain ⟨data, act⟩ := opWaveCtrl_arm inside' live' named voice usable' (by rwa [Dev.opened_slotLog])
    obtain ⟨t, runs, -, wave'⟩ := State.waveCtrl_acts (tag := tag) h act (Dev.foldl_modSlot_replies _ _)
    refine ⟨t, runs, fun k => ?_⟩
    rw [wave', Dev.armSlots_armed _ _ once, wave]
  case clear =>
    obtain ⟨data, act⟩ := opWaveCtrl_clear inside' live'
    obtain ⟨t, runs, -, wave'⟩ := State.waveCtrl_acts (tag := tag) h act rfl
    refine ⟨t, runs, ?_⟩
    rw [wave', Dev.waveCleared]
    simp only [Dev.sinceSlot, Dev.opened_wave, Dev.opened_found]

end Sys2Proof

/-! SUPPORT. O28: what the opcodes of the flash, the record store and PATCH_LOAD do (14 R412 to R416, 05 R164 to R167). -/

namespace Sys2Proof.Machine
open Sys2Proof

/-! ### The raw region and the record store, where the checks of the opcode pass -/

section
variable {d : Dev} {p : List Byte}

/-- The operation of an NV_PROGRAM of whole blank words (14 R412). -/
def rawProgram (now : Nat) (p : List Byte) : RawOp :=
  { kind := 1, result := 1, addr := field p 0 4, total := (p.drop 8).length / 8, done := 0, failAddr := 0xFFFFFFFF
    data := p.drop 8, sectors := [], startedAt := now, base := 0, busy := true }

theorem opNvProgram_of_blank (plain : byteAt p 4 = 0) (aligned : field p 0 4 % 8 = 0)
    (inside : field p 0 4 + (p.drop 8).length ≤ 0x10000)
    (open_ : (sectorsOf (field p 0 4) (p.drop 8).length).any d.nv.isProtected = false) (warm : d.therm.coldBlock = false)
    (idle : d.nv.op.busy = false) (blank : ∀ b ∈ d.nv.bytes d.now (field p 0 4) (p.drop 8).length, b = 0xFF)
    (fresh : ∀ w, wordCount d.nv.programs w < 2) :
    opNvProgram p d = ({ d with nv := { d.nv with op := rawProgram d.now p } },
      ok (leBytes 2 ((p.drop 8).length / 8) ++ [0, 0])) := by
  have no_and : (byteAt p 4).testBit 0 = false := by simp [plain]
  have blankAt : ((List.range ((p.drop 8).length / 8)).find? fun w =>
      (((d.nv.bytes d.now (field p 0 4) (p.drop 8).length).drop (8 * w)).take 8).any (· != 0xFF)) = none := by
    refine List.find?_eq_none.2 fun w _ found => ?_
    obtain ⟨b, mem, not_blank⟩ := List.any_eq_true.1 found
    simp [blank b (List.mem_of_mem_drop (List.mem_of_mem_take mem))] at not_blank
  have thirdAt : ((List.range ((p.drop 8).length / 8)).find? fun w =>
      2 ≤ wordCount d.nv.programs (field p 0 4 / 8 + w)) = none :=
    List.find?_eq_none.2 fun w _ => by simpa using fresh _
  unfold opNvProgram
  dsimp only
  rw [no_and, blankAt, thirdAt, if_neg (by simp [aligned]), if_neg (by omega), if_neg (Bool.eq_false_iff.1 open_),
    if_neg (by simp [warm]), if_neg (by simp [idle]), if_neg (by simp), if_neg (by simp)]
  simp only [Bool.false_eq_true, if_false]
  rfl

/-- The operation of an NV_ERASE (14 R413). -/
def rawErase (now : Nat) (ss : List Nat) : RawOp :=
  { kind := 2, result := 1, addr := 4096 * ss.headD 0, total := ss.length, done := 0, failAddr := 0xFFFFFFFF
    data := [], sectors := ss, startedAt := now, base := 0, busy := true }

theorem opNvErase_of_sectors (some_ : (List.range 16).filter (field p 0 2).testBit ≠ [])
    (open_ : ((List.range 16).filter (field p 0 2).testBit).any d.nv.isProtected = false) (warm : d.therm.coldBlock = false)
    (idle : d.nv.op.busy = false) :
    opNvErase p d = ({ d with nv := { d.nv with op := rawErase d.now ((List.range 16).filter (field p 0 2).testBit) } },
      ok (leBytes 2 (field p 0 2) ++ leBytes 2 (20 * ((List.range 16).filter (field p 0 2).testBit).length))) :=
  (if_neg (by simpa using some_)).trans ((if_neg (by simp [open_])).trans ((if_neg (by simp [warm])).trans
    (if_neg (by simp [idle]))))

theorem opNvProtect_of_level {l : Byte} (level : l.toNat ≤ 3) :
    opNvProtect [l] d = ({ d with nv := { d.nv with protect := l.toNat } }, ok [l]) := by
  have known : ¬ 3 < byteAt [l] 0 := Nat.not_lt.2 level
  refine (if_neg known).trans ?_
  simp [byteAt, b8, Dev.setNv]

theorem opRecWrite_of_room (host : hostKey (field p 0 2) = true) (warm : d.therm.coldBlock = false)
    (room : d.hasRoom (recSize (p.drop 2).length) = true) :
    opRecWrite p d = ({ d with nv := d.nv.enqueue d.now (field p 0 2) false (p.drop 2) true }, ok (leBytes 4 d.nv.nextRseq)) :=
  (if_neg (by simp [host])).trans ((if_neg (by simp [warm])).trans (if_neg (by simpa using room)))

theorem opRecDelete_of_room (host : hostKey (field p 0 2) = true) (warm : d.therm.coldBlock = false)
    (held : (d.nv.holds (field p 0 2)).isSome = true) (room : d.hasRoom (recSize 0) = true) :
    opRecDelete p d = ({ d with nv := d.nv.enqueue d.now (field p 0 2) true [] true }, ok [1]) :=
  (if_neg (by simp [host])).trans ((if_neg (by simp [warm])).trans
    ((if_neg (by simpa [Option.ne_none_iff_isSome] using held)).trans (if_neg (by simpa using room))))

end

theorem Dev.opened_hasRoom (d : Dev) (n : Nat) : d.opened.hasRoom n = d.hasRoom n := by
  obtain ⟨_, same⟩ := d.opened_eq
  rw [same]
  rfl

/-- An opcode that answers at once and that changes the flash alone. -/
theorem State.packet_flash {s : State} {opc tag : Byte} {a data : List Byte} {f : Flash} (h : s.accepts opc a)
    (action : Dev.perform s.snap s.dev.opened { dest := 0, opc := opc, tag := tag, params := a } false =
      acts ({ s.dev.opened with nv := f }, ok data)) :
    ∃ t, s.packet opc 0 tag a = .next t ∧ t.dev.nv = f ∧ Answered s t opc tag 0 data := by
  obtain ⟨t, runs, answered, keeps⟩ := State.packet_acts (tag := tag) h action s.dev.opened_replies
  exact ⟨t, runs, keeps.frame .nv (by decide), answered⟩

/-! ### PATCH_LOAD (05 R164 to R167) -/

/-- What a packet leaves of the patch load: what its opcode makes of it, with the status of a PATCH_LOAD that is rejected. -/
theorem State.packet_patch {s : State} {opc tag : Byte} {a : List Byte} {d : Dev} {ans : Answer} (h : s.accepts opc a)
    (action : Dev.perform s.snap s.dev.opened { dest := 0, opc := opc, tag := tag, params := a } false = (d, some ans)) :
    ∃ t, s.packet opc 0 tag a = .next t ∧
      t.dev.patch = (d.keepPatchStatus { dest := 0, opc := opc, tag := tag, params := a } ans).patch := by
  have runs := s.packet_own (tag := tag) h
  rw [action] at runs
  refine ⟨_, runs, ?_⟩
  rw [State.after_patch]
  change ((d.countAccepted false (some ans)).keepPatchStatus _ ans).patch = _
  have counted : (d.countAccepted false (some ans)).patch = d.patch := by
    unfold Dev.countAccepted
    dsimp only
    split <;> rfl
  unfold Dev.keepPatchStatus
  split
  · exact congrArg (fun x : Patch => { x with last := ans.status }) counted
  · exact counted

/-- A PATCH_LOAD that is answered OK leaves the patch load as its action made it. -/
theorem State.patchLoad_acts {s : State} {tag : Byte} {p : List Byte} {d : Dev} (h : s.accepts 0xF0 p)
    (action : opPatchLoad p s.dev.opened = (d, ok [])) :
    ∃ t, s.packet 0xF0 0 tag p = .next t ∧ t.dev.patch = d.patch :=
  State.packet_patch (ans := ok []) h (congrArg acts action :)

/-- A PATCH_LOAD that is rejected keeps its status too. -/
theorem State.patchLoad_refuses {s : State} {tag st : Byte} {p : List Byte} {d : Dev} (h : s.accepts 0xF0 p)
    (bad : (st != 0) = true) (action : opPatchLoad p s.dev.opened = (d, fail st [])) :
    ∃ t, s.packet 0xF0 0 tag p = .next t ∧ t.dev.patch = { d.patch with last := st } := by
  obtain ⟨t, runs, patch⟩ := State.packet_patch (tag := tag) (ans := fail st []) h (congrArg acts action :)
  exact ⟨t, runs, patch.trans (congrArg Dev.patch (if_pos bad))⟩

section
variable {d : Dev} {a : List Byte} (usable : d.patchClosed = false)
include usable

theorem opPatchLoad_begin (least : 8 ≤ field a 3 4) (most : field a 3 4 ≤ 65536) (whole : field a 3 4 % 8 = 0)
    (versioned : field a 7 4 ≠ 0) (step : field a 11 2 = 0x0302) (part : byteAt a 13 = 0x43) :
    opPatchLoad (0 :: a) d = (d.setPatch fun x => { x with
      st := .loading, begin_ := (a.drop 3).take 12, image := [], length := field a 3 4
      version := BitVec.ofNat 32 (field a 7 4) }, ok []) := by
  have last : field a 13 1 = 0x43 := by
    rw [← part]
    unfold field byteAt
    rw [List.getD_eq_getElem?_getD, ← List.head?_drop]
    cases a.drop 13 <;> simp [leNat]
  have good : ¬ (field a 3 4 < 8 || 65536 < field a 3 4 || field a 3 4 % 8 != 0 || field a 7 4 = 0 || field a 11 2 != 0x0302 ||
      field a 13 1 != 0x43) = true := by
    simp [whole, versioned, step, last]
    omega
  exact (if_neg (by simp [usable])).trans (if_neg good)

theorem opPatchLoad_data (loading : d.patch.st = .loading) (next : field a 3 4 = d.patch.image.length)
    (fits : d.patch.image.length + (a.drop 7).length ≤ d.patch.length) :
    opPatchLoad (1 :: a) d = (d.setPatch fun x => { x with image := x.image ++ a.drop 7 }, ok []) := by
  have good : ¬ (field a 3 4 ≠ d.patch.image.length || d.patch.length < d.patch.image.length + (a.drop 7).length) = true := by
    simp only [next, ne_eq, not_true_eq_false, decide_false, Bool.false_or, decide_eq_true_eq]
    omega
  exact (if_neg (by simp [usable])).trans ((if_neg (by simp [loading])).trans (if_neg good))

section
variable (loading : d.patch.st = .loading) (complete : d.patch.length ≤ d.patch.image.length)
include loading complete

theorem opPatchLoad_end_good (good : patchGood d.patch.begin_ d.patch.image (a.drop 3) = true) :
    opPatchLoad (2 :: a) d = ((d.setPatch fun x => { x with st := .active, running := x.version, crc := crc32 x.image }).event
      0x0008 0xFF (leBytes 4 d.patch.version.toNat), ok []) :=
  (if_neg (by simp [usable])).trans ((if_neg (by simp [loading])).trans ((if_neg (Nat.not_lt.2 complete)).trans (if_pos good)))

theorem opPatchLoad_end_bad (bad : patchGood d.patch.begin_ d.patch.image (a.drop 3) = false) :
    opPatchLoad (2 :: a) d = (d.setPatch fun x => { x with st := .rejected, image := [] }, fail stSignature []) :=
  (if_neg (by simp [usable])).trans ((if_neg (by simp [loading])).trans ((if_neg (Nat.not_lt.2 complete)).trans
    (if_neg (Bool.eq_false_iff.1 bad))))

end

theorem opPatchLoad_abort (loading : d.patch.st = .loading) :
    opPatchLoad (3 :: a) d = ({ d with patch := { d.patch with st := .abandoned, image := [] } }, ok []) := by
  refine (if_neg (by simp [usable])).trans ?_
  change patchAbort d = _
  rw [patchAbort, Dev.setPatch, if_pos loading]

end

/-- The four phases of PATCH_LOAD where it is not closed (05 R164 to R167). -/
theorem State.patchLoad_phases {s : State} {tag : Byte} {a : List Byte} (usable : s.dev.patchClosed = false) :
    (s.accepts 0xF0 (0 :: a) → 8 ≤ field a 3 4 → field a 3 4 ≤ 65536 → field a 3 4 % 8 = 0 → field a 7 4 ≠ 0 →
      field a 11 2 = 0x0302 → byteAt a 13 = 0x43 →
      ∃ t, s.packet 0xF0 0 tag (0 :: a) = .next t ∧ t.dev.patch.st = .loading ∧ t.dev.patch.image = [] ∧
        t.dev.patch.length = field a 3 4 ∧ t.dev.patch.version = BitVec.ofNat 32 (field a 7 4)) ∧
    (s.accepts 0xF0 (1 :: a) → s.dev.patch.st = .loading → field a 3 4 = s.dev.patch.image.length →
      s.dev.patch.image.length + (a.drop 7).length ≤ s.dev.patch.length →
      ∃ t, s.packet 0xF0 0 tag (1 :: a) = .next t ∧ t.dev.patch.image = s.dev.patch.image ++ a.drop 7) ∧
    (s.accepts 0xF0 (2 :: a) → s.dev.patch.st = .loading → s.dev.patch.length ≤ s.dev.patch.image.length →
      ∃ t, s.packet 0xF0 0 tag (2 :: a) = .next t ∧
        (patchGood s.dev.patch.begin_ s.dev.patch.image (a.drop 3) = true → t.dev.patch.st = .active ∧
          t.dev.patch.running = s.dev.patch.version ∧ t.dev.patch.crc = crc32 s.dev.patch.image) ∧
        (patchGood s.dev.patch.begin_ s.dev.patch.image (a.drop 3) = false → t.dev.patch.st = .rejected ∧
          t.dev.patch.last = stSignature ∧ t.dev.patch.running = s.dev.patch.running)) ∧
    (s.accepts 0xF0 (3 :: a) → s.dev.patch.st = .loading →
      ∃ t, s.packet 0xF0 0 tag (3 :: a) = .next t ∧ t.dev.patch.st = .abandoned ∧ t.dev.patch.image = []) := by
  have patch : s.dev.opened.patch = s.dev.patch := s.dev.opened_patch
  have usable' : s.dev.opened.patchClosed = false := by rwa [Dev.patchClosed, Dev.opened_ctl, patch]
  refine ⟨fun h least most whole versioned step part => ?begin, fun h loading next fits => ?data,
    fun h loading complete => ?finish, fun h loading => ?abort⟩
  case begin =>
    obtain ⟨t, runs, load⟩ := State.patchLoad_acts (tag := tag) h
      (opPatchLoad_begin usable' least most whole versioned step part)
    refine ⟨t, runs, ?_, ?_, ?_, ?_⟩ <;> rw [load] <;> rfl
  case data =>
    obtain ⟨t, runs, load⟩ := State.patchLoad_acts (tag := tag) h
      (opPatchLoad_data usable' (by rwa [patch]) (by rwa [patch]) (by rwa [patch]))
    exact ⟨t, runs, load ▸ congrArg (Patch.image · ++ _) patch⟩
  case finish =>
    rw [← patch] at loading complete ⊢
    cases signature : patchGood s.dev.opened.patch.begin_ s.dev.opened.patch.image (a.drop 3)
    case true =>
      obtain ⟨t, runs, load⟩ := State.patchLoad_acts (tag := tag) h (opPatchLoad_end_good usable' loading complete signature)
      rw [Dev.event_patch] at load
      exact ⟨t, runs, fun _ => by rw [load]; exact ⟨rfl, rfl, rfl⟩, fun bad => nomatch bad⟩
    case false =>
      obtain ⟨t, runs, load⟩ := State.patchLoad_refuses (tag := tag) h (by decide)
        (opPatchLoad_end_bad usable' loading complete signature)
      exact ⟨t, runs, fun good => (nomatch good), fun _ => by rw [load]; exact ⟨rfl, rfl, rfl⟩⟩
  case abort =>
    obtain ⟨t, runs, load⟩ := State.patchLoad_acts (tag := tag) h (opPatchLoad_abort usable' (by rwa [patch]))
    refine ⟨t, runs, ?_, ?_⟩ <;> rw [load]

end Sys2Proof.Machine

namespace Sys2Proof
open Machine

/-- Settles O28: each opcode by what it does where its checks pass; a packet meets the flash, the zones and the patch load of the
device, which the start of its bar leaves. -/
theorem flashAndPatchOpcodesAct : Obligations.FlashAndPatchOpcodesAct := by
  intro s tag _
  have nv : s.dev.opened.nv = s.dev.nv := s.dev.opened_nv
  have therm : s.dev.opened.therm = s.dev.therm := s.dev.opened_therm
  have now : s.dev.opened.now = s.dev.now := s.dev.opened_now
  have room (n : Nat) : s.dev.opened.hasRoom n = s.dev.hasRoom n := s.dev.opened_hasRoom n
  refine ⟨fun a h plain aligned inside open_ warm idle blank fresh => ?program,
    fun a h some_ open_ warm idle => ?erase, fun l h level => ?protect, fun a h host warm fits => ?write,
    fun a h host warm held fits => ?delete, fun a => State.patchLoad_phases⟩
  case program =>
    have act := opNvProgram_of_blank (d := s.dev.opened) plain aligned inside (by rwa [nv]) (by rwa [therm]) (by rwa [nv])
      (by rwa [nv, now]) (by rwa [nv])
    obtain ⟨t, runs, flash, answered⟩ := State.packet_flash (tag := tag) h (congrArg acts act)
    refine ⟨t, runs, ?_, ?_, ?_, ?_, ?_, answered⟩ <;> rw [flash] <;> rfl
  case erase =>
    have act := opNvErase_of_sectors (d := s.dev.opened) some_ (by rwa [nv]) (by rwa [therm]) (by rwa [nv])
    obtain ⟨t, runs, flash, answered⟩ := State.packet_flash (tag := tag) h (congrArg acts act)
    refine ⟨t, runs, ?_, ?_, ?_, answered⟩ <;> rw [flash] <;> rfl
  case protect =>
    obtain ⟨t, runs, flash, answered⟩ := State.packet_flash (tag := tag) h (congrArg acts (opNvProtect_of_level level))
    exact ⟨t, runs, by rw [flash], answered⟩
  case write =>
    have act := opRecWrite_of_room (d := s.dev.opened) host (by rwa [therm]) (by rwa [room])
    rw [nv, now] at act
    obtain ⟨t, runs, flash, answered⟩ := State.packet_flash (tag := tag) h (congrArg acts act)
    exact ⟨t, runs, by rw [flash, Flash.enqueue_appends], by rw [flash]; rfl, answered⟩
  case delete =>
    have act := opRecDelete_of_room (d := s.dev.opened) host (by rwa [therm]) (by rwa [nv]) (by rwa [room])
    rw [nv, now] at act
    obtain ⟨t, runs, flash, answered⟩ := State.packet_flash (tag := tag) h (congrArg acts act)
    exact ⟨t, runs, by rw [flash, Flash.enqueue_appends], answered⟩

end Sys2Proof

/-! SUPPORT. O23: what VOICE_SET, VOICE_DUTY, VOICE_CLEAR_FAULT and VOICE_RETIRE do to one voice outside a gang (05 R151 to R155,
08 R238). -/

namespace Sys2Proof.Machine
open Sys2Proof

/-! ### Masks (05 R136) -/

theorem testBit_packBits (bs : List Bool) (i : Nat) : (packBits bs).testBit i = bs.getD i false := by
  induction bs generalizing i with
  | nil => simp [packBits]
  | cons b bs ih =>
    have packed : packBits (b :: bs) = 2 * packBits bs + b.toNat := by cases b <;> rfl
    have low : b.toNat < 2 := b.toNat_lt
    rw [packed]
    cases i with
    | zero => cases b <;> simp [Nat.testBit_zero]
    | succ i =>
      have halved : (2 * packBits bs + b.toNat) / 2 = packBits bs := by omega
      rw [Nat.testBit_succ, halved, ih]
      rfl

theorem idx_getD (p : VoiceId → Bool) (v : VoiceId) : ((idx 48).map p).getD v.val false = p v := by
  rw [List.getD_eq_getElem?_getD, List.getElem?_map, idx, List.getElem?_ofFn, dif_pos v.isLt]
  rfl

theorem inMask_maskOf (p : VoiceId → Bool) (v : VoiceId) : inMask (maskOf p) v = p v := by
  rw [inMask, maskOf, BitVec.getLsbD_ofNat, testBit_packBits, idx_getD]
  simp

theorem inMask_or (m n : Mask) (v : VoiceId) : inMask (m ||| n) v = (inMask m v || inMask n v) := BitVec.getLsbD_or

theorem inMask_diff (m n : Mask) (v : VoiceId) : inMask (m &&& ~~~ n) v = (inMask m v && !inMask n v) := by
  simp [inMask]

theorem mem_maskVoices {m : Mask} {v : VoiceId} : v ∈ maskVoices m ↔ inMask m v = true := by
  simp [maskVoices, mem_idx]

/-- The mask whose bytes stand behind some others is read back. -/
theorem maskAt_append_maskBytes {p : List Byte} {o : Nat} (h : p.length = o) (m : Mask) : maskAt (p ++ maskBytes m) o = m := by
  rw [maskAt, maskBytes, field_append_leBytes h m.isLt, BitVec.ofNat_toNat, BitVec.setWidth_eq]

theorem maskVoices_congr {m n : Mask} (same : ∀ v, inMask m v = inMask n v) : maskVoices m = maskVoices n :=
  List.filter_congr fun v _ => same v

/-! ### The units that a mask of one voice outside a gang names -/

section
variable {d : Dev} {v : VoiceId} {m : Mask} (one : maskVoices m = [v]) (alone : d.gang v = none)

include one in
theorem inMask_iff_of_one (u : VoiceId) : inMask m u = true ↔ u = v := by
  rw [← mem_maskVoices, one, List.mem_singleton]

/-- The even voice of the pair of a voice. -/
def gangHead (v : VoiceId) : VoiceId := if v.val % 2 = 0 then v else prevVoice v

theorem gangHead_even (v : VoiceId) : (gangHead v).val % 2 = 0 := by
  unfold gangHead
  split
  · assumption
  · simp only [prevVoice]
    omega

theorem gangHead_of_mem {e v : VoiceId} (even : e.val % 2 = 0) (mem : v ∈ [e, nextVoice e]) : gangHead v = e := by
  have bound := e.isLt
  rcases List.mem_cons.1 mem with rfl | mem
  · exact if_pos even
  · obtain rfl := List.mem_singleton.1 mem
    have odd : ¬ (nextVoice e).val % 2 = 0 := by simp only [nextVoice]; omega
    refine (if_neg odd).trans (Fin.ext ?_)
    simp only [prevVoice, nextVoice]
    omega

theorem Dev.gang_eq_some {u e : VoiceId} : d.gang u = some e ↔ gangHead u = e ∧ d.vfld e 0 8 1 = 1 := by
  have gang : d.gang u = if d.vfld (gangHead u) 0 8 1 = 1 then some (gangHead u) else none := rfl
  rw [gang]
  constructor
  · intro ganged
    split at ganged
    · next set_ => exact ⟨Option.some.inj ganged, Option.some.inj ganged ▸ set_⟩
    · cases ganged
  · rintro ⟨rfl, set_⟩
    exact if_pos set_

/-- A voice outside a gang is a member of no other unit. -/
theorem Dev.not_mem_unitOf_of_no_gang (alone : d.gang v = none) {u : VoiceId} (other : u ≠ v) : v ∉ d.unitOf u := by
  intro mem
  unfold Dev.unitOf at mem
  split at mem
  · next e ganged =>
    obtain ⟨rfl, set_⟩ := Dev.gang_eq_some.1 ganged
    have same := gangHead_of_mem (gangHead_even u) mem
    rw [Dev.gang_eq_some.2 ⟨same, set_⟩] at alone
    cases alone
  · exact other (List.mem_singleton.1 mem).symm

include one alone

theorem Dev.unitOf_any_of_one (u : VoiceId) : (d.unitOf u).any (inMask m) = inMask m u := by
  rcases Decidable.em (u = v) with rfl | other
  · simp [Dev.unitOf_of_no_gang alone]
  · have out : inMask m u = false := Bool.eq_false_iff.2 fun named => other ((inMask_iff_of_one one u).1 named)
    rw [out, List.any_eq_false]
    intro w mem named
    exact Dev.not_mem_unitOf_of_no_gang alone other ((inMask_iff_of_one one w).1 named ▸ mem)

theorem Dev.heads_of_one : d.heads m = [v] := by
  rw [← one, Dev.heads, maskVoices]
  refine List.filter_congr fun u _ => ?_
  rw [Dev.unitOf_any_of_one one alone]
  cases named : inMask m u
  · rw [Bool.and_false]
  · obtain rfl := (inMask_iff_of_one one u).1 named
    simp [Dev.headOf_of_no_gang alone]

end

/-! ### An ON and an OFF asked of a voice (05 R152, 08 R233) -/

/-- The device where voice `v` is commanded ON, and no turn-off of it waits for the end of the slot. -/
def Dev.commandedOn (d : Dev) (v : VoiceId) : Dev :=
  { d.modVoice v fun x => { x with cmd := true } with slotOffs := d.slotOffs &&& ~~~ maskOf (fun m => m = v) }

theorem Dev.commandedOn_voice_self (d : Dev) (v : VoiceId) : (d.commandedOn v).voice v = { d.voice v with cmd := true } :=
  Dev.voice_modVoice_self d v _

section
variable {d : Dev} {v : VoiceId} (alone : d.gang v = none)
include alone

/-- A turn-on asked for a voice that is neither driven nor waiting waits from now on (10 R298). -/
theorem Dev.ask_of_idle (undriven : (d.voice v).driven = false) (idle : (d.voice v).wait = none) (source : TurnOnSource)
    (profile prio : Nat) : ∃ w, w.source = source ∧
      d.ask v source profile prio = d.modVoice v fun x => { x with wait := some w } := by
  have waits_not : ¬ (d.voice v).wait.isSome = true := by simp [idle]
  have off : ¬ d.unitDriven v = true := by simp [Dev.unitDriven_of_no_gang alone, undriven]
  unfold Dev.ask
  rw [Dev.headOf_of_no_gang alone]
  refine ⟨_, ?_, (if_neg off).trans (if_neg waits_not)⟩
  rfl

/-- After an ON on a voice that is OFF the voice is commanded ON and waits for its turn-on. -/
theorem Dev.askOn_of_off (off : (d.voice v).st = .off) (idle : (d.voice v).wait = none) (free : d.bar v = .none)
    (source : TurnOnSource) (profile prio : Nat) : ∃ w, w.source = source ∧
      d.askOn v source profile prio = (d.commandedOn v).modVoice v fun x => { x with wait := some w } := by
  have undriven : (d.voice v).driven = false := by rw [Voice.driven, off]; rfl
  have not_on : d.unitOn v = false := by simp [Dev.unitOn, Dev.unitOf_of_no_gang alone, Voice.isOn, undriven]
  have commanded : ((d.modVoice v fun x => { x with cmd := true }).voice v).driven = false := by
    rw [Dev.voice_modVoice_self]
    exact undriven
  have alone' : (d.commandedOn v).gang v = none := alone
  obtain ⟨w, src, asked⟩ := Dev.ask_of_idle alone' (by rwa [Dev.commandedOn_voice_self]) (by rwa [Dev.commandedOn_voice_self])
    source profile prio
  refine ⟨w, src, Eq.trans ?_ asked⟩
  unfold Dev.askOn
  rw [Dev.headOf_of_no_gang alone]
  dsimp only
  rw [not_on, free, Dev.unitOf_of_no_gang alone]
  dsimp only [Dev.forVoices, List.foldl_cons, List.foldl_nil]
  rw [Dev.turnOff_of_not_driven commanded]
  rfl

/-- The device after an OFF on a voice that is ON: the voice is commanded OFF, and turns off at the end of the slot. -/
theorem Dev.askOff_of_on (on : (d.voice v).st = .on) (idle : (d.voice v).wait = none) :
    d.askOff v = { d.modVoice v fun x => { x with cmd := false } with slotOffs := d.slotOffs ||| maskOf (fun m => m = v) } := by
  let d1 : Dev := d.modVoice v fun x => { x with cmd := false }
  have alone1 : d1.gang v = none := alone
  have self : d1.voice v = { d.voice v with cmd := false } := Dev.voice_modVoice_self ..
  have in_state (st : VState) (other : st ≠ .on) : d1.unitIn v st = false := by
    rw [Dev.unitIn_of_no_gang alone1, self, on]
    simpa using Ne.symm other
  have driven : d1.unitDriven v = true := by
    rw [Dev.unitDriven_of_no_gang alone1, self, Voice.driven, on]
    rfl
  unfold Dev.askOff
  rw [Dev.headOf_of_no_gang alone]
  dsimp only [Dev.forVoices, List.foldl_cons, List.foldl_nil]
  rw [idle, Dev.unitOf_of_no_gang alone]
  have settled : (if d1.unitIn v .retryWait then d1.endRetry v else d1) = d1 :=
    if_neg (by rw [in_state .retryWait (by decide)]; decide)
  have no_fault : ¬ (d1.unitIn v .tripped || d1.unitIn v .checking) = true := by
    rw [in_state .tripped (by decide), in_state .checking (by decide)]
    decide
  change (let d2 := if d1.unitIn v .retryWait then d1.endRetry v else d1
    if d2.unitIn v .tripped || d2.unitIn v .checking then
      d2.modVoice v fun y => { y with checks := { y.checks with offAsked := true } }
    else if d2.unitDriven v then { d2 with slotOffs := d2.slotOffs ||| maskOf (fun m => m = v) } else d2) = _
  rw [settled]
  exact (if_neg no_fault).trans (if_pos driven)

end

/-! ### The opcodes on one voice outside a gang -/

section
variable {d : Dev} {v : VoiceId} {m : Mask} (one : maskVoices m = [v]) (alone : d.gang v = none)
include one alone

/-- VOICE_SET on one voice (05 R151). -/
theorem opVoiceSet_one {action : Byte} (known : action.toNat ≤ 1) :
    (opVoiceSet (action :: 0xFF :: maskBytes m) d).1 = (d.setVoice v (action.toNat = 1)).1 := by
  have mask : maskAt (action :: 0xFF :: maskBytes m) 2 = m := maskAt_append_maskBytes (p := [action, 0xFF]) rfl m
  have some_ : m ≠ 0 := by
    rintro rfl
    have empty : maskVoices (0 : Mask) = [] := by decide
    rw [empty] at one
    cases one
  have good : ¬ (1 < action.toNat || (0x40 ≤ 0xFF && 0xFF ≤ 0xFE) || (0xFF = 0xFF && m = 0) || (0xFF < 0x40 && m != 0)) = true := by
    simp only [decide_eq_false some_, Bool.and_false, Bool.or_false]
    simpa using known
  unfold opVoiceSet
  dsimp only
  rw [mask]
  refine (congrArg Prod.fst (if_neg good)).trans ?_
  rw [if_pos (show byteAt (action :: 0xFF :: maskBytes m) 1 = 0xFF from rfl), Dev.heads_of_one one alone]
  split <;> rfl

/-- VOICE_CLEAR_FAULT on one voice that is LATCHED (05 R154). -/
theorem opVoiceClearFault_latched (latched : (d.voice v).st = .latched) :
    (opVoiceClearFault (maskBytes m) d).1 = (d.withdraw v).modVoice v fun y => { y with
      st := if y.st = .latched || y.st = .tripped || y.st = .retryWait then .off else y.st, retry := 0, fault := 0, cmd := false
      retryAt := none, retryReady := false, idleSince := if y.st = .tripped then d.now else y.idleSince } := by
  have mask : maskAt (maskBytes m) 0 = m := maskAt_append_maskBytes (p := []) rfl m
  have none_refused : maskVoices (m &&& ~~~ maskOf fun u => inMask m u && ((d.voice u).st == .checking || (d.voice u).st == .retired)) =
      [v] := by
    rw [← one]
    refine maskVoices_congr fun u => ?_
    rw [inMask_diff, inMask_maskOf]
    cases named : inMask m u
    · rfl
    · rw [(inMask_iff_of_one one u).1 named, latched]
      rfl
  unfold opVoiceClearFault
  dsimp only
  rw [mask, none_refused]
  dsimp only [Dev.forVoices, List.foldl_cons, List.foldl_nil]
  rw [Dev.unitOf_of_no_gang alone, if_pos (by simp [latched])]
  rfl

/-- VOICE_RETIRE on one voice that is not RETIRED, while no check runs (05 R155). -/
theorem opVoiceRetire_one (live : (d.voice v).st ≠ .retired) (no_check : d.sc.running = none) :
    (opVoiceRetire (maskBytes m) d).1 = (d.retireVoice v 1 0 0 0).1 := by
  have mask : maskAt (maskBytes m) 0 = m := maskAt_append_maskBytes (p := []) rfl m
  have named : (idx 48).filter (fun u => (d.unitOf u).any (inMask m)) = [v] := by
    rw [← one]
    exact List.filter_congr fun u _ => Dev.unitOf_any_of_one one alone u
  have fresh : ([v].filter fun u => (d.voice u).st != .retired) = [v] := by simp [live]
  unfold opVoiceRetire
  dsimp only
  rw [mask, named, fresh, no_check]
  rfl

end

/-- VOICE_DUTY of one voice that runs in PWM mode (05 R153). -/
theorem opVoiceDuty_one {d : Dev} {v : VoiceId} (lo hi : Byte) (pwm : (d.voice v).st = .pwm)
    (mode : (d.voice v).driveMode = 1) (free : (d.voice v).barred = false)
    (drives : (d.voice v).half = false ∨ (d.voice v).gate = true) :
    (opVoiceDuty [b8 v.val, 0, lo, hi] d).1 = d.applyDuty v (field [lo, hi] 0 2) := by
  have number : (b8 v.val).toNat = v.val := by
    have bound := v.isLt
    simp only [b8, BitVec.toNat_ofNat]
    omega
  have entries : dutyEntries [b8 v.val, 0, lo, hi] = [(v.val, field [lo, hi] 0 2)] :=
    (congrArg (fun n => [(n, field [lo, hi] 0 2)]) number :)
  have known : ¬ ([(v.val, field [lo, hi] 0 2)].any fun e => 48 ≤ e.1) = true := by simp
  have same : (⟨v.val % 48, Nat.mod_lt _ (by decide)⟩ : VoiceId) = v := Fin.ext (Nat.mod_eq_of_lt v.isLt)
  have runs : (d.voice v).isOn = true := by simpa [Voice.isOn, Voice.driven, pwm, VState.isDriven] using drives
  have entry : (d.dutyEntry v (field [lo, hi] 0 2)).1 = d.applyDuty v (field [lo, hi] 0 2) := by
    unfold Dev.dutyEntry
    dsimp only
    rw [if_neg (by simp [pwm, free, VState.isFault]), if_neg (by simp [runs]), if_neg (by simp [mode])]
  unfold opVoiceDuty
  dsimp only
  rw [entries, if_neg known]
  dsimp only [List.foldl_cons, List.foldl_nil]
  rw [same]
  exact entry

/-! ### What they make of the voices -/

section
variable (d : Dev) (v : VoiceId)

/-- The voice after its retirement (07 R225): the rest of the retirement changes no voice. -/
theorem Dev.retireVoice_voice (cause trigger outcome failed : Nat) (u : VoiceId) :
    (d.retireVoice v cause trigger outcome failed).1.voice u =
    (((d.turnOff v .forced).withdraw v).modVoice v fun x => { x with
      st := .retired, cmd := false, barred := false, retryAt := none, retryReady := false, checks := .empty
      lead := { x.lead with search := none } }).voice u := by
  unfold Dev.retireVoice
  extract_lets d1 d2
  generalize dropped : d2.dropCues v = r
  obtain ⟨d3, n⟩ := r
  have cues : d3.Keeps (· ≠ .voices) d2 := by
    have kept : (d2.dropCues v).1.Keeps (· ≠ .voices) d2 := Dev.dropCues_keeps (by decide) (.refl _) _
    rwa [dropped] at kept
  have told : (((d3.waveDisarm v).retireEvent v.val cause n).retireRecord v.val cause trigger outcome failed n).Keeps
      (· ≠ .voices) d2 := by
    apply Dev.retireRecord_keeps <;> first | decide | skip
    apply Dev.retireEvent_keeps <;> first | decide | skip
    exact Dev.waveDisarm_keeps (by decide) cues _
  exact told.voice_eq (by decide) u

theorem Dev.retireVoice_retired (cause trigger outcome failed : Nat) :
    ((d.retireVoice v cause trigger outcome failed).1.voice v).st = .retired ∧
      ((d.retireVoice v cause trigger outcome failed).1.voice v).cmd = false ∧
      ((d.retireVoice v cause trigger outcome failed).1.voice v).wait = none := by
  rw [Dev.retireVoice_voice, Dev.voice_modVoice_self]
  exact ⟨rfl, rfl, Dev.withdraw_wait _ v⟩

end

/-- An opcode that answers at once leaves the voices, and those that turn off at the end of the slot, as its action made
them. -/
theorem State.packet_voices {s : State} {opc tag : Byte} {a : List Byte} {r : Dev × Answer} {d : Dev} (h : s.accepts opc a)
    (action : Dev.perform s.snap s.dev.opened { dest := 0, opc := opc, tag := tag, params := a } false = acts r)
    (made : r.1 = d) :
    ∃ t, s.packet opc 0 tag a = .next t ∧ (∀ u, t.dev.voice u = d.voice u) ∧ t.dev.slotOffs = d.slotOffs := by
  subst made
  obtain ⟨t, runs, keeps, -⟩ := State.packet_performs (tag := tag) h action
  exact ⟨t, runs, keeps.voice_eq (by decide), keeps.frame .slotOffs (by decide)⟩

theorem Dev.opened_voice (d : Dev) (u : VoiceId) : d.opened.voice u = d.voice u :=
  congrArg (fun t : Tab Voice 48 => t.get u) d.opened_voices

theorem Dev.opened_levelInput (d : Dev) (v : VoiceId) : d.opened.levelInput v = d.levelInput v := by
  obtain ⟨_, same⟩ := d.opened_eq
  rw [same]
  rfl

theorem Dev.opened_bar (d : Dev) (v : VoiceId) : d.opened.bar v = d.bar v := by
  obtain ⟨_, same⟩ := d.opened_eq
  rw [same]
  rfl

/-- A unit of its own that is not RETIRED and that no input commands takes an ON or an OFF (05 R152). -/
theorem Dev.setVoice_of_free {d : Dev} {v : VoiceId} (live : (d.voice v).st ≠ .retired) (no_input : d.levelInput v = none)
    (on : Bool) : (d.setVoice v on).1 =
      if on then d.askOn v .voiceSet (d.vfld v 0 4 4) (d.prioOf v) else d.askOff v := by
  have takes : ¬ ((d.voice v).st = .retired || (d.levelInput v).isSome) = true := by simp [live, no_input]
  refine (congrArg Prod.fst (if_neg takes)).trans ?_
  cases on <;> rfl

end Sys2Proof.Machine

namespace Sys2Proof
open Machine

/-- Settles O23: the mask names the voice as a unit of its own, and each opcode does to it what its own action does. -/
theorem voiceOpcodesAct : Obligations.VoiceOpcodesAct := by
  intro s tag v m one alone
  have alone' : s.dev.opened.gang v = none := (Dev.gang_congr s.dev.opened_par v).trans alone
  have voice (u : VoiceId) : s.dev.opened.voice u = s.dev.voice u := s.dev.opened_voice u
  refine ⟨fun h no_input off idle free => ?on, fun h no_input on idle => ?off, fun lo hi h pwm mode free drives => ?duty,
    fun h latched => ?clear, fun h live no_check => ?retire⟩
  case on =>
    obtain ⟨w, src, asked⟩ := Dev.askOn_of_off alone' (by rwa [voice]) (by rwa [voice]) (by rwa [Dev.opened_bar]) .voiceSet
      (s.dev.opened.vfld v 0 4 4) (s.dev.opened.prioOf v)
    have made := ((opVoiceSet_one (action := 1) one alone' (by decide)).trans
      (Dev.setVoice_of_free (by simp [voice, off]) (by rwa [Dev.opened_levelInput]) true)).trans asked
    obtain ⟨t, runs, voices, -⟩ := State.packet_voices (tag := tag) h rfl made
    refine ⟨t, runs, ?_, ?_, fun u other => ?_⟩
    · rw [voices, Dev.voice_modVoice_self, Dev.commandedOn_voice_self]
    · rw [voices, Dev.voice_modVoice_self, ← src]
      rfl
    · rw [voices, Dev.voice_modVoice_ne _ _ other]
      exact (Dev.voice_modVoice_ne _ _ other).trans (voice u)
  case off =>
    have made := ((opVoiceSet_one (action := 0) one alone' (by decide)).trans
      (Dev.setVoice_of_free (by simp [voice, on]) (by rwa [Dev.opened_levelInput]) false)).trans
      (Dev.askOff_of_on alone' (by rwa [voice]) (by rwa [voice]))
    obtain ⟨t, runs, voices, offs⟩ := State.packet_voices (tag := tag) h rfl made
    refine ⟨t, runs, ?_, ?_, fun u other => ?_⟩
    · rw [voices]
      exact congrArg Voice.cmd (Dev.voice_modVoice_self ..)
    · rw [offs, inMask_or, inMask_maskOf, decide_eq_true rfl, Bool.or_true]
    · rw [voices]
      exact (Dev.voice_modVoice_ne _ _ other).trans (voice u)
  case duty =>
    have made := opVoiceDuty_one lo hi (by rwa [voice]) (by rwa [voice]) (by rwa [voice]) (by rwa [voice])
    obtain ⟨t, runs, voices, -⟩ := State.packet_voices (tag := tag) h rfl made
    have set_ (u : VoiceId) := voices u
    simp only [Dev.applyDuty, Dev.unitOf_of_no_gang alone', Dev.forVoices, List.foldl_cons, List.foldl_nil] at set_
    refine ⟨t, runs, ?_, fun u other => ?_⟩
    · rw [set_, Dev.voice_modVoice_self]
    · rw [set_, Dev.voice_modVoice_ne _ _ other, voice]
  case clear =>
    have made := opVoiceClearFault_latched one alone' (by rwa [voice])
    obtain ⟨t, runs, voices, -⟩ := State.packet_voices (tag := tag) h rfl made
    have still : ((s.dev.opened.withdraw v).voice v).st = .latched := by rwa [Dev.withdraw_st, voice]
    refine ⟨t, runs, ?_, ?_, ?_, ?_, fun u other => ?_⟩
    · rw [voices, Dev.voice_modVoice_self]
      exact if_pos (by simp [still])
    · rw [voices, Dev.voice_modVoice_self]
    · rw [voices, Dev.voice_modVoice_self]
    · rw [voices, Dev.voice_modVoice_self]
    · rw [voices, Dev.voice_modVoice_ne _ _ other, Dev.withdraw_voice_ne _ other, voice]
  case retire =>
    have made := opVoiceRetire_one one alone' (by rwa [voice]) (by rwa [Dev.opened_sc])
    obtain ⟨t, runs, voices, -⟩ := State.packet_voices (tag := tag) h rfl made
    refine ⟨t, runs, ?_⟩
    rw [voices]
    exact Dev.retireVoice_retired ..

end Sys2Proof
